-- ==== Sys2Proof/Word.lean ====
section
/-!
DEFINITION. The word types of the UZ-960: a word in memory is 8 bytes (R3), a byte 8 bits, an instruction word 32 bits.
-/
namespace Sys2Proof

/-- A word of memory, 8 bytes (R3). -/
abbrev Word := BitVec 64

/-- One byte of memory. -/
abbrev Byte := BitVec 8

/-- An instruction word or an extension word (R3). -/
abbrev IWord := BitVec 32

end Sys2Proof
end

