-- ==== Sys2Proof/Machine/Bits.lean ====
section
/-!
DEFINITION. Bit fields, sign extension and byte order (R3, R6): the helpers every other file of the machine uses.
A pattern of n bits is the number below 2^n that the bits write (bit 0 least significant).
-/
namespace Sys2Proof

/-- Bits [hi:lo] of a number, as R3 names a field. -/
def field (x hi lo : Nat) : Nat := x / 2 ^ lo % 2 ^ (hi + 1 - lo)

/-- Bit [n] of a number. -/
def bitAt (x n : Nat) : Bool := x / 2 ^ n % 2 == 1

/-- The number of a single bit. -/
def bnat (b : Bool) : Nat := if b then 1 else 0

/-- The signed value of the n-bit pattern x (two's complement, R46). -/
def toSigned (n x : Nat) : Int :=
  let y := x % 2 ^ n
  if 2 * y < 2 ^ n then (y : Int) else (y : Int) - (2 ^ n : Nat)

/-- The n-bit pattern of an integer: its value modulo 2^n. -/
def toPattern (n : Nat) (v : Int) : Nat := (v % ((2 ^ n : Nat) : Int)).toNat

/-- Sign extension of an n-bit pattern to a pattern of m bits. -/
def signExt (n m x : Nat) : Nat := toPattern m (toSigned n x)

/-- The low n bits of a number as a byte list, least significant byte first (R3). -/
def toBytes : Nat → Nat → List Byte
  | 0, _ => []
  | k + 1, x => BitVec.ofNat 8 x :: toBytes k (x / 256)

/-- The number that a byte list writes, least significant byte first (R3). -/
def ofBytes : List Byte → Nat
  | [] => 0
  | b :: bs => b.toNat + 256 * ofBytes bs

/-- Bitwise operations on n-bit patterns. -/
def natAnd (x y : Nat) : Nat := x &&& y
def natOr (x y : Nat) : Nat := x ||| y
def natXor (x y : Nat) : Nat := x ^^^ y

/-- Complement of an n-bit pattern. -/
def natNot (n x : Nat) : Nat := 2 ^ n - 1 - x % 2 ^ n

/-- x rounded up to a multiple of n. -/
def alignUp (x n : Nat) : Nat := (x + n - 1) / n * n

/-- The number of one bits among the low n bits. -/
def popCount : Nat → Nat → Nat
  | 0, _ => 0
  | n + 1, x => x % 2 + popCount n (x / 2)

/-- The number of trailing zero bits of an n-bit pattern; n for zero (Table 5-3). -/
def trailingZeros : Nat → Nat → Nat
  | 0, _ => 0
  | n + 1, x => if x % 2 = 1 then 0 else 1 + trailingZeros n (x / 2)

/-- The number of leading zero bits of an n-bit pattern; n for zero (Table 5-3). -/
def leadingZeros (n x : Nat) : Nat := if x % 2 ^ n = 0 then n else n - 1 - Nat.log2 (x % 2 ^ n)

/-- One entry of an association list. -/
def alookup {α : Type} (k : Nat) : List (Nat × α) → Option α
  | [] => none
  | (j, v) :: l => if j = k then some v else alookup k l

/-- Insert or replace an entry of an association list kept in rising order of its keys. -/
def ainsert {α : Type} (k : Nat) (v : α) : List (Nat × α) → List (Nat × α)
  | [] => [(k, v)]
  | (j, u) :: l =>
    if k < j then (k, v) :: (j, u) :: l
    else if k = j then (k, v) :: l
    else (j, u) :: ainsert k v l

/-- Remove an entry of an association list. -/
def aerase {α : Type} (k : Nat) (l : List (Nat × α)) : List (Nat × α) := l.filter (fun e => e.1 != k)

/-- Insertion into a list kept in rising order of a key; equal keys keep their order. -/
def insertBy {α : Type} (key : α → Nat) (v : α) : List α → List α
  | [] => [v]
  | u :: l => if key v < key u then v :: u :: l else u :: insertBy key v l

/-- A list in rising order of a key; equal keys keep their order. -/
def sortBy {α : Type} (key : α → Nat) (l : List α) : List α := l.foldl (fun acc v => insertBy key v acc) []

/-- Set element i of a list, leaving a shorter list as it is. -/
def setAt {α : Type} (l : List α) (i : Nat) (v : α) : List α := l.set i v

/-- Element i of a list or a default. -/
def nth {α : Type} (l : List α) (i : Nat) (d : α) : α := l.getD i d

/-- Remove element i of a list. -/
def dropAt {α : Type} (l : List α) (i : Nat) : List α := l.eraseIdx i

end Sys2Proof
end

