-- ==== Sys2Proof/Syntax.lean ====
section
/-!
DEFINITION. The instructions, bytecodes and events of the UZ-960: one constructor of `Instr` for each row of the
opcode table, with the operand forms of 04_encoding. A native instruction or bytecode acts for the core that the state
names (`State.cur`); an event has no operands, and the state names its subject (`State.ev`).
-/
namespace Sys2Proof

/-- The three core classes (R99, R183). -/
inductive CoreClass where
  | compute | control | gateway
deriving DecidableEq, Repr

/-- A physical core: a compute core (x, y, k) has index 512*y + 8*x + k (R10); a control or gateway core 0-63 (R15). -/
structure CoreId where
  cls : CoreClass
  idx : Nat
deriving DecidableEq, Repr

/-- An operand specifier (Table 4-2). In a vector position `w n` with n < 8 names vector vN. -/
inductive Spec where
  | w (n : Fin 32)                       -- workspace word wN, or vector vN
  | ptr (a : Fin 8) (post : Bool)        -- [aN] or [aN+]
  | hnd (h : Fin 4) (prod : Bool)        -- hN.c or hN.p
  | cst (k : Fin 8)                      -- constant of Table 4-3
  | imm (i : BitVec 6)                   -- signed immediate
deriving DecidableEq, Repr

/-- Class I type codes (Table 4-7), also the fmt codes of format F (Table 4-8). -/
inductive IType where
  | s8 | s16 | s32 | s64 | z8 | z16 | z32 | z64
deriving DecidableEq, Repr

/-- Class V type codes (Table 4-7); `tmpr` is the tempered type `t`. -/
inductive VType where
  | fp32 | fp16 | bf16 | tmpr | s32 | z32 | s16 | s8
deriving DecidableEq, Repr

/-- Format codes (Table 4-10); `tmpr` is the code 0x20 of `t`. -/
inductive Fmt where
  | s8 | s16 | s32 | s64 | z8 | z16 | z32 | z64
  | fp32 | fp16 | bf16 | e5m2 | e4m3 | e2m1 | e8m0 | ds8
  | e5m2b32 | e4m3b32 | e2m1b32 | ds8b32 | tmpr
deriving DecidableEq, Repr

/-- Rounding modes (R55, R96). -/
inductive RMode where
  | rne | rz | ru | rd | sr
deriving DecidableEq, Repr

/-- Condition codes (Table 4-11). -/
inductive Cond where
  | eq | ne | lt | le | gt | ge | ltu | leu | gtu | geu | al
deriving DecidableEq, Repr

/-- Wait field of format F (Table 4-8). -/
inductive FWait where
  | nw | wf | wb | wm
deriving DecidableEq, Repr

/-- Order field of format F (Table 4-8); `rlx` is `sc` in a fence. -/
inductive Order where
  | rlx | acq | rel | acqrel
deriving DecidableEq, Repr

/-- Scopes (R237, Table 4-8). -/
inductive Scope where
  | core | row | dev | sys
deriving DecidableEq, Repr

/-- Operations of the atomics (Table 4-9). -/
inductive AmoOp where
  | add | min | max | and | or | xor | swp | cas
deriving DecidableEq, Repr

/-- A shape record (R35): eight 16-bit fields, any of which may be a substitution marker. -/
structure Shape where
  f0 : BitVec 16
  f1 : BitVec 16
  f2 : BitVec 16
  f3 : BitVec 16
  f4 : BitVec 16
  f5 : BitVec 16
  f6 : BitVec 16
  f7 : BitVec 16
deriving DecidableEq, Repr

/-- The instructions (native and bytecode) and events, one constructor for each row of the opcode table. -/
inductive Instr where
  -- scalar, format M (05_scalar)
  | add (t : IType) (d a b : Spec)
  | sub (t : IType) (d a b : Spec)
  | mul (t : IType) (d a b : Spec)
  | mulh (t : IType) (d a b : Spec)
  | div (t : IType) (d a b : Spec)
  | rem (t : IType) (d a b : Spec)
  | and (t : IType) (d a b : Spec)
  | or (t : IType) (d a b : Spec)
  | xor (t : IType) (d a b : Spec)
  | andn (t : IType) (d a b : Spec)
  | shl (t : IType) (d a b : Spec)
  | shr (t : IType) (d a b : Spec)
  | sar (t : IType) (d a b : Spec)
  | rot (t : IType) (d a b : Spec)
  | min (t : IType) (d a b : Spec)
  | max (t : IType) (d a b : Spec)
  | abs (t : IType) (d a : Spec)
  | neg (t : IType) (d a : Spec)
  | sel (t : IType) (d a b : Spec)
  | clz (t : IType) (d a : Spec)
  | ctz (t : IType) (d a : Spec)
  | popc (t : IType) (d a : Spec)
  | bext (t : IType) (d a b : Spec)
  | bins (t : IType) (d a b : Spec)
  | mov (t : IType) (d a : Spec)
  | lea (d a b : Spec)
  | pset (p : Fin 8) (a b : Spec)
  | mset (m : Fin 4) (a b : Spec)
  | hbind (h : Fin 4) (a b : Spec)
  | hadvC (h : Fin 4) (a : Spec)
  | hadvP (h : Fin 4) (a : Spec)
  | hstat (d : Spec) (h : Fin 4)
  | cmp (c : Cond) (t : IType) (d a b : Spec)
  | ld (t : IType) (d a b : Spec)
  | st (t : IType) (d a b : Spec)
  | ldt (t : IType) (f : Fmt) (rm : RMode) (d a b : Spec)
  | stt (t : IType) (f : Fmt) (rm : RMode) (d a b : Spec)
  -- vector, format M (06_vector)
  | vadd (t : VType) (d a b : Spec)
  | vsub (t : VType) (d a b : Spec)
  | vmul (t : VType) (d a b : Spec)
  | vfma (t : VType) (d a b : Spec)
  | vfms (t : VType) (d a b : Spec)
  | vmin (t : VType) (d a b : Spec)
  | vmax (t : VType) (d a b : Spec)
  | vabs (t : VType) (d a : Spec)
  | vneg (t : VType) (d a : Spec)
  | vsel (t : VType) (d a b : Spec)
  | vand (t : VType) (d a b : Spec)
  | vor (t : VType) (d a b : Spec)
  | vxor (t : VType) (d a b : Spec)
  | vnot (t : VType) (d a : Spec)
  | vshl (t : VType) (d a b : Spec)
  | vshr (t : VType) (d a b : Spec)
  | vsar (t : VType) (d a b : Spec)
  | vcvt (f g : Fmt) (rm : RMode) (d a : Spec)
  | vrcp (t : VType) (d a : Spec)
  | vrsq (t : VType) (d a : Spec)
  | vexp2 (t : VType) (d a : Spec)
  | vlog2 (t : VType) (d a : Spec)
  | vrsum (t : VType) (d a : Spec)
  | vrmax (t : VType) (d a : Spec)
  | vrmin (t : VType) (d a : Spec)
  | vperm (t : VType) (d a b : Spec)
  | vbcast (t : VType) (d a : Spec)
  | vins (t : VType) (d a b : Spec)
  | vext (t : VType) (d a b : Spec)
  | vkey (t : VType) (d a b : Spec)
  | vhist (t : VType) (d a b : Spec)
  | vcompress (t : VType) (d a : Spec)
  | vcount (t : VType) (d a b : Spec)
  | vld (t : VType) (d a b : Spec)
  | vst (t : VType) (d a b : Spec)
  | vldx (t : VType) (d a b : Spec)
  | vstx (t : VType) (d a b : Spec)
  | vcmp (c : Cond) (t : VType) (d a b : Spec)
  | vaddRnd (t : VType) (rm : RMode) (d a b : Spec)
  | vsubRnd (t : VType) (rm : RMode) (d a b : Spec)
  | vmulRnd (t : VType) (rm : RMode) (d a b : Spec)
  | vfmaRnd (t : VType) (rm : RMode) (d a b : Spec)
  | vfmsRnd (t : VType) (rm : RMode) (d a b : Spec)
  | vrcpRnd (t : VType) (rm : RMode) (d a : Spec)
  | vrsqRnd (t : VType) (rm : RMode) (d a : Spec)
  | vexp2Rnd (t : VType) (rm : RMode) (d a : Spec)
  | vlog2Rnd (t : VType) (rm : RMode) (d a : Spec)
  | vrsumRnd (t : VType) (rm : RMode) (d a : Spec)
  -- format I
  | movi (t : IType) (d : Spec) (i : BitVec 14)
  | addi (t : IType) (d : Spec) (i : BitVec 14)
  | li (t : IType) (d : Spec) (e : BitVec 32)
  -- format F
  | fst (w : FWait) (f : IType) (o : Order) (d a : Spec) (vec : Bool) (s : Scope)
  | fld (w : FWait) (f : IType) (o : Order) (d a : Spec) (vec : Bool) (s : Scope)
  | fence (w : FWait) (s : Scope) (o : Order)
  | amo (c : Scope) (w : FWait) (f : IType) (o : Order) (d a : Spec) (p : AmoOp)
  | send (w : FWait) (o : Order) (d a : Spec)
  | sendm (w : FWait) (o : Order) (d a : Spec)
  | enq (w : FWait) (o : Order) (d a : Spec) (k : Bool)
  -- format X; the fields that a check after the shape record decides stay as numbers (R92, R169, R223)
  | kctx (r : Shape)
  | kring (q : Fin 8) (r : Shape)
  | kslip (q : Fin 8) (r : Shape)
  | kmm (q : Fin 8) (tile : Fin 16) (mode : BitVec 2) (off : Spec) (r : Shape)
  | kmmG (q : Fin 8) (tile : Fin 16) (mode : BitVec 2) (off : Spec) (r : Shape)
  | kst (rm : BitVec 3) (x : Spec) (r : Shape)
  | kclr (r : Shape)
  | cpy (q : Fin 8) (tile : Fin 16) (kind : BitVec 3) (o : Bool) (d : Spec) (r : Shape)
  | cpys (tile : Fin 16) (kind : BitVec 3) (o : Bool) (d : Spec) (r : Shape)
  -- format B
  | b (c : Cond) (off : BitVec 20)
  | j (e : BitVec 32)
  | call (off : BitVec 20)
  | loop (n : Fin 16) (off : BitVec 20)
  -- format S, 0xF0 system
  | nop
  | endFiring
  | ret
  | jx (a : Spec)
  | trap (k : BitVec 16)
  | brk (k : BitVec 16)
  | rttResume
  | rttSkip
  | rttAbort
  | rttDrop
  | rttKill
  | sflag (d a : Spec)
  | wpset (a : Spec)
  | wdog (d a : Spec)
  | srr (d a : Spec)
  | srw (n : BitVec 7) (b : Spec)
  | rdcyc (d : Spec)
  | pair (d a : Spec)
  -- 0xF1 channels
  | chbind (a b : Spec)
  | chhold (a b : Spec)
  | chrdy (a b : Spec)
  | chmask (a b : Spec)
  | chstat (d a : Spec)
  | mnext (d : Spec)
  -- 0xF2 tiles
  | tdef (tile : Fin 16) (a : Spec)
  | tarm (tile : Fin 16) (a : Spec)
  | twait (tile : Fin 16) (a : Spec)
  | ttest (d : Spec) (tile : Fin 16)
  | tdrain (tile : Fin 16)
  | jwait (a : Spec)
  | jpoll (d a : Spec)
  -- 0xF3 kiln queue
  | kadv (q : Fin 8) (a : Spec)
  | kwait
  | kleave (d a : Spec)
  | kstat (d a : Spec)
  -- 0xF4 barriers and gateways
  | gbar (d : Spec)
  | gqGet (d : Spec)
  | baddRq (x c : Spec)
  -- 0xF5 launch
  | launch (d a : Spec)
  | trig
  | dwait (d : Spec)
  | lwait (d a : Spec)
  | lstat (d a : Spec)
  -- 0xF6 saggars
  | sgnew (d a : Spec)
  | sgatt (d a : Spec)
  | sgdet (a : Spec)
  | sgrel (a b : Spec)
  | sgpin (a b : Spec)
  | sgevict (d a : Spec)
  | sgstat (d a : Spec)
  -- 0xF7 temper
  | tmprGet (d a : Spec)
  | tmprPick (d a : Spec)
  | tmprDem (d a : Spec)
  | tmprRe (d a : Spec)
  | tmprAch (a : Spec)
  -- 0xF8 translation
  | ttbw (a b : Spec)
  | ttbi (a : Spec)
  | ttbp (d a : Spec)
  | tlbi (a : Spec)
  | fbpop (d a : Spec)
  | replay (d a : Spec)
  -- 0xF9 control
  | bld (z : BitVec 2) (d a : Spec)
  | bst (z : BitVec 2) (a b : Spec)
  | icw (a b : Spec)
  | ici (a : Spec)
  | icr (d a : Spec)
  -- 0xFA serving
  | sqRd (d a : Spec)
  | sqWr (d a : Spec)
  | sqBuild (d a : Spec)
  | ltokWait (d : Spec)
  | ltokPass (a : Spec)
  | dkRun (d a : Spec)
  | dkWait (d a : Spec)
  -- Sprinix bytecodes (Table 19-4)
  | bcConst (k : BitVec 16)
  | bcLoadl (i : BitVec 8)
  | bcStorel (i : BitVec 8)
  | bcLoadg (n : BitVec 16)
  | bcStoreg (n : BitVec 16)
  | bcLoadattr (n s : BitVec 16)
  | bcStoreattr (n s : BitVec 16)
  | bcLoadidx (s : BitVec 16)
  | bcStoreidx (s : BitVec 16)
  | bcBinary (o : BitVec 8) (s : BitVec 16)
  | bcUnary (o : BitVec 8) (s : BitVec 16)
  | bcCompare (c : BitVec 8) (s : BitVec 16)
  | bcCall (n : BitVec 8) (s : BitVec 16)
  | bcCallmeth (n : BitVec 8) (s : BitVec 16)
  | bcReturn
  | bcJump (t : BitVec 16)
  | bcJumpt (t : BitVec 16)
  | bcJumpf (t : BitVec 16)
  | bcWalk
  | bcAdvance (t : BitVec 16)
  | bcBuildtuple (n : BitVec 8)
  | bcBuildlist (n : BitVec 8)
  | bcUnpack (n : BitVec 8)
  | bcPop
  | bcDup
  | bcSwap
  | bcRaise
  | bcSetuptry (t : BitVec 16)
  | bcPoptry
  | bcAwait
  | bcNewobj (n : BitVec 8)
  | bcIsinst (n s : BitVec 16)
  | bcMakefunc (k : BitVec 16)
  | bcLoadclosure (i : BitVec 8)
  -- events: firings and messages (08_firings, 12_traps, 14_launch)
  | selection
  | messageInject
  | messageArrival
  | messageRefusalReply
  | messageRetry
  | enqueueArrival
  | enqueueLanding
  | channelPacketArrival
  | cancelPacketArrival
  | budgetExpiry
  | boundaryTrap
  | faultRecordWrite
  | codeStreamLanding
  | vectorCompletion
  -- events: fabric and atomics (10_counts_atomics)
  | fabricStorePerform
  | fabricLoadPerform
  | storeAck
  | fldReturn
  | fabricRetryReply
  | fabricRetry
  | atomicPerform
  | atomicReply
  -- events: kiln (07_kiln, 26_power)
  | kilnAccept
  | slipPhaseStart
  | kilnPhaseStart
  | kilnRetire
  | issueWindow
  -- events: copies and translation (09_tiles_copies, 17_tiers)
  | copyJobStart
  | chunkRequest
  | streamerRequest
  | beatLanding
  | walkSlotStart
  | walkEnd
  | fbdestWrite
  -- events: barriers, gateways, links (10, 25, 28)
  | gbarRelease
  | blockLanded
  | peerFlitArrival
  | peerFlitRetry
  | linkRetrainEnd
  | meshFlitRetry
  -- events: launch, saggars, contexts (14, 15, 18)
  | placementRound
  | prologueStart
  | kernelComplete
  | rringRetry
  | saggarEvictionEnd
  | saggarRestoreStart
  | saggarRestoreEnd
  | preemptRequestArrival
  | evictionSave
  | coreRestore
  | plimExpiry
  | sliceExpiry
  | contextDescWrite
  -- events: power and health (25, 26)
  | governorTick
  | pointChangeEnd
  | scrub
  | pairLag
  | couplingCopy
  | couplingAbandon
  -- events: bring-up and host (27, 28)
  | powerUp
  | fwgo
  | selfTestDone
  | attestRequest
  | attestServe
  | msiVectorStore
  | hostSnoop
  | noticeRead
  | healthCountRead
  | swinRead
  | streamStart
  | tail
  | txBlockSent
  | expanderLinkDown
  -- events: serving (20)
  | deckleRequest
  | deckleComplete
  -- events: registers and encodings without a row of their own (0, 4, 19, 28)
  | registerWrite
  | unassignedOpcode
  | unassignedBytecode
  | lineCacheFill
  | hostBarWrite
deriving DecidableEq, Repr

end Sys2Proof
end

