-- ==== Sys2Proof/Decode.lean ====
section
/-!
DEFINITION. Decoding, total on any words (R86-R101) and any bytes (R387), rejecting by the subcode of Table 4-15;
then the encoder of the same tables. An instruction word is held as a number below 2^32.
-/
namespace Sys2Proof

/-! ### Field codes -/

/-- Operand specifier of a 7-bit code (Table 4-2). -/
def specOf (x : Nat) : Spec :=
  if x < 32 then .w (Fin.ofNat 32 x)
  else if x < 48 then .ptr (Fin.ofNat 8 (x / 2 % 8)) (x % 2 == 1)
  else if x < 56 then .hnd (Fin.ofNat 4 (x / 2 % 4)) (x % 2 == 1)
  else if x < 64 then .cst (Fin.ofNat 8 (x % 8))
  else .imm (BitVec.ofNat 6 (x % 64))

/-- The 7-bit code of a specifier (Table 4-2). -/
def specCode : Spec → Nat
  | .w n => n.val
  | .ptr a p => 32 + 2 * a.val + bnat p
  | .hnd h p => 48 + 2 * h.val + bnat p
  | .cst k => 56 + k.val
  | .imm i => 64 + i.toNat

def itypeOf (x : Nat) : IType :=
  match x with
  | 0 => .s8 | 1 => .s16 | 2 => .s32 | 3 => .s64 | 4 => .z8 | 5 => .z16 | 6 => .z32 | _ => .z64

def itypeCode : IType → Nat
  | .s8 => 0 | .s16 => 1 | .s32 => 2 | .s64 => 3 | .z8 => 4 | .z16 => 5 | .z32 => 6 | .z64 => 7

/-- The fmt codes of format F (Table 4-8). -/
def ffmtOf (x : Nat) : IType :=
  match x with
  | 0 => .z8 | 1 => .z16 | 2 => .z32 | 3 => .z64 | 4 => .s8 | 5 => .s16 | 6 => .s32 | _ => .s64

def ffmtCode : IType → Nat
  | .z8 => 0 | .z16 => 1 | .z32 => 2 | .z64 => 3 | .s8 => 4 | .s16 => 5 | .s32 => 6 | .s64 => 7

def vtypeOf (x : Nat) : VType :=
  match x with
  | 0 => .fp32 | 1 => .fp16 | 2 => .bf16 | 3 => .tmpr | 4 => .s32 | 5 => .z32 | 6 => .s16 | _ => .s8

def vtypeCode : VType → Nat
  | .fp32 => 0 | .fp16 => 1 | .bf16 => 2 | .tmpr => 3 | .s32 => 4 | .z32 => 5 | .s16 => 6 | .s8 => 7

/-- Format codes (Table 4-10). -/
def fmtOf (x : Nat) : Option Fmt :=
  match x with
  | 0x00 => some .s8 | 0x01 => some .s16 | 0x02 => some .s32 | 0x03 => some .s64
  | 0x04 => some .z8 | 0x05 => some .z16 | 0x06 => some .z32 | 0x07 => some .z64
  | 0x08 => some .fp32 | 0x09 => some .fp16 | 0x0A => some .bf16 | 0x0B => some .e5m2
  | 0x0C => some .e4m3 | 0x0D => some .e2m1 | 0x0E => some .e8m0 | 0x0F => some .ds8
  | 0x1B => some .e5m2b32 | 0x1C => some .e4m3b32 | 0x1D => some .e2m1b32 | 0x1F => some .ds8b32
  | 0x20 => some .tmpr
  | _ => none

def fmtCode : Fmt → Nat
  | .s8 => 0x00 | .s16 => 0x01 | .s32 => 0x02 | .s64 => 0x03
  | .z8 => 0x04 | .z16 => 0x05 | .z32 => 0x06 | .z64 => 0x07
  | .fp32 => 0x08 | .fp16 => 0x09 | .bf16 => 0x0A | .e5m2 => 0x0B
  | .e4m3 => 0x0C | .e2m1 => 0x0D | .e8m0 => 0x0E | .ds8 => 0x0F
  | .e5m2b32 => 0x1B | .e4m3b32 => 0x1C | .e2m1b32 => 0x1D | .ds8b32 => 0x1F
  | .tmpr => 0x20

/-- Rounding modes 0-4 (R96). -/
def rmodeOf (x : Nat) : Option RMode :=
  match x with
  | 0 => some .rne | 1 => some .rz | 2 => some .ru | 3 => some .rd | 4 => some .sr | _ => none

def rmodeCode : RMode → Nat
  | .rne => 0 | .rz => 1 | .ru => 2 | .rd => 3 | .sr => 4

/-- Condition codes 0-10 (Table 4-11). -/
def condOf (x : Nat) : Option Cond :=
  match x with
  | 0 => some .eq | 1 => some .ne | 2 => some .lt | 3 => some .le | 4 => some .gt | 5 => some .ge
  | 6 => some .ltu | 7 => some .leu | 8 => some .gtu | 9 => some .geu | 10 => some .al | _ => none

def condCode : Cond → Nat
  | .eq => 0 | .ne => 1 | .lt => 2 | .le => 3 | .gt => 4 | .ge => 5
  | .ltu => 6 | .leu => 7 | .gtu => 8 | .geu => 9 | .al => 10

def fwaitOf (x : Nat) : FWait := match x with | 0 => .nw | 1 => .wf | 2 => .wb | _ => .wm
def fwaitCode : FWait → Nat | .nw => 0 | .wf => 1 | .wb => 2 | .wm => 3
def orderOf (x : Nat) : Order := match x with | 0 => .rlx | 1 => .acq | 2 => .rel | _ => .acqrel
def orderCode : Order → Nat | .rlx => 0 | .acq => 1 | .rel => 2 | .acqrel => 3
def scopeOf (x : Nat) : Scope := match x with | 0 => .core | 1 => .row | 2 => .dev | _ => .sys
def scopeCode : Scope → Nat | .core => 0 | .row => 1 | .dev => 2 | .sys => 3
def amoOpOf (x : Nat) : AmoOp :=
  match x with
  | 0 => .add | 1 => .min | 2 => .max | 3 => .and | 4 => .or | 5 => .xor | 6 => .swp | _ => .cas
def amoOpCode : AmoOp → Nat
  | .add => 0 | .min => 1 | .max => 2 | .and => 3 | .or => 4 | .xor => 5 | .swp => 6 | .cas => 7

/-! ### What a position accepts (R81, R82) -/

/-- The float types of class V, `t` included (R134). -/
def VType.isFloat : VType → Bool
  | .fp32 | .fp16 | .bf16 | .tmpr => true
  | _ => false

/-- The integer types of class V. -/
def VType.isInt (t : VType) : Bool := !t.isFloat

/-- Integer formats (Table 4-10). -/
def Fmt.isInt : Fmt → Bool
  | .s8 | .s16 | .s32 | .s64 | .z8 | .z16 | .z32 | .z64 => true
  | _ => false

/-- A scalar source; the constant 0.5 only in a float type (Table 4-3). -/
def okSrc (fl : Bool) : Spec → Bool
  | .hnd _ p => !p
  | .cst k => fl || k.val != 4
  | _ => true

/-- A scalar destination (R81). -/
def okDst : Spec → Bool
  | .w _ | .ptr _ _ => true
  | .hnd _ p => p
  | _ => false

/-- A destination that is also a source: neither handle form is accepted (R81, R114). -/
def okRw : Spec → Bool
  | .w _ | .ptr _ _ => true
  | _ => false

/-- A vector source (Table 4-2). -/
def okVSrc (fl : Bool) : Spec → Bool
  | .w n => n.val < 8
  | .ptr _ _ => true
  | .hnd _ p => !p
  | .cst k => fl || k.val != 4
  | .imm _ => true

/-- A vector destination. -/
def okVDst : Spec → Bool
  | .w n => n.val < 8
  | .ptr _ _ => true
  | .hnd _ p => p
  | _ => false

/-- A vector destination that is also a source. -/
def okVRw : Spec → Bool
  | .w n => n.val < 8
  | .ptr _ _ => true
  | _ => false

/-- The address operand of `lea` (R115). -/
def okLea : Spec → Bool
  | .w _ => true
  | .ptr _ p => !p
  | .hnd _ _ => true
  | _ => false

/-- A decoded word before its checks are ordered: reserved bits zero, values accepted, specifiers accepted. -/
structure Pre where
  resv : Bool
  val : Bool
  spc : Bool
  ins : Instr

/-- The order of Table 4-15 among the checks that follow opcode and class. -/
def Pre.check (p : Pre) : Except Nat Instr :=
  if !p.resv then .error 0x01
  else if !p.val then .error 0x03
  else if !p.spc then .error 0x02
  else .ok p.ins

/-! ### Fields of the formats (R87-R94) -/

def fType (w : Nat) : Nat := field w 23 21
def fD (w : Nat) : Spec := specOf (field w 20 14)
def fA (w : Nat) : Spec := specOf (field w 13 7)
def fB (w : Nat) : Spec := specOf (field w 6 0)

/-- Format M, class I, three operands. -/
def preM3 (w : Nat) (c : IType → Spec → Spec → Spec → Instr) : Pre :=
  { resv := true, val := true, spc := okDst (fD w) && okSrc false (fA w) && okSrc false (fB w),
    ins := c (itypeOf (fType w)) (fD w) (fA w) (fB w) }

/-- Format M, class I, B reserved. -/
def preM2 (w : Nat) (c : IType → Spec → Spec → Instr) : Pre :=
  { resv := field w 6 0 == 0, val := true, spc := okDst (fD w) && okSrc false (fA w),
    ins := c (itypeOf (fType w)) (fD w) (fA w) }

/-- What a position of a vector instruction takes (Table 6-1). -/
inductive Pos where
  | vDst | vRw | vSrc | vIdx | sDst | sSrc | sIdx | ptrOnly | none
deriving DecidableEq, Repr

/-- Whether a specifier is accepted in a position; `fl` says that the type is a float type. -/
def Pos.ok (fl : Bool) (s : Spec) : Pos → Bool
  | .vDst => okVDst s
  | .vRw => okVRw s
  | .vSrc => okVSrc fl s
  | .vIdx => okVSrc false s
  | .sDst => okDst s
  | .sSrc => okSrc fl s
  | .sIdx => okSrc false s
  | .ptrOnly => match s with | .ptr _ p => !p | _ => false
  | .none => true

/-- Whether the code in a position is zero where the position is reserved (R87). -/
def Pos.zero (x : Nat) : Pos → Bool
  | .none => x == 0
  | _ => true

def accAll (_ : VType) : Bool := true
def accNoT (t : VType) : Bool := t != .tmpr
def accInt (t : VType) : Bool := t.isInt
def accFloat (t : VType) : Bool := t.isFloat

/-- Format M, class V (R134): accepted types and the kinds of D, A, B. -/
def preV (w : Nat) (acc : VType → Bool) (pd pa pb : Pos) (c : VType → Spec → Spec → Spec → Instr) : Pre :=
  let t := vtypeOf (fType w)
  { resv := pd.zero (field w 20 14) && pa.zero (field w 13 7) && pb.zero (field w 6 0), val := acc t,
    spc := pd.ok t.isFloat (fD w) && pa.ok t.isFloat (fA w) && pb.ok t.isFloat (fB w),
    ins := c t (fD w) (fA w) (fB w) }

/-- A rounded form: the extension word holds the mode in [2:0] (R95); integer types are not accepted (R134). -/
def preVR (w e : Nat) (pd pa pb : Pos) (c : VType → RMode → Spec → Spec → Spec → Instr) : Pre :=
  let p := preV w accFloat pd pa pb (fun t d a b => c t ((rmodeOf (field e 2 0)).getD .rne) d a b)
  { p with resv := p.resv && field e 31 3 == 0, val := p.val && (rmodeOf (field e 2 0)).isSome }

/-- The shape record in the four extension words (R35). -/
def shapeOf (e0 e1 e2 e3 : Nat) : Shape :=
  { f0 := BitVec.ofNat 16 (field e0 15 0), f1 := BitVec.ofNat 16 (field e0 31 16),
    f2 := BitVec.ofNat 16 (field e1 15 0), f3 := BitVec.ofNat 16 (field e1 31 16),
    f4 := BitVec.ofNat 16 (field e2 15 0), f5 := BitVec.ofNat 16 (field e2 31 16),
    f6 := BitVec.ofNat 16 (field e3 15 0), f7 := BitVec.ofNat 16 (field e3 31 16) }

/-- A field with top byte 0xFF must have bits [7:5] zero (R35). -/
def okMarker (x : BitVec 16) : Bool := x.toNat / 256 != 255 || field x.toNat 7 5 == 0

/-- Every field of a shape record is a value or a well-formed marker. -/
def Shape.ok (r : Shape) : Bool :=
  okMarker r.f0 && okMarker r.f1 && okMarker r.f2 && okMarker r.f3 &&
  okMarker r.f4 && okMarker r.f5 && okMarker r.f6 && okMarker r.f7

/-! ### The opcode map (Tables 4-12, 4-13, 4-14) -/

/-- The number of functions of a format-S group (Table 4-13). -/
def groupSize (op : Nat) : Nat :=
  match op with
  | 0xF0 => 14 | 0xF1 => 6 | 0xF2 => 7 | 0xF3 => 4 | 0xF4 => 3 | 0xF5 => 5
  | 0xF6 => 7 | 0xF7 => 5 | 0xF8 => 6 | 0xF9 => 5 | 0xFA => 7 | _ => 0

/-- Whether Table 4-12 and Table 4-13 assign the opcode and function. -/
def assigned (op fn : Nat) : Bool :=
  if op < 0x2A then true
  else if op < 0x30 then false
  else if op < 0x34 then true
  else if op < 0x40 then false
  else if op < 0x65 then true
  else if op < 0x68 then false
  else if op < 0x6E then true
  else if op < 0x70 then false
  else if op < 0x7A then true
  else if op < 0x80 then false
  else if op < 0x83 then true
  else if op < 0xA0 then false
  else if op < 0xAB then op != 0xA3
  else if op < 0xC0 then false
  else if op < 0xCA then op != 0xC7
  else if op < 0xE0 then false
  else if op < 0xE4 then true
  else fn < groupSize op

/-- Whether the core class accepts the instruction (Table 4-14). -/
def accepts (cls : CoreClass) (op fn : Nat) : Bool :=
  if (0xC0 ≤ op && op ≤ 0xC6) || op == 0xF3 || (op == 0xF0 && fn == 0x0D) then cls == .compute
  else if op == 0xF4 && (fn == 1 || fn == 2) then cls == .gateway
  else if (op == 0xF8 && 3 ≤ fn) || op == 0xF9 || op == 0xFA then cls == .control
  else true

/-- The UNDEF subcode of a class that does not accept an instruction (R99). -/
def classSub : CoreClass → Nat
  | .compute => 0x10 | .control => 0x11 | .gateway => 0x12

/-- How many extension words the opcode carries (R95). -/
def extCount (op : Nat) : Nat :=
  if op == 0x32 || op == 0x33 || op == 0x51 || (0x70 ≤ op && op ≤ 0x79) || op == 0x82 || op == 0xE1 then 1
  else if (0xC0 ≤ op && op ≤ 0xC6) || op == 0xC8 || op == 0xC9 then 4
  else 0

/-! ### Decoding by format -/

/-- Opcodes 0x00-0x33: scalar format M (R104-R123). -/
def preScalar (op w e : Nat) : Pre :=
  let d := fD w
  let a := fA w
  let b := fB w
  let none : Pre := { resv := true, val := false, spc := true, ins := .unassignedOpcode }
  match op with
  | 0x00 => preM3 w .add | 0x01 => preM3 w .sub | 0x02 => preM3 w .mul | 0x03 => preM3 w .mulh
  | 0x04 => preM3 w .div | 0x05 => preM3 w .rem | 0x06 => preM3 w .and | 0x07 => preM3 w .or
  | 0x08 => preM3 w .xor | 0x09 => preM3 w .andn | 0x0A => preM3 w .shl | 0x0B => preM3 w .shr
  | 0x0C => preM3 w .sar | 0x0D => preM3 w .rot | 0x0E => preM3 w .min | 0x0F => preM3 w .max
  | 0x10 => preM2 w .abs | 0x11 => preM2 w .neg | 0x12 => preM3 w .sel | 0x13 => preM2 w .clz
  | 0x14 => preM2 w .ctz | 0x15 => preM2 w .popc | 0x16 => preM3 w .bext
  | 0x17 => { preM3 w .bins with spc := okRw d && okSrc false a && okSrc false b }
  | 0x18 => preM2 w .mov
  | 0x19 => { resv := fType w == 0, val := true, spc := okDst d && okLea a && okSrc false b, ins := .lea d a b }
  | 0x1A =>
    { resv := fType w == 0, val := true,
      spc := field w 20 18 == 2 && field w 14 14 == 0 && okSrc false a && okSrc false b,
      ins := .pset (Fin.ofNat 8 (field w 17 15)) a b }
  | 0x1B =>
    { resv := fType w == 0, val := true, spc := field w 20 16 == 0 && okSrc false a && okSrc false b,
      ins := .mset (Fin.ofNat 4 (field w 15 14)) a b }
  | 0x1C =>
    { resv := fType w == 0, val := true,
      spc := field w 20 17 == 6 && field w 14 14 == 0 && okSrc false a && okSrc false b,
      ins := .hbind (Fin.ofNat 4 (field w 16 15)) a b }
  | 0x1D =>
    { resv := fType w == 0 && field w 6 0 == 0, val := true,
      spc := field w 20 17 == 6 && field w 14 14 == 0 && okSrc false a,
      ins := .hadvC (Fin.ofNat 4 (field w 16 15)) a }
  | 0x1E =>
    { resv := fType w == 0 && field w 6 0 == 0, val := true,
      spc := field w 20 17 == 6 && field w 14 14 == 0 && okSrc false a,
      ins := .hadvP (Fin.ofNat 4 (field w 16 15)) a }
  | 0x1F =>
    { resv := fType w == 0 && field w 6 0 == 0, val := true,
      spc := okDst d && field w 13 10 == 6 && field w 7 7 == 0,
      ins := .hstat d (Fin.ofNat 4 (field w 9 8)) }
  | 0x30 => preM3 w .ld
  | 0x31 => { preM3 w .st with spc := okSrc false d && okSrc false a && okSrc false b }
  | 0x32 | 0x33 =>
    let f := (fmtOf (field e 6 0)).getD .s8
    let rm := (rmodeOf (field e 10 8)).getD .rne
    let isLd := op == 0x32
    { resv := field e 7 7 == 0 && field e 31 11 == 0,
      val := field e 6 0 < 0x10 && field e 6 0 != 0x0D && (rmodeOf (field e 10 8)).isSome,
      spc := (if isLd then okDst d else okSrc false d) && okSrc false a && okSrc false b,
      ins := if isLd then .ldt (itypeOf (fType w)) f rm d a b else .stt (itypeOf (fType w)) f rm d a b }
  | _ =>
    if 0x20 ≤ op && op ≤ 0x29 then
      preM3 w (.cmp ((condOf (op - 0x20)).getD .eq))
    else none

/-- Opcodes 0x40-0x79: vector format M (Table 6-1). -/
def preVector (op w e : Nat) : Pre :=
  let none : Pre := { resv := true, val := false, spc := true, ins := .unassignedOpcode }
  match op with
  | 0x40 => preV w accAll .vDst .vSrc .vSrc .vadd
  | 0x41 => preV w accAll .vDst .vSrc .vSrc .vsub
  | 0x42 => preV w accAll .vDst .vSrc .vSrc .vmul
  | 0x43 => preV w accAll .vRw .vSrc .vSrc .vfma
  | 0x44 => preV w accAll .vRw .vSrc .vSrc .vfms
  | 0x45 => preV w accAll .vDst .vSrc .vSrc .vmin
  | 0x46 => preV w accAll .vDst .vSrc .vSrc .vmax
  | 0x47 => preV w accNoT .vDst .vSrc .none (fun t d a _ => .vabs t d a)
  | 0x48 => preV w accNoT .vDst .vSrc .none (fun t d a _ => .vneg t d a)
  | 0x49 => preV w accNoT .vDst .vSrc .vSrc .vsel
  | 0x4A => preV w accNoT .vDst .vSrc .vSrc .vand
  | 0x4B => preV w accNoT .vDst .vSrc .vSrc .vor
  | 0x4C => preV w accNoT .vDst .vSrc .vSrc .vxor
  | 0x4D => preV w accNoT .vDst .vSrc .none (fun t d a _ => .vnot t d a)
  | 0x4E => preV w accInt .vDst .vSrc .vSrc .vshl
  | 0x4F => preV w accInt .vDst .vSrc .vSrc .vshr
  | 0x50 => preV w accInt .vDst .vSrc .vSrc .vsar
  | 0x51 =>
    let f := (fmtOf (field e 6 0)).getD .s8
    let g := (fmtOf (field e 14 8)).getD .s8
    { resv := fType w == 0 && field w 6 0 == 0 && field e 7 7 == 0 && field e 15 15 == 0 && field e 31 19 == 0,
      val := field e 6 0 < 0x10 && field e 14 8 < 0x10 && (rmodeOf (field e 18 16)).isSome,
      spc := okVDst (fD w) && okVSrc (!g.isInt) (fA w),
      ins := .vcvt f g ((rmodeOf (field e 18 16)).getD .rne) (fD w) (fA w) }
  | 0x52 => preV w accFloat .vDst .vSrc .none (fun t d a _ => .vrcp t d a)
  | 0x53 => preV w accFloat .vDst .vSrc .none (fun t d a _ => .vrsq t d a)
  | 0x54 => preV w accFloat .vDst .vSrc .none (fun t d a _ => .vexp2 t d a)
  | 0x55 => preV w accFloat .vDst .vSrc .none (fun t d a _ => .vlog2 t d a)
  | 0x56 => preV w accAll .sDst .vSrc .none (fun t d a _ => .vrsum t d a)
  | 0x57 => preV w accAll .sDst .vSrc .none (fun t d a _ => .vrmax t d a)
  | 0x58 => preV w accAll .sDst .vSrc .none (fun t d a _ => .vrmin t d a)
  | 0x59 => preV w accNoT .vDst .vSrc .vIdx .vperm
  | 0x5A => preV w accNoT .vDst .sSrc .none (fun t d a _ => .vbcast t d a)
  | 0x5B => preV w accNoT .vRw .sSrc .sIdx .vins
  | 0x5C => preV w accNoT .sDst .vSrc .sIdx .vext
  | 0x5D => preV w accNoT .vDst .vSrc .sIdx .vkey
  | 0x5E => preV w accNoT .ptrOnly .vSrc .sIdx .vhist
  | 0x5F => preV w accNoT .vDst .vSrc .none (fun t d a _ => .vcompress t d a)
  | 0x60 => preV w accNoT .sDst .vSrc .sSrc .vcount
  | 0x61 => preV w accNoT .vDst .sIdx .sIdx .vld
  | 0x62 => preV w accNoT .vSrc .sIdx .sIdx .vst
  | 0x63 => preV w accNoT .vDst .sIdx .vIdx .vldx
  | 0x64 => preV w accNoT .vSrc .sIdx .vIdx .vstx
  | 0x70 => preVR w e .vDst .vSrc .vSrc .vaddRnd
  | 0x71 => preVR w e .vDst .vSrc .vSrc .vsubRnd
  | 0x72 => preVR w e .vDst .vSrc .vSrc .vmulRnd
  | 0x73 => preVR w e .vRw .vSrc .vSrc .vfmaRnd
  | 0x74 => preVR w e .vRw .vSrc .vSrc .vfmsRnd
  | 0x75 => preVR w e .vDst .vSrc .none (fun t r d a _ => .vrcpRnd t r d a)
  | 0x76 => preVR w e .vDst .vSrc .none (fun t r d a _ => .vrsqRnd t r d a)
  | 0x77 => preVR w e .vDst .vSrc .none (fun t r d a _ => .vexp2Rnd t r d a)
  | 0x78 => preVR w e .vDst .vSrc .none (fun t r d a _ => .vlog2Rnd t r d a)
  | 0x79 => preVR w e .sDst .vSrc .none (fun t r d a _ => .vrsumRnd t r d a)
  | _ =>
    if 0x68 ≤ op && op ≤ 0x6D then
      preV w accNoT .sDst .vSrc .vSrc (.vcmp ((condOf (op - 0x68)).getD .eq))
    else none

/-- Opcodes 0x80-0x82: format I (R89). -/
def preImm (op w e : Nat) : Pre :=
  let t := itypeOf (fType w)
  let d := fD w
  let i := BitVec.ofNat 14 (field w 13 0)
  match op with
  | 0x80 => { resv := true, val := true, spc := okDst d, ins := .movi t d i }
  | 0x81 => { resv := true, val := true, spc := okRw d, ins := .addi t d i }
  | _ => { resv := field w 13 0 == 0, val := true, spc := okDst d, ins := .li t d (BitVec.ofNat 32 e) }

/-- The data operand of `fld` (R235): a workspace word, or a vector in the 64-byte form. -/
def okFld (vec : Bool) : Spec → Bool
  | .w n => !vec || n.val < 8
  | _ => false

/-- The data operand of an atomic (R242). -/
def okAmo (op : AmoOp) : Spec → Bool
  | .w n => op != .cas || n.val ≤ 30
  | _ => false

/-- Opcodes 0xA0-0xAA: format F (R90, R91). -/
def preFabric (op w : Nat) : Pre :=
  let wt := fwaitOf (field w 23 22)
  let f := ffmtOf (field w 21 19)
  let o := orderOf (field w 18 17)
  let d := specOf (field w 16 10)
  let a := specOf (field w 9 3)
  let vec := field w 2 2 == 1
  let s := scopeOf (field w 1 0)
  let relOnly := o == .rlx || o == .rel
  match op with
  | 0xA0 =>
    { resv := true, val := relOnly && (!vec || f == .z64),
      spc := (if vec then okVSrc false d else okSrc false d) && okSrc false a, ins := .fst wt f o d a vec s }
  | 0xA1 =>
    { resv := true, val := (o == .rlx || o == .acq) && (!vec || f == .z64),
      spc := okFld vec d && okSrc false a, ins := .fld wt f o d a vec s }
  | 0xA2 =>
    { resv := field w 21 21 == 0 && field w 16 0 == 0, val := true, spc := true,
      ins := .fence wt (scopeOf (field w 20 19)) o }
  | 0xA8 =>
    { resv := field w 21 19 == 0 && field w 2 0 == 0, val := relOnly, spc := okSrc false d && okSrc false a,
      ins := .send wt o d a }
  | 0xA9 =>
    { resv := field w 21 19 == 0 && field w 2 0 == 0, val := relOnly, spc := okSrc false d && okSrc false a,
      ins := .sendm wt o d a }
  | 0xAA =>
    { resv := field w 21 19 == 0 && field w 2 1 == 0, val := relOnly, spc := okSrc false d && okSrc false a,
      ins := .enq wt o d a (field w 0 0 == 1) }
  | _ =>
    { resv := true, val := f == .z32 || f == .z64 || f == .s32 || f == .s64,
      spc := okAmo (amoOpOf (field w 2 0)) d && okSrc false a,
      ins := .amo (scopeOf (op - 0xA4)) wt f o d a (amoOpOf (field w 2 0)) }

/-- Opcodes 0xC0-0xC9: format X (R92, Tables 7-6 and 9-5). The checks of the record come after its substitution. -/
def preShape (op w e0 e1 e2 e3 : Nat) : Pre :=
  let r := shapeOf e0 e1 e2 e3
  let q := Fin.ofNat 8 (field w 23 21)
  let tl := Fin.ofNat 16 (field w 20 17)
  let s := fB w
  match op with
  | 0xC0 => { resv := field w 23 0 == 0 && r.ok, val := true, spc := true, ins := .kctx r }
  | 0xC1 => { resv := field w 20 0 == 0 && r.ok, val := true, spc := true, ins := .kring q r }
  | 0xC2 => { resv := field w 20 0 == 0 && r.ok, val := true, spc := true, ins := .kslip q r }
  | 0xC3 =>
    { resv := field w 16 9 == 0 && r.ok, val := true, spc := true, ins := .kmm q tl (BitVec.ofNat 2 (field w 8 7)) s r }
  | 0xC4 =>
    { resv := field w 16 9 == 0 && r.ok, val := true, spc := true, ins := .kmmG q tl (BitVec.ofNat 2 (field w 8 7)) s r }
  | 0xC5 =>
    { resv := field w 23 10 == 0 && r.ok, val := true, spc := true, ins := .kst (BitVec.ofNat 3 (field w 9 7)) s r }
  | 0xC6 => { resv := field w 23 0 == 0 && r.ok, val := true, spc := true, ins := .kclr r }
  | 0xC8 =>
    let kind := field w 16 14
    { resv := field w 13 8 == 0 && (kind != 0 || q.val == 0) && (kind != 1 || tl.val == 0) &&
        (kind != 2 || (q.val == 0 && tl.val == 0)) && r.ok,
      val := true, spc := true, ins := .cpy q tl (BitVec.ofNat 3 kind) (field w 7 7 == 1) s r }
  | _ =>
    { resv := field w 23 21 == 0 && field w 13 8 == 0 && r.ok, val := true, spc := true,
      ins := .cpys tl (BitVec.ofNat 3 (field w 16 14)) (field w 7 7 == 1) s r }

/-- Opcodes 0xE0-0xE3: format B (R93). -/
def preBranch (op w e : Nat) : Pre :=
  let off := BitVec.ofNat 20 (field w 19 0)
  match op with
  | 0xE0 =>
    { resv := true, val := (condOf (field w 23 20)).isSome, spc := true,
      ins := .b ((condOf (field w 23 20)).getD .al) off }
  | 0xE1 => { resv := field w 23 0 == 0, val := true, spc := true, ins := .j (BitVec.ofNat 32 e) }
  | 0xE2 => { resv := field w 23 20 == 0, val := true, spc := true, ins := .call off }
  | _ => { resv := true, val := true, spc := true, ins := .loop (Fin.ofNat 16 (field w 23 20)) off }

/-- Format S with a destination in [13:7] and a source in [6:0]. -/
def preDA (w : Nat) (c : Spec → Spec → Instr) : Pre :=
  { resv := field w 15 14 == 0, val := true, spc := okDst (fA w) && okSrc false (fB w), ins := c (fA w) (fB w) }

/-- Format S with sources in [13:7] and [6:0]. -/
def preAB (w : Nat) (c : Spec → Spec → Instr) : Pre :=
  { resv := field w 15 14 == 0, val := true, spc := okSrc false (fA w) && okSrc false (fB w), ins := c (fA w) (fB w) }

/-- Format S with a destination in [13:7] alone. -/
def preD (w : Nat) (c : Spec → Instr) : Pre :=
  { resv := field w 15 14 == 0 && field w 6 0 == 0, val := true, spc := okDst (fA w), ins := c (fA w) }

/-- Format S with a source in [6:0] alone. -/
def preA (w : Nat) (c : Spec → Instr) : Pre :=
  { resv := field w 15 7 == 0, val := true, spc := okSrc false (fB w), ins := c (fB w) }

/-- Format S with no operand. -/
def pre0 (w : Nat) (i : Instr) : Pre := { resv := field w 15 0 == 0, val := true, spc := true, ins := i }

/-- Format S with a tile in [10:7] and a source in [6:0]. -/
def preTA (w : Nat) (c : Fin 16 → Spec → Instr) : Pre :=
  { resv := field w 15 11 == 0, val := true, spc := okSrc false (fB w), ins := c (Fin.ofNat 16 (field w 10 7)) (fB w) }

/-- The modes of `rtt` (Table 12-3). -/
def rttOf (m : Nat) : Instr :=
  match m with
  | 0 => .rttResume | 1 => .rttSkip | 2 => .rttAbort | 3 => .rttDrop | _ => .rttKill

/-- Group 0xF0 system. -/
def preSystem (fn w : Nat) : Pre :=
  match fn with
  | 0 => pre0 w .nop
  | 1 => pre0 w .endFiring
  | 2 => pre0 w .ret
  | 3 => preA w .jx
  | 4 => { resv := true, val := true, spc := true, ins := .trap (BitVec.ofNat 16 (field w 15 0)) }
  | 5 => { resv := true, val := true, spc := true, ins := .brk (BitVec.ofNat 16 (field w 15 0)) }
  | 6 => { resv := field w 15 3 == 0, val := field w 2 0 < 5, spc := true, ins := rttOf (field w 2 0) }
  | 7 => preDA w .sflag
  | 8 => preA w .wpset
  | 9 => preDA w .wdog
  | 10 => preDA w .srr
  | 11 =>
    { resv := field w 15 14 == 0, val := true, spc := okSrc false (fB w),
      ins := .srw (BitVec.ofNat 7 (field w 13 7)) (fB w) }
  | 12 => preD w .rdcyc
  | _ => preDA w .pair

/-- Groups 0xF1 to 0xFA of format S (Table 4-13). -/
def preGroup (op fn w : Nat) : Pre :=
  match op, fn with
  | 0xF1, 0 => preAB w .chbind
  | 0xF1, 1 => preAB w .chhold
  | 0xF1, 2 => preAB w .chrdy
  | 0xF1, 3 => preAB w .chmask
  | 0xF1, 4 => preDA w .chstat
  | 0xF1, _ => preD w .mnext
  | 0xF2, 0 => preTA w .tdef
  | 0xF2, 1 => preTA w .tarm
  | 0xF2, 2 => preTA w .twait
  | 0xF2, 3 =>
    { resv := field w 15 14 == 0 && field w 6 4 == 0, val := true, spc := okDst (fA w),
      ins := .ttest (fA w) (Fin.ofNat 16 (field w 3 0)) }
  | 0xF2, 4 =>
    { resv := field w 15 11 == 0 && field w 6 0 == 0, val := true, spc := true,
      ins := .tdrain (Fin.ofNat 16 (field w 10 7)) }
  | 0xF2, 5 => preA w .jwait
  | 0xF2, _ => preDA w .jpoll
  | 0xF3, 0 =>
    { resv := field w 15 10 == 0, val := true, spc := okSrc false (fB w),
      ins := .kadv (Fin.ofNat 8 (field w 9 7)) (fB w) }
  | 0xF3, 1 => pre0 w .kwait
  | 0xF3, 2 => preDA w .kleave
  | 0xF3, _ => preDA w .kstat
  | 0xF4, 0 => preD w .gbar
  | 0xF4, 1 => preD w .gqGet
  | 0xF4, _ => preAB w .baddRq
  | 0xF5, 0 => preDA w .launch
  | 0xF5, 1 => pre0 w .trig
  | 0xF5, 2 => preD w .dwait
  | 0xF5, 3 => preDA w .lwait
  | 0xF5, _ => preDA w .lstat
  | 0xF6, 0 => preDA w .sgnew
  | 0xF6, 1 => preDA w .sgatt
  | 0xF6, 2 => preA w .sgdet
  | 0xF6, 3 => preAB w .sgrel
  | 0xF6, 4 => preAB w .sgpin
  | 0xF6, 5 => preDA w .sgevict
  | 0xF6, _ => preDA w .sgstat
  | 0xF7, 0 => preDA w .tmprGet
  | 0xF7, 1 => preDA w .tmprPick
  | 0xF7, 2 => preDA w .tmprDem
  | 0xF7, 3 => preDA w .tmprRe
  | 0xF7, _ => preA w .tmprAch
  | 0xF8, 0 => preAB w .ttbw
  | 0xF8, 1 => preA w .ttbi
  | 0xF8, 2 => preDA w .ttbp
  | 0xF8, 3 => preA w .tlbi
  | 0xF8, 4 => preDA w .fbpop
  | 0xF8, _ => preDA w .replay
  | 0xF9, 0 => { preDA w (.bld (BitVec.ofNat 2 (field w 15 14))) with resv := true }
  | 0xF9, 1 => { preAB w (.bst (BitVec.ofNat 2 (field w 15 14))) with resv := true }
  | 0xF9, 2 => preAB w .icw
  | 0xF9, 3 => preA w .ici
  | 0xF9, _ => preDA w .icr
  | _, 0 => preDA w .sqRd
  | _, 1 => preDA w .sqWr
  | _, 2 => preDA w .sqBuild
  | _, 3 => preD w .ltokWait
  | _, 4 => preA w .ltokPass
  | _, 5 => preDA w .dkRun
  | _, _ => preDA w .dkWait

/-- The word split by its opcode's range (Table 4-5). -/
def preDecode (op fn w e0 e1 e2 e3 : Nat) : Pre :=
  if op < 0x40 then preScalar op w e0
  else if op < 0x80 then preVector op w e0
  else if op < 0xA0 then preImm op w e0
  else if op < 0xC0 then preFabric op w
  else if op < 0xE0 then preShape op w e0 e1 e2 e3
  else if op < 0xF0 then preBranch op w e0
  else if op == 0xF0 then preSystem fn w
  else preGroup op fn w

/-- The instruction that a word and its extension words hold on a core class, or the UNDEF subcode of the first
check that fails (Table 4-15). -/
def decode (cls : CoreClass) (w e0 e1 e2 e3 : Nat) : Except Nat Instr :=
  let op := field w 31 24
  let fn := field w 23 16
  if !assigned op fn then .error 0x00
  else if !accepts cls op fn then .error (classSub cls)
  else (preDecode op fn w e0 e1 e2 e3).check

/-! ### Bytecodes (R387) -/

/-- The length in bytes of a bytecode, or none where Table 19-4 does not assign the byte. -/
def bcLength (b : Nat) : Option Nat :=
  match b with
  | 0x01 | 0x04 | 0x05 | 0x08 | 0x09 | 0x10 | 0x11 | 0x12 | 0x14 | 0x1C | 0x21 => some 3
  | 0x02 | 0x03 | 0x15 | 0x16 | 0x17 | 0x1F | 0x22 => some 2
  | 0x06 | 0x07 | 0x20 => some 5
  | 0x0A | 0x0B | 0x0C | 0x0D | 0x0E => some 4
  | 0x0F | 0x13 | 0x18 | 0x19 | 0x1A | 0x1B | 0x1D | 0x1E => some 1
  | _ => none

/-- The bytecode whose opcode byte is b0 and whose later bytes are b1 to b4; none where the byte is unassigned. -/
def decodeBytecode (b0 b1 b2 b3 b4 : Nat) : Option Instr :=
  let u8 : BitVec 8 := BitVec.ofNat 8 b1
  let u16 : BitVec 16 := BitVec.ofNat 16 (b1 + 256 * b2)
  let slot8 : BitVec 16 := BitVec.ofNat 16 (b2 + 256 * b3)
  let slot16 : BitVec 16 := BitVec.ofNat 16 (b3 + 256 * b4)
  match b0 with
  | 0x01 => some (.bcConst u16) | 0x02 => some (.bcLoadl u8) | 0x03 => some (.bcStorel u8)
  | 0x04 => some (.bcLoadg u16) | 0x05 => some (.bcStoreg u16)
  | 0x06 => some (.bcLoadattr u16 slot16) | 0x07 => some (.bcStoreattr u16 slot16)
  | 0x08 => some (.bcLoadidx u16) | 0x09 => some (.bcStoreidx u16)
  | 0x0A => some (.bcBinary u8 slot8) | 0x0B => some (.bcUnary u8 slot8) | 0x0C => some (.bcCompare u8 slot8)
  | 0x0D => some (.bcCall u8 slot8) | 0x0E => some (.bcCallmeth u8 slot8)
  | 0x0F => some .bcReturn
  | 0x10 => some (.bcJump u16) | 0x11 => some (.bcJumpt u16) | 0x12 => some (.bcJumpf u16)
  | 0x13 => some .bcWalk | 0x14 => some (.bcAdvance u16)
  | 0x15 => some (.bcBuildtuple u8) | 0x16 => some (.bcBuildlist u8) | 0x17 => some (.bcUnpack u8)
  | 0x18 => some .bcPop | 0x19 => some .bcDup | 0x1A => some .bcSwap | 0x1B => some .bcRaise
  | 0x1C => some (.bcSetuptry u16) | 0x1D => some .bcPoptry | 0x1E => some .bcAwait
  | 0x1F => some (.bcNewobj u8) | 0x20 => some (.bcIsinst u16 slot16)
  | 0x21 => some (.bcMakefunc u16) | 0x22 => some (.bcLoadclosure u8)
  | _ => none

/-! ### The opcode table's numbering -/

/-- A class that accepts the instruction word: control cores take every native word but those of Table 4-14. -/
def classFor (op fn : Nat) : CoreClass :=
  if accepts .compute op fn then .compute
  else if accepts .control op fn then .control
  else .gateway

/-- The bytes of a bytecode that the opcode table numbers with its opcode byte on top and its operands, a u8 and
then u16s, below it. -/
def tableBytes (nbits w : Nat) : List Nat :=
  if nbits = 8 then [w % 256]
  else if nbits = 16 then [w / 256 % 256, w % 256]
  else if nbits = 24 then [w / 65536 % 256, w % 256, w / 256 % 256]
  else if nbits = 32 then [w / 16777216 % 256, w / 65536 % 256, w % 256, w / 256 % 256]
  else [w / 4294967296 % 256, w / 65536 % 256, w / 16777216 % 256, w % 256, w / 256 % 256]

/-- What the decoder reads from a row of the opcode table. A 32-bit number is an instruction word where the
native decoder reads one, whatever core class accepts it, else a bytecode; extension words are 0. -/
def decodeTableWord (nbits w : Nat) : Option Instr :=
  let op := field w 31 24
  let fn := field w 23 16
  let bs := tableBytes nbits w
  let bc := if bcLength (bs.getD 0 0) = some (nbits / 8) then
      decodeBytecode (bs.getD 0 0) (bs.getD 1 0) (bs.getD 2 0) (bs.getD 3 0) (bs.getD 4 0)
    else none
  if 32 ≤ nbits ∧ nbits ≠ 40 then
    match decode (classFor op fn) (w % 2 ^ 32) (field w 63 32) (field w 95 64) (field w 127 96) (field w 159 128) with
    | .ok i => some i
    | .error _ => if nbits = 32 then bc else none
  else bc

/-! ### The encoder -/

/-- A format-M word. -/
def encM (op ty : Nat) (d a b : Nat) : Nat := op * 2 ^ 24 + ty * 2 ^ 21 + d * 2 ^ 14 + a * 2 ^ 7 + b

def encI (op : Nat) (t : IType) (d a b : Spec) : List Nat :=
  [encM op (itypeCode t) (specCode d) (specCode a) (specCode b)]

def encI2 (op : Nat) (t : IType) (d a : Spec) : List Nat := [encM op (itypeCode t) (specCode d) (specCode a) 0]

def encV (op : Nat) (t : VType) (d a b : Spec) : List Nat :=
  [encM op (vtypeCode t) (specCode d) (specCode a) (specCode b)]

def encV2 (op : Nat) (t : VType) (d a : Spec) : List Nat := [encM op (vtypeCode t) (specCode d) (specCode a) 0]

def encF (op : Nat) (w : FWait) (f : Nat) (o : Order) (d a : Spec) (sub : Nat) : List Nat :=
  [op * 2 ^ 24 + fwaitCode w * 2 ^ 22 + f * 2 ^ 19 + orderCode o * 2 ^ 17 + specCode d * 2 ^ 10 + specCode a * 2 ^ 3 + sub]

def encS (op fn x y : Nat) : List Nat := [op * 2 ^ 24 + fn * 2 ^ 16 + x * 2 ^ 7 + y]

def encShape (r : Shape) : List Nat :=
  [r.f0.toNat + r.f1.toNat * 65536, r.f2.toNat + r.f3.toNat * 65536, r.f4.toNat + r.f5.toNat * 65536,
   r.f6.toNat + r.f7.toNat * 65536]

/-- The instruction words and extension words of a native instruction (R86-R98); empty for a bytecode or an event. -/
def encode : Instr → List Nat
  | .add t d a b => encI 0x00 t d a b
  | .sub t d a b => encI 0x01 t d a b
  | .mul t d a b => encI 0x02 t d a b
  | .mulh t d a b => encI 0x03 t d a b
  | .div t d a b => encI 0x04 t d a b
  | .rem t d a b => encI 0x05 t d a b
  | .and t d a b => encI 0x06 t d a b
  | .or t d a b => encI 0x07 t d a b
  | .xor t d a b => encI 0x08 t d a b
  | .andn t d a b => encI 0x09 t d a b
  | .shl t d a b => encI 0x0A t d a b
  | .shr t d a b => encI 0x0B t d a b
  | .sar t d a b => encI 0x0C t d a b
  | .rot t d a b => encI 0x0D t d a b
  | .min t d a b => encI 0x0E t d a b
  | .max t d a b => encI 0x0F t d a b
  | .abs t d a => encI2 0x10 t d a
  | .neg t d a => encI2 0x11 t d a
  | .sel t d a b => encI 0x12 t d a b
  | .clz t d a => encI2 0x13 t d a
  | .ctz t d a => encI2 0x14 t d a
  | .popc t d a => encI2 0x15 t d a
  | .bext t d a b => encI 0x16 t d a b
  | .bins t d a b => encI 0x17 t d a b
  | .mov t d a => encI2 0x18 t d a
  | .lea d a b => [encM 0x19 0 (specCode d) (specCode a) (specCode b)]
  | .pset p a b => [encM 0x1A 0 (0x20 + 2 * p.val) (specCode a) (specCode b)]
  | .mset m a b => [encM 0x1B 0 m.val (specCode a) (specCode b)]
  | .hbind h a b => [encM 0x1C 0 (0x30 + 2 * h.val) (specCode a) (specCode b)]
  | .hadvC h a => [encM 0x1D 0 (0x30 + 2 * h.val) (specCode a) 0]
  | .hadvP h a => [encM 0x1E 0 (0x30 + 2 * h.val) (specCode a) 0]
  | .hstat d h => [encM 0x1F 0 (specCode d) (0x30 + 2 * h.val) 0]
  | .cmp c t d a b => encI (0x20 + condCode c) t d a b
  | .ld t d a b => encI 0x30 t d a b
  | .st t d a b => encI 0x31 t d a b
  | .ldt t f rm d a b => encI 0x32 t d a b ++ [fmtCode f + rmodeCode rm * 256]
  | .stt t f rm d a b => encI 0x33 t d a b ++ [fmtCode f + rmodeCode rm * 256]
  | .vadd t d a b => encV 0x40 t d a b
  | .vsub t d a b => encV 0x41 t d a b
  | .vmul t d a b => encV 0x42 t d a b
  | .vfma t d a b => encV 0x43 t d a b
  | .vfms t d a b => encV 0x44 t d a b
  | .vmin t d a b => encV 0x45 t d a b
  | .vmax t d a b => encV 0x46 t d a b
  | .vabs t d a => encV2 0x47 t d a
  | .vneg t d a => encV2 0x48 t d a
  | .vsel t d a b => encV 0x49 t d a b
  | .vand t d a b => encV 0x4A t d a b
  | .vor t d a b => encV 0x4B t d a b
  | .vxor t d a b => encV 0x4C t d a b
  | .vnot t d a => encV2 0x4D t d a
  | .vshl t d a b => encV 0x4E t d a b
  | .vshr t d a b => encV 0x4F t d a b
  | .vsar t d a b => encV 0x50 t d a b
  | .vcvt f g rm d a =>
    [encM 0x51 0 (specCode d) (specCode a) 0, fmtCode f + fmtCode g * 256 + rmodeCode rm * 65536]
  | .vrcp t d a => encV2 0x52 t d a
  | .vrsq t d a => encV2 0x53 t d a
  | .vexp2 t d a => encV2 0x54 t d a
  | .vlog2 t d a => encV2 0x55 t d a
  | .vrsum t d a => encV2 0x56 t d a
  | .vrmax t d a => encV2 0x57 t d a
  | .vrmin t d a => encV2 0x58 t d a
  | .vperm t d a b => encV 0x59 t d a b
  | .vbcast t d a => encV2 0x5A t d a
  | .vins t d a b => encV 0x5B t d a b
  | .vext t d a b => encV 0x5C t d a b
  | .vkey t d a b => encV 0x5D t d a b
  | .vhist t d a b => encV 0x5E t d a b
  | .vcompress t d a => encV2 0x5F t d a
  | .vcount t d a b => encV 0x60 t d a b
  | .vld t d a b => encV 0x61 t d a b
  | .vst t d a b => encV 0x62 t d a b
  | .vldx t d a b => encV 0x63 t d a b
  | .vstx t d a b => encV 0x64 t d a b
  | .vcmp c t d a b => encV (0x68 + condCode c) t d a b
  | .vaddRnd t r d a b => encV 0x70 t d a b ++ [rmodeCode r]
  | .vsubRnd t r d a b => encV 0x71 t d a b ++ [rmodeCode r]
  | .vmulRnd t r d a b => encV 0x72 t d a b ++ [rmodeCode r]
  | .vfmaRnd t r d a b => encV 0x73 t d a b ++ [rmodeCode r]
  | .vfmsRnd t r d a b => encV 0x74 t d a b ++ [rmodeCode r]
  | .vrcpRnd t r d a => encV2 0x75 t d a ++ [rmodeCode r]
  | .vrsqRnd t r d a => encV2 0x76 t d a ++ [rmodeCode r]
  | .vexp2Rnd t r d a => encV2 0x77 t d a ++ [rmodeCode r]
  | .vlog2Rnd t r d a => encV2 0x78 t d a ++ [rmodeCode r]
  | .vrsumRnd t r d a => encV2 0x79 t d a ++ [rmodeCode r]
  | .movi t d i => [0x80 * 2 ^ 24 + itypeCode t * 2 ^ 21 + specCode d * 2 ^ 14 + i.toNat]
  | .addi t d i => [0x81 * 2 ^ 24 + itypeCode t * 2 ^ 21 + specCode d * 2 ^ 14 + i.toNat]
  | .li t d e => [0x82 * 2 ^ 24 + itypeCode t * 2 ^ 21 + specCode d * 2 ^ 14, e.toNat]
  | .fst w f o d a v s => encF 0xA0 w (ffmtCode f) o d a (4 * bnat v + scopeCode s)
  | .fld w f o d a v s => encF 0xA1 w (ffmtCode f) o d a (4 * bnat v + scopeCode s)
  | .fence w s o => [0xA2 * 2 ^ 24 + fwaitCode w * 2 ^ 22 + scopeCode s * 2 ^ 19 + orderCode o * 2 ^ 17]
  | .amo c w f o d a p => encF (0xA4 + scopeCode c) w (ffmtCode f) o d a (amoOpCode p)
  | .send w o d a => encF 0xA8 w 0 o d a 0
  | .sendm w o d a => encF 0xA9 w 0 o d a 0
  | .enq w o d a k => encF 0xAA w 0 o d a (bnat k)
  | .kctx r => (0xC0 * 2 ^ 24) :: encShape r
  | .kring q r => (0xC1 * 2 ^ 24 + q.val * 2 ^ 21) :: encShape r
  | .kslip q r => (0xC2 * 2 ^ 24 + q.val * 2 ^ 21) :: encShape r
  | .kmm q tl m s r =>
    (0xC3 * 2 ^ 24 + q.val * 2 ^ 21 + tl.val * 2 ^ 17 + m.toNat * 2 ^ 7 + specCode s) :: encShape r
  | .kmmG q tl m s r =>
    (0xC4 * 2 ^ 24 + q.val * 2 ^ 21 + tl.val * 2 ^ 17 + m.toNat * 2 ^ 7 + specCode s) :: encShape r
  | .kst rm s r => (0xC5 * 2 ^ 24 + rm.toNat * 2 ^ 7 + specCode s) :: encShape r
  | .kclr r => (0xC6 * 2 ^ 24) :: encShape r
  | .cpy q tl k o d r =>
    (0xC8 * 2 ^ 24 + q.val * 2 ^ 21 + tl.val * 2 ^ 17 + k.toNat * 2 ^ 14 + bnat o * 2 ^ 7 + specCode d) :: encShape r
  | .cpys tl k o d r =>
    (0xC9 * 2 ^ 24 + tl.val * 2 ^ 17 + k.toNat * 2 ^ 14 + bnat o * 2 ^ 7 + specCode d) :: encShape r
  | .b c off => [0xE0 * 2 ^ 24 + condCode c * 2 ^ 20 + off.toNat]
  | .j e => [0xE1 * 2 ^ 24, e.toNat]
  | .call off => [0xE2 * 2 ^ 24 + off.toNat]
  | .loop n off => [0xE3 * 2 ^ 24 + n.val * 2 ^ 20 + off.toNat]
  | .nop => encS 0xF0 0 0 0
  | .endFiring => encS 0xF0 1 0 0
  | .ret => encS 0xF0 2 0 0
  | .jx a => encS 0xF0 3 0 (specCode a)
  | .trap k => encS 0xF0 4 0 k.toNat
  | .brk k => encS 0xF0 5 0 k.toNat
  | .rttResume => encS 0xF0 6 0 0
  | .rttSkip => encS 0xF0 6 0 1
  | .rttAbort => encS 0xF0 6 0 2
  | .rttDrop => encS 0xF0 6 0 3
  | .rttKill => encS 0xF0 6 0 4
  | .sflag d a => encS 0xF0 7 (specCode d) (specCode a)
  | .wpset a => encS 0xF0 8 0 (specCode a)
  | .wdog d a => encS 0xF0 9 (specCode d) (specCode a)
  | .srr d a => encS 0xF0 10 (specCode d) (specCode a)
  | .srw n b => encS 0xF0 11 n.toNat (specCode b)
  | .rdcyc d => encS 0xF0 12 (specCode d) 0
  | .pair d a => encS 0xF0 13 (specCode d) (specCode a)
  | .chbind a b => encS 0xF1 0 (specCode a) (specCode b)
  | .chhold a b => encS 0xF1 1 (specCode a) (specCode b)
  | .chrdy a b => encS 0xF1 2 (specCode a) (specCode b)
  | .chmask a b => encS 0xF1 3 (specCode a) (specCode b)
  | .chstat d a => encS 0xF1 4 (specCode d) (specCode a)
  | .mnext d => encS 0xF1 5 (specCode d) 0
  | .tdef tl a => encS 0xF2 0 tl.val (specCode a)
  | .tarm tl a => encS 0xF2 1 tl.val (specCode a)
  | .twait tl a => encS 0xF2 2 tl.val (specCode a)
  | .ttest d tl => encS 0xF2 3 (specCode d) tl.val
  | .tdrain tl => encS 0xF2 4 tl.val 0
  | .jwait a => encS 0xF2 5 0 (specCode a)
  | .jpoll d a => encS 0xF2 6 (specCode d) (specCode a)
  | .kadv q a => encS 0xF3 0 q.val (specCode a)
  | .kwait => encS 0xF3 1 0 0
  | .kleave d a => encS 0xF3 2 (specCode d) (specCode a)
  | .kstat d a => encS 0xF3 3 (specCode d) (specCode a)
  | .gbar d => encS 0xF4 0 (specCode d) 0
  | .gqGet d => encS 0xF4 1 (specCode d) 0
  | .baddRq x c => encS 0xF4 2 (specCode x) (specCode c)
  | .launch d a => encS 0xF5 0 (specCode d) (specCode a)
  | .trig => encS 0xF5 1 0 0
  | .dwait d => encS 0xF5 2 (specCode d) 0
  | .lwait d a => encS 0xF5 3 (specCode d) (specCode a)
  | .lstat d a => encS 0xF5 4 (specCode d) (specCode a)
  | .sgnew d a => encS 0xF6 0 (specCode d) (specCode a)
  | .sgatt d a => encS 0xF6 1 (specCode d) (specCode a)
  | .sgdet a => encS 0xF6 2 0 (specCode a)
  | .sgrel a b => encS 0xF6 3 (specCode a) (specCode b)
  | .sgpin a b => encS 0xF6 4 (specCode a) (specCode b)
  | .sgevict d a => encS 0xF6 5 (specCode d) (specCode a)
  | .sgstat d a => encS 0xF6 6 (specCode d) (specCode a)
  | .tmprGet d a => encS 0xF7 0 (specCode d) (specCode a)
  | .tmprPick d a => encS 0xF7 1 (specCode d) (specCode a)
  | .tmprDem d a => encS 0xF7 2 (specCode d) (specCode a)
  | .tmprRe d a => encS 0xF7 3 (specCode d) (specCode a)
  | .tmprAch a => encS 0xF7 4 0 (specCode a)
  | .ttbw a b => encS 0xF8 0 (specCode a) (specCode b)
  | .ttbi a => encS 0xF8 1 0 (specCode a)
  | .ttbp d a => encS 0xF8 2 (specCode d) (specCode a)
  | .tlbi a => encS 0xF8 3 0 (specCode a)
  | .fbpop d a => encS 0xF8 4 (specCode d) (specCode a)
  | .replay d a => encS 0xF8 5 (specCode d) (specCode a)
  | .bld z d a => [0xF9 * 2 ^ 24 + z.toNat * 2 ^ 14 + specCode d * 2 ^ 7 + specCode a]
  | .bst z a b => [0xF9 * 2 ^ 24 + 2 ^ 16 + z.toNat * 2 ^ 14 + specCode a * 2 ^ 7 + specCode b]
  | .icw a b => encS 0xF9 2 (specCode a) (specCode b)
  | .ici a => encS 0xF9 3 0 (specCode a)
  | .icr d a => encS 0xF9 4 (specCode d) (specCode a)
  | .sqRd d a => encS 0xFA 0 (specCode d) (specCode a)
  | .sqWr d a => encS 0xFA 1 (specCode d) (specCode a)
  | .sqBuild d a => encS 0xFA 2 (specCode d) (specCode a)
  | .ltokWait d => encS 0xFA 3 (specCode d) 0
  | .ltokPass a => encS 0xFA 4 0 (specCode a)
  | .dkRun d a => encS 0xFA 5 (specCode d) (specCode a)
  | .dkWait d a => encS 0xFA 6 (specCode d) (specCode a)
  | _ => []

/-- The low and high bytes of a u16 operand (R387). -/
def u16Bytes (x : BitVec 16) : List Nat := [x.toNat % 256, x.toNat / 256]

/-- The bytes of a bytecode (R387); empty for a native instruction or an event. -/
def encodeBytecode : Instr → List Nat
  | .bcConst k => 0x01 :: u16Bytes k
  | .bcLoadl i => [0x02, i.toNat]
  | .bcStorel i => [0x03, i.toNat]
  | .bcLoadg n => 0x04 :: u16Bytes n
  | .bcStoreg n => 0x05 :: u16Bytes n
  | .bcLoadattr n s => 0x06 :: (u16Bytes n ++ u16Bytes s)
  | .bcStoreattr n s => 0x07 :: (u16Bytes n ++ u16Bytes s)
  | .bcLoadidx s => 0x08 :: u16Bytes s
  | .bcStoreidx s => 0x09 :: u16Bytes s
  | .bcBinary o s => 0x0A :: o.toNat :: u16Bytes s
  | .bcUnary o s => 0x0B :: o.toNat :: u16Bytes s
  | .bcCompare o s => 0x0C :: o.toNat :: u16Bytes s
  | .bcCall n s => 0x0D :: n.toNat :: u16Bytes s
  | .bcCallmeth n s => 0x0E :: n.toNat :: u16Bytes s
  | .bcReturn => [0x0F]
  | .bcJump t => 0x10 :: u16Bytes t
  | .bcJumpt t => 0x11 :: u16Bytes t
  | .bcJumpf t => 0x12 :: u16Bytes t
  | .bcWalk => [0x13]
  | .bcAdvance t => 0x14 :: u16Bytes t
  | .bcBuildtuple n => [0x15, n.toNat]
  | .bcBuildlist n => [0x16, n.toNat]
  | .bcUnpack n => [0x17, n.toNat]
  | .bcPop => [0x18]
  | .bcDup => [0x19]
  | .bcSwap => [0x1A]
  | .bcRaise => [0x1B]
  | .bcSetuptry t => 0x1C :: u16Bytes t
  | .bcPoptry => [0x1D]
  | .bcAwait => [0x1E]
  | .bcNewobj n => [0x1F, n.toNat]
  | .bcIsinst k s => 0x20 :: (u16Bytes k ++ u16Bytes s)
  | .bcMakefunc k => 0x21 :: u16Bytes k
  | .bcLoadclosure i => [0x22, i.toNat]
  | _ => []

end Sys2Proof
end

