-- ==== Sys2Proof/Machine/Num.lean ====
section
/-!
DEFINITION. Number formats and rounding (03_numbers): decoding a pattern to its exact value, the conversion `cvt`
under every rounding mode with its flags (R46-R61), the blocked forms (R52-R54), the exact arithmetic results of R62,
the stochastic stream (R56, R57), and the iterative functions of R142.
-/
namespace Sys2Proof.Machine

/-! ### Sticky flags (R64) -/

def flIE : Nat := 1
def flDZ : Nat := 2
def flOF : Nat := 4
def flUF : Nat := 8
def flIX : Nat := 16
def flSAT : Nat := 32

/-- The exact value of a pattern: a NaN (signalling or quiet), an infinity, or (-1)^neg * m * 2^e. -/
inductive Val where
  | nan (signalling : Bool)
  | inf (neg : Bool)
  | fin (neg : Bool) (m : Nat) (e : Int)
deriving DecidableEq, Repr

/-- An integer as an exact value. -/
def Val.ofInt (i : Int) : Val := .fin (decide (i < 0)) i.natAbs 0

/-- Parameters of a float format (Tables 3-2 and 3-3): exponent and mantissa bits, bias, the largest finite
magnitude pattern, the infinity pattern and the canonical NaN where the format has them. -/
structure FF where
  eb : Nat
  mb : Nat
  bias : Nat
  maxCode : Nat
  infCode : Option Nat
  nanCode : Option Nat

def ffFp32 : FF := { eb := 8, mb := 23, bias := 127, maxCode := 0x7F7FFFFF, infCode := some 0x7F800000, nanCode := some 0x7FC00000 }
def ffFp16 : FF := { eb := 5, mb := 10, bias := 15, maxCode := 0x7BFF, infCode := some 0x7C00, nanCode := some 0x7E00 }
def ffBf16 : FF := { eb := 8, mb := 7, bias := 127, maxCode := 0x7F7F, infCode := some 0x7F80, nanCode := some 0x7FC0 }
def ffE5m2 : FF := { eb := 5, mb := 2, bias := 15, maxCode := 0x7B, infCode := some 0x7C, nanCode := some 0x7E }
def ffE4m3 : FF := { eb := 4, mb := 3, bias := 7, maxCode := 0x7E, infCode := none, nanCode := some 0x7F }
def ffE2m1 : FF := { eb := 2, mb := 1, bias := 1, maxCode := 0x7, infCode := none, nanCode := none }

/-- The base format of a blocked form (R52). -/
def baseFmt : Fmt → Fmt
  | .e5m2b32 => .e5m2
  | .e4m3b32 => .e4m3
  | .e2m1b32 => .e2m1
  | .ds8b32 => .ds8
  | f => f

def isBlocked : Fmt → Bool
  | .e5m2b32 | .e4m3b32 | .e2m1b32 | .ds8b32 => true
  | _ => false

/-- Width in bits of an element. -/
def fmtBits : Fmt → Nat
  | .s8 | .z8 => 8
  | .s16 | .z16 => 16
  | .s32 | .z32 => 32
  | .s64 | .z64 => 64
  | .fp32 => 32
  | .fp16 | .bf16 => 16
  | .e5m2 | .e4m3 | .e8m0 | .ds8 => 8
  | .e2m1 => 4
  | .e5m2b32 | .e4m3b32 | .ds8b32 => 8
  | .e2m1b32 => 4
  | .tmpr => 32

/-- Whether an integer format is signed. -/
def fmtSigned : Fmt → Bool
  | .s8 | .s16 | .s32 | .s64 => true
  | _ => false

/-! ### Decoding (R46-R51) -/

/-- The value of a pattern of a float format (R48, R49). -/
def decodeFF (f : FF) (x : Nat) : Val :=
  let neg := bitAt x (f.eb + f.mb)
  let mag := x % 2 ^ (f.eb + f.mb)
  let ex := mag / 2 ^ f.mb
  let m := mag % 2 ^ f.mb
  if f.maxCode < mag then
    match f.infCode with
    | some i => if mag = i then .inf neg else .nan (!bitAt m (f.mb - 1))
    | none => .nan false
  else if ex = 0 then .fin neg m (1 - (f.bias : Int) - f.mb)
  else .fin neg (m + 2 ^ f.mb) ((ex : Int) - f.bias - f.mb)

/-- A DS8 term in units of 2^-6 (R51). -/
def ds8Term (t : Nat) : Int :=
  if t % 8 = 7 then 0 else if t / 8 % 2 = 1 then -((2 ^ (6 - t % 8) : Nat) : Int) else ((2 ^ (6 - t % 8) : Nat) : Int)

/-- A DS8 byte in units of 2^-6. -/
def ds8Val (x : Nat) : Int := ds8Term (x % 16) + ds8Term (x / 16 % 16)

/-- The value of a pattern in its format; blocked forms read as their base format, `t` as FP32. -/
def decodeFmt (f : Fmt) (x : Nat) : Val :=
  match baseFmt f with
  | .fp32 | .tmpr => decodeFF ffFp32 x
  | .fp16 => decodeFF ffFp16 x
  | .bf16 => decodeFF ffBf16 x
  | .e5m2 => decodeFF ffE5m2 x
  | .e4m3 => decodeFF ffE4m3 x
  | .e2m1 => decodeFF ffE2m1 x
  | .e8m0 => if x % 256 = 255 then .nan false else .fin false 1 ((x % 256 : Nat) - (127 : Int))
  | .ds8 => .fin (decide (ds8Val x < 0)) (ds8Val x).natAbs (-6)
  | g => if fmtSigned g then .ofInt (toSigned (fmtBits g) x) else .fin false (x % 2 ^ fmtBits g) 0

/-! ### Rounding (R55, R56) -/

/-- A rounded element: its pattern, the flags it raised, and whether SR drew a word. -/
structure Rnd where
  code : Nat
  flags : Nat := 0
  drew : Bool := false
deriving DecidableEq, Repr

/-- m * 2^k as a quotient, remainder and divisor. -/
def scaleQ (m : Nat) (k : Int) : Nat × Nat × Nat :=
  match k with
  | .ofNat i => (m * 2 ^ i, 0, 1)
  | .negSucc i => (m / 2 ^ (i + 1), m % 2 ^ (i + 1), 2 ^ (i + 1))

/-- Whether rounding q + r/d (0 < r < d) of a value of the given sign goes away from zero; `tieAway` settles RNE at
equal distance, and u is the stochastic word. -/
def roundAway (rm : RMode) (neg : Bool) (u r d : Nat) (tieAway : Bool) : Bool :=
  match rm with
  | .rne => decide (d < 2 * r) || (decide (2 * r = d) && tieAway)
  | .rz => false
  | .ru => !neg
  | .rd => neg
  | .sr => decide (u < r * 2 ^ 32 / d)

/-- Round q + r/d to an integer. -/
def roundQ (rm : RMode) (neg : Bool) (u q r d : Nat) : Nat :=
  if r = 0 then q else if roundAway rm neg u r d (q % 2 == 1) then q + 1 else q

/-- The magnitude pattern of q * 2^x where q has at most mb + 1 bits, or mb + 2 when q is a power of two; not bounded
by the format's largest value. -/
def packMag (f : FF) (q : Nat) (x : Int) : Nat :=
  let q' := if 2 ^ (f.mb + 1) ≤ q then q / 2 else q
  let x' := if 2 ^ (f.mb + 1) ≤ q then x + 1 else x
  if q' < 2 ^ f.mb then q' else (x' + f.mb + f.bias).toNat * 2 ^ f.mb + (q' - 2 ^ f.mb)

/-- `cvt` into a float format (R58-R61). `ieee` selects the IEEE overflow result (R62, and E5M2 with E5O = 1). -/
def roundFF (f : FF) (ieee : Bool) (rm : RMode) (u : Nat) (v : Val) : Rnd :=
  let sgn (neg : Bool) : Nat := if neg then 2 ^ (f.eb + f.mb) else 0
  match v with
  | .nan s =>
    match f.nanCode with
    | some c => { code := c, flags := if s then flIE else 0 }
    | none => { code := 7, flags := flIE }
  | .inf neg =>
    match f.infCode with
    | some c => { code := sgn neg + c }
    | none => { code := sgn neg + f.maxCode, flags := flOF + flIX }
  | .fin neg 0 _ => { code := sgn neg }
  | .fin neg m e =>
    let top : Int := (Nat.log2 m : Int) + e
    let emin : Int := 1 - (f.bias : Int)
    let x : Int := (if top < emin then emin else top) - f.mb
    let (q, r, d) := scaleQ m (e - x)
    let lowMag := packMag f q x
    if rm = .sr ∧ (f.maxCode < lowMag ∨ (lowMag = f.maxCode ∧ r ≠ 0)) then
      { code := sgn neg + f.maxCode, flags := flOF + flIX }
    else
      let q' := roundQ rm neg u q r d
      let mag := packMag f q' x
      let drew := rm == .sr && r != 0
      if f.maxCode < mag then
        let toInf := ieee && (rm == .rne || (rm == .ru && !neg) || (rm == .rd && neg))
        { code := sgn neg + (if toInf then f.infCode.getD f.maxCode else f.maxCode), flags := flOF + flIX, drew }
      else
        let fl := if r = 0 then 0 else flIX + (if mag < 2 ^ f.mb then flUF else 0)
        { code := sgn neg + mag, flags := fl, drew }

/-- Bounds of an integer format (R46). -/
def intLo (f : Fmt) : Int := if fmtSigned f then -((2 ^ (fmtBits f - 1) : Nat) : Int) else 0
def intHi (f : Fmt) : Int :=
  if fmtSigned f then ((2 ^ (fmtBits f - 1) : Nat) : Int) - 1 else ((2 ^ fmtBits f : Nat) : Int) - 1

/-- A float source into an integer format (R47). -/
def roundInt (f : Fmt) (rm : RMode) (u : Nat) (v : Val) : Rnd :=
  let n := fmtBits f
  match v with
  | .nan _ => { code := 0, flags := flIE }
  | .inf neg => { code := toPattern n (if neg then intLo f else intHi f), flags := flIE }
  | .fin neg m e =>
    let (q, r, d) := scaleQ m e
    let q' := roundQ rm neg u q r d
    let i : Int := if neg then -(q' : Int) else q'
    let drew := rm == .sr && r != 0
    if i < intLo f then { code := toPattern n (intLo f), flags := flIE, drew }
    else if intHi f < i then { code := toPattern n (intHi f), flags := flIE, drew }
    else { code := toPattern n i, flags := if r = 0 then 0 else flIX, drew }

/-- Into E8M0 (R59). -/
def roundE8m0 (rm : RMode) (u : Nat) (v : Val) : Rnd :=
  match v with
  | .nan s => { code := 0xFF, flags := if s then flIE else 0 }
  | .inf _ => { code := 0xFF, flags := flIE }
  | .fin _ 0 _ => { code := 0, flags := flUF + flIX }
  | .fin _ m e =>
    let l := Nat.log2 m
    let r := m - 2 ^ l
    let top : Int := (l : Int) + e
    let up := r != 0 && roundAway rm false u r (2 ^ l) false
    let p := if up then top + 1 else top
    let drew := rm == .sr && r != 0
    if 127 < p then { code := 0xFE, flags := flOF + flIX, drew }
    else if p < -127 then { code := 0, flags := flUF + flIX, drew }
    else { code := (p + 127).toNat, flags := if r = 0 then 0 else flIX, drew }

/-- The magnitudes of DS8 in units of 2^-6 (R51), rising. -/
def ds8Mags : List Nat :=
  [0, 1, 2, 3, 4, 5, 6, 7, 8, 9, 10, 12, 14, 15, 16, 17, 18, 20, 24, 28, 30, 31, 32, 33, 34, 36, 40, 48, 56, 60, 62, 63,
   64, 65, 66, 68, 72, 80, 96, 128]

/-- The canonical encoding of a DS8 value (R51): the smallest byte that encodes it. -/
def ds8Code (v : Int) : Nat := ((List.range 256).find? (fun x => ds8Val x == v)).getD 8

/-- The neighbours of q + r/d among rising magnitudes: the largest at or below it and the next above. -/
def neighbours (q : Nat) : List Nat → Nat → Nat × Nat
  | [], a => (a, a)
  | b :: l, a => if q < b then (a, b) else neighbours q l b

/-- Into DS8 (R51, R55, R58-R61); a magnitude beyond 2 saturates. -/
def roundDs8 (rm : RMode) (u : Nat) (v : Val) : Rnd :=
  match v with
  | .nan _ => { code := 0, flags := flIE }
  | .inf neg => { code := ds8Code (if neg then -128 else 128), flags := flOF + flIX }
  | .fin neg m e =>
    let (q, r, d) := scaleQ m (e + 6)
    if 128 < q ∨ (q = 128 ∧ r ≠ 0) then { code := ds8Code (if neg then -128 else 128), flags := flOF + flIX }
    else
      let (a, b) := neighbours q ds8Mags 0
      let r' := (q - a) * d + r
      let away := r' != 0 && roundAway rm neg u r' ((b - a) * d) false
      let mag := if away then b else a
      let fl := if r' = 0 then 0 else flIX + (if mag = 0 then flUF else 0)
      { code := ds8Code (if neg then -(mag : Int) else mag), flags := fl, drew := rm == .sr && r' != 0 }

/-- The function cvt(v, f, rm) of R58 for one element; integers follow R47 for a float source. -/
def cvt (f : Fmt) (e5o : Bool) (rm : RMode) (u : Nat) (v : Val) : Rnd :=
  match baseFmt f with
  | .fp32 | .tmpr => roundFF ffFp32 false rm u v
  | .fp16 => roundFF ffFp16 false rm u v
  | .bf16 => roundFF ffBf16 false rm u v
  | .e5m2 => roundFF ffE5m2 e5o rm u v
  | .e4m3 => roundFF ffE4m3 false rm u v
  | .e2m1 => roundFF ffE2m1 false rm u v
  | .e8m0 => roundE8m0 rm u v
  | .ds8 => roundDs8 rm u v
  | g => roundInt g rm u v

/-- An arithmetic result of FP32, FP16 or BF16 (R62): rounded once, with the IEEE overflow result. -/
def cvtArith (f : Fmt) (rm : RMode) (u : Nat) (v : Val) : Rnd :=
  match f with
  | .fp16 => roundFF ffFp16 true rm u v
  | .bf16 => roundFF ffBf16 true rm u v
  | _ => roundFF ffFp32 true rm u v

/-- An integer source into an integer format (R47): exact, or the nearer bound with SAT. -/
def satInt (f : Fmt) (i : Int) : Rnd :=
  if i < intLo f then { code := toPattern (fmtBits f) (intLo f), flags := flSAT }
  else if intHi f < i then { code := toPattern (fmtBits f) (intHi f), flags := flSAT }
  else { code := toPattern (fmtBits f) i }

/-- The exact integer of a finite value whose exponent is not negative. -/
def Val.toInt : Val → Int
  | .fin neg m e => if neg then -((m * 2 ^ e.toNat : Nat) : Int) else ((m * 2 ^ e.toNat : Nat) : Int)
  | _ => 0

/-- Convert a pattern of format g into format f (R47, R58-R60). -/
def cvtFrom (g f : Fmt) (e5o : Bool) (rm : RMode) (u : Nat) (x : Nat) : Rnd :=
  if g.isInt && f.isInt then satInt f (decodeFmt g x).toInt else cvt f e5o rm u (decodeFmt g x)

/-! ### Blocked forms (R53, R54) -/

/-- The value of an element under its block's scale (R53). -/
def scaled (scale : Nat) (v : Val) : Val :=
  if scale % 256 = 255 then .nan false
  else match v with
    | .fin neg m e => .fin neg m (e + (scale % 256 : Nat) - 127)
    | w => w

/-- emax of R54. -/
def blockEmax : Fmt → Int
  | .e5m2 => 15
  | .e4m3 => 8
  | .e2m1 => 2
  | _ => 1

/-- floor(log2 |v|) of a finite nonzero value. -/
def floorLog2 : Val → Option Int
  | .fin _ 0 _ => none
  | .fin _ m e => some ((Nat.log2 m : Int) + e)
  | _ => none

/-- The scale exponent of a block (R54, step 2). -/
def blockExp (f : Fmt) (vs : List Val) : Int :=
  let tops := vs.filterMap floorLog2
  match tops with
  | [] => -127
  | t :: ts =>
    let x := ts.foldl max t - blockEmax f
    max (-127) (min 127 x)

def Val.isFinite : Val → Bool
  | .fin _ _ _ => true
  | _ => false

/-- Elements rounded in order, each drawing from the stream `draw` at the running index (R56, R57). -/
def roundList (conv : Nat → Val → Rnd) (draw : Nat → Nat) : Nat → List Val → List Nat × Nat × Nat
  | d, [] => ([], 0, d)
  | d, v :: vs =>
    let r := conv (draw d) v
    let (cs, fl, d') := roundList conv draw (if r.drew then d + 1 else d) vs
    (r.code :: cs, r.flags ||| fl, d')

/-- A block converted into its blocked form (R54): elements, scale byte, flags, and the draw index after it. -/
def blockEncode (f : Fmt) (e5o : Bool) (rm : RMode) (draw : Nat → Nat) (d : Nat) (vs : List Val) :
    List Nat × Nat × Nat × Nat :=
  let g := baseFmt f
  if vs.all Val.isFinite then
    let x := blockExp g vs
    let shift : Val → Val := fun v => match v with | .fin n m e => .fin n m (e - x) | w => w
    let (cs, fl, d') := roundList (cvt g e5o rm) draw d (vs.map shift)
    (cs, (x + 127).toNat, fl, d')
  else (vs.map (fun _ => (cvt g false .rne 0 (.fin false 0 0)).code), 0xFF, flIE, d)

/-! ### Exact arithmetic (R62) -/

def Val.isNan : Val → Bool
  | .nan _ => true
  | _ => false

def Val.isSnan : Val → Bool
  | .nan s => s
  | _ => false

def Val.isZero : Val → Bool
  | .fin _ 0 _ => true
  | _ => false

def Val.isInf : Val → Bool
  | .inf _ => true
  | _ => false

def Val.isNeg : Val → Bool
  | .fin n _ _ => n
  | .inf n => n
  | .nan _ => false

def Val.negate : Val → Val
  | .fin n m e => .fin (!n) m e
  | .inf n => .inf (!n)
  | w => w

/-- The exact product; 0 times an infinity is invalid, shown as a signalling NaN. -/
def mulExact (a b : Val) : Val :=
  if a.isSnan || b.isSnan then .nan true
  else if a.isNan || b.isNan then .nan false
  else
    let s := a.isNeg != b.isNeg
    match a, b with
    | .fin _ m e, .fin _ k g => .fin s (m * k) (e + g)
    | _, _ => if a.isZero || b.isZero then .nan true else .inf s

/-- A signed multiple of 2^lo for a finite value, where lo is at most its exponent. -/
def alignTo (lo : Int) : Val → Int
  | .fin n m e => let x : Int := (m * 2 ^ (e - lo).toNat : Nat); if n then -x else x
  | _ => 0

def Val.expo : Val → Int
  | .fin _ _ e => e
  | _ => 0

/-- The exact sum; a zero sum takes its sign by R62 under the mode. -/
def addExact (rm : RMode) (a b : Val) : Val :=
  if a.isSnan || b.isSnan then .nan true
  else if a.isNan || b.isNan then .nan false
  else if a.isInf || b.isInf then
    if a.isInf && b.isInf && a.isNeg != b.isNeg then .nan true
    else if a.isInf then a else b
  else
    let lo := min a.expo b.expo
    let t := alignTo lo a + alignTo lo b
    if t = 0 then
      if a.isZero && b.isZero && a.isNeg == b.isNeg then .fin a.isNeg 0 0
      else .fin (rm == .rd) 0 0
    else .fin (decide (t < 0)) t.natAbs lo

/-- A × B + C, fused: a product of 0 and an infinity is invalid whatever the addend (R62). -/
def fmaExact (rm : RMode) (a b c : Val) : Val :=
  if a.isSnan || b.isSnan || c.isSnan then .nan true
  else if (a.isZero && b.isInf) || (a.isInf && b.isZero) then .nan true
  else addExact rm (mulExact a b) c

/-- Numeric order of values that are not NaN: negative, zero or positive as a is below, equal to or above b. -/
def cmpExact (a b : Val) : Int :=
  match a, b with
  | .inf n, .inf k => (if n == k then 0 else if n then -1 else 1)
  | .inf n, _ => if n then -1 else 1
  | _, .inf k => if k then 1 else -1
  | _, _ =>
    let lo := min a.expo b.expo
    alignTo lo a - alignTo lo b

/-! ### The stochastic stream (R57) -/

/-- One round of Philox 4x32 on (k0, k1, c0, c1, c2, c3). -/
def philoxRound (k : Nat × Nat × Nat × Nat × Nat × Nat) : Nat × Nat × Nat × Nat × Nat × Nat :=
  let (k0, k1, c0, c1, c2, c3) := k
  let p := 0xD2511F53 * c0
  let q := 0xCD9E8D57 * c2
  ((k0 + 0x9E3779B9) % 2 ^ 32, (k1 + 0xBB67AE85) % 2 ^ 32,
   natXor (natXor (q / 2 ^ 32) c1) k0, q % 2 ^ 32, natXor (natXor (p / 2 ^ 32) c3) k1, p % 2 ^ 32)

def philoxRounds : Nat → Nat × Nat × Nat × Nat × Nat × Nat → Nat × Nat × Nat × Nat × Nat × Nat
  | 0, k => k
  | n + 1, k => philoxRounds n (philoxRound k)

/-- The four words of the generator. -/
def philox (k0 k1 c0 c1 c2 c3 : Nat) : Nat × Nat × Nat × Nat :=
  let (_, _, a, b, c, d) := philoxRounds 10 (k0, k1, c0, c1, c2, c3)
  (a, b, c, d)

/-- Draw d of the stream of a logical core in a context with a seed word. -/
def drawWord (core ctx seed d : Nat) : Nat :=
  let q := d / 4
  let (a, b, c, e) := philox (core % 2 ^ 32) (ctx % 2 ^ 32) (q % 2 ^ 32) (q / 2 ^ 32 % 2 ^ 32) (seed % 2 ^ 32) (seed / 2 ^ 32 % 2 ^ 32)
  match d % 4 with
  | 0 => a
  | 1 => b
  | 2 => c
  | _ => e

/-! ### Iterative functions (R142) -/

/-- Integer square root by Newton's iteration; the start is above the root. -/
def isqrtFrom : Nat → Nat → Nat → Nat
  | 0, _, x => x
  | k + 1, n, x => let y := (x + n / x) / 2; if y < x then isqrtFrom k n y else x

/-- floor(sqrt n). -/
def isqrt (n : Nat) : Nat := if n = 0 then 0 else isqrtFrom 400 n (2 ^ (Nat.log2 n / 2 + 1))

/-- n/d > 0 rounded by RNE to p significant bits: the value, and whether it is exact. -/
def roundSig (p n d : Nat) : Nat × Int × Bool :=
  let k0 : Int := (Nat.log2 n : Int) - Nat.log2 d
  let x : Int := k0 - p
  -- scale so that the quotient has p to p+2 bits, then keep p
  let (nn, dd) : Nat × Nat := match x with
    | .ofNat i => (n, d * 2 ^ i)
    | .negSucc i => (n * 2 ^ (i + 1), d)
  let q := nn / dd
  let extra := Nat.log2 q + 1 - p
  let dd' := dd * 2 ^ extra
  let q' := nn / dd'
  let r := nn % dd'
  (roundQ .rne false 0 q' r dd', x + extra, r == 0)

/-- The value y_n of R142 as an exact value, and whether it equals f(x). -/
def rcpIter (p m : Nat) (e : Int) : Nat × Int × Bool :=
  let (q, x, ex) := roundSig p 1 m
  (q, x - e, ex)

def rsqIter (p m : Nat) (e : Int) : Nat × Int × Bool :=
  let odd := e % 2 != 0
  let m' := if odd then 2 * m else m
  let e' := if odd then e - 1 else e
  let sb := Nat.log2 m' + 2 * p + 8
  let s := isqrt (2 ^ (2 * sb) / m')
  let exact := s * s * m' == 2 ^ (2 * sb)
  -- an inexact root lies strictly between s and s + 1 units
  let (q, x, ex) := roundSig p (if exact then 2 * s else 2 * s + 1) (2 ^ (sb + 1))
  (q, x - e' / 2, ex && exact)

/-- Fractional bits of the fixed-point kernels of 2^x, log2 x and e^x (log 8). -/
def fixBits : Nat := 320

/-- ln 2 in units of 2^-fixBits: the sum of 1/(k 2^k). -/
def ln2Sum : Nat → Nat → Nat
  | 0, _ => 0
  | n + 1, k => 2 ^ fixBits / (k * 2 ^ k) + ln2Sum n (k + 1)

def ln2Fix : Nat := ln2Sum 320 1

/-- e^t for t in units of 2^-fixBits, by its series. -/
def expSum : Nat → Nat → Nat → Nat → Nat
  | 0, _, _, _ => 0
  | n + 1, t, term, k => term + expSum n t (term * t / 2 ^ fixBits / k) (k + 1)

def expFix (t : Nat) : Nat := expSum 90 t (2 ^ fixBits) 1

/-- 2 atanh(z) for z in units of 2^-fixBits, by its series. -/
def atanhSum : Nat → Nat → Nat → Nat → Nat
  | 0, _, _, _ => 0
  | n + 1, z2, term, k => term / k + atanhSum n z2 (term * z2 / 2 ^ fixBits) (k + 2)

/-- log2(m / 2^b) for 2^b ≤ m < 2^(b+1), in units of 2^-fixBits. -/
def log2Fix (m b : Nat) : Nat :=
  let z := (m - 2 ^ b) * 2 ^ fixBits / (m + 2 ^ b)
  2 * atanhSum 105 (z * z / 2 ^ fixBits) z 1 * 2 ^ fixBits / ln2Fix

/-- 2^x of a finite nonzero x, to p significant bits. A magnitude of 512 or more is beyond every format. -/
def exp2Iter (p : Nat) (neg : Bool) (m : Nat) (e : Int) : Nat × Int × Bool :=
  if (9 : Int) ≤ (Nat.log2 m : Int) + e then (1, if neg then -600 else 600, false)
  else
    let (q, r, d) := scaleQ m e
    if r = 0 then (1, if neg then -(q : Int) else q, true)
    else
      let i : Int := if neg then -(q : Int) - 1 else q
      let fr := if neg then d - r else r
      let f := expFix (fr * ln2Fix / d)
      let (y, x, _) := roundSig p (2 * f + 1) (2 ^ (fixBits + 1))
      (y, x + i, false)

/-- The exact or bracketed value of log2 x of a finite positive x: exact for powers of two. -/
def log2Val (m : Nat) (e : Int) : Val :=
  let b := Nat.log2 m
  let k : Int := (b : Int) + e
  if m = 2 ^ b then .ofInt k
  else
    let t : Int := k * ((2 ^ (fixBits + 1) : Nat) : Int) + ((2 * log2Fix m b + 1 : Nat) : Int)
    .fin (decide (t < 0)) t.natAbs (-(fixBits : Int) - 1)

/-- The four functions (R142). -/
inductive IterFn where
  | rcp | rsq | exp2 | log2
deriving DecidableEq, Repr

/-- One lane of an iterative function with n iterations in result format f (R142, Table 6-2). -/
def iterLane (fn : IterFn) (n : Nat) (f : Fmt) (rm : RMode) (u : Nat) (v : Val) : Rnd :=
  let p := 8 * 2 ^ n
  let outv (neg : Bool) (y : Nat × Int × Bool) : Rnd :=
    let r := cvtArith f rm u (.fin neg y.1 y.2.1)
    { r with flags := if y.2.2 then r.flags else r.flags ||| flIX }
  let sp (w : Val) (fl : Nat) : Rnd := { cvtArith f .rne 0 w with flags := fl }
  match v with
  | .nan s => sp (.nan false) (if s then flIE else 0)
  | .inf neg =>
    match fn with
    | .rcp => sp (.fin neg 0 0) 0
    | .rsq => if neg then sp (.nan false) flIE else sp (.fin false 0 0) 0
    | .exp2 => if neg then sp (.fin false 0 0) 0 else sp (.inf false) 0
    | .log2 => if neg then sp (.nan false) flIE else sp (.inf false) 0
  | .fin neg 0 _ =>
    match fn with
    | .rcp => sp (.inf neg) flDZ
    | .rsq => sp (.inf neg) flDZ
    | .exp2 => outv false (1, 0, true)
    | .log2 => sp (.inf true) flDZ
  | .fin neg m e =>
    match fn with
    | .rcp => outv neg (rcpIter p m e)
    | .rsq => if neg then sp (.nan false) flIE else outv false (rsqIter p m e)
    | .exp2 => outv false (exp2Iter p neg m e)
    | .log2 => if neg then sp (.nan false) flIE else cvtArith f rm u (log2Val m e)

end Sys2Proof.Machine
end

