-- ==== Sys2Proof/Machine/Memory.lean ====
section
/-!
DEFINITION. Byte memory: a list of (address, byte) cells in one canonical form, addresses strictly rising and no
cell holding 0, which is what an unlisted address reads as (assumption 3). Every array of bytes of the machine
(local stores, shadows, row stores, accumulators, bulk memory, tables) is held so. Multi-byte values are
little-endian (R3).
-/
namespace Sys2Proof

/-- A byte memory in canonical form. -/
abbrev Mem := List Host.Cell

namespace Machine

/-- The byte at an address; 0 where nothing is listed. -/
def memGet : Mem → Nat → Byte
  | [], _ => 0
  | (k, v) :: m, a => if k = a then v else if a < k then 0 else memGet m a

/-- Write one byte, keeping the canonical form. -/
def memSet : Mem → Nat → Byte → Mem
  | [], a, b => if b = 0 then [] else [(a, b)]
  | (k, v) :: m, a, b =>
    if a < k then (if b = 0 then (k, v) :: m else (a, b) :: (k, v) :: m)
    else if a = k then (if b = 0 then m else (a, b) :: m)
    else (k, v) :: memSet m a b

/-- Addresses strictly rising from a lower bound, and no cell at 0. -/
def memFrom : Nat → Mem → Bool
  | _, [] => true
  | lo, (k, v) :: m => decide (lo ≤ k) && decide (v ≠ 0) && memFrom (k + 1) m

/-- The canonical form. -/
def Memory.wf (m : Mem) : Bool := memFrom 0 m

/-- n bytes from an address. -/
def memBytes (m : Mem) (a : Nat) : Nat → List Byte
  | 0 => []
  | n + 1 => memGet m a :: memBytes m (a + 1) n

/-- The little-endian value of n bytes from an address. -/
def memRead (m : Mem) (a n : Nat) : Nat := ofBytes (memBytes m a n)

/-- Write bytes from an address upward. -/
def memPut : Mem → Nat → List Byte → Mem
  | m, _, [] => m
  | m, a, b :: bs => memPut (memSet m a b) (a + 1) bs

/-- Write the n low bytes of a value, little-endian. -/
def memWrite (m : Mem) (a n v : Nat) : Mem := memPut m a (toBytes n v)

/-- The cells of an address range. -/
def memSlice (m : Mem) (lo hi : Nat) : Mem := m.filter (fun c => decide (lo ≤ c.1) && decide (c.1 < hi))

/-- The cells outside an address range. -/
def memClear (m : Mem) (lo hi : Nat) : Mem := m.filter (fun c => !(decide (lo ≤ c.1) && decide (c.1 < hi)))

/-- Merge two memories whose cells are disjoint, in address order. -/
def memMerge : Mem → Mem → Mem
  | [], m => m
  | c :: l, m => memSet (memMerge l m) c.1 c.2

/-- The cells moved to addresses `off` higher. -/
def memShiftUp (m : Mem) (off : Nat) : Mem := m.map (fun c => (c.1 + off, c.2))

/-- The cells moved to addresses `off` lower; cells below `off` are dropped. -/
def memShiftDown (m : Mem) (off : Nat) : Mem := (m.filter (fun c => decide (off ≤ c.1))).map (fun c => (c.1 - off, c.2))

/-- Replace the range of `n` bytes at `dst` of m by the bytes of `src` at `from'`. -/
def memCopy (m : Mem) (dst : Nat) (src : Mem) (from' n : Nat) : Mem :=
  memMerge (memShiftUp (memShiftDown (memSlice src from' (from' + n)) from') dst) (memClear m dst (dst + n))

end Machine
end Sys2Proof
end

