-- ==== Sys2Proof/Machine/State.lean ====
section
/-!
DEFINITION. The state of the UZ-960 as plain data: every piece of state the spec gives the machine, each field with
its rule and, by its default, its value at reset. Where the spec gives no reset value the field is 0 or empty and the
comment names the log entry. Fields marked MODEL are the model's own.
-/
namespace Sys2Proof.Machine

/-! ### Traps -/

/-- Trap causes (Table 12-1). -/
inductive Cause where
  | undef | combo | priv | align | fabric | bulk | tile | budget | arith | gangfmt | delivery
  | attach | ttb | pair | save | brk | trap | hwfault
deriving DecidableEq, Repr

/-- A raised trap: cause, subcode, the record's address, and, for a failed job that surfaces (R264) or a boundary
trap, the job id, the ASYNC bit, the code offset and the object of the `cpy` or of the send, and the channel and MID of
the issuing firing; `stamp` is the cycle of a trap whose record is written later (R272). -/
structure Trap where
  cause : Cause
  sub : Nat := 0
  addr : Nat := 0
  job : Nat := 0
  async : Bool := false
  off : Option Nat := none
  obj : Option Nat := none
  chmid : Option (Nat × Nat) := none
  stamp : Option Nat := none
deriving DecidableEq, Repr

/-- A frame of interrupted state (R267): WP, PC, remaining budget, the faulting instruction's length, whether the
core was in bytecode mode, the trap with the place and the cycle at which it was raised, whether it was taken at a
boundary, and whether a firing ran. -/
structure Frame where
  wp : Nat
  pc : Nat
  budget : Nat
  len : Nat
  bc : Bool
  trap : Trap
  boundary : Bool
  idle : Bool
  insn : Nat
  ext : Nat
  obj : Nat := 0
  off : Nat := 0
  stamp : Nat := 0
deriving DecidableEq, Repr

/-! ### Channels, messages, tiles, jobs -/

/-- The control word of a channel (Table 8-1). -/
structure ChanCtl where
  entry : Nat := 0
  budget : Nat := 0
  wpi : Nat := 0
  rate : Nat := 0
  prio : Nat := 0
deriving DecidableEq, Repr

/-- A channel-table entry (Tables 8-1 to 8-3); BIND 0 unbound, 1 bound, 2 rebinding. -/
structure Chan where
  ctl : ChanCtl := {}
  bind : Nat := 0
  ready : Bool := false
  hold : Bool := false
  mask : Bool := false
  base : Nat := 0
  size : Nat := 0
  head : Nat := 0
  fill : Nat := 0
  skip : Nat := 0
  pend : ChanCtl := {}
deriving DecidableEq, Repr

/-- An entry of the header queue (R182): the header word and how many of the message's words earlier spans held. -/
structure Hdr where
  word : Nat
  done : Nat := 0
deriving DecidableEq, Repr

/-- What travels to a channel: an ordinary message, an enqueue (R197), a `chhold`/`chrdy` packet (R203), or a
packet of the sequence service that cancels nodes of a draft group or clears it (R413). -/
inductive MsgKind where
  | ordinary
  | enq (ack : Bool)
  | hold (v : Bool)
  | ready (v : Bool)
  | cancel (group mask : Nat)
  | clear (group : Nat)
deriving DecidableEq, Repr

/-- Where a message in flight is: on its way, refused (by a bound channel or not) with the reply on its way back, or
waiting to retry. -/
inductive MsgPhase where
  | going
  | refused (bound : Bool)
  | waiting
deriving DecidableEq, Repr

/-- A message, enqueue or packet (R182, R194-R203). `src` is none for a service (CLASS 3). `dest` is the destination
word; `toC` the physical core, for a service's packet. `off`, `obj`, `ch`, `mid` name the instruction and firing that issued it (R196). -/
structure Msg where
  src : Option CoreId
  ctx : Nat
  toC : Option CoreId := none
  dest : Nat
  hdr : Nat
  words : List Nat
  kind : MsgKind := .ordinary
  phase : MsgPhase := .going
  refusals : Nat := 0
  launch : Nat := 0
  off : Nat := 0
  obj : Nat := 0
  ch : Nat := 0
  mid : Nat := 0
deriving DecidableEq, Repr

/-- Tile states (R205). -/
inductive TileState where
  | empty | filling | ready | draining
deriving DecidableEq, Repr

/-- A tile-table entry (R205); NCH 0 is an undefined tile. -/
structure Tile where
  base : Nat := 0
  nch : Nat := 0
  st : TileState := .empty
  exp : Nat := 0
  arr : Nat := 0
  err : Bool := false
deriving DecidableEq, Repr

/-- What names a job on its issuing core beside its id (R220, R264): the tile it targeted, or the stage it claimed. -/
inductive JobPlace where
  | tile (t : Nat)
  | stage (ring n : Nat)
deriving DecidableEq, Repr

/-- Status of a copy job (R208): failed with the trap it raises, whether that has surfaced (R264), what names the job
on the issuing core, and the number of the firing that issued it. -/
inductive JobStatus where
  | pending
  | complete
  | failed (t : Trap) (surfaced : Bool) (place : Option JobPlace) (firing : Nat)
deriving DecidableEq, Repr

/-- Context translation requests: who waits on a walk or a park (R346-R348). -/
inductive Requester where
  | job (uid : Nat)
  | core (c : CoreId)
  | loader (c : CoreId)
deriving DecidableEq, Repr

/-- Destination of a copy job (R211, R212). -/
inductive JobKind where
  | tile (t : Nat)
  | ring (q : Nat)
  | addr
  | slab (t blk w h c : Nat)
deriving DecidableEq, Repr

/-- Where a job stands: queued, started at a next chunk, parked, waiting for its last beats after failing, done. -/
inductive JobPhase where
  | queued
  | running (next : Nat)
  | parked (next : Nat)
  | failing
deriving DecidableEq, Repr

/-- A copy job (R208-R221). `uid` is the model's own unique number; `couch` the row, or 4,096 + i or 8,192 + i for control or gateway core i; `left` lists the chunks whose beats have not all
landed, each with the number of beats still to land (the chunk number counts destination units of 512 bytes). -/
structure Job where
  uid : Nat
  couch : Nat
  core : CoreId
  id : Nat
  kind : JobKind
  o : Bool
  rows : Nat
  rlen : Nat
  dstr : Nat
  doff : Nat
  src : Nat
  dst : Nat
  sstr : Int
  mbx : Nat
  msg : Nat
  mdata : Nat
  mid : Nat
  off : Nat
  obj : Nat
  ctx : Nat
  ch : Nat
  cmid : Nat
  firing : Nat                        -- firings of the core at issue
  stage : Option Nat := none          -- the ring stage claimed, in the row of the issuing core
  phase : JobPhase := .queued
  left : List (Nat × Nat) := []
  landed : List Nat := []             -- chunks finished
  counted : Nat := 0                  -- 1: counted in ct.f; 2: in ct.b (R217)
  fail : Option Trap := none
  prev : Option Nat := none           -- uid of the job a .o job waits for
  since : Nat := 0                    -- the cycle in which it was queued (R429)
deriving DecidableEq, Repr

/-! ### Kiln -/

/-- Format context (Table 7-1), as format codes. -/
structure KCtx where
  af : Nat := 0
  bf : Nat := 0
  acc : Nat := 0
  slip : Bool := false
deriving DecidableEq, Repr

/-- Stage states (R158). -/
inductive StageState where
  | empty | filling | ready | error
deriving DecidableEq, Repr

/-- A kiln ring (R158): configuration, stages, indices, and the launch that claims it (R159). `taken` lists the
stages taken and not popped, in bind order, each with whether its operation has retired. -/
structure Ring where
  base : Nat := 0
  size : Nat := 0
  count : Nat := 0
  stages : List StageState := []
  tail : Nat := 0
  bind : Nat := 0
  head : Nat := 0
  claim : Option Nat := none             -- key of the claiming launch
  taken : List (Nat × Nat × Bool) := []    -- operation uid, stage, retired
deriving DecidableEq, Repr

/-- What a kiln operation does. -/
inductive KOpKind where
  | mm (x : Bool) (kcount n : Nat) (zero keep : Bool)
  | slip
  | clr
deriving DecidableEq, Repr

/-- One participating slice of an operation: core place k, its tile (base and number), offset, stride, m. -/
structure KPart where
  k : Nat
  tile : Nat
  base : Nat
  off : Nat
  stride : Nat
  m : Nat
deriving DecidableEq, Repr

/-- Phases of an accepted operation (R161). -/
inductive KPhase where
  | accepted | slipDone | kiln
deriving DecidableEq, Repr

/-- An accepted kiln operation that has not retired (R160-R167): the context captured, the stage taken, the parts, and
the shadow accumulators and flags once the kiln phase has run. `a` and `b` hold the slip stage's results. -/
structure KOp where
  uid : Nat
  kind : KOpKind
  ctx : KCtx
  ring : Option Nat
  stage : Nat
  parts : List KPart
  phase : KPhase := .accepted
  slipB : List Nat := []             -- expanded B, row-major codes
  slipA : List (Nat × List Nat) := []  -- absorbed A of each slice, row-major codes
  shadow : List (Nat × Mem) := []    -- shadow accumulators of each slice
  flags : List (Nat × Nat) := []     -- sticky flags of each slice
  popped : Bool := false             -- its stage has been popped: a later operation took it without KEEP (R158)
  launch : Nat := 0
deriving DecidableEq, Repr

/-- A kiln request that has passed its checks and waits for acceptance (R160). -/
structure KReq where
  kind : KOpKind
  ring : Option Nat
  part : KPart
  gang : Bool := false
  off : Spec                     -- its operand, whose post-increment takes place at acceptance
deriving DecidableEq, Repr

/-! ### Fabric and atomics -/

/-- The home of a byte (R232): a core's local store, a row store, the system window, or bulk memory by tier. `away` is
the window of a logical core that is evicted and not yet restored (R236). -/
inductive Home where
  | core (c : CoreId) (a : Nat)
  | row (r : Nat) (a : Nat)
  | sys (off : Nat)
  | bulk (tier : Nat) (a : Nat)
  | away (logical : Nat)
deriving DecidableEq, Repr

/-- What an access does at its home. -/
inductive AccKind where
  | store (bytes : List Byte)
  | load (n : Nat) (dst : Nat) (signed : Bool) (w8 : Bool)
  | amo (op : AmoOp) (t : IType) (data data2 : Nat) (dst : Nat)
deriving DecidableEq, Repr

/-- Where an access is: going to its home, its reply coming back (with a value), a retry reply coming back, or
waiting to be retried (R232-R236). -/
inductive AccPhase where
  | going
  | done (bytes : List Byte)
  | refused
  | waiting
deriving DecidableEq, Repr

/-- An access in flight (R232-R243). `home` is the home as resolved at issue; `va` the context address. `posted` says
which count it holds (0 none, 1 ct.f, 2 ct.b); `acq` that the core stalls for it. `todo` lists the aligned 8-byte words
that have still to perform (R232), `got` holds the bytes that a load has read, `since` is the cycle of its issue. -/
structure Acc where
  src : CoreId
  ctx : Nat
  home : Home
  va : Nat
  kind : AccKind
  phase : AccPhase := .going
  posted : Nat := 0
  acq : Bool := false
  launch : Nat := 0
  todo : List Nat := [0]
  got : List Byte := []
  since : Nat := 0
  big : Bool := false            -- translated by a 2 MiB mapping
  born : Nat := 0                -- the removals of translations before its own (R357)
deriving DecidableEq, Repr

/-- A hot line of an atomic unit (R240): the unit (a row, or 2,048 + 4 streamers + tier), the line by its home, the
cycle of the last operation on it, plus 1, the place of the home row's core served last on it (R241), and the context and
address of that operation (R437, R445). A line holds the bytes of its home, which every write updates with it, so that no
value of its own stands here. -/
structure HotLine where
  unit : Nat
  line : Home
  last : Nat := 0
  k : Nat := 7
  ctx : Nat := 0
  va : Nat := 0
deriving DecidableEq, Repr

/-! ### A core -/

/-- What runs on a core (R187): nothing, the prologue, or a firing on a channel. -/
inductive Run where
  | idle
  | prologue
  | firing (ch : Nat)
deriving DecidableEq, Repr

/-- Where a placed core is in its life (R287-R292, R367-R370). `preparing` waits for images and the prologue (R291);
`saving` is under eviction; `restoring` waits for its restore; `ending` ends its context (R269). -/
inductive Life where
  | free | preparing | active | saving | restoring | ending
deriving DecidableEq, Repr

/-- An attachment-table entry (R308): the handle's slot and incarnation, and the launch that made it. -/
structure Attach where
  slot : Nat := 0
  inc : Nat := 0
  launch : Nat := 0
deriving DecidableEq, Repr

/-- A valid token-translation-buffer entry (R353): its slot and its words. -/
structure Ttb where
  slot : Nat
  w0 : Nat
  target : Nat
  w2 : Nat
deriving DecidableEq, Repr

/-- A translation held by a TLB (R346): context, virtual page number at its size, physical page and rights. -/
structure TlbEnt where
  ctx : Nat
  vpn : Nat
  big : Bool
  tier : Nat
  ppn : Nat
  r : Bool
  w : Bool
  x : Bool
  a : Bool
deriving DecidableEq, Repr

/-- Pair states (R442-R444). -/
inductive PairState where
  | single | coupling | primary | checker
deriving DecidableEq, Repr

/-- One physical core: a compute core with its kiln slice, a control core or a gateway core. -/
structure Core where
  cls : CoreClass := .compute
  -- local store and workspace (R12, R73-R75)
  ls : Mem := []                 -- local store bytes, by local address (log 3)
  sh : Mem := []                 -- shadows of workspace offsets 0x100-0x37F, by offset (R75)
  wp : Nat := 0                  -- workspace pointer (R73, log 5)
  flags : Nat := 0               -- copy of the flags word (R110, log 5)
  mask : Nat := 0                -- copy of the vector mask word (R132, log 5)
  -- counts (R229, R230)
  ctf : Nat := 0
  ctb : Nat := 0
  ctm : Nat := 0
  ldo : Nat := 0
  atm : Nat := 0
  pendDst : List (Nat × Nat) := []  -- local address and length of a destination a relaxed load or atomic will write
  acqWait : Bool := false        -- an acquire load or atomic has not returned (R235, R243)
  fenceSt : Bool := false        -- a fence holds later stores and sends until ct.f and ct.b are zero (R238)
  fenceDst : List (Nat × Nat) := []  -- and until these earlier loads have returned
  own : Bool := false            -- MODEL: at the issue of the running instruction an access to the core's own window had not performed (R253)
  -- execution (R125, R187, R188, R267)
  pc : Nat := 0                  -- code offset (R125, log 5)
  bcMode : Bool := false         -- bytecode mode (R383)
  run : Run := .idle
  last : Nat := 31               -- LAST (Table 8-4)
  budget : Nat := 0              -- cycles left of the firing, or of the prologue (R103)
  hbudget : Nat := 0             -- cycles left of the trap-handler run (R268)
  lframe : Option Frame := none  -- frame of the local handler (R267)
  tframe : Option Frame := none  -- frame of the trap handler
  ccyc : Nat := 0                -- control-core cycles charged that do not yet make a cycle, 0 to 2 (R4)
  late : List (Nat × Nat × Nat) := []  -- results of multiplies that cannot be read yet: address, bytes, cycles (R103)
  owed : Nat := 0                -- cycles of the instruction issued last after its first (R103)
  vpend : Bool := false          -- a vector instruction has issued and not completed (R151)
  fifoWp : Nat := 0              -- the workspace whose h3 is bound to the firing's FIFO
  h3fifo : Bool := false         -- h3 is bound to the firing's channel FIFO (R188, R191)
  sleeping : Bool := false       -- a multi-step wait has registered its request (gbar, kleave, services)
  bpend : List Trap := []        -- pending boundary traps, oldest first (R264)
  -- channels and messages (R181-R204)
  chans : List Chan := List.replicate 32 {}
  hdrs : List (Nat × Hdr) := []  -- header queue, oldest first, each with its channel (R182)
  landing : List Msg := []       -- landing slots of the reserved-slot channel (R197)
  sbuf : List Msg := []          -- send buffer, this firing's messages (R194)
  sout : List Msg := []          -- released messages that have not left
  midc : Nat := 0                -- MID count (R183)
  firings : Nat := 0             -- firings started since placement (R57)
  retired : Bool := false        -- a firing on a channel has closed since placement (R292)
  cancels : List Nat := []       -- cancel set (R413)
  -- tiles and copies (R205-R209)
  tiles : List Tile := List.replicate 16 {}
  drainp : Option (Nat × TileState) := none  -- a waiting tdrain: its tile and the state that the tile had (R206, R263)
  jobc : Nat := 0                -- job-id count (R208)
  jobs : List (Nat × JobStatus) := []  -- statuses of recent ids, newest first (R208)
  -- kiln (R153, R154, R178)
  acc : Mem := []                -- accumulators, cell (i, j) at 4*(64*i + j)
  kctx : KCtx := {}
  kout : Nat := 0                -- accepted operations not yet retired
  kheld : List Nat := []         -- tiles that accepted operations name, one entry each (R162)
  kgc : Nat := 0                 -- kmm.g count since placement (R166)
  kreq : Option KReq := none     -- a request waiting for acceptance (R160)
  kverd : List (Nat × Cause × Nat) := []  -- traps that the wired barrier holds for this core, by kmm.g count (R166)
  grants : Nat := 0              -- leave grants (R178)
  lreq : Nat := 0                -- leave grants asked for by a sleeping kleave
  lgot : Option Nat := none      -- grants given to it, which it takes when it retires (R178, R453)
  -- barriers (R244)
  gbarc : Nat := 0               -- gbar count since placement
  gbarIn : Option Nat := none    -- waiting at the barrier with these sticky flags
  gbarOut : Option Nat := none   -- released from the barrier with this OR of all arrivals
  cwait : Bool := false          -- stalled for an entry of the couch's queue (R14)
  -- translation, saggars (R353, R308)
  ttb : List Ttb := []           -- token translation buffer: its valid slots, most recent first (R353)
  att : List Attach := []        -- attachment table (R308)
  tlb : List TlbEnt := []        -- level-one TLB of a control or gateway core (R346)
  parked : Bool := false         -- its request is parked (R348)
  tres : Option (Nat × Nat) := none  -- address and subcode with which its translation request failed (R351)
  tlbw : Option Nat := none      -- MODEL: a waiting tlbi has removed its entries: the number of that removal (R357)
  -- placement (R291, R360-R363)
  life : Life := .free
  ctx : Nat := 0
  launch : Nat := 0              -- launch number
  logical : Nat := 0             -- logical core number, or index
  gang : Nat := 0                -- gang number within the launch
  sup : Bool := false            -- SUP as read at placement (R372)
  preReq : Option Nat := none    -- pre-emption request pending since this cycle (R365)
  sliceExp : Bool := false       -- slice expired (sr.pre)
  -- system registers (R266, R373, R447, R454)
  tcfg : Nat := 0
  tent : Nat := 0
  kstall : Nat := 0
  eccL : Nat := 0
  eccR : Nat := 0
  bhtab : Nat := 0
  ltab : Nat := 0
  bscr : Nat := 0
  rring : Nat := 0
  -- control core (R375, R390, R401-R405)
  lines : List (Nat × Nat) := []       -- line cache: tier and line number, most recent first (R375, log 6)
  fillWait : Option (Nat × Nat × Nat) := none  -- a line fill on its way: tier, line, address asked for (R375)
  ic : List (Nat × Nat × Nat × Nat) := []  -- inline-cache entries that are not zero: index and three words (R390)
  -- pairs (R442-R444)
  pst : PairState := .single
  partner : Nat := 0
  mism : Nat := 0
  pairReq : Nat := 0             -- pending couple (1) or uncouple (2), a coupling that waits (3) or is abandoned (4) (R444)
  pairRuns : Nat := 0            -- PAIR subcode 0x00 traps with no firing retired between (R443)
deriving DecidableEq, Repr

/-! ### A row -/

/-- A line of a row's instruction cache (R281): context, number of its 256 bytes in the context's bulk space, the bytes
of it that had landed when it was filled, and its contents by offset. -/
structure CodeLine where
  ctx : Nat
  line : Nat
  upto : Nat
  data : Mem := []
deriving DecidableEq, Repr

/-- One physical row: row store, rings, slip stage, kiln operations, couch queue, row TLB (R10, R14, R153-R164). -/
structure Row where
  rs : Mem := []                 -- row store bytes (log 3)
  rings : List Ring := List.replicate 8 {}
  slip : Mem := []               -- slip matrix image, 8,192 bytes (R164)
  slipLoaded : Bool := false
  slipClaim : Option Nat := none -- the launch that claims the matrix (R159)
  kops : List KOp := []          -- accepted operations, oldest first (R160)
  klast : Nat := 7               -- the core accepted last (R160)
  kacc : Nat := 0                -- the cycle of the last acceptance, plus 1 (R160)
  clast : Nat := 7               -- the stalled core served last (R14; the start of the rotation: log 88, DESIGN CHOICE)
  tlb : List TlbEnt := []        -- level-one TLB (R346)
  code : List CodeLine := []     -- instruction cache, the line filled last first (R281)
deriving DecidableEq, Repr

/-! ### Translation domains (R346-R351) -/

/-- A translation request: the access kind is 0 read, 1 write, 2 atomic, 3 fetch (R350). -/
structure TReq where
  ctx : Nat
  va : Nat
  kind : Nat
  who : Requester
  job : Nat := 0
  cls : Nat := 0
  core : Nat := 0
  couch : Nat := 0               -- the couch that it comes from, and the cycle in which it missed (R429)
  since : Nat := 0
deriving DecidableEq, Repr

/-- A walk in progress: context, page v[47:16], whether a replay has come since it started (Table 17-4), and its number
in the order of starts. -/
structure Walk where
  ctx : Nat
  page : Nat
  replayed : Bool := false
  n : Nat := 0
deriving DecidableEq, Repr

/-- A fault-buffer entry, pending or taken (R350). -/
structure FEnt where
  ctx : Nat
  page : Nat
  kind : Nat
  job : Nat
  cls : Nat
  core : Nat
  count : Nat
  stamp : Nat
  seq : Nat
  taken : Bool := false
deriving DecidableEq, Repr

/-- A translation domain: second-level TLB (most recent first), waiting requests, walks, fault buffer (oldest first),
parked requests with whether each is on the dropped list, the registers of R349, and for the orders of R429: the
requests that a replay has released and that have not translated again, the number of walks started, the cycle, plus 1,
and number of the walk that ended last, and the cycle, plus 1, of each couch's last retry. -/
structure Domain where
  l2 : List TlbEnt := []
  wait : List TReq := []
  walks : List Walk := []
  fb : List FEnt := []
  parks : List (TReq × Bool) := []
  drop : Bool := false
  fbdest : Nat := 0
  fbctx : Nat := 0
  fseq : Nat := 0
  retry : List TReq := []
  wseq : Nat := 0
  wend : Nat × Nat := (0, 0)
  tried : List (Nat × Nat) := []
deriving DecidableEq, Repr

/-! ### Copies in flight -/

/-- A beat of a copy job (R213): at most 64 bytes from one home to another, with their context addresses. `data` is none
until the streamer has read the source; `tile` names the core and tile that the beat lands in, and `dst` then holds the
offset from the tile's base. -/
structure Beat where
  uid : Nat
  ctx : Nat
  chunk : Nat
  src : Home
  sva : Nat
  dst : Home
  dva : Nat
  len : Nat
  data : Option (List Byte) := none
  tile : Option (CoreId × Nat) := none
  sbig : Bool := false           -- its source, and its destination, were translated by a 2 MiB mapping
  dbig : Bool := false
  born : Nat := 0                -- the removals of translations before its own (R357)
deriving DecidableEq, Repr

/-! ### Launches -/

/-- States of a launch (Table 14-6); a queued one is eligible or not. -/
inductive LState where
  | queued | placed | done | failed | refused
deriving DecidableEq, Repr

/-- A gang: its index, its origin, the logical number and physical core of each member while placed, whether it is
evicted and awaits its restore, and whether its slice has expired. -/
structure Gang where
  idx : Nat
  org : Nat
  members : List (Nat × CoreId)
  evicted : Bool := false
deriving DecidableEq, Repr

/-- A launch (R282-R293, R326-R332): the record as accepted, its producers now in force, its state, the code object's
header and kernel entry as the wheel read them, and the temper words. -/
structure Launch where
  ctx : Nat
  id : Nat
  words : List Nat
  prod : List Nat
  issuer : Option CoreId := none
  srcObj : Option Nat := none
  st : LState := .queued
  reason : Nat := 0
  hdr : List Nat := []
  kent : List Nat := []
  gangs : List Gang := []
  placedGangs : Nat := 0
  first : Nat := 0
  trigs : List Nat := []
  killed : Bool := false
  skips : Nat := 0
  start : Nat := 0
  sliceExp : Bool := false
  demand : Nat := 0
  tach : Nat := 255
  av : Bool := false
  orig : Nat := 0                -- the launch of which this is an incarnation (R330)
  latest : Nat := 0              -- the latest incarnation of its original
  ringDue : Bool := false        -- a KIND 1 release-ring entry is due (R397)
  chrec : List Nat := []         -- the kernel's channel records, four words each, as the wheel read them (R280)
  since : Nat := 0               -- the cycle in which it was accepted (R289)
  stat : Nat := 0                -- the status word after the last round (R300)
  resAt : Option Nat := none     -- when it reached 8 skips, by round order (R290)
  zero : Bool := false           -- its cores are zeroed when they are freed (R472)
  att : List Attach := []        -- attachments of its cores that were freed alone, removed at completion (R269, R308)
deriving DecidableEq, Repr

/-- A context's core and route tables, by offset (R361). -/
structure Grid where
  core : Mem := []
  route : Mem := []
deriving DecidableEq, Repr

/-- What the device holds of a context with placed cores: the descriptor and the tables as read at its last placement
or restore (R360, R362). -/
structure Desc where
  words : List Nat := []
  grid : Grid := {}
deriving DecidableEq, Repr

/-- What an evicted core saved (R367-R369). The bytes of the slot stand in bulk memory; the state page's contents are
the fields of `core`. -/
structure Save where
  ctx : Nat
  logical : Nat
  core : Core
  sgen : Nat
  jobs : List Job := []
  volatile : List (Nat × Nat) := []
  page : Nat := 0                -- MODEL: the number of its state page (log 12)
deriving DecidableEq, Repr

/-- What a row saved for a launch that left it (R368). -/
structure RowSave where
  ctx : Nat
  lrow : Nat
  launch : Nat
  row : Row
  sgen : Nat
  page : Nat := 0
deriving DecidableEq, Repr

/-! ### Saggars (R305-R309) -/

/-- A saggar table entry; `st` 0 is a slot with no saggar, and INC outlives it (R307). -/
structure Saggar where
  inc : Nat := 0
  st : Nat := 0
  ctx : Nat := 0
  name : Nat := 0
  gen : Nat := 0
  att : Nat := 0
  ttag : Nat := 0
  wb : Bool := false
  life : Nat := 0
  rest : Bool := false
  row : Bool := false
  c : Nat := 0
  h : Nat := 0
  w : Nat := 0
  org : Nat := 0
  blk : Nat := 0
  psize : Nat := 0
  base : Nat := 0
  back : Nat := 0
  lease : Nat := 0
  expiry : Nat := 0
  lastAtt : Nat := 0
  copying : Bool := false        -- the restore has started (R311)
deriving DecidableEq, Repr

/-! ### Faults, power, links, host -/

/-- A fault record queued for the fault writer (R270, R271). -/
structure FRec where
  ctx : Nat
  words : List Nat
deriving DecidableEq, Repr

/-- An island's part of the power block and of its issue budget (R449-R453); `waits` are waiting leave requests. -/
structure Island where
  lgrant : Nat := 1024
  step : Nat := 128
  budget : Nat := 1024
  opt : Nat := 4
  debt : Nat := 0
  used : Nat := 0
  cur : Nat := 4
  swin : Nat := 0
  allow : Nat := 131072
  waited : Bool := false
  waits : List (CoreId × Nat) := []
  kord : Nat × Nat := (0, 0)     -- the cycle, plus 1, and the row order of the last charged acceptance (R452)
  changeTo : Option Nat := none  -- a point change requested
  changing : Bool := false       -- a point change in progress
deriving DecidableEq, Repr

/-- A peer link (R441, R469-R471). `landing` counts the bytes of blocks under way, `landed` the blocks landed and not
handed out with their gateway core and address, `held` the slot each gateway core has been handed. -/
structure Link where
  up : Bool := false
  dir : Nat := 6
  nblk : Nat := 0
  g : Nat := 0
  fmt : Nat := 0
  lbase : Nat := 0
  lstr : Nat := 0
  slots : Nat := 0
  tbase : List Nat := [0, 0, 0, 0]
  tlog : List Nat := [0, 0, 0, 0]
  tail : List Nat := [0, 0, 0, 0]
  head : List Nat := [0, 0, 0, 0]
  landing : List (Nat × Nat) := []
  landed : List (Nat × Nat) := []
  handed : Nat := 0
  held : List (Nat × Nat) := []
  retries : Nat := 0
  retrain : Bool := false
  down : Bool := false
  out : List (Nat × Nat × Nat × List Byte) := []   -- peer address, block, offset, bytes leaving
deriving DecidableEq, Repr

/-- A deckle request (R418): its words, context and issuing core, and its mailbox word once its stages have run. -/
structure DkReq where
  ctx : Nat
  core : CoreId
  words : List Nat
  result : Option Nat := none
deriving DecidableEq, Repr

/-- The function-ready map (R460). -/
structure Ready where
  row : Nat := 0
  isl : Nat := 0
  near : Nat := 0
  far : Nat := 0
  cxl : Nat := 0
  host : Bool := false
  link : Nat := 0
  ccore : Nat := 0
  gcore : Nat := 0
  deckle : Nat := 0
  svc : Nat := 0
  dom : Nat := 0
  stage : Nat := 0
  error : Nat := 0
deriving DecidableEq, Repr

/-- The host control block, notices and vectors (R464-R468). -/
structure HostPort where
  sx : Nat := 0
  sy : Nat := 0
  sz : Nat := 0
  self : Nat := 0
  fwlen : Nat := 0
  fwgo : Bool := false
  xpres : Nat := 0
  cxlcap : Nat := 0
  expCaps : List Nat := [0, 0, 0, 0]     -- capacity of each expander in units of 256 MiB
  notices : List (Nat × Nat) := []
  msi : List Nat := []                   -- MSI-X vectors raised, oldest first
  bar2 : Mem := []
deriving DecidableEq, Repr

/-- The security processor (R455-R463). -/
structure Security where
  flash : Mem := []
  mr0 : List Byte := List.replicate 64 0      -- log 4
  mr1 : List Byte := List.replicate 64 0      -- log 4
  mr2 : List Byte := List.replicate 64 0
  fwver : Nat := 0
  nonce : Nat := 0                            -- the boot nonce, numbered by power-up
  retire : Nat := 0                           -- the record as applied: rows, near, far, links, hops held out
  nearDis : Nat := 0
  farDis : Nat := 0
  linkDis : Nat := 0
  hops : List Nat := []
  queue : List (Nat × Nat) := []              -- attestation requests: context and block address
deriving DecidableEq, Repr

/-- The health block and the counts behind retirement (R446, R447). -/
structure Health where
  retired : Nat := 0
  linkdn : Nat := 0
  ce : Nat := 0
  ue : Nat := 0
  last : Nat := 0
  words : List (Nat × Nat) := []              -- words found uncorrectable, as row and address
  recur : List ((Nat × Nat) × Nat) := []      -- words corrected, with consecutive passes
  residue : List (Nat × Nat) := []            -- rows with a residue failure and its cycle stamp
  hops : List (Nat × Nat) := []               -- mesh hops with consecutive failures of a flit
  stopped : Bool := false                     -- a failed hop has stopped the device (R440)
deriving DecidableEq, Repr

/-! ### The scheduler's input -/

/-- What an event acts on, as the agenda names it: a core, numbers, a value, whether it succeeds, bytes. -/
structure Ev where
  core : CoreId := ⟨.compute, 0⟩
  i : Nat := 0
  j : Nat := 0
  k : Nat := 0
  w : Nat := 0
  ok : Bool := true
  bytes : List Byte := []
  nats : List Nat := []
deriving DecidableEq, Repr

/-- Who acts next: a core, or an event with its subject. -/
inductive Actor where
  | core (c : CoreId)
  | event (i : Instr) (e : Ev)
deriving DecidableEq, Repr

/-- One turn of the agenda: the actor, the cycles that pass, and the stall cycles charged to a core's instruction. -/
structure Turn where
  actor : Actor
  dt : Nat := 1
  stall : Nat := 0
deriving DecidableEq, Repr

/-! ### The device -/

/-- The state of the device. -/
structure State where
  -- MODEL: which agent acts (log 1), free values (log 2)
  agenda : List Turn := []
  cur : CoreId := ⟨.compute, 0⟩
  ev : Ev := {}
  stall : Nat := 0
  fresh : Nat := 0
  nextUid : Nat := 0
  -- time (R373)
  cycle : Nat := 0
  -- cores, rows, bulk memory; an unlisted core or row is at its reset values
  cores : List (Nat × Core) := []
  rows : List (Nat × Row) := []
  near : Mem := []
  far : Mem := []
  cxl : Mem := []
  host : Mem := []
  -- traffic
  net : List Msg := []
  fab : List Acc := []
  poison : List Nat := []          -- 64-byte lines of the CXL tier whose reads return poison (R468; log 18)
  hot : List HotLine := []         -- hot lines of the atomic units, most recently used first (R240)
  jobs : List Job := []
  beats : List Beat := []
  doms : List Domain := List.replicate 5 {}
  tlbn : Nat := 0                  -- MODEL: removals of translations so far (R357)
  -- contexts, launches, the wheel
  ctxs : Mem := []                 -- the context table, by offset (R360)
  descs : List (Nat × Desc) := []  -- descriptors and tables of contexts with placed cores, as read (R360, R362; log 91)
  launches : List Launch := []     -- oldest first
  lcount : List (Nat × Nat) := []  -- launches accepted, by context (R283)
  rotate : List (Nat × Nat) := []  -- per priority, the (context, queue) pair that placed last, as 16*ctx + queue
  reserve : Option (Nat × Nat) := none   -- context and id of the head with the reservation (R290)
  resSince : Nat := 0                    -- the cycle of the grant (R424)
  resWait : List (Nat × Nat) := []       -- heads that reached 8 skips, in order
  resCores : List CoreId := []           -- cores held for the reservation
  preHold : List (CoreId × Nat × Nat) := []  -- freed cores held for a pre-empting head (R364)
  preReqs : List (CoreId × Nat) := []    -- pre-emption requests on their way, with the cycle of the round (R364)
  sliceNext : List Nat := []             -- contexts whose next placement starts with its slice expired (R366)
  freed : List (CoreId × Nat) := []      -- cores freed, or whose row became ready, with the cycle, until a later round counts them (R289, R461)
  saves : List Save := []
  rowSaves : List RowSave := []
  -- services
  saggars : List (Nat × Saggar) := []
  seqs : Mem := []                 -- the sequence table, by offset (R407)
  serv : Mem := []                 -- serving blocks, by offset (R409)
  deckles : List (List DkReq) := [[], [], [], []]
  frecs : List FRec := []          -- records queued for the fault writer
  fseqs : List (Nat × Nat) := []   -- SEQ by context (R270)
  -- system window blocks
  mbx : Mem := []                  -- completion mailboxes, by offset (R21)
  rdy : Ready := {}
  pmeas : Nat := 0
  gov : Nat := 1024
  plimit : Nat := 1800
  islands : List Island := List.replicate 16 {}
  links : List Link := List.replicate 16 {}
  hport : HostPort := {}
  sec : Security := {}
  health : Health := {}
  hostRead : Nat := 0              -- MODEL: the value of the last register read by an event
deriving DecidableEq, Repr

/-- Reasons to stop. No instruction or event of this hardware stops the machine, so `stuck` is raised by nobody today;
it stands for an action that the spec gives no effect, and is safe. -/
inductive Fault where
  | stuck
deriving DecidableEq, Repr

/-- Refusals: `notModelled` names an instruction whose meaning has not been written (raised by `exec` alone; safe). -/
inductive Refusal where
  | notModelled (mnemonic : String)
deriving DecidableEq, Repr

/-- The machine at power-up: STAGE 0, no context, no placement, memory with nothing listed; register values are the
defaults above (R360, R447, R449, R460; logs 1-5). -/
def State.reset : State := {}

end Sys2Proof.Machine
end

