-- ==== Sys2Proof/Machine/CoreOps.lean ====
section
/-!
DEFINITION. The named operations on one core's local store and workspace: the shadows and their write-back points
(R75, R76), the words with reserved bits (R77-R79, R109, R64, R65), the copies of the flags and mask words (R110,
R132), the count-wait view (R230), and the sticky flags with their trap (R64-R66).
-/
namespace Sys2Proof.Machine

/-- Why an instruction does not complete: it traps, or it waits and issues again. -/
inductive Stop where
  | trap (t : Trap)
  | wait
deriving DecidableEq, Repr

/-- A trap with a cause, subcode and record address. -/
def trapS {α : Type} (cause : Cause) (sub : Nat := 0) (addr : Nat := 0) : Except Stop α :=
  .error (.trap { cause, sub, addr })

def waitS {α : Type} : Except Stop α := .error .wait

/-- Go on only where a condition holds; otherwise stop as given. -/
def guardS (b : Bool) (e : Stop) : Except Stop Unit := if b then .ok () else .error e

/-- A trap unless the condition holds. -/
def needS (b : Bool) (cause : Cause) (sub : Nat := 0) (addr : Nat := 0) : Except Stop Unit :=
  guardS b (.trap { cause, sub, addr })

/-- Wait until the condition holds. -/
def untilS (b : Bool) : Except Stop Unit := guardS b .wait

/-- The local-store top of a core class (R84). -/
def topOf : CoreClass → Nat
  | .gateway => 0x18000
  | _ => 0x12000

def Core.top (c : Core) : Nat := topOf c.cls

/-! ### The workspace's special words -/

/-- The count-wait state word (R230). -/
def countsWord (c : Core) : Nat :=
  c.ctf % 2 ^ 16 + c.ctb % 2 ^ 16 * 2 ^ 16 + c.ctm % 2 ^ 16 * 2 ^ 32 + c.ldo % 16 * 2 ^ 48 + c.atm % 16 * 2 ^ 52

/-- A handle word's CONS and FILL brought into range, reserved bits zero (R79). -/
def normHandle (x : Nat) : Nat :=
  let base := field x 13 0
  let size := field x 27 14
  let cons := field x 41 28
  let fill := field x 55 42
  let cons' := if size = 0 then cons else cons % size
  let fill' := if size = 0 then fill else min fill size
  base + size * 2 ^ 14 + cons' * 2 ^ 28 + fill' * 2 ^ 42

/-- The value that a shadowed word at an offset keeps of a written word: reserved bits read as zero (R6, R77-R79). -/
def normWord (off x : Nat) : Nat :=
  if off < 0x300 then x
  else if off < 0x340 then natAnd x 0x1DFFFF
  else if off < 0x360 then natAnd x 0x1FFFF0001FFFF
  else normHandle x

/-- The bits that are not reserved in the word at an offset from 0x380 to 0x3F8: the flags word (R109), sticky flags
(R64), number control (R65), temper (R327), and the message window, whose header is R183's and whose words from 0x3D0 on
read as 0 (R190, Table 4-1; log 9). -/
def keptBits (off : Nat) : Nat :=
  if off = 0x380 then 0xF
  else if off = 0x390 then 0x3F
  else if off = 0x398 then 0x3F01
  else if off = 0x3B0 then 0xFFFF00FFFF
  else if off < 0x3C0 then 2 ^ 64 - 1
  else if off = 0x3C0 then 0xFFFFFFFF3F9FFFFF
  else if off = 0x3C8 then 0x3F003F
  else 0

/-- What is left of a byte at a local address when the reserved bits of the workspace at `wp` read as zero (R6). -/
def keepByte (wp a : Nat) (b : Byte) : Byte :=
  if wp + 0x380 ≤ a ∧ a < wp + 0x400 then
    b &&& BitVec.ofNat 8 (keptBits ((a - wp) / 8 * 8) / 2 ^ (8 * ((a - wp) % 8)))
  else b

/-- Whether an offset from WP is held in a shadow (R75). -/
def shadowed (off : Nat) : Bool := 0x100 ≤ off && off < 0x380

/-- Whether an offset from WP is a byte of the count-wait word. -/
def countByte (off : Nat) : Bool := 0x3B8 ≤ off && off < 0x3C0

/-- The byte the core itself reads at a local address (R75, R230). -/
def localByte (c : Core) (a : Nat) : Byte :=
  if a < c.wp then memGet c.ls a
  else if shadowed (a - c.wp) then memGet c.sh (a - c.wp)
  else if countByte (a - c.wp) then BitVec.ofNat 8 (countsWord c / 2 ^ (8 * (a - c.wp - 0x3B8)))
  else keepByte c.wp a (memGet c.ls a)

def localBytes (c : Core) (a : Nat) : Nat → List Byte
  | 0 => []
  | n + 1 => localByte c a :: localBytes c (a + 1) n

/-- The little-endian value of n bytes as the core reads them. -/
def readLocal (c : Core) (a n : Nat) : Nat := ofBytes (localBytes c a n)

/-- One byte the core itself writes: to the shadow, nowhere for the count-wait word, or to local store without the
reserved bits. -/
def setLocalByte (c : Core) (a : Nat) (b : Byte) : Core :=
  if a < c.wp then { c with ls := memSet c.ls a b }
  else if shadowed (a - c.wp) then { c with sh := memSet c.sh (a - c.wp) b }
  else if countByte (a - c.wp) then c
  else { c with ls := memSet c.ls a (keepByte c.wp a b) }

def setLocalBytes : Core → Nat → List Byte → Core
  | c, _, [] => c
  | c, a, b :: bs => setLocalBytes (setLocalByte c a b) (a + 1) bs

/-- Bring the shadowed word at an offset into the form the hardware keeps. -/
def normAt (c : Core) (off : Nat) : Core := { c with sh := memWrite c.sh off 8 (normWord off (memRead c.sh off 8)) }

/-- The shadowed words with reserved bits, by offset: pointers, modulo words, handles. -/
def specialOffsets : List Nat :=
  [0x300, 0x308, 0x310, 0x318, 0x320, 0x328, 0x330, 0x338, 0x340, 0x348, 0x350, 0x358, 0x360, 0x368, 0x370, 0x378]

/-- Whether bytes [a, a+n) meet the word at an address. -/
def meets (a n w len : Nat) : Bool := a < w + len && w < a + n

/-- The word `old` at address w with the bytes that a store at a wrote to it; its other bytes keep their values. -/
def mergeWord (old w a : Nat) (bs : List Byte) : Nat :=
  ofBytes ((List.range 8).map (fun i =>
    if a ≤ w + i ∧ w + i < a + bs.length then bs.getD (w + i - a) 0 else BitVec.ofNat 8 (old / 2 ^ (8 * i))))

/-- After a store of the core: reserved bits cleared in the shadowed words it met, and the bytes that it wrote updated
in the flags and mask copies (R110, R132). -/
def afterStore (c : Core) (a : Nat) (bs : List Byte) : Core :=
  let c1 := (specialOffsets.filter (fun o => meets a bs.length (c.wp + o) 8)).foldl normAt c
  let c2 := if meets a bs.length (c.wp + 0x380) 8
    then { c1 with flags := mergeWord c.flags (c.wp + 0x380) a bs % 16 } else c1
  if meets a bs.length (c.wp + 0x388) 8 then { c2 with mask := mergeWord c.mask (c.wp + 0x388) a bs } else c2

/-- Bytes the core itself writes at a local address (R75, R79, R110, R132). -/
def putLocal (c : Core) (a : Nat) (bs : List Byte) : Core := afterStore (setLocalBytes c a bs) a bs

/-- The n low bytes of a value written at a local address. -/
def writeLocal (c : Core) (a n v : Nat) : Core := putLocal c a (toBytes n v)

/-- The word at an offset from WP. -/
def wsWord (c : Core) (off : Nat) : Nat := readLocal c (c.wp + off) 8

def setWsWord (c : Core) (off v : Nat) : Core := writeLocal c (c.wp + off) 8 v

/-- Workspace word wN. -/
def wReg (c : Core) (n : Nat) : Nat := readLocal c (c.wp + 8 * n) 8

def setWReg (c : Core) (n v : Nat) : Core := writeLocal c (c.wp + 8 * n) 8 v

def aWord (c : Core) (n : Nat) : Nat := wsWord c (0x300 + 8 * n)
def mWord (c : Core) (n : Nat) : Nat := wsWord c (0x340 + 8 * n)
def hWord (c : Core) (n : Nat) : Nat := wsWord c (0x360 + 8 * n)
def setAWord (c : Core) (n v : Nat) : Core := setWsWord c (0x300 + 8 * n) v
def setMWord (c : Core) (n v : Nat) : Core := setWsWord c (0x340 + 8 * n) v
def setHWord (c : Core) (n v : Nat) : Core := setWsWord c (0x360 + 8 * n) v

def stickyWord (c : Core) : Nat := wsWord c 0x390
def numCtl (c : Core) : Nat := wsWord c 0x398
def e5o (c : Core) : Bool := bitAt (numCtl c) 0

/-! ### Write-back points (R75, R76) -/

/-- The image takes the shadows and the live counts. -/
def writeBack (c : Core) : Core :=
  { c with ls := memWrite (memCopy c.ls (c.wp + 0x100) c.sh 0x100 0x280) (c.wp + 0x3B8) 8 (countsWord c) }

/-- The shadows and the flags and mask copies load from the image at WP, reserved bits zero. -/
def reloadShadows (c : Core) : Core :=
  let c1 := { c with sh := memShiftDown (memSlice c.ls (c.wp + 0x100) (c.wp + 0x380)) c.wp }
  let c2 := specialOffsets.foldl normAt c1
  { c2 with flags := memRead c.ls (c.wp + 0x380) 8 % 16, mask := memRead c.ls (c.wp + 0x388) 8 }

/-- A change of WP: nothing moves where it keeps its value (R76). -/
def changeWp (c : Core) (wp : Nat) : Core :=
  if wp = c.wp then c else reloadShadows { writeBack c with wp := wp }

/-- The cycles of a change of WP (R76, stage 1). -/
def wpCost (c : Core) (wp : Nat) : Nat := if wp = c.wp then 1 else 16

/-! ### Bytes that others read and write (R75) -/

/-- The core has a current workspace: it is placed and loaded. -/
def Core.hasWorkspace (c : Core) : Bool := c.life != .free && c.life != .preparing

/-- A byte of the image, as another agent reads it; reserved bits of the current workspace read as zero (R6). -/
def imageByte (c : Core) (a : Nat) : Byte := if c.hasWorkspace then keepByte c.wp a (memGet c.ls a) else memGet c.ls a

/-- Bytes of the image, as another agent reads them. -/
def imageBytes (c : Core) (a : Nat) : Nat → List Byte
  | 0 => []
  | n + 1 => imageByte c a :: imageBytes c (a + 1) n

/-- A byte that another agent writes: it lands in the image; the count-wait word (R230) and the reserved bits of the
current workspace (R6) ignore it. -/
def deliverByte (c : Core) (a : Nat) (b : Byte) : Core :=
  if c.hasWorkspace then
    if c.wp + 0x3B8 ≤ a ∧ a < c.wp + 0x3C0 then c else { c with ls := memSet c.ls a (keepByte c.wp a b) }
  else { c with ls := memSet c.ls a b }

/-- Bytes that another agent writes (R75, R110, R132): the copies and shadows keep their values. -/
def deliver : Core → Nat → List Byte → Core
  | c, _, [] => c
  | c, a, b :: bs => deliver (deliverByte c a b) (a + 1) bs

/-! ### Local access checks (R83) -/

/-- R83, checks 1 and 2: range, then alignment. R122 and R83 do not say which check a misaligned access across the top of
local store fails; the range comes first, over the whole access (log 90, DESIGN CHOICE). -/
def checkLocal (c : Core) (a n align : Nat) : Except Stop Unit := do
  needS (a + n ≤ c.top) .fabric 0 a
  needS (a % align == 0) .align 0 a

/-- Whether a pending destination of a relaxed load or atomic meets the bytes (R235, R243). -/
def pendingAt (c : Core) (a n : Nat) : Bool := c.pendDst.any (fun p => meets a n p.1 p.2)

/-- Whether the bytes lie in a tile that an unretired kiln operation holds (R162). -/
def heldAt (c : Core) (a n : Nat) : Bool :=
  c.kheld.any (fun t => let e := nth c.tiles t {}; meets a n e.base (512 * e.nch))

/-- Whether the bytes meet the result of a multiply that cannot be read yet (R103). -/
def lateAt (c : Core) (a n : Nat) : Bool := c.late.any (fun p => meets a n p.1 p.2.1)

/-- Whether a local access waits for one of the core's own to its window: both have one home, the local store, and so
perform in program order (R253, item 2). The shadowed words stand in the core, not at that home (R75). -/
def ownAt (c : Core) (a n : Nat) : Bool := c.own && !(c.wp + 0x100 ≤ a && a + n ≤ c.wp + 0x380)

/-- Whether a reader of the bytes waits: for a pending value, for a multiply, or for an access to its own window. -/
def unreadyAt (c : Core) (a n : Nat) : Bool := pendingAt c a n || lateAt c a n || ownAt c a n

/-- The core with every value readable: the cost of an instruction is reckoned on it, since one that completes waits for
no value. -/
def Core.seen (c : Core) : Core := { c with pendDst := [], late := [], own := false }

/-- Read n bytes at a checked address; waits until they can be read. -/
def loadAt (c : Core) (a n : Nat) : Except Stop Nat := do
  untilS (!unreadyAt c a n)
  .ok (readLocal c a n)

/-- Write bytes at a checked address; waits for a pending value, for an access to its own window and for a held tile. -/
def storeAt (c : Core) (a : Nat) (bs : List Byte) : Except Stop Core := do
  untilS (!pendingAt c a bs.length && !ownAt c a bs.length)
  untilS (!heldAt c a bs.length)
  .ok (putLocal c a bs)

/-! ### Sticky flags (R64-R67) -/

/-- The number of the lowest set flag among the low six bits. -/
def lowestFlag (x : Nat) : Nat := trailingZeros 6 x

/-- Set flags without a trap (engine flags, R67). -/
def orSticky (c : Core) (fl : Nat) : Core :=
  if fl = 0 then c else setWsWord c 0x390 (natOr (stickyWord c) fl)

/-- Raise flags for a scalar or vector instruction: an enabled one traps and nothing is set (R66). -/
def raiseFlags (c : Core) (fl : Nat) : Except Stop Core :=
  let en := natAnd fl (field (numCtl c) 13 8)
  if en = 0 then .ok (orSticky c fl) else trapS .arith (lowestFlag en)

/-! ### The stochastic stream (R57) -/

/-- The draw at an index of the core's stream, under the seed word in force. R57 keys the stream by the logical core
number, which compute cores alone have; the model keys a control or gateway core by its index, which its field `logical`
holds (log 88, DESIGN CHOICE). -/
def coreDraw (c : Core) (d : Nat) : Nat := drawWord c.logical c.ctx (wsWord c 0x3A0) d

/-- The draw index. -/
def drawIndex (c : Core) : Nat := wsWord c 0x3A8

def setDrawIndex (c : Core) (d : Nat) : Core :=
  if d = drawIndex c then c else setWsWord c 0x3A8 (d % 2 ^ 64)

/-! ### Channel FIFO slots (R191) -/

/-- The slot of the j-th message word from slot offset q (R191). -/
def fslotFrom (size skip : Nat) : Nat → Nat → Nat
  | 0, q => if 0 < skip ∧ q = size - skip then 0 else q
  | j + 1, q =>
    let q' := if 0 < skip ∧ q = size - skip then 0 else q
    fslotFrom size skip j ((q' + 1) % size)

/-- The channel of the running firing. -/
def Core.channel (c : Core) : Nat := match c.run with | .firing n => n | _ => 0

def Core.running (c : Core) : Bool := match c.run with | .idle => false | _ => true

end Sys2Proof.Machine
end

