-- ==== Sys2Proof/Machine/Operands.lean ====
section
/-!
DEFINITION. Operands (R74, R77-R83): where a specifier points, the post-increment with its modulo wrap, handle slots,
constants and immediates, and reading and writing scalar and 64-byte operands. Operands are evaluated in the order
A, B, D, each address taken after the earlier post-increments; the destination is written last.
-/
namespace Sys2Proof.Machine

/-- The format of a class I type code. -/
def ifmt : IType → Fmt
  | .s8 => .s8 | .s16 => .s16 | .s32 => .s32 | .s64 => .s64
  | .z8 => .z8 | .z16 => .z16 | .z32 => .z32 | .z64 => .z64

/-- The format of a class V type code; `t` is chosen before (R141). -/
def vfmt : VType → Fmt
  | .fp32 => .fp32 | .fp16 => .fp16 | .bf16 => .bf16 | .tmpr => .fp32
  | .s32 => .s32 | .z32 => .z32 | .s16 => .s16 | .s8 => .s8

/-- Bytes of a scalar element. -/
def fmtBytes (f : Fmt) : Nat := max 1 (fmtBits f / 8)

/-- The pattern of a constant in a format (Table 4-3). R82 says that float types hold every constant and immediate; a
`vcvt` can name a format that does not (8.0 in E2M1, 0 in E8M0), and the model rounds to nearest and saturates there,
in `immPat` too (log 88, DESIGN CHOICE). -/
def constPat (f : Fmt) (k : Fin 8) : Nat :=
  if k.val = 7 then 2 ^ fmtBits f - 1
  else
    let v : Val := match k.val with
      | 0 => .fin false 0 0
      | 1 => .fin false 1 0
      | 2 => .fin false 2 0
      | 3 => .fin true 1 0
      | 4 => .fin false 1 (-1)
      | 5 => .fin false 4 0
      | _ => .fin false 8 0
    if f.isInt then toPattern (fmtBits f) v.toInt else (cvt f false .rne 0 v).code

/-- The pattern of a signed immediate in a format (R82). -/
def immPat (f : Fmt) (i : BitVec 6) : Nat :=
  let v := toSigned 6 i.toNat
  if f.isInt then toPattern (fmtBits f) v else (cvt f false .rne 0 (.ofInt v)).code

/-- Where an operand stands: a workspace word, bytes at a local address, or the 8-byte slots of a handle. -/
inductive Loc where
  | word (a : Nat)
  | at (a : Nat)
  | slots (l : List Nat)
deriving DecidableEq, Repr

/-- A post-increment by size (R78). -/
def bumpPtr (c : Core) (n size : Nat) : Core :=
  let p := aWord c n
  let new := field p 16 0 + size
  let m := mWord c (field p 19 18)
  let base := field m 16 0
  let len := field m 48 32
  let new' := if bitAt p 20 && len != 0 && base + len ≤ new then new - len else new
  setAWord c n (p - field p 16 0 + new' % 2 ^ 17)

/-- R83, check 3: an access through a wrapping pointer must not cross the end of its region. -/
def crossesModulo (c : Core) (p a size : Nat) : Bool :=
  let m := mWord c (field p 19 18)
  let base := field m 16 0
  let len := field m 48 32
  bitAt p 20 && len != 0 && a < base + len && base + len < a + size

/-- The address of a pointer operand, checked, and the core after its post-increment (R78, R83). -/
def ptrLoc (c : Core) (n : Nat) (post : Bool) (size : Nat) : Except Stop (Loc × Core) := do
  let p := aWord c n
  let a := field p 16 0
  checkLocal c a size (min size 8)
  needS (!crossesModulo c p a size) .align 0 a
  .ok (.at a, if post then bumpPtr c n size else c)

/-- Whether a handle of the current workspace is the h3 bound to the firing's channel FIFO (R188, R191). -/
def fifoHandle (c : Core) (h : Nat) : Bool := h == 3 && c.h3fifo && c.wp == c.fifoWp

/-- Slot offset i of a handle operand from its start (R80, R191). -/
def slotOffset (c : Core) (h size start i : Nat) (prod : Bool) : Nat :=
  if fifoHandle c h && !prod then fslotFrom size (nth c.chans c.channel {}).skip i start
  else (start + i) % size

/-- The slots of a handle operand of n slots, after its wait (R80). -/
def handleLoc (c : Core) (h : Nat) (prod : Bool) (n : Nat) : Except Stop (Loc × Core) := do
  let x := hWord c h
  let base := field x 13 0
  let size := field x 27 14
  let cons := field x 41 28
  let fill := field x 55 42
  needS (size != 0) .undef 0x04
  untilS (if prod then n ≤ size - fill else n ≤ fill)
  let start := if prod then cons + fill else cons
  let l := (List.range n).map (fun i => 8 * (base + slotOffset c h size start i prod))
  match l.find? (fun a => c.top < a + 8) with
  | some a => trapS .fabric 0 a
  | none => .ok (.slots l, c)

/-- Where a scalar specifier points, for an access of `size` bytes (R81, R83). -/
def scalarLoc (c : Core) (s : Spec) (size : Nat) : Except Stop (Loc × Core) :=
  match s with
  | .w n => .ok (.word (c.wp + 8 * n.val), c)
  | .ptr a post => ptrLoc c a.val post size
  | .hnd h p => handleLoc c h.val p 1
  | _ => trapS .undef 0x02

/-- Where a vector specifier points. -/
def vectorLoc (c : Core) (s : Spec) : Except Stop (Loc × Core) :=
  match s with
  | .w n => .ok (.at (c.wp + 0x100 + 64 * n.val), c)
  | .ptr a post => ptrLoc c a.val post 64
  | .hnd h p => handleLoc c h.val p 8
  | _ => trapS .undef 0x02

/-- The scalar pattern at a place. -/
def loadLoc (c : Core) (f : Fmt) : Loc → Except Stop Nat
  | .word a => do .ok ((← loadAt c a 8) % 2 ^ fmtBits f)
  | .at a => do .ok ((← loadAt c a (fmtBytes f)) % 2 ^ fmtBits f)
  | .slots l => do .ok ((← loadAt c (nth l 0 0) (fmtBytes f)) % 2 ^ fmtBits f)

/-- A scalar result at a place: a word is extended to 64 bits, memory takes exactly the type's bytes (R74). -/
def storeLoc (c : Core) (f : Fmt) (v : Nat) : Loc → Except Stop Core
  | .word a => storeAt c a (toBytes 8 (if fmtSigned f then signExt (fmtBits f) 64 v else v % 2 ^ fmtBits f))
  | .at a => storeAt c a (toBytes (fmtBytes f) v)
  | .slots l => storeAt c (nth l 0 0) (toBytes (fmtBytes f) v)

/-- A scalar source of a format: its pattern, and the core after the post-increment (R102). -/
def readSrc (c : Core) (f : Fmt) (s : Spec) : Except Stop (Nat × Core) :=
  match s with
  | .cst k => if f.isInt && k.val == 4 then trapS .undef 0x02 else .ok (constPat f k, c)
  | .imm i => .ok (immPat f i, c)
  | _ => do
    let (l, c1) ← scalarLoc c s (fmtBytes f)
    let v ← loadLoc c f l
    .ok (v, c1)

/-- A scalar destination of a format written with a pattern (R74). -/
def writeDst (c : Core) (f : Fmt) (s : Spec) (v : Nat) : Except Stop Core := do
  let (l, c1) ← scalarLoc c s (fmtBytes f)
  storeLoc c1 f v l

/-- A scalar source read as z64 (R133, R333). -/
def readZ (c : Core) (s : Spec) : Except Stop (Nat × Core) := readSrc c .z64 s

/-- A scalar source read as a signed 64-bit word (R122). -/
def readS (c : Core) (s : Spec) : Except Stop (Int × Core) := do
  let (v, c1) ← readSrc c .s64 s
  .ok (toSigned 64 v, c1)

/-! ### 64-byte operands: the value is a number below 2^512 -/

/-- Lane i of a 64-byte value. -/
def lane (bits x i : Nat) : Nat := x / 2 ^ (bits * i) % 2 ^ bits

/-- The value whose lanes are given, lane 0 lowest. -/
def ofLanes (bits : Nat) : List Nat → Nat
  | [] => 0
  | v :: vs => v % 2 ^ bits + 2 ^ bits * ofLanes bits vs

/-- All lanes of a 64-byte value. -/
def lanesOf (bits x : Nat) : List Nat := (List.range (512 / bits)).map (lane bits x)

/-- The 64 bytes at a place. -/
def loadVec (c : Core) : Loc → Except Stop Nat
  | .word a => loadAt c a 64
  | .at a => loadAt c a 64
  | .slots l => do
    let ws ← l.mapM (fun a => loadAt c a 8)
    .ok (ofLanes 64 ws)

/-- A 64-byte source in a format: a constant or an immediate is broadcast to every lane (R81). -/
def readVec (c : Core) (f : Fmt) (s : Spec) : Except Stop (Nat × Core) :=
  match s with
  | .cst k =>
    if f.isInt && k.val == 4 then trapS .undef 0x02
    else .ok (ofLanes (fmtBits f) (List.replicate (512 / fmtBits f) (constPat f k)), c)
  | .imm i => .ok (ofLanes (fmtBits f) (List.replicate (512 / fmtBits f) (immPat f i)), c)
  | _ => do
    let (l, c1) ← vectorLoc c s
    let v ← loadVec c l
    .ok (v, c1)

/-- The local address of byte `off` of a 64-byte place. -/
def Loc.byteAt (off : Nat) : Loc → Nat
  | .word a => a + off
  | .at a => a + off
  | .slots l => nth l (off / 8) 0 + off % 8

/-- Write the bytes of the lanes that `on` selects at a 64-byte place; other bytes are not written (R133). -/
def storeLanes (c : Core) (size : Nat) (l : Loc) (on : Nat → Bool) : Nat → List Nat → Except Stop Core
  | _, [] => .ok c
  | i, v :: vs => do
    let c1 ← if on i then storeAt c (l.byteAt (size * i)) (toBytes size v) else .ok c
    storeLanes c1 size l on (i + 1) vs

end Sys2Proof.Machine
end

