-- ==== Sys2Proof/Machine/Flags.lean ====
section
/-!
DEFINITION. The flags word of `cmp` (R109-R111) and the conditions that `cmp` and `b` evaluate (R112).
-/
namespace Sys2Proof.Machine

/-- EQ, LT and LTU of two n-bit patterns (R109), as bits 0 to 2. -/
def compareFlags (n a b : Nat) : Nat :=
  bnat (decide (a % 2 ^ n = b % 2 ^ n)) + 2 * bnat (decide (toSigned n a < toSigned n b)) +
    4 * bnat (decide (a % 2 ^ n < b % 2 ^ n))

/-- Whether a condition holds on a flags word (Table 5-4). -/
def condHolds (c : Cond) (fl : Nat) : Bool :=
  let eq := bitAt fl 0
  let lt := bitAt fl 1
  let ltu := bitAt fl 2
  match c with
  | .eq => eq
  | .ne => !eq
  | .lt => lt
  | .le => lt || eq
  | .gt => !lt && !eq
  | .ge => !lt
  | .ltu => ltu
  | .leu => ltu || eq
  | .gtu => !ltu && !eq
  | .geu => !ltu
  | .al => true

/-- The flags word that `cmp.cc` writes: EQ, LT, LTU, and SEL for its condition (R111). -/
def cmpWord (c : Cond) (n a b : Nat) : Nat :=
  let f := compareFlags n a b
  f + 8 * bnat (condHolds c f)

/-- SEL of a flags word. -/
def selBit (fl : Nat) : Bool := bitAt fl 3

/-- `cmp` writes the copy and the local-store word together, with no bank cycle (R110). -/
def writeFlags (c : Core) (fl : Nat) : Core :=
  { c with flags := fl, ls := memWrite c.ls (c.wp + 0x380) 8 fl }

end Sys2Proof.Machine
end

