-- ==== Sys2Proof/Config.lean ====
section
/-!
DEFINITION. What the spec leaves open or takes from outside: free values, and the cryptographic functions that the spec
names by their standards. None has a body, so nothing can be proved of their values.
-/
namespace Sys2Proof.Config

/-- Free value number n (log 2): the model applies it to the counter `State.fresh`. -/
opaque freeValue : Nat → BitVec 64

/-- SHA-512 of a byte string, as 64 bytes (R456, R458, R462; log 11). -/
opaque sha512 : List Byte → Vector Byte 64

/-- The tag key of a context in a power-up: HMAC-SHA-512 under the identity key (R456; log 11). -/
opaque tagKey : Nat → Nat → BitVec 128

/-- SipHash-2-4 of a byte string under a key (R369; log 11). -/
opaque sipHash : BitVec 128 → List Byte → BitVec 64

/-- Whether a signature verifies under the Kahipen root keys, over given bytes (R455, R458; log 11). -/
opaque rootVerify : List Byte → List Byte → Bool

/-- The device's signature of a report, 132 bytes (R463; log 11). -/
opaque deviceSign : List Byte → Vector Byte 132

/-- Whether the unclonable response corrects under helper data, and the serial number it derives (R456, R457). -/
opaque pufOk : List Byte → Bool
opaque pufSerial : List Byte → BitVec 64

/-- The bytes of the state page of a save slot, which only the device reads (R368; log 12). -/
opaque statePage : Nat → Nat → Byte

/-- Where a row record holds the slip matrix: the spec gives it no row-store offset (R164, R368; log 12). -/
opaque slipPlace : Nat

/-- Which 8-byte words of the system window's mailbox region are kick registers of couches, by offset over 8: the spec
gives them no addresses (R21, R221; log 94). -/
opaque kickRegister : Nat → Bool

/-- NDATA of a failed mesh hop, from x and y of its two rows: the spec gives no bit positions (R440, R466; log 92). -/
opaque hopData : Nat → Nat → Nat → Nat → BitVec 48

end Sys2Proof.Config
end

