-- ==== Sys2Proof/Machine/Device.lean ====
section
/-!
DEFINITION. The device around the cores: access to cores, rows, tiers and descriptors in the state, bulk tiers and
their streamers (R17, R340, R458, R461), the page-table walk (R341-R344), the mapping of logical cores and rows
(R20, R361, R362), the rights of a context (R21, R360) and the homes of fabric addresses (R19-R21, R232).
-/
namespace Sys2Proof.Machine

/-! ### Cores and rows -/

/-- The key of a core in the state's list. -/
def pid (c : CoreId) : Nat :=
  match c.cls with
  | .compute => c.idx
  | .control => 16384 + c.idx
  | .gateway => 16448 + c.idx

def State.core (s : State) (c : CoreId) : Core := (alookup (pid c) s.cores).getD { cls := c.cls }

def State.setCore (s : State) (c : CoreId) (k : Core) : State := { s with cores := ainsert (pid c) k s.cores }

def State.modCore (s : State) (c : CoreId) (f : Core → Core) : State := s.setCore c (f (s.core c))

def State.row (s : State) (r : Nat) : Row := (alookup r s.rows).getD {}

def State.setRow (s : State) (r : Nat) (k : Row) : State := { s with rows := ainsert r k s.rows }

def State.modRow (s : State) (r : Nat) (f : Row → Row) : State := s.setRow r (f (s.row r))

/-- The core id of a key. -/
def ofPid (p : Nat) : CoreId :=
  if p < 16384 then ⟨.compute, p⟩ else if p < 16448 then ⟨.control, p - 16384⟩ else ⟨.gateway, p - 16448⟩

/-- The physical row 64*y + x of a compute core, and its place (R10). -/
def rowOf (c : CoreId) : Nat := c.idx / 8
def placeOf (c : CoreId) : Nat := c.idx % 8

/-- The compute core at a place of a row. -/
def coreAt (row k : Nat) : CoreId := ⟨.compute, 8 * row + k⟩

/-- The cores of a row. -/
def rowCores (row : Nat) : List CoreId := (List.range 8).map (coreAt row)

/-- The quadrant of a row, and its island (R10). -/
def quadrantOf (row : Nat) : Nat := row % 64 / 32 + 2 * (row / 64 / 16)
def islandOf (row : Nat) : Nat := row % 64 / 16 + 4 * (row / 64 / 8)

/-- The translation domain of a core (R346). -/
def domainOf (c : CoreId) : Nat :=
  match c.cls with
  | .compute => quadrantOf (rowOf c)
  | _ => 4

/-- The couch of a core: its row, or its own (R209). -/
def couchOf (c : CoreId) : Nat :=
  match c.cls with
  | .compute => rowOf c
  | .control => 4096 + c.idx
  | .gateway => 8192 + c.idx

/-- The class code of headers and records (R183). -/
def classCode : CoreClass → Nat
  | .compute => 0
  | .control => 1
  | .gateway => 2

def classOf (n : Nat) : CoreClass := match n with | 0 => .compute | 1 => .control | _ => .gateway

/-- The logical core number, or control or gateway index, of a core (R183). -/
def coreNumber (c : CoreId) (k : Core) : Nat := match c.cls with | .compute => k.logical | _ => c.idx

/-- Placed cores: a key and a core that is not free. -/
def State.placedCores (s : State) : List (CoreId × Core) :=
  (s.cores.filter (fun e => e.2.life != .free)).map (fun e => (ofPid e.1, e.2))

/-- The key of a core's launch: launch ids are counted by each context (R283). -/
def Core.lkey (k : Core) : Nat := k.ctx * 2 ^ 52 + k.launch

/-- Two cores hold the same placement of a launch. -/
def sameLaunch (k p : Core) : Bool := p.life != .free && p.ctx == k.ctx && p.launch == k.launch

/-- The gang's compute cores on the row of a core, in order of place (R166). -/
def rowGang (s : State) (c : CoreId) : List CoreId :=
  (rowCores (rowOf c)).filter (fun x => sameLaunch (s.core c) (s.core x) && (s.core x).gang == (s.core c).gang)

/-- A fresh counter value for a free value (log 2). -/
def State.tick (s : State) : Nat × State := (s.fresh, { s with fresh := s.fresh + 1 })

/-! ### Tiers and streamers -/

def State.tier (s : State) (t : Nat) : Mem :=
  match t with
  | 0 => s.near
  | 1 => s.far
  | 2 => s.cxl
  | _ => s.host

def State.setTier (s : State) (t : Nat) (m : Mem) : State :=
  match t with
  | 0 => { s with near := m }
  | 1 => { s with far := m }
  | 2 => { s with cxl := m }
  | _ => { s with host := m }

/-- The numbers below n whose bit of a mask is clear. -/
def clearBits (n mask : Nat) : List Nat := (List.range n).filter (fun i => !bitAt mask i)

/-- The limit of a tier's physical addresses (R340, R458, R468). -/
def tierLimit (s : State) (t : Nat) : Nat :=
  match t with
  | 0 => (clearBits 32 s.sec.nearDis).length * 2 ^ 32
  | 1 => (clearBits 8 s.sec.farDis).length * 2 ^ 37
  | 2 => min (s.hport.cxlcap * 2 ^ 28) (2 ^ 44)
  | _ => 2 ^ 48

/-- The streamer of a physical address within its tier (R17, R458). -/
def streamerOf (s : State) (t pa : Nat) : Nat :=
  match t with
  | 0 => let l := clearBits 32 s.sec.nearDis; nth l (pa / 256 % l.length) 0
  | 1 => let l := clearBits 8 s.sec.farDis; nth l (pa / 256 % l.length) 0
  | 2 => pa / 4096 % 2
  | _ => 0

/-- The expander that holds a CXL address: capacities concatenated in link order (R468). -/
def expanderOf : List Nat → Nat → Nat → Nat
  | [], _, i => i
  | c :: cs, unit, i => if unit < c then i else expanderOf cs (unit - c) (i + 1)

/-- Whether the streamer that owns a physical address serves it (R461, R468). -/
def streamerReady (s : State) (t pa : Nat) : Bool :=
  match t with
  | 0 => bitAt s.rdy.near (streamerOf s 0 pa)
  | 1 => bitAt s.rdy.far (streamerOf s 1 pa)
  | 2 => bitAt s.rdy.cxl (streamerOf s 2 pa) && bitAt s.hport.xpres (expanderOf s.hport.expCaps (pa / 2 ^ 28) 0)
  | _ => s.rdy.host

/-! ### Descriptors and rights -/

/-- A word of a context's descriptor (R360). -/
def ctxWord (s : State) (ctx off : Nat) : Nat := memRead s.ctxs (128 * ctx + off) 8

def ctxValid (s : State) (ctx : Nat) : Bool := bitAt (ctxWord s ctx 0) 63
def ctxSup (s : State) (ctx : Nat) : Bool := bitAt (ctxWord s ctx 0) 62

/-- A word of a context's descriptor in force: as read at the context's last placement or restore, while it has placed
cores (R360; log 91). V and SUP, and the fields that placement itself reads, are those of the table. -/
def heldWord (s : State) (ctx off : Nat) : Nat :=
  match alookup ctx s.descs with
  | some d => nth d.words (off / 8) 0
  | none => ctxWord s ctx off

/-- The rights of a context to region i of R360: read, or write. -/
def ctxRight (s : State) (ctx i : Nat) (write : Bool) : Bool := bitAt (heldWord s ctx 0x40) (2 * i + bnat write)

/-! ### Page tables (R341-R344) -/

/-- What a walk finds: a mapping, a page not present, or a failure with its BULK subcode. -/
inductive WalkRes where
  | mapped (t : TlbEnt)
  | absent
  | fail (sub : Nat)
deriving DecidableEq, Repr

/-- Whether a page-table entry is malformed at a level (R344). -/
def malformed (s : State) (level e : Nat) : Bool :=
  let leaf := bitAt e 7
  let pa := field e 47 8 * 256
  let tier := field e 57 56
  field e 63 58 != 0 || field e 2 1 != 0
    || (if leaf then level < 2 || (if level = 2 then pa % 2 ^ 21 else pa % 2 ^ 16) != 0 || tierLimit s tier ≤ pa
        else level == 3 || field e 6 3 != 0 || tier == 3 || (level != 2 && pa % 4096 != 0))

/-- The index of a virtual address at a level (Table 17-2). -/
def levelIndex (level va : Nat) : Nat :=
  match level with
  | 0 => field va 47 39
  | 1 => field va 38 30
  | 2 => field va 29 21
  | _ => field va 20 16

/-- The mapping that a leaf gives. -/
def leafEntry (ctx va level e : Nat) : TlbEnt :=
  { ctx := ctx, vpn := if level = 2 then va / 2 ^ 21 else va / 2 ^ 16, big := level == 2, tier := field e 57 56,
    ppn := field e 47 8 * 256, r := bitAt e 3, w := bitAt e 4, x := bitAt e 5, a := bitAt e 6 }

/-- The walk from a level's table (R343); `n` levels remain. -/
def walkFrom (s : State) (ctx va : Nat) : Nat → Nat → Nat → WalkRes
  | 0, _, _ => .fail 2
  | n + 1, tier, base =>
    let level := 3 - n
    let at' := base + 8 * levelIndex level va
    if !streamerReady s tier at' then .fail 4
    else
      let e := memRead (s.tier tier) at' 8
      if !bitAt e 0 then .absent
      else if malformed s level e then .fail 2
      else if bitAt e 7 then .mapped (leafEntry ctx va level e)
      else walkFrom s ctx va n (field e 57 56) (field e 47 8 * 256)

/-- The walk of a context's page table (R343, R360): the root is a table pointer, held to the rules of one at level 0. -/
def walk (s : State) (ctx va : Nat) : WalkRes :=
  let root := heldWord s ctx 0x18
  if !bitAt root 0 then .fail 3
  else if malformed s 0 root then .fail 2
  else walkFrom s ctx va 4 (field root 57 56) (field root 47 8 * 256)

/-- The physical address of a virtual one under a mapping. -/
def TlbEnt.phys (t : TlbEnt) (va : Nat) : Nat := t.ppn + va % (if t.big then 2 ^ 21 else 2 ^ 16)

/-- A right of an access kind: 0 read, 1 write, 2 atomic, 3 fetch (Table 17-3). -/
def rightOk (t : TlbEnt) (kind : Nat) : Bool :=
  match kind with
  | 0 => t.r
  | 1 => t.w
  | 2 => t.r && t.w && t.a
  | _ => t.x

/-- The failure, if any, of an access through a mapping: host atomics, rights, streamers (R239, R345, R461). An atomic to
host memory has subcode 0x05 whatever the page's rights (R239, R248). -/
def accessFault (s : State) (t : TlbEnt) (va kind : Nat) : Option Nat :=
  if kind == 2 && t.tier == 3 then some 5
  else if !rightOk t kind then some 1
  else if !streamerReady s t.tier (t.phys va) then some 4
  else none

/-- Whether an address lies in bulk space (R19). -/
def isBulk (va : Nat) : Bool := 2 ^ 32 ≤ va && va < 2 ^ 48

/-! ### Bulk accesses of services

Services of the system die (the wheel, the fault writer, the launch and sequence services) reach bulk memory through a
context's page tables; they read the tables afresh and never wait. -/

/-- The physical place of a byte for a service, with the right it needs. -/
def svcPlace (s : State) (ctx va kind : Nat) : Option (Nat × Nat) :=
  if !isBulk va then none
  else match walk s ctx va with
    | .mapped t => if (accessFault s t va kind).isNone then some (t.tier, t.phys va) else none
    | _ => none

/-- Bytes read by a service, page by page. -/
def svcRead (s : State) (ctx va : Nat) : Nat → Option (List Byte)
  | 0 => some []
  | n + 1 =>
    if va % 2 ^ 16 + (n + 1) ≤ 2 ^ 16 then
      (svcPlace s ctx va 0).map (fun p => memBytes (s.tier p.1) p.2 (n + 1))
    else do
      let p ← svcPlace s ctx va 0
      let rest ← svcRead s ctx (va + 1) n
      some (memGet (s.tier p.1) p.2 :: rest)

/-- A value read by a service. -/
def svcWord (s : State) (ctx va n : Nat) : Option Nat := (svcRead s ctx va n).map ofBytes

/-! ### The mapping of logical cores and rows -/

/-- What a logical core of a context maps to: a physical core, nothing, or a gang that is away (evicted). -/
inductive Mapped where
  | core (c : CoreId)
  | away
  | unmapped
deriving DecidableEq, Repr

/-- The bytes of a range of a context's bulk space, by offset; pages that do not map read as 0. -/
def svcSlice (s : State) (ctx : Nat) : Nat → Nat → Nat → Mem
  | 0, _, _ => []
  | fuel + 1, va, n =>
    if n = 0 then []
    else
      let m := min n (2 ^ 16 - va % 2 ^ 16)
      let here := match svcPlace s ctx va 0 with
        | some (t, pa) => memShiftDown (memSlice (s.tier t) pa (pa + m)) pa
        | none => []
      here ++ memShiftUp (svcSlice s ctx fuel (va + m) (n - m)) m

/-- A context's core and route tables as they stand in bulk memory. -/
def readGrid (s : State) (ctx : Nat) : Grid :=
  { core := svcSlice s ctx 3 (field (heldWord s ctx 0x08) 47 0) 65536
    route := svcSlice s ctx 3 (field (heldWord s ctx 0x10) 47 0) 8192 }

/-- A context's descriptor and tables read, as at a placement or a restore (R360, R362). -/
def loadDesc (s : State) (ctx : Nat) : State :=
  let ws := (List.range 16).map (fun i => ctxWord s ctx (8 * i))
  let s1 := { s with descs := ainsert ctx { words := ws } s.descs }
  { s1 with descs := ainsert ctx { words := ws, grid := readGrid s1 ctx } s.descs }

/-- The tables in force for a context. -/
def heldGrid (s : State) (ctx : Nat) : Grid :=
  match alookup ctx s.descs with
  | some d => d.grid
  | none => readGrid s ctx

/-- The physical row of a logical row (R361). -/
def gridRow (g : Grid) (m : Nat) : Option Nat :=
  let e := memRead g.route (4 * m) 4
  if m < 2048 ∧ bitAt e 31 then some (64 * field e 12 8 + field e 21 16) else none

/-- The physical core that a logical core's entry names, where its row's entry names the same row (R361). -/
def gridEntry (g : Grid) (n : Nat) : Option CoreId :=
  let e := memRead g.core (4 * n) 4
  match gridRow g (n / 8) with
  | some r => if bitAt e 31 ∧ 64 * field e 12 8 + field e 21 16 = r then some (coreAt r (field e 2 0)) else none
  | none => none

/-- The physical core of a logical core: no other logical core of the context names it (R361; log 91). -/
def gridCore (g : Grid) (n : Nat) : Option CoreId :=
  match gridEntry g n with
  | none => none
  | some c =>
    let shared := g.core.any (fun b => b.1 % 4 == 3 && b.1 / 4 != n && gridEntry g (b.1 / 4) == some c)
    if shared then none else some c

/-- The placed compute core that carries a logical number. -/
def placedAs (s : State) (ctx n : Nat) : Option CoreId :=
  (s.placedCores.find? (fun e => e.1.cls == .compute && e.2.ctx == ctx && e.2.logical == n)).map (·.1)

/-- The mapping of a logical core (R20, R361, R362, R367; a coupled checker's window has no mapping, R442). -/
def mapCore (s : State) (ctx n : Nat) : Mapped :=
  match placedAs s ctx n with
  | some c => if (s.core c).pst == .checker then .unmapped else .core c
  | none =>
    if s.saves.any (fun v => v.ctx == ctx && v.logical == n && v.core.cls == .compute) then .away
    else match gridCore (heldGrid s ctx) n with
      | some c => if (s.core c).life == .free then .core c else .unmapped
      | none => .unmapped

/-- The mapping of a logical row (R361, R362). -/
def mapRow (s : State) (ctx m : Nat) : Option Nat :=
  match s.placedCores.find? (fun e => e.1.cls == .compute && e.2.ctx == ctx && e.2.logical / 8 == m) with
  | some e => some (rowOf e.1)
  | none => gridRow (heldGrid s ctx) m

/-! ### The system window (R21) -/

/-- A region of the system window by offset: its right's number (R360), or none where unassigned. The blocks of the
mailbox region have their own rights (R349, R449, R447, R460, R466, R470). -/
def sysRegion (off : Nat) : Option Nat :=
  if off < 0x4000000 then (if off % 0x100000 < 0xC0000 then some 0 else none)
  else if off < 0x4800000 then (if off % 0x20000 < 0x18000 then some 1 else none)
  else if off < 0x8000000 then none
  else if off < 0x8400000 then some 2
  else if off < 0x9000000 then none
  else if off < 0x9080000 then some 3
  else if off < 0x9100000 then none
  else if off < 0x9200000 then some 3
  else if off < 0xA000000 then none
  else if off < 0xA800000 then some 4
  else if off < 0xA800020 then some 6
  else if off < 0xA800028 then some 4
  else if 0xA900000 ≤ off && off < 0xA900800 then some 6
  else if 0xAA00000 ≤ off && off < 0xAA00130 then some 4
  else if 0xAA01000 ≤ off && off < 0xAA01008 then some 6
  else if 0xAB00000 ≤ off && off < 0xAB00300 then some 6
  else if 0xAC00000 ≤ off && off < 0xAC00118 then some 6
  else if 0xAD00000 ≤ off && off < 0xAD01000 then some 4
  else if 0xAE00000 ≤ off && off < 0xAE02000 then some 6
  else if 0xAF00000 ≤ off && off < 0xAF00140 then some 5
  else none

/-- Whether a gateway core's store of n bytes lies in its own link's TAIL (R470). -/
def ownTail (c : CoreId) (off n : Nat) : Bool :=
  c.cls == .gateway && 0xA900000 + 0x80 * (c.idx / 4) + 0x40 + 8 * (c.idx % 4) ≤ off
    && off + n ≤ 0xA900000 + 0x80 * (c.idx / 4) + 0x48 + 8 * (c.idx % 4)

/-- Whether a context, or the host (64), owns a context's descriptor (R360): the host where HOSTOWN is set, else the
supervisor OWNCTX; a descriptor whose V is 0 is anybody's who may create a context (log 91). -/
def ownsCtx (s : State) (actor ctx : Nat) : Bool :=
  let w := ctxWord s ctx 0
  let sup := actor != 64 && bitAt (heldWord s actor 0) 62
  if bitAt w 63 then (if bitAt w 61 then actor == 64 else sup && field w 60 55 == actor) else actor == 64 || sup

/-- A write at an offset of the system window is not one of a descriptor that the writer does not own. -/
def ownerOk (s : State) (actor off : Nat) (write : Bool) : Bool :=
  !write || off < 0xAE00000 || 0xAE02000 ≤ off || ownsCtx s actor ((off - 0xAE00000) / 128)

/-- The parts of an access to the system window that its blocks see: the aligned 8-byte words of a 64-byte access
(R232), or the access itself, each as an offset and a size. -/
def sysParts (off n : Nat) : List (Nat × Nat) :=
  if n ≤ 8 then [(off, n)] else (List.range (n / 8)).map (fun i => (off + 8 * i, 8))

/-- Whether an offset lies in a couch's kick register, among the mailboxes: the spec gives these no addresses (R21, R221;
log 94). -/
def kickAt (off : Nat) : Bool := decide (0xA000000 ≤ off) && decide (off < 0xA800000) && Config.kickRegister (off / 8)

/-- The rights check of an access to the system window (R21, R360): FABRIC for an unassigned offset, PRIV without the
right, each for every block that the access reaches, and PRIV for a store to a kick register (R221). -/
def sysCheck (s : State) (c : CoreId) (ctx off n : Nat) (write : Bool) : Except (Cause × Nat) Unit :=
  if (sysParts off n).any (fun p => (sysRegion p.1).isNone || (sysRegion (p.1 + p.2 - 1)).isNone) then .error (.fabric, 0)
  else if write && (sysParts off n).any (fun p => kickAt p.1 || kickAt (p.1 + p.2 - 1)) then .error (.priv, 0)
  else if (sysParts off n).all (fun p =>
      (ctxRight s ctx ((sysRegion p.1).getD 0) write && ownerOk s ctx p.1 write) || (write && ownTail c p.1 p.2 && ctxRight s ctx 4 true)) then .ok ()
  else .error (.priv, 0)

/-! ### Homes of fabric addresses -/

/-- The home of n bytes at a fabric address (R19-R21, R233), or the trap of the access. -/
def fabricHome (s : State) (c : CoreId) (ctx va n : Nat) (write : Bool) : Except (Cause × Nat) Home :=
  if 2 ^ 48 ≤ va then .error (.fabric, 0)
  else if va < 0x80000000 then
    if va % 0x20000 + n ≤ 0x12000 then
      match mapCore s ctx (va / 0x20000) with
      | .core k => .ok (.core k (va % 0x20000))
      | .away => .ok (.away (va / 0x20000))
      | .unmapped => .error (.fabric, 0)
    else .error (.fabric, 0)
  else if va < 0xA0000000 then
    let o := va - 0x80000000
    if o % 0x40000 + n ≤ 0x28000 then
      match mapRow s ctx (o / 0x40000) with
      | some r => .ok (.row r (o % 0x40000))
      | none => .error (.fabric, 0)
    else .error (.fabric, 0)
  else if va < 0xB0000000 then
    match sysCheck s c ctx (va - 0xA0000000) n write with
    | .ok _ => .ok (.sys (va - 0xA0000000))
    | .error e => .error e
  else if va < 2 ^ 32 then .error (.fabric, 0)
  else .error (.fabric, 1)

/-- Whether a core answers accesses with a retry (R236, R367, R444). -/
def coreAway (k : Core) : Bool :=
  match k.life with
  | .saving => true
  | .restoring => true
  | _ => k.pst == .coupling && k.sleeping

/-- The local store behind a window of control-core SRAM or a gateway store: the core, and whether the offset is in
its local store rather than in the part that reads 0 (R374). -/
def sysCore (off : Nat) : Option (CoreId × Nat × Bool) :=
  if off < 0x4000000 then some (⟨.control, off / 0x100000⟩, off % 0x100000, off % 0x100000 < 0x12000)
  else if off < 0x4800000 then some (⟨.gateway, (off - 0x4000000) / 0x20000⟩, (off - 0x4000000) % 0x20000, true)
  else none

/-- The number of the home of an access (R232): a core window, a row, a streamer, or the block that holds a region of
the system window: the store of one control or gateway core, or the block of a region of Table 1-6. -/
def homeUnit (s : State) (va : Nat) : Home → Nat
  | .core c _ => if c.cls == .compute then 8 * (va / 0x20000) else 8 * pid c + 1
  | .away n => 8 * n
  | .row r _ => 8 * r + 2
  | .sys off => match sysCore off with
    | some (c, _, _) => 8 * pid c + 1
    | none => 8 * (off / 0x1000000) + 3
  | .bulk t pa => 8 * (4 * streamerOf s t pa + t) + 4

/-- An access has performed. -/
def Acc.performed (a : Acc) : Bool := match a.phase with | .done _ => true | _ => false

/-- A home that is a core's own local store, by its window or through the system window. -/
def ownHome (c : CoreId) : Home → Bool
  | .core x _ => x == c
  | .sys off => match sysCore off with
    | some (x, _, true) => x == c
    | _ => false
  | _ => false

/-- Whether an access of a core to its own store has still to perform (R253, item 2). -/
def ownBusy (s : State) (c : CoreId) : Bool := s.fab.any (fun a => a.src == c && !a.performed && ownHome c a.home)

/-! ### Line caches (R251, R375) -/

/-- Every write at a streamer's home invalidates the control cores' copies of its lines (R251). -/
def dropLines (s : State) (t pa n : Nat) : State :=
  { s with cores := s.cores.map (fun e =>
      if e.2.lines.isEmpty then e
      else (e.1, { e.2 with lines := e.2.lines.filter (fun l =>
        !(l.1 == t && pa / 64 ≤ l.2 && l.2 ≤ (pa + n - 1) / 64)) })) }

/-- Bytes written at a bulk home. -/
def writeTier (s : State) (t pa : Nat) (bs : List Byte) : State :=
  let s1 := dropLines s t pa bs.length
  s1.setTier t (memPut (s1.tier t) pa bs)

/-- Bytes written by a service, through the page tables; none where a page does not map with the W right. -/
def svcWrite (s : State) (ctx : Nat) : Nat → List Byte → Option State
  | _, [] => some s
  | va, b :: bs =>
    if va % 2 ^ 16 + (bs.length + 1) ≤ 2 ^ 16 then
      (svcPlace s ctx va 1).map (fun p => writeTier s p.1 p.2 (b :: bs))
    else do
      let p ← svcPlace s ctx va 1
      let s1 ← svcWrite s ctx (va + 1) bs
      some (writeTier s1 p.1 p.2 [b])

def svcPutWord (s : State) (ctx va v : Nat) : Option State := svcWrite s ctx va (toBytes 8 v)

end Sys2Proof.Machine
end

