-- ==== Sys2Proof/Machine/Net.lean ====
section
/-!
DEFINITION. Messages, enqueues and packets in flight (R182-R203): destination words and headers, landing in a channel
FIFO (Table 8-5), refusals and retries, the reserved-slot channel, and the packets of `chhold`, `chrdy` and of the
sequence service (R413).
-/
namespace Sys2Proof.Machine

/-! ### Destination words and headers -/

def destTag (d : Nat) : Nat := field d 63 48
def destLen (d : Nat) : Nat := field d 37 32
def destCh (d : Nat) : Nat := field d 20 16
def destClass (d : Nat) : Nat := field d 15 14
def destNum (d : Nat) : Nat := field d 13 0

/-- The physical core that a destination word names now, where there is one (R201). -/
def destCore (s : State) (ctx d : Nat) : Option CoreId :=
  match destClass d with
  | 0 => match mapCore s ctx (destNum d) with
    | .core c => some c
    | _ => none
  | 1 => some ⟨.control, destNum d⟩
  | _ => some ⟨.gateway, destNum d⟩

/-- The checks of a destination word at issue (R201): the layout, then the target and the right to it. -/
def destCheck (s : State) (ctx d : Nat) (len : Nat → Bool) : Except (Cause × Nat) Unit :=
  if field d 47 38 != 0 || field d 31 21 != 0 || destClass d == 3 || (destClass d != 0 && 64 ≤ destNum d)
      || !len (destLen d) then .error (.delivery, 2)
  else match destClass d with
    | 0 => match mapCore s ctx (destNum d) with
      | .unmapped => if (placedAs s ctx (destNum d)).isSome then .ok () else .error (.fabric, 0)
      | _ => .ok ()
    | 1 => if ctxRight s ctx 0 true then .ok () else .error (.fabric, 0)
    | _ => if ctxRight s ctx 1 true then .ok () else .error (.fabric, 0)

/-- The header word of a message (R183). -/
def headerWord (tag mid len : Nat) (enq : Bool) (ch cls sender : Nat) : Nat :=
  sender + cls * 2 ^ 14 + ch * 2 ^ 16 + bnat enq * 2 ^ 23 + len * 2 ^ 24 + mid * 2 ^ 32 + tag * 2 ^ 48

def hdrLen (h : Nat) : Nat := field h 29 24
def hdrTag (h : Nat) : Nat := field h 63 48
def hdrMid (h : Nat) : Nat := field h 47 32

/-! ### Landing (R184, R191) -/

/-- Where n words land in a FIFO: their first slot and the slots skipped, or none (Table 8-5). -/
def landSlot (e : Chan) (n : Nat) : Option (Nat × Nat) :=
  let free := e.size - e.fill
  let t := (e.head + e.fill) % e.size
  if n ≤ free ∧ t + n ≤ e.size then some (t, 0)
  else if e.size < t + n ∧ (e.size - t) + n ≤ free then some (0, e.size - t)
  else none

/-- The FILL of h3 raised by arriving words while h3 is bound to the channel's FIFO (R121, R191). -/
def raiseH3 (k : Core) (ch n : Nat) : Core :=
  if k.h3fifo && k.run == .firing ch then
    if k.wp = k.fifoWp then
      let x := hWord k 3
      { k with sh := memWrite k.sh 0x378 8 (x + n * 2 ^ 42) }
    else
      { k with ls := memWrite k.ls (k.fifoWp + 0x378) 8 (memRead k.ls (k.fifoWp + 0x378) 8 + n * 2 ^ 42) }
  else k

/-- A message's words written in consecutive slots and its header queued; none where Table 8-5 refuses it. -/
def landWords (k : Core) (ch hdr : Nat) (words : List Nat) : Option Core :=
  let e := nth k.chans ch {}
  let n := words.length
  if e.bind = 0 ∨ 64 ≤ k.hdrs.length then none
  else match landSlot e n with
    | none => none
    | some (q, skip) =>
      let t := (e.head + e.fill) % e.size
      let k1 := if skip = 0 then k
        else deliver k (8 * (e.base + t)) (toBytes 8 (0xFFFFFFFF00000000 + skip))
      let k2 := deliver k1 (8 * (e.base + q)) ((words.map (toBytes 8)).flatten)
      let e' := { e with fill := e.fill + skip + n, skip := if skip = 0 then e.skip else skip }
      let k3 := { k2 with chans := setAt k2.chans ch e', hdrs := k2.hdrs ++ [(ch, { word := hdr })] }
      some (raiseH3 k3 ch n)

/-- Whether a core takes messages at all: it is placed or idle, not under eviction or restore, nor coupling, and no
checker (R367, R442, R444). -/
def takesMessages (k : Core) : Bool := !coreAway k && k.pst != .checker

/-! ### Order in the network (R198) -/

def MsgKind.isEnq : MsgKind → Bool | .enq _ => true | _ => false
def MsgKind.isService : MsgKind → Bool | .cancel _ _ => true | .clear _ => true | _ => false

/-- Two items of one sender; for a service, the header names it (R183). -/
def sameSender (a b : Msg) : Bool := a.src == b.src && (a.src.isSome || a.hdr % 2 ^ 16 == b.hdr % 2 ^ 16)

/-- Two items of one order class from one sender to one core. -/
def sameRoute (a b : Msg) : Bool :=
  sameSender a b && a.ctx == b.ctx && destClass a.dest == destClass b.dest && destNum a.dest == destNum b.dest
    && a.toC == b.toC && a.kind.isEnq == b.kind.isEnq && a.kind.isService == b.kind.isService

/-- Item i of the network, where no earlier item of its route is still there. -/
def netItem (s : State) (i : Nat) : Option Msg :=
  match s.net[i]? with
  | none => none
  | some m => if (s.net.take i).any (sameRoute m) then none else some m

/-- The sender still holds the placement under which it sent (R269: later replies are dropped). -/
def senderLives (s : State) (m : Msg) : Option CoreId :=
  match m.src with
  | some c => if (s.core c).life != .free && (s.core c).ctx == m.ctx && (s.core c).launch == m.launch then some c else none
  | none => none

/-- ct.m of a sender falls (R195). -/
def lowerCtm (s : State) (m : Msg) : State :=
  match senderLives s m with
  | some c => s.modCore c (fun k => { k with ctm := k.ctm - 1 })
  | none => s

def dropNet (s : State) (i : Nat) : State := { s with net := dropAt s.net i }

/-! ### Messages -/

/-- A released message leaves the send buffer (R194, R185): the oldest, unless an earlier item to its core remains. -/
def injectMessage (s : State) (c : CoreId) : State :=
  match (s.core c).sout with
  | [] => s
  | m :: ms =>
    if s.net.any (sameRoute m) then s
    else { (s.modCore c (fun k => { k with sout := ms })) with net := s.net ++ [m] }

/-- An ordinary message reaches its core (R184): it lands, or it is refused with a retry reply. -/
def arriveMessage (s : State) (i : Nat) : State :=
  match netItem s i with
  | none => s
  | some m =>
    if m.kind != .ordinary || m.phase != .going then s
    else
      let refuse (bound : Bool) : State := { s with net := setAt s.net i { m with phase := .refused bound } }
      match destCore s m.ctx m.dest with
      | none => refuse false
      | some c =>
        let k := s.core c
        if !takesMessages k then refuse false
        else match landWords k (destCh m.dest) m.hdr m.words with
          | some k' => lowerCtm (dropNet (s.setCore c k') i) m
          | none => refuse ((nth k.chans (destCh m.dest) {}).bind != 0)

/-- The boundary trap of a message refused 4,096 times (R196). -/
def deliveryTrap (m : Msg) (bound : Bool) : Trap :=
  { cause := .delivery, sub := bnat bound, addr := m.dest, async := true, off := some m.off, obj := some m.obj,
    chmid := some (m.ch, m.mid) }

/-- A boundary trap queued on a core (R264). -/
def pushTrap (s : State) (c : CoreId) (t : Trap) : State := s.modCore c (fun k => { k with bpend := k.bpend ++ [t] })

/-- A retry reply reaches the sender (R185, R196). -/
def refusalReply (s : State) (i : Nat) : State :=
  match s.net[i]? with
  | none => s
  | some m =>
    match m.phase with
    | .refused bound =>
      if 4096 ≤ m.refusals + 1 then
        let s1 := lowerCtm (dropNet s i) m
        match senderLives s m with
        | some c => pushTrap s1 c (deliveryTrap m bound)
        | none => s1
      else { s with net := setAt s.net i { m with phase := .waiting, refusals := m.refusals + 1 } }
    | _ => s

/-- A refused message is sent again (R185). -/
def retryMessage (s : State) (i : Nat) : State :=
  match s.net[i]? with
  | none => s
  | some m => if m.phase == .waiting then { s with net := setAt s.net i { m with phase := .going } } else s

/-! ### Enqueues (R197) -/

/-- What becomes of an enqueue at its core: landed or discarded (a core), or it must wait (none). -/
def landEnqueue (k : Core) (m : Msg) : Option Core :=
  if (nth k.chans (destCh m.dest) {}).bind = 0 then some k else landWords k (destCh m.dest) m.hdr m.words

/-- An acknowledged enqueue reports acceptance (R195, R197). -/
def ackEnqueue (s : State) (m : Msg) : State :=
  match m.kind with
  | .enq true => lowerCtm s m
  | _ => s

/-- An enqueue behind another at its core: enqueues of one channel land in the order of arrival (R197), those of one
sender in their issue order (R198). -/
def enqBehind (waiting : List Msg) (m : Msg) : Bool :=
  waiting.any (fun x => destCh x.dest == destCh m.dest || sameSender x m)

/-- An enqueue reaches its core: it lands, is discarded, takes a landing slot, or waits in the routers. -/
def arriveEnqueue (s : State) (i : Nat) : State :=
  match netItem s i with
  | none => s
  | some m =>
    match m.kind, destCore s m.ctx m.dest with
    | .enq _, some c =>
      let k := s.core c
      if coreAway k then s
      else
        match (if enqBehind k.landing m then none else landEnqueue k m) with
        | some k' => ackEnqueue (dropNet (s.setCore c k') i) m
        | none =>
          if k.landing.length < 16 then dropNet (s.setCore c { k with landing := k.landing ++ [m] }) i else s
    | _, _ => s

/-- A waiting enqueue lands once there is room, in the order of its channel and of its sender. -/
def landWaiting (s : State) (c : CoreId) (i : Nat) : State :=
  let k := s.core c
  match k.landing[i]? with
  | none => s
  | some m =>
    if coreAway k || enqBehind (k.landing.take i) m then s
    else match landEnqueue { k with landing := dropAt k.landing i } m with
      | some k' => ackEnqueue (s.setCore c k') m
      | none => s

/-- Waiting enqueues of a core that its table or its placement no longer takes are discarded; acknowledged ones report
acceptance (R197). -/
def discardLanding (s : State) (c : CoreId) (gone : Msg → Bool) : State :=
  let out := (s.core c).landing.filter gone
  out.foldl ackEnqueue (s.modCore c (fun k => { k with landing := k.landing.filter (fun m => !gone m) }))

/-! ### Packets (R203, R413) -/

/-- HOLD or READY of a channel set as a packet says. -/
def applyPacket (k : Core) (ch : Nat) (kind : MsgKind) : Core :=
  let e := nth k.chans ch {}
  match kind with
  | .hold v => { k with chans := setAt k.chans ch { e with hold := v } }
  | .ready v => { k with chans := setAt k.chans ch { e with ready := v } }
  | _ => k

/-- A packet on the saved table of an evicted core. -/
def packetSaved (s : State) (m : Msg) : State :=
  { s with saves := s.saves.map (fun v =>
      if v.ctx == m.ctx && classCode v.core.cls == destClass m.dest && v.logical == destNum m.dest then
        { v with core := applyPacket v.core (destCh m.dest) m.kind } else v) }

/-- A `chhold` or `chrdy` packet is applied; a core that is saved, or is being restored, keeps it for its restored table. -/
def arrivePacket (s : State) (i : Nat) : State :=
  match netItem s i with
  | none => s
  | some m =>
    match m.kind with
    | .hold _ | .ready _ =>
      match destCore s m.ctx m.dest with
      | some c =>
        if (s.core c).life == .restoring || (s.core c).life == .free then lowerCtm (dropNet (packetSaved s m) i) m
        else lowerCtm (dropNet (s.modCore c (fun k => applyPacket k (destCh m.dest) m.kind)) i) m
      | none => lowerCtm (dropNet (packetSaved s m) i) m
    | _ => s

/-- The cancel set (R413): 8 entries, each a group (low 10 bits) and a mask above them; the oldest is replaced. -/
def cancelAdd (l : List Nat) (g mask : Nat) : List Nat :=
  match l.find? (fun e => e % 1024 == g) with
  | some e => l.map (fun x => if x % 1024 == g then g + 1024 * natOr (e / 1024) mask else x)
  | none => (if 8 ≤ l.length then l.drop 1 else l) ++ [g + 1024 * mask]

def cancelClear (l : List Nat) (g : Nat) : List Nat := l.filter (fun e => e % 1024 != g)

/-- Whether a header's tag names a cancelled node (R413). -/
def cancelled (l : List Nat) (hdr : Nat) : Bool :=
  let tag := hdrTag hdr
  let g := tag / 64
  g != 0 && l.any (fun e => e % 1024 == g && bitAt (e / 1024) (tag % 64))

/-- A cancel or clear packet of the sequence service reaches its core. -/
def arriveCancel (s : State) (i : Nat) : State :=
  match netItem s i with
  | none => s
  | some m =>
    match m.kind, m.toC with
    | .cancel g mask, some c => dropNet (s.modCore c (fun k => { k with cancels := cancelAdd k.cancels g mask })) i
    | .clear g, some c => dropNet (s.modCore c (fun k => { k with cancels := cancelClear k.cancels g })) i
    | _, _ => s

/-- A packet of the service to every compute core of a context, in order (R413). -/
def sendService (s : State) (ctx : Nat) (kind : MsgKind) : State :=
  let cs := s.placedCores.filter (fun e => e.1.cls == .compute && e.2.ctx == ctx)
  { s with net := s.net ++ cs.map (fun e =>
      { src := none, ctx := ctx, toC := some e.1, dest := 0, hdr := 0, words := [], kind := kind }) }

end Sys2Proof.Machine
end

