-- ==== Sys2Proof/Machine/Temper.lean ====
section
/-!
DEFINITION. The launch table's lookups (R283) and temper (R322-R332): intrinsic tempers, shares, the live demand and
its propagation, the ladders of tempered choice, achieved temper and re-demand.
-/
namespace Sys2Proof.Machine

/-! ### Launch lookups (R278-R284) -/

def launchCount (id : Nat) : Nat := id % 2 ^ 48
def launchQueue (l : Launch) : Nat := field (nth l.words 0 0) 11 8
def launchPrio (l : Launch) : Nat := field (nth l.words 0 0) 7 6
def launchCbase (l : Launch) : Nat := nth l.words 1 0
def launchObj (l : Launch) : Nat := field (nth l.words 0 0) 63 32
def launchTsens (l : Launch) : Nat := field (nth l.words 3 0) 23 16
def launchTdem (l : Launch) : Nat := field (nth l.words 3 0) 7 0

/-- Launches accepted by a context so far. -/
def acceptedCount (s : State) (ctx : Nat) : Nat := (alookup ctx s.lcount).getD 0

def findLaunch (s : State) (ctx id : Nat) : Option Launch := s.launches.find? (fun l => l.ctx == ctx && l.id == id)

def modLaunch (s : State) (ctx id : Nat) (f : Launch → Launch) : State :=
  { s with launches := s.launches.map (fun l => if l.ctx == ctx && l.id == id then f l else l) }

/-- A launch id inside the window of the 1,024 most recent launches (R283). -/
def inWindow (s : State) (ctx id : Nat) : Bool :=
  (findLaunch s ctx id).isSome && acceptedCount s ctx < launchCount id + 1024

/-- A launch among the 64 most recently accepted (R330). -/
def retained (s : State) (l : Launch) : Bool := acceptedCount s l.ctx < launchCount l.id + 64

def Launch.over (l : Launch) : Bool := l.st == .done || l.st == .failed || l.st == .refused

/-- The launch of a placed core. -/
def coreLaunch (s : State) (k : Core) : Option Launch :=
  if k.life == .free then none else findLaunch s k.ctx k.launch

/-- The eight words of a code object's header (R278), as the wheel read them or read afresh. -/
def headerOf (s : State) (l : Launch) : List Nat :=
  if l.hdr.isEmpty then
    (List.range 8).map (fun i => (svcWord s l.ctx (launchCbase l + 8 * i) 8).getD 0)
  else l.hdr

/-! ### Shares (R325) -/

/-- A sensitivity table: OWN, the weights and the factors of its inputs (R280). -/
structure Sens where
  own : Nat
  ws : List Nat
  sig : List Int
deriving DecidableEq, Repr

/-- A table entry of 16 bytes. -/
def sensOf (w0 w1 : Nat) : Sens :=
  let n := field w0 6 4
  { own := field w0 3 0
    ws := (List.range n).map (fun j => w0 / 2 ^ (32 + 4 * j) % 16)
    sig := (List.range n).map (fun j => toSigned 8 (w1 / 2 ^ (8 * j))) }

/-- Where a launch's sensitivity table of an index stands; none for an index at or above NSENS (R325). -/
def sensAddr (s : State) (l : Launch) (idx : Nat) : Option Nat :=
  let h := headerOf s l
  if field (nth h 5 0) 63 48 ≤ idx ∨ idx = 255 then none
  else some (launchCbase l + field (nth h 5 0) 31 0 + 16 * idx)

/-- A launch's sensitivity table of an index, as the launch services read it. -/
def sensTable (s : State) (l : Launch) (idx : Nat) : Option Sens :=
  (sensAddr s l idx).map (fun a => sensOf ((svcWord s l.ctx a 8).getD 0) ((svcWord s l.ctx (a + 8) 8).getD 0))

/-- The smallest k with w^8 * 2^k at least Omega^8. -/
def shareExp (omega w : Nat) : Nat :=
  ((List.range 64).find? (fun k => decide (omega ^ 8 ≤ w ^ 8 * 2 ^ k))).getD 64

/-- A number brought into 0 to 255. -/
def clamp255 (x : Int) : Nat := min 255 x.toNat

/-- The share of part j of a demand (R325). -/
def share (td : Nat) (t : Option Sens) (j : Nat) : Nat :=
  match t with
  | none => td
  | some t =>
    if t.ws.length < j then 0
    else
      let w := if j = 0 then t.own else nth t.ws (j - 1) 0
      if w = 0 then 255
      else
        let omega := t.own + t.ws.foldl (· + ·) 0
        let sg : Int := if j = 0 then 0 else nth t.sig (j - 1) 0
        clamp255 ((td : Int) + (shareExp omega w : Int) + sg)

/-! ### The live demand (R326) -/

/-- The producers that take a share of a launch's demand: each id with its share. -/
def producerShares (s : State) (l : Launch) (demand : Nat) : List (Nat × Nat) :=
  let t := sensTable s l (launchTsens l)
  (List.range 4).filterMap (fun i =>
    let p := nth l.prod i 0
    if p = 0 then none else some (p, share demand t (i + 1)))

/-- A launch's live demand rises to D, and the rise propagates; `n` bounds the chain of producers, whose counts
fall. -/
def raiseDemand : Nat → State → Nat → Nat → Nat → State
  | 0, s, _, _, _ => s
  | n + 1, s, ctx, id, d =>
    match findLaunch s ctx id with
    | none => s
    | some l =>
      if l.over || !inWindow s ctx id || d ≤ l.demand then s
      else
        let s1 := modLaunch s ctx id (fun l => { l with demand := d })
        (producerShares s1 l d).foldl (fun s p => raiseDemand n s ctx p.1 p.2) s1

/-- The demand of a newly accepted launch given to its producers. -/
def spreadDemand (s : State) (l : Launch) : State :=
  (producerShares s l l.demand).foldl (fun s p => raiseDemand s.launches.length s l.ctx p.1 p.2) s

/-! ### Choices (R323, R324, R328) -/

/-- The dot-product term: the smallest a with 2^a at least K^8 (R324). -/
def dotTerm (k : Nat) : Nat :=
  if k ≤ 1 then 0 else ((List.range 200).find? (fun a => decide (k ^ 8 ≤ 2 ^ a))).getD 200

/-- Intrinsic tempers (Table 16-1); DS8 takes WTERR. -/
def intrinsic (wterr code : Nat) : Nat :=
  match code with
  | 0x0D => 16
  | 0x0B => 24
  | 0x0C => 32
  | 0x0A => 64
  | 0x09 => 88
  | 0x08 => 192
  | _ => wterr

/-- The ladder of a class, narrowest first, and its fallback (Table 16-2). -/
def ladder (cls : Nat) : List Nat × Nat :=
  match cls with
  | 0 => ([0x0A, 0x09, 0x08], 0x08)
  | 1 => ([0x0B, 0x0C, 0x0A, 0x09, 0x08], 0x08)
  | 2 => ([0x0D, 0x0B, 0x0C, 0x0A, 0x09], 0x09)
  | _ => ([0x0F, 0x0D, 0x0B, 0x0C, 0x0A, 0x09], 0x09)

/-- A choice: the code, the need, and whether it is unmet (R328). -/
def choose (cls t k wterr : Nat) : Nat × Nat × Bool :=
  let need := min 255 (t + dotTerm k)
  let l := ladder cls
  match l.1.find? (fun c => decide (need ≤ intrinsic wterr c)) with
  | some c => (c, need, false)
  | none => (l.2, need, true)

/-- The iteration count of class 3 (R142, R328): from the type that class 0 picks. -/
def chooseIters (t k : Nat) : Nat × Nat :=
  let c := choose 0 t k 0
  let need := min c.2.1 (intrinsic 0 c.1)
  (if need ≤ 64 then 0 else if need ≤ 128 then 1 else 2, need)

/-- The format code that `kst` takes for 0x20 (R174): class 1 from OWN, or s32 on an s32 accumulator. -/
def kstChoice (acc own wterr : Nat) : Nat := if acc = 0x02 then 0x02 else (choose 1 own 0 wterr).1

/-! ### The temper word (R327) -/

def temperWord (dem own tsens wterr : Nat) : Nat := own + dem * 2 ^ 8 + tsens * 2 ^ 24 + wterr * 2 ^ 32

/-- The temper word that a firing of a launch starts with. -/
def startTemper (s : State) (l : Launch) : Nat :=
  temperWord l.demand (share l.demand (sensTable s l (launchTsens l)) 0) (launchTsens l) (field (nth l.kent 0 0) 15 8)

/-! ### Reports and re-demand (R329-R332) -/

/-- The latest incarnation of a launch (R330): every incarnation names it, so that it is known when the original has been
forgotten. -/
def latestOf (s : State) (ctx id : Nat) : Option Launch :=
  (findLaunch s ctx id).map (fun l => (findLaunch s ctx l.latest).getD l)

/-- A report of achieved temper (R329). -/
def reportTemper (s : State) (ctx id a : Nat) : State :=
  modLaunch s ctx id (fun l => { l with tach := min l.tach a, av := true })

/-- Producers of a core's launch that name an incarnation of e are replaced (R332). -/
def replaceProducers (s : State) (ctx id e new : Nat) : State :=
  let origOf (p : Nat) : Nat := match findLaunch s ctx p with | some l => l.orig | none => p
  modLaunch s ctx id (fun l => { l with prod := l.prod.map (fun p =>
    if p ≠ 0 ∧ origOf p = origOf e ∧ launchCount p ≤ launchCount e then new else p) })

end Sys2Proof.Machine
end

