-- ==== Sys2Proof/Machine/Sequences.lean ====
section
/-!
DEFINITION. The sequence service (R407-R417): the sequence table, page words and the page pool, commit and rollback,
the step builder, cancellation, and the leadership token of the serving blocks.
-/
namespace Sys2Proof.Machine

/-! ### Entries -/

def seqWord (s : State) (q off : Nat) : Nat := memRead s.seqs (512 * q + off) 8
def setSeqWord (s : State) (q off v : Nat) : State := { s with seqs := memWrite s.seqs (512 * q + off) 8 v }

def seqState (s : State) (q : Nat) : Nat := field (seqWord s q 0) 63 61
def seqCtx (s : State) (q : Nat) : Nat := field (seqWord s q 0) 37 32
def seqL (s : State) (q : Nat) : Nat := field (seqWord s q 0) 31 0
def seqPL (s : State) (q : Nat) : Nat := field (seqWord s q 8) 63 32
def seqPrompt (s : State) (q : Nat) : Nat := field (seqWord s q 8) 31 0
def seqNpg (s : State) (q : Nat) : Nat := field (seqWord s q 0x38) 47 32
def seqPgtok (s : State) (q : Nat) : Nat := field (seqWord s q 0x38) 15 0
def seqGroup (s : State) (q : Nat) : Nat := field (seqWord s q 0x38) 63 54

/-- A field of bits [hi:lo] of a word replaced. -/
def setField (x hi lo v : Nat) : Nat := x - field x hi lo * 2 ^ lo + v % 2 ^ (hi + 1 - lo) * 2 ^ lo

def setSeqField (s : State) (q off hi lo v : Nat) : State := setSeqWord s q off (setField (seqWord s q off) hi lo v)

/-- The bits of a word of an entry that a write reaches: those listed in R407, without GROUP. -/
def seqMask (off : Nat) : Nat :=
  if off = 0 then 0xE3FF003FFFFFFFFF
  else if off = 0x20 ∨ off = 0x58 then 0xFFFFFFFFFFFF
  else if off = 0x38 then 0x0000FFFF0000FFFF
  else if off = 0x50 then 0xFFFF1FFFFFFFFFFF
  else if 0x60 ≤ off ∧ off < 0x80 then 0
  else if 0x80 ≤ off ∧ off < 0x200 then 0xF000FFFFFFFFFFFF
  else 0xFFFFFFFFFFFFFFFF

/-! ### Page words and the pool (R408, R409) -/

def pageWord (s : State) (q i : Nat) : Nat :=
  if i < 48 then seqWord s q (0x80 + 8 * i)
  else (svcWord s (seqCtx s q) (field (seqWord s q 0x58) 47 0 + 8 * (i - 48)) 8).getD 0

def setPageWord (s : State) (q i v : Nat) : State :=
  if i < 48 then setSeqWord s q (0x80 + 8 * i) v
  else (svcPutWord s (seqCtx s q) (field (seqWord s q 0x58) 47 0 + 8 * (i - 48)) v).getD s

/-- A word of a context's serving block (R409). -/
def servWord (s : State) (ctx off : Nat) : Nat := memRead s.serv (64 * ctx + off) 8
def setServWord (s : State) (ctx off v : Nat) : State := { s with serv := memWrite s.serv (64 * ctx + off) 8 v }

/-- GNEXT, whose reset value is 1 (held as 0 until it first changes). -/
def gnext (s : State) (ctx : Nat) : Nat := let g := field (servWord s ctx 0x18) 9 0; if g = 0 then 1 else g

def poolAddr (s : State) (ctx : Nat) : Nat := field (servWord s ctx 0) 47 0

/-- COUNT of a context's pool; 0 where the descriptor cannot be read. -/
def poolCount (s : State) (ctx : Nat) : Nat := field ((svcWord s ctx (poolAddr s ctx) 8).getD 0) 63 32

/-- Take a page word at HEAD. -/
def poolPop (s : State) (ctx : Nat) : Nat × State :=
  let a := poolAddr s ctx
  let w0 := (svcWord s ctx a 8).getD 0
  let base := (svcWord s ctx (a + 8) 8).getD 0
  let size := field ((svcWord s ctx (a + 16) 8).getD 0) 31 0
  let head := field w0 31 0
  let w := (svcWord s ctx (base + 8 * (head % size)) 8).getD 0
  (w, (svcPutWord s ctx a ((field w0 63 32 - 1) * 2 ^ 32 + (head + 1) % size)).getD s)

/-- Return a page word at slot HEAD + COUNT. -/
def poolPush (s : State) (ctx w : Nat) : State :=
  let a := poolAddr s ctx
  let w0 := (svcWord s ctx a 8).getD 0
  let base := (svcWord s ctx (a + 8) 8).getD 0
  let size := field ((svcWord s ctx (a + 16) 8).getD 0) 31 0
  let slot := (field w0 31 0 + field w0 63 32) % size
  let s1 := (svcPutWord s ctx (base + 8 * slot) w).getD s
  (svcPutWord s1 ctx a (w0 + 2 ^ 32)).getD s1

/-! ### Commit and rollback (R414) -/

def ceilDiv (a b : Nat) : Nat := (a + b - 1) / b

/-- One page given back. -/
def returnPage (s : State) (q i : Nat) : State :=
  let w := pageWord s q i
  let s1 := poolPush s (seqCtx s q) w
  let s2 := setPageWord s1 q i (setField w 63 63 0)
  setSeqField s2 q 0x38 47 32 (seqNpg s2 q - 1)

def rollback (s : State) (q : Nat) : State :=
  let l := seqL s q
  let s1 := setSeqField s q 8 63 32 l
  let n := ceilDiv l (seqPgtok s q)
  let pages := List.range (seqNpg s q)
  let s2 := (pages.reverse.filter (fun i => n ≤ i && bitAt (pageWord s q i) 62)).foldl (fun s i => returnPage s q i) s1
  (pages.filter (fun i => i < n)).foldl (fun s i => setPageWord s q i (setField (pageWord s q i) 62 62 0)) s2

def commit (s : State) (q n d : Nat) : State :=
  let l := seqL s q + n
  let s1 := setSeqField s q 0 31 0 l
  let s2 := setSeqWord s1 q 0x10 ((seqWord s1 q 0x10 + d) % 2 ^ 64)
  let s3 := if seqState s2 q = 2 ∧ seqPrompt s2 q ≤ l then setSeqField s2 q 0 63 61 3 else s2
  let s4 := rollback s3 q
  let g := seqGroup s4 q
  let s5 := setSeqField (setSeqWord s4 q 0x30 0) q 0x38 63 54 0
  if g = 0 then s5 else sendService s5 (seqCtx s5 q) (.clear g)

/-- STATE written 0 (Table 20-1): every valid page goes back to the pool and the entry becomes zero. -/
def freeSequence (s : State) (q : Nat) : State :=
  let s1 := ((List.range (max 48 (seqNpg s q))).filter (fun i => bitAt (pageWord s q i) 63)).foldl
    (fun s i => poolPush s (seqCtx s q) (pageWord s q i)) s
  { s1 with seqs := memClear s1.seqs (512 * q) (512 * q + 512) }

/-- Bits added to CMASK, and the cancel sent (R413). -/
def cancelNodes (s : State) (q mask : Nat) : State :=
  let old := seqWord s q 0x30
  let s1 := setSeqWord s q 0x30 (natOr old mask)
  if seqGroup s1 q = 0 ∨ natOr old mask = old then s1
  else sendService s1 (seqCtx s1 q) (.cancel (seqGroup s1 q) (natOr old mask - old))

/-- A word of an entry written (R407, R422): its accepted fields; STATE 0 frees the entry; new CMASK bits cancel. -/
def writeSeqWord (s : State) (q off v : Nat) : State :=
  let old := seqWord s q off
  let m := seqMask off
  let new := natOr (natAnd old (natNot 64 m)) (natAnd v m)
  if off = 0 then
    if 6 ≤ field v 63 61 then setSeqWord s q 0 (setField new 63 61 (field old 63 61))
    else if field v 63 61 = 0 then freeSequence s q
    else setSeqWord s q 0 new
  else if off = 0x30 then cancelNodes (setSeqWord s q 0x30 (natAnd new old)) q new
  else setSeqWord s q off new

/-- When an eviction of a launch begins, its sequences are rolled back (R415, R445). -/
def rollbackLaunch (s : State) (ctx id : Nat) : State :=
  if s.seqs.isEmpty then s
  else ((List.range 8192).filter (fun q => seqState s q ≠ 0 && seqCtx s q == ctx && seqWord s q 0x48 == id)).foldl
    (fun s q => rollback s q) s

/-! ### The step builder (R411, R412) -/

/-- The state of a step being built: the machine, the tokens used, and the plan entries so far. -/
structure Build where
  s : State
  used : Nat := 0
  plan : List (Nat × Nat) := []
deriving DecidableEq, Repr

/-- Pages that a length needs beyond those held. -/
def pagesFor (s : State) (q x : Nat) : Nat := ceilDiv x (seqPgtok s q) - seqNpg s q

/-- Pages popped from the pool into an entry. -/
def takePages : Nat → State → Nat → State
  | 0, s, _ => s
  | n + 1, s, q =>
    let r := poolPop s (seqCtx s q)
    let i := seqNpg r.2 q
    let s1 := setPageWord r.2 q i (setField (setField r.1 59 48 0) 63 62 3)
    takePages n (setSeqField s1 q 0x38 47 32 (i + 1)) q

/-- take(t, nd) of R411, with the plan entry of R412 (KIND 1 decode, 2 prefill). -/
def takeSeq (b : Build) (q t nd kind : Nat) : Build :=
  let s := b.s
  let l := seqL s q
  let n := pagesFor s q (l + t)
  let s1 := setSeqField (takePages n s q) q 8 63 32 (l + t)
  let ctx := seqCtx s q
  let g := if 0 < nd then gnext s ctx else 0
  let s2 := setSeqField s1 q 0x38 63 54 g
  let s3 := if 0 < nd then
      sendService (setServWord s2 ctx 0x18 (setField (servWord s2 ctx 0x18) 9 0 (g % 1023 + 1))) ctx (.clear g)
    else s2
  let w0 := kind * 2 ^ 61 + q * 2 ^ 48 + t * 2 ^ 32 + l
  let w1 := g * 2 ^ 54 + nd * 2 ^ 48 + n * 2 ^ 32 + bnat (field (seqWord s q 0x50) 44 0 != 0) * 2 ^ 16
  { s := s3, used := b.used + t, plan := b.plan ++ [(w0, w1)] }

/-- The draft nodes at a tree level (1 to 8). -/
def levelNodes (s : State) (q lv : Nat) : Nat := seqWord s q 0x40 / 2 ^ (8 * (lv - 1)) % 256

/-- The deepest level with nodes; 0 when there is none. -/
def deepest (s : State) (q : Nat) : Nat :=
  ((List.range 8).reverse.map (· + 1)).find? (fun lv => levelNodes s q lv ≠ 0) |>.getD 0

/-- The nodes of levels 1 to lv. -/
def nodesTo (s : State) (q : Nat) : Nat → Nat
  | 0 => 0
  | lv + 1 => nodesTo s q lv + levelNodes s q (lv + 1)

/-- The bits of the nodes of a level, numbered in level order (R408). -/
def levelBits (s : State) (q lv : Nat) : Nat := (2 ^ levelNodes s q lv - 1) * 2 ^ nodesTo s q (lv - 1)

/-- The decode loop of R411 for one entry: the deepest levels are dropped until it fits, or it is paused. -/
def decodeLoop (budget : Nat) : Nat → Build → Nat → Build
  | 0, b, _ => b
  | fuel + 1, b, q =>
    let s := b.s
    let lv := deepest s q
    let nd := nodesTo s q lv
    let l := seqL s q
    let free := poolCount s (seqCtx s q)
    if b.used + (1 + nd) ≤ budget ∧ pagesFor s q (l + 1 + nd) ≤ free then takeSeq b q (1 + nd) nd 1
    else if lv = 0 then
      if free < pagesFor s q (l + 1) then { b with s := setSeqField s q 0 63 61 4 } else b
    else
      let s1 := cancelNodes s q (levelBits s q lv)
      decodeLoop budget fuel { b with s := setSeqField s1 q 0x40 (8 * lv - 1) (8 * (lv - 1)) 0 } q

/-- The sequences of a context in given states, by priority descending, then number ascending. -/
def seqsIn (s : State) (ctx : Nat) (ok : Nat → Bool) : List Nat :=
  let l := if s.seqs.isEmpty then [] else (List.range 8192).filter (fun q => seqCtx s q == ctx && ok (seqState s q))
  [3, 2, 1, 0].flatMap (fun p => l.filter (fun q => field (seqWord s q 0) 57 56 == p))

/-- The plan of a step (R411): the final build. -/
def buildStep (s : State) (ctx budget maxplan chunk : Nat) : Build :=
  let b1 := (seqsIn s ctx (· == 3)).foldl (fun b q =>
    if b.plan.length = maxplan then b else decodeLoop budget 9 b q) { s := s }
  (seqsIn b1.s ctx (fun st => st == 1 || st == 2)).foldl (fun b q =>
    if b.plan.length = maxplan ∨ b.used = budget then b
    else
      let s := b.s
      let l := seqL s q
      let t := min (min (seqPrompt s q - l) chunk)
        (min (budget - b.used) ((seqNpg s q + poolCount s ctx) * seqPgtok s q - l))
      if t = 0 then b
      else let b' := takeSeq b q t 0 2; { b' with s := setSeqField b'.s q 0 63 61 2 }) b1

/-! ### The token (R417) -/

def servPart (s : State) (ctx : Nat) : Nat := servWord s ctx 8
def tokenHeld (s : State) (ctx : Nat) : Bool := bitAt (servWord s ctx 0x10) 8
def tokenHolder (s : State) (ctx : Nat) : Nat := field (servWord s ctx 0x10) 5 0
def tokenStep (s : State) (ctx : Nat) : Nat := field (servWord s ctx 0x10) 63 32

def setToken (s : State) (ctx step holder : Nat) (held : Bool) : State :=
  setServWord s ctx 0x10 (step % 2 ^ 32 * 2 ^ 32 + bnat held * 2 ^ 8 + holder)

/-- The next participant after a core, in rotation. -/
def nextPart (part h : Nat) : Nat :=
  ((List.range 64).map (fun i => (h + 1 + i) % 64)).find? (fun i => bitAt part i) |>.getD h

/-- A write of PART (R417): the first nonzero PART names the holder; PART 0 ends the holding. -/
def writePart (s : State) (ctx v : Nat) : State :=
  let s1 := setServWord s ctx 8 v
  if v = 0 then setToken s1 ctx (tokenStep s ctx) (tokenHolder s ctx) false
  else if tokenHeld s ctx then s1
  else setToken s1 ctx 0 (trailingZeros 64 v) true

/-- The token moves (R417, R422). -/
def passToken (s : State) (ctx : Nat) (target : Option Nat) : State :=
  let part := servPart s ctx
  if part = 0 then setToken s ctx (tokenStep s ctx) (tokenHolder s ctx) false
  else
    match target with
    | some t => if bitAt part t then setToken s ctx (tokenStep s ctx + 1) t true else s
    | none => setToken s ctx (tokenStep s ctx + 1) (nextPart part (tokenHolder s ctx)) true

end Sys2Proof.Machine
end

