-- ==== Sys2Proof/Machine/Translate.lean ====
section
/-!
DEFINITION. Translation (R346-R352): the level-one and second-level TLBs with their replacement, requests that miss,
walks and their end, the fault buffer with its notices, parking, replay, refusal and the removal of entries.
-/
namespace Sys2Proof.Machine

/-! ### TLBs (R346) -/

def TlbEnt.covers (t : TlbEnt) (ctx va : Nat) : Bool :=
  t.ctx == ctx && t.vpn == (if t.big then va / 2 ^ 21 else va / 2 ^ 16)

/-- The entry moved to, or put at, the front. -/
def touchEnt (l : List TlbEnt) (t : TlbEnt) : List TlbEnt :=
  t :: l.filter (fun u => !(u.ctx == t.ctx && u.big == t.big && u.vpn == t.vpn))

/-- A level-one TLB of 32 entries, least recently used replaced. -/
def l1Fill (l : List TlbEnt) (t : TlbEnt) : List TlbEnt := (touchEnt l t).take 32

/-- Entries of one set of the second level, at most 8: those after the eighth are dropped. -/
def keepEight (key : TlbEnt → Bool) : Nat → List TlbEnt → List TlbEnt
  | _, [] => []
  | n, t :: l => if key t then (if n = 0 then keepEight key 0 l else t :: keepEight key (n - 1) l) else t :: keepEight key n l

/-- The second-level TLB: 8 ways in 512 sets, by v[24:16] or v[29:21]. -/
def l2Fill (l : List TlbEnt) (t : TlbEnt) : List TlbEnt :=
  keepEight (fun u => u.vpn % 512 == t.vpn % 512) 8 (touchEnt l t)

/-- The level-one TLB of a couch (R346, R209). -/
def l1Of (s : State) (couch : Nat) : List TlbEnt :=
  if couch < 4096 then (s.row couch).tlb
  else if couch < 8192 then (s.core ⟨.control, couch - 4096⟩).tlb
  else (s.core ⟨.gateway, couch - 8192⟩).tlb

def setL1 (s : State) (couch : Nat) (l : List TlbEnt) : State :=
  if couch < 4096 then s.modRow couch (fun r => { r with tlb := l })
  else if couch < 8192 then s.modCore ⟨.control, couch - 4096⟩ (fun k => { k with tlb := l })
  else s.modCore ⟨.gateway, couch - 8192⟩ (fun k => { k with tlb := l })

def State.dom (s : State) (d : Nat) : Domain := nth s.doms d {}
def State.setDom (s : State) (d : Nat) (x : Domain) : State := { s with doms := setAt s.doms d x }
def State.modDom (s : State) (d : Nat) (f : Domain → Domain) : State := s.setDom d (f (s.dom d))

/-- A lookup in both levels, with its effect on recency and its refill (R346). -/
def lookupTlb (s : State) (couch d ctx va : Nat) : Option (TlbEnt × State) :=
  match (l1Of s couch).find? (fun t => t.covers ctx va) with
  | some t => some (t, setL1 s couch (touchEnt (l1Of s couch) t))
  | none =>
    match (s.dom d).l2.find? (fun t => t.covers ctx va) with
    | some t =>
      some (t, setL1 (s.modDom d (fun x => { x with l2 := touchEnt x.l2 t })) couch (l1Fill (l1Of s couch) t))
    | none => none

/-! ### Requests -/

/-- What a translation gives: a physical place, a failure with its BULK subcode, or a wait. -/
inductive TRes where
  | ok (tier pa : Nat) (s : State)
  | fail (sub : Nat)
  | wait (s : State)
deriving Repr

def TReq.page (q : TReq) : Nat := q.va / 2 ^ 16

/-- The order in which a domain takes misses that reach it in one cycle: row x, then y (R429). -/
def couchOrder (couch : Nat) : Nat := if couch < 4096 then couch % 64 * 64 + couch / 64 else couch

/-- A request that misses waits for a walk, unless it waits or is parked already. A domain takes one miss from each couch
in a cycle, and those of one cycle in the order of their rows (R429). -/
def addReq (s : State) (d : Nat) (q : TReq) : State :=
  s.modDom d (fun x =>
    if x.wait.any (fun p => (p.who == q.who && p.va == q.va) || (p.couch == q.couch && p.since == s.cycle)) ||
      x.parks.any (fun p => p.1.who == q.who && p.1.va == q.va) then x
    else { x with wait := x.wait.filter (fun p => p.since != s.cycle) ++
                          sortBy (fun p => couchOrder p.couch) (x.wait.filter (fun p => p.since == s.cycle) ++ [{ q with since := s.cycle }]) })

/-- A request waits for a replay, or, once released by one, for its turn: each couch retries one request per cycle, in the
order in which they parked (R348, R429). -/
def retryHeld (s : State) (d couch : Nat) (q : TReq) : Bool :=
  let x := s.dom d
  x.parks.any (fun p => p.1.who == q.who) ||
    (x.retry.any (fun p => p.who == q.who) &&
      ((x.retry.find? (fun p => p.couch == couch)).any (fun p => p.who != q.who) || alookup couch x.tried == some (s.cycle + 1)))

/-- A released request is retried. -/
def retried (s : State) (d couch : Nat) (q : TReq) : State :=
  if (s.dom d).retry.any (fun p => p.who == q.who) then
    s.modDom d (fun x => { x with retry := x.retry.filter (fun p => p.who != q.who), tried := ainsert couch (s.cycle + 1) x.tried })
  else s

/-- Translate one address for an access (R345-R348). -/
def translate (s : State) (couch d : Nat) (q : TReq) : TRes :=
  if retryHeld s d couch q then .wait s
  else
    let s0 := retried s d couch q
    match lookupTlb s0 couch d q.ctx q.va with
    | some (t, s1) =>
      match accessFault s t q.va q.kind with
      | none => .ok t.tier (t.phys q.va) s1
      | some sub => .fail sub
    | none => .wait (addReq s0 d { q with couch := couch })

/-- After a translation: the address came through a 2 MiB mapping of the couch's level-one TLB. -/
def bigAt (s : State) (couch ctx va : Nat) : Bool := ((l1Of s couch).find? (fun t => t.covers ctx va)).any (·.big)

/-! ### Walks (R347, R430, R343, Table 17-4) -/

/-- A waiting walk starts when one of the domain's 8 walk slots is free: that of the oldest request whose page no walk
serves, once every miss of its cycle has been taken (R429, R430). -/
def startWalk (s : State) (d : Nat) : State :=
  let x := s.dom d
  match x.wait.find? (fun q => !x.walks.any (fun w => w.ctx == q.ctx && w.page == q.page)) with
  | some q =>
    if x.walks.length < 8 ∧ q.since < s.cycle then
      s.setDom d { x with walks := x.walks ++ [{ ctx := q.ctx, page := q.page, n := x.wseq }], wseq := x.wseq + 1 }
    else s
  | none => s

/-- Word 0 of a fault-buffer entry (R350). -/
def FEnt.word0 (e : FEnt) : Nat := e.kind + e.page * 2 ^ 16 + e.ctx * 2 ^ 50

/-- The notice of a new pending entry (R349): an enqueue of its word 0 to FBDEST, lost where the destination is
malformed, unmapped or beyond the recorded context's rights. -/
def faultNotice (s : State) (d : Nat) (e : FEnt) : State :=
  let x := s.dom d
  if x.fbdest = 0 then s
  else match destCheck s x.fbctx x.fbdest (fun l => l == 0) with
    | .error _ => s
    | .ok _ =>
      let m : Msg :=
        { src := none, ctx := x.fbctx, dest := x.fbdest, hdr := headerWord 0 0 1 true (destCh x.fbdest) 3 d,
          words := [e.word0], kind := .enq false }
      { s with net := s.net ++ [m] }

/-- A request parks on a page that is not present (Table 17-4). -/
def parkReq (s : State) (d : Nat) (q : TReq) : State :=
  let x := s.dom d
  let s0 : State := match q.who with
    | .core c => s.modCore c (fun k => { k with parked := true })
    | .job u => { s with jobs := s.jobs.map (fun (j : Job) => if j.uid == u then
        (match j.phase with | .running n => { j with phase := .parked n } | _ => j) else j) }
    | _ => s
  if x.fb.any (fun e => e.ctx == q.ctx && e.page == q.page) then
    s0.setDom d { x with
      fb := x.fb.map (fun e => if e.ctx == q.ctx && e.page == q.page then
        { e with count := e.count + 1, kind := natOr e.kind (2 ^ q.kind) } else e),
      parks := x.parks ++ [(q, false)] }
  else if x.fb.length < 8 then
    let e : FEnt := { ctx := q.ctx, page := q.page, kind := 2 ^ q.kind, job := q.job, cls := q.cls, core := q.core,
                      count := 1, stamp := s.cycle, seq := x.fseq }
    faultNotice (s0.setDom d { x with fb := x.fb ++ [e], fseq := (x.fseq + 1) % 2 ^ 16, parks := x.parks ++ [(q, false)] }) d e
  else s0.setDom d { x with drop := true, parks := x.parks ++ [(q, true)] }

/-- The requests waiting for a walk's page. -/
def waitersOf (x : Domain) (w : Walk) : List TReq := x.wait.filter (fun q => q.ctx == w.ctx && q.page == w.page)

/-- Walk i of a domain ends (R343): the state, and the requests that it fails with their subcode. A walk that finds
its page not present after a replay starts again (Table 17-4). Walks that end in one cycle end in the order of their
starts (R429). -/
def endWalk (s : State) (d i : Nat) : State × List (TReq × Nat) :=
  let x := s.dom d
  match x.walks[i]? with
  | none => (s, [])
  | some w =>
    if x.wend.1 = s.cycle + 1 ∧ w.n < x.wend.2 then (s, [])
    else
    let qs := waitersOf x w
    let x1 := { x with walks := dropAt x.walks i, wend := (s.cycle + 1, w.n), wait := x.wait.filter (fun q => !(q.ctx == w.ctx && q.page == w.page)) }
    match walk s w.ctx (w.page * 2 ^ 16) with
    | .mapped t =>
      let s1 := s.setDom d { x1 with l2 := l2Fill x1.l2 t }
      (qs.foldl (fun s q => setL1 s q.couch (l1Fill (l1Of s q.couch) t)) s1, [])
    | .absent =>
      if w.replayed then (s.setDom d { x with walks := setAt x.walks i { w with replayed := false } }, [])
      else (qs.foldl (fun s q => parkReq s d q) (s.setDom d x1), [])
    | .fail sub => (s.setDom d x1, qs.map (fun q => (q, sub)))

/-! ### Replay and refusal (R351) -/

/-- A core's request is no longer parked. -/
def unparkCore (s : State) (q : TReq) : State :=
  match q.who with
  | .core c => s.modCore c (fun k => { k with parked := false })
  | _ => s

/-- A parked job goes on from its chunk. -/
def unparkJob (s : State) (u : Nat) : State :=
  { s with jobs := s.jobs.map (fun j => if j.uid == u then
      (match j.phase with | .parked n => { j with phase := .running n } | _ => j) else j) }

/-- A replay of a domain: every parked request translates again, in the order of R429; the number of them (Table 17-5). -/
def replayDomain (s : State) (d : Nat) : State × Nat :=
  let x := s.dom d
  let s1 := s.setDom d { x with
    parks := [], retry := x.retry ++ x.parks.map (·.1), walks := x.walks.map (fun w => { w with replayed := true }),
    fb := (x.fb.filter (fun e => !e.taken)).map (fun e => { e with count := 0, kind := 0 }) }
  (x.parks.foldl (fun s p => match p.1.who with
    | .job u => unparkJob s u
    | _ => unparkCore s p.1) s1, x.parks.length)

/-- A refusal of a page in a domain: the state and the cancelled requests (Table 17-5). -/
def refusePage (s : State) (d ctx page : Nat) : State × List TReq :=
  let x := s.dom d
  let hit (q : TReq) : Bool := q.ctx == ctx && q.page == page
  let gone := x.parks.filter (fun p => hit p.1)
  let s1 := s.setDom d { x with parks := x.parks.filter (fun p => !hit p.1),
                                fb := x.fb.filter (fun e => !(e.ctx == ctx && e.page == page)) }
  (gone.foldl (fun s p => unparkCore s p.1) s1, gone.map (·.1))

/-- COUNT and KIND of a pending entry are those of the requests that are parked on it (R350). -/
def recount (parks : List (TReq × Bool)) (e : FEnt) : FEnt :=
  let on := parks.filter (fun p => !p.2 && p.1.ctx == e.ctx && p.1.page == e.page)
  if e.taken then e else { e with count := on.length, kind := on.foldl (fun n p => natOr n (2 ^ p.1.kind)) 0 }

/-- A domain without some requests, whether they wait, are parked or are to be retried (R367, R269). -/
def Domain.without (x : Domain) (gone : TReq → Bool) : Domain :=
  let parks := x.parks.filter (fun p => !gone p.1)
  { x with wait := x.wait.filter (fun q => !gone q), retry := x.retry.filter (fun q => !gone q), parks := parks
           fb := if parks.length = x.parks.length then x.fb else x.fb.map (recount parks) }

/-- Requests withdrawn, whoever waits or is parked for them (R367, R269). -/
def withdrawReqs (s : State) (who : Requester) : State :=
  { s with doms := s.doms.map (fun x => x.without (fun q => q.who == who)) }

/-! ### Entries removed (R357) -/

/-- Remove the selected entries from every TLB. -/
def dropEnts (s : State) (sel : TlbEnt → Bool) : State :=
  { s with
    doms := s.doms.map (fun x => { x with l2 := x.l2.filter (fun t => !sel t) })
    rows := s.rows.map (fun e => (e.1, { e.2 with tlb := e.2.tlb.filter (fun t => !sel t) }))
    cores := s.cores.map (fun e => (e.1, { e.2 with tlb := e.2.tlb.filter (fun t => !sel t) })) }

/-- The entries that a `tlbi` source selects (R357). -/
def tlbiSel (a : Nat) (t : TlbEnt) : Bool :=
  match field a 63 62 with
  | 0 => t.covers (field a 55 50) (field a 47 16 * 2 ^ 16)
  | 1 => t.ctx == field a 55 50
  | _ => true

/-- The status word of a domain (R349). -/
def domainStatus (x : Domain) : Nat :=
  bnat x.drop + (x.fb.filter (fun e => !e.taken)).length * 2 ^ 8 + (x.fb.filter (fun e => e.taken)).length * 2 ^ 16
    + min x.parks.length 65535 * 2 ^ 32

end Sys2Proof.Machine
end

