-- ==== Sys2Proof/Machine/Firings.lean ====
section
/-!
DEFINITION. Firings (R186-R193, R413): runnability and selection, the start of a firing, the message window, and the
close of a firing by `end` or by a handler's return; the beginning of an eviction (R365, R367) and the kill of a
launch (R272).
-/
namespace Sys2Proof.Machine

/-! ### Runnability (R186) -/

def Chan.words (e : Chan) : Nat := e.fill - e.skip

def Chan.runnable (e : Chan) : Bool :=
  e.bind == 1 && decide (1 ≤ e.ctl.rate) && decide (e.ctl.rate ≤ e.words) && e.ready && !e.hold && !e.mask

/-- The channel of highest priority, taken in rotation after LAST (R187). -/
def pickChannel (k : Core) : Option Nat :=
  let order := (List.range 32).map (fun i => (k.last + 1 + i) % 32)
  [3, 2, 1, 0].findSome? (fun p => order.find? (fun n => let e := nth k.chans n {}; e.runnable && e.ctl.prio == p))

/-- No firing, no handler, no eviction or restore, no coupling in progress: the core may select (R187, R444). -/
def Core.idleReady (k : Core) : Bool :=
  k.run == .idle && k.life == .active && k.tframe.isNone && k.lframe.isNone && k.pairReq != 3 &&
    k.pst != .checker && k.pst != .coupling

/-- The launch of a core has been killed: it takes no further firing (R272). -/
def launchKilled (s : State) (k : Core) : Bool :=
  match coreLaunch s k with
  | some l => l.killed || l.over
  | none => false

/-! ### FIFO arithmetic (R189) -/

/-- A channel after n of its message words are passed. -/
def Chan.advance (e : Chan) (n : Nat) : Chan :=
  if 0 < e.skip ∧ e.size - e.skip ≤ e.head + n then
    { e with head := e.head + n - (e.size - e.skip), fill := e.fill - (n + e.skip), skip := 0 }
  else { e with head := (e.head + n) % e.size, fill := e.fill - n }

/-- Header entries of a channel after n of its message words are passed (R189, step 1). -/
def popHeaders (ch : Nat) : List (Nat × Hdr) → Nat → List (Nat × Hdr)
  | [], _ => []
  | (c, h) :: l, n =>
    if c ≠ ch ∨ n = 0 then (c, h) :: popHeaders ch l n
    else
      let rest := hdrLen h.word - h.done
      if rest ≤ n then popHeaders ch l (n - rest) else (c, { h with done := h.done + n }) :: l

def consumeWords (k : Core) (ch n : Nat) : Core :=
  { k with chans := setAt k.chans ch ((nth k.chans ch {}).advance n), hdrs := popHeaders ch k.hdrs n }

/-! ### The message window (R190, R204) -/

/-- The first words of a channel's messages that lie in its span, oldest first: header and words done, with the index
in the span of its first word. -/
def spanMessages (ch rate : Nat) : List (Nat × Hdr) → Nat → List (Hdr × Nat)
  | [], _ => []
  | (c, h) :: l, pos =>
    if c ≠ ch then spanMessages ch rate l pos
    else if rate ≤ pos then []
    else (h, pos) :: spanMessages ch rate l (pos + (hdrLen h.word - h.done))

/-- The window written for a message. -/
def writeWindow (k : Core) (hdr pos done : Nat) : Core :=
  { k with ls := memWrite (memWrite (memWrite (memWrite k.ls (k.wp + 0x3C0) 8 hdr) (k.wp + 0x3C8) 8 (pos * 2 ^ 16 + done))
      (k.wp + 0x3D0) 8 0) (k.wp + 0x3D8) 8 0 }

/-! ### The start of a firing (R188, R57, R64, R132, R327) -/

/-- The words that hardware sets at every firing start, the prologue included. -/
def startWords (k : Core) (temper : Nat) : Core :=
  let w (m : Mem) (off v : Nat) : Mem := memWrite m (k.wp + off) 8 v
  { k with ls := w (w (w (w (w k.ls 0x390 0) 0x388 (2 ^ 64 - 1)) 0x3A0 k.firings) 0x3A8 0) 0x3B0 temper
           mask := 2 ^ 64 - 1, firings := k.firings + 1, bcMode := false, sbuf := [] }

/-- The temper word for a core's launch. -/
def coreTemper (s : State) (k : Core) : Nat :=
  match coreLaunch s k with
  | some l => startTemper s l
  | none => temperWord 0 0 0xFF 0

/-- A firing on channel ch starts on a core (R188). -/
def startFiring (k : Core) (ch temper : Nat) : Core :=
  let e := nth k.chans ch {}
  let k1 := { changeWp k (1024 * e.ctl.wpi) with run := .firing ch, last := ch, h3fifo := true }
  let k2 := { k1 with
    fifoWp := k1.wp
    sh := memWrite k1.sh 0x378 8 (e.base + e.size * 2 ^ 14 + e.head * 2 ^ 28 + e.words * 2 ^ 42) }
  let k3 := match spanMessages ch e.ctl.rate k2.hdrs 0 with
    | (h, pos) :: _ => writeWindow k2 h.word pos h.done
    | [] => writeWindow k2 0 0 0
  { startWords k3 temper with budget := 256 * e.ctl.budget, pc := e.ctl.entry }

/-- The prologue starts (R291): a firing with no span on the kernel's lowest-numbered channel's workspace. -/
def startPrologue (k : Core) (entry budget wpi temper : Nat) : Core :=
  let k1 := { changeWp k (1024 * wpi) with run := .prologue, h3fifo := false }
  let k2 := writeWindow { k1 with sh := memWrite k1.sh 0x378 8 0 } 0 0 0
  { startWords k2 temper with budget := 256 * budget, pc := entry }

/-- A message with a cancelled tag at the head of a channel is dropped at selection (R413). -/
def dropCancelled (k : Core) (ch : Nat) : Option Core :=
  match k.hdrs.find? (fun e => e.1 == ch) with
  | some (_, h) => if cancelled k.cancels h.word then some (consumeWords k ch (hdrLen h.word - h.done)) else none
  | none => none

/-- Selection on a core (R187): a cancelled message is dropped, or a firing starts. -/
def selectFiring (s : State) (c : CoreId) : State :=
  let k := s.core c
  if !k.idleReady || !k.bpend.isEmpty || launchKilled s k || s.health.stopped then s
  else match pickChannel k with
    | none => s
    | some ch =>
      match dropCancelled k ch with
      | some k' => s.setCore c k'
      | none =>
        if 1024 * (nth k.chans ch {}).ctl.wpi ≠ k.wp ∧ !k.pendDst.isEmpty then s     -- R235, R243
        else s.setCore c (startFiring k ch (coreTemper s k))

/-! ### The close of a firing (R189, R272, R291) -/

/-- How a firing ends: by `end`, or by a handler's `.abort` or `.drop`. -/
inductive CloseMode where
  | normal | abort | drop
deriving DecidableEq, Repr

/-- Channels that a pending binding unbinds. -/
def unboundNow (k : Core) : List Nat :=
  (List.range 32).filter (fun n => let e := nth k.chans n {}; e.bind == 2 && e.pend.rate == 0)

/-- Pending bindings take effect (R193). -/
def applyBindings (k : Core) : Core :=
  let gone := unboundNow k
  { k with
    chans := k.chans.map (fun e =>
      if e.bind = 2 then
        (if e.pend.rate = 0 then { ready := e.ready, hold := e.hold, mask := e.mask }
         else { e with ctl := e.pend, pend := {}, bind := 1 })
      else e)
    hdrs := k.hdrs.filter (fun h => !gone.contains h.1) }

/-- SGEN rises when an eviction run of a context begins: no other core of it is saving (R360). -/
def bumpSgen (s : State) (ctx : Nat) : State :=
  if s.placedCores.any (fun e => e.2.ctx == ctx && e.2.life == .saving) then s
  else { s with ctxs := memWrite s.ctxs (128 * ctx + 0x58) 8 ((ctxWord s ctx 0x58 + 1) % 2 ^ 64) }

/-- The core begins its eviction (R365, R367): it takes its request, and sequences of its launch are rolled back. -/
def beginEviction (s : State) (c : CoreId) : State :=
  let k := s.core c
  rollbackLaunch ((bumpSgen s k.ctx).setCore c { k with life := .saving, preReq := none }) k.ctx k.launch

/-- A handler runs on the core (R267). -/
def Core.inHandler (k : Core) : Bool := k.tframe.isSome || k.lframe.isSome

/-- Nothing runs on the core, so that it takes a request at once. -/
def takesNow (k : Core) : Bool := k.life == .active && k.run == .idle && !k.inHandler && k.pst != .coupling

/-- A pending request is taken where nothing runs on the core; a checker is at its boundary when its primary is (R365,
R442). -/
def takeIfIdle (s : State) (c : CoreId) : State :=
  let k := s.core c
  let p := s.core (coreAt (rowOf c) k.partner)
  if k.preReq.isSome && takesNow k && (k.pst != .checker || (p.run == .idle && !p.inHandler)) then beginEviction s c else s

/-- Waiting leave requests of a core withdrawn (R453). -/
def withdrawLeave (s : State) (c : CoreId) : State :=
  { s with islands := s.islands.map (fun i => { i with waits := i.waits.filter (fun w => w.1 != c) }) }

/-- A pair is uncoupled at the primary's retirement (R444): the checker's store and slice are zeroed and its channels
become unbound; its counts have advanced with the primary's (R442). -/
def uncouple (s : State) (c : CoreId) : State :=
  let p := coreAt (rowOf c) (s.core c).partner
  let o := s.core c
  let s1 := (discardLanding s p (fun _ => true)).modCore p (fun k => { k with
    ls := [], sh := [], acc := [], chans := List.replicate 32 {}, hdrs := [], landing := [], pst := .single, partner := 0, att := [],
    retired := true, midc := o.midc, jobc := o.jobc, kgc := o.kgc, gbarc := o.gbarc })
  s1.modCore c (fun k => { k with pst := .single, partner := 0, pairReq := 0 })

/-- Failed jobs whose firing has retired, and on which no instruction has trapped, become boundary traps (R220, R264). -/
def surfaceClosed (k : Core) : Core :=
  let due := k.jobs.reverse.filterMap (fun e => match e.2 with
    | .failed t false _ fi => if fi = k.firings then some t else none
    | _ => none)
  { k with
    bpend := k.bpend ++ due
    jobs := k.jobs.map (fun e => match e.2 with
      | .failed t false tl fi => if fi = k.firings then (e.1, .failed t true tl fi) else e
      | _ => e) }

/-- A firing, or the prologue, closes on a core (R189 with the changes of R272 and R291); every frame is given up. -/
def closeFiring (s : State) (c : CoreId) (m : CloseMode) : State :=
  let k := s.core c
  -- step 1: the span is consumed
  let k1 := match k.run, m with
    | .firing ch, .normal => consumeWords k ch (nth k.chans ch {}).ctl.rate
    | .firing ch, .drop => consumeWords k ch (nth k.chans ch {}).ctl.rate
    | _, _ => k
  -- step 2: buffered messages are released
  let k2 := match m with
    | .normal => { k1 with sout := k1.sout ++ k1.sbuf, ctm := k1.ctm + k1.sbuf.length }
    | _ => k1
  -- step 3: pending bindings
  let k3 := surfaceClosed (applyBindings k2)
  -- step 5: the core is idle; grants lapse (R178)
  let k4 := { k3 with
    run := .idle, sbuf := [], h3fifo := false, tframe := none, lframe := none, budget := 0, hbudget := 0,
    bcMode := false, grants := 0, lreq := 0, lgot := none, kreq := none, sleeping := false, gbarIn := none, gbarOut := none, cwait := false, vpend := false,
    drainp := none, tlbw := none, retired := k3.retired || (match k.run with | .firing _ => true | _ => false),
    pairRuns := match m with | .normal => 0 | _ => k3.pairRuns
    pairReq := if k3.pairReq = 1 then (if k.preReq.isSome then 4 else 3) else k3.pairReq }
  let gone := unboundNow k2
  let s0 := withdrawLeave (discardLanding (s.setCore c k4) c (fun m => gone.contains (destCh m.dest))) c
  let s1 := if k.pairReq = 2 then uncouple s0 c else s0
  -- step 4: a pending pre-emption request is taken, and that of a checker in lockstep
  let s2 := if k.preReq.isSome then beginEviction s1 c else s1
  if k.pst == .primary then takeIfIdle s2 (coreAt (rowOf c) k.partner) else s2

/-- A head gives up its reservation, and its skip count returns to 0 (R290); the next is granted in a round (R424). -/
def endReserve (s : State) (ctx id : Nat) : State :=
  let held : Bool := s.reserve == some (ctx, id)
  let wait := s.resWait.filter (fun h => h != (ctx, id))
  { s with
    resWait := wait
    reserve := if held then none else s.reserve
    resCores := if held then [] else s.resCores
    launches := s.launches.map (fun l => if held && l.ctx == ctx && l.id == id then { l with skips := 0 } else l) }

/-- The cores held for a head that pre-empted are given up (R364). -/
def dropHolds (s : State) (ctx id : Nat) : State := { s with preHold := s.preHold.filter (fun h => h.2 != (ctx, id)) }

/-- A kernel is stopped as `.kill` does (R272): no further firings, and the error bit at completion; its reservation and the
cores held for it go (R290). -/
def killLaunch (s : State) (ctx id : Nat) : State :=
  dropHolds (endReserve (modLaunch s ctx id (fun l => if l.over then l else { l with killed := true })) ctx id) ctx id

end Sys2Proof.Machine
end

