-- ==== Sys2Proof/Machine/Code.lean ====
section
/-!
DEFINITION. Code (R125, R278, R281): the code object a core fetches from, the sections and their padding, the targets
of control transfers, and the fetch of an instruction's words through translation, waiting for the code stream.
-/
namespace Sys2Proof.Machine

/-- What a fetch or a device access gives: a value, a trap, or a wait. -/
inductive Got (α : Type) where
  | ok (v : α) (s : State)
  | trap (t : Trap)
  | wait (s : State)
deriving Repr

/-- Whether a launch of the context with this object has a kernel placed on the core's row, or on the core (R266). -/
def residentLaunch (s : State) (c : CoreId) (ctx obj : Nat) : Option Launch :=
  let near := s.placedCores.filter (fun e => e.2.ctx == ctx && e.1.cls == c.cls && couchOf e.1 == couchOf c)
  (near.findSome? (fun e => match findLaunch s ctx e.2.launch with
    | some l => if launchObj l = obj then some l else none
    | none => none))

/-- The launch whose code object the core runs: in a handler the resident object TOBJ (R266), else its own. -/
def codeLaunch (s : State) (c : CoreId) (k : Core) : Option Launch :=
  if k.inHandler then residentLaunch s c k.ctx (field k.tcfg 63 32) else findLaunch s k.ctx k.launch

/-- Code offsets of the object's sections: text, const, and the object offset of the code image (Table 14-1). -/
def textOff (l : Launch) : Nat := field (nth l.hdr 2 0) 63 32
def constOff (l : Launch) : Nat := field (nth l.hdr 3 0) 31 0
def codeAddr (l : Launch) (o : Nat) : Nat := launchCbase l + field (nth l.hdr 4 0) 31 0 + o

/-- The end of the section, prologue or text, in which an offset lies (R125); none outside both. -/
def sectionEnd (l : Launch) (o : Nat) : Option Nat :=
  if o < textOff l then some (textOff l) else if o < constOff l then some (constOff l) else none

/-- Bytes of the object that have landed (R278). -/
def streamed (s : State) (l : Launch) : Nat := field ((svcWord s l.ctx (launchCbase l + 8) 8).getD 0) 31 0

/-- Whether the word at an offset has landed (R281). -/
def landedCode (s : State) (l : Launch) (o : Nat) : Bool := field (nth l.hdr 4 0) 31 0 + o + 4 ≤ streamed s l

/-- The number of zero words that end at an offset, at most n. -/
def zeroTail (s : State) (l : Launch) (stop : Nat) : Nat → Nat
  | 0 => 0
  | n + 1 =>
    let m := zeroTail s l stop n
    if m = n ∧ (svcWord s l.ctx (codeAddr l (stop - 4 * (n + 1))) 4).getD 0 = 0 then n + 1 else m

/-- The words of zero padding after a section's last statement (R39, R125). The object does not say how many of the zero
words at the section's end are padding and how many are statements: a free value (log 10). -/
def padWords (s : State) (l : Launch) (stop : Nat) : Nat :=
  (Config.freeValue (2 ^ 80 + l.ctx * 2 ^ 64 + codeAddr l stop)).toNat % (zeroTail s l stop 15 + 1)

/-- Whether an offset lies in the padding before a section's end. -/
def isPadding (s : State) (l : Launch) (o stop : Nat) : Bool := o + 64 > stop && decide (stop ≤ o + 4 * padWords s l stop)

/-- Whether the section's end decides about an offset and has not landed. -/
def tailLate (s : State) (l : Launch) (o stop : Nat) : Bool := o + 64 > stop && !landedCode s l (stop - 4)

/-- The check of a target of a control transfer, before any effect (R125): a trap, or a wait for the code stream where the
target stands so near to its section's end that only the stream tells whether it is padding. -/
def checkTarget (s : State) (c : CoreId) (o : Nat) : Except (Option Trap) Unit :=
  let bad : Except (Option Trap) Unit := .error (some { cause := .fabric, addr := o })
  if o % 4 ≠ 0 then .error (some { cause := .align, addr := o })
  else match codeLaunch s c (s.core c) with
    | none => bad
    | some l => match sectionEnd l o with
      | none => bad
      | some stop => if tailLate s l o stop then .error none else if isPadding s l o stop then bad else .ok ()

/-- The request of a core for a translation. -/
def coreReq (c : CoreId) (k : Core) (va kind : Nat) : TReq :=
  { ctx := k.ctx, va := va, kind := kind, who := .core c, cls := classCode c.cls, core := coreNumber c k }

/-- Translate for a core's own instruction: a result recorded for a cancelled request traps, a parked one waits
(R348, R351). -/
def coreTranslate (s : State) (c : CoreId) (va kind : Nat) : Got (Nat × Nat) :=
  let k := s.core c
  if k.tres.any (fun e => e.1 == va) then .trap { cause := .bulk, sub := (k.tres.getD (0, 0)).2, addr := va }
  else if k.parked then .wait s
  else
    match translate s (couchOf c) (domainOf c) (coreReq c k va kind) with
      | .ok t pa s1 => .ok (t, pa) s1
      | .fail sub => .trap { cause := .bulk, sub := sub, addr := va }
      | .wait s1 => .wait s1

/-! ### The row's instruction cache (R281) -/

/-- The n bytes at an address of a context's bulk space, where a line of the row's cache holds them. -/
def codeHit (s : State) (c : CoreId) (ctx va n : Nat) : Option Nat :=
  if c.cls == .compute then
    ((s.row (rowOf c)).code.find? (fun e => e.ctx == ctx && e.line == va / 256 && decide (va % 256 + n ≤ e.upto))).map (fun e =>
      memRead e.data (va % 256) n)
  else none

/-- A line put into the cache, of four ways in 32 sets: any line of a full set leaves it (log 6). -/
def fillCode (free : Nat) (l : List CodeLine) (e : CodeLine) : List CodeLine :=
  let rest := l.filter (fun x => !(x.ctx == e.ctx && x.line == e.line))
  match (rest.filter (fun x => x.line % 32 == e.line % 32)), (rest.filter (fun x => x.line % 32 == e.line % 32))[free % 4]? with
  | _ :: _ :: _ :: _ :: _, some v => e :: rest.filter (· != v)
  | _, _ => e :: rest

/-- The cache filled with the line over an address, whose byte stands at `pa`, as far as the object has landed. -/
def fillLine (s : State) (c : CoreId) (l : Launch) (va t pa : Nat) : State :=
  if c.cls == .compute then
    let base := pa - va % 256
    let e : CodeLine :=
      { ctx := l.ctx, line := va / 256, upto := min 256 (launchCbase l + streamed s l - va / 256 * 256)
        data := memShiftDown (memSlice (s.tier t) base (base + 256)) base }
    (s.tick.2).modRow (rowOf c) (fun r => { r with code := fillCode (Config.freeValue s.fresh).toNat r.code e })
  else s

/-- n bytes of a launch's code object at an address of its bulk space, through the row's instruction cache; a control or
gateway core, which has no row, reads the object each time (log 6). The read waits until the bytes have landed. -/
def readCode (s : State) (c : CoreId) (l : Launch) (va n : Nat) : Got Nat :=
  match codeHit s c l.ctx va n with
  | some w => .ok w s
  | none =>
    if launchCbase l + streamed s l < va + n then .wait s
    else match coreTranslate s c va 3 with
      | .ok (t, pa) s1 => .ok (memRead (s.tier t) pa n) (fillLine s1 c l va t pa)
      | .trap t => .trap t
      | .wait s1 => .wait s1

/-- The words at code offsets from o. -/
def fetchWords (s : State) (c : CoreId) (l : Launch) (o : Nat) : Nat → Got (List Nat)
  | 0 => .ok [] s
  | n + 1 =>
    match readCode s c l (codeAddr l o) 4 with
    | .ok w s1 =>
      match fetchWords s1 c l (o + 4) n with
      | .ok ws s2 => .ok (w :: ws) s2
      | .trap t => .trap t
      | .wait s2 => .wait s2
    | .trap t => .trap t
    | .wait s1 => .wait s1

/-- The instruction word at PC and its extension words (R86, R95, R125, R281). -/
def fetchInstr (s : State) (c : CoreId) : Got (List Nat) :=
  let k := s.core c
  match codeLaunch s c k with
  | none => .trap { cause := .fabric, addr := k.pc }
  | some l =>
    match sectionEnd l k.pc with
    | none => .trap { cause := .fabric, addr := k.pc }
    | some stop =>
      match fetchWords s c l k.pc 1 with
      | .ok ws s1 =>
        let w := nth ws 0 0
        if w = 0 ∧ tailLate s1 l k.pc stop then .wait s1
        else if w = 0 ∧ isPadding s1 l k.pc stop then .trap { cause := .fabric, addr := k.pc }
        else match fetchWords s1 c l (k.pc + 4) (extCount (w / 2 ^ 24)) with
          | .ok es s2 => .ok (w :: es) s2
          | .trap t => .trap t
          | .wait s2 => .wait s2
      | .trap t => .trap t
      | .wait s1 => .wait s1

end Sys2Proof.Machine
end

