-- ==== Sys2Proof/WellFormed.lean ====
section
/-!
DEFINITION. Well-formed instructions: the checks of Table 4-15 (R99, R100) on an instruction as syntax. `Instr.check`
gives the UNDEF subcode of the first check that fails on a core class, in the table's order; a well-formed
instruction passes them all.
-/
namespace Sys2Proof

/-- The classes that accept an instruction (R99, R15, R22); a bytecode runs on control cores, an event on none. -/
def instrAccepted (cls : CoreClass) : Instr → Bool
  | .kctx _ | .kring _ _ | .kslip _ _ | .kmm _ _ _ _ _ | .kmmG _ _ _ _ _ | .kst _ _ _ | .kclr _ | .kadv _ _ | .kwait
  | .kleave _ _ | .kstat _ _ | .pair _ _ => cls == .compute
  | .gqGet _ | .baddRq _ _ => cls == .gateway
  | .tlbi _ | .fbpop _ _ | .replay _ _ | .bld _ _ _ | .bst _ _ _ | .icw _ _ | .ici _ | .icr _ _ | .sqRd _ _ | .sqWr _ _
  | .sqBuild _ _ | .ltokWait _ | .ltokPass _ | .dkRun _ _ | .dkWait _ _ => cls == .control
  | _ => true

/-- Subcode 0x01: the markers of a shape record, and fields that a kind of copy does not use (R35, R223). -/
def instrReserved : Instr → Bool
  | .kctx r | .kring _ r | .kslip _ r | .kmm _ _ _ _ r | .kmmG _ _ _ _ r | .kst _ _ r | .kclr r | .cpys _ _ _ _ r => r.ok
  | .cpy q t k _ _ r => (k.toNat != 0 || q.val == 0) && (k.toNat != 1 || t.val == 0) &&
      (k.toNat != 2 || (q.val == 0 && t.val == 0)) && r.ok
  | _ => true

def relOnly (o : Order) : Bool := o == .rlx || o == .rel
def baseOnly (f : Fmt) : Bool := fmtCode f < 0x10

/-- Subcode 0x03: types, formats, orders and the other values that an instruction accepts. -/
def instrValues : Instr → Bool
  | .ldt _ f _ _ _ _ | .stt _ f _ _ _ _ => baseOnly f && f != .e2m1
  | .vabs t _ _ | .vneg t _ _ | .vsel t _ _ _ | .vand t _ _ _ | .vor t _ _ _ | .vxor t _ _ _ | .vnot t _ _
  | .vperm t _ _ _ | .vbcast t _ _ | .vins t _ _ _ | .vext t _ _ _ | .vkey t _ _ _ | .vhist t _ _ _ | .vcompress t _ _
  | .vcount t _ _ _ | .vld t _ _ _ | .vst t _ _ _ | .vldx t _ _ _ | .vstx t _ _ _ => t != .tmpr
  | .vcmp c t _ _ _ => t != .tmpr && condCode c < 6
  | .cmp c _ _ _ _ => condCode c < 10
  | .vshl t _ _ _ | .vshr t _ _ _ | .vsar t _ _ _ => t.isInt
  | .vcvt f g _ _ _ => baseOnly f && baseOnly g
  | .vrcp t _ _ | .vrsq t _ _ | .vexp2 t _ _ | .vlog2 t _ _ => t.isFloat
  | .vaddRnd t _ _ _ _ | .vsubRnd t _ _ _ _ | .vmulRnd t _ _ _ _ | .vfmaRnd t _ _ _ _ | .vfmsRnd t _ _ _ _ => t.isFloat
  | .vrcpRnd t _ _ _ | .vrsqRnd t _ _ _ | .vexp2Rnd t _ _ _ | .vlog2Rnd t _ _ _ | .vrsumRnd t _ _ _ => t.isFloat
  | .fst _ f o _ _ v _ => relOnly o && (!v || f == .z64)
  | .fld _ f o _ _ v _ => (o == .rlx || o == .acq) && (!v || f == .z64)
  | .amo _ _ f _ _ _ _ => f == .z32 || f == .z64 || f == .s32 || f == .s64
  | .send _ o _ _ | .sendm _ o _ _ | .enq _ o _ _ _ => relOnly o
  | _ => true

def ok3 (d a b : Spec) : Bool := okDst d && okSrc false a && okSrc false b
def ok2 (d a : Spec) : Bool := okDst d && okSrc false a
def okS2 (a b : Spec) : Bool := okSrc false a && okSrc false b
def okV3 (t : VType) (d a b : Spec) : Bool := okVDst d && okVSrc t.isFloat a && okVSrc t.isFloat b
def okVR3 (t : VType) (d a b : Spec) : Bool := okVRw d && okVSrc t.isFloat a && okVSrc t.isFloat b
def okV2 (t : VType) (d a : Spec) : Bool := okVDst d && okVSrc t.isFloat a
def okVS2 (t : VType) (d a : Spec) : Bool := okDst d && okVSrc t.isFloat a

/-- Subcode 0x02: the operand specifiers that each position accepts (R81, R134). -/
def instrSpecs : Instr → Bool
  | .add _ d a b | .sub _ d a b | .mul _ d a b | .mulh _ d a b | .div _ d a b | .rem _ d a b | .and _ d a b | .or _ d a b
  | .xor _ d a b | .andn _ d a b | .shl _ d a b | .shr _ d a b | .sar _ d a b | .rot _ d a b | .min _ d a b
  | .max _ d a b | .sel _ d a b | .bext _ d a b | .cmp _ _ d a b | .ld _ d a b | .ldt _ _ _ d a b => ok3 d a b
  | .bins _ d a b => okRw d && okS2 a b
  | .abs _ d a | .neg _ d a | .clz _ d a | .ctz _ d a | .popc _ d a | .mov _ d a => ok2 d a
  | .lea d a b => okDst d && okLea a && okSrc false b
  | .pset _ a b | .mset _ a b | .hbind _ a b => okS2 a b
  | .hadvC _ a | .hadvP _ a => okSrc false a
  | .hstat d _ => okDst d
  | .st _ d a b | .stt _ _ _ d a b => okSrc false d && okS2 a b
  | .vadd t d a b | .vsub t d a b | .vmul t d a b | .vmin t d a b | .vmax t d a b | .vsel t d a b | .vand t d a b
  | .vor t d a b | .vxor t d a b | .vshl t d a b | .vshr t d a b | .vsar t d a b | .vaddRnd t _ d a b
  | .vsubRnd t _ d a b | .vmulRnd t _ d a b => okV3 t d a b
  | .vfma t d a b | .vfms t d a b | .vfmaRnd t _ d a b | .vfmsRnd t _ d a b => okVR3 t d a b
  | .vabs t d a | .vneg t d a | .vnot t d a | .vrcp t d a | .vrsq t d a | .vexp2 t d a | .vlog2 t d a
  | .vcompress t d a | .vrcpRnd t _ d a | .vrsqRnd t _ d a | .vexp2Rnd t _ d a | .vlog2Rnd t _ d a => okV2 t d a
  | .vcvt _ g _ d a => okVDst d && okVSrc (!g.isInt) a
  | .vrsum t d a | .vrmax t d a | .vrmin t d a | .vrsumRnd t _ d a => okVS2 t d a
  | .vperm t d a b => okVDst d && okVSrc t.isFloat a && okVSrc false b
  | .vbcast t d a => okVDst d && okSrc t.isFloat a
  | .vins t d a b => okVRw d && okSrc t.isFloat a && okSrc false b
  | .vext t d a b => okDst d && okVSrc t.isFloat a && okSrc false b
  | .vkey t d a b => okVDst d && okVSrc t.isFloat a && okSrc false b
  | .vhist t d a b => Pos.ok t.isFloat d .ptrOnly && okVSrc t.isFloat a && okSrc false b
  | .vcount t d a b => okDst d && okVSrc t.isFloat a && okSrc t.isFloat b
  | .vld _ d a b => okVDst d && okS2 a b
  | .vst t d a b => okVSrc t.isFloat d && okS2 a b
  | .vldx _ d a b => okVDst d && okSrc false a && okVSrc false b
  | .vstx t d a b => okVSrc t.isFloat d && okSrc false a && okVSrc false b
  | .vcmp _ t d a b => okDst d && okVSrc t.isFloat a && okVSrc t.isFloat b
  | .movi _ d _ | .li _ d _ => okDst d
  | .addi _ d _ => okRw d
  | .fst _ _ _ d a v _ => (if v then okVSrc false d else okSrc false d) && okSrc false a
  | .fld _ _ _ d a v _ => okFld v d && okSrc false a
  | .amo _ _ _ _ d a p => okAmo p d && okSrc false a
  | .send _ _ d a | .sendm _ _ d a | .enq _ _ d a _ => okS2 d a
  | .jx a | .wpset a | .jwait a | .tdef _ a | .tarm _ a | .twait _ a | .kadv _ a | .sgdet a | .tmprAch a | .ttbi a
  | .tlbi a | .ici a | .ltokPass a | .srw _ a => okSrc false a
  | .sflag d a | .wdog d a | .srr d a | .pair d a | .chstat d a | .jpoll d a | .kleave d a | .kstat d a | .launch d a
  | .lwait d a | .lstat d a | .sgnew d a | .sgatt d a | .sgevict d a | .sgstat d a | .tmprGet d a | .tmprPick d a
  | .tmprDem d a | .tmprRe d a | .ttbp d a | .fbpop d a | .replay d a | .bld _ d a | .icr d a | .sqRd d a | .sqWr d a
  | .sqBuild d a | .dkRun d a | .dkWait d a => ok2 d a
  | .chbind a b | .chhold a b | .chrdy a b | .chmask a b | .baddRq a b | .sgrel a b | .sgpin a b | .ttbw a b
  | .bst _ a b | .icw a b => okS2 a b
  | .rdcyc d | .mnext d | .gbar d | .gqGet d | .dwait d | .ltokWait d | .ttest d _ => okDst d
  | _ => true

/-- The UNDEF subcode of the first check that fails on a core class (Table 4-15), none where all pass. -/
def Instr.check (cls : CoreClass) (i : Instr) : Option Nat :=
  if !instrAccepted cls i then some (classSub cls)
  else if !instrReserved i then some 0x01
  else if !instrValues i then some 0x03
  else if !instrSpecs i then some 0x02
  else none

/-- A well-formed instruction of a core class. -/
def Instr.wf (cls : CoreClass) (i : Instr) : Bool := i.check cls == none

/-- The Sprinix bytecodes (Table 19-4). -/
def Instr.isBytecode (i : Instr) : Bool := !(encodeBytecode i).isEmpty

/-- The native instructions: those with an encoding. -/
def Instr.isNative (i : Instr) : Bool := !(encode i).isEmpty

end Sys2Proof
end

