-- ==== Sys2Proof/Machine/Ops.lean ====
section
/-!
DEFINITION. The shared operations of instructions: the fault record and taking a trap (R263-R271), the end of a context
on a core (R269), leaving a handler (R272), budgets (R103, R268), and the frame around every instruction: its checks,
its waits, its program counter and its cost.
-/
namespace Sys2Proof.Machine

/-! ### Results of device-level meanings -/

/-- Why an instruction does not complete: a trap, a trap at which a service has already changed the state (R309), or a
wait, with the state in which its requests are registered. -/
inductive Halt where
  | trap (t : Trap)
  | trapAt (t : Trap) (s : State)
  | wait (s : State)
deriving Repr

abbrev Dev (α : Type) := Except Halt α

/-- A core-level result in a device-level meaning: a wait keeps the state. -/
def ofCore {α : Type} (s : State) : Except Stop α → Dev α
  | .ok v => .ok v
  | .error (.trap t) => .error (.trap t)
  | .error .wait => .error (.wait s)

def Got.dev {α : Type} : Got α → Dev (α × State)
  | .ok v s => .ok (v, s)
  | .trap t => .error (.trap t)
  | .wait s => .error (.wait s)

def trapD {α : Type} (cause : Cause) (sub : Nat := 0) (addr : Nat := 0) : Dev α := .error (.trap { cause, sub, addr })
def needD (b : Bool) (cause : Cause) (sub : Nat := 0) (addr : Nat := 0) : Dev Unit :=
  if b then .ok () else trapD cause sub addr
def untilD (b : Bool) (s : State) : Dev Unit := if b then .ok () else .error (.wait s)

/-- A check's cause and subcode as a trap. -/
def checkD (addr : Nat) : Except (Cause × Nat) Unit → Dev Unit
  | .ok _ => .ok ()
  | .error e => trapD e.1 e.2 addr

/-- A core-level meaning as a device-level one. -/
def coreOp (g : Core → Except Stop Core) (c : CoreId) (s : State) : Dev State := do
  let k ← ofCore s (g (s.core c))
  .ok (s.setCore c k)

/-- A source read as z64 (R102). -/
def srcZ (s : State) (c : CoreId) (a : Spec) : Dev (Nat × State) := do
  let (v, k) ← ofCore s (readZ (s.core c) a)
  .ok (v, s.setCore c k)

/-- A destination written with a 64-bit word. -/
def dstZ (s : State) (c : CoreId) (d : Spec) (v : Nat) : Dev State := do
  let k ← ofCore s (writeDst (s.core c) .z64 d v)
  .ok (s.setCore c k)

/-- A source and a destination around an effect: the destination is checked before the effect and written after. -/
def opDA (d a : Spec) (f : Nat → CoreId → State → Dev (Nat × State)) (c : CoreId) (s : State) : Dev State := do
  let (v, s1) ← srcZ s c a
  let _ ← dstZ s1 c d 0
  let (r, s2) ← f v c s1
  dstZ s2 c d r

/-- A destination alone. -/
def opD (d : Spec) (f : CoreId → State → Dev (Nat × State)) (c : CoreId) (s : State) : Dev State := do
  let _ ← dstZ s c d 0
  let (r, s2) ← f c s
  dstZ s2 c d r

/-- One source. -/
def opA (a : Spec) (f : Nat → CoreId → State → Dev State) (c : CoreId) (s : State) : Dev State := do
  let (v, s1) ← srcZ s c a
  f v c s1

/-- Two sources. -/
def opAB (a b : Spec) (f : Nat → Nat → CoreId → State → Dev State) (c : CoreId) (s : State) : Dev State := do
  let (v, s1) ← srcZ s c a
  let (w, s2) ← srcZ s1 c b
  f v w c s2

/-- A record of n bytes at a local address, range before alignment (R83). -/
def localRecord (c : CoreId) (s : State) (a n align : Nat) : Dev (List Byte) := do
  let k := s.core c
  needD (a + n ≤ topOf c.cls) .fabric 0 a
  needD (a % align == 0) .align 0 a
  untilD (!unreadyAt k a n) s
  .ok (localBytes k a n)

/-! ### Budgets (R103, R268) -/

/-- The handler budget counts: in the trap handler, or in a local handler on an idle core. -/
def Core.onHandlerBudget (k : Core) : Bool := k.tframe.isSome || (k.lframe.isSome && k.run == .idle)

def Core.cyclesLeft (k : Core) : Nat := if k.onHandlerBudget then k.hbudget else k.budget

def Core.setCycles (k : Core) (n : Nat) : Core := if k.onHandlerBudget then { k with hbudget := n } else { k with budget := n }

/-- The instruction that waits has been served and only completes: a `gbar` that has been released (R244), a `kleave`
that has its grants (R453). Neither a budget that runs out nor a boundary trap comes before it. -/
def Core.served (k : Core) : Bool := k.gbarOut.isSome || k.lgot.isSome

/-- Cycles taken from the budget in force. R103 counts every cycle that an instruction spends and does not say what
becomes of one that spends more than are left; it completes, and BUDGET comes at the next (log 88, DESIGN CHOICE). -/
def Core.charge (k : Core) (n : Nat) : Core := k.setCycles (k.cyclesLeft - n)

/-- Control-core cycles taken from the budget: three make a cycle (R4; log 89). -/
def Core.chargeControl (k : Core) (n : Nat) : Core :=
  { k.charge ((k.ccyc + n) / 3) with ccyc := (k.ccyc + n) % 3 }

/-- The results of multiplies that cannot be read n cycles after the last instruction's end (R103). -/
def Core.agedLate (k : Core) (n : Nat) : List (Nat × Nat × Nat) :=
  (k.late.map (fun p => (p.1, p.2.1, p.2.2 - (k.owed + n)))).filter (fun p => decide (0 < p.2.2))

/-- A bytecode of n control-core cycles after some stall cycles (R400). -/
def Core.front (k : Core) (n stall : Nat) : Core :=
  { (k.charge stall).chargeControl n with late := k.agedLate (stall + (k.ccyc + n) / 3), owed := 0 }

/-- A core issues an instruction of a cost after some stall cycles. -/
def Core.issue (k : Core) (cost stall : Nat) : Core :=
  { k.charge (cost + stall) with late := k.agedLate (1 + stall), owed := cost - 1 }

/-! ### Fault records (R265, R270) -/

/-- Cause codes (Table 12-1). -/
def causeCode : Cause → Nat
  | .undef => 0x01 | .combo => 0x02 | .priv => 0x03 | .align => 0x04 | .fabric => 0x05 | .bulk => 0x06 | .tile => 0x07
  | .budget => 0x08 | .arith => 0x09 | .gangfmt => 0x0A | .delivery => 0x0B | .attach => 0x0C | .ttb => 0x0D
  | .pair => 0x0E | .save => 0x0F | .brk => 0x10 | .trap => 0x11 | .hwfault => 0x12

/-- The MID of the first message of a channel's span. -/
def firstMid (k : Core) (ch : Nat) : Nat :=
  match k.hdrs.find? (fun e => e.1 == ch) with
  | some (_, h) => hdrMid h.word
  | none => 0

/-- The object id and offset of a core's program counter: the function record's and BPC + 2^31 in bytecode mode
(R386). -/
def pcPlace (s : State) (c : CoreId) (k : Core) : Nat × Nat :=
  if k.bcMode then
    (field ((svcWord s k.ctx (wReg k 17) 8).getD 0) 63 32, wReg k 16 % 2 ^ 31 + 2 ^ 31)
  else ((codeLaunch s c k).elim 0 launchObj, k.pc)

/-- The first four bytes of the bytecode at BPC, bytes past its end and unreadable ones as 0 (R381, R386). -/
def pendingBytecode (s : State) (k : Core) : Nat :=
  let b (i : Nat) : Nat := (svcWord s k.ctx (wReg k 17 + 0x40 + wReg k 16 + i) 1).getD 0
  let n := (bcLength (b 0)).getD 1
  ofBytes ((List.range 4).map (fun i => BitVec.ofNat 8 (if i < n then b i else 0)))

/-- The words of the instruction at PC that a record shows for an instruction that has not issued: its word, its first
extension word and its length (R264, R270). -/
def pendingInstr (s : State) (c : CoreId) : Nat × Nat × Nat :=
  let k := s.core c
  if k.run == .idle && !k.inHandler then (0, 0, 4)
  else if k.bcMode then (pendingBytecode s k, 0, 4)
  else match codeLaunch s c k with
    | none => (0, 0, 4)
    | some l =>
      let w := (svcWord s l.ctx (codeAddr l k.pc) 4).getD 0
      let n := extCount (w / 2 ^ 24)
      (w, if n = 0 then 0 else (svcWord s l.ctx (codeAddr l (k.pc + 4)) 4).getD 0, 4 + 4 * n)

/-- The flags of a record. -/
structure RecFlags where
  noh : Bool := false
  nest : Bool := false
  idle : Bool := false
  isLocal : Bool := false

/-- The eight words of a fault record (R270). -/
def faultRecord (s : State) (c : CoreId) (t : Trap) (fl : RecFlags) (insn ext seq : Nat) : List Nat :=
  let k := s.core c
  let (ch, mid) := match t.chmid with
    | some p => p
    | none => match k.run with
      | .firing n => (n, firstMid k n)
      | _ => (0, 0)
  let (obj, off) := pcPlace s c k
  [ mid + bnat fl.isLocal * 2 ^ 20 + bnat t.async * 2 ^ 21 + bnat fl.idle * 2 ^ 22 + bnat fl.nest * 2 ^ 23
      + bnat fl.noh * 2 ^ 24 + ch * 2 ^ 29 + coreNumber c k * 2 ^ 34 + classCode c.cls * 2 ^ 48 + k.ctx * 2 ^ 50,
    (t.off.getD off) % 2 ^ 32 + (t.obj.getD obj) * 2 ^ 32,
    t.addr % 2 ^ 64,
    t.sub % 2 ^ 16 + causeCode t.cause * 2 ^ 16 + insn * 2 ^ 32,
    (t.stamp.getD s.cycle) % 2 ^ 64,
    t.job % 2 ^ 16 + ext * 2 ^ 32,
    k.launch % 2 ^ 32 + seq % 2 ^ 32 * 2 ^ 32,
    0 ]

/-- Records written so far by a context (R270, SEQ). -/
def recordSeq (s : State) (ctx : Nat) : Nat := (alookup ctx s.fseqs).getD 0

/-- A record queued for the fault writer; SEQ rises (R271). -/
def queueRecord (s : State) (ctx : Nat) (words : List Nat) : State :=
  { s with frecs := s.frecs ++ [{ ctx := ctx, words := words }],
           fseqs := ainsert ctx ((recordSeq s ctx + 1) % 2 ^ 32) s.fseqs }

/-! ### Waits given up, and the end of a context on a core (R269) -/

/-- A `tdrain` that ends in a trap has had no effect: its tile has the state that it had (R263). -/
def Core.undrain (k : Core) : Core :=
  match k.drainp with
  | some (t, st) => { k with tiles := setAt k.tiles t { nth k.tiles t {} with st := st }, drainp := none }
  | none => k

/-- What an interrupted instruction had registered is withdrawn (R160, R178, R206, R348, R357). -/
def clearWaits (s : State) (c : CoreId) : State :=
  let s1 := withdrawLeave (withdrawReqs s (.core c)) c
  s1.modCore c (fun k => { k.undrain with
    kreq := none, sleeping := false, gbarIn := none, gbarOut := none, cwait := false, lreq := 0, lgot := none, parked := false,
    tres := none, fillWait := none, tlbw := none })

/-- Jobs of a core that are parked are withdrawn from the couch with no trap (R269, R367). -/
def withdrawParked (s : State) (c : CoreId) : State :=
  let gone := s.jobs.filter (fun j => j.core == c && (match j.phase with | .parked _ => true | _ => false))
  gone.foldl (fun s j => withdrawReqs { s with jobs := s.jobs.filter (fun x => x.uid != j.uid) } (.job j.uid)) s

/-- The context ends on a core (R269): no further firing, the kernel stops as under `.kill`. -/
def endContext (s : State) (c : CoreId) : State :=
  let s1 := closeFiring (s.modCore c (fun k => { k with preReq := none })) c .abort
  let s2 := withdrawParked (clearWaits s1 c) c
  killLaunch (s2.modCore c (fun k => { k with life := .ending, bpend := [] })) (s.core c).ctx (s.core c).launch

/-! ### The wired barrier (R166) -/

/-- The barrier's trap held for each of some cores, at the count of the core's own next `kmm.g`. -/
def holdVerdict (s : State) (cs : List CoreId) (j : Nat) (cause : Cause) (sub : Nat) : State :=
  cs.foldl (fun s x => s.modCore x (fun k =>
    if k.kverd.any (fun v => v.1 == j) then k else { k with kverd := k.kverd ++ [(j, cause, sub)] })) s

/-- What a trap of a gang's core does to the others at the wired barrier (Table 7-5). `insn` tells a trap at the core's
own `kmm.g`, which counts. -/
def gangTrap (s : State) (c : CoreId) (t : Trap) (insn : Nat) (boundary : Bool) : State :=
  let k := s.core c
  if c.cls != .compute then s
  else if insn / 2 ^ 24 = 0xC4 ∧ t.cause ≠ .undef ∧ !boundary then
    let s1 := if k.kverd.any (fun v => v.1 == k.kgc) then s
      else
        let v : Cause × Nat := match t.cause with
          | .combo => (.combo, 1)
          | .gangfmt => (.gangfmt, t.sub)
          | _ => (.gangfmt, 2)
        holdVerdict s ((rowGang s c).filter (fun x => x != c)) k.kgc v.1 v.2
    s1.modCore c (fun k => { k with kgc := k.kgc + 1, kverd := k.kverd.filter (fun v => v.1 != k.kgc) })
  else if (rowGang s c).any (fun x => x != c && (s.core x).kgc == k.kgc &&
      (match (s.core x).kreq with | some q => q.gang | none => false)) then
    holdVerdict s (rowGang s c) k.kgc .gangfmt 2
  else s

/-! ### Taking a trap (R266-R269) -/

/-- Whether a handler with this entry is usable (R266). -/
def handlerUsable (s : State) (c : CoreId) (k : Core) (entry : Nat) : Bool :=
  match residentLaunch s c k.ctx (field k.tcfg 63 32) with
  | none => false
  | some l => field k.tcfg 31 16 != 0 && entry % 4 == 0 && (sectionEnd l entry).isSome

/-- A handler entered (R267): the frame, the record in w24-w31, the interrupted WP in w23, the new WP. -/
def enterHandler (s : State) (c : CoreId) (isLocal : Bool) (fr : Frame) (rec : List Nat) : State :=
  let k := s.core c
  let wp := 1024 * (if isLocal then field k.tcfg 14 8 else field k.tcfg 6 0)
  let entry := if isLocal then field k.tent 63 32 else field k.tent 31 0
  let k1 := changeWp k wp
  let k2 := putLocal k1 (k1.wp + 8 * 23) ((toBytes 8 fr.wp) ++ (rec.map (toBytes 8)).flatten)
  let hb := 256 * field k.tcfg 31 16
  s.setCore c { k2 with
    pc := entry, bcMode := false, vpend := false,
    lframe := if isLocal then some fr else k2.lframe
    tframe := if isLocal then k2.tframe else some fr
    hbudget := if isLocal && k.run != .idle then k2.hbudget else hb }

/-- A failed job that surfaces does so once (R264). -/
def surfaceJob (s : State) (c : CoreId) (t : Trap) : State :=
  if t.async && t.cause != .delivery then
    s.modCore c (fun k => { k with jobs := k.jobs.map (fun e =>
      if e.1 = t.job then (match e.2 with | .failed t' _ tl fi => (e.1, .failed t' true tl fi) | _ => e) else e) })
  else s

/-- The handler that takes a trap: the local one (true) or the trap handler (R265, R266, R269); none where the context
ends on the core. -/
def trapHandler (s : State) (c : CoreId) (t : Trap) : Option Bool :=
  let k := s.core c
  if k.tframe.isSome then none
  else if (t.cause == .attach || t.cause == .ttb) && bitAt k.tcfg 15 && k.lframe.isNone
      && handlerUsable s c k (field k.tent 63 32) then some true
  else if handlerUsable s c k (field k.tent 31 0) then some false
  else none

/-- Entering the handler changes WP, and a change of WP waits for pending destinations (R235, R243). -/
def trapHeld (s : State) (c : CoreId) (t : Trap) : Bool :=
  let k := s.core c
  match trapHandler s c t with
  | some isLocal => !k.pendDst.isEmpty && 1024 * (if isLocal then field k.tcfg 14 8 else field k.tcfg 6 0) != k.wp
  | none => false

/-- A trap is entered on a core (R264-R269). `insn`, `ext` and `len` are the faulting instruction's word, first
extension word and length; `boundary` says that it is taken at an instruction boundary. -/
def enterTrap (s : State) (c : CoreId) (t : Trap) (insn ext len : Nat) (boundary : Bool) : State :=
  let s0 := surfaceJob (clearWaits (gangTrap s c t insn boundary) c) c t
  let k := s0.core c
  let inL := k.lframe.isSome
  let idle := k.run == .idle && !k.inHandler
  let seq := recordSeq s0 k.ctx
  let insn' := if idle then 0 else insn
  let fl : RecFlags := { idle := k.run == .idle, isLocal := inL && k.tframe.isNone }
  let p := pcPlace s0 c k
  let fr : Frame :=
    { wp := k.wp, pc := k.pc, budget := k.budget, len := len, bc := k.bcMode, trap := t, boundary := boundary,
      idle := k.run == .idle, insn := insn', ext := ext, obj := p.1, off := p.2, stamp := s0.cycle }
  match trapHandler s0 c t with
  | some true => enterHandler s0 c true fr (faultRecord s0 c t fl insn' ext seq)
  | some false =>
    let rec' := faultRecord s0 c t fl insn' ext seq
    enterHandler (queueRecord s0 k.ctx rec') c false fr rec'
  | none =>
    endContext (queueRecord s0 k.ctx
      (faultRecord s0 c t { fl with nest := k.tframe.isSome, noh := k.tframe.isNone } insn' ext seq)) c

/-! ### Leaving a handler (R272) -/

/-- The modes of `rtt`. -/
inductive RttMode where
  | resume | skip | abort | drop | kill
deriving DecidableEq, Repr

/-- The budget that a firing starts with: its channel's, or the prologue's (R272). -/
def fullBudget (s : State) (k : Core) : Nat :=
  match k.run with
  | .firing ch => 256 * (nth k.chans ch {}).ctl.budget
  | _ => match coreLaunch s k with
    | some l => 256 * field (nth l.kent 0 0) 31 16
    | none => 0

/-- The interrupted run goes on from a frame: at the faulting instruction, or after it. -/
def resumeFrame (s : State) (c : CoreId) (fr : Frame) (skip isLocal : Bool) : State :=
  let k := s.core c
  let k1 := changeWp k fr.wp
  let b := if fr.trap.cause == .budget then fullBudget s k else if isLocal then k.budget else fr.budget
  s.setCore c { k1 with
    pc := if skip && !fr.boundary && !fr.bc then fr.pc + fr.len else fr.pc
    bcMode := fr.bc
    budget := if fr.idle then k1.budget else b
    lframe := if isLocal then none else k1.lframe
    tframe := none }

/-- A firing ended by a handler; the local handler writes a record of its trap with LOCAL = 1 (R272). -/
def endByHandler (s : State) (c : CoreId) (fr : Frame) (isLocal : Bool) (m : CloseMode) : State :=
  let s1 := if isLocal then
      queueRecord s (s.core c).ctx
        (faultRecord s c { fr.trap with
            off := some (fr.trap.off.getD fr.off), obj := some (fr.trap.obj.getD fr.obj), stamp := some fr.stamp }
          { isLocal := true, idle := fr.idle }
          fr.insn fr.ext (recordSeq s (s.core c).ctx))
    else s
  closeFiring s1 c m

/-- `rtt` in its modes (Table 12-2); none outside a handler. -/
def leaveHandler (s : State) (c : CoreId) (m : RttMode) : Option State :=
  let k := s.core c
  let isLocal := k.tframe.isNone
  match (if isLocal then k.lframe else k.tframe) with
  | none => none
  | some fr =>
    some (
      if k.run == .idle then
        match m with
        | .kill => killLaunch (endByHandler s c fr isLocal .abort) k.ctx k.launch
        | _ =>
          let s1 := resumeFrame s c fr false isLocal
          let s2 := s1.modCore c (fun k => { k with tframe := none, lframe := if isLocal then none else k.lframe })
          if (s2.core c).preReq.isSome && !(s2.core c).inHandler then beginEviction s2 c else s2
      else
        match m with
        | .resume | .skip =>
          if fr.trap.cause == .budget && k.preReq.isSome then endByHandler s c fr isLocal .abort
          else resumeFrame s c fr (m == .skip) isLocal
        | .abort => endByHandler s c fr isLocal .abort
        | .drop => endByHandler s c fr isLocal .drop
        | .kill => killLaunch (endByHandler s c fr isLocal .abort) k.ctx k.launch)

/-! ### The frame around every instruction -/

/-- Whether a core issues instructions: a firing, the prologue or a handler runs, its island is not changing its
point (R448), and it is no checker (R442). -/
def executes (s : State) (c : CoreId) : Bool :=
  let k := s.core c
  (k.run != .idle || k.inHandler) && k.life == .active && k.pst != .checker && !s.health.stopped
    && !(c.cls == .compute && (nth s.islands (islandOf (rowOf c)) {}).changing)

/-- A waiting instruction: nothing of it stays but what it has registered, and the cycles count (R103, R263). -/
def waitCore (s1 : State) (c : CoreId) (k : Core) (n : Nat) : State :=
  let k1 := s1.core c
  s1.setCore c (({ k with
    tlb := k1.tlb, lines := k1.lines, fillWait := k1.fillWait, sleeping := k1.sleeping, kreq := k1.kreq,
    lreq := k1.lreq, gbarIn := k1.gbarIn, gbarOut := k1.gbarOut, gbarc := k1.gbarc, cwait := k1.cwait, parked := k1.parked,
    tiles := k1.tiles, drainp := k1.drainp, kstall := k1.kstall, tlbw := k1.tlbw,
    late := k.agedLate n, owed := 0 } : Core).charge n)

/-- A trap on a core: it is taken, or it waits, as a change of WP does (R235, R243, R267). -/
def takeTrap (s : State) (c : CoreId) (t : Trap) (insn ext len : Nat) (boundary : Bool) : State :=
  if trapHeld s c t then waitCore s c (s.core c) (1 + s.stall) else enterTrap s c t insn ext len boundary

/-- A native instruction on the current core: the checks of R100, the waits for unfinished vector work and acquires
(R151, R235), then its meaning with PC advanced and its cycles charged; a trap is taken, a wait issues again. -/
def runNative (i : Instr) (cost : Core → Nat) (f : CoreId → State → Dev State) (s : State) : State :=
  let c := s.cur
  let k := s.core c
  let ws := encode i
  if !executes s c || k.bcMode then s
  else match i.check c.cls with
    | some sub => takeTrap s c { cause := .undef, sub := sub } (nth ws 0 0) (nth ws 1 0) (4 * ws.length) false
    | none =>
      if k.vpend || k.acqWait then waitCore s c k (1 + s.stall)
      else
        match f c (s.setCore c (({ k with pc := k.pc + 4 * ws.length, own := ownBusy s c } : Core).issue (cost k) s.stall)) with
        | .ok s1 => s1
        | .error (.trap t) => takeTrap s c t (nth ws 0 0) (nth ws 1 0) (4 * ws.length) false
        | .error (.trapAt t s1) => takeTrap (s1.setCore c k) c t (nth ws 0 0) (nth ws 1 0) (4 * ws.length) false
        | .error (.wait s1) => waitCore s1 c k (1 + s.stall)

/-- Every instruction answers a next state. -/
def nativeOp (i : Instr) (cost : Core → Nat) (f : CoreId → State → Dev State) (s : State) :
    Host.Outcome State Fault Refusal := .next (runNative i cost f s)

/-- A scalar instruction on the core's own state. -/
def scalarOp (i : Instr) (g : Core → Except Stop Core) (s : State) : Host.Outcome State Fault Refusal :=
  nativeOp i (fun _ => 1) (coreOp g) s

/-- A vector instruction: its results stand when it completes, and the next instruction waits for that (R151). -/
def vectorOp (i : Instr) (cost : Core → Nat) (g : Core → Except Stop Core) (s : State) : Host.Outcome State Fault Refusal :=
  nativeOp i cost (coreOp (fun k => do
    let k1 ← g k
    .ok { k1 with vpend := true })) s

/-- An event answers a next state; where its conditions do not hold, nothing changes. -/
def eventOp (f : State → State) (s : State) : Host.Outcome State Fault Refusal := .next (f s)

end Sys2Proof.Machine
end

