-- ==== Sys2Proof/Machine/Control.lean ====
section
/-!
DEFINITION. Control transfers (R125-R129), the system group (R272-R275, R372, R373, R447, R454) and pairs (R444), one
definition per instruction.
-/
namespace Sys2Proof.Machine

/-! ### Control transfers -/

/-- The resume marker (R383). -/
def resumeMarker : Nat := 0xFFFFFFFFFFFFFFF0

/-- A checked transfer to a code offset (R125). -/
def goTo (c : CoreId) (s : State) (target : Nat) : Dev State :=
  match checkTarget s c target with
  | .error (some t) => .error (.trap t)
  | .error none => .error (.wait s)
  | .ok _ => .ok (s.modCore c (fun k => { k with pc := target }))

/-- A transfer that may name the resume marker: on a control core it enters bytecode mode, in 2 control-core cycles
(R383). -/
def jumpTo (c : CoreId) (s : State) (target : Nat) : Dev State :=
  if c.cls == .control && target == resumeMarker then .ok (s.modCore c (fun k => { k.chargeControl 2 with bcMode := true }))
  else goTo c s target

/-- The target of a format-B offset from the instruction at PC (R93, R126); PC already names the next one. -/
def branchTarget (k : Core) (off : BitVec 20) : Nat := toPattern 32 ((k.pc : Int) - 4 + 4 * off.toInt)

/-- `b.cc` (R126). -/
def branch (cc : Cond) (off : BitVec 20) (c : CoreId) (s : State) : Dev State :=
  let k := s.core c
  if condHolds cc k.flags then goTo c s (branchTarget k off) else .ok s

def branchCost (cc : Cond) (k : Core) : Nat := if condHolds cc k.flags then 2 else 1

def execB (cc : Cond) (off : BitVec 20) (s : State) : Host.Outcome State Fault Refusal :=
  nativeOp (.b cc off) (branchCost cc) (branch cc off) s

/-- `j` (R127). -/
def execJ (e : BitVec 32) (s : State) : Host.Outcome State Fault Refusal :=
  nativeOp (.j e) (fun _ => 2) (fun c s => goTo c s e.toNat) s

/-- `call` (R127): w31 is written once the target has passed. -/
def callTo (off : BitVec 20) (c : CoreId) (s : State) : Dev State := do
  let k := s.core c
  let s1 ← goTo c s (branchTarget k off)
  let k1 ← ofCore s (storeAt (s1.core c) (k.wp + 8 * 31) (toBytes 8 k.pc))
  .ok (s1.setCore c k1)

def execCall (off : BitVec 20) (s : State) : Host.Outcome State Fault Refusal :=
  nativeOp (.call off) (fun _ => 2) (callTo off) s

/-- `ret` (R127, R383). -/
def returnTo (c : CoreId) (s : State) : Dev State := do
  let k := s.core c
  let v ← ofCore s (loadAt k (k.wp + 8 * 31) 8)
  jumpTo c s v

/-- The cycles of `ret` and `jx`: none besides those of the transfer into bytecode mode. -/
def jumpCost (cls : CoreClass) (target : Nat) : Nat := if cls == .control && target == resumeMarker then 0 else 2

def execRet (s : State) : Host.Outcome State Fault Refusal :=
  nativeOp .ret (fun k => jumpCost s.cur.cls (readLocal k (k.wp + 8 * 31) 8)) returnTo s

/-- `jx` (R127, R383). -/
def jumpIndirect (a : Spec) (c : CoreId) (s : State) : Dev State := opA a (fun v c s => jumpTo c s v) c s

def execJx (a : Spec) (s : State) : Host.Outcome State Fault Refusal :=
  nativeOp (.jx a) (fun k => match readZ k.seen a with | .ok (v, _) => jumpCost s.cur.cls v | .error _ => 2)
    (jumpIndirect a) s

/-- `loop` (R128). -/
def loopTo (n : Fin 16) (off : BitVec 20) (c : CoreId) (s : State) : Dev State := do
  let k := s.core c
  let x ← ofCore s (loadAt k (k.wp + 8 * n.val) 8)
  let v := (x + 2 ^ 64 - 1) % 2 ^ 64
  let s1 ← if v = 0 then .ok s else goTo c s (branchTarget k off)
  let k1 ← ofCore s (storeAt (s1.core c) (k.wp + 8 * n.val) (toBytes 8 v))
  .ok (s1.setCore c k1)

def execLoop (n : Fin 16) (off : BitVec 20) (s : State) : Host.Outcome State Fault Refusal :=
  nativeOp (.loop n off) (fun _ => 1) (loopTo n off) s

/-- `nop` (R129). -/
def execNop (s : State) : Host.Outcome State Fault Refusal := nativeOp .nop (fun _ => 1) (fun _ s => .ok s) s

/-- `end` (R129, R163, R189): it waits for the core's kiln operations, then the firing closes. -/
def endOp (c : CoreId) (s : State) : Dev State := do
  let k := s.core c
  untilD (k.kout == 0 && k.ctm + k.sbuf.length ≤ 65535) s
  .ok (closeFiring s c .normal)

def execEndFiring (s : State) : Host.Outcome State Fault Refusal := nativeOp .endFiring (fun _ => 1) endOp s

/-! ### Traps and returns (R272, R274) -/

/-- `trap` (R274). -/
def execTrap (n : BitVec 16) (s : State) : Host.Outcome State Fault Refusal :=
  nativeOp (.trap n) (fun _ => 1) (fun _ _ => trapD .trap n.toNat) s

/-- `brk` (R274): a `nop` unless BRKE is set. -/
def breakOp (n : BitVec 16) (c : CoreId) (s : State) : Dev State :=
  if bitAt (s.core c).tcfg 7 then trapD .brk n.toNat else .ok s

def execBrk (n : BitVec 16) (s : State) : Host.Outcome State Fault Refusal := nativeOp (.brk n) (fun _ => 1) (breakOp n) s

/-- `rtt` in a mode; outside a handler it raises PRIV 0x01. One that changes WP waits for pending destinations (R235,
R243). -/
def returnFromTrap (m : RttMode) (c : CoreId) (s : State) : Dev State :=
  match leaveHandler s c m with
  | some s1 => do
    untilD ((s.core c).pendDst.isEmpty || (s1.core c).wp == (s.core c).wp) s
    .ok s1
  | none => trapD .priv 1

def execRttResume (s : State) : Host.Outcome State Fault Refusal :=
  nativeOp .rttResume (fun _ => 1) (returnFromTrap .resume) s
def execRttSkip (s : State) : Host.Outcome State Fault Refusal :=
  nativeOp .rttSkip (fun _ => 1) (returnFromTrap .skip) s
def execRttAbort (s : State) : Host.Outcome State Fault Refusal :=
  nativeOp .rttAbort (fun _ => 1) (returnFromTrap .abort) s
def execRttDrop (s : State) : Host.Outcome State Fault Refusal :=
  nativeOp .rttDrop (fun _ => 1) (returnFromTrap .drop) s
def execRttKill (s : State) : Host.Outcome State Fault Refusal :=
  nativeOp .rttKill (fun _ => 1) (returnFromTrap .kill) s

/-! ### Flags, workspace, budget (R275, R372) -/

/-- `sflag` (R275). -/
def sflagOp (d a : Spec) (c : CoreId) (s : State) : Dev State := do
  let (v, s1) ← srcZ s c a
  untilD ((s1.core c).kout == 0) s
  let w := stickyWord (s1.core c)
  let s2 ← dstZ s1 c d w
  .ok (s2.modCore c (fun k => setWsWord k 0x390 (natAnd (natAnd w (natNot 64 v)) 0x3F)))

def execSflag (d a : Spec) (s : State) : Host.Outcome State Fault Refusal :=
  nativeOp (.sflag d a) (fun _ => 1) (sflagOp d a) s

/-- `wpset` (R372, R76): a change waits for pending destinations (R235, R243). -/
def wpsetOp (a : Spec) (c : CoreId) (s : State) : Dev State := do
  let (v, s1) ← srcZ s c a
  needD (v % 1024 == 0) .align 0 v
  needD (v + 0x400 ≤ topOf c.cls) .fabric 0 v
  let k := s1.core c
  untilD (v == k.wp || k.pendDst.isEmpty) s
  .ok (s1.setCore c (changeWp k v))

def wpsetCost (a : Spec) (k : Core) : Nat :=
  match readZ k.seen a with
  | .ok (v, _) => wpCost k v
  | .error _ => 1

def execWpset (a : Spec) (s : State) : Host.Outcome State Fault Refusal := nativeOp (.wpset a) (wpsetCost a) (wpsetOp a) s

/-- `wdog` (R372): the cycles left as the instruction issues, and the lower budget, in which its own cycle counts. -/
def wdogOp (d a : Spec) (c : CoreId) (s : State) : Dev State := do
  let (v, s1) ← srcZ s c a
  let left := (s1.core c).cyclesLeft
  let s2 ← dstZ s1 c d left
  .ok (s2.modCore c (fun k => (if v = 0 then k else k.setCycles (min left v)).charge 1))

def execWdog (d a : Spec) (s : State) : Host.Outcome State Fault Refusal :=
  nativeOp (.wdog d a) (fun _ => 0) (wdogOp d a) s

/-! ### System registers (Table 18-4) -/

/-- A number held at most at 2^32 - 1. -/
def hold32 (n : Nat) : Nat := min n 0xFFFFFFFF

/-- The room left in an island's issue window (R451, R454). -/
def islandRoom (i : Island) : Nat := i.allow - i.debt - i.used

/-- `sr.isl` (Table 26-2). -/
def islandWord (s : State) (c : CoreId) : Nat :=
  match c.cls with
  | .compute =>
    let n := islandOf (rowOf c)
    let i := nth s.islands n {}
    hold32 (islandRoom i) + i.cur * 2 ^ 40 + n * 2 ^ 48
  | _ => 2 ^ 63

/-- `sr.id`. -/
def idWord (c : CoreId) (k : Core) : Nat :=
  k.ctx * 2 ^ 50 + classCode c.cls * 2 ^ 48 + coreNumber c k * 2 ^ 34 +
    (match c.cls with
     | .compute => rowOf c % 64 * 2 ^ 16 + rowOf c / 64 * 2 ^ 8 + placeOf c
     | _ => 0)

/-- The system register that a number names. -/
def sysReg (s : State) (c : CoreId) (n : Nat) : Nat :=
  let k := s.core c
  let ctl (v : Nat) : Nat := if c.cls == .control then v else 0
  if n = 0x00 then idWord c k
  else if n = 0x01 then 0x10000 * 2 ^ 32 + topOf c.cls
  else if n = 0x02 then bnat k.preReq.isSome + 2 * bnat k.sliceExp
  else if n = 0x03 then k.tcfg
  else if n = 0x04 then k.tent
  else if n = 0x10 then k.kstall
  else if n = 0x11 then k.eccL * 2 ^ 16 + k.eccR
  else if n = 0x12 then islandWord s c
  else if n = 0x20 then ctl k.bhtab
  else if n = 0x21 then ctl k.ltab
  else if n = 0x22 then ctl k.bscr
  else if n = 0x23 then ctl k.rring
  else 0

/-- `srr` (R372). -/
def srrOp (d a : Spec) (c : CoreId) (s : State) : Dev State :=
  opDA d a (fun v c s => .ok (if v < 256 then sysReg s c v else 0, s)) c s

def execSrr (d a : Spec) (s : State) : Host.Outcome State Fault Refusal :=
  nativeOp (.srr d a) (fun _ => 1) (srrOp d a) s

/-- Alignment of a bytecode register (Table 18-4); none for another register. -/
def bcRegAlign (n : Nat) : Option Nat :=
  if n = 0x21 then some 256 else if n = 0x20 ∨ n = 0x22 ∨ n = 0x23 then some 8 else none

/-- `srw` (R372, R373). -/
def srwOp (n : BitVec 7) (b : Spec) (c : CoreId) (s : State) : Dev State := do
  let (v, s1) ← srcZ s c b
  let r := n.toNat
  if r = 0x03 ∨ r = 0x04 then do
    needD (s1.core c).sup .priv 2
    .ok (s1.modCore c (fun k => if r = 0x03 then { k with tcfg := v } else { k with tent := v }))
  else match bcRegAlign r with
    | some al => do
      needD (c.cls == .control) .priv 2
      let w := v % 2 ^ 17
      needD (w % al == 0) .align 0 w
      .ok (s1.modCore c (fun k =>
        if r = 0x20 then { k with bhtab := w } else if r = 0x21 then { k with ltab := w }
        else if r = 0x22 then { k with bscr := w } else { k with rring := w }))
    | none => trapD .priv 2

def execSrw (n : BitVec 7) (b : Spec) (s : State) : Host.Outcome State Fault Refusal :=
  nativeOp (.srw n b) (fun _ => 1) (srwOp n b) s

/-- `rdcyc` (R373). -/
def execRdcyc (d : Spec) (s : State) : Host.Outcome State Fault Refusal :=
  nativeOp (.rdcyc d) (fun _ => 1) (opD d (fun _ s => .ok (s.cycle % 2 ^ 64, s))) s

/-! ### Pairs (R444) -/

/-- STATE of the pair status word (Table 25-4). -/
def pairStateCode (k : Core) : Nat :=
  match k.pst with
  | .primary => 2
  | .checker => 3
  | .coupling => 1
  | .single => if k.pairReq = 1 ∨ k.pairReq = 3 then 1 else if k.pairReq = 4 then 4 else 0

def pairStatus (k : Core) : Nat :=
  let st := pairStateCode k
  st + min k.mism 255 * 2 ^ 8 + (if st = 0 ∨ st = 4 then 0 else k.partner) * 2 ^ 16

/-- `pair` (Table 25-3): D, and the core after it. -/
def pairOp (op : Nat) (c : CoreId) (s : State) : Dev (Nat × State) :=
  let k := s.core c
  let p := s.core (coreAt (rowOf c) (placeOf c + 1))
  if op = 0 then .ok (pairStatus k, s)
  else if op = 1 then
    if placeOf c % 2 = 1 ∨ k.pst = .checker then .ok (2 ^ 63 + 1, s)
    else if !(p.life != .free && p.ctx == k.ctx && p.launch == k.launch) then .ok (2 ^ 63 + 2, s)
    else if pairStateCode k = 1 ∨ pairStateCode k = 2 then .ok (pairStatus k, s)
    else
      let k1 := { k with pairReq := 1, partner := placeOf c + 1, mism := 0 }
      .ok (pairStatus k1, s.setCore c k1)
  else if op = 2 then
    if k.pst = .primary then .ok (pairStatus k, s.setCore c { k with pairReq := 2 }) else .ok (pairStatus k, s)
  else trapD .undef 2

def execPair (d a : Spec) (s : State) : Host.Outcome State Fault Refusal :=
  nativeOp (.pair d a) (fun _ => 1) (opDA d a pairOp) s

end Sys2Proof.Machine
end

