-- ==== Sys2Proof/Machine/Fabric.lean ====
section
/-!
DEFINITION. The format-F instructions on remote memory: fabric stores and loads (R231-R236), fences (R238) and atomics
(R239-R243), as a core issues them. What happens at the homes is in the fabric events.
-/
namespace Sys2Proof.Machine

/-- The count that a wait field names is zero (R231). -/
def waitClear (k : Core) : FWait → Bool
  | .nw => true
  | .wf => k.ctf == 0
  | .wb => k.ctb == 0
  | .wm => k.ctm == 0

/-- What a release waits for (R234, R243, Table 11-1). -/
def releaseReady (k : Core) : Bool := k.ctf == 0 && k.ctb == 0 && k.ldo == 0 && k.atm == 0

/-- The hold of an earlier `fence.rel` or `fence.acqrel` is over (R238). -/
def fenceClear (k : Core) : Bool :=
  !k.fenceSt || (k.ctf == 0 && k.ctb == 0 && k.fenceDst.isEmpty)

/-- Orders with acquire, and with release, semantics. -/
def isAcq : Order → Bool | .acq | .acqrel => true | _ => false
def isRel : Order → Bool | .rel | .acqrel => true | _ => false

/-- The issue of a later store, atomic, send or enqueue: its wait field, its release, and an earlier fence. -/
def issueStore (s : State) (c : CoreId) (w : FWait) (o : Order) : Dev Unit := do
  let k := s.core c
  untilD (waitClear k w) s
  untilD (!isRel o || releaseReady k) s
  untilD (fenceClear k) s

/-- The fence's hold is forgotten once it is over. -/
def dropFence (k : Core) : Core := if fenceClear k then { k with fenceSt := false, fenceDst := [] } else k

/-- Alignment of a fabric access: to its size, a 64-byte access to 8 (R248). -/
def fabricAlign (va n : Nat) : Dev Unit := needD (va % min n 8 == 0) .align 0 va

/-- The aligned 8-byte words that an access of n bytes performs, one by one (R232). -/
def accWords (n : Nat) : List Nat := List.range (max 1 (n / 8))

/-- A pending destination leaves the core's list, and a fence's list of earlier loads (R235, R238). -/
def Core.returned (k : Core) (p : Nat × Nat) : Core :=
  { k with pendDst := k.pendDst.erase p, fenceDst := k.fenceDst.erase p }

/-- An access of the core is over: its count falls, its destination is pending no more, and its stall ends (R229, R235,
R243). -/
def Core.settled (k : Core) (a : Acc) : Core :=
  match a.kind with
  | .store _ => { k with ctf := k.ctf - bnat (a.posted == 1), ctb := k.ctb - bnat (a.posted == 2) }
  | .load _ dst _ w8 => { k.returned (dst, if w8 then 8 else 64) with
      ldo := if a.acq then k.ldo else k.ldo - 1
      acqWait := if a.acq then false else k.acqWait }
  | .amo _ _ _ _ dst => { k.returned (dst, 8) with
      atm := k.atm - 1
      acqWait := if a.acq then false else k.acqWait }

/-- The home of an access, or its trap at issue (R233). -/
def homeD (s : State) (c : CoreId) (va n : Nat) (write : Bool) : Dev Home :=
  match fabricHome s c (s.core c).ctx va n write with
  | .ok h => .ok h
  | .error e => trapD e.1 e.2 va

/-- The data of a store: a scalar of the format, or 64 bytes. -/
def storeData (k : Core) (f : IType) (vec : Bool) (d : Spec) : Except Stop (List Byte × Core) :=
  if vec then do
    let (v, k1) ← readVec k .z64 d
    .ok (toBytes 64 v, k1)
  else do
    let (v, k1) ← readSrc k (ifmt f) d
    .ok (toBytes (fmtBytes (ifmt f)) v, k1)

/-- `fst` (R233, R234): posted, counted in ct.f. -/
def fabricStore (w : FWait) (f : IType) (o : Order) (d a : Spec) (vec : Bool) (c : CoreId) (s : State) : Dev State := do
  issueStore s c w o
  let (va, s1) ← srcZ s c a
  let (bs, k1) ← ofCore s (storeData (s1.core c) f vec d)
  let s2 := s1.setCore c k1
  fabricAlign va bs.length
  let h ← homeD s2 c va bs.length true
  untilD ((s2.core c).ctf < 65535) s
  let k := s2.core c
  let acc : Acc :=
    { src := c, ctx := k.ctx, home := h, va := va, kind := .store bs, posted := 1, launch := k.launch,
      todo := accWords bs.length, since := s2.cycle }
  .ok { s2.setCore c { dropFence k with ctf := k.ctf + 1 } with fab := s2.fab ++ [acc] }

/-- The destination of a load or an atomic: its local address and length. -/
def dataPlace (k : Core) (vec : Bool) : Spec → Nat × Nat
  | .w n => if vec then (k.wp + 0x100 + 64 * n.val, 64) else (k.wp + 8 * n.val, 8)
  | _ => (k.wp, 8)

/-- `fld` (R233, R235): relaxed, counted in LDO, or an acquire that stalls the core. -/
def fabricLoad (w : FWait) (f : IType) (o : Order) (d a : Spec) (vec : Bool) (c : CoreId) (s : State) : Dev State := do
  let k := s.core c
  untilD (waitClear k w) s
  untilD (isAcq o || k.ldo < 4) s
  let (va, s1) ← srcZ s c a
  let n := if vec then 64 else fmtBytes (ifmt f)
  fabricAlign va n
  let h ← homeD s1 c va n false
  let p := dataPlace (s1.core c) vec d
  untilD (!pendingAt (s1.core c) p.1 p.2) s
  let k1 := s1.core c
  let acc : Acc :=
    { src := c, ctx := k1.ctx, home := h, va := va, kind := .load n p.1 (fmtSigned (ifmt f)) (!vec), acq := isAcq o,
      launch := k1.launch, todo := accWords n, got := List.replicate n 0, since := s1.cycle }
  .ok { s1.setCore c { k1 with pendDst := k1.pendDst ++ [p], ldo := if isAcq o then k1.ldo else k1.ldo + 1,
                               acqWait := isAcq o } with fab := s1.fab ++ [acc] }

/-- `fence` (R238, Table 10-1); `rlx` stands for `sc`. -/
def fabricFence (w : FWait) (sc : Scope) (o : Order) (c : CoreId) (s : State) : Dev State := do
  let k := s.core c
  untilD (waitClear k w) s
  if sc == .core then .ok s
  else
    match o with
    | .acq => do
      untilD k.pendDst.isEmpty s
      .ok s
    | .rel => .ok (s.setCore c { k with fenceSt := true, fenceDst := k.pendDst })
    | .acqrel => do
      untilD k.pendDst.isEmpty s
      .ok (s.setCore c { k with fenceSt := true, fenceDst := [] })
    | .rlx => do
      untilD (k.pendDst.isEmpty && k.ctf == 0 && k.ctb == 0) s
      .ok (s.setCore c { k with fenceSt := false, fenceDst := [] })

/-- The home of an atomic (R239, R243): windows, or bulk memory translated at issue. A line whose read returns poison
fails it there, so that the trap is precise and an issued atomic does not fail by it (R243, R468; log 18). -/
def atomicHome (s : State) (c : CoreId) (va n : Nat) : Dev (Home × State) := do
  if isBulk va then
    let ((t, pa), s1) ← (coreTranslate s c va 2).dev
    needD (!(t == 2 && s1.poison.contains (pa / 64))) .bulk 6 va
    .ok (.bulk t pa, s1)
  else if 0xA0000000 ≤ va && va < 0xB0000000 then trapD .fabric 2 va
  else
    let h ← homeD s c va n true
    .ok (h, s)

/-- `amo` (R239, R242, R243): counted in ATM until its reply arrives. -/
def fabricAtomic (w : FWait) (f : IType) (o : Order) (d a : Spec) (p : AmoOp) (c : CoreId) (s : State) : Dev State := do
  issueStore s c w o
  untilD ((s.core c).atm < 8) s
  let (va, s1) ← srcZ s c a
  let n := fmtBytes (ifmt f)
  fabricAlign va n
  let k := s1.core c
  let dst := dataPlace k false d
  untilD (!unreadyAt k dst.1 (if p == .cas then 16 else 8)) s
  let (h, s2) ← atomicHome s1 c va n
  let k2 := s2.core c
  let acc : Acc :=
    { src := c, ctx := k2.ctx, home := h, va := va,
      kind := .amo p f (readLocal k2 dst.1 8 % 2 ^ (8 * n)) (readLocal k2 (dst.1 + 8) 8 % 2 ^ (8 * n)) dst.1,
      acq := isAcq o, launch := k2.launch, since := s2.cycle
      big := bigAt s2 (couchOf c) k2.ctx va, born := s2.tlbn }
  .ok { s2.setCore c { dropFence k2 with pendDst := k2.pendDst ++ [dst], atm := k2.atm + 1, acqWait := isAcq o } with
        fab := s2.fab ++ [acc] }

/-! ### The meanings -/

def execFst (w : FWait) (f : IType) (o : Order) (d a : Spec) (vec : Bool) (sc : Scope) (s : State) :=
  nativeOp (.fst w f o d a vec sc) (fun _ => 1) (fabricStore w f o d a vec) s
def execFld (w : FWait) (f : IType) (o : Order) (d a : Spec) (vec : Bool) (sc : Scope) (s : State) :=
  nativeOp (.fld w f o d a vec sc) (fun _ => 1) (fabricLoad w f o d a vec) s
def execFence (w : FWait) (sc : Scope) (o : Order) (s : State) :=
  nativeOp (.fence w sc o) (fun _ => 1) (fabricFence w sc o) s
def execAmo (sc : Scope) (w : FWait) (f : IType) (o : Order) (d a : Spec) (p : AmoOp) (s : State) :=
  nativeOp (.amo sc w f o d a p) (fun _ => 1) (fabricAtomic w f o d a p) s

end Sys2Proof.Machine
end

