-- ==== Sys2Proof/Machine/Channels.lean ====
section
/-!
DEFINITION. The instructions on channels and messages (R181, R190-R204), one definition per instruction.
-/
namespace Sys2Proof.Machine

/-! ### send, sendm, enq (R194-R202) -/

/-- The waits of a send or an enqueue (R199, R238). -/
def issueSend (s : State) (c : CoreId) (w : FWait) (o : Order) : Dev Unit := issueStore s c w o

/-- The message that a core issues: header with the next MID, and the place of its issue (R183, R196). -/
def newMessage (s : State) (c : CoreId) (dest : Nat) (words : List Nat) (kind : MsgKind) : Msg :=
  let k := s.core c
  let p := pcPlace s c k
  { src := some c, ctx := k.ctx, dest := dest
    hdr := headerWord (destTag dest) k.midc words.length kind.isEnq (destCh dest) (classCode c.cls) (coreNumber c k)
    words := words, kind := kind, launch := k.launch, off := k.pc - 4, obj := p.1, ch := k.channel
    mid := firstMid k k.channel }

/-- A message put into the send buffer, within its limits (R194, R202). -/
def bufferMessage (s : State) (c : CoreId) (dest : Nat) (words : List Nat) : Dev State := do
  let k := s.core c
  untilD k.sout.isEmpty s
  needD ((k.sbuf.map (fun m => m.words.length)).foldl (· + ·) 0 + words.length ≤ 32 && k.sbuf.length < 16) .delivery 3 dest
  let m := newMessage s c dest words .ordinary
  .ok (s.setCore c { dropFence k with sbuf := k.sbuf ++ [m], midc := (k.midc + 1) % 2 ^ 16 })

/-- `send` (R202). -/
def sendOp (w : FWait) (o : Order) (d a : Spec) (c : CoreId) (s : State) : Dev State := do
  issueSend s c w o
  let (dest, s1) ← srcZ s c a
  let (v, s2) ← srcZ s1 c d
  checkD dest (destCheck s2 (s2.core c).ctx dest (· == 0))
  bufferMessage s2 c dest [v]

def execSend (w : FWait) (o : Order) (d a : Spec) (s : State) : Host.Outcome State Fault Refusal :=
  nativeOp (.send w o d a) (fun _ => 1) (sendOp w o d a) s

/-- n words from a local address. -/
def localWords (k : Core) (a n : Nat) : List Nat := (List.range n).map (fun i => readLocal k (a + 8 * i) 8)

/-- `sendm` (R202): the body is copied at issue. -/
def sendmOp (w : FWait) (o : Order) (d a : Spec) (c : CoreId) (s : State) : Dev State := do
  issueSend s c w o
  let (dest, s1) ← srcZ s c a
  let (body, s2) ← srcZ s1 c d
  checkD dest (destCheck s2 (s2.core c).ctx dest (fun n => decide (1 ≤ n) && decide (n ≤ 32)))
  let n := destLen dest
  let _ ← localRecord c s2 body (8 * n) 8
  bufferMessage s2 c dest (localWords (s2.core c) body n)

/-- Cycles of `sendm`: ceil(LEN/3). -/
def sendmCost (a : Spec) (k : Core) : Nat :=
  match readZ k.seen a with
  | .ok (dest, _) => max 1 ((destLen dest + 2) / 3)
  | .error _ => 1

def execSendm (w : FWait) (o : Order) (d a : Spec) (s : State) : Host.Outcome State Fault Refusal :=
  nativeOp (.sendm w o d a) (sendmCost a) (sendmOp w o d a) s

/-- `enq` (R197, R202): posted at issue; an acknowledged one counts in ct.m. -/
def enqOp (w : FWait) (o : Order) (d a : Spec) (ack : Bool) (c : CoreId) (s : State) : Dev State := do
  issueSend s c w o
  let (dest, s1) ← srcZ s c a
  let (v, s2) ← srcZ s1 c d
  checkD dest (destCheck s2 (s2.core c).ctx dest (· == 0))
  let k := s2.core c
  untilD (!ack || k.ctm < 65535) s
  let m := newMessage s2 c dest [v] (.enq ack)
  .ok { s2.setCore c { dropFence k with midc := (k.midc + 1) % 2 ^ 16, ctm := k.ctm + bnat ack } with
        net := s2.net ++ [m] }

def execEnq (w : FWait) (o : Order) (d a : Spec) (ack : Bool) (s : State) : Host.Outcome State Fault Refusal :=
  nativeOp (.enq w o d a ack) (fun _ => 1) (enqOp w o d a ack) s

/-! ### chbind (R192, R193) -/

/-- The control word of a channel (Table 8-1), from and to its fields. -/
def ctlOf (w : Nat) : ChanCtl :=
  { entry := field w 63 32, budget := field w 31 16, wpi := field w 15 9, rate := field w 8 3, prio := field w 2 1 }

def ctlWord (x : ChanCtl) : Nat :=
  x.entry * 2 ^ 32 + x.budget * 2 ^ 16 + x.wpi * 2 ^ 9 + x.rate * 2 ^ 3 + x.prio * 2

/-- The `.budget` of a core's kernel, in units of 256 cycles. -/
def kernelBudget (s : State) (k : Core) : Nat :=
  match coreLaunch s k with
  | some l => field (nth l.kent 0 0) 31 16
  | none => 65535

/-- The checks of a binding record (R192). -/
def bindingOk (s : State) (k : Core) (e : Chan) (w0 w1 : Nat) : Bool :=
  let x := ctlOf w0
  if w0 % 2 = 1 ∨ field w1 63 27 ≠ 0 then false
  else if x.rate = 0 then w0 == 0 && w1 == 0
  else decide (x.rate ≤ 32) && decide (1 ≤ x.budget) && decide (x.budget ≤ kernelBudget s k) && decide (x.wpi ≤ 71) &&
    (if e.bind = 0 then
       decide (x.rate ≤ field w1 26 14) && decide (8 * (field w1 13 0 + field w1 26 14) ≤ k.top)
     else w1 == 0)

/-- A channel after a valid `chbind` (Table 8-6). -/
def bindChan (e : Chan) (w0 w1 : Nat) : Chan :=
  if e.bind = 0 then
    (if field w0 8 3 = 0 then e
     else { e with ctl := ctlOf w0, bind := 1, base := field w1 13 0, size := field w1 26 14, head := 0, fill := 0,
                   skip := 0 })
  else { e with bind := 2, pend := ctlOf w0 }

def modChan (k : Core) (n : Nat) (f : Chan → Chan) : Core := { k with chans := setAt k.chans n (f (nth k.chans n {})) }

/-- `chbind`. -/
def chbindOp (a b : Spec) (c : CoreId) (s : State) : Dev State :=
  opAB a b (fun n addr c s => do
    needD (n < 32) .undef 2
    let _ ← localRecord c s addr 16 8
    let k := s.core c
    let w0 := readLocal k addr 8
    let w1 := readLocal k (addr + 8) 8
    needD (bindingOk s k (nth k.chans n {}) w0 w1) .delivery 5 addr
    .ok (s.setCore c (modChan k n (fun e => bindChan e w0 w1)))) c s

def execChbind (a b : Spec) (s : State) : Host.Outcome State Fault Refusal :=
  nativeOp (.chbind a b) (fun _ => 1) (chbindOp a b) s

/-! ### chhold, chrdy, chmask (R203) -/

/-- `chhold` and `chrdy`: the own core's bit changes at once; another's by a packet, posted at issue and counted in ct.m
(R194, R195). It follows its sender's items to that core that are in the network (R185, R198), and waits for no message to
another core. -/
def channelBit (ready : Bool) (a b : Spec) (c : CoreId) (s : State) : Dev State :=
  opAB a b (fun dest v c s => do
    needD (v < 2) .undef 2
    needD (destTag dest == 0) .delivery 2 dest
    checkD dest (destCheck s (s.core c).ctx dest (· == 0))
    let k := s.core c
    let kind : MsgKind := if ready then .ready (v == 1) else .hold (v == 1)
    if destCore s k.ctx dest == some c then .ok (s.setCore c (applyPacket k (destCh dest) kind))
    else do
      untilD (k.ctm < 65535) s
      let m := newMessage s c dest [] kind
      .ok { s.setCore c { k with ctm := k.ctm + 1 } with net := s.net ++ [m] }) c s

def execChhold (a b : Spec) (s : State) : Host.Outcome State Fault Refusal :=
  nativeOp (.chhold a b) (fun _ => 1) (channelBit false a b) s
def execChrdy (a b : Spec) (s : State) : Host.Outcome State Fault Refusal :=
  nativeOp (.chrdy a b) (fun _ => 1) (channelBit true a b) s

/-- `chmask`. -/
def chmaskOp (a b : Spec) (c : CoreId) (s : State) : Dev State :=
  opAB a b (fun n v c s => do
    needD (n < 32 && v < 2) .undef 2
    .ok (s.modCore c (fun k => modChan k n (fun e => { e with mask := v == 1 })))) c s

def execChmask (a b : Spec) (s : State) : Host.Outcome State Fault Refusal :=
  nativeOp (.chmask a b) (fun _ => 1) (chmaskOp a b) s

/-! ### chstat, mnext (R181, R204) -/

/-- The word that a selector and a channel give (Tables 8-1 to 8-4). -/
def chanWord (k : Core) (sel n : Nat) : Nat :=
  let e := nth k.chans n {}
  match sel with
  | 0 => ctlWord e.ctl
  | 1 => bnat e.ready + 2 * bnat e.hold + 4 * bnat e.mask + 8 * bnat e.runnable + e.bind * 2 ^ 16
  | 2 => e.skip + e.fill * 2 ^ 12 + e.head * 2 ^ 25 + e.base * 2 ^ 37 + e.size * 2 ^ 51
  | 3 => if e.bind = 2 then ctlWord e.pend else 0
  | 4 =>
    ((List.range 32).map (fun i => bnat (nth k.chans i {}).runnable * 2 ^ i)).foldl (· + ·) 0 + k.last * 2 ^ 32
      + bnat (k.run != .idle) * 2 ^ 37 + k.hdrs.length * 2 ^ 40
  | _ => 0

/-- `chstat`. -/
def chstatOp (d a : Spec) (c : CoreId) (s : State) : Dev State :=
  opDA d a (fun v c s => do
    needD (v < 256) .undef 2
    .ok (chanWord (s.core c) (v / 32) (v % 32), s)) c s

def execChstat (d a : Spec) (s : State) : Host.Outcome State Fault Refusal :=
  nativeOp (.chstat d a) (fun _ => 1) (chstatOp d a) s

/-- The message after the one in the window, in the span of the running firing. -/
def nextMessage (k : Core) : Option (Hdr × Nat) :=
  match k.run with
  | .firing ch =>
    (spanMessages ch (nth k.chans ch {}).ctl.rate k.hdrs 0).find? (fun m => decide (field (wsWord k 0x3C8) 21 16 < m.2))
  | _ => none

/-- `mnext`. -/
def mnextOp (d : Spec) (c : CoreId) (s : State) : Dev State :=
  opD d (fun c s =>
    let k := s.core c
    match nextMessage k with
    | some (h, pos) =>
      .ok (hdrLen h.word, s.setCore c { k with
        ls := memWrite (memWrite k.ls (k.wp + 0x3C0) 8 h.word) (k.wp + 0x3C8) 8 (pos * 2 ^ 16) })
    | none => .ok (0, s)) c s

def execMnext (d : Spec) (s : State) : Host.Outcome State Fault Refusal := nativeOp (.mnext d) (fun _ => 1) (mnextOp d) s

end Sys2Proof.Machine
end

