-- ==== Sys2Proof/Machine/Copies.lean ====
section
/-!
DEFINITION. Tiles and copies as a core issues them (R205-R212, R220-R228): the shape record's substitution (R35), the
geometry of a job, the checks of `cpy` and `cpys`, and the tile and job instructions. What the couch and the streamers
do is in the copy events.
-/
namespace Sys2Proof.Machine

/-! ### Shape records (R35) -/

/-- A field of a shape record, with the low 16 bits of the word that a marker names. -/
def shapeField (k : Core) (f : BitVec 16) : Except Stop Nat :=
  if f.toNat < 0xFF00 then .ok f.toNat
  else do
    let v ← loadAt k (k.wp + 8 * (f.toNat % 32)) 8
    .ok (v % 2 ^ 16)

def Shape.fields (r : Shape) : List (BitVec 16) := [r.f0, r.f1, r.f2, r.f3, r.f4, r.f5, r.f6, r.f7]

/-- The eight values of a shape record. -/
def shapeVals (k : Core) (r : Shape) : Except Stop (List Nat) := (Shape.fields r).mapM (shapeField k)

/-! ### The geometry of a job (R211, R212) -/

/-- The extent in bytes. -/
def Job.extent (j : Job) : Nat := j.rows * j.rlen

/-- Participants of a `cpys`: P = W·H·C. -/
def slabCount (w h c : Nat) : Nat := w * h * c

/-- The logical core of participant q of a slab whose origin is n0 (R212, R20). -/
def participant (n0 w c q : Nat) : Nat :=
  let row := n0 / 8
  let x := row % 64 + q / c % w
  let y := row / 64 + q / c / w
  8 * (64 * y + x) + n0 % 8 + q % c

/-- A row of a job at its destination: the participant (0 but for a slab), the source address and the offset from the
destination's base. -/
structure JRow where
  q : Nat
  src : Nat
  off : Nat
deriving DecidableEq, Repr

/-- Source address of row r. -/
def Job.rowSrc (j : Job) (r : Nat) : Nat := toPattern 64 ((j.src : Int) + (r : Int) * j.sstr)

/-- Row r of a job. -/
def Job.row (j : Job) (r : Nat) : JRow :=
  match j.kind with
  | .slab _ blk w h c =>
    let p := slabCount w h c
    { q := r / blk % p, src := j.rowSrc r, off := 8 * j.doff + (r / (blk * p) * blk + r % blk) * j.dstr }
  | _ => { q := 0, src := j.rowSrc r, off := 8 * j.doff + r * j.dstr }

/-- The rows of a job. -/
def Job.rowList (j : Job) : List JRow := if j.rlen = 0 then [] else (List.range j.rows).map j.row

/-- The chunk number of a unit of 512 bytes of a participant. -/
def chunkNo (q unit : Nat) : Nat := q * 2 ^ 40 + unit

/-- The units of 512 bytes that a row touches, as chunk numbers. -/
def rowChunks (rlen : Nat) (r : JRow) : List Nat :=
  (List.range ((r.off + rlen - 1) / 512 + 1 - r.off / 512)).map (fun i => chunkNo r.q (r.off / 512 + i))

/-- The least chunk number at or after n that a job touches. -/
def Job.nextChunk (j : Job) (n : Nat) : Option Nat :=
  (j.rowList.flatMap (rowChunks j.rlen)).foldl (fun best c =>
    if c < n then best else match best with
      | none => some c
      | some b => some (min b c)) none

/-- A piece of a chunk that lies in one 64-byte unit of the source address and one of the destination address. -/
structure Piece where
  src : Nat
  off : Nat
  len : Nat
deriving DecidableEq, Repr

/-- Split n bytes at a source address and a destination offset, from a destination at `base`, into pieces; `fuel` bounds
their number. -/
def splitPieces (base : Nat) : Nat → Nat → Nat → Nat → List Piece
  | 0, _, _, _ => []
  | fuel + 1, src, off, n =>
    if n = 0 then []
    else
      let m := min n (min (64 - src % 64) (64 - (base + off) % 64))
      { src := src, off := off, len := m } :: splitPieces base fuel (src + m) (off + m) (n - m)

/-- The address from which the offsets of a job's destination count, as far as its 64-byte units need it: tiles and
stages begin on such a unit (R205, R171). -/
def Job.base (j : Job) : Nat := match j.kind with | .addr => j.dst | _ => 0

/-- The pieces of chunk c of a job. -/
def Job.pieces (j : Job) (c : Nat) : List Piece :=
  (j.rowList.filter (fun r => r.q == c / 2 ^ 40)).flatMap (fun r =>
    let lo := max r.off (512 * (c % 2 ^ 40))
    let hi := min (r.off + j.rlen) (512 * (c % 2 ^ 40) + 512)
    if lo < hi then splitPieces j.base 24 (r.src + (lo - r.off)) lo (hi - lo) else [])

/-! ### Jobs and tiles (R206) -/

/-- The tile of the issuing core that a job targets. -/
def ownTile (s : State) (j : Job) : Option Nat :=
  match j.kind with
  | .tile t => some t
  | .slab t _ w h c =>
    if j.core.cls == .compute && (List.range (slabCount w h c)).any (fun q =>
        participant j.dst w c q == (s.core j.core).logical) then some t else none
  | _ => none

/-- A job targets tile t of core c: it has been issued there, is not done, and names the tile. -/
def targetsTile (s : State) (c : CoreId) (t : Nat) : Bool :=
  s.jobs.any (fun j => j.core == c && ownTile s j == some t)

/-- The context address of a core's own local store: its core window, or its window in the system window (R20, R21). -/
def ownWindow (c : CoreId) (k : Core) : Nat :=
  match c.cls with
  | .compute => 0x20000 * k.logical
  | .control => 0xA0000000 + 0x100000 * c.idx
  | .gateway => 0xA4000000 + 0x20000 * c.idx

/-- A job of a core reads bytes [a, a+n) of the core's own local store. -/
def readsLocal (s : State) (c : CoreId) (a n : Nat) : Bool :=
  s.jobs.any (fun j => j.core == c && j.phase != .failing &&
    j.rowList.any (fun r => meets r.src j.rlen (ownWindow c (s.core c) + a) n))

/-- Jobs of this core that target or read a tile. -/
def tileBusy (s : State) (c : CoreId) (t : Nat) : Bool :=
  let e := nth (s.core c).tiles t {}
  targetsTile s c t || (e.nch != 0 && readsLocal s c e.base (512 * e.nch))

def modTile (k : Core) (t : Nat) (f : Tile → Tile) : Core := { k with tiles := setAt k.tiles t (f (nth k.tiles t {})) }

/-- The trap of an instruction that names a tile whose ERR is 1 (R220, R264): the job surfaces, or an ordinary trap. -/
def tileError (k : Core) (t : Nat) : Trap :=
  let e := nth k.tiles t {}
  match k.jobs.reverse.find? (fun p => match p.2 with
      | .failed _ false pl _ => pl == some (.tile t)
      | _ => false) with
  | some (id, .failed tr _ _ _) => { tr with cause := .tile, sub := 0x20, job := id, async := true }
  | _ => { cause := .tile, sub := 0x20, addr := e.base }

/-- ERR of a tile is 0, or its trap. -/
def tileNoErr (s : State) (c : CoreId) (t : Nat) : Dev Unit :=
  if (nth (s.core c).tiles t {}).err then .error (.trap (tileError (s.core c) t)) else .ok ()

/-- A tile must be defined (R205). -/
def tileDefined (s : State) (c : CoreId) (t : Nat) : Dev Unit := needD ((nth (s.core c).tiles t {}).nch != 0) .tile 2

/-! ### tdef, tarm, twait, ttest, tdrain (R206, R225, R226) -/

/-- `tdef`. -/
def tdefOp (t : Fin 16) (a : Spec) (c : CoreId) (s : State) : Dev State :=
  opA a (fun v c s => do
    let base := field v 16 0
    let nch := field v 38 32
    needD (field v 31 17 == 0 && field v 63 39 == 0 && 1 ≤ nch && nch ≤ 64) .tile 3 (nth (s.core c).tiles t.val {}).base
    needD (base % 512 == 0) .align 0 base
    needD (base + 512 * nch ≤ topOf c.cls) .fabric 0 base
    untilD (!(s.core c).kheld.contains t.val && !tileBusy s c t.val && (nth (s.core c).tiles t.val {}).st != .draining) s
    .ok (s.modCore c (fun k => modTile k t.val (fun _ => { base := base, nch := nch })))) c s

def execTdef (t : Fin 16) (a : Spec) (s : State) : Host.Outcome State Fault Refusal :=
  nativeOp (.tdef t a) (fun _ => 1) (tdefOp t a) s

/-- `tarm` (R206): a held tile, too, makes it wait (R162). -/
def tarmOp (t : Fin 16) (a : Spec) (c : CoreId) (s : State) : Dev State :=
  opA a (fun m c s => do
    tileDefined s c t.val
    let e := nth (s.core c).tiles t.val {}
    needD (m / 2 ^ e.nch == 0) .tile 4 e.base
    tileNoErr s c t.val
    untilD (!(s.core c).kheld.contains t.val && (e.st == .empty || e.st == .ready || !targetsTile s c t.val)) s
    .ok (s.modCore c (fun k => modTile k t.val (fun e =>
      { e with st := if m = 0 then .empty else .filling, exp := m, arr := 0 })))) c s

def execTarm (t : Fin 16) (a : Spec) (s : State) : Host.Outcome State Fault Refusal :=
  nativeOp (.tarm t a) (fun _ => 1) (tarmOp t a) s

/-- `twait`. -/
def twaitOp (t : Fin 16) (a : Spec) (c : CoreId) (s : State) : Dev State :=
  opA a (fun m c s => do
    tileDefined s c t.val
    let e := nth (s.core c).tiles t.val {}
    needD (m / 2 ^ e.nch == 0) .tile 4 e.base
    tileNoErr s c t.val
    let w := if m = 0 then e.exp else m
    untilD (natAnd w e.arr == w) s
    .ok s) c s

def execTwait (t : Fin 16) (a : Spec) (s : State) : Host.Outcome State Fault Refusal :=
  nativeOp (.twait t a) (fun _ => 1) (twaitOp t a) s

/-- `ttest`. -/
def ttestOp (d : Spec) (t : Fin 16) (c : CoreId) (s : State) : Dev State :=
  opD d (fun c s => do
    tileDefined s c t.val
    tileNoErr s c t.val
    .ok ((nth (s.core c).tiles t.val {}).arr, s)) c s

def execTtest (d : Spec) (t : Fin 16) (s : State) : Host.Outcome State Fault Refusal :=
  nativeOp (.ttest d t) (fun _ => 1) (ttestOp d t) s

/-- The first issue of a `tdrain`: its checks, and STATE := draining, with the state that the tile had (R206). -/
def drainStart (t : Nat) (c : CoreId) (s : State) : Dev State := do
  tileDefined s c t
  tileNoErr s c t
  .ok (s.modCore c (fun k => { modTile k t (fun e => { e with st := .draining }) with
    drainp := some (t, (nth k.tiles t {}).st) }))

/-- `tdrain`: the tile drains from the first issue on, and is empty when nothing of the core uses it. An ERR that a chunk
sets meanwhile stands and does not end the wait (Table 9-1). -/
def tdrainOp (t : Fin 16) (c : CoreId) (s : State) : Dev State := do
  let s1 ← if (s.core c).drainp.isSome then .ok s else drainStart t.val c s
  untilD (!(s1.core c).kheld.contains t.val && !tileBusy s1 c t.val) s1
  .ok (s1.modCore c (fun k => { modTile k t.val (fun e => { e with st := .empty, exp := 0, arr := 0 }) with
    drainp := none }))

def execTdrain (t : Fin 16) (s : State) : Host.Outcome State Fault Refusal :=
  nativeOp (.tdrain t) (fun _ => 1) (tdrainOp t) s

/-! ### jwait, jpoll (R208, R220, R227) -/

/-- The status of an id: complete outside the window. -/
def jobStatus (k : Core) (id : Nat) : JobStatus := (alookup id k.jobs).getD .complete

/-- The trap of a failed job: at its first surfacing the record names the `cpy`, later the instruction (R264). -/
def jobTrap (id : Nat) (t : Trap) (surfaced : Bool) : Trap :=
  if surfaced then { cause := t.cause, sub := t.sub, addr := t.addr, job := id } else { t with job := id, async := true }

/-- `jwait`. -/
def jwaitOp (a : Spec) (c : CoreId) (s : State) : Dev State :=
  opA a (fun v c s => do
    needD (v < 2 ^ 16) .undef 2
    match jobStatus (s.core c) v with
    | .complete => .ok s
    | .pending => .error (.wait s)
    | .failed t sf _ _ => .error (.trap (jobTrap v t sf))) c s

def execJwait (a : Spec) (s : State) : Host.Outcome State Fault Refusal := nativeOp (.jwait a) (fun _ => 1) (jwaitOp a) s

/-- `jpoll`. -/
def jpollOp (d a : Spec) (c : CoreId) (s : State) : Dev State :=
  opDA d a (fun v c s => do
    needD (v < 2 ^ 16) .undef 2
    match jobStatus (s.core c) v with
    | .complete => .ok (1, s)
    | .pending => .ok (0, s)
    | .failed t sf _ _ => .error (.trap (jobTrap v t sf))) c s

def execJpoll (d a : Spec) (s : State) : Host.Outcome State Fault Refusal :=
  nativeOp (.jpoll d a) (fun _ => 1) (jpollOp d a) s

/-! ### cpy, cpys (R208-R212, R223, R224) -/

/-- The largest number of jobs that a couch holds (R14, R209). -/
def couchSize (c : CoreId) : Nat := match c.cls with | .compute => 32 | _ => 8

/-- Jobs that hold an entry of a couch. -/
def couchUsed (s : State) (couch : Nat) : Nat := (s.jobs.filter (fun j => j.couch == couch && j.phase != .failing)).length

/-- The next core stalled for an entry of a row's couch, in rotation of k (R14). -/
def nextStalled (s : State) (row : Nat) : Option CoreId :=
  ((List.range 8).map (fun i => coreAt row (((s.row row).clast + 1 + i) % 8))).find? (fun c => (s.core c).cwait)

/-- Whether a core may take an entry of its couch now. -/
def mayQueue (s : State) (c : CoreId) : Bool :=
  decide (couchUsed s (couchOf c) < couchSize c) &&
    (match c.cls with
     | .compute => match nextStalled s (rowOf c) with
       | some x => x == c
       | none => true
     | _ => true)

/-- The count that a job holds by its destination (R217): 1 for ct.f where DST lies in a fabric window, 2 for ct.b where
it lies in bulk space; a DST in neither is not counted. -/
def jobCount (j : Job) : Nat :=
  match j.kind with
  | .addr => if j.extent = 0 then 0 else if isBulk j.dst then 2 else if j.dst < 0xB0000000 then 1 else 0
  | _ => 0

/-- The job's fields that its record gives must be in range (R224, step 1). -/
def recordOk (slab : Bool) (v : List Nat) : Bool :=
  let rows := nth v 1 0
  let rlen := nth v 2 0
  let dstr := nth v 3 0
  decide (rows ≤ 4096) && decide (rlen ≤ 32768) && decide (dstr ≤ 32768) && rlen % 8 == 0 && dstr % 8 == 0 &&
    (decide (rlen ≤ dstr) || decide (rows ≤ 1)) &&
    (!slab || (decide (1 ≤ nth v 5 0) && decide (nth v 5 0 ≤ 4096) &&
      decide (1 ≤ field (nth v 6 0) 6 0) && decide (field (nth v 6 0) 6 0 ≤ 64) &&
      decide (1 ≤ field (nth v 6 0) 12 7) && decide (field (nth v 6 0) 12 7 ≤ 32) &&
      (nth v 7 0 == 1 || nth v 7 0 == 2 || nth v 7 0 == 4 || nth v 7 0 == 8)))

/-- Rows inside a destination of n bytes. -/
def rowsFit (v : List Nat) (n : Nat) : Bool :=
  nth v 1 0 == 0 || decide (8 * nth v 4 0 + (nth v 1 0 - 1) * nth v 3 0 + nth v 2 0 ≤ n)

/-- Check 5 of R224. -/
def copyTile (s : State) (c : CoreId) (t : Nat) (v : List Nat) : Dev Unit := do
  tileDefined s c t
  tileNoErr s c t
  let e := nth (s.core c).tiles t {}
  needD (e.st == .filling) .tile 1 e.base
  needD (rowsFit v (512 * e.nch)) .tile 5 e.base

/-- Check 6 of R224. -/
def copyRing (s : State) (c : CoreId) (q : Nat) (v : List Nat) : Dev Unit := do
  let r := nth (s.row (rowOf c)).rings q {}
  needD (r.claim == none || r.claim == some (s.core c).lkey) .priv 0x20
  needD (r.count != 0) .tile 0x22
  needD (rowsFit v r.size) .tile 0x24 (r.base + r.size * r.tail)

/-- A job behind those of its couch, but for jobs queued in the same cycle by cores of a higher k (R429). -/
def enqueueJob (js : List Job) (j : Job) : List Job :=
  let after (x : Job) : Bool := x.couch == j.couch && x.since == j.since && x.phase == .queued && decide (j.core.idx < x.core.idx)
  js.filter (fun x => !after x) ++ [j] ++ js.filter after

/-- The job put into the couch's queue, the id and the counts (R208, R216, R217). -/
def queueJob (s : State) (c : CoreId) (j : Job) : State :=
  let k := s.core c
  let cnt := jobCount j
  let zero := j.extent = 0
  let prev := (s.jobs.reverse.find? (fun x => x.core == c && x.id == (k.jobc + 65535) % 65536)).map (·.uid)
  let j1 := { j with counted := cnt, prev := if j.o then prev else none, mid := k.midc, since := s.cycle }
  let s1 := s.setCore c { dropFence k with
    jobc := (k.jobc + 1) % 65536
    jobs := ((k.jobc, if zero then .complete else .pending) :: k.jobs).take 64
    midc := if j.msg = 0 then k.midc else (k.midc + 1) % 65536
    ctf := k.ctf + bnat (cnt == 1), ctb := k.ctb + bnat (cnt == 2), cwait := false }
  let s2 := match c.cls with
    | .compute => s1.modRow (rowOf c) (fun r => { r with clast := placeOf c })
    | _ => s1
  { s2 with jobs := enqueueJob s2.jobs j1, nextUid := s2.nextUid + 1 }

/-- The kind of a copy as encoded. -/
def copyKind (slab : Bool) (q t kind : Nat) (v : List Nat) : JobKind :=
  if slab then .slab t (nth v 5 0) (field (nth v 6 0) 6 0) (field (nth v 6 0) 12 7) (nth v 7 0)
  else match kind with
    | 0 => .tile t
    | 1 => .ring q
    | _ => .addr

/-- `cpy` and `cpys` (R224, R210). -/
def copyOp (slab : Bool) (q t kind : Nat) (o : Bool) (d : Spec) (r : Shape) (c : CoreId) (s : State) : Dev State := do
  let k := s.core c
  let v ← ofCore s (shapeVals k r)
  -- step 1
  needD (if slab then nth v 6 0 / 2 ^ 13 == 0 else nth v 5 0 == 0 && nth v 6 0 == 0 && nth v 7 0 == 0) .undef 1
  needD ((if slab then kind == 0 else decide (kind < 3)) && !(kind == 1 && c.cls != .compute) && recordOk slab v) .undef 3
  needD (okDst d) .undef 2
  let _ ← dstZ s c d 0
  -- steps 2 and 3
  let blk := 64 * nth v 0 0
  needD (blk + 64 ≤ topOf c.cls) .fabric 0 blk
  untilD (!unreadyAt k blk 64) s
  let w (i : Nat) : Nat := readLocal k (blk + 8 * i) 8
  needD (w 6 == 0 && w 7 == 0 && (if slab then w 1 / 2 ^ 14 == 0 else kind == 2 || w 1 == 0)) .undef 1
  -- step 4
  needD (w 0 % 8 == 0) .align 0 (w 0)
  needD (slab || kind != 2 || w 1 % 8 == 0) .align 0 (w 1)
  needD (w 2 % 8 == 0) .align 0 (w 2)
  needD (w 3 % 8 == 0) .align 0 (w 3)
  -- steps 5 to 7
  if slab then
    let n0 := w 1
    needD (n0 / 8 % 64 + field (nth v 6 0) 6 0 ≤ 64 && n0 / 8 / 64 + field (nth v 6 0) 12 7 ≤ 32
      && n0 % 8 + nth v 7 0 ≤ 8) .tile 6 (nth k.tiles t {}).base
  else if kind = 0 then copyTile s c t v
  else if kind = 1 then copyRing s c q v
  else .ok ()
  untilD (fenceClear k) s
  let j : Job :=
    { uid := s.nextUid, couch := couchOf c, core := c, id := k.jobc, kind := copyKind slab q t kind v, o := o
      rows := nth v 1 0, rlen := nth v 2 0, dstr := nth v 3 0, doff := nth v 4 0, src := w 0, dst := w 1
      sstr := toSigned 64 (w 2), mbx := w 3, msg := w 4, mdata := w 5, mid := 0, off := k.pc - 20
      obj := (pcPlace s c k).1, ctx := k.ctx, ch := k.channel, cmid := firstMid k k.channel, firing := k.firings }
  untilD (!(jobCount j == 1) || k.ctf < 65535) s
  untilD (!(jobCount j == 2) || k.ctb < 65535) s
  untilD (mayQueue s c) (s.modCore c (fun k => { k with cwait := true }))
  dstZ (queueJob s c j) c d k.jobc

def execCpy (q : Fin 8) (t : Fin 16) (kind : BitVec 3) (o : Bool) (d : Spec) (r : Shape) (s : State) :
    Host.Outcome State Fault Refusal :=
  nativeOp (.cpy q t kind o d r) (fun _ => 4) (copyOp false q.val t.val kind.toNat o d r) s

def execCpys (t : Fin 16) (kind : BitVec 3) (o : Bool) (d : Spec) (r : Shape) (s : State) :
    Host.Outcome State Fault Refusal :=
  nativeOp (.cpys t kind o d r) (fun _ => 4) (copyOp true 0 t.val kind.toNat o d r) s

end Sys2Proof.Machine
end

