-- ==== Sys2Proof/Machine/Kiln.lean ====
section
/-!
DEFINITION. The kiln as cores drive it (R153-R179): format contexts and their combinations, rings and claims, the checks
of R160, acceptance in rotation under the issue budget (R160, R168, R451-R453), and the kiln instructions. What an
accepted operation does afterwards is in the kiln events.
-/
namespace Sys2Proof.Machine

/-! ### Contexts (R154, R155, Table 7-2) -/

/-- The cycles per K-step of a context's combination, or the COMBO subcode. -/
def kcombo (x : KCtx) : Except Nat Nat :=
  match fmtOf x.af, fmtOf x.bf with
  | some a, some b =>
    let blocked := isBlocked a || isBlocked b
    let plain (n : Nat) : Except Nat Nat := if x.slip then .error 2 else .ok n
    let slip (n : Nat) : Except Nat Nat := if x.slip && blocked then .error 2 else .ok n
    match baseFmt a, baseFmt b, x.acc with
    | .s8, .ds8, 0x08 => plain 1
    | .e4m3, .ds8, 0x08 => plain 1
    | .s8, .s8, 0x02 => plain 4
    | .e4m3, .e4m3, 0x08 => slip 4
    | .e4m3, .e5m2, 0x08 => slip 4
    | .e5m2, .e4m3, 0x08 => slip 4
    | .e5m2, .e5m2, 0x08 => slip 4
    | .e2m1, .e2m1, 0x08 => slip 2
    | .bf16, .bf16, 0x08 => slip 16
    | .fp16, .fp16, 0x08 => slip 16
    | _, _, _ => .error 0
  | _, _ => .error 0

/-- The format of a code; an unset context is no combination, so the default is never used. -/
def ctxFmt (code : Nat) : Fmt := (fmtOf code).getD .s8

/-- Bytes of a row of A, and of a stage of B (R156, R157). -/
def rowABytes (af : Nat) : Nat := 8 * fmtBits (ctxFmt af) + (if isBlocked (ctxFmt af) then 2 else 0)
def stageBytes (bf : Nat) : Nat := 512 * fmtBits (ctxFmt bf) + (if isBlocked (ctxFmt bf) then 128 else 0)

/-- The context as `kstat` gives it (Table 7-1). -/
def kctxWord (x : KCtx) : Nat := x.af + x.bf * 2 ^ 8 + x.acc * 2 ^ 16 + bnat x.slip * 2 ^ 24

/-! ### Rings (R158, R159) -/

def ringOf (s : State) (row q : Nat) : Ring := nth (s.row row).rings q {}
def modRing (s : State) (row q : Nat) (f : Ring → Ring) : State :=
  s.modRow row (fun r => { r with rings := setAt r.rings q (f (nth r.rings q {})) })

/-- The row-store address of the stage at bind. -/
def Ring.bindAddr (g : Ring) : Nat := g.base + g.size * g.bind

/-- The state of a stage. -/
def Ring.stage (g : Ring) (i : Nat) : StageState := nth g.stages i .empty

def Ring.setStage (g : Ring) (i : Nat) (x : StageState) : Ring := { g with stages := setAt g.stages i x }

/-- A claim is absent or this launch's. -/
def claimOk (claim : Option Nat) (k : Core) : Bool := claim == none || claim == some k.lkey

/-- The slip matrix is loaded, or an accepted `kslip` will have loaded it before a later operation (R164). -/
def slipReady (r : Row) : Bool := r.slipLoaded || r.kops.any (fun o => match o.kind with | .slip => true | _ => false)

/-- What an operation needs of the slip matrix: nothing, to claim it (`true`), or to find it loaded for its launch
(`false`) (R159, R164). -/
def slipOk (r : Row) (k : Core) : Option Bool → Bool
  | some true => claimOk r.slipClaim k
  | some false => r.slipClaim == some k.lkey && slipReady r
  | none => true

/-- R160, step 3 for a ring; an unconfigured or short ring (step 4). -/
def ringCheck (s : State) (c : CoreId) (q need : Nat) (slip : Option Bool) : Dev Unit := do
  let k := s.core c
  let r := s.row (rowOf c)
  let g := ringOf s (rowOf c) q
  needD (claimOk g.claim k) .priv 0x20
  needD (slipOk r k slip) .priv 0x21
  needD (g.count != 0) .tile 0x22 g.base
  needD (need ≤ g.size) .tile 0x24 g.bindAddr

/-- The trap of an operation that takes a failed stage (R220, R264): the failed job of the issuing core surfaces, or an
ordinary trap with the stage's address. -/
def stageError (k : Core) (q : Nat) (g : Ring) : Trap :=
  match k.jobs.find? (fun p => match p.2 with
      | .failed _ false pl _ => pl == some (.stage q g.bind)
      | _ => false) with
  | some (id, .failed tr _ _ _) => { tr with cause := .tile, sub := 0x23, job := id, async := true }
  | _ => { cause := .tile, sub := 0x23, addr := g.bindAddr }

/-- R160, step 6. -/
def stageCheck (s : State) (c : CoreId) (q : Nat) : Dev Unit := do
  let g := ringOf s (rowOf c) q
  if g.stage g.bind == .error then .error (.trap (stageError (s.core c) q g))
  else untilD (g.stage g.bind == .ready) s

/-- A byte of the rows of A still waits for a pending value (R254). -/
def rowsUnready (k : Core) (a stride m rowa : Nat) : Bool := (List.range m).any (fun i => unreadyAt k (a + i * stride) rowa)

/-- R160, steps 4 and 5 for the tile of A. -/
def tileCheck (s : State) (c : CoreId) (t off stride m rowa : Nat) : Dev Unit := do
  let e := nth (s.core c).tiles t {}
  needD (off % 8 == 0) .align 0 off
  tileDefined s c t
  needD (off + (m - 1) * stride + rowa ≤ 512 * e.nch) .tile 0x21 e.base
  tileNoErr s c t
  untilD (e.st == .ready) s
  untilD (!rowsUnready (s.core c) (e.base + off) stride m rowa) s

/-! ### The issue budget (R168, R451-R453) -/

/-- A charge is admitted in the current window. -/
def admitted (i : Island) (c : Nat) : Bool := decide (i.used + c + i.debt ≤ i.allow) || (i.used == 0 && i.debt == 0)

/-- The cores of a request: the core, or the participants of its gang on the row. -/
def reqCores (s : State) (c : CoreId) (q : KReq) : List CoreId := if q.gang then rowGang s c else [c]

/-- The charge of a request: T for each slice, where T is above 1 (R168). -/
def reqCharge (s : State) (c : CoreId) (q : KReq) : Nat :=
  match q.kind with
  | .mm _ kcount _ _ _ =>
    let t := (match kcombo (s.core c).kctx with | .ok n => n * kcount | .error _ => 0)
    if t ≤ 1 then 0 else t * (reqCores s c q).length
  | _ => 0

/-- The participant whose grant an acceptance uses: the lowest that holds one. -/
def grantHolder (s : State) (c : CoreId) (q : KReq) : Option CoreId :=
  (reqCores s c q).find? (fun x => decide (0 < (s.core x).grants))

/-- The order of R452 of a row. -/
def rowOrder (row : Nat) : Nat := 32 * (row % 64) + row / 64

/-- The budget has room for the request: no charge, a grant, or a charge that is admitted (R451). -/
def budgetRoom (s : State) (c : CoreId) (q : KReq) : Bool :=
  let ch := reqCharge s c q
  ch == 0 || (grantHolder s c q).isSome || admitted (nth s.islands (islandOf (rowOf c)) {}) ch

/-- The budget lets the request pass: there is room, and a charge comes in the order of R452. -/
def budgetOk (s : State) (c : CoreId) (q : KReq) : Bool :=
  let i := nth s.islands (islandOf (rowOf c)) {}
  budgetRoom s c q && (reqCharge s c q == 0 || (grantHolder s c q).isSome || i.kord.1 != s.cycle + 1
    || decide (i.kord.2 < rowOrder (rowOf c)))

/-! ### Acceptance (R160) -/

/-- Two participants ask for one operation (Table 7-5): the mode, kcount and n agree. ZERO and KEEP are no fields that
the barrier compares; the operation takes them from the participant of lowest place (log 88, DESIGN CHOICE). -/
def sameOp : KOpKind → KOpKind → Bool
  | .mm x kc n _ _, .mm x' kc' n' _ _ => x == x' && kc == kc' && n == n'
  | a, b => a == b

/-- Every participant of a gang's request waits at the barrier, with no trap held for it and equal fields. -/
def gangMet (s : State) (c : CoreId) (q : KReq) : Bool :=
  (rowGang s c).all (fun x =>
    let k := s.core x
    k.kgc == (s.core c).kgc && k.kverd.all (fun v => v.1 != k.kgc) && k.kctx == (s.core c).kctx &&
    (match k.kreq with
     | some p => p.gang && sameOp p.kind q.kind && p.ring == q.ring
     | none => false))

/-- The bytes of a stage that a request needs, and what it needs of the slip matrix. -/
def reqNeed (k : Core) (q : KReq) : Nat × Option Bool :=
  match q.kind with
  | .slip => (8192, some true)
  | .clr => (0, none)
  | .mm x _ _ _ _ =>
    (if k.kctx.slip && x then 8192 else stageBytes k.kctx.bf, if k.kctx.slip then some false else none)

/-- The tile of a request is still ready. -/
def reqTile (k : Core) (q : KReq) : Bool :=
  match q.kind with
  | .mm _ _ _ _ _ => let e := nth k.tiles q.part.tile {}; e.st == .ready && !e.err
  | _ => true

/-- Steps 1 to 8 of R160 hold for the request of a core now; what another core has changed since it was registered is
tested again, and its instruction, when it issues again, raises the trap. -/
def passes (s : State) (c : CoreId) (q : KReq) : Bool :=
  let row := s.row (rowOf c)
  let need := reqNeed (s.core c) q
  (!q.gang || gangMet s c q) && slipOk row (s.core c) need.2 &&
  (match q.ring with
   | some g => let r := ringOf s (rowOf c) g
     r.count != 0 && claimOk r.claim (s.core c) && need.1 ≤ r.size && r.stage r.bind == .ready
   | none => true) &&
  (reqCores s c q).all (fun x => decide ((s.core x).kout < 4) && reqTile (s.core x) ((s.core x).kreq.getD q))

/-- The request of a core passes every check now. -/
def acceptable (s : State) (c : CoreId) : Bool :=
  match (s.core c).kreq with
  | none => false
  | some q => (!q.gang || (rowGang s c).head? == some c) && passes s c q && budgetOk s c q

/-- The core whose request a row's kiln accepts next, in rotation of k; none in a cycle that has accepted one, nor
while the row's island changes its point (R448). -/
def kilnPick (s : State) (row : Nat) : Option CoreId :=
  let r := s.row row
  if r.kacc = s.cycle + 1 ∨ (nth s.islands (islandOf row) {}).changing then none
  else ((List.range 8).map (fun i => coreAt row ((r.klast + 1 + i) % 8))).find? (fun c => acceptable s c)

/-- A participant's instruction retires: its operand's post-increment, its counts, and the tile held (R160, R162). `own`
says that PC already names the next instruction. -/
def retireReq (q : KReq) (own : Bool) (k : Core) : Core :=
  let k1 := match readZ k q.off with
    | .ok (_, k1) => k1
    | .error _ => k
  { k1 with
    pc := if own then k1.pc else k1.pc + 20
    kreq := none, kout := k1.kout + 1
    kheld := match q.kind with | .mm _ _ _ _ _ => k1.kheld ++ [q.part.tile] | _ => k1.kheld
    kgc := if q.gang then k1.kgc + 1 else k1.kgc }

/-- The charge of an acceptance and the grant it uses (R168, R451, R453). -/
def chargeReq (s : State) (c : CoreId) (q : KReq) : State :=
  let n := islandOf (rowOf c)
  let ch := reqCharge s c q
  if ch = 0 then s
  else
    let setI (s : State) (f : Island → Island) : State := { s with islands := setAt s.islands n (f (nth s.islands n {})) }
    match grantHolder s c q with
    | some g =>
      setI (s.modCore g (fun k => { k with grants := k.grants - 1 })) (fun i => { i with used := i.used + (ch - i.lgrant) })
    | none => setI s (fun i => { i with used := i.used + ch, kord := (s.cycle + 1, rowOrder (rowOf c)) })

/-- The stage an operation takes, and bind (R158). -/
def takeStage (s : State) (row uid : Nat) (q : KReq) : State :=
  match q.ring with
  | none => s
  | some g =>
    let keep := match q.kind with | .mm _ _ _ _ keep => keep | _ => false
    if keep then s
    else modRing s row g (fun r =>
      { r with bind := (r.bind + 1) % max 1 r.count, taken := r.taken ++ [(uid, r.bind, false)] })

/-- A row's kiln accepts the request of core c (R158-R164); `self` is a core whose instruction is issuing now. -/
def acceptReq (s : State) (c : CoreId) (q : KReq) (self : Option CoreId) : State :=
  let row := rowOf c
  let cs := reqCores s c q
  let uid := s.nextUid
  let op : KOp :=
    { uid := uid, kind := q.kind, ctx := (s.core c).kctx, ring := q.ring,
      stage := (match q.ring with | some g => (ringOf s row g).bind | none => 0),
      parts := cs.map (fun x => match (s.core x).kreq with | some p => p.part | none => q.part),
      launch := (s.core c).lkey }
  let s1 := takeStage (chargeReq s c q) row uid q
  let s2 := cs.foldl (fun s x => s.modCore x (fun k => retireReq (k.kreq.getD q) (self == some x) k)) s1
  let s3 := s2.modRow row (fun r =>
    { r with kops := r.kops ++ [op], klast := placeOf c, kacc := s.cycle + 1,
             slipClaim := match q.kind with | .slip => some op.launch | _ => r.slipClaim })
  { s3 with nextUid := uid + 1 }

/-- One acceptance of a row, where a request passes. -/
def acceptRow (s : State) (row : Nat) (self : Option CoreId) : State :=
  match kilnPick s row with
  | none => s
  | some c => match (s.core c).kreq with
    | some q => acceptReq s c q self
    | none => s

/-- A wait on the budget, which a request that passes every other check makes, is counted in `sr.kstall` and in SWIN
(R168, R449, R451, R454). -/
def countStall (s : State) (c : CoreId) (q : KReq) : State :=
  if !passes s c q || budgetRoom s c q then s
  else
    let n := islandOf (rowOf c)
    let s1 := s.modCore c (fun k =>
      { k with kstall := k.kstall - k.kstall % 2 ^ 32 + min (2 ^ 32 - 1) (k.kstall % 2 ^ 32 + 1 + s.stall) })
    { s1 with islands := setAt s1.islands n { nth s1.islands n {} with waited := true } }

/-- The request registered, and accepted at once where the kiln serves it; else the core waits at the instruction. -/
def requestKiln (s : State) (c : CoreId) (q : KReq) : Dev State :=
  let s1 := s.modCore c (fun k => { k with kreq := some q })
  let s2 := acceptRow s1 (rowOf c) (some c)
  if (s2.core c).kreq.isNone then .ok s2 else .error (.wait (countStall s2 c q))

/-! ### kctx, kring (R170, R171) -/

/-- Format codes that a context holds. -/
def ctxFormats : List Nat := [0x00, 0x09, 0x0A, 0x0B, 0x0C, 0x0D, 0x0F, 0x1B, 0x1C, 0x1D, 0x1F]

/-- Reserved fields of a record, from field n on, are 0. -/
def restZero (v : List Nat) (n : Nat) : Dev Unit := needD ((v.drop n).all (· == 0)) .undef 1

def kctxOp (r : Shape) (c : CoreId) (s : State) : Dev State := do
  let v ← ofCore s (shapeVals (s.core c) r)
  restZero v 4
  let f (i : Nat) : Nat := nth v i 0
  needD (ctxFormats.contains (f 0) && ctxFormats.contains (f 1) && (f 2 == 2 || f 2 == 8) && f 3 < 2) .undef 3
  .ok (s.modCore c (fun k => { k with kctx := { af := f 0, bf := f 1, acc := f 2, slip := f 3 == 1 } }))

def execKctx (r : Shape) (s : State) : Host.Outcome State Fault Refusal := nativeOp (.kctx r) (fun _ => 1) (kctxOp r) s

def kringOp (q : Fin 8) (r : Shape) (c : CoreId) (s : State) : Dev State := do
  let v ← ofCore s (shapeVals (s.core c) r)
  restZero v 3
  let base := nth v 0 0
  let size := nth v 1 0
  let count := nth v 2 0
  needD (2 ≤ count && count ≤ 16 && size != 0) .undef 3
  let row := rowOf c
  needD (claimOk (ringOf s row q.val).claim (s.core c)) .priv 0x20
  needD (base + count * size ≤ 2560) .fabric 0 (64 * base)
  untilD (!(ringOf s row q.val).stages.contains .filling && !(s.row row).kops.any (fun o => o.ring == some q.val)) s
  .ok (modRing s row q.val (fun _ =>
    { base := 64 * base, size := 64 * size, count := count, stages := List.replicate count .empty,
      claim := some (s.core c).lkey }))

def execKring (q : Fin 8) (r : Shape) (s : State) : Host.Outcome State Fault Refusal :=
  nativeOp (.kring q r) (fun _ => 1) (kringOp q r) s

/-! ### kslip, kclr (R172, R175) -/

/-- A slice with no tile. -/
def noPart (c : CoreId) : KPart := { k := placeOf c, tile := 16, base := 0, off := 0, stride := 0, m := 0 }

def kslipOp (q : Fin 8) (r : Shape) (c : CoreId) (s : State) : Dev State := do
  let v ← ofCore s (shapeVals (s.core c) r)
  restZero v 0
  ringCheck s c q.val 8192 (some true)
  stageCheck s c q.val
  requestKiln s c { kind := .slip, ring := some q.val, part := noPart c, off := .cst 0 }

def execKslip (q : Fin 8) (r : Shape) (s : State) : Host.Outcome State Fault Refusal :=
  nativeOp (.kslip q r) (fun _ => 1) (kslipOp q r) s

def kclrOp (r : Shape) (c : CoreId) (s : State) : Dev State := do
  let v ← ofCore s (shapeVals (s.core c) r)
  restZero v 0
  requestKiln s c { kind := .clr, ring := none, part := noPart c, off := .cst 0 }

def execKclr (r : Shape) (s : State) : Host.Outcome State Fault Refusal := nativeOp (.kclr r) (fun _ => 1) (kclrOp r) s

/-! ### kmm, kmm.g (R160, R166, R173) -/

/-- The UNDEF checks of a `kmm` on its record and mode (R173, R92). -/
def kmmFields (mode : BitVec 2) (off : Spec) (v : List Nat) : Dev Unit := do
  let f (i : Nat) : Nat := nth v i 0
  needD (f 4 / 4 == 0 && (v.drop 5).all (· == 0)) .undef 1
  needD ((mode == 1 || mode == 2) && 1 ≤ f 0 && f 0 ≤ 64 && f 1 % 8 == 0 && 1 ≤ f 2 && f 2 ≤ 32 && 1 ≤ f 3 && f 3 ≤ 64)
    .undef 3
  needD (okSrc false off) .undef 2

/-- A trap that the wired barrier holds for this `kmm.g` (Table 7-5). -/
def heldVerdict (k : Core) : Option (Cause × Nat) :=
  (k.kverd.find? (fun v => v.1 == k.kgc)).map (fun v => v.2)

/-- What the barrier decides once every participant waits at it (Table 7-5): a difference of contexts or of fields. -/
def gangDiffers (s : State) (c : CoreId) (q : KReq) : Option Nat :=
  let ps := (rowGang s c).filter (fun x => x != c)
  let waiting := ps.all (fun x => (s.core x).kgc == (s.core c).kgc &&
    (match (s.core x).kreq with | some p => p.gang | none => false))
  if !waiting then none
  else if ps.any (fun x => (s.core x).kctx != (s.core c).kctx) then some 0
  else if ps.any (fun x => match (s.core x).kreq with | some p => !sameOp p.kind q.kind || p.ring != q.ring | none => false)
    then some 1
  else none

/-- The trap of the wired barrier, where it has one for this `kmm.g`. -/
def barrierTrap (gang : Bool) (k : Core) : Dev Unit :=
  match (if gang then heldVerdict k else none) with
  | some v => trapD v.1 v.2
  | none => .ok ()

def kmmOp (gang : Bool) (q : Fin 8) (tile : Fin 16) (mode : BitVec 2) (off : Spec) (r : Shape) (c : CoreId) (s : State) :
    Dev State := do
  let k := s.core c
  let v ← ofCore s (shapeVals k r)
  kmmFields mode off v
  let (o, _) ← srcZ s c off
  match kcombo k.kctx with
  | .error sub => trapD .combo sub
  | .ok _ =>
    barrierTrap gang k
    let x := mode == 1
    let slip := k.kctx.slip
    let stride := nth v 1 0
    let m := nth v 2 0
    ringCheck s c q.val (if slip && x then 8192 else stageBytes k.kctx.bf) (if slip then some false else none)
    tileCheck s c tile.val o stride m (rowABytes k.kctx.af)
    stageCheck s c q.val
    let part : KPart :=
      { k := placeOf c, tile := tile.val, base := (nth k.tiles tile.val {}).base, off := o, stride := stride, m := m }
    let req : KReq :=
      { kind := .mm x (nth v 0 0) (nth v 3 0) (nth v 4 0 % 2 == 1) (nth v 4 0 / 2 == 1), ring := some q.val, part := part
        gang := gang, off := off }
    match (if gang then gangDiffers s c req else none) with
    | some sub => trapD .gangfmt sub
    | none => requestKiln s c req

def execKmm (q : Fin 8) (tile : Fin 16) (mode : BitVec 2) (off : Spec) (r : Shape) (s : State) :
    Host.Outcome State Fault Refusal :=
  nativeOp (.kmm q tile mode off r) (fun _ => 1) (kmmOp false q tile mode off r) s

def execKmmG (q : Fin 8) (tile : Fin 16) (mode : BitVec 2) (off : Spec) (r : Shape) (s : State) :
    Host.Outcome State Fault Refusal :=
  nativeOp (.kmmG q tile mode off r) (fun _ => 1) (kmmOp true q tile mode off r) s

/-! ### kst (R174) -/

/-- The output format code of a `kst`, with 0x20 chosen by the core's temper word (R174, R328). -/
def kstFormat (k : Core) (code : Nat) : Nat :=
  if code = 0x20 then kstChoice k.kctx.acc (field (wsWord k 0x3B0) 7 0) (field (wsWord k 0x3B0) 39 32) else code

/-- Rows of elements rounded in order from the core's stream: the codes of each row, the flags and the draw index. -/
def kstRows (conv : Nat → Nat → Rnd) (draw : Nat → Nat) : Nat → List (List Nat) → List (List Nat) × Nat × Nat
  | d, [] => ([], 0, d)
  | d, row :: rows =>
    let r := row.foldl (fun (acc : List Nat × Nat × Nat) x =>
      let y := conv (draw acc.2.2) x
      (acc.1 ++ [y.code], natOr acc.2.1 y.flags, if y.drew then acc.2.2 + 1 else acc.2.2)) ([], 0, d)
    let rest := kstRows conv draw r.2.2 rows
    (r.1 :: rest.1, natOr r.2.1 rest.2.1, rest.2.2)

/-- The bytes of a row of elements; E2M1 packs two to a byte, the even index low (R49). -/
def elemBytes (bits : Nat) (codes : List Nat) : List Byte :=
  toBytes (codes.length * bits / 8) (ofLanes bits codes)

/-- Rows of bytes stored at a stride. -/
def storeRows (stride : Nat) : Nat → List (List Byte) → Core → Except Stop Core
  | _, [], k => .ok k
  | x, b :: bs, k => do
    let k1 ← storeAt k x b
    storeRows stride (x + stride) bs k1

/-- The accumulator pattern of a cell. -/
def accCell (m : Mem) (i j : Nat) : Nat := memRead m (4 * (64 * i + j)) 4

/-- The cells of a window cleared. -/
def clearWindow (m : Mem) (row0 col0 rows cols : Nat) : Mem :=
  (List.range rows).foldl (fun m i => memClear m (4 * (64 * (row0 + i) + col0)) (4 * (64 * (row0 + i) + col0 + cols))) m

/-- `kst` once its fields are known. -/
def kstStore (k : Core) (code : Nat) (rm : RMode) (x stride m n row0 col0 : Nat) (clear : Bool) : Except Stop Core := do
  let f := (fmtOf code).getD .fp32
  let g : Fmt := if k.kctx.acc = 2 then .s32 else .fp32
  let rows := (List.range m).map (fun i => (List.range n).map (fun j => accCell k.acc (row0 + i) (col0 + j)))
  let (cs, fl, d) := kstRows (fun u y => cvtFrom g f (e5o k) rm u y) (coreDraw k) (drawIndex k) rows
  let k1 ← storeRows stride x (cs.map (elemBytes (fmtBits f))) k
  let k2 := orSticky (setDrawIndex k1 d) fl
  .ok { k2 with acc := if clear then clearWindow k2.acc row0 col0 m n else k2.acc }

def kstOp (rm : BitVec 3) (xs : Spec) (r : Shape) (c : CoreId) (s : State) : Dev State := do
  let k := s.core c
  let v ← ofCore s (shapeVals k r)
  let f (i : Nat) : Nat := nth v i 0
  needD (f 6 < 2 && f 7 == 0) .undef 1
  let code := kstFormat k (f 0)
  needD ((f 0 ≤ 0x0D || f 0 == 0x20) && 1 ≤ f 2 && 1 ≤ f 3 && f 4 + f 2 ≤ 32 && f 5 + f 3 ≤ 64 && rm.toNat < 5
    && !(code == 0x0D && f 3 % 2 == 1)) .undef 3
  needD (okSrc false xs) .undef 2
  let (x, s1) ← srcZ s c xs
  let bits := fmtBits ((fmtOf code).getD .fp32)
  let sz := max 1 (bits / 8)
  needD (x + (f 2 - 1) * f 1 + f 3 * bits / 8 ≤ 0x12000) .fabric 0 x
  needD (x % sz == 0 && f 1 % sz == 0) .align 0 x
  untilD ((s1.core c).kout == 0) s
  let k2 ← ofCore s (kstStore (s1.core c) code ((rmodeOf rm.toNat).getD .rne) x (f 1) (f 2) (f 3) (f 4) (f 5) (f 6 == 1))
  .ok (s1.setCore c k2)

/-- 4 + ceil(m·n·s/24) cycles. -/
def kstCost (r : Shape) (k : Core) : Nat :=
  match shapeVals k r with
  | .ok v => 4 + (nth v 2 0 * nth v 3 0 * fmtBits ((fmtOf (kstFormat k (nth v 0 0))).getD .fp32) + 191) / 192
  | .error _ => 1

def execKst (rm : BitVec 3) (x : Spec) (r : Shape) (s : State) : Host.Outcome State Fault Refusal :=
  nativeOp (.kst rm x r) (kstCost r) (kstOp rm x r) s

/-! ### kadv, kwait (R176, R177) -/

/-- The head stage popped. -/
def popHead (g : Ring) : Ring :=
  let h := g.head
  let h' := (h + 1) % max 1 g.count
  { g.setStage h .empty with head := h', bind := if g.bind = h then h' else g.bind }

/-- n stages popped at the head. -/
def popStages : Nat → Ring → Ring
  | 0, g => g
  | n + 1, g => popStages n (popHead g)

/-- The n stages from the head on are ready or in error. -/
def headReady (g : Ring) (n : Nat) : Bool :=
  (List.range n).all (fun i => let x := g.stage ((g.head + i) % max 1 g.count); x == .ready || x == .error)

/-- An accepted operation of the row holds a stage of ring q that has not been popped. -/
def ringHeld (r : Row) (q : Nat) : Bool := r.kops.any (fun o => o.ring == some q && !o.popped)

/-- `kadv` (R176). The stages pop together once the last of them is ready or in error: a `kadv` whose wait ends in a trap
has popped none (R263). -/
def kadvOp (q : Fin 8) (a : Spec) (c : CoreId) (s : State) : Dev State := do
  let (n, s1) ← srcZ s c a
  let row := rowOf c
  let g := ringOf s row q.val
  needD (claimOk g.claim (s.core c)) .priv 0x20
  if n = 0 then .ok s1
  else do
    needD (n ≤ g.count) .align 0
    untilD (!ringHeld (s.row row) q.val && headReady g n) s
    .ok (modRing s1 row q.val (popStages n))

def execKadv (q : Fin 8) (a : Spec) (s : State) : Host.Outcome State Fault Refusal :=
  nativeOp (.kadv q a) (fun _ => 1) (kadvOp q a) s

def execKwait (s : State) : Host.Outcome State Fault Refusal :=
  nativeOp .kwait (fun _ => 1) (fun c s => do
    untilD ((s.core c).kout == 0) s
    .ok s) s

/-! ### kleave (R178, R453) -/

/-- A request for r grants: granted at once, or registered with the island in arrival order. -/
def askLeave (s : State) (c : CoreId) (r : Nat) : State :=
  let n := islandOf (rowOf c)
  let i := nth s.islands n {}
  if i.waits.isEmpty && admitted i (r * i.lgrant) then
    { s.modCore c (fun k => { k with grants := k.grants + r }) with
      islands := setAt s.islands n { i with used := i.used + r * i.lgrant } }
  else
    { s.modCore c (fun k => { k with lreq := r }) with
      islands := setAt s.islands n { i with waits := i.waits ++ [(c, r)], waited := true } }

/-- A cycle of sleep counted in `sr.kstall`. -/
def countSleep (s : State) (c : CoreId) : State :=
  s.modCore c (fun k =>
    { k with kstall := k.kstall % 2 ^ 32 + 2 ^ 32 * min (2 ^ 32 - 1) (k.kstall / 2 ^ 32 + 1 + s.stall) })

/-- `kleave`. A request that the island has granted is taken here, when the instruction retires. -/
def kleaveOp (d a : Spec) (c : CoreId) (s : State) : Dev State := do
  let (q, s1) ← srcZ s c a
  let _ ← dstZ s1 c d 0
  let k := s.core c
  if q = 0 then do
    let s2 ← dstZ s1 c d k.grants
    .ok (s2.modCore c (fun k => { k with grants := 0 }))
  else match k.lgot with
  | some r => do
    let s2 ← dstZ s1 c d (k.grants + r)
    .ok (s2.modCore c (fun k => { k with grants := k.grants + r, lreq := 0, lgot := none }))
  | none =>
    if k.lreq ≠ 0 then .error (.wait (countSleep s c))
    else
      let r := min q (64 - k.grants)
      if r = 0 then dstZ s1 c d k.grants
      else
        let s2 := askLeave s1 c r
        if (s2.core c).lreq = 0 then dstZ s2 c d (s2.core c).grants
        else .error (.wait (countSleep (askLeave s c r) c))

def execKleave (d a : Spec) (s : State) : Host.Outcome State Fault Refusal :=
  nativeOp (.kleave d a) (fun _ => 1) (kleaveOp d a) s

/-! ### kstat (R179) -/

def stageCode : StageState → Nat
  | .empty => 0
  | .filling => 1
  | .ready => 2
  | .error => 3

/-- Table 7-7. -/
def ringWord (k : Core) (g : Ring) : Nat :=
  if !claimOk g.claim k then 2 ^ 31
  else
    ((List.range g.count).map (fun i => stageCode (g.stage i) * 2 ^ (32 + 2 * i))).foldl (· + ·) 0
      + g.count * 2 ^ 16 + g.tail * 2 ^ 12 + g.bind * 2 ^ 8 + g.head * 2 ^ 4

/-- Table 7-8. -/
def kilnWord (k : Core) (r : Row) : Nat :=
  k.kout + k.grants * 2 ^ 8 + bnat (r.slipLoaded && r.slipClaim == some k.lkey) * 2 ^ 16
    + bnat (!claimOk r.slipClaim k) * 2 ^ 17

def kstatValue (s : State) (c : CoreId) (sel : Nat) : Nat :=
  let k := s.core c
  if sel < 8 then ringWord k (ringOf s (rowOf c) sel)
  else if sel = 8 then kilnWord k (s.row (rowOf c))
  else if sel = 9 then kctxWord k.kctx
  else 0

def execKstat (d a : Spec) (s : State) : Host.Outcome State Fault Refusal :=
  nativeOp (.kstat d a) (fun _ => 1) (opDA d a (fun v c s => .ok (kstatValue s c v, s))) s

end Sys2Proof.Machine
end

