-- ==== Sys2Proof/Machine/LaunchData.lean ====
section
/-!
DEFINITION. Launch records, code objects and kernels as the wheel and the loader read them (R278-R286, R304), the
mailbox word of a completion (R292), and the release ring (R396, R397).
-/
namespace Sys2Proof.Machine

/-! ### The record (Table 14-3) -/

def lword (l : Launch) (i : Nat) : Nat := nth l.words i 0

def launchKidx (l : Launch) : Nat := field (lword l 0) 31 16
def launchCos (l : Launch) : Bool := bitAt (lword l 0) 5
def launchTrign (l : Launch) : Nat := field (lword l 2) 47 32
def launchNgang (l : Launch) : Nat := field (lword l 2) 12 0
def launchPlen (l : Launch) : Nat := field (lword l 12) 56 48
def launchParam (l : Launch) : Nat := field (lword l 12) 47 0
def launchWsb (l : Launch) : Nat := field (lword l 13) 48 32
def launchPdst (l : Launch) : Nat := field (lword l 13) 16 0
def launchNpin (l : Launch) : Nat := field (lword l 14) 63 48
def launchPins (l : Launch) : Nat := field (lword l 14) 47 0
def launchMbx (l : Launch) : Nat := lword l 15
def launchAff (l : Launch) : List Nat := [lword l 4, lword l 5, lword l 6, lword l 7]

def Launch.key (l : Launch) : Nat := l.ctx * 2 ^ 52 + l.id

/-! ### The kernel (Tables 14-2 and 8-1, R280) -/

def kernelClass (l : Launch) : Nat := field (nth l.kent 1 0) 21 20
def kernelN (l : Launch) : Nat := field (nth l.kent 1 0) 19 16
def kernelW (l : Launch) : Nat :=
  if field (lword l 2) 30 24 = 0 then field (nth l.kent 1 0) 6 0 else field (lword l 2) 30 24
def kernelH (l : Launch) : Nat :=
  if field (lword l 2) 21 16 = 0 then field (nth l.kent 1 0) 12 7 else field (lword l 2) 21 16
def kernelEntry (l : Launch) : Nat := field (nth l.kent 0 0) 63 32
def kernelCosched (l : Launch) : Bool := launchCos l || bitAt (nth l.kent 0 0) 7
def kernelNch (l : Launch) : Nat := field (nth l.kent 0 0) 5 0

/-- Word w of channel record i. -/
def chrecWord (l : Launch) (i w : Nat) : Nat := nth l.chrec (4 * i + w) 0

def chrecWsoff (l : Launch) (i : Nat) : Nat := field (chrecWord l i 2) 31 0
def chrecChan (l : Launch) (i : Nat) : Nat := field (chrecWord l i 2) 36 32

/-- The indices of a kernel's channel records. -/
def chrecs (l : Launch) : List Nat := List.range (kernelNch l)

/-- The least WSOFF of the kernel's channels (R286). -/
def leastWsoff (l : Launch) : Nat :=
  ((chrecs l).map (chrecWsoff l)).foldl (fun a b => match a with | none => some b | some x => some (min x b)) none |>.getD 0

/-- The local address of the workspace image of channel record i (R286). -/
def imageAddr (l : Launch) (i : Nat) : Nat := launchWsb l + (chrecWsoff l i - leastWsoff l)

/-- The volatile ranges as start and end. -/
def volatileRanges (l : Launch) : List (Nat × Nat) :=
  ([2, 3, 4, 5].map (fun i => (field (nth l.kent i 0) 16 0, field (nth l.kent i 0) 48 32))).filter (fun p => p.1 < p.2)

/-- The FIFOs as start and end. -/
def fifoRanges (l : Launch) : List (Nat × Nat) :=
  (chrecs l).map (fun i => (8 * field (chrecWord l i 1) 13 0, 8 * (field (chrecWord l i 1) 13 0 + field (chrecWord l i 1) 26 14)))

def imageRanges (l : Launch) : List (Nat × Nat) := (chrecs l).map (fun i => (imageAddr l i, imageAddr l i + 1024))

def overlaps (a b : Nat × Nat) : Bool := a.1 < b.2 && b.1 < a.2

/-- The local ranges of R304 that a kernel takes on each of its cores. -/
def kernelRanges (l : Launch) : List (Nat × Nat) :=
  (imageRanges l ++ fifoRanges l ++ volatileRanges l ++ [(launchPdst l, launchPdst l + 8 * launchPlen l)]).filter
    (fun p => p.1 < p.2)

/-! ### The wheel's reads (R281, R285) -/

/-- n words from a bulk address. -/
def svcWords (s : State) (ctx va n : Nat) : Option (List Nat) :=
  (List.range n).mapM (fun i => svcWord s ctx (va + 8 * i) 8)

/-- The launch with the header, kernel entry and channel records of its code object; none while they have not landed,
or where they cannot be read. -/
def readObject (s : State) (l : Launch) : Option Launch := do
  let hdr ← svcWords s l.ctx (launchCbase l) 8
  let l1 := { l with hdr := hdr }
  let kent ← svcWords s l.ctx (launchCbase l + field (nth hdr 4 0) 63 32 + 64 * launchKidx l) 8
  let l2 := { l1 with kent := kent }
  let chrec ← svcWords s l.ctx (launchCbase l + field (nth kent 1 0) 63 32) (4 * kernelNch l2)
  some { l2 with chrec := chrec }

/-- STREAMED covers the header; the header, tables and prologue (R281). -/
def headerLanded (s : State) (l : Launch) : Bool := 64 ≤ streamed s l
def tablesLanded (s : State) (l : Launch) : Bool :=
  match svcWord s l.ctx (launchCbase l + 0x20) 4, svcWord s l.ctx (launchCbase l + 0x14) 4 with
  | some cimg, some text => cimg + text ≤ streamed s l
  | _, _ => false

/-- The refusal reason of a head, in the order of Table 14-4; 0 where every check passes. `l` holds the tables where
they could be read. -/
def refusalReason (s : State) (l0 : Launch) : Nat :=
  match svcWords s l0.ctx (launchCbase l0) 8, readObject s l0 with
  | none, _ => 1
  | some hdr, obj =>
    if field (nth hdr 0 0) 31 0 ≠ 0x5A960001 ∨ field (nth hdr 0 0) 63 32 ≠ launchObj l0 then 1
    else if field (nth hdr 5 0) 47 32 ≤ launchKidx l0 then 2
    else match obj with
    | none => 1
    | some l =>
    let imgs := imageRanges l
    let top := topOf (classOf (kernelClass l))
    if imgs.any (fun a => (fifoRanges l ++ volatileRanges l).any (overlaps a)) || imgs.any (fun a => top < a.2) then 3
    else if (chrecs l).any (fun i => bitAt (chrecWord l i 1) 63) then 4
    else if 64 < kernelW l ∨ 32 < kernelH l ∨ 64 < kernelW l * kernelH l then 5
    else if l.prod.any (fun p => p != 0 && launchCount l.id ≤ launchCount p) then 6
    else if top < launchPdst l + 8 * launchPlen l then 7
    else if (match l.srcObj with | some o => o != launchObj l && !bitAt (nth l.kent 0 0) 6 | none => false) then 8
    else if kernelClass l = 3 ∨ (kernelClass l ≠ 0 ∧ ¬ (kernelW l = 1 ∧ kernelH l = 1)) then 9
    else 0

/-- A producer id no longer holds a dependent launch back: placed in full, over, or outside the window (R284, R283). -/
def producerPlaced (s : State) (ctx p : Nat) : Bool :=
  p == 0 || !inWindow s ctx p ||
    (match findLaunch s ctx p with
     | some l => l.over || l.st == .placed
     | none => true)

/-- Whether a head is eligible (R284, R281): its producers are placed, or one of them makes it refused, and its object
has landed far enough. -/
def eligible (s : State) (l : Launch) : Bool :=
  l.prod.any (fun p => p != 0 && launchCount l.id ≤ launchCount p) ||
    (l.prod.all (producerPlaced s l.ctx) &&
      (match svcWord s l.ctx (launchCbase l) 8 with
       | none => true
       | some w =>
         headerLanded s l && (w != 0x5A960001 + launchObj l * 2 ^ 32 || tablesLanded s l)))

/-! ### Status and mailbox words (R292, R300) -/

def mailWord (l : Launch) : Nat := 2 ^ 63 + bnat (l.st != .done) * 2 ^ 62 + l.id % 2 ^ 52

def launchState (l : Launch) (elig : Bool) : Nat :=
  match l.st with
  | .queued => bnat elig
  | .placed => 2
  | .done => 3
  | .failed => 4
  | .refused => 5

/-- Table 14-6. -/
def statusWord (s : State) (l : Launch) (elig : Bool) : Nat :=
  l.first + min l.skips 8 * 2 ^ 16 + bnat (s.reserve == some (l.ctx, l.id)) * 2 ^ 20
    + (if l.st == .refused then l.reason else 0) * 2 ^ 28 + l.placedGangs * 2 ^ 32 + launchState l elig * 2 ^ 61

/-! ### The release ring (R396, R397) -/

/-- The descriptor of a control core's release ring, where it lies in local store: its address, base and size. -/
def ringDesc (k : Core) : Nat × Nat × Nat :=
  let w0 := readLocal k k.rring 8
  (k.rring, field w0 16 0, 2 ^ field w0 27 20)

/-- Free entries of the ring. -/
def ringFree (k : Core) : Nat :=
  let (a, _, n) := ringDesc k
  let w1 := readLocal k (a + 8) 8
  n - (field w1 31 0 + 2 ^ 32 - field w1 63 32) % 2 ^ 32

/-- An entry written to the ring, then PI raised; none where the ring is full or does not lie in local store. -/
def ringPut (k : Core) (kind addr : Nat) : Option Core :=
  let (a, base, n) := ringDesc k
  let w1 := readLocal k (a + 8) 8
  let pi := field w1 31 0
  let slot := base + 8 * (pi % n)
  if ringFree k = 0 ∨ 0x12000 < a + 16 ∨ 0x12000 < slot + 8 then none
  else
    let k1 := writeLocal k slot 8 (kind * 2 ^ 60 + addr % 2 ^ 48)
    some (writeLocal k1 (a + 8) 4 ((pi + 1) % 2 ^ 32))

/-- What follows the attempt to put a launch's entry into the ring of a core: where it stands, it is no longer due. -/
def ringDone (s : State) (c : CoreId) (ctx id : Nat) : Option Core → State
  | some k => modLaunch (s.setCore c k) ctx id (fun l => { l with ringDue := false })
  | none => s

/-- A core runs a kernel of a context and can take a store into its ring now. -/
def ringReach (s : State) (c : CoreId) (ctx : Nat) : Bool :=
  (s.core c).life != .free && (s.core c).ctx == ctx && !coreAway (s.core c)

/-- The KIND 1 entry of a launch that is over, where one is due (R397); it stays due while the ring is full or its core is
away. -/
def ringEntry (s : State) (ctx id : Nat) : State :=
  match findLaunch s ctx id with
  | none => s
  | some l =>
    match l.ringDue, l.issuer with
    | true, some c => if ringReach s c ctx then ringDone s c ctx id (ringPut (s.core c) 1 (launchPins l)) else s
    | _, _ => s

end Sys2Proof.Machine
end

