-- ==== Sys2Proof/Machine/Registers.lean ====
section
/-!
DEFINITION. The system window (R21): what a read of each block gives, with the fields that a read clears, and what a
write does. Offsets count from 0x0000_A000_0000. Rights are checked by the access (R21); the host reaches every block
as context 64, which stands for no context (R464).
-/
namespace Sys2Proof.Machine

/-! ### Sticky words of the blocks -/

/-- A bit array of a Nat as a 64-bit word. -/
def bitsWord (x i : Nat) : Nat := x / 2 ^ (64 * i) % 2 ^ 64

/-- The function-ready map (R460). -/
def readyWord (m : Ready) (off : Nat) : Nat :=
  if off < 0x100 then bitsWord m.row (off / 8)
  else match off with
    | 0x100 => m.isl % 2 ^ 16 + m.near % 2 ^ 32 * 2 ^ 16
    | 0x108 => m.far % 2 ^ 8 + m.cxl % 4 * 2 ^ 8 + bnat m.host * 2 ^ 10 + m.link % 2 ^ 16 * 2 ^ 16
    | 0x110 => m.ccore
    | 0x118 => m.gcore
    | 0x120 => m.deckle % 16 + m.svc % 64 * 2 ^ 4 + m.dom % 32 * 2 ^ 10
    | 0x128 => m.stage + m.error * 2 ^ 8
    | _ => 0

/-- The host control block (R466). -/
def hostWord (h : HostPort) (off : Nat) : Nat :=
  match off with
  | 0x00 => h.self + h.sz * 2 ^ 24 + h.sy * 2 ^ 32 + h.sx * 2 ^ 40
  | 0x08 => h.fwlen
  | 0x10 => h.cxlcap % 2 ^ 16 + h.xpres * 2 ^ 16
  | 0x18 => match h.notices with
    | [] => 0
    | (kind, data) :: _ => 2 ^ 63 + kind * 2 ^ 48 + data
  | _ => 0

/-- A link's block (R470). -/
def linkWord (l : Link) (off : Nat) : Nat :=
  if off = 0x00 then bnat l.up * 2 ^ 63 + l.dir * 2 ^ 48
  else if off = 0x08 then l.nblk * 2 ^ 44 + l.g * 2 ^ 36 + l.fmt * 2 ^ 24 + l.lbase
  else if off = 0x10 then l.lstr + l.slots * 2 ^ 20
  else if 0x20 ≤ off ∧ off < 0x40 then
    nth l.tbase ((off - 0x20) / 8) 0 + nth l.tlog ((off - 0x20) / 8) 0 * 2 ^ 24
  else if 0x40 ≤ off ∧ off < 0x60 then nth l.tail ((off - 0x40) / 8) 0
  else if 0x60 ≤ off ∧ off < 0x80 then nth l.head ((off - 0x60) / 8) 0
  else 0

/-- An island's words of the power block (R449). -/
def islandReg (i : Island) (off : Nat) : Nat :=
  match off with
  | 0x00 => i.opt + i.budget * 2 ^ 8 + i.step * 2 ^ 32 + i.lgrant * 2 ^ 48
  | 0x08 => i.cur + min i.used 0xFFFFFF * 2 ^ 8 + min i.debt 0xFFFFFF * 2 ^ 32
  | 0x10 => i.swin
  | _ => 0

/-- The power block (R449). -/
def powerWord (s : State) (off : Nat) : Nat :=
  if off = 0 then s.plimit + s.gov * 2 ^ 16 + s.pmeas * 2 ^ 32
  else if 0x100 ≤ off ∧ off < 0x300 then islandReg (nth s.islands ((off - 0x100) / 0x20) {}) ((off - 0x100) % 0x20)
  else 0

/-- The health block (R447). -/
def healthWord (h : Health) (off : Nat) : Nat :=
  if off < 0x100 then bitsWord h.retired (off / 8)
  else match off with
    | 0x100 => h.linkdn
    | 0x108 => h.ue + h.ce * 2 ^ 32
    | 0x110 => h.last
    | _ => 0

/-- A saggar's word by selector (Tables 15-2 to 15-4, R306). -/
def saggarWord (g : Saggar) (sel : Nat) : Nat :=
  if g.st = 0 then 0
  else match sel with
    | 0 => g.st + bnat g.rest * 2 ^ 4 + g.life * 2 ^ 5 + bnat g.wb * 2 ^ 7 + g.ttag * 2 ^ 8 + g.att * 2 ^ 16 + g.gen * 2 ^ 32
    | 1 => g.psize + g.blk / 64 * 2 ^ 18 + g.org * 2 ^ 30 + g.w * 2 ^ 44 + g.h * 2 ^ 51 + g.c * 2 ^ 57 + bnat g.row * 2 ^ 63
    | 2 => if g.life = 1 then g.expiry else 2 ^ 64 - 1
    | 3 => g.back
    | 4 => g.name
    | _ => 0

/-- The records of a queue, oldest first (R284); a launch with an evicted gang is back at the front (R370). -/
def queueOf (s : State) (ctx q : Nat) : List Launch :=
  let l := s.launches.filter (fun l => l.ctx == ctx && launchQueue l == q && (l.st == .queued || l.st == .placed))
  l.filter (fun l => l.gangs.any (·.evicted)) ++ l.filter (fun l => l.st == .queued && !l.gangs.any (·.evicted))

/-- A word of the launch table (R473). -/
def launchTableWord (s : State) (ctx off : Nat) : Nat :=
  let slot := off / 128
  let owner := slot / 128
  if ctx < 64 ∧ ctx ≠ owner then 0
  else match (queueOf s owner (slot / 8 % 16))[slot % 8]? with
    | some l => nth l.words (off % 128 / 8) 0
    | none => 0

/-- A word of the saggar table (R306). -/
def saggarTableWord (s : State) (ctx off : Nat) : Nat :=
  match alookup (off / 64) s.saggars with
  | some g => if ctx < 64 ∧ g.ctx ≠ ctx then 0 else saggarWord g (off % 64 / 8)
  | none => 0

/-- A word of a serving block (R409). -/
def servReg (s : State) (off : Nat) : Nat :=
  if off % 64 = 0x18 then gnext s (off / 64)
  else if off % 64 < 0x20 then servWord s (off / 64) (off % 64) else 0

/-- A word of the fault-domain registers (R349). -/
def domainWord (s : State) (off : Nat) : Nat :=
  let x := s.dom (off / 0x40)
  match off % 0x40 with
  | 0 => x.fbdest
  | 8 => domainStatus x
  | _ => 0

/-! ### Reads -/

/-- The 8-byte word at a multiple of 8 in the system window outside the core stores, as a context reads it. -/
def sysWord (s : State) (ctx off : Nat) : Nat :=
  if off < 0x8400000 then memRead s.seqs (off - 0x8000000) 8
  else if off < 0x9100000 then saggarTableWord s ctx (off - 0x9000000)
  else if off < 0xA000000 then launchTableWord s ctx (off - 0x9100000)
  else if off < 0xA800000 then memRead s.mbx (off - 0xA000000) 8
  else if off < 0xA900000 then hostWord s.hport (off - 0xA800000)
  else if off < 0xAA00000 then linkWord (nth s.links ((off - 0xA900000) / 0x80) {}) ((off - 0xA900000) % 0x80)
  else if off < 0xAA01000 then readyWord s.rdy (off - 0xAA00000)
  else if off < 0xAB00000 then 0
  else if off < 0xAC00000 then powerWord s (off - 0xAB00000)
  else if off < 0xAD00000 then healthWord s.health (off - 0xAC00000)
  else if off < 0xAE00000 then servReg s (off - 0xAD00000)
  else if off < 0xAF00000 then memRead s.ctxs (off - 0xAE00000) 8
  else domainWord s (off - 0xAF00000)

/-- NOTICE_READ (R466): the oldest notice is removed. -/
def readNotice (s : State) : State := { s with hport := { s.hport with notices := s.hport.notices.drop 1 } }

/-- HEALTH_COUNT_READ (R447): CE and UE become 0. -/
def readHealthCounts (s : State) : State := { s with health := { s.health with ce := 0, ue := 0 } }

def modIsland (s : State) (i : Nat) (f : Island → Island) : State :=
  { s with islands := setAt s.islands i (f (nth s.islands i {})) }

/-- SWIN_READ (R449): SWIN of an island becomes 0. -/
def readSwin (s : State) (i : Nat) : State := modIsland s i (fun x => { x with swin := 0 })

/-- What a read of a word clears (R6): the notice, the health counts, an island's SWIN. -/
def sysReadClear (s : State) (off : Nat) : State :=
  if off = 0xA800018 then readNotice s
  else if off = 0xAC00108 then readHealthCounts s
  else if 0xAB00100 ≤ off ∧ off < 0xAB00300 ∧ off % 0x20 = 0x10 then readSwin s ((off - 0xAB00100) / 0x20)
  else s

/-- Bytes from the words that cover [off, off+n), and the state after the read. -/
def sysReadWords (s : State) (ctx : Nat) : Nat → Nat → List Byte × State
  | 0, _ => ([], s)
  | n + 1, w =>
    let bs := toBytes 8 (sysWord s ctx (8 * w))
    let r := sysReadWords (sysReadClear s (8 * w)) ctx n (w + 1)
    (bs ++ r.1, r.2)

/-- n bytes read at an offset of the system window. -/
def sysRead (s : State) (ctx off n : Nat) : List Byte × State :=
  match sysCore off with
  | some (c, a, true) => (imageBytes (s.core c) a n, s)
  | some (_, _, false) => (List.replicate n 0, s)
  | none =>
    let r := sysReadWords s ctx ((off + n - 1) / 8 + 1 - off / 8) (off / 8)
    ((r.1.drop (off % 8)).take n, r.2)

/-! ### Writes -/

/-- The writable bits of a context descriptor's word (Table 18-1). -/
def ctxMask (off : Nat) : Nat :=
  match off with
  | 0x00 => 0xFF80000000000007
  | 0x08 => 0xFFFFFFFFFFFF
  | 0x10 => 0xFFFFFFFFFFFF
  | 0x18 => 0xFFFFFFFFFFFFFFFF
  | 0x20 => 0xFFFFFFFFFFFF
  | 0x28 => 0xFFFFFFFFFFFFFFFF
  | 0x30 => 0xFFFFFFFFFFFFFFFF
  | 0x38 => 0xFFFFFFFFFFFF
  | 0x40 => 0x3FFF
  | 0x48 => 0x1FFF0FFFFFFF
  | 0x50 => 0xFFFFFFFFFFFF
  | 0x60 => 0xFFFFFFFFFFFFFFFF
  | 0x68 => 0xFFFFFFFFFFFFFFFF
  | _ => 0

/-- CONTEXT_DESC_WRITE (R360): SGEN and reserved bits keep their values; clearing V stops every launch of the context as
`.kill` does. -/
def writeContext (s : State) (ctx off v : Nat) : State :=
  let a := 128 * ctx + off
  let old := memRead s.ctxs a 8
  let m := ctxMask off
  let s1 := { s with ctxs := memWrite s.ctxs a 8 (natAnd old (natNot 64 m) + natAnd v m) }
  if off = 0 ∧ bitAt old 63 ∧ !bitAt v 63 then
    { s1 with launches := s1.launches.map (fun l => if l.ctx == ctx && !l.over then { l with killed := true } else l) }
  else s1

/-- A fault-domain register written (R349): the writing context is recorded with FBDEST. -/
def writeFbdest (s : State) (ctx d v : Nat) : State := s.modDom d (fun x => { x with fbdest := v, fbctx := ctx })

/-- A write of a serving block (R409): POOL and PART; the rest is read-only. -/
def writeServ (s : State) (ctx off v : Nat) : State :=
  match off with
  | 0x00 => setServWord s ctx 0 (v % 2 ^ 48)
  | 0x08 => writePart s ctx v
  | _ => s

/-- A write of the power block (R449). OPT below CUR requests a change of point; the governor raises CUR to OPT
(R448, R450; log 16). -/
def writePower (s : State) (off v : Nat) : State :=
  if off = 0 then { s with plimit := min (field v 10 0) 1800 }
  else if 0x100 ≤ off ∧ off < 0x300 ∧ off % 0x20 = 0 then
    modIsland s ((off - 0x100) / 0x20) (fun i =>
      let opt := field v 2 0
      { i with
        opt := opt, budget := min (field v 18 8) 1024, step := max 1 (min (field v 42 32) 1024)
        lgrant := max 1 (field v 59 48), changeTo := if opt < i.cur then some opt else i.changeTo })
  else s

def modLink (s : State) (i : Nat) (f : Link → Link) : State := { s with links := setAt s.links i (f (nth s.links i {})) }

/-- STREAM_START (R470): a new value of NBLK starts a new stream. -/
def writeStream (l : Link) (v : Nat) : Link :=
  let l1 := { l with nblk := field v 63 44, g := field v 41 36, fmt := field v 30 24, lbase := field v 16 0 / 8 * 8 }
  if l1.nblk = l.nblk then l1 else { l1 with landing := [], landed := [], handed := 0, held := [] }

/-- TAIL (R470, R471): descriptors queued; the mark of a skipped descriptor in HEAD is cleared. -/
def writeTail (l : Link) (g v : Nat) : Link :=
  { l with tail := setAt l.tail g (v % 2 ^ 32), head := setAt l.head g (nth l.head g 0 % 2 ^ 31) }

/-- A write of a link's block (R470). -/
def writeLink (s : State) (i off v : Nat) : State :=
  modLink s i (fun l =>
    if off = 0x00 then { l with dir := min (field v 50 48) 6 }
    else if off = 0x08 then writeStream l v
    else if off = 0x10 then { l with lstr := field v 16 0 / 64 * 64, slots := field v 23 20 }
    else if 0x20 ≤ off ∧ off < 0x40 then
      { l with tbase := setAt l.tbase ((off - 0x20) / 8) (field v 16 0 / 16 * 16)
               tlog := setAt l.tlog ((off - 0x20) / 8) (field v 27 24) }
    else if 0x40 ≤ off ∧ off < 0x60 then writeTail l ((off - 0x40) / 8) v
    else l)

/-! ### Firmware (R455, R458, R467) and attestation (R462, R463) -/

/-- The bytes of the firmware image: its signed part, and the 132 bytes of its signature (R458). -/
def verifyImage (img : List Byte) : Bool :=
  decide (196 ≤ img.length) && Config.rootVerify (img.take (img.length - 132)) (img.drop (img.length - 132))

/-- MINFW of the configuration record. -/
def minFw (s : State) : Nat := memRead s.sec.flash 0x10 4

/-- The hash chain of R458 and R462. -/
def extendMr (m v : List Byte) : List Byte := (Config.sha512 (m ++ v)).toList

/-- Bring-up stopped by a failed check: the code shows, and only the host port is ready (R455). -/
def bringUpError (s : State) (code : Nat) : State := { s with rdy := { s.rdy with error := code, host := true } }

/-- Stage 3 on an image: verified and measured, then stage 4 (R455, R458). -/
def bootImage (s : State) (img : List Byte) : State :=
  if !verifyImage img then bringUpError s 3
  else
    let ver := ofBytes (img.take 4)
    if ver < minFw s then bringUpError s 4
    else
      let mr0 := extendMr (List.replicate 64 0) (Config.sha512 (img.take (img.length - 132))).toList
      let mr1 := extendMr mr0 (Config.sha512 (memBytes s.sec.flash 0 0x204)).toList
      { s with sec := { s.sec with mr0 := mr0, mr1 := mr1, fwver := ver }, rdy := { s.rdy with stage := 4 } }

/-- FWGO (R467): in stage 3 with BOOTSRC = 0, once, the staged image is verified. -/
def goFirmware (s : State) : State :=
  if s.rdy.stage = 3 ∧ s.rdy.error = 0 ∧ !bitAt (memRead s.sec.flash 0x18 8) 0 ∧ !s.hport.fwgo then
    let s1 := { s with hport := { s.hport with fwgo := true } }
    if s.hport.fwlen = 0 then bringUpError s1 3 else bootImage s1 (memBytes s.hport.bar2 0 s.hport.fwlen)
  else s

/-- A write of the host control block (R466). -/
def writeHost (s : State) (off v : Nat) : State :=
  match off with
  | 0x00 => { s with hport := { s.hport with
      self := field v 18 0, sz := field v 30 24, sy := field v 37 32, sx := field v 45 40 } }
  | 0x08 =>
    let s1 := { s with hport := { s.hport with fwlen := min (field v 24 0) 0x1000000 } }
    if bitAt v 63 then goFirmware s1 else s1
  | 0x20 => if 1 ≤ v ∧ v ≤ 31 then { s with hport := { s.hport with msi := s.hport.msi ++ [v] } } else s
  | _ => s

/-- A notice (R466): queued, vector 0 raised; a full queue marks its newest. -/
def raiseNotice (s : State) (kind data : Nat) : State :=
  let q := s.hport.notices
  let q' := if q.length < 64 then q ++ [(kind, data)]
    else q.take 63 ++ (q.drop 63).map (fun e => (0xFF, e.2))
  { s with hport := { s.hport with notices := q', msi := s.hport.msi ++ [0] } }

/-- A store of a service to a core window whose core is away: it is retried as any fabric store (R236). -/
def parkStore (s : State) (ctx va v : Nat) : State :=
  { s with fab := s.fab ++ [{ src := ⟨.compute, 0⟩, ctx := ctx, home := .away (va / 0x20000), va := va,
                              kind := .store (toBytes 8 v), launch := 2 ^ 60 }] }

/-- A core's store behind the system window that answers with retries: the core is away, or its save waits for its
restore (R236, R367). -/
def storeAway (s : State) (c : CoreId) : Bool :=
  coreAway (s.core c) || (c.cls != .compute && s.saves.any (fun v => v.core.cls == c.cls && v.logical == c.idx))

/-- The word of a mailbox named by an address of a context, written as a store of that context would (R216, R292, R463):
bulk memory, a window, or what a store reaches in the system window, by `put` outside the core stores; none where it cannot
be written. -/
def writeMailboxBy (put : State → Nat → Nat → Nat → State) (s : State) (ctx va v : Nat) : Option State :=
  if isBulk va then svcPutWord s ctx va v
  else if va < 0x80000000 then
    if va % 0x20000 + 8 ≤ 0x12000 then
      match mapCore s ctx (va / 0x20000) with
      | .core c =>
        if coreAway (s.core c) then some (parkStore s ctx va v)
        else some (s.modCore c (fun k => deliver k (va % 0x20000) (toBytes 8 v)))
      | .away => some (parkStore s ctx va v)
      | .unmapped => none
    else none
  else if va < 0xA0000000 then
    let o := va - 0x80000000
    if o % 0x40000 + 8 ≤ 0x28000 then
      (mapRow s ctx (o / 0x40000)).map (fun r => s.modRow r (fun x => { x with rs := memWrite x.rs (o % 0x40000) 8 v }))
    else none
  else if va < 0xB0000000 then
    let off := va - 0xA0000000
    match sysCheck s ⟨.compute, 0⟩ ctx off 8 true, sysCore off with
    | .ok _, some (c, a, backed) =>
      if !backed then some s
      else if storeAway s c then some (parkStore s ctx va v)
      else some (s.modCore c (fun k => deliver k a (toBytes 8 v)))
    | .ok _, none => some (put s ctx off v)
    | .error _, _ => none
  else none

/-- A word written at a multiple of 8 in the system window outside the core stores; read-only blocks ignore it. The word of
the attestation block is a request (R463), queued where there is room. -/
def sysPutBlock (s : State) (ctx off v : Nat) : State :=
  if off < 0x8000000 then s
  else if off < 0x8400000 then writeSeqWord s ((off - 0x8000000) / 512) ((off - 0x8000000) % 512) v
  else if off < 0xA000000 then s
  else if off < 0xA800000 then { s with mbx := memWrite s.mbx (off - 0xA000000) 8 v }
  else if off < 0xA900000 then writeHost s (off - 0xA800000) v
  else if off < 0xAA00000 then writeLink s ((off - 0xA900000) / 0x80) ((off - 0xA900000) % 0x80) v
  else if off < 0xAB00000 then 
    (if off = 0xAA01000 ∧ s.sec.queue.length < 4 then { s with sec := { s.sec with queue := s.sec.queue ++ [(ctx, v)] } } else s)
  else if off < 0xAC00000 then writePower s (off - 0xAB00000) v
  else if off < 0xAD00000 then s
  else if off < 0xAE00000 then writeServ s ((off - 0xAD00000) / 64) ((off - 0xAD00000) % 64) v
  else if off < 0xAF00000 then writeContext s ((off - 0xAE00000) / 128) ((off - 0xAE00000) % 128) v
  else if off % 0x40 = 0 then writeFbdest s ctx ((off - 0xAF00000) / 0x40) v
  else s

/-- ATTEST_REQUEST (R463): the block's address is queued, or its mailbox receives ERR with code 3; a mailbox that is the
request register itself then names no block. -/
def attestRequest (s : State) (ctx addr : Nat) : State :=
  if s.sec.queue.length < 4 then sysPutBlock s ctx 0xAA01000 addr
  else match svcWord s ctx (addr + 80) 8 with
    | some m => (writeMailboxBy sysPutBlock s ctx m (2 ^ 62 + 3)).getD s
    | none => s

/-- A word written at a multiple of 8 in the system window outside the core stores. -/
def sysPutWord (s : State) (ctx off v : Nat) : State :=
  if off = 0xAA01000 then attestRequest s ctx v else sysPutBlock s ctx off v

/-- A mailbox written (R216, R292, R463). -/
def writeMailbox (s : State) (ctx va v : Nat) : Option State := writeMailboxBy sysPutWord s ctx va v

/-- Bytes [lo, lo+len) of a word replaced. -/
def patchWord (old lo : Nat) (bs : List Byte) : Nat :=
  ofBytes ((toBytes 8 old).take lo ++ bs ++ (toBytes 8 old).drop (lo + bs.length))

/-- Bytes written word by word; a word written in part keeps its other bytes. -/
def sysWriteWords (s : State) (ctx : Nat) : Nat → Nat → List Byte → State
  | 0, _, _ => s
  | fuel + 1, off, bs =>
    if bs.isEmpty then s
    else
      let lo := off % 8
      let n := min (8 - lo) bs.length
      let w := off - lo
      sysWriteWords (sysPutWord s ctx w (patchWord (sysWord s ctx w) lo (bs.take n))) ctx fuel (off + n) (bs.drop n)

/-- Bytes written at an offset of the system window; above the backed part of a core's store nothing is written
(R374). -/
def sysWrite (s : State) (ctx off : Nat) (bs : List Byte) : State :=
  match sysCore off with
  | some (c, a, true) => s.modCore c (fun k => deliver k a (bs.take (topOf c.cls - a)))
  | some (_, _, false) => s
  | none => sysWriteWords s ctx (bs.length / 8 + 2) off bs

/-! ### Homes -/

/-- The physical core behind a core window's context address, where it answers; none where the access must retry. -/
def windowCore (s : State) (ctx va : Nat) : Option CoreId :=
  match mapCore s ctx (va / 0x20000) with
  | .core c => if coreAway (s.core c) then none else some c
  | _ => none

/-- The home of an access as it stands now: a core window follows the mapping (R362), and none means a retry (R236). -/
def homeNow (s : State) (ctx va : Nat) (h : Home) : Option Home :=
  match h with
  | .core c a =>
    if c.cls == .compute then (windowCore s ctx va).map (fun k => .core k (va % 0x20000))
    else if storeAway s c then none else some (.core c a)
  | .away _ => (windowCore s ctx va).map (fun k => .core k (va % 0x20000))
  | .sys off => match sysCore off with
    | some (c, _, _) => if storeAway s c then none else some h
    | none => some h
  | _ => some h

/-- Bytes read at a home. -/
def readHome (s : State) (ctx : Nat) (h : Home) (n : Nat) : List Byte × State :=
  match h with
  | .core c a => (imageBytes (s.core c) a n, s)
  | .row r a => (memBytes (s.row r).rs a n, s)
  | .sys off => sysRead s ctx off n
  | .bulk t pa => (memBytes (s.tier t) pa n, s)
  | .away _ => (List.replicate n 0, s)

/-- Bytes written at a home. -/
def writeHome (s : State) (ctx : Nat) (h : Home) (bs : List Byte) : State :=
  match h with
  | .core c a => s.modCore c (fun k => deliver k a bs)
  | .row r a => s.modRow r (fun x => { x with rs := memPut x.rs a bs })
  | .sys off => sysWrite s ctx off bs
  | .bulk t pa => writeTier s t pa bs
  | .away _ => s

end Sys2Proof.Machine
end

