-- ==== Sys2Proof/Machine/Saggars.lean ====
section
/-!
DEFINITION. Saggars (R301-R321): the parts and their holders, pressure and eviction, attachments and their removal, the
saggar instructions, and the events of the saggar service.
-/
namespace Sys2Proof.Machine

/-! ### Entries and holders (R302) -/

def sagOf (s : State) (slot : Nat) : Saggar := (alookup slot s.saggars).getD {}
def modSag (s : State) (slot : Nat) (f : Saggar → Saggar) : State :=
  { s with saggars := ainsert slot (f (sagOf s slot)) s.saggars }

/-- The slot of a context's saggar of a name. -/
def findSag (s : State) (ctx name : Nat) : Option Nat :=
  (s.saggars.find? (fun e => e.2.st != 0 && e.2.ctx == ctx && e.2.name == name)).map (·.1)

def Saggar.parts (g : Saggar) : Nat := g.w * g.h * g.c

/-- Holder q: a logical core, or a logical row. -/
def holder (g : Saggar) (q : Nat) : Nat :=
  if g.row then 64 * (g.org / 64 + q / g.w) + (g.org % 64 + q % g.w) else participant g.org g.w g.c q

/-- The physical place of a part: a core's or a row's number, where the holder is mapped and placed. -/
def partPlace (s : State) (g : Saggar) (q : Nat) : Option Nat :=
  if g.row then mapRow s g.ctx (holder g q)
  else match mapCore s g.ctx (holder g q) with
    | .core c => some c.idx
    | _ => none

def partPlaces (s : State) (g : Saggar) : List Nat := (List.range g.parts).filterMap (partPlace s g)

/-- The parts occupy their bytes: resident, evicting, or being copied back. -/
def Saggar.occupies (g : Saggar) : Bool := g.st == 1 || g.st == 2 || g.copying

/-- The parts reserve their bytes against placement (R304, R311). -/
def Saggar.reserves (g : Saggar) : Bool := g.st == 1 || g.st == 2 || g.rest

/-- Two saggars' parts meet on a holder. -/
def partsMeet (s : State) (g x : Saggar) : Bool :=
  g.row == x.row && overlaps (g.base, g.base + g.psize) (x.base, x.base + x.psize) &&
    (partPlaces s g).any (fun p => (partPlaces s x).contains p)

/-- A local saggar's part meets a range of a physical core. -/
def partMeetsCore (s : State) (x : Saggar) (c : CoreId) (r : Nat × Nat) : Bool :=
  !x.row && c.cls == .compute && overlaps r (x.base, x.base + x.psize) && (partPlaces s x).contains c.idx

/-! ### Lifetimes and eviction (R309, R310) -/

/-- The lease is renewed (R306). -/
def renewLease (s : State) (g : Saggar) : Saggar := { g with expiry := s.cycle + 600000 * g.lease }

def leaseOver (s : State) (g : Saggar) : Bool := g.expiry ≤ s.cycle

/-- A candidate under pressure. -/
def evictable (s : State) (g : Saggar) : Bool :=
  g.st == 1 && g.att == 0 && ((g.life == 1 && leaseOver s g) || g.life == 2)

/-- A saggar lost; its slot is freed when nothing is attached. -/
def loseSag (s : State) (slot : Nat) : State :=
  modSag s slot (fun g => if g.att = 0 then { inc := g.inc } else { g with st := 4, rest := false, copying := false })

/-- An eviction begins (Table 15-5). -/
def evictSag (s : State) (slot : Nat) : State :=
  if (sagOf s slot).wb then modSag s slot (fun g => { g with st := 2 }) else loseSag s slot

/-- The order of candidates: expired leases, earliest first, then counted saggars, the earliest last attach first. -/
def evictKey (g : Saggar) : Nat := if g.life = 1 then g.expiry else 2 ^ 80 + g.lastAtt

/-- Evict the given slots in the order of R310. -/
def evictAll (s : State) (slots : List Nat) : State :=
  (sortBy (fun i => evictKey (sagOf s i)) slots).foldl evictSag s

/-- Pressure on bytes that the given slots hold: those not yet evicting are evicted, if all of them are candidates;
none where they cannot be cleared. The flag says that the bytes are clear. -/
def pressure (s : State) (slots : List Nat) : Option (State × Bool) :=
  let res := slots.filter (fun i => (sagOf s i).st != 2)
  if res.all (fun i => evictable s (sagOf s i)) then
    let s1 := evictAll s res
    some (s1, slots.all (fun i => !(sagOf s1 i).occupies))
  else none

/-- Zero a part. -/
def zeroPart (s : State) (g : Saggar) (q : Nat) : State :=
  match partPlace s g q with
  | none => s
  | some p =>
    if g.row then s.modRow p (fun r => { r with rs := memClear r.rs g.base (g.base + g.psize) })
    else s.modCore ⟨.compute, p⟩ (fun k => { k with ls := memClear k.ls g.base (g.base + g.psize) })

/-- The bytes of a part, and a part's bytes written. -/
def partBytes (s : State) (g : Saggar) (q : Nat) : Option (List Byte) :=
  (partPlace s g q).map (fun p =>
    if g.row then memBytes (s.row p).rs g.base g.psize else imageBytes (s.core ⟨.compute, p⟩) g.base g.psize)

def putPart (s : State) (g : Saggar) (q : Nat) (bs : List Byte) : Option State :=
  (partPlace s g q).map (fun p =>
    if g.row then s.modRow p (fun r => { r with rs := memPut r.rs g.base bs })
    else s.modCore ⟨.compute, p⟩ (fun k => deliver k g.base bs))

/-! ### Attachments (R307, R308) -/

def handleOf (slot inc : Nat) : Nat := slot * 2 ^ 32 + inc

/-- One attachment fewer (R309). -/
def detachSag (s : State) (slot : Nat) : State :=
  modSag s slot (fun g =>
    let g1 := { g with att := g.att - 1 }
    if g1.st = 4 ∧ g1.att = 0 then { inc := g1.inc } else g1)

/-- Attachments removed at a completion or a kill (R308); GEN rises by 1 for each saggar released (R306). -/
def detachAll (s : State) (atts : List Attach) : State :=
  let live := atts.filter (fun a => (sagOf s a.slot).st != 0 && (sagOf s a.slot).inc == a.inc)
  let slots := (live.map (·.slot)).eraseDups
  let s1 := slots.foldl (fun s i => modSag s i (fun g => { g with gen := (g.gen + 1) % 2 ^ 32 })) s
  live.foldl (fun s a => detachSag s a.slot) s1

/-- The attachments of a core; a checker's table is its primary's (R442, R444). -/
def Core.heldAtt (k : Core) : List Attach := if k.pst = .checker then [] else k.att

/-- The attachments that cores hold. -/
def heldBy (s : State) (cs : List CoreId) : List Attach := cs.flatMap (fun c => (s.core c).heldAtt)

/-- The attachments in the save areas of evicted cores. -/
def heldSaved (vs : List Save) : List Attach := vs.flatMap (fun v => v.core.heldAtt)

/-! ### sgnew (R305, R316) -/

/-- The entry that a descriptor asks for. -/
def descSag (ctx : Nat) (w : List Nat) : Saggar :=
  let f (i hi lo : Nat) : Nat := field (nth w i 0) hi lo
  { st := 1, ctx := ctx, name := nth w 0 0, gen := 1, att := 1, ttag := f 1 55 48, wb := bitAt (nth w 1 0) 58,
    life := f 1 57 56, row := bitAt (nth w 1 0) 59, c := f 3 34 32, h := f 3 29 24, w := f 3 22 16, org := f 3 13 0,
    blk := f 2 49 32, psize := f 2 17 0, base := f 1 17 0, back := nth w 4 0, lease := f 1 47 32 }

/-- Reason 5 (R316). -/
def descOk (s : State) (w : List Nat) (g : Saggar) : Bool :=
  let z (i hi lo : Nat) : Bool := field (nth w i 0) hi lo == 0
  z 1 63 60 && z 1 31 18 && z 2 63 50 && z 2 31 18 && z 3 63 35 && z 3 31 30 && z 3 23 23 && z 3 15 14 &&
  (w.drop 5).all (· == 0) && g.name != 0 && g.life != 3 && g.base % 64 == 0 && g.psize % 64 == 0 && g.psize != 0 &&
  g.blk % 64 == 0 && g.blk != 0 && g.psize % g.blk == 0 && g.back % 64 == 0 &&
  (if g.life = 1 then g.lease != 0 else g.lease == 0) && (g.wb || g.back == 0) && (!g.wb || g.back != 0) &&
  decide (1 ≤ g.w) && decide (g.w ≤ 64) && decide (1 ≤ g.h) && decide (g.h ≤ 32) &&
  (if g.row then g.c == 1 else (g.c == 1 || g.c == 2 || g.c == 4 || g.c == 8)) &&
  decide (g.base + g.psize ≤ if g.row then 0x28000 else 0x12000) &&
  (if g.row then decide (g.org < 2048) && decide (g.org % 64 + g.w ≤ 64) && decide (g.org / 64 + g.h ≤ 32)
   else decide (g.org / 8 % 64 + g.w ≤ 64) && decide (g.org / 8 / 64 + g.h ≤ 32) && decide (g.org % 8 + g.c ≤ 8)) &&
  (List.range g.parts).all (fun q =>
    if g.row then (mapRow s g.ctx (holder g q)).isSome else mapCore s g.ctx (holder g q) != .unmapped)

def pinnedBytes (s : State) (ctx : Nat) : Nat :=
  (s.saggars.map (fun e => if e.2.st != 0 && e.2.ctx == ctx && e.2.life == 0 then e.2.parts * e.2.psize else 0)).foldl (· + ·) 0

def pinLimit (s : State) (ctx : Nat) : Nat := 1024 * field (heldWord s ctx 0x48) 27 0

/-- The context's limits let the entry in. -/
def sagLimits (s : State) (g : Saggar) : Bool :=
  decide ((s.saggars.filter (fun e => e.2.st != 0 && e.2.ctx == g.ctx)).length < field (heldWord s g.ctx 0x48) 44 32) &&
    (g.life != 0 || decide (pinnedBytes s g.ctx + g.parts * g.psize ≤ pinLimit s g.ctx))

/-- The lowest free slot of the table. -/
def freeSlot (s : State) : Option Nat :=
  ((List.range (s.saggars.length + 1)).find? (fun i => (sagOf s i).st == 0)).filter (fun i => decide (i < 8192))

/-- The slots of a kind whose parts meet a saggar's. -/
def meetingSlots (s : State) (g : Saggar) (kind : Saggar → Bool) : List Nat :=
  (s.saggars.filter (fun e => kind e.2 && partsMeet s g e.2)).map (·.1)

/-- The creation of a saggar in a slot, attached once. -/
def createSag (s : State) (c : CoreId) (slot : Nat) (g : Saggar) : State × Nat :=
  let inc := ((sagOf s slot).inc + 1) % 2 ^ 32
  let s1 := modSag s slot (fun _ => renewLease s { g with inc := inc, lastAtt := s.cycle })
  let s2 := (List.range g.parts).foldl (fun s q => zeroPart s g q) s1
  (s2.modCore c (fun k => { k with att := k.att ++ [{ slot := slot, inc := inc, launch := k.lkey }] }), handleOf slot inc)

/-- `sgnew`: it waits for the evictions it causes, and for a holder that is evicted or being restored, whose part is zeroed
only once it is back (R316, R236). -/
def sgnewOp (d a : Spec) (c : CoreId) (s : State) : Dev State := do
  let (addr, s1) ← srcZ s c a
  let _ ← dstZ s1 c d 0
  let _ ← localRecord c s1 addr 64 8
  let w := (List.range 8).map (fun i => readLocal (s1.core c) (addr + 8 * i) 8)
  needD ((s1.core c).att.length < 8) .attach 6 (nth w 0 0)
  let g := descSag (s1.core c).ctx w
  if !descOk s1 w g then dstZ s1 c d (2 ^ 63 + 5)
  else if (findSag s1 g.ctx g.name).isSome then dstZ s1 c d (2 ^ 63 + 1)
  else match freeSlot s1 with
    | none => dstZ s1 c d (2 ^ 63 + 2)
    | some slot =>
      if !sagLimits s1 g then dstZ s1 c d (2 ^ 63 + 3)
      else match pressure s1 (meetingSlots s1 g Saggar.reserves) with
        | none => dstZ s1 c d (2 ^ 63 + 4)
        | some (s2, true) =>
          if (partPlaces s2 g).length < g.parts then .error (.wait s2)
          else let r := createSag s2 c slot g; dstZ r.1 c d r.2
        | some (s2, false) => .error (.wait s2)

def execSgnew (d a : Spec) (s : State) : Host.Outcome State Fault Refusal :=
  nativeOp (.sgnew d a) (fun _ => 1) (sgnewOp d a) s

/-! ### sgatt (R317) -/

/-- A resident saggar attached by a core. -/
def attachSag (s : State) (c : CoreId) (slot : Nat) : State × Nat :=
  let g := sagOf s slot
  let s1 := modSag s slot (fun g => renewLease s { g with att := g.att + 1, lastAtt := s.cycle })
  (s1.modCore c (fun k => { k with att := k.att ++ [{ slot := slot, inc := g.inc, launch := k.lkey }] }), handleOf slot g.inc)

def sgattOp (d a : Spec) (c : CoreId) (s : State) : Dev State := do
  let (name, s1) ← srcZ s c a
  let _ ← dstZ s1 c d 0
  needD ((s1.core c).att.length < 8) .attach 6 name
  match findSag s1 (s1.core c).ctx name with
  | none => trapD .attach 3 name
  | some slot =>
    let g := sagOf s1 slot
    match g.st with
    | 1 => let r := attachSag s1 c slot; dstZ r.1 c d r.2
    | 2 => .error (.wait s)
    | 3 =>
      if g.rest then trapD .attach 1 name
      else .error (.trapAt { cause := .attach, sub := 0, addr := name } (modSag s slot (fun g => { g with rest := true })))
    | _ => trapD .attach 2 name

def execSgatt (d a : Spec) (s : State) : Host.Outcome State Fault Refusal :=
  nativeOp (.sgatt d a) (fun _ => 1) (sgattOp d a) s

/-! ### sgdet, sgrel, sgpin (R313, R318, R319) -/

/-- The checks of a handle operand: its layout, staleness, and the core's attachment. -/
def handleCheck (s : State) (c : CoreId) (h : Nat) : Dev Nat := do
  needD (h / 2 ^ 45 == 0) .undef 2
  let slot := h / 2 ^ 32
  let g := sagOf s slot
  needD (g.inc == h % 2 ^ 32) .attach 4 g.name
  needD ((s.core c).att.any (fun a => a.slot == slot && a.inc == g.inc)) .attach 5 g.name
  .ok slot

/-- The counts that a release waits for (R313). -/
def releaseWait (s : State) (c : CoreId) : Dev Unit := untilD (releaseReady (s.core c)) s

/-- The first entry of a slot leaves the attachment table. -/
def dropAttach (k : Core) (slot : Nat) : Core :=
  match k.att.findIdx? (fun a => a.slot == slot) with
  | some i => { k with att := dropAt k.att i }
  | none => k

def sgdetOp (a : Spec) (c : CoreId) (s : State) : Dev State :=
  opA a (fun h c s => do
    let slot ← handleCheck s c h
    releaseWait s c
    .ok ((detachSag s slot).modCore c (fun k => dropAttach k slot))) c s

def execSgdet (a : Spec) (s : State) : Host.Outcome State Fault Refusal := nativeOp (.sgdet a) (fun _ => 1) (sgdetOp a) s

def sgrelOp (a b : Spec) (c : CoreId) (s : State) : Dev State :=
  opAB a b (fun h v c s => do
    needD (v / 2 ^ 9 == 0) .undef 2
    let slot ← handleCheck s c h
    releaseWait s c
    .ok (modSag s slot (fun g => renewLease s
      { g with gen := (g.gen + 1) % 2 ^ 32, ttag := if bitAt v 8 then v % 256 else g.ttag }))) c s

def execSgrel (a b : Spec) (s : State) : Host.Outcome State Fault Refusal :=
  nativeOp (.sgrel a b) (fun _ => 1) (sgrelOp a b) s

def sgpinOp (a b : Spec) (c : CoreId) (s : State) : Dev State :=
  opAB a b (fun h v c s => do
    let life := v % 4
    let lease := field v 31 16
    needD (life != 3 && field v 15 2 == 0 && v / 2 ^ 32 == 0 && (if life = 1 then lease != 0 else lease == 0)) .undef 2
    let slot ← handleCheck s c h
    let g := sagOf s slot
    needD (!(life == 0 && g.life != 0 && decide (pinLimit s g.ctx < pinnedBytes s g.ctx + g.parts * g.psize))) .priv 0x30
    .ok (modSag s slot (fun g =>
      if life = 1 then renewLease s { g with life := 1, lease := lease } else { g with life := life }))) c s

def execSgpin (a b : Spec) (s : State) : Host.Outcome State Fault Refusal :=
  nativeOp (.sgpin a b) (fun _ => 1) (sgpinOp a b) s

/-! ### sgevict, sgstat (R320, R321) -/

def sgevictOp (d a : Spec) (c : CoreId) (s : State) : Dev State :=
  opDA d a (fun name c s =>
    match findSag s (s.core c).ctx name with
    | none => .ok (3, s)
    | some slot =>
      let g := sagOf s slot
      if g.st = 4 then .ok (2, s)
      else if g.st = 2 ∨ g.st = 3 then .ok (0, s)
      else if 0 < g.att then .ok (1, s)
      else .ok (0, evictSag s slot)) c s

def execSgevict (d a : Spec) (s : State) : Host.Outcome State Fault Refusal :=
  nativeOp (.sgevict d a) (fun _ => 1) (sgevictOp d a) s

def sgstatOp (d a : Spec) (c : CoreId) (s : State) : Dev State :=
  opDA d a (fun h _ s => do
    needD (h / 2 ^ 51 == 0 && field h 47 45 == 0) .undef 2
    let g := sagOf s (field h 44 32)
    needD (g.inc == h % 2 ^ 32) .attach 4 g.name
    .ok (saggarWord g (field h 50 48), s)) c s

def execSgstat (d a : Spec) (s : State) : Host.Outcome State Fault Refusal :=
  nativeOp (.sgstat d a) (fun _ => 1) (sgstatOp d a) s

/-! ### The events of the service (R309-R311). `State.ev.i` is the slot, `ok` whether the copies succeed. -/

/-- Every part copied to its backing; none where a copy is refused. -/
def copyOut (s : State) (g : Saggar) : Nat → Option State
  | 0 => some s
  | n + 1 => do
    let s1 ← copyOut s g n
    let bs ← partBytes s1 g n
    svcWrite s1 g.ctx (g.back + n * g.psize) bs

/-- Every part copied back from its backing. -/
def copyIn (s : State) (g : Saggar) : Nat → Option State
  | 0 => some s
  | n + 1 => do
    let s1 ← copyIn s g n
    let bs ← svcRead s1 g.ctx (g.back + n * g.psize) g.psize
    putPart s1 g n bs

/-- SAGGAR_EVICTION_END. -/
def endEviction (s : State) (slot : Nat) (ok : Bool) : State :=
  let g := sagOf s slot
  if g.st ≠ 2 then s
  else match (if ok then copyOut s g g.parts else none) with
    | some s1 => modSag s1 slot (fun g => { g with st := 3 })
    | none => loseSag s slot

def execSaggarEvictionEnd (s : State) : Host.Outcome State Fault Refusal :=
  eventOp (fun s => endEviction s s.ev.i s.ev.ok) s

/-- A placed kernel's ranges of R304 on the holders meet the parts (R311). -/
def kernelsMeet (s : State) (g : Saggar) : Bool :=
  s.placedCores.any (fun e => match coreLaunch s e.2 with
    | some l => (kernelRanges l).any (fun r => partMeetsCore s g e.1 r)
    | none => false)

/-- SAGGAR_RESTORE_START: the restore starts once its target bytes are clear; candidates in the way are evicted. -/
def startRestore (s : State) (slot : Nat) : State :=
  let g := sagOf s slot
  if !(g.rest && g.st == 3) || g.copying || kernelsMeet s g || (partPlaces s g).length < g.parts then s
  else match pressure s (meetingSlots s g Saggar.occupies) with
    | some (s1, true) => modSag s1 slot (fun g => { g with copying := true })
    | some (s1, false) => s1
    | none => s

def execSaggarRestoreStart (s : State) : Host.Outcome State Fault Refusal := eventOp (fun s => startRestore s s.ev.i) s

/-- SAGGAR_RESTORE_END. -/
def endRestore (s : State) (slot : Nat) (ok : Bool) : State :=
  let g := sagOf s slot
  if !g.copying then s
  else match (if ok then copyIn s g g.parts else none) with
    | some s1 => modSag s1 slot (fun g => { g with st := 1, rest := false, copying := false })
    | none => loseSag s slot

def execSaggarRestoreEnd (s : State) : Host.Outcome State Fault Refusal :=
  eventOp (fun s => endRestore s s.ev.i s.ev.ok) s

end Sys2Proof.Machine
end

