-- ==== Sys2Proof/Machine/Launching.lean ====
section
/-!
DEFINITION. Launches as cores issue them (R282-R300): acceptance, triggering, the waits, the status; the release of
cores and claims, completion and refusal (R285, R292), the loader with the start of the prologue (R286, R291, R472),
and the release ring's retry (R397).
-/
namespace Sys2Proof.Machine

/-! ### Acceptance (R283, R296, R461) -/

/-- The wheel and launch services are up, and the queue has a free slot. -/
def mayLaunch (s : State) (ctx q : Nat) : Bool :=
  bitAt s.rdy.svc 0 && bitAt s.rdy.svc 1 && decide ((queueOf s ctx q).length < 8)

/-- A record accepted into its queue: the state and the launch id. Launches that are over and outside the window are
forgotten, and the demand spreads to the producers (R283, R326, R329). -/
def acceptLaunch (s : State) (ctx : Nat) (words : List Nat) (issuer : Option CoreId) (srcObj : Option Nat) : State × Nat :=
  let n := acceptedCount s ctx + 1
  let id := field (nth words 0 0) 11 8 * 2 ^ 48 + n
  let l : Launch :=
    { ctx := ctx, id := id, words := words, prod := (words.drop 8).take 4, issuer := issuer, srcObj := srcObj,
      demand := field (nth words 3 0) 7 0, orig := id, latest := id, since := s.cycle }
  let keep (x : Launch) : Bool := !(x.ctx == ctx && x.over && !x.ringDue && launchCount x.id + 1024 ≤ n)
  let s1 := { s with launches := s.launches.filter keep ++ [l], lcount := ainsert ctx n s.lcount }
  (spreadDemand s1 l, id)

/-- The reserved bits of each word of a record (Table 14-3). -/
def recordReserved (i : Nat) : Nat :=
  match i with
  | 0 => 0xF01F
  | 2 => 0xFFFF000080C0E000
  | 3 => 0xFFFFFFFFFF00FF00
  | 12 => 0xFE00000000000000
  | 13 => 0xFFFE0000FFFE0000
  | _ => 0

/-- The checks of a record without its code object (R296). -/
def recordValid (w : List Nat) : Bool :=
  let f (i hi lo : Nat) : Nat := field (nth w i 0) hi lo
  (List.range 16).all (fun i => natAnd (nth w i 0) (recordReserved i) == 0) &&
  decide (1 ≤ f 2 12 0) && decide (f 2 12 0 ≤ 4096) && ((f 2 30 24 == 0) == (f 2 21 16 == 0)) && decide (f 12 56 48 ≤ 32) &&
  f 1 5 0 == 0 && f 12 2 0 == 0 && f 13 2 0 == 0 && f 15 2 0 == 0 && f 13 41 32 == 0

/-- The object of the issuing core's own launch (R285, reason 8). -/
def ownObject (s : State) (c : CoreId) : Option Nat := (coreLaunch s (s.core c)).map launchObj

/-- A record launched by a core: the waits of R296, then the id; 2^63 + 8 for a bad field. -/
def launchRecord (c : CoreId) (w : List Nat) (s sw : State) : Dev (Nat × State) := do
  if !recordValid w then .ok (2 ^ 63 + 8, s)
  else do
    untilD (releaseReady (s.core c) && mayLaunch s (s.core c).ctx (field (nth w 0 0) 11 8)) sw
    let r := acceptLaunch s (s.core c).ctx w (some c) (ownObject s c)
    .ok (r.2, r.1)

def launchOp (d a : Spec) (c : CoreId) (s : State) : Dev State := do
  let (addr, s1) ← srcZ s c a
  let _ ← dstZ s1 c d 0
  needD (addr % 8 == 0) .align 0 addr
  needD (addr + 128 ≤ (s1.core c).top) .fabric 0 addr
  untilD (!unreadyAt (s1.core c) addr 128) s
  let (id, s2) ← launchRecord c ((List.range 16).map (fun i => readLocal (s1.core c) (addr + 8 * i) 8)) s1 s
  dstZ s2 c d id

def execLaunch (d a : Spec) (s : State) : Host.Outcome State Fault Refusal :=
  nativeOp (.launch d a) (fun _ => 1) (launchOp d a) s

/-! ### Triggering (R293, R297) -/

/-- The cores of a kernel. -/
def kernelCores (l : Launch) : Nat := launchNgang l * kernelW l * kernelH l * kernelN l

/-- A launch is triggered. -/
def triggered (l : Launch) : Bool :=
  l.over ||
    (if 0 < launchTrign l ∧ launchTrign l ≤ kernelCores l then decide (launchTrign l ≤ l.trigs.length)
     else l.st == .placed && decide (kernelCores l ≤ l.trigs.length))

/-- A core counted as triggered, once. -/
def markTrig (s : State) (k : Core) (c : CoreId) : State :=
  let me := k.gang * 2 ^ 20 + coreNumber c k
  modLaunch s k.ctx k.launch (fun l => if l.trigs.contains me then l else { l with trigs := l.trigs ++ [me] })

def execTrig (s : State) : Host.Outcome State Fault Refusal :=
  nativeOp .trig (fun _ => 1) (fun c s => do
    untilD (releaseReady (s.core c)) s
    .ok (markTrig s (s.core c) c)) s

/-! ### dwait, lwait, lstat (R298-R300) -/

/-- The launch that an id names, within the window. -/
def knownLaunch (s : State) (ctx id : Nat) : Option Launch := if inWindow s ctx id then findLaunch s ctx id else none

/-- Producer i no longer holds `dwait` back, and its bit. -/
def producerDone (s : State) (ctx p : Nat) : Bool := p == 0 || (match knownLaunch s ctx p with | some l => triggered l | none => true)
def producerBit (s : State) (ctx p : Nat) : Bool :=
  p != 0 && (match knownLaunch s ctx p with | some l => l.st == .failed || l.st == .refused | none => false)

def dwaitOp (d : Spec) (c : CoreId) (s : State) : Dev State :=
  opD d (fun c s => do
    let ps := match coreLaunch s (s.core c) with | some l => l.prod | none => []
    let ctx := (s.core c).ctx
    untilD (ps.all (producerDone s ctx)) s
    .ok (((List.range 4).map (fun i => bnat (producerBit s ctx (nth ps i 0)) * 2 ^ i)).foldl (· + ·) 0, s)) c s

def execDwait (d : Spec) (s : State) : Host.Outcome State Fault Refusal := nativeOp (.dwait d) (fun _ => 1) (dwaitOp d) s

/-- What `lwait` answers for an id, once the launch is over. -/
def lwaitWord (s : State) (ctx id : Nat) : Option Nat :=
  match knownLaunch s ctx id with
  | none => some (2 ^ 63 + id % 2 ^ 52)
  | some l => if l.over then some (mailWord l) else none

def lwaitOp (d a : Spec) (c : CoreId) (s : State) : Dev State := do
  let (id, s1) ← srcZ s c a
  let _ ← dstZ s1 c d 0
  match lwaitWord s1 (s1.core c).ctx id with
  | some w => dstZ s1 c d w
  | none => .error (.wait s)

def execLwait (d a : Spec) (s : State) : Host.Outcome State Fault Refusal :=
  nativeOp (.lwait d a) (fun _ => 1) (lwaitOp d a) s

/-- A core's own word; 0 on a core that carries no placement of a launched kernel. -/
def ownWord (s : State) (c : CoreId) : Nat :=
  let k := s.core c
  match coreLaunch s k with
  | none => 0
  | some l =>
    match l.gangs.find? (fun g => g.idx == k.gang) with
    | none => 0
    | some g =>
      let n := max 1 (kernelN l)
      let i := (g.members.findIdx? (fun m => m.2 == c)).getD 0
      let first := match g.members with | m :: _ => m.1 | [] => 0
      first * 2 ^ 48 + g.idx * 2 ^ 32 +
        (if c.cls == .compute then i / n * 2 ^ 24 + k.logical % 8 * 2 ^ 16 + k.logical else i * 2 ^ 16 + c.idx)

def lstatValue (s : State) (c : CoreId) (id : Nat) : Nat :=
  if id = 0 then ownWord s c
  else match knownLaunch s (s.core c).ctx id with
    | some l => l.stat
    | none => 3 * 2 ^ 61

def execLstat (d a : Spec) (s : State) : Host.Outcome State Fault Refusal :=
  nativeOp (.lstat d a) (fun _ => 1) (opDA d a (fun v c s => .ok (lstatValue s c v, s))) s

/-! ### Cores and claims released (R159, R269, R289, R290) -/

/-- The checker of a pair holds what its primary holds (R442; log 15): where a pair ends and its stores are kept, the
checker's are the primary's. -/
def mirrorChecker (s : State) (c : CoreId) : State :=
  let p := s.core (coreAt (rowOf c) (s.core c).partner)
  if (s.core c).pst == .checker then
    s.modCore c (fun k => { k with ls := p.ls, tiles := p.tiles, ttb := p.ttb, jobs := p.jobs, jobc := p.jobc, midc := p.midc })
  else s

/-- The class of core that the reserving head needs (R288, R290). -/
def reserveClass (s : State) : Option CoreClass :=
  s.reserve.bind (fun h => (findLaunch s h.1 h.2).map (fun l => classOf (kernelClass l)))

/-- A core freed: it holds no placement. Unless it is zeroed, its local store, slice, tables and job statuses keep what they
hold until a placement (R153, R291, R353, R435). Enqueues in its landing slots are discarded (R197), and messages that it has
released go on (R269). From the cycle after its grant, a reservation holds the freed cores of its class that no pre-empting
head holds (R288, R290, R364, R424). -/
def freeCore (s : State) (c : CoreId) (zero : Bool) : State :=
  let k := s.core c
  let kept : Core := { cls := k.cls, ls := k.ls, acc := k.acc, tiles := k.tiles, ttb := k.ttb, jobs := k.jobs, ic := k.ic }
  let s1 := (discardLanding s c (fun _ => true)).setCore c
    { (if zero then { cls := k.cls } else kept : Core) with tlb := k.tlb, lines := k.lines }
  let held : Bool := reserveClass s == some c.cls && decide (s.resSince < s.cycle) && !s.preHold.any (fun h => h.1 == c)
  { s1 with net := s1.net ++ k.sout, freed := s1.freed ++ [(c, s.cycle)],
            resCores := if held then s1.resCores ++ [c] else s1.resCores }

/-- The claims of launches with no core left on a row end (R159). -/
def releaseRow (s : State) (row : Nat) : State :=
  let live (q : Nat) : Bool := (rowCores row).any (fun c => (s.core c).life != .free && (s.core c).lkey == q)
  let dead (x : Option Nat) : Bool := match x with | some q => !live q | none => false
  s.modRow row (fun r =>
    let r1 := { r with rings := r.rings.map (fun g => if dead g.claim then {} else g) }
    if dead r.slipClaim then { r1 with slip := [], slipLoaded := false, slipClaim := none } else r1)

/-- The device keeps the descriptor and tables of a context while it has placed cores (R360, R362). -/
def dropDescs (s : State) : State :=
  { s with descs := s.descs.filter (fun d => s.placedCores.any (fun e => e.2.ctx == d.1)) }

/-- Cores freed, and the claims that end with them. -/
def freeCores (s : State) (cs : List CoreId) (zero : CoreId → Bool) : State :=
  let s1 := cs.foldl (fun s c => freeCore s c (zero c)) (cs.foldl mirrorChecker s)
  dropDescs ((((cs.filter (fun c => c.cls == .compute)).map rowOf).eraseDups).foldl releaseRow s1)

/-- The cores that a launch holds. -/
def launchCores (s : State) (ctx id : Nat) : List CoreId :=
  (s.placedCores.filter (fun e => e.2.ctx == ctx && e.2.launch == id)).map (·.1)

/-! ### Completion and refusal (R285, R292) -/

/-- The completion mailbox (R292): nothing where it cannot be written. -/
def mailLaunch (s : State) (ctx id : Nat) : State :=
  match findLaunch s ctx id with
  | none => s
  | some l => if launchMbx l = 0 then s else (writeMailbox s ctx (launchMbx l) (mailWord l)).getD s

/-- A launch is over in a state: its achieved temper (R329), its ring entry due (R397), its mailbox. -/
def endLaunch (s : State) (ctx id : Nat) (st : LState) (reason : Nat) : State :=
  let s1 := modLaunch s ctx id (fun l =>
    { l with st := st, reason := reason, tach := if l.av then l.tach else l.demand, gangs := [],
             ringDue := decide (0 < launchNpin l) && (match l.issuer with | some c => c.cls == .control | none => false) })
  ringEntry (mailLaunch (dropHolds (endReserve s1 ctx id) ctx id) ctx id) ctx id

/-- A refusal. -/
def refuseLaunch (s : State) (ctx id reason : Nat) : State := endLaunch s ctx id .refused reason

/-- The slice of a launch ends in this very cycle (R366). -/
def sliceTie (s : State) (l : Launch) : Bool :=
  let n := field (heldWord s l.ctx 0x50) 31 0
  n != 0 && s.cycle == l.start + 65536 * n

/-- The completion of a kernel: its attachments go (R308), its cores are freed, what it had saved is dropped. -/
def completeLaunch (s : State) (ctx id : Nat) (err : Bool) : State :=
  match findLaunch s ctx id with
  | none => s
  | some l =>
    if l.over then s
    else
      let cs := launchCores s ctx id
      let s1 := detachAll s (heldBy s cs ++ heldSaved (s.saves.filter (fun v => v.ctx == ctx && v.core.launch == id)) ++ l.att)
      let ending (c : CoreId) : Bool := l.zero || (s.core c).life == .ending
      let s2 := freeCores s1 cs ending
      let s3 := { s2 with
        saves := s2.saves.filter (fun v => !(v.ctx == ctx && v.core.launch == id))
        rowSaves := s2.rowSaves.filter (fun v => !(v.ctx == ctx && v.launch == id))
        sliceNext := if sliceTie s l then s2.sliceNext ++ [ctx] else s2.sliceNext }
      endLaunch s3 ctx id (if err then .failed else .done) 0

/-! ### KERNEL_COMPLETE (R292, R272, R269) -/

/-- Jobs of a core that are still under way; a parked one counts only where asked. -/
def jobsLeft (s : State) (c : CoreId) (parked : Bool) : Bool :=
  s.jobs.any (fun j => j.core == c && (match j.phase with | .parked _ => parked | _ => true))

/-- An enqueue that a core issued is outstanding: in the network, or in a landing slot (R292). -/
def enqueueLeft (s : State) (c : CoreId) : Bool :=
  let k := s.core c
  let mine (m : Msg) : Bool := m.src == some c && m.ctx == k.ctx && m.launch == k.launch && m.kind.isEnq
  s.net.any mine || s.cores.any (fun e => e.2.landing.any mine)

/-- A core is quiet. -/
def quiet (s : State) (c : CoreId) : Bool :=
  let k := s.core c
  k.pst == .checker ||
    (k.life == .active && k.retired && k.run == .idle && !k.inHandler && k.chans.all (fun e => e.words == 0) &&
     releaseReady k && k.ctm == 0 && k.kout == 0 && k.bpend.isEmpty && k.preReq.isNone && !jobsLeft s c true && !enqueueLeft s c)

/-- Nothing of a stopped kernel runs on a core: firings closed, kiln operations retired, jobs over. -/
def stopped (s : State) (c : CoreId) : Bool :=
  let k := s.core c
  k.run == .idle && !k.inHandler && k.kout == 0 && !jobsLeft s c false

/-- A core of a killed kernel lets it complete: its last firing has closed, its counts are zero (Table 11-1) and no
boundary trap of it is pending (R264, R272). -/
def closedOut (s : State) (c : CoreId) : Bool := stopped s c && releaseReady (s.core c) && (s.core c).bpend.isEmpty

/-- The launch completes, or a core whose context has ended is freed alone (`alone` names it): its attachments stay until
the kernel completes (R308). -/
def kernelComplete (s : State) (ctx id : Nat) (alone : Option CoreId) : State :=
  match alone with
  | some c =>
    if (s.core c).life == .ending && stopped s c then
      let s1 := freeCores (withdrawParked s c) [c] (fun _ => true)
      modLaunch s1 (s.core c).ctx (s.core c).launch (fun l => { l with att := l.att ++ heldBy s [c] })
    else s
  | none =>
    match findLaunch s ctx id with
    | none => s
    | some l =>
      let cs := launchCores s ctx id
      if l.over then s
      else if l.killed then
        if cs.all (closedOut s) then completeLaunch (cs.foldl withdrawParked s) ctx id true else s
      else if l.st == .placed && !l.gangs.any (·.evicted) && cs.all (quiet s) && !cs.isEmpty then completeLaunch s ctx id false
      else s

def execKernelComplete (s : State) : Host.Outcome State Fault Refusal :=
  eventOp (fun s => kernelComplete s s.ev.i s.ev.j (if s.ev.ok then none else some s.ev.core)) s

/-- RRING_RETRY (R397): the entry of launch (i, j), while it is due. -/
def execRringRetry (s : State) : Host.Outcome State Fault Refusal :=
  eventOp (fun s => match findLaunch s s.ev.i s.ev.j with
    | some l => if l.ringDue then ringEntry s s.ev.i s.ev.j else s
    | none => s) s

/-! ### The loader (R286, R291, R472) -/

/-- What the loader gets: bytes, a failure with its BULK subcode and address, or a wait. -/
inductive Loaded where
  | ok (bs : List Byte) (s : State)
  | fail (sub addr : Nat)
  | wait (s : State)
deriving Repr

/-- Bytes read for a core by the loader, page by page. -/
def loadBytes (c : CoreId) : Nat → State → Nat → Nat → Loaded
  | 0, s, _, _ => .ok [] s
  | fuel + 1, s, va, n =>
    if n = 0 then .ok [] s
    else
      let m := min n (2 ^ 16 - va % 2 ^ 16)
      let k := s.core c
      let q : TReq := { ctx := k.ctx, va := va, kind := 0, who := .loader c, cls := classCode c.cls, core := coreNumber c k }
      match translate s (couchOf c) (domainOf c) q with
      | .fail sub => .fail sub va
      | .wait s1 => .wait s1
      | .ok t pa s1 =>
        match loadBytes c fuel s1 (va + m) (n - m) with
        | .ok bs s2 => .ok (memBytes (s.tier t) pa m ++ bs) s2
        | r => r

/-- The distinct workspace images of a kernel: code offset and local address. -/
def imageList (l : Launch) : List (Nat × Nat) := ((chrecs l).map (fun i => (chrecWsoff l i, imageAddr l i))).eraseDups

/-- Images loaded one after the other into a core's local store. -/
def loadImages (c : CoreId) (l : Launch) : List (Nat × Nat) → State → Loaded
  | [], s => .ok [] s
  | (o, a) :: rest, s =>
    match loadBytes c 3 s (codeAddr l o) 1024 with
    | .ok bs s1 => loadImages c l rest (s1.modCore c (fun k => { k with ls := memPut k.ls a bs }))
    | r => r

/-- The parameter block loaded. -/
def loadParams (c : CoreId) (l : Launch) (s : State) : Loaded :=
  match loadBytes c 3 s (launchParam l) (8 * launchPlen l) with
  | .ok bs s1 => .ok [] (s1.modCore c (fun k => { k with ls := memPut k.ls (launchPdst l) bs }))
  | r => r

/-- The channel table as the kernel declares it (R280, R286, R291). -/
def kernelChans (l : Launch) : List Chan :=
  (chrecs l).foldl (fun cs i =>
    let w1 := chrecWord l i 1
    let w2 := chrecWord l i 2
    setAt cs (chrecChan l i)
      { ctl := { ctlOf (chrecWord l i 0) with wpi := imageAddr l i / 1024 }, bind := 1, ready := bitAt w2 40,
        hold := bitAt w2 41, mask := bitAt w2 42, base := field w1 13 0, size := field w1 26 14 })
    (List.replicate 32 {})

/-- The workspace of the kernel's lowest-numbered channel. -/
def lowestWpi (l : Launch) : Nat :=
  match sortBy (chrecChan l) (chrecs l) with
  | i :: _ => imageAddr l i / 1024
  | [] => 0

/-- The core as the loader leaves it: channels written, tiles, counts and slice cleared, its workspace current, then
the prologue, or selection. -/
def readyCore (l : Launch) (temper : Nat) (k : Core) : Core :=
  let k1 := reloadShadows { k with
    chans := kernelChans l, tiles := List.replicate 16 {}, ctf := 0, ctb := 0, ctm := 0, ldo := 0, atm := 0, gbarc := 0,
    acc := [], wp := 1024 * lowestWpi l, life := .active }
  if field (nth l.kent 0 0) 63 32 = 0xFFFFFFFF then k1
  else startPrologue k1 (kernelEntry l) (field (nth l.kent 0 0) 31 16) (lowestWpi l) temper

/-- LOAD_FAIL (R472): the record, and the launch stops as under `.kill`, its cores to be zeroed; the gang's cores stop
loading. -/
def loadFail (s : State) (c : CoreId) (sub addr : Nat) : State :=
  let k := s.core c
  let t : Trap := { cause := .bulk, sub := sub, addr := addr }
  let rec' := faultRecord s c t { idle := true } 0 0 (recordSeq s k.ctx)
  let s1 := killLaunch (modLaunch (queueRecord s k.ctx rec') k.ctx k.launch (fun l => { l with zero := true })) k.ctx k.launch
  (launchCores s1 k.ctx k.launch).foldl (fun s x =>
    if (s.core x).life == .preparing then
      (withdrawReqs s (.loader x)).modCore x (fun k => { k with life := .ending })
    else s) s1

/-- PROLOGUE_START: the loader prepares a placed core, which then runs its prologue or selects; a pending pre-emption
request is taken by a core that is then idle (R365). -/
def prologueStart (s : State) (c : CoreId) : State :=
  let k := s.core c
  if k.life != .preparing then s
  else match findLaunch s k.ctx k.launch with
    | none => s
    | some l =>
      match loadImages c l (imageList l) s with
      | .fail sub a => loadFail s c sub a
      | .wait s1 => s1.setCore c { k with tlb := (s1.core c).tlb }
      | .ok _ s1 =>
        match loadParams c l s1 with
        | .fail sub a => loadFail s c sub a
        | .wait s2 => s2.setCore c { k with tlb := (s2.core c).tlb }
        | .ok _ s2 =>
          let s3 := s2.modCore c (readyCore l (startTemper s2 l))
          if (s3.core c).run == .idle && (s3.core c).preReq.isSome then beginEviction s3 c else s3

def execPrologueStart (s : State) : Host.Outcome State Fault Refusal := eventOp (fun s => prologueStart s s.ev.core) s

end Sys2Proof.Machine
end

