-- ==== Sys2Proof/Machine/Wheel.lean ====
section
/-!
DEFINITION. The placement round (R284, R285, R287-R290, R304, R310, R361, R362, R364, R370, R423, R424): the heads and
their order, free cores, the choice of an origin, placement and restore of gangs, ageing and the reservation, and the
requests of pre-emption.
-/
namespace Sys2Proof.Machine

/-! ### Tables read by the wheel (R361, R362) -/

/-- A context's tables as a placement or a restore reads them. -/
def gridOf (s : State) (ctx : Nat) : Grid := heldGrid (loadDesc s ctx) ctx

/-! ### Free cores (R287, R288, R290, R364) -/

/-- No placement or reservation holds a core against this head, and it was not freed, nor its row made ready, in this cycle
(R289, R461). -/
def unheld (s : State) (l : Launch) (c : CoreId) : Bool :=
  (s.core c).life == .free && !s.freed.any (fun f => f.1 == c && f.2 == s.cycle) &&
  (s.reserve == some (l.ctx, l.id) || !s.resCores.contains c) &&
  s.preHold.all (fun h => h.1 != c || h.2 == (l.ctx, l.id))

/-- The function-ready bit of a core (R460). -/
def coreUp (s : State) (c : CoreId) : Bool :=
  match c.cls with
  | .compute => bitAt s.rdy.row (rowOf c)
  | .control => bitAt s.rdy.ccore c.idx
  | .gateway => bitAt s.rdy.gcore c.idx

def coreFree (s : State) (l : Launch) (c : CoreId) : Bool := coreUp s c && unheld s l c

/-- The slots whose reserved parts meet a kernel's ranges on some cores (R304). -/
def heldSlots (s : State) (l : Launch) (cs : List CoreId) : List Nat :=
  (s.saggars.filter (fun e => e.2.reserves && cs.any (fun c => (kernelRanges l).any (partMeetsCore s e.2 c)))).map (·.1)

/-- The ranges of a kernel made clear on cores: at once, by evictions that free the bytes at once, or not this round. -/
def clearCores (s : State) (l : Launch) (cs : List CoreId) : State × Bool :=
  match (if s.saggars.isEmpty then [] else heldSlots s l cs) with
  | [] => (s, true)
  | slots => (pressure s slots).getD (s, false)

/-! ### Origins (R287-R289) -/

/-- An origin: x, y, k0. -/
abbrev Origin := Nat × Nat × Nat

/-- The logical cores of a gang at an origin, row by row. -/
def gangCores (l : Launch) (o : Origin) : List Nat :=
  (List.range (kernelH l)).flatMap (fun j => (List.range (kernelW l)).flatMap (fun i => (List.range (kernelN l)).map (fun k =>
    8 * (64 * (o.2.1 + j) + o.1 + i) + o.2.2 + k)))

/-- The gang at an origin, where every logical core maps and every physical core passes. -/
def gangAt (g : Grid) (l : Launch) (ok : CoreId → Bool) (o : Origin) : Option (List (Nat × CoreId)) :=
  (gangCores l o).mapM (fun n => match gridCore g n with
    | some c => if ok c then some (n, c) else none
    | none => none)

/-- The origins in order of y, then x, then k0, whose rows are all mapped. -/
def origins (g : Grid) (l : Launch) : List Origin :=
  let n := max 1 (kernelN l)
  let rows := (List.range 2048).filter (fun m => (gridRow g m).isSome)
  let fits (m : Nat) : Bool := decide (m % 64 + kernelW l ≤ 64) && decide (m / 64 + kernelH l ≤ 32) &&
    (List.range (kernelH l)).all (fun j => (List.range (kernelW l)).all (fun i => rows.contains (m + 64 * j + i)))
  (rows.filter fits).flatMap (fun m => (List.range (8 / n)).map (fun k => (m % 64, m / 64, n * k)))

/-- Resident parts of the launch's AFF saggars on a physical row (R289, step 3). -/
def affinity (s : State) (l : Launch) : List Nat :=
  (launchAff l).flatMap (fun name =>
    match (if name = 0 then none else findSag s l.ctx name) with
    | none => []
    | some slot =>
      let g := sagOf s slot
      if g.st = 1 then (partPlaces s g).map (fun p => if g.row then p else p / 8) else [])

def originScore (parts : List Nat) (ms : List (Nat × CoreId)) : Nat :=
  let rows := (ms.map (fun m => rowOf m.2)).eraseDups
  (parts.filter (fun p => rows.contains p)).length

/-- The first of the candidate gangs whose bytes can be cleared. -/
def firstClear (l : Launch) : State → List (List (Nat × CoreId)) → State × Option (List (Nat × CoreId))
  | s, [] => (s, none)
  | s, ms :: rest =>
    let r := clearCores s l (ms.map (·.2))
    if r.2 then (r.1, some ms) else firstClear l r.1 rest

/-- The gangs at origins tried in order, with no AFF saggar resident. -/
def firstFit (g : Grid) (l : Launch) (s : State) : List Origin → State × Option (List (Nat × CoreId))
  | [] => (s, none)
  | o :: rest =>
    match gangAt g l (coreFree s l) o with
    | none => firstFit g l s rest
    | some ms =>
      let r := clearCores s l (ms.map (·.2))
      if r.2 then (r.1, some ms) else firstFit g l r.1 rest

/-- The control or gateway cores that a context may use (R288). -/
def classCores (s : State) (l : Launch) : List CoreId :=
  let cls := classOf (kernelClass l)
  let mask := ctxWord s l.ctx (if kernelClass l = 1 then 0x60 else 0x68)
  ((List.range 64).filter (fun i => bitAt mask i)).map (fun i => ⟨cls, i⟩)

/-- Where the head's next gang goes. -/
def findGang (s : State) (l : Launch) : State × Option (List (Nat × CoreId)) :=
  if kernelClass l ≠ 0 then
    let cs := ((classCores s l).filter (coreFree s l)).take (kernelN l)
    (s, if cs.length = kernelN l then some (cs.map (fun c => (c.idx, c))) else none)
  else
    let g := gridOf s l.ctx
    let parts := affinity s l
    if parts.isEmpty then firstFit g l s (origins g l)
    else
      let fits := (origins g l).filterMap (gangAt g l (coreFree s l))
      firstClear l s (sortBy (fun ms => 2 ^ 20 - originScore parts ms) fits)

/-! ### Placing a gang (R289, R291, R366) -/

/-- A physical core given to a launch: it keeps its local store, TLB and caches, and its other state is that of a placement
(R153, R291, R353, R447). -/
def giveCore (s : State) (l : Launch) (idx logical : Nat) (life : Life) (expired : Bool) (c : CoreId) : State :=
  let s1 := s.modCore c (fun k => {
    cls := k.cls, ls := k.ls, tlb := k.tlb, lines := k.lines, ic := k.ic
    life := life, ctx := l.ctx, launch := l.id, logical := logical, gang := idx, sup := ctxSup s l.ctx
    tcfg := ctxWord s l.ctx 0x28, tent := ctxWord s l.ctx 0x30, sliceExp := expired })
  { s1 with freed := s1.freed.filter (fun f => f.1 != c), resCores := s1.resCores.filter (· != c),
            preHold := s1.preHold.filter (fun h => h.1 != c) }

/-- The next gang of a launch placed on given cores. -/
def placeGang (s : State) (l : Launch) (ms : List (Nat × CoreId)) : State :=
  let idx := l.placedGangs
  let expired := l.sliceExp || (idx == 0 && s.sliceNext.contains l.ctx)
  let first := match ms with | m :: _ => m.1 | [] => 0
  let s1 := loadDesc (ms.foldl (fun s m => giveCore s l idx m.1 .preparing expired m.2) s) l.ctx
  let s2 := { s1 with sliceNext := if idx = 0 then s1.sliceNext.filter (· != l.ctx) else s1.sliceNext }
  modLaunch s2 l.ctx l.id (fun x => { x with
    gangs := x.gangs ++ [{ idx := idx, org := first, members := ms }], placedGangs := idx + 1
    first := if idx = 0 then first else x.first, start := if idx = 0 then s.cycle else x.start, sliceExp := expired
    st := if idx + 1 = launchNgang x then .placed else x.st })

/-- Gangs placed one at a time until one does not fit; the number placed. -/
def placeGangs : Nat → State → Nat → Nat → State × Nat
  | 0, s, _, _ => (s, 0)
  | n + 1, s, ctx, id =>
    match findLaunch s ctx id with
    | none => (s, 0)
    | some l =>
      if l.st ≠ .queued then (s, 0)
      else match findGang s l with
        | (s1, none) => (s1, 0)
        | (s1, some ms) =>
          let r := placeGangs n (placeGang s1 l ms) ctx id
          (r.1, r.2 + 1)

/-! ### Restoring a gang (R362, R370) -/

/-- The physical row on which another mapped core of the context stays on a logical row of a gang (R361, R370). -/
def keptRow (s : State) (l : Launch) (ms : List (Nat × CoreId)) (m : Nat) : Option Nat :=
  ((List.range 8).filter (fun k => !ms.any (fun p => p.1 == 8 * m + k))).findSome? (fun k =>
    match mapCore s l.ctx (8 * m + k) with
    | .core c => some (rowOf c)
    | _ => none)

/-- Every place that the gang needs on a logical row is free on a physical row. -/
def rowFits (s : State) (l : Launch) (ms : List (Nat × CoreId)) (m row : Nat) : Bool :=
  (ms.filter (fun p => p.1 / 8 == m)).all (fun p => coreFree s l (coreAt row (placeOf p.2)))

/-- Physical rows for logical rows: kept or mapped ones where they fit, else the lowest free ones. `sd` is the machine with
the context's tables as the restore reads them. -/
def chooseRows (s sd : State) (g : Grid) (l : Launch) (ms : List (Nat × CoreId)) : List Nat → List (Nat × Nat) → Option (List (Nat × Nat))
  | [], acc => some acc
  | m :: rest, acc =>
    let ok (r : Nat) : Bool := rowFits s l ms m r && acc.all (fun p => p.2 != r)
    let pick : Option Nat := match keptRow sd l ms m with
      | some r => if ok r then some r else none
      | none => match (gridRow g m).filter ok with
        | some r => some r
        | none => (List.range 2048).find? (fun r => ok r && !s.placedCores.any (fun e =>
            e.1.cls == .compute && e.2.ctx == l.ctx && rowOf e.1 == r))
    match pick with
    | some r => chooseRows s sd g l ms rest (acc ++ [(m, r)])
    | none => none

/-- The cores on which an evicted gang can go. -/
def restorePlaces (s : State) (l : Launch) (g : Gang) : Option (List (Nat × CoreId)) :=
  if kernelClass l ≠ 0 then
    let cs := ((classCores s l).filter (coreFree s l)).take g.members.length
    if cs.length = g.members.length then some (cs.map (fun c => (c.idx, c))) else none
  else
    let rows := (g.members.map (fun m => m.1 / 8)).eraseDups
    (chooseRows s (loadDesc s l.ctx) (gridOf s l.ctx) l g.members rows []).map (fun rs =>
      g.members.map (fun m => (m.1, coreAt ((alookup (m.1 / 8) rs).getD 0) (placeOf m.2))))

/-- A table entry (R361). -/
def mapEntry (row k : Nat) : Nat := 2 ^ 31 + row % 64 * 2 ^ 16 + row / 64 * 2 ^ 8 + k

/-- The core-table and route-table entries of a restored core written. -/
def writeEntries (s : State) (ctx n : Nat) (c : CoreId) : State :=
  let a := field (ctxWord s ctx 0x08) 47 0 + 4 * n
  let b := field (ctxWord s ctx 0x10) 47 0 + 4 * (n / 8)
  let s1 := (svcWrite s ctx a (toBytes 4 (mapEntry (rowOf c) (placeOf c)))).getD s
  (svcWrite s1 ctx b (toBytes 4 (mapEntry (rowOf c) 0))).getD s1

/-- An evicted gang on its way back: its cores restore. For control and gateway cores the saved cores take the new
indices. -/
def restoreGang (s : State) (l : Launch) (g : Gang) (ms : List (Nat × CoreId)) : State :=
  let s0 := if kernelClass l = 0 then s else
    { s with saves := s.saves.map (fun v =>
        match (g.members.zip ms).find? (fun p => v.ctx == l.ctx && v.core.launch == l.id && v.core.gang == g.idx && v.logical == p.1.1) with
        | some p => { v with logical := p.2.1 }
        | none => v) }
  let s0' := if kernelClass l = 0 then ms.foldl (fun s m => writeEntries s l.ctx m.1 m.2) s0 else s0
  let s1 := loadDesc (ms.foldl (fun s m => giveCore s l g.idx m.1 .restoring l.sliceExp m.2) s0') l.ctx
  modLaunch s1 l.ctx l.id (fun x => { x with
    gangs := x.gangs.map (fun y => if y.idx = g.idx then { y with members := ms, evicted := false } else y) })

/-- The first evicted gang of a launch restored, where it fits. -/
def restoreFirst (s : State) (l : Launch) : State × Nat :=
  match l.gangs.find? (·.evicted) with
  | none => (s, 0)
  | some g =>
    match restorePlaces s l g with
    | none => (s, 0)
    | some ms =>
      let r := clearCores s l (ms.map (·.2))
      if r.2 then (restoreGang r.1 l g ms, 1) else (r.1, 0)

/-- Evicted gangs of a launch restored one at a time until one does not fit; the number restored. -/
def restoreGangs : Nat → State → Nat → Nat → State × Nat
  | 0, s, _, _ => (s, 0)
  | n + 1, s, ctx, id =>
    match findLaunch s ctx id with
    | none => (s, 0)
    | some l =>
      match restoreFirst s l with
      | (s1, 0) => (s1, 0)
      | (s1, _ + 1) =>
        let r := restoreGangs n s1 ctx id
        (r.1, r.2 + 1)

/-! ### The heads (R284, R289, R423) -/

/-- The head of each queue of an existing context, considered from the round after its acceptance. -/
def heads (s : State) : List Launch :=
  let live := s.launches.filter (fun l => !l.over && (l.st == .queued || l.gangs.any (·.evicted)))
  let keys := (live.map (fun l => (l.ctx, launchQueue l))).eraseDups
  keys.filterMap (fun p => (queueOf s p.1 p.2).head?.filter (fun l =>
    decide (l.since < s.cycle) && ctxValid s l.ctx && !l.killed && (l.gangs.any (·.evicted) || eligible s l)))

/-- The order of step 1: by priority, then in rotation of (context, queue). -/
def headKey (s : State) (l : Launch) : Nat :=
  let last := (alookup (launchPrio l) s.rotate).getD 1023
  1024 * (3 - launchPrio l) + (16 * l.ctx + launchQueue l + 1024 - last - 1) % 1024

/-- The launch with its code object's tables, where they can be read. -/
def storeObject (s : State) (l : Launch) : State :=
  match readObject s l with
  | some l' => modLaunch s l.ctx l.id (fun x => { x with hdr := l'.hdr, kent := l'.kent, chrec := l'.chrec })
  | none => s

/-- The turn of a head with evicted gangs: these first, in gang order, then the gangs not yet placed; a co-scheduled head
takes back what it could not complete. -/
def restoreTurn (s : State) (l : Launch) : State × Nat :=
  let n := (l.gangs.filter (·.evicted)).length
  let left := launchNgang l - l.placedGangs
  let r := restoreGangs n s l.ctx l.id
  let q := if r.2 < n then (r.1, 0) else placeGangs left r.1 l.ctx l.id
  if kernelCosched l && decide (r.2 + q.2 < n + left) then (s, 0) else (q.1, r.2 + q.2)

/-- A head's turn: refused, or what it places (its own number, and none where it was refused). -/
def headTurn (s : State) (l : Launch) : State × Option Nat :=
  if l.gangs.any (·.evicted) then let r := restoreTurn s l; (r.1, some r.2)
  else
    let bad := if l.placedGangs = 0 then refusalReason s l else 0
    if bad ≠ 0 then (refuseLaunch s l.ctx l.id bad, none)
    else
      let s1 := if l.placedGangs = 0 then storeObject s l else s
      let left := launchNgang l - l.placedGangs
      let r := placeGangs left s1 l.ctx l.id
      let cos := match findLaunch s1 l.ctx l.id with | some x => kernelCosched x | none => false
      if cos && decide (r.2 < left) then (s1, some 0) else (r.1, some r.2)

/-- A head that placed: the rotation, its reservation over, and cores held for it given up once it is placed in full
(R289, R290, R364). -/
def afterPlacing (s : State) (l : Launch) : State :=
  let full : Bool := match findLaunch s l.ctx l.id with | some x => x.st == .placed | none => true
  let s1 := { s with rotate := ainsert (launchPrio l) (16 * l.ctx + launchQueue l) s.rotate }
  let s2 := if full then dropHolds s1 l.ctx l.id else s1
  if full || s2.reserve == some (l.ctx, l.id) then endReserve s2 l.ctx l.id else s2

/-- The turns of the heads in order, with what each placed. -/
def headTurns : State → List Launch → State × List (Launch × Option Nat)
  | s, [] => (s, [])
  | s, l :: rest =>
    let r := headTurn s l
    let s1 := match r.2 with | some (_ + 1) => afterPlacing r.1 l | _ => r.1
    let q := headTurns s1 rest
    (q.1, (l, r.2) :: q.2)

/-! ### Ageing (R290, R424) -/

/-- A blocked head ages when a head after it placed a gang. -/
def ageHeads : State → List (Launch × Option Nat) → State
  | s, [] => s
  | s, (l, r) :: rest =>
    let later := rest.any (fun p => match p.2 with | some n => decide (0 < n) | none => false)
    if r = some 0 ∧ later ∧ s.reserve ≠ some (l.ctx, l.id) then
      let n := min 8 (l.skips + 1)
      let s1 := modLaunch s l.ctx l.id (fun x => { x with skips := n })
      let s2 := if n = 8 ∧ !s1.resWait.contains (l.ctx, l.id) then { s1 with resWait := s1.resWait ++ [(l.ctx, l.id)] } else s1
      ageHeads s2 rest
    else ageHeads s rest

/-- A reservation granted to the first that waits, where none is held. -/
def grantReserve (s : State) : State :=
  match s.reserve, s.resWait with
  | none, h :: t => { s with reserve := some h, resWait := t, resSince := s.cycle, resCores := [] }
  | _, _ => s

/-! ### Pre-emption (R364) -/

/-- The cores of a gang that its launch still holds. -/
def gangHeld (s : State) (x : Launch) (g : Gang) : List CoreId :=
  (g.members.map (·.2)).filter (fun c => (s.core c).life != .free && (s.core c).ctx == x.ctx && (s.core c).launch == x.id)

/-- A gang that may be a victim of a head: placed, of another context, of lower class, or of equal class with its slice over;
no core of it is leaving already and no request is on its way. -/
def victimGang (s : State) (l x : Launch) (g : Gang) : Bool :=
  let p := field (heldWord s l.ctx 0) 2 0
  let q := field (heldWord s x.ctx 0) 2 0
  x.ctx != l.ctx && !x.over && !g.evicted && (decide (q < p) || (q == p && x.sliceExp)) &&
  !(gangHeld s x g).isEmpty &&
  (gangHeld s x g).all (fun c => (s.core c).life != .saving && (s.core c).life != .ending && (s.core c).preReq.isNone &&
    !s.preReqs.any (fun r => r.1 == c))

/-- Groups of cores that can be pre-empted together: a gang, or all gangs of a co-scheduled kernel. -/
def victims (s : State) (l : Launch) : List (List CoreId) :=
  s.launches.flatMap (fun x =>
    if x.over then []
    else if kernelCosched x then
      (if !x.gangs.isEmpty && x.gangs.all (victimGang s l x) then [x.gangs.flatMap (gangHeld s x)] else [])
    else (x.gangs.filter (victimGang s l x)).map (gangHeld s x))

/-- The groups that a set of cores touches. -/
def touched (gs : List (List CoreId)) (cs : List CoreId) : List (List CoreId) := gs.filter (fun g => g.any cs.contains)

/-- The least element of a list under a cost; the first of equals. -/
def leastBy {α : Type} (cost : α → Nat) : List α → Option α
  | [] => none
  | a :: l => match leastBy cost l with
    | some b => if cost b < cost a then some b else some a
    | none => some a

/-- The cores of a group count. -/
def victimCost (v : List (List CoreId)) : Nat := (v.map List.length).foldl (· + ·) 0

/-- Physical rows with the groups that they touch, at most n of those that touch the same. -/
def fewAlike (n : Nat) : List (Nat × List (List CoreId)) → List (Nat × List (List CoreId)) → List (Nat × List (List CoreId))
  | [], acc => acc
  | p :: l, acc => fewAlike n l (if n ≤ (acc.filter (fun q => q.2 == p.2)).length then acc else acc ++ [p])

/-- Every choice of distinct physical rows, one from each list, as the groups that it touches. -/
def rowChoices : List (List (Nat × List (List CoreId))) → List Nat → List (List CoreId) → List (List (List CoreId))
  | [], _, acc => [acc.eraseDups]
  | ps :: rest, used, acc =>
    ps.flatMap (fun p => if used.contains p.1 then [] else rowChoices rest (p.1 :: used) (acc ++ p.2))

/-- The groups that make room for an evicted gang with the fewest cores in all: each logical row goes to a physical row where
it may go (R370), no two to one. Rows that touch the same groups cost the same, so as many of them as the gang has rows
suffice. -/
def restoreVictims (s : State) (g : Grid) (l : Launch) (gs : List (List CoreId)) (usable : CoreId → Bool)
    (ms : List (Nat × CoreId)) : Option (List (List CoreId)) :=
  let lrows := (ms.map (fun m => m.1 / 8)).eraseDups
  let sd := loadDesc s l.ctx
  leastBy victimCost (rowChoices (lrows.map (fun m =>
    let places (r : Nat) : List CoreId := (ms.filter (fun p => p.1 / 8 == m)).map (fun p => coreAt r (placeOf p.2))
    let rows := match keptRow sd l ms m with
      | some r => [r]
      | none => (gridRow g m).toList ++ (List.range 2048).filter (fun r => some r != gridRow g m && !s.placedCores.any (fun e =>
          e.1.cls == CoreClass.compute && e.2.ctx == l.ctx && rowOf e.1 == r))
    fewAlike lrows.length ((rows.filter (fun r => (places r).all usable)).map (fun r => (r, touched gs (places r)))) [])) [] [])

/-- The groups that make room for the head's next gang at the least cost, in the state after what it could place. A core held
for a reservation counts as occupied (R424). -/
def chooseVictims (s : State) (l : Launch) : Option (List (List CoreId)) :=
  let gs := victims s l
  if gs.isEmpty then none
  else
    let free1 (c : CoreId) : Bool := coreFree s l c && !s.resCores.contains c
    let usable (c : CoreId) : Bool := free1 c || (coreUp s c && gs.any (fun g => g.contains c))
    let cost := victimCost
    let back := l.gangs.find? (·.evicted)
    if kernelClass l ≠ 0 then
      let cs := classCores s l
      let free := cs.filter free1
      let n := match back with | some g => g.members.length | none => kernelN l
      let need := (cs.filter (fun c => usable c && !free1 c)).take (n - free.length)
      if n ≤ free.length + need.length then some (touched gs need) else none
    else match back with
    | some g => restoreVictims s (gridOf s l.ctx) l gs usable g.members
    | none =>
      let g := gridOf s l.ctx
      let parts := affinity s l
      let fits := (origins g l).filterMap (gangAt g l usable)
      let ordered := if parts.isEmpty then fits else sortBy (fun ms => 2 ^ 20 - originScore parts ms) fits
      leastBy cost (ordered.map (fun ms => touched gs (ms.map (·.2))))

/-- Requests raised on every core of the chosen gangs, and the cores held for the head. -/
def raiseRequests (s : State) (l : Launch) (vs : List (List CoreId)) : State :=
  let cs := vs.flatMap id
  { s with preReqs := s.preReqs ++ cs.map (fun c => (c, s.cycle)), preHold := s.preHold ++ cs.map (fun c => (c, l.ctx, l.id)) }

/-- A request of this head has not been taken to its end. -/
def preemptPending (s : State) (l : Launch) : Bool :=
  s.preHold.any (fun h => h.2 == (l.ctx, l.id) && (s.core h.1).life != .free)

/-- A blocked head's pre-emption. -/
def preempt (s : State) (l0 : Launch) : State :=
  match findLaunch s l0.ctx l0.id with
  | none => s
  | some l =>
    if l.over || preemptPending s l then s
    else
      let n := (l.gangs.filter (·.evicted)).length
      let trial := if kernelCosched l then
          (if n = 0 then (placeGangs (launchNgang l - l.placedGangs) s l.ctx l.id).1 else (restoreGangs n s l.ctx l.id).1)
        else s
      match chooseVictims trial ((findLaunch trial l.ctx l.id).getD l) with
      | some (v :: vs) => raiseRequests s l (v :: vs)
      | _ => s

/-! ### The round -/

/-- The status words as the round leaves them: `elig` are the heads that are eligible after it (R300). -/
def snapshot (s : State) (elig : List Launch) : State :=
  { s with launches := s.launches.map (fun l =>
      { l with stat := statusWord s l (elig.any (fun h => h.ctx == l.ctx && h.id == l.id)) }) }

/-- PLACEMENT_ROUND: runs once the wheel is up and the device has not stopped (R440, R461). -/
def placementRound (s : State) : State :=
  if !bitAt s.rdy.svc 0 || s.health.stopped then s
  else
    let hs := sortBy (headKey s) (heads s)
    let r := headTurns s hs
    let s1 := grantReserve (ageHeads r.1 r.2)
    let s2 := (r.2.filter (fun p => p.2 == some 0)).foldl (fun s p => preempt s p.1) s1
    let s3 := { s2 with freed := s2.freed.filter (fun f => f.2 == s2.cycle) }
    snapshot s3 (heads s3)

def execPlacementRound (s : State) : Host.Outcome State Fault Refusal := eventOp placementRound s

end Sys2Proof.Machine
end

