-- ==== Sys2Proof/Machine/Evict.lean ====
section
/-!
DEFINITION. Leaving a core and coming back (R364-R371, R445, R446): pre-emption requests and their limit, slices, the
save of a core and of a row, the restore with its tags, the halt of a context and the retirement of a row.
-/
namespace Sys2Proof.Machine

/-! ### Requests (R364-R366) -/

/-- A coupling that waits for its partner is abandoned; a restored checker then is as after an uncoupling (R444; log 15). -/
def abandonCoupling (s : State) (c : CoreId) : State :=
  let k := s.core c
  let p := s.core (coreAt (rowOf c) k.partner)
  if k.pairReq = 3 ∧ k.pst ≠ .coupling then
    (if p.pst = .checker ∧ p.lkey = k.lkey then uncouple s c else s).modCore c (fun k => { k with pairReq := 4 })
  else s

/-- The cores whose coupling ends with a request to a core: its own, or that with it as the partner (R444). -/
def couplesWith (s : State) (c : CoreId) : List CoreId :=
  if c.cls != .compute then []
  else c :: (rowCores (rowOf c)).filter (fun x =>
    x != c && (s.core x).pairReq == 3 && (s.core x).partner == placeOf c && (s.core x).lkey == (s.core c).lkey)

/-- PREEMPT_REQUEST_ARRIVAL: the request of a core. A coupling that still waits for its partner is abandoned; one that copies
ends first (R444). A core that restores or prepares keeps the request until it is active. -/
def requestArrives (s : State) (c : CoreId) : State :=
  if !s.preReqs.any (fun r => r.1 == c) then s
  else
    let s1 := { s with preReqs := s.preReqs.filter (fun r => r.1 != c) }
    match (s1.core c).life with
    | .active | .preparing | .restoring =>
      takeIfIdle ((couplesWith s1 c).foldl abandonCoupling (s1.modCore c (fun k => { k with preReq := some s.cycle }))) c
    | _ => s1

def execPreemptRequestArrival (s : State) : Host.Outcome State Fault Refusal :=
  eventOp (fun s => requestArrives s s.ev.core) s

/-- PLIM_EXPIRY (R365): a request that has waited its limit ends the context on the core. -/
def plimExpiry (s : State) (c : CoreId) : State :=
  let k := s.core c
  let lim := field (heldWord s k.ctx 0x50) 47 32
  match k.preReq with
  | some t =>
    if lim = 0 ∨ s.cycle < t + 65536 * lim ∨ (k.life ≠ .active ∧ k.life ≠ .preparing) then s
    else
      let p := pendingInstr s c
      let rec' := faultRecord s c { cause := .budget, sub := 0x10 } { idle := k.run == .idle } p.1 p.2.1 (recordSeq s k.ctx)
      endContext (queueRecord s k.ctx rec') c
  | none => s

def execPlimExpiry (s : State) : Host.Outcome State Fault Refusal := eventOp (fun s => plimExpiry s s.ev.core) s

/-- SLICE_EXPIRY (R366): the slice of a placed kernel is over. -/
def sliceExpiry (s : State) (ctx id : Nat) : State :=
  let n := field (heldWord s ctx 0x50) 31 0
  match findLaunch s ctx id with
  | none => s
  | some l =>
    if l.over || n = 0 || l.placedGangs = 0 || s.cycle < l.start + 65536 * n then s
    else (launchCores s ctx id).foldl (fun s c => s.modCore c (fun k => { k with sliceExp := true }))
      (modLaunch s ctx id (fun l => { l with sliceExp := true }))

def execSliceExpiry (s : State) : Host.Outcome State Fault Refusal := eventOp (fun s => sliceExpiry s s.ev.i s.ev.j) s

/-! ### Bulk ranges of the save area -/

/-- Bytes [lo, hi) of a memory written at va + lo of a context's bulk space; none where a page refuses the write. -/
def svcPutRange (ctx va : Nat) (m : Mem) : Nat → State → Nat → Nat → Option State
  | 0, s, _, _ => some s
  | fuel + 1, s, lo, hi =>
    if hi ≤ lo then some s
    else
      let a := va + lo
      let n := min (hi - lo) (2 ^ 16 - a % 2 ^ 16)
      match svcPlace s ctx a 1 with
      | none => none
      | some (t, pa) =>
        let s1 := dropLines s t pa n
        svcPutRange ctx va m fuel (s1.setTier t (memCopy (s1.tier t) pa m lo n)) (lo + n) hi

/-- Bytes of a context's bulk space as a memory by offset; none where a page refuses the read. -/
def svcGetRange (ctx va : Nat) : Nat → State → Nat → Nat → Option Mem
  | 0, _, _, _ => some []
  | fuel + 1, s, lo, hi =>
    if hi ≤ lo then some []
    else
      let a := va + lo
      let n := min (hi - lo) (2 ^ 16 - a % 2 ^ 16)
      match svcPlace s ctx a 0 with
      | none => none
      | some (t, pa) =>
        (svcGetRange ctx va fuel s (lo + n) hi).map (fun rest =>
          memMerge (memShiftUp (memShiftDown (memSlice (s.tier t) pa (pa + n)) pa) lo) rest)

/-- The parts of [0, top) outside given ranges, which are taken in rising order. -/
def outside : Nat → Nat → List (Nat × Nat) → List (Nat × Nat)
  | lo, top, [] => if lo < top then [(lo, top)] else []
  | lo, top, (a, b) :: rest =>
    let here := if lo < min a top then [(lo, min a top)] else []
    here ++ outside (max lo b) top rest

/-- Several ranges written. -/
def svcPutRanges (ctx va : Nat) (m : Mem) : State → List (Nat × Nat) → Option State
  | s, [] => some s
  | s, r :: rest => (svcPutRange ctx va m 8 s r.1 r.2).bind (fun s1 => svcPutRanges ctx va m s1 rest)

/-- The tag of a page (R369). -/
def pageTag (s : State) (ctx addr sgen : Nat) (m : Mem) (page : Nat) : Nat :=
  (Config.sipHash (Config.tagKey ctx s.sec.nonce) (toBytes 8 addr ++ toBytes 8 sgen ++ memBytes m (4096 * page) 4096)).toNat

/-- n tags from offset `at'` as memory. -/
def tagMem (s : State) (ctx addr sgen : Nat) (m : Mem) (n at' : Nat) : Mem :=
  (List.range n).foldl (fun t i => memWrite t (at' + 8 * i) 8 (pageTag s ctx addr sgen m i)) []

/-- Every stored tag agrees. -/
def tagsAgree (s : State) (ctx addr sgen : Nat) (m : Mem) (n at' : Nat) : Bool :=
  (List.range n).all (fun i => memRead m (at' + 8 * i) 8 == pageTag s ctx addr sgen m i)

/-- Cells of a memory outside given ranges. -/
def clearRanges (m : Mem) (rs : List (Nat × Nat)) : Mem := rs.foldl (fun m r => memClear m r.1 r.2) m

/-! ### Losing or halting a context (R371, R445) -/

/-- The owner's copy of a record (R371, R445): the owning context's ring, or a notice to the host. -/
def tellOwner (s : State) (ctx : Nat) (words : List Nat) : State :=
  let w := ctxWord s ctx 0
  if bitAt w 61 then raiseNotice s 4 ctx
  else queueRecord s (field w 60 55) words

/-- An access that the mesh carries: one that waits to be sent again, or whose retry reply is on its way, is not. -/
def Acc.inMesh (a : Acc) : Bool := a.phase != .waiting && a.phase != .refused

/-- A message that the mesh carries. -/
def Msg.inMesh (m : Msg) : Bool := match m.phase with | .going => true | _ => false

/-- Everything of a context that is under way is discarded; what is already in the mesh performs, and nothing is issued
any more (R445, step 1). -/
def discardWork (s : State) (ctx : Nat) : State :=
  let gone := (s.jobs.filter (fun j => j.ctx == ctx)).map (·.uid)
  let quietRow (r : Row) : Row := { r with kops := r.kops.filter (fun o => o.launch / 2 ^ 52 != ctx) }
  { s with
    jobs := s.jobs.filter (fun j => j.ctx != ctx)
    beats := s.beats.filter (fun b => !gone.contains b.uid || (b.data.isSome && b.tile.isNone))
    rows := s.rows.map (fun e => (e.1, quietRow e.2))
    doms := s.doms.map (fun x => x.without (fun q => q.ctx == ctx))
    preReqs := s.preReqs.filter (fun r => (s.core r.1).ctx != ctx)
    saves := s.saves.filter (fun v => v.ctx != ctx)
    rowSaves := s.rowSaves.filter (fun v => v.ctx != ctx)
    fab := s.fab.filter (fun a => a.ctx != ctx || a.inMesh)
    net := s.net.filter (fun m => m.ctx != ctx || m.src.isNone || m.inMesh)
    cores := s.cores.map (fun e => (e.1, if e.2.ctx == ctx then { e.2 with sout := [] } else e.2)) }

/-- Attachments of a context: of its placed cores, of evicted ones, and of cores that were freed alone (R308). -/
def contextAtts (s : State) (ctx : Nat) (cs : List CoreId) : List Attach :=
  heldBy s cs ++ heldSaved (s.saves.filter (fun v => v.ctx == ctx)) ++
    (s.launches.filter (fun l => l.ctx == ctx && !l.over)).flatMap (·.att)

/-- Every core of a context stopped, zeroed and freed. -/
def clearContext (s : State) (ctx : Nat) : State :=
  let cs := (s.placedCores.filter (fun e => e.2.ctx == ctx)).map (·.1)
  let s1 := detachAll (cs.foldl withdrawLeave (discardWork s ctx)) (contextAtts s ctx cs)
  freeCores { s1 with launches := s1.launches.map (fun l => if l.ctx == ctx then { l with att := [] } else l) } cs (fun _ => true)

/-- A record of a context for a hardware cause: from a core of it, or bare. -/
def hardRecord (s : State) (ctx : Nat) (c : Option CoreId) (t : Trap) : List Nat :=
  match c with
  | some c =>
    let p := pendingInstr s c
    faultRecord s c t { idle := (s.core c).run == .idle } p.1 p.2.1 (recordSeq s ctx)
  | none => [ctx * 2 ^ 50 + 2 ^ 22, 0, t.addr % 2 ^ 64, t.sub % 2 ^ 16 + causeCode t.cause * 2 ^ 16, s.cycle % 2 ^ 64, 0,
             recordSeq s ctx % 2 ^ 32 * 2 ^ 32, 0]

/-- The context is lost (R371): its cores are zeroed and freed, its launches end as under `.kill`, and the owner's
ring receives the record SAVE with the slot's address. -/
def loseContext (s : State) (ctx : Nat) (c : CoreId) (addr : Nat) : State :=
  let words := hardRecord s ctx (some c) { cause := .save, addr := addr }
  let w := ctxWord s ctx 0
  let s1 := queueRecord s (if bitAt w 61 then ctx else field w 60 55) words
  let s2 := clearContext s1 ctx
  { s2 with launches := s2.launches.map (fun l => if l.ctx == ctx && !l.over then { l with killed := true, gangs := [] } else l) }

/-- The launches of a context that are not over. -/
def openLaunches (s : State) (ctx : Nat) : List Nat := (s.launches.filter (fun l => l.ctx == ctx && !l.over)).map (·.id)

/-- A context halts (R445). `bad` tells the saggars with a part in the faulting array. -/
def haltContext (s : State) (ctx : Nat) (c : Option CoreId) (t : Trap) (bad : Saggar → Bool) : State :=
  let words := hardRecord s ctx c t
  let ids := openLaunches s ctx
  let s1 := clearContext s ctx
  let s2 := ids.foldl (fun s id => endLaunch (rollbackLaunch s ctx id) ctx id .failed 0) s1
  let s3 := ((s2.saggars.filter (fun e => e.2.occupies && bad e.2)).map (·.1)).foldl loseSag s2
  tellOwner (queueRecord s3 ctx words) ctx words

/-- A row retired (R446): its ready bit clears, and the gangs with a core on it are evicted. -/
def retireRow (s : State) (row : Nat) : State :=
  if bitAt s.health.retired row then s
  else
    let onRow (c : CoreId) : Bool := c.cls == .compute && rowOf c == row
    let gone := s.launches.flatMap (fun l => ((l.gangs.filter (fun g => !g.evicted)).map (gangHeld s l)).flatMap (fun cs =>
      if cs.any onRow then cs else []))
    let new := gone.filter (fun c => (s.core c).life != .saving && (s.core c).preReq.isNone && !s.preReqs.any (fun r => r.1 == c))
    { s with
      rdy := { s.rdy with row := setField s.rdy.row row row 0 }
      health := { s.health with retired := s.health.retired + 2 ^ row, last := s.cycle }
      preReqs := s.preReqs ++ new.map (fun c => (c, s.cycle)) }

/-! ### Saving (R367, R368) -/

/-- SAVEB as the device read it at the last placement or restore (R360). -/
def saveBase (s : State) (ctx : Nat) : Nat := field (heldWord s ctx 0x38) 47 0
def slotAddr (s : State) (ctx n : Nat) : Nat := saveBase s ctx + 0x18000 * n
def rowAddr (s : State) (ctx m : Nat) : Nat := saveBase s ctx + 0x60000000 + 0x30000 * m

/-- The bytes of a state page. -/
def pageMem (n lo len : Nat) : Mem :=
  (List.range len).foldr (fun i m => if Config.statePage n i = 0 then m else (lo + i, Config.statePage n i) :: m) []

/-- The words of the records of parked jobs: the job block of each (R210); its next chunk, kind and destination fields take
the two words that the block reserves, as the device chooses (log 12). -/
def jobRecords (page : Nat) (js : List Job) (m : Mem) : Mem :=
  ((List.range js.length).zip js).foldl (fun m p =>
    let j := p.2
    memPut m (0x14800 + 64 * p.1) (([j.src, j.dst, (j.sstr % 2 ^ 64).toNat, j.mbx, j.msg, j.mdata].map (toBytes 8)).flatten ++
      (List.range 16).map (fun i => Config.statePage page (0x1000 + 16 * p.1 + i)))) m

/-- The image of a slot, without tags: local store without volatile bytes, accumulators, state page, parked jobs. -/
def slotMem (k : Core) (vol : List (Nat × Nat)) (page : Nat) (js : List Job) : Mem :=
  jobRecords page js
    (clearRanges (memSlice k.ls 0 0x12000) vol ++ memShiftUp (memSlice k.acc 0 0x2000) 0x12000 ++ pageMem page 0x14000 0x1000)

/-- A slot written with its tags and SGEN. -/
def writeSlot (s : State) (ctx n sgen : Nat) (k : Core) (vol : List (Nat × Nat)) (page : Nat) (js : List Job) : Option State := do
  let a := slotAddr s ctx n
  let m := slotMem k vol page js
  let s1 ← svcPutRanges ctx a m s (outside 0 0x12000 (sortBy (·.1) vol) ++ [(0x12000, 0x15000)])
  let tags := memWrite (tagMem s ctx a sgen m 21 0x15000) 0x150F8 8 sgen
  svcPutRanges ctx a tags s1 [(0x15000, 0x150A8), (0x150F8, 0x15100)]

/-- What of a row a launch claimed. -/
def claimedRow (r : Row) (key : Nat) : Row :=
  { rs := [], rings := r.rings.map (fun g => if g.claim = some key then g else {})
    slip := if r.slipClaim = some key then r.slip else [], slipLoaded := r.slipLoaded && r.slipClaim == some key
    slipClaim := if r.slipClaim = some key then some key else none }

/-- The row-store ranges of the claimed rings. -/
def claimedRanges (r : Row) (key : Nat) : List (Nat × Nat) :=
  (r.rings.filter (fun g => g.claim == some key && g.count != 0)).map (fun g => (g.base, g.base + g.size * g.count))

/-- The place of the slip matrix in a row record, in the part that R368 leaves to it (log 12). -/
def slipOffset : Nat := 0x29000 + Config.slipPlace % 0x4000

/-- A row record written with its tags; its pages are taken as they then stand in the record. -/
def writeRowRecord (s : State) (ctx m key sgen row page : Nat) : Option State := do
  let a := rowAddr s ctx m
  let r := s.row row
  let s0 ← svcPutRanges ctx a r.rs s (claimedRanges r key)
  let s1 ← svcPutRanges ctx a (memShiftUp (memSlice r.slip 0 0x2000) slipOffset) s0
    (if r.slipClaim = some key then [(slipOffset, slipOffset + 0x2000)] else [])
  let s2 ← svcPutRanges ctx a (pageMem page 0x28000 0x1000) s1 [(0x28000, 0x29000)]
  let now ← svcGetRange ctx a 8 s2 0 0x2F000
  svcPutRanges ctx a (tagMem s ctx a sgen now 47 0x2F000) s2 [(0x2F000, 0x2F178)]

/-- The drain of R367, step 1: counts, kiln operations and jobs. -/
def drained (s : State) (c : CoreId) : Bool :=
  let k := s.core c
  k.kout == 0 && releaseReady k && k.ctm == 0 && !jobsLeft s c false

/-- Saggars whose parts lie on a core. -/
def saggarsOn (s : State) (c : CoreId) : List Nat :=
  (s.saggars.filter (fun e => (e.2.st == 1 || e.2.st == 2) && partMeetsCore s e.2 c (0, 0x12000))).map (·.1)

/-- A gang whose cores have all left is evicted. -/
def markEvicted (s : State) (ctx id : Nat) : State :=
  modLaunch s ctx id (fun l => { l with gangs := l.gangs.map (fun g =>
    if !g.members.isEmpty && g.members.all (fun m => let k := s.core m.2; k.life == .free || k.ctx != ctx || k.launch != id)
    then { g with evicted := true } else g) })

/-- The core leaves: its save is kept, the row record is written with the launch's last core there, and it is zeroed and
freed. -/
def leaveCore (s : State) (c : CoreId) (v : Save) (page : Nat) : Option State :=
  let k := s.core c
  let last := c.cls == .compute && !(rowCores (rowOf c)).any (fun x => x != c && (s.core x).life != .free && (s.core x).lkey == k.lkey)
  let done (s : State) : State :=
    markEvicted (freeCores { s with saves := s.saves ++ [v] } [c] (fun _ => true)) k.ctx k.launch
  if last then
    (writeRowRecord s k.ctx (k.logical / 8) k.lkey v.sgen (rowOf c) page).map (fun s1 =>
      done { s1 with rowSaves := s1.rowSaves ++ [{ ctx := k.ctx, lrow := k.logical / 8, launch := k.launch,
                                                   row := claimedRow (s.row (rowOf c)) k.lkey, sgen := v.sgen, page := page }] })
  else some (done s)

/-- EVICTION_SAVE: once the core has drained and its saggars have left, its slot is written and it is freed. -/
def evictionSave (s : State) (c : CoreId) : State :=
  let k0 := s.core c
  if k0.life != .saving || !drained s c then s
  else
    let on := saggarsOn s c
    let s0 := (on.filter (fun i => (sagOf s i).st == 1)).foldl evictSag s
    if !(saggarsOn s0 c).isEmpty then s0
    else
      let jobs := s0.jobs.filter (fun j => j.core == c)
      let s1 := withdrawParked s0 c
      let k := writeBack (s1.core c)
      let vol := match findLaunch s1 k.ctx k.launch with | some l => volatileRanges l | none => []
      let sgen := ctxWord s1 k.ctx 0x58
      let page := s1.fresh
      let s2 := { s1 with fresh := s1.fresh + 2 }
      let slot := c.cls == .compute && k.pst != .checker
      let v : Save := { ctx := k.ctx, logical := coreNumber c k, core := if slot then { k with ls := [], acc := [] } else k
                        sgen := sgen, jobs := jobs, volatile := vol, page := page }
      match (if slot then writeSlot s2 k.ctx k.logical sgen k vol page jobs else some s2) with
      | none => loseContext s2 k.ctx c (slotAddr s2 k.ctx k.logical)
      | some s3 => (leaveCore s3 c v (page + 1)).getD (loseContext s3 k.ctx c (rowAddr s3 k.ctx (k.logical / 8)))

def execEvictionSave (s : State) : Host.Outcome State Fault Refusal := eventOp (fun s => evictionSave s s.ev.core) s

/-! ### Restoring (R369-R371) -/

/-- The slot of a save read back, where every tag agrees. -/
def readSlot (s : State) (v : Save) : Option Mem :=
  let a := slotAddr s v.ctx v.logical
  match svcGetRange v.ctx a 8 s 0 0x15100 with
  | none => none
  | some m =>
    let m1 := clearRanges m v.volatile
    if tagsAgree s v.ctx a v.sgen m1 21 0x15000 then some m1 else none

/-- The claims of a row record back on a row; rings that another launch claims keep their claim. -/
def mergeRow (s : State) (row : Nat) (v : RowSave) (m : Mem) : State :=
  s.modRow row (fun r =>
    let take : List (Nat × Nat) := claimedRanges v.row (v.ctx * 2 ^ 52 + v.launch)
    { r with
      rs := take.foldl (fun rs p => memCopy rs p.1 m p.1 (p.2 - p.1)) r.rs
      rings := (r.rings.zip v.row.rings).map (fun p => if p.2.claim.isSome && p.1.claim.isNone then p.2 else p.1)
      slip := if v.row.slipClaim.isSome && r.slipClaim.isNone then v.row.slip else r.slip
      slipLoaded := if v.row.slipClaim.isSome && r.slipClaim.isNone then v.row.slipLoaded else r.slipLoaded
      slipClaim := if v.row.slipClaim.isSome && r.slipClaim.isNone then v.row.slipClaim else r.slipClaim })

/-- The row record restored with the launch's first core on the row; none where its tags disagree. -/
def restoreRow (s : State) (c : CoreId) : Option State :=
  let k := s.core c
  match s.rowSaves.find? (fun v => v.ctx == k.ctx && v.lrow == k.logical / 8 && v.launch == k.launch) with
  | none => some s
  | some v =>
    let a := rowAddr s k.ctx v.lrow
    match svcGetRange k.ctx a 8 s 0 0x2F178 with
    | none => none
    | some m =>
      if tagsAgree s k.ctx a v.sgen m 47 0x2F000 then
        some (mergeRow { s with rowSaves := s.rowSaves.filter (fun x =>
          !(x.ctx == v.ctx && x.lrow == v.lrow && x.launch == v.launch)) } (rowOf c) v m)
      else none

/-- The core after its state is back. A pair couples again; its checker, of which no slot was saved, runs nothing before that
(R444). A request that came meanwhile stays. -/
def restoredCore (c : CoreId) (k : Core) (v : Save) (mem : Option Mem) : Core :=
  let o := v.core
  if o.pst = .checker then { k with life := .active, pst := .checker, partner := placeOf c - 1, retired := true } else
  let ls := match mem with | some m => memSlice m 0 0x12000 | none => o.ls
  let acc := match mem with | some m => memShiftDown (memSlice m 0x12000 0x14000) 0x12000 | none => o.acc
  { o with
    ls := ls, acc := acc, life := .active, ctx := k.ctx, launch := k.launch, logical := k.logical, gang := k.gang,
    sup := k.sup, tcfg := k.tcfg, tent := k.tent, sliceExp := k.sliceExp, tlb := k.tlb, lines := k.lines, preReq := k.preReq,
    pst := .single, partner := if o.pst = .primary then placeOf c + 1 else o.partner,
    pairReq := if o.pst = .primary then 3 else o.pairReq }

/-- Whether a core's couch has entries for jobs (R14). -/
def jobsFit (s : State) (c : CoreId) (js : List Job) : Bool := decide (couchUsed s (couchOf c) + js.length ≤ couchSize c)

/-- Jobs back in the couch's queue, in order, from their next chunks. -/
def requeueJobs (s : State) (c : CoreId) (js : List Job) : State :=
  { s with jobs := s.jobs ++ js.map (fun j =>
      { j with core := c, couch := couchOf c, phase := match j.phase with | .parked n => .running n | p => p }) }

/-- CORE_RESTORE: the saved state of a restoring core, with every tag checked first; a mismatch, or an uncorrectable error
(`ok` false), loses the context. It waits until the couch has entries for the parked jobs (R14); a request that waits is taken
by a core that is then idle. -/
def coreRestore (s : State) (c : CoreId) (ok : Bool) : State :=
  let k := s.core c
  if k.life != .restoring then s
  else if s.health.stopped then s
  else match s.saves.find? (fun v => v.ctx == k.ctx && v.core.launch == k.launch && v.core.cls == c.cls && v.logical == coreNumber c k) with
    | none => s
    | some v =>
      let slot := c.cls == .compute && v.core.pst != .checker
      let a := slotAddr s k.ctx k.logical
      let mem : Option Mem := if slot then readSlot s v else none
      if !ok || (slot && mem.isNone) then loseContext s k.ctx c a
      else if !jobsFit s c v.jobs then s
      else match restoreRow s c with
        | none => loseContext s k.ctx c (rowAddr s k.ctx (k.logical / 8))
        | some s1 =>
          let s2 := { s1 with saves := s1.saves.filter (fun x =>
            !(x.ctx == v.ctx && x.logical == v.logical && x.core.launch == v.core.launch && x.core.cls == v.core.cls)) }
          takeIfIdle (requeueJobs (s2.setCore c (restoredCore c k v mem)) c v.jobs) c

def execCoreRestore (s : State) : Host.Outcome State Fault Refusal := eventOp (fun s => coreRestore s s.ev.core s.ev.ok) s

/-- CONTEXT_DESC_WRITE (R360): word `j` of context `i` takes `w`. -/
def execContextDescWrite (s : State) : Host.Outcome State Fault Refusal :=
  eventOp (fun s => if s.ev.i < 64 ∧ s.ev.j < 128 ∧ s.ev.j % 8 = 0 then writeContext s s.ev.i s.ev.j (s.ev.w % 2 ^ 64) else s) s

end Sys2Proof.Machine
end

