-- ==== Sys2Proof/Machine/Health.lean ====
section
/-!
DEFINITION. Faults in arrays and datapaths (R436-R439, R445-R447): the owner of a word, corrected and uncorrectable words,
residue failures, the scrubber, and checked pairs (R442-R444).
-/
namespace Sys2Proof.Machine

/-! ### Owners of words (R445) -/

/-- The row's number among the faults of one row: a local store's words stand above the row store's. -/
def faultKey (c : Option CoreId) (a : Nat) : Nat := match c with | some c => 2 ^ 20 * (placeOf c + 1) + a | none => a

/-- The context that owns a byte of a core's local store: of the saggar part over it, else of the placement. -/
def localOwner (s : State) (c : CoreId) (a : Nat) : Option Nat :=
  match s.saggars.find? (fun e => e.2.occupies && partMeetsCore s e.2 c (a, a + 1)) with
  | some e => some e.2.ctx
  | none => if (s.core c).life == .free then none else some (s.core c).ctx

/-- The context that owns a byte of a row store: of the ring or row saggar over it, else of a placement on the row. -/
def rowOwner (s : State) (row a : Nat) : Option Nat :=
  let r := s.row row
  match r.rings.find? (fun g => g.claim.isSome && decide (g.base ≤ a) && decide (a < g.base + g.size * g.count)) with
  | some g => g.claim.map (· / 2 ^ 52)
  | none =>
    match s.saggars.find? (fun e => e.2.occupies && e.2.row && decide (e.2.base ≤ a) && decide (a < e.2.base + e.2.psize) &&
        (partPlaces s e.2).contains row) with
    | some e => some e.2.ctx
    | none => ((rowCores row).find? (fun c => (s.core c).life != .free)).map (fun c => (s.core c).ctx)

/-- Saggars with a part in a core's local store, or in a row store. -/
def sagInCore (s : State) (c : CoreId) (g : Saggar) : Bool := partMeetsCore s g c (0, 0x12000)
def sagInRow (s : State) (row : Nat) (g : Saggar) : Bool := g.row && (partPlaces s g).contains row

/-! ### Counts and retirement (R446, R447) -/

def modHealth (s : State) (f : Health → Health) : State := { s with health := f s.health }

/-- A count of 32 bits that saturates. -/
def rise32 (n : Nat) : Nat := min (n + 1) 0xFFFFFFFF

/-- A word found uncorrectable: UE rises, and the second time retires the row. -/
def noteUncorrectable (s : State) (row key : Nat) : State :=
  let again := s.health.words.contains (row, key)
  let s1 := modHealth s (fun h => { h with ue := rise32 h.ue, words := if again then h.words else h.words ++ [(row, key)] })
  if again then retireRow s1 row else s1

/-- A residue failure of the row's kiln or of a vector unit in it: the second within 1 s retires the row. -/
def noteResidue (s : State) (row : Nat) : State :=
  let again := s.health.residue.any (fun e => e.1 == row && decide (s.cycle < e.2 + 600000000))
  let s1 := modHealth s (fun h => { h with residue := h.residue.filter (fun e => e.1 != row) ++ [(row, s.cycle)] })
  if again then retireRow s1 row else s1

/-- A word with one bit in error (R437, R447): the counts rise; a recurrence in three consecutive passes retires the
row. -/
def noteCorrected (s : State) (c : Option CoreId) (row key : Nat) : State :=
  let up (n : Nat) : Nat := min (n + 1) 65535
  let s1 := modHealth s (fun h => { h with ce := rise32 h.ce })
  let s2 := match c with
    | some c => if (s.core c).life == .free then s1 else s1.modCore c (fun k => { k with eccL := up k.eccL })
    | none => (rowCores row).foldl (fun s c =>
        if (s.core c).life == .free then s else s.modCore c (fun k => { k with eccR := up k.eccR })) s1
  let n := ((s2.health.recur.find? (fun e => e.1 == (row, key))).map (·.2)).getD 0 + 1
  let s3 := modHealth s2 (fun h => { h with recur := h.recur.filter (fun e => e.1 != (row, key)) ++ [((row, key), n)] })
  if 3 ≤ n then retireRow s3 row else s3

/-- A pass over a word without an error ends its recurrence. -/
def noteClean (s : State) (row key : Nat) : State :=
  modHealth s (fun h => { h with recur := h.recur.filter (fun e => e.1 != (row, key)) })

/-- An uncorrectable word of a local store: its owner halts, or the word is rewritten with zero (R445). -/
def uncorrectableLocal (s : State) (c : CoreId) (a : Nat) : State :=
  let w := a / 8 * 8
  let s1 := match localOwner s c w with
    | some ctx => haltContext s ctx (if (s.core c).life != .free && (s.core c).ctx == ctx then some c else none)
        { cause := .hwfault, addr := w } (sagInCore s c)
    | none => s.modCore c (fun k => { k with ls := memClear k.ls w (w + 8) })
  if c.cls == .compute then noteUncorrectable s1 (rowOf c) (faultKey (some c) w)
  else modHealth s1 (fun h => { h with ue := rise32 h.ue })

/-- An uncorrectable word of a row store. -/
def uncorrectableRow (s : State) (row a : Nat) : State :=
  let w := a / 8 * 8
  let s1 := match rowOwner s row w with
    | some ctx => haltContext s ctx none { cause := .hwfault, addr := w } (sagInRow s row)
    | none => s.modRow row (fun r => { r with rs := memClear r.rs w (w + 8) })
  noteUncorrectable s1 row (faultKey none w)

/-- A word of a table of the system die, by its offset in the system window, rewritten with zero (R445). -/
def clearTableWord (s : State) (off : Nat) : State :=
  let cut (m : Mem) (base : Nat) : Mem := memClear m (off - base) (off - base + 8)
  if 0x8000000 ≤ off ∧ off < 0x8400000 then { s with seqs := cut s.seqs 0x8000000 }
  else if 0xA000000 ≤ off ∧ off < 0xA800000 then { s with mbx := cut s.mbx 0xA000000 }
  else if 0xAD00000 ≤ off ∧ off < 0xAD01000 then { s with serv := cut s.serv 0xAD00000 }
  else if 0xAE00000 ≤ off ∧ off < 0xAE02000 then { s with ctxs := cut s.ctxs 0xAE00000 }
  else s

/-- A corrected word of a control or gateway core's store (R447). -/
def noteSystemStore (s : State) (c : CoreId) : State :=
  let s1 := modHealth s (fun h => { h with ce := rise32 h.ce })
  if (s.core c).life == .free then s1 else s1.modCore c (fun k => { k with eccL := min (k.eccL + 1) 65535 })

/-- An uncorrectable entry of a table of the system die that a context owns, or of no context. -/
def uncorrectableTable (s : State) (ctx : Option Nat) (a : Nat) : State :=
  let s1 := modHealth s (fun h => { h with ue := rise32 h.ue })
  match ctx with
  | some x => haltContext s1 x none { cause := .hwfault, addr := a } (fun _ => false)
  | none => clearTableWord s1 a

/-! ### Entries with parity, and instruction caches (R436, R437) -/

/-- A TLB entry is invalidated, so that its lookup is a miss: entry n of the TLB that serves a core, or of domain d's. -/
def dropTlb (s : State) (c : CoreId) (domain : Option Nat) (n : Nat) : State :=
  match domain with
  | some d => { s with doms := setAt s.doms d (let x := nth s.doms d {}; { x with l2 := dropAt x.l2 n }) }
  | none =>
    if c.cls == .compute then s.modRow (rowOf c) (fun r => { r with tlb := dropAt r.tlb n })
    else s.modCore c (fun k => { k with tlb := dropAt k.tlb n })

/-- An uncorrectable entry of a core's channel table (`n` below 32) or tile table (32 + tile): the fault address is the core.
One that no context owns is rewritten with zero. -/
def uncorrectableEntry (s : State) (c : CoreId) (n : Nat) : State :=
  let s1 := modHealth s (fun h => { h with ue := rise32 h.ue })
  let k := s.core c
  if k.life == .free then
    s1.modCore c (fun k => if n < 32 then { k with chans := setAt k.chans n {} } else { k with tiles := setAt k.tiles (n - 32) {} })
  else haltContext s1 k.ctx (some c) { cause := .hwfault, addr := ownWindow c k } (fun _ => false)

/-- An uncorrectable hot line: the fault address is its home, and its context halts (R437, R445). -/
def uncorrectableHot (s : State) (n : Nat) : State :=
  match s.hot[n]? with
  | none => s
  | some x =>
    haltContext { modHealth s (fun h => { h with ue := rise32 h.ue }) with hot := dropAt s.hot n } x.ctx none
      { cause := .hwfault, addr := x.va } (fun _ => false)

/-- An uncorrectable word of line n of a row's instruction cache. -/
def uncorrectableCode (s : State) (row n w : Nat) : State :=
  match (s.row row).code[n]? with
  | none => s
  | some x =>
    haltContext ((modHealth s (fun h => { h with ue := rise32 h.ue })).modRow row (fun r => { r with code := dropAt r.code n }))
      x.ctx none { cause := .hwfault, addr := 256 * x.line + w % 256 } (fun _ => false)

/-! ### SCRUB (R436-R438)

`State.ev`: `i` the array, `k` the number of bits found in error. Array 0 is the local store of `core` and 1 the store of row
`j`, with the address `w`; 2 a table of the system die, with the offset `w` in the system window, owned by context `j` where
that is below 64; 3 the instruction cache of row `j`, line `w / 256`, byte `w % 256`. Of the entries with parity, 4 is entry
`w` of a TLB (of domain `j` where `ok` is false, else of that serving `core`), 5 inline-cache entry `w` of `core`, 6 entry `w`
of the channel and tile tables of `core`, and 7 hot line `w`. -/

def scrub (s : State) (e : Ev) : State :=
  let w := e.w / 8 * 8
  match e.i, e.k with
  | 0, 0 => noteClean s (rowOf e.core) (faultKey (some e.core) w)
  | 0, 1 =>
    if e.core.cls == .compute then noteCorrected s (some e.core) (rowOf e.core) (faultKey (some e.core) w)
    else noteSystemStore s e.core
  | 0, _ => uncorrectableLocal s e.core w
  | 1, 0 => noteClean s e.j (faultKey none w)
  | 1, 1 => noteCorrected s none e.j (faultKey none w)
  | 1, _ => uncorrectableRow s e.j w
  | _, 0 => s
  | 2, 1 => modHealth s (fun h => { h with ce := rise32 h.ce })
  | 2, _ => uncorrectableTable s (if e.j < 64 then some e.j else none) w
  | 3, 1 => modHealth s (fun h => { h with ce := rise32 h.ce })
  | 3, _ => uncorrectableCode s e.j (e.w / 256) w
  | 4, _ => dropTlb s e.core (if e.ok then none else some e.j) e.w
  | 5, _ => s.modCore e.core (fun k => { k with ic := aerase e.w k.ic })
  | 6, _ => uncorrectableEntry s e.core e.w
  | 7, _ => uncorrectableHot s e.w
  | _, _ => s

def execScrub (s : State) : Host.Outcome State Fault Refusal := eventOp (fun s => scrub s s.ev) s

/-! ### VECTOR_COMPLETION (R151, R152, R439)

The vector instruction of `ev.core` completes. `ev.k` 1 says that its residue check failed and the rerun passed, so that the
fault is masked; `ev.ok` false that both failed: the context halts with HWFAULT. Every failed check counts for R446 (log 92). -/

/-- A failed residue check of a vector unit counts against its row. -/
def noteVector (s : State) (c : CoreId) : State := if c.cls == .compute then noteResidue s (rowOf c) else s

def vectorCompletion (s : State) (c : CoreId) (ok masked : Bool) : State :=
  let k := s.core c
  if !k.vpend then s
  else if ok then
    let s1 := s.setCore c { k with vpend := false }
    if masked then noteVector s1 c else s1
  else noteVector (noteVector (haltContext s k.ctx (some c) { cause := .hwfault } (fun _ => false)) c) c

def execVectorCompletion (s : State) : Host.Outcome State Fault Refusal :=
  eventOp (fun s => vectorCompletion s s.ev.core s.ev.ok (s.ev.k == 1)) s

/-! ### Pairs (R442-R444)

The checker runs as its primary does and is implicit: `ev` injects what the comparison finds. -/

/-- The record that the primary of a pair writes. -/
def pairRecord (s : State) (c : CoreId) (sub addr : Nat) : List Nat :=
  let k := s.core c
  let p := pendingInstr s c
  faultRecord s c { cause := .pair, sub := sub, addr := addr } { idle := k.run == .idle } p.1 p.2.1 (recordSeq s k.ctx)

/-- An access that its core has issued and that still waits at the shared port (R442): no word of it has performed. -/
def Acc.atPort (a : Acc) : Bool :=
  a.phase == .going && a.todo == accWords (match a.kind with | .store bs => bs.length | .load n _ _ _ => n | .amo _ _ _ _ _ => 8)

/-- The packet of access i of the fabric does not leave: the core is done with it. -/
def stopAcc (s : State) (c : CoreId) (i : Nat) : State :=
  match s.fab[i]? with
  | some a => if a.src == c && a.atPort then ({ s with fab := dropAt s.fab i }).modCore c (fun k => k.settled a) else s
  | none => s

/-- The packet of item i of the network does not leave. -/
def stopMsg (s : State) (c : CoreId) (i : Nat) : State :=
  match s.net[i]? with
  | some m =>
    if m.src == some c && m.inMesh && m.refusals == 0 then
      let s1 := dropNet s i
      if m.kind == .enq false then s1 else lowerCtm s1 m
    else s
  | none => s

/-- The packets that still wait at the port of a pair do not leave: 2 i for access i, 2 i + 1 for item i of the network, the
highest first. -/
def stopPackets (s : State) (c : CoreId) (ps : List Nat) : State :=
  (sortBy (fun p => 2 ^ 64 - p) ps).foldl (fun s p => if p % 2 = 0 then stopAcc s c (p / 2) else stopMsg s c (p / 2)) s

/-- The address of the primary's differing event: of its packet, or as given for a store, a firing end or a lag. -/
def pairAddr (s : State) (ps : List Nat) (addr : Nat) : Nat :=
  match ps with
  | [] => addr
  | p :: _ => if p % 2 = 0 then ((s.fab[p / 2]?).map (·.va)).getD addr else ((s.net[p / 2]?).map (·.dest)).getD addr

/-- PAIR_LAG: a difference or a lag of the pair whose primary is `core` (Table 25-2). `i` is 1 where the first difference is a
retired local store; `nats` names the packets that wait at the port, the differing one first; `w` is the address of any other
differing event. -/
def pairFault (s : State) (c : CoreId) (store : Bool) (ps : List Nat) (addr : Nat) : State :=
  let k := s.core c
  if k.pst != .primary then s
  else
    let k1 := { k with mism := min 255 (k.mism + 1) }
    if store then haltContext s k.ctx (some c) { cause := .pair, sub := 1, addr := addr } (sagInCore s c)
    else if 3 ≤ k.pairRuns then
      haltContext (retireRow s (rowOf c)) k.ctx (some c) { cause := .pair, sub := 3, addr := addr } (sagInCore s c)
    else
      let s1 := queueRecord s k.ctx (pairRecord s c 0 (pairAddr s ps addr))
      closeFiring (stopPackets (s1.setCore c { k1 with pairRuns := k.pairRuns + 1 }) c ps) c .abort

def execPairLag (s : State) : Host.Outcome State Fault Refusal :=
  eventOp (fun s => pairFault s s.ev.core (s.ev.i == 1) s.ev.nats s.ev.w) s

/-- The partner of a core that couples. -/
def partnerOf (s : State) (c : CoreId) : CoreId := coreAt (rowOf c) (s.core c).partner

/-- The partner is placed and has nothing under way (R444, step 1). -/
def partnerIdle (s : State) (p : CoreId) : Bool :=
  let k := s.core p
  k.life == .active && k.run == .idle && !k.inHandler && k.chans.all (fun e => e.words == 0) && releaseReady k &&
    k.ctm == 0 && k.kout == 0 && !jobsLeft s p true

/-- COUPLING_COPY: once the partner is idle, the copy begins (both cores then answer with retries), and its end makes the
pair (R444, steps 1-3). Requests that came during the copy are taken at its end. -/
def couplingCopy (s : State) (c : CoreId) : State :=
  let k := s.core c
  let p := partnerOf s c
  if k.pairReq ≠ 3 ∨ k.run ≠ .idle ∨ k.life ≠ .active then s
  else if k.pst != .coupling then
    if partnerIdle s p && (s.core p).lkey == k.lkey then
      (s.setCore c { k with pst := .coupling, sleeping := true }).modCore p (fun q => { q with pst := .coupling, sleeping := true })
    else s
  else
    let q := s.core p
    let q1 := { q with
      ls := k.ls, sh := k.sh, tiles := k.tiles, chans := k.chans, hdrs := k.hdrs, ttb := k.ttb, att := k.att, wp := k.wp
      flags := k.flags, mask := k.mask, gbarc := k.gbarc, kgc := k.kgc, midc := k.midc, jobc := k.jobc, acc := []
      pst := .checker, partner := placeOf c, sleeping := false, mism := 0, life := .active }
    let s1 := (s.setCore p q1).setCore c { k with pst := .primary, pairReq := 0, sleeping := false, mism := 0, pairRuns := 0 }
    takeIfIdle (takeIfIdle s1 c) p

def execCouplingCopy (s : State) : Host.Outcome State Fault Refusal := eventOp (fun s => couplingCopy s s.ev.core) s

/-- COUPLING_ABANDON (R444): step 1 has not ended in time. -/
def execCouplingAbandon (s : State) : Host.Outcome State Fault Refusal := eventOp (fun s => abandonCoupling s s.ev.core) s

end Sys2Proof.Machine
end

