-- ==== Sys2Proof/Machine/Scalar.lean ====
section
/-!
DEFINITION. Scalar, immediate and local-memory instructions as functions on one core (05_scalar, R104-R124): each
answers the core after the instruction's own effect, or why it stops. The program counter and the budget are the
caller's.
-/
namespace Sys2Proof.Machine

/-- The two-source operations of Table 5-2 on n-bit patterns; `sg` says that the type is signed. -/
inductive Op2 where
  | add | sub | mul | mulh | and | or | xor | andn | min | max | shl | shr | sar | rot
deriving DecidableEq, Repr

/-- The value of an n-bit pattern under its type. -/
def valOf (sg : Bool) (n x : Nat) : Int := if sg then toSigned n x else (x % 2 ^ n : Nat)

/-- The result pattern of a two-source operation (R104, R106). -/
def op2 (o : Op2) (sg : Bool) (n a b : Nat) : Nat :=
  match o with
  | .add => (a + b) % 2 ^ n
  | .sub => (a + (2 ^ n - b % 2 ^ n)) % 2 ^ n
  | .mul => a * b % 2 ^ n
  | .mulh => toPattern n (valOf sg n a * valOf sg n b / (2 ^ n : Nat))
  | .and => natAnd a b
  | .or => natOr a b
  | .xor => natXor a b
  | .andn => natAnd a (natNot n b)
  | .min => if valOf sg n b < valOf sg n a then b else a
  | .max => if valOf sg n a < valOf sg n b then b else a
  | .shl => if n ≤ b then 0 else a * 2 ^ b % 2 ^ n
  | .shr => if n ≤ b then 0 else a / 2 ^ b
  | .sar => toPattern n (toSigned n a / ((2 ^ min b n : Nat) : Int))
  | .rot => let k := b % n; (a * 2 ^ k % 2 ^ n + a / 2 ^ (n - k)) % 2 ^ n

/-- A two-source operation: A, B, then D (R83, R104). -/
def scalar2 (o : Op2) (t : IType) (d a b : Spec) (c : Core) : Except Stop Core := do
  let f := ifmt t
  let (x, c1) ← readSrc c f a
  let (y, c2) ← readSrc c1 f b
  writeDst c2 f d (op2 o (fmtSigned f) (fmtBits f) x y)

/-- The bytes of a scalar result, which `mul` and `mulh` give 3 cycles after their issue (R103, Table 5-1). -/
def lateResult (f : Fmt) : Loc → Nat × Nat × Nat
  | .word a => (a, 8, 3)
  | .at a => (a, fmtBytes f, 3)
  | .slots l => (nth l 0 0, fmtBytes f, 3)

/-- `mul` and `mulh`: an instruction that reads the result waits for it (R103, R104). -/
def scalarMul (o : Op2) (t : IType) (d a b : Spec) (c : Core) : Except Stop Core := do
  let f := ifmt t
  let (x, c1) ← readSrc c f a
  let (y, c2) ← readSrc c1 f b
  let (l, c3) ← scalarLoc c2 d (fmtBytes f)
  let k ← storeLoc c3 f (op2 o (fmtSigned f) (fmtBits f) x y) l
  .ok { k with late := lateResult f l :: k.late }

/-- Quotient and remainder of R105 as patterns, and whether DZ is raised. -/
def divRem (sg : Bool) (n a b : Nat) : Nat × Nat × Bool :=
  let x := valOf sg n a
  let y := valOf sg n b
  if y = 0 then (2 ^ n - 1, a, true)
  else (toPattern n (Int.tdiv x y), toPattern n (Int.tmod x y), false)

/-- `div` and `rem` (R105); an enabled DZ raises ARITH in place of the write. No rule orders that trap and the checks of
D; the model raises ARITH first, here and in `abs` and `ldt` (log 90, DESIGN CHOICE). -/
def scalarDiv (isRem : Bool) (t : IType) (d a b : Spec) (c : Core) : Except Stop Core := do
  let f := ifmt t
  let (x, c1) ← readSrc c f a
  let (y, c2) ← readSrc c1 f b
  let (q, r, dz) := divRem (fmtSigned f) (fmtBits f) x y
  let c3 ← raiseFlags c2 (if dz then flDZ else 0)
  writeDst c3 f d (if isRem then r else q)

/-- The one-source operations of Table 5-3. -/
inductive Op1 where
  | abs | neg | clz | ctz | popc | mov
deriving DecidableEq, Repr

/-- Result pattern and flags of a one-source operation (R107). -/
def op1 (o : Op1) (sg : Bool) (n a : Nat) : Nat × Nat :=
  match o with
  | .abs =>
    if sg && a == 2 ^ (n - 1) then (2 ^ (n - 1) - 1, flSAT)
    else (toPattern n (valOf sg n a).natAbs, 0)
  | .neg => ((2 ^ n - a % 2 ^ n) % 2 ^ n, 0)
  | .clz => (leadingZeros n a, 0)
  | .ctz => (trailingZeros n a, 0)
  | .popc => (popCount n a, 0)
  | .mov => (a, 0)

def scalar1 (o : Op1) (t : IType) (d a : Spec) (c : Core) : Except Stop Core := do
  let f := ifmt t
  let (x, c1) ← readSrc c f a
  let (v, fl) := op1 o (fmtSigned f) (fmtBits f) x
  let c2 ← raiseFlags c1 fl
  writeDst c2 f d v

/-- `sel` (R113): both sources are read. -/
def scalarSel (t : IType) (d a b : Spec) (c : Core) : Except Stop Core := do
  let f := ifmt t
  let (x, c1) ← readSrc c f a
  let (y, c2) ← readSrc c1 f b
  writeDst c2 f d (if selBit c.flags then x else y)

/-- Position and clipped length of a field descriptor (R108). -/
def fieldDesc (n b : Nat) : Nat × Nat :=
  let p := field b 5 0
  let l := field b 12 6
  (p, if p < n then min l (n - p) else 0)

/-- `bext` (R108). -/
def scalarBext (t : IType) (d a b : Spec) (c : Core) : Except Stop Core := do
  let f := ifmt t
  let n := fmtBits f
  let (x, c1) ← readSrc c f a
  let (y, c2) ← readSrc c1 .z64 b
  let (p, l) := fieldDesc n y
  let v := x / 2 ^ p % 2 ^ l
  writeDst c2 f d (if l = 0 then 0 else if fmtSigned f then signExt l n v else v)

/-- `bins` (R108): one address for its read and its write, one post-increment. -/
def scalarBins (t : IType) (d a b : Spec) (c : Core) : Except Stop Core := do
  let f := ifmt t
  let n := fmtBits f
  let (x, c1) ← readSrc c f a
  let (y, c2) ← readSrc c1 .z64 b
  let (l, c3) ← scalarLoc c2 d (fmtBytes f)
  let old ← loadLoc c3 f l
  let (p, len) := fieldDesc n y
  let mask := (2 ^ len - 1) * 2 ^ p % 2 ^ n
  storeLoc c3 f (natOr (natAnd old (natNot n mask)) (natAnd (x * 2 ^ p) mask)) l

/-- The local address that the A operand of `lea` names; no access is made (R115). -/
def leaAddr (c : Core) (a : Spec) : Except Stop Nat :=
  match a with
  | .w n => .ok (c.wp + 8 * n.val)
  | .ptr p post => if post then trapS .undef 0x02 else .ok (field (aWord c p.val) 16 0)
  | .hnd h p =>
    let x := hWord c h.val
    let size := field x 27 14
    if size = 0 then trapS .undef 0x04
    else .ok (8 * (field x 13 0 + (field x 41 28 + (if p then field x 55 42 else 0)) % size))
  | _ => trapS .undef 0x02

/-- `lea` (R115). -/
def scalarLea (d a b : Spec) (c : Core) : Except Stop Core := do
  let x ← leaAddr c a
  let (y, c1) ← readSrc c .z64 b
  writeDst c1 .z64 d ((x + y) % 2 ^ 64)

/-- `pset` (R116). -/
def scalarPset (p : Fin 8) (a b : Spec) (c : Core) : Except Stop Core := do
  let (x, c1) ← readZ c a
  let (y, c2) ← readZ c1 b
  .ok (setAWord c2 p.val (x % 2 ^ 17 + 2 ^ 18 * (y % 4) + 2 ^ 20 * (y / 4 % 2)))

/-- `mset` (R117). -/
def scalarMset (m : Fin 4) (a b : Spec) (c : Core) : Except Stop Core := do
  let (x, c1) ← readZ c a
  let (y, c2) ← readZ c1 b
  .ok (setMWord c2 m.val (x % 2 ^ 17 + 2 ^ 32 * (y % 2 ^ 17)))

/-- `hbind` (R118); rebinding the h3 that is bound to the channel FIFO ends that binding. R118 does not speak of an h3 of
another workspace; its `hbind` leaves the binding (log 88, DESIGN CHOICE). -/
def scalarHbind (h : Fin 4) (a b : Spec) (c : Core) : Except Stop Core := do
  let (x, c1) ← readS c a
  let (n, c2) ← readZ c1 b
  needS (x % 8 == 0) .align 0 (toPattern 64 x)
  let unfifo (k : Core) : Core := if fifoHandle k h.val then { k with h3fifo := false } else k
  if n = 0 then .ok (unfifo (setHWord c2 h.val 0))
  else do
    needS (0 ≤ x && x + 8 * n ≤ c.top && n ≤ 16383) .fabric 0 (toPattern 64 x)
    .ok (unfifo (setHWord c2 h.val (x.toNat / 8 + n * 2 ^ 14)))

/-- `hadv.c` and `hadv.p` (R119, R191). R119 gives the ALIGN trap of k above SIZE no address; the record holds k (log 88,
DESIGN CHOICE). -/
def scalarHadv (prod : Bool) (h : Fin 4) (a : Spec) (c : Core) : Except Stop Core := do
  let (k, c1) ← readZ c a
  let x := hWord c1 h.val
  let size := field x 27 14
  let cons := field x 41 28
  let fill := field x 55 42
  needS (size != 0) .undef 0x04
  needS (k ≤ size) .align 0 k
  if k = 0 then .ok c1
  else if prod then do
    untilS (k ≤ size - fill)
    .ok (setHWord c1 h.val (x + k * 2 ^ 42))
  else do
    untilS (k ≤ fill)
    let next :=
      if fifoHandle c1 h.val then
        (fslotFrom size (nth c1.chans c1.channel {}).skip (k - 1) cons + 1) % size
      else (cons + k) % size
    .ok (setHWord c1 h.val (field x 27 0 + next * 2 ^ 28 + (fill - k) * 2 ^ 42))

/-- `hstat` (R120). -/
def scalarHstat (d : Spec) (h : Fin 4) (c : Core) : Except Stop Core :=
  let x := hWord c h.val
  let size := field x 27 14
  let fill := field x 55 42
  writeDst c .z64 d (if size = 0 then 0 else fill + 2 ^ 16 * (size - fill) + 2 ^ 32 * field x 41 28)

/-- `cmp.cc` (R111). -/
def scalarCmp (cc : Cond) (t : IType) (d a b : Spec) (c : Core) : Except Stop Core := do
  let f := ifmt t
  let n := fmtBits f
  let (x, c1) ← readSrc c f a
  let (y, c2) ← readSrc c1 f b
  let fl := cmpWord cc n x y
  writeDst (writeFlags c2 fl) f d (bnat (selBit fl))

/-- The computed address of `ld`, `st`, `ldt`, `stt`, `vld`, `vst` (R122): x := A + B, in range, then checked. -/
def computedAddr (c : Core) (a b : Spec) (size : Nat) : Except Stop (Nat × Core) := do
  let (x, c1) ← readS c a
  let (y, c2) ← readS c1 b
  let z := x + y
  needS (0 ≤ z && z ≤ 0x1FFFF) .fabric 0 (toPattern 64 z)
  checkLocal c z.toNat size (min size 8)
  .ok (z.toNat, c2)

/-- `ld` (R122). -/
def scalarLd (t : IType) (d a b : Spec) (c : Core) : Except Stop Core := do
  let f := ifmt t
  let (x, c1) ← computedAddr c a b (fmtBytes f)
  let v ← loadAt c1 x (fmtBytes f)
  writeDst c1 f d v

/-- `st` (R122): D is a source, read last. No rule orders the checks of the computed address and those of D; the address
comes first, in `stt` and `vst` too (log 90, DESIGN CHOICE). -/
def scalarSt (t : IType) (d a b : Spec) (c : Core) : Except Stop Core := do
  let f := ifmt t
  let (x, c1) ← computedAddr c a b (fmtBytes f)
  let (v, c2) ← readSrc c1 f d
  storeAt c2 x (toBytes (fmtBytes f) v)

/-- `ldt` (R123). -/
def scalarLdt (t : IType) (f : Fmt) (rm : RMode) (d a b : Spec) (c : Core) : Except Stop Core := do
  let (x, c1) ← computedAddr c a b (fmtBytes f)
  let v ← loadAt c1 x (fmtBytes f)
  let r := cvtFrom f (ifmt t) false rm (coreDraw c1 (drawIndex c1)) v
  let c2 ← raiseFlags c1 r.flags
  let c3 := if r.drew then setDrawIndex c2 (drawIndex c2 + 1) else c2
  writeDst c3 (ifmt t) d r.code

/-- `stt` (R123). -/
def scalarStt (t : IType) (f : Fmt) (rm : RMode) (d a b : Spec) (c : Core) : Except Stop Core := do
  let (x, c1) ← computedAddr c a b (fmtBytes f)
  let (v, c2) ← readSrc c1 (ifmt t) d
  let r := cvtFrom (ifmt t) f (e5o c2) rm (coreDraw c2 (drawIndex c2)) v
  let c3 ← raiseFlags c2 r.flags
  let c4 := if r.drew then setDrawIndex c3 (drawIndex c3 + 1) else c3
  storeAt c4 x (toBytes (fmtBytes f) r.code)

/-- `movi` and `li` (R114): a signed immediate, or for `li` in a z type an unsigned one, modulo 2^n. -/
def scalarImm (t : IType) (d : Spec) (v : Int) (c : Core) : Except Stop Core :=
  writeDst c (ifmt t) d (toPattern (fmtBits (ifmt t)) v)

/-- The value of the extension word of `li`. -/
def liValue (t : IType) (e : BitVec 32) : Int := if fmtSigned (ifmt t) then e.toInt else (e.toNat : Int)

/-- `addi` (R114): D is read and written at one address. -/
def scalarAddi (t : IType) (d : Spec) (i : BitVec 14) (c : Core) : Except Stop Core := do
  let f := ifmt t
  let (l, c1) ← scalarLoc c d (fmtBytes f)
  let v ← loadLoc c1 f l
  storeLoc c1 f (toPattern (fmtBits f) ((v : Int) + i.toInt)) l

end Sys2Proof.Machine
end

