-- ==== Sys2Proof/Machine/FabricEvents.lean ====
section
/-!
DEFINITION. The events of fabric accesses and atomics (R232-R243, R259): an access performs at its home, a home that is
away answers with a retry, acknowledgements and replies reach the core. `State.ev.i` names the access in `State.fab`.
-/
namespace Sys2Proof.Machine

/-! ### Order at a home (R232, R253) -/

/-- Access i of the fabric, where no earlier access of its core to its home has still to perform. -/
def fabItem (s : State) (i : Nat) : Option Acc :=
  match s.fab[i]? with
  | none => none
  | some a =>
    if (s.fab.take i).any (fun b => b.src == a.src && !b.performed && homeUnit s b.va b.home == homeUnit s a.va a.home)
    then none else some a

def setFab (s : State) (i : Nat) (a : Acc) : State := { s with fab := setAt s.fab i a }
def dropFab (s : State) (i : Nat) : State := { s with fab := dropAt s.fab i }

/-- The issuing core still holds the placement under which it issued (R269). -/
def accLives (s : State) (a : Acc) : Bool := (s.core a.src).life != .free && (s.core a.src).ctx == a.ctx && (s.core a.src).launch == a.launch

/-- The home of the w-th word of an access. -/
def Home.word (h : Home) (w : Nat) : Home :=
  match h with
  | .core c a => .core c (a + 8 * w)
  | .row r a => .row r (a + 8 * w)
  | .sys off => .sys (off + 8 * w)
  | .bulk t pa => .bulk t (pa + 8 * w)
  | .away n => .away n

/-- The bytes of the w-th word of an access. -/
def wordOf (bs : List Byte) (w : Nat) : List Byte := (bs.drop (8 * w)).take 8

/-- The words of an access that perform together: those that the event names, or all that remain (R232: each aligned
8-byte word by itself, in any order). -/
def Acc.picked (a : Acc) (ws : List Nat) : List Nat := if ws.isEmpty then a.todo else a.todo.filter ws.contains

/-- An access in flight to an expander whose link has gone down fails with BULK 0x04 at the core's next boundary (Table 28-2;
log 18). -/
def failAccess (s : State) (i : Nat) (a : Acc) : State :=
  let s1 := dropFab s i
  if accLives s a then
    pushTrap (s1.modCore a.src (fun k => k.settled a)) a.src { cause := .bulk, sub := 4, addr := a.va, async := true }
  else s1

/-- The streamer of a home no longer serves it. -/
def homeDown (s : State) (h : Home) : Bool := match h with | .bulk t pa => !streamerReady s t pa | _ => false

/-! ### Stores -/

/-- FABRIC_STORE_PERFORM: the home writes words of the store, or answers with a retry (R232, R236). -/
def storePerform (s : State) (i : Nat) (ws : List Nat) : State :=
  match fabItem s i with
  | none => s
  | some a =>
    match a.kind, a.phase with
    | .store bs, .going =>
      match homeNow s a.ctx a.va a.home with
      | none => setFab s i { a with phase := .refused }
      | some h =>
        if homeDown s h then failAccess s i a
        else
          let now := a.picked ws
          let left := a.todo.filter (fun w => !now.contains w)
          -- the core's own lines stay: the write updated them at issue (R375, R403)
          let s1 := (now.foldl (fun s w => writeHome s a.ctx (h.word w) (wordOf bs w)) s).modCore a.src (fun k =>
            if a.src.cls == .control then { k with lines := (s.core a.src).lines } else k)
          setFab s1 i { a with phase := if left.isEmpty then .done [] else .going, home := h, todo := left }
    | _, _ => s

def execFabricStorePerform (s : State) : Host.Outcome State Fault Refusal :=
  eventOp (fun s => storePerform s s.ev.i s.ev.nats) s

/-- STORE_ACK: the acknowledgement of a performed store lowers its count (R229). -/
def storeAck (s : State) (i : Nat) : State :=
  match s.fab[i]? with
  | none => s
  | some a =>
    match a.kind, a.phase with
    | .store _, .done _ =>
      let s1 := dropFab s i
      if accLives s a then
        s1.modCore a.src (fun k => k.settled a)
      else s1
    | _, _ => s

def execStoreAck (s : State) : Host.Outcome State Fault Refusal := eventOp (fun s => storeAck s s.ev.i) s

/-! ### Loads -/

/-- Bytes put at an offset of a list. -/
def putBytes (l : List Byte) (off : Nat) (bs : List Byte) : List Byte := l.take off ++ bs ++ l.drop (off + bs.length)

/-- A word of a load read at the home. -/
def readWord (ctx n : Nat) (h : Home) (r : State × List Byte) (w : Nat) : State × List Byte :=
  let x := readHome r.1 ctx (h.word w) (min n 8)
  (x.2, putBytes r.2 (8 * w) x.1)

/-- FABRIC_LOAD_PERFORM: the home reads words of the load, or answers with a retry. -/
def loadPerform (s : State) (i : Nat) (ws : List Nat) : State :=
  match fabItem s i with
  | none => s
  | some a =>
    match a.kind, a.phase with
    | .load n _ _ _, .going =>
      match homeNow s a.ctx a.va a.home with
      | none => setFab s i { a with phase := .refused }
      | some h =>
        let now := a.picked ws
        let left := a.todo.filter (fun w => !now.contains w)
        let r := now.foldl (readWord a.ctx n h) (s, a.got)
        setFab r.1 i { a with phase := if left.isEmpty then .done r.2 else .going, home := h, todo := left, got := r.2 }
    | _, _ => s

def execFabricLoadPerform (s : State) : Host.Outcome State Fault Refusal :=
  eventOp (fun s => loadPerform s s.ev.i s.ev.nats) s

/-- A returned value put in its place: a word extended by R74, or 64 bytes. -/
def putReturned (k : Core) (dst n : Nat) (signed w8 : Bool) (bs : List Byte) : Core :=
  if w8 then putLocal k dst (toBytes 8 (if signed then signExt (8 * n) 64 (ofBytes bs) else ofBytes bs))
  else putLocal k dst bs

/-- FLD_RETURN: the value reaches the destination; LDO falls, or the core's stall ends (R235). -/
def loadReturn (s : State) (i : Nat) : State :=
  match s.fab[i]? with
  | none => s
  | some a =>
    match a.kind, a.phase with
    | .load n dst signed w8, .done bs =>
      let s1 := dropFab s i
      if accLives s a then
        s1.modCore a.src (fun k => (putReturned k dst n signed w8 bs).settled a)
      else s1
    | _, _ => s

def execFldReturn (s : State) : Host.Outcome State Fault Refusal := eventOp (fun s => loadReturn s s.ev.i) s

/-! ### Retries (R236) -/

/-- FABRIC_RETRY_REPLY: the retry reply reaches the sender, which keeps the access. -/
def retryReply (s : State) (i : Nat) : State :=
  match s.fab[i]? with
  | some a => if a.phase == .refused then setFab s i { a with phase := .waiting } else s
  | none => s

def execFabricRetryReply (s : State) : Host.Outcome State Fault Refusal := eventOp (fun s => retryReply s s.ev.i) s

/-- FABRIC_RETRY: the access is sent again. -/
def retryAccess (s : State) (i : Nat) : State :=
  match s.fab[i]? with
  | some a => if a.phase == .waiting then setFab s i { a with phase := .going } else s
  | none => s

def execFabricRetry (s : State) : Host.Outcome State Fault Refusal := eventOp (fun s => retryAccess s s.ev.i) s

/-! ### Atomics (R239-R243, R259) -/

/-- The new value of an atomic on n-bit patterns; none where a compare fails and nothing is written (R242). -/
def amoNew (op : AmoOp) (t : IType) (old data data2 : Nat) : Option Nat :=
  let n := fmtBits (ifmt t)
  let sg := fmtSigned (ifmt t)
  match op with
  | .add => some ((old + data) % 2 ^ n)
  | .min => some (op2 .min sg n old data)
  | .max => some (op2 .max sg n old data)
  | .and => some (natAnd old data)
  | .or => some (natOr old data)
  | .xor => some (natXor old data)
  | .swp => some data
  | .cas => if old = data then some data2 else none

/-- The atomic unit of a home (R239): a row's engine, or 2,048 + a streamer's. -/
def atomicUnit (s : State) : Home → Nat
  | .core c _ => rowOf c
  | .row r _ => r
  | .bulk t pa => 2048 + 4 * streamerOf s t pa + t
  | _ => 0

/-- The line of a home. -/
def homeLine : Home → Home
  | .core c a => .core c (a / 64 * 64)
  | .row r a => .row r (a / 64 * 64)
  | .bulk t pa => .bulk t (pa / 64 * 64)
  | h => h

/-- A core of the unit's own row. -/
def ownRow (u : Nat) (c : CoreId) : Bool := c.cls == .compute && rowOf c == u

/-- The place of the unit's core served last on a line (R241); 7 on a line with no service, so that place 0 comes first
(log 88, DESIGN CHOICE). -/
def lineLast (s : State) (u : Nat) (l : Home) : Nat :=
  match s.hot.find? (fun x => x.unit == u && x.line == l) with
  | some x => x.k
  | none => 7

/-- Requests of the unit's own cores that wait for a line: two cycles after their issue they have reached the unit
(R240), unless an earlier access of their core to the home holds them back. -/
def ownWaiting (s : State) (u : Nat) (l : Home) : List CoreId :=
  (List.range s.fab.length).filterMap (fun j => match fabItem s j with
    | some b => match b.kind, b.phase with
      | .amo _ _ _ _ _, .going =>
        if ownRow u b.src && homeLine b.home == l && b.since + 2 ≤ s.cycle then some b.src else none
      | _, _ => none
    | none => none)

/-- The unit may serve an access in this cycle: at most four operations, at most one on a line, and the home row's own
cores in rotation before arrivals over the mesh (R241, R259). The order of arrival is the agenda's (log 1). -/
def mayServe (s : State) (a : Acc) (h : Home) : Bool :=
  let u := atomicUnit s h
  let l := homeLine h
  let served := s.hot.filter (fun x => x.unit == u && x.last == s.cycle + 1)
  let turn (c : CoreId) : Nat := (placeOf c + 7 - lineLast s u l) % 8
  decide (served.length < 4) && !served.any (fun x => x.line == l) &&
    (if ownRow u a.src then (ownWaiting s u l).all (fun c => turn a.src ≤ turn c) else (ownWaiting s u l).isEmpty)

/-- The line served becomes the most recently used of its unit's 64 (R240). The model serves an operation in one step, so
that no line has one in progress when it is replaced. -/
def touchHot (s : State) (a : Acc) (h : Home) : State :=
  let u := atomicUnit s h
  let l := homeLine h
  let x : HotLine :=
    { unit := u, line := l, last := s.cycle + 1, k := if ownRow u a.src then placeOf a.src else lineLast s u l
      ctx := a.ctx, va := a.va / 64 * 64 }
  let mine := (s.hot.filter (fun y => y.unit == u && y.line != l)).take 63
  { s with hot := x :: (mine ++ s.hot.filter (fun y => y.unit != u)) }

/-- A residue or SRAM fault in the atomic unit after issue (R248): the context of the operation halts with HWFAULT
(R445). -/
def atomicFault (s : State) (a : Acc) : State :=
  haltContext s a.ctx (if accLives s a then some a.src else none) { cause := .hwfault, addr := a.va } (fun _ => false)

/-- ATOMIC_PERFORM: read and write at the atomic unit of the home, with nothing between; `ok` false is a fault of the
unit. -/
def atomicPerform (s : State) (i : Nat) (ok : Bool) : State :=
  match fabItem s i with
  | none => s
  | some a =>
    match a.kind, a.phase with
    | .amo op t data data2 _, .going =>
      match homeNow s a.ctx a.va a.home with
      | none => setFab s i { a with phase := .refused }
      | some h =>
        if !mayServe s a h then s
        else if !ok then atomicFault s a
        else if homeDown s h then failAccess s i a
        else
          let n := fmtBytes (ifmt t)
          let r := readHome (touchHot s a h) a.ctx h n
          let s1 := match amoNew op t (ofBytes r.1) data data2 with
            | some v => writeHome r.2 a.ctx h (toBytes n v)
            | none => r.2
          setFab s1 i { a with phase := .done r.1, home := h }
    | _, _ => s

def execAtomicPerform (s : State) : Host.Outcome State Fault Refusal :=
  eventOp (fun s => atomicPerform s s.ev.i s.ev.ok) s

/-- ATOMIC_REPLY: the old value reaches the data word; ATM falls (R242, R243). -/
def atomicReply (s : State) (i : Nat) : State :=
  match s.fab[i]? with
  | none => s
  | some a =>
    match a.kind, a.phase with
    | .amo _ t _ _ dst, .done bs =>
      let s1 := dropFab s i
      if accLives s a then
        s1.modCore a.src (fun k => (putReturned k dst (fmtBytes (ifmt t)) (fmtSigned (ifmt t)) true bs).settled a)
      else s1
    | _, _ => s

def execAtomicReply (s : State) : Host.Outcome State Fault Refusal := eventOp (fun s => atomicReply s s.ev.i) s

end Sys2Proof.Machine
end

