-- ==== Sys2Proof/Machine/ControlOps.lean ====
section
/-!
DEFINITION. The control core's line cache (R375), its bulk reads and posted bulk writes, the instructions `bld`, `bst`,
`icw`, `ici` and `icr` (R401-R405), and the arrival of a line (R402).
-/
namespace Sys2Proof.Machine

/-! ### Lines (R375) -/

/-- A line filled, or used again: 10 ways in each of 1,024 sets, the least recently used replaced. -/
def touchLine (l : List (Nat × Nat)) (e : Nat × Nat) : List (Nat × Nat) :=
  let others := l.filter (fun x => x != e)
  e :: ((others.filter (fun x => x.2 % 1024 == e.2 % 1024)).take 9 ++ others.filter (fun x => x.2 % 1024 != e.2 % 1024))

/-- An earlier access of the core to the home of a bulk address has still to perform (R253); its stores count where
asked. -/
def homeBusy (s : State) (c : CoreId) (t pa : Nat) (stores : Bool) : Bool :=
  s.fab.any (fun a => a.src == c && !a.performed && homeUnit s a.va a.home == homeUnit s 0 (.bulk t pa) &&
    (match a.kind with | .store _ => stores | _ => true))

/-- A byte as the core reads it from a present line: its own writes stand from issue (R403). -/
def lineByte (s : State) (c : CoreId) (t pa : Nat) : Byte :=
  s.fab.foldl (fun b a =>
    match a.kind, a.home with
    | .store bs, .bulk t' pa' => if a.src == c && !a.performed && t' == t && pa' ≤ pa then (bs[pa - pa']?).getD b else b
    | _, _ => b) (memGet (s.tier t) pa)

/-- A store of the core that has not performed holds a byte (R403). -/
def ownByte (s : State) (c : CoreId) (t pa : Nat) : Bool :=
  s.fab.any (fun a => a.src == c && !a.performed &&
    (match a.kind, a.home with
     | .store bs, .bulk t' pa' => t' == t && decide (pa' ≤ pa) && decide (pa < pa' + bs.length)
     | _, _ => false))

/-- n bytes of one line read by a control core (R402): a hit, a read of host memory, or a wait for the line. It performs
after every earlier access of the core to the same home; where stores of the core hold every byte, they give the value from
issue onward (R403). -/
def lineRead (s : State) (c : CoreId) (va n : Nat) : Dev (Nat × State) := do
  needD (va % n == 0) .align 0 va
  needD (isBulk va) .fabric 1 va
  let ((t, pa), s1) ← (coreTranslate s c va 0).dev
  let v := ofBytes ((List.range n).map (fun i => lineByte s1 c t (pa + i)))
  if t == 3 then do
    untilD (!homeBusy s1 c t pa true) s1
    .ok (v, s1)
  else if (s1.core c).lines.contains (t, pa / 64) then do
    untilD (!homeBusy s1 c t pa (!(List.range n).all (fun i => ownByte s1 c t (pa + i)))) s1
    .ok (v, s1.modCore c (fun k => { k with lines := touchLine k.lines (t, pa / 64) }))
  else .error (.wait (s1.modCore c (fun k => { k with fillWait := some (t, pa / 64, va) })))

/-- LINE_CACHE_FILL on a core: the line is filled once the core's earlier accesses to its home have performed; a
poisoned read makes the reader trap with BULK 0x06, and one whose expander has gone down with BULK 0x04 (Table 28-2). -/
def lineFill (s : State) (c : CoreId) (ok : Bool) : State :=
  match (s.core c).fillWait with
  | none => s
  | some (t, l, va) =>
    if homeBusy s c t (64 * l) true then s
    else if homeDown s (.bulk t (64 * l)) then s.modCore c (fun k => { k with tres := some (va, 4), fillWait := none })
    else if ok && !(t == 2 && s.poison.contains l) then s.modCore c (fun k => { k with lines := touchLine k.lines (t, l), fillWait := none })
    else if t = 2 then s.modCore c (fun k => { k with tres := some (va, 6), fillWait := none })
    else s

def execLineCacheFill (s : State) : Host.Outcome State Fault Refusal :=
  eventOp (fun s => lineFill s s.ev.core s.ev.ok) s

/-! ### Posted bulk writes (R375, R403) -/

/-- A bulk store issued by a control core: counted in ct.b until the streamer acknowledges it. -/
def postBulk (s : State) (c : CoreId) (va t pa : Nat) (bs : List Byte) : State :=
  let k := s.core c
  { s.setCore c { k with ctb := k.ctb + 1 } with
    fab := s.fab ++ [{ src := c, ctx := k.ctx, home := .bulk t pa, va := va, kind := .store bs, posted := 2,
                       launch := k.launch, since := s.cycle, big := bigAt s (couchOf c) k.ctx va, born := s.tlbn }] }

/-- An instruction takes n control-core cycles (R400-R405). -/
def controlCycles (n : Nat) (f : CoreId → State → Dev State) (c : CoreId) (s : State) : Dev State := do
  let s1 ← f c s
  .ok (s1.modCore c (fun k => k.chargeControl n))

/-! ### The instructions -/

/-- `bld` (R402). -/
def bldOp (z : BitVec 2) (d a : Spec) (c : CoreId) (s : State) : Dev State :=
  opDA d a (fun v c s => lineRead s c v (2 ^ z.toNat)) c s

def execBld (z : BitVec 2) (d a : Spec) (s : State) : Host.Outcome State Fault Refusal :=
  nativeOp (.bld z d a) (fun _ => 0) (controlCycles 4 (bldOp z d a)) s

/-- `bst` (R403). -/
def bstOp (z : BitVec 2) (a b : Spec) (c : CoreId) (s : State) : Dev State :=
  opAB a b (fun v va c s => do
    let n := 2 ^ z.toNat
    needD (va % n == 0) .align 0 va
    needD (isBulk va) .fabric 1 va
    untilD (fenceClear (s.core c) && decide ((s.core c).ctb < 65535)) s
    let ((t, pa), s1) ← (coreTranslate s c va 1).dev
    .ok (postBulk (s1.modCore c dropFence) c va t pa (toBytes n v))) c s

def execBst (z : BitVec 2) (a b : Spec) (s : State) : Host.Outcome State Fault Refusal :=
  nativeOp (.bst z a b) (fun _ => 1) (bstOp z a b) s

/-- An inline-cache entry's words; zero where none is listed. -/
def icEntry (k : Core) (i : Nat) : Nat × Nat × Nat := (alookup i k.ic).getD (0, 0, 0)

/-- An entry written; a zero entry is not listed. -/
def icSet (k : Core) (i : Nat) (e : Nat × Nat × Nat) : Core :=
  { k with ic := if e = (0, 0, 0) then aerase i k.ic else ainsert i e k.ic }

/-- What an image of an entry may not hold (R404). -/
def icForbidden (w0 w1 w2 : Nat) : Bool :=
  decide (5 ≤ field w0 7 5) || (bitAt w1 25 && (field w0 7 5 == 0 || field w0 7 5 == 4)) ||
    (field w0 4 3 != 2 && (field w0 2 1 != 0 || w2 != 0))

/-- `icw` (R404). -/
def icwOp (a b : Spec) (c : CoreId) (s : State) : Dev State :=
  opAB a b (fun i addr c s => do
    needD (i < 2048) .undef 2
    let _ ← localRecord c s addr 24 8
    let k := s.core c
    let w0 := readLocal k addr 8
    let w1 := readLocal k (addr + 8) 8
    let w2 := readLocal k (addr + 16) 8
    needD (!bitAt w0 0 && w2 < 2 ^ 48) .undef 1
    needD (!icForbidden w0 w1 w2) .undef 3
    .ok (s.setCore c (icSet k i (w0, w1, w2)))) c s

def execIcw (a b : Spec) (s : State) : Host.Outcome State Fault Refusal :=
  nativeOp (.icw a b) (fun _ => 0) (controlCycles 2 (icwOp a b)) s

/-- The layout of `ici`'s source. -/
def iciOk (v : Nat) : Bool :=
  match field v 63 62 with
  | 0 => v == 0
  | 1 => field v 61 11 == 0
  | 2 => field v 61 32 == 0
  | _ => false

/-- `ici` (R405): mode 1 takes 1 control-core cycle, the others 64. -/
def iciOp (a : Spec) (c : CoreId) (s : State) : Dev State :=
  opA a (fun v c s => do
    needD (iciOk v) .undef 2
    .ok (s.modCore c (fun k => match field v 63 62 with
      | 0 => ({ k with ic := [] } : Core).chargeControl 64
      | 1 => (icSet k (field v 10 0) (0, 0, 0)).chargeControl 1
      | _ => ({ k with ic := k.ic.filter (fun e => field e.2.1 63 32 != field v 31 0) } : Core).chargeControl 64))) c s

def execIci (a : Spec) (s : State) : Host.Outcome State Fault Refusal :=
  nativeOp (.ici a) (fun _ => 0) (iciOp a) s

/-- `icr` (R405). -/
def icrOp (d a : Spec) (c : CoreId) (s : State) : Dev State :=
  opDA d a (fun v c s => do
    needD (v < 8192) .undef 2
    let e := icEntry (s.core c) (field v 10 0)
    .ok (match field v 12 11 with | 0 => e.1 | 1 => e.2.1 | 2 => e.2.2 | _ => 0, s)) c s

def execIcr (d a : Spec) (s : State) : Host.Outcome State Fault Refusal := nativeOp (.icr d a) (fun _ => 1) (icrOp d a) s

end Sys2Proof.Machine
end

