-- ==== Sys2Proof/Machine/MessageEvents.lean ====
section
/-!
DEFINITION. The events of firings, messages and traps, one definition per event: selection (R187), the network's
messages, enqueues and packets (R182-R203, R413), budgets that run out (R103, R268), boundary traps (R264), the fault
writer (R271), and the code stream (R278, R281).
-/
namespace Sys2Proof.Machine

/-! ### Selection and messages -/

/-- SELECTION on core `ev.core` (R187). -/
def execSelection (s : State) : Host.Outcome State Fault Refusal := eventOp (fun s => selectFiring s s.ev.core) s

/-- MESSAGE_INJECT: the oldest released message of `ev.core` enters the network (R194). -/
def execMessageInject (s : State) : Host.Outcome State Fault Refusal := eventOp (fun s => injectMessage s s.ev.core) s

/-- MESSAGE_ARRIVAL: item `ev.i` of the network reaches its core (R184). -/
def execMessageArrival (s : State) : Host.Outcome State Fault Refusal := eventOp (fun s => arriveMessage s s.ev.i) s

/-- MESSAGE_REFUSAL_REPLY: the retry reply of item `ev.i` reaches its sender (R185, R196). -/
def execMessageRefusalReply (s : State) : Host.Outcome State Fault Refusal := eventOp (fun s => refusalReply s s.ev.i) s

/-- MESSAGE_RETRY: the refused item `ev.i` is sent again (R185). -/
def execMessageRetry (s : State) : Host.Outcome State Fault Refusal := eventOp (fun s => retryMessage s s.ev.i) s

/-- ENQUEUE_ARRIVAL: item `ev.i` reaches its core (R197). -/
def execEnqueueArrival (s : State) : Host.Outcome State Fault Refusal := eventOp (fun s => arriveEnqueue s s.ev.i) s

/-- ENQUEUE_LANDING: landing slot `ev.i` of `ev.core` lands (R197). -/
def execEnqueueLanding (s : State) : Host.Outcome State Fault Refusal := eventOp (fun s => landWaiting s s.ev.core s.ev.i) s

/-- CHANNEL_PACKET_ARRIVAL: item `ev.i`, a `chhold` or `chrdy` packet, is applied (R203). -/
def execChannelPacketArrival (s : State) : Host.Outcome State Fault Refusal := eventOp (fun s => arrivePacket s s.ev.i) s

/-- CANCEL_PACKET_ARRIVAL: item `ev.i`, a packet of the sequence service, reaches its core (R413). -/
def execCancelPacketArrival (s : State) : Host.Outcome State Fault Refusal := eventOp (fun s => arriveCancel s s.ev.i) s

/-! ### Budgets and boundary traps -/

/-- A trap taken before the instruction at PC issues. -/
def trapBefore (s : State) (c : CoreId) (t : Trap) (boundary : Bool) : State :=
  let p := pendingInstr s c
  takeTrap s c t p.1 p.2.1 p.2.2 boundary

/-- A core whose budget, or handler budget, has run out raises BUDGET (R103, R268), unless its instruction has been
served and only completes (R244, R453). -/
def budgetExpiry (s : State) (c : CoreId) : State :=
  if executes s c && (s.core c).cyclesLeft == 0 && !(s.core c).served then trapBefore s c { cause := .budget } false else s

/-- BUDGET_EXPIRY on `ev.core`. -/
def execBudgetExpiry (s : State) : Host.Outcome State Fault Refusal := eventOp (fun s => budgetExpiry s s.ev.core) s

/-- The oldest pending boundary trap is taken: on a core with no handler, at an instruction boundary or while idle
(R264); an instruction that has been served completes first (R244, R453). -/
def boundaryTrap (s : State) (c : CoreId) : State :=
  let k := s.core c
  match k.bpend with
  | [] => s
  | t :: ts =>
    if k.inHandler || k.life != .active || k.pst == .checker || k.vpend || k.served || s.health.stopped then s
    else if trapHeld s c t then waitCore s c k (1 + s.stall)
    else trapBefore (s.setCore c { k with bpend := ts }) c t true

/-- BOUNDARY_TRAP on `ev.core`. -/
def execBoundaryTrap (s : State) : Host.Outcome State Fault Refusal := eventOp (fun s => boundaryTrap s s.ev.core) s

/-! ### The fault writer (R271) -/

/-- DROP raised in the descriptor; it holds at 2^32 - 1. -/
def raiseDrop (s : State) (ctx desc w : Nat) : State :=
  let d := field w 31 0
  (svcPutWord s ctx (desc + 16) (w - d + min (d + 1) 0xFFFFFFFF)).getD s

/-- The descriptor's page maps with the R and W rights. -/
def descReachable (s : State) (ctx desc : Nat) : Bool :=
  (svcPlace s ctx desc 0).isSome && (svcPlace s ctx desc 1).isSome &&
    (svcPlace s ctx (desc + 23) 0).isSome && (svcPlace s ctx (desc + 23) 1).isSome

/-- One record written to its context's fault ring. -/
def writeRecord (s : State) (r : FRec) : State :=
  let desc := field (heldWord s r.ctx 0x20) 47 0
  if desc = 0 ∨ !descReachable s r.ctx desc then s
  else
    let w0 := (svcWord s r.ctx desc 8).getD 0
    let w1 := (svcWord s r.ctx (desc + 8) 8).getD 0
    let w2 := (svcWord s r.ctx (desc + 16) 8).getD 0
    let base := field w0 47 12 * 4096
    let pi := field w1 31 0
    let ci := field w1 63 32
    let size := 2 ^ field w2 36 32
    if (pi + 2 ^ 32 - ci) % 2 ^ 32 = size then raiseDrop s r.ctx desc w2
    else match svcWrite s r.ctx (base + 64 * (pi % size)) ((r.words.map (toBytes 8)).flatten) with
      | none => raiseDrop s r.ctx desc w2
      | some s1 => (svcWrite s1 r.ctx (desc + 8) (toBytes 4 ((pi + 1) % 2 ^ 32))).getD s1

/-- FAULT_RECORD_WRITE: the oldest queued record. -/
def execFaultRecordWrite (s : State) : Host.Outcome State Fault Refusal :=
  eventOp (fun s => match s.frecs with
    | [] => s
    | r :: rs => writeRecord { s with frecs := rs } r) s

/-! ### The code stream (R278, R281) -/

/-- Bytes of a code object land after those that have landed, and STREAMED rises; nothing where the object's pages do
not map. -/
def streamCode (s : State) (ctx cbase : Nat) (bs : List Byte) : State :=
  match svcWord s ctx (cbase + 8) 4 with
  | none => s
  | some n =>
    match svcWrite s ctx (cbase + n) bs with
    | none => s
    | some s1 => (svcWrite s1 ctx (cbase + 8) (toBytes 4 ((n + bs.length) % 2 ^ 32))).getD s1

/-- CODE_STREAM_LANDING: `ev.bytes` of the object at `ev.w` of context `ev.i`. -/
def execCodeStreamLanding (s : State) : Host.Outcome State Fault Refusal :=
  eventOp (fun s => streamCode s s.ev.i s.ev.w s.ev.bytes) s

end Sys2Proof.Machine
end

