-- ==== Sys2Proof/Machine/Bytecode.lean ====
section
/-!
DEFINITION. The front end of a control core (R376-R400): the fetch of a bytecode, dispatches, reference counts,
inline-cache lookups, the fast path, AWAIT, and one definition per bytecode. A bytecode plans its writes and makes
them after every check (R386).
-/
namespace Sys2Proof.Machine

/-! ### The frame of a bytecode -/

/-- A bytecode under way: the machine with the lines it has fetched, the stack pointer, the words it will write
locally (newest first) and in bulk memory (address, bytes, value, in order), the objects whose count falls to 0, and
the number of changed counts. -/
structure Fe where
  s : State
  sp : Nat
  loc : List (Nat × Nat) := []
  blk : List (Nat × Nat × Nat) := []
  ring : List Nat := []
  chg : Nat := 0

/-- A bytecode's operands as a dispatch shows them (R384). -/
structure Bc where
  op : Nat
  opnd : Nat
  slot : Nat
  bpc : Nat
  next : Nat

/-- What a bytecode comes to: the machine and its cycles, or a stop. -/
abbrev FeOut := Dev (State × Nat)

def add64 (a : Nat) (b : Int) : Nat := toPattern 64 ((a : Int) + b)

/-- A local word of 8 bytes as the front end reads it. -/
def Fe.word (f : Fe) (c : CoreId) (a : Nat) : Dev Nat := do
  let k := f.s.core c
  ofCore f.s (checkLocal k a 8 8)
  untilD (!unreadyAt k a 8) f.s
  .ok ((f.loc.find? (fun e => e.1 == a)).elim (readLocal k a 8) (·.2))

/-- A workspace word. -/
def Fe.w (f : Fe) (c : CoreId) (n : Nat) : Nat := wReg (f.s.core c) n

/-- n bytes of bulk memory as the front end reads them, its own planned writes included. -/
def Fe.rd (f : Fe) (c : CoreId) (va n : Nat) : Dev (Nat × Fe) := do
  let (v, s1) ← lineRead f.s c va n
  .ok (f.blk.foldl (fun v e => if e.1 = va then v - v % 2 ^ (8 * e.2.1) + e.2.2 % 2 ^ (8 * e.2.1) else v) v,
    { f with s := s1 })

def Fe.wr (f : Fe) (va n v : Nat) : Fe := { f with blk := f.blk ++ [(va, n, v)] }
def Fe.setLoc (f : Fe) (a v : Nat) : Fe := { f with loc := (a, v) :: f.loc }

/-- The value i places below the top of the stack. -/
def Fe.peek (f : Fe) (c : CoreId) (i : Nat) : Dev Nat := f.word c (add64 f.sp (-(8 * ((i : Int) + 1))))

def Fe.pop (f : Fe) (c : CoreId) : Dev (Nat × Fe) := do
  let v ← f.peek c 0
  .ok (v, { f with sp := add64 f.sp (-8) })

def Fe.push (f : Fe) (v : Nat) : Fe := { f.setLoc f.sp v with sp := add64 f.sp 8 }

/-! ### Values and objects (R376, R377) -/

def isSmall (v : Nat) : Bool := v % 2 == 1
def isRef (v : Nat) : Bool := v % 2 == 0 && v != 0 && v != 2 && v != 4

/-- The two header words of an object; a reference is a multiple of 16. -/
def Fe.obj (f : Fe) (c : CoreId) (v : Nat) : Dev ((Nat × Nat) × Fe) := do
  needD (v % 16 == 0) .align 0 v
  let (h, f1) ← f.rd c v 8
  let (t, f2) ← f1.rd c (v + 8) 8
  .ok ((h, t), f2)

/-- A reference's count raised or lowered (R380, R388); the count wraps below 0. -/
def Fe.count (f : Fe) (c : CoreId) (v : Nat) (up : Bool) : Dev Fe := do
  if !isRef v then .ok f
  else do
    needD (v % 16 == 0) .align 0 v
    let (h, f1) ← f.rd c v 8
    let rc := field h 31 0
    if bitAt h 39 || rc == 0xFFFFFFFF then .ok f1
    else
      let n := if up then rc + 1 else (rc + 2 ^ 32 - 1) % 2 ^ 32
      .ok { f1.wr v 4 n with chg := f1.chg + 1, ring := if !up && n == 0 then f1.ring ++ [v] else f1.ring }

/-! ### The end of a bytecode -/

/-- The physical places of the planned bulk writes, with their bytes; each needs the W right. -/
def places (c : CoreId) : State → List (Nat × Nat × Nat) → Dev (List (Nat × Nat × Nat × List Byte) × State)
  | s, [] => .ok ([], s)
  | s, (va, n, v) :: l => do
    needD (isBulk va) .fabric 1 va
    let ((t, pa), s1) ← (coreTranslate s c va 1).dev
    let (ps, s2) ← places c s1 l
    .ok ((va, t, pa, toBytes n v) :: ps, s2)

/-- The planned local words written, oldest first. -/
def storeWords (s : State) (c : CoreId) (l : List (Nat × Nat)) : Dev State :=
  l.reverse.foldlM (fun s e => do
    ofCore s (checkLocal (s.core c) e.1 8 8)
    let k ← ofCore s (storeAt (s.core c) e.1 (toBytes 8 e.2))
    .ok (s.setCore c k)) s

/-- Bulk stores posted, once a fence and the count let them (R238, R229). -/
def postAll (s : State) (c : CoreId) (ps : List (Nat × Nat × Nat × List Byte)) : Dev State := do
  untilD (ps.isEmpty || (fenceClear (s.core c) && decide ((s.core c).ctb + ps.length ≤ 65535))) s
  .ok (ps.foldl (fun s p => postBulk s c p.1 p.2.1 p.2.2.1 p.2.2.2) (if ps.isEmpty then s else s.modCore c dropFence))

/-- Release-ring entries for objects whose count fell to 0 (R397). -/
def ringAll (s : State) (c : CoreId) (l : List Nat) : State :=
  l.foldl (fun s v => s.modCore c (fun k => (ringPut k 2 v).getD k)) s

/-- The local words that a bytecode writes at its end: BPC, the stack pointer and those it has planned. -/
def Fe.locals (f : Fe) (c : CoreId) (next : Nat) : List (Nat × Nat) :=
  let k := f.s.core c
  [(k.wp + 8 * 16, next), (k.wp + 8 * 18, f.sp)] ++ f.loc

/-- Every planned write, the stack pointer and BPC; its cost in control-core cycles. -/
def Fe.finish (f : Fe) (c : CoreId) (next cost : Nat) : FeOut := do
  let (ps, s1) ← places c f.s f.blk
  let s2 ← storeWords s1 c (f.locals c next)
  let s3 ← postAll s2 c ps
  .ok (ringAll s3 c f.ring, cost + 2 * f.chg)

/-- A dispatch to a native routine (R384): nothing planned is written. -/
def dispatchTo (s : State) (c : CoreId) (w24 w25 w26 w27 reason next target : Nat) : FeOut := do
  match checkTarget s c target with
  | .error (some t) => .error (.trap t)
  | .error none => .error (.wait s)
  | .ok _ =>
    let wp := (s.core c).wp
    let s1 ← storeWords s c
      ([(16, next), (24, w24), (25, w25), (26, w26), (27, w27), (28, reason), (31, resumeMarker)].map
        (fun e => (wp + 8 * e.1, e.2)))
    .ok (s1.modCore c (fun k => { k with bcMode := false, pc := target, sleeping := false }), 6)

/-- The code offset in an entry of the handler table at `sr.bhtab`. -/
def handlerEntry (s : State) (c : CoreId) (n : Nat) : Dev Nat := do
  let k := s.core c
  let a := k.bhtab + 4 * n
  ofCore s (checkLocal k a 4 4)
  untilD (!unreadyAt k a 4) s
  .ok (readLocal k a 4)

/-- A dispatch of the front end itself to an entry at or above 0xFD (R385). -/
def ownDispatch (s : State) (c : CoreId) (entry w24 bpc next : Nat) : FeOut := do
  let t ← handlerEntry s c entry
  dispatchTo s c w24 0 0xFFFF bpc 0 next t

/-- A bytecode handed to its routine for a reason, with w25 as given. -/
def Bc.dispatchW (b : Bc) (f : Fe) (c : CoreId) (reason w25 : Nat) : FeOut := do
  let t ← handlerEntry f.s c b.op
  dispatchTo f.s c b.op w25 b.slot b.bpc reason b.next t

def Bc.dispatch (b : Bc) (f : Fe) (c : CoreId) (reason : Nat) : FeOut := b.dispatchW f c reason b.opnd

/-- A bytecode that waits keeps what it has posted (R394). -/
def waitBytecode (s1 : State) (c : CoreId) (k : Core) (n : Nat) : State :=
  let k1 := s1.core c
  waitCore s1 c { k with ctb := k1.ctb, fenceSt := k1.fenceSt, fenceDst := k1.fenceDst } n

/-- The bytecodes run on a control core in bytecode mode. -/
def inBytecode (s : State) (c : CoreId) : Bool := executes s c && (s.core c).bcMode && c.cls == .control

/-- A step of the front end on a core: its waits, the check of the release ring (R385), and what it then does. -/
def runFront (c : CoreId) (insn : Nat) (f : State → FeOut) (s : State) : State :=
  let k := s.core c
  if !inBytecode s c then s
  else if k.vpend || k.acqWait || unreadyAt k (k.wp + 8 * 16) 64 then waitCore s c k (1 + s.stall)
  else
    let r : FeOut := if ringFree k < 4 then ownDispatch s c 0xFE 0xFE (wReg k 16) (wReg k 16) else f s
    match r with
    | .ok (s1, n) => s1.modCore c (fun k => k.front n s.stall)
    | .error (.trap t) => takeTrap s c t insn 0 4 false
    | .error (.trapAt t s1) => takeTrap s1 c t insn 0 4 false
    | .error (.wait s1) => waitBytecode s1 c k (1 + s.stall)

/-- The first four bytes of a bytecode as a record shows them (R386). -/
def bcInsn (i : Instr) : Nat := ofBytes ((encodeBytecode i).take 4 |>.map (BitVec.ofNat 8))

/-- A bytecode on the current core: with room for what it could push, its meaning (R385). -/
def bytecodeOp (i : Instr) (opnd slot grow : Nat) (f : Bc → Fe → CoreId → FeOut) (s : State) :
    Host.Outcome State Fault Refusal :=
  .next (runFront s.cur (bcInsn i) (fun s =>
    let c := s.cur
    let k := s.core c
    let bpc := wReg k 16
    let b : Bc := { op := (encodeBytecode i).headD 0, opnd := opnd, slot := slot, bpc := bpc,
                    next := bpc + (encodeBytecode i).length }
    if 0 < grow ∧ wReg k 20 < wReg k 18 + 8 * grow then ownDispatch s c 0xFD 0xFD bpc bpc
    else f b { s := s, sp := wReg k 18 } c) s)

/-- A bytecode that a routine always handles. -/
def routine (b : Bc) (f : Fe) (c : CoreId) : FeOut := b.dispatch f c 0

/-! ### The fetch (R381, R385, R386) -/

/-- What a fetch at BPC gives: a bytecode; a byte that is none, or 0x100 beyond the end; a trap with the bytes read;
a wait. -/
inductive BcFetch where
  | ok (i : Instr) (s : State)
  | bad (w : Nat) (s : State)
  | trap (t : Trap) (insn : Nat)
  | wait (s : State)

/-- Bytes read one after the other; what was read before a stop stays known. -/
def readSeq (c : CoreId) (a : Nat) : Nat → Nat → List Nat → State → List Nat × Dev State
  | 0, _, acc, s => (acc, .ok s)
  | n + 1, i, acc, s =>
    match lineRead s c (a + i) 1 with
    | .ok (v, s1) => readSeq c a n (i + 1) (acc ++ [v]) s1
    | .error h => (acc, .error h)

def fetchBytecode (s : State) (c : CoreId) : BcFetch :=
  let k := s.core c
  let fn := wReg k 17
  let bpc := wReg k 16
  let stop (h : Halt) (read : List Nat) : BcFetch :=
    match h with
    | .trap t | .trapAt t _ => .trap t (ofBytes ((read.take 4).map (BitVec.ofNat 8)))
    | .wait s1 => .wait s1
  if unreadyAt k (k.wp + 8 * 16) 64 then .wait s
  else match lineRead s c (fn + 8) 8 with
    | .error h => stop h []
    | .ok (len, s1) =>
      if field len 23 0 ≤ bpc then .bad 0x100 s1
      else match readSeq c (fn + 0x40 + bpc) 1 0 [] s1 with
        | (_, .error h) => stop h []
        | (r, .ok s2) =>
          match bcLength (nth r 0 0) with
          | none => .bad (nth r 0 0) s2
          | some n =>
            match readSeq c (fn + 0x40 + bpc) (n - 1) 1 r s2 with
            | (r', .error h) => stop h r'
            | (r', .ok s3) =>
              match decodeBytecode (nth r' 0 0) (nth r' 1 0) (nth r' 2 0) (nth r' 3 0) (nth r' 4 0) with
              | some i => .ok i s3
              | none => .bad (nth r' 0 0) s3

/-- UNASSIGNED_BYTECODE on `ev.core`: `ev.w` is the byte, or 0x100 beyond BCLEN (R385). -/
def execUnassignedBytecode (s : State) : Host.Outcome State Fault Refusal :=
  eventOp (fun s =>
    let w := s.ev.w
    if w = 0x100 ∨ (w < 256 ∧ bcLength w = none) then
      runFront s.ev.core (w % 256) (fun s =>
        let bpc := wReg (s.core s.ev.core) 16
        ownDispatch s s.ev.core 0xFF w bpc (if w = 0x100 then bpc else bpc + 1)) s
    else s) s

/-! ### Simple bytecodes (R387, R388) -/

/-- CONST: the constant, whose count rises. -/
def bcConstOp (b : Bc) (f : Fe) (c : CoreId) : FeOut := do
  let fn := f.w c 17
  let (r0, f1) ← f.rd c fn 8
  if field r0 15 0 ≤ b.opnd then b.dispatch f1 c 5
  else do
    let (tab, f2) ← f1.rd c (fn + 0x18) 8
    let (v, f3) ← f2.rd c (tab + 8 * b.opnd) 8
    let f4 ← (f3.push v).count c v true
    f4.finish c b.next 2

/-- Whether a local index lies beyond NLOC. -/
def beyondLocals (b : Bc) (f : Fe) (c : CoreId) : Dev (Bool × Fe) := do
  let (r0, f1) ← f.rd c (f.w c 17) 8
  .ok (decide (field r0 31 16 ≤ b.opnd), f1)

def bcLoadlOp (b : Bc) (f : Fe) (c : CoreId) : FeOut := do
  let (out, f1) ← beyondLocals b f c
  if out then b.dispatch f1 c 5
  else do
    let v ← f1.word c (add64 (f1.w c 19) (8 * b.opnd))
    let f2 ← (f1.push v).count c v true
    f2.finish c b.next 1

def bcStorelOp (b : Bc) (f : Fe) (c : CoreId) : FeOut := do
  let (out, f1) ← beyondLocals b f c
  if out then b.dispatch f1 c 5
  else do
    let a := add64 (f1.w c 19) (8 * b.opnd)
    let (v, f2) ← f1.pop c
    let old ← f2.word c a
    let f3 ← f2.count c old false
    (f3.setLoc a v).finish c b.next 1

def bcPopOp (b : Bc) (f : Fe) (c : CoreId) : FeOut := do
  let (v, f1) ← f.pop c
  let f2 ← f1.count c v false
  f2.finish c b.next 1

def bcDupOp (b : Bc) (f : Fe) (c : CoreId) : FeOut := do
  let v ← f.peek c 0
  let f1 ← (f.push v).count c v true
  f1.finish c b.next 1

def bcSwapOp (b : Bc) (f : Fe) (c : CoreId) : FeOut := do
  let y ← f.peek c 0
  let x ← f.peek c 1
  ((f.setLoc (add64 f.sp (-16)) y).setLoc (add64 f.sp (-8)) x).finish c b.next 1

def bcJumpOp (b : Bc) (f : Fe) (c : CoreId) : FeOut := f.finish c b.opnd 1

/-- JUMPT and JUMPF: None, False and the small integer 0 are false. -/
def bcJumpIf (sense : Bool) (b : Bc) (f : Fe) (c : CoreId) : FeOut := do
  let v ← f.peek c 0
  if isRef v then b.dispatch f c 5
  else do
    let (_, f1) ← f.pop c
    f1.finish c (if (v != 0 && v != 2 && v != 1) == sense then b.opnd else b.next) 1

/-- AWAIT (R399). -/
def bcAwaitOp (b : Bc) (f : Fe) (c : CoreId) : FeOut := do
  let v ← f.peek c 0
  if !isRef v then f.finish c b.next 1
  else do
    let ((h, t), f1) ← f.obj c v
    if !bitAt h 38 || field t 1 0 == 0 then f1.finish c b.next 1
    else do
      let (flid, f2) ← f1.rd c (v + 0x58) 8
      if field t 1 0 != 1 then b.dispatchW f2 c 6 flid
      else match lwaitWord f2.s (f2.s.core c).ctx flid with
        | none => .error (.wait f2.s)
        | some w =>
          if bitAt w 62 then b.dispatchW f2 c 6 w
          else ((f2.wr (v + 8) 8 (t / 4 * 4)).wr (v + 0x58) 8 0).finish c b.next 1

/-! ### Inline caches (R390, R391) -/

/-- The operand test of a value against a way. -/
def operandTest (f : Fe) (c : CoreId) (way x : Nat) : Dev (Bool × Fe) := do
  if field way 63 40 == 0xFFFFFF then .ok (isSmall x, f)
  else if !isRef x then .ok (false, f)
  else do
    let ((h, t), f1) ← f.obj c x
    .ok (field h 63 40 == field way 63 40 && bitAt h 38 && field t 62 56 == field way 39 33
      && field t 51 48 == field way 32 30, f1)

/-- The broadcast class of an operand; 0 for a small integer. -/
def bclsOf (f : Fe) (c : CoreId) (x : Nat) : Dev (Nat × Fe) := do
  if isSmall x then .ok (0, f)
  else do
    let ((_, t), f1) ← f.obj c x
    .ok (field t 43 40, f1)

/-- Operands that pass as binary operands. -/
def binaryTest (c : CoreId) (way : Nat) : Fe → List Nat → Nat → Dev (Bool × Fe)
  | f, [], bcls => .ok (bcls == field way 29 26, f)
  | f, x :: xs, bcls => do
    let (ok, f1) ← operandTest f c way x
    if !ok then .ok (false, f1)
    else do
      let (n, f2) ← bclsOf f1 c x
      binaryTest c way f2 xs (natOr bcls n)

/-- Whether a value is a reference of the way's shape. -/
def shapeTest (f : Fe) (c : CoreId) (way x : Nat) : Dev (Bool × Fe) := do
  if !isRef x then .ok (false, f)
  else do
    let ((h, _), f1) ← f.obj c x
    .ok (field h 63 40 == field way 63 40, f1)

/-- The guards of a way (Table 19-5): the operands, deepest first, and the callee of a call. -/
def guards (kind : Nat) (f : Fe) (c : CoreId) (way : Nat) (xs : List Nat) (callee : Nat) : Dev (Bool × Fe) := do
  match kind with
  | 0 => do
    let (ok, f1) ← shapeTest f c way (nth xs 0 0)
    .ok (ok && !bitAt way 25, f1)
  | 1 => do
    let (ok, f1) ← shapeTest f c way callee
    if !ok then .ok (false, f1)
    else if field way 39 33 == 0x7F then .ok (true, f1)
    else binaryTest c way f1 (xs.take 2) 0
  | 3 => do
    let (ok, f1) ← operandTest f c way (nth xs 0 0)
    .ok (ok && isSmall (nth xs 1 0), f1)
  | 4 =>
    if isSmall (nth xs 0 0) then .ok (field way 63 40 == 0xFFFFFF, f) else shapeTest f c way (nth xs 0 0)
  | _ => binaryTest c way f xs 0

/-- The hit of a lookup among `n` further ways from way i, with its number. -/
def tryWays (kind : Nat) (c : CoreId) (entry : Nat × Nat × Nat) (xs : List Nat) (callee : Nat) :
    Nat → Nat → Fe → Dev (Option (Nat × Nat) × Fe)
  | 0, _, f => .ok (none, f)
  | n + 1, i, f => do
    let (way, f1) ← if i = 0 then .ok (entry.2.1, f) else f.rd c (field entry.2.2 47 0 + 8 * (i - 1)) 8
    let (ok, f2) ← guards kind f1 c way xs callee
    if ok then .ok (some (way, i), f2) else tryWays kind c entry xs callee n (i + 1) f2

/-- A cached bytecode: its lookup, then what its hit does. -/
def cached (kind : Nat) (xs : List Nat) (callee : Nat) (hit : Nat → Nat → Fe → FeOut) (b : Bc) (f : Fe) (c : CoreId) :
    FeOut := do
  let (r0, f1) ← f.rd c (f.w c 17) 8
  let e := icEntry (f1.s.core c) ((f1.w c 21 + b.slot) % 2048)
  let st := field e.1 4 3
  if field e.1 63 32 != field r0 63 32 || field e.1 31 8 != b.bpc || field e.1 7 5 != kind || st == 0 then b.dispatch f1 c 1
  else if st == 3 then b.dispatch f1 c 3
  else do
    let (r, f2) ← tryWays kind c e xs callee ((if st = 2 then field e.1 2 1 else 0) + 1) 0 f1
    match r with
    | none => b.dispatch f2 c 2
    | some (way, i) => hit way (if i = 0 then 3 else 7) f2

/-- n operands off the top of the stack, deepest first. -/
def Fe.operands (f : Fe) (c : CoreId) : Nat → Dev (List Nat)
  | 0 => .ok []
  | n + 1 => do
    let x ← f.peek c n
    let xs ← f.operands c n
    .ok (x :: xs)

/-! ### The fast path (R393-R395) -/

/-- An input of the fast path: its tensor word, extents, strides, bytes, storage (none for a small integer), future and header. -/
structure Input where
  hdr : Nat
  tns : Nat
  dims : List Nat
  strs : List Nat
  data : Nat
  store : Option Nat
  flid : Nat

/-- The inputs' futures: FSTATE of each, 0 of a small integer. -/
def readFutures (c : CoreId) : List Nat → Fe → Dev (List Nat × Fe)
  | [], f => .ok ([], f)
  | x :: xs, f => do
    let (t, f1) ← if isRef x then do let ((_, t), f1) ← f.obj c x; .ok (field t 1 0, f1) else .ok (0, f)
    let (ts, f2) ← readFutures c xs f1
    .ok (t :: ts, f2)

/-- An input read. The spec states no extents, strides or bytes for a small integer: they are free values. -/
def readInput (f : Fe) (c : CoreId) (i x : Nat) : Dev (Input × Fe) := do
  if !isRef x then
    let v (j : Nat) : Nat := (Config.freeValue (f.s.fresh + 16 * i + j)).toNat
    .ok ({ hdr := v 9 % 2 ^ 24 * 2 ^ 40, tns := v 10 % 5 * 2 ^ 48, dims := [v 0, v 1, v 2, v 3],
           strs := [v 4, v 5, v 6, v 7], data := v 8, store := none, flid := 0 }, f)
  else do
    let ((h, t), f1) ← f.obj c x
    let (d0, f2) ← f1.rd c (x + 0x10) 8
    let (d1, f3) ← f2.rd c (x + 0x18) 8
    let (d2, f4) ← f3.rd c (x + 0x20) 8
    let (d3, f5) ← f4.rd c (x + 0x28) 8
    let (t0, f6) ← f5.rd c (x + 0x30) 8
    let (t1, f7) ← f6.rd c (x + 0x38) 8
    let (t2, f8) ← f7.rd c (x + 0x40) 8
    let (t3, f9) ← f8.rd c (x + 0x48) 8
    let (st, f10) ← f9.rd c (x + 0x50) 8
    let (fl, f11) ← f10.rd c (x + 0x58) 8
    needD (st % 16 == 0) .align 0 st
    let (da, f12) ← f11.rd c (st + 0x10) 8
    .ok ({ hdr := h, tns := t, dims := [d0, d1, d2, d3], strs := [t0, t1, t2, t3], data := da, store := some st, flid := fl },
      f12)

def readInputs (c : CoreId) : Nat → List Nat → Fe → Dev (List Input × Fe)
  | _, [], f => .ok ([], f)
  | i, x :: xs, f => do
    let (v, f1) ← readInput f c i x
    let (vs, f2) ← readInputs c (i + 1) xs f1
    .ok (v :: vs, f2)

/-- Row-major strides of a rank's extents (R378). -/
def rowMajor (dims : List Nat) (rank : Nat) : List Nat :=
  (List.range 4).map (fun i => if i < rank then ((dims.take rank).drop (i + 1)).foldl (· * ·) 1 % 2 ^ 64 else 0)

/-- The result's extents (BCAST). -/
def resultDims (bcast : Bool) (ins : List Input) : List Nat :=
  if bcast then (List.range 4).map (fun i => (ins.map (fun x => nth x.dims i 0)).foldl max 0)
  else match ins with | x :: _ => x.dims | [] => [0, 0, 0, 0]

/-- Words written from an address of bulk memory. -/
def Fe.wrWords (f : Fe) (a : Nat) (ws : List Nat) : Fe := (ws.zipIdx).foldl (fun f e => f.wr (a + 8 * e.2) 8 e.1) f

/-- PIN of each input's storage rises (R379). -/
def Fe.pinAll (c : CoreId) : Fe → List Input → Dev Fe
  | f, [] => .ok f
  | f, x :: xs => match x.store with
    | none => Fe.pinAll c f xs
    | some st => do
      let (w, f1) ← f.rd c (st + 8) 8
      Fe.pinAll c (f1.wr (st + 8) 4 ((field w 31 0 + 1) % 2 ^ 32)) xs

/-- The popped references: n values lose 1 each. -/
def Fe.popAll (c : CoreId) : Nat → Fe → Dev Fe
  | 0, f => .ok f
  | n + 1, f => do
    let (v, f1) ← f.pop c
    let f2 ← f1.count c v false
    Fe.popAll c n f2

/-- The template's record with the fields that the fast path fills (R394). -/
def fastRecord (image : List Nat) (ins : List Input) (a : Nat) : List Nat :=
  let pend := (ins.filter (fun x => field x.tns 1 0 == 1)).map (·.flid)
  let n := ins.length + 1
  (List.range 16).map (fun i =>
    let w := nth image i 0
    if i = 8 then nth pend 0 0
    else if i = 9 then nth pend 1 0
    else if i = 12 then setField (setField w 56 48 (9 * n)) 47 0 (a + 0x80)
    else if i = 14 then setField (setField w 63 48 n) 47 0 (a + 0x160)
    else w)

/-- Words at their homes at once: the launch that follows waits for them (R394, R395). -/
def performAll (s : State) (c : CoreId) (ps : List (Nat × Nat × Nat × List Byte)) : State :=
  ps.foldl (fun s p => (writeTier s p.2.1 p.2.2.1 p.2.2.2).modCore c (fun k => { k with lines := (s.core c).lines })) s

/-- The result's words: the object at a and its storage, with the launch's id (R394). -/
def resultWords (a head word1 bytes id : Nat) (dims strs : List Nat) : List (Nat × Nat × Nat) :=
  (([head, word1] ++ dims ++ strs ++ [a + 0x60, id]).zipIdx.map (fun e => (a + 8 * e.2, 8, e.1))) ++
    ([0xFFFFFE0000000001, 1, a + 0x180, bytes].zipIdx.map (fun e => (a + 0x60 + 8 * e.2, 8, e.1)))

/-- The fast path on a way. The blocks above w22 are written first; once every earlier access is performed and the
queue has room, the pins rise, the record is launched and the result stands, all at once. Every page that is written and
every check precede the launch (R386; `sleeping` says that the blocks are written). -/
def fastPath (b : Bc) (way : Nat) (xs : List Nat) (npop : Nat) (f : Fe) (c : CoreId) : FeOut := do
  let k := f.s.core c
  let tpl := k.ltab + 256 * field way 11 0
  ofCore f.s (checkLocal k tpl 256 8)
  untilD (!unreadyAt k tpl 256) f.s
  let image := localWords k tpl 16
  let map := readLocal k (tpl + 0x80) 8
  if field map 3 0 != xs.length then b.dispatch f c 5
  else do
    let (futs, f0) ← readFutures c xs f
    if futs.any (fun t => decide (2 ≤ t)) then b.dispatch f0 c 6
    else if !k.sleeping && decide (8 ≤ (queueOf f0.s k.ctx (field (nth image 0 0) 11 8)).length) then b.dispatch f0 c 7
    else do
      let (ins, f1) ← readInputs c 0 xs f0
      let dims := resultDims (bitAt map 16) ins
      let rdt := field map 14 8
      let bits := match fmtOf rdt with
        | some g => fmtBits g
        | none => (Config.freeValue (f1.s.fresh + 15)).toNat
      let bytes := alignUp ((dims.foldl (· * ·) 1 * bits + 7) / 8) 64
      let a := f1.w c 22
      if f1.w c 23 < a + 384 + bytes then b.dispatch f1 c 4
      else do
        let x0 := match ins with | x :: _ => x | [] => ⟨0, 0, [], [], 0, none, 0⟩
        let rank := min 4 (field x0.tns 51 48)
        let strs := rowMajor dims rank
        let stores := ins.map (fun x => x.store.getD (Config.freeValue (f1.s.fresh + 14)).toNat)
        let block := [a + 0x180] ++ dims ++ strs ++ ins.flatMap (fun x => [x.data] ++ x.dims ++ x.strs)
        let fb := (f1.wrWords (a + 0x80) block).wrWords (a + 0x160) (stores ++ [a + 0x60])
        let words := fastRecord image ins a
        let bscr := (List.range 16).map (fun i => (k.bscr + 8 * i, nth words i 0))
        let fp ← Fe.pinAll c { f1 with blk := [] } ins
        let (pins, s2) ← places c fp.s fp.blk
        if !recordValid words then do
          let _ ← b.dispatchW { f1 with s := s2 } c 5 (2 ^ 63 + 8)
          let (ps, s3) ← places c s2 fb.blk
          let s4 ← storeWords s3 c bscr.reverse
          let s5 ← postAll s4 c (ps ++ pins)
          b.dispatchW { f1 with s := s5 } c 5 (2 ^ 63 + 8)
        else if !k.sleeping then do
          let (ps, s3) ← places c s2 fb.blk
          let s4 ← postAll s3 c ps
          .error (.wait (s4.modCore c (fun k => { k with sleeping := true })))
        else do
          untilD (releaseReady (s2.core c)) s2
          let head := field x0.hdr 63 40 * 2 ^ 40 + 2 ^ 38 + 1
          let bcls := ((List.range 4).map (fun i => bnat (nth dims i 0 == 1) * 2 ^ i)).foldl (· + ·) 0
          let word1 := rdt * 2 ^ 56 + rank * 2 ^ 48 + bcls * 2 ^ 40 + 1
          let plan (id : Nat) : List (Nat × Nat × Nat) := resultWords a head word1 bytes id dims strs
          let fr ← Fe.popAll c npop { f1 with s := s2, blk := plan 0 }
          let f2 := (fr.push a).setLoc (k.wp + 8 * 22) (a + 384 + bytes)
          let (ps, s3) ← places c f2.s f2.blk
          let _ ← storeWords s3 c (f2.locals c b.next)
          let s4 ← storeWords (performAll s3 c pins) c bscr.reverse
          let (id, s5) ← launchRecord c words s4 s3
          let s6 ← storeWords s5 c (f2.locals c b.next)
          let s7 ← postAll s6 c ((ps.zip (plan id ++ f2.blk.drop (plan id).length)).map (fun e =>
            (e.1.1, e.1.2.1, e.1.2.2.1, toBytes e.2.2.1 e.2.2.2)))
          let s8 := { ringAll s7 c f2.ring with fresh := s7.fresh + 32 }
          .ok (s8.modCore c (fun k => { k with sleeping := false }),
            48 + 2 * ((8 * (block.length + stores.length + 1 + fp.blk.length) + 128 + 63) / 64))

/-- A hit with an operand result (Table 19-5): the fast path, or the way's native target with reason 8. -/
def operandHit (b : Bc) (c : CoreId) (xs : List Nat) (npop : Nat) (fast : Bool) (way cost : Nat) (f : Fe) : FeOut :=
  if bitAt way 25 then
    (if fast then fastPath b way xs npop f c else b.dispatch f c 5)
  else do
    let (s1, n) ← dispatchTo f.s c b.op b.opnd b.slot b.bpc 8 b.next (4 * field way 24 0)
    .ok (s1, cost + n)

/-- LOADATTR on a hit: slot PAY[11:0] is pushed. -/
def loadAttrHit (b : Bc) (c : CoreId) (way cost : Nat) (f : Fe) : FeOut := do
  let (o, f1) ← f.pop c
  let (v, f2) ← f1.rd c (o + 16 + 8 * field way 11 0) 8
  let f3 ← (f2.push v).count c v true
  let f4 ← f3.count c o false
  f4.finish c b.next cost

/-- STOREATTR on a hit: the slot takes v; its old value and the receiver lose 1. -/
def storeAttrHit (b : Bc) (c : CoreId) (way cost : Nat) (f : Fe) : FeOut := do
  let (o, f1) ← f.pop c
  let (v, f2) ← f1.pop c
  let a := o + 16 + 8 * field way 11 0
  let (old, f3) ← f2.rd c a 8
  let f4 ← f3.count c old false
  let f5 ← f4.count c o false
  (f5.wr a 8 v).finish c b.next cost

/-- ISINST on a hit. -/
def isinstHit (b : Bc) (c : CoreId) (way cost : Nat) (f : Fe) : FeOut := do
  let (o, f1) ← f.pop c
  let f2 ← f1.count c o false
  (f2.push (if bitAt way 0 then 4 else 2)).finish c b.next cost

/-- A cached bytecode over n operands. -/
def cachedOp (kind n : Nat) (hit : Bc → CoreId → List Nat → Nat → Nat → Fe → FeOut) (b : Bc) (f : Fe) (c : CoreId) : FeOut := do
  let xs ← f.operands c n
  cached kind xs 0 (hit b c xs) b f c

/-- A call of n arguments: the callee lies below them. -/
def callOp (n : Nat) (b : Bc) (f : Fe) (c : CoreId) : FeOut := do
  let xs ← f.operands c n
  let callee ← f.peek c n
  cached 1 xs callee (operandHit b c xs (n + 1) true) b f c

/-! ### The meanings -/

def execBcConst (k : BitVec 16) (s : State) := bytecodeOp (.bcConst k) k.toNat 0xFFFF 1 bcConstOp s
def execBcLoadl (i : BitVec 8) (s : State) := bytecodeOp (.bcLoadl i) i.toNat 0xFFFF 1 bcLoadlOp s
def execBcStorel (i : BitVec 8) (s : State) := bytecodeOp (.bcStorel i) i.toNat 0xFFFF 0 bcStorelOp s
def execBcLoadg (n : BitVec 16) (s : State) := bytecodeOp (.bcLoadg n) n.toNat 0xFFFF 1 routine s
def execBcStoreg (n : BitVec 16) (s : State) := bytecodeOp (.bcStoreg n) n.toNat 0xFFFF 0 routine s
def execBcLoadattr (n sl : BitVec 16) (s : State) :=
  bytecodeOp (.bcLoadattr n sl) n.toNat sl.toNat 0 (cachedOp 0 1 (fun b c _ => loadAttrHit b c)) s
def execBcStoreattr (n sl : BitVec 16) (s : State) :=
  bytecodeOp (.bcStoreattr n sl) n.toNat sl.toNat 0 (cachedOp 0 1 (fun b c _ => storeAttrHit b c)) s
def execBcLoadidx (sl : BitVec 16) (s : State) :=
  bytecodeOp (.bcLoadidx sl) 0 sl.toNat 0 (cachedOp 3 2 (fun b c xs => operandHit b c xs 2 true)) s
def execBcStoreidx (sl : BitVec 16) (s : State) :=
  bytecodeOp (.bcStoreidx sl) 0 sl.toNat 0 (cachedOp 3 2 (fun b c xs => operandHit b c xs 3 false)) s
def execBcBinary (o : BitVec 8) (sl : BitVec 16) (s : State) :=
  bytecodeOp (.bcBinary o sl) o.toNat sl.toNat 0 (cachedOp 2 2 (fun b c xs => operandHit b c xs 2 true)) s
def execBcUnary (o : BitVec 8) (sl : BitVec 16) (s : State) :=
  bytecodeOp (.bcUnary o sl) o.toNat sl.toNat 0 (cachedOp 2 1 (fun b c xs => operandHit b c xs 1 true)) s
def execBcCompare (o : BitVec 8) (sl : BitVec 16) (s : State) :=
  bytecodeOp (.bcCompare o sl) o.toNat sl.toNat 0 (cachedOp 2 2 (fun b c xs => operandHit b c xs 2 true)) s
def execBcCall (n : BitVec 8) (sl : BitVec 16) (s : State) :=
  bytecodeOp (.bcCall n sl) n.toNat sl.toNat 0 (fun b f c => callOp n.toNat b f c) s
def execBcCallmeth (n : BitVec 8) (sl : BitVec 16) (s : State) :=
  bytecodeOp (.bcCallmeth n sl) n.toNat sl.toNat 0 (fun b f c => callOp (n.toNat + 1) b f c) s
def execBcReturn (s : State) := bytecodeOp .bcReturn 0 0xFFFF 0 routine s
def execBcJump (t : BitVec 16) (s : State) := bytecodeOp (.bcJump t) t.toNat 0xFFFF 0 bcJumpOp s
def execBcJumpt (t : BitVec 16) (s : State) := bytecodeOp (.bcJumpt t) t.toNat 0xFFFF 0 (bcJumpIf true) s
def execBcJumpf (t : BitVec 16) (s : State) := bytecodeOp (.bcJumpf t) t.toNat 0xFFFF 0 (bcJumpIf false) s
def execBcWalk (s : State) := bytecodeOp .bcWalk 0 0xFFFF 1 routine s
def execBcAdvance (t : BitVec 16) (s : State) := bytecodeOp (.bcAdvance t) t.toNat 0xFFFF 1 routine s
def execBcBuildtuple (n : BitVec 8) (s : State) := bytecodeOp (.bcBuildtuple n) n.toNat 0xFFFF (1 - n.toNat) routine s
def execBcBuildlist (n : BitVec 8) (s : State) := bytecodeOp (.bcBuildlist n) n.toNat 0xFFFF (1 - n.toNat) routine s
def execBcUnpack (n : BitVec 8) (s : State) := bytecodeOp (.bcUnpack n) n.toNat 0xFFFF (n.toNat - 1) routine s
def execBcPop (s : State) := bytecodeOp .bcPop 0 0xFFFF 0 bcPopOp s
def execBcDup (s : State) := bytecodeOp .bcDup 0 0xFFFF 1 bcDupOp s
def execBcSwap (s : State) := bytecodeOp .bcSwap 0 0xFFFF 0 bcSwapOp s
def execBcRaise (s : State) := bytecodeOp .bcRaise 0 0xFFFF 0 routine s
def execBcSetuptry (t : BitVec 16) (s : State) := bytecodeOp (.bcSetuptry t) t.toNat 0xFFFF 0 routine s
def execBcPoptry (s : State) := bytecodeOp .bcPoptry 0 0xFFFF 0 routine s
def execBcAwait (s : State) := bytecodeOp .bcAwait 0 0xFFFF 0 bcAwaitOp s
def execBcNewobj (n : BitVec 8) (s : State) := bytecodeOp (.bcNewobj n) n.toNat 0xFFFF 0 routine s
def execBcIsinst (k sl : BitVec 16) (s : State) :=
  bytecodeOp (.bcIsinst k sl) k.toNat sl.toNat 0 (cachedOp 4 1 (fun b c _ => isinstHit b c)) s
def execBcMakefunc (k : BitVec 16) (s : State) := bytecodeOp (.bcMakefunc k) k.toNat 0xFFFF 1 routine s
def execBcLoadclosure (i : BitVec 8) (s : State) := bytecodeOp (.bcLoadclosure i) i.toNat 0xFFFF 1 routine s

end Sys2Proof.Machine
end

