-- ==== Sys2Proof/Machine/CopyEvents.lean ====
section
/-!
DEFINITION. The couches and streamers (R213-R221, R260): the start of a job, the request of a chunk, the read of a beat,
its landing, and the completion and failure of a job. `State.ev.i` names the couch, the job's uid or the beat.
-/
namespace Sys2Proof.Machine

/-- The chunk number after the last chunk of any job. -/
def chunkEnd : Nat := 2 ^ 80

def findJob (s : State) (uid : Nat) : Option Job := s.jobs.find? (fun j => j.uid == uid)
def modJob (s : State) (uid : Nat) (f : Job → Job) : State :=
  { s with jobs := s.jobs.map (fun j => if j.uid == uid then f j else j) }
def dropJob (s : State) (uid : Nat) : State := { s with jobs := s.jobs.filter (fun j => j.uid != uid) }

/-- The status of an id on the issuing core. -/
def setStatus (s : State) (j : Job) (st : JobStatus) : State :=
  s.modCore j.core (fun k => { k with jobs := k.jobs.map (fun e => if e.1 = j.id then (e.1, st) else e) })

/-- The count of R217 falls. -/
def lowerCount (s : State) (j : Job) : State :=
  s.modCore j.core (fun k => { k with ctf := k.ctf - bnat (j.counted == 1), ctb := k.ctb - bnat (j.counted == 2) })

/-- The completion mailbox word (Table 9-3). -/
def jobMailWord (s : State) (j : Job) (err : Bool) : Nat :=
  j.id + bnat err * 2 ^ 16 + classCode j.core.cls * 2 ^ 34 + coreNumber j.core (s.core j.core) * 2 ^ 36

/-- The state of a stage of the job's ring. -/
def setJobStage (s : State) (j : Job) (st : StageState) : State :=
  match j.kind, j.stage with
  | .ring q, some n => s.modRow (rowOf j.core) (fun r =>
      { r with rings := setAt r.rings q (let g := nth r.rings q {}; { g with stages := setAt g.stages n st }) })
  | _, _ => s

/-- A failed job with no beat left on its way lowers its count and leaves (R219). -/
def settleJob (s : State) (uid : Nat) : State :=
  match findJob s uid with
  | some j => if j.phase == .failing && !s.beats.any (fun b => b.uid == uid) then dropJob (lowerCount s j) uid else s
  | none => s

/-- What names a job on its issuing core beside its id: its stage, or its tile there (R220). -/
def jobPlace (s : State) (j : Job) : Option JobPlace :=
  match j.kind, j.stage with
  | .ring q, some n => some (.stage q n)
  | _, _ => (ownTile s j).map .tile

/-- The trap of a failed job, whose record names the `cpy` (R264); queued at once where its firing has retired (R220). -/
def failStatus (s : State) (j : Job) (t : Trap) : State :=
  let k := s.core j.core
  let tr := { t with job := j.id, off := some j.off, obj := some j.obj, async := true }
  if k.run == .idle || k.firings != j.firing then
    pushTrap (setStatus s j (.failed tr true (jobPlace s j) j.firing)) j.core tr
  else setStatus s j (.failed tr false (jobPlace s j) j.firing)

/-- JOB_FAIL (R219). -/
def failJob (s : State) (uid : Nat) (t : Trap) : State :=
  match findJob s uid with
  | none => s
  | some j =>
    if j.phase == .failing then s
    else
      let s1 := failStatus s j t
      let s2 := match ownTile s j with
        | some tl => s1.modCore j.core (fun k => modTile k tl (fun e => { e with err := true }))
        | none => s1
      let s3 := withdrawReqs (setJobStage s2 j .error) (.job uid)
      let s4 := if j.mbx = 0 then s3 else (writeMailbox s3 j.ctx j.mbx (jobMailWord s3 j true)).getD s3
      settleJob (modJob s4 uid (fun j => { j with phase := .failing })) uid

/-- The completion message (R216). -/
def jobMessage (s : State) (j : Job) : Msg :=
  { src := some j.core, ctx := j.ctx, dest := j.msg
    hdr := headerWord (destTag j.msg) j.mid 1 true (destCh j.msg) (classCode j.core.cls) (coreNumber j.core (s.core j.core))
    words := [j.mdata], kind := .enq false, launch := (s.core j.core).launch, off := j.off, obj := j.obj, ch := j.ch
    mid := j.cmid }

/-- JOB_COMPLETE (R216): status, count, mailbox, message; an invalid mailbox or message fails the job. -/
def completeJob (s : State) (j : Job) : State :=
  let msgOk := j.msg == 0 || (match destCheck s j.ctx j.msg (· == 0) with | .ok _ => true | .error _ => false)
  if !msgOk then failJob s j.uid { cause := .fabric, addr := j.msg }
  else
    match (if j.mbx = 0 then some s else writeMailbox s j.ctx j.mbx (jobMailWord s j false)) with
    | none => failJob s j.uid { cause := .fabric, addr := j.mbx }
    | some s1 =>
      let s2 := lowerCount (setStatus (setJobStage s1 j .ready) j .complete) j
      let s3 := if j.msg = 0 then s2 else { s2 with net := s2.net ++ [jobMessage s2 j] }
      dropJob s3 j.uid

/-- A running job whose chunks have all landed completes. -/
def finishJob (s : State) (uid : Nat) : State :=
  match findJob s uid with
  | some j => if j.phase == .running chunkEnd && j.left.isEmpty then completeJob s j else s
  | none => s

/-! ### Starting (R214, R215, R221) -/

/-- The next job of a couch's queue. -/
def nextQueued (s : State) (couch : Nat) : Option Job := s.jobs.find? (fun j => j.couch == couch && j.phase == .queued)

/-- What a job waits for before it starts. -/
def jobReady (s : State) (j : Job) : Bool :=
  (match j.prev with
   | some u => !s.jobs.any (fun x => x.uid == u && x.phase != .failing)
   | none => true) &&
  (match j.kind with
   | .ring q => j.extent == 0 ||
       (let r := nth (s.row (rowOf j.core)).rings q {}
        r.count != 0 && nth r.stages r.tail .error == .empty)
   | _ => true)

/-- A kind 1 job claims the stage at the tail. -/
def claimStage (s : State) (j : Job) : State × Job :=
  match j.kind with
  | .ring q =>
    let r := nth (s.row (rowOf j.core)).rings q {}
    let r' := { r with stages := setAt r.stages r.tail .filling, tail := (r.tail + 1) % max 1 r.count }
    (s.modRow (rowOf j.core) (fun x => { x with rings := setAt x.rings q r' }), { j with stage := some r.tail })
  | _ => (s, j)

/-- COPY_JOB_START: the next job of a couch starts; a job with a zero extent is done at its turn. -/
def startJob (s : State) (couch : Nat) : State :=
  match nextQueued s couch with
  | none => s
  | some j =>
    if !jobReady s j then s
    else if j.extent = 0 then completeJob s j
    else
      let r := claimStage s j
      modJob r.1 j.uid (fun _ => { r.2 with phase := .running ((j.nextChunk 0).getD chunkEnd) })

def execCopyJobStart (s : State) : Host.Outcome State Fault Refusal := eventOp (fun s => startJob s s.ev.i) s

/-! ### Requesting a chunk (R218) -/

/-- The request of a job for a translation. -/
def jobReq (s : State) (j : Job) (va kind : Nat) : TReq :=
  { ctx := j.ctx, va := va, kind := kind, who := .job j.uid, job := j.id, cls := classCode j.core.cls
    core := coreNumber j.core (s.core j.core) }

/-- A home for a piece of a job, or its failure, or a wait. -/
inductive PieceHome where
  | ok (h : Home) (s : State)
  | fail (t : Trap)
  | wait (s : State)
deriving Repr

/-- The home of n bytes at an address that a job reads or writes. -/
def pieceHome (s : State) (j : Job) (va n : Nat) (write : Bool) : PieceHome :=
  if isBulk va then
    match translate s j.couch (domainOf j.core) (jobReq s j va (bnat write)) with
    | .ok t pa s1 => .ok (.bulk t pa) s1
    | .fail sub => .fail { cause := .bulk, sub := sub, addr := va }
    | .wait s1 => .wait s1
  else match fabricHome s j.core j.ctx va n write with
    | .ok h => .ok h s
    | .error e => .fail { cause := .fabric, sub := e.2, addr := va }

/-- The logical core whose tiles a push to a logical core lands in: a checker's store and tables are its primary's, which
every push to either reaches (R442). -/
def pairedAs (s : State) (ctx n : Nat) : Nat :=
  match placedAs s ctx n with
  | some c => if (s.core c).pst == .checker then (s.core (coreAt (rowOf c) (s.core c).partner)).logical else n
  | none => n

/-- Where a piece lands: a home with its context address, and the tile whose state the landing checks. -/
def pieceDest (s : State) (j : Job) (q : Nat) (p : Piece) : PieceHome × Nat × Option (CoreId × Nat) :=
  match j.kind with
  | .tile t => (.ok (.core j.core p.off) s, 0x20000 * (s.core j.core).logical, some (j.core, t))
  | .ring n =>
    let r := nth (s.row (rowOf j.core)).rings n {}
    (.ok (.row (rowOf j.core) (r.base + r.size * j.stage.getD 0 + p.off)) s, 0, none)
  | .addr => (pieceHome s j (j.dst + p.off) p.len true, j.dst + p.off, none)
  | .slab t _ w _ c =>
    let n := pairedAs s j.ctx (participant j.dst w c q)
    let va := 0x20000 * n
    (match mapCore s j.ctx n with
     | .core k => (.ok (.core k p.off) s, va, some (k, t))
     | .away => (.ok (.away n) s, va, some (⟨.compute, 0⟩, t))
     | .unmapped => (.fail { cause := .fabric, addr := va }, va, none))

/-- The beats of the pieces of a chunk: all of them, or the failure or the wait of the first that has no home. -/
def chunkBeats (j : Job) (c : Nat) : State → List Piece → List Beat → Except (Trap ⊕ State) (State × List Beat)
  | s, [], acc => .ok (s, acc)
  | s, p :: ps, acc =>
    match pieceHome s j p.src p.len false with
    | .fail t => .error (.inl t)
    | .wait s1 => .error (.inr s1)
    | .ok h s1 =>
      match pieceDest s1 j (c / 2 ^ 40) p with
      | (.fail t, _, _) => .error (.inl t)
      | (.wait s2, _, _) => .error (.inr s2)
      | (.ok d s2, va, tl) =>
        chunkBeats j c s2 ps (acc ++ [{ uid := j.uid, ctx := j.ctx, chunk := c, src := h, sva := p.src
                                        dst := match d with | .away _ => .core ⟨.compute, 0⟩ p.off | x => x
                                        dva := va, len := p.len, tile := tl, born := s2.tlbn
                                        sbig := bigAt s1 j.couch j.ctx p.src, dbig := bigAt s2 j.couch j.ctx va }])

/-- CHUNK_REQUEST: the job's next chunk is translated and requested; it waits, or the job fails. -/
def requestChunk (s : State) (uid : Nat) : State :=
  match findJob s uid with
  | none => s
  | some j =>
    match j.phase with
    | .running c =>
      if chunkEnd ≤ c then s
      else match chunkBeats j c s (j.pieces c) [] with
        | .error (.inl t) => failJob s uid t
        | .error (.inr s1) => s1
        | .ok (s1, bs) =>
          modJob { s1 with beats := s1.beats ++ bs } uid (fun j =>
            { j with phase := .running ((j.nextChunk (c + 1)).getD chunkEnd), left := j.left ++ [(c, bs.length)] })
    | _ => s

def execChunkRequest (s : State) : Host.Outcome State Fault Refusal := eventOp (fun s => requestChunk s s.ev.i) s

/-! ### Streamers and beats (R213, R260) -/

def dropBeat (s : State) (i : Nat) : State := { s with beats := dropAt s.beats i }

/-- A beat that cannot be read or written fails its job. -/
def failBeat (s : State) (i : Nat) (b : Beat) (t : Trap) : State := settleJob (failJob (dropBeat s i) b.uid t) b.uid

/-- The couch that requested a beat. -/
def beatCouch (s : State) (b : Beat) : Option Nat := (findJob s b.uid).map (·.couch)

/-- An earlier request of the same couch to the same reading agent has not been taken: requests of one source over one
route are taken in order of arrival, and the beats of one chunk in any order (R260). -/
def readBehind (s : State) (i : Nat) (b : Beat) : Bool :=
  (s.beats.take i).any (fun x => x.data.isNone && !(x.uid == b.uid && x.chunk == b.chunk) &&
    beatCouch s x == beatCouch s b && homeUnit s x.sva x.src == homeUnit s b.sva b.src)

/-- An earlier write beat of the same reading agent to the same streamer has not been taken (R260). -/
def writeBehind (s : State) (i : Nat) (b : Beat) : Bool :=
  match b.dst with
  | .bulk _ _ => (s.beats.take i).any (fun x => x.data.isSome && x.tile.isNone &&
      homeUnit s x.sva x.src == homeUnit s b.sva b.src && homeUnit s x.dva x.dst == homeUnit s b.dva b.dst)
  | _ => false

/-- STREAMER_REQUEST: the reading agent reads a beat's source and pushes it: the beat goes behind those pushed before. A
tier whose streamer is down fails it with BULK 0x04, a poisoned read of the CXL tier (also `ok` false) with BULK 0x06
(R468; log 18). -/
def readBeat (s : State) (i : Nat) (ok : Bool) : State :=
  match s.beats[i]? with
  | none => s
  | some b =>
    if b.data.isSome || readBehind s i b then s
    else match homeNow s b.ctx b.sva b.src with
      | none => s
      | some h =>
        match h, ok && !(match h with | .bulk 2 pa => s.poison.contains (pa / 64) | _ => false) with
        | .bulk 2 _, false => failBeat s i b { cause := .bulk, sub := 6, addr := b.sva }
        | _, _ =>
          let down := match h with | .bulk t pa => !streamerReady s t pa | _ => false
          if down then failBeat s i b { cause := .bulk, sub := 4, addr := b.sva }
          else
            let r := readHome s b.ctx h b.len
            { r.2 with beats := dropAt r.2.beats i ++ [{ b with data := some r.1 }] }

/-- An expander's line becomes poisoned (`how` 1), or sound again (2): what stands in its memory is the outside's (R468;
log 18). -/
def markPoison (s : State) (how line : Nat) : State :=
  let rest := s.poison.filter (· != line)
  { s with poison := if how = 1 then line :: rest else rest }

/-- `ev.j` 0: beat `ev.i` is read; else line `ev.w` of the CXL tier is poisoned or sound. -/
def execStreamerRequest (s : State) : Host.Outcome State Fault Refusal :=
  eventOp (fun s => if s.ev.j = 0 then readBeat s s.ev.i s.ev.ok else markPoison s s.ev.j s.ev.w) s

/-- A chunk of a tile has finished (Table 9-1). -/
def finishTileChunk (e : Tile) (c : Nat) : Tile :=
  if e.st = .filling then
    let a := natOr e.arr (2 ^ c)
    { e with arr := a, st := if natAnd e.exp a = e.exp then .ready else .filling }
  else { e with err := true }

/-- CHUNK_FINISH (R206): one beat fewer of a chunk; with its last the chunk is finished. -/
def finishBeat (s : State) (b : Beat) (tile : Option (CoreId × Nat)) : State :=
  match findJob s b.uid with
  | none => s
  | some j =>
    if j.phase == .failing then settleJob s b.uid
    else
      let n := (alookup b.chunk j.left).getD 1
      if 1 < n then modJob s b.uid (fun j => { j with left := j.left.map (fun e => if e.1 = b.chunk then (e.1, n - 1) else e) })
      else
        let s1 := modJob s b.uid (fun j => { j with left := aerase b.chunk j.left, landed := j.landed ++ [b.chunk] })
        let s2 := match tile with
          | some (c, t) => s1.modCore c (fun k => modTile k t (fun e => finishTileChunk e (b.chunk % 2 ^ 40)))
          | none => s1
        finishJob s2 b.uid

/-- The core that holds a beat's tile now: its own core, or the core of the logical number that dva names. -/
def beatCore (s : State) (b : Beat) (c : CoreId) : Option CoreId :=
  if c.cls == .compute then windowCore s b.ctx b.dva else if coreAway (s.core c) then none else some c

/-- The offset of a beat in its tile. -/
def beatOff (b : Beat) : Nat := match b.dst with | .core _ a => a | _ => 0

/-- A beat lands in a tile: the bytes, then the chunk; a slab's row that does not fit, or that finds the tile not
filling, sets ERR and fails the job (R212). -/
def landInTile (s : State) (i : Nat) (b : Beat) (bs : List Byte) (slab : Bool) (c : CoreId) (t : Nat) : State :=
  let e := nth (s.core c).tiles t {}
  let fits := decide (beatOff b + b.len ≤ 512 * e.nch)
  let s1 := if fits then s.modCore c (fun k => deliver k (e.base + beatOff b) bs) else s
  let s2 := dropBeat s1 i
  if slab && (!fits || e.st != .filling) then
    let s3 := match findJob s2 b.uid with
      | some j => if j.phase == .failing then s2 else s2.modCore c (fun k => modTile k t (fun e => { e with err := true }))
      | none => s2
    settleJob (failJob s3 b.uid { cause := .fabric, addr := b.sva }) b.uid
  else finishBeat s2 b (some (c, t))

/-- BEAT_LANDING: a beat that has been read lands at its destination. -/
def landBeat (s : State) (i : Nat) : State :=
  match s.beats[i]? with
  | none => s
  | some b =>
    match b.data with
    | none => s
    | some bs =>
      let slab := match findJob s b.uid with
        | some j => (match j.kind with | .slab _ _ _ _ _ => true | _ => false)
        | none => false
      match b.tile with
      | some (c0, t) =>
        match beatCore s b c0 with
        | none => s
        | some c => landInTile s i b bs slab c t
      | none =>
        if writeBehind s i b then s
        else match homeNow s b.ctx b.dva b.dst with
        | none => s
        | some h =>
          let down := match h with | .bulk t pa => !streamerReady s t pa | _ => false
          if down then failBeat s i b { cause := .bulk, sub := 4, addr := b.dva }
          else finishBeat (dropBeat (writeHome s b.ctx h bs) i) b none

def execBeatLanding (s : State) : Host.Outcome State Fault Refusal := eventOp (fun s => landBeat s s.ev.i) s

end Sys2Proof.Machine
end

