-- ==== Sys2Proof/Machine/KilnEvents.lean ====
section
/-!
DEFINITION. The kiln after acceptance (R161-R167, R67-R70), the issue windows (R451, R453) and the governor (R448-R450).
`State.ev.i` is the row or island, `ev.j` the operation's uid.
-/
namespace Sys2Proof.Machine

/-! ### Elements (R156, R157) -/

/-- The code of element idx from a base byte, of a width in bits; narrow elements pack from the low bits (R49). -/
def elemCode (get : Nat → Byte) (base bits idx : Nat) : Nat :=
  if bits < 8 then (get (base + idx * bits / 8)).toNat / 2 ^ (idx * bits % 8) % 2 ^ bits
  else ofBytes ((List.range (bits / 8)).map (fun i => get (base + idx * (bits / 8) + i)))

/-- An element of A: row i, K-step κ, with its block scale. -/
def elemA (f : Fmt) (get : Nat → Byte) (base : Nat) (κ : Nat) : Val :=
  let bits := fmtBits f
  let v := decodeFmt (baseFmt f) (elemCode get base bits κ)
  if isBlocked f then scaled (get (base + 8 * bits + κ / 32)).toNat v else v

/-- An element of B: K-step κ, column j, with its block scale. -/
def elemB (f : Fmt) (get : Nat → Byte) (base : Nat) (κ j : Nat) : Val :=
  let bits := fmtBits f
  let v := decodeFmt (baseFmt f) (elemCode get base bits (64 * κ + j))
  if isBlocked f then scaled (get (base + 512 * bits + 2 * j + κ / 32)).toNat v else v

/-! ### Exact sums (R68, R69) -/

/-- The exact sum of the products of decoded operands, and whether it is invalid (IE). -/
def stageSum (ps : List (Val × Val)) : Val × Bool :=
  let bad := ps.any (fun p => p.1.isNan || p.2.isNan || (p.1.isInf && p.2.isZero) || (p.1.isZero && p.2.isInf))
  let prods := ps.map (fun p => mulExact p.1 p.2)
  let pos := prods.any (fun v => v.isInf && !v.isNeg)
  let neg := prods.any (fun v => v.isInf && v.isNeg)
  if bad || (pos && neg) then (.nan false, true)
  else if pos then (.inf false, false)
  else if neg then (.inf true, false)
  else
    let lo := prods.foldl (fun m v => min m v.expo) 0
    let t := prods.foldl (fun a v => a + alignTo lo v) (0 : Int)
    (if t = 0 then .fin false 0 0 else .fin (decide (t < 0)) t.natAbs lo, false)

/-- An accumulator after a stage: its pattern and flags. -/
def addStage (acc : Nat) (old : Nat) (s : Val × Bool) : Nat × Nat :=
  let ie := if s.2 then flIE else 0
  if acc = 2 then
    let r := satInt .s32 (toSigned 32 old + s.1.toInt)
    (r.code, r.flags)
  else
    let r := cvtArith .fp32 .rne 0 (addExact .rne (decodeFmt .fp32 old) s.1)
    (r.code, natOr ie r.flags)

/-! ### Operations of a row -/

def findOp (s : State) (row uid : Nat) : Option KOp := (s.row row).kops.find? (fun o => o.uid == uid)
def modOp (s : State) (row uid : Nat) (f : KOp → KOp) : State :=
  s.modRow row (fun r => { r with kops := r.kops.map (fun o => if o.uid == uid then f o else o) })

/-- The operation has a slip phase (Table 7-3). -/
def KOp.needsSlip (o : KOp) : Bool := match o.kind with | .slip => true | .clr => false | .mm _ _ _ _ _ => o.ctx.slip

def KOp.slices (o : KOp) : List Nat := o.parts.map (·.k)

/-- Two operations share a slice. -/
def meetOps (a b : KOp) : Bool := a.slices.any b.slices.contains

/-- The operations accepted before one that share a slice with it. -/
def before (s : State) (row : Nat) (o : KOp) : List KOp :=
  ((s.row row).kops.takeWhile (fun x => x.uid != o.uid)).filter (meetOps o)

/-- The row-store address of the stage that an operation took. -/
def stageAddr (s : State) (row : Nat) (o : KOp) : Nat :=
  match o.ring with
  | some q => let g := ringOf s row q; g.base + g.size * o.stage
  | none => 0

/-- The flags of a list of results. -/
def orFlags (l : List Rnd) : Nat := l.foldl (fun a r => natOr a r.flags) 0

/-! ### SLIP_PHASE_START (R161, R164, R165) -/

/-- W(κ, κ′) of a row. -/
def slipW (r : Row) (κ κ' : Nat) : Val := decodeFmt .bf16 (memRead r.slip (2 * (64 * κ + κ')) 2)

/-- The expanded B of `.x`: 64 rows of n codes. -/
def expandB (s : State) (row : Nat) (o : KOp) (n : Nat) : List Rnd :=
  let r := s.row row
  let a := stageAddr s row o
  let e5 := match o.parts with | p :: _ => e5o (s.core (coreAt row p.k)) | [] => false
  let lat (κ' j : Nat) : Val := decodeFmt .bf16 (memRead r.rs (a + 128 * κ' + 2 * j) 2)
  (List.range 64).flatMap (fun κ => (List.range n).map (fun j =>
    slipRound e5 (ctxFmt o.ctx.bf) (stageSum ((List.range 64).map (fun κ' => (slipW r κ κ', lat κ' j))))))
where
  /-- A slip sum narrowed once with RNE (R58). -/
  slipRound (e5 : Bool) (f : Fmt) (v : Val × Bool) : Rnd :=
    let r := cvt f e5 .rne 0 v.1
    { r with flags := natOr r.flags (if v.2 then flIE else 0) }

/-- The row of A of a part, as the core reads it. -/
def partRow (row : Nat) (p : KPart) (i : Nat) : CoreId × Nat := (coreAt row p.k, p.base + p.off + i * p.stride)

/-- The absorbed A of `.a` for one slice: m rows of 64 codes. -/
def absorbA (s : State) (row : Nat) (o : KOp) (p : KPart) : List Rnd :=
  let r := s.row row
  let k := s.core (coreAt row p.k)
  let f := ctxFmt o.ctx.af
  (List.range p.m).flatMap (fun i =>
    let a := (List.range 64).map (elemA f (localByte k) (p.base + p.off + i * p.stride))
    (List.range 64).map (fun κ' =>
      expandB.slipRound (e5o k) f (stageSum ((List.range 64).map (fun κ => (nth a κ (.fin false 0 0), slipW r κ κ'))))))

/-- The slip phase of a row's next operation with slip work. -/
def slipPhase (s : State) (row : Nat) : State :=
  match (s.row row).kops.find? (fun o => o.needsSlip && o.phase == .accepted) with
  | none => s
  | some o =>
    match o.kind with
    | .slip =>
      let a := stageAddr s row o
      let s1 := s.modRow row (fun r => { r with slip := memShiftDown (memSlice r.rs a (a + 8192)) a, slipLoaded := true })
      modOp s1 row o.uid (fun o => { o with phase := .slipDone })
    | .mm true _ n _ _ =>
      let b := expandB s row o n
      modOp s row o.uid (fun o => { o with
        phase := .slipDone, slipB := b.map (·.code), flags := o.parts.map (fun p => (p.k, orFlags b)) })
    | .mm false _ _ _ _ =>
      let as := o.parts.map (fun p => (p.k, absorbA s row o p))
      modOp s row o.uid (fun o => { o with
        phase := .slipDone, slipA := as.map (fun e => (e.1, e.2.map (·.code))), flags := as.map (fun e => (e.1, orFlags e.2)) })
    | .clr => s

def execSlipPhaseStart (s : State) : Host.Outcome State Fault Refusal := eventOp (fun s => slipPhase s s.ev.i) s

/-! ### KILN_PHASE_START (R167, R68-R70) -/

/-- A slice's accumulators with an operation's shadow copied in. -/
def applyShadow (o : KOp) (k : Nat) (acc : Mem) : Mem :=
  match o.kind with
  | .clr => []
  | .slip => acc
  | .mm _ _ n _ _ =>
    let sh := (alookup k o.shadow).getD []
    let m := match o.parts.find? (fun p => p.k == k) with | some p => p.m | none => 0
    (List.range m).foldl (fun acc i => memCopy acc (256 * i) sh (256 * i) (4 * n)) acc

/-- The A operand of one slice: value (i, κ). -/
def operandA (s : State) (row : Nat) (o : KOp) (p : KPart) (i κ : Nat) : Val :=
  match alookup p.k o.slipA with
  | some cs => decodeFmt (baseFmt (ctxFmt o.ctx.af)) (nth cs (64 * i + κ) 0)
  | none =>
    let a := partRow row p i
    elemA (ctxFmt o.ctx.af) (localByte (s.core a.1)) a.2 κ

/-- The B operand: value (κ, j). -/
def operandB (s : State) (row : Nat) (o : KOp) (n κ j : Nat) : Val :=
  if o.slipB.isEmpty then elemB (ctxFmt o.ctx.bf) (memGet (s.row row).rs) (stageAddr s row o) κ j
  else decodeFmt (baseFmt (ctxFmt o.ctx.bf)) (nth o.slipB (n * κ + j) 0)

/-- The shadow of one slice and its flags. -/
def sliceResult (s : State) (row : Nat) (o : KOp) (kcount n : Nat) (zero : Bool) (b : List (List Val)) (p : KPart) : Mem × Nat :=
  let acc := (before s row o).foldl (fun a x => applyShadow x p.k a) (s.core (coreAt row p.k)).acc
  (List.range p.m).foldl (fun r i =>
    let a := (List.range kcount).map (operandA s row o p i)
    (List.range n).foldl (fun (r : Mem × Nat) j =>
      let old := if zero then 0 else accCell acc i j
      let x := addStage o.ctx.acc old (stageSum (a.zip (nth b j [])))
      (memWrite r.1 (256 * i + 4 * j) 4 x.1, natOr r.2 x.2)) r) ([], (alookup p.k o.flags).getD 0)

/-- The local address of byte n of a slice's A operand, its rows one after another. -/
def byteOfA (o : KOp) (p : KPart) (n : Nat) : Nat :=
  let w := rowABytes o.ctx.af
  p.base + p.off + n / w % max 1 p.m * p.stride + n % w

/-- A fault of an operation (R167): HWFAULT halts its context. `bad` 1 is a failed read of A, of byte `at'` of the operand
of part `i`, `bad` 2 one of byte `at'` of B's stage, and the record has the address whose read failed (Table 12-1);
otherwise a residue does not agree. -/
def opFault (s : State) (row : Nat) (o : KOp) (bad i at' : Nat) : State :=
  let ctx := o.launch / 2 ^ 52
  match (o.parts[i]?).or o.parts.head? with
  | none => s
  | some p =>
    let c := coreAt row p.k
    match bad with
    | 1 =>
      let a := byteOfA o p at'
      noteUncorrectable (haltContext s ctx (some c) { cause := .hwfault, addr := a } (sagInCore s c)) row
        (faultKey (some c) (a / 8 * 8))
    | 2 =>
      let a := stageAddr s row o + at' % max 1 (match o.ring with | some q => (ringOf s row q).size | none => 1)
      noteUncorrectable (haltContext s ctx (some c) { cause := .hwfault, addr := a } (sagInRow s row)) row
        (faultKey none (a / 8 * 8))
    | _ => noteResidue (haltContext s ctx (some c) { cause := .hwfault } (fun _ => false)) row

/-- The kiln phase of an operation, once its slip phase is over and the earlier operations of its slices have theirs. -/
def kilnPhase (s : State) (row uid : Nat) (ok : Bool) (bad i at' : Nat) : State :=
  match findOp s row uid with
  | none => s
  | some o =>
    let ready := o.phase == (if o.needsSlip then .slipDone else .accepted) && (before s row o).all (fun x => x.phase == .kiln)
    if !ready then s
    else if !ok then opFault s row o bad i at'
    else match o.kind with
      | .mm _ kcount n zero _ =>
        let b := (List.range n).map (fun j => (List.range kcount).map (fun κ => operandB s row o n κ j))
        let rs := o.parts.map (fun p => (p.k, sliceResult s row o kcount n zero b p))
        modOp s row uid (fun o => { o with
          phase := .kiln, shadow := rs.map (fun e => (e.1, e.2.1)), flags := rs.map (fun e => (e.1, e.2.2)) })
      | _ => modOp s row uid (fun o => { o with phase := .kiln })

def execKilnPhaseStart (s : State) : Host.Outcome State Fault Refusal :=
  eventOp (fun s => kilnPhase s s.ev.i s.ev.j s.ev.ok s.ev.k (s.ev.nats.headD 0) s.ev.w) s

/-! ### KILN_RETIRE (R158, R162, R167, R67) -/

/-- Stages popped in bind order while the oldest one's operation has retired. -/
def popRetired : Nat → Ring → Ring
  | 0, g => g
  | n + 1, g =>
    match g.taken with
    | (_, st, true) :: rest =>
      popRetired n { g.setStage st .empty with taken := rest, head := (st + 1) % max 1 g.count }
    | _ => g

/-- A slice's share of a retirement. -/
def retireSlice (o : KOp) (p : KPart) (k : Core) : Core :=
  let k1 := orSticky { k with acc := applyShadow o p.k k.acc } ((alookup p.k o.flags).getD 0)
  { k1 with kout := k1.kout - 1, kheld := k1.kheld.erase p.tile }

def retireOp (s : State) (row uid : Nat) : State :=
  match findOp s row uid with
  | none => s
  | some o =>
    if o.phase != .kiln || !(before s row o).isEmpty then s
    else
      let s1 := o.parts.foldl (fun s p => s.modCore (coreAt row p.k) (retireSlice o p)) s
      let s2 := s1.modRow row (fun r => { r with kops := r.kops.filter (fun x => x.uid != uid) })
      match o.ring with
      | none => s2
      | some q =>
        let g := ringOf s2 row q
        let g' := popRetired 16 { g with taken := g.taken.map (fun t => if t.1 = uid then (t.1, t.2.1, true) else t) }
        let out := (g.taken.take (g.taken.length - g'.taken.length)).map (fun t => t.2.1)
        (modRing s2 row q (fun _ => g')).modRow row (fun r => { r with
          kops := r.kops.map (fun x => if x.ring == some q && out.contains x.stage then { x with popped := true } else x) })

def execKilnRetire (s : State) : Host.Outcome State Fault Refusal := eventOp (fun s => retireOp s s.ev.i s.ev.j) s

/-- KILN_ACCEPT: the next request of a row that passes. -/
def execKilnAccept (s : State) : Host.Outcome State Fault Refusal := eventOp (fun s => acceptRow s s.ev.i none) s

/-! ### ISSUE_WINDOW (R448, R449, R451, R453) -/

/-- The island at the start of its next window: allowance and debt, the window counted where something waited, and a
requested point in force, with the pause that follows it (R448). A request made in the pause waits for the next boundary;
no point above OPT comes into force (R450). -/
def nextWindow (gov : Nat) (i : Island) : Island :=
  let a := min (min i.budget gov * 1024) (i.used + i.step * 1024)
  { i with
    allow := a, debt := i.debt + i.used - i.allow, used := 0, waited := false
    swin := if i.waited then min 0xFFFFFFFF (i.swin + 1) else i.swin
    cur := min (i.changeTo.getD i.cur) i.opt
    changing := i.changing || min (i.changeTo.getD i.cur) i.opt != i.cur
    changeTo := none }

/-- Waiting leave requests served in arrival order, until one is not admitted. -/
def serveLeave (n : Nat) : Nat → State → State
  | 0, s => s
  | fuel + 1, s =>
    let i := nth s.islands n {}
    match i.waits with
    | [] => s
    | (c, r) :: rest =>
      if admitted i (r * i.lgrant) then
        let s1 := modIsland s n (fun i => { i with used := i.used + r * i.lgrant, waits := rest })
        serveLeave n fuel (s1.modCore c (fun k => { k with lgot := some r }))
      else modIsland s n (fun i => { i with waited := true })

def issueWindow (s : State) (n : Nat) : State :=
  let i := nth s.islands n {}
  if 16 ≤ n ∨ i.changing then s
  else
    let s1 := modIsland s n (nextWindow s.gov)
    serveLeave n (i.waits.length + 1) s1

def execIssueWindow (s : State) : Host.Outcome State Fault Refusal := eventOp (fun s => issueWindow s s.ev.i) s

/-- POINT_CHANGE_END (R448): the pause is over. -/
def pointChangeEnd (s : State) (n : Nat) : State :=
  let i := nth s.islands n {}
  if 16 ≤ n ∨ !i.changing then s
  else modIsland s n (fun i => { i with changing := false })

def execPointChangeEnd (s : State) : Host.Outcome State Fault Refusal := eventOp (fun s => pointChangeEnd s s.ev.i) s

/-! ### GOVERNOR_TICK (R450): `ev.w` is the power measured, in W -/

def governorTick (s : State) (w : Nat) : State :=
  let p := w % 2048
  let g := if s.plimit < p then max 64 (s.gov - 64) else if p + 60 ≤ s.plimit then min 1024 (s.gov + 32) else s.gov
  let low := g = 64 ∧ s.plimit < p
  let point (i : Island) : Island :=
    if low ∧ 0 < i.cur then { i with changeTo := some (i.cur - 1) }
    else if g = 1024 ∧ i.cur < i.opt then { i with changeTo := some (i.cur + 1) }
    else i
  { s with pmeas := p, gov := g, islands := s.islands.map point }

def execGovernorTick (s : State) : Host.Outcome State Fault Refusal := eventOp (fun s => governorTick s s.ev.w) s

end Sys2Proof.Machine
end

