-- ==== Sys2Proof/Machine/Gateway.lean ====
section
/-!
DEFINITION. Barriers (R244), the gateway cores' instructions (R245, R246), and the links and hops: landing, forwarding,
sending, retries, retraining and failure (R440, R441, R468-R471).
-/
namespace Sys2Proof.Machine

/-! ### gbar (R244) -/

/-- The cores that meet at a core's barriers: its gang, or on the system die all of its launch's cores. -/
def barrierCores (s : State) (c : CoreId) : List CoreId :=
  let k := s.core c
  match coreLaunch s k with
  | none => [c]
  | some l =>
    let gs := if c.cls == .compute then l.gangs.filter (fun g => g.idx == k.gang) else l.gangs
    (gs.flatMap (fun g => g.members.map (·.2))).filter (fun x => (s.core x).pst != .checker)

/-- Every participant has arrived at the barrier of this count. -/
def barrierMet (s : State) (c : CoreId) : Bool :=
  (barrierCores s c).all (fun x => let k := s.core x
    k.life == .active && sameLaunch (s.core c) k && k.gbarc == (s.core c).gbarc && k.gbarIn.isSome && k.gbarOut.isNone)

/-- The OR of all arrivals. -/
def arrivals (s : State) (c : CoreId) : Nat := (barrierCores s c).foldl (fun a x => natOr a ((s.core x).gbarIn.getD 0)) 0

/-- Step 3 on one core: the flags word and D take the OR; the count rises. A flag that an engine has raised in the word since
the arrival stays set (R64; log 88). -/
def leaveBarrier (d : Spec) (v : Nat) (c : CoreId) (s : State) : Dev State := do
  let s1 := s.modCore c (fun k => { setWsWord k 0x390 (natOr v (stickyWord k)) with gbarIn := none, gbarOut := none, gbarc := (k.gbarc + 1) % 2 ^ 16 })
  dstZ s1 c d v

def gbarOp (d : Spec) (c : CoreId) (s : State) : Dev State := do
  let _ ← dstZ s c d 0
  let k := s.core c
  match k.gbarOut with
  | some v => leaveBarrier d v c s
  | none =>
    untilD k.gbarIn.isNone s
    untilD (releaseReady k) s
    let fl := stickyWord k
    if (barrierCores s c).all (· == c) then leaveBarrier d fl c s
    else .error (.wait (s.modCore c (fun k => { k with gbarIn := some fl })))

def execGbar (d : Spec) (s : State) : Host.Outcome State Fault Refusal := nativeOp (.gbar d) (fun _ => 1) (gbarOp d) s

/-- GBAR_RELEASE: the barrier at which `ev.core` waits releases once all have arrived. -/
def gbarRelease (s : State) (c : CoreId) : State :=
  if (s.core c).gbarIn.isNone || !barrierMet s c then s
  else
    let v := arrivals s c
    (barrierCores s c).foldl (fun s x => s.modCore x (fun k => { k with gbarOut := some v })) s

def execGbarRelease (s : State) : Host.Outcome State Fault Refusal := eventOp (fun s => gbarRelease s s.ev.core) s

/-! ### gq.get (R245, R441, R470) -/

/-- The link of a gateway core, and the core's number on it. -/
def linkOf (c : CoreId) : Nat := c.idx / 4

/-- The landing slot of a block (R470). -/
def landingSlot (l : Link) (blk : Nat) : Nat := blk / 4 % max 1 l.slots
def landingAddr (l : Link) (blk : Nat) : Nat := l.lbase + l.lstr * landingSlot l blk

def gqOp (d : Spec) (c : CoreId) (s0 : State) : Dev State := do
  let _ ← dstZ s0 c d 0
  let g := c.idx % 4
  let s := modLink s0 (linkOf c) (fun l => { l with held := l.held.filter (fun h => h.1 != g) })
  let l := nth s.links (linkOf c) {}
  match l.landed.find? (fun b => b.1 % 4 == g) with
  | some b =>
    let s1 := modLink s (linkOf c) (fun l => { l with
      landed := l.landed.erase b, handed := l.handed + 1, held := l.held ++ [(g, landingSlot l b.1)] })
    dstZ s1 c d (b.1 + 2 ^ 32 * b.2)
  | none =>
    if l.nblk ≤ l.handed then dstZ s c d (2 ^ 64 - 1)
    else if l.down && l.landed.isEmpty then dstZ s c d (2 ^ 64 - 2)
    else .error (.wait s)

def execGqGet (d : Spec) (s : State) : Host.Outcome State Fault Refusal := nativeOp (.gqGet d) (fun _ => 1) (gqOp d) s

/-! ### badd.rq (R246) -/

/-- The bytes of a block of g groups. -/
def blockBytes (f : Fmt) (g : Nat) : Nat := 4 * fmtBits f * g + g

/-- The values of group grp of a block. -/
def groupVals (k : Core) (f : Fmt) (base g grp : Nat) : List Val :=
  let scale := (localByte k (base + 4 * fmtBits f * g + grp)).toNat
  (List.range 32).map (fun e =>
    scaled scale (decodeFmt (baseFmt f) (elemCode (localByte k) base (fmtBits f) (32 * grp + e))))

/-- Each group's codes and scale, with the flags and the draw index after all. The sign that R62 gives an exact sum of zero
is for results in FP32, FP16 and BF16; an element sum of `badd.rq` that is exactly zero has the sign of RNE under every
mode (log 88, DESIGN CHOICE). -/
def sumGroups (k : Core) (f : Fmt) (rm : RMode) (x c g : Nat) : List (List Nat × Nat) × Nat × Nat :=
  (List.range g).foldl (fun acc grp =>
    let vs := ((groupVals k f x g grp).zip (groupVals k f c g grp)).map (fun p => addExact .rne p.1 p.2)
    let r := blockEncode f (e5o k) rm (coreDraw k) acc.2.2 vs
    (acc.1 ++ [(r.1, r.2.1)], natOr acc.2.1 r.2.2.1, r.2.2.2)) ([], 0, drawIndex k)

/-- `badd.rq` on a core. -/
def baddCore (x cw : Nat) (k : Core) : Except Stop Core := do
  let g := field cw 22 17
  let c := field cw 16 0
  let code := field cw 30 24
  needS ([0x1B, 0x1C, 0x1D, 0x1F].contains code && field cw 34 32 < 5 && g != 0 && cw / 2 ^ 35 == 0 && !bitAt cw 31 && x / 2 ^ 17 == 0)
    .undef 3
  let f := (fmtOf code).getD .e4m3b32
  let n := blockBytes f g
  needS (x + n ≤ k.top) .fabric 0 x
  needS (c + n ≤ k.top) .fabric 0 c
  needS (x % 8 == 0) .align 0 x
  needS (c % 8 == 0) .align 0 c
  needS (x == c || !meets x n c n) .align 0 c
  untilS (!unreadyAt k x n && !unreadyAt k c n)
  let (gs, fl, d) := sumGroups k f ((rmodeOf (field cw 34 32)).getD .rne) x c g
  let k1 ← raiseFlags k fl
  let bytes := (gs.map (fun e => elemBytes (fmtBits f) e.1)).flatten ++ gs.map (fun e => BitVec.ofNat 8 e.2)
  .ok (setDrawIndex (putLocal k1 x bytes) d)

def baddOp (x c : Spec) (id : CoreId) (s : State) : Dev State :=
  opAB x c (fun v w id s => do
    let k ← ofCore s (baddCore v w (s.core id))
    .ok (s.setCore id k)) id s

/-- 4 + 2g cycles. -/
def baddCost (c : Spec) (k : Core) : Nat :=
  match readZ k.seen c with
  | .ok (w, _) => 4 + 2 * field w 22 17
  | .error _ => 1

def execBaddRq (x c : Spec) (s : State) : Host.Outcome State Fault Refusal :=
  nativeOp (.baddRq x c) (baddCost c) (baddOp x c) s

/-! ### Routes (R469) -/

/-- The direction along one dimension of n modules, + first; none where the coordinate agrees. -/
def stepDir (n a b plus : Nat) : Option Nat :=
  let d := (b + n - a) % n
  if d = 0 then none else if 2 * d ≤ n then some plus else some (plus + 1)

/-- The direction in which a flit to a peer leaves. -/
def routeDir (h : HostPort) (peer : Nat) : Option Nat :=
  let f (hi lo n plus : Nat) : Option Nat := stepDir (n + 1) (field h.self hi lo) (field peer hi lo) plus
  match f 18 13 h.sx 0 with
  | some d => some d
  | none => match f 12 7 h.sy 2 with
    | some d => some d
    | none => f 6 0 h.sz 4

/-- The lowest-numbered ready link of the direction. -/
def routeLink (s : State) (peer : Nat) : Option Nat :=
  match routeDir s.hport peer with
  | none => none
  | some d => (List.range 16).find? (fun i => bitAt s.rdy.link i && (nth s.links i {}).up && (nth s.links i {}).dir == d)

/-! ### Landing (R245, R469-R471) -/

/-- The landing slot of a block is free: no other block stands in it, and it is not held by its core. -/
def slotFree (l : Link) (blk : Nat) : Bool :=
  let same (b : Nat) : Bool := b % 4 == blk % 4 && landingSlot l b == landingSlot l blk && b != blk
  !(l.landing.any (fun b => same b.1)) && !(l.landed.any (fun b => same b.1)) && !l.held.contains (blk % 4, landingSlot l blk)

/-- PEER_FLIT_ARRIVAL: a flit on link `i` for peer `j`, of block `k` at byte offset `w`. It is forwarded, discarded beyond the
stream, held back while its slot has no credit, or written to the gateway core. -/
def flitArrival (s : State) (i peer blk off : Nat) (bytes : List Byte) : State :=
  let l := nth s.links i {}
  if 16 ≤ i || !l.up || l.down || l.retrain then s
  else if peer ≠ s.hport.self then
    match routeLink s peer with
    | some o => modLink s o (fun x => { x with out := x.out ++ [(peer, blk, off, bytes)] })
    | none => s
  else if l.nblk ≤ blk || !slotFree l blk then s
  else
    let got := ((l.landing.find? (fun b => b.1 == blk)).map (·.2)).getD 0
    let s1 := modLink s i (fun l => { l with landing := l.landing.filter (fun b => b.1 != blk) ++ [(blk, got + bytes.length)] })
    s1.modCore ⟨.gateway, 4 * i + blk % 4⟩ (fun k => deliver k (landingAddr l blk + off) bytes)

def execPeerFlitArrival (s : State) : Host.Outcome State Fault Refusal :=
  eventOp (fun s => flitArrival s s.ev.i s.ev.j s.ev.k s.ev.w s.ev.bytes) s

/-- The block that the link queues next: blocks enter the queues in the order of their indices (R261). -/
def nextBlock (l : Link) : Nat := l.handed + l.landed.length

/-- BLOCK_LANDED: block `j` of link `i`, once all its bytes have been written and every earlier block has landed. -/
def blockLanded (s : State) (i blk : Nat) : State :=
  let l := nth s.links i {}
  match (if blk = nextBlock l then l.landing.find? (fun b => b.1 == blk) else none) with
  | none => s
  | some b =>
    if b.2 < blockBytes ((fmtOf l.fmt).getD .e4m3b32) l.g then s
    else modLink s i (fun l => { l with landing := l.landing.filter (fun b => b.1 != blk), landed := l.landed ++ [(blk, landingAddr l blk)] })

def execBlockLanded (s : State) : Host.Outcome State Fault Refusal := eventOp (fun s => blockLanded s s.ev.i s.ev.j) s

/-! ### Retries, retraining (R441) -/

/-- PEER_FLIT_RETRY: a flit leaving link `i` fails its CRC again; after 16 failed retries the link retrains. -/
def flitRetry (s : State) (i : Nat) (ok : Bool) : State :=
  if 16 ≤ i || !(nth s.links i {}).up then s
  else modLink s i (fun l =>
    if ok then { l with retries := 0 }
    else if 16 ≤ l.retries + 1 then { l with retries := 0, retrain := true }
    else { l with retries := l.retries + 1 })

def execPeerFlitRetry (s : State) : Host.Outcome State Fault Refusal := eventOp (fun s => flitRetry s s.ev.i s.ev.ok) s

/-- LINK_RETRAIN_END: the link goes on, or is down (R441, R447, R466). -/
def retrainEnd (s : State) (i : Nat) (ok : Bool) : State :=
  if 16 ≤ i || !(nth s.links i {}).retrain then s
  else if ok then modLink s i (fun l => { l with retrain := false })
  else
    let s1 := modLink s i (fun l => { l with retrain := false, up := false, down := true, out := [] })
    let s2 := { s1 with rdy := { s1.rdy with link := setField s1.rdy.link i i 0 }
                        health := { s1.health with linkdn := natOr s1.health.linkdn (2 ^ i), last := s1.cycle } }
    raiseNotice s2 2 i

def execLinkRetrainEnd (s : State) : Host.Outcome State Fault Refusal := eventOp (fun s => retrainEnd s s.ev.i s.ev.ok) s

/-- NDATA for a hop, which its word of R457 names: its two rows' coordinates. -/
def hopRows (hop : Nat) : Nat :=
  let x := field hop 21 16
  let y := field hop 12 8
  (Config.hopData x y (x + 1 - hop % 2) (y + hop % 2)).toNat

/-- MESH_FLIT_RETRY (R440): a flit on hop `i` fails its CRC; the eighth failure in a row stops the device and raises a notice
with the coordinates of the hop's rows. -/
def meshRetry (s : State) (hop : Nat) (ok : Bool) : State :=
  let n := ((s.health.hops.find? (fun e => e.1 == hop)).map (·.2)).getD 0 + 1
  let others := s.health.hops.filter (fun e => e.1 != hop)
  if ok then { s with health := { s.health with hops := others } }
  else
    let s1 := { s with health := { s.health with hops := others ++ [(hop, n)] } }
    if n < 8 ∨ s.health.stopped then s1
    else raiseNotice { s1 with health := { s1.health with stopped := true } } 1 (hopRows hop)

def execMeshFlitRetry (s : State) : Host.Outcome State Fault Refusal :=
  eventOp (fun s => meshRetry s s.ev.i s.ev.ok) s

/-- EXPANDER_LINK_DOWN (R468): XPRES bit `i` clears, and a notice is raised. -/
def expanderDown (s : State) (i : Nat) : State :=
  if 4 ≤ i || !bitAt s.hport.xpres i then s
  else raiseNotice { s with hport := { s.hport with xpres := setField s.hport.xpres i i 0 } } 3 i

def execExpanderLinkDown (s : State) : Host.Outcome State Fault Refusal := eventOp (fun s => expanderDown s s.ev.i) s

/-! ### Sending (R470, R471) -/

/-- STREAM_START: word +0x08 of link `i` written with `w`. -/
def execStreamStart (s : State) : Host.Outcome State Fault Refusal :=
  eventOp (fun s => if s.ev.i < 16 then modLink s s.ev.i (fun l => writeStream l (s.ev.w % 2 ^ 64)) else s) s

/-- TAIL: the TAIL of gateway core `j` of link `i` written with `w`. -/
def execTail (s : State) : Host.Outcome State Fault Refusal :=
  eventOp (fun s => if s.ev.i < 16 ∧ s.ev.j < 4 then modLink s s.ev.i (fun l => writeTail l s.ev.j s.ev.w) else s) s

/-- A transmit descriptor's fields are in order. -/
def descriptorOk (s : State) (w0 w1 : Nat) : Bool :=
  let a := field w0 16 0
  let n := field w0 44 32
  field w0 31 17 == 0 && field w0 63 45 == 0 && field w1 31 19 == 0 && field w1 63 52 == 0 && a % 8 == 0 &&
    decide (1 ≤ n) && decide (n ≤ 4096) && decide (a + n ≤ 0x18000) && field w1 18 0 != s.hport.self

/-- The flits of a block's bytes, with their offsets. -/
def flits (peer blk : Nat) : Nat → Nat → List Byte → List (Nat × Nat × Nat × List Byte)
  | 0, _, _ => []
  | fuel + 1, off, bs => if bs.isEmpty then [] else (peer, blk, off, bs.take 256) :: flits peer blk fuel (off + 256) (bs.drop 256)

/-- TX_BLOCK_SENT: the next descriptor of gateway core `j` of link `i` is read; its block leaves and HEAD advances, or the
descriptor is skipped and bit 31 of HEAD is set. A block with no ready way waits. -/
def txBlock (s : State) (i g : Nat) : State :=
  let l := nth s.links i {}
  let h := nth l.head g 0
  if 16 ≤ i || 4 ≤ g || h % 2 ^ 31 == nth l.tail g 0 % 2 ^ 31 then s
  else
    let k := s.core ⟨.gateway, 4 * i + g⟩
    let a := nth l.tbase g 0 + 16 * (h % 2 ^ 31 % 2 ^ nth l.tlog g 0)
    let w0 := memRead k.ls a 8
    let w1 := memRead k.ls (a + 8) 8
    let next := (h % 2 ^ 31 + 1) % 2 ^ 31
    let setHead (s : State) (v : Nat) : State := modLink s i (fun l => { l with head := setAt l.head g v })
    if !descriptorOk s w0 w1 then setHead s (next + 2 ^ 31)
    else match routeLink s (field w1 18 0) with
      | none => s
      | some o =>
        if (nth s.links o {}).retrain then s
        else
          let fs := flits (field w1 18 0) (field w1 51 32) 17 0 (imageBytes k (field w0 16 0) (field w0 44 32))
          setHead (modLink s o (fun x => { x with out := x.out ++ fs })) (next + h / 2 ^ 31 * 2 ^ 31)

def execTxBlockSent (s : State) : Host.Outcome State Fault Refusal := eventOp (fun s => txBlock s s.ev.i s.ev.j) s

end Sys2Proof.Machine
end

