-- ==== Sys2Proof/Machine/HostEvents.lean ====
section
/-!
DEFINITION. The events of bring-up, attestation and the host port (R455-R468), of register reads and writes (R6), and
the attempt to issue a word that is no instruction (R98, R100), one definition per event. `ev.i` names the acting
context; 64 is the host, which has every right of the owner (R464).
-/
namespace Sys2Proof.Machine

/-! ### Bring-up (R455-R459) -/

/-- Reserved bits of the configuration record that must be 0 (R457). -/
def recordClean (f : Mem) : Bool :=
  let w (off : Nat) : Nat := memRead f off 8
  field (w 0) 63 32 == 0 && field (w 0x10) 63 32 == 0 && field (w 0x18) 31 1 == 0 && field (w 0x120) 47 40 == 0 &&
    field (w 0x128) 63 4 == 0 &&
    (List.range 8).all (fun i => natAnd (w (0x130 + 8 * i)) 0xFFFFFFFFFFC0E0FE == 0) &&
    field (w 0x170) 63 32 == 0 && w 0x178 == 0

/-- The mesh hops that the record holds out, each as a word of R457. -/
def recordHops (f : Mem) : List Nat :=
  (List.range (min 8 (field (memRead f 0x128 8) 3 0))).map (fun i => memRead f (0x130 + 8 * i) 8)

/-- The hop from a row toward x + 1 (0) or y + 1 (1). -/
def hopWord (x y d : Nat) : Nat := d + y * 2 ^ 8 + x * 2 ^ 16

/-- The mesh hops of a row. -/
def rowHops (x y : Nat) : List Nat :=
  (if x < 63 then [hopWord x y 0] else []) ++ (if 0 < x then [hopWord (x - 1) y 0] else []) ++
    (if y < 31 then [hopWord x y 1] else []) ++ (if 0 < y then [hopWord x (y - 1) 1] else [])

/-- The rows that no route reaches: every hop of theirs is held out (R458). -/
def cutRows (hops : List Nat) : Nat :=
  if hops.isEmpty then 0
  else ((hops.flatMap (fun h => [(field h 21 16, field h 12 8), (field h 21 16 + 1 - field h 0 0, field h 12 8 + field h 0 0)])).eraseDups).foldl
    (fun a p => if (rowHops p.1 p.2).all (fun h => hops.contains h) then natOr a (2 ^ (64 * p.2 + p.1)) else a) 0

/-- The record applied (R458); then stage 3. With BOOTSRC = 1 the image of `len` bytes is verified at once. -/
def applyRecord (s : State) (len : Nat) : State :=
  let f := s.sec.flash
  let hops := recordHops f
  let s1 := { s with
    sec := { s.sec with
      retire := natOr (memRead f 0x20 256) (cutRows hops), nearDis := memRead f 0x120 4, farDis := memRead f 0x124 1,
      linkDis := memRead f 0x126 2, hops := hops }
    rdy := { s.rdy with stage := 3 } }
  if bitAt (memRead f 0x18 8) 0 then bootImage s1 (memBytes f (memRead f 0x1C 4) len) else s1

/-- Stages 1 and 2 (R455-R458). The helper data is read once the record's signature has passed. -/
def bringUp (s : State) (len : Nat) : State :=
  let f := s.sec.flash
  let at' (n : Nat) : State := { s with rdy := { s.rdy with stage := n } }
  if memRead f 0 4 ≠ 0x5A96C0F1 ∨ !recordClean f ∨ !Config.rootVerify (memBytes f 0 0x180) (memBytes f 0x180 132) then
    bringUpError (at' 2) 2
  else
    let helper := memBytes f (memRead f 0x170 4) 512
    if !Config.pufOk helper then bringUpError (at' 1) 1
    else if memRead f 8 8 ≠ (Config.pufSerial helper).toNat then bringUpError (at' 2) 2
    else applyRecord (at' 2) len

/-- The machine as power finds it: flash, the host's memory and the expanders outlast it, and a new boot nonce is
drawn (R456). -/
def powerCycle (s : State) : State :=
  { State.reset with
    agenda := s.agenda, cur := s.cur, ev := s.ev, stall := s.stall, fresh := s.fresh, nextUid := s.nextUid, host := s.host
    hport := { expCaps := s.hport.expCaps }
    sec := { flash := s.sec.flash, nonce := s.sec.nonce + 1 } }

/-- POWER_UP: `ev.w` is the length of a firmware image in flash, which the record does not give. -/
def execPowerUp (s : State) : Host.Outcome State Fault Refusal := eventOp (fun s => bringUp (powerCycle s) s.ev.w) s

/-- FWGO (R467). -/
def execFwgo (s : State) : Host.Outcome State Fault Refusal := eventOp goFirmware s

/-- A bit set. -/
def setBit (x i : Nat) : Nat := natOr x (2 ^ i)

/-- The CXL tier as the port programs it, at most 16 TiB (R468). -/
def programExpanders (s : State) : State :=
  { s with hport := { s.hport with
      cxlcap := min (s.hport.expCaps.foldl (· + ·) 0) (2 ^ 16)
      xpres := (s.hport.expCaps.zipIdx.map (fun e => if e.1 = 0 then 0 else 2 ^ e.2)).foldl (· + ·) 0 } }

/-- A function that has passed its self-test (R459): its ready bit, unless the record holds it out, or the row has been retired or
the link is down until power-up (R441, R446). A row counts for the first round that starts after the cycle (R461). Kinds: 0 row,
1 island, 2 near, 3 far, 4 CXL, 5 host, 6 link, 7 control core, 8 gateway core, 9 deckle, 10 service, 11 domain. -/
def setReady (s : State) (kind j : Nat) : State :=
  let r := s.rdy
  match kind with
  | 0 =>
    if j < 2048 ∧ !(bitAt s.sec.retire j || bitAt s.health.retired j) then
      { s with rdy := { r with row := setBit r.row j }, freed := s.freed ++ (rowCores j).map (fun c => (c, s.cycle)) }
    else s
  | 1 => if j < 16 then { s with rdy := { r with isl := setBit r.isl j } } else s
  | 2 => if j < 32 ∧ !bitAt s.sec.nearDis j then { s with rdy := { r with near := setBit r.near j } } else s
  | 3 => if j < 8 ∧ !bitAt s.sec.farDis j then { s with rdy := { r with far := setBit r.far j } } else s
  | 4 => if j < 2 then { programExpanders s with rdy := { r with cxl := setBit r.cxl j } } else s
  | 5 => { s with rdy := { r with host := true } }
  | 6 =>
    if j < 16 ∧ !(bitAt s.sec.linkDis j || (nth s.links j {}).down) then
      modLink { s with rdy := { r with link := setBit r.link j } } j (fun l => { l with up := true })
    else s
  | 7 => if j < 64 then { s with rdy := { r with ccore := setBit r.ccore j } } else s
  | 8 => if j < 64 then { s with rdy := { r with gcore := setBit r.gcore j } } else s
  | 9 => if j < 4 then { s with rdy := { r with deckle := setBit r.deckle j } } else s
  | 10 => if j < 6 then { s with rdy := { r with svc := setBit r.svc j } } else s
  | 11 => if j < 5 then { s with rdy := { r with dom := setBit r.dom j } } else s
  | _ => s

/-- SELF_TEST_DONE: function `ev.i`, `ev.j` ends its test, and `ev.ok` says that it passed; kind 12 is the end of stage
4, after which the firmware runs (R455). -/
def execSelfTestDone (s : State) : Host.Outcome State Fault Refusal :=
  eventOp (fun s =>
    if s.rdy.stage < 4 ∨ s.rdy.error ≠ 0 ∨ !s.ev.ok then s
    else if s.ev.i = 12 then { s with rdy := { s.rdy with stage := 5 } }
    else setReady s s.ev.i s.ev.j) s

/-! ### Attestation (R462, R463) -/

/-- The right of the acting context to a region of R360. -/
def actRight (s : State) (ctx i : Nat) (write : Bool) : Bool := ctx == 64 || ctxRight s ctx i write

/-- ATTEST_REQUEST: context `ev.i` stores a block's address `ev.w`. -/
def execAttestRequest (s : State) : Host.Outcome State Fault Refusal :=
  eventOp (fun s => if actRight s s.ev.i 6 true then attestRequest s s.ev.i s.ev.w else s) s

/-- A report (R463). -/
def reportBytes (s : State) (nonce : List Byte) : List Byte :=
  let map := ((List.range 38).map (fun i => toBytes 8 (readyWord s.rdy (8 * i)))).flatten
  let body := toBytes 8 s.sec.fwver ++ memBytes s.sec.flash 8 8 ++ toBytes 8 s.cycle ++ toBytes 8 0 ++ nonce ++
    s.sec.mr0 ++ s.sec.mr1 ++ s.sec.mr2 ++ (Config.sha512 map).toList
  body ++ (Config.deviceSign body).toList ++ List.replicate 28 0

/-- The oldest request served: an extend, or a report written before its mailbox word. A block or report that its
context cannot reach ends the request with nothing written. -/
def serveRequest (s : State) (ctx addr : Nat) : State :=
  match svcRead s ctx addr 128 with
  | none => s
  | some bs =>
    let word (i : Nat) : Nat := ofBytes ((bs.drop (8 * i)).take 8)
    let val := (bs.drop 8).take 64
    let done (s : State) : State := (writeMailbox s ctx (word 10) (2 ^ 63)).getD s
    match word 0 with
    | 0 => match svcWrite s ctx (word 9) (reportBytes s val) with
      | some s1 => done s1
      | none => s
    | 1 => done { s with sec := { s.sec with mr2 := extendMr s.sec.mr2 val } }
    | _ => done s

/-- ATTEST_SERVE. -/
def execAttestServe (s : State) : Host.Outcome State Fault Refusal :=
  eventOp (fun s => match s.sec.queue with
    | [] => s
    | (ctx, a) :: q => serveRequest { s with sec := { s.sec with queue := q } } ctx a) s

/-! ### The host port (R464-R467) -/

/-- MSI_VECTOR_STORE: context `ev.i` stores vector `ev.w`. -/
def execMsiVectorStore (s : State) : Host.Outcome State Fault Refusal :=
  eventOp (fun s => if actRight s s.ev.i 4 true then writeHost s 0x20 s.ev.w else s) s

/-- HOST_SNOOP: the host streamer answers that it holds no line, whatever the snoop; nothing changes (R465). -/
def execHostSnoop (s : State) : Host.Outcome State Fault Refusal := eventOp (fun s => s) s

/-- HOST_BAR_WRITE: bytes `ev.bytes` at offset `ev.j` of BAR `ev.i`: 0 the system window, 2 the staging buffer, which
takes them only in stage 3 and before FWGO. A descriptor takes a write of its owner alone (R360). -/
def hostWrite (s : State) (bar off : Nat) (bs : List Byte) : State :=
  if bs.isEmpty then s
  else match bar with
    | 0 => match sysRegion off, sysRegion (off + bs.length - 1) with
      | some _, some _ =>
        if ownerOk s 64 off true && ownerOk s 64 (off + bs.length - 1) true then sysWrite s 64 off bs else s
      | _, _ => s
    | 2 =>
      if s.rdy.stage = 3 ∧ !s.hport.fwgo ∧ off + bs.length ≤ 2 ^ 24 then
        { s with hport := { s.hport with bar2 := memPut s.hport.bar2 off bs } }
      else s
    | _ => s

def execHostBarWrite (s : State) : Host.Outcome State Fault Refusal :=
  eventOp (fun s => hostWrite s s.ev.i s.ev.j s.ev.bytes) s

/-! ### Register reads and writes (R6) -/

/-- A word of the system window read by the acting context: its value, and what the read clears. -/
def readRegister (s : State) (ctx off : Nat) : State :=
  { sysReadClear s off with hostRead := sysWord s ctx off }

/-- NOTICE_READ (R466). -/
def execNoticeRead (s : State) : Host.Outcome State Fault Refusal :=
  eventOp (fun s => if actRight s s.ev.i 6 false then readRegister s s.ev.i 0xA800018 else s) s

/-- HEALTH_COUNT_READ (R447). -/
def execHealthCountRead (s : State) : Host.Outcome State Fault Refusal :=
  eventOp (fun s => if actRight s s.ev.i 6 false then readRegister s s.ev.i 0xAC00108 else s) s

/-- SWIN_READ of island `ev.j` (R449). -/
def execSwinRead (s : State) : Host.Outcome State Fault Refusal :=
  eventOp (fun s => if s.ev.j < 16 ∧ actRight s s.ev.i 6 false then readRegister s s.ev.i (0xAB00110 + 0x20 * s.ev.j) else s) s

/-- REGISTER_WRITE: context `ev.i` writes `ev.w` to the word at offset `ev.j`, by that register's access (R6). -/
def execRegisterWrite (s : State) : Host.Outcome State Fault Refusal :=
  eventOp (fun s =>
    match sysRegion s.ev.j with
    | some r => if s.ev.j % 8 = 0 ∧ actRight s s.ev.i r true ∧ ownerOk s s.ev.i s.ev.j true then sysWrite s s.ev.i s.ev.j (toBytes 8 s.ev.w) else s
    | none => s) s

/-! ### Words that are no instruction (R5, R98, R100) -/

/-- UNASSIGNED_OPCODE: core `ev.core` issues the word `ev.w`, with extension words `ev.nats`, which its class does not
accept: UNDEF with the subcode of the first check that fails. -/
def execUnassignedOpcode (s : State) : Host.Outcome State Fault Refusal :=
  eventOp (fun s =>
    let c := s.ev.core
    let k := s.core c
    let e (i : Nat) : Nat := nth s.ev.nats i 0
    if !executes s c || k.bcMode then s
    else if k.vpend || k.acqWait then waitCore s c k (1 + s.stall)
    else match decode c.cls s.ev.w (e 0) (e 1) (e 2) (e 3) with
      | .ok _ => s
      | .error sub => takeTrap s c { cause := .undef, sub := sub } s.ev.w (e 0) (4 + 4 * s.ev.nats.length) false) s

end Sys2Proof.Machine
end

