-- ==== Sys2Proof/Machine/ScalarExec.lean ====
section
/-!
DEFINITION. The meanings of the scalar, immediate and local-memory instructions (05_scalar), one definition each: the
operation of Scalar.lean in the frame of Ops.lean, with the issue cycles of Table 5-1.
-/
namespace Sys2Proof.Machine

/-- Cycles of `div` and `rem` (Table 5-1). -/
def divCost (t : IType) (_ : Core) : Nat := 4 + fmtBits (ifmt t) / 2

/-- `add` (R104). -/
def execAdd (t : IType) (d a b : Spec) (s : State) : Host.Outcome State Fault Refusal :=
  scalarOp (.add t d a b) (scalar2 .add t d a b) s

/-- `sub` (R104). -/
def execSub (t : IType) (d a b : Spec) (s : State) : Host.Outcome State Fault Refusal :=
  scalarOp (.sub t d a b) (scalar2 .sub t d a b) s

/-- `mul` (R104). -/
def execMul (t : IType) (d a b : Spec) (s : State) : Host.Outcome State Fault Refusal :=
  scalarOp (.mul t d a b) (scalarMul .mul t d a b) s

/-- `mulh` (R104). -/
def execMulh (t : IType) (d a b : Spec) (s : State) : Host.Outcome State Fault Refusal :=
  scalarOp (.mulh t d a b) (scalarMul .mulh t d a b) s

/-- `and` (R104). -/
def execAnd (t : IType) (d a b : Spec) (s : State) : Host.Outcome State Fault Refusal :=
  scalarOp (.and t d a b) (scalar2 .and t d a b) s

/-- `or` (R104). -/
def execOr (t : IType) (d a b : Spec) (s : State) : Host.Outcome State Fault Refusal :=
  scalarOp (.or t d a b) (scalar2 .or t d a b) s

/-- `xor` (R104). -/
def execXor (t : IType) (d a b : Spec) (s : State) : Host.Outcome State Fault Refusal :=
  scalarOp (.xor t d a b) (scalar2 .xor t d a b) s

/-- `andn` (R104). -/
def execAndn (t : IType) (d a b : Spec) (s : State) : Host.Outcome State Fault Refusal :=
  scalarOp (.andn t d a b) (scalar2 .andn t d a b) s

/-- `shl` (R106). -/
def execShl (t : IType) (d a b : Spec) (s : State) : Host.Outcome State Fault Refusal :=
  scalarOp (.shl t d a b) (scalar2 .shl t d a b) s

/-- `shr` (R106). -/
def execShr (t : IType) (d a b : Spec) (s : State) : Host.Outcome State Fault Refusal :=
  scalarOp (.shr t d a b) (scalar2 .shr t d a b) s

/-- `sar` (R106). -/
def execSar (t : IType) (d a b : Spec) (s : State) : Host.Outcome State Fault Refusal :=
  scalarOp (.sar t d a b) (scalar2 .sar t d a b) s

/-- `rot` (R106). -/
def execRot (t : IType) (d a b : Spec) (s : State) : Host.Outcome State Fault Refusal :=
  scalarOp (.rot t d a b) (scalar2 .rot t d a b) s

/-- `min` (R104). -/
def execMin (t : IType) (d a b : Spec) (s : State) : Host.Outcome State Fault Refusal :=
  scalarOp (.min t d a b) (scalar2 .min t d a b) s

/-- `max` (R104). -/
def execMax (t : IType) (d a b : Spec) (s : State) : Host.Outcome State Fault Refusal :=
  scalarOp (.max t d a b) (scalar2 .max t d a b) s

/-- `div` (R105). -/
def execDiv (t : IType) (d a b : Spec) (s : State) : Host.Outcome State Fault Refusal :=
  nativeOp (.div t d a b) (divCost t) (coreOp (scalarDiv false t d a b)) s

/-- `rem` (R105). -/
def execRem (t : IType) (d a b : Spec) (s : State) : Host.Outcome State Fault Refusal :=
  nativeOp (.rem t d a b) (divCost t) (coreOp (scalarDiv true t d a b)) s

/-- `abs` (R107). -/
def execAbs (t : IType) (d a : Spec) (s : State) : Host.Outcome State Fault Refusal :=
  scalarOp (.abs t d a) (scalar1 .abs t d a) s

/-- `neg` (R107). -/
def execNeg (t : IType) (d a : Spec) (s : State) : Host.Outcome State Fault Refusal :=
  scalarOp (.neg t d a) (scalar1 .neg t d a) s

/-- `clz` (R107). -/
def execClz (t : IType) (d a : Spec) (s : State) : Host.Outcome State Fault Refusal :=
  scalarOp (.clz t d a) (scalar1 .clz t d a) s

/-- `ctz` (R107). -/
def execCtz (t : IType) (d a : Spec) (s : State) : Host.Outcome State Fault Refusal :=
  scalarOp (.ctz t d a) (scalar1 .ctz t d a) s

/-- `popc` (R107). -/
def execPopc (t : IType) (d a : Spec) (s : State) : Host.Outcome State Fault Refusal :=
  scalarOp (.popc t d a) (scalar1 .popc t d a) s

/-- `mov` (R107). -/
def execMov (t : IType) (d a : Spec) (s : State) : Host.Outcome State Fault Refusal :=
  scalarOp (.mov t d a) (scalar1 .mov t d a) s

/-- `sel` (R113). -/
def execSel (t : IType) (d a b : Spec) (s : State) : Host.Outcome State Fault Refusal :=
  scalarOp (.sel t d a b) (scalarSel t d a b) s

/-- `bext` (R108). -/
def execBext (t : IType) (d a b : Spec) (s : State) : Host.Outcome State Fault Refusal :=
  scalarOp (.bext t d a b) (scalarBext t d a b) s

/-- `bins` (R108). -/
def execBins (t : IType) (d a b : Spec) (s : State) : Host.Outcome State Fault Refusal :=
  scalarOp (.bins t d a b) (scalarBins t d a b) s

/-- `lea` (R115). -/
def execLea (d a b : Spec) (s : State) : Host.Outcome State Fault Refusal :=
  scalarOp (.lea d a b) (scalarLea d a b) s

/-- `pset` (R116). -/
def execPset (p : Fin 8) (a b : Spec) (s : State) : Host.Outcome State Fault Refusal :=
  scalarOp (.pset p a b) (scalarPset p a b) s

/-- `mset` (R117). -/
def execMset (m : Fin 4) (a b : Spec) (s : State) : Host.Outcome State Fault Refusal :=
  scalarOp (.mset m a b) (scalarMset m a b) s

/-- `hbind` (R118). -/
def execHbind (h : Fin 4) (a b : Spec) (s : State) : Host.Outcome State Fault Refusal :=
  scalarOp (.hbind h a b) (scalarHbind h a b) s

/-- `hadv.c` (R119). -/
def execHadvC (h : Fin 4) (a : Spec) (s : State) : Host.Outcome State Fault Refusal :=
  scalarOp (.hadvC h a) (scalarHadv false h a) s

/-- `hadv.p` (R119). -/
def execHadvP (h : Fin 4) (a : Spec) (s : State) : Host.Outcome State Fault Refusal :=
  scalarOp (.hadvP h a) (scalarHadv true h a) s

/-- `hstat` (R120). -/
def execHstat (d : Spec) (h : Fin 4) (s : State) : Host.Outcome State Fault Refusal :=
  scalarOp (.hstat d h) (scalarHstat d h) s

/-- `cmp.cc` (R111). -/
def execCmp (c : Cond) (t : IType) (d a b : Spec) (s : State) : Host.Outcome State Fault Refusal :=
  scalarOp (.cmp c t d a b) (scalarCmp c t d a b) s

/-- `ld` (R122). -/
def execLd (t : IType) (d a b : Spec) (s : State) : Host.Outcome State Fault Refusal :=
  scalarOp (.ld t d a b) (scalarLd t d a b) s

/-- `st` (R122). -/
def execSt (t : IType) (d a b : Spec) (s : State) : Host.Outcome State Fault Refusal :=
  scalarOp (.st t d a b) (scalarSt t d a b) s

/-- `ldt` (R123). -/
def execLdt (t : IType) (f : Fmt) (rm : RMode) (d a b : Spec) (s : State) : Host.Outcome State Fault Refusal :=
  scalarOp (.ldt t f rm d a b) (scalarLdt t f rm d a b) s

/-- `stt` (R123). -/
def execStt (t : IType) (f : Fmt) (rm : RMode) (d a b : Spec) (s : State) : Host.Outcome State Fault Refusal :=
  scalarOp (.stt t f rm d a b) (scalarStt t f rm d a b) s

/-- `movi` (R114). -/
def execMovi (t : IType) (d : Spec) (i : BitVec 14) (s : State) : Host.Outcome State Fault Refusal :=
  scalarOp (.movi t d i) (scalarImm t d i.toInt) s

/-- `addi` (R114). -/
def execAddi (t : IType) (d : Spec) (i : BitVec 14) (s : State) : Host.Outcome State Fault Refusal :=
  scalarOp (.addi t d i) (scalarAddi t d i) s

/-- `li` (R114). -/
def execLi (t : IType) (d : Spec) (e : BitVec 32) (s : State) : Host.Outcome State Fault Refusal :=
  scalarOp (.li t d e) (scalarImm t d (liValue t e)) s

end Sys2Proof.Machine
end

