-- ==== Sys2Proof/Machine/Deckle.lean ====
section
/-!
DEFINITION. The deckle sampler's arithmetic and stage chain (R418-R420): FP32 operations rounded by RNE, the stages of
Table 20-2, and the mailbox word of a request.
-/
namespace Sys2Proof.Machine

/-! ### FP32 operations on patterns -/

def f32 (x : Nat) : Val := decodeFmt .fp32 x
def round32 (v : Val) : Nat := (cvtArith .fp32 .rne 0 v).code
def negInf32 : Nat := 0xFF800000
def isNan32 (x : Nat) : Bool := (f32 x).isNan
def isFin32 (x : Nat) : Bool := (f32 x).isFinite
/-- a > b, false where one is a NaN. -/
def gt32 (a b : Nat) : Bool := !isNan32 a && !isNan32 b && decide (0 < cmpExact (f32 a) (f32 b))
def ge32 (a b : Nat) : Bool := !isNan32 a && !isNan32 b && decide (0 ≤ cmpExact (f32 a) (f32 b))
def add32 (a b : Nat) : Nat := round32 (addExact .rne (f32 a) (f32 b))
def mul32 (a b : Nat) : Nat := round32 (mulExact (f32 a) (f32 b))
def sub32 (a b : Nat) : Nat := round32 (addExact .rne (f32 a) (f32 b).negate)

/-- A quotient with enough bits, and a last bit for the remainder, that its rounding to FP32 is that of a / b. -/
def divVal (a b : Val) : Val :=
  if a.isNan || b.isNan || (a.isZero && b.isZero) || (a.isInf && b.isInf) then .nan true
  else match a, b with
    | .inf n, _ => .inf (n != b.isNeg)
    | .fin n _ _, .inf k => .fin (n != k) 0 0
    | .fin n m e, .fin k d f =>
      if d = 0 then .inf (n != k)
      else
        let q := m * 2 ^ 600 / d
        .fin (n != k) (2 * q + bnat (m * 2 ^ 600 % d != 0)) (e - f - 601)
    | _, _ => .nan true

def div32 (a b : Nat) : Nat := round32 (divVal (f32 a) (f32 b))

/-- e^x of a value at or below 0, correctly rounded (log 8); below -128 the result rounds to 0. -/
def exp32 (x : Nat) : Nat :=
  match f32 x with
  | .fin true m e =>
    if m = 0 then 0x3F800000
    else if (7 : Int) ≤ (Nat.log2 m : Int) + e then 0
    else
      let y := match e + fixBits with | .ofNat i => m * 2 ^ i | .negSucc _ => 0
      let k := (y + ln2Fix - 1) / ln2Fix
      round32 (.fin false (2 * expFix (k * ln2Fix - y) + 1) (-(fixBits : Int) - 1 - k))
  | .fin false _ _ => 0x3F800000
  | _ => 0

/-- A sum in the order of a list. -/
def sum32 (l : List Nat) : Nat := l.foldl add32 0

/-! ### Reads of a unit -/

/-- Why a chain stops: an error of R420, or a read of a core that is away, which the unit repeats. -/
inductive DkStop where
  | err (code : Nat)
  | away

abbrev Dk (α : Type) := Except DkStop α

/-- Bytes read at a context address. -/
def dkBytes (s : State) (r : DkReq) (va n : Nat) : Dk (List Byte) :=
  if n = 0 then .ok []
  else if isBulk va then
    (match svcRead s r.ctx va n with | some bs => .ok bs | none => .error (.err 2))
  else match fabricHome s r.core r.ctx va n false with
    | .error _ => .error (.err 2)
    | .ok h => match homeNow s r.ctx va h with
      | some h' => .ok (readHome s r.ctx h' n).1
      | none => .error .away

/-- n numbers of w bytes. -/
def splitNums (w : Nat) : Nat → List Byte → List Nat
  | 0, _ => []
  | n + 1, bs => ofBytes (bs.take w) :: splitNums w n (bs.drop w)

def dkNums (s : State) (r : DkReq) (va w n : Nat) : Dk (List Nat) := do
  let bs ← dkBytes s r va (w * n)
  .ok (splitNums w n bs)

/-! ### Stages (Table 20-2) -/

/-- The values, whether SCALE had T = 0, and the set FILTER kept. -/
structure Sampler where
  xs : List Nat
  greedy : Bool := false
  kept : Option (List Nat) := none

def stageScale (t : Nat) (p : Sampler) : Dk Sampler :=
  if isNan32 t || (f32 t).isInf then .error (.err 4)
  else if (f32 t).isZero then .ok { p with greedy := true }
  else if (f32 t).isNeg then .error (.err 4)
  else .ok { p with xs := p.xs.map (fun x => div32 x t) }

def stageBias (l : List Nat) (p : Sampler) : Sampler :=
  l.foldl (fun p e =>
    let i := field e 31 0
    if i < p.xs.length then { p with xs := setAt p.xs i (add32 (nth p.xs i 0) (field e 63 32)) } else p) p

def stageMask (bits : List Byte) (p : Sampler) : Sampler :=
  { p with xs := p.xs.zipIdx.map (fun e => if bitAt (nth bits (e.2 / 8) 0).toNat (e.2 % 8) then e.1 else negInf32) }

/-- An integer as an FP32 value. -/
def ofNat32 (n : Nat) : Nat := round32 (.ofInt n)

def stagePenalty (hist : List Nat) (rr f : Nat) (p : Sampler) : Sampler :=
  { p with xs := p.xs.zipIdx.map (fun e =>
      let c := hist.count e.2
      if c = 0 then e.1
      else sub32 (if gt32 e.1 0 then div32 e.1 rr else mul32 e.1 rr) (mul32 f (ofNat32 c))) }

/-- The largest value. -/
def max32 (l : List Nat) : Nat := l.foldl (fun a x => if gt32 x a then x else a) negInf32

/-- w = e^(x - xmax). -/
def weights (p : Sampler) : List Nat :=
  let m := max32 p.xs
  p.xs.map (fun x => if isNan32 x then 0 else exp32 (sub32 x m))

/-- The shortest prefix whose sequential sum reaches a bound. -/
def prefixTo (w : Nat → Nat) (bound : Nat) : List Nat → Nat → List Nat
  | [], _ => []
  | i :: l, acc => if ge32 acc bound then [] else i :: prefixTo w bound l (add32 acc (w i))

/-- Every x lies at minus infinity. -/
def Sampler.dead (p : Sampler) : Bool := p.xs.all (fun x => isNan32 x || x == negInf32)

def stageFilter (k pp q : Nat) (p : Sampler) : Dk Sampler :=
  if p.dead then .error (.err 3)
  else
    let ws := weights p
    let w (i : Nat) : Nat := nth ws i 0
    let order := sortBy (fun i => 2 ^ 32 - w i) (List.range p.xs.length)
    let top := if k = 0 then order else order.take k
    let some' := if ge32 pp 0x3F800000 then top else prefixTo w (mul32 pp (sum32 (top.map w))) top 0
    let wmax := match top with | i :: _ => w i | [] => 0
    .ok { p with kept := some (some'.filter (fun i => ge32 (w i) (mul32 q wmax))) }

/-- The lowest index whose running sum exceeds a bound, or the last one. -/
def pickRun (w : Nat → Nat) (bound : Nat) : List Nat → Nat → Option Nat
  | [], _ => none
  | [i], _ => some i
  | i :: l, acc => let a := add32 acc (w i); if gt32 a bound then some i else pickRun w bound l a

def stageDraw (key ix : Nat) (p : Sampler) : Dk Nat :=
  let kept := match p.kept with
    | some l => sortBy id l
    | none => (List.range p.xs.length).filter (fun i => isFin32 (nth p.xs i 0))
  if p.dead || kept.isEmpty then .error (.err 3)
  else if p.greedy then
    let best := kept.foldl (fun (a : Option Nat) i => match a with
      | none => some i
      | some j => if gt32 (nth p.xs i 0) (nth p.xs j 0) then some i else some j) none
    .ok (best.getD 0)
  else
    let ws := weights p
    let w (i : Nat) : Nat := nth ws i 0
    let u := (philox (key % 2 ^ 32) (field key 63 32) (ix % 2 ^ 32) (field ix 63 32) 0 0).1
    let total := f32 (sum32 (kept.map w))
    let bound := round32 (mulExact (f32 (round32 (mulExact (.ofInt u) total))) (.fin false 1 (-32)))
    .ok ((pickRun w bound kept 0).getD 0)

/-- One stage that is not DRAW. -/
def applyStage (s : State) (r : DkReq) (code w1 w2 w3 : Nat) (p : Sampler) : Dk Sampler :=
  match code with
  | 1 => stageScale (field w1 31 0) p
  | 2 => do
    let l ← dkNums s r w1 8 w2
    .ok (stageBias l p)
  | 3 => do
    let bs ← dkBytes s r w1 ((p.xs.length + 7) / 8)
    .ok (stageMask bs p)
  | 4 => do
    let h ← dkNums s r w1 4 w2
    .ok (stagePenalty h (field w3 31 0) (field w3 63 32) p)
  | _ => stageFilter (field w1 31 0) (field w2 31 0) (field w3 31 0) p

/-- The chain from a block, each code above the last. -/
def runChain (s : State) (r : DkReq) : Nat → Nat → Nat → Sampler → Dk Nat
  | 0, _, _, _ => .error (.err 1)
  | n + 1, addr, last, p => do
    if addr % 64 ≠ 0 then .error (.err 1)
    else do
      let ws ← match svcRead s r.ctx addr 64 with
        | some bs => Except.ok (splitNums 8 8 bs)
        | none => .error (.err 2)
      let code := field (nth ws 0 0) 63 56
      let next := field (nth ws 0 0) 47 0
      if code ≤ last ∨ 6 < code then .error (.err 1)
      else if code = 6 then
        (if next = 0 then stageDraw (nth r.words 2 0) (nth r.words 3 0) p else .error (.err 1))
      else if next = 0 then .error (.err 1)
      else do
        let p1 ← applyStage s r code (nth ws 1 0) (nth ws 2 0) (nth ws 3 0) p
        runChain s r n next code p1

/-- A request's mailbox word (R420); none while a read must be repeated. -/
def dkResult (s : State) (r : DkReq) : Option Nat :=
  let run : Dk Nat := do
    let xs ← dkNums s r (nth r.words 0 0) 4 (field (nth r.words 1 0) 31 0)
    runChain s r 7 (nth r.words 4 0) 0 { xs := xs.map (fun x => if isNan32 x then negInf32 else x) }
  match run with
  | .ok t => some (2 ^ 63 + t)
  | .error (.err c) => some (2 ^ 63 + 2 ^ 62 + c * 2 ^ 48)
  | .error .away => none

end Sys2Proof.Machine
end

