-- ==== Sys2Proof/Machine/Serving.lean ====
section
/-!
DEFINITION. The serving instructions (R421, R422), one definition per instruction, and the events of the deckle units
(R420).
-/
namespace Sys2Proof.Machine

/-- A block of n bytes in the issuing core's local store. -/
def servBlock (c : CoreId) (s : State) (a n : Nat) : Dev (List Nat) := do
  let _ ← localRecord c s a n 8
  .ok (localWords (s.core c) a (n / 8))

/-- The right to a sequence: the table's, and no other context's sequence (R421). -/
def seqRight (s : State) (c : CoreId) (q : Nat) (write : Bool) : Dev Unit :=
  let ctx := (s.core c).ctx
  needD (ctxRight s ctx 2 write && (seqState s q == 0 || seqCtx s q == ctx)) .priv 0x50

/-- The right to the context's serving block (R421). -/
def servRight (s : State) (c : CoreId) (write : Bool) : Dev Unit := needD (ctxRight s (s.core c).ctx 4 write) .priv 0x50

/-! ### Sequences -/

/-- `sq.rd`. -/
def sqRdOp (d a : Spec) (c : CoreId) (s : State) : Dev State :=
  opDA d a (fun v c s => do
    needD (field v 15 13 == 0 && v < 2 ^ 22) .undef 2
    let q := field v 12 0
    seqRight s c q false
    .ok (seqWord s q (8 * field v 21 16), s)) c s

def execSqRd (d a : Spec) (s : State) : Host.Outcome State Fault Refusal := nativeOp (.sqRd d a) (fun _ => 1) (sqRdOp d a) s

/-- An operation of `sq.wr`: the state, or the error that D shows. -/
def seqOperation (s : State) (q op idx v : Nat) : Except Nat State :=
  match op with
  | 0 => .ok (writeSeqWord s q (8 * idx) v)
  | 1 => if seqPL s q < seqL s q + field v 15 0 then .error 2 else .ok (commit s q (field v 15 0) (field v 31 16))
  | 2 => .ok (cancelNodes s q v)
  | 3 => .ok (rollback s q)
  | 4 =>
    if seqNpg s q * seqPgtok s q < seqPL s q + field v 15 0 then .error 2
    else .ok (setSeqField s q 8 63 32 (seqPL s q + field v 15 0))
  | _ => .error 1

/-- `sq.wr`. -/
def sqWrOp (d a : Spec) (c : CoreId) (s : State) : Dev State := do
  let (addr, s1) ← srcZ s c a
  let _ ← dstZ s1 c d 0
  let ws ← servBlock c s1 addr 16
  let w0 := nth ws 0 0
  let q := field w0 12 0
  seqRight s1 c q true
  untilD (releaseReady (s1.core c)) s
  match seqOperation s1 q (field w0 18 16) (field w0 29 24) (nth ws 1 0) with
  | .ok s2 => dstZ s2 c d (seqWord s2 q 0)
  | .error e => dstZ s1 c d (2 ^ 63 + e)

def execSqWr (d a : Spec) (s : State) : Host.Outcome State Fault Refusal := nativeOp (.sqWr d a) (fun _ => 1) (sqWrOp d a) s

/-- The limits of a build request (R411). -/
def buildOk (w0 w1 : Nat) : Bool :=
  decide (1 ≤ field w0 63 48) && decide (1 ≤ field w0 47 32) && decide (field w0 47 32 ≤ 4096) &&
    decide (1 ≤ field w0 31 16) && field w1 16 0 % 8 == 0

/-- The bytes of a plan (R412). -/
def planBytes (step : Nat) (b : Build) : List Byte :=
  toBytes 8 (b.used % 2 ^ 16 + b.plan.length * 2 ^ 16 + step * 2 ^ 32) ++
    (b.plan.map (fun e => toBytes 8 e.1 ++ toBytes 8 e.2)).flatten

/-- `sq.build`. -/
def sqBuildOp (d a : Spec) (c : CoreId) (s : State) : Dev State := do
  let (addr, s1) ← srcZ s c a
  let _ ← dstZ s1 c d 0
  let ws ← servBlock c s1 addr 32
  let ctx := (s1.core c).ctx
  needD (ctxRight s1 ctx 2 true) .priv 0x50
  servRight s1 c true
  untilD (releaseReady (s1.core c)) s
  let w0 := nth ws 0 0
  let plan := field (nth ws 1 0) 16 0
  if !(tokenHeld s1 ctx && tokenHolder s1 ctx == c.idx) || !buildOk w0 (nth ws 1 0) then dstZ s1 c d (2 ^ 63 + 1)
  else do
    let b := buildStep s1 ctx (field w0 63 48) (field w0 47 32) (field w0 31 16)
    let bs := planBytes (tokenStep s1 ctx) b
    if 0x12000 < plan + bs.length then dstZ s1 c d (2 ^ 63 + 1)
    else do
      let k ← ofCore s1 (storeAt (b.s.core c) plan bs)
      dstZ (b.s.setCore c k) c d (ofBytes (bs.take 8))

def execSqBuild (d a : Spec) (s : State) : Host.Outcome State Fault Refusal :=
  nativeOp (.sqBuild d a) (fun _ => 1) (sqBuildOp d a) s

/-! ### The token -/

/-- `ltok.wait`. -/
def ltokWaitOp (d : Spec) (c : CoreId) (s : State) : Dev State :=
  opD d (fun c s => do
    servRight s c false
    let ctx := (s.core c).ctx
    if !bitAt (servPart s ctx) c.idx then .ok (2 ^ 63, s)
    else do
      untilD (tokenHeld s ctx && tokenHolder s ctx == c.idx) s
      .ok (tokenStep s ctx, s)) c s

def execLtokWait (d : Spec) (s : State) : Host.Outcome State Fault Refusal := nativeOp (.ltokWait d) (fun _ => 1) (ltokWaitOp d) s

/-- `ltok.pass`. -/
def ltokPassOp (a : Spec) (c : CoreId) (s : State) : Dev State := do
  let (v, s1) ← srcZ s c a
  needD (v < 128) .undef 2
  servRight s1 c true
  let ctx := (s1.core c).ctx
  needD (tokenHeld s1 ctx && tokenHolder s1 ctx == c.idx) .priv 0x51
  untilD (releaseReady (s1.core c)) s
  .ok (passToken s1 ctx (if bitAt v 6 then some (field v 5 0) else none))

def execLtokPass (a : Spec) (s : State) : Host.Outcome State Fault Refusal := nativeOp (.ltokPass a) (fun _ => 1) (ltokPassOp a) s

/-! ### Deckle units -/

/-- `dk.run`: UNIT names a unit that is ready, and CHAIN is not 0. -/
def dkRunOp (d a : Spec) (c : CoreId) (s : State) : Dev State := do
  let (addr, s1) ← srcZ s c a
  let _ ← dstZ s1 c d 0
  let ws ← servBlock c s1 addr 64
  untilD (releaseReady (s1.core c)) s
  let u := field (nth ws 1 0) 33 32
  if field (nth ws 1 0) 63 34 ≠ 0 ∨ nth ws 4 0 = 0 ∨ !bitAt s1.rdy.deckle u then dstZ s1 c d (2 ^ 63 + 1)
  else do
    let q := nth s1.deckles u []
    untilD (q.length < 16) s
    let r : DkReq := { ctx := (s1.core c).ctx, core := c, words := ws }
    dstZ { s1 with deckles := setAt s1.deckles u (q ++ [r]) } c d 0

def execDkRun (d a : Spec) (s : State) : Host.Outcome State Fault Refusal := nativeOp (.dkRun d a) (fun _ => 1) (dkRunOp d a) s

/-- `dk.wait`. -/
def dkWaitOp (d a : Spec) (c : CoreId) (s : State) : Dev State := do
  let (addr, s1) ← srcZ s c a
  let _ ← dstZ s1 c d 0
  let ws ← servBlock c s1 addr 8
  untilD (bitAt (nth ws 0 0) 63) s
  dstZ s1 c d (nth ws 0 0)

def execDkWait (d a : Spec) (s : State) : Host.Outcome State Fault Refusal := nativeOp (.dkWait d a) (fun _ => 1) (dkWaitOp d a) s

/-- DECKLE_REQUEST: unit `ev.i` takes its oldest request and runs its stages (R420). -/
def execDeckleRequest (s : State) : Host.Outcome State Fault Refusal :=
  eventOp (fun s => match nth s.deckles s.ev.i [] with
    | [] => s
    | r :: rs =>
      if r.result.isSome then s
      else match dkResult s r with
        | none => s
        | some w => { s with deckles := setAt s.deckles s.ev.i ({ r with result := some w } :: rs) }) s

/-- DECKLE_COMPLETE: unit `ev.i` writes its mailbox word (R420). -/
def execDeckleComplete (s : State) : Host.Outcome State Fault Refusal :=
  eventOp (fun s => match nth s.deckles s.ev.i [] with
    | [] => s
    | r :: rs => match r.result with
      | none => s
      | some w =>
        let s1 := { s with deckles := setAt s.deckles s.ev.i rs }
        (writeMailbox s1 r.ctx (nth r.words 5 0) w).getD s1) s

end Sys2Proof.Machine
end

