-- ==== Sys2Proof/Machine/TemperOps.lean ====
section
/-!
DEFINITION. The temper instructions (R333-R338), one definition per instruction.
-/
namespace Sys2Proof.Machine

/-- The id of the issuing core's own launch; 0 where it has none. -/
def ownLaunchId (s : State) (c : CoreId) : Nat := (coreLaunch s (s.core c)).elim 0 (·.id)

/-! ### tmpr.get (R334) -/

/-- The launch temper word (Table 16-5). -/
def launchTemperWord (s : State) (l : Launch) : Nat :=
  l.words.getD 3 0 % 2 ^ 8 + l.demand * 2 ^ 8 + l.tach * 2 ^ 16 + launchTsens l * 2 ^ 24
    + bnat ((latestOf s l.ctx l.id).any (fun x => x.id != l.id)) * 2 ^ 59 + bnat l.over * 2 ^ 60
    + bnat (retained s l) * 2 ^ 61 + bnat l.av * 2 ^ 62 + 2 ^ 63

/-- What `tmpr.get` writes for a source. -/
def temperGet (s : State) (c : CoreId) (v : Nat) : Nat :=
  let id := if field v 51 0 = 0 then ownLaunchId s c else field v 51 0
  match knownLaunch s (s.core c).ctx id, field v 63 60 with
  | some l, 0 => launchTemperWord s l
  | some l, 1 => (latestOf s l.ctx l.id).elim 0 (·.id)
  | _, _ => 0

def tmprGetOp (d a : Spec) (c : CoreId) (s : State) : Dev State :=
  opDA d a (fun v c s => do
    needD (field v 59 52 == 0) .undef 2
    .ok (temperGet s c v, s)) c s

def execTmprGet (d a : Spec) (s : State) : Host.Outcome State Fault Refusal :=
  nativeOp (.tmprGet d a) (fun _ => 1) (tmprGetOp d a) s

/-! ### tmpr.pick (R335, R328) -/

/-- The layout of the source. -/
def pickOk (v : Nat) : Bool :=
  decide (field v 2 0 ≤ 4) && decide (field v 4 3 ≤ 1) && field v 7 5 == 0 && decide (v < 2 ^ 32) &&
    (field v 4 3 == 1 || field v 15 8 == 0)

/-- The choice as D shows it. -/
def pickWord (k : Core) (v : Nat) : Nat :=
  let w := wsWord k 0x3B0
  let t := if field v 4 3 = 0 then field w 7 0 else field v 15 8
  if field v 2 0 = 3 then
    let r := chooseIters t (field v 31 16)
    r.1 + r.2 * 2 ^ 8
  else
    let r := choose (field v 2 0) t (field v 31 16) (field w 39 32)
    r.1 + r.2.1 * 2 ^ 8 + bnat r.2.2 * 2 ^ 63

def tmprPickOp (d a : Spec) (c : CoreId) (s : State) : Dev State :=
  opDA d a (fun v c s => do
    needD (pickOk v) .undef 2
    .ok (pickWord (s.core c) v, s)) c s

def execTmprPick (d a : Spec) (s : State) : Host.Outcome State Fault Refusal :=
  nativeOp (.tmprPick d a) (fun _ => 1) (tmprPickOp d a) s

/-! ### tmpr.dem (R336, R325) -/

/-- The table of the issuing core's code object, read through the row's instruction cache: the read waits, or traps, as a
fetch does (R281, R336). -/
def readSens (s : State) (c : CoreId) (idx : Nat) : Dev (Option Sens × State) :=
  match coreLaunch s (s.core c) with
  | none => .ok (none, s)
  | some l =>
    match sensAddr s l idx with
    | none => .ok (none, s)
    | some a => do
      let (w0, s1) ← (readCode s c l a 8).dev
      let (w1, s2) ← (readCode s1 c l (a + 8) 8).dev
      .ok (some (sensOf w0 w1), s2)

def tmprDemOp (d a : Spec) (c : CoreId) (s : State) : Dev State := do
  let (v, s1) ← srcZ s c a
  let _ ← dstZ s1 c d 0
  needD (field v 22 19 == 0 && decide (v < 2 ^ 24)) .undef 2
  let (t, s2) ← readSens s1 c (field v 15 8)
  let r := share (field v 7 0) t (field v 18 16)
  let s3 ← dstZ s2 c d r
  .ok (if bitAt v 23 then s3.modCore c (fun k => setWsWord k 0x3B0 (setField (wsWord k 0x3B0) 7 0 r)) else s3)

def execTmprDem (d a : Spec) (s : State) : Host.Outcome State Fault Refusal :=
  nativeOp (.tmprDem d a) (fun _ => 2) (tmprDemOp d a) s

/-! ### tmpr.re (R337, R331, R332) -/

/-- The record of a relaunch: the original's with the tightened demand, and its producers. -/
def relaunchRecord (o : Launch) (td : Nat) : List Nat :=
  (o.words.take 3) ++ [setField (nth o.words 3 0) 7 0 td] ++ (o.words.drop 4).take 4 ++ o.prod ++ o.words.drop 12

/-- RELAUNCH (R331): accepted into the original's queue; it becomes the latest incarnation of every earlier one. -/
def relaunch (s : State) (o : Launch) (td : Nat) : State × Nat :=
  let r := acceptLaunch s o.ctx (relaunchRecord o td) none none
  let s1 := modLaunch r.1 o.ctx r.2 (fun l => { l with orig := o.orig })
  ({ s1 with launches := s1.launches.map (fun l => if l.ctx == o.ctx && l.orig == o.orig then { l with latest := r.2 } else l) }, r.2)

/-- Table 16-3: the result and the state; none while the queue has no free slot. -/
def reDemand (s : State) (ctx e t : Nat) : Option (Nat × State) :=
  match knownLaunch s ctx e with
  | none => some (2 ^ 63 + 1, s)
  | some l =>
    if !retained s l then some (2 ^ 63 + 1, s)
    else if l.st == .refused then some (2 ^ 63 + 2, s)
    else
      let i := (latestOf s ctx e).getD l
      if !i.over then some (i.id, raiseDemand (s.launches.length + 1) s ctx i.id (max i.demand t))
      else if t ≤ i.tach then some (i.id, s)
      else
        let o := (findLaunch s ctx l.orig).getD l
        if mayLaunch s ctx (launchQueue o) then
          let r := relaunch s o (max i.demand t)
          some (r.2, r.1)
        else none

def tmprReOp (d a : Spec) (c : CoreId) (s : State) : Dev State := do
  let (v, s1) ← srcZ s c a
  let _ ← dstZ s1 c d 0
  needD (field v 55 52 == 0) .undef 2
  untilD (releaseReady (s1.core c)) s
  match reDemand s1 (s1.core c).ctx (field v 51 0) (field v 63 56) with
  | none => .error (.wait s)
  | some (r, s2) =>
    let s3 := if r < 2 ^ 63 then replaceProducers s2 (s2.core c).ctx (s2.core c).launch (field v 51 0) r else s2
    dstZ s3 c d r

def execTmprRe (d a : Spec) (s : State) : Host.Outcome State Fault Refusal :=
  nativeOp (.tmprRe d a) (fun _ => 1) (tmprReOp d a) s

/-! ### tmpr.ach (R338, R329) -/

def tmprAchOp (a : Spec) (c : CoreId) (s : State) : Dev State :=
  opA a (fun v c s => do
    needD (v < 256) .undef 2
    .ok (reportTemper s (s.core c).ctx (ownLaunchId s c) v)) c s

def execTmprAch (a : Spec) (s : State) : Host.Outcome State Fault Refusal := nativeOp (.tmprAch a) (fun _ => 1) (tmprAchOp a) s

end Sys2Proof.Machine
end

