-- ==== Sys2Proof/Machine/TranslationOps.lean ====
section
/-!
DEFINITION. The translation instructions (R355-R359), one definition per instruction, and the events of a domain's
walks and of FBDEST (R343, R347, R349).
-/
namespace Sys2Proof.Machine

/-! ### The token translation buffer (R353-R356) -/

/-- The key of an entry or image. -/
def ttbKey (w0 : Nat) : Nat := field w0 44 0

/-- What makes a valid image a broken layout. -/
def ttbImageBad (w0 target w2 : Nat) : Bool :=
  let kind := field w2 63 62
  field w0 62 45 != 0 || field w2 61 58 != 0 || field w2 55 48 != 0 || decide (2 ≤ kind) ||
    (kind == 1 && (target % 64 != 0 || field w2 57 56 == 3 || field w2 31 0 != 0)) || (kind == 0 && field w2 57 56 != 0)

/-- The slot that hardware chooses for an image. -/
def ttbChoose (k : Core) (w0 : Nat) : Nat :=
  match if bitAt w0 63 then k.ttb.find? (fun e => ttbKey e.w0 == ttbKey w0) else none with
  | some e => e.slot
  | none =>
    match (List.range 16).find? (fun n => !k.ttb.any (fun e => e.slot == n)) with
    | some n => n
    | none => (k.ttb.getLast?).elim 0 (·.slot)

/-- An image written into a slot; another slot with its key becomes invalid. -/
def ttbPut (k : Core) (n w0 target w2 : Nat) : Core :=
  if bitAt w0 63 then
    { k with ttb := { slot := n, w0 := w0, target := target, w2 := w2 } ::
        k.ttb.filter (fun e => e.slot != n && ttbKey e.w0 != ttbKey w0) }
  else { k with ttb := k.ttb.filter (fun e => e.slot != n) }

/-- `ttbw`. -/
def ttbwOp (a b : Spec) (c : CoreId) (s : State) : Dev State :=
  opAB a b (fun n addr c s => do
    needD (n < 16 || n == 31) .undef 2
    let _ ← localRecord c s addr 24 8
    let k := s.core c
    let w0 := readLocal k addr 8
    let w1 := readLocal k (addr + 8) 8
    let w2 := readLocal k (addr + 16) 8
    needD (!(bitAt w0 63 && ttbImageBad w0 w1 w2)) .undef 2
    .ok (s.setCore c (ttbPut k (if n = 31 then ttbChoose k w0 else n) w0 w1 w2))) c s

def execTtbw (a b : Spec) (s : State) : Host.Outcome State Fault Refusal := nativeOp (.ttbw a b) (fun _ => 2) (ttbwOp a b) s

/-- The layout of `ttbi`'s source. -/
def ttbiOk (v : Nat) : Bool :=
  field v 61 45 == 0 &&
    (match field v 63 62 with
     | 0 => field v 44 0 == 0
     | 1 => field v 31 0 == 0
     | 2 => true
     | _ => false)

/-- The entries that `ttbi` selects. -/
def ttbiSel (v : Nat) (e : Ttb) : Bool :=
  match field v 63 62 with
  | 0 => true
  | 1 => field e.w0 44 32 == field v 44 32
  | _ => ttbKey e.w0 == field v 44 0

/-- `ttbi`. -/
def ttbiOp (a : Spec) (c : CoreId) (s : State) : Dev State :=
  opA a (fun v c s => do
    needD (ttbiOk v) .undef 2
    .ok (s.modCore c (fun k => { k with ttb := k.ttb.filter (fun e => !ttbiSel v e) }))) c s

def execTtbi (a : Spec) (s : State) : Host.Outcome State Fault Refusal := nativeOp (.ttbi a) (fun _ => 1) (ttbiOp a) s

/-- `ttbp` (Table 17-7): D is wN with N at most 30. -/
def ttbpOp (d a : Spec) (c : CoreId) (s : State) : Dev State :=
  opA a (fun v c s => do
    match d with
    | .w n => do
      needD (n.val ≤ 30 && v < 2 ^ 45) .undef 2
      let k := s.core c
      match k.ttb.find? (fun e => ttbKey e.w0 == v) with
      | none => trapD .ttb 0 v
      | some e => do
        needD (!(field e.w2 63 62 == 1 && field e.w2 57 56 != 0)) .ttb 1 v
        let k1 ← ofCore s (storeAt k (k.wp + 8 * n.val) (toBytes 8 e.target ++ toBytes 8 e.w2))
        .ok (s.setCore c { k1 with ttb := e :: k1.ttb.filter (fun x => x.slot != e.slot) })
    | _ => trapD .undef 2) c s

def execTtbp (d a : Spec) (s : State) : Host.Outcome State Fault Refusal := nativeOp (.ttbp d a) (fun _ => 1) (ttbpOp d a) s

/-! ### tlbi, fbpop, replay (R352, R355, R357-R359) -/

/-- The right that `tlbi`, `fbpop` and `replay` need, checked before the source is read. -/
def domainRight (s : State) (c : CoreId) : Dev Unit := needD (ctxRight s (s.core c).ctx 5 true) .priv 0x40

/-- The layout of `tlbi`'s source. -/
def tlbiOk (v : Nat) : Bool :=
  match field v 63 62 with
  | 0 => field v 61 56 == 0 && field v 49 48 == 0 && field v 15 0 == 0
  | 1 => field v 61 56 == 0 && field v 49 0 == 0
  | 2 => field v 61 0 == 0
  | _ => false

/-- Whether removal n of the entries that a source selects took the entry through which an address was translated, which was
done after `born` removals. -/
def tlbiTook (v n ctx va born : Nat) (big : Bool) : Bool :=
  decide (born ≤ n) &&
    tlbiSel v { ctx := ctx, vpn := if big then va / 2 ^ 21 else va / 2 ^ 16, big := big, tier := 0, ppn := 0,
                r := true, w := true, x := true, a := true }

/-- Whether an access or a beat translated through an entry of removal n has still to perform at its home (R357). -/
def tlbiBusy (s : State) (v n : Nat) : Bool :=
  let bulk (h : Home) : Bool := match h with | .bulk _ _ => true | _ => false
  s.fab.any (fun a => !a.performed && bulk a.home && tlbiTook v n a.ctx a.va a.born a.big) ||
  s.beats.any (fun b =>
    (b.data.isNone && bulk b.src && tlbiTook v n b.ctx b.sva b.born b.sbig) ||
    (bulk b.dst && tlbiTook v n b.ctx b.dva b.born b.dbig))

/-- The selected entries leave every TLB, once for each issue of the instruction: the state, and the number of the removal. -/
def tlbiDrop (s : State) (c : CoreId) (v : Nat) : State × Nat :=
  match (s.core c).tlbw with
  | some n => (s, n)
  | none => ({ (dropEnts s (tlbiSel v)).modCore c (fun k => { k with tlbw := some s.tlbn }) with tlbn := s.tlbn + 1 }, s.tlbn)

/-- `tlbi`. -/
def tlbiOp (a : Spec) (c : CoreId) (s : State) : Dev State := do
  domainRight s c
  let (v, s1) ← srcZ s c a
  needD (tlbiOk v) .undef 2
  untilD ((s1.core c).ctf == 0 && (s1.core c).ctb == 0) s
  let r := tlbiDrop s1 c v
  untilD (!tlbiBusy r.1 v r.2) r.1
  .ok (r.1.modCore c (fun k => { k with tlbw := none }))

def execTlbi (a : Spec) (s : State) : Host.Outcome State Fault Refusal := nativeOp (.tlbi a) (fun _ => 1) (tlbiOp a) s

/-- The four words of an entry as `fbpop` writes it (R350). -/
def FEnt.words (e : FEnt) : List Nat :=
  [e.word0, e.count % 2 ^ 32 + e.core * 2 ^ 32 + e.cls * 2 ^ 46 + e.job * 2 ^ 48, e.stamp % 2 ^ 64, e.seq]

/-- The oldest pending entry taken: its words, and the domain after it. -/
def takeEntry : List FEnt → Option (FEnt × List FEnt)
  | [] => none
  | e :: l =>
    if e.taken then (takeEntry l).map (fun r => (r.1, e :: r.2)) else some (e, { e with taken := true } :: l)

/-- `fbpop`. -/
def fbpopOp (d a : Spec) (c : CoreId) (s : State) : Dev State := do
  domainRight s c
  let (v, s1) ← srcZ s c a
  let _ ← dstZ s1 c d 0
  let n := field v 34 32
  needD (n ≤ 4 && field v 63 35 == 0 && field v 31 17 == 0) .undef 2
  let addr := field v 16 0
  let _ ← localRecord c s1 addr 32 32
  let x := s1.dom n
  let (s2, got) ← match takeEntry x.fb with
    | none => .ok (s1.setDom n { x with drop := false }, false)
    | some (e, fb) => do
      let k ← ofCore s1 (storeAt (s1.core c) addr ((e.words.map (toBytes 8)).flatten))
      .ok ((s1.setCore c k).setDom n { x with fb := fb, drop := false }, true)
  let y := s2.dom n
  dstZ s2 c d (bnat got + bnat x.drop * 2 + (y.fb.filter (fun e => !e.taken)).length * 2 ^ 8
    + (y.fb.filter (fun e => e.taken)).length * 2 ^ 16)

def execFbpop (d a : Spec) (s : State) : Host.Outcome State Fault Refusal := nativeOp (.fbpop d a) (fun _ => 1) (fbpopOp d a) s

/-- A translation request that fails or is cancelled with a subcode (R351, R219, R472): a job fails, a core's instruction
traps when it issues again, and a loader's launch ends. -/
def failRequest (s : State) (q : TReq) (sub : Nat) : State :=
  match q.who with
  | .job u => failJob s u { cause := .bulk, sub := sub, addr := q.va }
  | .core c => s.modCore c (fun k => { k with tres := some (q.va, sub) })
  | .loader c => loadFail s c sub q.va

/-- A replay, or a refusal, in one domain: the state and the requests retried or cancelled. -/
def replayOne (v : Nat) (r : State × Nat) (d : Nat) : State × Nat :=
  if bitAt v 63 then
    let p := refusePage r.1 d (field v 55 50) (field v 47 16)
    (p.2.foldl (fun s q => failRequest s q (field v 15 8)) p.1, r.2 + p.2.length)
  else
    let p := replayDomain r.1 d
    (p.1, r.2 + p.2)

/-- The layout of `replay`'s source. -/
def replayOk (v : Nat) : Bool :=
  field v 4 0 != 0 && field v 7 5 == 0 &&
    (if bitAt v 63 then field v 62 56 == 0 && field v 49 48 == 0 && decide (0x10 ≤ field v 15 8) else field v 62 8 == 0)

/-- `replay`. -/
def replayOp (d a : Spec) (c : CoreId) (s : State) : Dev State := do
  domainRight s c
  let (v, s1) ← srcZ s c a
  let _ ← dstZ s1 c d 0
  needD (replayOk v) .undef 2
  untilD ((s1.core c).ctf == 0 && (s1.core c).ctb == 0) s
  let r := ((List.range 5).filter (fun i => bitAt v i)).foldl (replayOne v) (s1, 0)
  dstZ r.1 c d (min r.2 (2 ^ 32 - 1))

def execReplay (d a : Spec) (s : State) : Host.Outcome State Fault Refusal :=
  nativeOp (.replay d a) (fun _ => 1) (replayOp d a) s

/-! ### Events of a domain -/

/-- WALK_SLOT_START: a waiting walk of domain `ev.i` starts in a free slot (R430). -/
def execWalkSlotStart (s : State) : Host.Outcome State Fault Refusal := eventOp (fun s => startWalk s s.ev.i) s

/-- WALK_END: walk `ev.j` of domain `ev.i` ends (R343); a failure ends its requests (R351). -/
def execWalkEnd (s : State) : Host.Outcome State Fault Refusal :=
  eventOp (fun s =>
    let r := endWalk s s.ev.i s.ev.j
    r.2.foldl (fun s q => failRequest s q.1 q.2) r.1) s

/-- FBDEST_WRITE: context `ev.i` (64: the host) writes FBDEST of domain `ev.j` (R349). -/
def execFbdestWrite (s : State) : Host.Outcome State Fault Refusal :=
  eventOp (fun s => if s.ev.j < 5 ∧ (s.ev.i = 64 ∨ ctxRight s s.ev.i 5 true) then writeFbdest s s.ev.i s.ev.j s.ev.w else s) s

end Sys2Proof.Machine
end

