-- ==== Sys2Proof/Machine/Vector.lean ====
section
/-!
DEFINITION. Vector instructions as functions on one core (06_vector, R131-R150): lanes under the mask copy, arithmetic
with the flags and draws of the active lanes, conversions, the iterative functions, reductions, permutes, local
vector loads and stores, keys, histograms and compaction.
-/
namespace Sys2Proof.Machine

/-- OWN of the firing's temper word (R327). -/
def ownTemper (c : Core) : Nat := field (wsWord c 0x3B0) 7 0

/-- The intrinsic temper of a vector float type (R141). -/
def vIntrinsic : VType → Nat
  | .bf16 => 64
  | .fp16 => 88
  | _ => 192

/-- The type at issue: `t` picks the narrowest of bf16, fp16, fp32 that meets the own share (R141). -/
def chooseV (c : Core) (t : VType) : VType :=
  match t with
  | .tmpr =>
    let own := ownTemper c
    if own ≤ 64 then .bf16 else if own ≤ 88 then .fp16 else .fp32
  | u => u

/-- Iterations for a temper need (R142). -/
def itersFor (need : Nat) : Nat := if need ≤ 64 then 0 else if need ≤ 128 then 1 else 2

/-- The iteration count of R142 for a written type or for `t`. -/
def iterCount (c : Core) (t : VType) : Nat :=
  match t with
  | .tmpr => itersFor (min (ownTemper c) (vIntrinsic (chooseV c t)))
  | u => itersFor (vIntrinsic u)

/-- Lanes of an element of the given bits. -/
def laneCount (bits : Nat) : Nat := 512 / bits

/-- Whether lane i is active (R132). -/
def active (c : Core) (i : Nat) : Bool := bitAt c.mask i

/-- Results of the lanes in ascending order: inactive lanes compute nothing; flags gather and the draw index runs
over the active lanes (R57, R133). -/
def runLanes (c : Core) (g : Nat → Nat → Rnd) : List Nat → Nat → List Nat × Nat × Nat
  | [], d => ([], 0, d)
  | i :: is, d =>
    if active c i then
      let r := g (coreDraw c d) i
      let (vs, fl, d') := runLanes c g is (if r.drew then d + 1 else d)
      (r.code :: vs, natOr r.flags fl, d')
    else
      let (vs, fl, d') := runLanes c g is d
      (0 :: vs, fl, d')

/-- Write the active lanes of D with computed results, after the flags and draws (R66). -/
def finishLanes (c : Core) (mask : Core) (bits : Nat) (l : Loc) (r : List Nat × Nat × Nat) : Except Stop Core := do
  let c1 ← raiseFlags c r.2.1
  storeLanes (setDrawIndex c1 r.2.2) (bits / 8) l (active mask) 0 r.1

/-- A lane-wise instruction of two sources (R131, R133). -/
def vec2 (t : VType) (d a b : Spec) (g : Fmt → Nat → Nat → Nat → Rnd) (c : Core) : Except Stop Core := do
  let f := vfmt (chooseV c t)
  let n := fmtBits f
  let (x, c1) ← readVec c f a
  let (y, c2) ← readVec c1 f b
  let (l, c3) ← vectorLoc c2 d
  finishLanes c3 c n l (runLanes c (fun u i => g f u (lane n x i) (lane n y i)) (List.range (laneCount n)) (drawIndex c))

/-- A lane-wise instruction of one source. -/
def vec1 (t : VType) (d a : Spec) (g : Fmt → Nat → Nat → Rnd) (c : Core) : Except Stop Core := do
  let f := vfmt (chooseV c t)
  let n := fmtBits f
  let (x, c1) ← readVec c f a
  let (l, c2) ← vectorLoc c1 d
  finishLanes c2 c n l (runLanes c (fun u i => g f u (lane n x i)) (List.range (laneCount n)) (drawIndex c))

/-- A lane-wise instruction that reads D at the address it writes (R135). -/
def vec3 (t : VType) (d a b : Spec) (g : Fmt → Nat → Nat → Nat → Nat → Rnd) (c : Core) : Except Stop Core := do
  let f := vfmt (chooseV c t)
  let n := fmtBits f
  let (x, c1) ← readVec c f a
  let (y, c2) ← readVec c1 f b
  let (l, c3) ← vectorLoc c2 d
  let z ← loadVec c3 l
  finishLanes c3 c n l
    (runLanes c (fun u i => g f u (lane n x i) (lane n y i) (lane n z i)) (List.range (laneCount n)) (drawIndex c))

/-! ### Lane operations -/

def fmtFloat (f : Fmt) : Bool := !f.isInt

/-- Add, subtract, multiply. -/
inductive VArith where
  | add | sub | mul
deriving DecidableEq, Repr

/-- One lane of `vadd`, `vsub`, `vmul` (R62, R135); integers wrap. -/
def arithLane (o : VArith) (rm : RMode) (f : Fmt) (u x y : Nat) : Rnd :=
  if fmtFloat f then
    let a := decodeFmt f x
    let b := decodeFmt f y
    cvtArith f rm u (match o with
      | .add => addExact rm a b
      | .sub => addExact rm a b.negate
      | .mul => mulExact a b)
  else
    let n := fmtBits f
    { code := match o with
        | .add => (x + y) % 2 ^ n
        | .sub => (x + (2 ^ n - y % 2 ^ n)) % 2 ^ n
        | .mul => x * y % 2 ^ n }

/-- One lane of `vfma`, `vfms` (R135). -/
def fmaLane (sub : Bool) (rm : RMode) (f : Fmt) (u x y z : Nat) : Rnd :=
  if fmtFloat f then
    let w := decodeFmt f z
    cvtArith f rm u (fmaExact rm (decodeFmt f x) (decodeFmt f y) (if sub then w.negate else w))
  else
    let n := fmtBits f
    { code := (x * y + (if sub then 2 ^ n - z % 2 ^ n else z)) % 2 ^ n }

/-- One lane of `vmin`, `vmax` (R136). -/
def minmaxLane (wantMax : Bool) (f : Fmt) (_u x y : Nat) : Rnd :=
  if fmtFloat f then
    let a := decodeFmt f x
    let b := decodeFmt f y
    if a.isNan || b.isNan then
      { (cvtArith f .rne 0 (.nan false)) with flags := if a.isSnan || b.isSnan then flIE else 0 }
    else
      let k := cmpExact a b
      let less := decide (k < 0) || (decide (k = 0) && a.isNeg && !b.isNeg)
      { code := if wantMax then (if less then y else x) else (if less then x else y) }
  else
    let n := fmtBits f
    { code := op2 (if wantMax then .max else .min) (fmtSigned f) n x y }

/-- One lane of `vabs` (R136). -/
def absLane (f : Fmt) (_u x : Nat) : Rnd :=
  let n := fmtBits f
  if fmtFloat f then { code := x % 2 ^ (n - 1) }
  else let (v, fl) := op1 .abs (fmtSigned f) n x; { code := v, flags := fl }

/-- One lane of `vneg` (R136). -/
def negLane (f : Fmt) (_u x : Nat) : Rnd :=
  let n := fmtBits f
  if fmtFloat f then { code := (x + 2 ^ (n - 1)) % 2 ^ n } else { code := (2 ^ n - x % 2 ^ n) % 2 ^ n }

/-- One lane of a bitwise or shift instruction on patterns (R139). -/
def bitLane (o : Op2) (f : Fmt) (_u x y : Nat) : Rnd := { code := op2 o (fmtSigned f) (fmtBits f) x y }

/-- One lane of `vnot`. -/
def notLane (f : Fmt) (_u x : Nat) : Rnd := { code := natNot (fmtBits f) x }

/-- Whether a lane's condition holds, and the flags of the comparison (R137). -/
def cmpLane (cc : Cond) (f : Fmt) (x y : Nat) : Bool × Nat :=
  let order (k : Int) : Bool := match cc with
    | .eq => k == 0
    | .ne => k != 0
    | .lt => k < 0
    | .le => k ≤ 0
    | .gt => 0 < k
    | _ => 0 ≤ k
  if fmtFloat f then
    let a := decodeFmt f x
    let b := decodeFmt f y
    if a.isNan || b.isNan then
      let quiet := cc == .eq || cc == .ne
      (cc == .ne, if !quiet || a.isSnan || b.isSnan then flIE else 0)
    else (order (cmpExact a b), 0)
  else (order (valOf (fmtSigned f) (fmtBits f) x - valOf (fmtSigned f) (fmtBits f) y), 0)

/-- `vcmp.cc` (R137): a word of condition bits of the active lanes. -/
def vecCmp (cc : Cond) (t : VType) (d a b : Spec) (c : Core) : Except Stop Core := do
  let f := vfmt t
  let n := fmtBits f
  let (x, c1) ← readVec c f a
  let (y, c2) ← readVec c1 f b
  let on := (List.range (laneCount n)).filter (active c)
  let word := on.foldl (fun w i => if (cmpLane cc f (lane n x i) (lane n y i)).1 then w + 2 ^ i else w) 0
  let fl := on.foldl (fun w i => natOr w (cmpLane cc f (lane n x i) (lane n y i)).2) 0
  let c3 ← raiseFlags c2 fl
  writeDst c3 .z64 d word

/-- `vsel` (R138): every lane is written. -/
def vecSel (t : VType) (d a b : Spec) (c : Core) : Except Stop Core := do
  let f := vfmt t
  let n := fmtBits f
  let (x, c1) ← readVec c f a
  let (y, c2) ← readVec c1 f b
  let (l, c3) ← vectorLoc c2 d
  storeLanes c3 (n / 8) l (fun _ => true) 0
    ((List.range (laneCount n)).map (fun i => if active c i then lane n x i else lane n y i))

/-! ### Conversion (R140) -/

/-- Lane i of a 64-byte value with elements of the given bits (E2M1 packs two to a byte, R49). -/
def nibbleBytes : List Nat → List Nat
  | x :: y :: l => (x % 16 + 16 * (y % 16)) :: nibbleBytes l
  | [x] => [x % 16]
  | [] => []

/-- One element of `vcvt`; with f = g it passes unchanged but for a canonical NaN (R140). -/
def cvtElem (f g : Fmt) (e5 : Bool) (rm : RMode) (u x : Nat) : Rnd :=
  if f = g ∧ !(decodeFmt g x).isNan then { code := x } else cvtFrom g f e5 rm u x

/-- `vcvt.f.g` (R140). -/
def vecCvt (f g : Fmt) (rm : RMode) (d a : Spec) (c : Core) : Except Stop Core := do
  let sf := fmtBits f
  let sg := fmtBits g
  let count := min 64 (512 / max sf sg)
  let (x, c1) ← readVec c g a
  let (l, c2) ← vectorLoc c1 d
  let r := runLanes c (fun u i => cvtElem f g (e5o c) rm u (lane sg x i)) (List.range count) (drawIndex c)
  if sf = 4 then do
    let c3 ← raiseFlags c2 r.2.1
    let c4 := setDrawIndex c3 r.2.2
    let old ← loadVec c4 l
    let mixed := (List.range count).map (fun i => if active c i then nth r.1 i 0 else lane 4 old i)
    storeLanes c4 1 l (fun i => active c (2 * i) || active c (2 * i + 1)) 0 (nibbleBytes mixed)
  else finishLanes c2 c sf l r

/-! ### Reductions (R71, R143) -/

/-- One level of the tree: nodes in order, each drawing from the stream where it rounds stochastically. -/
def treeLevel (node : Nat → Nat → Nat → Rnd) (draw : Nat → Nat) : List Nat → Nat → List Nat × Nat × Nat
  | x :: y :: l, d =>
    let r := node (draw d) x y
    let (vs, fl, d') := treeLevel node draw l (if r.drew then d + 1 else d)
    (r.code :: vs, natOr r.flags fl, d')
  | l, d => (l, 0, d)

/-- Levels of the tree until one value is left. -/
def treeReduce (node : Nat → Nat → Nat → Rnd) (draw : Nat → Nat) : Nat → List Nat → Nat → Nat → Nat × Nat × Nat
  | 0, l, fl, d => (nth l 0 0, fl, d)
  | k + 1, l, fl, d =>
    let (vs, fl', d') := treeLevel node draw l d
    treeReduce node draw k vs (natOr fl fl') d'

/-- The value with which an inactive lane enters (Table 6-3). -/
def reduceIdentity (o : IterFn) (f : Fmt) : Nat :=
  let n := fmtBits f
  match o with
  | .rcp => 0                                           -- vrsum: +0 or 0
  | .rsq => if fmtFloat f then (cvtArith f .rne 0 (.inf true)).code else toPattern n (intLo f)   -- vrmax
  | _ => if fmtFloat f then (cvtArith f .rne 0 (.inf false)).code else toPattern n (intHi f)     -- vrmin

/-- A reduction to the scalar D; R152 does not order the ARITH of a lane and the checks of D: reductions and `vcmp` raise
ARITH first, where lane-wise instructions check D first (log 90, DESIGN CHOICE). `o` is rcp for the sum, rsq for the maximum, exp2 for the minimum. -/
def vecReduce (o : IterFn) (node : Fmt → Nat → Nat → Nat → Rnd) (t : VType) (d a : Spec) (c : Core) :
    Except Stop Core := do
  let f := vfmt (chooseV c t)
  let n := fmtBits f
  let (x, c1) ← readVec c f a
  let vs := (List.range (laneCount n)).map (fun i => if active c i then lane n x i else reduceIdentity o f)
  let (v, fl, di) := treeReduce (node f) (coreDraw c) (Nat.log2 (laneCount n)) vs 0 (drawIndex c)
  let c2 ← raiseFlags c1 fl
  writeDst (setDrawIndex c2 di) f d v

/-! ### Moving lanes (R144) -/

def vecPerm (t : VType) (d a b : Spec) (c : Core) : Except Stop Core := do
  let f := vfmt t
  let n := fmtBits f
  let (x, c1) ← readVec c f a
  let (y, c2) ← readVec c1 (if f.isInt then f else if n = 32 then .z32 else .z16) b
  let (l, c3) ← vectorLoc c2 d
  storeLanes c3 (n / 8) l (active c) 0
    ((List.range (laneCount n)).map (fun i => lane n x (lane n y i % laneCount n)))

def vecBcast (t : VType) (d a : Spec) (c : Core) : Except Stop Core := do
  let f := vfmt t
  let n := fmtBits f
  let (x, c1) ← readSrc c f a
  let (l, c2) ← vectorLoc c1 d
  storeLanes c2 (n / 8) l (active c) 0 (List.replicate (laneCount n) x)

def vecIns (t : VType) (d a b : Spec) (c : Core) : Except Stop Core := do
  let f := vfmt t
  let n := fmtBits f
  let (x, c1) ← readSrc c f a
  let (y, c2) ← readZ c1 b
  let (l, c3) ← vectorLoc c2 d
  storeLanes c3 (n / 8) l (fun i => i == y % laneCount n) 0 (List.replicate (laneCount n) x)

def vecExt (t : VType) (d a b : Spec) (c : Core) : Except Stop Core := do
  let f := vfmt t
  let n := fmtBits f
  let (x, c1) ← readVec c f a
  let (y, c2) ← readZ c1 b
  writeDst c2 f d (lane n x (y % laneCount n))

/-! ### Loads and stores (R145, R146) -/

def vecLd (t : VType) (d a b : Spec) (c : Core) : Except Stop Core := do
  let n := fmtBits (vfmt t)
  let (x, c1) ← computedAddr c a b 64
  let v ← loadAt c1 x 64
  let (l, c2) ← vectorLoc c1 d
  storeLanes c2 (n / 8) l (active c) 0 (lanesOf n v)

def vecSt (t : VType) (d a b : Spec) (c : Core) : Except Stop Core := do
  let f := vfmt t
  let n := fmtBits f
  let (x, c1) ← computedAddr c a b 64
  let (v, c2) ← readVec c1 f d
  storeLanes c2 (n / 8) (.at x) (active c) 0 (lanesOf n v)

/-- The format in which index lanes are read: integers of the lane width (R146). -/
def indexFmt (f : Fmt) : Fmt :=
  match fmtBits f with
  | 32 => .s32
  | 16 => .s16
  | _ => .s8

/-- Addresses of a gather or scatter: xi := A + s·bi for the active lanes in ascending order (R146). -/
def laneAddr (n : Nat) (base : Int) (y i : Nat) : Int := base + ((n / 8 : Nat) : Int) * toSigned n (lane n y i)

/-- The checks of the active lanes' addresses, lowest lane first. -/
def checkLanes (c : Core) (n : Nat) (base : Int) (y : Nat) : List Nat → Except Stop Unit
  | [] => .ok ()
  | i :: is => do
    let z := laneAddr n base y i
    needS (0 ≤ z && z ≤ 0x1FFFF) .fabric 0 (toPattern 64 z)
    checkLocal c z.toNat (n / 8) (n / 8)
    checkLanes c n base y is

def loadLanes (c : Core) (n : Nat) (base : Int) (y : Nat) : List Nat → Except Stop (List Nat)
  | [] => .ok []
  | i :: is => do
    let v ← if active c i then loadAt c (laneAddr n base y i).toNat (n / 8) else .ok 0
    let vs ← loadLanes c n base y is
    .ok (v :: vs)

def scatterLanes (n : Nat) (base : Int) (y x : Nat) : List Nat → Core → Except Stop Core
  | [], c => .ok c
  | i :: is, c => do
    let c1 ← storeAt c (laneAddr n base y i).toNat (toBytes (n / 8) (lane n x i))
    scatterLanes n base y x is c1

def vecLdx (t : VType) (d a b : Spec) (c : Core) : Except Stop Core := do
  let f := vfmt t
  let n := fmtBits f
  let (x, c1) ← readS c a
  let (y, c2) ← readVec c1 (indexFmt f) b
  checkLanes c2 n x y ((List.range (laneCount n)).filter (active c))
  let vs ← loadLanes c2 n x y (List.range (laneCount n))
  let (l, c3) ← vectorLoc c2 d
  storeLanes c3 (n / 8) l (active c) 0 vs

def vecStx (t : VType) (d a b : Spec) (c : Core) : Except Stop Core := do
  let f := vfmt t
  let n := fmtBits f
  let (x, c1) ← readS c a
  let (y, c2) ← readVec c1 (indexFmt f) b
  let on := (List.range (laneCount n)).filter (active c)
  checkLanes c2 n x y on
  let (v, c3) ← readVec c2 f d
  scatterLanes n x y v on c3

/-! ### Keys, histograms, compaction (R147-R149) -/

def vecKey (t : VType) (d a b : Spec) (c : Core) : Except Stop Core := do
  let f := vfmt t
  let n := fmtBits f
  let (x, c1) ← readVec c f a
  let (y, c2) ← readZ c1 b
  let (l, c3) ← vectorLoc c2 d
  let key (v : Nat) : Nat :=
    let k :=
      if fmtFloat f then (if bitAt v (n - 1) then natNot n v else natXor v (2 ^ (n - 1)))
      else if fmtSigned f then natXor v (2 ^ (n - 1))
      else v
    if bitAt y 0 then natNot n k else k
  storeLanes c3 (n / 8) l (active c) 0 ((lanesOf n x).map key)

/-- Add one to the counter of each active lane's digit, modulo 2^32 (R148). -/
def histLanes (base n x p : Nat) : List Nat → Core → Except Stop Core
  | [], c => .ok c
  | i :: is, c => do
    let at' := base + 4 * (lane n x i / 2 ^ p % 256)
    let v ← loadAt c at' 4
    let c1 ← storeAt c at' (toBytes 4 ((v + 1) % 2 ^ 32))
    histLanes base n x p is c1

def vecHist (t : VType) (d a b : Spec) (c : Core) : Except Stop Core := do
  let f := vfmt t
  let n := fmtBits f
  let (x, c1) ← readVec c f a
  let (y, c2) ← readZ c1 b
  match d with
  | .ptr k false => do
    let base := field (aWord c2 k.val) 16 0
    needS (base + 1024 ≤ c2.top) .fabric 0 base
    needS (base % 4 == 0) .align 0 base
    needS (!crossesModulo c2 (aWord c2 k.val) base 1024) .align 0 base
    histLanes base n x (y % 64) ((List.range (laneCount n)).filter (active c)) c2
  | _ => trapS .undef 0x02

def vecCompress (t : VType) (d a : Spec) (c : Core) : Except Stop Core := do
  let f := vfmt t
  let n := fmtBits f
  let (x, c1) ← readVec c f a
  let (l, c2) ← vectorLoc c1 d
  let on := ((List.range (laneCount n)).filter (active c)).map (lane n x)
  storeLanes c2 (n / 8) l (fun _ => true) 0 (on ++ List.replicate (laneCount n - on.length) 0)

def vecCount (t : VType) (d a b : Spec) (c : Core) : Except Stop Core := do
  let f := vfmt t
  let n := fmtBits f
  let (x, c1) ← readVec c f a
  let (y, c2) ← readSrc c1 f b
  writeDst c2 .z64 d ((List.range (laneCount n)).filter (fun i => active c i && lane n x i == y)).length

/-- An iterative function (R142). -/
def vecIter (fn : IterFn) (t : VType) (rm : RMode) (d a : Spec) (c : Core) : Except Stop Core :=
  vec1 t d a (fun f u x => iterLane fn (iterCount c t) f rm u (decodeFmt f x)) c

/-! ### Issue costs (Table 6-4) -/

/-- Issue cycles of an iterative function. -/
def iterCost (fn : IterFn) (c : Core) (t : VType) : Nat :=
  match fn with
  | .log2 => 9
  | _ => 4 * iterCount c t + 1

/-- The largest number of distinct words that one bank serves among word addresses. -/
def bankLoad (ws : List Nat) : Nat :=
  let u := ws.eraseDups
  max (max (u.filter (fun w => w % 3 == 0)).length (u.filter (fun w => w % 3 == 1)).length)
    (u.filter (fun w => w % 3 == 2)).length

/-- Issue cycles of a gather or scatter. -/
def gatherCost (t : VType) (a b : Spec) (c : Core) : Nat :=
  let f := vfmt t
  let n := fmtBits f
  match readS c.seen a with
  | .error _ => 1
  | .ok (x, c1) =>
    match readVec c1 (indexFmt f) b with
    | .error _ => 1
    | .ok (y, _) => max 1 (bankLoad (((List.range (laneCount n)).filter (active c)).map (fun i => (laneAddr n x y i).toNat / 8)))

/-- Issue cycles of `vhist`: one and the number of counters written. -/
def histCost (t : VType) (a b : Spec) (c : Core) : Nat :=
  let f := vfmt t
  let n := fmtBits f
  match readVec c.seen f a with
  | .error _ => 1
  | .ok (x, c1) =>
    match readZ c1 b with
    | .error _ => 1
    | .ok (y, _) =>
      1 + (((List.range (laneCount n)).filter (active c)).map (fun i => lane n x i / 2 ^ (y % 64) % 256)).eraseDups.length

end Sys2Proof.Machine
end

