-- ==== Sys2Proof/Machine/VectorExec.lean ====
section
/-!
DEFINITION. The meanings of the vector instructions (06_vector), one definition each: the operation of Vector.lean in
the frame of Ops.lean, with the issue cycles of Table 6-4; each leaves the core to wait for its completion (R151).
-/
namespace Sys2Proof.Machine

def one (_ : Core) : Nat := 1

/-- `vadd` (R135). -/
def execVadd (t : VType) (d a b : Spec) (s : State) : Host.Outcome State Fault Refusal :=
  vectorOp (.vadd t d a b) (one) (vec2 t d a b (arithLane .add .rne)) s

/-- `vadd` with a rounding mode (R135). -/
def execVaddRnd (t : VType) (rm : RMode) (d a b : Spec) (s : State) : Host.Outcome State Fault Refusal :=
  vectorOp (.vaddRnd t rm d a b) (one) (vec2 t d a b (arithLane .add rm)) s

/-- `vsub` (R135). -/
def execVsub (t : VType) (d a b : Spec) (s : State) : Host.Outcome State Fault Refusal :=
  vectorOp (.vsub t d a b) (one) (vec2 t d a b (arithLane .sub .rne)) s

/-- `vsub` with a rounding mode (R135). -/
def execVsubRnd (t : VType) (rm : RMode) (d a b : Spec) (s : State) : Host.Outcome State Fault Refusal :=
  vectorOp (.vsubRnd t rm d a b) (one) (vec2 t d a b (arithLane .sub rm)) s

/-- `vmul` (R135). -/
def execVmul (t : VType) (d a b : Spec) (s : State) : Host.Outcome State Fault Refusal :=
  vectorOp (.vmul t d a b) (one) (vec2 t d a b (arithLane .mul .rne)) s

/-- `vmul` with a rounding mode (R135). -/
def execVmulRnd (t : VType) (rm : RMode) (d a b : Spec) (s : State) : Host.Outcome State Fault Refusal :=
  vectorOp (.vmulRnd t rm d a b) (one) (vec2 t d a b (arithLane .mul rm)) s

/-- `vfma` (R135). -/
def execVfma (t : VType) (d a b : Spec) (s : State) : Host.Outcome State Fault Refusal :=
  vectorOp (.vfma t d a b) (one) (vec3 t d a b (fmaLane false .rne)) s

/-- `vfma` with a rounding mode (R135). -/
def execVfmaRnd (t : VType) (rm : RMode) (d a b : Spec) (s : State) : Host.Outcome State Fault Refusal :=
  vectorOp (.vfmaRnd t rm d a b) (one) (vec3 t d a b (fmaLane false rm)) s

/-- `vfms` (R135). -/
def execVfms (t : VType) (d a b : Spec) (s : State) : Host.Outcome State Fault Refusal :=
  vectorOp (.vfms t d a b) (one) (vec3 t d a b (fmaLane true .rne)) s

/-- `vfms` with a rounding mode (R135). -/
def execVfmsRnd (t : VType) (rm : RMode) (d a b : Spec) (s : State) : Host.Outcome State Fault Refusal :=
  vectorOp (.vfmsRnd t rm d a b) (one) (vec3 t d a b (fmaLane true rm)) s

/-- `vmin` (R136). -/
def execVmin (t : VType) (d a b : Spec) (s : State) : Host.Outcome State Fault Refusal :=
  vectorOp (.vmin t d a b) (one) (vec2 t d a b (minmaxLane false)) s

/-- `vmax` (R136). -/
def execVmax (t : VType) (d a b : Spec) (s : State) : Host.Outcome State Fault Refusal :=
  vectorOp (.vmax t d a b) (one) (vec2 t d a b (minmaxLane true)) s

/-- `vabs` (R136). -/
def execVabs (t : VType) (d a : Spec) (s : State) : Host.Outcome State Fault Refusal :=
  vectorOp (.vabs t d a) (one) (vec1 t d a absLane) s

/-- `vneg` (R136). -/
def execVneg (t : VType) (d a : Spec) (s : State) : Host.Outcome State Fault Refusal :=
  vectorOp (.vneg t d a) (one) (vec1 t d a negLane) s

/-- `vsel` (R138). -/
def execVsel (t : VType) (d a b : Spec) (s : State) : Host.Outcome State Fault Refusal :=
  vectorOp (.vsel t d a b) (one) (vecSel t d a b) s

/-- `vand` (R134). -/
def execVand (t : VType) (d a b : Spec) (s : State) : Host.Outcome State Fault Refusal :=
  vectorOp (.vand t d a b) (one) (vec2 t d a b (bitLane .and)) s

/-- `vor` (R134). -/
def execVor (t : VType) (d a b : Spec) (s : State) : Host.Outcome State Fault Refusal :=
  vectorOp (.vor t d a b) (one) (vec2 t d a b (bitLane .or)) s

/-- `vxor` (R134). -/
def execVxor (t : VType) (d a b : Spec) (s : State) : Host.Outcome State Fault Refusal :=
  vectorOp (.vxor t d a b) (one) (vec2 t d a b (bitLane .xor)) s

/-- `vnot` (R134). -/
def execVnot (t : VType) (d a : Spec) (s : State) : Host.Outcome State Fault Refusal :=
  vectorOp (.vnot t d a) (one) (vec1 t d a notLane) s

/-- `vshl` (R139). -/
def execVshl (t : VType) (d a b : Spec) (s : State) : Host.Outcome State Fault Refusal :=
  vectorOp (.vshl t d a b) (one) (vec2 t d a b (bitLane .shl)) s

/-- `vshr` (R139). -/
def execVshr (t : VType) (d a b : Spec) (s : State) : Host.Outcome State Fault Refusal :=
  vectorOp (.vshr t d a b) (one) (vec2 t d a b (bitLane .shr)) s

/-- `vsar` (R139). -/
def execVsar (t : VType) (d a b : Spec) (s : State) : Host.Outcome State Fault Refusal :=
  vectorOp (.vsar t d a b) (one) (vec2 t d a b (bitLane .sar)) s

/-- `vcvt` (R140). -/
def execVcvt (f g : Fmt) (rm : RMode) (d a : Spec) (s : State) : Host.Outcome State Fault Refusal :=
  vectorOp (.vcvt f g rm d a) (one) (vecCvt f g rm d a) s

/-- `vrcp` (R142). -/
def execVrcp (t : VType) (d a : Spec) (s : State) : Host.Outcome State Fault Refusal :=
  vectorOp (.vrcp t d a) (fun k => iterCost .rcp k t) (vecIter .rcp t .rne d a) s

/-- `vrcp` with a rounding mode (R142). -/
def execVrcpRnd (t : VType) (rm : RMode) (d a : Spec) (s : State) : Host.Outcome State Fault Refusal :=
  vectorOp (.vrcpRnd t rm d a) (fun k => iterCost .rcp k t) (vecIter .rcp t rm d a) s

/-- `vrsq` (R142). -/
def execVrsq (t : VType) (d a : Spec) (s : State) : Host.Outcome State Fault Refusal :=
  vectorOp (.vrsq t d a) (fun k => iterCost .rsq k t) (vecIter .rsq t .rne d a) s

/-- `vrsq` with a rounding mode (R142). -/
def execVrsqRnd (t : VType) (rm : RMode) (d a : Spec) (s : State) : Host.Outcome State Fault Refusal :=
  vectorOp (.vrsqRnd t rm d a) (fun k => iterCost .rsq k t) (vecIter .rsq t rm d a) s

/-- `vexp2` (R142). -/
def execVexp2 (t : VType) (d a : Spec) (s : State) : Host.Outcome State Fault Refusal :=
  vectorOp (.vexp2 t d a) (fun k => iterCost .exp2 k t) (vecIter .exp2 t .rne d a) s

/-- `vexp2` with a rounding mode (R142). -/
def execVexp2Rnd (t : VType) (rm : RMode) (d a : Spec) (s : State) : Host.Outcome State Fault Refusal :=
  vectorOp (.vexp2Rnd t rm d a) (fun k => iterCost .exp2 k t) (vecIter .exp2 t rm d a) s

/-- `vlog2` (R142). -/
def execVlog2 (t : VType) (d a : Spec) (s : State) : Host.Outcome State Fault Refusal :=
  vectorOp (.vlog2 t d a) (fun k => iterCost .log2 k t) (vecIter .log2 t .rne d a) s

/-- `vlog2` with a rounding mode (R142). -/
def execVlog2Rnd (t : VType) (rm : RMode) (d a : Spec) (s : State) : Host.Outcome State Fault Refusal :=
  vectorOp (.vlog2Rnd t rm d a) (fun k => iterCost .log2 k t) (vecIter .log2 t rm d a) s

/-- `vrsum` (R143). -/
def execVrsum (t : VType) (d a : Spec) (s : State) : Host.Outcome State Fault Refusal :=
  vectorOp (.vrsum t d a) (one) (vecReduce .rcp (arithLane .add .rne) t d a) s

/-- `vrsum` with a rounding mode (R143). -/
def execVrsumRnd (t : VType) (rm : RMode) (d a : Spec) (s : State) : Host.Outcome State Fault Refusal :=
  vectorOp (.vrsumRnd t rm d a) (one) (vecReduce .rcp (arithLane .add rm) t d a) s

/-- `vrmax` (R143). -/
def execVrmax (t : VType) (d a : Spec) (s : State) : Host.Outcome State Fault Refusal :=
  vectorOp (.vrmax t d a) (one) (vecReduce .rsq (minmaxLane true) t d a) s

/-- `vrmin` (R143). -/
def execVrmin (t : VType) (d a : Spec) (s : State) : Host.Outcome State Fault Refusal :=
  vectorOp (.vrmin t d a) (one) (vecReduce .exp2 (minmaxLane false) t d a) s

/-- `vperm` (R144). -/
def execVperm (t : VType) (d a b : Spec) (s : State) : Host.Outcome State Fault Refusal :=
  vectorOp (.vperm t d a b) (one) (vecPerm t d a b) s

/-- `vins` (R144). -/
def execVins (t : VType) (d a b : Spec) (s : State) : Host.Outcome State Fault Refusal :=
  vectorOp (.vins t d a b) (one) (vecIns t d a b) s

/-- `vext` (R144). -/
def execVext (t : VType) (d a b : Spec) (s : State) : Host.Outcome State Fault Refusal :=
  vectorOp (.vext t d a b) (one) (vecExt t d a b) s

/-- `vkey` (R147). -/
def execVkey (t : VType) (d a b : Spec) (s : State) : Host.Outcome State Fault Refusal :=
  vectorOp (.vkey t d a b) (one) (vecKey t d a b) s

/-- `vcount` (R149). -/
def execVcount (t : VType) (d a b : Spec) (s : State) : Host.Outcome State Fault Refusal :=
  vectorOp (.vcount t d a b) (one) (vecCount t d a b) s

/-- `vld` (R145). -/
def execVld (t : VType) (d a b : Spec) (s : State) : Host.Outcome State Fault Refusal :=
  vectorOp (.vld t d a b) (one) (vecLd t d a b) s

/-- `vst` (R145). -/
def execVst (t : VType) (d a b : Spec) (s : State) : Host.Outcome State Fault Refusal :=
  vectorOp (.vst t d a b) (one) (vecSt t d a b) s

/-- `vbcast` (R144). -/
def execVbcast (t : VType) (d a : Spec) (s : State) : Host.Outcome State Fault Refusal :=
  vectorOp (.vbcast t d a) (one) (vecBcast t d a) s

/-- `vcompress` (R149). -/
def execVcompress (t : VType) (d a : Spec) (s : State) : Host.Outcome State Fault Refusal :=
  vectorOp (.vcompress t d a) (one) (vecCompress t d a) s

/-- `vhist` (R148). -/
def execVhist (t : VType) (d a b : Spec) (s : State) : Host.Outcome State Fault Refusal :=
  vectorOp (.vhist t d a b) (histCost t a b) (vecHist t d a b) s

/-- `vldx` (R146). -/
def execVldx (t : VType) (d a b : Spec) (s : State) : Host.Outcome State Fault Refusal :=
  vectorOp (.vldx t d a b) (gatherCost t a b) (vecLdx t d a b) s

/-- `vstx` (R146). -/
def execVstx (t : VType) (d a b : Spec) (s : State) : Host.Outcome State Fault Refusal :=
  vectorOp (.vstx t d a b) (gatherCost t a b) (vecStx t d a b) s

/-- `vcmp.cc` (R137). -/
def execVcmp (c : Cond) (t : VType) (d a b : Spec) (s : State) : Host.Outcome State Fault Refusal :=
  vectorOp (.vcmp c t d a b) (one) (vecCmp c t d a b) s

end Sys2Proof.Machine
end

