-- ==== Sys2Proof/Machine/Dispatch.lean ====
section
/-!
DEFINITION. What each instruction, bytecode and event does: one arm per constructor, each one call of its meaning.
-/
namespace Sys2Proof.Machine

def exec (i : Instr) (s : State) : Host.Outcome State Fault Refusal :=
  match i with
  | .add t d a b => Sys2Proof.Machine.execAdd t d a b s
  | .sub t d a b => Sys2Proof.Machine.execSub t d a b s
  | .mul t d a b => Sys2Proof.Machine.execMul t d a b s
  | .mulh t d a b => Sys2Proof.Machine.execMulh t d a b s
  | .div t d a b => Sys2Proof.Machine.execDiv t d a b s
  | .rem t d a b => Sys2Proof.Machine.execRem t d a b s
  | .and t d a b => Sys2Proof.Machine.execAnd t d a b s
  | .or t d a b => Sys2Proof.Machine.execOr t d a b s
  | .xor t d a b => Sys2Proof.Machine.execXor t d a b s
  | .andn t d a b => Sys2Proof.Machine.execAndn t d a b s
  | .shl t d a b => Sys2Proof.Machine.execShl t d a b s
  | .shr t d a b => Sys2Proof.Machine.execShr t d a b s
  | .sar t d a b => Sys2Proof.Machine.execSar t d a b s
  | .rot t d a b => Sys2Proof.Machine.execRot t d a b s
  | .min t d a b => Sys2Proof.Machine.execMin t d a b s
  | .max t d a b => Sys2Proof.Machine.execMax t d a b s
  | .abs t d a => Sys2Proof.Machine.execAbs t d a s
  | .neg t d a => Sys2Proof.Machine.execNeg t d a s
  | .sel t d a b => Sys2Proof.Machine.execSel t d a b s
  | .clz t d a => Sys2Proof.Machine.execClz t d a s
  | .ctz t d a => Sys2Proof.Machine.execCtz t d a s
  | .popc t d a => Sys2Proof.Machine.execPopc t d a s
  | .bext t d a b => Sys2Proof.Machine.execBext t d a b s
  | .bins t d a b => Sys2Proof.Machine.execBins t d a b s
  | .mov t d a => Sys2Proof.Machine.execMov t d a s
  | .lea d a b => Sys2Proof.Machine.execLea d a b s
  | .pset p a b => Sys2Proof.Machine.execPset p a b s
  | .mset m a b => Sys2Proof.Machine.execMset m a b s
  | .hbind h a b => Sys2Proof.Machine.execHbind h a b s
  | .hadvC h a => Sys2Proof.Machine.execHadvC h a s
  | .hadvP h a => Sys2Proof.Machine.execHadvP h a s
  | .hstat d h => Sys2Proof.Machine.execHstat d h s
  | .cmp c t d a b => Sys2Proof.Machine.execCmp c t d a b s
  | .ld t d a b => Sys2Proof.Machine.execLd t d a b s
  | .st t d a b => Sys2Proof.Machine.execSt t d a b s
  | .ldt t f rm d a b => Sys2Proof.Machine.execLdt t f rm d a b s
  | .stt t f rm d a b => Sys2Proof.Machine.execStt t f rm d a b s
  | .vadd t d a b => Sys2Proof.Machine.execVadd t d a b s
  | .vsub t d a b => Sys2Proof.Machine.execVsub t d a b s
  | .vmul t d a b => Sys2Proof.Machine.execVmul t d a b s
  | .vfma t d a b => Sys2Proof.Machine.execVfma t d a b s
  | .vfms t d a b => Sys2Proof.Machine.execVfms t d a b s
  | .vmin t d a b => Sys2Proof.Machine.execVmin t d a b s
  | .vmax t d a b => Sys2Proof.Machine.execVmax t d a b s
  | .vabs t d a => Sys2Proof.Machine.execVabs t d a s
  | .vneg t d a => Sys2Proof.Machine.execVneg t d a s
  | .vsel t d a b => Sys2Proof.Machine.execVsel t d a b s
  | .vand t d a b => Sys2Proof.Machine.execVand t d a b s
  | .vor t d a b => Sys2Proof.Machine.execVor t d a b s
  | .vxor t d a b => Sys2Proof.Machine.execVxor t d a b s
  | .vnot t d a => Sys2Proof.Machine.execVnot t d a s
  | .vshl t d a b => Sys2Proof.Machine.execVshl t d a b s
  | .vshr t d a b => Sys2Proof.Machine.execVshr t d a b s
  | .vsar t d a b => Sys2Proof.Machine.execVsar t d a b s
  | .vcvt f g rm d a => Sys2Proof.Machine.execVcvt f g rm d a s
  | .vrcp t d a => Sys2Proof.Machine.execVrcp t d a s
  | .vrsq t d a => Sys2Proof.Machine.execVrsq t d a s
  | .vexp2 t d a => Sys2Proof.Machine.execVexp2 t d a s
  | .vlog2 t d a => Sys2Proof.Machine.execVlog2 t d a s
  | .vrsum t d a => Sys2Proof.Machine.execVrsum t d a s
  | .vrmax t d a => Sys2Proof.Machine.execVrmax t d a s
  | .vrmin t d a => Sys2Proof.Machine.execVrmin t d a s
  | .vperm t d a b => Sys2Proof.Machine.execVperm t d a b s
  | .vbcast t d a => Sys2Proof.Machine.execVbcast t d a s
  | .vins t d a b => Sys2Proof.Machine.execVins t d a b s
  | .vext t d a b => Sys2Proof.Machine.execVext t d a b s
  | .vkey t d a b => Sys2Proof.Machine.execVkey t d a b s
  | .vhist t d a b => Sys2Proof.Machine.execVhist t d a b s
  | .vcompress t d a => Sys2Proof.Machine.execVcompress t d a s
  | .vcount t d a b => Sys2Proof.Machine.execVcount t d a b s
  | .vld t d a b => Sys2Proof.Machine.execVld t d a b s
  | .vst t d a b => Sys2Proof.Machine.execVst t d a b s
  | .vldx t d a b => Sys2Proof.Machine.execVldx t d a b s
  | .vstx t d a b => Sys2Proof.Machine.execVstx t d a b s
  | .vcmp c t d a b => Sys2Proof.Machine.execVcmp c t d a b s
  | .vaddRnd t rm d a b => Sys2Proof.Machine.execVaddRnd t rm d a b s
  | .vsubRnd t rm d a b => Sys2Proof.Machine.execVsubRnd t rm d a b s
  | .vmulRnd t rm d a b => Sys2Proof.Machine.execVmulRnd t rm d a b s
  | .vfmaRnd t rm d a b => Sys2Proof.Machine.execVfmaRnd t rm d a b s
  | .vfmsRnd t rm d a b => Sys2Proof.Machine.execVfmsRnd t rm d a b s
  | .vrcpRnd t rm d a => Sys2Proof.Machine.execVrcpRnd t rm d a s
  | .vrsqRnd t rm d a => Sys2Proof.Machine.execVrsqRnd t rm d a s
  | .vexp2Rnd t rm d a => Sys2Proof.Machine.execVexp2Rnd t rm d a s
  | .vlog2Rnd t rm d a => Sys2Proof.Machine.execVlog2Rnd t rm d a s
  | .vrsumRnd t rm d a => Sys2Proof.Machine.execVrsumRnd t rm d a s
  | .movi t d n => Sys2Proof.Machine.execMovi t d n s
  | .addi t d n => Sys2Proof.Machine.execAddi t d n s
  | .li t d e => Sys2Proof.Machine.execLi t d e s
  | .fst w f o d a vec sc => Sys2Proof.Machine.execFst w f o d a vec sc s
  | .fld w f o d a vec sc => Sys2Proof.Machine.execFld w f o d a vec sc s
  | .fence w sc o => Sys2Proof.Machine.execFence w sc o s
  | .amo c w f o d a p => Sys2Proof.Machine.execAmo c w f o d a p s
  | .send w o d a => Sys2Proof.Machine.execSend w o d a s
  | .sendm w o d a => Sys2Proof.Machine.execSendm w o d a s
  | .enq w o d a k => Sys2Proof.Machine.execEnq w o d a k s
  | .kctx r => Sys2Proof.Machine.execKctx r s
  | .kring q r => Sys2Proof.Machine.execKring q r s
  | .kslip q r => Sys2Proof.Machine.execKslip q r s
  | .kmm q tile mode off r => Sys2Proof.Machine.execKmm q tile mode off r s
  | .kmmG q tile mode off r => Sys2Proof.Machine.execKmmG q tile mode off r s
  | .kst rm x r => Sys2Proof.Machine.execKst rm x r s
  | .kclr r => Sys2Proof.Machine.execKclr r s
  | .cpy q tile kind o d r => Sys2Proof.Machine.execCpy q tile kind o d r s
  | .cpys tile kind o d r => Sys2Proof.Machine.execCpys tile kind o d r s
  | .b c off => Sys2Proof.Machine.execB c off s
  | .j e => Sys2Proof.Machine.execJ e s
  | .call off => Sys2Proof.Machine.execCall off s
  | .loop n off => Sys2Proof.Machine.execLoop n off s
  | .nop => Sys2Proof.Machine.execNop s
  | .endFiring => Sys2Proof.Machine.execEndFiring s
  | .ret => Sys2Proof.Machine.execRet s
  | .jx a => Sys2Proof.Machine.execJx a s
  | .trap k => Sys2Proof.Machine.execTrap k s
  | .brk k => Sys2Proof.Machine.execBrk k s
  | .rttResume => Sys2Proof.Machine.execRttResume s
  | .rttSkip => Sys2Proof.Machine.execRttSkip s
  | .rttAbort => Sys2Proof.Machine.execRttAbort s
  | .rttDrop => Sys2Proof.Machine.execRttDrop s
  | .rttKill => Sys2Proof.Machine.execRttKill s
  | .sflag d a => Sys2Proof.Machine.execSflag d a s
  | .wpset a => Sys2Proof.Machine.execWpset a s
  | .wdog d a => Sys2Proof.Machine.execWdog d a s
  | .srr d a => Sys2Proof.Machine.execSrr d a s
  | .srw n b => Sys2Proof.Machine.execSrw n b s
  | .rdcyc d => Sys2Proof.Machine.execRdcyc d s
  | .pair d a => Sys2Proof.Machine.execPair d a s
  | .chbind a b => Sys2Proof.Machine.execChbind a b s
  | .chhold a b => Sys2Proof.Machine.execChhold a b s
  | .chrdy a b => Sys2Proof.Machine.execChrdy a b s
  | .chmask a b => Sys2Proof.Machine.execChmask a b s
  | .chstat d a => Sys2Proof.Machine.execChstat d a s
  | .mnext d => Sys2Proof.Machine.execMnext d s
  | .tdef tile a => Sys2Proof.Machine.execTdef tile a s
  | .tarm tile a => Sys2Proof.Machine.execTarm tile a s
  | .twait tile a => Sys2Proof.Machine.execTwait tile a s
  | .ttest d tile => Sys2Proof.Machine.execTtest d tile s
  | .tdrain tile => Sys2Proof.Machine.execTdrain tile s
  | .jwait a => Sys2Proof.Machine.execJwait a s
  | .jpoll d a => Sys2Proof.Machine.execJpoll d a s
  | .kadv q a => Sys2Proof.Machine.execKadv q a s
  | .kwait => Sys2Proof.Machine.execKwait s
  | .kleave d a => Sys2Proof.Machine.execKleave d a s
  | .kstat d a => Sys2Proof.Machine.execKstat d a s
  | .gbar d => Sys2Proof.Machine.execGbar d s
  | .gqGet d => Sys2Proof.Machine.execGqGet d s
  | .baddRq x c => Sys2Proof.Machine.execBaddRq x c s
  | .launch d a => Sys2Proof.Machine.execLaunch d a s
  | .trig => Sys2Proof.Machine.execTrig s
  | .dwait d => Sys2Proof.Machine.execDwait d s
  | .lwait d a => Sys2Proof.Machine.execLwait d a s
  | .lstat d a => Sys2Proof.Machine.execLstat d a s
  | .sgnew d a => Sys2Proof.Machine.execSgnew d a s
  | .sgatt d a => Sys2Proof.Machine.execSgatt d a s
  | .sgdet a => Sys2Proof.Machine.execSgdet a s
  | .sgrel a b => Sys2Proof.Machine.execSgrel a b s
  | .sgpin a b => Sys2Proof.Machine.execSgpin a b s
  | .sgevict d a => Sys2Proof.Machine.execSgevict d a s
  | .sgstat d a => Sys2Proof.Machine.execSgstat d a s
  | .tmprGet d a => Sys2Proof.Machine.execTmprGet d a s
  | .tmprPick d a => Sys2Proof.Machine.execTmprPick d a s
  | .tmprDem d a => Sys2Proof.Machine.execTmprDem d a s
  | .tmprRe d a => Sys2Proof.Machine.execTmprRe d a s
  | .tmprAch a => Sys2Proof.Machine.execTmprAch a s
  | .ttbw a b => Sys2Proof.Machine.execTtbw a b s
  | .ttbi a => Sys2Proof.Machine.execTtbi a s
  | .ttbp d a => Sys2Proof.Machine.execTtbp d a s
  | .tlbi a => Sys2Proof.Machine.execTlbi a s
  | .fbpop d a => Sys2Proof.Machine.execFbpop d a s
  | .replay d a => Sys2Proof.Machine.execReplay d a s
  | .bld z d a => Sys2Proof.Machine.execBld z d a s
  | .bst z a b => Sys2Proof.Machine.execBst z a b s
  | .icw a b => Sys2Proof.Machine.execIcw a b s
  | .ici a => Sys2Proof.Machine.execIci a s
  | .icr d a => Sys2Proof.Machine.execIcr d a s
  | .sqRd d a => Sys2Proof.Machine.execSqRd d a s
  | .sqWr d a => Sys2Proof.Machine.execSqWr d a s
  | .sqBuild d a => Sys2Proof.Machine.execSqBuild d a s
  | .ltokWait d => Sys2Proof.Machine.execLtokWait d s
  | .ltokPass a => Sys2Proof.Machine.execLtokPass a s
  | .dkRun d a => Sys2Proof.Machine.execDkRun d a s
  | .dkWait d a => Sys2Proof.Machine.execDkWait d a s
  | .bcConst k => Sys2Proof.Machine.execBcConst k s
  | .bcLoadl n => Sys2Proof.Machine.execBcLoadl n s
  | .bcStorel n => Sys2Proof.Machine.execBcStorel n s
  | .bcLoadg n => Sys2Proof.Machine.execBcLoadg n s
  | .bcStoreg n => Sys2Proof.Machine.execBcStoreg n s
  | .bcLoadattr n sc => Sys2Proof.Machine.execBcLoadattr n sc s
  | .bcStoreattr n sc => Sys2Proof.Machine.execBcStoreattr n sc s
  | .bcLoadidx sc => Sys2Proof.Machine.execBcLoadidx sc s
  | .bcStoreidx sc => Sys2Proof.Machine.execBcStoreidx sc s
  | .bcBinary o sc => Sys2Proof.Machine.execBcBinary o sc s
  | .bcUnary o sc => Sys2Proof.Machine.execBcUnary o sc s
  | .bcCompare c sc => Sys2Proof.Machine.execBcCompare c sc s
  | .bcCall n sc => Sys2Proof.Machine.execBcCall n sc s
  | .bcCallmeth n sc => Sys2Proof.Machine.execBcCallmeth n sc s
  | .bcReturn => Sys2Proof.Machine.execBcReturn s
  | .bcJump t => Sys2Proof.Machine.execBcJump t s
  | .bcJumpt t => Sys2Proof.Machine.execBcJumpt t s
  | .bcJumpf t => Sys2Proof.Machine.execBcJumpf t s
  | .bcWalk => Sys2Proof.Machine.execBcWalk s
  | .bcAdvance t => Sys2Proof.Machine.execBcAdvance t s
  | .bcBuildtuple n => Sys2Proof.Machine.execBcBuildtuple n s
  | .bcBuildlist n => Sys2Proof.Machine.execBcBuildlist n s
  | .bcUnpack n => Sys2Proof.Machine.execBcUnpack n s
  | .bcPop => Sys2Proof.Machine.execBcPop s
  | .bcDup => Sys2Proof.Machine.execBcDup s
  | .bcSwap => Sys2Proof.Machine.execBcSwap s
  | .bcRaise => Sys2Proof.Machine.execBcRaise s
  | .bcSetuptry t => Sys2Proof.Machine.execBcSetuptry t s
  | .bcPoptry => Sys2Proof.Machine.execBcPoptry s
  | .bcAwait => Sys2Proof.Machine.execBcAwait s
  | .bcNewobj n => Sys2Proof.Machine.execBcNewobj n s
  | .bcIsinst n sc => Sys2Proof.Machine.execBcIsinst n sc s
  | .bcMakefunc k => Sys2Proof.Machine.execBcMakefunc k s
  | .bcLoadclosure n => Sys2Proof.Machine.execBcLoadclosure n s
  | .selection => Sys2Proof.Machine.execSelection s
  | .messageInject => Sys2Proof.Machine.execMessageInject s
  | .messageArrival => Sys2Proof.Machine.execMessageArrival s
  | .messageRefusalReply => Sys2Proof.Machine.execMessageRefusalReply s
  | .messageRetry => Sys2Proof.Machine.execMessageRetry s
  | .enqueueArrival => Sys2Proof.Machine.execEnqueueArrival s
  | .enqueueLanding => Sys2Proof.Machine.execEnqueueLanding s
  | .channelPacketArrival => Sys2Proof.Machine.execChannelPacketArrival s
  | .cancelPacketArrival => Sys2Proof.Machine.execCancelPacketArrival s
  | .budgetExpiry => Sys2Proof.Machine.execBudgetExpiry s
  | .boundaryTrap => Sys2Proof.Machine.execBoundaryTrap s
  | .faultRecordWrite => Sys2Proof.Machine.execFaultRecordWrite s
  | .codeStreamLanding => Sys2Proof.Machine.execCodeStreamLanding s
  | .vectorCompletion => Sys2Proof.Machine.execVectorCompletion s
  | .fabricStorePerform => Sys2Proof.Machine.execFabricStorePerform s
  | .fabricLoadPerform => Sys2Proof.Machine.execFabricLoadPerform s
  | .storeAck => Sys2Proof.Machine.execStoreAck s
  | .fldReturn => Sys2Proof.Machine.execFldReturn s
  | .fabricRetryReply => Sys2Proof.Machine.execFabricRetryReply s
  | .fabricRetry => Sys2Proof.Machine.execFabricRetry s
  | .atomicPerform => Sys2Proof.Machine.execAtomicPerform s
  | .atomicReply => Sys2Proof.Machine.execAtomicReply s
  | .kilnAccept => Sys2Proof.Machine.execKilnAccept s
  | .slipPhaseStart => Sys2Proof.Machine.execSlipPhaseStart s
  | .kilnPhaseStart => Sys2Proof.Machine.execKilnPhaseStart s
  | .kilnRetire => Sys2Proof.Machine.execKilnRetire s
  | .issueWindow => Sys2Proof.Machine.execIssueWindow s
  | .copyJobStart => Sys2Proof.Machine.execCopyJobStart s
  | .chunkRequest => Sys2Proof.Machine.execChunkRequest s
  | .streamerRequest => Sys2Proof.Machine.execStreamerRequest s
  | .beatLanding => Sys2Proof.Machine.execBeatLanding s
  | .walkSlotStart => Sys2Proof.Machine.execWalkSlotStart s
  | .walkEnd => Sys2Proof.Machine.execWalkEnd s
  | .fbdestWrite => Sys2Proof.Machine.execFbdestWrite s
  | .gbarRelease => Sys2Proof.Machine.execGbarRelease s
  | .blockLanded => Sys2Proof.Machine.execBlockLanded s
  | .peerFlitArrival => Sys2Proof.Machine.execPeerFlitArrival s
  | .peerFlitRetry => Sys2Proof.Machine.execPeerFlitRetry s
  | .linkRetrainEnd => Sys2Proof.Machine.execLinkRetrainEnd s
  | .meshFlitRetry => Sys2Proof.Machine.execMeshFlitRetry s
  | .placementRound => Sys2Proof.Machine.execPlacementRound s
  | .prologueStart => Sys2Proof.Machine.execPrologueStart s
  | .kernelComplete => Sys2Proof.Machine.execKernelComplete s
  | .rringRetry => Sys2Proof.Machine.execRringRetry s
  | .saggarEvictionEnd => Sys2Proof.Machine.execSaggarEvictionEnd s
  | .saggarRestoreStart => Sys2Proof.Machine.execSaggarRestoreStart s
  | .saggarRestoreEnd => Sys2Proof.Machine.execSaggarRestoreEnd s
  | .preemptRequestArrival => Sys2Proof.Machine.execPreemptRequestArrival s
  | .evictionSave => Sys2Proof.Machine.execEvictionSave s
  | .coreRestore => Sys2Proof.Machine.execCoreRestore s
  | .plimExpiry => Sys2Proof.Machine.execPlimExpiry s
  | .sliceExpiry => Sys2Proof.Machine.execSliceExpiry s
  | .contextDescWrite => Sys2Proof.Machine.execContextDescWrite s
  | .governorTick => Sys2Proof.Machine.execGovernorTick s
  | .pointChangeEnd => Sys2Proof.Machine.execPointChangeEnd s
  | .scrub => Sys2Proof.Machine.execScrub s
  | .pairLag => Sys2Proof.Machine.execPairLag s
  | .couplingCopy => Sys2Proof.Machine.execCouplingCopy s
  | .couplingAbandon => Sys2Proof.Machine.execCouplingAbandon s
  | .powerUp => Sys2Proof.Machine.execPowerUp s
  | .fwgo => Sys2Proof.Machine.execFwgo s
  | .selfTestDone => Sys2Proof.Machine.execSelfTestDone s
  | .attestRequest => Sys2Proof.Machine.execAttestRequest s
  | .attestServe => Sys2Proof.Machine.execAttestServe s
  | .msiVectorStore => Sys2Proof.Machine.execMsiVectorStore s
  | .hostSnoop => Sys2Proof.Machine.execHostSnoop s
  | .noticeRead => Sys2Proof.Machine.execNoticeRead s
  | .healthCountRead => Sys2Proof.Machine.execHealthCountRead s
  | .swinRead => Sys2Proof.Machine.execSwinRead s
  | .streamStart => Sys2Proof.Machine.execStreamStart s
  | .tail => Sys2Proof.Machine.execTail s
  | .txBlockSent => Sys2Proof.Machine.execTxBlockSent s
  | .expanderLinkDown => Sys2Proof.Machine.execExpanderLinkDown s
  | .deckleRequest => Sys2Proof.Machine.execDeckleRequest s
  | .deckleComplete => Sys2Proof.Machine.execDeckleComplete s
  | .registerWrite => Sys2Proof.Machine.execRegisterWrite s
  | .unassignedOpcode => Sys2Proof.Machine.execUnassignedOpcode s
  | .unassignedBytecode => Sys2Proof.Machine.execUnassignedBytecode s
  | .lineCacheFill => Sys2Proof.Machine.execLineCacheFill s
  | .hostBarWrite => Sys2Proof.Machine.execHostBarWrite s

end Sys2Proof.Machine
end

