-- ==== Sys2Proof/Machine/Placed.lean ====
section
/-!
DEFINITION. The state in which a given instruction is fetched next: the least that a fetch needs (a context with a page
table, a launch with its code object, a placed core, and the core's next turn) added to a state. It stands for the load of
a program (log 20).
-/
namespace Sys2Proof.Machine

/-! ### What a fetch needs, in bulk memory -/

/-- Bulk address 0x1_0000_0000 of context 0 is near address 0x20_0000: three tables, the last with a 2 MiB leaf of all
rights (R341-R343). -/
def placedTables (m : Mem) : Mem :=
  memWrite (memWrite (memWrite m 0x1000 8 0x2001) 0x2020 8 0x3001) 0x3000 8 0x2000F9

/-- The mapping as a TLB holds it. -/
def placedEnt : TlbEnt :=
  { ctx := 0, vpn := 2 ^ 11, big := true, tier := 0, ppn := 2 ^ 21, r := true, w := true, x := true, a := true }

/-- The launch whose code object lies there: text from code offset 0, const from 0x1000, the code image at 64 (R278). -/
def placedLaunch : Launch :=
  { ctx := 0, id := 1, words := [0, 0x100000000], prod := [], st := .placed, hdr := [0, 0x2000, 0, 0x1000, 64, 0, 0, 0] }

/-- A core of that launch at code offset 0x100. -/
def placedCore (k : Core) : Core :=
  { k with
    life := .active, ctx := 0, launch := 1, run := .prologue, pc := 0x100, budget := 2 ^ 24, bcMode := false
    tframe := none, lframe := none, vpend := false, acqWait := false, parked := false, tres := none, bpend := []
    pst := .single, sleeping := false, kreq := none }

/-- The parts of the machine that every fetch needs. -/
def placedBase (c : CoreId) (s : State) : State :=
  { s with
    agenda := [{ actor := .core c }]
    near := memWrite (placedTables s.near) 0x200008 4 0x2000
    ctxs := memWrite s.ctxs 0x18 8 0x1001
    launches := [placedLaunch]
    rdy := { s.rdy with near := 2 ^ 32 - 1 }
    health := { s.health with stopped := false }
    descs := s.descs.filter (fun d => d.1 != 0)
    islands := s.islands.map (fun i => { i with changing := false }) }

/-! ### A native instruction -/

/-- The core that runs an instruction word: core 0 of a class that accepts it. -/
def coreFor (w : Nat) : CoreId := ⟨classFor (field w 31 24) (field w 23 16), 0⟩

/-- The words stand at code offset 0x100, 5 words with zeros after the row's bits. -/
def placeNative (s : State) (w : Nat) : State :=
  let c := coreFor w
  let s1 := placedBase c s
  let s2 := { s1 with near := memWrite s1.near 0x200140 20 w }
  let s3 := s2.modCore c placedCore
  if c.cls = .compute then s3.modRow (rowOf c) (fun r => { r with tlb := [placedEnt], code := [] })
  else s3.modCore c (fun k => { k with tlb := [placedEnt] })

/-! ### A bytecode -/

/-- Control core 0 in bytecode mode: a function record of 16 bytes of bytecode at bulk address 0x1_0000_1000, BPC 0, an
empty stack with room, and a release ring of 16 entries at local address 0x800 (R377, R381, R396). -/
def bytecodeCore (k : Core) : Core :=
  { placedCore k with
    bcMode := true, wp := 0, pendDst := [], fenceSt := false, ctb := 0, rring := 0x800, tlb := [placedEnt]
    lines := [(0, 0x201000 / 64), (0, 0x201040 / 64)]
    ls := memWrite (memWrite (memWrite (memWrite (memWrite (memWrite (memWrite k.ls
      0x80 8 0) 0x88 8 0x100001000) 0x90 8 0x1000) 0x98 8 0x1000) 0xA0 8 0x2000) 0x800 8 0x400900) 0x808 8 0 }

/-- The bytes of the bytecode stand at BPC, zeros after them. -/
def placeBytecode (s : State) (bs : List Nat) : State :=
  let c : CoreId := ⟨.control, 0⟩
  let s1 := placedBase c s
  let m := memWrite (memWrite s1.near 0x201008 8 16) 0x201040 16 0
  let s2 := { s1 with near := memPut m 0x201040 (bs.map (BitVec.ofNat 8)), fab := [] }
  s2.modCore c bytecodeCore

/-- A row's bits placed as the instruction that the decoder reads from them. -/
def placeWord (s : State) (nbits w : Nat) : State :=
  match decodeTableWord nbits w with
  | some i => if (encodeBytecode i).isEmpty then placeNative s w else placeBytecode s (tableBytes nbits w)
  | none => placeNative s w

end Sys2Proof.Machine
end

