-- ==== Sys2Proof/Machine/Turns.lean ====
section
/-!
DEFINITION. Who acts in a step. A core's turn fetches and runs its next instruction or bytecode, or does what comes before
one; an event's turn runs that event. Where the agenda names no turn, a default schedule rotates over the cores and the
engine events that are due (log 1).
-/
namespace Sys2Proof.Machine

abbrev Out := Host.Outcome State Fault Refusal

/-! ### A core's turn -/

/-- The event with a subject. -/
def runEvent (i : Instr) (e : Ev) (s : State) : Out := exec i { s with ev := e }

/-- Bytecode mode (R381, R386): the bytecode at BPC, the bad-byte entry, or the trap or wait of its reads. -/
def stepBytecode (c : CoreId) (s : State) : Out :=
  match fetchBytecode s c with
  | .ok i s1 => exec i s1
  | .bad w s1 => runEvent .unassignedBytecode { core := c, w := w } s1
  | .trap t insn => .next (takeTrap s c t insn 0 4 false)
  | .wait s1 => .next (waitCore s1 c (s.core c) (1 + s.stall))

/-- The instruction that a core decodes from its words: itself, or the unassigned opcode (R92-R100). -/
def execWords (c : CoreId) (ws : List Nat) (s : State) : Out :=
  match decode c.cls (nth ws 0 0) (nth ws 1 0) (nth ws 2 0) (nth ws 3 0) (nth ws 4 0) with
  | .ok i => exec i s
  | .error _ => runEvent .unassignedOpcode { core := c, w := nth ws 0 0, nats := ws.drop 1 } s

/-- Native mode (R86, R125, R281): the instruction at PC, or the trap or wait of its fetch. -/
def stepNative (c : CoreId) (s : State) : Out :=
  match fetchInstr s c with
  | .ok ws s1 => execWords c ws s1
  | .trap t => .next (takeTrap s c t 0 0 4 false)
  | .wait s1 => .next (waitCore s1 c (s.core c) (1 + s.stall))

/-- A core acts: unfinished vector work completes, a pending boundary trap is taken, a budget that has run out traps, an
idle core selects, and a running core runs its next instruction or bytecode. -/
def coreStep (c : CoreId) (s0 : State) : Out :=
  let s := { s0 with cur := c }
  let k := s.core c
  if k.vpend then runEvent .vectorCompletion { core := c } s
  else if !k.bpend.isEmpty && !k.inHandler && k.life == .active && !k.served then runEvent .boundaryTrap { core := c } s
  else if k.idleReady then runEvent .selection { core := c } s
  else if !executes s c then .next s
  else if k.cyclesLeft == 0 && !k.served then runEvent .budgetExpiry { core := c } s
  else if k.bcMode then stepBytecode c s
  else stepNative c s

/-! ### Turns of the agenda -/

/-- Whether an instruction is an event: only events may be named by the agenda. -/
def isEvent : Instr → Bool
  | .selection | .messageInject | .messageArrival | .messageRefusalReply | .messageRetry | .enqueueArrival
  | .enqueueLanding | .channelPacketArrival | .cancelPacketArrival | .budgetExpiry | .boundaryTrap | .faultRecordWrite
  | .codeStreamLanding | .vectorCompletion | .fabricStorePerform | .fabricLoadPerform | .storeAck | .fldReturn
  | .fabricRetryReply | .fabricRetry | .atomicPerform | .atomicReply | .kilnAccept | .slipPhaseStart | .kilnPhaseStart
  | .kilnRetire | .issueWindow | .copyJobStart | .chunkRequest | .streamerRequest | .beatLanding | .walkSlotStart
  | .walkEnd | .fbdestWrite | .gbarRelease | .blockLanded | .peerFlitArrival | .peerFlitRetry | .linkRetrainEnd
  | .meshFlitRetry | .placementRound | .prologueStart | .kernelComplete | .rringRetry | .saggarEvictionEnd
  | .saggarRestoreStart | .saggarRestoreEnd | .preemptRequestArrival | .evictionSave | .coreRestore | .plimExpiry
  | .sliceExpiry | .contextDescWrite | .governorTick | .pointChangeEnd | .scrub | .pairLag | .couplingCopy
  | .couplingAbandon | .powerUp | .fwgo | .selfTestDone | .attestRequest | .attestServe | .msiVectorStore | .hostSnoop
  | .noticeRead | .healthCountRead | .swinRead | .streamStart | .tail | .txBlockSent | .expanderLinkDown | .deckleRequest
  | .deckleComplete | .registerWrite | .unassignedOpcode | .unassignedBytecode | .lineCacheFill | .hostBarWrite => true
  | _ => false

/-- The events that begin or go on with work of contexts, which a device stopped by a failed hop does not take (R440).
Packets already in the mesh perform, and the host port answers. -/
def isWork : Instr → Bool
  | .messageInject | .messageRetry | .codeStreamLanding | .fabricRetry | .kilnAccept | .slipPhaseStart | .kilnPhaseStart
  | .kilnRetire | .issueWindow | .copyJobStart | .chunkRequest | .streamerRequest | .walkSlotStart | .walkEnd | .gbarRelease
  | .placementRound | .prologueStart | .kernelComplete | .rringRetry | .saggarEvictionEnd | .saggarRestoreStart
  | .saggarRestoreEnd | .preemptRequestArrival | .evictionSave | .coreRestore | .plimExpiry | .sliceExpiry | .pairLag
  | .couplingCopy | .couplingAbandon | .streamStart | .tail | .txBlockSent | .deckleRequest | .deckleComplete => true
  | _ => false

/-- A turn's actor acts. -/
def act (a : Actor) (s : State) : Out :=
  match a with
  | .core c => coreStep c s
  | .event i e => if isEvent i && !(s.health.stopped && isWork i) then runEvent i e s else .next s

/-! ### The default schedule (log 1) -/

/-- Indices of a list with its elements. -/
def numbered {α : Type} (l : List α) : List (Nat × α) := (List.range l.length).zip l

def due (i : Instr) (e : Ev) : List Actor := [.event i e]

/-- What is due for an access in flight. -/
def fabDue (i : Nat) (a : Acc) : List Actor :=
  match a.phase, a.kind with
  | .going, .store _ => due .fabricStorePerform { i := i }
  | .going, .load _ _ _ _ => due .fabricLoadPerform { i := i }
  | .going, .amo _ _ _ _ _ => due .atomicPerform { i := i }
  | .done _, .store _ => due .storeAck { i := i }
  | .done _, .load _ _ _ _ => due .fldReturn { i := i }
  | .done _, .amo _ _ _ _ _ => due .atomicReply { i := i }
  | .refused, _ => due .fabricRetryReply { i := i }
  | .waiting, _ => due .fabricRetry { i := i }

/-- What is due for an item of the network. -/
def netDue (i : Nat) (m : Msg) : List Actor :=
  match m.kind, m.phase with
  | .ordinary, .going => due .messageArrival { i := i }
  | .ordinary, .refused _ => due .messageRefusalReply { i := i }
  | .ordinary, .waiting => due .messageRetry { i := i }
  | .enq _, _ => due .enqueueArrival { i := i }
  | .hold _, _ => due .channelPacketArrival { i := i }
  | .ready _, _ => due .channelPacketArrival { i := i }
  | .cancel _ _, _ => due .cancelPacketArrival { i := i }
  | .clear _, _ => due .cancelPacketArrival { i := i }

/-- What is due on a core. -/
def coreDue (c : CoreId) (k : Core) : List Actor :=
  (if k.sout.isEmpty then [] else due .messageInject { core := c }) ++
  (if k.landing.isEmpty then [] else due .enqueueLanding { core := c }) ++
  (if k.fillWait.isSome then due .lineCacheFill { core := c } else []) ++
  (if k.gbarIn.isSome then due .gbarRelease { core := c } else []) ++
  (if k.preReq.isSome then due .plimExpiry { core := c } else []) ++
  (if k.pairReq == 3 then due .couplingCopy { core := c } else []) ++
  (match k.life with
   | .preparing => due .prologueStart { core := c }
   | .saving => due .evictionSave { core := c }
   | .restoring => due .coreRestore { core := c }
   | .ending => due .kernelComplete { core := c, ok := false }
   | _ => []) ++
  (if k.kreq.isSome then due .kilnAccept { i := rowOf c } else [])

/-- What is due for a kiln operation of a row. -/
def kopDue (row : Nat) (o : KOp) : List Actor :=
  match o.phase with
  | .accepted => due .slipPhaseStart { i := row } ++ due .kilnPhaseStart { i := row, j := o.uid }
  | .slipDone => due .kilnPhaseStart { i := row, j := o.uid }
  | .kiln => due .kilnRetire { i := row, j := o.uid }

def jobDue (j : Job) : List Actor :=
  match j.phase with
  | .queued => due .copyJobStart { i := j.couch }
  | .running _ => due .chunkRequest { i := j.uid }
  | _ => []

def beatDue (i : Nat) (b : Beat) : List Actor :=
  if b.data.isSome then due .beatLanding { i := i } else due .streamerRequest { i := i }

def domDue (d : Nat) (x : Domain) : List Actor :=
  (if x.wait.isEmpty then [] else due .walkSlotStart { i := d }) ++
  (if x.walks.isEmpty then [] else due .walkEnd { i := d })

def launchDue (l : Launch) : List Actor :=
  (if l.over then [] else due .kernelComplete { i := l.ctx, j := l.id } ++ due .sliceExpiry { i := l.ctx, j := l.id }) ++
  (if l.ringDue then due .rringRetry { i := l.ctx, j := l.id } else [])

def saggarDue (n : Nat) (g : Saggar) : List Actor :=
  if g.st == 2 then due .saggarEvictionEnd { i := n }
  else if g.copying then due .saggarRestoreEnd { i := n }
  else if g.rest then due .saggarRestoreStart { i := n }
  else []

def islandDue (n : Nat) (i : Island) : List Actor :=
  if i.changing then due .pointChangeEnd { i := n } else if i.waits.isEmpty && !i.waited && i.changeTo.isNone then [] else due .issueWindow { i := n }

def linkDue (n : Nat) (l : Link) : List Actor :=
  ((l.landing.filter (fun b => b.1 == nextBlock l)).map (fun b => Actor.event .blockLanded { i := n, j := b.1 })) ++
  ((List.range 4).filter (fun g => nth l.head g 0 % 2 ^ 31 != nth l.tail g 0 % 2 ^ 31)).map
    (fun g => Actor.event .txBlockSent { i := n, j := g })

def deckleDue (n : Nat) (rs : List DkReq) : List Actor :=
  match rs with
  | [] => []
  | r :: _ => if r.result.isSome then due .deckleComplete { i := n } else due .deckleRequest { i := n }

/-- The engine events that are due. -/
def dueEvents (s : State) : List Actor :=
  (numbered s.fab).flatMap (fun e => fabDue e.1 e.2) ++
  (numbered s.net).flatMap (fun e => netDue e.1 e.2) ++
  s.placedCores.flatMap (fun e => coreDue e.1 e.2) ++
  s.rows.flatMap (fun e => e.2.kops.flatMap (kopDue e.1)) ++
  s.jobs.flatMap jobDue ++
  (numbered s.beats).flatMap (fun e => beatDue e.1 e.2) ++
  (numbered s.doms).flatMap (fun e => domDue e.1 e.2) ++
  s.launches.flatMap launchDue ++
  s.saggars.flatMap (fun e => saggarDue e.1 e.2) ++
  (numbered s.islands).flatMap (fun e => islandDue e.1 e.2) ++
  (numbered s.links).flatMap (fun e => linkDue e.1 e.2) ++
  (numbered s.deckles).flatMap (fun e => deckleDue e.1 e.2) ++
  s.preReqs.flatMap (fun r => due .preemptRequestArrival { core := r.1 }) ++
  (if s.frecs.isEmpty then [] else due .faultRecordWrite {}) ++
  (if s.sec.queue.isEmpty then [] else due .attestServe {})

/-- The turn of an empty agenda: a placement round each 256 cycles (R289), else by turns a placed core and a due event,
each in rotation. -/
def defaultTurn (s : State) : Turn :=
  let m := s.cycle - (s.cycle / 256 + 1)
  let n := m / 2
  if s.cycle % 256 = 0 then { actor := .event .placementRound {} }
  else
    let cores := s.placedCores
    let evs := dueEvents s
    let core := (cores[n % max 1 cores.length]?).map (fun e => Actor.core e.1)
    let ev := evs[n % max 1 evs.length]?
    { actor := ((if m % 2 = 0 then core.or ev else ev.or core).getD (.core s.cur)) }

/-- The turn that a step takes. -/
def nextTurn (s : State) : Turn :=
  match s.agenda with
  | [] => defaultTurn s
  | t :: _ => t

/-- The state in which a turn's actor acts: its cycles have passed, and the turn has left the agenda (R373). -/
def beginTurn (t : Turn) (s : State) : State :=
  { s with agenda := s.agenda.drop 1, cycle := s.cycle + t.dt, stall := t.stall }

end Sys2Proof.Machine
end

