-- ==== Sys2Proof/Machine/Step.lean ====
section
/-!
DEFINITION. One step of the device: the next turn's actor acts. And the state in which a given instruction is the next
that a step fetches.
-/
namespace Sys2Proof.Machine

/-- One step. -/
def step (s : State) : Host.Outcome State Fault Refusal := act (nextTurn s).actor (beginTurn (nextTurn s) s)

/-- The state with an instruction placed where the next step fetches it (log 20). -/
def State.withFetchWord (s : State) (nbits w : Nat) : State := placeWord s nbits w

end Sys2Proof.Machine
end

