-- ==== Sys2Proof/Safety.lean ====
section
/-!
DEFINITION. The terms in which claims are stated: when a core runs an instruction, what it is after issue, and what an
update of local bytes leaves alone.
-/
namespace Sys2Proof.Safety

open Sys2Proof.Machine

/-- The current core executes native code, the instruction passes the checks of Table 4-15 on its class, and neither a
vector instruction nor an acquire holds it (R100, R151, R235). -/
def ready (i : Instr) (s : State) : Prop :=
  executes s s.cur = true ∧ (s.core s.cur).bcMode = false ∧ i.check s.cur.cls = none ∧
    (s.core s.cur).vpend = false ∧ (s.core s.cur).acqWait = false

/-- The current core as it issues an instruction: its program counter past the instruction's words, n cycles, with the turn's
stall, charged, and whether it has an access to its own window under way (R95, R103, R253). -/
def issued (i : Instr) (n : Nat) (s : State) : Core :=
  ({ s.core s.cur with pc := (s.core s.cur).pc + 4 * (encode i).length, own := ownBusy s s.cur } : Core).issue n s.stall

/-- A core whose instruction waits with nothing registered: the cycles count, and its multiplies come nearer (R103). -/
def waited (s : State) (c : CoreId) : Core :=
  ({ s.core c with late := (s.core c).agedLate (1 + s.stall), owed := 0 } : Core).charge (1 + s.stall)

/-- A core differs from another in its local store, shadows and the copies of the flags and mask words alone. -/
def localOnly (c k : Core) : Prop :=
  ∃ ls sh fl m, k = { c with ls := ls, sh := sh, flags := fl, mask := m }

/-- The bytes that a store of n bytes at a may change: those bytes, and the other bytes of a special word that it meets,
whose reserved bits are cleared (R79). -/
def storeTouched (c : Core) (a n x : Nat) : Prop :=
  (a ≤ x ∧ x < a + n) ∨ ∃ o ∈ specialOffsets, meets a n (c.wp + o) 8 = true ∧ c.wp + o ≤ x ∧ x < c.wp + o + 8

/-- The local store and the shadows are in canonical form. -/
def localWf (c : Core) : Prop := Memory.wf c.ls = true ∧ Memory.wf c.sh = true

/-- The bytes of the pointer words that the post-increments of some operands write (R78). -/
def bumped (c : Core) (l : List Spec) (x : Nat) : Prop :=
  ∃ a : Fin 8, Spec.ptr a true ∈ l ∧ c.wp + 0x300 + 8 * a.val ≤ x ∧ x < c.wp + 0x300 + 8 * a.val + 8

/-- The bytes that a store at a place may change (R74). -/
def placeTouched (c : Core) (n : Nat) (l : Loc) (x : Nat) : Prop :=
  match l with
  | .word a => storeTouched c a 8 x
  | .at a => storeTouched c a n x
  | .slots q => storeTouched c (nth q 0 0) n x

/-- What an operation on a core's own memory may do: it changes local bytes alone, keeps their canonical form, leaves every
byte outside a set as the core reads it, and changes the copies of the flags and mask words only where the set meets
those words (R75, R110, R132). -/
structure LocalEffect (c k : Core) (p : Nat → Prop) : Prop where
  only : localOnly c k
  wf : localWf c → localWf k
  bytes : localWf c → ∀ x, ¬ p x → localByte k x = localByte c x
  flags : (∀ x, c.wp + 0x380 ≤ x → x < c.wp + 0x388 → ¬ p x) → k.flags = c.flags
  mask : (∀ x, c.wp + 0x388 ≤ x → x < c.wp + 0x390 → ¬ p x) → k.mask = c.mask

/-- A ready instruction of n cycles completes: the outcome is the state with the current core at k and nothing else
changed, and k is the issued core with local bytes changed at most in p. -/
def completes (i : Instr) (n : Nat) (s : State) (k : Core) (p : Nat → Prop) : Prop :=
  exec i s = .next (s.setCore s.cur k) ∧ LocalEffect (issued i n s) k p

/-- The bytes that the post-increments of some operands and a store at the place of a destination may change, for a
destination read after them on core k. -/
def operandBytes (c k : Core) (f : Fmt) (d : Spec) (l : List Spec) (x : Nat) : Prop :=
  bumped c (d :: l) x ∨ ∃ p k', scalarLoc k d (fmtBytes f) = .ok (p, k') ∧ placeTouched c (fmtBytes f) p x

/-- The bytes of a workspace word. -/
def wordBytes (c : Core) (o x : Nat) : Prop := c.wp + o ≤ x ∧ x < c.wp + o + 8

/-! ### Results of the scalar instructions -/

/-- The two-source instructions of Table 5-2 but the multiplies, each with its result: a function of the type's sign, its width and the two
source patterns (R104, R106). -/
def twoSource : List ((IType → Spec → Spec → Spec → Instr) × (Bool → Nat → Nat → Nat → Nat)) :=
  [ (.add, fun _ n x y => (x + y) % 2 ^ n),
    (.sub, fun _ n x y => toPattern n ((x : Int) - (y : Int))),
    (.and, fun _ _ x y => x &&& y),
    (.or, fun _ _ x y => x ||| y),
    (.xor, fun _ _ x y => x ^^^ y),
    (.andn, fun _ n x y => x &&& (2 ^ n - 1 - y % 2 ^ n)),
    (.min, fun sg n x y => if valOf sg n y < valOf sg n x then y else x),
    (.max, fun sg n x y => if valOf sg n x < valOf sg n y then y else x),
    (.shl, fun _ n x y => x * 2 ^ y % 2 ^ n),
    (.shr, fun _ n x y => if y < n then x / 2 ^ y else 0),
    (.sar, fun _ n x y => toPattern n (toSigned n x / ((2 ^ min y n : Nat) : Int))),
    (.rot, fun _ n x y => (x * 2 ^ (y % n) + x / 2 ^ (n - y % n)) % 2 ^ n) ]

/-- The multiplies, whose results can be read 3 cycles after their issue (R103, R104). -/
def twoSourceLate : List ((IType → Spec → Spec → Spec → Instr) × (Bool → Nat → Nat → Nat → Nat)) :=
  [ (.mul, fun _ n x y => x * y % 2 ^ n),
    (.mulh, fun sg n x y => toPattern n (valOf sg n x * valOf sg n y / (2 ^ n : Nat))) ]

/-- The one-source instructions of Table 5-3 without flags, each with its result (R107). -/
def oneSource : List ((IType → Spec → Spec → Instr) × (Nat → Nat → Nat)) :=
  [ (.neg, fun n x => toPattern n (-(x : Int))), (.clz, leadingZeros), (.ctz, trailingZeros), (.popc, popCount),
    (.mov, fun _ x => x) ]

/-! ### Vector instructions -/

/-- A ready vector instruction of n cycles completes, with its results in place and the core waiting for its completion
(R151). -/
def completesV (i : Instr) (n : Nat) (s : State) (k : Core) (p : Nat → Prop) : Prop :=
  exec i s = .next (s.setCore s.cur { k with vpend := true }) ∧ LocalEffect (issued i n s) k p

/-- The bytes of the lanes that `on` selects at a place of 64 bytes, for elements of `size` bytes. -/
def lanesAt (c : Core) (l : Loc) (size count : Nat) (on : Nat → Bool) (x : Nat) : Prop :=
  ∃ i, i < count ∧ on i = true ∧ storeTouched c (l.byteAt (size * i)) size x

/-- The sticky flags and the draw index. -/
def flagBytes (c : Core) (x : Nat) : Prop := wordBytes c 0x390 x ∨ wordBytes c 0x3A8 x

/-- The core after the flags and draws of some lanes. -/
def flagged (k : Core) (r : List Nat × Nat × Nat) : Core := setDrawIndex (orSticky k r.2.1) r.2.2

/-- None of some flags has its trap enabled (R66). -/
def quiet (k : Core) (fl : Nat) : Prop := natAnd fl (field (numCtl k) 13 8) = 0

/-- The trap of some raised flags: the lowest whose trap is enabled (R66). -/
def flagTrap (k : Core) (fl : Nat) : Trap := { cause := .arith, sub := lowestFlag (natAnd fl (field (numCtl k) 13 8)) }

/-- The lane-wise instructions of two sources, each with its lane (R134-R136, R139). -/
def vecTwo : List ((VType → Spec → Spec → Spec → Instr) × (Fmt → Nat → Nat → Nat → Rnd)) :=
  [ (.vadd, arithLane .add .rne), (.vsub, arithLane .sub .rne), (.vmul, arithLane .mul .rne),
    (.vmin, minmaxLane false), (.vmax, minmaxLane true), (.vand, bitLane .and), (.vor, bitLane .or), (.vxor, bitLane .xor),
    (.vshl, bitLane .shl), (.vshr, bitLane .shr), (.vsar, bitLane .sar) ]

/-- Those with a rounding mode. -/
def vecTwoRnd : List ((VType → RMode → Spec → Spec → Spec → Instr) × (RMode → Fmt → Nat → Nat → Nat → Rnd)) :=
  [ (.vaddRnd, arithLane .add), (.vsubRnd, arithLane .sub), (.vmulRnd, arithLane .mul) ]

/-- The lane-wise instructions of one source that take one cycle (R134, R136). -/
def vecOne : List ((VType → Spec → Spec → Instr) × (Fmt → Nat → Nat → Rnd)) :=
  [ (.vabs, absLane), (.vneg, negLane), (.vnot, notLane) ]

/-- The iterative functions in both forms (R142). -/
def vecIterShort : List ((VType → Spec → Spec → Instr) × IterFn) :=
  [ (.vrcp, .rcp), (.vrsq, .rsq), (.vexp2, .exp2), (.vlog2, .log2) ]

def vecIterRnd : List ((VType → RMode → Spec → Spec → Instr) × IterFn) :=
  [ (.vrcpRnd, .rcp), (.vrsqRnd, .rsq), (.vexp2Rnd, .exp2), (.vlog2Rnd, .log2) ]

/-- The value of an inactive lane in a sum, a maximum and a minimum (Table 6-3). -/
def neutral (want : Nat) (f : Fmt) : Nat :=
  match want with
  | 0 => 0
  | 1 => if f.isInt then toPattern (fmtBits f) (intLo f) else (cvtArith f .rne 0 (.inf true)).code
  | _ => if f.isInt then toPattern (fmtBits f) (intHi f) else (cvtArith f .rne 0 (.inf false)).code

/-! ### Instructions on the device -/

/-- The state in which a meaning starts: the issued core in place. -/
def issuedState (i : Instr) (n : Nat) (s : State) : State := s.setCore s.cur (issued i n s)

/-- A ready instruction of n cycles reads A as a z64 word v, which leaves the core at k (R102). -/
def readsA (i : Instr) (n : Nat) (s : State) (a : Spec) (v : Nat) (k : Core) : Prop :=
  ready i s ∧ readSrc (issued i n s) .z64 a = .ok (v, k)

/-- A ready instruction of n cycles reads A and then B as z64 words (R83). -/
def readsAB (i : Instr) (n : Nat) (s : State) (a b : Spec) (v w : Nat) (k : Core) : Prop :=
  ready i s ∧ ∃ k0, readSrc (issued i n s) .z64 a = .ok (v, k0) ∧ readSrc k0 .z64 b = .ok (w, k)

/-- D takes a word on a core. -/
def takesWord (k : Core) (d : Spec) : Prop := ∃ k', writeDst k .z64 d 0 = .ok k'

/-- An instruction whose effect leads to s2 completes with the word r written at D, and the write changes the bytes of D's
place and pointer word alone. -/
def answers (i : Instr) (s s2 : State) (d : Spec) (r : Nat) : Prop :=
  ∀ k, writeDst (s2.core s.cur) .z64 d r = .ok k →
    exec i s = .next (s2.setCore s.cur k) ∧
      LocalEffect (s2.core s.cur) k (operandBytes (s2.core s.cur) (s2.core s.cur) .z64 d [])

/-- The same for an instruction whose duration is n control-core cycles (R400-R405). -/
def answersControl (n : Nat) (i : Instr) (s s2 : State) (d : Spec) (r : Nat) : Prop :=
  ∀ k, writeDst (s2.core s.cur) .z64 d r = .ok k →
    exec i s = .next (s2.setCore s.cur (k.chargeControl n)) ∧
      LocalEffect (s2.core s.cur) k (operandBytes (s2.core s.cur) (s2.core s.cur) .z64 d [])

/-- An instruction traps: the outcome is the state after the entry of the trap at that instruction (R263). -/
def traps (i : Instr) (s : State) (t : Trap) : Prop :=
  exec i s = .next (takeTrap s s.cur t (nth (encode i) 0 0) (nth (encode i) 1 0) (4 * (encode i).length) false)

/-- A step goes on: it neither faults nor refuses. -/
def goesOn (s : State) : Prop := ∃ t, step s = .next t

/-! ### Bytecodes -/

/-- The current control core runs bytecode i: nothing holds it, its release ring has four free entries, and the stack has room
for `grow` words more (R385). -/
def frontReady (grow : Nat) (s : State) : Prop :=
  let k := s.core s.cur
  inBytecode s s.cur = true ∧ k.vpend = false ∧ k.acqWait = false ∧ unreadyAt k (k.wp + 128) 64 = false ∧ 4 ≤ ringFree k ∧
    (grow = 0 ∨ wReg k 18 + 8 * grow ≤ wReg k 20)

/-- BPC after a bytecode (R383). -/
def nextBpc (i : Instr) (s : State) : Nat := wReg (s.core s.cur) 16 + (encodeBytecode i).length

/-- The state after a meaning of the front end, with its control-core cycles and the turn's stall charged (R4, R103, R400). -/
def charged (s : State) (r : State × Nat) : State := r.1.modCore s.cur (fun k => k.front r.2 s.stall)

/-- A bytecode comes to a plan of writes: where they can be made (R386), the outcome is the state after them. -/
def plans (i : Instr) (s : State) (f : Fe) (next cost : Nat) : Prop :=
  ∀ r, f.finish s.cur next cost = .ok r → exec i s = .next (charged s r)

/-- The words that a dispatch writes (R384): BPC after it, and words 24 to 28 and 31. -/
def dispatchWords (k : Core) (next w24 w25 w26 w27 reason : Nat) : List (Nat × Nat) :=
  [(k.wp + 128, next), (k.wp + 192, w24), (k.wp + 200, w25), (k.wp + 208, w26), (k.wp + 216, w27), (k.wp + 224, reason),
    (k.wp + 248, resumeMarker)]

/-- A core at the native code that a dispatch goes to. -/
def atRoutine (s : State) (c : CoreId) (t : Nat) : State :=
  s.modCore c (fun k => { k with bcMode := false, pc := t, sleeping := false })

/-- Bytecode i goes to its routine of the handler table for a reason (R384): where the entry t can be read and is a target,
and the words can be written, the core runs native code there. -/
def dispatched (i : Instr) (s : State) (opnd slot reason : Nat) : Prop :=
  let c := s.cur
  let k := s.core c
  ∀ t s1, handlerEntry s c ((encodeBytecode i).headD 0) = .ok t → checkTarget s c t = .ok () →
    storeWords s c (dispatchWords k (nextBpc i s) ((encodeBytecode i).headD 0) opnd slot (wReg k 16) reason) = .ok s1 →
    exec i s = .next (charged s (atRoutine s1 c t, 6))

/-- The inline-cache lookup of bytecode i with n operands hits way j (R390, R391): the entry is of the function's version, of
this bytecode and of this kind, and the guards of the way hold; f is the machine after the reads. -/
def lookupHits (kind n : Nat) (callee : Option Nat) (slot : Nat) (s : State) (xs : List Nat) (way j : Nat) (f : Fe) : Prop :=
  let c := s.cur
  let f0 : Fe := { s := s, sp := wReg (s.core c) 18 }
  frontReady 0 s ∧ f0.operands c n = .ok xs ∧ (∀ v, callee = some v → f0.peek c n = .ok v) ∧
    ∃ r0 f1, f0.rd c (f0.w c 17) 8 = .ok (r0, f1) ∧
      let e := icEntry (f1.s.core c) ((f1.w c 21 + slot) % 2048)
      field e.1 63 32 = field r0 63 32 ∧ field e.1 31 8 = wReg (s.core c) 16 ∧ field e.1 7 5 = kind ∧
      (field e.1 4 3 = 1 ∨ field e.1 4 3 = 2) ∧
      tryWays kind c e xs (callee.getD 0) ((if field e.1 4 3 = 2 then field e.1 2 1 else 0) + 1) 0 f1 = .ok (some (way, j), f)

/-- The cycles of a hit (R390). -/
def hitCost (j : Nat) : Nat := if j = 0 then 3 else 7

end Sys2Proof.Safety
end

