-- ==== Sys2Proof/Certificates/Slice0/Obligations.lean ====
section
/-!
DEFINITION. The statements for the provers. Each docstring names the rules of the spec that it rests on. Statements of what
an instruction does conclude with the outcome of `exec` on every state and operands that meet conditions on them.
-/

open Sys2Proof Sys2Proof.Machine Sys2Proof.Safety

/-! ### Scalar instructions (05_scalar) -/

/-- R104, R106, R74, R83: each two-source instruction reads A and B in that order, writes its result at D, and
leaves everything else of the device as it was. R103: the result of `mul` and `mulh` can be read 3 cycles after its issue, and
an instruction whose first source waits issues again, with no effect but the cycles that it took. -/
def Obligations.TwoSourceScalars : Prop :=
  (∀ p ∈ twoSource, ∀ (t : IType) (d a b : Spec) (s : State) (x y : Nat) (k1 k2 k3 : Core),
    ready (p.1 t d a b) s →
    readSrc (issued (p.1 t d a b) 1 s) (ifmt t) a = .ok (x, k1) →
    readSrc k1 (ifmt t) b = .ok (y, k2) →
    writeDst k2 (ifmt t) d (p.2 (fmtSigned (ifmt t)) (fmtBits (ifmt t)) x y) = .ok k3 →
    completes (p.1 t d a b) 1 s k3 (operandBytes (s.core s.cur) k2 (ifmt t) d [a, b])) ∧
  (∀ p ∈ twoSourceLate, ∀ (t : IType) (d a b : Spec) (s : State) (x y : Nat) (l : Loc) (k1 k2 k3 k4 : Core),
    let place : Nat × Nat := match l with
      | .word z => (z, 8)
      | .at z => (z, fmtBytes (ifmt t))
      | .slots q => (nth q 0 0, fmtBytes (ifmt t))
    ready (p.1 t d a b) s →
    readSrc (issued (p.1 t d a b) 1 s) (ifmt t) a = .ok (x, k1) →
    readSrc k1 (ifmt t) b = .ok (y, k2) →
    scalarLoc k2 d (fmtBytes (ifmt t)) = .ok (l, k3) →
    storeLoc k3 (ifmt t) (p.2 (fmtSigned (ifmt t)) (fmtBits (ifmt t)) x y) l = .ok k4 →
    exec (p.1 t d a b) s = .next (s.setCore s.cur { k4 with late := (place.1, place.2, 3) :: k4.late }) ∧
      LocalEffect (issued (p.1 t d a b) 1 s) k4 (operandBytes (s.core s.cur) k2 (ifmt t) d [a, b])) ∧
  (∀ p ∈ twoSource ++ twoSourceLate, ∀ (t : IType) (d a b : Spec) (s : State),
    ready (p.1 t d a b) s → readSrc (issued (p.1 t d a b) 1 s) (ifmt t) a = .error .wait →
    exec (p.1 t d a b) s = .next (s.setCore s.cur (waited s s.cur)))

/-- R105, R64-R66: `div` and `rem` truncate toward 0; a divisor of 0 gives all ones and the dividend and raises DZ, which
is set where its trap is not enabled. They take 4 + n/2 cycles (Table 5-1).
R105, R66: with the trap of DZ enabled, a division by 0 raises ARITH with the subcode of the lowest raised flag whose
trap is enabled, and writes nothing. -/
def Obligations.DivideAndRemainder : Prop :=
  (∀ (t : IType) (d a b : Spec) (s : State) (x y : Nat) (k1 k2 k3 : Core) (isRem : Bool),
     let i := if isRem then Instr.rem t d a b else Instr.div t d a b
     let f := ifmt t
     let n := fmtBits f
     let u := valOf (fmtSigned f) n x
     let v := valOf (fmtSigned f) n y
     let k := if v = 0 then orSticky k2 flDZ else k2
     ready i s →
     readSrc (issued i (4 + n / 2) s) f a = .ok (x, k1) →
     readSrc k1 f b = .ok (y, k2) →
     (v = 0 → natAnd flDZ (field (numCtl k2) 13 8) = 0) →
     writeDst k f d
       (if isRem then (if v = 0 then x else toPattern n (Int.tmod u v))
        else if v = 0 then 2 ^ n - 1 else toPattern n (Int.tdiv u v)) = .ok k3 →
     completes i (4 + n / 2) s k3
       (fun z => wordBytes (s.core s.cur) 0x390 z ∨ operandBytes (s.core s.cur) k f d [a, b] z)) ∧
  (∀ (t : IType) (d a b : Spec) (s : State) (x y : Nat) (k1 k2 : Core) (isRem : Bool),
     let i := if isRem then Instr.rem t d a b else Instr.div t d a b
     let f := ifmt t
     ready i s →
     readSrc (issued i (4 + fmtBits f / 2) s) f a = .ok (x, k1) →
     readSrc k1 f b = .ok (y, k2) →
     valOf (fmtSigned f) (fmtBits f) y = 0 →
     natAnd flDZ (field (numCtl k2) 13 8) ≠ 0 →
     exec i s = .next (takeTrap s s.cur { cause := .arith, sub := lowestFlag (natAnd flDZ (field (numCtl k2) 13 8)) }
       (nth (encode i) 0 0) (nth (encode i) 1 0) (4 * (encode i).length) false))

/-- R107, R65: the one-source instructions. `abs` gives the magnitude; the most negative value gives the greatest and raises
SAT, which is set where its trap is not enabled, and raises ARITH where it is (R66). The others raise no flag. -/
def Obligations.OneSourceScalars : Prop :=
  (∀ p ∈ oneSource, ∀ (t : IType) (d a : Spec) (s : State) (x : Nat) (k1 k2 : Core),
    ready (p.1 t d a) s →
    readSrc (issued (p.1 t d a) 1 s) (ifmt t) a = .ok (x, k1) →
    writeDst k1 (ifmt t) d (p.2 (fmtBits (ifmt t)) x) = .ok k2 →
    completes (p.1 t d a) 1 s k2 (operandBytes (s.core s.cur) k1 (ifmt t) d [a])) ∧
  (∀ (t : IType) (d a : Spec) (s : State) (x : Nat) (k1 k2 : Core),
    let f := ifmt t
    let n := fmtBits f
    let sat := fmtSigned f && x == 2 ^ (n - 1)
    let k := if sat then orSticky k1 flSAT else k1
    ready (.abs t d a) s →
    readSrc (issued (.abs t d a) 1 s) f a = .ok (x, k1) →
    ((sat = true → natAnd flSAT (field (numCtl k1) 13 8) = 0) →
      writeDst k f d (if sat then 2 ^ (n - 1) - 1 else toPattern n (valOf (fmtSigned f) n x).natAbs) = .ok k2 →
      completes (.abs t d a) 1 s k2
        (fun z => wordBytes (s.core s.cur) 0x390 z ∨ operandBytes (s.core s.cur) k f d [a] z)) ∧
    (sat = true → natAnd flSAT (field (numCtl k1) 13 8) ≠ 0 →
      traps (.abs t d a) s (flagTrap k1 flSAT)))

/-- R109-R113: `cmp.cc` writes EQ, LT, LTU and SEL to the flags word and SEL to D, and `sel` reads both sources and takes A
where SEL is set. -/
def Obligations.CompareAndSelect : Prop :=
  ∀ (c : Cond) (t : IType) (d a b : Spec) (s : State) (x y : Nat) (k1 k2 k3 : Core),
    let f := ifmt t
    let n := fmtBits f
    let eq := decide (x % 2 ^ n = y % 2 ^ n)
    let lt := decide (toSigned n x < toSigned n y)
    let ltu := decide (x % 2 ^ n < y % 2 ^ n)
    let holds : Bool := match c with
      | .eq => eq | .ne => !eq | .lt => lt | .le => lt || eq | .gt => !lt && !eq | .ge => !lt
      | .ltu => ltu | .leu => ltu || eq | .gtu => !ltu && !eq | .geu => !ltu | .al => true
    let w := bnat eq + 2 * bnat lt + 4 * bnat ltu + 8 * bnat holds
    (ready (.cmp c t d a b) s →
      readSrc (issued (.cmp c t d a b) 1 s) f a = .ok (x, k1) →
      readSrc k1 f b = .ok (y, k2) →
      writeDst (writeFlags k2 w) f d (bnat holds) = .ok k3 →
      completes (.cmp c t d a b) 1 s k3
        (fun z => wordBytes (s.core s.cur) 0x380 z ∨ operandBytes (s.core s.cur) (writeFlags k2 w) f d [a, b] z)) ∧
    (ready (.sel t d a b) s →
      readSrc (issued (.sel t d a b) 1 s) f a = .ok (x, k1) →
      readSrc k1 f b = .ok (y, k2) →
      writeDst k2 f d (if bitAt (s.core s.cur).flags 3 then x else y) = .ok k3 →
      completes (.sel t d a b) 1 s k3 (operandBytes (s.core s.cur) k2 f d [a, b]))

/-- R108: `bext` extracts L bits from position P of A, sign-extended in a signed type; `bins` puts the low L bits of A at
position P of D and keeps D's other bits. P and L are those of B, L clipped at the width. -/
def Obligations.BitFields : Prop :=
  ∀ (t : IType) (d a b : Spec) (s : State) (x y : Nat) (k1 k2 : Core),
    let f := ifmt t
    let n := fmtBits f
    let p := y % 64
    let l := if p < n then min (y / 64 % 128) (n - p) else 0
    (∀ k3, ready (.bext t d a b) s →
      readSrc (issued (.bext t d a b) 1 s) f a = .ok (x, k1) →
      readSrc k1 .z64 b = .ok (y, k2) →
      writeDst k2 f d (if l = 0 then 0 else if fmtSigned f then signExt l n (x / 2 ^ p % 2 ^ l) else x / 2 ^ p % 2 ^ l) = .ok k3 →
      completes (.bext t d a b) 1 s k3 (operandBytes (s.core s.cur) k2 f d [a, b])) ∧
    (∀ k3 k4 q old, ready (.bins t d a b) s →
      readSrc (issued (.bins t d a b) 1 s) f a = .ok (x, k1) →
      readSrc k1 .z64 b = .ok (y, k2) →
      scalarLoc k2 d (fmtBytes f) = .ok (q, k3) →
      loadLoc k3 f q = .ok old →
      storeLoc k3 f (natOr (natAnd old (natNot n ((2 ^ l - 1) * 2 ^ p % 2 ^ n))) (natAnd (x * 2 ^ p) ((2 ^ l - 1) * 2 ^ p % 2 ^ n))) q = .ok k4 →
      completes (.bins t d a b) 1 s k4 (operandBytes (s.core s.cur) k2 f d [a, b]))

/-- R114: `movi` and `li` write an immediate (sign-extended, or zero-extended for `li` in a z type), `addi` adds one to D
modulo 2^n.
R115-R117, R77-R79: `lea` writes the address that A names plus B; `pset` and `mset` write a pointer word (address, modulo
register, wrap enable) and a modulo word (base, length). -/
def Obligations.ImmediatesAndPointers : Prop :=
  (∀ (t : IType) (d : Spec) (n : BitVec 14) (e : BitVec 32) (s : State),
     let f := ifmt t
     (∀ k, ready (.movi t d n) s → writeDst (issued (.movi t d n) 1 s) f d (toPattern (fmtBits f) n.toInt) = .ok k →
       completes (.movi t d n) 1 s k (operandBytes (s.core s.cur) (issued (.movi t d n) 1 s) f d [])) ∧
     (∀ k, ready (.li t d e) s →
       writeDst (issued (.li t d e) 1 s) f d (toPattern (fmtBits f) (if fmtSigned f then e.toInt else (e.toNat : Int))) = .ok k →
       completes (.li t d e) 1 s k (operandBytes (s.core s.cur) (issued (.li t d e) 1 s) f d [])) ∧
     (∀ l k1 v k2, ready (.addi t d n) s →
       scalarLoc (issued (.addi t d n) 1 s) d (fmtBytes f) = .ok (l, k1) →
       loadLoc k1 f l = .ok v →
       storeLoc k1 f (toPattern (fmtBits f) (v + n.toInt)) l = .ok k2 →
       completes (.addi t d n) 1 s k2 (operandBytes (s.core s.cur) (issued (.addi t d n) 1 s) f d []))) ∧
  (∀ (d a b : Spec) (p : Fin 8) (m : Fin 4) (s : State) (x y : Nat) (k1 k2 : Core),
     (ready (.lea d a b) s →
       leaAddr (issued (.lea d a b) 1 s) a = .ok x →
       readSrc (issued (.lea d a b) 1 s) .z64 b = .ok (y, k1) →
       writeDst k1 .z64 d ((x + y) % 2 ^ 64) = .ok k2 →
       completes (.lea d a b) 1 s k2 (operandBytes (s.core s.cur) k1 .z64 d [b])) ∧
     (ready (.pset p a b) s →
       readSrc (issued (.pset p a b) 1 s) .z64 a = .ok (x, k1) →
       readSrc k1 .z64 b = .ok (y, k2) →
       completes (.pset p a b) 1 s
         (setWsWord k2 (0x300 + 8 * p.val) (x % 2 ^ 17 + 2 ^ 18 * (y % 4) + 2 ^ 20 * (y / 4 % 2)))
         (fun z => wordBytes (s.core s.cur) (0x300 + 8 * p.val) z ∨ bumped (s.core s.cur) [a, b] z)) ∧
     (ready (.mset m a b) s →
       readSrc (issued (.mset m a b) 1 s) .z64 a = .ok (x, k1) →
       readSrc k1 .z64 b = .ok (y, k2) →
       completes (.mset m a b) 1 s
         (setWsWord k2 (0x340 + 8 * m.val) (x % 2 ^ 17 + 2 ^ 32 * (y % 2 ^ 17)))
         (fun z => wordBytes (s.core s.cur) (0x340 + 8 * m.val) z ∨ bumped (s.core s.cur) [a, b] z)))

/-- R118-R120, R191, R79: `hbind` binds a handle to B slots from A, or unbinds it, and raises ALIGN, then FABRIC, where it
cannot; `hadv.c` and `hadv.p` advance a handle, the h3 bound to the channel FIFO over the slots of messages alone, wait
for the slots or the room, trap on a handle of no slots and on a count above SIZE (the record's address is then the
count, the model's choice of log 88), and 0 slots change nothing; `hstat` reports FILL, free slots and CONS. -/
def Obligations.HandleOperations : Prop :=
  ∀ (d a b : Spec) (h : Fin 4) (s : State) (k1 k2 : Core),
    let w (k : Core) : Nat := wsWord k (0x360 + 8 * h.val)
    let size (k : Core) : Nat := field (w k) 27 14
    let cons (k : Core) : Nat := field (w k) 41 28
    let fill (k : Core) : Nat := field (w k) 55 42
    let next (k : Core) (n : Nat) : Nat :=
      if h.val = 3 ∧ k.h3fifo = true ∧ k.wp = k.fifoWp then
        (fslotFrom (size k) (nth k.chans k.channel {}).skip (n - 1) (cons k) + 1) % size k
      else (cons k + n) % size k
    let free (k : Core) : Core := { k with h3fifo := k.h3fifo && (h.val != 3 || k.wp != k.fifoWp) }
    (∀ (x : Int) (n : Nat), ready (.hbind h a b) s →
      readS (issued (.hbind h a b) 1 s) a = .ok (x, k1) →
      readSrc k1 .z64 b = .ok (n, k2) →
      x % 8 = 0 → (n = 0 ∨ (0 ≤ x ∧ x + 8 * n ≤ (s.core s.cur).top ∧ n ≤ 16383)) →
      exec (.hbind h a b) s =
        .next (s.setCore s.cur (free (setWsWord k2 (0x360 + 8 * h.val) (if n = 0 then 0 else x.toNat / 8 + n * 2 ^ 14))))) ∧
    (∀ n, ready (.hadvC h a) s → readSrc (issued (.hadvC h a) 1 s) .z64 a = .ok (n, k1) →
      size k1 ≠ 0 → 0 < n → n ≤ fill k1 → n ≤ size k1 →
      completes (.hadvC h a) 1 s
        (setWsWord k1 (0x360 + 8 * h.val)
          (field (w k1) 27 0 + next k1 n * 2 ^ 28 + (fill k1 - n) * 2 ^ 42))
        (fun z => wordBytes (s.core s.cur) (0x360 + 8 * h.val) z ∨ bumped (s.core s.cur) [a] z)) ∧
    (∀ n, ready (.hadvP h a) s → readSrc (issued (.hadvP h a) 1 s) .z64 a = .ok (n, k1) →
      size k1 ≠ 0 → 0 < n → n ≤ size k1 - fill k1 →
      completes (.hadvP h a) 1 s (setWsWord k1 (0x360 + 8 * h.val) (w k1 + n * 2 ^ 42))
        (fun z => wordBytes (s.core s.cur) (0x360 + 8 * h.val) z ∨ bumped (s.core s.cur) [a] z)) ∧
    (∀ i ∈ [Instr.hadvC h a, .hadvP h a], ready i s → readSrc (issued i 1 s) .z64 a = .ok (0, k1) → size k1 ≠ 0 →
      completes i 1 s k1 (bumped (s.core s.cur) [a])) ∧
    (∀ (p : Bool) (n : Nat),
      let i := if p then Instr.hadvP h a else .hadvC h a
      ready i s → readSrc (issued i 1 s) .z64 a = .ok (n, k1) →
      (size k1 = 0 → traps i s { cause := .undef, sub := 0x04 }) ∧
      (size k1 ≠ 0 → size k1 < n → traps i s { cause := .align, addr := n }) ∧
      (size k1 ≠ 0 → 0 < n → n ≤ size k1 → (if p then size k1 - fill k1 else fill k1) < n →
        exec i s = .next (s.setCore s.cur (waited s s.cur)))) ∧
    (∀ (x : Int) (n : Nat), ready (.hbind h a b) s →
      readS (issued (.hbind h a b) 1 s) a = .ok (x, k1) → readSrc k1 .z64 b = .ok (n, k2) →
      (x % 8 ≠ 0 → traps (.hbind h a b) s { cause := .align, addr := toPattern 64 x }) ∧
      (x % 8 = 0 → n ≠ 0 → (x < 0 ∨ ((s.core s.cur).top : Int) < x + 8 * n ∨ 16383 < n) →
        traps (.hbind h a b) s { cause := .fabric, addr := toPattern 64 x })) ∧
    (let k := issued (.hstat d h) 1 s
     ready (.hstat d h) s →
      writeDst k .z64 d (if size k = 0 then 0 else fill k + 2 ^ 16 * (size k - fill k) + 2 ^ 32 * cons k) = .ok k1 →
      completes (.hstat d h) 1 s k1 (operandBytes (s.core s.cur) k .z64 d []))

/-- R122, R83, R74: `ld` writes D with the pattern at address A + B; `st` reads D last and stores its pattern there. The
bytes that `st` stores to are those of the type's width at A + B. An address that is not in the local store raises FABRIC,
one that the width does not divide ALIGN, with the address in the record. -/
def Obligations.LocalLoadStore : Prop :=
  ∀ (t : IType) (d a b : Spec) (s : State) (x y : Int) (k1 k2 : Core),
    let f := ifmt t
    let z := (x + y).toNat
    (0 ≤ x + y → z + fmtBytes f ≤ (s.core s.cur).top → z ≤ 0x1FFFF → z % (min (fmtBytes f) 8) = 0 →
    (∀ k3, ready (.ld t d a b) s →
      readS (issued (.ld t d a b) 1 s) a = .ok (x, k1) → readS k1 b = .ok (y, k2) →
      unreadyAt k2 z (fmtBytes f) = false →
      writeDst k2 f d (readLocal k2 z (fmtBytes f)) = .ok k3 →
      completes (.ld t d a b) 1 s k3 (operandBytes (s.core s.cur) k2 f d [a, b])) ∧
    (∀ v k3, ready (.st t d a b) s →
      readS (issued (.st t d a b) 1 s) a = .ok (x, k1) → readS k1 b = .ok (y, k2) →
      readSrc k2 f d = .ok (v, k3) →
      pendingAt k3 z (fmtBytes f) = false → ownAt k3 z (fmtBytes f) = false → heldAt k3 z (fmtBytes f) = false →
      completes (.st t d a b) 1 s (writeLocal k3 z (fmtBytes f) v)
        (fun i => storeTouched (s.core s.cur) z (fmtBytes f) i ∨ bumped (s.core s.cur) [a, b, d] i))) ∧
    (∀ i ∈ [Instr.ld t d a b, .st t d a b], ready i s →
      readS (issued i 1 s) a = .ok (x, k1) → readS k1 b = .ok (y, k2) →
      ((x + y < 0 ∨ 0x1FFFF < x + y ∨ ((s.core s.cur).top : Int) < x + y + fmtBytes f) →
        traps i s { cause := .fabric, addr := toPattern 64 (x + y) }) ∧
      (0 ≤ x + y → z ≤ 0x1FFFF → z + fmtBytes f ≤ (s.core s.cur).top → z % (min (fmtBytes f) 8) ≠ 0 →
        traps i s { cause := .align, addr := z }))

/-- R123, R58, R57: `ldt` converts the element at A + B from its memory format into D, `stt` converts D into it. An inexact
stochastic conversion takes one draw of the core's stream. An address that is not in the local store raises FABRIC, one
that the element's width does not divide ALIGN. -/
def Obligations.ConvertingLoadStore : Prop :=
  ∀ (t : IType) (g : Fmt) (rm : RMode) (d a b : Spec) (s : State) (x y : Int) (k1 k2 : Core),
    let f := ifmt t
    let z := (x + y).toNat
    let n := fmtBytes g
    let drawn (k : Core) (r : Rnd) : Core := if r.drew then setDrawIndex k (drawIndex k + 1) else k
    (0 ≤ x + y → z + n ≤ (s.core s.cur).top → z ≤ 0x1FFFF → z % (min n 8) = 0 →
    (∀ k3, ready (.ldt t g rm d a b) s →
      readS (issued (.ldt t g rm d a b) 1 s) a = .ok (x, k1) → readS k1 b = .ok (y, k2) →
      unreadyAt k2 z n = false →
      let r := cvtFrom g f false rm (coreDraw k2 (drawIndex k2)) (readLocal k2 z n)
      (quiet k2 r.flags → writeDst (drawn (orSticky k2 r.flags) r) f d r.code = .ok k3 →
        exec (.ldt t g rm d a b) s = .next (s.setCore s.cur k3)) ∧
      (¬ quiet k2 r.flags → traps (.ldt t g rm d a b) s (flagTrap k2 r.flags))) ∧
    (∀ v k3, ready (.stt t g rm d a b) s →
      readS (issued (.stt t g rm d a b) 1 s) a = .ok (x, k1) → readS k1 b = .ok (y, k2) →
      readSrc k2 f d = .ok (v, k3) →
      let r := cvtFrom f g (e5o k3) rm (coreDraw k3 (drawIndex k3)) v
      let k4 := drawn (orSticky k3 r.flags) r
      (quiet k3 r.flags → pendingAt k4 z n = false → ownAt k4 z n = false → heldAt k4 z n = false →
        exec (.stt t g rm d a b) s = .next (s.setCore s.cur (writeLocal k4 z n r.code))) ∧
      (¬ quiet k3 r.flags → traps (.stt t g rm d a b) s (flagTrap k3 r.flags)))) ∧
    (∀ i ∈ [Instr.ldt t g rm d a b, .stt t g rm d a b], ready i s →
      readS (issued i 1 s) a = .ok (x, k1) → readS k1 b = .ok (y, k2) →
      ((x + y < 0 ∨ 0x1FFFF < x + y ∨ ((s.core s.cur).top : Int) < x + y + n) →
        traps i s { cause := .fabric, addr := toPattern 64 (x + y) }) ∧
      (0 ≤ x + y → z ≤ 0x1FFFF → z + n ≤ (s.core s.cur).top → z % (min n 8) ≠ 0 →
        traps i s { cause := .align, addr := z }))

/-! ### Vector instructions (06_vector) -/

/-- R132, R133, R57: lanes run under the copy of the mask word. An inactive lane raises no flag and takes no draw; the flags
are the union over the active lanes; draws follow the order of the lanes; and a lane that takes no draw has the result of its
own operands alone.
R131, R133-R136, R139, R62: the lane-wise instructions of two sources, short and rounded. The active lanes of D take the
results; flags whose traps are not enabled are set; no other byte changes but the pointer words of post-increments. Where a
raised flag has its trap enabled, the lowest such flag raises ARITH and D is not written (R66). -/
def Obligations.VectorTwoSource : Prop :=
  (∀ (c : Core) (g : Nat → Nat → Rnd) (l : List Nat) (d : Nat),
    (runLanes c g l d).1.length = l.length ∧
    (∀ j, j < l.length → active c (nth l j 0) = false → nth (runLanes c g l d).1 j 0 = 0) ∧
    ((∀ i ∈ l, active c i = false) → (runLanes c g l d).2 = (0, d)) ∧
    ((∀ i u, (g u i).drew = false) →
      (runLanes c g l d).2.2 = d ∧
      (∀ j, j < l.length → active c (nth l j 0) = true → ∃ e, nth (runLanes c g l d).1 j 0 = (g e (nth l j 0)).code))) ∧
  (∀ (i : Instr) (t : VType) (d a b : Spec) (g : Fmt → Nat → Nat → Nat → Rnd) (s : State) (x y : Nat) (l : Loc)
    (k1 k2 k3 k4 : Core),
    ((∃ p ∈ vecTwo, i = p.1 t d a b ∧ g = p.2) ∨ (∃ p ∈ vecTwoRnd, ∃ rm, i = p.1 t rm d a b ∧ g = p.2 rm)) →
    let k := issued i 1 s
    let f := vfmt (chooseV k t)
    let n := fmtBits f
    let r := runLanes k (fun u j => g f u (lane n x j) (lane n y j)) (List.range (512 / n)) (drawIndex k)
    ready i s → readVec k f a = .ok (x, k1) → readVec k1 f b = .ok (y, k2) → vectorLoc k2 d = .ok (l, k3) →
    (quiet k3 r.2.1 → storeLanes (flagged k3 r) (n / 8) l (active k) 0 r.1 = .ok k4 →
      completesV i 1 s k4 (fun z => bumped k [a, b, d] z ∨ flagBytes k z ∨ lanesAt k l (n / 8) (512 / n) (active k) z)) ∧
    (¬ quiet k3 r.2.1 →
      traps i s (flagTrap k3 r.2.1)))

/-- R135, R108: `vfma` and `vfms` read D at the address they write, and round A × B ± D once. -/
def Obligations.VectorFused : Prop :=
  ∀ (i : Instr) (t : VType) (d a b : Spec) (sub : Bool) (rm : RMode) (s : State) (x y z : Nat) (l : Loc)
    (k1 k2 k3 k4 : Core),
    ((rm = .rne ∧ i = if sub then .vfms t d a b else .vfma t d a b) ∨
      i = if sub then .vfmsRnd t rm d a b else .vfmaRnd t rm d a b) →
    let k := issued i 1 s
    let f := vfmt (chooseV k t)
    let n := fmtBits f
    let r := runLanes k (fun u j => fmaLane sub rm f u (lane n x j) (lane n y j) (lane n z j)) (List.range (512 / n))
      (drawIndex k)
    ready i s → readVec k f a = .ok (x, k1) → readVec k1 f b = .ok (y, k2) → vectorLoc k2 d = .ok (l, k3) →
    loadVec k3 l = .ok z →
    (quiet k3 r.2.1 → storeLanes (flagged k3 r) (n / 8) l (active k) 0 r.1 = .ok k4 →
      completesV i 1 s k4 (fun z => bumped k [a, b, d] z ∨ flagBytes k z ∨ lanesAt k l (n / 8) (512 / n) (active k) z)) ∧
    (¬ quiet k3 r.2.1 → traps i s (flagTrap k3 r.2.1))

/-- R136, R142, R134: the lane-wise instructions of one source. An iterative function takes one cycle and 4 for each of its
iterations, `vlog2` takes 9 (Table 6-4). -/
def Obligations.VectorOneSource : Prop :=
  ∀ (i : Instr) (t : VType) (d a : Spec) (g : Core → Fmt → Nat → Nat → Rnd) (s : State) (cost x : Nat) (l : Loc)
    (k1 k2 k3 : Core),
    ((cost = 1 ∧ ∃ p ∈ vecOne, i = p.1 t d a ∧ g = fun _ => p.2) ∨
      (∃ p ∈ vecIterShort, i = p.1 t d a ∧ cost = iterCost p.2 (s.core s.cur) t ∧
        g = fun k f u x => iterLane p.2 (iterCount k t) f .rne u (decodeFmt f x)) ∨
      (∃ p ∈ vecIterRnd, ∃ rm, i = p.1 t rm d a ∧ cost = iterCost p.2 (s.core s.cur) t ∧
        g = fun k f u x => iterLane p.2 (iterCount k t) f rm u (decodeFmt f x))) →
    let k := issued i cost s
    let f := vfmt (chooseV k t)
    let n := fmtBits f
    let r := runLanes k (fun u j => g k f u (lane n x j)) (List.range (512 / n)) (drawIndex k)
    ready i s → readVec k f a = .ok (x, k1) → vectorLoc k1 d = .ok (l, k2) →
    (quiet k2 r.2.1 → storeLanes (flagged k2 r) (n / 8) l (active k) 0 r.1 = .ok k3 →
      completesV i cost s k3 (fun z => bumped k [a, d] z ∨ flagBytes k z ∨ lanesAt k l (n / 8) (512 / n) (active k) z)) ∧
    (¬ quiet k2 r.2.1 → traps i s (flagTrap k2 r.2.1))

/-- R137, R143, R71: `vcmp.cc` writes a word of the active lanes' conditions; the reductions combine the lanes in a tree,
inactive lanes at the value that leaves the result as it is. -/
def Obligations.VectorToScalar : Prop :=
  ∀ (t : VType) (d a b : Spec) (s : State) (x : Nat) (k1 : Core),
    (∀ (cc : Cond) (y : Nat) (k2 k3 : Core),
      let i := Instr.vcmp cc t d a b
      let k := issued i 1 s
      let f := vfmt t
      let n := fmtBits f
      let on := (List.range (512 / n)).filter (active k)
      let fl := on.foldl (fun w j => natOr w (cmpLane cc f (lane n x j) (lane n y j)).2) 0
      let w := on.foldl (fun w j => if (cmpLane cc f (lane n x j) (lane n y j)).1 then w + 2 ^ j else w) 0
      ready i s → readVec k f a = .ok (x, k1) → readVec k1 f b = .ok (y, k2) →
      (quiet k2 fl → writeDst (orSticky k2 fl) .z64 d w = .ok k3 →
        completesV i 1 s k3 (fun z => wordBytes k 0x390 z ∨ operandBytes k (orSticky k2 fl) .z64 d [a, b] z)) ∧
      (¬ quiet k2 fl → traps i s (flagTrap k2 fl))) ∧
    (∀ (i : Instr) (want : Nat) (node : Fmt → Nat → Nat → Nat → Rnd) (rm : RMode) (k2 : Core),
      ((i = .vrsum t d a ∧ want = 0 ∧ node = arithLane .add .rne) ∨
        (i = .vrsumRnd t rm d a ∧ want = 0 ∧ node = arithLane .add rm) ∨
        (i = .vrmax t d a ∧ want = 1 ∧ node = minmaxLane true) ∨ (i = .vrmin t d a ∧ want = 2 ∧ node = minmaxLane false)) →
      let k := issued i 1 s
      let f := vfmt (chooseV k t)
      let n := fmtBits f
      let vs := (List.range (512 / n)).map (fun j => if active k j then lane n x j else neutral want f)
      let r := treeReduce (node f) (coreDraw k) (Nat.log2 (512 / n)) vs 0 (drawIndex k)
      ready i s → readVec k f a = .ok (x, k1) →
      (quiet k1 r.2.1 → writeDst (setDrawIndex (orSticky k1 r.2.1) r.2.2) f d r.1 = .ok k2 →
        completesV i 1 s k2
          (fun z => flagBytes k z ∨ operandBytes k (setDrawIndex (orSticky k1 r.2.1) r.2.2) f d [a] z)) ∧
      (¬ quiet k1 r.2.1 → traps i s (flagTrap k1 r.2.1)))

/-- R138, R144, R147, R149: the instructions that move lanes, with the lanes that each writes. -/
def Obligations.VectorMoves : Prop :=
  ∀ (t : VType) (d a b : Spec) (s : State) (x y : Nat) (l : Loc) (k1 k2 k3 k4 : Core),
    let f := vfmt t
    let n := fmtBits f
    let count := 512 / n
    let lanes (g : Nat → Nat) : List Nat := (List.range count).map g
    let put (i : Instr) (on : Nat → Bool) (vs : List Nat) (used : List Spec) (from' : Core) : Prop :=
      vectorLoc from' d = .ok (l, k3) → storeLanes k3 (n / 8) l on 0 vs = .ok k4 →
      completesV i 1 s k4 (fun z => bumped (issued i 1 s) used z ∨ lanesAt (issued i 1 s) l (n / 8) count on z)
    let idx := if f.isInt then f else if n = 32 then Fmt.z32 else Fmt.z16
    let key (v : Nat) : Nat :=
      let u := if f.isInt then (if fmtSigned f then natXor v (2 ^ (n - 1)) else v)
        else if bitAt v (n - 1) then natNot n v else natXor v (2 ^ (n - 1))
      if bitAt y 0 then natNot n u else u
    (let i := Instr.vsel t d a b
     let k := issued i 1 s
     ready i s → readVec k f a = .ok (x, k1) → readVec k1 f b = .ok (y, k2) →
      put i (fun _ => true) (lanes (fun j => if active k j then lane n x j else lane n y j)) [a, b, d] k2) ∧
    (let i := Instr.vperm t d a b
     let k := issued i 1 s
     ready i s → readVec k f a = .ok (x, k1) → readVec k1 idx b = .ok (y, k2) →
      put i (active k) (lanes (fun j => lane n x (lane n y j % count))) [a, b, d] k2) ∧
    (let i := Instr.vbcast t d a
     let k := issued i 1 s
     ready i s → readSrc k f a = .ok (x, k1) → put i (active k) (List.replicate count x) [a, d] k1) ∧
    (let i := Instr.vins t d a b
     let k := issued i 1 s
     ready i s → readSrc k f a = .ok (x, k1) → readSrc k1 .z64 b = .ok (y, k2) →
      put i (fun j => j == y % count) (List.replicate count x) [a, b, d] k2) ∧
    (let i := Instr.vkey t d a b
     let k := issued i 1 s
     ready i s → readVec k f a = .ok (x, k1) → readSrc k1 .z64 b = .ok (y, k2) →
      put i (active k) (lanes (fun j => key (lane n x j))) [a, b, d] k2) ∧
    (let i := Instr.vcompress t d a
     let k := issued i 1 s
     let on := ((List.range count).filter (active k)).map (lane n x)
     ready i s → readVec k f a = .ok (x, k1) →
      put i (fun _ => true) (on ++ List.replicate (count - on.length) 0) [a, d] k1) ∧
    (let i := Instr.vext t d a b
     let k := issued i 1 s
     ready i s → readVec k f a = .ok (x, k1) → readSrc k1 .z64 b = .ok (y, k2) →
      writeDst k2 f d (lane n x (y % count)) = .ok k3 → completesV i 1 s k3 (operandBytes k k2 f d [a, b])) ∧
    (let i := Instr.vcount t d a b
     let k := issued i 1 s
     ready i s → readVec k f a = .ok (x, k1) → readSrc k1 f b = .ok (y, k2) →
      writeDst k2 .z64 d ((List.range count).filter (fun j => active k j && lane n x j == y)).length = .ok k3 →
      completesV i 1 s k3 (operandBytes k k2 .z64 d [a, b]))

/-- R145, R146, R83: `vld` and `vst` move 64 bytes at A + B, only the active lanes written, and raise FABRIC or ALIGN where
the 64 bytes are not in the local store or not aligned to 8; `vldx` and `vstx` gather and scatter lane i at
A + s·(lane i of B), in ascending order of the active lanes, and take the trap of the first lane whose check fails. -/
def Obligations.VectorMemory : Prop :=
  ∀ (t : VType) (d a b : Spec) (s : State) (x y : Int) (l : Loc) (k1 k2 k3 k4 : Core),
    let f := vfmt t
    let n := fmtBits f
    let count := 512 / n
    let z := (x + y).toNat
    let inRange (k : Core) : Prop := 0 ≤ x + y ∧ z + 64 ≤ k.top ∧ z ≤ 0x1FFFF ∧ z % 8 = 0
    (let i := Instr.vld t d a b
     let k := issued i 1 s
     ready i s → readS k a = .ok (x, k1) → readS k1 b = .ok (y, k2) → inRange k → unreadyAt k2 z 64 = false →
      vectorLoc k2 d = .ok (l, k3) → storeLanes k3 (n / 8) l (active k) 0 (lanesOf n (readLocal k2 z 64)) = .ok k4 →
      completesV i 1 s k4 (fun q => bumped k [a, b, d] q ∨ lanesAt k l (n / 8) count (active k) q)) ∧
    (∀ v, let i := Instr.vst t d a b
     let k := issued i 1 s
     ready i s → readS k a = .ok (x, k1) → readS k1 b = .ok (y, k2) → inRange k → readVec k2 f d = .ok (v, k3) →
      storeLanes k3 (n / 8) (.at z) (active k) 0 (lanesOf n v) = .ok k4 →
      completesV i 1 s k4 (fun q => bumped k [a, b, d] q ∨ lanesAt k (.at z) (n / 8) count (active k) q)) ∧
    (∀ v vs, let i := Instr.vldx t d a b
     let k := issued i (gatherCost t a b (s.core s.cur)) s
     ready i s → readS k a = .ok (x, k1) → readVec k1 (indexFmt f) b = .ok (v, k2) →
      checkLanes k2 n x v ((List.range count).filter (active k)) = .ok () →
      loadLanes k2 n x v (List.range count) = .ok vs → vectorLoc k2 d = .ok (l, k3) →
      storeLanes k3 (n / 8) l (active k) 0 vs = .ok k4 →
      completesV i (gatherCost t a b (s.core s.cur)) s k4
        (fun q => bumped k [a, b, d] q ∨ lanesAt k l (n / 8) count (active k) q)) ∧
    (∀ v u, let i := Instr.vstx t d a b
     let k := issued i (gatherCost t a b (s.core s.cur)) s
     let on := (List.range count).filter (active k)
     ready i s → readS k a = .ok (x, k1) → readVec k1 (indexFmt f) b = .ok (v, k2) →
      checkLanes k2 n x v on = .ok () → readVec k2 f d = .ok (u, k3) → scatterLanes n x v u on k3 = .ok k4 →
      completesV i (gatherCost t a b (s.core s.cur)) s k4
        (fun q => bumped k [a, b, d] q ∨ ∃ j ∈ on, storeTouched k (laneAddr n x v j).toNat (n / 8) q)) ∧
    (∀ i ∈ [Instr.vld t d a b, .vst t d a b], ready i s →
      readS (issued i 1 s) a = .ok (x, k1) → readS k1 b = .ok (y, k2) →
      ((x + y < 0 ∨ 0x1FFFF < x + y ∨ ((s.core s.cur).top : Int) < x + y + 64) →
        traps i s { cause := .fabric, addr := toPattern 64 (x + y) }) ∧
      (0 ≤ x + y → z ≤ 0x1FFFF → z + 64 ≤ (s.core s.cur).top → z % 8 ≠ 0 →
        traps i s { cause := .align, addr := z })) ∧
    (∀ i ∈ [Instr.vldx t d a b, .vstx t d a b], ∀ (v j : Nat),
      let k := issued i (gatherCost t a b (s.core s.cur)) s
      let e (q : Nat) : Int := laneAddr n x v q
      let present (q : Nat) : Prop := 0 ≤ e q ∧ e q ≤ 0x1FFFF ∧ e q + (n / 8 : Nat) ≤ ((s.core s.cur).top : Int)
      ready i s → readS k a = .ok (x, k1) → readVec k1 (indexFmt f) b = .ok (v, k2) →
      j < count → active k j = true → (∀ q, q < j → active k q = true → present q ∧ (e q).toNat % (n / 8) = 0) →
      (¬ present j → traps i s { cause := .fabric, addr := toPattern 64 (e j) }) ∧
      (present j → (e j).toNat % (n / 8) ≠ 0 → traps i s { cause := .align, addr := (e j).toNat }))

/-- R140, R49: `vcvt` converts as many elements as both formats' lanes allow; with f = g an element that is no NaN passes
unchanged; a destination of half-byte elements keeps the inactive element of each byte it writes. -/
def Obligations.VectorConvert : Prop :=
  ∀ (f g : Fmt) (rm : RMode) (d a : Spec) (s : State) (x : Nat) (l : Loc) (k1 k2 k3 : Core),
    let i := Instr.vcvt f g rm d a
    let k := issued i 1 s
    let count := min 64 (512 / max (fmtBits f) (fmtBits g))
    let element (u v : Nat) : Rnd :=
      if f = g ∧ (decodeFmt g v).isNan = false then { code := v } else cvtFrom g f (e5o k) rm u v
    let r := runLanes k (fun u j => element u (lane (fmtBits g) x j)) (List.range count) (drawIndex k)
    ready i s → readVec k g a = .ok (x, k1) → vectorLoc k1 d = .ok (l, k2) →
    (¬ quiet k2 r.2.1 → traps i s (flagTrap k2 r.2.1)) ∧
    (quiet k2 r.2.1 → fmtBits f ≠ 4 → storeLanes (flagged k2 r) (fmtBits f / 8) l (active k) 0 r.1 = .ok k3 →
      completesV i 1 s k3
        (fun z => bumped k [a, d] z ∨ flagBytes k z ∨ lanesAt k l (fmtBits f / 8) count (active k) z)) ∧
    (∀ old, quiet k2 r.2.1 → fmtBits f = 4 → loadVec (flagged k2 r) l = .ok old →
      storeLanes (flagged k2 r) 1 l (fun j => active k (2 * j) || active k (2 * j + 1)) 0
        (nibbleBytes ((List.range count).map (fun j => if active k j then nth r.1 j 0 else lane 4 old j))) = .ok k3 →
      exec i s = .next (s.setCore s.cur { k3 with vpend := true }))

/-- R148, R83: `vhist` adds 1, modulo 2^32, to the counter of each active lane's digit, in 256 counters of 4 bytes at the
address that D names. Counters that the local store does not hold raise FABRIC; a misaligned base, and a table that crosses
the end of the pointer's modulo region, raise ALIGN. -/
def Obligations.VectorHistogram : Prop :=
  ∀ (t : VType) (p : Fin 8) (a b : Spec) (s : State) (x y : Nat) (k1 k2 k3 : Core),
    let i := Instr.vhist t (.ptr p false) a b
    let cost := histCost t a b (s.core s.cur)
    let k := issued i cost s
    let n := fmtBits (vfmt t)
    let base := field (aWord k2 p.val) 16 0
    let on := (List.range (512 / n)).filter (active k)
    let region := mWord k2 (field (aWord k2 p.val) 19 18)
    let stop := field region 16 0 + field region 48 32
    let crosses : Prop :=
      bitAt (aWord k2 p.val) 20 = true ∧ field region 48 32 ≠ 0 ∧ base < stop ∧ stop < base + 1024
    let inStore : Prop := base + 1024 ≤ (s.core s.cur).top
    ready i s → readVec k (vfmt t) a = .ok (x, k1) → readSrc k1 .z64 b = .ok (y, k2) →
    (inStore → base % 4 = 0 → ¬ crosses → histLanes base n x (y % 64) on k2 = .ok k3 →
      completesV i cost s k3
        (fun q => bumped k [a, b] q ∨ ∃ j ∈ on, storeTouched k (base + 4 * (lane n x j / 2 ^ (y % 64) % 256)) 4 q)) ∧
    (¬ inStore → traps i s { cause := .fabric, addr := base }) ∧
    (inStore → (base % 4 ≠ 0 ∨ crosses) → traps i s { cause := .align, addr := base })

/-! ### Control transfers, traps and the system group (05_scalar, 12_traps, 18_contexts) -/

/-- R125-R128: `b`, `j` and `call` go to a checked target; an untaken `b`, and a `loop` that has counted down to 0, go on at
the next instruction. A taken `b` costs 2 cycles. `call` writes the address after it to w31, `loop` the counter to its word. -/
def Obligations.DirectTransfers : Prop :=
  ∀ (cc : Cond) (off : BitVec 20) (e : BitVec 32) (n : Fin 16) (s : State),
    let k := s.core s.cur
    let target := (((k.pc : Int) + 4 * off.toInt) % 2 ^ 32).toNat
    let at' (i : Instr) (cost pc : Nat) : Core := { issued i cost s with pc := pc }
    let good (i : Instr) (cost pc : Nat) : Prop := ready i s ∧ checkTarget (issuedState i cost s) s.cur pc = .ok ()
    let free (i : Instr) (cost o : Nat) : Prop :=
      pendingAt k (k.wp + o) 8 = false ∧ ownAt (issued i cost s) (k.wp + o) 8 = false ∧ heldAt k (k.wp + o) 8 = false
    let storing (i : Instr) (cost pc o v : Nat) : Prop :=
      exec i s = .next (s.setCore s.cur (writeLocal (at' i cost pc) (k.wp + o) 8 v)) ∧
        LocalEffect (at' i cost pc) (writeLocal (at' i cost pc) (k.wp + o) 8 v) (wordBytes k o)
    (ready (.b cc off) s → condHolds cc k.flags = false →
      exec (.b cc off) s = .next (issuedState (.b cc off) 1 s)) ∧
    (good (.b cc off) 2 target → condHolds cc k.flags = true →
      exec (.b cc off) s = .next (s.setCore s.cur (at' (.b cc off) 2 target))) ∧
    (good (.j e) 2 e.toNat → exec (.j e) s = .next (s.setCore s.cur (at' (.j e) 2 e.toNat))) ∧
    (good (.call off) 2 target → free (.call off) 2 248 → storing (.call off) 2 target 248 (k.pc + 4)) ∧
    (ready (.loop n off) s → free (.loop n off) 1 (8 * n.val) → lateAt (issued (.loop n off) 1 s) (k.wp + 8 * n.val) 8 = false →
      readLocal k (k.wp + 8 * n.val) 8 = 1 →
      storing (.loop n off) 1 (k.pc + 4) (8 * n.val) 0) ∧
    (good (.loop n off) 1 target → free (.loop n off) 1 (8 * n.val) →
      lateAt (issued (.loop n off) 1 s) (k.wp + 8 * n.val) 8 = false →
      ∀ v, v = (readLocal k (k.wp + 8 * n.val) 8 + (2 ^ 64 - 1)) % 2 ^ 64 → v ≠ 0 →
        storing (.loop n off) 1 target (8 * n.val) v)

/-- R127, R383: `ret` goes to the offset in w31, `jx` to the one that A gives, in 2 cycles; on a control core the resume
marker enters bytecode mode, in 2 control-core cycles.
R125: whichever transfer names it, a target that is not a multiple of 4 raises ALIGN, one outside both sections of the code
or in a section's padding raises FABRIC 0x00, each with the target as its address, and nothing is written; while what tells
padding from code has not arrived in the code stream, the transfer waits.
R129, R163, R274: `nop` changes the program counter alone; `trap` raises TRAP with its number, and `brk` BRK where BRKE is
set in `sr.tcfg` and is a `nop` otherwise. -/
def Obligations.TransfersTrapsAndBreaks : Prop :=
  (∀ (a : Spec) (s : State) (v cost : Nat) (k k2 : Core),
     let goes (i : Instr) (k : Core) : Prop :=
       (v = 0xFFFFFFFFFFFFFFF0 → s.cur.cls = .control → cost = 0 →
         exec i s = .next (s.setCore s.cur { k.chargeControl 2 with bcMode := true })) ∧
       ((v ≠ 0xFFFFFFFFFFFFFFF0 ∨ s.cur.cls ≠ .control) → cost = 2 → checkTarget (s.setCore s.cur k) s.cur v = .ok () →
         exec i s = .next (s.setCore s.cur { k with pc := v }))
     (ready .ret s → unreadyAt (issued .ret cost s) ((s.core s.cur).wp + 248) 8 = false →
       v = readLocal (s.core s.cur) ((s.core s.cur).wp + 248) 8 → goes .ret (issued .ret cost s)) ∧
     (readsA (.jx a) cost s a v k → readSrc (s.core s.cur).seen .z64 a = .ok (v, k2) → goes (.jx a) k)) ∧
  (∀ (i : Instr) (t stop : Nat) (s : State) (l : Launch) (k : Core),
     let c := s.cur
     let rel (off : BitVec 20) : Nat := ((((s.core c).pc : Int) + 4 * off.toInt) % 2 ^ 32).toNat
     let indirect : Prop := t ≠ 0xFFFFFFFFFFFFFFF0 ∨ c.cls ≠ .control
     ready i s →
     ((k = issued i 2 s ∧
        ((∃ e : BitVec 32, i = .j e ∧ t = e.toNat) ∨
         (∃ off, i = .call off ∧ t = rel off) ∨
         (∃ cc off, i = .b cc off ∧ t = rel off ∧ condHolds cc (s.core c).flags = true) ∨
         (i = .ret ∧ indirect ∧ unreadyAt k ((s.core c).wp + 248) 8 = false ∧
           t = readLocal (s.core c) ((s.core c).wp + 248) 8))) ∨
      (k = issued i 1 s ∧ ∃ n off, i = .loop n off ∧ t = rel off ∧ unreadyAt k ((s.core c).wp + 8 * n.val) 8 = false ∧
         readLocal (s.core c) ((s.core c).wp + 8 * n.val) 8 ≠ 1) ∨
      (∃ a k2, i = .jx a ∧ indirect ∧ readSrc (issued i 2 s) .z64 a = .ok (t, k) ∧ readSrc (s.core c).seen .z64 a = .ok (t, k2))) →
     (t % 4 ≠ 0 → traps i s { cause := .align, addr := t }) ∧
     (t % 4 = 0 → codeLaunch (s.setCore c k) c k = some l →
       (sectionEnd l t = none → traps i s { cause := .fabric, addr := t }) ∧
       (sectionEnd l t = some stop →
         (tailLate (s.setCore c k) l t stop = false → isPadding (s.setCore c k) l t stop = true →
           traps i s { cause := .fabric, addr := t }) ∧
         (tailLate (s.setCore c k) l t stop = true → exec i s = .next (s.setCore c (waited s c)))))) ∧
  (∀ (n : BitVec 16) (s : State),
     (ready .nop s → exec .nop s = .next (issuedState .nop 1 s)) ∧
     (ready (.trap n) s → traps (.trap n) s { cause := .trap, sub := n.toNat }) ∧
     (ready (.brk n) s → bitAt (s.core s.cur).tcfg 7 = true → traps (.brk n) s { cause := .brk, sub := n.toNat }) ∧
     (ready (.brk n) s → bitAt (s.core s.cur).tcfg 7 = false → exec (.brk n) s = .next (issuedState (.brk n) 1 s)))

/-- R265-R270: ATTACH and TTB enter the local handler where the context has enabled one, it is usable and it does not run;
any other trap enters the trap handler where it is usable and does not run. The interrupted workspace pointer, program counter
and budget are saved, the fault record stands in w24 to w31 and the interrupted WP in w23 of the handler's workspace. The trap
handler, and the local one on an idle core, has its own budget; for the trap handler a record with the same words is queued
for the fault writer, and SEQ rises. R235, R243: a trap whose entry changes WP waits while a destination is pending. -/
def Obligations.TrapEntersHandler : Prop :=
  (∀ (s : State) (c : CoreId) (t : Trap) (insn ext len : Nat) (boundary : Bool),
    (trapHandler s c t = some false ∧ 1024 * field (s.core c).tcfg 6 0 ≠ (s.core c).wp ∨
      trapHandler s c t = some true ∧ 1024 * field (s.core c).tcfg 14 8 ≠ (s.core c).wp) → (s.core c).pendDst ≠ [] →
    takeTrap s c t insn ext len boundary = s.setCore c (waited s c)) ∧
  ∀ (s : State) (c : CoreId) (t : Trap) (insn ext len : Nat) (boundary isLocal : Bool),
    let s0 := surfaceJob (clearWaits (gangTrap s c t insn boundary) c) c t
    let k := s0.core c
    let forLocal : Prop := (t.cause = .attach ∨ t.cause = .ttb) ∧ bitAt k.tcfg 15 = true ∧ k.lframe = none ∧
      handlerUsable s0 c k (field k.tent 63 32) = true
    let entry := if isLocal then field k.tent 63 32 else field k.tent 31 0
    let wp := 1024 * (if isLocal then field k.tcfg 14 8 else field k.tcfg 6 0)
    let words := faultRecord s0 c t { idle := k.run == .idle, isLocal := k.lframe.isSome }
      (if k.run == .idle && !k.inHandler then 0 else insn) ext (recordSeq s0 k.ctx)
    trapHeld s c t = false →
    k.tframe = none →
    (isLocal = true ∧ forLocal ∨ isLocal = false ∧ ¬ forLocal ∧ handlerUsable s0 c k (field k.tent 31 0) = true) →
    let s' := takeTrap s c t insn ext len boundary
    let k' := s'.core c
    let b := changeWp k wp
    k'.pc = entry ∧ k'.wp = wp ∧ k'.bcMode = false ∧
    k'.hbudget = (if isLocal = true ∧ k.run ≠ .idle then k.hbudget else 256 * field k.tcfg 31 16) ∧
    (∃ fr, k'.tframe = (if isLocal then none else some fr) ∧ k'.lframe = (if isLocal then some fr else k.lframe) ∧ fr.wp = k.wp ∧ fr.pc = k.pc ∧ fr.budget = k.budget ∧ fr.len = len ∧ fr.trap = t ∧
      (fr.obj, fr.off) = pcPlace s0 c k ∧ fr.stamp = s0.cycle) ∧
    k'.run = k.run ∧ k'.budget = k.budget ∧
    (localWf b → ∀ x, ¬ (b.wp + 184 ≤ x ∧ x < b.wp + 256) → localByte k' x = localByte b x) ∧
    (localWf b → wReg k' 23 = k.wp % 2 ^ 64 ∧ ∀ n, n < 8 → wReg k' (24 + n) = nth words n 0 % 2 ^ 64) ∧
    s'.frecs = (if isLocal then s0.frecs else s0.frecs ++ [{ ctx := k.ctx, words := words }]) ∧
    s'.fseqs = (if isLocal then s0.fseqs else ainsert k.ctx ((recordSeq s0 k.ctx + 1) % 2 ^ 32) s0.fseqs)

/-- R269: a trap raised in the trap handler, or one that finds no usable handler, ends the context on the core: a record with
NEST or NOH is queued, the firing is over, the core takes no further one and its pending boundary traps are discarded. -/
def Obligations.ContextEndsOnCore : Prop :=
  ∀ (s : State) (c : CoreId) (t : Trap) (insn ext len : Nat) (boundary : Bool),
    let s0 := surfaceJob (clearWaits (gangTrap s c t insn boundary) c) c t
    let k := s0.core c
    let nested := k.tframe.isSome
    let words := faultRecord s0 c t
      { idle := k.run == .idle, isLocal := k.lframe.isSome && !nested, nest := nested, noh := !nested }
      (if k.run == .idle && !k.inHandler then 0 else insn) ext (recordSeq s0 k.ctx)
    trapHeld s c t = false →
    (nested = true ∨
      (handlerUsable s0 c k (field k.tent 31 0) = false ∧
        ((t.cause ≠ .attach ∧ t.cause ≠ .ttb) ∨ bitAt k.tcfg 15 = false ∨ k.lframe.isSome = true ∨
          handlerUsable s0 c k (field k.tent 63 32) = false))) →
    let s' := takeTrap s c t insn ext len boundary
    s'.frecs = s0.frecs ++ [{ ctx := k.ctx, words := words }] ∧
    (s'.core c).life = .ending ∧ (s'.core c).bpend = [] ∧ executes s' c = false

/-- R272, R268, R365, Table 12-2: `rtt` in its modes. After the trap handler the firing's budget is the frame's, or the full
one after BUDGET; after the local handler it runs on. `.abort`, `.drop` and `.kill` close the firing, as do `.resume` and
`.skip` after BUDGET with a pre-emption request pending; from the local handler they queue a record of its trap with LOCAL = 1.
On an idle core every mode but `.kill` returns the core to selection, or to its eviction where a request waits. Outside a
handler each raises PRIV 0x01. R235, R243: a change of WP waits for pending destinations. -/
def Obligations.ReturnFromHandler : Prop :=
  ∀ (s : State) (fr : Frame),
    let k := s.core s.cur
    let start (i : Instr) : State := issuedState i 1 s
    let back (i : Instr) (pc : Nat) (isLocal : Bool) : Core :=
      let k1 := issued i 1 s
      let b := changeWp k1 fr.wp
      { b with
        pc := pc, bcMode := fr.bc, tframe := none, lframe := if isLocal then none else k1.lframe,
        budget := if fr.idle then k1.budget else if fr.trap.cause = .budget then fullBudget (start i) k1 else if isLocal then k1.budget else fr.budget }
    let after := if fr.boundary || fr.bc then fr.pc else fr.pc + fr.len
    (∀ isLocal : Bool, k.run ≠ .idle → ¬ (fr.trap.cause = .budget ∧ k.preReq.isSome = true) →
      (if isLocal then k.tframe = none ∧ k.lframe = some fr else k.tframe = some fr) →
      (k.pendDst ≠ [] → fr.wp ≠ k.wp → ∀ i ∈ [Instr.rttResume, .rttSkip], ready i s →
        exec i s = .next (s.setCore s.cur (waited s s.cur))) ∧
      ((k.pendDst = [] ∨ fr.wp = k.wp) →
      (ready .rttResume s → exec .rttResume s = .next (s.setCore s.cur (back .rttResume fr.pc isLocal))) ∧
      (ready .rttSkip s → exec .rttSkip s = .next (s.setCore s.cur (back .rttSkip after isLocal))))) ∧
    (∀ isLocal : Bool, (if isLocal then k.tframe = none ∧ k.lframe = some fr else k.tframe = some fr) →
      let told (i : Instr) : State :=
        if isLocal then
          queueRecord (start i) k.ctx (faultRecord (start i) s.cur { fr.trap with
            off := some (fr.trap.off.getD fr.off), obj := some (fr.trap.obj.getD fr.obj), stamp := some fr.stamp }
            { isLocal := true, idle := fr.idle } fr.insn fr.ext (recordSeq s k.ctx))
        else start i
      let keeps (i : Instr) (m : CloseMode) : Prop := k.pendDst = [] ∨ ((closeFiring (told i) s.cur m).core s.cur).wp = k.wp
      (k.run ≠ .idle → ready .rttAbort s → keeps .rttAbort .abort →
        exec .rttAbort s = .next (closeFiring (told .rttAbort) s.cur .abort)) ∧
      (k.run ≠ .idle → fr.trap.cause = .budget → k.preReq.isSome = true → ∀ i ∈ [Instr.rttResume, .rttSkip],
        ready i s → keeps i .abort → exec i s = .next (closeFiring (told i) s.cur .abort)) ∧
      (k.run ≠ .idle → ready .rttDrop s → keeps .rttDrop .drop → exec .rttDrop s = .next (closeFiring (told .rttDrop) s.cur .drop)) ∧
      (ready .rttKill s → keeps .rttKill .abort →
        exec .rttKill s = .next (killLaunch (closeFiring (told .rttKill) s.cur .abort) k.ctx k.launch))) ∧
    (∀ isLocal : Bool, k.run = .idle → (if isLocal then k.tframe = none ∧ k.lframe = some fr else k.tframe = some fr) →
      ∀ i ∈ [Instr.rttResume, .rttSkip, .rttAbort, .rttDrop], ready i s →
        let s' := s.setCore s.cur (back i fr.pc isLocal)
        let leaves : Prop := k.preReq.isSome = true ∧ (isLocal = true ∨ k.lframe = none)
        ((k.pendDst = [] ∨ fr.wp = k.wp) → ¬ leaves → exec i s = .next s') ∧
        ((k.pendDst = [] ∨ ((beginEviction s' s.cur).core s.cur).wp = k.wp) → leaves →
          exec i s = .next (beginEviction s' s.cur))) ∧
    (∀ i ∈ [Instr.rttResume, .rttSkip, .rttAbort, .rttDrop, .rttKill],
      k.tframe = none → k.lframe = none → ready i s → traps i s { cause := .priv, sub := 1 })

/-- R129, R163, R189, R194, R272: `end` waits for the core's kiln operations and then closes the firing. The close passes the
span of the channel, releases the buffered messages to the network in order (under `.abort` and `.drop` they are discarded,
and under `.abort` the span stays), and leaves the core idle with its local store as it was. -/
def Obligations.FiringCloses : Prop :=
  (∀ s : State, ready .endFiring s → (s.core s.cur).kout ≠ 0 →
    exec .endFiring s = .next (s.setCore s.cur (waited s s.cur))) ∧
  (∀ s : State, ready .endFiring s → (s.core s.cur).kout = 0 →
    (s.core s.cur).ctm + (s.core s.cur).sbuf.length ≤ 65535 →
    exec .endFiring s = .next (closeFiring (issuedState .endFiring 1 s) s.cur .normal)) ∧
  (∀ (s : State) (c : CoreId) (m : CloseMode) (ch : Nat),
    let k := s.core c
    let k' := (closeFiring s c m).core c
    let e := nth k.chans ch {}
    k.run = .firing ch → k.preReq = none → k.pairReq ≠ 2 → (∀ x ∈ k.chans, x.bind ≠ 2) →
    (k.pst = .primary → (s.core (coreAt (rowOf c) k.partner)).preReq = none) →
    k'.run = .idle ∧ k'.tframe = none ∧ k'.lframe = none ∧ k'.sbuf = [] ∧ k'.h3fifo = false ∧ k'.bcMode = false ∧
    k'.ls = k.ls ∧ k'.sh = k.sh ∧ k'.wp = k.wp ∧ k'.flags = k.flags ∧ k'.mask = k.mask ∧ k'.acc = k.acc ∧ k'.tiles = k.tiles ∧
    k'.sout = (if m = .normal then k.sout ++ k.sbuf else k.sout) ∧
    k'.ctm = (if m = .normal then k.ctm + k.sbuf.length else k.ctm) ∧
    k'.chans = (if m = .abort then k.chans else setAt k.chans ch (e.advance e.ctl.rate)) ∧
    k'.hdrs = (if m = .abort then k.hdrs else popHeaders ch k.hdrs e.ctl.rate))

/-- R186-R188, R57, R64, R132: selection takes a runnable channel of the highest priority and starts its firing: the entry,
the budget, the workspace, h3 bound to the channel's FIFO, no sticky flags, every lane active, the draw index 0.
R187: the channel that selection takes is runnable, and no runnable channel has a higher priority. -/
def Obligations.Selection : Prop :=
  (∀ (s : State) (c : CoreId) (ch : Nat),
     let k := s.core c
     let e := nth k.chans ch {}
     s.ev.core = c → k.run = .idle → k.life = .active → k.tframe = none → k.lframe = none → k.pairReq ≠ 3 →
     k.pst ≠ .checker → k.pst ≠ .coupling → k.bpend = [] → launchKilled s k = false → s.health.stopped = false →
     pickChannel k = some ch → dropCancelled k ch = none → (1024 * e.ctl.wpi = k.wp ∨ k.pendDst = []) → localWf k →
     ∃ k', exec .selection s = .next (s.setCore c k') ∧
       k'.run = .firing ch ∧ k'.last = ch ∧ k'.pc = e.ctl.entry ∧ k'.budget = 256 * e.ctl.budget ∧ k'.wp = 1024 * e.ctl.wpi ∧
       k'.h3fifo = true ∧ k'.fifoWp = k'.wp ∧ k'.bcMode = false ∧ k'.sbuf = [] ∧ k'.firings = k.firings + 1 ∧
       k'.mask = 2 ^ 64 - 1 ∧ stickyWord k' = 0 ∧ drawIndex k' = 0 ∧
       hWord k' 3 = (e.base + e.size * 2 ^ 14 + e.head * 2 ^ 28 + e.words * 2 ^ 42) % 2 ^ 64 ∧
       k'.chans = k.chans ∧ k'.hdrs = k.hdrs ∧ k'.acc = k.acc ∧ k'.tiles = k.tiles ∧ k'.ttb = k.ttb) ∧
  (∀ (k : Core) (ch : Nat), (∀ n, n < 32 → (nth k.chans n {}).ctl.prio ≤ 3) → pickChannel k = some ch →
     ch < 32 ∧ (nth k.chans ch {}).runnable = true ∧
     (∀ n, n < 32 → (nth k.chans n {}).runnable = true →
       (nth k.chans n {}).ctl.prio ≤ (nth k.chans ch {}).ctl.prio ∧
       ((nth k.chans n {}).ctl.prio = (nth k.chans ch {}).ctl.prio →
         (ch + 32 - (k.last + 1) % 32) % 32 ≤ (n + 32 - (k.last + 1) % 32) % 32)))

/-- R372, R373, R447, R454, Tables 18-4 and 26-2: `srr` answers the system register that A names, 0 for one without a
register, and a bytecode register only on a control core; `rdcyc` answers the cycle count.
R372, R373: `srw` writes `sr.tcfg` and `sr.tent` where the context is a supervisor, and the bytecode registers on a
control core with an aligned local address, one that is not aligned raising ALIGN; every other register, and the first two
without SUP, raise PRIV 0x02. -/
def Obligations.SystemRegisters : Prop :=
  (∀ (d a : Spec) (s : State) (v r : Nat) (k : Core),
     (readsA (.srr d a) 1 s a v k → takesWord k d →
       let ctl := s.cur.cls = .control
       let row := rowOf s.cur
       let isl := nth s.islands (islandOf row) {}
       ((v = 0x00 ∧ r = k.ctx * 2 ^ 50 + classCode s.cur.cls * 2 ^ 48 + coreNumber s.cur k * 2 ^ 34 +
           (if s.cur.cls = .compute then row % 64 * 2 ^ 16 + row / 64 * 2 ^ 8 + placeOf s.cur else 0)) ∨
         (v = 0x12 ∧ s.cur.cls = .compute ∧
           r = min (isl.allow - isl.debt - isl.used) (2 ^ 32 - 1) + isl.cur * 2 ^ 40 + islandOf row * 2 ^ 48) ∨
         (v = 0x12 ∧ s.cur.cls ≠ .compute ∧ r = 2 ^ 63) ∨
         (v = 0x03 ∧ r = k.tcfg) ∨ (v = 0x04 ∧ r = k.tent) ∨ (v = 0x10 ∧ r = k.kstall) ∨
         (v = 0x01 ∧ r = 0x10000 * 2 ^ 32 + topOf s.cur.cls) ∨
         (v = 0x02 ∧ r = (if k.preReq = none then 0 else 1) + (if k.sliceExp then 2 else 0)) ∨
         (v = 0x11 ∧ r = k.eccL * 2 ^ 16 + k.eccR) ∨
         (v = 0x20 ∧ ctl ∧ r = k.bhtab) ∨ (v = 0x21 ∧ ctl ∧ r = k.ltab) ∨ (v = 0x22 ∧ ctl ∧ r = k.bscr) ∨
         (v = 0x23 ∧ ctl ∧ r = k.rring) ∨ (0x20 ≤ v ∧ v ≤ 0x23 ∧ ¬ ctl ∧ r = 0) ∨
         ((0x24 ≤ v ∨ (0x13 ≤ v ∧ v < 0x20) ∨ (0x05 ≤ v ∧ v < 0x10)) ∧ r = 0)) →
       answers (.srr d a) s (s.setCore s.cur k) d r) ∧
     (ready (.rdcyc d) s → takesWord (issued (.rdcyc d) 1 s) d →
       answers (.rdcyc d) s (issuedState (.rdcyc d) 1 s) d (s.cycle % 2 ^ 64))) ∧
  (∀ (n : BitVec 7) (b : Spec) (s : State) (v : Nat) (k : Core),
     let i := Instr.srw n b
     let ends (k' : Core) : Prop := exec i s = .next (s.setCore s.cur k')
     let w := v % 2 ^ 17
     readsA i 1 s b v k →
     (n = 0x03 → k.sup = true → ends { k with tcfg := v }) ∧
     (n = 0x04 → k.sup = true → ends { k with tent := v }) ∧
     (n = 0x20 → s.cur.cls = .control → w % 8 = 0 → ends { k with bhtab := w }) ∧
     (n = 0x21 → s.cur.cls = .control → w % 256 = 0 → ends { k with ltab := w }) ∧
     (n = 0x22 → s.cur.cls = .control → w % 8 = 0 → ends { k with bscr := w }) ∧
     (n = 0x23 → s.cur.cls = .control → w % 8 = 0 → ends { k with rring := w }) ∧
     (((n = 0x20 ∨ n = 0x22 ∨ n = 0x23) ∧ w % 8 ≠ 0 ∨ n = 0x21 ∧ w % 256 ≠ 0) → s.cur.cls = .control →
       traps i s { cause := .align, addr := w }) ∧
     ((n = 0x03 ∨ n = 0x04) → k.sup = false → traps i s { cause := .priv, sub := 2 }) ∧
     ((n = 0x20 ∨ n = 0x21 ∨ n = 0x22 ∨ n = 0x23) → s.cur.cls ≠ .control → traps i s { cause := .priv, sub := 2 }) ∧
     (n ∉ [0x03, 0x04, 0x20, 0x21, 0x22, 0x23] → traps i s { cause := .priv, sub := 2 }))

/-- R275, R64, R76, R103, R372: `sflag` answers the sticky flags and clears those that A names, once the kiln operations of
the core have retired; `wpset` moves the workspace, 16 cycles where it changes, once no destination is pending, and raises
ALIGN or FABRIC for an address that is no workspace; `wdog` answers the cycles left and lowers the budget to A.
R444, Tables 25-3 and 25-4: `pair` answers the pair's status; operation 1 asks for coupling with the core at the next
place, operation 2 for uncoupling; a pair that is coupled or pending stays; another operation raises UNDEF 0x02. -/
def Obligations.FlagsWorkspaceBudgetPair : Prop :=
  (∀ (d a : Spec) (s : State) (v : Nat) (k k2 : Core),
     (readsA (.sflag d a) 1 s a v k → k.kout = 0 → writeDst k .z64 d (stickyWord k) = .ok k2 →
       exec (.sflag d a) s =
         .next (s.setCore s.cur (setWsWord k2 0x390 (natAnd (natAnd (stickyWord k) (natNot 64 v)) 0x3F)))) ∧
     (readsA (.sflag d a) 1 s a v k → k.kout ≠ 0 → exec (.sflag d a) s = .next (s.setCore s.cur (waited s s.cur))) ∧
     (∀ n, n = (if v = (s.core s.cur).wp then 1 else 16) → readsA (.wpset a) n s a v k →
       readSrc (s.core s.cur).seen .z64 a = .ok (v, k2) → v % 1024 = 0 →
       v + 1024 ≤ topOf s.cur.cls → (v = k.wp ∨ k.pendDst = []) →
       exec (.wpset a) s = .next (s.setCore s.cur (changeWp k v)) ∧ (changeWp k v).wp = v) ∧
     (∀ n, n = (if v = (s.core s.cur).wp then 1 else 16) → readsA (.wpset a) n s a v k →
       readSrc (s.core s.cur).seen .z64 a = .ok (v, k2) →
       (v % 1024 ≠ 0 → traps (.wpset a) s { cause := .align, addr := v }) ∧
       (v % 1024 = 0 → topOf s.cur.cls < v + 1024 → traps (.wpset a) s { cause := .fabric, addr := v }) ∧
       (v % 1024 = 0 → v + 1024 ≤ topOf s.cur.cls → v ≠ k.wp → k.pendDst ≠ [] →
         exec (.wpset a) s = .next (s.setCore s.cur (waited s s.cur)))) ∧
     (readsA (.wdog d a) 0 s a v k → writeDst k .z64 d k.cyclesLeft = .ok k2 →
       let left := if v = 0 then k2.cyclesLeft else min k.cyclesLeft v
       exec (.wdog d a) s = .next (s.setCore s.cur (k2.setCycles (left - 1))))) ∧
  (∀ (d a : Spec) (s : State) (v : Nat) (k : Core),
     let i := Instr.pair d a
     let c := s.cur
     let p := (s.setCore c k).core (coreAt (rowOf c) (placeOf c + 1))
     let coupled := { k with pairReq := 1, partner := placeOf c + 1, mism := 0 }
     readsA i 1 s a v k → takesWord k d →
     (v = 0 → answers i s (s.setCore c k) d (pairStatus k)) ∧
     (v = 1 → (placeOf c % 2 = 1 ∨ k.pst = .checker) → answers i s (s.setCore c k) d (2 ^ 63 + 1)) ∧
     (v = 1 → placeOf c % 2 = 0 → k.pst ≠ .checker → (p.life = .free ∨ p.ctx ≠ k.ctx ∨ p.launch ≠ k.launch) →
       answers i s (s.setCore c k) d (2 ^ 63 + 2)) ∧
     (v = 1 → placeOf c % 2 = 0 → k.pst = .single → (k.pairReq = 0 ∨ k.pairReq = 4) → p.life ≠ .free → p.ctx = k.ctx →
       p.launch = k.launch → answers i s (s.setCore c coupled) d (pairStatus coupled)) ∧
     (v = 1 → placeOf c % 2 = 0 → p.life ≠ .free → p.ctx = k.ctx → p.launch = k.launch →
       (k.pst = .primary ∨ k.pst = .coupling ∨ k.pst = .single ∧ (k.pairReq = 1 ∨ k.pairReq = 3)) →
       answers i s (s.setCore c k) d (pairStatus k)) ∧
     (v = 2 → k.pst = .primary → answers i s (s.setCore c { k with pairReq := 2 }) d (pairStatus k)) ∧
     (v = 2 → k.pst ≠ .primary → answers i s (s.setCore c k) d (pairStatus k)) ∧
     (2 < v → traps i s { cause := .undef, sub := 2 }))

/-! ### Fabric and atomics (10_counts_atomics, 11_ordering) -/

/-- R231, R233-R235, R239, R242, R243, R248: `fst`, `fld` and `amo` wait for the count that WAIT names, a release for every count,
and any store for an earlier fence (a fence of its own waits so too); the address is aligned to its size (8 for 64 bytes), which ALIGN asks, and names a home. An
atomic translates a bulk address at issue (a poisoned line fails it there, log 18), and to the system window it raises FABRIC
0x02. R232: an access of 64 bytes has eight words to perform. A store is then on its way and counted
in ct.f, a relaxed load in LDO, an atomic in ATM; an acquire stalls the core; the destination of a load or an atomic is
pending. -/
def Obligations.FabricAccesses : Prop :=
  ∀ (w : FWait) (f : IType) (o : Order) (d a : Spec) (vec : Bool) (sc : Scope) (p : AmoOp) (s : State) (va v : Nat)
    (k1 k2 : Core) (h : Home),
    let k := s.core s.cur
    let goesNow := waitClear k w = true ∧ (isRel o = true → k.ctf = 0 ∧ k.ctb = 0 ∧ k.ldo = 0 ∧ k.atm = 0) ∧ fenceClear k = true
    let acc (k : Core) (kind : AccKind) (posted : Nat) (acq : Bool) : Acc :=
      { src := s.cur, ctx := k.ctx, home := h, va := va, kind := kind, posted := posted, acq := acq, launch := k.launch,
        since := s.cycle }
    let size := if vec then 64 else fmtBytes (ifmt f)
    let words := List.range (max 1 (size / 8))
    (readsA (.fst w f o d a vec sc) 1 s a va k1 → goesNow →
      (if vec then readVec k1 .z64 d = .ok (v, k2) else readSrc k1 (ifmt f) d = .ok (v, k2)) → va % min size 8 = 0 →
      k2.ctf < 65535 →
      fabricHome (s.setCore s.cur k2) s.cur k2.ctx va size true = .ok h →
      exec (.fst w f o d a vec sc) s = .next { s.setCore s.cur { dropFence k2 with ctf := k2.ctf + 1 } with
        fab := s.fab ++ [{ acc k2 (.store (toBytes size v)) 1 false with todo := words }] }) ∧
    (readsA (.fld w f o d a vec sc) 1 s a va k1 → waitClear k w = true → (isAcq o = true ∨ k.ldo < 4) → va % min size 8 = 0 →
      fabricHome (s.setCore s.cur k1) s.cur k1.ctx va size false = .ok h →
      let q := dataPlace k1 vec d
      pendingAt k1 q.1 q.2 = false →
      exec (.fld w f o d a vec sc) s = .next { s.setCore s.cur { k1 with
          pendDst := k1.pendDst ++ [q], ldo := if isAcq o then k1.ldo else k1.ldo + 1, acqWait := isAcq o } with
        fab := s.fab ++ [{ acc k1 (.load size q.1 (fmtSigned (ifmt f)) (!vec)) 0 (isAcq o) with
          todo := words, got := List.replicate size 0 }] }) ∧
    (∀ n, n = fmtBytes (ifmt f) → readsA (.amo sc w f o d a p) 1 s a va k1 → goesNow → k.atm < 8 → va % min n 8 = 0 →
      let q := (dataPlace k1 false d).1
      let place := dataPlace k1 false d
      let sent (s2 : State) (h : Home) : State :=
        let k := s2.core s.cur
        { s2.setCore s.cur { dropFence k with
            pendDst := k.pendDst ++ [place], atm := k.atm + 1, acqWait := isAcq o } with
          fab := s2.fab ++
            [{ acc k (.amo p f (readLocal k q 8 % 2 ^ (8 * n)) (readLocal k (q + 8) 8 % 2 ^ (8 * n)) q) 0 (isAcq o) with
              home := h, since := s2.cycle, big := bigAt s2 (couchOf s.cur) k.ctx va, born := s2.tlbn }] }
      let s1 := s.setCore s.cur k1
      unreadyAt k1 q (if p = .cas then 16 else 8) = false →
      (va < 0xA0000000 → fabricHome s1 s.cur k1.ctx va n true = .ok h → exec (.amo sc w f o d a p) s = .next (sent s1 h)) ∧
      (∀ t pa s2, isBulk va = true → coreTranslate s1 s.cur va 2 = .ok (t, pa) s2 →
        ((t ≠ 2 ∨ pa / 64 ∉ s2.poison) → exec (.amo sc w f o d a p) s = .next (sent s2 (.bulk t pa))) ∧
        (t = 2 → pa / 64 ∈ s2.poison → traps (.amo sc w f o d a p) s { cause := .bulk, sub := 6, addr := va })) ∧
      (0xA0000000 ≤ va → va < 0xB0000000 → traps (.amo sc w f o d a p) s { cause := .fabric, sub := 2, addr := va })) ∧
    (∀ n, n = fmtBytes (ifmt f) → readsA (.amo sc w f o d a p) 1 s a va k1 → goesNow → k.atm < 8 → va % min n 8 ≠ 0 →
      traps (.amo sc w f o d a p) s { cause := .align, addr := va }) ∧
    (readsA (.fld w f o d a vec sc) 1 s a va k1 → waitClear k w = true → (isAcq o = true ∨ k.ldo < 4) →
      (va % min size 8 ≠ 0 → traps (.fld w f o d a vec sc) s { cause := .align, addr := va }) ∧
      (∀ e, va % min size 8 = 0 → fabricHome (s.setCore s.cur k1) s.cur k1.ctx va size false = .error e →
        traps (.fld w f o d a vec sc) s { cause := e.1, sub := e.2, addr := va })) ∧
    (ready (.fst w f o d a vec sc) s → ¬ goesNow → exec (.fst w f o d a vec sc) s = .next (s.setCore s.cur (waited s s.cur))) ∧
    (ready (.amo sc w f o d a p) s → ¬ (goesNow ∧ k.atm < 8) →
      exec (.amo sc w f o d a p) s = .next (s.setCore s.cur (waited s s.cur))) ∧
    (ready (.fld w f o d a vec sc) s → ¬ (waitClear k w = true ∧ (isAcq o = true ∨ k.ldo < 4)) →
      exec (.fld w f o d a vec sc) s = .next (s.setCore s.cur (waited s s.cur))) ∧
    (∀ n e, n = fmtBytes (ifmt f) → readsA (.amo sc w f o d a p) 1 s a va k1 → goesNow → k.atm < 8 → va % min n 8 = 0 →
      unreadyAt k1 (dataPlace k1 false d).1 (if p = .cas then 16 else 8) = false → isBulk va = false →
      (va < 0xA0000000 ∨ 0xB0000000 ≤ va) → fabricHome (s.setCore s.cur k1) s.cur k1.ctx va n true = .error e →
      traps (.amo sc w f o d a p) s { cause := e.1, sub := e.2, addr := va }) ∧
    (readsA (.fst w f o d a vec sc) 1 s a va k1 → goesNow →
      (if vec then readVec k1 .z64 d = .ok (v, k2) else readSrc k1 (ifmt f) d = .ok (v, k2)) →
      (va % min size 8 ≠ 0 → traps (.fst w f o d a vec sc) s { cause := .align, addr := va }) ∧
      (∀ e, va % min size 8 = 0 → fabricHome (s.setCore s.cur k2) s.cur k2.ctx va size true = .error e →
        traps (.fst w f o d a vec sc) s { cause := e.1, sub := e.2, addr := va }))

/-- R238, Table 10-1: a core-scope fence does nothing; `acq` waits for pending destinations; `rel` and `acqrel` hold later
stores until the counts fall to zero; `sc` waits for all of them. -/
def Obligations.Fences : Prop :=
  ∀ (w : FWait) (sc : Scope) (o : Order) (s : State),
    let i := Instr.fence w sc o
    let k := issued i 1 s
    let ends (k' : Core) : Prop := exec i s = .next (s.setCore s.cur k')
    let waits : Prop := exec i s = .next (s.setCore s.cur (waited s s.cur))
    (ready i s → waitClear (s.core s.cur) w = false → waits) ∧
    (ready i s → waitClear (s.core s.cur) w = true →
    (sc ≠ .core → (o = .acq ∨ o = .acqrel) → k.pendDst ≠ [] → waits) ∧
    (sc ≠ .core → o = .rlx → (k.pendDst ≠ [] ∨ k.ctf ≠ 0 ∨ k.ctb ≠ 0) → waits) ∧
    (sc = .core → ends k) ∧
    (sc ≠ .core → o = .rel → ends { k with fenceSt := true, fenceDst := k.pendDst }) ∧
    (sc ≠ .core → o = .acq → k.pendDst = [] → ends k) ∧
    (sc ≠ .core → o = .acqrel → k.pendDst = [] → ends { k with fenceSt := true, fenceDst := [] }) ∧
    (sc ≠ .core → o = .rlx → k.pendDst = [] → k.ctf = 0 → k.ctb = 0 → ends { k with fenceSt := false, fenceDst := [] }))

/-- R229, R232, R235, R236, R239-R243, R248: an access performs at its home, where no earlier one of its core to that home
remains: a store writes its bytes, a load reads them, each aligned word by itself; an atomic does both where the unit may serve
it, and its line becomes the most recently used. A home that is away refuses, and the core sends the access again. The
acknowledgement lowers the store's count; a returned value reaches its destination. A fault of the atomic unit halts the
context. -/
def Obligations.FabricEvents : Prop :=
  ∀ (s : State) (a : Acc),
    let i := s.ev.i
    let put (s' : State) (a' : Acc) : State := { s' with fab := setAt s'.fab i a' }
    let gone : State := { s with fab := dropAt s.fab i }
    let lives := accLives s a = true
    let now := if s.ev.nats = [] then a.todo else a.todo.filter s.ev.nats.contains
    let left := a.todo.filter (fun w => !now.contains w)
    let after (h : Home) (p : AccPhase) : Acc := { a with phase := if left = [] then p else .going, home := h, todo := left }
    let word (bs : List Byte) (w : Nat) : List Byte := (bs.drop (8 * w)).take 8
    let keepLines (u : State) : State := u.setCore a.src
      (if a.src.cls = .control then { u.core a.src with lines := (s.core a.src).lines } else u.core a.src)
    let failed (u : State) : State :=
      pushTrap (gone.setCore a.src ((u.core a.src).settled a)) a.src { cause := .bulk, sub := 4, addr := a.va, async := true }
    (∀ bs, fabItem s i = some a → a.phase = .going → a.kind = .store bs →
      (∀ c x, homeNow s a.ctx a.va a.home = some (.core c x) →
        exec .fabricStorePerform s =
          .next (put (keepLines (now.foldl (fun t w => t.setCore c (deliver (t.core c) (x + 8 * w) (word bs w))) s))
            (after (.core c x) (.done [])))) ∧
      (∀ r x, homeNow s a.ctx a.va a.home = some (.row r x) →
        exec .fabricStorePerform s =
          .next (put ((now.foldl (fun t w => t.setRow r { t.row r with rs := memPut (t.row r).rs (x + 8 * w) (word bs w) })
            s).setCore a.src (s.core a.src)) (after (.row r x) (.done [])))) ∧
      (∀ off, homeNow s a.ctx a.va a.home = some (.sys off) →
        exec .fabricStorePerform s =
          .next (put (keepLines (now.foldl (fun u w => sysWrite u a.ctx (off + 8 * w) (word bs w)) s)) (after (.sys off) (.done [])))) ∧
      (∀ t x, homeNow s a.ctx a.va a.home = some (.bulk t x) → streamerReady s t x = true →
        let written := now.foldl (fun u w => (dropLines u t (x + 8 * w) (word bs w).length).setTier t
          (memPut (u.tier t) (x + 8 * w) (word bs w))) s
        exec .fabricStorePerform s = .next (put (keepLines written) (after (.bulk t x) (.done [])))) ∧
      (∀ t x, homeNow s a.ctx a.va a.home = some (.bulk t x) → streamerReady s t x = false → lives →
        exec .fabricStorePerform s = .next (failed s)) ∧
      (homeNow s a.ctx a.va a.home = none → exec .fabricStorePerform s = .next (put s { a with phase := .refused }))) ∧
    (∀ n x g w8, fabItem s i = some a → a.phase = .going → a.kind = .load n x g w8 →
      (homeNow s a.ctx a.va a.home = none → exec .fabricLoadPerform s = .next (put s { a with phase := .refused })) ∧
      (∀ h, homeNow s a.ctx a.va a.home = some h →
        let r := now.foldl (fun p w =>
          let q := readHome p.1 a.ctx (h.word w) (min n 8)
          (q.2, p.2.take (8 * w) ++ q.1 ++ p.2.drop (8 * w + q.1.length))) (s, a.got)
        exec .fabricLoadPerform s = .next (put r.1 { after h (.done r.2) with got := r.2 }))) ∧
    (∀ op t x y dst h, fabItem s i = some a → a.phase = .going → a.kind = .amo op t x y dst →
      homeNow s a.ctx a.va a.home = some h → mayServe s a h = false → exec .atomicPerform s = .next s) ∧
    (∀ op t x y dst h, fabItem s i = some a → a.phase = .going → a.kind = .amo op t x y dst →
      homeNow s a.ctx a.va a.home = some h → mayServe s a h = true → s.ev.ok = false → lives →
      exec .atomicPerform s =
        .next (haltContext s a.ctx (some a.src) { cause := .hwfault, addr := a.va } (fun _ => false))) ∧
    (∀ op t x y dst m p, fabItem s i = some a → a.phase = .going → a.kind = .amo op t x y dst → s.ev.ok = true →
      homeNow s a.ctx a.va a.home = some (.bulk m p) → mayServe s a (.bulk m p) = true → streamerReady s m p = false → lives →
      exec .atomicPerform s = .next (failed s)) ∧
    (∀ op t x y dst h, fabItem s i = some a → a.phase = .going → a.kind = .amo op t x y dst → s.ev.ok = true →
      homeNow s a.ctx a.va a.home = some h → mayServe s a h = true → (∀ m p, h = .bulk m p → streamerReady s m p = true) →
      let n := fmtBytes (ifmt t)
      let used := touchHot s a h
      let r := readHome used a.ctx h n
      let old := ofBytes r.1
      (op = .add → exec .atomicPerform s =
        .next (put (writeHome r.2 a.ctx h (toBytes n ((old + x) % 2 ^ fmtBits (ifmt t)))) { a with phase := .done r.1, home := h })) ∧
      (op = .swp → exec .atomicPerform s =
        .next (put (writeHome r.2 a.ctx h (toBytes n x)) { a with phase := .done r.1, home := h })) ∧
      (op = .cas → old = x → exec .atomicPerform s =
        .next (put (writeHome r.2 a.ctx h (toBytes n y)) { a with phase := .done r.1, home := h })) ∧
      (op = .cas → old ≠ x → exec .atomicPerform s = .next (put r.2 { a with phase := .done r.1, home := h }))) ∧
    (s.fab[i]? = some a → lives →
      (∀ bs d, a.kind = .store bs → a.phase = .done d → exec .storeAck s = .next (gone.setCore a.src { s.core a.src with
        ctf := (s.core a.src).ctf - (if a.posted = 1 then 1 else 0), ctb := (s.core a.src).ctb - (if a.posted = 2 then 1 else 0) })) ∧
      (∀ n x g bs, a.kind = .load n x g true → a.phase = .done bs →
        let v := ofBytes bs
        let k := writeLocal (s.core a.src) x 8 (if g then signExt (8 * n) 64 v else v)
        exec .fldReturn s = .next (gone.setCore a.src { k with
          pendDst := k.pendDst.erase (x, 8), fenceDst := k.fenceDst.erase (x, 8), ldo := if a.acq then k.ldo else k.ldo - 1,
          acqWait := if a.acq then false else k.acqWait })) ∧
      (∀ n x g bs, a.kind = .load n x g false → a.phase = .done bs →
        let k := putLocal (s.core a.src) x bs
        exec .fldReturn s = .next (gone.setCore a.src { k with
          pendDst := k.pendDst.erase (x, 64), fenceDst := k.fenceDst.erase (x, 64), ldo := if a.acq then k.ldo else k.ldo - 1,
          acqWait := if a.acq then false else k.acqWait })) ∧
      (∀ op t x y dst bs, a.kind = .amo op t x y dst → a.phase = .done bs →
        let v := ofBytes bs
        let k := writeLocal (s.core a.src) dst 8 (if fmtSigned (ifmt t) then signExt (8 * fmtBytes (ifmt t)) 64 v else v)
        exec .atomicReply s = .next (gone.setCore a.src { k with
          pendDst := k.pendDst.erase (dst, 8), fenceDst := k.fenceDst.erase (dst, 8), atm := k.atm - 1, acqWait := if a.acq then false else k.acqWait }))) ∧
    (s.fab[i]? = some a → a.phase = .refused → exec .fabricRetryReply s = .next (put s { a with phase := .waiting })) ∧
    (s.fab[i]? = some a → a.phase = .waiting → exec .fabricRetry s = .next (put s { a with phase := .going }))

/-! ### Channels and messages (08_firings) -/

/-- R183, R194, R197, R199, R201, R202: `send` and `sendm` put a message of the words in the send buffer, within 16 messages and
32 words, and `enq` puts an enqueue in the network; each takes the next MID. Past the limits DELIVERY 0x03 is raised, for a
destination word that names no channel the trap of its check, and for a body that is not in the local store or not aligned
FABRIC or ALIGN. Each waits as its wait field, its order, an earlier fence and unreleased messages ask. -/
def Obligations.SendingMessages : Prop :=
  ∀ (w : FWait) (o : Order) (d a : Spec) (ack : Bool) (s : State) (dest v : Nat) (k1 k2 : Core),
    let k := s.core s.cur
    let goesNow := waitClear k w = true ∧ (isRel o = true → k.ctf = 0 ∧ k.ctb = 0 ∧ k.ldo = 0 ∧ k.atm = 0) ∧ fenceClear k = true
    let s2 := s.setCore s.cur k2
    let words := k2.sbuf.foldl (fun n m => n + m.words.length) 0
    let next := (k2.midc + 1) % 2 ^ 16
    let buffered (ws : List Nat) : Core :=
      { dropFence k2 with sbuf := k2.sbuf ++ [newMessage s2 s.cur dest ws .ordinary], midc := next }
    let n := destLen dest
    let body := localWords k2 v n
    (∀ i ∈ [Instr.send w o d a, .sendm w o d a, .enq w o d a ack], ready i s → ¬ goesNow →
      exec i s = .next (s.setCore s.cur (waited s s.cur))) ∧
    (goesNow →
    (readsA (.send w o d a) 1 s a dest k1 → readSrc k1 .z64 d = .ok (v, k2) →
      destCheck s2 k2.ctx dest (· == 0) = .ok () → k2.sout = [] →
      (words < 32 → k2.sbuf.length < 16 → exec (.send w o d a) s = .next (s.setCore s.cur (buffered [v]))) ∧
      ((32 ≤ words ∨ 16 ≤ k2.sbuf.length) → traps (.send w o d a) s { cause := .delivery, sub := 3, addr := dest })) ∧
    (∀ cost, cost = sendmCost a k → readsA (.sendm w o d a) cost s a dest k1 → readSrc k1 .z64 d = .ok (v, k2) →
      destCheck s2 k2.ctx dest (fun n => decide (1 ≤ n) && decide (n ≤ 32)) = .ok () → k2.sout = [] →
      v + 8 * n ≤ topOf s.cur.cls → v % 8 = 0 → unreadyAt k2 v (8 * n) = false → words + n ≤ 32 → k2.sbuf.length < 16 →
      exec (.sendm w o d a) s = .next (s.setCore s.cur (buffered body)) ∧ body.length = n) ∧
    (∀ cost, cost = sendmCost a k → readsA (.sendm w o d a) cost s a dest k1 → readSrc k1 .z64 d = .ok (v, k2) →
      (∀ e, destCheck s2 k2.ctx dest (fun n => decide (1 ≤ n) && decide (n ≤ 32)) = .error e →
        traps (.sendm w o d a) s { cause := e.1, sub := e.2, addr := dest }) ∧
      (destCheck s2 k2.ctx dest (fun n => decide (1 ≤ n) && decide (n ≤ 32)) = .ok () →
        (topOf s.cur.cls < v + 8 * n → traps (.sendm w o d a) s { cause := .fabric, addr := v }) ∧
        (v + 8 * n ≤ topOf s.cur.cls → v % 8 ≠ 0 → traps (.sendm w o d a) s { cause := .align, addr := v }) ∧
        (v + 8 * n ≤ topOf s.cur.cls → v % 8 = 0 → unreadyAt k2 v (8 * n) = false → k2.sout = [] →
          (32 < words + n ∨ 16 ≤ k2.sbuf.length) → traps (.sendm w o d a) s { cause := .delivery, sub := 3, addr := dest }) ∧
        (v + 8 * n ≤ topOf s.cur.cls → v % 8 = 0 → unreadyAt k2 v (8 * n) = false → k2.sout ≠ [] →
          exec (.sendm w o d a) s = .next (s.setCore s.cur (waited s s.cur))))) ∧
    (∀ i ∈ [Instr.send w o d a, .enq w o d a ack], readsA i 1 s a dest k1 → readSrc k1 .z64 d = .ok (v, k2) →
      (∀ e, destCheck s2 k2.ctx dest (· == 0) = .error e → traps i s { cause := e.1, sub := e.2, addr := dest }) ∧
      (destCheck s2 k2.ctx dest (· == 0) = .ok () →
        (i = .send w o d a → k2.sout ≠ [] → exec i s = .next (s.setCore s.cur (waited s s.cur))) ∧
        (i = .enq w o d a ack → ack = true → 65535 ≤ k2.ctm → exec i s = .next (s.setCore s.cur (waited s s.cur))))) ∧
    (readsA (.enq w o d a ack) 1 s a dest k1 → readSrc k1 .z64 d = .ok (v, k2) →
      destCheck s2 k2.ctx dest (· == 0) = .ok () → (ack = true → k2.ctm < 65535) →
      exec (.enq w o d a ack) s = .next { s.setCore s.cur { dropFence k2 with
          midc := next, ctm := k2.ctm + (if ack then 1 else 0) } with
        net := s.net ++ [newMessage s2 s.cur dest [v] (.enq ack)] }))

/-- R181, R192, R193, R203, R204, Table 8-6: the channel instructions. `chbind` binds an unbound channel at once and makes a
bound one rebind when its firing closes; a bad record raises DELIVERY 0x05. `chhold` and `chrdy` set a bit of the own core's
channel at once, or send a packet counted in ct.m, and trap for a destination word that names no channel. `chstat` answers
the word of its selector. `mnext` puts the next message of the span in the window. A channel, a bit or a selector outside
its range raises UNDEF 0x02. -/
def Obligations.ChannelInstructions : Prop :=
  ∀ (d a b : Spec) (s : State) (v x : Nat) (k : Core) (flag : Bool),
    let e := nth k.chans v {}
    let withChan (n : Nat) (e : Chan) : State := s.setCore s.cur { k with chans := setAt k.chans n e }
    let w0 := readLocal k x 8
    let w1 := readLocal k (x + 8) 8
    (readsAB (.chbind a b) 1 s a b v x k → v < 32 → x + 16 ≤ topOf s.cur.cls → x % 8 = 0 → unreadyAt k x 16 = false →
      (bindingOk (s.setCore s.cur k) k e w0 w1 = true → e.bind = 0 → field w0 8 3 ≠ 0 →
        exec (.chbind a b) s = .next (withChan v
          { e with ctl := ctlOf w0, bind := 1, base := field w1 13 0, size := field w1 26 14, head := 0, fill := 0, skip := 0 })) ∧
      (bindingOk (s.setCore s.cur k) k e w0 w1 = true → e.bind ≠ 0 →
        exec (.chbind a b) s = .next (withChan v { e with bind := 2, pend := ctlOf w0 })) ∧
      (bindingOk (s.setCore s.cur k) k e w0 w1 = false →
        traps (.chbind a b) s { cause := .delivery, sub := 5, addr := x }) ∧
      (bindingOk (s.setCore s.cur k) k e w0 w1 = true → e.bind = 0 → field w0 8 3 = 0 →
        exec (.chbind a b) s = .next (withChan v e))) ∧
    (readsAB (.chbind a b) 1 s a b v x k →
      (32 ≤ v → traps (.chbind a b) s { cause := .undef, sub := 2 }) ∧
      (v < 32 → topOf s.cur.cls < x + 16 → traps (.chbind a b) s { cause := .fabric, addr := x }) ∧
      (v < 32 → x + 16 ≤ topOf s.cur.cls → x % 8 ≠ 0 → traps (.chbind a b) s { cause := .align, addr := x })) ∧
    (∀ i ∈ [Instr.chrdy a b, .chhold a b], readsAB i 1 s a b v x k →
      (2 ≤ x → traps i s { cause := .undef, sub := 2 }) ∧
      (x < 2 → destTag v ≠ 0 → traps i s { cause := .delivery, sub := 2, addr := v }) ∧
      (∀ e, x < 2 → destTag v = 0 → destCheck (s.setCore s.cur k) k.ctx v (· == 0) = .error e →
        traps i s { cause := e.1, sub := e.2, addr := v })) ∧
    (readsAB (.chmask a b) 1 s a b v x k → ¬ (v < 32 ∧ x < 2) → traps (.chmask a b) s { cause := .undef, sub := 2 }) ∧
    (readsA (.chstat d a) 1 s a v k → takesWord k d → 256 ≤ v → traps (.chstat d a) s { cause := .undef, sub := 2 }) ∧
    (let i := if flag then Instr.chrdy a b else Instr.chhold a b
     let ch := destCh v
     let kind : MsgKind := if flag then .ready (x == 1) else .hold (x == 1)
     readsAB i 1 s a b v x k → x < 2 → destTag v = 0 → destCheck (s.setCore s.cur k) k.ctx v (· == 0) = .ok () →
      (destCore (s.setCore s.cur k) k.ctx v = some s.cur →
        exec i s = .next (withChan ch (if flag then { nth k.chans ch {} with ready := x == 1 }
          else { nth k.chans ch {} with hold := x == 1 }))) ∧
      (destCore (s.setCore s.cur k) k.ctx v ≠ some s.cur → k.ctm < 65535 →
        exec i s = .next { s.setCore s.cur { k with ctm := k.ctm + 1 } with
          net := s.net ++ [newMessage (s.setCore s.cur k) s.cur v [] kind] })) ∧
    (readsAB (.chmask a b) 1 s a b v x k → v < 32 → x < 2 →
      exec (.chmask a b) s = .next (withChan v { e with mask := x == 1 })) ∧
    (readsA (.chstat d a) 1 s a v k → takesWord k d → v < 256 →
      let n := v % 32
      let g := nth k.chans n {}
      (v / 32 = 0 → answers (.chstat d a) s (s.setCore s.cur k) d (ctlWord g.ctl)) ∧
      (v / 32 = 1 → answers (.chstat d a) s (s.setCore s.cur k) d (bnat g.ready + 2 * bnat g.hold + 4 * bnat g.mask +
        8 * bnat g.runnable + g.bind * 2 ^ 16)) ∧
      (v / 32 = 2 → answers (.chstat d a) s (s.setCore s.cur k) d
        (g.skip + g.fill * 2 ^ 12 + g.head * 2 ^ 25 + g.base * 2 ^ 37 + g.size * 2 ^ 51)) ∧
      (v / 32 = 3 → answers (.chstat d a) s (s.setCore s.cur k) d (if g.bind = 2 then ctlWord g.pend else 0)) ∧
      (v / 32 = 4 → answers (.chstat d a) s (s.setCore s.cur k) d
        (((List.range 32).map (fun i => if (nth k.chans i {}).runnable = true then 2 ^ i else 0)).sum + k.last * 2 ^ 32 +
          (if k.run = .idle then 0 else 2 ^ 37) + k.hdrs.length * 2 ^ 40)) ∧
      (4 < v / 32 → answers (.chstat d a) s (s.setCore s.cur k) d 0)) ∧
    (ready (.mnext d) s → takesWord (issued (.mnext d) 1 s) d →
      let k0 := issued (.mnext d) 1 s
      (nextMessage k0 = none → answers (.mnext d) s (s.setCore s.cur k0) d 0) ∧
      (∀ h pos, nextMessage k0 = some (h, pos) → answers (.mnext d) s (s.setCore s.cur { k0 with
        ls := memWrite (memWrite k0.ls (k0.wp + 0x3C0) 8 h.word) (k0.wp + 0x3C8) 8 (pos * 2 ^ 16) }) d (hdrLen h.word)))

/-- R184, R185, R191, R194-R198, R203, R413: a released message enters the network once no earlier one of its route is there;
at its core it lands in the channel's FIFO, or it is refused, replies and is sent again; the 4,096th refusal raises DELIVERY at
a boundary. An enqueue that finds no room, or another of its channel or its sender before it, waits in a landing slot. Packets
set HOLD, READY and the cancel set. -/
def Obligations.MessageEvents : Prop :=
  ∀ (s : State) (m : Msg) (ms : List Msg) (c : CoreId),
    let i := s.ev.i
    let put (m' : Msg) : State := { s with net := setAt s.net i m' }
    let ch := destCh m.dest
    let k := s.core c
    let lower (u : State) (x : CoreId) : State := u.setCore x { u.core x with ctm := (u.core x).ctm - 1 }
    (s.ev.core = c → k.sout = m :: ms → (∀ x ∈ s.net, sameRoute m x = false) → (∀ x ∈ s.net, sameRoute x m = false) →
      exec .messageInject s = .next { s.setCore c { k with sout := ms } with net := s.net ++ [m] }) ∧
    (netItem s i = some m → m.kind = .ordinary → m.phase = .going →
      (destCore s m.ctx m.dest = none → exec .messageArrival s = .next (put { m with phase := .refused false })) ∧
      (destCore s m.ctx m.dest = some c → takesMessages k = true →
        (∀ k' x, landWords k ch m.hdr m.words = some k' → m.src = some x → senderLives s m = some x →
          exec .messageArrival s = .next { lower (s.setCore c k') x with net := dropAt s.net i }) ∧
        (landWords k ch m.hdr m.words = none →
          exec .messageArrival s = .next (put { m with phase := .refused ((nth k.chans ch {}).bind != 0) })))) ∧
    (∀ bound, s.net[i]? = some m → m.phase = .refused bound →
      (m.refusals < 4095 →
        exec .messageRefusalReply s = .next (put { m with phase := .waiting, refusals := m.refusals + 1 })) ∧
      (4095 ≤ m.refusals → senderLives s m = some c →
        exec .messageRefusalReply s = .next { s.setCore c { k with
            ctm := k.ctm - 1,
            bpend := k.bpend ++ [{ cause := .delivery, sub := if bound then 1 else 0, addr := m.dest, async := true,
                                   off := some m.off, obj := some m.obj, chmid := some (m.ch, m.mid) }] } with
          net := dropAt s.net i })) ∧
    (s.net[i]? = some m → m.phase = .waiting → exec .messageRetry s = .next (put { m with phase := .going })) ∧
    (∀ ack, netItem s i = some m → m.kind = .enq ack → destCore s m.ctx m.dest = some c → coreAway k = false →
      ((∃ x ∈ k.landing, destCh x.dest = ch ∨ sameSender x m = true) → k.landing.length < 16 →
        exec .enqueueArrival s = .next { s.setCore c { k with landing := k.landing ++ [m] } with net := dropAt s.net i }) ∧
      ((∀ x ∈ k.landing, destCh x.dest ≠ ch ∧ sameSender x m = false) →
      (ack = false → (nth k.chans ch {}).bind = 0 →
        exec .enqueueArrival s = .next { s.setCore c k with net := dropAt s.net i }) ∧
      (∀ k', ack = false → (nth k.chans ch {}).bind ≠ 0 → landWords k ch m.hdr m.words = some k' →
        exec .enqueueArrival s = .next { s.setCore c k' with net := dropAt s.net i }) ∧
      ((nth k.chans ch {}).bind ≠ 0 → landWords k ch m.hdr m.words = none → k.landing.length < 16 →
        exec .enqueueArrival s = .next { s.setCore c { k with landing := k.landing ++ [m] } with net := dropAt s.net i }))) ∧
    (∀ k', s.ev.core = c → k.landing[i]? = some m → coreAway k = false →
      (∀ x ∈ k.landing.take i, destCh x.dest ≠ ch ∧ sameSender x m = false) →
      m.kind = .enq false → (nth k.chans ch {}).bind ≠ 0 →
      landWords { k with landing := dropAt k.landing i } ch m.hdr m.words = some k' →
      exec .enqueueLanding s = .next (s.setCore c k')) ∧
    (∀ v x, netItem s i = some m → destCore s m.ctx m.dest = some c → k.life = .active → m.src = some x → senderLives s m = some x →
      let set (e : Chan) : State :=
        { lower (s.setCore c { k with chans := setAt k.chans ch e }) x with net := dropAt s.net i }
      (m.kind = .hold v → exec .channelPacketArrival s = .next (set { nth k.chans ch {} with hold := v })) ∧
      (m.kind = .ready v → exec .channelPacketArrival s = .next (set { nth k.chans ch {} with ready := v }))) ∧
    (∀ g mask, netItem s i = some m → m.toC = some c →
      (m.kind = .cancel g mask → exec .cancelPacketArrival s =
        .next { s.setCore c { k with cancels := cancelAdd k.cancels g mask } with net := dropAt s.net i }) ∧
      (m.kind = .clear g → exec .cancelPacketArrival s =
        .next { s.setCore c { k with cancels := k.cancels.filter (fun e => e % 1024 != g) } with net := dropAt s.net i }))

/-- R184, R191, Table 8-5: words land in consecutive slots from the FIFO's tail, or from its start where they do not fit
before its end, and are refused where there is no room or 64 headers wait. The fill rises by the words and the slots skipped. -/
def Obligations.MessagesLand : Prop :=
  ∀ (k : Core) (ch hdr : Nat) (words : List Nat),
    let e := nth k.chans ch {}
    let n := words.length
    let tail := (e.head + e.fill) % e.size
    let skip := if tail + n ≤ e.size then 0 else e.size - tail
    let slot := if tail + n ≤ e.size then tail else 0
    ch < k.chans.length → e.fill ≤ e.size →
    (landWords k ch hdr words = none ↔ e.bind = 0 ∨ 64 ≤ k.hdrs.length ∨ e.size < e.fill + skip + n) ∧
    (∀ k', landWords k ch hdr words = some k' →
      k'.chans = setAt k.chans ch { e with fill := e.fill + skip + n, skip := if skip = 0 then e.skip else skip } ∧
      k'.hdrs = k.hdrs ++ [(ch, { word := hdr })] ∧ k'.wp = k.wp ∧ k'.run = k.run ∧ k'.flags = k.flags ∧ k'.mask = k.mask ∧
      (localWf k → k.h3fifo = false → k.hasWorkspace = false → ∀ j, j < n →
        memRead k'.ls (8 * (e.base + slot + j)) 8 = nth words j 0 % 2 ^ 64))

/-- R103, R264, R268, R271, R278: a budget that has run out raises BUDGET; the oldest pending boundary trap is taken where no
handler runs, and it waits, still pending, where entering the handler would change WP with a destination pending (R235); neither
comes before an instruction that has been served and only completes (R244, R453). The fault writer writes the oldest
record at the ring's producer index and raises it, counts a drop on a full ring or for a slot that does not translate, and
loses the record where no descriptor is reached; code that lands raises STREAMED. -/
def Obligations.TrapAndCodeEvents : Prop :=
  ∀ (s : State) (c : CoreId) (t : Trap) (ts : List Trap) (r : FRec) (rs : List FRec),
    let p := pendingInstr s c
    (s.ev.core = c → executes s c = true → (s.core c).cyclesLeft = 0 → (s.core c).gbarOut = none → (s.core c).lgot = none →
      exec .budgetExpiry s = .next (takeTrap s c { cause := .budget } p.1 p.2.1 p.2.2 false)) ∧
    (s.ev.core = c → (s.core c).bpend = t :: ts → (s.core c).inHandler = false → (s.core c).life = .active →
      (s.core c).pst ≠ .checker → (s.core c).vpend = false → s.health.stopped = false →
      (s.core c).gbarOut = none → (s.core c).lgot = none →
      let s1 := s.setCore c { s.core c with bpend := ts }
      let p1 := pendingInstr s1 c
      (trapHeld s c t = false → exec .boundaryTrap s = .next (takeTrap s1 c t p1.1 p1.2.1 p1.2.2 true)) ∧
      (trapHeld s c t = true → exec .boundaryTrap s = .next (s.setCore c (waited s c)))) ∧
    (∀ w0 w1 w2 s1 s2, s.frecs = r :: rs →
      let s0 := { s with frecs := rs }
      let desc := field (heldWord s r.ctx 0x20) 47 0
      let pi := field w1 31 0
      let size := 2 ^ field w2 36 32
      let slot := field w0 47 12 * 4096 + 64 * (pi % size)
      let full : Prop := (pi + 2 ^ 32 - field w1 63 32) % 2 ^ 32 = size
      let drops := field w2 31 0
      ((desc = 0 ∨ descReachable s0 r.ctx desc = false) → exec .faultRecordWrite s = .next s0) ∧
      (desc ≠ 0 → descReachable s0 r.ctx desc = true →
      svcWord s0 r.ctx desc 8 = some w0 → svcWord s0 r.ctx (desc + 8) 8 = some w1 → svcWord s0 r.ctx (desc + 16) 8 = some w2 →
      (¬ full → svcWrite s0 r.ctx slot ((r.words.map (toBytes 8)).flatten) = some s1 →
        svcWrite s1 r.ctx (desc + 8) (toBytes 4 ((pi + 1) % 2 ^ 32)) = some s2 → exec .faultRecordWrite s = .next s2) ∧
      ((full ∨ svcWrite s0 r.ctx slot ((r.words.map (toBytes 8)).flatten) = none) →
        svcPutWord s0 r.ctx (desc + 16) (w2 - drops + min (drops + 1) 0xFFFFFFFF) = some s2 →
        exec .faultRecordWrite s = .next s2))) ∧
    (∀ n s1 s2, svcWord s s.ev.i (s.ev.w + 8) 4 = some n → svcWrite s s.ev.i (s.ev.w + n) s.ev.bytes = some s1 →
      svcWrite s1 s.ev.i (s.ev.w + 8) (toBytes 4 ((n + s.ev.bytes.length) % 2 ^ 32)) = some s2 →
      exec .codeStreamLanding s = .next s2)

/-! ### Encodings, steps and memory (04_encoding, 19_bytecode) -/

/-- R86-R98, R387: words written out from the encoding tables decode to the instructions they stand for. -/
def Obligations.DecodeKnownWords : Prop :=
  decode .compute 0x1A088103 0 0 0 0 = .ok (.pset 1 (.w 2) (.w 3)) ∧
  decode .gateway 0x0048D1A3 0 0 0 0 = .ok (.add .s32 (.ptr 1 true) (.ptr 1 true) (.ptr 1 true)) ∧
  decode .compute 0x51004000 0x0000080A 0 0 0 = .ok (.vcvt .bf16 .fp32 .rne (.w 1) (.w 0)) ∧
  decode .control 0xA1181432 0 0 0 0 = .ok (.fld .nw .z64 .rlx (.w 5) (.w 6) false .dev) ∧
  decode .compute 0xF0090138 0 0 0 0 = .ok (.wdog (.w 2) (.cst 0)) ∧
  decode .control 0xF9000000 0 0 0 0 = .ok (.bld 0 (.w 0) (.w 0)) ∧
  decode .compute 0xF9000000 0 0 0 0 = .error 0x10 ∧
  decode .compute 0x2A000000 0 0 0 0 = .error 0x00 ∧
  decode .compute 0x1A288103 0 0 0 0 = .error 0x01 ∧
  decodeBytecode 0x06 0x34 0x12 0x78 0x56 = some (.bcLoadattr 0x1234 0x5678) ∧
  decodeBytecode 0x23 0 0 0 0 = none

/-- R86-R99, R387: every well-formed native instruction of a core class decodes from the words of its encoding, which are
32-bit words, one and as many extension words as its opcode carries; every bytecode decodes from its bytes, whatever bytes
follow them. -/
def Obligations.EncodeDecode : Prop :=
  (∀ (cls : CoreClass) (i : Instr), i.isNative = true → i.wf cls = true →
    let w (n : Nat) : Nat := nth (encode i) n 0
    (∀ x ∈ encode i, x < 2 ^ 32) ∧ (encode i).length = 1 + extCount (field (w 0) 31 24) ∧
      decode cls (w 0) (w 1) (w 2) (w 3) (w 4) = .ok i) ∧
  (∀ (i : Instr) (rest : List Nat), i.isBytecode = true →
    let b (n : Nat) : Nat := nth (encodeBytecode i ++ rest) n 0
    bcLength (b 0) = some (encodeBytecode i).length ∧ decodeBytecode (b 0) (b 1) (b 2) (b 3) (b 4) = some i)

/-- R86, R92-R100, R103, R125, R281, R381, R387: on the turn of a core that runs, a step is exec of the instruction that the
core decodes from the words at its PC, or of the bytecode at its BPC; a word that its class does not accept traps with
UNDEF and the subcode of the first check that fails. The word at the core's PC is that of the row's instruction cache, or, once
it has landed, that of the object, read through translation, whose line then stands in the cache. -/
def Obligations.StepRunsDecoded : Prop :=
  ∀ (s : State) (c : CoreId),
    let s0 := { beginTurn (nextTurn s) s with cur := c }
    let k := s0.core c
    (nextTurn s).actor = .core c → k.vpend = false → (k.bpend = [] ∨ k.inHandler = true ∨ k.served = true) →
    k.idleReady = false → executes s0 c = true → (k.cyclesLeft ≠ 0 ∨ k.served = true) →
    (k.bcMode = false →
      (∀ ws s1, fetchInstr s0 c = .ok ws s1 →
        let w (n : Nat) : Nat := nth ws n 0
        (∀ i, decode c.cls (w 0) (w 1) (w 2) (w 3) (w 4) = .ok i → step s = exec i s1) ∧
        (∀ n, decode c.cls (w 0) (w 1) (w 2) (w 3) (w 4) = .error n → executes s1 c = true →
          (s1.core c).bcMode = false → (s1.core c).vpend = false → (s1.core c).acqWait = false →
          let s2 := { s1 with ev := { core := c, w := w 0, nats := ws.drop 1 } }
          step s = exec .unassignedOpcode s2 ∧
            exec .unassignedOpcode s2 = .next (takeTrap s2 c { cause := .undef, sub := n } (w 0) (nth (ws.drop 1) 0 0)
              (4 + 4 * (ws.drop 1).length) false))) ∧
      (∀ t, fetchInstr s0 c = .trap t → step s = .next (takeTrap s0 c t 0 0 4 false)) ∧
      (∀ l stop, codeLaunch s0 c k = some l → sectionEnd l k.pc = some stop →
        let va := codeAddr l k.pc
        (∀ w, codeHit s0 c l.ctx va 4 = some w → w ≠ 0 → extCount (w / 2 ^ 24) = 0 → fetchInstr s0 c = .ok [w] s0) ∧
        (codeHit s0 c l.ctx va 4 = none → landedCode s0 l k.pc = false → fetchInstr s0 c = .wait s0) ∧
        (∀ t pa s1, codeHit s0 c l.ctx va 4 = none → landedCode s0 l k.pc = true →
          coreTranslate s0 c va 3 = .ok (t, pa) s1 →
          let w := memRead (s0.tier t) pa 4
          w ≠ 0 → extCount (w / 2 ^ 24) = 0 → fetchInstr s0 c = .ok [w] (fillLine s1 c l va t pa)))) ∧
    (k.bcMode = true → ∀ i s1, fetchBytecode s0 c = .ok i s1 → step s = exec i s1)

/-- R14, R360, R373, R447, R449, R460, Tables 25-2, 26-2 and 27-3, and logs 1-5: power-up. The cycle stamp is 0, no context,
launch or placement exists, the function-ready map and the RETIRED bits are clear, each island requests point 4, memory
lists nothing. That unlisted bytes read 0 and that registers without a stated value hold 0 is the model's choice. -/
def Obligations.ResetState : Prop :=
  State.reset.cycle = 0 ∧ State.reset.rdy = {} ∧ State.reset.health.retired = 0 ∧ State.reset.health.stopped = false ∧
  State.reset.launches = [] ∧ State.reset.placedCores = [] ∧ State.reset.saggars = [] ∧
  State.reset.islands.length = 16 ∧ (∀ i ∈ State.reset.islands, i.opt = 4 ∧ i.cur = 4) ∧
  (∀ c, State.reset.core c = { cls := c.cls }) ∧ ({} : Core).life = .free ∧ ({} : Core).run = .idle ∧ ({} : Core).last = 31 ∧
  (∀ (a n : Nat), memRead State.reset.near a n = 0 ∧ memRead State.reset.ctxs a n = 0 ∧ memRead ({} : Core).ls a n = 0) ∧
  (∀ m, m = State.reset.near ∨ m = State.reset.far ∨ m = State.reset.cxl ∨ m = State.reset.host ∨ m = State.reset.ctxs ∨
    m = ({} : Core).ls → Memory.wf m = true) ∧
  goesOn State.reset

/-- R3: the byte memory that holds every array of the machine. A write changes the bytes it names and no other, a value reads
back at its width, least significant byte first, and two memories in canonical form that read alike are the same. -/
def Obligations.MemoryReadBack : Prop :=
  ∀ (m m2 : Mem) (a n v : Nat), Memory.wf m = true → Memory.wf m2 = true →
    Memory.wf (memWrite m a n v) = true ∧
    memRead (memWrite m a n v) a n = v % 2 ^ (8 * n) ∧
    (∀ i, i < n → memGet (memWrite m a n v) (a + i) = BitVec.ofNat 8 (v / 2 ^ (8 * i))) ∧
    (∀ x, x < a ∨ a + n ≤ x → memGet (memWrite m a n v) x = memGet m x) ∧
    ((∀ x, memGet m x = memGet m2 x) → m = m2)

/-! ### Tiles and copies (09_tiles_copies) -/

/-- R162, R205, R206, R208, R220, R225-R228: the tile and job instructions. `tdef` defines an unused tile and empties it, `tarm`
sets the chunks it expects, `twait` and `ttest` read the chunks that have arrived, `tdrain` makes a tile draining and, once
nothing uses it, empty; `jwait` and `jpoll` read the status of a job id. What is held, in use or not there yet makes them wait,
the core unchanged but for its cycles; a tile that is not defined raises TILE 0x02; a failed job raises its trap. -/
def Obligations.TilesAndJobs : Prop :=
  ∀ (t : Fin 16) (d a : Spec) (s : State) (v : Nat) (k : Core),
    let c := s.cur
    let sk := s.setCore c k
    let e := nth k.tiles t.val {}
    let withTile (k : Core) (e : Tile) : State := s.setCore c { k with tiles := setAt k.tiles t.val e }
    let waits (i : Instr) : Prop := exec i s = .next (s.setCore c (waited s c))
    (readsA (.tdef t a) 1 s a v k →
      let base := field v 16 0
      let nch := field v 38 32
      let record : Prop := field v 31 17 = 0 ∧ field v 63 39 = 0 ∧ 1 ≤ nch ∧ nch ≤ 64
      (record → base % 512 = 0 → base + 512 * nch ≤ topOf c.cls →
        (k.kheld.contains t.val = false → tileBusy sk c t.val = false → e.st ≠ .draining →
          exec (.tdef t a) s = .next (withTile k { base := base, nch := nch })) ∧
        (k.kheld.contains t.val = true ∨ tileBusy sk c t.val = true ∨ e.st = .draining → waits (.tdef t a))) ∧
      (¬ record → traps (.tdef t a) s { cause := .tile, sub := 3, addr := e.base }) ∧
      (record → base % 512 ≠ 0 → traps (.tdef t a) s { cause := .align, addr := base }) ∧
      (record → base % 512 = 0 → topOf c.cls < base + 512 * nch → traps (.tdef t a) s { cause := .fabric, addr := base })) ∧
    (readsA (.tarm t a) 1 s a v k →
      (e.nch ≠ 0 → v < 2 ^ e.nch → e.err = false →
        let uses : Prop := k.kheld.contains t.val = true ∨ (e.st ≠ .empty ∧ e.st ≠ .ready ∧ targetsTile sk c t.val = true)
        (¬ uses → exec (.tarm t a) s = .next (withTile k { e with st := if v = 0 then .empty else .filling, exp := v, arr := 0 })) ∧
        (uses → waits (.tarm t a))) ∧
      (e.nch = 0 → traps (.tarm t a) s { cause := .tile, sub := 2 }) ∧
      (e.nch ≠ 0 → 2 ^ e.nch ≤ v → traps (.tarm t a) s { cause := .tile, sub := 4, addr := e.base }) ∧
      (e.nch ≠ 0 → v < 2 ^ e.nch → e.err = true → traps (.tarm t a) s (tileError k t.val))) ∧
    (readsA (.twait t a) 1 s a v k →
      let w := if v = 0 then e.exp else v
      (e.nch ≠ 0 → v < 2 ^ e.nch → e.err = false →
        (natAnd w e.arr = w → exec (.twait t a) s = .next sk) ∧ (natAnd w e.arr ≠ w → waits (.twait t a))) ∧
      (e.nch = 0 → traps (.twait t a) s { cause := .tile, sub := 2 }) ∧
      (e.nch ≠ 0 → 2 ^ e.nch ≤ v → traps (.twait t a) s { cause := .tile, sub := 4, addr := e.base }) ∧
      (e.nch ≠ 0 → v < 2 ^ e.nch → e.err = true → traps (.twait t a) s (tileError k t.val))) ∧
    (ready (.ttest d t) s → takesWord (issued (.ttest d t) 1 s) d →
      let e := nth (issued (.ttest d t) 1 s).tiles t.val {}
      (e.nch ≠ 0 → e.err = false → answers (.ttest d t) s (issuedState (.ttest d t) 1 s) d e.arr) ∧
      (e.nch = 0 → traps (.ttest d t) s { cause := .tile, sub := 2 }) ∧
      (e.nch ≠ 0 → e.err = true → traps (.ttest d t) s (tileError (issued (.ttest d t) 1 s) t.val))) ∧
    (ready (.tdrain t) s →
      let k := issued (.tdrain t) 1 s
      let e := nth k.tiles t.val {}
      let drains (k : Core) : Core :=
        { k with tiles := setAt k.tiles t.val { e with st := .draining }, drainp := some (t.val, e.st) }
      let free (k : Core) : Prop := k.kheld.contains t.val = false ∧ tileBusy (s.setCore c k) c t.val = false
      (k.drainp = none → e.nch ≠ 0 → e.err = false →
        (free (drains k) →
          exec (.tdrain t) s = .next (s.setCore c { k with
            tiles := setAt k.tiles t.val { nth (drains k).tiles t.val {} with st := .empty, exp := 0, arr := 0 } })) ∧
        (¬ free (drains k) → exec (.tdrain t) s = .next (s.setCore c (drains (waited s c))))) ∧
      (k.drainp ≠ none →
        (free k → exec (.tdrain t) s = .next (s.setCore c { k with
          tiles := setAt k.tiles t.val { e with st := .empty, exp := 0, arr := 0 }, drainp := none })) ∧
        (¬ free k → waits (.tdrain t))) ∧
      (k.drainp = none → e.nch = 0 → traps (.tdrain t) s { cause := .tile, sub := 2 }) ∧
      (k.drainp = none → e.nch ≠ 0 → e.err = true → traps (.tdrain t) s (tileError k t.val))) ∧
    (readsA (.jwait a) 1 s a v k →
      (v < 2 ^ 16 →
        (jobStatus k v = .complete → exec (.jwait a) s = .next sk) ∧
        (jobStatus k v = .pending → waits (.jwait a)) ∧
        (∀ tr sf tl n, jobStatus k v = .failed tr sf tl n → traps (.jwait a) s (jobTrap v tr sf))) ∧
      (2 ^ 16 ≤ v → traps (.jwait a) s { cause := .undef, sub := 2 })) ∧
    (readsA (.jpoll d a) 1 s a v k → takesWord k d →
      (v < 2 ^ 16 →
        (jobStatus k v = .complete → answers (.jpoll d a) s sk d 1) ∧
        (jobStatus k v = .pending → answers (.jpoll d a) s sk d 0) ∧
        (∀ tr sf tl n, jobStatus k v = .failed tr sf tl n → traps (.jpoll d a) s (jobTrap v tr sf))) ∧
      (2 ^ 16 ≤ v → traps (.jpoll d a) s { cause := .undef, sub := 2 }))

/-- R208-R212, R216, R217, R223, R224: `cpy` and `cpys` put a job in their couch's queue, pending under the next job id, or
complete where its extent is zero, counted in ct.f or ct.b where its destination is in the fabric windows or in bulk, and
write the id to D. -/
def Obligations.CopyIssue : Prop :=
  ∀ (q : Fin 8) (t : Fin 16) (kind : BitVec 3) (o slab : Bool) (d : Spec) (r : Shape) (s : State) (v : List Nat),
    let i : Instr := if slab then .cpys t kind o d r else .cpy q t kind o d r
    let c := s.cur
    let k := issued i 4 s
    let s0 := issuedState i 4 s
    let e := nth k.tiles t.val {}
    let ring := nth (s0.row (rowOf c)).rings q.val {}
    let blk := 64 * nth v 0 0
    let w (n : Nat) : Nat := readLocal k (blk + 8 * n) 8
    let j : Job :=
      { uid := s.nextUid, couch := couchOf c, core := c, id := k.jobc, o := o
        kind := if slab then .slab t.val (nth v 5 0) (field (nth v 6 0) 6 0) (field (nth v 6 0) 12 7) (nth v 7 0)
          else if kind = 0 then .tile t.val else if kind = 1 then .ring q.val else .addr
        rows := nth v 1 0, rlen := nth v 2 0, dstr := nth v 3 0, doff := nth v 4 0, src := w 0, dst := w 1
        sstr := toSigned 64 (w 2), mbx := w 3, msg := w 4, mdata := w 5, mid := 0, off := k.pc - 20
        obj := (pcPlace s0 c k).1, ctx := k.ctx, ch := k.channel, cmid := firstMid k k.channel, firing := k.firings }
    let zero := j.rows * j.rlen = 0
    let cnt := if j.kind = .addr ∧ ¬ zero then (if isBulk j.dst then 2 else if j.dst < 0xB0000000 then 1 else 0) else 0
    let prev := (s.jobs.reverse.find? (fun x => x.core == c && x.id == (k.jobc + 65535) % 65536)).map (·.uid)
    let s1 := s.setCore c { dropFence k with
      jobc := (k.jobc + 1) % 65536
      jobs := ((k.jobc, if zero then .complete else .pending) :: k.jobs).take 64
      midc := if j.msg = 0 then k.midc else (k.midc + 1) % 65536
      ctf := k.ctf + (if cnt = 1 then 1 else 0), ctb := k.ctb + (if cnt = 2 then 1 else 0), cwait := false }
    let s2 := if c.cls = .compute then s1.modRow (rowOf c) (fun r => { r with clast := placeOf c }) else s1
    ready i s → shapeVals k r = .ok v → takesWord k d → okDst d = true →
    (if slab then nth v 6 0 < 2 ^ 13 ∧ kind = 0 else nth v 5 0 = 0 ∧ nth v 6 0 = 0 ∧ nth v 7 0 = 0 ∧ kind.toNat < 3 ∧
      (kind = 1 → c.cls = .compute)) →
    recordOk slab v = true → blk + 64 ≤ topOf c.cls → unreadyAt k blk 64 = false →
    w 6 = 0 → w 7 = 0 → (if slab then w 1 < 2 ^ 14 else kind = 2 ∨ w 1 = 0) →
    w 0 % 8 = 0 → (slab = false → kind = 2 → w 1 % 8 = 0) → w 2 % 8 = 0 → w 3 % 8 = 0 →
    (slab = true → w 1 / 8 % 64 + field (nth v 6 0) 6 0 ≤ 64 ∧ w 1 / 8 / 64 + field (nth v 6 0) 12 7 ≤ 32 ∧
      w 1 % 8 + nth v 7 0 ≤ 8) →
    (slab = false → kind = 0 → e.nch ≠ 0 ∧ e.err = false ∧ e.st = .filling ∧ rowsFit v (512 * e.nch) = true) →
    (slab = false → kind = 1 → (ring.claim = none ∨ ring.claim = some k.lkey) ∧ ring.count ≠ 0 ∧ rowsFit v ring.size = true) →
    fenceClear k = true → (cnt = 1 → k.ctf < 65535) → (cnt = 2 → k.ctb < 65535) → mayQueue s0 c = true →
    answers i s { s2 with
        jobs := enqueueJob s.jobs { j with counted := cnt, prev := if o then prev else none, mid := k.midc, since := s.cycle }
        nextUid := s.nextUid + 1 } d k.jobc

/-! ### Couches and streamers (09_tiles_copies) -/

/-- R206, R213-R219, R221, R260, R468: a job starts in its couch's order; with a zero extent it completes at its turn, and a
ring's job claims the stage at the tail. A chunk is requested as beats, a beat is read, behind the requests of its couch to the
same agent, and lands, a write behind the earlier ones of its agent to the same streamer, and the last beat of a chunk sets its
ARR bit in a filling tile, which is ready once every expected chunk has arrived. A poisoned line fails the job. -/
def Obligations.CopyEvents : Prop :=
  ∀ (s : State) (j : Job) (b : Beat),
    let i := s.ev.i
    let others (f : Job → Job) (x : State) : State := { x with jobs := x.jobs.map (fun y => if y.uid == j.uid then f y else y) }
    let first := (j.nextChunk 0).getD chunkEnd
    (nextQueued s i = some j → (j.prev = none ∨ ∃ u, j.prev = some u ∧ ∀ x ∈ s.jobs, x.uid = u → x.phase = .failing) →
      (j.extent ≠ 0 → (∀ q, j.kind ≠ .ring q) →
        exec .copyJobStart s = .next (others (fun _ => { j with phase := .running first }) s)) ∧
      (∀ q, j.kind = .ring q → j.extent ≠ 0 →
        let row := s.row (rowOf j.core)
        let r := nth row.rings q {}
        let r1 := { r with stages := setAt r.stages r.tail .filling, tail := (r.tail + 1) % max 1 r.count }
        r.count ≠ 0 → nth r.stages r.tail .error = .empty →
        exec .copyJobStart s = .next (others (fun _ => { j with stage := some r.tail, phase := .running first })
          (s.setRow (rowOf j.core) { row with rings := setAt row.rings q r1 }))) ∧
      (j.extent = 0 → (∀ q, j.kind ≠ .ring q) → j.mbx = 0 → j.msg = 0 → j.counted = 0 →
        let done := (s.core j.core).jobs.map (fun e => if e.1 = j.id then (e.1, .complete) else e)
        exec .copyJobStart s = .next
          { s.setCore j.core { s.core j.core with jobs := done } with jobs := s.jobs.filter (fun x => x.uid != j.uid) })) ∧
    (∀ ch s1 bs, findJob s i = some j → j.uid = i → j.phase = .running ch → ch < chunkEnd →
      chunkBeats j ch s (j.pieces ch) [] = .ok (s1, bs) →
      let asked (y : Job) : Job :=
        { y with phase := .running ((y.nextChunk (ch + 1)).getD chunkEnd), left := y.left ++ [(ch, bs.length)] }
      exec .chunkRequest s = .next (others asked { s1 with beats := s1.beats ++ bs })) ∧
    (∀ h, s.beats[i]? = some b → s.ev.j = 0 → b.data = none → homeNow s b.ctx b.sva b.src = some h →
      (readBehind s i b = true → exec .streamerRequest s = .next s) ∧
      (readBehind s i b = false → (∀ pa, h = .bulk 2 pa → s.ev.ok = true ∧ pa / 64 ∉ s.poison) →
        (∀ t pa, h = .bulk t pa → streamerReady s t pa = true) →
        let r := readHome s b.ctx h b.len
        exec .streamerRequest s = .next { r.2 with beats := dropAt r.2.beats i ++ [{ b with data := some r.1 }] }) ∧
      (∀ pa, readBehind s i b = false → s.ev.ok = false ∨ pa / 64 ∈ s.poison → h = .bulk 2 pa →
        exec .streamerRequest s = .next (failBeat s i b { cause := .bulk, sub := 6, addr := b.sva }))) ∧
    (∀ bs n, s.beats[i]? = some b → b.data = some bs → findJob s b.uid = some j → j.phase ≠ .failing →
      alookup b.chunk j.left = some n → 1 < n →
      let fewer (y : Job) : Job := { y with left := y.left.map (fun e => if e.1 = b.chunk then (e.1, n - 1) else e) }
      (b.tile = none → writeBehind s i b = true → exec .beatLanding s = .next s) ∧
      (∀ h s1, b.tile = none → writeBehind s i b = false → homeNow s b.ctx b.dva b.dst = some h →
        (∀ t pa, h = .bulk t pa → streamerReady s t pa = true) → writeHome s b.ctx h bs = s1 → s1.jobs = s.jobs → j.uid = b.uid →
        exec .beatLanding s = .next (others fewer { s1 with beats := dropAt s1.beats i })) ∧
      (∀ c0 c t a, b.tile = some (c0, t) → b.dst = .core c0 a → beatCore s b c0 = some c → j.uid = b.uid →
        let e := nth (s.core c).tiles t {}
        a + b.len ≤ 512 * e.nch → e.st = .filling →
        exec .beatLanding s = .next (others fewer
          { s.setCore c (deliver (s.core c) (e.base + a) bs) with beats := dropAt s.beats i }))) ∧
    (∀ bs c0 c t a ch, s.beats[i]? = some b → b.data = some bs → findJob s b.uid = some j → j.uid = b.uid →
      j.phase = .running ch → ch ≠ chunkEnd → alookup b.chunk j.left = some 1 →
      b.tile = some (c0, t) → b.dst = .core c0 a → beatCore s b c0 = some c →
      let k := deliver (s.core c) ((nth (s.core c).tiles t {}).base + a) bs
      let e := nth (s.core c).tiles t {}
      let arr := natOr e.arr (2 ^ (b.chunk % 2 ^ 40))
      let e1 := { e with arr := arr, st := if natAnd e.exp arr = e.exp then .ready else .filling }
      a + b.len ≤ 512 * e.nch → e.st = .filling →
      let landed (y : Job) : Job := { y with left := aerase b.chunk y.left, landed := y.landed ++ [b.chunk] }
      exec .beatLanding s = .next (others landed
        { s.setCore c { k with tiles := setAt k.tiles t e1 } with beats := dropAt s.beats i }))

/-! ### Kiln instructions (07_kiln) -/

/-- R154, R158, R159, R170, R171, R174, R176-R179, R453, Tables 7-1, 7-7 and 7-8: `kctx` sets the format context, `kring`
configures and claims a ring with every stage empty, `kst` narrows a window of the accumulators to local store, `kadv` pops
ready stages at a ring's head once no operation holds one there, `kwait` waits for the core's operations, `kleave` reads or asks for leave grants, `kstat`
reads the kiln's state. A ring that another launch claims raises PRIV 0x20. -/
def Obligations.KilnSetup : Prop :=
  ∀ (q : Fin 8) (d a : Spec) (r : Shape) (s : State) (v : List Nat) (n : Nat) (k : Core),
    let c := s.cur
    let f (i : Nat) : Nat := nth v i 0
    let row := s.row (rowOf c)
    let ring := nth row.rings q.val {}
    let island := nth s.islands (islandOf (rowOf c)) {}
    let withRing (x : State) (g : Ring) : State := x.setRow (rowOf c) { row with rings := setAt row.rings q.val g }
    let withIsland (x : State) (i : Island) : State := { x with islands := setAt s.islands (islandOf (rowOf c)) i }
    (ready (.kctx r) s → shapeVals (issued (.kctx r) 1 s) r = .ok v → (∀ x ∈ v.drop 4, x = 0) →
      f 0 ∈ ctxFormats → f 1 ∈ ctxFormats → (f 2 = 2 ∨ f 2 = 8) → f 3 < 2 →
      exec (.kctx r) s = .next (s.setCore c
        { issued (.kctx r) 1 s with kctx := { af := f 0, bf := f 1, acc := f 2, slip := f 3 == 1 } })) ∧
    (ready (.kring q r) s → shapeVals (issued (.kring q r) 1 s) r = .ok v → (∀ x ∈ v.drop 3, x = 0) →
      2 ≤ f 2 → f 2 ≤ 16 → f 1 ≠ 0 →
      ((ring.claim = none ∨ ring.claim = some (issued (.kring q r) 1 s).lkey) → f 0 + f 2 * f 1 ≤ 2560 →
        (∀ x ∈ ring.stages, x ≠ .filling) → (∀ o ∈ row.kops, o.ring ≠ some q.val) →
        exec (.kring q r) s = .next (withRing (issuedState (.kring q r) 1 s)
          { base := 64 * f 0, size := 64 * f 1, count := f 2, stages := List.replicate (f 2) .empty,
            claim := some (issued (.kring q r) 1 s).lkey })) ∧
      (ring.claim ≠ none → ring.claim ≠ some (issued (.kring q r) 1 s).lkey →
        traps (.kring q r) s { cause := .priv, sub := 0x20 })) ∧
    (∀ (rm : BitVec 3) (md : RMode) cost, cost = kstCost r (s.core c) → readsA (.kst rm a r) cost s a n k →
      let k0 := issued (.kst rm a r) cost s
      let code := kstFormat k0 (f 0)
      let size := max 1 (fmtBits ((fmtOf code).getD .fp32) / 8)
      shapeVals k0 r = .ok v → okSrc false a = true → f 6 < 2 → f 7 = 0 → (f 0 ≤ 0x0D ∨ f 0 = 0x20) → 1 ≤ f 2 → 1 ≤ f 3 → f 4 + f 2 ≤ 32 →
      f 5 + f 3 ≤ 64 → rmodeOf rm.toNat = some md → (code = 0x0D → f 3 % 2 = 0) →
      n + (f 2 - 1) * f 1 + f 3 * fmtBits ((fmtOf code).getD .fp32) / 8 ≤ 0x12000 → n % size = 0 → f 1 % size = 0 →
      k.kout = 0 → ∀ k', kstStore k code md n (f 1) (f 2) (f 3) (f 4) (f 5) (f 6 == 1) = .ok k' →
      exec (.kst rm a r) s = .next (s.setCore c k')) ∧
    (readsA (.kadv q a) 1 s a n k →
      (n ≠ 0 → n ≤ ring.count → ring.claim = some (issued (.kadv q a) 1 s).lkey →
        ((∃ o ∈ row.kops, o.ring = some q.val ∧ o.popped = false) ∨
          ∃ i, i < n ∧ ring.stage ((ring.head + i) % ring.count) ≠ .ready ∧ ring.stage ((ring.head + i) % ring.count) ≠ .error) →
        exec (.kadv q a) s = .next (s.setCore c (waited s c))) ∧
      (n ≠ 0 → n ≤ ring.count → ring.claim = some (issued (.kadv q a) 1 s).lkey →
        (∀ o ∈ row.kops, o.ring = some q.val → o.popped = true) →
        (∀ i, i < n → ring.stage ((ring.head + i) % ring.count) = .ready ∨ ring.stage ((ring.head + i) % ring.count) = .error) →
        exec (.kadv q a) s = .next (withRing (s.setCore c k) (popStages n ring)) ∧
        (ring.head < ring.count → ring.stages.length = ring.count →
          (popStages n ring).head = (ring.head + n) % ring.count ∧
          ∀ j, j < ring.count → (popStages n ring).stage j =
            if (j + ring.count - ring.head) % ring.count < n then .empty else ring.stage j)) ∧
      (n = 0 → ring.claim = some (issued (.kadv q a) 1 s).lkey → exec (.kadv q a) s = .next (s.setCore c k)) ∧
      (ring.claim ≠ none → ring.claim ≠ some (issued (.kadv q a) 1 s).lkey →
        traps (.kadv q a) s { cause := .priv, sub := 0x20 })) ∧
    (ready .kwait s →
      ((s.core c).kout = 0 → exec .kwait s = .next (issuedState .kwait 1 s)) ∧
      ((s.core c).kout ≠ 0 → exec .kwait s = .next (s.setCore c (waited s c)))) ∧
    (readsA (.kleave d a) 1 s a n k → takesWord k d →
      let held := (s.core c).grants
      (n = 0 → ∀ k', writeDst k .z64 d held = .ok k' → exec (.kleave d a) s = .next (s.setCore c { k' with grants := 0 })) ∧
      (n ≠ 0 → ∀ r, (s.core c).lgot = some r → ∀ k', writeDst k .z64 d (held + r) = .ok k' →
        exec (.kleave d a) s = .next (s.setCore c { k' with grants := k'.grants + r, lreq := 0, lgot := none })) ∧
      (n ≠ 0 → (s.core c).lgot = none → (s.core c).lreq = 0 → held < 64 → island.waits = [] →
        let ask := min n (64 - held)
        admitted island (ask * island.lgrant) = true →
        let s2 := withIsland (s.setCore c { k with grants := k.grants + ask })
          { island with used := island.used + ask * island.lgrant }
        k.lreq = 0 →
        ∀ k2, writeDst { k with grants := k.grants + ask } .z64 d (k.grants + ask) = .ok k2 →
        exec (.kleave d a) s = .next (s2.setCore c k2))) ∧
    (readsA (.kstat d a) 1 s a n k → takesWord k d →
      (n < 8 → answers (.kstat d a) s (s.setCore c k) d (ringWord k (nth row.rings n {}))) ∧
      (n = 8 → answers (.kstat d a) s (s.setCore c k) d (kilnWord k row)) ∧
      (n = 9 → answers (.kstat d a) s (s.setCore c k) d
        (k.kctx.af + k.kctx.bf * 2 ^ 8 + k.kctx.acc * 2 ^ 16 + (if k.kctx.slip then 2 ^ 24 else 0))) ∧
      (9 < n → answers (.kstat d a) s (s.setCore c k) d 0))

/-- R158-R160, R162, R164, R166, R172, R173, R175: a kiln instruction registers its request, and where the row's kiln takes a
request of the core at once, the operation joins the row's list, the stage it takes moves bind, and each participating core
has one operation more in flight and its tile held; `kmm` and `kmm.g` first pass the checks of R160. A combination that is
none of Table 7-2 raises COMBO. -/
def Obligations.KilnOperations : Prop :=
  ∀ (q : Fin 8) (tile : Fin 16) (mode : BitVec 2) (gang : Bool) (off : Spec) (r : Shape) (s : State) (v : List Nat)
    (o n : Nat) (k' : Core) (c0 : CoreId) (q0 : KReq),
    let c := s.cur
    let f (i : Nat) : Nat := nth v i 0
    let row := s.row (rowOf c)
    let ring := nth row.rings q.val {}
    let asked (k : Core) (req : KReq) : State := s.setCore c { k with kreq := some req }
    let taken (i : Instr) (k : Core) (req : KReq) : Prop :=
      let s1 := asked k req
      kilnPick s1 (rowOf c) = some c0 → (s1.core c0).kreq = some q0 → c ∈ reqCores s1 c0 q0 →
      ∃ t, exec i s = .next t ∧ t.nextUid = s.nextUid + 1 ∧
        (∃ op, (t.row (rowOf c)).kops = row.kops ++ [op] ∧ op.uid = s.nextUid ∧ op.kind = q0.kind ∧ op.ring = q0.ring ∧
          op.ctx = (s1.core c0).kctx ∧ op.parts = (reqCores s1 c0 q0).map (fun x => match (s1.core x).kreq with
            | some p => p.part
            | none => q0.part)) ∧
        ∀ x ∈ reqCores s1 c0 q0, ∀ p, (s1.core x).kreq = some p →
          (t.core x).kreq = none ∧ (t.core x).kout = (s1.core x).kout + 1 ∧
          (t.core x).kgc = (s1.core x).kgc + (if p.gang then 1 else 0) ∧
          (t.core x).kheld = (match p.kind with
            | .mm _ _ _ _ _ => (s1.core x).kheld ++ [p.part.tile]
            | _ => (s1.core x).kheld)
    (let i := Instr.kclr r
     let k := issued i 1 s
     ready i s → shapeVals k r = .ok v → (∀ x ∈ v, x = 0) →
      taken i k { kind := .clr, ring := none, part := noPart c, off := .cst 0 }) ∧
    (let i := Instr.kslip q r
     let k := issued i 1 s
     ready i s → shapeVals k r = .ok v → (∀ x ∈ v, x = 0) → claimOk ring.claim k = true → claimOk row.slipClaim k = true →
      ring.count ≠ 0 → 8192 ≤ ring.size → ring.stage ring.bind = .ready →
      taken i k { kind := .slip, ring := some q.val, part := noPart c, off := .cst 0 }) ∧
    (let i : Instr := if gang then .kmmG q tile mode off r else .kmm q tile mode off r
     let k := issued i 1 s
     let e := nth k.tiles tile.val {}
     let x := mode == 1
     let part : KPart := { k := placeOf c, tile := tile.val, base := e.base, off := o, stride := f 1, m := f 2 }
     let req : KReq :=
       { kind := .mm x (f 0) (f 3) (f 4 % 2 == 1) (f 4 / 2 == 1), ring := some q.val, part := part, gang := gang, off := off }
     ready i s → shapeVals k r = .ok v → f 4 < 4 → (∀ y ∈ v.drop 5, y = 0) → (mode = 1 ∨ mode = 2) → 1 ≤ f 0 → f 0 ≤ 64 →
      f 1 % 8 = 0 → 1 ≤ f 2 → f 2 ≤ 32 → 1 ≤ f 3 → f 3 ≤ 64 → okSrc false off = true → readSrc k .z64 off = .ok (o, k') →
      (kcombo k.kctx = .ok n → (gang = true → heldVerdict k = none) → claimOk ring.claim k = true →
        (k.kctx.slip = true → row.slipClaim = some k.lkey ∧ slipReady row = true) →
        ring.count ≠ 0 → (if k.kctx.slip && x then 8192 else stageBytes k.kctx.bf) ≤ ring.size →
        o % 8 = 0 → e.nch ≠ 0 → o + (f 2 - 1) * f 1 + rowABytes k.kctx.af ≤ 512 * e.nch → e.err = false → e.st = .ready →
        (∀ i, i < f 2 → unreadyAt k (e.base + o + i * f 1) (rowABytes k.kctx.af) = false) →
        ring.stage ring.bind = .ready → (gang = true → gangDiffers (issuedState i 1 s) c req = none) →
        taken i k req) ∧
      (kcombo k.kctx = .error n → traps i s { cause := .combo, sub := n }))

/-! ### Kiln operations after acceptance (07_kiln, 26_power) -/

/-- R67-R70, R156-R158, R160-R167: the kiln takes the next waiting request; the slip phase loads the matrix from the stage,
or expands B or absorbs A through it; the kiln phase computes each slice's shadow, each cell the old value plus the exact sum
of the products of a row of A and a column of B; retirement copies the shadow into the accumulators, lowers the count of
operations in flight, releases the tile and pops the stage in bind order. -/
def Obligations.KilnEvents : Prop :=
  ∀ (s : State) (c0 : CoreId) (q0 : KReq) (o : KOp),
    let r := s.ev.i
    let row := s.row r
    let replaced (f : KOp → KOp) (x : State) : State :=
      x.setRow r { x.row r with kops := (x.row r).kops.map (fun y => if y.uid == o.uid then f y else y) }
    (kilnPick s r = some c0 → (s.core c0).kreq = some q0 →
      ∃ t, exec .kilnAccept s = .next t ∧ t.nextUid = s.nextUid + 1 ∧
        (∃ op, (t.row r).kops = row.kops ++ [op] ∧ op.uid = s.nextUid ∧ op.kind = q0.kind ∧ op.ring = q0.ring) ∧
        ∀ x ∈ reqCores s c0 q0, ∀ p, (s.core x).kreq = some p →
          (t.core x).kreq = none ∧ (t.core x).kout = (s.core x).kout + 1 ∧ (t.core x).pc = (s.core x).pc + 20) ∧
    (row.kops.find? (fun o => o.needsSlip && o.phase == .accepted) = some o →
      (o.kind = .slip →
        let a := stageAddr s r o
        exec .slipPhaseStart s = .next (replaced (fun y => { y with phase := .slipDone })
          (s.setRow r { row with slip := memShiftDown (memSlice row.rs a (a + 8192)) a, slipLoaded := true }))) ∧
      (∀ kn n z kp, o.kind = .mm true kn n z kp →
        let b := expandB s r o n
        exec .slipPhaseStart s = .next (replaced (fun y => { y with
          phase := .slipDone, slipB := b.map (·.code), flags := y.parts.map (fun p => (p.k, orFlags b)) }) s)) ∧
      (∀ kn n z kp, o.kind = .mm false kn n z kp →
        exec .slipPhaseStart s = .next (replaced (fun y => { y with
          phase := .slipDone, slipA := o.parts.map (fun p => (p.k, (absorbA s r o p).map (·.code)))
          flags := o.parts.map (fun p => (p.k, orFlags (absorbA s r o p))) }) s))) ∧
    (findOp s r s.ev.j = some o → s.ev.ok = true → o.phase = (if o.needsSlip then .slipDone else .accepted) →
      (∀ x ∈ before s r o, x.phase = .kiln) →
      ((o.kind = .slip ∨ o.kind = .clr) → exec .kilnPhaseStart s = .next (replaced (fun y => { y with phase := .kiln }) s)) ∧
      (∀ x kn n z kp, o.kind = .mm x kn n z kp →
        let b := (List.range n).map (fun j => (List.range kn).map (fun t => operandB s r o n t j))
        exec .kilnPhaseStart s = .next (replaced (fun y => { y with
          phase := .kiln, shadow := o.parts.map (fun p => (p.k, (sliceResult s r o kn n z b p).1))
          flags := o.parts.map (fun p => (p.k, (sliceResult s r o kn n z b p).2)) }) s))) ∧
    (∀ kn n z p i j, i < p.m → j < n → n ≤ 64 →
      let b := (List.range n).map (fun j => (List.range kn).map (fun t => operandB s r o n t j))
      let acc := (before s r o).foldl (fun a x => applyShadow x p.k a) (s.core (coreAt r p.k)).acc
      let old := if z then 0 else accCell acc i j
      let products := (List.range kn).map (fun t => (operandA s r o p i t, operandB s r o n t j))
      accCell (sliceResult s r o kn n z b p).1 i j = (addStage o.ctx.acc old (stageSum products)).1 % 2 ^ 32) ∧
    (findOp s r s.ev.j = some o → o.phase = .kiln → before s r o = [] → (o.parts.map (·.k)).Nodup →
      let rest := row.kops.filter (fun x => x.uid != s.ev.j)
      ∃ t, exec .kilnRetire s = .next t ∧
        (o.ring = none → (t.row r).kops = rest ∧ (t.row r).rings = row.rings) ∧
        (∀ q, o.ring = some q →
          let g := nth row.rings q {}
          let g1 := popRetired 16 { g with taken := g.taken.map (fun y => if y.1 = s.ev.j then (y.1, y.2.1, true) else y) }
          let out := (g.taken.take (g.taken.length - g1.taken.length)).map (fun y => y.2.1)
          (t.row r).rings = setAt row.rings q g1 ∧
          (t.row r).kops = rest.map (fun x => if x.ring == some q && out.contains x.stage then { x with popped := true } else x)) ∧
        ∀ p ∈ o.parts,
          let k := s.core (coreAt r p.k)
          let k1 := t.core (coreAt r p.k)
          k1.acc = applyShadow o p.k k.acc ∧ k1.kout = k.kout - 1 ∧ k1.kheld = k.kheld.erase p.tile)

/-! ### Translation (17_translation) -/

/-- R343, R347, R349, R351, R353-R359: `ttbw` writes an image into a slot of the token translation buffer, and no other slot
keeps its key; `ttbi` invalidates the entries it selects; `ttbp` gives the target and attribute words of an entry, which
becomes the most recent, and raises TTB where there is none or it is not usable; `tlbi` removes the entries it selects from
every TLB; `fbpop` takes the oldest pending entry of a fault buffer and `replay` retries or refuses parked requests; without
the right to the fault-domain region they raise PRIV 0x40. A walk starts in a free slot; its end fills the TLBs, parks its
requests or fails them. -/
def Obligations.Translation : Prop :=
  ∀ (d a b : Spec) (w : Fin 32) (s : State) (v n addr : Nat) (k : Core),
    let c := s.cur
    let e := s.ev
    let x := s.dom e.i
    let s1 := s.setCore c k
    (readsAB (.ttbw a b) 2 s a b n addr k → n < 16 → addr + 24 ≤ topOf c.cls → addr % 8 = 0 → unreadyAt k addr 24 = false →
      let w0 := readLocal k addr 8
      let img : Ttb := { slot := n, w0 := w0, target := readLocal k (addr + 8) 8, w2 := readLocal k (addr + 16) 8 }
      (bitAt w0 63 = true → ttbImageBad w0 img.target img.w2 = false →
        exec (.ttbw a b) s = .next (s.setCore c { k with
          ttb := img :: k.ttb.filter (fun u => u.slot != n && ttbKey u.w0 != ttbKey w0) })) ∧
      (bitAt w0 63 = false → exec (.ttbw a b) s = .next (s.setCore c { k with ttb := k.ttb.filter (fun u => u.slot != n) })) ∧
      (bitAt w0 63 = true → ttbImageBad w0 img.target img.w2 = true → traps (.ttbw a b) s { cause := .undef, sub := 2 })) ∧
    (readsA (.ttbi a) 1 s a v k → ttbiOk v = true →
      exec (.ttbi a) s = .next (s.setCore c { k with ttb := k.ttb.filter (fun u => !ttbiSel v u) })) ∧
    (readsA (.ttbp (.w w) a) 1 s a v k → w.val ≤ 30 → v < 2 ^ 45 →
      (∀ u, k.ttb.find? (fun u => ttbKey u.w0 == v) = some u → (field u.w2 63 62 = 1 → field u.w2 57 56 = 0) →
        pendingAt k (k.wp + 8 * w.val) 16 = false → ownAt k (k.wp + 8 * w.val) 16 = false → heldAt k (k.wp + 8 * w.val) 16 = false →
        let k1 := putLocal k (k.wp + 8 * w.val) (toBytes 8 u.target ++ toBytes 8 u.w2)
        exec (.ttbp (.w w) a) s = .next (s.setCore c { k1 with ttb := u :: k.ttb.filter (fun y => y.slot != u.slot) })) ∧
      ((∀ u ∈ k.ttb, ttbKey u.w0 ≠ v) → traps (.ttbp (.w w) a) s { cause := .ttb, sub := 0, addr := v }) ∧
      (∀ u, k.ttb.find? (fun u => ttbKey u.w0 == v) = some u → field u.w2 63 62 = 1 → field u.w2 57 56 ≠ 0 →
        traps (.ttbp (.w w) a) s { cause := .ttb, sub := 1, addr := v })) ∧
    (ctxRight s (s.core c).ctx 5 true = true →
      (readsA (.tlbi a) 1 s a v k → tlbiOk v = true → k.ctf = 0 → k.ctb = 0 →
        (k.tlbw = none → tlbiBusy (tlbiDrop s1 c v).1 v s.tlbn = false →
          let t := dropEnts s1 (tlbiSel v)
          exec (.tlbi a) s = .next { t.setCore c { t.core c with tlbw := none } with tlbn := s.tlbn + 1 }) ∧
        (k.tlbw = none → tlbiBusy (tlbiDrop s1 c v).1 v s.tlbn = true →
          ∃ t, exec (.tlbi a) s = .next t ∧ (t.core c).tlbw = some s.tlbn ∧ (t.core c).pc = (s.core c).pc ∧
            t.tlbn = s.tlbn + 1 ∧ t.doms = (dropEnts s1 (tlbiSel v)).doms) ∧
        (∀ n, k.tlbw = some n → tlbiBusy s1 v n = false → exec (.tlbi a) s = .next (s.setCore c { k with tlbw := none }))) ∧
      (readsA (.fbpop d a) 1 s a v k → takesWord k d → field v 34 32 ≤ 4 → field v 63 35 = 0 → field v 31 17 = 0 →
        let addr := field v 16 0
        let y := s1.dom (field v 34 32)
        addr + 32 ≤ topOf c.cls → addr % 32 = 0 → unreadyAt k addr 32 = false → heldAt k addr 32 = false →
        let word (got : Bool) (z : Domain) : Nat := bnat got + bnat y.drop * 2
          + (z.fb.filter (fun u => !u.taken)).length * 2 ^ 8 + (z.fb.filter (fun u => u.taken)).length * 2 ^ 16
        (takeEntry y.fb = none → ∀ s2, s2 = s1.setDom (field v 34 32) { y with drop := false } →
          answers (.fbpop d a) s s2 d (word false (s2.dom (field v 34 32)))) ∧
        (∀ u l, takeEntry y.fb = some (u, l) →
          ∀ s2, s2 = (s.setCore c (putLocal k addr ((u.words.map (toBytes 8)).flatten))).setDom (field v 34 32)
            { y with fb := l, drop := false } →
          answers (.fbpop d a) s s2 d (word true (s2.dom (field v 34 32))))) ∧
      (readsA (.replay d a) 1 s a v k → takesWord k d → replayOk v = true → k.ctf = 0 → k.ctb = 0 →
        ∀ r, r = ((List.range 5).filter (fun i => bitAt v i)).foldl (replayOne v) (s1, 0) →
        answers (.replay d a) s r.1 d (min r.2 (2 ^ 32 - 1)))) ∧
    (ctxRight s (s.core c).ctx 5 true = false →
      (ready (.tlbi a) s → traps (.tlbi a) s { cause := .priv, sub := 0x40 }) ∧
      (ready (.fbpop d a) s → traps (.fbpop d a) s { cause := .priv, sub := 0x40 }) ∧
      (ready (.replay d a) s → traps (.replay d a) s { cause := .priv, sub := 0x40 })) ∧
    (∀ q, x.wait.find? (fun q => !x.walks.any (fun w => w.ctx == q.ctx && w.page == q.page)) = some q → x.walks.length < 8 →
      q.since < s.cycle → exec .walkSlotStart s = .next (s.setDom e.i { x with
        walks := x.walks ++ [{ ctx := q.ctx, page := q.page, n := x.wseq }], wseq := x.wseq + 1 })) ∧
    (∀ u, x.walks[e.j]? = some u → (x.wend.1 = s.cycle + 1 → x.wend.2 ≤ u.n) →
      let qs := x.wait.filter (fun q => q.ctx == u.ctx && q.page == u.page)
      let x1 := { x with walks := dropAt x.walks e.j, wend := (s.cycle + 1, u.n), wait := x.wait.filter (fun q => !(q.ctx == u.ctx && q.page == u.page)) }
      (∀ t, walk s u.ctx (u.page * 2 ^ 16) = .mapped t →
        exec .walkEnd s = .next (qs.foldl (fun s q => setL1 s q.couch (l1Fill (l1Of s q.couch) t))
          (s.setDom e.i { x1 with l2 := l2Fill x.l2 t }))) ∧
      (walk s u.ctx (u.page * 2 ^ 16) = .absent → u.replayed = false →
        exec .walkEnd s = .next (qs.foldl (fun s q => parkReq s e.i q) (s.setDom e.i x1))) ∧
      (∀ sub, walk s u.ctx (u.page * 2 ^ 16) = .fail sub →
        exec .walkEnd s = .next (qs.foldl (fun s q => failRequest s q sub) (s.setDom e.i x1)))) ∧
    (e.j < 5 → (e.i = 64 ∨ ctxRight s e.i 5 true = true) →
      exec .fbdestWrite s = .next (s.setDom e.j { s.dom e.j with fbdest := e.w, fbctx := e.i }))

/-! ### Barriers, gateway cores, links and hops (11_ordering, 25_reliability, 28_links) -/

/-- R244-R246, R440, R441, R468-R471: `gbar` gives the OR of the gang's flags words once all have arrived, the core of a gang
of one at once, and any other core waits with its own flags word noted; `gq.get` frees its core's slots and gives the next
landed block, or the end word when every block of the stream was handed out; `badd.rq` adds two blocks group by group. A
flit lands in its slot or is forwarded; a block counts as landed with its last byte, in the order of the indices (R261); the 16th failed retry retrains a link,
a failed retraining takes it down, the eighth failure of a hop stops the device; a stream starts anew; a TAIL queues blocks;
a block that is sent leaves in flits and HEAD advances. -/
def Obligations.GatewayAndLinks : Prop :=
  ∀ (d a b : Spec) (s : State) (v w : Nat) (k : Core) (blk : Nat × Nat) (f : Fmt) (rm : RMode),
    let c := s.cur
    let e := s.ev
    let k0 := issued (.gbar d) 1 s
    let left (m : Nat) : State := s.setCore c { setWsWord k0 0x390 (natOr m (stickyWord k0)) with gbarIn := none, gbarOut := none, gbarc := (k0.gbarc + 1) % 2 ^ 16 }
    let withLink (x : State) (i : Nat) (l : Link) : State := { x with links := setAt x.links i l }
    let gl := nth s.links (linkOf c) {}
    let freed := { gl with held := gl.held.filter (fun h => h.1 != c.idx % 4) }
    let l := nth s.links e.i {}
    (ready (.gbar d) s → takesWord k0 d →
      (∀ m, k0.gbarOut = some m → answers (.gbar d) s (left m) d m) ∧
      (k0.gbarOut = none → k0.gbarIn = none → k0.ctf = 0 → k0.ctb = 0 → k0.ldo = 0 → k0.atm = 0 →
        (∀ x ∈ barrierCores (issuedState (.gbar d) 1 s) c, x = c) →
        answers (.gbar d) s (left (stickyWord k0)) d (stickyWord k0)) ∧
      (∀ x, k0.gbarOut = none → k0.gbarIn = none → k0.ctf = 0 → k0.ctb = 0 → k0.ldo = 0 → k0.atm = 0 →
        x ∈ barrierCores (issuedState (.gbar d) 1 s) c → x ≠ c →
        ∃ t, exec (.gbar d) s = .next t ∧ (t.core c).gbarIn = some (stickyWord k0) ∧ (t.core c).pc = (s.core c).pc)) ∧
    ((s.core e.core).gbarIn ≠ none → barrierMet s e.core = true →
      ∀ s1, s1 = s → exec .gbarRelease s = .next ((barrierCores s e.core).foldl (fun s x =>
        s.setCore x { s.core x with gbarOut := some (arrivals s1 e.core) }) s1)) ∧
    (ready (.gqGet d) s → takesWord (issued (.gqGet d) 1 s) d →
      (gl.landed.find? (fun b => b.1 % 4 == c.idx % 4) = some blk → linkOf c < s.links.length →
        answers (.gqGet d) s (withLink (issuedState (.gqGet d) 1 s) (linkOf c) { freed with
            landed := gl.landed.erase blk, handed := gl.handed + 1, held := freed.held ++ [(c.idx % 4, landingSlot freed blk.1)] })
          d (blk.1 + 2 ^ 32 * blk.2)) ∧
      ((∀ b ∈ gl.landed, b.1 % 4 ≠ c.idx % 4) → gl.nblk ≤ gl.handed → linkOf c < s.links.length →
        answers (.gqGet d) s (withLink (issuedState (.gqGet d) 1 s) (linkOf c) freed) d (2 ^ 64 - 1)) ∧
      (gl.landed = [] → gl.handed < gl.nblk → gl.down = true → linkOf c < s.links.length →
        answers (.gqGet d) s (withLink (issuedState (.gqGet d) 1 s) (linkOf c) freed) d (2 ^ 64 - 2))) ∧
    (∀ cost, cost = baddCost b (s.core c) → readsAB (.baddRq a b) cost s a b v w k →
      let g := field w 22 17
      let x2 := field w 16 0
      let n := blockBytes f g
      fmtOf (field w 30 24) = some f → field w 30 24 ∈ [0x1B, 0x1C, 0x1D, 0x1F] → rmodeOf (field w 34 32) = some rm → g ≠ 0 →
      w < 2 ^ 35 → bitAt w 31 = false → v < 2 ^ 17 → v + n ≤ k.top → x2 + n ≤ k.top → v % 8 = 0 → x2 % 8 = 0 →
      (v = x2 ∨ meets v n x2 n = false) → unreadyAt k v n = false → unreadyAt k x2 n = false →
      ∀ gs fl dr, sumGroups k f rm v x2 g = (gs, fl, dr) → quiet k fl →
      exec (.baddRq a b) s = .next (s.setCore c (setDrawIndex (putLocal (orSticky k fl) v
        ((gs.map (fun e => elemBytes (fmtBits f) e.1)).flatten ++ gs.map (fun e => BitVec.ofNat 8 e.2))) dr))) ∧
    (e.i < 16 → l.up = true → l.down = false → l.retrain = false →
      (∀ o, e.j ≠ s.hport.self → routeLink s e.j = some o →
        exec .peerFlitArrival s = .next (withLink s o { nth s.links o {} with
          out := (nth s.links o {}).out ++ [(e.j, e.k, e.w, e.bytes)] })) ∧
      (e.j = s.hport.self → e.k < l.nblk → slotFree l e.k = true →
        let got := ((l.landing.find? (fun b => b.1 == e.k)).map (·.2)).getD 0
        let y : CoreId := ⟨.gateway, 4 * e.i + e.k % 4⟩
        exec .peerFlitArrival s = .next ((withLink s e.i { l with
            landing := l.landing.filter (fun b => b.1 != e.k) ++ [(e.k, got + e.bytes.length)] }).setCore y
          (deliver (s.core y) (landingAddr l e.k + e.w) e.bytes)))) ∧
    (l.landing.find? (fun b => b.1 == e.j) = some blk → blockBytes ((fmtOf l.fmt).getD .e4m3b32) l.g ≤ blk.2 →
      (e.j = nextBlock l → exec .blockLanded s = .next (withLink s e.i { l with
        landing := l.landing.filter (fun b => b.1 != e.j), landed := l.landed ++ [(e.j, landingAddr l e.j)] })) ∧
      (e.j ≠ nextBlock l → exec .blockLanded s = .next s)) ∧
    (e.i < 16 → l.up = true →
      (e.ok = true → exec .peerFlitRetry s = .next (withLink s e.i { l with retries := 0 })) ∧
      (e.ok = false → l.retries < 15 → exec .peerFlitRetry s = .next (withLink s e.i { l with retries := l.retries + 1 })) ∧
      (e.ok = false → 15 ≤ l.retries →
        exec .peerFlitRetry s = .next (withLink s e.i { l with retries := 0, retrain := true }))) ∧
    (e.i < 16 → l.retrain = true →
      (e.ok = true → exec .linkRetrainEnd s = .next (withLink s e.i { l with retrain := false })) ∧
      (e.ok = false → ∃ t, exec .linkRetrainEnd s = .next t ∧
        t.links = setAt s.links e.i { l with retrain := false, up := false, down := true, out := [] } ∧
        t.rdy.link = setField s.rdy.link e.i e.i 0 ∧ t.health.linkdn = natOr s.health.linkdn (2 ^ e.i) ∧
        t.hport.msi = s.hport.msi ++ [0] ∧ t.cores = s.cores)) ∧
    (let n := ((s.health.hops.find? (fun h => h.1 == e.i)).map (·.2)).getD 0 + 1
      let others := s.health.hops.filter (fun h => h.1 != e.i)
      (e.ok = true → exec .meshFlitRetry s = .next { s with health := { s.health with hops := others } }) ∧
      (e.ok = false → n < 8 → exec .meshFlitRetry s = .next { s with health := { s.health with hops := others ++ [(e.i, n)] } }) ∧
      (e.ok = false → 8 ≤ n → s.health.stopped = false → ∃ t, exec .meshFlitRetry s = .next t ∧ t.health.stopped = true ∧
        t.hport.msi = s.hport.msi ++ [0] ∧ t.cores = s.cores)) ∧
    (e.i < 4 → bitAt s.hport.xpres e.i = true →
      ∃ t, exec .expanderLinkDown s = .next t ∧ t.hport.xpres = setField s.hport.xpres e.i e.i 0 ∧
        t.hport.msi = s.hport.msi ++ [0] ∧ t.cores = s.cores) ∧
    (e.i < 16 → exec .streamStart s = .next (withLink s e.i (writeStream l (e.w % 2 ^ 64)))) ∧
    (e.i < 16 → e.j < 4 → exec .tail s = .next (withLink s e.i { l with
      tail := setAt l.tail e.j (e.w % 2 ^ 32), head := setAt l.head e.j (nth l.head e.j 0 % 2 ^ 31) })) ∧
    (let h := nth l.head e.j 0
      let y := s.core ⟨.gateway, 4 * e.i + e.j⟩
      let at' := nth l.tbase e.j 0 + 16 * (h % 2 ^ 31 % 2 ^ nth l.tlog e.j 0)
      let w0 := memRead y.ls at' 8
      let w1 := memRead y.ls (at' + 8) 8
      e.i < 16 → e.j < 4 → h % 2 ^ 31 ≠ nth l.tail e.j 0 % 2 ^ 31 →
      (descriptorOk s w0 w1 = false → exec .txBlockSent s = .next (withLink s e.i { l with
        head := setAt l.head e.j ((h % 2 ^ 31 + 1) % 2 ^ 31 + 2 ^ 31) })) ∧
      (∀ o, descriptorOk s w0 w1 = true → routeLink s (field w1 18 0) = some o → (nth s.links o {}).retrain = false →
        let sent := flits (field w1 18 0) (field w1 51 32) 17 0 (imageBytes y (field w0 16 0) (field w0 44 32))
        let s1 := withLink s o { nth s.links o {} with out := (nth s.links o {}).out ++ sent }
        let l1 := nth s1.links e.i {}
        exec .txBlockSent s = .next (withLink s1 e.i { l1 with
          head := setAt l1.head e.j ((h % 2 ^ 31 + 1) % 2 ^ 31 + h / 2 ^ 31 * 2 ^ 31) })))

/-! ### Launches (14_launches) -/

/-- R283, R292, R293, R296-R300: `launch` accepts the record that A names into its queue, once the core's stores have landed
and the queue has a free slot, and answers the id, the queue at bit 48 and the context's count; a record with a bad field
answers 2^63 + 8. `trig` counts the core, `dwait` answers which producers failed, `lwait` the completion word, `lstat` the
core's own word, a status word, or 3 * 2^61 outside the window. -/
def Obligations.LaunchInstructions : Prop :=
  ∀ (d a : Spec) (s : State) (v : Nat) (k : Core) (l : Launch),
    let c := s.cur
    let s1 := s.setCore c k
    let w := (List.range 16).map (fun i => readLocal k (v + 8 * i) 8)
    let q := field (nth w 0 0) 11 8
    (readsA (.launch d a) 1 s a v k → takesWord k d →
      (v % 8 = 0 → v + 128 ≤ k.top → unreadyAt k v 128 = false →
        (recordValid w = false → answers (.launch d a) s s1 d (2 ^ 63 + 8)) ∧
        (recordValid w = true → k.ctf = 0 → k.ctb = 0 → k.ldo = 0 → k.atm = 0 → mayLaunch s1 k.ctx q = true →
          answers (.launch d a) s (acceptLaunch s1 k.ctx w (some c) (ownObject s1 c)).1 d (q * 2 ^ 48 + acceptedCount s k.ctx + 1))) ∧
      (v % 8 ≠ 0 → traps (.launch d a) s { cause := .align, addr := v }) ∧
      (v % 8 = 0 → k.top < v + 128 → traps (.launch d a) s { cause := .fabric, addr := v })) ∧
    (ready .trig s → (s.core c).ctf = 0 → (s.core c).ctb = 0 → (s.core c).ldo = 0 → (s.core c).atm = 0 →
      let me := (s.core c).gang * 2 ^ 20 + coreNumber c (s.core c)
      exec .trig s = .next (modLaunch (issuedState .trig 1 s) (s.core c).ctx (s.core c).launch
        (fun l => if l.trigs.contains me then l else { l with trigs := l.trigs ++ [me] }))) ∧
    (let k0 := issued (.dwait d) 1 s
      let s0 := issuedState (.dwait d) 1 s
      ready (.dwait d) s → takesWord k0 d → coreLaunch s0 k0 = some l → (∀ p ∈ l.prod, producerDone s0 k0.ctx p = true) →
      let bit (i : Nat) : Nat := bnat (producerBit s0 k0.ctx (nth l.prod i 0)) * 2 ^ i
      answers (.dwait d) s s0 d (bit 0 + bit 1 + bit 2 + bit 3)) ∧
    (readsA (.lwait d a) 1 s a v k → takesWord k d →
      (inWindow s k.ctx v = false → answers (.lwait d a) s s1 d (2 ^ 63 + v % 2 ^ 52)) ∧
      (inWindow s k.ctx v = true → findLaunch s k.ctx v = some l → l.over = true →
        answers (.lwait d a) s s1 d (2 ^ 63 + (if l.st = .done then 0 else 2 ^ 62) + l.id % 2 ^ 52))) ∧
    (readsA (.lstat d a) 1 s a v k → takesWord k d →
      (v = 0 → answers (.lstat d a) s s1 d (ownWord s1 c)) ∧
      (v ≠ 0 → inWindow s k.ctx v = true → findLaunch s k.ctx v = some l → answers (.lstat d a) s s1 d l.stat) ∧
      (v ≠ 0 → inWindow s k.ctx v = false → answers (.lstat d a) s s1 d (3 * 2 ^ 61)))

/-- R272, R286, R287, R289, R291, R292, R397: a placement round gives the cores of a placed gang to the launch of its head, which
prepare for it; the loader then loads the workspace images and the parameter block, clears the counts and slice and starts
the prologue on the lowest channel's workspace, or leaves the core to select where the kernel has none; a launch all of whose
cores are quiet completes, and a killed one once its cores have stopped and their counts are zero; a due entry is put into the release ring of the issuing control core. -/
def Obligations.LaunchEvents : Prop :=
  ∀ (s s1 s2 : State) (l x : Launch) (ms : List (Nat × CoreId)) (k : Core) (bs bs' : List Byte),
    let e := s.ev
    (bitAt s.rdy.svc 0 = true → s.health.stopped = false → heads s = [l] → (∀ g ∈ l.gangs, g.evicted = false) →
      l.placedGangs = 0 → launchNgang l = 1 → refusalReason s l = 0 → findLaunch (storeObject s l) l.ctx l.id = some x →
      x.st = .queued → kernelCosched x = false → findGang (storeObject s l) x = (s2, some ms) → (ms.map (fun m => pid m.2)).Nodup →
      ∃ t, exec .placementRound s = .next t ∧ ∀ m ∈ ms,
        (t.core m.2).life = .preparing ∧ (t.core m.2).ctx = x.ctx ∧ (t.core m.2).launch = x.id ∧ (t.core m.2).logical = m.1 ∧
        (t.core m.2).sup = ctxSup s2 x.ctx ∧ (t.core m.2).gang = x.placedGangs ∧ (t.core m.2).ls = (s2.core m.2).ls) ∧
    ((s.core e.core).life = .preparing → findLaunch s (s.core e.core).ctx (s.core e.core).launch = some l →
      loadImages e.core l (imageList l) s = .ok bs s1 → loadParams e.core l s1 = .ok bs' s2 →
      let k1 := readyCore l (startTemper s2 l) (s2.core e.core)
      ((k1.run = .prologue ∨ k1.preReq = none) → exec .prologueStart s = .next (s2.setCore e.core k1)) ∧
      (field (nth l.kent 0 0) 63 32 ≠ 0xFFFFFFFF →
        k1.run = .prologue ∧ k1.pc = kernelEntry l ∧ k1.budget = 256 * field (nth l.kent 0 0) 31 16) ∧
      k1.chans = kernelChans l ∧ k1.acc = [] ∧ k1.ctf = 0 ∧ k1.ctb = 0 ∧ k1.ctm = 0 ∧ k1.ldo = 0 ∧ k1.atm = 0 ∧
      k1.wp = 1024 * lowestWpi l ∧ k1.life = .active) ∧
    (e.ok = true → findLaunch s e.i e.j = some l → l.st = .placed → l.killed = false → (∀ g ∈ l.gangs, g.evicted = false) →
      launchCores s e.i e.j ≠ [] → (∀ c ∈ launchCores s e.i e.j, Machine.quiet s c = true) →
      exec .kernelComplete s = .next (completeLaunch s e.i e.j false)) ∧
    (e.ok = true → findLaunch s e.i e.j = some l → l.over = false → l.killed = true →
      ((∀ c ∈ launchCores s e.i e.j, closedOut s c = true) →
        exec .kernelComplete s = .next (completeLaunch ((launchCores s e.i e.j).foldl withdrawParked s) e.i e.j true)) ∧
      ((∃ c ∈ launchCores s e.i e.j, (s.core c).ctf ≠ 0 ∨ (s.core c).ctb ≠ 0 ∨ (s.core c).ldo ≠ 0 ∨ (s.core c).atm ≠ 0) →
        exec .kernelComplete s = .next s)) ∧
    (∀ c, findLaunch s e.i e.j = some l → l.ringDue = true → l.issuer = some c → (s.core c).life ≠ .free →
      (s.core c).ctx = e.i → coreAway (s.core c) = false → ringPut (s.core c) 1 (launchPins l) = some k →
      exec .rringRetry s = .next (modLaunch (s.setCore c k) e.i e.j (fun l => { l with ringDue := false })))

/-! ### Saggars (15_saggars) -/

/-- R305-R310, R313, R316-R321: `sgnew` answers a reason where its descriptor, the table, the context's limits or the bytes do
not let the saggar in, and else makes it, zeroed and attached once, and answers its handle, the slot above the incarnation;
`sgatt` attaches a resident saggar and raises ATTACH for a name that is not there, lost or evicted, the last of which asks for
the restore; `sgdet`, `sgrel` and `sgpin` act through a handle, whose staleness raises ATTACH 4 and whose absence from the
core's table ATTACH 5; `sgevict` begins an eviction or answers why not; `sgstat` gives a word of the entry. -/
def Obligations.SaggarInstructions : Prop :=
  ∀ (d a b : Spec) (s : State) (v w : Nat) (k : Core) (slot : Nat),
    let c := s.cur
    let s1 := s.setCore c k
    let g := sagOf s slot
    let withSag (x : State) (h : Saggar) : State := { x with saggars := ainsert slot h x.saggars }
    let handle (h : Nat) : Prop := h = slot * 2 ^ 32 + g.inc ∧ slot < 2 ^ 13 ∧ g.inc < 2 ^ 32
    let holds : Prop := k.att.any (fun u => u.slot == slot && u.inc == g.inc) = true
    let released : Prop := k.ctf = 0 ∧ k.ctb = 0 ∧ k.ldo = 0 ∧ k.atm = 0
    (readsA (.sgnew d a) 1 s a v k → takesWord k d → v + 64 ≤ topOf c.cls → v % 8 = 0 → unreadyAt k v 64 = false →
      let ws := (List.range 8).map (fun i => readLocal k (v + 8 * i) 8)
      let n := descSag k.ctx ws
      (8 ≤ k.att.length → traps (.sgnew d a) s { cause := .attach, sub := 6, addr := nth ws 0 0 }) ∧
      (k.att.length < 8 →
        (descOk s1 ws n = false → answers (.sgnew d a) s s1 d (2 ^ 63 + 5)) ∧
        (descOk s1 ws n = true →
          ((findSag s1 n.ctx n.name).isSome = true → answers (.sgnew d a) s s1 d (2 ^ 63 + 1)) ∧
          (findSag s1 n.ctx n.name = none →
            (freeSlot s1 = none → answers (.sgnew d a) s s1 d (2 ^ 63 + 2)) ∧
            (freeSlot s1 = some slot →
              (sagLimits s1 n = false → answers (.sgnew d a) s s1 d (2 ^ 63 + 3)) ∧
              (sagLimits s1 n = true →
                (pressure s1 (meetingSlots s1 n Saggar.reserves) = none → answers (.sgnew d a) s s1 d (2 ^ 63 + 4)) ∧
                (∀ s2, pressure s1 (meetingSlots s1 n Saggar.reserves) = some (s2, true) → n.parts ≤ (partPlaces s2 n).length →
                  answers (.sgnew d a) s (createSag s2 c slot n).1 d (slot * 2 ^ 32 + ((sagOf s2 slot).inc + 1) % 2 ^ 32)))))))) ∧
    (readsA (.sgatt d a) 1 s a v k → takesWord k d →
      (8 ≤ k.att.length → traps (.sgatt d a) s { cause := .attach, sub := 6, addr := v }) ∧
      (k.att.length < 8 →
        (findSag s k.ctx v = none → traps (.sgatt d a) s { cause := .attach, sub := 3, addr := v }) ∧
        (findSag s k.ctx v = some slot →
          (g.st = 1 → answers (.sgatt d a) s (withSag (s.setCore c { k with
              att := k.att ++ [{ slot := slot, inc := g.inc, launch := k.lkey }] })
              { g with att := g.att + 1, lastAtt := s.cycle, expiry := s.cycle + 600000 * g.lease }) d (slot * 2 ^ 32 + g.inc)) ∧
          (g.st = 3 → g.rest = true → traps (.sgatt d a) s { cause := .attach, sub := 1, addr := v }) ∧
          (g.st = 3 → g.rest = false → ∃ t, t.saggars = ainsert slot { g with rest := true } s.saggars ∧
            t.core c = s.core c ∧ exec (.sgatt d a) s = .next (takeTrap t c { cause := .attach, sub := 0, addr := v }
              (nth (encode (.sgatt d a)) 0 0) (nth (encode (.sgatt d a)) 1 0) (4 * (encode (.sgatt d a)).length) false)) ∧
          (g.st = 4 → traps (.sgatt d a) s { cause := .attach, sub := 2, addr := v })))) ∧
    (readsA (.sgdet a) 1 s a v k →
      (handle v → holds → released →
        let h := { g with att := g.att - 1 }
        exec (.sgdet a) s = .next (withSag (s.setCore c (dropAttach k slot)) (if g.st = 4 ∧ g.att - 1 = 0 then { inc := g.inc } else h))) ∧
      (v / 2 ^ 45 = 0 → v / 2 ^ 32 = slot → v % 2 ^ 32 ≠ g.inc → traps (.sgdet a) s { cause := .attach, sub := 4, addr := g.name }) ∧
      (handle v → ¬ holds → traps (.sgdet a) s { cause := .attach, sub := 5, addr := g.name })) ∧
    (readsAB (.sgrel a b) 1 s a b v w k → handle v → holds → released → w < 2 ^ 9 →
      exec (.sgrel a b) s = .next (withSag s1 { g with
        gen := (g.gen + 1) % 2 ^ 32, ttag := if bitAt w 8 then w % 256 else g.ttag, expiry := s.cycle + 600000 * g.lease })) ∧
    (readsAB (.sgpin a b) 1 s a b v w k → handle v → holds → w < 2 ^ 32 → field w 15 2 = 0 →
      let lease := field w 31 16
      (w % 4 = 1 → lease ≠ 0 → exec (.sgpin a b) s = .next (withSag s1 { g with
        life := 1, lease := lease, expiry := s.cycle + 600000 * lease })) ∧
      (w % 4 = 2 → lease = 0 → exec (.sgpin a b) s = .next (withSag s1 { g with life := 2 })) ∧
      (w % 4 = 0 → lease = 0 → (g.life = 0 ∨ pinnedBytes s g.ctx + g.parts * g.psize ≤ pinLimit s g.ctx) →
        exec (.sgpin a b) s = .next (withSag s1 { g with life := 0 })) ∧
      (w % 4 = 0 → lease = 0 → g.life ≠ 0 → pinLimit s g.ctx < pinnedBytes s g.ctx + g.parts * g.psize →
        traps (.sgpin a b) s { cause := .priv, sub := 0x30 })) ∧
    (readsA (.sgevict d a) 1 s a v k → takesWord k d →
      (findSag s k.ctx v = none → answers (.sgevict d a) s s1 d 3) ∧
      (findSag s k.ctx v = some slot →
        (g.st = 4 → answers (.sgevict d a) s s1 d 2) ∧
        ((g.st = 2 ∨ g.st = 3) → answers (.sgevict d a) s s1 d 0) ∧
        (g.st = 1 → 0 < g.att → answers (.sgevict d a) s s1 d 1) ∧
        (g.st = 1 → g.att = 0 → g.wb = true → answers (.sgevict d a) s (withSag s1 { g with st := 2 }) d 0) ∧
        (g.st = 1 → g.att = 0 → g.wb = false → answers (.sgevict d a) s (withSag s1 { inc := g.inc }) d 0))) ∧
    (readsA (.sgstat d a) 1 s a v k → takesWord k d → v < 2 ^ 51 → field v 47 45 = 0 → field v 44 32 = slot →
      (v % 2 ^ 32 = g.inc → answers (.sgstat d a) s s1 d (saggarWord g (field v 50 48))) ∧
      (v % 2 ^ 32 ≠ g.inc → traps (.sgstat d a) s { cause := .attach, sub := 4, addr := g.name }))

/-- R309-R311, R360, R364-R371: an eviction of a saggar ends with its parts copied to their backing, a restore starts once its
bytes are clear and ends resident. A pre-emption request is taken at once by a core on which nothing runs and held by any
other; past its limit the context ends on the core; a slice that is over marks its cores. A core that has drained saves its
slot and is freed and zeroed; a restoring core takes its saved state back; a context descriptor takes the bits it implements. -/
def Obligations.EvictionAndRestore : Prop :=
  ∀ (s s1 : State) (v : Save) (l : Launch),
    let e := s.ev
    let g := sagOf s e.i
    let k := s.core e.core
    let withSag (x : State) (h : Saggar) : State := { x with saggars := ainsert e.i h x.saggars }
    (g.st = 2 →
      (e.ok = true → copyOut s g g.parts = some s1 → exec .saggarEvictionEnd s = .next (withSag s1 { sagOf s1 e.i with st := 3 })) ∧
      (e.ok = false → exec .saggarEvictionEnd s = .next (withSag s (if g.att = 0 then { inc := g.inc }
        else { g with st := 4, rest := false, copying := false })))) ∧
    (g.rest = true → g.st = 3 → g.copying = false → kernelsMeet s g = false → g.parts ≤ (partPlaces s g).length →
      pressure s (meetingSlots s g Saggar.occupies) = some (s1, true) →
      exec .saggarRestoreStart s = .next (withSag s1 { sagOf s1 e.i with copying := true })) ∧
    (g.copying = true → e.ok = true → copyIn s g g.parts = some s1 →
      exec .saggarRestoreEnd s = .next (withSag s1 { sagOf s1 e.i with st := 1, rest := false, copying := false })) ∧
    (s.preReqs.any (fun r => r.1 == e.core) = true → (k.life = .active ∨ k.life = .preparing ∨ k.life = .restoring) →
      (∀ x ∈ couplesWith s e.core, (s.core x).pairReq ≠ 3) →
      let took := { s with preReqs := s.preReqs.filter (fun r => r.1 != e.core) }.setCore e.core { k with preReq := some s.cycle }
      let primary := s.core (coreAt (rowOf e.core) k.partner)
      let atEnd : Prop := k.life = .active ∧ k.run = .idle ∧ k.inHandler = false ∧ k.pst ≠ .coupling ∧
        (k.pst = .checker → primary.run = .idle ∧ primary.inHandler = false)
      (¬ atEnd → exec .preemptRequestArrival s = .next took) ∧
      (atEnd → exec .preemptRequestArrival s = .next (beginEviction took e.core))) ∧
    (∀ t0,
      let lim := field (heldWord s k.ctx 0x50) 47 32
      let p := pendingInstr s e.core
      k.preReq = some t0 → lim ≠ 0 → t0 + 65536 * lim ≤ s.cycle → (k.life = .active ∨ k.life = .preparing) →
      exec .plimExpiry s = .next (endContext (queueRecord s k.ctx (faultRecord s e.core { cause := .budget, sub := 0x10 }
        { idle := k.run == .idle } p.1 p.2.1 (recordSeq s k.ctx))) e.core)) ∧
    (∀ n, n = field (heldWord s e.i 0x50) 31 0 →
      findLaunch s e.i e.j = some l → l.over = false → n ≠ 0 → l.placedGangs ≠ 0 → l.start + 65536 * n ≤ s.cycle →
      exec .sliceExpiry s = .next ((launchCores s e.i e.j).foldl (fun s c => s.setCore c { s.core c with sliceExp := true })
        (modLaunch s e.i e.j (fun l => { l with sliceExp := true })))) ∧
    (∀ s3 t,
      let slot := e.core.cls == .compute && k.pst != .checker
      let s0 := withdrawParked s e.core
      let k1 := writeBack (s0.core e.core)
      let vol := (findLaunch s0 k1.ctx k1.launch).elim [] volatileRanges
      let sgen := ctxWord s0 k1.ctx 0x58
      let s2 := { s0 with fresh := s0.fresh + 2 }
      k.life = .saving → drained s e.core = true → saggarsOn s e.core = [] → k1.pst = k.pst →
      v = { ctx := k1.ctx, logical := coreNumber e.core k1, core := if slot then { k1 with ls := [], acc := [] } else k1,
            sgen := sgen, jobs := s.jobs.filter (fun j => j.core == e.core), volatile := vol, page := s0.fresh } →
      (slot = true → writeSlot s2 k1.ctx k1.logical sgen k1 vol s0.fresh (s.jobs.filter (fun j => j.core == e.core)) = some s3) → (slot = false → s3 = s2) →
      leaveCore s3 e.core v (s0.fresh + 1) = some t →
      exec .evictionSave s = .next t ∧ (t.core e.core).life = .free ∧ (t.core e.core).ls = [] ∧ (t.core e.core).acc = [] ∧
        t.saves = s3.saves ++ [v]) ∧
    (∀ m,
      let slot := e.core.cls == .compute && v.core.pst != .checker
      k.life = .restoring → e.ok = true →
      s.saves.find? (fun v => v.ctx == k.ctx && v.core.launch == k.launch && v.core.cls == e.core.cls
        && v.logical == coreNumber e.core k) = some v →
      (slot = true → readSlot s v = some m) → jobsFit s e.core v.jobs = true → restoreRow s e.core = some s1 →
      s.health.stopped = false → k.preReq = none →
      ∃ t, exec .coreRestore s = .next t ∧ t.core e.core = restoredCore e.core k v (if slot then some m else none) ∧
        t.saves = s1.saves.filter (fun x => !(x.ctx == v.ctx && x.logical == v.logical && x.core.launch == v.core.launch
          && x.core.cls == v.core.cls))) ∧
    (let at' := 128 * e.i + e.j
      let old := memRead s.ctxs at' 8
      let new := natAnd old (natNot 64 (ctxMask e.j)) + natAnd (e.w % 2 ^ 64) (ctxMask e.j)
      e.i < 64 → e.j < 128 → e.j % 8 = 0 → (e.j ≠ 0 ∨ bitAt old 63 = false ∨ bitAt (e.w % 2 ^ 64) 63 = true) →
      exec .contextDescWrite s = .next { s with ctxs := memWrite s.ctxs at' 8 new })

/-! ### Temper (16_temper) -/

/-- R323-R325, R328-R338, Tables 16-3 and 16-5: `tmpr.get` gives the temper word or the latest id of a launch in the window and
0 for any other, `tmpr.pick` a choice at the firing's temper or at the one given, `tmpr.dem` a share, which it also stores in
the temper word where bit 23 says so, `tmpr.re` the launch to wait for, whose demand rises, which it names in the producers of
the core's own launch, or 2^63 with a reason, and `tmpr.ach` lowers the achieved temper of the core's own launch. -/
def Obligations.TemperInstructions : Prop :=
  ∀ (d a : Spec) (s : State) (v : Nat) (k : Core) (l : Launch),
    let c := s.cur
    let s1 := s.setCore c k
    (readsA (.tmprGet d a) 1 s a v k → takesWord k d → field v 59 52 = 0 →
      let id := if field v 51 0 = 0 then ownLaunchId s1 c else field v 51 0
      (knownLaunch s1 k.ctx id = none → answers (.tmprGet d a) s s1 d 0) ∧
      (knownLaunch s1 k.ctx id = some l →
        (field v 63 60 = 0 → answers (.tmprGet d a) s s1 d (l.words.getD 3 0 % 2 ^ 8 + l.demand * 2 ^ 8 + l.tach * 2 ^ 16
          + launchTsens l * 2 ^ 24 + bnat ((latestOf s1 l.ctx l.id).any (fun x => x.id != l.id)) * 2 ^ 59 + bnat l.over * 2 ^ 60
          + bnat (retained s1 l) * 2 ^ 61 + bnat l.av * 2 ^ 62 + 2 ^ 63)) ∧
        (field v 63 60 = 1 → answers (.tmprGet d a) s s1 d ((latestOf s1 l.ctx l.id).elim 0 (·.id))) ∧
        (1 < field v 63 60 → answers (.tmprGet d a) s s1 d 0))) ∧
    (readsA (.tmprPick d a) 1 s a v k → takesWord k d →
      let w := wsWord k 0x3B0
      let t := if field v 4 3 = 0 then field w 7 0 else field v 15 8
      let r := choose (field v 2 0) t (field v 31 16) (field w 39 32)
      let n := chooseIters t (field v 31 16)
      (pickOk v = true → field v 2 0 ≠ 3 → answers (.tmprPick d a) s s1 d (r.1 + r.2.1 * 2 ^ 8 + bnat r.2.2 * 2 ^ 63)) ∧
      (pickOk v = true → field v 2 0 = 3 → answers (.tmprPick d a) s s1 d (n.1 + n.2 * 2 ^ 8)) ∧
      (pickOk v = false → traps (.tmprPick d a) s { cause := .undef, sub := 2 })) ∧
    (readsA (.tmprDem d a) 2 s a v k → takesWord k d → field v 22 19 = 0 → v < 2 ^ 24 →
      let shared (s2 : State) (t : Option Sens) : Prop :=
        let r := share (field v 7 0) t (field v 18 16)
        ∀ k2, writeDst (s2.core c) .z64 d r = .ok k2 →
          (bitAt v 23 = false → exec (.tmprDem d a) s = .next (s2.setCore c k2)) ∧
          (bitAt v 23 = true →
            exec (.tmprDem d a) s = .next (s2.setCore c (setWsWord k2 0x3B0 (setField (wsWord k2 0x3B0) 7 0 r))))
      (coreLaunch s1 k = none → shared s1 none) ∧
      (coreLaunch s1 k = some l → sensAddr s1 l (field v 15 8) = none → shared s1 none) ∧
      (∀ x w0 s2 w1 s3, coreLaunch s1 k = some l → sensAddr s1 l (field v 15 8) = some x →
        readCode s1 c l x 8 = .ok w0 s2 → readCode s2 c l (x + 8) 8 = .ok w1 s3 → shared s3 (some (sensOf w0 w1)))) ∧
    (readsA (.tmprRe d a) 1 s a v k → takesWord k d → field v 55 52 = 0 → k.ctf = 0 → k.ctb = 0 → k.ldo = 0 → k.atm = 0 →
      let e := field v 51 0
      (knownLaunch s1 k.ctx e = none → answers (.tmprRe d a) s s1 d (2 ^ 63 + 1)) ∧
      (knownLaunch s1 k.ctx e = some l → retained s1 l = false → answers (.tmprRe d a) s s1 d (2 ^ 63 + 1)) ∧
      (knownLaunch s1 k.ctx e = some l → retained s1 l = true → l.st = .refused → answers (.tmprRe d a) s s1 d (2 ^ 63 + 2)) ∧
      (∀ r s2, reDemand s1 k.ctx e (field v 63 56) = some (r, s2) → r < 2 ^ 63 →
        answers (.tmprRe d a) s (replaceProducers s2 (s2.core c).ctx (s2.core c).launch e r) d r)) ∧
    (readsA (.tmprAch a) 1 s a v k →
      (v < 256 → exec (.tmprAch a) s = .next (modLaunch s1 k.ctx (ownLaunchId s1 c)
        (fun l => { l with tach := min l.tach v, av := true }))) ∧
      (256 ≤ v → traps (.tmprAch a) s { cause := .undef, sub := 2 }))

/-! ### Control cores (18_control) -/

/-- R253, R375, R400-R405, R468: `bld` reads its 2^Z bytes from a present line, or from host memory once the core's earlier accesses
to that home have performed; `bst` posts a write, counted in ct.b; both need an aligned address in bulk space. `icw` writes
an entry of the inline cache, `ici` clears all, one or those of another version, `icr` gives a word. A line is filled once
the core's earlier accesses to its home have performed; a poisoned read of the CXL tier makes the reader trap. -/
def Obligations.ControlCore : Prop :=
  ∀ (z : BitVec 2) (d a b : Spec) (s s2 : State) (v w t pa : Nat) (k : Core),
    let c := s.cur
    let s1 := s.setCore c k
    let n := 2 ^ z.toNat
    let e := s.ev
    let y := s.core e.core
    (readsA (.bld z d a) 0 s a v k → takesWord k d →
      (v % n = 0 → isBulk v = true → coreTranslate s1 c v 0 = .ok (t, pa) s2 →
        let r := ofBytes ((List.range n).map (fun i => lineByte s2 c t (pa + i)))
        let own := (List.range n).all (fun i => ownByte s2 c t (pa + i))
        (t = 3 → homeBusy s2 c t pa true = false → answersControl 4 (.bld z d a) s s2 d r) ∧
        (t ≠ 3 → (s2.core c).lines.contains (t, pa / 64) = true → homeBusy s2 c t pa (!own) = false →
          answersControl 4 (.bld z d a) s (s2.setCore c { s2.core c with lines := touchLine (s2.core c).lines (t, pa / 64) }) d r)) ∧
      (v % n ≠ 0 → traps (.bld z d a) s { cause := .align, addr := v }) ∧
      (v % n = 0 → isBulk v = false → traps (.bld z d a) s { cause := .fabric, sub := 1, addr := v })) ∧
    (readsAB (.bst z a b) 1 s a b v w k → w % n = 0 → isBulk w = true → fenceClear k = true → k.ctb < 65535 →
      coreTranslate s1 c w 1 = .ok (t, pa) s2 →
      let k2 := dropFence (s2.core c)
      exec (.bst z a b) s = .next { s2.setCore c { k2 with ctb := k2.ctb + 1 } with
        fab := s2.fab ++ [{ src := c, ctx := k2.ctx, home := .bulk t pa, va := w, kind := .store (toBytes n v), posted := 2,
                            launch := k2.launch, since := s2.cycle, big := bigAt s2 (couchOf c) k2.ctx w, born := s2.tlbn }] }) ∧
    (readsAB (.icw a b) 0 s a b v w k → v < 2048 → w + 24 ≤ topOf c.cls → w % 8 = 0 → unreadyAt k w 24 = false →
      let w0 := readLocal k w 8
      let w1 := readLocal k (w + 8) 8
      let w2 := readLocal k (w + 16) 8
      (bitAt w0 0 = false → w2 < 2 ^ 48 → icForbidden w0 w1 w2 = false →
        exec (.icw a b) s = .next (s.setCore c (({ k with
          ic := if (w0, w1, w2) = (0, 0, 0) then aerase v k.ic else ainsert v (w0, w1, w2) k.ic } : Core).chargeControl 2))) ∧
      ((bitAt w0 0 = true ∨ 2 ^ 48 ≤ w2) → traps (.icw a b) s { cause := .undef, sub := 1 }) ∧
      (bitAt w0 0 = false → w2 < 2 ^ 48 → icForbidden w0 w1 w2 = true → traps (.icw a b) s { cause := .undef, sub := 3 })) ∧
    (readsA (.ici a) 0 s a v k → iciOk v = true →
      let cleared (n : Nat) (ic : List (Nat × Nat × Nat × Nat)) : Prop :=
        exec (.ici a) s = .next (s.setCore c (({ k with ic := ic } : Core).chargeControl n))
      (field v 63 62 = 0 → cleared 64 []) ∧
      (field v 63 62 = 1 → cleared 1 (aerase (field v 10 0) k.ic)) ∧
      (field v 63 62 = 2 → cleared 64 (k.ic.filter (fun u => field u.2.1 63 32 != field v 31 0)))) ∧
    (readsA (.icr d a) 1 s a v k → takesWord k d → v < 8192 →
      let u := (alookup (field v 10 0) k.ic).getD (0, 0, 0)
      (field v 12 11 = 0 → answers (.icr d a) s s1 d u.1) ∧ (field v 12 11 = 1 → answers (.icr d a) s s1 d u.2.1) ∧
      (field v 12 11 = 2 → answers (.icr d a) s s1 d u.2.2) ∧ (field v 12 11 = 3 → answers (.icr d a) s s1 d 0)) ∧
    (y.fillWait = some (t, pa, v) → homeBusy s e.core t (64 * pa) true = false →
      (streamerReady s t (64 * pa) = false → exec .lineCacheFill s = .next (s.setCore e.core { y with
        tres := some (v, 4), fillWait := none })) ∧
      (streamerReady s t (64 * pa) = true → e.ok = true → (t = 2 → s.poison.contains pa = false) → exec .lineCacheFill s = .next (s.setCore e.core { y with
        lines := touchLine y.lines (t, pa), fillWait := none })) ∧
      (streamerReady s t (64 * pa) = true → t = 2 → (e.ok = false ∨ s.poison.contains pa = true) → exec .lineCacheFill s = .next (s.setCore e.core { y with tres := some (v, 6), fillWait := none })))

/-! ### Serving (20_serving) -/

/-- R409-R413, R418-R422: `sq.rd` gives a word of a sequence, `sq.wr` performs an operation on one and answers its word 0 or
2^63 with an error, `sq.build` gives the plan of a step to the holder of the token, `ltok.wait` and `ltok.pass` wait for the
token and pass it on, `dk.run` queues a request at a deckle unit, `dk.wait` answers a mailbox word; a context without the
right raises PRIV 0x50, one that does not hold the token 0x51. A unit takes its oldest request and writes its mailbox word. -/
def Obligations.ServingAndDeckle : Prop :=
  ∀ (d a : Spec) (s s2 : State) (v : Nat) (k : Core) (r : DkReq) (rs : List DkReq) (w : Nat),
    let c := s.cur
    let s1 := s.setCore c k
    let released : Prop := k.ctf = 0 ∧ k.ctb = 0 ∧ k.ldo = 0 ∧ k.atm = 0
    let block (n : Nat) : Prop := v + n ≤ topOf c.cls ∧ v % 8 = 0 ∧ unreadyAt k v n = false
    let word (i : Nat) : Nat := readLocal k (v + 8 * i) 8
    let mine : Prop := ctxRight s k.ctx 4 true = true
    let holds : Prop := tokenHeld s1 k.ctx = true ∧ tokenHolder s1 k.ctx = c.idx
    let e := s.ev
    (readsA (.sqRd d a) 1 s a v k → takesWord k d → field v 15 13 = 0 → v < 2 ^ 22 →
      let q := field v 12 0
      (ctxRight s k.ctx 2 false = true → (seqState s q = 0 ∨ seqCtx s q = k.ctx) →
        answers (.sqRd d a) s s1 d (seqWord s q (8 * field v 21 16))) ∧
      ((ctxRight s k.ctx 2 false = false ∨ (seqState s q ≠ 0 ∧ seqCtx s q ≠ k.ctx)) →
        traps (.sqRd d a) s { cause := .priv, sub := 0x50 })) ∧
    (readsA (.sqWr d a) 1 s a v k → takesWord k d → block 16 →
      let q := field (word 0) 12 0
      ctxRight s k.ctx 2 true = true → (seqState s q = 0 ∨ seqCtx s q = k.ctx) → released →
      let r := seqOperation s1 q (field (word 0) 18 16) (field (word 0) 29 24) (word 1)
      (r = .ok s2 → answers (.sqWr d a) s s2 d (seqWord s2 q 0)) ∧
      (∀ x, r = .error x → answers (.sqWr d a) s s1 d (2 ^ 63 + x))) ∧
    (readsA (.sqBuild d a) 1 s a v k → takesWord k d → block 32 → ctxRight s k.ctx 2 true = true → mine → released →
      let plan := field (word 1) 16 0
      let b := buildStep s1 k.ctx (field (word 0) 63 48) (field (word 0) 47 32) (field (word 0) 31 16)
      let bs := planBytes (tokenStep s1 k.ctx) b
      (¬ holds → answers (.sqBuild d a) s s1 d (2 ^ 63 + 1)) ∧
      (holds → buildOk (word 0) (word 1) = true → plan + bs.length ≤ 0x12000 → ∀ k2, storeAt (b.s.core c) plan bs = .ok k2 →
        answers (.sqBuild d a) s (b.s.setCore c k2) d (ofBytes (bs.take 8)))) ∧
    (∀ s0 k0, s0 = issuedState (.ltokWait d) 1 s → k0 = issued (.ltokWait d) 1 s → ready (.ltokWait d) s → takesWord k0 d →
      (ctxRight s k0.ctx 4 false = false → traps (.ltokWait d) s { cause := .priv, sub := 0x50 }) ∧
      (ctxRight s k0.ctx 4 false = true →
        (bitAt (servPart s k0.ctx) c.idx = false → answers (.ltokWait d) s s0 d (2 ^ 63)) ∧
        (bitAt (servPart s k0.ctx) c.idx = true → tokenHeld s k0.ctx = true → tokenHolder s k0.ctx = c.idx →
          answers (.ltokWait d) s s0 d (tokenStep s k0.ctx)))) ∧
    (readsA (.ltokPass a) 1 s a v k → v < 128 → mine →
      (¬ holds → traps (.ltokPass a) s { cause := .priv, sub := 0x51 }) ∧
      (holds → released → exec (.ltokPass a) s = .next (passToken s1 k.ctx (if bitAt v 6 then some (field v 5 0) else none)))) ∧
    (readsA (.dkRun d a) 1 s a v k → takesWord k d → block 64 → released →
      let u := field (word 1) 33 32
      let q := nth s.deckles u []
      ((field (word 1) 63 34 ≠ 0 ∨ word 4 = 0 ∨ bitAt s.rdy.deckle u = false) → answers (.dkRun d a) s s1 d (2 ^ 63 + 1)) ∧
      (field (word 1) 63 34 = 0 → word 4 ≠ 0 → bitAt s.rdy.deckle u = true → q.length < 16 →
        answers (.dkRun d a) s { s1 with
          deckles := setAt s.deckles u (q ++ [{ ctx := k.ctx, core := c, words := localWords k v 8 }]) } d 0)) ∧
    (readsA (.dkWait d a) 1 s a v k → takesWord k d → block 8 → bitAt (word 0) 63 = true →
      answers (.dkWait d a) s s1 d (word 0)) ∧
    (nth s.deckles e.i [] = r :: rs → r.result = none → dkResult s r = some w →
      exec .deckleRequest s = .next { s with deckles := setAt s.deckles e.i ({ r with result := some w } :: rs) }) ∧
    (nth s.deckles e.i [] = r :: rs → r.result = some w →
      writeMailbox { s with deckles := setAt s.deckles e.i rs } r.ctx (nth r.words 5 0) w = some s2 →
      exec .deckleComplete s = .next s2)

/-! ### Bytecodes (19_interpreter) -/

/-- R384, R385, R389 and Table 19-2: a bytecode that the front end does not execute goes to its routine with reason 0; a byte
that is none, or a BPC at or beyond BCLEN, goes to entry 0xFF; where the stack has no room, entry 0xFD takes over, and where the
release ring has fewer than four free entries, entry 0xFE, with BPC as it was. -/
def Obligations.BytecodeRoutines : Prop :=
  ∀ (n : BitVec 16) (o : BitVec 8) (s : State) (k : Core) (t : Nat) (s1 : State),
    let c := s.cur
    let e := s.ev
    (k = s.core c →
      (frontReady 1 s → dispatched (.bcLoadg n) s n.toNat 0xFFFF 0 ∧ dispatched .bcWalk s 0 0xFFFF 0 ∧
        dispatched (.bcAdvance n) s n.toNat 0xFFFF 0 ∧ dispatched (.bcMakefunc n) s n.toNat 0xFFFF 0 ∧
        dispatched (.bcLoadclosure o) s o.toNat 0xFFFF 0) ∧
      (frontReady 0 s → dispatched (.bcStoreg n) s n.toNat 0xFFFF 0 ∧ dispatched .bcReturn s 0 0xFFFF 0 ∧
        dispatched .bcRaise s 0 0xFFFF 0 ∧ dispatched (.bcSetuptry n) s n.toNat 0xFFFF 0 ∧ dispatched .bcPoptry s 0 0xFFFF 0 ∧
        dispatched (.bcNewobj o) s o.toNat 0xFFFF 0) ∧
      (frontReady (1 - o.toNat) s → dispatched (.bcBuildtuple o) s o.toNat 0xFFFF 0 ∧
        dispatched (.bcBuildlist o) s o.toNat 0xFFFF 0) ∧
      (frontReady (o.toNat - 1) s → dispatched (.bcUnpack o) s o.toNat 0xFFFF 0)) ∧
    (k = s.core e.core → inBytecode s e.core = true → k.vpend = false → k.acqWait = false →
      unreadyAt k (k.wp + 128) 64 = false → 4 ≤ ringFree k → (e.w = 0x100 ∨ (e.w < 256 ∧ bcLength e.w = none)) →
      handlerEntry s e.core 0xFF = .ok t → checkTarget s e.core t = .ok () →
      storeWords s e.core (dispatchWords k (if e.w = 0x100 then wReg k 16 else wReg k 16 + 1) e.w 0 0xFFFF (wReg k 16) 0) = .ok s1 →
      exec .unassignedBytecode s = .next ((atRoutine s1 e.core t).modCore e.core (fun k => k.front 6 s.stall))) ∧
    (k = s.core c → frontReady 0 s → wReg k 20 < wReg k 18 + 8 → handlerEntry s c 0xFD = .ok t → checkTarget s c t = .ok () →
      storeWords s c (dispatchWords k (wReg k 16) 0xFD 0 0xFFFF (wReg k 16) 0) = .ok s1 →
      exec .bcDup s = .next (charged s (atRoutine s1 c t, 6))) ∧
    (k = s.core c → inBytecode s c = true → k.vpend = false → k.acqWait = false → unreadyAt k (k.wp + 128) 64 = false →
      ringFree k < 4 → handlerEntry s c 0xFE = .ok t → checkTarget s c t = .ok () →
      storeWords s c (dispatchWords k (wReg k 16) 0xFE 0 0xFFFF (wReg k 16) 0) = .ok s1 →
      exec .bcPop s = .next (charged s (atRoutine s1 c t, 6)))

/-- R380, R383, R386-R388, R390-R392, R399, Table 19-2: what the bytecodes that the front end executes come to. A reference that
is pushed or kept raises its object's count, one that is popped or dropped lowers it, two cycles each, and an object whose count
falls to 0 goes to the release ring; a small integer has none. A hit of the inline cache reads or writes the slot, tests the
type, or goes to the way's native target with reason 8; where the entry is not this bytecode's, its routine takes reason 1. -/
def Obligations.BytecodeResults : Prop :=
  ∀ (n sl : BitVec 16) (o : BitVec 8) (s s1 : State) (v x h : Nat) (f f2 f3 : Fe) (way j : Nat) (xs : List Nat),
    let c := s.cur
    let k := s.core c
    let f0 : Fe := { s := s, sp := wReg k 18 }
    let at' (i : Nat) : Nat := add64 (wReg k 19) (8 * i)
    let slotOf (q : Nat) : Nat := q + 16 + 8 * field way 11 0
    (isRef v = false → f.count c v true = .ok f ∧ f.count c v false = .ok f) ∧
    (isRef v = true → v % 16 = 0 → f.rd c v 8 = .ok (h, f2) → bitAt h 39 = false → field h 31 0 ≠ 0xFFFFFFFF →
      f.count c v true = .ok { f2 with blk := f2.blk ++ [(v, 4, field h 31 0 + 1)], chg := f2.chg + 1 } ∧
      (1 < field h 31 0 →
        f.count c v false = .ok { f2 with blk := f2.blk ++ [(v, 4, field h 31 0 - 1)], chg := f2.chg + 1 }) ∧
      (field h 31 0 = 1 →
        f.count c v false = .ok { f2 with blk := f2.blk ++ [(v, 4, 0)], chg := f2.chg + 1, ring := f2.ring ++ [v] })) ∧
    (∀ next cost, f.blk = [] → storeWords f.s c ([((f.s.core c).wp + 128, next), ((f.s.core c).wp + 144, f.sp)] ++ f.loc) = .ok s1 →
      f.finish c next cost = .ok (ringAll s1 c f.ring, cost + 2 * f.chg)) ∧
    (frontReady 1 s → f0.rd c (f0.w c 17) 8 = .ok (h, f) → n.toNat < field h 15 0 → f.rd c (f0.w c 17 + 0x18) 8 = .ok (x, f2) →
      f2.rd c (x + 8 * n.toNat) 8 = .ok (v, f3) → ∀ f4, (f3.push v).count c v true = .ok f4 →
      plans (.bcConst n) s f4 (nextBpc (.bcConst n) s) 2) ∧
    (frontReady 1 s → f0.rd c (f0.w c 17) 8 = .ok (h, f) → f.w c 19 = wReg k 19 → o.toNat < field h 31 16 → f.word c (at' o.toNat) = .ok v →
      (f.push v).count c v true = .ok f2 → plans (.bcLoadl o) s f2 (nextBpc (.bcLoadl o) s) 1) ∧
    (frontReady 0 s → f0.rd c (f0.w c 17) 8 = .ok (h, f) → f.w c 19 = wReg k 19 → o.toNat < field h 31 16 → f.pop c = .ok (v, f2) →
      f2.word c (at' o.toNat) = .ok x → f2.count c x false = .ok f3 →
      plans (.bcStorel o) s (f3.setLoc (at' o.toNat) v) (nextBpc (.bcStorel o) s) 1) ∧
    (frontReady 0 s → f0.peek c 0 = .ok v → ({ f0 with sp := add64 f0.sp (-8) } : Fe).count c v false = .ok f →
      plans .bcPop s f (nextBpc .bcPop s) 1) ∧
    (frontReady 1 s → f0.peek c 0 = .ok v → (f0.push v).count c v true = .ok f → plans .bcDup s f (nextBpc .bcDup s) 1) ∧
    (frontReady 0 s → f0.peek c 0 = .ok v → f0.peek c 1 = .ok x →
      plans .bcSwap s { f0 with loc := [(add64 f0.sp (-8), x), (add64 f0.sp (-16), v)] } (nextBpc .bcSwap s) 1) ∧
    (frontReady 0 s → plans (.bcJump n) s f0 n.toNat 1) ∧
    (frontReady 0 s → f0.peek c 0 = .ok v → isRef v = false →
      let popped : Fe := { f0 with sp := add64 f0.sp (-8) }
      ((v = 0 ∨ v = 1 ∨ v = 2) → plans (.bcJumpt n) s popped (nextBpc (.bcJumpt n) s) 1 ∧ plans (.bcJumpf n) s popped n.toNat 1) ∧
      (v ≠ 0 → v ≠ 1 → v ≠ 2 → plans (.bcJumpt n) s popped n.toNat 1 ∧ plans (.bcJumpf n) s popped (nextBpc (.bcJumpf n) s) 1)) ∧
    (frontReady 0 s → f0.peek c 0 = .ok v → isRef v = false → plans .bcAwait s f0 (nextBpc .bcAwait s) 1) ∧
    (lookupHits 0 1 none sl.toNat s xs way j f → f.pop c = .ok (x, f2) → f2.rd c (slotOf x) 8 = .ok (v, f3) →
      ∀ f4 f5, (f3.push v).count c v true = .ok f4 → f4.count c x false = .ok f5 →
      plans (.bcLoadattr n sl) s f5 (nextBpc (.bcLoadattr n sl) s) (hitCost j)) ∧
    (lookupHits 0 1 none sl.toNat s xs way j f → f.pop c = .ok (x, f2) → f2.pop c = .ok (v, f3) →
      ∀ f4 f5 f6, f3.rd c (slotOf x) 8 = .ok (h, f4) → f4.count c h false = .ok f5 → f5.count c x false = .ok f6 →
      plans (.bcStoreattr n sl) s { f6 with blk := f6.blk ++ [(slotOf x, 8, v)] } (nextBpc (.bcStoreattr n sl) s) (hitCost j)) ∧
    (lookupHits 4 1 none sl.toNat s xs way j f → f.pop c = .ok (x, f2) → f2.count c x false = .ok f3 →
      plans (.bcIsinst n sl) s (f3.push (if bitAt way 0 then 4 else 2)) (nextBpc (.bcIsinst n sl) s) (hitCost j)) ∧
    (∀ i opnd kind m callee, (i, opnd, kind, m, callee) ∈
        [(Instr.bcLoadidx sl, 0, 3, 2, none), (.bcStoreidx sl, 0, 3, 2, none), (.bcBinary o sl, o.toNat, 2, 2, none),
          (.bcUnary o sl, o.toNat, 2, 1, none), (.bcCompare o sl, o.toNat, 2, 2, none), (.bcCall o sl, o.toNat, 1, o.toNat, some x),
          (.bcCallmeth o sl, o.toNat, 1, o.toNat + 1, some x)] →
      lookupHits kind m callee sl.toNat s xs way j f → bitAt way 25 = false →
      checkTarget f.s c (4 * field way 24 0) = .ok () → (f.s.core c).wp = k.wp →
      storeWords f.s c (dispatchWords k (nextBpc i s) ((encodeBytecode i).headD 0) opnd sl.toNat (wReg k 16) 8) = .ok s1 →
      exec i s = .next (charged s (atRoutine s1 c (4 * field way 24 0), hitCost j + 6))) ∧
    (∀ r, lookupHits 2 2 none sl.toNat s xs way j f → bitAt way 25 = true →
      fastPath { op := (encodeBytecode (.bcBinary o sl)).headD 0, opnd := o.toNat, slot := sl.toNat, bpc := wReg k 16,
                 next := nextBpc (.bcBinary o sl) s } way xs 2 f c = .ok r →
      exec (.bcBinary o sl) s = .next (charged s r)) ∧
    (∀ t, frontReady 0 s → f0.operands c 2 = .ok xs → f0.rd c (f0.w c 17) 8 = .ok (h, f) →
      let e := (icEntry (f.s.core c) ((f.w c 21 + sl.toNat) % 2048)).1
      (field e 63 32 ≠ field h 63 32 ∨ field e 31 8 ≠ wReg k 16 ∨ field e 7 5 ≠ 2 ∨ field e 4 3 = 0) → (f.s.core c).wp = k.wp →
      let op := (encodeBytecode (.bcBinary o sl)).headD 0
      handlerEntry f.s c op = .ok t → checkTarget f.s c t = .ok () →
      storeWords f.s c (dispatchWords k (nextBpc (.bcBinary o sl) s) op o.toNat sl.toNat (wReg k 16) 1) = .ok s1 →
      exec (.bcBinary o sl) s = .next (charged s (atRoutine s1 c t, 6)))

/-! ### Power and health (25_faults_repairs, 26_power) -/

/-- R448-R451, R453: at a window's end an island's allowance is min(EB, U + STEP·1,024), its debt what D + U exceeds A by, and
its charge 0, SWIN counts a window in which something waited, a requested point comes into force, with the pause that follows it,
and the leave requests are served in arrival order, each whole; the governor moves GOV and the points as R450 gives.
R437-R439, R442-R447: words and entries found in error, residue failures, pairs. That a word is corrected or zeroed, and who counts
it, is R437, R445 and R447; that a packet that still waits at the port of a pair that differs is not sent is R442 and R443; what
ends a pair's coupling is R444. That a masked residue failure counts is the model's choice (log 92). -/
def Obligations.PowerAndHealth : Prop :=
  ∀ (s s1 : State) (i : Island) (n p r : Nat) (d : CoreId) (k q : Core) (a : Acc),
    let e := s.ev
    let c := e.core
    let w := e.w / 8 * 8
    let h := s.health
    let boundary : Island := { i with
      allow := min (min i.budget s.gov * 1024) (i.used + i.step * 1024), debt := i.debt + i.used - i.allow, used := 0
      waited := false, swin := if i.waited then min 0xFFFFFFFF (i.swin + 1) else i.swin
      cur := min (i.changeTo.getD i.cur) i.opt, changing := min (i.changeTo.getD i.cur) i.opt != i.cur, changeTo := none }
    let cost := r * i.lgrant
    let seen (key : Nat × Nat) : Nat := ((h.recur.find? (fun x => x.1 == key)).map (·.2)).getD 0
    let counted (key : Nat × Nat) : Health :=
      { h with ce := min (h.ce + 1) 0xFFFFFFFF, recur := h.recur.filter (fun x => x.1 != key) ++ [(key, seen key + 1)] }
    (e.i = n → n < 16 → s.islands.length = 16 → s.islands[n]? = some i → i.changing = false →
      (i.waits = [] → exec .issueWindow s = .next { s with islands := setAt s.islands n boundary }) ∧
      (i.waits = [(d, r)] → (cost + boundary.debt ≤ boundary.allow ∨ boundary.debt = 0) → exec .issueWindow s = .next
        { s.setCore d { s.core d with lgot := some r } with
          islands := setAt s.islands n { boundary with used := cost, waits := [] } }) ∧
      (i.waits = [(d, r)] → boundary.allow < cost + boundary.debt → boundary.debt ≠ 0 → exec .issueWindow s = .next
        { s with islands := setAt s.islands n { boundary with waited := true } })) ∧
    (e.i = n → n < 16 → s.islands[n]? = some i → i.changing = true → exec .pointChangeEnd s = .next
      { s with islands := setAt s.islands n { i with changing := false } }) ∧
    (e.w = p → p < 2048 →
      n = (if s.plimit < p then max 64 (s.gov - 64) else if p + 60 ≤ s.plimit then min 1024 (s.gov + 32) else s.gov) →
      exec .governorTick s = .next { s with
        pmeas := p, gov := n
        islands := s.islands.map (fun i =>
          if (n = 64 ∧ s.plimit < p) ∧ 0 < i.cur then { i with changeTo := some (i.cur - 1) }
          else if n = 1024 ∧ i.cur < i.opt then { i with changeTo := some (i.cur + 1) } else i) }) ∧
    (∀ found : Health, found = { h with ue := min (h.ue + 1) 0xFFFFFFFF } →
      (h.words.contains (n, p) = false → noteUncorrectable s n p = { s with health := { found with words := h.words ++ [(n, p)] } }) ∧
      (h.words.contains (n, p) = true → noteUncorrectable s n p = retireRow { s with health := found } n)) ∧
    (∀ failed : Health, failed = { h with residue := h.residue.filter (fun x => x.1 != n) ++ [(n, s.cycle)] } →
      ((¬ ∃ t, (n, t) ∈ h.residue ∧ s.cycle < t + 600000000) → noteResidue s n = { s with health := failed }) ∧
      ((∃ t, (n, t) ∈ h.residue ∧ s.cycle < t + 600000000) → noteResidue s n = retireRow { s with health := failed } n)) ∧
    (bitAt h.retired n = false → (retireRow s n).rdy.row = setField s.rdy.row n n 0 ∧
      (retireRow s n).health = { h with retired := h.retired + 2 ^ n, last := s.cycle }) ∧
    (e.i = 0 → e.k = 1 → c.cls = .compute → k = s.core c →
      let key := (rowOf c, faultKey (some c) w)
      let found : State := { s.setCore c { k with eccL := min (k.eccL + 1) 65535 } with health := counted key }
      (k.life ≠ .free → seen key < 2 → exec .scrub s = .next found) ∧
      (k.life ≠ .free → 2 ≤ seen key → exec .scrub s = .next (retireRow found (rowOf c))) ∧
      (k.life = .free → seen key < 2 → exec .scrub s = .next { s with health := counted key })) ∧
    (e.i = 0 → e.k = 1 → c.cls ≠ .compute → k = s.core c → k.life ≠ .free → exec .scrub s = .next
      { s.setCore c { k with eccL := min (k.eccL + 1) 65535 } with health := { h with ce := min (h.ce + 1) 0xFFFFFFFF } }) ∧
    (e.i = 1 → e.k = 0 → exec .scrub s = .next
      { s with health := { h with recur := h.recur.filter (fun x => x.1 != (e.j, w)) } }) ∧
    (e.i = 0 → 2 ≤ e.k → c.cls = .compute → localOwner s c w = none →
      exec .scrub s = .next (noteUncorrectable (s.setCore c { s.core c with ls := memClear (s.core c).ls w (w + 8) })
        (rowOf c) (faultKey (some c) w))) ∧
    (e.i = 1 → 2 ≤ e.k → rowOwner s e.j w = some n → exec .scrub s = .next (noteUncorrectable
      (haltContext s n none { cause := .hwfault, addr := w } (fun g => g.row && (partPlaces s g).contains e.j)) e.j w)) ∧
    (e.k ≠ 0 → e.i = 4 →
      (c.cls = .compute → e.ok = true → exec .scrub s = .next
        (s.setRow (rowOf c) { s.row (rowOf c) with tlb := dropAt (s.row (rowOf c)).tlb e.w })) ∧
      (c.cls ≠ .compute → e.ok = true → exec .scrub s = .next (s.setCore c { s.core c with tlb := dropAt (s.core c).tlb e.w })) ∧
      (e.ok = false → exec .scrub s = .next { s with
        doms := setAt s.doms e.j { nth s.doms e.j {} with l2 := dropAt (nth s.doms e.j {}).l2 e.w } })) ∧
    (e.k ≠ 0 → e.i = 5 → exec .scrub s = .next (s.setCore c { s.core c with ic := aerase e.w (s.core c).ic })) ∧
    (∀ found : State, found = { s with health := { h with ue := min (h.ue + 1) 0xFFFFFFFF } } → e.k ≠ 0 →
      (e.i = 6 → k = s.core c → k.life ≠ .free → exec .scrub s = .next
        (haltContext found k.ctx (some c) { cause := .hwfault, addr := ownWindow c k } (fun _ => false))) ∧
      (∀ x, e.i = 7 → s.hot[e.w]? = some x → exec .scrub s = .next
        (haltContext { found with hot := dropAt s.hot e.w } x.ctx none { cause := .hwfault, addr := x.va } (fun _ => false)))) ∧
    (k = s.core c → k.vpend = true → e.ok = true →
      (e.k ≠ 1 ∨ c.cls ≠ .compute → exec .vectorCompletion s = .next (s.setCore c { k with vpend := false })) ∧
      (e.k = 1 → c.cls = .compute → exec .vectorCompletion s = .next
        (noteResidue (s.setCore c { k with vpend := false }) (rowOf c)))) ∧
    (k = s.core c → k.vpend = true → e.ok = false → c.cls = .compute → exec .vectorCompletion s = .next
      (noteResidue (noteResidue (haltContext s k.ctx (some c) { cause := .hwfault } (fun _ => false)) (rowOf c)) (rowOf c))) ∧
    (k = s.core c → k.pst = .primary →
      (e.i ≠ 1 → k.pairRuns < 3 → s1 = queueRecord s k.ctx (pairRecord s c 0 (pairAddr s e.nats e.w)) → exec .pairLag s = .next
        (closeFiring (stopPackets (s1.setCore c { k with mism := min 255 (k.mism + 1), pairRuns := k.pairRuns + 1 }) c e.nats)
          c .abort)) ∧
      (e.i ≠ 1 → 3 ≤ k.pairRuns → exec .pairLag s = .next
        (haltContext (retireRow s (rowOf c)) k.ctx (some c) { cause := .pair, sub := 3, addr := e.w } (sagInCore s c))) ∧
      (e.i = 1 → exec .pairLag s = .next
        (haltContext s k.ctx (some c) { cause := .pair, sub := 1, addr := e.w } (sagInCore s c)))) ∧
    (pairAddr s [] p = p ∧ stopPackets s c [] = s) ∧
    (s.fab[n]? = some a → a.src = c → a.atPort = true → pairAddr s [2 * n] p = a.va ∧
      stopPackets s c [2 * n] = State.setCore { s with fab := dropAt s.fab n } c ((s.core c).settled a)) ∧
    (k = s.core c → d = coreAt (rowOf c) k.partner → q = s.core d → pid d ≠ pid c → k.pairReq = 3 → k.run = .idle → k.life = .active →
      (k.pst ≠ .coupling → partnerIdle s d = true → q.lkey = k.lkey → exec .couplingCopy s = .next
        ((s.setCore c { k with pst := .coupling, sleeping := true }).setCore d { q with pst := .coupling, sleeping := true })) ∧
      (k.pst = .coupling → k.preReq = none → q.preReq = none → exec .couplingCopy s = .next ((s.setCore d { q with
          ls := k.ls, sh := k.sh, tiles := k.tiles, chans := k.chans, hdrs := k.hdrs, ttb := k.ttb, att := k.att, wp := k.wp
          flags := k.flags, mask := k.mask, gbarc := k.gbarc, kgc := k.kgc, midc := k.midc, jobc := k.jobc, acc := []
          pst := .checker, partner := placeOf c, sleeping := false, mism := 0, life := .active }).setCore c
        { k with pst := .primary, pairReq := 0, sleeping := false, mism := 0, pairRuns := 0 }))) ∧
    (k = s.core c → d = coreAt (rowOf c) k.partner → q = s.core d → k.pairReq = 3 → k.pst ≠ .coupling →
      ((q.pst ≠ .checker ∨ q.lkey ≠ k.lkey) → exec .couplingAbandon s = .next (s.setCore c { k with pairReq := 4 })) ∧
      (q.pst = .checker → q.lkey = k.lkey → exec .couplingAbandon s = .next
        ((uncouple s c).setCore c { (uncouple s c).core c with pairReq := 4 })))

/-! ### Bring-up, attestation, the host port (27_bringup, 28_interfaces) -/

/-- R455-R459, R461-R463, R467: a power-up keeps flash, the host's memory and the expanders, and resets the rest; a record that
fails a check stops it with ERROR 0x02 and only the host port ready, and a good one leaves STAGE at 3 with the record in force. FWGO
verifies and measures the staged image; each passed self-test sets its bit, where the record does not hold the function out. At most
four attestation requests wait; each is served whole. -/
def Obligations.BringUp : Prop :=
  ∀ (s s1 s2 : State) (r m addr : Nat) (bs : List Byte) (q : List (Nat × Nat)),
    let e := s.ev
    let f := s.sec.flash
    let dark : State := { State.reset with
      agenda := s.agenda, cur := s.cur, ev := s.ev, stall := s.stall, fresh := s.fresh, nextUid := s.nextUid, host := s.host
      hport := { expCaps := s.hport.expCaps }, sec := { flash := f, nonce := s.sec.nonce + 1 } }
    let helper := memBytes f (memRead f 0x170 4) 512
    let signed := Config.rootVerify (memBytes f 0 0x180) (memBytes f 0x180 132) = true
    let good := memRead f 0 4 = 0x5A96C0F1 ∧ recordClean f = true ∧ signed
    let stop (s : State) (stage err : Nat) : State := { s with rdy := { s.rdy with stage := stage, error := err, host := true } }
    let waiting := s.rdy.stage = 3 ∧ s.rdy.error = 0 ∧ bitAt (memRead f 0x18 8) 0 = false ∧ s.hport.fwgo = false
    let going : State := { s with hport := { s.hport with fwgo := true } }
    let img := memBytes s.hport.bar2 0 s.hport.fwlen
    let body := img.take (img.length - 132)
    let verified := 196 ≤ img.length ∧ Config.rootVerify body (img.drop (img.length - 132)) = true
    let sha (l : List Byte) : List Byte := (Config.sha512 l).toList
    let mr0 := sha (List.replicate 64 0 ++ sha body)
    let tested := 4 ≤ s.rdy.stage ∧ s.rdy.error = 0 ∧ e.ok = true
    let rd := s.rdy
    let set' (x : Nat) : Nat := natOr x (2 ^ e.j)
    let word (i : Nat) : Nat := ofBytes ((bs.drop (8 * i)).take 8)
    let val := (bs.drop 8).take 64
    (¬ good → exec .powerUp s = .next (stop dark 2 2)) ∧
    (good → Config.pufOk helper = false → exec .powerUp s = .next (stop dark 1 1)) ∧
    (good → Config.pufOk helper = true → memRead f 8 8 ≠ (Config.pufSerial helper).toNat →
      exec .powerUp s = .next (stop dark 2 2)) ∧
    (good → Config.pufOk helper = true → memRead f 8 8 = (Config.pufSerial helper).toNat → bitAt (memRead f 0x18 8) 0 = false →
      exec .powerUp s = .next { dark with
        sec := { dark.sec with
          retire := natOr (memRead f 0x20 256) (cutRows (recordHops f)), nearDis := memRead f 0x120 4, farDis := memRead f 0x124 1
          linkDis := memRead f 0x126 2, hops := recordHops f }
        rdy := { dark.rdy with stage := 3 } }) ∧
    (waiting →
      ((s.hport.fwlen = 0 ∨ ¬ verified) → exec .fwgo s = .next (stop going 3 3)) ∧
      (s.hport.fwlen ≠ 0 → verified → ofBytes (img.take 4) < memRead f 0x10 4 → exec .fwgo s = .next (stop going 3 4)) ∧
      (s.hport.fwlen ≠ 0 → verified → memRead f 0x10 4 ≤ ofBytes (img.take 4) → exec .fwgo s = .next { going with
        sec := { s.sec with mr0 := mr0, mr1 := sha (mr0 ++ sha (memBytes f 0 0x204)), fwver := ofBytes (img.take 4) }
        rdy := { s.rdy with stage := 4 } })) ∧
    (tested →
      (e.i = 12 → exec .selfTestDone s = .next { s with rdy := { rd with stage := 5 } }) ∧
      (e.i = 0 → e.j < 2048 → ((bitAt s.sec.retire e.j || bitAt s.health.retired e.j) = false →
          exec .selfTestDone s = .next { s with
            rdy := { rd with row := set' rd.row }, freed := s.freed ++ (rowCores e.j).map (fun c => (c, s.cycle)) }) ∧
        ((bitAt s.sec.retire e.j || bitAt s.health.retired e.j) = true → exec .selfTestDone s = .next s)) ∧
      (e.i = 1 → e.j < 16 → exec .selfTestDone s = .next { s with rdy := { rd with isl := set' rd.isl } }) ∧
      (e.i = 2 → e.j < 32 → bitAt s.sec.nearDis e.j = false →
        exec .selfTestDone s = .next { s with rdy := { rd with near := set' rd.near } }) ∧
      (e.i = 3 → e.j < 8 → bitAt s.sec.farDis e.j = false →
        exec .selfTestDone s = .next { s with rdy := { rd with far := set' rd.far } }) ∧
      (e.i = 4 → e.j < 2 → s.hport.expCaps = [4, 0, 2, 0] → exec .selfTestDone s = .next { s with
        rdy := { rd with cxl := set' rd.cxl }, hport := { s.hport with cxlcap := 6, xpres := 5 } }) ∧
      (e.i = 5 → exec .selfTestDone s = .next { s with rdy := { rd with host := true } }) ∧
      (e.i = 6 → e.j < 16 → (bitAt s.sec.linkDis e.j || (nth s.links e.j {}).down) = false → exec .selfTestDone s = .next { s with
        rdy := { rd with link := set' rd.link }, links := setAt s.links e.j { nth s.links e.j {} with up := true } }) ∧
      (e.i = 7 → e.j < 64 → exec .selfTestDone s = .next { s with rdy := { rd with ccore := set' rd.ccore } }) ∧
      (e.i = 8 → e.j < 64 → exec .selfTestDone s = .next { s with rdy := { rd with gcore := set' rd.gcore } }) ∧
      (e.i = 9 → e.j < 4 → exec .selfTestDone s = .next { s with rdy := { rd with deckle := set' rd.deckle } }) ∧
      (e.i = 10 → e.j < 6 → exec .selfTestDone s = .next { s with rdy := { rd with svc := set' rd.svc } }) ∧
      (e.i = 11 → e.j < 5 → exec .selfTestDone s = .next { s with rdy := { rd with dom := set' rd.dom } })) ∧
    (actRight s e.i 6 true = true →
      (s.sec.queue.length < 4 →
        exec .attestRequest s = .next { s with sec := { s.sec with queue := s.sec.queue ++ [(e.i, e.w)] } }) ∧
      (4 ≤ s.sec.queue.length → svcWord s e.i (e.w + 80) 8 = some m → writeMailboxBy sysPutBlock s e.i m (2 ^ 62 + 3) = some s1 →
        exec .attestRequest s = .next s1)) ∧
    (s.sec.queue = (r, addr) :: q → svcRead { s with sec := { s.sec with queue := q } } r addr 128 = some bs →
      (word 0 = 1 → writeMailbox { s with sec := { s.sec with queue := q, mr2 := sha (s.sec.mr2 ++ val) } } r (word 10) (2 ^ 63) = some s1 →
        exec .attestServe s = .next s1) ∧
      (word 0 = 0 → svcWrite { s with sec := { s.sec with queue := q } } r (word 9)
          (reportBytes { s with sec := { s.sec with queue := q } } val) = some s1 →
        writeMailbox s1 r (word 10) (2 ^ 63) = some s2 → exec .attestServe s = .next s2))

/-- R6, R447, R449, R464-R466: a read of a notice takes the oldest, a read of CE, UE or SWIN clears it; a written register takes
the value that its field can hold, and a read-only one ignores the write; vectors 1 to 31 reach the host; BAR2 takes bytes in stage 3
before FWGO alone. -/
def Obligations.HostAndRegisters : Prop :=
  ∀ (s : State) (n : Nat) (i : Island) (bs : List Byte),
    let e := s.ev
    let h := s.health
    let owner := actRight s e.i 6 false = true
    let writes (r : Nat) : Prop := sysRegion e.j = some r ∧ e.j % 8 = 0 ∧ actRight s e.i r true = true ∧
      ownerOk s e.i e.j true = true ∧ e.w < 2 ^ 64
    (actRight s e.i 4 true = true →
      (1 ≤ e.w → e.w ≤ 31 → exec .msiVectorStore s = .next { s with hport := { s.hport with msi := s.hport.msi ++ [e.w] } }) ∧
      ((e.w = 0 ∨ 32 ≤ e.w) → exec .msiVectorStore s = .next s)) ∧
    exec .hostSnoop s = .next s ∧
    (owner → s.hport.notices = [] → exec .noticeRead s = .next { s with hostRead := 0 }) ∧
    (owner → ∀ kind data rest, s.hport.notices = (kind, data) :: rest → exec .noticeRead s = .next { s with
      hostRead := 2 ^ 63 + kind * 2 ^ 48 + data, hport := { s.hport with notices := rest } }) ∧
    (owner → exec .healthCountRead s = .next { s with hostRead := h.ue + h.ce * 2 ^ 32, health := { h with ce := 0, ue := 0 } }) ∧
    (owner → e.j < 16 → s.islands[e.j]? = some i → exec .swinRead s = .next { s with
      hostRead := i.swin, islands := setAt s.islands e.j { i with swin := 0 } }) ∧
    (∀ r, writes r →
      (e.j = 0xAB00000 → exec .registerWrite s = .next { s with plimit := min (field e.w 10 0) 1800 }) ∧
      (n < 16 → e.j = 0xAB00100 + 0x20 * n → s.islands[n]? = some i → exec .registerWrite s = .next { s with
        islands := setAt s.islands n { i with
          opt := field e.w 2 0, budget := min (field e.w 18 8) 1024, step := max 1 (min (field e.w 42 32) 1024)
          lgrant := max 1 (field e.w 59 48), changeTo := if field e.w 2 0 < i.cur then some (field e.w 2 0) else i.changeTo } }) ∧
      (0xA000000 ≤ e.j → e.j < 0xA800000 →
        exec .registerWrite s = .next { s with mbx := memWrite s.mbx (e.j - 0xA000000) 8 e.w }) ∧
      (0xAC00000 ≤ e.j → e.j < 0xAD00000 → exec .registerWrite s = .next s)) ∧
    (e.i = 2 → e.bytes = bs → bs ≠ [] → e.j + bs.length ≤ 2 ^ 24 →
      (s.rdy.stage = 3 → s.hport.fwgo = false →
        exec .hostBarWrite s = .next { s with hport := { s.hport with bar2 := memPut s.hport.bar2 e.j bs } }) ∧
      ((s.rdy.stage ≠ 3 ∨ s.hport.fwgo = true) → exec .hostBarWrite s = .next s)) ∧
    (e.i = 0 → e.bytes = toBytes 8 n → n < 2 ^ 64 → e.j % 8 = 0 → 0xA000000 ≤ e.j → e.j < 0xA800000 →
      exec .hostBarWrite s = .next { s with mbx := memWrite s.mbx (e.j - 0xA000000) 8 n })

/-! ### Tile and job instructions that complete (09_tiles_copies) -/

/-- Table 9-1, R206, R220, R225-R227: each of `tdef`, `tarm`, `twait`, `ttest`, `tdrain`, `jwait` and `jpoll` completes: a
definition of 1 to 64 chunks in the core's store, where no job and no kiln operation uses the tile; an arming with a mask of the
tile's chunks, under the same condition; a wait whose chunks have arrived; a test of a defined tile without an error; a drain
of one that nothing uses; a wait for a complete job; a poll of one that is complete or pending. -/
def Obligations.TileAndJobCompletion : Prop :=
  ∀ (t : Fin 16) (d a : Spec) (s : State) (v : Nat) (k k2 : Core),
    let c := s.cur
    let e := nth k.tiles t.val {}
    let unused : Prop := k.kheld.contains t.val = false ∧ tileBusy (s.setCore c k) c t.val = false
    let usable : Prop := e.nch ≠ 0 ∧ e.err = false
    let setTile (e : Tile) : State := s.setCore c { k with tiles := setAt k.tiles t.val e }
    (readsA (.tdef t a) 1 s a v k → v % 512 = 0 → v < 2 ^ 39 → field v 31 17 = 0 → 1 ≤ field v 38 32 → field v 38 32 ≤ 64 →
      field v 16 0 + 512 * field v 38 32 ≤ topOf c.cls → unused → e.st ≠ .draining →
      exec (.tdef t a) s = .next (setTile { base := field v 16 0, nch := field v 38 32 })) ∧
    (readsA (.tarm t a) 1 s a v k → usable → v < 2 ^ e.nch → unused →
      exec (.tarm t a) s = .next (setTile { e with st := if v = 0 then .empty else .filling, exp := v, arr := 0 })) ∧
    (readsA (.twait t a) 1 s a v k → usable → v < 2 ^ e.nch → natAnd (if v = 0 then e.exp else v) e.arr = (if v = 0 then e.exp else v) →
      exec (.twait t a) s = .next (s.setCore c k)) ∧
    (ready (.ttest d t) s → k = issued (.ttest d t) 1 s → takesWord k d → usable → writeDst k .z64 d e.arr = .ok k2 →
      exec (.ttest d t) s = .next (s.setCore c k2)) ∧
    (ready (.tdrain t) s → k = issued (.tdrain t) 1 s → k.drainp = none → t.val < k.tiles.length → usable → unused →
      exec (.tdrain t) s = .next (setTile { e with st := .empty, exp := 0, arr := 0 })) ∧
    (readsA (.jwait a) 1 s a v k → v < 2 ^ 16 → jobStatus k v = .complete → exec (.jwait a) s = .next (s.setCore c k)) ∧
    (readsA (.jpoll d a) 1 s a v k → takesWord k d → v < 2 ^ 16 →
      (jobStatus k v = .complete → writeDst k .z64 d 1 = .ok k2 → exec (.jpoll d a) s = .next (s.setCore c k2)) ∧
      (jobStatus k v = .pending → writeDst k .z64 d 0 = .ok k2 → exec (.jpoll d a) s = .next (s.setCore c k2)))
end

