-- ==== Sys2Proof/Laws/Memory.lean ====
section
/-!
SUPPORT. Laws of byte memory: every operation keeps the canonical form, a read after a write gives what was written, and
a write leaves every other address alone. Little-endian values survive the bytes.
-/
namespace Sys2Proof.Machine

/-! ### The canonical form -/

theorem memFrom_cons {lo k : Nat} {v : Byte} {m : Mem} :
    memFrom lo ((k, v) :: m) = true ↔ (lo ≤ k ∧ v ≠ 0#8) ∧ memFrom (k + 1) m = true := by
  simp only [memFrom, Bool.and_eq_true, decide_eq_true_eq]; rfl

theorem memFrom_mono {lo lo' : Nat} (h : lo' ≤ lo) : ∀ {m : Mem}, memFrom lo m = true → memFrom lo' m = true
  | [], _ => rfl
  | (k, v) :: m, hm => by
    rw [memFrom_cons] at hm ⊢
    exact ⟨⟨Nat.le_trans h hm.1.1, hm.1.2⟩, hm.2⟩

theorem memFrom_memSet {a : Nat} {b : Byte} : ∀ {m : Mem} {lo : Nat}, lo ≤ a → memFrom lo m = true →
    memFrom lo (memSet m a b) = true
  | [], lo, h, _ => by
    by_cases hb : b = 0#8 <;> simp [memSet, hb, memFrom, h]
  | (k, v) :: m, lo, h, hm => by
    rw [memFrom_cons] at hm
    by_cases h1 : a < k
    · by_cases hb : b = 0#8
      · simp [memSet, h1, hb, memFrom_cons, hm]
      · simp [memSet, h1, hb, memFrom_cons, hm, h]
        all_goals omega
    · by_cases h2 : a = k
      · subst h2
        by_cases hb : b = 0#8
        · simpa [memSet, hb] using memFrom_mono (by omega) hm.2
        · simp [memSet, hb, memFrom_cons, h, hm.2]
      · have h3 : k + 1 ≤ a := by omega
        simp [memSet, h1, h2, memFrom_cons, hm.1, memFrom_memSet h3 hm.2]

theorem memSet_wf (m : Mem) (a : Nat) (b : Byte) (h : Memory.wf m = true) : Memory.wf (memSet m a b) = true :=
  memFrom_memSet (Nat.zero_le a) h

theorem memPut_wf (bs : List Byte) : ∀ (m : Mem) (a : Nat), Memory.wf m = true → Memory.wf (memPut m a bs) = true := by
  induction bs with
  | nil => intro m a h; exact h
  | cons b bs ih => intro m a h; exact ih _ _ (memSet_wf _ _ _ h)

theorem memWrite_wf (m : Mem) (a n v : Nat) (h : Memory.wf m = true) : Memory.wf (memWrite m a n v) = true :=
  memPut_wf _ _ _ h

theorem memFrom_filter (p : Host.Cell → Bool) : ∀ {m : Mem} {lo : Nat}, memFrom lo m = true →
    memFrom lo (m.filter p) = true
  | [], _, _ => rfl
  | (k, v) :: m, lo, hm => by
    rw [memFrom_cons] at hm
    have ih := memFrom_filter p hm.2
    by_cases hp : p (k, v) = true
    · simp [List.filter, hp, memFrom_cons, hm.1, ih]
    · simp [List.filter, hp, memFrom_mono (by omega : lo ≤ k + 1) ih]

theorem memSlice_wf (m : Mem) (lo hi : Nat) (h : Memory.wf m = true) : Memory.wf (memSlice m lo hi) = true :=
  memFrom_filter _ h

theorem memClear_wf (m : Mem) (lo hi : Nat) (h : Memory.wf m = true) : Memory.wf (memClear m lo hi) = true :=
  memFrom_filter _ h

theorem memFrom_shiftUp (off : Nat) : ∀ {m : Mem} {lo : Nat}, memFrom lo m = true →
    memFrom (lo + off) (memShiftUp m off) = true
  | [], _, _ => rfl
  | (k, v) :: m, lo, hm => by
    rw [memFrom_cons] at hm
    have ih : memFrom (k + off + 1) (memShiftUp m off) = true := by
      have := memFrom_shiftUp off hm.2
      rwa [Nat.add_right_comm] at this
    exact memFrom_cons.2 ⟨⟨by omega, hm.1.2⟩, ih⟩

theorem memShiftUp_wf (m : Mem) (off : Nat) (h : Memory.wf m = true) : Memory.wf (memShiftUp m off) = true :=
  memFrom_mono (Nat.zero_le _) (memFrom_shiftUp off h)

theorem memFrom_shiftDown (off : Nat) : ∀ {m : Mem} {lo : Nat}, memFrom lo m = true →
    memFrom (lo - off) (memShiftDown m off) = true
  | [], _, _ => rfl
  | (k, v) :: m, lo, hm => by
    rw [memFrom_cons] at hm
    have ih := memFrom_shiftDown off hm.2
    by_cases hk : off ≤ k
    · have h1 : k + 1 - off = k - off + 1 := by omega
      rw [h1] at ih
      simp only [memShiftDown] at ih ⊢
      simp only [List.filter, hk, decide_true, List.map_cons]
      exact memFrom_cons.2 ⟨⟨by omega, hm.1.2⟩, ih⟩
    · simp only [memShiftDown] at ih ⊢
      simp only [List.filter, hk, decide_false]
      exact memFrom_mono (by omega) ih

theorem memShiftDown_wf (m : Mem) (off : Nat) (h : Memory.wf m = true) : Memory.wf (memShiftDown m off) = true := by
  have := memFrom_shiftDown off h
  simpa [Memory.wf] using this

theorem memMerge_wf (l m : Mem) (h : Memory.wf m = true) : Memory.wf (memMerge l m) = true := by
  induction l with
  | nil => exact h
  | cons c l ih => exact memSet_wf _ _ _ ih

theorem memCopy_wf (m : Mem) (dst : Nat) (src : Mem) (i n : Nat) (h : Memory.wf m = true) :
    Memory.wf (memCopy m dst src i n) = true :=
  memMerge_wf _ _ (memClear_wf _ _ _ h)

/-! ### Reads after writes -/

theorem memGet_below : ∀ {m : Mem} {lo a : Nat}, memFrom lo m = true → a < lo → memGet m a = 0
  | [], _, _, _, _ => rfl
  | (k, v) :: m, lo, a, hm, h => by
    rw [memFrom_cons] at hm
    have h1 : ¬ k = a := by omega
    have h2 : a < k := by omega
    simp [memGet, h1, h2]

theorem memGet_memSet_from {a c : Nat} {b : Byte} : ∀ {m : Mem} {lo : Nat}, memFrom lo m = true →
    memGet (memSet m a b) c = if c = a then b else memGet m c
  | [], _, _ => by
    by_cases hb : b = 0#8
    · simp [memSet, hb, memGet]
    · by_cases hc : c = a
      · simp [memSet, hb, memGet, hc]
      · by_cases h : c < a <;> simp [memSet, hb, memGet, hc, Ne.symm hc, h]
  | (k, v) :: m, lo, hm => by
    rw [memFrom_cons] at hm
    have below := fun (x : Nat) (h : x < k + 1) => memGet_below hm.2 h
    by_cases h1 : a < k
    · by_cases hb : b = 0#8
      · by_cases hc : c = a
        · subst hc; simp [memSet, h1, hb, memGet, Nat.ne_of_gt h1]
        · simp [memSet, h1, hb, hc]
      · by_cases hc : c = a
        · simp [memSet, h1, hb, memGet, hc]
        · by_cases hk : k = c
          · subst hk; simp [memSet, h1, hb, memGet, hc, Ne.symm hc, Nat.lt_asymm h1]
          · by_cases hlt : c < a
            · simp [memSet, h1, hb, memGet, hc, Ne.symm hc, hlt, hk, Nat.lt_trans hlt h1]
            · simp [memSet, h1, hb, memGet, hc, Ne.symm hc, hlt]
    · by_cases h2 : a = k
      · subst h2
        by_cases hb : b = 0#8
        · by_cases hc : c = a
          · subst hc; simp [memSet, hb, below c (by omega)]
          · by_cases hlt : c < a
            · simp [memSet, hb, memGet, hc, Ne.symm hc, hlt, below c (by omega)]
            · simp [memSet, hb, memGet, hc, Ne.symm hc, hlt]
        · by_cases hc : c = a
          · simp [memSet, hb, memGet, hc]
          · simp [memSet, hb, memGet, hc, Ne.symm hc]
      · have ih := memGet_memSet_from (a := a) (c := c) (b := b) hm.2
        by_cases hk : k = c
        · subst hk; simp [memSet, h1, h2, memGet, Ne.symm h2]
        · by_cases hlt : c < k
          · have : ¬ c = a := by omega
            simp [memSet, h1, h2, memGet, hk, hlt, this]
          · simp [memSet, h1, h2, memGet, hk, hlt, ih]

theorem memGet_memSet (m : Mem) (a c : Nat) (b : Byte) (h : Memory.wf m = true) :
    memGet (memSet m a b) c = if c = a then b else memGet m c := memGet_memSet_from h

theorem memGet_memPut_out (bs : List Byte) : ∀ (m : Mem) (a c : Nat), Memory.wf m = true →
    (c < a ∨ a + bs.length ≤ c) → memGet (memPut m a bs) c = memGet m c := by
  induction bs with
  | nil => intros; rfl
  | cons b bs ih =>
    intro m a c h hc
    simp only [List.length_cons] at hc
    rw [memPut, ih _ _ _ (memSet_wf _ _ _ h) (by omega), memGet_memSet _ _ _ _ h, if_neg (by omega)]

theorem memGet_memPut_in (bs : List Byte) : ∀ (m : Mem) (a i : Nat), Memory.wf m = true → (h : i < bs.length) →
    memGet (memPut m a bs) (a + i) = bs[i] := by
  induction bs with
  | nil => intro m a i _ h; simp at h
  | cons b bs ih =>
    intro m a i h hi
    cases i with
    | zero =>
      rw [memPut, memGet_memPut_out _ _ _ _ (memSet_wf _ _ _ h) (by omega), memGet_memSet _ _ _ _ h]
      simp
    | succ j =>
      have := ih (memSet m a b) (a + 1) j (memSet_wf _ _ _ h) (by simpa using hi)
      rw [memPut, show a + (j + 1) = a + 1 + j by omega, this]
      rfl

theorem memBytes_length (m : Mem) (a n : Nat) : (memBytes m a n).length = n := by
  induction n generalizing a with
  | zero => rfl
  | succ n ih => simp [memBytes, ih]

theorem memBytes_getElem (m : Mem) (n : Nat) : ∀ (a i : Nat) (h : i < (memBytes m a n).length),
    (memBytes m a n)[i] = memGet m (a + i) := by
  induction n with
  | zero => intro a i h; simp [memBytes] at h
  | succ n ih =>
    intro a i h
    cases i with
    | zero => rfl
    | succ j => simp only [memBytes, List.getElem_cons_succ]; rw [ih]; congr 1; omega

/-- A read of the bytes just written gives them back. -/
theorem memBytes_memPut (m : Mem) (a : Nat) (bs : List Byte) (h : Memory.wf m = true) :
    memBytes (memPut m a bs) a bs.length = bs := by
  apply List.ext_getElem (memBytes_length _ _ _)
  intro i h1 h2
  rw [memBytes_getElem, memGet_memPut_in _ _ _ _ h h2]

/-- A read of bytes that a write does not meet is as before. -/
theorem memBytes_memPut_out (m : Mem) (a : Nat) (bs : List Byte) (c n : Nat) (h : Memory.wf m = true)
    (hc : c + n ≤ a ∨ a + bs.length ≤ c) : memBytes (memPut m a bs) c n = memBytes m c n := by
  apply List.ext_getElem (by simp [memBytes_length])
  intro i h1 h2
  rw [memBytes_length] at h1
  rw [memBytes_getElem, memBytes_getElem, memGet_memPut_out _ _ _ _ h (by omega)]

/-! ### Little-endian values -/

theorem toBytes_length (n v : Nat) : (toBytes n v).length = n := by
  induction n generalizing v with
  | zero => rfl
  | succ n ih => simp [toBytes, ih]

theorem ofBytes_toBytes (n : Nat) : ∀ v : Nat, ofBytes (toBytes n v) = v % 2 ^ (8 * n) := by
  induction n with
  | zero => intro v; simp [toBytes, ofBytes, Nat.mod_one]
  | succ n ih =>
    intro v
    have h : 2 ^ (8 * (n + 1)) = 256 * 2 ^ (8 * n) := by rw [Nat.mul_succ, Nat.pow_add]; omega
    simp only [toBytes, ofBytes, ih, BitVec.toNat_ofNat]
    rw [h, Nat.mod_mul]

/-- A value written and read back at its width is the value modulo that width. -/
theorem memRead_memWrite (m : Mem) (a n v : Nat) (h : Memory.wf m = true) :
    memRead (memWrite m a n v) a n = v % 2 ^ (8 * n) := by
  have := memBytes_memPut m a (toBytes n v) h
  rw [toBytes_length] at this
  rw [memRead, memWrite, this, ofBytes_toBytes]

theorem memRead_memWrite_out (m : Mem) (a n v c k : Nat) (h : Memory.wf m = true) (hc : c + k ≤ a ∨ a + n ≤ c) :
    memRead (memWrite m a n v) c k = memRead m c k := by
  rw [memRead, memWrite, memBytes_memPut_out _ _ _ _ _ h (by rwa [toBytes_length]), memRead]

end Sys2Proof.Machine
end

