-- ==== Sys2Proof/Laws/State.lean ====
section
/-!
SUPPORT. Laws of the state's updates: one lemma for each field and update, and reads after writes of cores, rows and
translation domains.
-/
namespace Sys2Proof.Machine

/-! ### Association lists -/

@[simp] theorem alookup_ainsert {α : Type} (k : Nat) (v : α) (l : List (Nat × α)) : alookup k (ainsert k v l) = some v := by
  induction l with
  | nil => simp [ainsert, alookup]
  | cons e l ih =>
    obtain ⟨j, u⟩ := e
    by_cases h1 : k < j
    · simp [ainsert, h1, alookup]
    · by_cases h2 : k = j
      · simp [ainsert, h2, alookup]
      · simp [ainsert, h1, h2, alookup, Ne.symm h2, ih]

theorem alookup_ainsert_ne {α : Type} {k k' : Nat} (v : α) (l : List (Nat × α)) (h : k' ≠ k) :
    alookup k' (ainsert k v l) = alookup k' l := by
  induction l with
  | nil => simp [ainsert, alookup, Ne.symm h]
  | cons e l ih =>
    obtain ⟨j, u⟩ := e
    by_cases h1 : k < j
    · simp [ainsert, h1, alookup, Ne.symm h]
    · by_cases h2 : k = j
      · subst h2; simp [ainsert, alookup, Ne.symm h]
      · simp [ainsert, h1, h2, alookup, ih]

/-- Inserting twice under one key keeps the last. -/
theorem ainsert_ainsert {α : Type} (k : Nat) (v w : α) (l : List (Nat × α)) :
    ainsert k w (ainsert k v l) = ainsert k w l := by
  induction l with
  | nil => simp [ainsert]
  | cons e l ih =>
    obtain ⟨j, u⟩ := e
    by_cases h1 : k < j
    · simp [ainsert, h1]
    · by_cases h2 : k = j
      · simp [ainsert, h2]
      · simp [ainsert, h1, h2, ih]

/-! ### Cores and rows -/

@[simp] theorem core_setCore (s : State) (c : CoreId) (k : Core) : (s.setCore c k).core c = k := by
  simp [State.setCore, State.core]

theorem core_setCore_ne (s : State) {c c' : CoreId} (k : Core) (h : pid c' ≠ pid c) :
    (s.setCore c k).core c' = s.core c' := by
  simp [State.setCore, State.core, alookup_ainsert_ne _ _ h]

@[simp] theorem setCore_setCore (s : State) (c : CoreId) (k k' : Core) :
    (s.setCore c k).setCore c k' = s.setCore c k' := by
  simp [State.setCore, ainsert_ainsert]

@[simp] theorem row_setRow (s : State) (r : Nat) (k : Row) : (s.setRow r k).row r = k := by
  simp [State.setRow, State.row]

theorem row_setRow_ne (s : State) {r r' : Nat} (k : Row) (h : r' ≠ r) : (s.setRow r k).row r' = s.row r' := by
  simp [State.setRow, State.row, alookup_ainsert_ne _ _ h]

@[simp] theorem core_setRow (s : State) (r : Nat) (k : Row) (c : CoreId) : (s.setRow r k).core c = s.core c := rfl
@[simp] theorem row_setCore (s : State) (c : CoreId) (k : Core) (r : Nat) : (s.setCore c k).row r = s.row r := rfl
@[simp] theorem tier_setCore (s : State) (c : CoreId) (k : Core) (t : Nat) : (s.setCore c k).tier t = s.tier t := rfl
@[simp] theorem tier_setRow (s : State) (r : Nat) (k : Row) (t : Nat) : (s.setRow r k).tier t = s.tier t := rfl
@[simp] theorem core_setDom (s : State) (d : Nat) (x : Domain) (c : CoreId) : (s.setDom d x).core c = s.core c := rfl
@[simp] theorem row_setDom (s : State) (d : Nat) (x : Domain) (r : Nat) : (s.setDom d x).row r = s.row r := rfl
@[simp] theorem tier_setDom (s : State) (d : Nat) (x : Domain) (t : Nat) : (s.setDom d x).tier t = s.tier t := rfl

theorem modCore_eq (s : State) (c : CoreId) (f : Core → Core) : s.modCore c f = s.setCore c (f (s.core c)) := rfl
theorem modRow_eq (s : State) (r : Nat) (f : Row → Row) : s.modRow r f = s.setRow r (f (s.row r)) := rfl

/-- Keys name cores: they tell apart the cores of the three classes (R10). -/
theorem ofPid_pid (c : CoreId) (h : c.idx < (match c.cls with | .compute => 16384 | _ => 64)) : ofPid (pid c) = c := by
  obtain ⟨cls, idx⟩ := c
  cases cls
  · simp only at h; simp [pid, ofPid, h]
  · simp only at h
    have h1 : ¬ (16384 + idx < 16384) := by omega
    have h2 : 16384 + idx < 16448 := by omega
    simp [pid, ofPid, h1, h2]
  · simp only at h
    have h1 : ¬ (16448 + idx < 16384) := by omega
    have h2 : ¬ (16448 + idx < 16448) := by omega
    simp [pid, ofPid, h1, h2]

/-! ### One lemma for each field and update -/

@[simp] theorem setCore_agenda (s : State) (c : CoreId) (k : Core) : (s.setCore c k).agenda = s.agenda := rfl
@[simp] theorem setCore_cur (s : State) (c : CoreId) (k : Core) : (s.setCore c k).cur = s.cur := rfl
@[simp] theorem setCore_ev (s : State) (c : CoreId) (k : Core) : (s.setCore c k).ev = s.ev := rfl
@[simp] theorem setCore_stall (s : State) (c : CoreId) (k : Core) : (s.setCore c k).stall = s.stall := rfl
@[simp] theorem setCore_fresh (s : State) (c : CoreId) (k : Core) : (s.setCore c k).fresh = s.fresh := rfl
@[simp] theorem setCore_nextUid (s : State) (c : CoreId) (k : Core) : (s.setCore c k).nextUid = s.nextUid := rfl
@[simp] theorem setCore_cycle (s : State) (c : CoreId) (k : Core) : (s.setCore c k).cycle = s.cycle := rfl
@[simp] theorem setCore_rows (s : State) (c : CoreId) (k : Core) : (s.setCore c k).rows = s.rows := rfl
@[simp] theorem setCore_near (s : State) (c : CoreId) (k : Core) : (s.setCore c k).near = s.near := rfl
@[simp] theorem setCore_far (s : State) (c : CoreId) (k : Core) : (s.setCore c k).far = s.far := rfl
@[simp] theorem setCore_cxl (s : State) (c : CoreId) (k : Core) : (s.setCore c k).cxl = s.cxl := rfl
@[simp] theorem setCore_host (s : State) (c : CoreId) (k : Core) : (s.setCore c k).host = s.host := rfl
@[simp] theorem setCore_net (s : State) (c : CoreId) (k : Core) : (s.setCore c k).net = s.net := rfl
@[simp] theorem setCore_fab (s : State) (c : CoreId) (k : Core) : (s.setCore c k).fab = s.fab := rfl
@[simp] theorem setCore_jobs (s : State) (c : CoreId) (k : Core) : (s.setCore c k).jobs = s.jobs := rfl
@[simp] theorem setCore_beats (s : State) (c : CoreId) (k : Core) : (s.setCore c k).beats = s.beats := rfl
@[simp] theorem setCore_doms (s : State) (c : CoreId) (k : Core) : (s.setCore c k).doms = s.doms := rfl
@[simp] theorem setCore_ctxs (s : State) (c : CoreId) (k : Core) : (s.setCore c k).ctxs = s.ctxs := rfl
@[simp] theorem setCore_launches (s : State) (c : CoreId) (k : Core) : (s.setCore c k).launches = s.launches := rfl
@[simp] theorem setCore_lcount (s : State) (c : CoreId) (k : Core) : (s.setCore c k).lcount = s.lcount := rfl
@[simp] theorem setCore_rotate (s : State) (c : CoreId) (k : Core) : (s.setCore c k).rotate = s.rotate := rfl
@[simp] theorem setCore_reserve (s : State) (c : CoreId) (k : Core) : (s.setCore c k).reserve = s.reserve := rfl
@[simp] theorem setCore_resSince (s : State) (c : CoreId) (k : Core) : (s.setCore c k).resSince = s.resSince := rfl
@[simp] theorem setCore_resWait (s : State) (c : CoreId) (k : Core) : (s.setCore c k).resWait = s.resWait := rfl
@[simp] theorem setCore_resCores (s : State) (c : CoreId) (k : Core) : (s.setCore c k).resCores = s.resCores := rfl
@[simp] theorem setCore_preHold (s : State) (c : CoreId) (k : Core) : (s.setCore c k).preHold = s.preHold := rfl
@[simp] theorem setCore_preReqs (s : State) (c : CoreId) (k : Core) : (s.setCore c k).preReqs = s.preReqs := rfl
@[simp] theorem setCore_sliceNext (s : State) (c : CoreId) (k : Core) : (s.setCore c k).sliceNext = s.sliceNext := rfl
@[simp] theorem setCore_freed (s : State) (c : CoreId) (k : Core) : (s.setCore c k).freed = s.freed := rfl
@[simp] theorem setCore_saves (s : State) (c : CoreId) (k : Core) : (s.setCore c k).saves = s.saves := rfl
@[simp] theorem setCore_rowSaves (s : State) (c : CoreId) (k : Core) : (s.setCore c k).rowSaves = s.rowSaves := rfl
@[simp] theorem setCore_saggars (s : State) (c : CoreId) (k : Core) : (s.setCore c k).saggars = s.saggars := rfl
@[simp] theorem setCore_seqs (s : State) (c : CoreId) (k : Core) : (s.setCore c k).seqs = s.seqs := rfl
@[simp] theorem setCore_serv (s : State) (c : CoreId) (k : Core) : (s.setCore c k).serv = s.serv := rfl
@[simp] theorem setCore_deckles (s : State) (c : CoreId) (k : Core) : (s.setCore c k).deckles = s.deckles := rfl
@[simp] theorem setCore_frecs (s : State) (c : CoreId) (k : Core) : (s.setCore c k).frecs = s.frecs := rfl
@[simp] theorem setCore_fseqs (s : State) (c : CoreId) (k : Core) : (s.setCore c k).fseqs = s.fseqs := rfl
@[simp] theorem setCore_mbx (s : State) (c : CoreId) (k : Core) : (s.setCore c k).mbx = s.mbx := rfl
@[simp] theorem setCore_rdy (s : State) (c : CoreId) (k : Core) : (s.setCore c k).rdy = s.rdy := rfl
@[simp] theorem setCore_pmeas (s : State) (c : CoreId) (k : Core) : (s.setCore c k).pmeas = s.pmeas := rfl
@[simp] theorem setCore_gov (s : State) (c : CoreId) (k : Core) : (s.setCore c k).gov = s.gov := rfl
@[simp] theorem setCore_plimit (s : State) (c : CoreId) (k : Core) : (s.setCore c k).plimit = s.plimit := rfl
@[simp] theorem setCore_islands (s : State) (c : CoreId) (k : Core) : (s.setCore c k).islands = s.islands := rfl
@[simp] theorem setCore_links (s : State) (c : CoreId) (k : Core) : (s.setCore c k).links = s.links := rfl
@[simp] theorem setCore_hport (s : State) (c : CoreId) (k : Core) : (s.setCore c k).hport = s.hport := rfl
@[simp] theorem setCore_sec (s : State) (c : CoreId) (k : Core) : (s.setCore c k).sec = s.sec := rfl
@[simp] theorem setCore_health (s : State) (c : CoreId) (k : Core) : (s.setCore c k).health = s.health := rfl
@[simp] theorem setCore_hostRead (s : State) (c : CoreId) (k : Core) : (s.setCore c k).hostRead = s.hostRead := rfl
@[simp] theorem setCore_poison (s : State) (c : CoreId) (k : Core) : (s.setCore c k).poison = s.poison := rfl
@[simp] theorem setCore_hot (s : State) (c : CoreId) (k : Core) : (s.setCore c k).hot = s.hot := rfl
@[simp] theorem setCore_tlbn (s : State) (c : CoreId) (k : Core) : (s.setCore c k).tlbn = s.tlbn := rfl
@[simp] theorem setCore_descs (s : State) (c : CoreId) (k : Core) : (s.setCore c k).descs = s.descs := rfl
@[simp] theorem setRow_agenda (s : State) (r : Nat) (k : Row) : (s.setRow r k).agenda = s.agenda := rfl
@[simp] theorem setRow_cur (s : State) (r : Nat) (k : Row) : (s.setRow r k).cur = s.cur := rfl
@[simp] theorem setRow_ev (s : State) (r : Nat) (k : Row) : (s.setRow r k).ev = s.ev := rfl
@[simp] theorem setRow_stall (s : State) (r : Nat) (k : Row) : (s.setRow r k).stall = s.stall := rfl
@[simp] theorem setRow_fresh (s : State) (r : Nat) (k : Row) : (s.setRow r k).fresh = s.fresh := rfl
@[simp] theorem setRow_nextUid (s : State) (r : Nat) (k : Row) : (s.setRow r k).nextUid = s.nextUid := rfl
@[simp] theorem setRow_cycle (s : State) (r : Nat) (k : Row) : (s.setRow r k).cycle = s.cycle := rfl
@[simp] theorem setRow_cores (s : State) (r : Nat) (k : Row) : (s.setRow r k).cores = s.cores := rfl
@[simp] theorem setRow_near (s : State) (r : Nat) (k : Row) : (s.setRow r k).near = s.near := rfl
@[simp] theorem setRow_far (s : State) (r : Nat) (k : Row) : (s.setRow r k).far = s.far := rfl
@[simp] theorem setRow_cxl (s : State) (r : Nat) (k : Row) : (s.setRow r k).cxl = s.cxl := rfl
@[simp] theorem setRow_host (s : State) (r : Nat) (k : Row) : (s.setRow r k).host = s.host := rfl
@[simp] theorem setRow_net (s : State) (r : Nat) (k : Row) : (s.setRow r k).net = s.net := rfl
@[simp] theorem setRow_fab (s : State) (r : Nat) (k : Row) : (s.setRow r k).fab = s.fab := rfl
@[simp] theorem setRow_jobs (s : State) (r : Nat) (k : Row) : (s.setRow r k).jobs = s.jobs := rfl
@[simp] theorem setRow_beats (s : State) (r : Nat) (k : Row) : (s.setRow r k).beats = s.beats := rfl
@[simp] theorem setRow_doms (s : State) (r : Nat) (k : Row) : (s.setRow r k).doms = s.doms := rfl
@[simp] theorem setRow_ctxs (s : State) (r : Nat) (k : Row) : (s.setRow r k).ctxs = s.ctxs := rfl
@[simp] theorem setRow_launches (s : State) (r : Nat) (k : Row) : (s.setRow r k).launches = s.launches := rfl
@[simp] theorem setRow_lcount (s : State) (r : Nat) (k : Row) : (s.setRow r k).lcount = s.lcount := rfl
@[simp] theorem setRow_rotate (s : State) (r : Nat) (k : Row) : (s.setRow r k).rotate = s.rotate := rfl
@[simp] theorem setRow_reserve (s : State) (r : Nat) (k : Row) : (s.setRow r k).reserve = s.reserve := rfl
@[simp] theorem setRow_resSince (s : State) (r : Nat) (k : Row) : (s.setRow r k).resSince = s.resSince := rfl
@[simp] theorem setRow_resWait (s : State) (r : Nat) (k : Row) : (s.setRow r k).resWait = s.resWait := rfl
@[simp] theorem setRow_resCores (s : State) (r : Nat) (k : Row) : (s.setRow r k).resCores = s.resCores := rfl
@[simp] theorem setRow_preHold (s : State) (r : Nat) (k : Row) : (s.setRow r k).preHold = s.preHold := rfl
@[simp] theorem setRow_preReqs (s : State) (r : Nat) (k : Row) : (s.setRow r k).preReqs = s.preReqs := rfl
@[simp] theorem setRow_sliceNext (s : State) (r : Nat) (k : Row) : (s.setRow r k).sliceNext = s.sliceNext := rfl
@[simp] theorem setRow_freed (s : State) (r : Nat) (k : Row) : (s.setRow r k).freed = s.freed := rfl
@[simp] theorem setRow_saves (s : State) (r : Nat) (k : Row) : (s.setRow r k).saves = s.saves := rfl
@[simp] theorem setRow_rowSaves (s : State) (r : Nat) (k : Row) : (s.setRow r k).rowSaves = s.rowSaves := rfl
@[simp] theorem setRow_saggars (s : State) (r : Nat) (k : Row) : (s.setRow r k).saggars = s.saggars := rfl
@[simp] theorem setRow_seqs (s : State) (r : Nat) (k : Row) : (s.setRow r k).seqs = s.seqs := rfl
@[simp] theorem setRow_serv (s : State) (r : Nat) (k : Row) : (s.setRow r k).serv = s.serv := rfl
@[simp] theorem setRow_deckles (s : State) (r : Nat) (k : Row) : (s.setRow r k).deckles = s.deckles := rfl
@[simp] theorem setRow_frecs (s : State) (r : Nat) (k : Row) : (s.setRow r k).frecs = s.frecs := rfl
@[simp] theorem setRow_fseqs (s : State) (r : Nat) (k : Row) : (s.setRow r k).fseqs = s.fseqs := rfl
@[simp] theorem setRow_mbx (s : State) (r : Nat) (k : Row) : (s.setRow r k).mbx = s.mbx := rfl
@[simp] theorem setRow_rdy (s : State) (r : Nat) (k : Row) : (s.setRow r k).rdy = s.rdy := rfl
@[simp] theorem setRow_pmeas (s : State) (r : Nat) (k : Row) : (s.setRow r k).pmeas = s.pmeas := rfl
@[simp] theorem setRow_gov (s : State) (r : Nat) (k : Row) : (s.setRow r k).gov = s.gov := rfl
@[simp] theorem setRow_plimit (s : State) (r : Nat) (k : Row) : (s.setRow r k).plimit = s.plimit := rfl
@[simp] theorem setRow_islands (s : State) (r : Nat) (k : Row) : (s.setRow r k).islands = s.islands := rfl
@[simp] theorem setRow_links (s : State) (r : Nat) (k : Row) : (s.setRow r k).links = s.links := rfl
@[simp] theorem setRow_hport (s : State) (r : Nat) (k : Row) : (s.setRow r k).hport = s.hport := rfl
@[simp] theorem setRow_sec (s : State) (r : Nat) (k : Row) : (s.setRow r k).sec = s.sec := rfl
@[simp] theorem setRow_health (s : State) (r : Nat) (k : Row) : (s.setRow r k).health = s.health := rfl
@[simp] theorem setRow_hostRead (s : State) (r : Nat) (k : Row) : (s.setRow r k).hostRead = s.hostRead := rfl
@[simp] theorem setRow_poison (s : State) (r : Nat) (k : Row) : (s.setRow r k).poison = s.poison := rfl
@[simp] theorem setRow_hot (s : State) (r : Nat) (k : Row) : (s.setRow r k).hot = s.hot := rfl
@[simp] theorem setRow_tlbn (s : State) (r : Nat) (k : Row) : (s.setRow r k).tlbn = s.tlbn := rfl
@[simp] theorem setRow_descs (s : State) (r : Nat) (k : Row) : (s.setRow r k).descs = s.descs := rfl
@[simp] theorem setDom_agenda (s : State) (d : Nat) (x : Domain) : (s.setDom d x).agenda = s.agenda := rfl
@[simp] theorem setDom_cur (s : State) (d : Nat) (x : Domain) : (s.setDom d x).cur = s.cur := rfl
@[simp] theorem setDom_ev (s : State) (d : Nat) (x : Domain) : (s.setDom d x).ev = s.ev := rfl
@[simp] theorem setDom_stall (s : State) (d : Nat) (x : Domain) : (s.setDom d x).stall = s.stall := rfl
@[simp] theorem setDom_fresh (s : State) (d : Nat) (x : Domain) : (s.setDom d x).fresh = s.fresh := rfl
@[simp] theorem setDom_nextUid (s : State) (d : Nat) (x : Domain) : (s.setDom d x).nextUid = s.nextUid := rfl
@[simp] theorem setDom_cycle (s : State) (d : Nat) (x : Domain) : (s.setDom d x).cycle = s.cycle := rfl
@[simp] theorem setDom_cores (s : State) (d : Nat) (x : Domain) : (s.setDom d x).cores = s.cores := rfl
@[simp] theorem setDom_rows (s : State) (d : Nat) (x : Domain) : (s.setDom d x).rows = s.rows := rfl
@[simp] theorem setDom_near (s : State) (d : Nat) (x : Domain) : (s.setDom d x).near = s.near := rfl
@[simp] theorem setDom_far (s : State) (d : Nat) (x : Domain) : (s.setDom d x).far = s.far := rfl
@[simp] theorem setDom_cxl (s : State) (d : Nat) (x : Domain) : (s.setDom d x).cxl = s.cxl := rfl
@[simp] theorem setDom_host (s : State) (d : Nat) (x : Domain) : (s.setDom d x).host = s.host := rfl
@[simp] theorem setDom_net (s : State) (d : Nat) (x : Domain) : (s.setDom d x).net = s.net := rfl
@[simp] theorem setDom_fab (s : State) (d : Nat) (x : Domain) : (s.setDom d x).fab = s.fab := rfl
@[simp] theorem setDom_jobs (s : State) (d : Nat) (x : Domain) : (s.setDom d x).jobs = s.jobs := rfl
@[simp] theorem setDom_beats (s : State) (d : Nat) (x : Domain) : (s.setDom d x).beats = s.beats := rfl
@[simp] theorem setDom_ctxs (s : State) (d : Nat) (x : Domain) : (s.setDom d x).ctxs = s.ctxs := rfl
@[simp] theorem setDom_launches (s : State) (d : Nat) (x : Domain) : (s.setDom d x).launches = s.launches := rfl
@[simp] theorem setDom_lcount (s : State) (d : Nat) (x : Domain) : (s.setDom d x).lcount = s.lcount := rfl
@[simp] theorem setDom_rotate (s : State) (d : Nat) (x : Domain) : (s.setDom d x).rotate = s.rotate := rfl
@[simp] theorem setDom_reserve (s : State) (d : Nat) (x : Domain) : (s.setDom d x).reserve = s.reserve := rfl
@[simp] theorem setDom_resSince (s : State) (d : Nat) (x : Domain) : (s.setDom d x).resSince = s.resSince := rfl
@[simp] theorem setDom_resWait (s : State) (d : Nat) (x : Domain) : (s.setDom d x).resWait = s.resWait := rfl
@[simp] theorem setDom_resCores (s : State) (d : Nat) (x : Domain) : (s.setDom d x).resCores = s.resCores := rfl
@[simp] theorem setDom_preHold (s : State) (d : Nat) (x : Domain) : (s.setDom d x).preHold = s.preHold := rfl
@[simp] theorem setDom_preReqs (s : State) (d : Nat) (x : Domain) : (s.setDom d x).preReqs = s.preReqs := rfl
@[simp] theorem setDom_sliceNext (s : State) (d : Nat) (x : Domain) : (s.setDom d x).sliceNext = s.sliceNext := rfl
@[simp] theorem setDom_freed (s : State) (d : Nat) (x : Domain) : (s.setDom d x).freed = s.freed := rfl
@[simp] theorem setDom_saves (s : State) (d : Nat) (x : Domain) : (s.setDom d x).saves = s.saves := rfl
@[simp] theorem setDom_rowSaves (s : State) (d : Nat) (x : Domain) : (s.setDom d x).rowSaves = s.rowSaves := rfl
@[simp] theorem setDom_saggars (s : State) (d : Nat) (x : Domain) : (s.setDom d x).saggars = s.saggars := rfl
@[simp] theorem setDom_seqs (s : State) (d : Nat) (x : Domain) : (s.setDom d x).seqs = s.seqs := rfl
@[simp] theorem setDom_serv (s : State) (d : Nat) (x : Domain) : (s.setDom d x).serv = s.serv := rfl
@[simp] theorem setDom_deckles (s : State) (d : Nat) (x : Domain) : (s.setDom d x).deckles = s.deckles := rfl
@[simp] theorem setDom_frecs (s : State) (d : Nat) (x : Domain) : (s.setDom d x).frecs = s.frecs := rfl
@[simp] theorem setDom_fseqs (s : State) (d : Nat) (x : Domain) : (s.setDom d x).fseqs = s.fseqs := rfl
@[simp] theorem setDom_mbx (s : State) (d : Nat) (x : Domain) : (s.setDom d x).mbx = s.mbx := rfl
@[simp] theorem setDom_rdy (s : State) (d : Nat) (x : Domain) : (s.setDom d x).rdy = s.rdy := rfl
@[simp] theorem setDom_pmeas (s : State) (d : Nat) (x : Domain) : (s.setDom d x).pmeas = s.pmeas := rfl
@[simp] theorem setDom_gov (s : State) (d : Nat) (x : Domain) : (s.setDom d x).gov = s.gov := rfl
@[simp] theorem setDom_plimit (s : State) (d : Nat) (x : Domain) : (s.setDom d x).plimit = s.plimit := rfl
@[simp] theorem setDom_islands (s : State) (d : Nat) (x : Domain) : (s.setDom d x).islands = s.islands := rfl
@[simp] theorem setDom_links (s : State) (d : Nat) (x : Domain) : (s.setDom d x).links = s.links := rfl
@[simp] theorem setDom_hport (s : State) (d : Nat) (x : Domain) : (s.setDom d x).hport = s.hport := rfl
@[simp] theorem setDom_sec (s : State) (d : Nat) (x : Domain) : (s.setDom d x).sec = s.sec := rfl
@[simp] theorem setDom_health (s : State) (d : Nat) (x : Domain) : (s.setDom d x).health = s.health := rfl
@[simp] theorem setDom_hostRead (s : State) (d : Nat) (x : Domain) : (s.setDom d x).hostRead = s.hostRead := rfl
@[simp] theorem setDom_poison (s : State) (d : Nat) (x : Domain) : (s.setDom d x).poison = s.poison := rfl
@[simp] theorem setDom_hot (s : State) (d : Nat) (x : Domain) : (s.setDom d x).hot = s.hot := rfl
@[simp] theorem setDom_tlbn (s : State) (d : Nat) (x : Domain) : (s.setDom d x).tlbn = s.tlbn := rfl
@[simp] theorem setDom_descs (s : State) (d : Nat) (x : Domain) : (s.setDom d x).descs = s.descs := rfl
@[simp] theorem setTier_agenda (s : State) (t : Nat) (m : Mem) : (s.setTier t m).agenda = s.agenda := by
  unfold State.setTier; split <;> rfl
@[simp] theorem setTier_cur (s : State) (t : Nat) (m : Mem) : (s.setTier t m).cur = s.cur := by
  unfold State.setTier; split <;> rfl
@[simp] theorem setTier_ev (s : State) (t : Nat) (m : Mem) : (s.setTier t m).ev = s.ev := by
  unfold State.setTier; split <;> rfl
@[simp] theorem setTier_stall (s : State) (t : Nat) (m : Mem) : (s.setTier t m).stall = s.stall := by
  unfold State.setTier; split <;> rfl
@[simp] theorem setTier_fresh (s : State) (t : Nat) (m : Mem) : (s.setTier t m).fresh = s.fresh := by
  unfold State.setTier; split <;> rfl
@[simp] theorem setTier_nextUid (s : State) (t : Nat) (m : Mem) : (s.setTier t m).nextUid = s.nextUid := by
  unfold State.setTier; split <;> rfl
@[simp] theorem setTier_cycle (s : State) (t : Nat) (m : Mem) : (s.setTier t m).cycle = s.cycle := by
  unfold State.setTier; split <;> rfl
@[simp] theorem setTier_cores (s : State) (t : Nat) (m : Mem) : (s.setTier t m).cores = s.cores := by
  unfold State.setTier; split <;> rfl
@[simp] theorem setTier_rows (s : State) (t : Nat) (m : Mem) : (s.setTier t m).rows = s.rows := by
  unfold State.setTier; split <;> rfl
@[simp] theorem setTier_net (s : State) (t : Nat) (m : Mem) : (s.setTier t m).net = s.net := by
  unfold State.setTier; split <;> rfl
@[simp] theorem setTier_fab (s : State) (t : Nat) (m : Mem) : (s.setTier t m).fab = s.fab := by
  unfold State.setTier; split <;> rfl
@[simp] theorem setTier_jobs (s : State) (t : Nat) (m : Mem) : (s.setTier t m).jobs = s.jobs := by
  unfold State.setTier; split <;> rfl
@[simp] theorem setTier_beats (s : State) (t : Nat) (m : Mem) : (s.setTier t m).beats = s.beats := by
  unfold State.setTier; split <;> rfl
@[simp] theorem setTier_doms (s : State) (t : Nat) (m : Mem) : (s.setTier t m).doms = s.doms := by
  unfold State.setTier; split <;> rfl
@[simp] theorem setTier_ctxs (s : State) (t : Nat) (m : Mem) : (s.setTier t m).ctxs = s.ctxs := by
  unfold State.setTier; split <;> rfl
@[simp] theorem setTier_launches (s : State) (t : Nat) (m : Mem) : (s.setTier t m).launches = s.launches := by
  unfold State.setTier; split <;> rfl
@[simp] theorem setTier_lcount (s : State) (t : Nat) (m : Mem) : (s.setTier t m).lcount = s.lcount := by
  unfold State.setTier; split <;> rfl
@[simp] theorem setTier_rotate (s : State) (t : Nat) (m : Mem) : (s.setTier t m).rotate = s.rotate := by
  unfold State.setTier; split <;> rfl
@[simp] theorem setTier_reserve (s : State) (t : Nat) (m : Mem) : (s.setTier t m).reserve = s.reserve := by
  unfold State.setTier; split <;> rfl
@[simp] theorem setTier_resSince (s : State) (t : Nat) (m : Mem) : (s.setTier t m).resSince = s.resSince := by
  unfold State.setTier; split <;> rfl
@[simp] theorem setTier_resWait (s : State) (t : Nat) (m : Mem) : (s.setTier t m).resWait = s.resWait := by
  unfold State.setTier; split <;> rfl
@[simp] theorem setTier_resCores (s : State) (t : Nat) (m : Mem) : (s.setTier t m).resCores = s.resCores := by
  unfold State.setTier; split <;> rfl
@[simp] theorem setTier_preHold (s : State) (t : Nat) (m : Mem) : (s.setTier t m).preHold = s.preHold := by
  unfold State.setTier; split <;> rfl
@[simp] theorem setTier_preReqs (s : State) (t : Nat) (m : Mem) : (s.setTier t m).preReqs = s.preReqs := by
  unfold State.setTier; split <;> rfl
@[simp] theorem setTier_sliceNext (s : State) (t : Nat) (m : Mem) : (s.setTier t m).sliceNext = s.sliceNext := by
  unfold State.setTier; split <;> rfl
@[simp] theorem setTier_freed (s : State) (t : Nat) (m : Mem) : (s.setTier t m).freed = s.freed := by
  unfold State.setTier; split <;> rfl
@[simp] theorem setTier_saves (s : State) (t : Nat) (m : Mem) : (s.setTier t m).saves = s.saves := by
  unfold State.setTier; split <;> rfl
@[simp] theorem setTier_rowSaves (s : State) (t : Nat) (m : Mem) : (s.setTier t m).rowSaves = s.rowSaves := by
  unfold State.setTier; split <;> rfl
@[simp] theorem setTier_saggars (s : State) (t : Nat) (m : Mem) : (s.setTier t m).saggars = s.saggars := by
  unfold State.setTier; split <;> rfl
@[simp] theorem setTier_seqs (s : State) (t : Nat) (m : Mem) : (s.setTier t m).seqs = s.seqs := by
  unfold State.setTier; split <;> rfl
@[simp] theorem setTier_serv (s : State) (t : Nat) (m : Mem) : (s.setTier t m).serv = s.serv := by
  unfold State.setTier; split <;> rfl
@[simp] theorem setTier_deckles (s : State) (t : Nat) (m : Mem) : (s.setTier t m).deckles = s.deckles := by
  unfold State.setTier; split <;> rfl
@[simp] theorem setTier_frecs (s : State) (t : Nat) (m : Mem) : (s.setTier t m).frecs = s.frecs := by
  unfold State.setTier; split <;> rfl
@[simp] theorem setTier_fseqs (s : State) (t : Nat) (m : Mem) : (s.setTier t m).fseqs = s.fseqs := by
  unfold State.setTier; split <;> rfl
@[simp] theorem setTier_mbx (s : State) (t : Nat) (m : Mem) : (s.setTier t m).mbx = s.mbx := by
  unfold State.setTier; split <;> rfl
@[simp] theorem setTier_rdy (s : State) (t : Nat) (m : Mem) : (s.setTier t m).rdy = s.rdy := by
  unfold State.setTier; split <;> rfl
@[simp] theorem setTier_pmeas (s : State) (t : Nat) (m : Mem) : (s.setTier t m).pmeas = s.pmeas := by
  unfold State.setTier; split <;> rfl
@[simp] theorem setTier_gov (s : State) (t : Nat) (m : Mem) : (s.setTier t m).gov = s.gov := by
  unfold State.setTier; split <;> rfl
@[simp] theorem setTier_plimit (s : State) (t : Nat) (m : Mem) : (s.setTier t m).plimit = s.plimit := by
  unfold State.setTier; split <;> rfl
@[simp] theorem setTier_islands (s : State) (t : Nat) (m : Mem) : (s.setTier t m).islands = s.islands := by
  unfold State.setTier; split <;> rfl
@[simp] theorem setTier_links (s : State) (t : Nat) (m : Mem) : (s.setTier t m).links = s.links := by
  unfold State.setTier; split <;> rfl
@[simp] theorem setTier_hport (s : State) (t : Nat) (m : Mem) : (s.setTier t m).hport = s.hport := by
  unfold State.setTier; split <;> rfl
@[simp] theorem setTier_sec (s : State) (t : Nat) (m : Mem) : (s.setTier t m).sec = s.sec := by
  unfold State.setTier; split <;> rfl
@[simp] theorem setTier_health (s : State) (t : Nat) (m : Mem) : (s.setTier t m).health = s.health := by
  unfold State.setTier; split <;> rfl
@[simp] theorem setTier_hostRead (s : State) (t : Nat) (m : Mem) : (s.setTier t m).hostRead = s.hostRead := by
  unfold State.setTier; split <;> rfl
@[simp] theorem setTier_poison (s : State) (t : Nat) (m : Mem) : (s.setTier t m).poison = s.poison := by
  unfold State.setTier; split <;> rfl
@[simp] theorem setTier_hot (s : State) (t : Nat) (m : Mem) : (s.setTier t m).hot = s.hot := by
  unfold State.setTier; split <;> rfl
@[simp] theorem setTier_tlbn (s : State) (t : Nat) (m : Mem) : (s.setTier t m).tlbn = s.tlbn := by
  unfold State.setTier; split <;> rfl
@[simp] theorem setTier_descs (s : State) (t : Nat) (m : Mem) : (s.setTier t m).descs = s.descs := by
  unfold State.setTier; split <;> rfl

end Sys2Proof.Machine
end

