-- ==== Sys2Proof/Laws/Core.lean ====
section
/-!
SUPPORT. Laws of the updates of one core: the charge of cycles, writes of local bytes, the flags word and the write-back
points, each with everything it can do, then one lemma for each field.
-/
namespace Sys2Proof.Machine

/-! ### What each update can do -/

theorem setLocalByte_shape (c : Core) (a : Nat) (b : Byte) :
    ∃ ls sh, setLocalByte c a b = { c with ls := ls, sh := sh } := by
  unfold setLocalByte
  split
  · exact ⟨_, _, rfl⟩
  · split
    · exact ⟨_, _, rfl⟩
    · split
      · exact ⟨_, _, rfl⟩
      · exact ⟨_, _, rfl⟩

theorem setLocalBytes_shape (bs : List Byte) : ∀ (c : Core) (a : Nat),
    ∃ ls sh, setLocalBytes c a bs = { c with ls := ls, sh := sh } := by
  induction bs with
  | nil => intro c a; exact ⟨c.ls, c.sh, rfl⟩
  | cons b bs ih =>
    intro c a
    obtain ⟨l1, h1, e1⟩ := setLocalByte_shape c a b
    obtain ⟨l2, h2, e2⟩ := ih (setLocalByte c a b) (a + 1)
    exact ⟨l2, h2, by rw [setLocalBytes, e2, e1]⟩

theorem normAt_shape (c : Core) (off : Nat) : ∃ ls sh, normAt c off = { c with ls := ls, sh := sh } := by
  exact ⟨_, _, rfl⟩

theorem normAll_shape (l : List Nat) : ∀ c : Core, ∃ ls sh, l.foldl normAt c = { c with ls := ls, sh := sh } := by
  induction l with
  | nil => intro c; exact ⟨c.ls, c.sh, rfl⟩
  | cons o l ih =>
    intro c
    obtain ⟨l1, h1, e1⟩ := normAt_shape c o
    obtain ⟨l2, h2, e2⟩ := ih (normAt c o)
    exact ⟨l2, h2, by rw [List.foldl_cons, e2, e1]⟩

/-- A write of local bytes changes the local store, the shadows and the two copies, and nothing else of the core. -/
theorem putLocal_shape (c : Core) (a : Nat) (bs : List Byte) :
    ∃ ls sh fl m, putLocal c a bs = { c with ls := ls, sh := sh, flags := fl, mask := m } := by
  obtain ⟨l1, h1, e1⟩ := setLocalBytes_shape bs c a
  unfold putLocal afterStore
  simp only [e1]
  obtain ⟨l2, h2, e2⟩ := normAll_shape
    (specialOffsets.filter (fun o => meets a bs.length (c.wp + o) 8)) { c with ls := l1, sh := h1 }
  simp only [e2]
  split <;> split <;> exact ⟨_, _, _, _, rfl⟩

theorem reloadShadows_shape (c : Core) :
    ∃ ls sh fl m, reloadShadows c = { c with ls := ls, sh := sh, flags := fl, mask := m } := by
  unfold reloadShadows
  obtain ⟨l2, h2, e2⟩ := normAll_shape specialOffsets
    { c with sh := memShiftDown (memSlice c.ls (c.wp + 0x100) (c.wp + 0x380)) c.wp }
  simp only [e2]
  exact ⟨_, _, _, _, rfl⟩

/-- A change of WP changes WP, the local store, the shadows and the two copies. -/
theorem changeWp_shape (c : Core) (wp : Nat) :
    ∃ ls sh fl m, changeWp c wp = { c with wp := wp, ls := ls, sh := sh, flags := fl, mask := m } := by
  unfold changeWp
  split
  · rename_i h; exact ⟨c.ls, c.sh, c.flags, c.mask, by rw [h]⟩
  · obtain ⟨ls, sh, fl, m, e⟩ := reloadShadows_shape { writeBack c with wp := wp }
    exact ⟨ls, sh, fl, m, by rw [e]; rfl⟩

theorem charge_shape (c : Core) (n : Nat) : ∃ b h, c.charge n = { c with budget := b, hbudget := h } := by
  unfold Core.charge Core.setCycles
  split <;> exact ⟨_, _, rfl⟩

theorem issue_shape (c : Core) (n st : Nat) :
    ∃ b h l o, c.issue n st = { c with budget := b, hbudget := h, late := l, owed := o } := by
  obtain ⟨b, h, e⟩ := charge_shape c (n + st)
  exact ⟨b, h, _, _, by unfold Core.issue; rw [e]⟩

/-- A store that succeeds writes the bytes, and no pending value, no access to the core's own window and no held tile was in
the way. -/
theorem storeAt_ok {c k : Core} {a : Nat} {bs : List Byte} (h : storeAt c a bs = .ok k) :
    pendingAt c a bs.length = false ∧ ownAt c a bs.length = false ∧ heldAt c a bs.length = false ∧ k = putLocal c a bs := by
  unfold storeAt untilS guardS at h
  cases h1 : pendingAt c a bs.length <;> cases h3 : ownAt c a bs.length <;> cases h2 : heldAt c a bs.length <;>
    simp [h1, h2, h3, bind, Except.bind] at h
  exact ⟨rfl, rfl, rfl, h.symm⟩

/-! ### One lemma for each field -/

@[simp] theorem putLocal_cls (c : Core) (a : Nat) (bs : List Byte) : (putLocal c a bs).cls = c.cls := by
  obtain ⟨_, _, _, _, h⟩ := putLocal_shape c a bs; rw [h]
@[simp] theorem putLocal_wp (c : Core) (a : Nat) (bs : List Byte) : (putLocal c a bs).wp = c.wp := by
  obtain ⟨_, _, _, _, h⟩ := putLocal_shape c a bs; rw [h]
@[simp] theorem putLocal_ctf (c : Core) (a : Nat) (bs : List Byte) : (putLocal c a bs).ctf = c.ctf := by
  obtain ⟨_, _, _, _, h⟩ := putLocal_shape c a bs; rw [h]
@[simp] theorem putLocal_ctb (c : Core) (a : Nat) (bs : List Byte) : (putLocal c a bs).ctb = c.ctb := by
  obtain ⟨_, _, _, _, h⟩ := putLocal_shape c a bs; rw [h]
@[simp] theorem putLocal_ctm (c : Core) (a : Nat) (bs : List Byte) : (putLocal c a bs).ctm = c.ctm := by
  obtain ⟨_, _, _, _, h⟩ := putLocal_shape c a bs; rw [h]
@[simp] theorem putLocal_ldo (c : Core) (a : Nat) (bs : List Byte) : (putLocal c a bs).ldo = c.ldo := by
  obtain ⟨_, _, _, _, h⟩ := putLocal_shape c a bs; rw [h]
@[simp] theorem putLocal_atm (c : Core) (a : Nat) (bs : List Byte) : (putLocal c a bs).atm = c.atm := by
  obtain ⟨_, _, _, _, h⟩ := putLocal_shape c a bs; rw [h]
@[simp] theorem putLocal_pendDst (c : Core) (a : Nat) (bs : List Byte) : (putLocal c a bs).pendDst = c.pendDst := by
  obtain ⟨_, _, _, _, h⟩ := putLocal_shape c a bs; rw [h]
@[simp] theorem putLocal_acqWait (c : Core) (a : Nat) (bs : List Byte) : (putLocal c a bs).acqWait = c.acqWait := by
  obtain ⟨_, _, _, _, h⟩ := putLocal_shape c a bs; rw [h]
@[simp] theorem putLocal_fenceSt (c : Core) (a : Nat) (bs : List Byte) : (putLocal c a bs).fenceSt = c.fenceSt := by
  obtain ⟨_, _, _, _, h⟩ := putLocal_shape c a bs; rw [h]
@[simp] theorem putLocal_fenceDst (c : Core) (a : Nat) (bs : List Byte) : (putLocal c a bs).fenceDst = c.fenceDst := by
  obtain ⟨_, _, _, _, h⟩ := putLocal_shape c a bs; rw [h]
@[simp] theorem putLocal_pc (c : Core) (a : Nat) (bs : List Byte) : (putLocal c a bs).pc = c.pc := by
  obtain ⟨_, _, _, _, h⟩ := putLocal_shape c a bs; rw [h]
@[simp] theorem putLocal_bcMode (c : Core) (a : Nat) (bs : List Byte) : (putLocal c a bs).bcMode = c.bcMode := by
  obtain ⟨_, _, _, _, h⟩ := putLocal_shape c a bs; rw [h]
@[simp] theorem putLocal_run (c : Core) (a : Nat) (bs : List Byte) : (putLocal c a bs).run = c.run := by
  obtain ⟨_, _, _, _, h⟩ := putLocal_shape c a bs; rw [h]
@[simp] theorem putLocal_last (c : Core) (a : Nat) (bs : List Byte) : (putLocal c a bs).last = c.last := by
  obtain ⟨_, _, _, _, h⟩ := putLocal_shape c a bs; rw [h]
@[simp] theorem putLocal_budget (c : Core) (a : Nat) (bs : List Byte) : (putLocal c a bs).budget = c.budget := by
  obtain ⟨_, _, _, _, h⟩ := putLocal_shape c a bs; rw [h]
@[simp] theorem putLocal_hbudget (c : Core) (a : Nat) (bs : List Byte) : (putLocal c a bs).hbudget = c.hbudget := by
  obtain ⟨_, _, _, _, h⟩ := putLocal_shape c a bs; rw [h]
@[simp] theorem putLocal_lframe (c : Core) (a : Nat) (bs : List Byte) : (putLocal c a bs).lframe = c.lframe := by
  obtain ⟨_, _, _, _, h⟩ := putLocal_shape c a bs; rw [h]
@[simp] theorem putLocal_tframe (c : Core) (a : Nat) (bs : List Byte) : (putLocal c a bs).tframe = c.tframe := by
  obtain ⟨_, _, _, _, h⟩ := putLocal_shape c a bs; rw [h]
@[simp] theorem putLocal_vpend (c : Core) (a : Nat) (bs : List Byte) : (putLocal c a bs).vpend = c.vpend := by
  obtain ⟨_, _, _, _, h⟩ := putLocal_shape c a bs; rw [h]
@[simp] theorem putLocal_fifoWp (c : Core) (a : Nat) (bs : List Byte) : (putLocal c a bs).fifoWp = c.fifoWp := by
  obtain ⟨_, _, _, _, h⟩ := putLocal_shape c a bs; rw [h]
@[simp] theorem putLocal_h3fifo (c : Core) (a : Nat) (bs : List Byte) : (putLocal c a bs).h3fifo = c.h3fifo := by
  obtain ⟨_, _, _, _, h⟩ := putLocal_shape c a bs; rw [h]
@[simp] theorem putLocal_sleeping (c : Core) (a : Nat) (bs : List Byte) : (putLocal c a bs).sleeping = c.sleeping := by
  obtain ⟨_, _, _, _, h⟩ := putLocal_shape c a bs; rw [h]
@[simp] theorem putLocal_bpend (c : Core) (a : Nat) (bs : List Byte) : (putLocal c a bs).bpend = c.bpend := by
  obtain ⟨_, _, _, _, h⟩ := putLocal_shape c a bs; rw [h]
@[simp] theorem putLocal_chans (c : Core) (a : Nat) (bs : List Byte) : (putLocal c a bs).chans = c.chans := by
  obtain ⟨_, _, _, _, h⟩ := putLocal_shape c a bs; rw [h]
@[simp] theorem putLocal_hdrs (c : Core) (a : Nat) (bs : List Byte) : (putLocal c a bs).hdrs = c.hdrs := by
  obtain ⟨_, _, _, _, h⟩ := putLocal_shape c a bs; rw [h]
@[simp] theorem putLocal_landing (c : Core) (a : Nat) (bs : List Byte) : (putLocal c a bs).landing = c.landing := by
  obtain ⟨_, _, _, _, h⟩ := putLocal_shape c a bs; rw [h]
@[simp] theorem putLocal_sbuf (c : Core) (a : Nat) (bs : List Byte) : (putLocal c a bs).sbuf = c.sbuf := by
  obtain ⟨_, _, _, _, h⟩ := putLocal_shape c a bs; rw [h]
@[simp] theorem putLocal_sout (c : Core) (a : Nat) (bs : List Byte) : (putLocal c a bs).sout = c.sout := by
  obtain ⟨_, _, _, _, h⟩ := putLocal_shape c a bs; rw [h]
@[simp] theorem putLocal_midc (c : Core) (a : Nat) (bs : List Byte) : (putLocal c a bs).midc = c.midc := by
  obtain ⟨_, _, _, _, h⟩ := putLocal_shape c a bs; rw [h]
@[simp] theorem putLocal_firings (c : Core) (a : Nat) (bs : List Byte) : (putLocal c a bs).firings = c.firings := by
  obtain ⟨_, _, _, _, h⟩ := putLocal_shape c a bs; rw [h]
@[simp] theorem putLocal_retired (c : Core) (a : Nat) (bs : List Byte) : (putLocal c a bs).retired = c.retired := by
  obtain ⟨_, _, _, _, h⟩ := putLocal_shape c a bs; rw [h]
@[simp] theorem putLocal_cancels (c : Core) (a : Nat) (bs : List Byte) : (putLocal c a bs).cancels = c.cancels := by
  obtain ⟨_, _, _, _, h⟩ := putLocal_shape c a bs; rw [h]
@[simp] theorem putLocal_tiles (c : Core) (a : Nat) (bs : List Byte) : (putLocal c a bs).tiles = c.tiles := by
  obtain ⟨_, _, _, _, h⟩ := putLocal_shape c a bs; rw [h]
@[simp] theorem putLocal_jobc (c : Core) (a : Nat) (bs : List Byte) : (putLocal c a bs).jobc = c.jobc := by
  obtain ⟨_, _, _, _, h⟩ := putLocal_shape c a bs; rw [h]
@[simp] theorem putLocal_jobs (c : Core) (a : Nat) (bs : List Byte) : (putLocal c a bs).jobs = c.jobs := by
  obtain ⟨_, _, _, _, h⟩ := putLocal_shape c a bs; rw [h]
@[simp] theorem putLocal_acc (c : Core) (a : Nat) (bs : List Byte) : (putLocal c a bs).acc = c.acc := by
  obtain ⟨_, _, _, _, h⟩ := putLocal_shape c a bs; rw [h]
@[simp] theorem putLocal_kctx (c : Core) (a : Nat) (bs : List Byte) : (putLocal c a bs).kctx = c.kctx := by
  obtain ⟨_, _, _, _, h⟩ := putLocal_shape c a bs; rw [h]
@[simp] theorem putLocal_kout (c : Core) (a : Nat) (bs : List Byte) : (putLocal c a bs).kout = c.kout := by
  obtain ⟨_, _, _, _, h⟩ := putLocal_shape c a bs; rw [h]
@[simp] theorem putLocal_kheld (c : Core) (a : Nat) (bs : List Byte) : (putLocal c a bs).kheld = c.kheld := by
  obtain ⟨_, _, _, _, h⟩ := putLocal_shape c a bs; rw [h]
@[simp] theorem putLocal_kgc (c : Core) (a : Nat) (bs : List Byte) : (putLocal c a bs).kgc = c.kgc := by
  obtain ⟨_, _, _, _, h⟩ := putLocal_shape c a bs; rw [h]
@[simp] theorem putLocal_kreq (c : Core) (a : Nat) (bs : List Byte) : (putLocal c a bs).kreq = c.kreq := by
  obtain ⟨_, _, _, _, h⟩ := putLocal_shape c a bs; rw [h]
@[simp] theorem putLocal_kverd (c : Core) (a : Nat) (bs : List Byte) : (putLocal c a bs).kverd = c.kverd := by
  obtain ⟨_, _, _, _, h⟩ := putLocal_shape c a bs; rw [h]
@[simp] theorem putLocal_grants (c : Core) (a : Nat) (bs : List Byte) : (putLocal c a bs).grants = c.grants := by
  obtain ⟨_, _, _, _, h⟩ := putLocal_shape c a bs; rw [h]
@[simp] theorem putLocal_lreq (c : Core) (a : Nat) (bs : List Byte) : (putLocal c a bs).lreq = c.lreq := by
  obtain ⟨_, _, _, _, h⟩ := putLocal_shape c a bs; rw [h]
@[simp] theorem putLocal_gbarc (c : Core) (a : Nat) (bs : List Byte) : (putLocal c a bs).gbarc = c.gbarc := by
  obtain ⟨_, _, _, _, h⟩ := putLocal_shape c a bs; rw [h]
@[simp] theorem putLocal_gbarIn (c : Core) (a : Nat) (bs : List Byte) : (putLocal c a bs).gbarIn = c.gbarIn := by
  obtain ⟨_, _, _, _, h⟩ := putLocal_shape c a bs; rw [h]
@[simp] theorem putLocal_gbarOut (c : Core) (a : Nat) (bs : List Byte) : (putLocal c a bs).gbarOut = c.gbarOut := by
  obtain ⟨_, _, _, _, h⟩ := putLocal_shape c a bs; rw [h]
@[simp] theorem putLocal_cwait (c : Core) (a : Nat) (bs : List Byte) : (putLocal c a bs).cwait = c.cwait := by
  obtain ⟨_, _, _, _, h⟩ := putLocal_shape c a bs; rw [h]
@[simp] theorem putLocal_ttb (c : Core) (a : Nat) (bs : List Byte) : (putLocal c a bs).ttb = c.ttb := by
  obtain ⟨_, _, _, _, h⟩ := putLocal_shape c a bs; rw [h]
@[simp] theorem putLocal_att (c : Core) (a : Nat) (bs : List Byte) : (putLocal c a bs).att = c.att := by
  obtain ⟨_, _, _, _, h⟩ := putLocal_shape c a bs; rw [h]
@[simp] theorem putLocal_tlb (c : Core) (a : Nat) (bs : List Byte) : (putLocal c a bs).tlb = c.tlb := by
  obtain ⟨_, _, _, _, h⟩ := putLocal_shape c a bs; rw [h]
@[simp] theorem putLocal_parked (c : Core) (a : Nat) (bs : List Byte) : (putLocal c a bs).parked = c.parked := by
  obtain ⟨_, _, _, _, h⟩ := putLocal_shape c a bs; rw [h]
@[simp] theorem putLocal_tres (c : Core) (a : Nat) (bs : List Byte) : (putLocal c a bs).tres = c.tres := by
  obtain ⟨_, _, _, _, h⟩ := putLocal_shape c a bs; rw [h]
@[simp] theorem putLocal_life (c : Core) (a : Nat) (bs : List Byte) : (putLocal c a bs).life = c.life := by
  obtain ⟨_, _, _, _, h⟩ := putLocal_shape c a bs; rw [h]
@[simp] theorem putLocal_ctx (c : Core) (a : Nat) (bs : List Byte) : (putLocal c a bs).ctx = c.ctx := by
  obtain ⟨_, _, _, _, h⟩ := putLocal_shape c a bs; rw [h]
@[simp] theorem putLocal_launch (c : Core) (a : Nat) (bs : List Byte) : (putLocal c a bs).launch = c.launch := by
  obtain ⟨_, _, _, _, h⟩ := putLocal_shape c a bs; rw [h]
@[simp] theorem putLocal_logical (c : Core) (a : Nat) (bs : List Byte) : (putLocal c a bs).logical = c.logical := by
  obtain ⟨_, _, _, _, h⟩ := putLocal_shape c a bs; rw [h]
@[simp] theorem putLocal_gang (c : Core) (a : Nat) (bs : List Byte) : (putLocal c a bs).gang = c.gang := by
  obtain ⟨_, _, _, _, h⟩ := putLocal_shape c a bs; rw [h]
@[simp] theorem putLocal_sup (c : Core) (a : Nat) (bs : List Byte) : (putLocal c a bs).sup = c.sup := by
  obtain ⟨_, _, _, _, h⟩ := putLocal_shape c a bs; rw [h]
@[simp] theorem putLocal_preReq (c : Core) (a : Nat) (bs : List Byte) : (putLocal c a bs).preReq = c.preReq := by
  obtain ⟨_, _, _, _, h⟩ := putLocal_shape c a bs; rw [h]
@[simp] theorem putLocal_sliceExp (c : Core) (a : Nat) (bs : List Byte) : (putLocal c a bs).sliceExp = c.sliceExp := by
  obtain ⟨_, _, _, _, h⟩ := putLocal_shape c a bs; rw [h]
@[simp] theorem putLocal_tcfg (c : Core) (a : Nat) (bs : List Byte) : (putLocal c a bs).tcfg = c.tcfg := by
  obtain ⟨_, _, _, _, h⟩ := putLocal_shape c a bs; rw [h]
@[simp] theorem putLocal_tent (c : Core) (a : Nat) (bs : List Byte) : (putLocal c a bs).tent = c.tent := by
  obtain ⟨_, _, _, _, h⟩ := putLocal_shape c a bs; rw [h]
@[simp] theorem putLocal_kstall (c : Core) (a : Nat) (bs : List Byte) : (putLocal c a bs).kstall = c.kstall := by
  obtain ⟨_, _, _, _, h⟩ := putLocal_shape c a bs; rw [h]
@[simp] theorem putLocal_eccL (c : Core) (a : Nat) (bs : List Byte) : (putLocal c a bs).eccL = c.eccL := by
  obtain ⟨_, _, _, _, h⟩ := putLocal_shape c a bs; rw [h]
@[simp] theorem putLocal_eccR (c : Core) (a : Nat) (bs : List Byte) : (putLocal c a bs).eccR = c.eccR := by
  obtain ⟨_, _, _, _, h⟩ := putLocal_shape c a bs; rw [h]
@[simp] theorem putLocal_bhtab (c : Core) (a : Nat) (bs : List Byte) : (putLocal c a bs).bhtab = c.bhtab := by
  obtain ⟨_, _, _, _, h⟩ := putLocal_shape c a bs; rw [h]
@[simp] theorem putLocal_ltab (c : Core) (a : Nat) (bs : List Byte) : (putLocal c a bs).ltab = c.ltab := by
  obtain ⟨_, _, _, _, h⟩ := putLocal_shape c a bs; rw [h]
@[simp] theorem putLocal_bscr (c : Core) (a : Nat) (bs : List Byte) : (putLocal c a bs).bscr = c.bscr := by
  obtain ⟨_, _, _, _, h⟩ := putLocal_shape c a bs; rw [h]
@[simp] theorem putLocal_rring (c : Core) (a : Nat) (bs : List Byte) : (putLocal c a bs).rring = c.rring := by
  obtain ⟨_, _, _, _, h⟩ := putLocal_shape c a bs; rw [h]
@[simp] theorem putLocal_lines (c : Core) (a : Nat) (bs : List Byte) : (putLocal c a bs).lines = c.lines := by
  obtain ⟨_, _, _, _, h⟩ := putLocal_shape c a bs; rw [h]
@[simp] theorem putLocal_fillWait (c : Core) (a : Nat) (bs : List Byte) : (putLocal c a bs).fillWait = c.fillWait := by
  obtain ⟨_, _, _, _, h⟩ := putLocal_shape c a bs; rw [h]
@[simp] theorem putLocal_ic (c : Core) (a : Nat) (bs : List Byte) : (putLocal c a bs).ic = c.ic := by
  obtain ⟨_, _, _, _, h⟩ := putLocal_shape c a bs; rw [h]
@[simp] theorem putLocal_pst (c : Core) (a : Nat) (bs : List Byte) : (putLocal c a bs).pst = c.pst := by
  obtain ⟨_, _, _, _, h⟩ := putLocal_shape c a bs; rw [h]
@[simp] theorem putLocal_partner (c : Core) (a : Nat) (bs : List Byte) : (putLocal c a bs).partner = c.partner := by
  obtain ⟨_, _, _, _, h⟩ := putLocal_shape c a bs; rw [h]
@[simp] theorem putLocal_mism (c : Core) (a : Nat) (bs : List Byte) : (putLocal c a bs).mism = c.mism := by
  obtain ⟨_, _, _, _, h⟩ := putLocal_shape c a bs; rw [h]
@[simp] theorem putLocal_pairReq (c : Core) (a : Nat) (bs : List Byte) : (putLocal c a bs).pairReq = c.pairReq := by
  obtain ⟨_, _, _, _, h⟩ := putLocal_shape c a bs; rw [h]
@[simp] theorem putLocal_pairRuns (c : Core) (a : Nat) (bs : List Byte) : (putLocal c a bs).pairRuns = c.pairRuns := by
  obtain ⟨_, _, _, _, h⟩ := putLocal_shape c a bs; rw [h]
@[simp] theorem putLocal_own (c : Core) (a : Nat) (bs : List Byte) : (putLocal c a bs).own = c.own := by
  obtain ⟨_, _, _, _, h⟩ := putLocal_shape c a bs; rw [h]
@[simp] theorem putLocal_ccyc (c : Core) (a : Nat) (bs : List Byte) : (putLocal c a bs).ccyc = c.ccyc := by
  obtain ⟨_, _, _, _, h⟩ := putLocal_shape c a bs; rw [h]
@[simp] theorem putLocal_late (c : Core) (a : Nat) (bs : List Byte) : (putLocal c a bs).late = c.late := by
  obtain ⟨_, _, _, _, h⟩ := putLocal_shape c a bs; rw [h]
@[simp] theorem putLocal_owed (c : Core) (a : Nat) (bs : List Byte) : (putLocal c a bs).owed = c.owed := by
  obtain ⟨_, _, _, _, h⟩ := putLocal_shape c a bs; rw [h]
@[simp] theorem putLocal_drainp (c : Core) (a : Nat) (bs : List Byte) : (putLocal c a bs).drainp = c.drainp := by
  obtain ⟨_, _, _, _, h⟩ := putLocal_shape c a bs; rw [h]
@[simp] theorem putLocal_lgot (c : Core) (a : Nat) (bs : List Byte) : (putLocal c a bs).lgot = c.lgot := by
  obtain ⟨_, _, _, _, h⟩ := putLocal_shape c a bs; rw [h]
@[simp] theorem putLocal_tlbw (c : Core) (a : Nat) (bs : List Byte) : (putLocal c a bs).tlbw = c.tlbw := by
  obtain ⟨_, _, _, _, h⟩ := putLocal_shape c a bs; rw [h]
@[simp] theorem changeWp_cls (c : Core) (wp : Nat) : (changeWp c wp).cls = c.cls := by
  obtain ⟨_, _, _, _, h⟩ := changeWp_shape c wp; rw [h]
@[simp] theorem changeWp_ctf (c : Core) (wp : Nat) : (changeWp c wp).ctf = c.ctf := by
  obtain ⟨_, _, _, _, h⟩ := changeWp_shape c wp; rw [h]
@[simp] theorem changeWp_ctb (c : Core) (wp : Nat) : (changeWp c wp).ctb = c.ctb := by
  obtain ⟨_, _, _, _, h⟩ := changeWp_shape c wp; rw [h]
@[simp] theorem changeWp_ctm (c : Core) (wp : Nat) : (changeWp c wp).ctm = c.ctm := by
  obtain ⟨_, _, _, _, h⟩ := changeWp_shape c wp; rw [h]
@[simp] theorem changeWp_ldo (c : Core) (wp : Nat) : (changeWp c wp).ldo = c.ldo := by
  obtain ⟨_, _, _, _, h⟩ := changeWp_shape c wp; rw [h]
@[simp] theorem changeWp_atm (c : Core) (wp : Nat) : (changeWp c wp).atm = c.atm := by
  obtain ⟨_, _, _, _, h⟩ := changeWp_shape c wp; rw [h]
@[simp] theorem changeWp_pendDst (c : Core) (wp : Nat) : (changeWp c wp).pendDst = c.pendDst := by
  obtain ⟨_, _, _, _, h⟩ := changeWp_shape c wp; rw [h]
@[simp] theorem changeWp_acqWait (c : Core) (wp : Nat) : (changeWp c wp).acqWait = c.acqWait := by
  obtain ⟨_, _, _, _, h⟩ := changeWp_shape c wp; rw [h]
@[simp] theorem changeWp_fenceSt (c : Core) (wp : Nat) : (changeWp c wp).fenceSt = c.fenceSt := by
  obtain ⟨_, _, _, _, h⟩ := changeWp_shape c wp; rw [h]
@[simp] theorem changeWp_fenceDst (c : Core) (wp : Nat) : (changeWp c wp).fenceDst = c.fenceDst := by
  obtain ⟨_, _, _, _, h⟩ := changeWp_shape c wp; rw [h]
@[simp] theorem changeWp_pc (c : Core) (wp : Nat) : (changeWp c wp).pc = c.pc := by
  obtain ⟨_, _, _, _, h⟩ := changeWp_shape c wp; rw [h]
@[simp] theorem changeWp_bcMode (c : Core) (wp : Nat) : (changeWp c wp).bcMode = c.bcMode := by
  obtain ⟨_, _, _, _, h⟩ := changeWp_shape c wp; rw [h]
@[simp] theorem changeWp_run (c : Core) (wp : Nat) : (changeWp c wp).run = c.run := by
  obtain ⟨_, _, _, _, h⟩ := changeWp_shape c wp; rw [h]
@[simp] theorem changeWp_last (c : Core) (wp : Nat) : (changeWp c wp).last = c.last := by
  obtain ⟨_, _, _, _, h⟩ := changeWp_shape c wp; rw [h]
@[simp] theorem changeWp_budget (c : Core) (wp : Nat) : (changeWp c wp).budget = c.budget := by
  obtain ⟨_, _, _, _, h⟩ := changeWp_shape c wp; rw [h]
@[simp] theorem changeWp_hbudget (c : Core) (wp : Nat) : (changeWp c wp).hbudget = c.hbudget := by
  obtain ⟨_, _, _, _, h⟩ := changeWp_shape c wp; rw [h]
@[simp] theorem changeWp_lframe (c : Core) (wp : Nat) : (changeWp c wp).lframe = c.lframe := by
  obtain ⟨_, _, _, _, h⟩ := changeWp_shape c wp; rw [h]
@[simp] theorem changeWp_tframe (c : Core) (wp : Nat) : (changeWp c wp).tframe = c.tframe := by
  obtain ⟨_, _, _, _, h⟩ := changeWp_shape c wp; rw [h]
@[simp] theorem changeWp_vpend (c : Core) (wp : Nat) : (changeWp c wp).vpend = c.vpend := by
  obtain ⟨_, _, _, _, h⟩ := changeWp_shape c wp; rw [h]
@[simp] theorem changeWp_fifoWp (c : Core) (wp : Nat) : (changeWp c wp).fifoWp = c.fifoWp := by
  obtain ⟨_, _, _, _, h⟩ := changeWp_shape c wp; rw [h]
@[simp] theorem changeWp_h3fifo (c : Core) (wp : Nat) : (changeWp c wp).h3fifo = c.h3fifo := by
  obtain ⟨_, _, _, _, h⟩ := changeWp_shape c wp; rw [h]
@[simp] theorem changeWp_sleeping (c : Core) (wp : Nat) : (changeWp c wp).sleeping = c.sleeping := by
  obtain ⟨_, _, _, _, h⟩ := changeWp_shape c wp; rw [h]
@[simp] theorem changeWp_bpend (c : Core) (wp : Nat) : (changeWp c wp).bpend = c.bpend := by
  obtain ⟨_, _, _, _, h⟩ := changeWp_shape c wp; rw [h]
@[simp] theorem changeWp_chans (c : Core) (wp : Nat) : (changeWp c wp).chans = c.chans := by
  obtain ⟨_, _, _, _, h⟩ := changeWp_shape c wp; rw [h]
@[simp] theorem changeWp_hdrs (c : Core) (wp : Nat) : (changeWp c wp).hdrs = c.hdrs := by
  obtain ⟨_, _, _, _, h⟩ := changeWp_shape c wp; rw [h]
@[simp] theorem changeWp_landing (c : Core) (wp : Nat) : (changeWp c wp).landing = c.landing := by
  obtain ⟨_, _, _, _, h⟩ := changeWp_shape c wp; rw [h]
@[simp] theorem changeWp_sbuf (c : Core) (wp : Nat) : (changeWp c wp).sbuf = c.sbuf := by
  obtain ⟨_, _, _, _, h⟩ := changeWp_shape c wp; rw [h]
@[simp] theorem changeWp_sout (c : Core) (wp : Nat) : (changeWp c wp).sout = c.sout := by
  obtain ⟨_, _, _, _, h⟩ := changeWp_shape c wp; rw [h]
@[simp] theorem changeWp_midc (c : Core) (wp : Nat) : (changeWp c wp).midc = c.midc := by
  obtain ⟨_, _, _, _, h⟩ := changeWp_shape c wp; rw [h]
@[simp] theorem changeWp_firings (c : Core) (wp : Nat) : (changeWp c wp).firings = c.firings := by
  obtain ⟨_, _, _, _, h⟩ := changeWp_shape c wp; rw [h]
@[simp] theorem changeWp_retired (c : Core) (wp : Nat) : (changeWp c wp).retired = c.retired := by
  obtain ⟨_, _, _, _, h⟩ := changeWp_shape c wp; rw [h]
@[simp] theorem changeWp_cancels (c : Core) (wp : Nat) : (changeWp c wp).cancels = c.cancels := by
  obtain ⟨_, _, _, _, h⟩ := changeWp_shape c wp; rw [h]
@[simp] theorem changeWp_tiles (c : Core) (wp : Nat) : (changeWp c wp).tiles = c.tiles := by
  obtain ⟨_, _, _, _, h⟩ := changeWp_shape c wp; rw [h]
@[simp] theorem changeWp_jobc (c : Core) (wp : Nat) : (changeWp c wp).jobc = c.jobc := by
  obtain ⟨_, _, _, _, h⟩ := changeWp_shape c wp; rw [h]
@[simp] theorem changeWp_jobs (c : Core) (wp : Nat) : (changeWp c wp).jobs = c.jobs := by
  obtain ⟨_, _, _, _, h⟩ := changeWp_shape c wp; rw [h]
@[simp] theorem changeWp_acc (c : Core) (wp : Nat) : (changeWp c wp).acc = c.acc := by
  obtain ⟨_, _, _, _, h⟩ := changeWp_shape c wp; rw [h]
@[simp] theorem changeWp_kctx (c : Core) (wp : Nat) : (changeWp c wp).kctx = c.kctx := by
  obtain ⟨_, _, _, _, h⟩ := changeWp_shape c wp; rw [h]
@[simp] theorem changeWp_kout (c : Core) (wp : Nat) : (changeWp c wp).kout = c.kout := by
  obtain ⟨_, _, _, _, h⟩ := changeWp_shape c wp; rw [h]
@[simp] theorem changeWp_kheld (c : Core) (wp : Nat) : (changeWp c wp).kheld = c.kheld := by
  obtain ⟨_, _, _, _, h⟩ := changeWp_shape c wp; rw [h]
@[simp] theorem changeWp_kgc (c : Core) (wp : Nat) : (changeWp c wp).kgc = c.kgc := by
  obtain ⟨_, _, _, _, h⟩ := changeWp_shape c wp; rw [h]
@[simp] theorem changeWp_kreq (c : Core) (wp : Nat) : (changeWp c wp).kreq = c.kreq := by
  obtain ⟨_, _, _, _, h⟩ := changeWp_shape c wp; rw [h]
@[simp] theorem changeWp_kverd (c : Core) (wp : Nat) : (changeWp c wp).kverd = c.kverd := by
  obtain ⟨_, _, _, _, h⟩ := changeWp_shape c wp; rw [h]
@[simp] theorem changeWp_grants (c : Core) (wp : Nat) : (changeWp c wp).grants = c.grants := by
  obtain ⟨_, _, _, _, h⟩ := changeWp_shape c wp; rw [h]
@[simp] theorem changeWp_lreq (c : Core) (wp : Nat) : (changeWp c wp).lreq = c.lreq := by
  obtain ⟨_, _, _, _, h⟩ := changeWp_shape c wp; rw [h]
@[simp] theorem changeWp_gbarc (c : Core) (wp : Nat) : (changeWp c wp).gbarc = c.gbarc := by
  obtain ⟨_, _, _, _, h⟩ := changeWp_shape c wp; rw [h]
@[simp] theorem changeWp_gbarIn (c : Core) (wp : Nat) : (changeWp c wp).gbarIn = c.gbarIn := by
  obtain ⟨_, _, _, _, h⟩ := changeWp_shape c wp; rw [h]
@[simp] theorem changeWp_gbarOut (c : Core) (wp : Nat) : (changeWp c wp).gbarOut = c.gbarOut := by
  obtain ⟨_, _, _, _, h⟩ := changeWp_shape c wp; rw [h]
@[simp] theorem changeWp_cwait (c : Core) (wp : Nat) : (changeWp c wp).cwait = c.cwait := by
  obtain ⟨_, _, _, _, h⟩ := changeWp_shape c wp; rw [h]
@[simp] theorem changeWp_ttb (c : Core) (wp : Nat) : (changeWp c wp).ttb = c.ttb := by
  obtain ⟨_, _, _, _, h⟩ := changeWp_shape c wp; rw [h]
@[simp] theorem changeWp_att (c : Core) (wp : Nat) : (changeWp c wp).att = c.att := by
  obtain ⟨_, _, _, _, h⟩ := changeWp_shape c wp; rw [h]
@[simp] theorem changeWp_tlb (c : Core) (wp : Nat) : (changeWp c wp).tlb = c.tlb := by
  obtain ⟨_, _, _, _, h⟩ := changeWp_shape c wp; rw [h]
@[simp] theorem changeWp_parked (c : Core) (wp : Nat) : (changeWp c wp).parked = c.parked := by
  obtain ⟨_, _, _, _, h⟩ := changeWp_shape c wp; rw [h]
@[simp] theorem changeWp_tres (c : Core) (wp : Nat) : (changeWp c wp).tres = c.tres := by
  obtain ⟨_, _, _, _, h⟩ := changeWp_shape c wp; rw [h]
@[simp] theorem changeWp_life (c : Core) (wp : Nat) : (changeWp c wp).life = c.life := by
  obtain ⟨_, _, _, _, h⟩ := changeWp_shape c wp; rw [h]
@[simp] theorem changeWp_ctx (c : Core) (wp : Nat) : (changeWp c wp).ctx = c.ctx := by
  obtain ⟨_, _, _, _, h⟩ := changeWp_shape c wp; rw [h]
@[simp] theorem changeWp_launch (c : Core) (wp : Nat) : (changeWp c wp).launch = c.launch := by
  obtain ⟨_, _, _, _, h⟩ := changeWp_shape c wp; rw [h]
@[simp] theorem changeWp_logical (c : Core) (wp : Nat) : (changeWp c wp).logical = c.logical := by
  obtain ⟨_, _, _, _, h⟩ := changeWp_shape c wp; rw [h]
@[simp] theorem changeWp_gang (c : Core) (wp : Nat) : (changeWp c wp).gang = c.gang := by
  obtain ⟨_, _, _, _, h⟩ := changeWp_shape c wp; rw [h]
@[simp] theorem changeWp_sup (c : Core) (wp : Nat) : (changeWp c wp).sup = c.sup := by
  obtain ⟨_, _, _, _, h⟩ := changeWp_shape c wp; rw [h]
@[simp] theorem changeWp_preReq (c : Core) (wp : Nat) : (changeWp c wp).preReq = c.preReq := by
  obtain ⟨_, _, _, _, h⟩ := changeWp_shape c wp; rw [h]
@[simp] theorem changeWp_sliceExp (c : Core) (wp : Nat) : (changeWp c wp).sliceExp = c.sliceExp := by
  obtain ⟨_, _, _, _, h⟩ := changeWp_shape c wp; rw [h]
@[simp] theorem changeWp_tcfg (c : Core) (wp : Nat) : (changeWp c wp).tcfg = c.tcfg := by
  obtain ⟨_, _, _, _, h⟩ := changeWp_shape c wp; rw [h]
@[simp] theorem changeWp_tent (c : Core) (wp : Nat) : (changeWp c wp).tent = c.tent := by
  obtain ⟨_, _, _, _, h⟩ := changeWp_shape c wp; rw [h]
@[simp] theorem changeWp_kstall (c : Core) (wp : Nat) : (changeWp c wp).kstall = c.kstall := by
  obtain ⟨_, _, _, _, h⟩ := changeWp_shape c wp; rw [h]
@[simp] theorem changeWp_eccL (c : Core) (wp : Nat) : (changeWp c wp).eccL = c.eccL := by
  obtain ⟨_, _, _, _, h⟩ := changeWp_shape c wp; rw [h]
@[simp] theorem changeWp_eccR (c : Core) (wp : Nat) : (changeWp c wp).eccR = c.eccR := by
  obtain ⟨_, _, _, _, h⟩ := changeWp_shape c wp; rw [h]
@[simp] theorem changeWp_bhtab (c : Core) (wp : Nat) : (changeWp c wp).bhtab = c.bhtab := by
  obtain ⟨_, _, _, _, h⟩ := changeWp_shape c wp; rw [h]
@[simp] theorem changeWp_ltab (c : Core) (wp : Nat) : (changeWp c wp).ltab = c.ltab := by
  obtain ⟨_, _, _, _, h⟩ := changeWp_shape c wp; rw [h]
@[simp] theorem changeWp_bscr (c : Core) (wp : Nat) : (changeWp c wp).bscr = c.bscr := by
  obtain ⟨_, _, _, _, h⟩ := changeWp_shape c wp; rw [h]
@[simp] theorem changeWp_rring (c : Core) (wp : Nat) : (changeWp c wp).rring = c.rring := by
  obtain ⟨_, _, _, _, h⟩ := changeWp_shape c wp; rw [h]
@[simp] theorem changeWp_lines (c : Core) (wp : Nat) : (changeWp c wp).lines = c.lines := by
  obtain ⟨_, _, _, _, h⟩ := changeWp_shape c wp; rw [h]
@[simp] theorem changeWp_fillWait (c : Core) (wp : Nat) : (changeWp c wp).fillWait = c.fillWait := by
  obtain ⟨_, _, _, _, h⟩ := changeWp_shape c wp; rw [h]
@[simp] theorem changeWp_ic (c : Core) (wp : Nat) : (changeWp c wp).ic = c.ic := by
  obtain ⟨_, _, _, _, h⟩ := changeWp_shape c wp; rw [h]
@[simp] theorem changeWp_pst (c : Core) (wp : Nat) : (changeWp c wp).pst = c.pst := by
  obtain ⟨_, _, _, _, h⟩ := changeWp_shape c wp; rw [h]
@[simp] theorem changeWp_partner (c : Core) (wp : Nat) : (changeWp c wp).partner = c.partner := by
  obtain ⟨_, _, _, _, h⟩ := changeWp_shape c wp; rw [h]
@[simp] theorem changeWp_mism (c : Core) (wp : Nat) : (changeWp c wp).mism = c.mism := by
  obtain ⟨_, _, _, _, h⟩ := changeWp_shape c wp; rw [h]
@[simp] theorem changeWp_pairReq (c : Core) (wp : Nat) : (changeWp c wp).pairReq = c.pairReq := by
  obtain ⟨_, _, _, _, h⟩ := changeWp_shape c wp; rw [h]
@[simp] theorem changeWp_pairRuns (c : Core) (wp : Nat) : (changeWp c wp).pairRuns = c.pairRuns := by
  obtain ⟨_, _, _, _, h⟩ := changeWp_shape c wp; rw [h]
@[simp] theorem changeWp_wp (c : Core) (wp : Nat) : (changeWp c wp).wp = wp := by
  obtain ⟨_, _, _, _, h⟩ := changeWp_shape c wp; rw [h]
@[simp] theorem changeWp_own (c : Core) (wp : Nat) : (changeWp c wp).own = c.own := by
  obtain ⟨_, _, _, _, h⟩ := changeWp_shape c wp; rw [h]
@[simp] theorem changeWp_ccyc (c : Core) (wp : Nat) : (changeWp c wp).ccyc = c.ccyc := by
  obtain ⟨_, _, _, _, h⟩ := changeWp_shape c wp; rw [h]
@[simp] theorem changeWp_late (c : Core) (wp : Nat) : (changeWp c wp).late = c.late := by
  obtain ⟨_, _, _, _, h⟩ := changeWp_shape c wp; rw [h]
@[simp] theorem changeWp_owed (c : Core) (wp : Nat) : (changeWp c wp).owed = c.owed := by
  obtain ⟨_, _, _, _, h⟩ := changeWp_shape c wp; rw [h]
@[simp] theorem changeWp_drainp (c : Core) (wp : Nat) : (changeWp c wp).drainp = c.drainp := by
  obtain ⟨_, _, _, _, h⟩ := changeWp_shape c wp; rw [h]
@[simp] theorem changeWp_lgot (c : Core) (wp : Nat) : (changeWp c wp).lgot = c.lgot := by
  obtain ⟨_, _, _, _, h⟩ := changeWp_shape c wp; rw [h]
@[simp] theorem changeWp_tlbw (c : Core) (wp : Nat) : (changeWp c wp).tlbw = c.tlbw := by
  obtain ⟨_, _, _, _, h⟩ := changeWp_shape c wp; rw [h]
@[simp] theorem charge_cls (c : Core) (n : Nat) : (c.charge n).cls = c.cls := by
  obtain ⟨_, _, h⟩ := charge_shape c n; rw [h]
@[simp] theorem charge_ls (c : Core) (n : Nat) : (c.charge n).ls = c.ls := by
  obtain ⟨_, _, h⟩ := charge_shape c n; rw [h]
@[simp] theorem charge_sh (c : Core) (n : Nat) : (c.charge n).sh = c.sh := by
  obtain ⟨_, _, h⟩ := charge_shape c n; rw [h]
@[simp] theorem charge_wp (c : Core) (n : Nat) : (c.charge n).wp = c.wp := by
  obtain ⟨_, _, h⟩ := charge_shape c n; rw [h]
@[simp] theorem charge_flags (c : Core) (n : Nat) : (c.charge n).flags = c.flags := by
  obtain ⟨_, _, h⟩ := charge_shape c n; rw [h]
@[simp] theorem charge_mask (c : Core) (n : Nat) : (c.charge n).mask = c.mask := by
  obtain ⟨_, _, h⟩ := charge_shape c n; rw [h]
@[simp] theorem charge_ctf (c : Core) (n : Nat) : (c.charge n).ctf = c.ctf := by
  obtain ⟨_, _, h⟩ := charge_shape c n; rw [h]
@[simp] theorem charge_ctb (c : Core) (n : Nat) : (c.charge n).ctb = c.ctb := by
  obtain ⟨_, _, h⟩ := charge_shape c n; rw [h]
@[simp] theorem charge_ctm (c : Core) (n : Nat) : (c.charge n).ctm = c.ctm := by
  obtain ⟨_, _, h⟩ := charge_shape c n; rw [h]
@[simp] theorem charge_ldo (c : Core) (n : Nat) : (c.charge n).ldo = c.ldo := by
  obtain ⟨_, _, h⟩ := charge_shape c n; rw [h]
@[simp] theorem charge_atm (c : Core) (n : Nat) : (c.charge n).atm = c.atm := by
  obtain ⟨_, _, h⟩ := charge_shape c n; rw [h]
@[simp] theorem charge_pendDst (c : Core) (n : Nat) : (c.charge n).pendDst = c.pendDst := by
  obtain ⟨_, _, h⟩ := charge_shape c n; rw [h]
@[simp] theorem charge_acqWait (c : Core) (n : Nat) : (c.charge n).acqWait = c.acqWait := by
  obtain ⟨_, _, h⟩ := charge_shape c n; rw [h]
@[simp] theorem charge_fenceSt (c : Core) (n : Nat) : (c.charge n).fenceSt = c.fenceSt := by
  obtain ⟨_, _, h⟩ := charge_shape c n; rw [h]
@[simp] theorem charge_fenceDst (c : Core) (n : Nat) : (c.charge n).fenceDst = c.fenceDst := by
  obtain ⟨_, _, h⟩ := charge_shape c n; rw [h]
@[simp] theorem charge_pc (c : Core) (n : Nat) : (c.charge n).pc = c.pc := by
  obtain ⟨_, _, h⟩ := charge_shape c n; rw [h]
@[simp] theorem charge_bcMode (c : Core) (n : Nat) : (c.charge n).bcMode = c.bcMode := by
  obtain ⟨_, _, h⟩ := charge_shape c n; rw [h]
@[simp] theorem charge_run (c : Core) (n : Nat) : (c.charge n).run = c.run := by
  obtain ⟨_, _, h⟩ := charge_shape c n; rw [h]
@[simp] theorem charge_last (c : Core) (n : Nat) : (c.charge n).last = c.last := by
  obtain ⟨_, _, h⟩ := charge_shape c n; rw [h]
@[simp] theorem charge_lframe (c : Core) (n : Nat) : (c.charge n).lframe = c.lframe := by
  obtain ⟨_, _, h⟩ := charge_shape c n; rw [h]
@[simp] theorem charge_tframe (c : Core) (n : Nat) : (c.charge n).tframe = c.tframe := by
  obtain ⟨_, _, h⟩ := charge_shape c n; rw [h]
@[simp] theorem charge_vpend (c : Core) (n : Nat) : (c.charge n).vpend = c.vpend := by
  obtain ⟨_, _, h⟩ := charge_shape c n; rw [h]
@[simp] theorem charge_fifoWp (c : Core) (n : Nat) : (c.charge n).fifoWp = c.fifoWp := by
  obtain ⟨_, _, h⟩ := charge_shape c n; rw [h]
@[simp] theorem charge_h3fifo (c : Core) (n : Nat) : (c.charge n).h3fifo = c.h3fifo := by
  obtain ⟨_, _, h⟩ := charge_shape c n; rw [h]
@[simp] theorem charge_sleeping (c : Core) (n : Nat) : (c.charge n).sleeping = c.sleeping := by
  obtain ⟨_, _, h⟩ := charge_shape c n; rw [h]
@[simp] theorem charge_bpend (c : Core) (n : Nat) : (c.charge n).bpend = c.bpend := by
  obtain ⟨_, _, h⟩ := charge_shape c n; rw [h]
@[simp] theorem charge_chans (c : Core) (n : Nat) : (c.charge n).chans = c.chans := by
  obtain ⟨_, _, h⟩ := charge_shape c n; rw [h]
@[simp] theorem charge_hdrs (c : Core) (n : Nat) : (c.charge n).hdrs = c.hdrs := by
  obtain ⟨_, _, h⟩ := charge_shape c n; rw [h]
@[simp] theorem charge_landing (c : Core) (n : Nat) : (c.charge n).landing = c.landing := by
  obtain ⟨_, _, h⟩ := charge_shape c n; rw [h]
@[simp] theorem charge_sbuf (c : Core) (n : Nat) : (c.charge n).sbuf = c.sbuf := by
  obtain ⟨_, _, h⟩ := charge_shape c n; rw [h]
@[simp] theorem charge_sout (c : Core) (n : Nat) : (c.charge n).sout = c.sout := by
  obtain ⟨_, _, h⟩ := charge_shape c n; rw [h]
@[simp] theorem charge_midc (c : Core) (n : Nat) : (c.charge n).midc = c.midc := by
  obtain ⟨_, _, h⟩ := charge_shape c n; rw [h]
@[simp] theorem charge_firings (c : Core) (n : Nat) : (c.charge n).firings = c.firings := by
  obtain ⟨_, _, h⟩ := charge_shape c n; rw [h]
@[simp] theorem charge_retired (c : Core) (n : Nat) : (c.charge n).retired = c.retired := by
  obtain ⟨_, _, h⟩ := charge_shape c n; rw [h]
@[simp] theorem charge_cancels (c : Core) (n : Nat) : (c.charge n).cancels = c.cancels := by
  obtain ⟨_, _, h⟩ := charge_shape c n; rw [h]
@[simp] theorem charge_tiles (c : Core) (n : Nat) : (c.charge n).tiles = c.tiles := by
  obtain ⟨_, _, h⟩ := charge_shape c n; rw [h]
@[simp] theorem charge_jobc (c : Core) (n : Nat) : (c.charge n).jobc = c.jobc := by
  obtain ⟨_, _, h⟩ := charge_shape c n; rw [h]
@[simp] theorem charge_jobs (c : Core) (n : Nat) : (c.charge n).jobs = c.jobs := by
  obtain ⟨_, _, h⟩ := charge_shape c n; rw [h]
@[simp] theorem charge_acc (c : Core) (n : Nat) : (c.charge n).acc = c.acc := by
  obtain ⟨_, _, h⟩ := charge_shape c n; rw [h]
@[simp] theorem charge_kctx (c : Core) (n : Nat) : (c.charge n).kctx = c.kctx := by
  obtain ⟨_, _, h⟩ := charge_shape c n; rw [h]
@[simp] theorem charge_kout (c : Core) (n : Nat) : (c.charge n).kout = c.kout := by
  obtain ⟨_, _, h⟩ := charge_shape c n; rw [h]
@[simp] theorem charge_kheld (c : Core) (n : Nat) : (c.charge n).kheld = c.kheld := by
  obtain ⟨_, _, h⟩ := charge_shape c n; rw [h]
@[simp] theorem charge_kgc (c : Core) (n : Nat) : (c.charge n).kgc = c.kgc := by
  obtain ⟨_, _, h⟩ := charge_shape c n; rw [h]
@[simp] theorem charge_kreq (c : Core) (n : Nat) : (c.charge n).kreq = c.kreq := by
  obtain ⟨_, _, h⟩ := charge_shape c n; rw [h]
@[simp] theorem charge_kverd (c : Core) (n : Nat) : (c.charge n).kverd = c.kverd := by
  obtain ⟨_, _, h⟩ := charge_shape c n; rw [h]
@[simp] theorem charge_grants (c : Core) (n : Nat) : (c.charge n).grants = c.grants := by
  obtain ⟨_, _, h⟩ := charge_shape c n; rw [h]
@[simp] theorem charge_lreq (c : Core) (n : Nat) : (c.charge n).lreq = c.lreq := by
  obtain ⟨_, _, h⟩ := charge_shape c n; rw [h]
@[simp] theorem charge_gbarc (c : Core) (n : Nat) : (c.charge n).gbarc = c.gbarc := by
  obtain ⟨_, _, h⟩ := charge_shape c n; rw [h]
@[simp] theorem charge_gbarIn (c : Core) (n : Nat) : (c.charge n).gbarIn = c.gbarIn := by
  obtain ⟨_, _, h⟩ := charge_shape c n; rw [h]
@[simp] theorem charge_gbarOut (c : Core) (n : Nat) : (c.charge n).gbarOut = c.gbarOut := by
  obtain ⟨_, _, h⟩ := charge_shape c n; rw [h]
@[simp] theorem charge_cwait (c : Core) (n : Nat) : (c.charge n).cwait = c.cwait := by
  obtain ⟨_, _, h⟩ := charge_shape c n; rw [h]
@[simp] theorem charge_ttb (c : Core) (n : Nat) : (c.charge n).ttb = c.ttb := by
  obtain ⟨_, _, h⟩ := charge_shape c n; rw [h]
@[simp] theorem charge_att (c : Core) (n : Nat) : (c.charge n).att = c.att := by
  obtain ⟨_, _, h⟩ := charge_shape c n; rw [h]
@[simp] theorem charge_tlb (c : Core) (n : Nat) : (c.charge n).tlb = c.tlb := by
  obtain ⟨_, _, h⟩ := charge_shape c n; rw [h]
@[simp] theorem charge_parked (c : Core) (n : Nat) : (c.charge n).parked = c.parked := by
  obtain ⟨_, _, h⟩ := charge_shape c n; rw [h]
@[simp] theorem charge_tres (c : Core) (n : Nat) : (c.charge n).tres = c.tres := by
  obtain ⟨_, _, h⟩ := charge_shape c n; rw [h]
@[simp] theorem charge_life (c : Core) (n : Nat) : (c.charge n).life = c.life := by
  obtain ⟨_, _, h⟩ := charge_shape c n; rw [h]
@[simp] theorem charge_ctx (c : Core) (n : Nat) : (c.charge n).ctx = c.ctx := by
  obtain ⟨_, _, h⟩ := charge_shape c n; rw [h]
@[simp] theorem charge_launch (c : Core) (n : Nat) : (c.charge n).launch = c.launch := by
  obtain ⟨_, _, h⟩ := charge_shape c n; rw [h]
@[simp] theorem charge_logical (c : Core) (n : Nat) : (c.charge n).logical = c.logical := by
  obtain ⟨_, _, h⟩ := charge_shape c n; rw [h]
@[simp] theorem charge_gang (c : Core) (n : Nat) : (c.charge n).gang = c.gang := by
  obtain ⟨_, _, h⟩ := charge_shape c n; rw [h]
@[simp] theorem charge_sup (c : Core) (n : Nat) : (c.charge n).sup = c.sup := by
  obtain ⟨_, _, h⟩ := charge_shape c n; rw [h]
@[simp] theorem charge_preReq (c : Core) (n : Nat) : (c.charge n).preReq = c.preReq := by
  obtain ⟨_, _, h⟩ := charge_shape c n; rw [h]
@[simp] theorem charge_sliceExp (c : Core) (n : Nat) : (c.charge n).sliceExp = c.sliceExp := by
  obtain ⟨_, _, h⟩ := charge_shape c n; rw [h]
@[simp] theorem charge_tcfg (c : Core) (n : Nat) : (c.charge n).tcfg = c.tcfg := by
  obtain ⟨_, _, h⟩ := charge_shape c n; rw [h]
@[simp] theorem charge_tent (c : Core) (n : Nat) : (c.charge n).tent = c.tent := by
  obtain ⟨_, _, h⟩ := charge_shape c n; rw [h]
@[simp] theorem charge_kstall (c : Core) (n : Nat) : (c.charge n).kstall = c.kstall := by
  obtain ⟨_, _, h⟩ := charge_shape c n; rw [h]
@[simp] theorem charge_eccL (c : Core) (n : Nat) : (c.charge n).eccL = c.eccL := by
  obtain ⟨_, _, h⟩ := charge_shape c n; rw [h]
@[simp] theorem charge_eccR (c : Core) (n : Nat) : (c.charge n).eccR = c.eccR := by
  obtain ⟨_, _, h⟩ := charge_shape c n; rw [h]
@[simp] theorem charge_bhtab (c : Core) (n : Nat) : (c.charge n).bhtab = c.bhtab := by
  obtain ⟨_, _, h⟩ := charge_shape c n; rw [h]
@[simp] theorem charge_ltab (c : Core) (n : Nat) : (c.charge n).ltab = c.ltab := by
  obtain ⟨_, _, h⟩ := charge_shape c n; rw [h]
@[simp] theorem charge_bscr (c : Core) (n : Nat) : (c.charge n).bscr = c.bscr := by
  obtain ⟨_, _, h⟩ := charge_shape c n; rw [h]
@[simp] theorem charge_rring (c : Core) (n : Nat) : (c.charge n).rring = c.rring := by
  obtain ⟨_, _, h⟩ := charge_shape c n; rw [h]
@[simp] theorem charge_lines (c : Core) (n : Nat) : (c.charge n).lines = c.lines := by
  obtain ⟨_, _, h⟩ := charge_shape c n; rw [h]
@[simp] theorem charge_fillWait (c : Core) (n : Nat) : (c.charge n).fillWait = c.fillWait := by
  obtain ⟨_, _, h⟩ := charge_shape c n; rw [h]
@[simp] theorem charge_ic (c : Core) (n : Nat) : (c.charge n).ic = c.ic := by
  obtain ⟨_, _, h⟩ := charge_shape c n; rw [h]
@[simp] theorem charge_pst (c : Core) (n : Nat) : (c.charge n).pst = c.pst := by
  obtain ⟨_, _, h⟩ := charge_shape c n; rw [h]
@[simp] theorem charge_partner (c : Core) (n : Nat) : (c.charge n).partner = c.partner := by
  obtain ⟨_, _, h⟩ := charge_shape c n; rw [h]
@[simp] theorem charge_mism (c : Core) (n : Nat) : (c.charge n).mism = c.mism := by
  obtain ⟨_, _, h⟩ := charge_shape c n; rw [h]
@[simp] theorem charge_pairReq (c : Core) (n : Nat) : (c.charge n).pairReq = c.pairReq := by
  obtain ⟨_, _, h⟩ := charge_shape c n; rw [h]
@[simp] theorem charge_pairRuns (c : Core) (n : Nat) : (c.charge n).pairRuns = c.pairRuns := by
  obtain ⟨_, _, h⟩ := charge_shape c n; rw [h]
@[simp] theorem charge_own (c : Core) (n : Nat) : (c.charge n).own = c.own := by
  obtain ⟨_, _, h⟩ := charge_shape c n; rw [h]
@[simp] theorem charge_ccyc (c : Core) (n : Nat) : (c.charge n).ccyc = c.ccyc := by
  obtain ⟨_, _, h⟩ := charge_shape c n; rw [h]
@[simp] theorem charge_late (c : Core) (n : Nat) : (c.charge n).late = c.late := by
  obtain ⟨_, _, h⟩ := charge_shape c n; rw [h]
@[simp] theorem charge_owed (c : Core) (n : Nat) : (c.charge n).owed = c.owed := by
  obtain ⟨_, _, h⟩ := charge_shape c n; rw [h]
@[simp] theorem charge_drainp (c : Core) (n : Nat) : (c.charge n).drainp = c.drainp := by
  obtain ⟨_, _, h⟩ := charge_shape c n; rw [h]
@[simp] theorem charge_lgot (c : Core) (n : Nat) : (c.charge n).lgot = c.lgot := by
  obtain ⟨_, _, h⟩ := charge_shape c n; rw [h]
@[simp] theorem charge_tlbw (c : Core) (n : Nat) : (c.charge n).tlbw = c.tlbw := by
  obtain ⟨_, _, h⟩ := charge_shape c n; rw [h]
@[simp] theorem issue_cls (c : Core) (n st : Nat) : (c.issue n st).cls = c.cls := by
  obtain ⟨_, _, _, _, h⟩ := issue_shape c n st; rw [h]
@[simp] theorem issue_ls (c : Core) (n st : Nat) : (c.issue n st).ls = c.ls := by
  obtain ⟨_, _, _, _, h⟩ := issue_shape c n st; rw [h]
@[simp] theorem issue_sh (c : Core) (n st : Nat) : (c.issue n st).sh = c.sh := by
  obtain ⟨_, _, _, _, h⟩ := issue_shape c n st; rw [h]
@[simp] theorem issue_wp (c : Core) (n st : Nat) : (c.issue n st).wp = c.wp := by
  obtain ⟨_, _, _, _, h⟩ := issue_shape c n st; rw [h]
@[simp] theorem issue_flags (c : Core) (n st : Nat) : (c.issue n st).flags = c.flags := by
  obtain ⟨_, _, _, _, h⟩ := issue_shape c n st; rw [h]
@[simp] theorem issue_mask (c : Core) (n st : Nat) : (c.issue n st).mask = c.mask := by
  obtain ⟨_, _, _, _, h⟩ := issue_shape c n st; rw [h]
@[simp] theorem issue_ctf (c : Core) (n st : Nat) : (c.issue n st).ctf = c.ctf := by
  obtain ⟨_, _, _, _, h⟩ := issue_shape c n st; rw [h]
@[simp] theorem issue_ctb (c : Core) (n st : Nat) : (c.issue n st).ctb = c.ctb := by
  obtain ⟨_, _, _, _, h⟩ := issue_shape c n st; rw [h]
@[simp] theorem issue_ctm (c : Core) (n st : Nat) : (c.issue n st).ctm = c.ctm := by
  obtain ⟨_, _, _, _, h⟩ := issue_shape c n st; rw [h]
@[simp] theorem issue_ldo (c : Core) (n st : Nat) : (c.issue n st).ldo = c.ldo := by
  obtain ⟨_, _, _, _, h⟩ := issue_shape c n st; rw [h]
@[simp] theorem issue_atm (c : Core) (n st : Nat) : (c.issue n st).atm = c.atm := by
  obtain ⟨_, _, _, _, h⟩ := issue_shape c n st; rw [h]
@[simp] theorem issue_pendDst (c : Core) (n st : Nat) : (c.issue n st).pendDst = c.pendDst := by
  obtain ⟨_, _, _, _, h⟩ := issue_shape c n st; rw [h]
@[simp] theorem issue_acqWait (c : Core) (n st : Nat) : (c.issue n st).acqWait = c.acqWait := by
  obtain ⟨_, _, _, _, h⟩ := issue_shape c n st; rw [h]
@[simp] theorem issue_fenceSt (c : Core) (n st : Nat) : (c.issue n st).fenceSt = c.fenceSt := by
  obtain ⟨_, _, _, _, h⟩ := issue_shape c n st; rw [h]
@[simp] theorem issue_fenceDst (c : Core) (n st : Nat) : (c.issue n st).fenceDst = c.fenceDst := by
  obtain ⟨_, _, _, _, h⟩ := issue_shape c n st; rw [h]
@[simp] theorem issue_own (c : Core) (n st : Nat) : (c.issue n st).own = c.own := by
  obtain ⟨_, _, _, _, h⟩ := issue_shape c n st; rw [h]
@[simp] theorem issue_pc (c : Core) (n st : Nat) : (c.issue n st).pc = c.pc := by
  obtain ⟨_, _, _, _, h⟩ := issue_shape c n st; rw [h]
@[simp] theorem issue_bcMode (c : Core) (n st : Nat) : (c.issue n st).bcMode = c.bcMode := by
  obtain ⟨_, _, _, _, h⟩ := issue_shape c n st; rw [h]
@[simp] theorem issue_run (c : Core) (n st : Nat) : (c.issue n st).run = c.run := by
  obtain ⟨_, _, _, _, h⟩ := issue_shape c n st; rw [h]
@[simp] theorem issue_last (c : Core) (n st : Nat) : (c.issue n st).last = c.last := by
  obtain ⟨_, _, _, _, h⟩ := issue_shape c n st; rw [h]
@[simp] theorem issue_lframe (c : Core) (n st : Nat) : (c.issue n st).lframe = c.lframe := by
  obtain ⟨_, _, _, _, h⟩ := issue_shape c n st; rw [h]
@[simp] theorem issue_tframe (c : Core) (n st : Nat) : (c.issue n st).tframe = c.tframe := by
  obtain ⟨_, _, _, _, h⟩ := issue_shape c n st; rw [h]
@[simp] theorem issue_ccyc (c : Core) (n st : Nat) : (c.issue n st).ccyc = c.ccyc := by
  obtain ⟨_, _, _, _, h⟩ := issue_shape c n st; rw [h]
@[simp] theorem issue_vpend (c : Core) (n st : Nat) : (c.issue n st).vpend = c.vpend := by
  obtain ⟨_, _, _, _, h⟩ := issue_shape c n st; rw [h]
@[simp] theorem issue_fifoWp (c : Core) (n st : Nat) : (c.issue n st).fifoWp = c.fifoWp := by
  obtain ⟨_, _, _, _, h⟩ := issue_shape c n st; rw [h]
@[simp] theorem issue_h3fifo (c : Core) (n st : Nat) : (c.issue n st).h3fifo = c.h3fifo := by
  obtain ⟨_, _, _, _, h⟩ := issue_shape c n st; rw [h]
@[simp] theorem issue_sleeping (c : Core) (n st : Nat) : (c.issue n st).sleeping = c.sleeping := by
  obtain ⟨_, _, _, _, h⟩ := issue_shape c n st; rw [h]
@[simp] theorem issue_bpend (c : Core) (n st : Nat) : (c.issue n st).bpend = c.bpend := by
  obtain ⟨_, _, _, _, h⟩ := issue_shape c n st; rw [h]
@[simp] theorem issue_chans (c : Core) (n st : Nat) : (c.issue n st).chans = c.chans := by
  obtain ⟨_, _, _, _, h⟩ := issue_shape c n st; rw [h]
@[simp] theorem issue_hdrs (c : Core) (n st : Nat) : (c.issue n st).hdrs = c.hdrs := by
  obtain ⟨_, _, _, _, h⟩ := issue_shape c n st; rw [h]
@[simp] theorem issue_landing (c : Core) (n st : Nat) : (c.issue n st).landing = c.landing := by
  obtain ⟨_, _, _, _, h⟩ := issue_shape c n st; rw [h]
@[simp] theorem issue_sbuf (c : Core) (n st : Nat) : (c.issue n st).sbuf = c.sbuf := by
  obtain ⟨_, _, _, _, h⟩ := issue_shape c n st; rw [h]
@[simp] theorem issue_sout (c : Core) (n st : Nat) : (c.issue n st).sout = c.sout := by
  obtain ⟨_, _, _, _, h⟩ := issue_shape c n st; rw [h]
@[simp] theorem issue_midc (c : Core) (n st : Nat) : (c.issue n st).midc = c.midc := by
  obtain ⟨_, _, _, _, h⟩ := issue_shape c n st; rw [h]
@[simp] theorem issue_firings (c : Core) (n st : Nat) : (c.issue n st).firings = c.firings := by
  obtain ⟨_, _, _, _, h⟩ := issue_shape c n st; rw [h]
@[simp] theorem issue_retired (c : Core) (n st : Nat) : (c.issue n st).retired = c.retired := by
  obtain ⟨_, _, _, _, h⟩ := issue_shape c n st; rw [h]
@[simp] theorem issue_cancels (c : Core) (n st : Nat) : (c.issue n st).cancels = c.cancels := by
  obtain ⟨_, _, _, _, h⟩ := issue_shape c n st; rw [h]
@[simp] theorem issue_tiles (c : Core) (n st : Nat) : (c.issue n st).tiles = c.tiles := by
  obtain ⟨_, _, _, _, h⟩ := issue_shape c n st; rw [h]
@[simp] theorem issue_drainp (c : Core) (n st : Nat) : (c.issue n st).drainp = c.drainp := by
  obtain ⟨_, _, _, _, h⟩ := issue_shape c n st; rw [h]
@[simp] theorem issue_jobc (c : Core) (n st : Nat) : (c.issue n st).jobc = c.jobc := by
  obtain ⟨_, _, _, _, h⟩ := issue_shape c n st; rw [h]
@[simp] theorem issue_jobs (c : Core) (n st : Nat) : (c.issue n st).jobs = c.jobs := by
  obtain ⟨_, _, _, _, h⟩ := issue_shape c n st; rw [h]
@[simp] theorem issue_acc (c : Core) (n st : Nat) : (c.issue n st).acc = c.acc := by
  obtain ⟨_, _, _, _, h⟩ := issue_shape c n st; rw [h]
@[simp] theorem issue_kctx (c : Core) (n st : Nat) : (c.issue n st).kctx = c.kctx := by
  obtain ⟨_, _, _, _, h⟩ := issue_shape c n st; rw [h]
@[simp] theorem issue_kout (c : Core) (n st : Nat) : (c.issue n st).kout = c.kout := by
  obtain ⟨_, _, _, _, h⟩ := issue_shape c n st; rw [h]
@[simp] theorem issue_kheld (c : Core) (n st : Nat) : (c.issue n st).kheld = c.kheld := by
  obtain ⟨_, _, _, _, h⟩ := issue_shape c n st; rw [h]
@[simp] theorem issue_kgc (c : Core) (n st : Nat) : (c.issue n st).kgc = c.kgc := by
  obtain ⟨_, _, _, _, h⟩ := issue_shape c n st; rw [h]
@[simp] theorem issue_kreq (c : Core) (n st : Nat) : (c.issue n st).kreq = c.kreq := by
  obtain ⟨_, _, _, _, h⟩ := issue_shape c n st; rw [h]
@[simp] theorem issue_kverd (c : Core) (n st : Nat) : (c.issue n st).kverd = c.kverd := by
  obtain ⟨_, _, _, _, h⟩ := issue_shape c n st; rw [h]
@[simp] theorem issue_grants (c : Core) (n st : Nat) : (c.issue n st).grants = c.grants := by
  obtain ⟨_, _, _, _, h⟩ := issue_shape c n st; rw [h]
@[simp] theorem issue_lreq (c : Core) (n st : Nat) : (c.issue n st).lreq = c.lreq := by
  obtain ⟨_, _, _, _, h⟩ := issue_shape c n st; rw [h]
@[simp] theorem issue_lgot (c : Core) (n st : Nat) : (c.issue n st).lgot = c.lgot := by
  obtain ⟨_, _, _, _, h⟩ := issue_shape c n st; rw [h]
@[simp] theorem issue_gbarc (c : Core) (n st : Nat) : (c.issue n st).gbarc = c.gbarc := by
  obtain ⟨_, _, _, _, h⟩ := issue_shape c n st; rw [h]
@[simp] theorem issue_gbarIn (c : Core) (n st : Nat) : (c.issue n st).gbarIn = c.gbarIn := by
  obtain ⟨_, _, _, _, h⟩ := issue_shape c n st; rw [h]
@[simp] theorem issue_gbarOut (c : Core) (n st : Nat) : (c.issue n st).gbarOut = c.gbarOut := by
  obtain ⟨_, _, _, _, h⟩ := issue_shape c n st; rw [h]
@[simp] theorem issue_cwait (c : Core) (n st : Nat) : (c.issue n st).cwait = c.cwait := by
  obtain ⟨_, _, _, _, h⟩ := issue_shape c n st; rw [h]
@[simp] theorem issue_ttb (c : Core) (n st : Nat) : (c.issue n st).ttb = c.ttb := by
  obtain ⟨_, _, _, _, h⟩ := issue_shape c n st; rw [h]
@[simp] theorem issue_att (c : Core) (n st : Nat) : (c.issue n st).att = c.att := by
  obtain ⟨_, _, _, _, h⟩ := issue_shape c n st; rw [h]
@[simp] theorem issue_tlb (c : Core) (n st : Nat) : (c.issue n st).tlb = c.tlb := by
  obtain ⟨_, _, _, _, h⟩ := issue_shape c n st; rw [h]
@[simp] theorem issue_parked (c : Core) (n st : Nat) : (c.issue n st).parked = c.parked := by
  obtain ⟨_, _, _, _, h⟩ := issue_shape c n st; rw [h]
@[simp] theorem issue_tres (c : Core) (n st : Nat) : (c.issue n st).tres = c.tres := by
  obtain ⟨_, _, _, _, h⟩ := issue_shape c n st; rw [h]
@[simp] theorem issue_tlbw (c : Core) (n st : Nat) : (c.issue n st).tlbw = c.tlbw := by
  obtain ⟨_, _, _, _, h⟩ := issue_shape c n st; rw [h]
@[simp] theorem issue_life (c : Core) (n st : Nat) : (c.issue n st).life = c.life := by
  obtain ⟨_, _, _, _, h⟩ := issue_shape c n st; rw [h]
@[simp] theorem issue_ctx (c : Core) (n st : Nat) : (c.issue n st).ctx = c.ctx := by
  obtain ⟨_, _, _, _, h⟩ := issue_shape c n st; rw [h]
@[simp] theorem issue_launch (c : Core) (n st : Nat) : (c.issue n st).launch = c.launch := by
  obtain ⟨_, _, _, _, h⟩ := issue_shape c n st; rw [h]
@[simp] theorem issue_logical (c : Core) (n st : Nat) : (c.issue n st).logical = c.logical := by
  obtain ⟨_, _, _, _, h⟩ := issue_shape c n st; rw [h]
@[simp] theorem issue_gang (c : Core) (n st : Nat) : (c.issue n st).gang = c.gang := by
  obtain ⟨_, _, _, _, h⟩ := issue_shape c n st; rw [h]
@[simp] theorem issue_sup (c : Core) (n st : Nat) : (c.issue n st).sup = c.sup := by
  obtain ⟨_, _, _, _, h⟩ := issue_shape c n st; rw [h]
@[simp] theorem issue_preReq (c : Core) (n st : Nat) : (c.issue n st).preReq = c.preReq := by
  obtain ⟨_, _, _, _, h⟩ := issue_shape c n st; rw [h]
@[simp] theorem issue_sliceExp (c : Core) (n st : Nat) : (c.issue n st).sliceExp = c.sliceExp := by
  obtain ⟨_, _, _, _, h⟩ := issue_shape c n st; rw [h]
@[simp] theorem issue_tcfg (c : Core) (n st : Nat) : (c.issue n st).tcfg = c.tcfg := by
  obtain ⟨_, _, _, _, h⟩ := issue_shape c n st; rw [h]
@[simp] theorem issue_tent (c : Core) (n st : Nat) : (c.issue n st).tent = c.tent := by
  obtain ⟨_, _, _, _, h⟩ := issue_shape c n st; rw [h]
@[simp] theorem issue_kstall (c : Core) (n st : Nat) : (c.issue n st).kstall = c.kstall := by
  obtain ⟨_, _, _, _, h⟩ := issue_shape c n st; rw [h]
@[simp] theorem issue_eccL (c : Core) (n st : Nat) : (c.issue n st).eccL = c.eccL := by
  obtain ⟨_, _, _, _, h⟩ := issue_shape c n st; rw [h]
@[simp] theorem issue_eccR (c : Core) (n st : Nat) : (c.issue n st).eccR = c.eccR := by
  obtain ⟨_, _, _, _, h⟩ := issue_shape c n st; rw [h]
@[simp] theorem issue_bhtab (c : Core) (n st : Nat) : (c.issue n st).bhtab = c.bhtab := by
  obtain ⟨_, _, _, _, h⟩ := issue_shape c n st; rw [h]
@[simp] theorem issue_ltab (c : Core) (n st : Nat) : (c.issue n st).ltab = c.ltab := by
  obtain ⟨_, _, _, _, h⟩ := issue_shape c n st; rw [h]
@[simp] theorem issue_bscr (c : Core) (n st : Nat) : (c.issue n st).bscr = c.bscr := by
  obtain ⟨_, _, _, _, h⟩ := issue_shape c n st; rw [h]
@[simp] theorem issue_rring (c : Core) (n st : Nat) : (c.issue n st).rring = c.rring := by
  obtain ⟨_, _, _, _, h⟩ := issue_shape c n st; rw [h]
@[simp] theorem issue_lines (c : Core) (n st : Nat) : (c.issue n st).lines = c.lines := by
  obtain ⟨_, _, _, _, h⟩ := issue_shape c n st; rw [h]
@[simp] theorem issue_fillWait (c : Core) (n st : Nat) : (c.issue n st).fillWait = c.fillWait := by
  obtain ⟨_, _, _, _, h⟩ := issue_shape c n st; rw [h]
@[simp] theorem issue_ic (c : Core) (n st : Nat) : (c.issue n st).ic = c.ic := by
  obtain ⟨_, _, _, _, h⟩ := issue_shape c n st; rw [h]
@[simp] theorem issue_pst (c : Core) (n st : Nat) : (c.issue n st).pst = c.pst := by
  obtain ⟨_, _, _, _, h⟩ := issue_shape c n st; rw [h]
@[simp] theorem issue_partner (c : Core) (n st : Nat) : (c.issue n st).partner = c.partner := by
  obtain ⟨_, _, _, _, h⟩ := issue_shape c n st; rw [h]
@[simp] theorem issue_mism (c : Core) (n st : Nat) : (c.issue n st).mism = c.mism := by
  obtain ⟨_, _, _, _, h⟩ := issue_shape c n st; rw [h]
@[simp] theorem issue_pairReq (c : Core) (n st : Nat) : (c.issue n st).pairReq = c.pairReq := by
  obtain ⟨_, _, _, _, h⟩ := issue_shape c n st; rw [h]
@[simp] theorem issue_pairRuns (c : Core) (n st : Nat) : (c.issue n st).pairRuns = c.pairRuns := by
  obtain ⟨_, _, _, _, h⟩ := issue_shape c n st; rw [h]
@[simp] theorem writeFlags_cls (c : Core) (fl : Nat) : (writeFlags c fl).cls = c.cls := rfl
@[simp] theorem writeFlags_sh (c : Core) (fl : Nat) : (writeFlags c fl).sh = c.sh := rfl
@[simp] theorem writeFlags_wp (c : Core) (fl : Nat) : (writeFlags c fl).wp = c.wp := rfl
@[simp] theorem writeFlags_mask (c : Core) (fl : Nat) : (writeFlags c fl).mask = c.mask := rfl
@[simp] theorem writeFlags_ctf (c : Core) (fl : Nat) : (writeFlags c fl).ctf = c.ctf := rfl
@[simp] theorem writeFlags_ctb (c : Core) (fl : Nat) : (writeFlags c fl).ctb = c.ctb := rfl
@[simp] theorem writeFlags_ctm (c : Core) (fl : Nat) : (writeFlags c fl).ctm = c.ctm := rfl
@[simp] theorem writeFlags_ldo (c : Core) (fl : Nat) : (writeFlags c fl).ldo = c.ldo := rfl
@[simp] theorem writeFlags_atm (c : Core) (fl : Nat) : (writeFlags c fl).atm = c.atm := rfl
@[simp] theorem writeFlags_pendDst (c : Core) (fl : Nat) : (writeFlags c fl).pendDst = c.pendDst := rfl
@[simp] theorem writeFlags_acqWait (c : Core) (fl : Nat) : (writeFlags c fl).acqWait = c.acqWait := rfl
@[simp] theorem writeFlags_fenceSt (c : Core) (fl : Nat) : (writeFlags c fl).fenceSt = c.fenceSt := rfl
@[simp] theorem writeFlags_fenceDst (c : Core) (fl : Nat) : (writeFlags c fl).fenceDst = c.fenceDst := rfl
@[simp] theorem writeFlags_pc (c : Core) (fl : Nat) : (writeFlags c fl).pc = c.pc := rfl
@[simp] theorem writeFlags_bcMode (c : Core) (fl : Nat) : (writeFlags c fl).bcMode = c.bcMode := rfl
@[simp] theorem writeFlags_run (c : Core) (fl : Nat) : (writeFlags c fl).run = c.run := rfl
@[simp] theorem writeFlags_last (c : Core) (fl : Nat) : (writeFlags c fl).last = c.last := rfl
@[simp] theorem writeFlags_budget (c : Core) (fl : Nat) : (writeFlags c fl).budget = c.budget := rfl
@[simp] theorem writeFlags_hbudget (c : Core) (fl : Nat) : (writeFlags c fl).hbudget = c.hbudget := rfl
@[simp] theorem writeFlags_lframe (c : Core) (fl : Nat) : (writeFlags c fl).lframe = c.lframe := rfl
@[simp] theorem writeFlags_tframe (c : Core) (fl : Nat) : (writeFlags c fl).tframe = c.tframe := rfl
@[simp] theorem writeFlags_vpend (c : Core) (fl : Nat) : (writeFlags c fl).vpend = c.vpend := rfl
@[simp] theorem writeFlags_fifoWp (c : Core) (fl : Nat) : (writeFlags c fl).fifoWp = c.fifoWp := rfl
@[simp] theorem writeFlags_h3fifo (c : Core) (fl : Nat) : (writeFlags c fl).h3fifo = c.h3fifo := rfl
@[simp] theorem writeFlags_sleeping (c : Core) (fl : Nat) : (writeFlags c fl).sleeping = c.sleeping := rfl
@[simp] theorem writeFlags_bpend (c : Core) (fl : Nat) : (writeFlags c fl).bpend = c.bpend := rfl
@[simp] theorem writeFlags_chans (c : Core) (fl : Nat) : (writeFlags c fl).chans = c.chans := rfl
@[simp] theorem writeFlags_hdrs (c : Core) (fl : Nat) : (writeFlags c fl).hdrs = c.hdrs := rfl
@[simp] theorem writeFlags_landing (c : Core) (fl : Nat) : (writeFlags c fl).landing = c.landing := rfl
@[simp] theorem writeFlags_sbuf (c : Core) (fl : Nat) : (writeFlags c fl).sbuf = c.sbuf := rfl
@[simp] theorem writeFlags_sout (c : Core) (fl : Nat) : (writeFlags c fl).sout = c.sout := rfl
@[simp] theorem writeFlags_midc (c : Core) (fl : Nat) : (writeFlags c fl).midc = c.midc := rfl
@[simp] theorem writeFlags_firings (c : Core) (fl : Nat) : (writeFlags c fl).firings = c.firings := rfl
@[simp] theorem writeFlags_retired (c : Core) (fl : Nat) : (writeFlags c fl).retired = c.retired := rfl
@[simp] theorem writeFlags_cancels (c : Core) (fl : Nat) : (writeFlags c fl).cancels = c.cancels := rfl
@[simp] theorem writeFlags_tiles (c : Core) (fl : Nat) : (writeFlags c fl).tiles = c.tiles := rfl
@[simp] theorem writeFlags_jobc (c : Core) (fl : Nat) : (writeFlags c fl).jobc = c.jobc := rfl
@[simp] theorem writeFlags_jobs (c : Core) (fl : Nat) : (writeFlags c fl).jobs = c.jobs := rfl
@[simp] theorem writeFlags_acc (c : Core) (fl : Nat) : (writeFlags c fl).acc = c.acc := rfl
@[simp] theorem writeFlags_kctx (c : Core) (fl : Nat) : (writeFlags c fl).kctx = c.kctx := rfl
@[simp] theorem writeFlags_kout (c : Core) (fl : Nat) : (writeFlags c fl).kout = c.kout := rfl
@[simp] theorem writeFlags_kheld (c : Core) (fl : Nat) : (writeFlags c fl).kheld = c.kheld := rfl
@[simp] theorem writeFlags_kgc (c : Core) (fl : Nat) : (writeFlags c fl).kgc = c.kgc := rfl
@[simp] theorem writeFlags_kreq (c : Core) (fl : Nat) : (writeFlags c fl).kreq = c.kreq := rfl
@[simp] theorem writeFlags_kverd (c : Core) (fl : Nat) : (writeFlags c fl).kverd = c.kverd := rfl
@[simp] theorem writeFlags_grants (c : Core) (fl : Nat) : (writeFlags c fl).grants = c.grants := rfl
@[simp] theorem writeFlags_lreq (c : Core) (fl : Nat) : (writeFlags c fl).lreq = c.lreq := rfl
@[simp] theorem writeFlags_gbarc (c : Core) (fl : Nat) : (writeFlags c fl).gbarc = c.gbarc := rfl
@[simp] theorem writeFlags_gbarIn (c : Core) (fl : Nat) : (writeFlags c fl).gbarIn = c.gbarIn := rfl
@[simp] theorem writeFlags_gbarOut (c : Core) (fl : Nat) : (writeFlags c fl).gbarOut = c.gbarOut := rfl
@[simp] theorem writeFlags_cwait (c : Core) (fl : Nat) : (writeFlags c fl).cwait = c.cwait := rfl
@[simp] theorem writeFlags_ttb (c : Core) (fl : Nat) : (writeFlags c fl).ttb = c.ttb := rfl
@[simp] theorem writeFlags_att (c : Core) (fl : Nat) : (writeFlags c fl).att = c.att := rfl
@[simp] theorem writeFlags_tlb (c : Core) (fl : Nat) : (writeFlags c fl).tlb = c.tlb := rfl
@[simp] theorem writeFlags_parked (c : Core) (fl : Nat) : (writeFlags c fl).parked = c.parked := rfl
@[simp] theorem writeFlags_tres (c : Core) (fl : Nat) : (writeFlags c fl).tres = c.tres := rfl
@[simp] theorem writeFlags_life (c : Core) (fl : Nat) : (writeFlags c fl).life = c.life := rfl
@[simp] theorem writeFlags_ctx (c : Core) (fl : Nat) : (writeFlags c fl).ctx = c.ctx := rfl
@[simp] theorem writeFlags_launch (c : Core) (fl : Nat) : (writeFlags c fl).launch = c.launch := rfl
@[simp] theorem writeFlags_logical (c : Core) (fl : Nat) : (writeFlags c fl).logical = c.logical := rfl
@[simp] theorem writeFlags_gang (c : Core) (fl : Nat) : (writeFlags c fl).gang = c.gang := rfl
@[simp] theorem writeFlags_sup (c : Core) (fl : Nat) : (writeFlags c fl).sup = c.sup := rfl
@[simp] theorem writeFlags_preReq (c : Core) (fl : Nat) : (writeFlags c fl).preReq = c.preReq := rfl
@[simp] theorem writeFlags_sliceExp (c : Core) (fl : Nat) : (writeFlags c fl).sliceExp = c.sliceExp := rfl
@[simp] theorem writeFlags_tcfg (c : Core) (fl : Nat) : (writeFlags c fl).tcfg = c.tcfg := rfl
@[simp] theorem writeFlags_tent (c : Core) (fl : Nat) : (writeFlags c fl).tent = c.tent := rfl
@[simp] theorem writeFlags_kstall (c : Core) (fl : Nat) : (writeFlags c fl).kstall = c.kstall := rfl
@[simp] theorem writeFlags_eccL (c : Core) (fl : Nat) : (writeFlags c fl).eccL = c.eccL := rfl
@[simp] theorem writeFlags_eccR (c : Core) (fl : Nat) : (writeFlags c fl).eccR = c.eccR := rfl
@[simp] theorem writeFlags_bhtab (c : Core) (fl : Nat) : (writeFlags c fl).bhtab = c.bhtab := rfl
@[simp] theorem writeFlags_ltab (c : Core) (fl : Nat) : (writeFlags c fl).ltab = c.ltab := rfl
@[simp] theorem writeFlags_bscr (c : Core) (fl : Nat) : (writeFlags c fl).bscr = c.bscr := rfl
@[simp] theorem writeFlags_rring (c : Core) (fl : Nat) : (writeFlags c fl).rring = c.rring := rfl
@[simp] theorem writeFlags_lines (c : Core) (fl : Nat) : (writeFlags c fl).lines = c.lines := rfl
@[simp] theorem writeFlags_fillWait (c : Core) (fl : Nat) : (writeFlags c fl).fillWait = c.fillWait := rfl
@[simp] theorem writeFlags_ic (c : Core) (fl : Nat) : (writeFlags c fl).ic = c.ic := rfl
@[simp] theorem writeFlags_pst (c : Core) (fl : Nat) : (writeFlags c fl).pst = c.pst := rfl
@[simp] theorem writeFlags_partner (c : Core) (fl : Nat) : (writeFlags c fl).partner = c.partner := rfl
@[simp] theorem writeFlags_mism (c : Core) (fl : Nat) : (writeFlags c fl).mism = c.mism := rfl
@[simp] theorem writeFlags_pairReq (c : Core) (fl : Nat) : (writeFlags c fl).pairReq = c.pairReq := rfl
@[simp] theorem writeFlags_pairRuns (c : Core) (fl : Nat) : (writeFlags c fl).pairRuns = c.pairRuns := rfl
@[simp] theorem writeFlags_own (c : Core) (fl : Nat) : (writeFlags c fl).own = c.own := rfl
@[simp] theorem writeFlags_ccyc (c : Core) (fl : Nat) : (writeFlags c fl).ccyc = c.ccyc := rfl
@[simp] theorem writeFlags_late (c : Core) (fl : Nat) : (writeFlags c fl).late = c.late := rfl
@[simp] theorem writeFlags_owed (c : Core) (fl : Nat) : (writeFlags c fl).owed = c.owed := rfl
@[simp] theorem writeFlags_drainp (c : Core) (fl : Nat) : (writeFlags c fl).drainp = c.drainp := rfl
@[simp] theorem writeFlags_lgot (c : Core) (fl : Nat) : (writeFlags c fl).lgot = c.lgot := rfl
@[simp] theorem writeFlags_tlbw (c : Core) (fl : Nat) : (writeFlags c fl).tlbw = c.tlbw := rfl

end Sys2Proof.Machine
end

