-- ==== Sys2Proof/Laws/Ops.lean ====
section
/-!
SUPPORT. Laws of the frame around instructions: a native instruction that is ready and whose meaning succeeds gives the
state of its meaning; where the meaning traps, the trap is taken; where it waits, the core waits.
-/
namespace Sys2Proof.Machine

open Sys2Proof.Safety

/-- A ready instruction: what its meaning answers decides the outcome. -/
theorem nativeOp_ready {i : Instr} {cost : Core → Nat} {f : CoreId → State → Dev State} {s : State} (h : ready i s) :
    nativeOp i cost f s = .next (
      match f s.cur (issuedState i (cost (s.core s.cur)) s) with
      | .ok s1 => s1
      | .error (.trap t) =>
        takeTrap s s.cur t (nth (encode i) 0 0) (nth (encode i) 1 0) (4 * (encode i).length) false
      | .error (.trapAt t s1) =>
        takeTrap (s1.setCore s.cur (s.core s.cur)) s.cur t (nth (encode i) 0 0) (nth (encode i) 1 0)
          (4 * (encode i).length) false
      | .error (.wait s1) => waitCore s1 s.cur (s.core s.cur) (1 + s.stall)) := by
  obtain ⟨h1, h2, h3, h4, h5⟩ := h
  unfold nativeOp runNative
  congr 1
  simp only []
  rw [if_neg (by simp [h1, h2])]
  split
  · rename_i sub e; rw [h3] at e; cases e
  · rw [if_neg (by simp [h4, h5])]
    rfl

/-- A ready instruction whose meaning succeeds. -/
theorem nativeOp_ok {i : Instr} {cost : Core → Nat} {f : CoreId → State → Dev State} {s s1 : State} (h : ready i s)
    (hf : f s.cur (issuedState i (cost (s.core s.cur)) s) = .ok s1) : nativeOp i cost f s = .next s1 := by
  rw [nativeOp_ready h, hf]

/-- A ready instruction whose meaning traps takes the trap at its own place. -/
theorem nativeOp_trap {i : Instr} {cost : Core → Nat} {f : CoreId → State → Dev State} {s : State} {t : Trap}
    (h : ready i s) (hf : f s.cur (issuedState i (cost (s.core s.cur)) s) = .error (.trap t)) :
    nativeOp i cost f s = .next
      (takeTrap s s.cur t (nth (encode i) 0 0) (nth (encode i) 1 0) (4 * (encode i).length) false) := by
  rw [nativeOp_ready h, hf]

@[simp] theorem issuedState_core (i : Instr) (n : Nat) (s : State) : (issuedState i n s).core s.cur = issued i n s := by
  simp [issuedState]

/-- A meaning on the core alone that succeeds puts the core in its place. -/
theorem coreOp_ok {g : Core → Except Stop Core} {s : State} {c : CoreId} {k : Core} (h : g (s.core c) = .ok k) :
    coreOp g c s = .ok (s.setCore c k) := by
  simp [coreOp, h, ofCore, bind, Except.bind]

/-- A ready instruction on the core alone. -/
theorem nativeOp_core {i : Instr} {cost : Core → Nat} {g : Core → Except Stop Core} {s : State} {k : Core}
    (h : ready i s) (hg : g (issued i (cost (s.core s.cur)) s) = .ok k) :
    nativeOp i cost (coreOp g) s = .next (s.setCore s.cur k) := by
  rw [nativeOp_ok h (coreOp_ok (by rw [issuedState_core]; exact hg))]
  simp [issuedState]

theorem scalarOp_ok {i : Instr} {g : Core → Except Stop Core} {s : State} {k : Core}
    (h : ready i s) (hg : g (issued i 1 s) = .ok k) : scalarOp i g s = .next (s.setCore s.cur k) :=
  nativeOp_core (cost := fun _ => 1) h hg

/-- A ready instruction on the core alone that waits. -/
theorem nativeOp_coreWait {i : Instr} {cost : Core → Nat} {g : Core → Except Stop Core} {s : State}
    (h : ready i s) (hg : g (issued i (cost (s.core s.cur)) s) = .error .wait) :
    nativeOp i cost (coreOp g) s = .next (s.setCore s.cur (waited s s.cur)) := by
  rw [nativeOp_ready h]
  simp only [coreOp, issuedState_core, hg, ofCore, bind, Except.bind, waitCore]
  simp [issuedState, waited, issued]

/-- A vector instruction that succeeds is left to complete (R151). -/
theorem vectorOp_ok {i : Instr} {cost : Core → Nat} {g : Core → Except Stop Core} {s : State} {k : Core}
    (h : ready i s) (hg : g (issued i (cost (s.core s.cur)) s) = .ok k) :
    vectorOp i cost g s = .next (s.setCore s.cur { k with vpend := true }) :=
  nativeOp_core h (by simp [hg, bind, Except.bind])

/-! ### Instructions on the device -/

theorem srcZ_ok {s : State} {c : CoreId} {a : Spec} {v : Nat} {k : Core} (h : readSrc (s.core c) .z64 a = .ok (v, k)) :
    srcZ s c a = .ok (v, s.setCore c k) := by
  simp [srcZ, readZ, h, ofCore, bind, Except.bind]

theorem dstZ_ok {s : State} {c : CoreId} {d : Spec} {v : Nat} {k : Core} (h : writeDst (s.core c) .z64 d v = .ok k) :
    dstZ s c d v = .ok (s.setCore c k) := by
  simp [dstZ, h, ofCore, bind, Except.bind]

/-- The state after the reads of the operands of an instruction: the core in place. -/
theorem srcZ_issued {i : Instr} {n : Nat} {s : State} {a : Spec} {v : Nat} {k : Core}
    (h : readSrc (issued i n s) .z64 a = .ok (v, k)) :
    srcZ (issuedState i n s) s.cur a = .ok (v, s.setCore s.cur k) := by
  rw [srcZ_ok (k := k) (by rw [issuedState_core]; exact h)]
  simp [issuedState]

/-- A destination written last. -/
theorem answers_of {i : Instr} {cost : Core → Nat} {f : CoreId → State → Dev State} {s s2 : State} {d : Spec} {r : Nat}
    (hx : exec i s = nativeOp i cost f s) (h : ready i s)
    (hf : f s.cur (issuedState i (cost (s.core s.cur)) s) = dstZ s2 s.cur d r)
    (hl : ∀ k, writeDst (s2.core s.cur) .z64 d r = .ok k →
      LocalEffect (s2.core s.cur) k (operandBytes (s2.core s.cur) (s2.core s.cur) .z64 d [])) : answers i s s2 d r := by
  intro k hk
  refine ⟨?_, hl k hk⟩
  rw [hx]
  exact nativeOp_ok h (hf.trans (dstZ_ok hk))

/-- One source and a destination around an effect. -/
theorem opDA_eq {i : Instr} {n : Nat} {s s2 : State} {d a : Spec} {v r : Nat} {k : Core}
    {f : Nat → CoreId → State → Dev (Nat × State)} (ha : readSrc (issued i n s) .z64 a = .ok (v, k)) (hd : takesWord k d)
    (hf : f v s.cur (s.setCore s.cur k) = .ok (r, s2)) :
    opDA d a f s.cur (issuedState i n s) = dstZ s2 s.cur d r := by
  obtain ⟨k', hk'⟩ := hd
  have h1 : dstZ (s.setCore s.cur k) s.cur d 0 = .ok ((s.setCore s.cur k).setCore s.cur k') :=
    dstZ_ok (by rw [core_setCore]; exact hk')
  simp [opDA, srcZ_issued ha, h1, hf, bind, Except.bind]

theorem opD_eq {i : Instr} {n : Nat} {s s2 : State} {d : Spec} {r : Nat}
    {f : CoreId → State → Dev (Nat × State)} (hd : takesWord (issued i n s) d)
    (hf : f s.cur (issuedState i n s) = .ok (r, s2)) :
    opD d f s.cur (issuedState i n s) = dstZ s2 s.cur d r := by
  obtain ⟨k', hk'⟩ := hd
  have h1 : dstZ (issuedState i n s) s.cur d 0 = .ok ((issuedState i n s).setCore s.cur k') :=
    dstZ_ok (by rw [issuedState_core]; exact hk')
  simp [opD, h1, hf, bind, Except.bind]

theorem opA_eq {i : Instr} {n : Nat} {s : State} {a : Spec} {v : Nat} {k : Core} {f : Nat → CoreId → State → Dev State}
    (ha : readSrc (issued i n s) .z64 a = .ok (v, k)) :
    opA a f s.cur (issuedState i n s) = f v s.cur (s.setCore s.cur k) := by
  simp [opA, srcZ_issued ha, bind, Except.bind]

theorem opAB_eq {i : Instr} {n : Nat} {s : State} {a b : Spec} {v w : Nat} {k0 k : Core}
    {f : Nat → Nat → CoreId → State → Dev State}
    (ha : readSrc (issued i n s) .z64 a = .ok (v, k0)) (hb : readSrc k0 .z64 b = .ok (w, k)) :
    opAB a b f s.cur (issuedState i n s) = f v w s.cur (s.setCore s.cur k) := by
  have h1 : srcZ (s.setCore s.cur k0) s.cur b = .ok (w, (s.setCore s.cur k0).setCore s.cur k) :=
    srcZ_ok (by rw [core_setCore]; exact hb)
  simp [opAB, srcZ_issued ha, h1, bind, Except.bind]

end Sys2Proof.Machine
end

