-- ==== Sys2Proof/Laws/Operands.lean ====
section
/-!
SUPPORT. Laws of operands: a read of a source changes at most its pointer word, a write of a destination its bytes and its
pointer word; everything else of the core is as before.
-/
namespace Sys2Proof.Machine

open Sys2Proof.Safety

/-! ### Local bytes after a store -/

theorem localOnly_refl (c : Core) : localOnly c c := ⟨_, _, _, _, rfl⟩

theorem localOnly_trans {a b c : Core} (h1 : localOnly a b) (h2 : localOnly b c) : localOnly a c := by
  obtain ⟨_, _, _, _, e1⟩ := h1
  obtain ⟨l, h, f, m, e2⟩ := h2
  exact ⟨l, h, f, m, by rw [e2, e1]⟩

theorem putLocal_localOnly (c : Core) (a : Nat) (bs : List Byte) : localOnly c (putLocal c a bs) := putLocal_shape c a bs

theorem setLocalByte_wf {c : Core} {a : Nat} {b : Byte} (h : localWf c) : localWf (setLocalByte c a b) := by
  unfold setLocalByte
  split
  · exact ⟨memSet_wf _ _ _ h.1, h.2⟩
  · split
    · exact ⟨h.1, memSet_wf _ _ _ h.2⟩
    · split
      · exact h
      · exact ⟨memSet_wf _ _ _ h.1, h.2⟩

theorem setLocalBytes_wf (bs : List Byte) : ∀ {c : Core} {a : Nat}, localWf c → localWf (setLocalBytes c a bs) := by
  induction bs with
  | nil => intro c a h; exact h
  | cons b bs ih => intro c a h; exact ih (setLocalByte_wf h)

theorem normAt_wf {c : Core} {o : Nat} (h : localWf c) : localWf (normAt c o) := by
  exact ⟨h.1, memWrite_wf _ _ _ _ h.2⟩

theorem normAll_wf (l : List Nat) : ∀ {c : Core}, localWf c → localWf (l.foldl normAt c) := by
  induction l with
  | nil => intro c h; exact h
  | cons o l ih => intro c h; exact ih (normAt_wf h)

/-- A store without its updates of the two copies. -/
theorem putLocal_copies (c : Core) (a : Nat) (bs : List Byte) : ∃ fl m, putLocal c a bs =
    { (specialOffsets.filter (fun o => meets a bs.length ((setLocalBytes c a bs).wp + o) 8)).foldl normAt
        (setLocalBytes c a bs) with flags := fl, mask := m } := by
  unfold putLocal afterStore
  generalize setLocalBytes c a bs = k
  generalize List.foldl normAt k _ = k2
  simp only
  split <;> split <;> exact ⟨_, _, rfl⟩

theorem putLocal_wf {c : Core} {a : Nat} {bs : List Byte} (h : localWf c) : localWf (putLocal c a bs) := by
  obtain ⟨fl, m, e⟩ := putLocal_copies c a bs
  have h1 := normAll_wf (specialOffsets.filter (fun o => meets a bs.length ((setLocalBytes c a bs).wp + o) 8))
    (setLocalBytes_wf bs (a := a) h)
  rw [e]
  exact ⟨h1.1, h1.2⟩

theorem localByte_copies (c : Core) (fl m x : Nat) : localByte { c with flags := fl, mask := m } x = localByte c x := rfl

/-- A byte outside a single-byte write. -/
theorem localByte_setLocalByte {c : Core} {a x : Nat} {b : Byte} (h : localWf c) (hx : x ≠ a) :
    localByte (setLocalByte c a b) x = localByte c x := by
  unfold setLocalByte
  split
  · unfold localByte
    simp only [memGet_memSet _ _ _ _ h.1, if_neg hx]
    rfl
  · split
    · rename_i h1 h2
      unfold localByte
      by_cases h3 : x < c.wp
      · simp [h3]
      · have h4 : x - c.wp ≠ a - c.wp := by omega
        simp only [memGet_memSet _ _ _ _ h.2, if_neg h4]
        rfl
    · split
      · rfl
      · unfold localByte
        simp only [memGet_memSet _ _ _ _ h.1, if_neg hx]
        rfl

@[simp] theorem setLocalByte_wp (c : Core) (a : Nat) (b : Byte) : (setLocalByte c a b).wp = c.wp := by
  obtain ⟨_, _, h⟩ := setLocalByte_shape c a b; rw [h]

@[simp] theorem setLocalBytes_wp (c : Core) (a : Nat) (bs : List Byte) : (setLocalBytes c a bs).wp = c.wp := by
  obtain ⟨_, _, h⟩ := setLocalBytes_shape bs c a; rw [h]

@[simp] theorem normAt_wp (c : Core) (o : Nat) : (normAt c o).wp = c.wp := by
  obtain ⟨_, _, h⟩ := normAt_shape c o; rw [h]

theorem localByte_setLocalBytes (bs : List Byte) : ∀ {c : Core} {a x : Nat}, localWf c → (x < a ∨ a + bs.length ≤ x) →
    localByte (setLocalBytes c a bs) x = localByte c x := by
  induction bs with
  | nil => intros; rfl
  | cons b bs ih =>
    intro c a x h hx
    simp only [List.length_cons] at hx
    rw [setLocalBytes, ih (setLocalByte_wf h) (by omega), localByte_setLocalByte h (by omega)]

theorem memGet_memWrite_out (m : Mem) (a n v x : Nat) (h : Memory.wf m = true) (hx : x < a ∨ a + n ≤ x) :
    memGet (memWrite m a n v) x = memGet m x :=
  memGet_memPut_out _ _ _ _ h (by rwa [toBytes_length])

theorem localByte_normAt {c : Core} {o x : Nat} (h : localWf c) (hx : x < c.wp + o ∨ c.wp + o + 8 ≤ x) :
    localByte (normAt c o) x = localByte c x := by
  unfold normAt localByte
  simp only
  by_cases h3 : x < c.wp
  · simp [h3]
  · rw [memGet_memWrite_out _ _ _ _ _ h.2 (by omega)]
    rfl

theorem localByte_normAll (l : List Nat) : ∀ {c : Core} {x : Nat}, localWf c →
    (∀ o ∈ l, x < c.wp + o ∨ c.wp + o + 8 ≤ x) → localByte (l.foldl normAt c) x = localByte c x := by
  induction l with
  | nil => intros; rfl
  | cons o l ih =>
    intro c x h hx
    rw [List.foldl_cons, ih (normAt_wf h) (by intro o' ho'; rw [normAt_wp]; exact hx o' (by simp [ho'])),
      localByte_normAt h (hx o (by simp))]

/-- A store leaves every byte outside what it touches. -/
theorem localByte_putLocal {c : Core} {a x : Nat} {bs : List Byte} (h : localWf c) (hx : ¬ storeTouched c a bs.length x) :
    localByte (putLocal c a bs) x = localByte c x := by
  have hx1 : x < a ∨ a + bs.length ≤ x := by
    by_cases h1 : a ≤ x
    · by_cases h2 : x < a + bs.length
      · exact absurd (Or.inl ⟨h1, h2⟩) hx
      · exact Or.inr (by omega)
    · exact Or.inl (by omega)
  have e : localByte (putLocal c a bs) x
      = localByte ((specialOffsets.filter (fun o => meets a bs.length ((setLocalBytes c a bs).wp + o) 8)).foldl normAt
            (setLocalBytes c a bs)) x := by
    obtain ⟨fl, m, e⟩ := putLocal_copies c a bs
    rw [e, localByte_copies]
  rw [e, localByte_normAll _ (setLocalBytes_wf bs h), localByte_setLocalBytes bs h hx1]
  intro o ho
  rw [setLocalBytes_wp] at ho ⊢
  have ho' := List.mem_filter.1 ho
  by_cases h1 : c.wp + o ≤ x
  · by_cases h2 : x < c.wp + o + 8
    · exact absurd (Or.inr ⟨o, ho'.1, ho'.2, h1, h2⟩) hx
    · exact Or.inr (by omega)
  · exact Or.inl (by omega)

/-- A store of one aligned workspace word touches that word alone. -/
theorem storeTouched_word {c : Core} {o x : Nat} (h : o % 8 = 0) (hx : storeTouched c (c.wp + o) 8 x) :
    c.wp + o ≤ x ∧ x < c.wp + o + 8 := by
  rcases hx with hx | ⟨p, hp, hm, h1, h2⟩
  · exact hx
  · have hp8 : p % 8 = 0 := by
      have : ∀ q ∈ specialOffsets, q % 8 = 0 := by decide
      exact this p hp
    simp only [meets, Bool.and_eq_true, decide_eq_true_eq] at hm
    have : p = o := by omega
    subst this
    exact ⟨h1, h2⟩

theorem setWsWord_localOnly (c : Core) (o v : Nat) : localOnly c (setWsWord c o v) := putLocal_localOnly _ _ _

theorem setWsWord_wf {c : Core} {o v : Nat} (h : localWf c) : localWf (setWsWord c o v) := putLocal_wf h

theorem localByte_setWsWord {c : Core} {o v x : Nat} (h : localWf c) (ho : o % 8 = 0)
    (hx : x < c.wp + o ∨ c.wp + o + 8 ≤ x) : localByte (setWsWord c o v) x = localByte c x := by
  unfold setWsWord writeLocal
  apply localByte_putLocal h
  rw [toBytes_length]
  intro ht
  have := storeTouched_word ho ht
  omega

/-! ### What changes a core's local bytes, and where -/

end Sys2Proof.Machine

namespace Sys2Proof.Safety

open Sys2Proof.Machine

theorem LocalEffect.refl (c : Core) (p : Nat → Prop) : LocalEffect c c p :=
  ⟨localOnly_refl c, id, fun _ _ _ => rfl, fun _ => rfl, fun _ => rfl⟩

theorem LocalEffect.wp {a b : Core} {p : Nat → Prop} (h : LocalEffect a b p) : b.wp = a.wp := by
  obtain ⟨_, _, _, _, e⟩ := h.only; rw [e]

theorem LocalEffect.trans {a b c : Core} {p : Nat → Prop} (h1 : LocalEffect a b p) (h2 : LocalEffect b c p) :
    LocalEffect a c p :=
  ⟨localOnly_trans h1.only h2.only, fun h => h2.wf (h1.wf h),
    fun h x hx => (h2.bytes (h1.wf h) x hx).trans (h1.bytes h x hx),
    fun h => (h2.flags (by rw [h1.wp]; exact h)).trans (h1.flags h),
    fun h => (h2.mask (by rw [h1.wp]; exact h)).trans (h1.mask h)⟩

theorem LocalEffect.mono {a b : Core} {p q : Nat → Prop} (h : LocalEffect a b p) (hpq : ∀ x, p x → q x) :
    LocalEffect a b q :=
  ⟨h.only, h.wf, fun hw x hx => h.bytes hw x (fun hp => hx (hpq x hp)),
    fun hx => h.flags (fun x h1 h2 hp => hx x h1 h2 (hpq x hp)),
    fun hx => h.mask (fun x h1 h2 hp => hx x h1 h2 (hpq x hp))⟩

end Sys2Proof.Safety

namespace Sys2Proof.Machine

open Sys2Proof.Safety

/-- The copies after a store: they keep their values where it meets neither word. -/
theorem putLocal_keeps (c : Core) (a : Nat) (bs : List Byte) :
    ∃ ls sh fl m, putLocal c a bs = { c with ls := ls, sh := sh, flags := fl, mask := m } ∧
      (meets a bs.length (c.wp + 0x380) 8 = false → fl = c.flags) ∧
      (meets a bs.length (c.wp + 0x388) 8 = false → m = c.mask) := by
  obtain ⟨l1, h1, e1⟩ := setLocalBytes_shape bs c a
  unfold putLocal afterStore
  simp only [e1]
  obtain ⟨l2, h2, e2⟩ := normAll_shape
    (specialOffsets.filter (fun o => meets a bs.length (c.wp + o) 8)) { c with ls := l1, sh := h1 }
  simp only [e2]
  cases h3 : meets a bs.length (c.wp + 0x380) 8 <;> cases h4 : meets a bs.length (c.wp + 0x388) 8
  · exact ⟨l2, h2, c.flags, c.mask, rfl, fun _ => rfl, fun _ => rfl⟩
  · exact ⟨l2, h2, c.flags, _, rfl, fun _ => rfl, nofun⟩
  · exact ⟨l2, h2, _, c.mask, rfl, nofun, fun _ => rfl⟩
  · exact ⟨l2, h2, _, _, rfl, nofun, nofun⟩

theorem putLocal_flags_out {c : Core} {a : Nat} {bs : List Byte} (h : meets a bs.length (c.wp + 0x380) 8 = false) :
    (putLocal c a bs).flags = c.flags := by
  obtain ⟨_, _, _, _, e, h1, _⟩ := putLocal_keeps c a bs
  rw [e]; exact h1 h

theorem putLocal_mask_out {c : Core} {a : Nat} {bs : List Byte} (h : meets a bs.length (c.wp + 0x388) 8 = false) :
    (putLocal c a bs).mask = c.mask := by
  obtain ⟨_, _, _, _, e, _, h1⟩ := putLocal_keeps c a bs
  rw [e]; exact h1 h

theorem meets_touches {c : Core} {a n w : Nat} (h : meets a n w 8 = true) (hn : 0 < n) :
    ∃ x, w ≤ x ∧ x < w + 8 ∧ storeTouched c a n x := by
  simp only [meets, Bool.and_eq_true, decide_eq_true_eq] at h
  by_cases h1 : a ≤ w
  · exact ⟨w, by omega, by omega, Or.inl ⟨h1, h.2⟩⟩
  · exact ⟨a, by omega, by omega, Or.inl ⟨Nat.le_refl _, by omega⟩⟩

theorem effect_putLocal (c : Core) (a : Nat) (bs : List Byte) (hb : 0 < bs.length) :
    LocalEffect c (putLocal c a bs) (storeTouched c a bs.length) :=
  ⟨putLocal_localOnly _ _ _, putLocal_wf, fun h _ hx => localByte_putLocal h hx,
    fun h => by
      apply putLocal_flags_out
      cases e : meets a bs.length (c.wp + 0x380) 8
      · rfl
      · obtain ⟨x, h1, h2, h3⟩ := meets_touches (c := c) e hb; exact absurd h3 (h x h1 h2),
    fun h => by
      apply putLocal_mask_out
      cases e : meets a bs.length (c.wp + 0x388) 8
      · rfl
      · obtain ⟨x, h1, h2, h3⟩ := meets_touches (c := c) e hb; exact absurd h3 (h x h1 h2)⟩

theorem effect_setWsWord (c : Core) (o v : Nat) (ho : o % 8 = 0) :
    LocalEffect c (setWsWord c o v) (fun x => c.wp + o ≤ x ∧ x < c.wp + o + 8) := by
  have h := effect_putLocal c (c.wp + o) (toBytes 8 v) (by rw [toBytes_length]; omega)
  rw [toBytes_length] at h
  exact h.mono (fun x hx => storeTouched_word ho hx)

/-! ### The monad of meanings on a core -/

theorem bind_ok {α β : Type} {x : Except Stop α} {f : α → Except Stop β} {b : β} (h : (x >>= f) = .ok b) :
    ∃ a, x = .ok a ∧ f a = .ok b := by
  cases x with
  | error e => simp [bind, Except.bind] at h
  | ok a => exact ⟨a, rfl, h⟩

theorem needS_ok {b : Bool} {cause : Cause} {sub addr : Nat} {u : Unit} (h : needS b cause sub addr = .ok u) : b = true := by
  cases b
  · simp [needS, guardS] at h
  · rfl

theorem untilS_ok {b : Bool} {u : Unit} (h : untilS b = .ok u) : b = true := by
  cases b
  · simp [untilS, guardS] at h
  · rfl

/-! ### Operands -/

/-- A pointer operand: its address, and at most its own pointer word written. -/
theorem ptrLoc_ok {c c1 : Core} {n size : Nat} {post : Bool} {l : Loc} (h : ptrLoc c n post size = .ok (l, c1)) :
    l = .at (field (aWord c n) 16 0) ∧ c1 = if post then bumpPtr c n size else c := by
  unfold ptrLoc at h
  obtain ⟨_, _, h⟩ := bind_ok h
  obtain ⟨_, _, h⟩ := bind_ok h
  injection h with h
  injection h with h1 h2
  exact ⟨h1.symm, h2.symm⟩

theorem handleLoc_ok {c c1 : Core} {h n : Nat} {prod : Bool} {l : Loc} (e : handleLoc c h prod n = .ok (l, c1)) :
    c1 = c := by
  unfold handleLoc at e
  obtain ⟨_, _, e⟩ := bind_ok e
  obtain ⟨_, _, e⟩ := bind_ok e
  dsimp only at e
  generalize List.find? _ _ = o at e
  cases o with
  | some a => simp [trapS] at e
  | none => injection e with e; injection e with _ e; exact e.symm

theorem effect_bumpPtr (c : Core) (n size : Nat) :
    LocalEffect c (bumpPtr c n size) (fun x => c.wp + 0x300 + 8 * n ≤ x ∧ x < c.wp + 0x300 + 8 * n + 8) :=
  (effect_setWsWord c (0x300 + 8 * n) _ (by omega)).mono (fun x hx => by omega)

theorem effect_scalarLoc {c c1 : Core} {a : Spec} {size : Nat} {l : Loc} (h : scalarLoc c a size = .ok (l, c1)) :
    LocalEffect c c1 (bumped c [a]) := by
  cases a with
  | w n => injection h with h; injection h with _ h; exact h ▸ LocalEffect.refl _ _
  | ptr n post =>
    obtain ⟨_, e⟩ := ptrLoc_ok h
    cases post
    · exact e ▸ LocalEffect.refl _ _
    · rw [e]
      exact (effect_bumpPtr c n.val size).mono (fun x hx => ⟨n, by simp, hx.1, hx.2⟩)
  | hnd n p => exact handleLoc_ok h ▸ LocalEffect.refl _ _
  | cst k => simp [scalarLoc, trapS] at h
  | imm k => simp [scalarLoc, trapS] at h

theorem effect_readSrc {c c1 : Core} {f : Fmt} {a : Spec} {v : Nat} (h : readSrc c f a = .ok (v, c1)) :
    LocalEffect c c1 (bumped c [a]) := by
  cases a with
  | cst k =>
    simp only [readSrc] at h
    split at h
    · simp [trapS] at h
    · injection h with h; injection h with _ h; exact h ▸ LocalEffect.refl _ _
  | imm k => simp only [readSrc] at h; injection h with h; injection h with _ h; exact h ▸ LocalEffect.refl _ _
  | w n =>
    obtain ⟨⟨l, c2⟩, h1, h⟩ := bind_ok h
    obtain ⟨_, _, h⟩ := bind_ok h
    injection h with h; injection h with _ h
    exact h ▸ effect_scalarLoc h1
  | ptr n p =>
    obtain ⟨⟨l, c2⟩, h1, h⟩ := bind_ok h
    obtain ⟨_, _, h⟩ := bind_ok h
    injection h with h; injection h with _ h
    exact h ▸ effect_scalarLoc h1
  | hnd n p =>
    obtain ⟨⟨l, c2⟩, h1, h⟩ := bind_ok h
    obtain ⟨_, _, h⟩ := bind_ok h
    injection h with h; injection h with _ h
    exact h ▸ effect_scalarLoc h1

theorem effect_storeAt {c c1 : Core} {a : Nat} {bs : List Byte} (h : storeAt c a bs = .ok c1) (hb : 0 < bs.length) :
    LocalEffect c c1 (storeTouched c a bs.length) := by
  obtain ⟨_, _, _, e⟩ := storeAt_ok h
  exact e ▸ effect_putLocal c a bs hb

theorem fmtBytes_pos (f : Fmt) : 0 < fmtBytes f := by unfold fmtBytes; omega

theorem effect_storeLoc {c c1 : Core} {f : Fmt} {v : Nat} {l : Loc} (h : storeLoc c f v l = .ok c1) :
    LocalEffect c c1 (placeTouched c (fmtBytes f) l) := by
  rcases l with a | a | q
  · have := effect_storeAt h (by rw [toBytes_length]; omega)
    rwa [toBytes_length] at this
  · have := effect_storeAt h (by rw [toBytes_length]; exact fmtBytes_pos f)
    rwa [toBytes_length] at this
  · have := effect_storeAt h (by rw [toBytes_length]; exact fmtBytes_pos f)
    rwa [toBytes_length] at this

theorem storeTouched_wp {c k : Core} (h : k.wp = c.wp) (a n : Nat) : storeTouched k a n = storeTouched c a n := by
  unfold storeTouched; rw [h]

theorem placeTouched_wp {c k : Core} (h : k.wp = c.wp) (n : Nat) (l : Loc) : placeTouched k n l = placeTouched c n l := by
  cases l <;> exact storeTouched_wp h _ _

theorem bumped_wp {c k : Core} (h : k.wp = c.wp) (l : List Spec) : bumped k l = bumped c l := by
  unfold bumped; rw [h]

/-- A destination written: its place is where its specifier points, and only it and its pointer word may change. -/
theorem effect_writeDst {c c1 : Core} {f : Fmt} {d : Spec} {v : Nat} (h : writeDst c f d v = .ok c1) :
    ∃ l k, scalarLoc c d (fmtBytes f) = .ok (l, k) ∧
      LocalEffect c c1 (fun x => bumped c [d] x ∨ placeTouched c (fmtBytes f) l x) := by
  obtain ⟨⟨l, k⟩, h1, h2⟩ := bind_ok h
  have s1 := effect_scalarLoc h1
  have s2 := effect_storeLoc h2
  rw [placeTouched_wp s1.wp] at s2
  exact ⟨l, k, h1, (s1.mono (fun _ => Or.inl)).trans (s2.mono (fun _ => Or.inr))⟩

end Sys2Proof.Machine
end

