-- ==== Sys2Proof/Laws/Scalar.lean ====
section
/-!
SUPPORT. Laws that the scalar results share: the reads of two sources and a write of a destination as one local effect, and
the value laws of the two-source operations.
-/
namespace Sys2Proof.Machine

open Sys2Proof.Safety

theorem issued_wp (i : Instr) (n : Nat) (s : State) : (issued i n s).wp = (s.core s.cur).wp := by
  simp [issued]

theorem bumped_mono {c : Core} {l m : List Spec} (h : ∀ a ∈ l, a ∈ m) (x : Nat) : bumped c l x → bumped c m x := by
  rintro ⟨a, ha, h1, h2⟩
  exact ⟨a, h _ ha, h1, h2⟩

/-- A destination written after some effect: the bytes of its place and of its pointer word. -/
theorem effect_dst {c k k3 : Core} {f : Fmt} {d : Spec} {v : Nat} {l : List Spec} {p : Nat → Prop}
    (h1 : LocalEffect c k p) (hp : ∀ x, p x → bumped c l x) (hw : writeDst k f d v = .ok k3) :
    LocalEffect c k3 (operandBytes c k f d l) := by
  obtain ⟨pl, k', h2, h3⟩ := effect_writeDst hw
  have e1 := h1.mono (q := operandBytes c k f d l) (fun x hx => Or.inl (bumped_mono (by simp_all) x (hp x hx)))
  refine e1.trans (h3.mono ?_)
  rintro x (hx | hx)
  · rw [bumped_wp h1.wp] at hx
    exact Or.inl (bumped_mono (by simp) x hx)
  · rw [placeTouched_wp h1.wp] at hx
    exact Or.inr ⟨pl, k', h2, hx⟩

theorem effect_src {c k k1 : Core} {f : Fmt} {a : Spec} {v : Nat} {l : List Spec}
    (h1 : LocalEffect c k (bumped c l)) (hr : readSrc k f a = .ok (v, k1)) : LocalEffect c k1 (bumped c (l ++ [a])) := by
  have h2 := effect_readSrc hr
  rw [bumped_wp h1.wp] at h2
  exact (h1.mono (bumped_mono (by simp_all))).trans (h2.mono (bumped_mono (by simp)))

theorem bumped_congr {c k : Core} (h : k.wp = c.wp) (l : List Spec) (x : Nat) : bumped k l x ↔ bumped c l x := by
  rw [bumped_wp h]

theorem operandBytes_wp {c k k2 : Core} (h : k.wp = c.wp) (f : Fmt) (d : Spec) (l : List Spec) (x : Nat) :
    operandBytes k k2 f d l x → operandBytes c k2 f d l x := by
  rintro (hx | ⟨p, k', h1, h2⟩)
  · exact Or.inl ((bumped_congr h _ _).1 hx)
  · exact Or.inr ⟨p, k', h1, by rwa [placeTouched_wp h] at h2⟩

/-- A destination written after an effect that also met other bytes. -/
theorem effect_dst_or {c k k3 : Core} {f : Fmt} {d : Spec} {v : Nat} {l : List Spec} {q : Nat → Prop}
    (h1 : LocalEffect c k (fun x => q x ∨ bumped c l x)) (hw : writeDst k f d v = .ok k3) :
    LocalEffect c k3 (fun x => q x ∨ operandBytes c k f d l x) := by
  obtain ⟨pl, k', h2, h3⟩ := effect_writeDst hw
  refine (h1.mono ?_).trans (h3.mono ?_)
  · rintro x (hx | hx)
    · exact Or.inl hx
    · exact Or.inr (Or.inl (bumped_mono (by simp_all) x hx))
  · rintro x (hx | hx)
    · rw [bumped_wp h1.wp] at hx
      exact Or.inr (Or.inl (bumped_mono (by simp) x hx))
    · rw [placeTouched_wp h1.wp] at hx
      exact Or.inr (Or.inr ⟨pl, k', h2, hx⟩)

/-- A workspace word written after some reads of sources. -/
theorem effect_word {c k : Core} {l : List Spec} {o v : Nat} (h : LocalEffect c k (bumped c l)) (ho : o % 8 = 0) :
    LocalEffect c (setWsWord k o v) (fun x => wordBytes c o x ∨ bumped c l x) := by
  refine (h.mono (fun x hx => Or.inr hx)).trans ((effect_setWsWord k o v ho).mono ?_)
  intro x hx
  rw [h.wp] at hx
  exact Or.inl hx

theorem effect_orSticky {c k : Core} {l : List Spec} (fl : Nat) (h : LocalEffect c k (bumped c l)) :
    LocalEffect c (orSticky k fl) (fun x => wordBytes c 0x390 x ∨ bumped c l x) := by
  unfold orSticky
  split
  · exact h.mono (fun x hx => Or.inr hx)
  · exact effect_word h (by decide)

theorem effect_writeFlags {c k : Core} {l : List Spec} (fl : Nat) (h : LocalEffect c k (bumped c l)) :
    LocalEffect c (writeFlags k fl) (fun x => wordBytes c 0x380 x ∨ bumped c l x) := by
  refine (h.mono (fun x hx => Or.inr hx)).trans ?_
  have hwp := h.wp
  refine ⟨⟨_, k.sh, fl, k.mask, rfl⟩, fun hw => ⟨memWrite_wf _ _ _ _ hw.1, hw.2⟩, ?_, ?_, fun _ => rfl⟩
  · intro hw x hx
    have hx' : x < k.wp + 0x380 ∨ k.wp + 0x380 + 8 ≤ x := by
      by_cases h1 : k.wp + 0x380 ≤ x
      · by_cases h2 : x < k.wp + 0x380 + 8
        · rw [hwp] at h1 h2; exact absurd (Or.inl ⟨h1, h2⟩) hx
        · exact Or.inr (by omega)
      · exact Or.inl (by omega)
    unfold localByte writeFlags
    simp only
    rw [memGet_memWrite_out _ _ _ _ _ hw.1 hx']
    rfl
  · intro hx
    exact absurd (Or.inl ⟨by omega, by omega⟩) (hx (k.wp + 0x380) (Nat.le_refl _) (by omega))

/-- Bytes of operands and more, whatever core they are counted from. -/
theorem orOperandBytes_wp {c k k2 : Core} (h : k.wp = c.wp) (o : Nat) (f : Fmt) (d : Spec) (l : List Spec) (x : Nat) :
    (wordBytes k o x ∨ operandBytes k k2 f d l x) → (wordBytes c o x ∨ operandBytes c k2 f d l x) := by
  rintro (hx | hx)
  · exact Or.inl (by unfold wordBytes at *; rwa [h] at hx)
  · exact Or.inr (operandBytes_wp h _ _ _ _ hx)

theorem orBumped_wp {c k : Core} (h : k.wp = c.wp) (o : Nat) (l : List Spec) (x : Nat) :
    (wordBytes k o x ∨ bumped k l x) → (wordBytes c o x ∨ bumped c l x) := by
  rintro (hx | hx)
  · exact Or.inl (by unfold wordBytes at *; rwa [h] at hx)
  · exact Or.inr ((bumped_congr h _ _).1 hx)

/-- Flags whose traps are not enabled are set. -/
theorem raiseFlags_ok {c : Core} {fl : Nat} (h : natAnd fl (field (numCtl c) 13 8) = 0) :
    raiseFlags c fl = .ok (orSticky c fl) := by
  simp [raiseFlags, h]

/-- A flag whose trap is enabled raises ARITH with the lowest such flag. -/
theorem raiseFlags_trap {c : Core} {fl : Nat} (h : natAnd fl (field (numCtl c) 13 8) ≠ 0) :
    raiseFlags c fl = .error (.trap { cause := .arith, sub := lowestFlag (natAnd fl (field (numCtl c) 13 8)) }) := by
  simp [raiseFlags, h, trapS]

/-- A place read and written again: the bytes of the place and of its pointer word. -/
theorem effect_rmw {c k k1 k2 : Core} {f : Fmt} {d : Spec} {v : Nat} {q : Loc} {l : List Spec}
    (h1 : LocalEffect c k (bumped c l)) (h2 : scalarLoc k d (fmtBytes f) = .ok (q, k1)) (h3 : storeLoc k1 f v q = .ok k2) :
    LocalEffect c k2 (operandBytes c k f d l) := by
  refine effect_dst (v := v) h1 (fun x hx => hx) ?_
  simp [writeDst, h2, h3, bind, Except.bind]

/-- Two sources and a destination. -/
theorem effect_two {c k1 k2 k3 : Core} {f g h : Fmt} {d a b : Spec} {x y v : Nat}
    (h1 : readSrc c f a = .ok (x, k1)) (h2 : readSrc k1 g b = .ok (y, k2)) (h3 : writeDst k2 h d v = .ok k3) :
    LocalEffect c k3 (operandBytes c k2 h d [a, b]) := by
  have e := effect_src (l := [a]) (effect_readSrc h1) h2
  exact effect_dst e (fun x hx => hx) h3

/-! ### What each meaning answers once its operands have been read -/

theorem scalar2_ok {o : Op2} {t : IType} {d a b : Spec} {c k1 k2 k3 : Core} {x y : Nat}
    (h1 : readSrc c (ifmt t) a = .ok (x, k1)) (h2 : readSrc k1 (ifmt t) b = .ok (y, k2))
    (h3 : writeDst k2 (ifmt t) d (op2 o (fmtSigned (ifmt t)) (fmtBits (ifmt t)) x y) = .ok k3) :
    scalar2 o t d a b c = .ok k3 := by
  simp [scalar2, h1, h2, h3, bind, Except.bind]

theorem scalarDiv_ok {r dz : Bool} {t : IType} {d a b : Spec} {c k1 k2 k k3 : Core} {x y q m : Nat}
    (h1 : readSrc c (ifmt t) a = .ok (x, k1)) (h2 : readSrc k1 (ifmt t) b = .ok (y, k2))
    (hd : divRem (fmtSigned (ifmt t)) (fmtBits (ifmt t)) x y = (q, m, dz))
    (hf : raiseFlags k2 (if dz then flDZ else 0) = .ok k)
    (h3 : writeDst k (ifmt t) d (if r then m else q) = .ok k3) :
    scalarDiv r t d a b c = .ok k3 := by
  cases dz <;> simp_all [scalarDiv, bind, Except.bind]

theorem scalarDiv_flag {r : Bool} {t : IType} {d a b : Spec} {c k1 k2 : Core} {x y q m : Nat} {e : Stop}
    (h1 : readSrc c (ifmt t) a = .ok (x, k1)) (h2 : readSrc k1 (ifmt t) b = .ok (y, k2))
    (hd : divRem (fmtSigned (ifmt t)) (fmtBits (ifmt t)) x y = (q, m, true))
    (hf : raiseFlags k2 flDZ = .error e) : scalarDiv r t d a b c = .error e := by
  simp_all [scalarDiv, bind, Except.bind]

theorem scalar1_ok {o : Op1} {t : IType} {d a : Spec} {c k1 k k2 : Core} {x v fl : Nat}
    (h1 : readSrc c (ifmt t) a = .ok (x, k1))
    (hv : op1 o (fmtSigned (ifmt t)) (fmtBits (ifmt t)) x = (v, fl)) (hf : raiseFlags k1 fl = .ok k)
    (h2 : writeDst k (ifmt t) d v = .ok k2) : scalar1 o t d a c = .ok k2 := by
  simp_all [scalar1, bind, Except.bind]

theorem scalarSel_ok {t : IType} {d a b : Spec} {c k1 k2 k3 : Core} {x y : Nat}
    (h1 : readSrc c (ifmt t) a = .ok (x, k1)) (h2 : readSrc k1 (ifmt t) b = .ok (y, k2))
    (h3 : writeDst k2 (ifmt t) d (if selBit c.flags then x else y) = .ok k3) : scalarSel t d a b c = .ok k3 := by
  simp [scalarSel, h1, h2, h3, bind, Except.bind]

theorem scalarCmp_ok {cc : Cond} {t : IType} {d a b : Spec} {c k1 k2 k3 : Core} {x y : Nat}
    (h1 : readSrc c (ifmt t) a = .ok (x, k1)) (h2 : readSrc k1 (ifmt t) b = .ok (y, k2))
    (h3 : writeDst (writeFlags k2 (cmpWord cc (fmtBits (ifmt t)) x y)) (ifmt t) d
      (bnat (selBit (cmpWord cc (fmtBits (ifmt t)) x y))) = .ok k3) : scalarCmp cc t d a b c = .ok k3 := by
  simp [scalarCmp, h1, h2, h3, bind, Except.bind]

theorem scalarBext_ok {t : IType} {d a b : Spec} {c k1 k2 k3 : Core} {x y p l : Nat}
    (h1 : readSrc c (ifmt t) a = .ok (x, k1)) (h2 : readSrc k1 .z64 b = .ok (y, k2))
    (hd : fieldDesc (fmtBits (ifmt t)) y = (p, l))
    (h3 : writeDst k2 (ifmt t) d (if l = 0 then 0 else if fmtSigned (ifmt t) then signExt l (fmtBits (ifmt t)) (x / 2 ^ p % 2 ^ l)
      else x / 2 ^ p % 2 ^ l) = .ok k3) : scalarBext t d a b c = .ok k3 := by
  simp [scalarBext, h1, h2, hd, h3, bind, Except.bind]

theorem scalarBins_ok {t : IType} {d a b : Spec} {c k1 k2 k3 k4 : Core} {x y p l old : Nat} {q : Loc}
    (h1 : readSrc c (ifmt t) a = .ok (x, k1)) (h2 : readSrc k1 .z64 b = .ok (y, k2))
    (hd : fieldDesc (fmtBits (ifmt t)) y = (p, l)) (h3 : scalarLoc k2 d (fmtBytes (ifmt t)) = .ok (q, k3))
    (h4 : loadLoc k3 (ifmt t) q = .ok old)
    (h5 : storeLoc k3 (ifmt t) (natOr (natAnd old (natNot (fmtBits (ifmt t)) ((2 ^ l - 1) * 2 ^ p % 2 ^ fmtBits (ifmt t))))
      (natAnd (x * 2 ^ p) ((2 ^ l - 1) * 2 ^ p % 2 ^ fmtBits (ifmt t)))) q = .ok k4) : scalarBins t d a b c = .ok k4 := by
  simp [scalarBins, h1, h2, hd, h3, h4, h5, bind, Except.bind]

theorem scalarAddi_ok {t : IType} {d : Spec} {n : BitVec 14} {c k1 k2 : Core} {v : Nat} {l : Loc}
    (h1 : scalarLoc c d (fmtBytes (ifmt t)) = .ok (l, k1)) (h2 : loadLoc k1 (ifmt t) l = .ok v)
    (h3 : storeLoc k1 (ifmt t) (toPattern (fmtBits (ifmt t)) ((v : Int) + n.toInt)) l = .ok k2) :
    scalarAddi t d n c = .ok k2 := by
  simp [scalarAddi, h1, h2, h3, bind, Except.bind]

theorem scalarLea_ok {d a b : Spec} {c k1 k2 : Core} {x y : Nat} (h1 : leaAddr c a = .ok x)
    (h2 : readSrc c .z64 b = .ok (y, k1)) (h3 : writeDst k1 .z64 d ((x + y) % 2 ^ 64) = .ok k2) :
    scalarLea d a b c = .ok k2 := by
  simp only [scalarLea, h1, h2, bind, Except.bind]
  exact h3

theorem scalarPset_ok {p : Fin 8} {a b : Spec} {c k1 k2 : Core} {x y : Nat} (h1 : readSrc c .z64 a = .ok (x, k1))
    (h2 : readSrc k1 .z64 b = .ok (y, k2)) :
    scalarPset p a b c = .ok (setAWord k2 p.val (x % 2 ^ 17 + 2 ^ 18 * (y % 4) + 2 ^ 20 * (y / 4 % 2))) := by
  simp [scalarPset, readZ, h1, h2, bind, Except.bind]

theorem scalarMset_ok {m : Fin 4} {a b : Spec} {c k1 k2 : Core} {x y : Nat} (h1 : readSrc c .z64 a = .ok (x, k1))
    (h2 : readSrc k1 .z64 b = .ok (y, k2)) :
    scalarMset m a b c = .ok (setMWord k2 m.val (x % 2 ^ 17 + 2 ^ 32 * (y % 2 ^ 17))) := by
  simp [scalarMset, readZ, h1, h2, bind, Except.bind]

/-- A computed address in range and aligned (R122). -/
theorem computedAddr_ok {c k1 k2 : Core} {a b : Spec} {n : Nat} {x y : Int} (h1 : readS c a = .ok (x, k1))
    (h2 : readS k1 b = .ok (y, k2)) (hn : 0 < n) (h3 : 0 ≤ x + y) (h4 : (x + y).toNat + n ≤ c.top) (h5 : (x + y).toNat ≤ 0x1FFFF)
    (h6 : (x + y).toNat % (min n 8) = 0) : computedAddr c a b n = .ok ((x + y).toNat, k2) := by
  have e : x + y ≤ 0x1FFFF := by omega
  simp [computedAddr, h1, h2, bind, Except.bind, needS, guardS, checkLocal, h3, e, h4, h6]

/-- A number of a local address is its own 64-bit pattern. -/
theorem toPattern_local {z : Int} (h1 : 0 ≤ z) (h2 : z ≤ 0x1FFFF) : toPattern 64 z = z.toNat := by
  unfold toPattern; rw [Int.emod_eq_of_lt h1 (by omega)]

/-- A computed address that is not in the local store raises FABRIC (R122). -/
theorem computedAddr_fabric {c k1 k2 : Core} {a b : Spec} {n : Nat} {x y : Int} (h1 : readS c a = .ok (x, k1))
    (h2 : readS k1 b = .ok (y, k2)) (h3 : x + y < 0 ∨ 0x1FFFF < x + y ∨ (c.top : Int) < x + y + n) :
    computedAddr c a b n = .error (.trap { cause := .fabric, addr := toPattern 64 (x + y) }) := by
  by_cases h : 0 ≤ x + y ∧ x + y ≤ 0x1FFFF
  · have e : ¬ (x + y).toNat + n ≤ c.top := by omega
    simp [computedAddr, h1, h2, bind, Except.bind, needS, guardS, checkLocal, trapS, h, e, toPattern_local h.1 h.2]
  · simp [computedAddr, h1, h2, bind, Except.bind, needS, guardS, trapS, h]

/-- One that the access's alignment does not divide raises ALIGN. -/
theorem computedAddr_align {c k1 k2 : Core} {a b : Spec} {n : Nat} {x y : Int} (h1 : readS c a = .ok (x, k1))
    (h2 : readS k1 b = .ok (y, k2)) (h3 : 0 ≤ x + y) (h4 : (x + y).toNat + n ≤ c.top) (h5 : (x + y).toNat ≤ 0x1FFFF)
    (h6 : (x + y).toNat % (min n 8) ≠ 0) :
    computedAddr c a b n = .error (.trap { cause := .align, addr := (x + y).toNat }) := by
  have e : x + y ≤ 0x1FFFF := by omega
  simp [computedAddr, h1, h2, bind, Except.bind, needS, guardS, checkLocal, trapS, h3, e, h4, h6]

theorem loadAt_ok {c : Core} {a n : Nat} (h : unreadyAt c a n = false) : loadAt c a n = .ok (readLocal c a n) := by
  simp [loadAt, untilS, guardS, h, bind, Except.bind]

theorem storeAt_of {c : Core} {a : Nat} {bs : List Byte} (h1 : pendingAt c a bs.length = false)
    (h0 : ownAt c a bs.length = false) (h2 : heldAt c a bs.length = false) : storeAt c a bs = .ok (putLocal c a bs) := by
  simp [storeAt, untilS, guardS, h1, h0, h2, bind, Except.bind]

theorem scalarLd_ok {t : IType} {d a b : Spec} {c k2 k3 : Core} {z : Nat}
    (h1 : computedAddr c a b (fmtBytes (ifmt t)) = .ok (z, k2)) (h2 : unreadyAt k2 z (fmtBytes (ifmt t)) = false)
    (h3 : writeDst k2 (ifmt t) d (readLocal k2 z (fmtBytes (ifmt t))) = .ok k3) : scalarLd t d a b c = .ok k3 := by
  simp [scalarLd, h1, loadAt_ok h2, h3, bind, Except.bind]

theorem scalarSt_ok {t : IType} {d a b : Spec} {c k2 k3 : Core} {z v : Nat}
    (h1 : computedAddr c a b (fmtBytes (ifmt t)) = .ok (z, k2)) (h2 : readSrc k2 (ifmt t) d = .ok (v, k3))
    (h3 : pendingAt k3 z (fmtBytes (ifmt t)) = false) (h0 : ownAt k3 z (fmtBytes (ifmt t)) = false)
    (h4 : heldAt k3 z (fmtBytes (ifmt t)) = false) :
    scalarSt t d a b c = .ok (writeLocal k3 z (fmtBytes (ifmt t)) v) := by
  have e := storeAt_of (c := k3) (a := z) (bs := toBytes (fmtBytes (ifmt t)) v) (by rwa [toBytes_length])
    (by rwa [toBytes_length]) (by rwa [toBytes_length])
  simp [scalarSt, h1, h2, e, bind, Except.bind, writeLocal]

theorem effect_readS {c c1 : Core} {a : Spec} {v : Int} (h : readS c a = .ok (v, c1)) : LocalEffect c c1 (bumped c [a]) := by
  obtain ⟨⟨u, k⟩, h1, h2⟩ := bind_ok h
  injection h2 with h2
  injection h2 with _ h2
  exact h2 ▸ effect_readSrc h1

theorem effect_srcS {c k k1 : Core} {a : Spec} {v : Int} {l : List Spec} (h1 : LocalEffect c k (bumped c l))
    (hr : readS k a = .ok (v, k1)) : LocalEffect c k1 (bumped c (l ++ [a])) := by
  have h2 := effect_readS hr
  rw [bumped_wp h1.wp] at h2
  exact (h1.mono (bumped_mono (by simp_all))).trans (h2.mono (bumped_mono (by simp)))

theorem localEffect_cls {c k : Core} {p : Nat → Prop} (h : LocalEffect c k p) : k.cls = c.cls := by
  obtain ⟨_, _, _, _, e⟩ := h.only; rw [e]

/-! ### Arithmetic -/

theorem pow_pos2 (n : Nat) : 0 < 2 ^ n := Nat.two_pow_pos n

theorem toPattern_add (n x y : Nat) : toPattern n ((x : Int) + (y : Int)) = (x + y) % 2 ^ n := by
  unfold toPattern
  rw [← Int.natCast_add, ← Int.natCast_emod, Int.toNat_natCast]

theorem toPattern_sub (n x y : Nat) : toPattern n ((x : Int) - (y : Int)) = (x + (2 ^ n - y % 2 ^ n)) % 2 ^ n := by
  have h : y % 2 ^ n ≤ 2 ^ n := Nat.le_of_lt (Nat.mod_lt _ (pow_pos2 n))
  rw [← toPattern_add]
  unfold toPattern
  congr 1
  rw [Int.natCast_sub h, Int.natCast_emod]
  generalize ((2 ^ n : Nat) : Int) = m
  rw [show (x : Int) + (m - (y : Int) % m) = (x - (y : Int) % m) + m by omega, Int.add_emod_right]
  rw [Int.sub_emod (x : Int) (y : Int) m, Int.sub_emod (x : Int) ((y : Int) % m) m, Int.emod_emod_of_dvd _ (Int.dvd_refl m)]

theorem toPattern_neg (n x : Nat) : toPattern n (-(x : Int)) = (2 ^ n - x % 2 ^ n) % 2 ^ n := by
  have := toPattern_sub n 0 x
  simpa using this

end Sys2Proof.Machine
end

