-- ==== Sys2Proof/Laws/Device.lean ====
section
/-!
SUPPORT. Laws of the instructions that act on the device: from the effect that a meaning computes to the outcome of the
instruction, by operand form.
-/
namespace Sys2Proof.Machine

open Sys2Proof.Safety

/-- The last write of an instruction changes the bytes of its destination. -/
theorem dst_eff (s2 : State) (c : CoreId) (d : Spec) (r : Nat) : ∀ k, writeDst (s2.core c) .z64 d r = .ok k →
      LocalEffect (s2.core c) k (operandBytes (s2.core c) (s2.core c) .z64 d []) :=
  fun _ hk => effect_dst (LocalEffect.refl _ _) (fun x hx => hx) hk

theorem ansDA {i : Instr} {n : Nat} {s s2 : State} {d a : Spec} {v r : Nat} {k : Core}
    {f : Nat → CoreId → State → Dev (Nat × State)} (hx : exec i s = nativeOp i (fun _ => n) (opDA d a f) s) (h : readsA i n s a v k) (hd : takesWord k d)
    (hf : f v s.cur (s.setCore s.cur k) = .ok (r, s2)) : answers i s s2 d r :=
  answers_of (cost := fun _ => n) hx h.1 (opDA_eq h.2 hd hf) (dst_eff _ _ _ _)

theorem ansD {i : Instr} {n : Nat} {s s2 : State} {d : Spec} {r : Nat} 
    {f : CoreId → State → Dev (Nat × State)} (hx : exec i s = nativeOp i (fun _ => n) (opD d f) s) (h : ready i s) (hd : takesWord (issued i n s) d)
    (hf : f s.cur (issuedState i n s) = .ok (r, s2)) : answers i s s2 d r :=
  answers_of (cost := fun _ => n) hx h (opD_eq hd hf) (dst_eff _ _ _ _)

theorem trapDA {i : Instr} {n : Nat} {s : State} {d a : Spec} {v : Nat} {k : Core} {t : Trap}
    {f : Nat → CoreId → State → Dev (Nat × State)} (hx : exec i s = nativeOp i (fun _ => n) (opDA d a f) s) (h : readsA i n s a v k) (hd : takesWord k d)
    (hf : f v s.cur (s.setCore s.cur k) = .error (.trap t)) : traps i s t := by
  unfold traps; rw [hx]
  refine nativeOp_trap (cost := fun _ => n) h.1 ?_
  obtain ⟨k', hk'⟩ := hd
  have h1 : dstZ (s.setCore s.cur k) s.cur d 0 = .ok ((s.setCore s.cur k).setCore s.cur k') :=
    dstZ_ok (by rw [core_setCore]; exact hk')
  simp [opDA, srcZ_issued h.2, h1, hf, bind, Except.bind]

theorem endA {i : Instr} {n : Nat} {s t : State} {a : Spec} {v : Nat} {k : Core}
    {f : Nat → CoreId → State → Dev State} (hx : exec i s = nativeOp i (fun _ => n) (opA a f) s) (h : readsA i n s a v k)
    (hf : f v s.cur (s.setCore s.cur k) = .ok t) : exec i s = .next t := by
  rw [hx]; exact nativeOp_ok (cost := fun _ => n) h.1 ((opA_eq h.2).trans hf)

theorem endA_trap {i : Instr} {n : Nat} {s : State} {t : Trap} {a : Spec} {v : Nat} {k : Core}
    {f : Nat → CoreId → State → Dev State} (hx : exec i s = nativeOp i (fun _ => n) (opA a f) s) (h : readsA i n s a v k)
    (hf : f v s.cur (s.setCore s.cur k) = .error (.trap t)) : traps i s t := by
  unfold traps; rw [hx]; exact nativeOp_trap (cost := fun _ => n) h.1 ((opA_eq h.2).trans hf)

theorem endAB {i : Instr} {n : Nat} {s t : State} {a b : Spec} {v w : Nat} {k : Core}
    {f : Nat → Nat → CoreId → State → Dev State} (hx : exec i s = nativeOp i (fun _ => n) (opAB a b f) s) (h : readsAB i n s a b v w k)
    (hf : f v w s.cur (s.setCore s.cur k) = .ok t) : exec i s = .next t := by
  obtain ⟨hr, k0, h1, h2⟩ := h
  rw [hx]; exact nativeOp_ok (cost := fun _ => n) hr ((opAB_eq h1 h2).trans hf)

theorem endAB_trap {i : Instr} {n : Nat} {s : State} {t : Trap} {a b : Spec} {v w : Nat} {k : Core}
    {f : Nat → Nat → CoreId → State → Dev State} (hx : exec i s = nativeOp i (fun _ => n) (opAB a b f) s) (h : readsAB i n s a b v w k)
    (hf : f v w s.cur (s.setCore s.cur k) = .error (.trap t)) : traps i s t := by
  obtain ⟨hr, k0, h1, h2⟩ := h
  unfold traps; rw [hx]; exact nativeOp_trap (cost := fun _ => n) hr ((opAB_eq h1 h2).trans hf)

theorem localRecord_ok {c : CoreId} {s : State} {a n al : Nat} (h1 : a + n ≤ topOf c.cls) (h2 : a % al = 0) (h3 : unreadyAt (s.core c) a n = false) :
   localRecord c s a n al = .ok (localBytes (s.core c) a n) := by
  simp [localRecord, needD, untilD, h1, h2, h3, bind, Except.bind]


/-- Operand D alone, trapping. -/
theorem endD_trap {i : Instr} {n : Nat} {s : State} {d : Spec} {t : Trap}
    {f : CoreId → State → Dev (Nat × State)} (hx : exec i s = nativeOp i (fun _ => n) (opD d f) s) (h : ready i s)
    (hd : takesWord (issued i n s) d) (hf : f s.cur (issuedState i n s) = .error (.trap t)) : traps i s t := by
  unfold traps; rw [hx]
  refine nativeOp_trap (cost := fun _ => n) h ?_
  obtain ⟨k', hk'⟩ := hd
  have h1 : dstZ (issuedState i n s) s.cur d 0 = .ok ((issuedState i n s).setCore s.cur k') :=
    dstZ_ok (by rw [issuedState_core]; exact hk')
  simp [opD, h1, hf, bind, Except.bind]

/-- No operand. -/
theorem end0 {i : Instr} {n : Nat} {s t : State} {f : CoreId → State → Dev State}
    (hx : exec i s = nativeOp i (fun _ => n) f s) (h : ready i s) (hf : f s.cur (issuedState i n s) = .ok t) :
    exec i s = .next t := by
  rw [hx]; exact nativeOp_ok (cost := fun _ => n) h hf

theorem end0_trap {i : Instr} {n : Nat} {s : State} {t : Trap} {f : CoreId → State → Dev State}
    (hx : exec i s = nativeOp i (fun _ => n) f s) (h : ready i s)
    (hf : f s.cur (issuedState i n s) = .error (.trap t)) : traps i s t := by
  unfold traps; rw [hx]; exact nativeOp_trap (cost := fun _ => n) h hf

/-- A check that holds, and one that fails. -/
theorem needD_true {b : Bool} {cause : Cause} {sub a : Nat} (h : b = true) : needD b cause sub a = .ok () := by
  subst h; rfl

theorem needD_false {b : Bool} {cause : Cause} {sub a : Nat} (h : b = false) :
    needD b cause sub a = .error (.trap { cause := cause, sub := sub, addr := a }) := by
  subst h; rfl

theorem untilD_true {b : Bool} {s : State} (h : b = true) : untilD b s = .ok () := by
  subst h; rfl

theorem untilD_false {b : Bool} {s : State} (h : b = false) : untilD b s = .error (.wait s) := by
  subst h; rfl

/-! ### Waits -/

/-- A wait after reads of operands: the core keeps its own state, but for the cycles. -/
theorem waitCore_read {i : Instr} {n : Nat} {s : State} {k : Core} (h : localOnly (issued i n s) k) :
    waitCore (s.setCore s.cur k) s.cur (s.core s.cur) (1 + s.stall) = s.setCore s.cur (waited s s.cur) := by
  obtain ⟨ls, sh, fl, m, rfl⟩ := h
  simp [waitCore, waited, issued]

/-- A meaning that waits as it issues leaves the core as it was, but for the cycles. -/
theorem nativeOp_stop {i : Instr} {cost : Core → Nat} {f : CoreId → State → Dev State} {s u : State} (h : ready i s) {k : Core}
    (hk : localOnly (issued i (cost (s.core s.cur)) s) k) (hu : u = s.setCore s.cur k)
    (hf : f s.cur (issuedState i (cost (s.core s.cur)) s) = .error (.wait u)) :
    nativeOp i cost f s = .next (s.setCore s.cur (waited s s.cur)) := by
  rw [nativeOp_ready h, hf, hu]
  exact congrArg _ (waitCore_read hk)

theorem localRecord_fabric {c : CoreId} {s : State} {a n al : Nat} (h : topOf c.cls < a + n) :
    localRecord c s a n al = .error (.trap { cause := .fabric, addr := a }) := by
  have e : ¬ a + n ≤ topOf c.cls := by omega
  simp [localRecord, needD, trapD, e, bind, Except.bind]

theorem localRecord_align {c : CoreId} {s : State} {a n al : Nat} (h : a + n ≤ topOf c.cls) (h2 : a % al ≠ 0) :
    localRecord c s a n al = .error (.trap { cause := .align, addr := a }) := by
  simp [localRecord, needD, trapD, h, h2, bind, Except.bind]

theorem endA_wait {i : Instr} {n : Nat} {s : State} {a : Spec} {v : Nat} {k : Core}
    {f : Nat → CoreId → State → Dev State} (hx : exec i s = nativeOp i (fun _ => n) (opA a f) s) (h : readsA i n s a v k)
    (hf : f v s.cur (s.setCore s.cur k) = .error (.wait (s.setCore s.cur k))) :
    exec i s = .next (s.setCore s.cur (waited s s.cur)) := by
  rw [hx, nativeOp_ready h.1, (opA_eq h.2).trans hf]
  exact congrArg _ (waitCore_read (effect_readSrc h.2).only)

end Sys2Proof.Machine
end

