-- ==== Sys2Proof/Laws/Bytecode.lean ====
section
/-!
SUPPORT. Laws of bytecodes: dispatch to routines and hits of the inline cache.
-/
namespace Sys2Proof.Machine

open Sys2Proof.Safety

theorem front_of {s : State} {c : CoreId} {insn : Nat} {f : State → FeOut} (h1 : inBytecode s c = true) (h2 : (s.core c).vpend = false) (h3 : (s.core c).acqWait = false)
   (h4 : unreadyAt (s.core c) ((s.core c).wp + 128) 64 = false) (h5 : 4 ≤ ringFree (s.core c)) {r : State × Nat} (h : f s = .ok r) :
   runFront c insn f s = r.1.modCore c (fun k => k.front r.2 s.stall) := by
  unfold runFront
  simp only []
  rw [if_neg (by rw [h1]; decide), if_neg (by rw [h2, h3]; simpa using h4), if_neg (Nat.not_lt.2 h5), h]

theorem bc_of {i : Instr} {opnd slot grow : Nat} {f : Bc → Fe → CoreId → FeOut} {s : State} (h : frontReady grow s) {r : State × Nat}
   (hx : exec i s = bytecodeOp i opnd slot grow f s)
   (hf : f { op := (encodeBytecode i).headD 0, opnd := opnd, slot := slot, bpc := wReg (s.core s.cur) 16, next := nextBpc i s }
      { s := s, sp := wReg (s.core s.cur) 18 } s.cur = .ok r) : exec i s = .next (charged s r) := by
  obtain ⟨h1, h2, h3, h4, h5, h6⟩ := h
  rw [hx]
  unfold bytecodeOp
  congr 1
  refine front_of h1 h2 h3 h4 h5 ?_
  rw [if_neg]
  · exact hf
  · rintro ⟨a, b⟩
    rcases h6 with e | e
    · omega
    · exact absurd b (Nat.not_lt.2 e)

theorem dispatchTo_ok {s s1 : State} {c : CoreId} {w24 w25 w26 w27 reason next t : Nat} (h1 : checkTarget s c t = .ok ())
   (h2 : storeWords s c (dispatchWords (s.core c) next w24 w25 w26 w27 reason) = .ok s1) :
   dispatchTo s c w24 w25 w26 w27 reason next t = .ok (atRoutine s1 c t, 6) := by
  unfold dispatchTo
  rw [h1]
  show (storeWords s c (dispatchWords (s.core c) next w24 w25 w26 w27 reason) >>= _) = _
  rw [h2]
  rfl

theorem dispatchTo_at {s s1 : State} {c : CoreId} {k : Core} {w24 w25 w26 w27 reason next t : Nat} (h1 : checkTarget s c t = .ok ())
   (hk : (s.core c).wp = k.wp)
   (h2 : storeWords s c (dispatchWords k next w24 w25 w26 w27 reason) = .ok s1) :
   dispatchTo s c w24 w25 w26 w27 reason next t = .ok (atRoutine s1 c t, 6) := by
  refine dispatchTo_ok h1 ?_
  unfold dispatchWords at *
  rw [hk]; exact h2

theorem routine_of {i : Instr} {opnd grow : Nat} {s : State} (h : frontReady grow s)
   (hx : exec i s = bytecodeOp i opnd 0xFFFF grow routine s) : dispatched i s opnd 0xFFFF 0 := by
  intro t s1 h1 h2 h3
  refine bc_of h hx ?_
  show (handlerEntry s s.cur ((encodeBytecode i).headD 0) >>= _) = _
  rw [h1]
  exact dispatchTo_ok h2 h3

theorem own_ok {s s1 : State} {c : CoreId} {entry w24 bpc next t : Nat} (h1 : handlerEntry s c entry = .ok t) (h2 : checkTarget s c t = .ok ())
   (h3 : storeWords s c (dispatchWords (s.core c) next w24 0 0xFFFF bpc 0) = .ok s1) : ownDispatch s c entry w24 bpc next = .ok (atRoutine s1 c t, 6) := by
  unfold ownDispatch
  rw [h1]
  exact dispatchTo_ok h2 h3

theorem full_of {i : Instr} {opnd slot grow t : Nat} {f : Bc → Fe → CoreId → FeOut} {s s1 : State} (h : frontReady 0 s)
   (hx : exec i s = bytecodeOp i opnd slot grow f s) (hg : 0 < grow) (hroom : wReg (s.core s.cur) 20 < wReg (s.core s.cur) 18 + 8 * grow)
   (ht : handlerEntry s s.cur 0xFD = .ok t) (hc : checkTarget s s.cur t = .ok ())
   (hs : storeWords s s.cur (dispatchWords (s.core s.cur) (wReg (s.core s.cur) 16) 0xFD 0 0xFFFF (wReg (s.core s.cur) 16) 0) = .ok s1) :
   exec i s = .next (charged s (atRoutine s1 s.cur t, 6)) := by
  obtain ⟨h1, h2, h3, h4, h5, h6⟩ := h
  rw [hx]
  unfold bytecodeOp
  congr 1
  refine front_of (r := (atRoutine s1 s.cur t, 6)) h1 h2 h3 h4 h5 ?_
  rw [if_pos ⟨hg, hroom⟩]
  exact own_ok ht hc hs

theorem ring_of {i : Instr} {opnd slot grow t : Nat} {f : Bc → Fe → CoreId → FeOut} {s s1 : State}
   (hx : exec i s = bytecodeOp i opnd slot grow f s) (h1 : inBytecode s s.cur = true) (h2 : (s.core s.cur).vpend = false)
   (h3 : (s.core s.cur).acqWait = false) (h4 : unreadyAt (s.core s.cur) ((s.core s.cur).wp + 128) 64 = false) (h5 : ringFree (s.core s.cur) < 4)
   (ht : handlerEntry s s.cur 0xFE = .ok t) (hc : checkTarget s s.cur t = .ok ())
   (hs : storeWords s s.cur (dispatchWords (s.core s.cur) (wReg (s.core s.cur) 16) 0xFE 0 0xFFFF (wReg (s.core s.cur) 16) 0) = .ok s1) :
   exec i s = .next (charged s (atRoutine s1 s.cur t, 6)) := by
  rw [hx]
  unfold bytecodeOp
  congr 1
  unfold runFront
  simp only []
  rw [if_neg (by rw [h1]; decide), if_neg (by rw [h2, h3]; simpa using h4), if_pos h5, own_ok ht hc hs]
  rfl

theorem plan_of {i : Instr} {opnd slot grow : Nat} {g : Bc → Fe → CoreId → FeOut} {s : State} (h : frontReady grow s) {f : Fe} {next cost : Nat}
   (hx : exec i s = bytecodeOp i opnd slot grow g s)
   (hf : g { op := (encodeBytecode i).headD 0, opnd := opnd, slot := slot, bpc := wReg (s.core s.cur) 16, next := nextBpc i s }
      { s := s, sp := wReg (s.core s.cur) 18 } s.cur = f.finish s.cur next cost) : plans i s f next cost := by
  intro r hr
  exact bc_of h hx (hf.trans hr)

theorem cached_hit {kind n slot way j : Nat} {callee : Option Nat} {s : State} {xs : List Nat} {f : Fe} {b : Bc} {hit : Nat → Nat → Fe → FeOut}
   (h : lookupHits kind n callee slot s xs way j f) (hb : b.slot = slot) (hp : b.bpc = wReg (s.core s.cur) 16) :
   cached kind xs (callee.getD 0) hit b { s := s, sp := wReg (s.core s.cur) 18 } s.cur = hit way (hitCost j) f := by
  obtain ⟨-, -, -, r0, f1, h1, h2, h3, h4, h5, h6⟩ := h
  have e1 : (field (icEntry (f1.s.core s.cur) ((f1.w s.cur 21 + b.slot) % 2048)).1 63 32 != field r0 63 32 || field (icEntry (f1.s.core s.cur) ((f1.w s.cur 21 + b.slot) % 2048)).1 31 8 != b.bpc || field (icEntry (f1.s.core s.cur) ((f1.w s.cur 21 + b.slot) % 2048)).1 7 5 != kind || field (icEntry (f1.s.core s.cur) ((f1.w s.cur 21 + b.slot) % 2048)).1 4 3 == 0) = false := by
    rw [hb, hp, h2, h3, h4]
    rcases h5 with e | e <;> rw [e] <;> simp
  have e2 : (field (icEntry (f1.s.core s.cur) ((f1.w s.cur 21 + b.slot) % 2048)).1 4 3 == 3) = false := by
    rw [hb]; rcases h5 with e | e <;> rw [e] <;> rfl
  unfold cached
  rw [show ({ s := s, sp := wReg (s.core s.cur) 18 } : Fe).rd s.cur (({ s := s, sp := wReg (s.core s.cur) 18 } : Fe).w s.cur 17) 8 = .ok (r0, f1) from h1]
  simp only [bind, Except.bind]
  rw [if_neg (by rw [e1]; decide), if_neg (by rw [e2]; decide), hb, h6]
  rfl

theorem cachedOp_hit {kind n slot way j : Nat} {s : State} {xs : List Nat} {f : Fe} {b : Bc} {hit : Bc → CoreId → List Nat → Nat → Nat → Fe → FeOut}
   (h : lookupHits kind n none slot s xs way j f) (hb : b.slot = slot) (hp : b.bpc = wReg (s.core s.cur) 16) :
   cachedOp kind n hit b { s := s, sp := wReg (s.core s.cur) 18 } s.cur = hit b s.cur xs way (hitCost j) f := by
  unfold cachedOp
  rw [show ({ s := s, sp := wReg (s.core s.cur) 18 } : Fe).operands s.cur n = .ok xs from h.2.1]
  simp only [bind, Except.bind]
  exact cached_hit (callee := none) (hit := hit b s.cur xs) h hb hp

theorem callOp_hit {n slot way j x : Nat} {s : State} {xs : List Nat} {f : Fe} {b : Bc}
   (h : lookupHits 1 n (some x) slot s xs way j f) (hb : b.slot = slot) (hp : b.bpc = wReg (s.core s.cur) 16) :
   callOp n b { s := s, sp := wReg (s.core s.cur) 18 } s.cur = operandHit b s.cur xs (n + 1) true way (hitCost j) f := by
  unfold callOp
  rw [show ({ s := s, sp := wReg (s.core s.cur) 18 } : Fe).operands s.cur n = .ok xs from h.2.1]
  simp only [bind, Except.bind]
  rw [h.2.2.1 x rfl]
  simp only []
  exact cached_hit (callee := some x) (hit := operandHit b s.cur xs (n + 1) true) h hb hp

theorem hit_of {i : Instr} {opnd kind n slot way j : Nat} {s : State} {xs : List Nat} {f : Fe} {r : State × Nat}
   {hit : Bc → CoreId → List Nat → Nat → Nat → Fe → FeOut} (hl : lookupHits kind n none slot s xs way j f)
   (hx : exec i s = bytecodeOp i opnd slot 0 (cachedOp kind n hit) s)
   (hf : hit { op := (encodeBytecode i).headD 0, opnd := opnd, slot := slot, bpc := wReg (s.core s.cur) 16, next := nextBpc i s } s.cur xs way (hitCost j) f = .ok r) :
   exec i s = .next (charged s r) :=
  bc_of (f := cachedOp kind n hit) hl.1 hx ((cachedOp_hit (b := { op := (encodeBytecode i).headD 0, opnd := opnd, slot := slot, bpc := wReg (s.core s.cur) 16, next := nextBpc i s }) hl rfl rfl).trans hf)

theorem hitPlan_of {i : Instr} {opnd kind n slot way j next cost : Nat} {s : State} {xs : List Nat} {f g : Fe}
   {hit : Bc → CoreId → List Nat → Nat → Nat → Fe → FeOut} (hl : lookupHits kind n none slot s xs way j f)
   (hx : exec i s = bytecodeOp i opnd slot 0 (cachedOp kind n hit) s)
   (hf : hit { op := (encodeBytecode i).headD 0, opnd := opnd, slot := slot, bpc := wReg (s.core s.cur) 16, next := nextBpc i s } s.cur xs way (hitCost j) f = g.finish s.cur next cost) :
   plans i s g next cost := by
  intro r hr
  exact hit_of hl hx (hf.trans hr)

theorem callHit_of {i : Instr} {opnd n slot way j x : Nat} {s : State} {xs : List Nat} {f : Fe} {r : State × Nat}
   (hl : lookupHits 1 n (some x) slot s xs way j f)
   (hx : exec i s = bytecodeOp i opnd slot 0 (fun b f c => callOp n b f c) s)
   (hf : operandHit { op := (encodeBytecode i).headD 0, opnd := opnd, slot := slot, bpc := wReg (s.core s.cur) 16, next := nextBpc i s } s.cur xs (n + 1) true way (hitCost j) f = .ok r) :
   exec i s = .next (charged s r) :=
  bc_of (f := fun b f c => callOp n b f c) hl.1 hx ((callOp_hit (b := { op := (encodeBytecode i).headD 0, opnd := opnd, slot := slot, bpc := wReg (s.core s.cur) 16, next := nextBpc i s }) hl rfl rfl).trans hf)

theorem target_hit {s s1 : State} {b : Bc} {xs : List Nat} {npop way cost : Nat} {fast : Bool} {f : Fe} (h1 : bitAt way 25 = false) (hwp : (f.s.core s.cur).wp = (s.core s.cur).wp)
   (h2 : checkTarget f.s s.cur (4 * field way 24 0) = .ok ())
   (h3 : storeWords f.s s.cur (dispatchWords (s.core s.cur) b.next b.op b.opnd b.slot b.bpc 8) = .ok s1) :
   operandHit b s.cur xs npop fast way cost f = .ok (atRoutine s1 s.cur (4 * field way 24 0), cost + 6) := by
  unfold operandHit
  rw [if_neg (by rw [h1]; decide), dispatchTo_at h2 hwp h3]
  rfl

end Sys2Proof.Machine
end

