-- ==== Sys2Proof/Laws/Copies.lean ====
section
/-!
SUPPORT. Laws of tiles and copies: the checks of a tile, what `cpy` and `cpys` put in the couch's queue once their checks
pass, and the job that a change of a job's fields leaves to be found.
-/
namespace Sys2Proof.Machine

open Sys2Proof.Safety

theorem ev_tile {k : Core} {t : Nat} {e : Tile} (s : State) (c : CoreId) (h : nth k.tiles t {} = e) (f : Tile → Tile) :
   (s.setCore c k).modCore c (fun k => modTile k t f) = s.setCore c { k with tiles := setAt k.tiles t (f e) } := by
  simp [modCore_eq, modTile, h]

theorem tdef_ok {s : State} {c : CoreId} {t : Nat} (h : (nth (s.core c).tiles t {}).nch ≠ 0) : tileDefined s c t = .ok () := by
  have : ((nth (s.core c).tiles t {}).nch != 0) = true := by simpa using h
  simp [tileDefined, needD, this]
theorem tdef_no {s : State} {c : CoreId} {t : Nat} (h : (nth (s.core c).tiles t {}).nch = 0) : tileDefined s c t = .error (.trap { cause := .tile, sub := 2 }) := by
  simp [tileDefined, needD, trapD, h]
theorem terr_ok {s : State} {c : CoreId} {t : Nat} (h : (nth (s.core c).tiles t {}).err = false) : tileNoErr s c t = .ok () := by
  simp [tileNoErr, h]
theorem mask_ok {v n : Nat} (h : v < 2 ^ n) : (v / 2 ^ n == 0) = true := by
  rw [Nat.div_eq_of_lt h]; rfl
theorem mask_no {v n : Nat} (h : 2 ^ n ≤ v) : (v / 2 ^ n == 0) = false := by
  have : 0 < v / 2 ^ n := Nat.div_pos h (Nat.two_pow_pos _)
  simp; omega
theorem lt_dec {v n : Nat} (h : v < n) : (decide (v < n)) = true := by simp [h]

theorem queue_eq (s0 : State) (c : CoreId) (k : Core) (j : Job) (hk : s0.core c = k) (cnt : Nat) (hc : jobCount j = cnt) :
   queueJob s0 c j = (let s1 := s0.setCore c { dropFence k with
      jobc := (k.jobc + 1) % 65536
      jobs := ((k.jobc, if j.extent = 0 then .complete else .pending) :: k.jobs).take 64
      midc := if j.msg = 0 then k.midc else (k.midc + 1) % 65536
      ctf := k.ctf + (if cnt = 1 then 1 else 0), ctb := k.ctb + (if cnt = 2 then 1 else 0), cwait := false }
    let s2 := if c.cls = .compute then s1.modRow (rowOf c) (fun r => { r with clast := placeOf c }) else s1
    { s2 with jobs := enqueueJob s0.jobs { j with counted := cnt, prev := if j.o then (s0.jobs.reverse.find? (fun x => x.core == c && x.id == (k.jobc + 65535) % 65536)).map (·.uid) else none, mid := k.midc, since := s0.cycle }
              nextUid := s0.nextUid + 1 }) := by
  have b1 : ∀ n, bnat (cnt == n) = if cnt = n then 1 else 0 := by intro n; by_cases h : cnt = n <;> simp [bnat, h]
  simp only [queueJob, hk, hc, b1]
  rcases c with ⟨cl, ix⟩
  cases cl
  · simp only [if_true]; rfl
  · simp only [reduceCtorEq, if_false]; rfl
  · simp only [reduceCtorEq, if_false]; rfl

theorem jobCount_eq (j : Job) : jobCount j = if j.kind = .addr ∧ ¬ j.rows * j.rlen = 0 then
    (if isBulk j.dst then 2 else if j.dst < 0xB0000000 then 1 else 0) else 0 := by
  unfold jobCount
  split
  · rename_i h; simp only [h, true_and, Job.extent]
    by_cases q : j.rows * j.rlen = 0 <;> simp [q]
  · rename_i h; rw [if_neg (fun q => h q.1)]

theorem copy_ok {slab : Bool} {q t kind : Nat} {o : Bool} {d : Spec} {r : Shape} {c : CoreId} {s0 : State} {k k' : Core} {v : List Nat} (hk : s0.core c = k)
   (hv : shapeVals k r = .ok v) (hd : writeDst k .z64 d 0 = .ok k') (hd2 : okDst d = true)
   (c1 : (if slab then nth v 6 0 / 2 ^ 13 == 0 else nth v 5 0 == 0 && nth v 6 0 == 0 && nth v 7 0 == 0) = true)
   (c2 : ((if slab then kind == 0 else decide (kind < 3)) && !(kind == 1 && c.cls != .compute) && recordOk slab v) = true)
   (hb : 64 * nth v 0 0 + 64 ≤ topOf c.cls) (hp : unreadyAt k (64 * nth v 0 0) 64 = false)
   (c3 : (readLocal k (64 * nth v 0 0 + 8 * 6) 8 == 0 && readLocal k (64 * nth v 0 0 + 8 * 7) 8 == 0 && (if slab then readLocal k (64 * nth v 0 0 + 8 * 1) 8 / 2 ^ 14 == 0 else kind == 2 || readLocal k (64 * nth v 0 0 + 8 * 1) 8 == 0)) = true)
   (g0 : (readLocal k (64 * nth v 0 0 + 8 * 0) 8 % 8 == 0) = true) (g1 : (slab || kind != 2 || readLocal k (64 * nth v 0 0 + 8 * 1) 8 % 8 == 0) = true)
   (g2 : (readLocal k (64 * nth v 0 0 + 8 * 2) 8 % 8 == 0) = true) (g3 : (readLocal k (64 * nth v 0 0 + 8 * 3) 8 % 8 == 0) = true)
   (hchk : (if slab = true then
    needD (readLocal k (64 * nth v 0 0 + 8 * 1) 8 / 8 % 64 + field (nth v 6 0) 6 0 ≤ 64 && readLocal k (64 * nth v 0 0 + 8 * 1) 8 / 8 / 64 + field (nth v 6 0) 12 7 ≤ 32
      && readLocal k (64 * nth v 0 0 + 8 * 1) 8 % 8 + nth v 7 0 ≤ 8) .tile 6 (nth k.tiles t {}).base
  else if kind = 0 then copyTile s0 c t v
  else if kind = 1 then copyRing s0 c q v
  else .ok ()) = .ok ()) (hf : fenceClear k = true)
   (hctf : ∀ j : Job, j.kind = copyKind slab q t kind v → j.rows = nth v 1 0 → j.rlen = nth v 2 0 →
      j.dst = readLocal k (64 * nth v 0 0 + 8 * 1) 8 → jobCount j = 1 → k.ctf < 65535)
   (hctb : ∀ j : Job, j.kind = copyKind slab q t kind v → j.rows = nth v 1 0 → j.rlen = nth v 2 0 →
      j.dst = readLocal k (64 * nth v 0 0 + 8 * 1) 8 → jobCount j = 2 → k.ctb < 65535) (hq : mayQueue s0 c = true) :
  copyOp slab q t kind o d r c s0 = dstZ (queueJob s0 c { uid := s0.nextUid, couch := couchOf c, core := c, id := k.jobc, kind := copyKind slab q t kind v, o := o
                                                          rows := nth v 1 0, rlen := nth v 2 0, dstr := nth v 3 0, doff := nth v 4 0, src := readLocal k (64 * nth v 0 0 + 8 * 0) 8, dst := readLocal k (64 * nth v 0 0 + 8 * 1) 8
                                                          sstr := toSigned 64 (readLocal k (64 * nth v 0 0 + 8 * 2) 8), mbx := readLocal k (64 * nth v 0 0 + 8 * 3) 8, msg := readLocal k (64 * nth v 0 0 + 8 * 4) 8, mdata := readLocal k (64 * nth v 0 0 + 8 * 5) 8, mid := 0, off := k.pc - 20
                                                          obj := (pcPlace s0 c k).1, ctx := k.ctx, ch := k.channel, cmid := firstMid k k.channel, firing := k.firings }) c d k.jobc := by
  have hd' : dstZ s0 c d 0 = .ok (s0.setCore c k') := dstZ_ok (by rw [hk]; exact hd)
  have e1 : decide (64 * nth v 0 0 + 64 ≤ topOf c.cls) = true := by simp [hb]
  have e3 : ∀ j : Job, j.kind = copyKind slab q t kind v → j.rows = nth v 1 0 → j.rlen = nth v 2 0 →
      j.dst = readLocal k (64 * nth v 0 0 + 8 * 1) 8 → (!(jobCount j == 1) || decide (k.ctf < 65535)) = true := by
    intro j a b c d
    by_cases h : jobCount j = 1
    · simp [hctf j a b c d h]
    · simp [h]
  have e4 : ∀ j : Job, j.kind = copyKind slab q t kind v → j.rows = nth v 1 0 → j.rlen = nth v 2 0 →
      j.dst = readLocal k (64 * nth v 0 0 + 8 * 1) 8 → (!(jobCount j == 2) || decide (k.ctb < 65535)) = true := by
    intro j a b c d
    by_cases h : jobCount j = 2
    · simp [hctb j a b c d h]
    · simp [h]
  have e2 : (!unreadyAt k (64 * nth v 0 0) 64) = true := by rw [hp]; rfl
  unfold copyOp
  simp only [hk, hv, ofCore, needD_true c1, needD_true c2, needD_true hd2, hd', needD_true e1, untilD_true e2, needD_true c3, needD_true g0, needD_true g1, needD_true g2, needD_true g3, bind, Except.bind, hchk, untilD_true hf, untilD_true hq, e3, e4, untilD_true rfl]
  cases slab
  · by_cases k0 : kind = 0
    · simp only [Bool.false_eq_true, if_false, k0, if_true] at hchk ⊢; rw [hchk]
    · by_cases k1 : kind = 1
      · subst k1; simp only [Bool.false_eq_true, if_false, k0, if_true] at hchk ⊢; rw [hchk]
      · simp only [Bool.false_eq_true, if_false, k0, k1]
  · simp only [if_true] at hchk ⊢; rw [hchk]

theorem find_mod {s s' : State} {u : Nat} {j : Job} {f : Job → Job} (h : findJob s u = some j) (hf : ∀ x, (f x).uid = x.uid) (hj : s'.jobs = s.jobs.map (fun y => if y.uid == u then f y else y)) :
   findJob s' u = some (f j) := by
  simp only [findJob] at *
  rw [hj]
  generalize s.jobs = l at h
  induction l with
  | nil => simp at h
  | cons x l ih =>
    simp only [List.map_cons, List.find?_cons] at h ⊢
    by_cases q : (x.uid == u) = true
    · simp only [q, if_true, hf] at h ⊢; injection h with h; rw [h]
    · have q' : (x.uid == u) = false := by simpa using q
      simp only [q', Bool.false_eq_true, if_false] at h ⊢; exact ih h

end Sys2Proof.Machine
end

