-- ==== Sys2Proof/Laws/Encoding.lean ====
section
/-!
SUPPORT. Laws of the encoding: each field code reads back, the fields of the words that the encoder builds, and, for each
shape of encoding, that an instruction decodes from its words.
-/
namespace Sys2Proof.Laws

theorem specOf_code (s : Spec) : specOf (specCode s) = s := by
  rcases s with n | ⟨a, p⟩ | ⟨h, p⟩ | k | i
  · simp only [specCode, specOf, n.isLt, if_true]; congr 1; apply Fin.ext; simp [Fin.ofNat]
  · revert a p; decide
  · revert h p; decide
  · revert k; decide
  · have := i.isLt
    have a1 : ¬ 64 + i.toNat < 32 := by omega
    have a2 : ¬ 64 + i.toNat < 48 := by omega
    have a3 : ¬ 64 + i.toNat < 56 := by omega
    have a4 : ¬ 64 + i.toNat < 64 := by omega
    simp only [specCode, specOf, a1, a2, a3, a4, if_false]
    congr 1; apply BitVec.eq_of_toNat_eq; simp; omega
theorem specCode_lt (s : Spec) : specCode s < 128 := by
  rcases s with n | ⟨a, p⟩ | ⟨h, p⟩ | k | i <;> simp only [specCode]
  · omega
  · cases p <;> simp [bnat] <;> omega
  · cases p <;> simp [bnat] <;> omega
  · omega
  · have := i.isLt; omega
theorem itypeOf_code (t : IType) : itypeOf (itypeCode t) = t := by cases t <;> rfl
theorem itypeCode_lt (t : IType) : itypeCode t < 8 := by cases t <;> decide
theorem ffmtOf_code (t : IType) : ffmtOf (ffmtCode t) = t := by cases t <;> rfl
theorem ffmtCode_lt (t : IType) : ffmtCode t < 8 := by cases t <;> decide
theorem vtypeOf_code (t : VType) : vtypeOf (vtypeCode t) = t := by cases t <;> rfl
theorem vtypeCode_lt (t : VType) : vtypeCode t < 8 := by cases t <;> decide
theorem fmtOf_code (t : Fmt) : fmtOf (fmtCode t) = some t := by cases t <;> rfl
theorem rmodeOf_code (t : RMode) : rmodeOf (rmodeCode t) = some t := by cases t <;> rfl
theorem rmodeCode_lt (t : RMode) : rmodeCode t < 5 := by cases t <;> decide
theorem condOf_code (t : Cond) : condOf (condCode t) = some t := by cases t <;> rfl
theorem condCode_lt (t : Cond) : condCode t < 11 := by cases t <;> decide
theorem fwaitOf_code (t : FWait) : fwaitOf (fwaitCode t) = t := by cases t <;> rfl
theorem fwaitCode_lt (t : FWait) : fwaitCode t < 4 := by cases t <;> decide
theorem orderOf_code (t : Order) : orderOf (orderCode t) = t := by cases t <;> rfl
theorem orderCode_lt (t : Order) : orderCode t < 4 := by cases t <;> decide
theorem scopeOf_code (t : Scope) : scopeOf (scopeCode t) = t := by cases t <;> rfl
theorem scopeCode_lt (t : Scope) : scopeCode t < 4 := by cases t <;> decide
theorem amoOpOf_code (t : AmoOp) : amoOpOf (amoOpCode t) = t := by cases t <;> rfl
theorem amoOpCode_lt (t : AmoOp) : amoOpCode t < 8 := by cases t <;> decide

theorem decode_of {cls : CoreClass} {w e0 e1 e2 e3 op fn : Nat} {p : Pre} {i : Instr} (ho : field w 31 24 = op) (hf : field w 23 16 = fn) (ha : assigned op fn = true) (hc : accepts cls op fn = true) (hp : preDecode op fn w e0 e1 e2 e3 = p) (h1 : p.resv = true) (h2 : p.val = true) (h3 : p.spc = true) (hi : p.ins = i): decode cls w e0 e1 e2 e3 = .ok i := by
  simp only [decode, ho, hf, ha, hc, hp, Pre.check, h1, h2, h3, hi, Bool.not_true, Bool.false_eq_true, if_false]

theorem wf_parts {cls : CoreClass} {i : Instr} (h : i.wf cls = true) : instrAccepted cls i = true ∧ instrReserved i = true ∧ instrValues i = true ∧ instrSpecs i = true := by
  simp only [Instr.wf, Instr.check] at h
  cases h1 : instrAccepted cls i <;> cases h2 : instrReserved i <;> cases h3 : instrValues i <;> cases h4 : instrSpecs i <;> simp_all

/-! ### Format M -/

theorem M_op {op t d a b : Nat} (h0 : op < 256) (ht : t < 8) (hd : d < 128) (ha : a < 128) (hb : b < 128) : field (encM op t d a b) 31 24 = op := by
  simp only [field, encM, Nat.reducePow, Nat.reduceAdd, Nat.reduceSub]; omega
theorem M_t {op t d a b : Nat} (ht : t < 8) (hd : d < 128) (ha : a < 128) (hb : b < 128) : field (encM op t d a b) 23 21 = t := by
  simp only [field, encM, Nat.reducePow, Nat.reduceAdd, Nat.reduceSub]; omega
theorem M_d {op t d a b : Nat} (hd : d < 128) (ha : a < 128) (hb : b < 128) : field (encM op t d a b) 20 14 = d := by
  simp only [field, encM, Nat.reducePow, Nat.reduceAdd, Nat.reduceSub]; omega
theorem M_a {op t d a b : Nat} (ha : a < 128) (hb : b < 128) : field (encM op t d a b) 13 7 = a := by
  simp only [field, encM, Nat.reducePow, Nat.reduceAdd, Nat.reduceSub]; omega
theorem M_b {op t d a b : Nat} (hb : b < 128) : field (encM op t d a b) 6 0 = b := by
  simp only [field, encM, Nat.reducePow, Nat.reduceAdd, Nat.reduceSub]; omega

/-- An instruction decodes from the words of its encoding on every class that it is well formed for. -/
def roundTrips (i : Instr) : Prop := ∀ cls, i.wf cls = true →
    (∀ x ∈ encode i, x < 2 ^ 32) ∧ (encode i).length = 1 + extCount (field (nth (encode i) 0 0) 31 24) ∧
      decode cls (nth (encode i) 0 0) (nth (encode i) 1 0) (nth (encode i) 2 0) (nth (encode i) 3 0) (nth (encode i) 4 0) = .ok i


theorem rt_of {i : Instr} {w : Nat} {es : List Nat} {op fn : Nat} (he : encode i = w :: es) (hw : w < 2 ^ 32) (hes : ∀ x ∈ es, x < 2 ^ 32)
   (ho : field w 31 24 = op) (hf : field w 23 16 = fn) (hx : es.length = extCount op) (ha : assigned op fn = true)
   (hc : ∀ cls, instrAccepted cls i = true → accepts cls op fn = true)
   (p : Pre) (hp : preDecode op fn w (nth es 0 0) (nth es 1 0) (nth es 2 0) (nth es 3 0) = p)
   (hi : p.ins = i)
   (hr : instrReserved i = true → p.resv = true) (hv : instrValues i = true → p.val = true) (hs : instrSpecs i = true → p.spc = true) : roundTrips i := by
  intro cls h
  obtain ⟨h1, h2, h3, h4⟩ := wf_parts h
  rw [he]
  refine ⟨?_, ?_, decode_of (op := op) (fn := fn) ho hf ha (hc _ h1) hp (hr h2) (hv h3) (hs h4) hi⟩
  · intro x hx2; rcases List.mem_cons.1 hx2 with q | q
    · rw [q]; exact hw
    · exact hes x q
  · have : nth (w :: es) 0 0 = w := rfl
    rw [this, ho, List.length_cons, hx]; omega


abbrev AllOps (op : Nat) : Prop := op < 256 ∧ (∀ fn, assigned op fn = true) ∧ (∀ cls fn, accepts cls op fn = true)

theorem rt_M3 {op : Nat} {c : IType → Spec → Spec → Spec → Instr} {t : IType} {d a b : Spec} (he : encode (c t d a b) = encI op t d a b) (hop : AllOps op) (hx : extCount op = 0)
   (r : Spec → Spec → Spec → Bool)
   (hp : ∀ fn w e0 e1 e2 e3, preDecode op fn w e0 e1 e2 e3 = { preM3 w c with spc := r (fD w) (fA w) (fB w) })
   (hs : instrSpecs (c t d a b) = true → r d a b = true) : roundTrips (c t d a b) := by
  have ht := itypeCode_lt t; have hd := specCode_lt d; have ha' := specCode_lt a; have hb := specCode_lt b
  refine rt_of he (by have := hop.1; simp only [encM]; omega) (by simp) (M_op hop.1 ht hd ha' hb) rfl hx.symm (hop.2.1 _) (fun _ _ => hop.2.2 _ _) _ (hp _ _ _ _ _ _) ?_ (fun _ => rfl) (fun _ => rfl) (fun h => ?_)
  · simp (disch := omega) only [preM3, fD, fA, fB, fType, M_t, M_d, M_a, M_b, specOf_code, itypeOf_code]
  · simp (disch := omega) only [fD, fA, fB, M_d, M_a, M_b, specOf_code]; exact hs h

theorem rt_M2 {op : Nat} {c : IType → Spec → Spec → Instr} {t : IType} {d a : Spec} (he : encode (c t d a) = encI2 op t d a) (hop : AllOps op) (hx : extCount op = 0)
   (hp : ∀ fn w e0 e1 e2 e3, preDecode op fn w e0 e1 e2 e3 = preM2 w c)
   (hs : instrSpecs (c t d a) = true → ok2 d a = true) : roundTrips (c t d a) := by
  have ht := itypeCode_lt t; have hd := specCode_lt d; have ha' := specCode_lt a
  refine rt_of he (by have := hop.1; simp only [encM]; omega) (by simp) (M_op hop.1 ht hd ha' (by omega)) rfl hx.symm (hop.2.1 _) (fun _ _ => hop.2.2 _ _) _ (hp _ _ _ _ _ _) ?_ (fun _ => ?_) (fun _ => rfl) (fun h => ?_)
  · simp (disch := omega) only [preM2, fD, fA, fB, fType, M_t, M_d, M_a, M_b, specOf_code, itypeOf_code]
  · simp (disch := omega) only [preM2, M_b]; rfl
  · simp (disch := omega) only [preM2, fD, fA, fB, M_d, M_a, M_b, specOf_code]; exact hs h

theorem M_lt {op t d a b : Nat} (h0 : op < 256) (ht : t < 8) (hd : d < 128) (ha : a < 128) (hb : b < 128) : encM op t d a b < 2 ^ 32 := by
  simp only [encM]; omega

theorem rt_V {op : Nat} {i : Instr} {acc : VType → Bool} {pd pa pb : Pos} {c : VType → Spec → Spec → Spec → Instr} {t : VType} {d a : Spec} {bc : Nat} (he : encode i = [encM op (vtypeCode t) (specCode d) (specCode a) bc]) (hb : bc < 128) (hop : AllOps op) (hx : extCount op = 0)
   (hp : ∀ fn w e0 e1 e2 e3, preDecode op fn w e0 e1 e2 e3 = preV w acc pd pa pb c) (hi : c t d a (specOf bc) = i)
   (hz : pd ≠ .none ∧ pa ≠ .none ∧ (pb = .none → bc = 0))
   (hv : instrValues i = true → acc t = true)
   (hs : instrSpecs i = true → (pd.ok t.isFloat d && pa.ok t.isFloat a && pb.ok t.isFloat (specOf bc)) = true) : roundTrips i := by
  have ht := vtypeCode_lt t; have hd := specCode_lt d; have ha' := specCode_lt a
  have z : ∀ p : Pos, p ≠ .none → ∀ x, p.zero x = true := by intro p h x; cases p <;> first | rfl | exact absurd rfl h
  refine rt_of he (M_lt hop.1 ht hd ha' hb) (by simp) (M_op hop.1 ht hd ha' hb) rfl hx.symm (hop.2.1 _) (fun _ _ => hop.2.2 _ _) _ (hp _ _ _ _ _ _) ?_ (fun _ => ?_) (fun h => ?_) (fun h => ?_)
  · simp (disch := omega) only [preV, fD, fA, fB, fType, M_t, M_d, M_a, M_b, specOf_code, vtypeOf_code]; exact hi
  · simp (disch := omega) only [preV, M_b, M_d, M_a, z pd hz.1, z pa hz.2.1, Bool.true_and]
    by_cases q : pb = .none
    · rw [q, hz.2.2 q]; rfl
    · exact z _ q _
  · simp (disch := omega) only [preV, fType, M_t, vtypeOf_code]; exact hv h
  · simp (disch := omega) only [preV, fD, fA, fB, fType, M_t, M_d, M_a, M_b, specOf_code, vtypeOf_code]; exact hs h

theorem rt_VR {op : Nat} {i : Instr} {pd pa pb : Pos} {c : VType → RMode → Spec → Spec → Spec → Instr} {t : VType} {rm : RMode} {d a : Spec} {bc : Nat} (he : encode i = [encM op (vtypeCode t) (specCode d) (specCode a) bc, rmodeCode rm]) (hb : bc < 128) (hop : AllOps op) (hx : extCount op = 1)
   (hp : ∀ fn w e0 e1 e2 e3, preDecode op fn w e0 e1 e2 e3 = preVR w e0 pd pa pb c) (hi : c t rm d a (specOf bc) = i)
   (hz : pd ≠ .none ∧ pa ≠ .none ∧ (pb = .none → bc = 0))
   (hv : instrValues i = true → t.isFloat = true)
   (hs : instrSpecs i = true → (pd.ok t.isFloat d && pa.ok t.isFloat a && pb.ok t.isFloat (specOf bc)) = true) : roundTrips i := by
  have ht := vtypeCode_lt t; have hd := specCode_lt d; have ha' := specCode_lt a; have hr := rmodeCode_lt rm
  have z : ∀ p : Pos, p ≠ .none → ∀ x, p.zero x = true := by intro p h x; cases p <;> first | rfl | exact absurd rfl h
  have f1 : field (rmodeCode rm) 2 0 = rmodeCode rm := by cases rm <;> rfl
  have f2 : field (rmodeCode rm) 31 3 = 0 := by cases rm <;> rfl
  refine rt_of he (M_lt hop.1 ht hd ha' hb) (by simp; omega) (M_op hop.1 ht hd ha' hb) rfl hx.symm (hop.2.1 _) (fun _ _ => hop.2.2 _ _) _ (hp _ _ _ _ _ _) ?_ (fun _ => ?_) (fun h => ?_) (fun h => ?_)
  · simp (disch := omega) only [preVR, preV, fD, fA, fB, fType, M_t, M_d, M_a, M_b, specOf_code, vtypeOf_code, nth, List.getD_cons_zero, f1, rmodeOf_code, Option.getD_some]; exact hi
  · simp (disch := omega) only [preVR, preV, M_b, M_d, M_a, z pd hz.1, z pa hz.2.1, Bool.true_and, nth, List.getD_cons_zero, f2]
    by_cases q : pb = .none
    · rw [q, hz.2.2 q]; rfl
    · rw [z _ q]; rfl
  · simp (disch := omega) only [preVR, preV, fType, M_t, vtypeOf_code, nth, List.getD_cons_zero, f1, rmodeOf_code]; simp [accFloat, hv h]
  · simp (disch := omega) only [preVR, preV, fD, fA, fB, fType, M_t, M_d, M_a, M_b, specOf_code, vtypeOf_code]; exact hs h

/-! ### Format S -/

/-- A format-S word. -/
def encSw (op fn x y : Nat) : Nat := op * 2 ^ 24 + fn * 2 ^ 16 + x * 2 ^ 7 + y
theorem S_op {op fn x y : Nat} (h0 : op < 256) (hf : fn < 256) (hx : x < 512) (hy : y < 128) : field (encSw op fn x y) 31 24 = op := by
  simp only [field, encSw, Nat.reducePow, Nat.reduceAdd, Nat.reduceSub]; omega
theorem S_fn {op fn x y : Nat} (hf : fn < 256) (hx : x < 512) (hy : y < 128) : field (encSw op fn x y) 23 16 = fn := by
  simp only [field, encSw, Nat.reducePow, Nat.reduceAdd, Nat.reduceSub]; omega
theorem S_hi {op fn x y : Nat} (hf : fn < 256) (hx : x < 128) (hy : y < 128) : field (encSw op fn x y) 15 14 = 0 := by
  simp only [field, encSw, Nat.reducePow, Nat.reduceAdd, Nat.reduceSub]; omega
theorem S_x {op fn x y : Nat} (hf : fn < 256) (hx : x < 128) (hy : y < 128) : field (encSw op fn x y) 13 7 = x := by
  simp only [field, encSw, Nat.reducePow, Nat.reduceAdd, Nat.reduceSub]; omega
theorem S_x10 {op fn x y : Nat} (hf : fn < 256) (hx : x < 16) (hy : y < 128) : field (encSw op fn x y) 10 7 = x := by
  simp only [field, encSw, Nat.reducePow, Nat.reduceAdd, Nat.reduceSub]; omega
theorem S_h11 {op fn x y : Nat} (hf : fn < 256) (hx : x < 16) (hy : y < 128) : field (encSw op fn x y) 15 11 = 0 := by
  simp only [field, encSw, Nat.reducePow, Nat.reduceAdd, Nat.reduceSub]; omega
theorem S_x9 {op fn x y : Nat} (hf : fn < 256) (hx : x < 8) (hy : y < 128) : field (encSw op fn x y) 9 7 = x := by
  simp only [field, encSw, Nat.reducePow, Nat.reduceAdd, Nat.reduceSub]; omega
theorem S_h10 {op fn x y : Nat} (hf : fn < 256) (hx : x < 8) (hy : y < 128) : field (encSw op fn x y) 15 10 = 0 := by
  simp only [field, encSw, Nat.reducePow, Nat.reduceAdd, Nat.reduceSub]; omega
theorem S_x0 {op fn y : Nat} (hf : fn < 256) (hy : y < 128) : field (encSw op fn 0 y) 15 7 = 0 := by
  simp only [field, encSw, Nat.reducePow, Nat.reduceAdd, Nat.reduceSub]; omega
theorem S_y {op fn x y : Nat} (hy : y < 128) : field (encSw op fn x y) 6 0 = y := by
  simp only [field, encSw, Nat.reducePow, Nat.reduceAdd, Nat.reduceSub]; omega
theorem S_00 {op fn : Nat} (hf : fn < 256) : field (encSw op fn 0 0) 15 0 = 0 := by
  simp only [field, encSw, Nat.reducePow, Nat.reduceAdd, Nat.reduceSub]; omega
theorem S_y3 {op fn x y : Nat} (hy : y < 16) : field (encSw op fn x y) 3 0 = y := by
  simp only [field, encSw, Nat.reducePow, Nat.reduceAdd, Nat.reduceSub]; omega
theorem S_y64 {op fn x y : Nat} (hy : y < 16) : field (encSw op fn x y) 6 4 = 0 := by
  simp only [field, encSw, Nat.reducePow, Nat.reduceAdd, Nat.reduceSub]; omega
theorem S_lt {op fn x y : Nat} (h0 : op < 256) (hf : fn < 256) (hx : x < 512) (hy : y < 128) : encSw op fn x y < 2 ^ 32 := by
  simp only [encSw]; omega

theorem rt_S {op fn x y : Nat} {i : Instr} (he : encode i = encS op fn x y) (h0 : op < 256 ∧ fn < 256) (hx : x < 512) (hy : y < 128) (hax : assigned op fn = true ∧ extCount op = 0)
   (hc : ∀ cls, instrAccepted cls i = true → accepts cls op fn = true) (p : Nat → Pre)
   (hp : ∀ w e0 e1 e2 e3, preDecode op fn w e0 e1 e2 e3 = p w) 
   (hi : (p (encSw op fn x y)).ins = i) (hr : instrReserved i = true → (p (encSw op fn x y)).resv = true) 
   (hv : instrValues i = true → (p (encSw op fn x y)).val = true)
   (hs : instrSpecs i = true → (p (encSw op fn x y)).spc = true) : roundTrips i :=
  rt_of he (S_lt h0.1 h0.2 hx hy) (by simp) (S_op h0.1 h0.2 hx hy) (S_fn h0.2 hx hy) hax.2.symm hax.1 hc _ (hp _ _ _ _ _) hi hr hv hs
theorem fin_of {n m : Nat} (x : Fin n) (h : m = x.val) [NeZero n] : Fin.ofNat n m = x := by
  apply Fin.ext; simp only [Fin.ofNat, h]; exact Nat.mod_eq_of_lt x.isLt
theorem bv_of {n m : Nat} (x : BitVec n) (h : m = x.toNat) : BitVec.ofNat n m = x := by
  subst h; simp

theorem rt_W {w op : Nat} {es : List Nat} {i : Instr} (he : encode i = w :: es) (hw : w < 2 ^ 32) (ho : w / 2 ^ 24 = op) (hes : ∀ x ∈ es, x < 2 ^ 32)
   (hx : es.length = extCount op) (ha : ∀ fn, assigned op fn = true) (hc : ∀ cls fn, instrAccepted cls i = true → accepts cls op fn = true) (p : Nat → Pre)
   (hp : ∀ fn w, preDecode op fn w (nth es 0 0) (nth es 1 0) (nth es 2 0) (nth es 3 0) = p w) 
   (hi : (p w).ins = i) (hr : instrReserved i = true → (p w).resv = true) 
   (hv : instrValues i = true → (p w).val = true)
   (hs : instrSpecs i = true → (p w).spc = true) : roundTrips i :=
  rt_of he hw hes (by simp only [field]; omega) rfl hx (ha _) (fun _ => hc _ _) _ (hp _ _) hi hr hv hs

/-! ### Format F -/

/-- A format-F word. -/
def encFw (op w f o d a sub : Nat) : Nat := op * 2 ^ 24 + w * 2 ^ 22 + f * 2 ^ 19 + o * 2 ^ 17 + d * 2 ^ 10 + a * 2 ^ 3 + sub
theorem F_f {op w f o d a sub : Nat} (h0 : op < 256) (hw : w < 4) (hf : f < 8) (ho : o < 4) (hd : d < 128) (ha : a < 128) (hs : sub < 8) :
   encFw op w f o d a sub < 2 ^ 32 ∧ encFw op w f o d a sub / 2 ^ 24 = op ∧ field (encFw op w f o d a sub) 23 22 = w ∧ field (encFw op w f o d a sub) 21 19 = f ∧ field (encFw op w f o d a sub) 18 17 = o ∧ field (encFw op w f o d a sub) 16 10 = d ∧ field (encFw op w f o d a sub) 9 3 = a ∧ field (encFw op w f o d a sub) 2 0 = sub ∧ field (encFw op w f o d a sub) 2 2 = sub / 4 ∧ field (encFw op w f o d a sub) 1 0 = sub % 4 ∧ field (encFw op w f o d a sub) 2 1 = sub / 2 ∧ field (encFw op w f o d a sub) 0 0 = sub % 2 := by
  simp only [encFw, field]; omega

/-! ### Format X -/

theorem shape_rt (r : Shape) : ∃ a b c d, encShape r = [a, b, c, d] ∧ (∀ x ∈ encShape r, x < 2 ^ 32) ∧ shapeOf a b c d = r := by
  refine ⟨_, _, _, _, rfl, ?_, ?_⟩
  · have h0 := r.f0.isLt; have h1 := r.f1.isLt; have h2 := r.f2.isLt; have h3 := r.f3.isLt
    have h4 := r.f4.isLt; have h5 := r.f5.isLt; have h6 := r.f6.isLt; have h7 := r.f7.isLt
    simp only [encShape, List.mem_cons, List.not_mem_nil, or_false]
    rintro x (rfl | rfl | rfl | rfl) <;> omega
  · rcases r with ⟨x0, x1, x2, x3, x4, x5, x6, x7⟩
    have h0 := x0.isLt; have h1 := x1.isLt; have h2 := x2.isLt; have h3 := x3.isLt
    have h4 := x4.isLt; have h5 := x5.isLt; have h6 := x6.isLt; have h7 := x7.isLt
    simp only [shapeOf, Shape.mk.injEq]
    refine ⟨?_, ?_, ?_, ?_, ?_, ?_, ?_, ?_⟩ <;> exact bv_of _ (by simp only [field]; omega)
theorem ext_f (f : Fmt) (rm : RMode) : (fmtCode f < 0x21 ∧ field (fmtCode f + rmodeCode rm * 256) 6 0 = fmtCode f) ∧ field (fmtCode f + rmodeCode rm * 256) 10 8 = rmodeCode rm ∧
   field (fmtCode f + rmodeCode rm * 256) 7 7 = 0 ∧ field (fmtCode f + rmodeCode rm * 256) 31 11 = 0 := by
  cases f <;> cases rm <;> decide

theorem ext_g (f g : Fmt) (rm : RMode) : let e := fmtCode f + fmtCode g * 256 + rmodeCode rm * 65536
   (field e 6 0 = fmtCode f ∧ field e 14 8 = fmtCode g) ∧ field e 18 16 = rmodeCode rm ∧ field e 7 7 = 0 ∧ field e 15 15 = 0 ∧ field e 31 19 = 0 := by
  have h1 : fmtCode f < 64 := by cases f <;> decide
  have h2 : fmtCode g < 64 := by cases g <;> decide
  have h3 := rmodeCode_lt rm
  simp only [field]
  omega
theorem u16_rt (x : BitVec 16) : BitVec.ofNat 16 (x.toNat % 256 + 256 * (x.toNat / 256)) = x := bv_of x (by omega)
theorem u8_rt (x : BitVec 8) : BitVec.ofNat 8 x.toNat = x := bv_of x rfl

end Sys2Proof.Laws
end

