-- ==== Sys2Proof/Laws/Kiln.lean ====
section
/-!
SUPPORT. Laws of the kiln's acceptance (R160): the participants of a request are distinct cores, each retires its instruction
once, and the operation joins the row's list.
-/
namespace Sys2Proof.Machine

open Sys2Proof.Safety

theorem restZero_ok {v : List Nat} {n : Nat} (h : ∀ x ∈ v.drop n, x = 0) : restZero v n = .ok () := by
  refine needD_true ?_
  rw [List.all_eq_true]; intro x hx; simp [h x hx]

theorem claimOk_no {cl : Option Nat} {k : Core} (h1 : cl ≠ none) (h2 : cl ≠ some k.lkey) : claimOk cl k = false := by
  unfold claimOk; cases cl <;> simp_all

/-! ### Acceptance -/

theorem fold_core (f : CoreId → Core → Core) : ∀ (l : List CoreId) (s : State), (l.map pid).Nodup →
   (∀ x ∈ l, (l.foldl (fun s x => s.modCore x (f x)) s).core x = f x (s.core x)) ∧
   (∀ y, (∀ x ∈ l, pid x ≠ pid y) → (l.foldl (fun s x => s.modCore x (f x)) s).core y = s.core y) ∧
   (∀ r, (l.foldl (fun s x => s.modCore x (f x)) s).row r = s.row r) ∧ (l.foldl (fun s x => s.modCore x (f x)) s).nextUid = s.nextUid := by
  intro l
  induction l with
  | nil => intro s _; exact ⟨by simp, fun _ _ => rfl, fun _ => rfl, rfl⟩
  | cons a l ih =>
    intro s h
    simp only [List.map_cons, List.nodup_cons, List.mem_map, not_exists, not_and] at h
    obtain ⟨i1, i2, i3, i4⟩ := ih (s.modCore a (f a)) h.2
    simp only [List.foldl_cons]
    refine ⟨?_, ?_, ?_, ?_⟩
    · intro x hx
      rcases List.mem_cons.1 hx with rfl | hx
      · rw [i2 _ (fun y hy => h.1 y hy), modCore_eq, core_setCore]
      · rw [i1 x hx, modCore_eq, core_setCore_ne _ _ (fun e => h.1 x hx e)]
    · intro y hy
      rw [i2 y (fun x hx => hy x (List.mem_cons_of_mem _ hx)), modCore_eq, core_setCore_ne _ _ (fun e => hy a (by simp) e.symm)]
    · intro r; rw [i3]; rfl
    · rw [i4]; rfl

theorem reqCores_nodup (s : State) (c : CoreId) (q : KReq) : ((reqCores s c q).map pid).Nodup := by
  unfold reqCores
  split
  · unfold rowGang rowCores
    rw [List.filter_map]
    rw [List.map_map]
    refine List.Pairwise.map _ ?_ ((List.nodup_range (n := 8)).filter _)
    intro a b hab
    simp only [Function.comp, pid, coreAt]; omega
  · simp

theorem modRing_core (s : State) (r q : Nat) (f : Ring → Ring) (c : CoreId) : (modRing s r q f).core c = s.core c := rfl

theorem inj_of_nodup : ∀ {l : List CoreId} {a b : CoreId}, (l.map pid).Nodup → a ∈ l → b ∈ l → pid a = pid b → a = b
  | x :: l, a, b, h, ha, hb, e => by
    simp only [List.map_cons, List.nodup_cons, List.mem_map, not_exists, not_and] at h
    rcases List.mem_cons.1 ha with h1 | h1
    · rcases List.mem_cons.1 hb with h2 | h2
      · rw [h1, h2]
      · rw [h1] at e; exact absurd e.symm (h.1 b h2)
    · rcases List.mem_cons.1 hb with h2 | h2
      · rw [h2] at e; exact absurd e (h.1 a h1)
      · exact inj_of_nodup h.2 h1 h2 e

theorem chargeReq_shape (s : State) (c : CoreId) (q : KReq) : ((chargeReq s c q).rows = s.rows ∧ (chargeReq s c q).nextUid = s.nextUid) ∧ ∀ x ∈ reqCores s c q, ∃ g, (chargeReq s c q).core x = { s.core x with grants := g } := by
  unfold chargeReq
  simp only
  split
  · exact ⟨⟨rfl, rfl⟩, fun x _ => ⟨_, rfl⟩⟩
  · split
    · rename_i g hg
      refine ⟨⟨rfl, rfl⟩, fun x hx => ?_⟩
      by_cases e : pid x = pid g
      · have hg' := List.mem_of_find?_eq_some hg
        have : x = g := inj_of_nodup (reqCores_nodup s c q) hx hg' e
        subst this
        exact ⟨_, core_setCore ..⟩
      · exact ⟨_, core_setCore_ne _ _ e⟩
    · exact ⟨⟨rfl, rfl⟩, fun x _ => ⟨_, rfl⟩⟩

theorem readZ_keeps {k k1 : Core} {a : Spec} {v : Nat} (h : readZ k a = .ok (v, k1)) : ∃ ls sh fl m, k1 = { k with ls := ls, sh := sh, flags := fl, mask := m } :=
  (effect_readSrc (f := .z64) h).only

theorem retireReq_shape (q : KReq) (own : Bool) (k : Core) : (retireReq q own k).kreq = none ∧ (retireReq q own k).kout = k.kout + 1 ∧ (retireReq q own k).kgc = k.kgc + (if q.gang then 1 else 0) ∧
   (retireReq q own k).kheld = (match q.kind with | .mm _ _ _ _ _ => k.kheld ++ [q.part.tile] | _ => k.kheld) := by
  unfold retireReq
  simp only
  split
  · rename_i h2; obtain ⟨_, _, _, _, e⟩ := readZ_keeps h2; subst e
    refine ⟨trivial, rfl, ?_, ?_⟩
    · cases q.gang <;> rfl
    · rfl
  · refine ⟨trivial, rfl, ?_, ?_⟩
    · cases q.gang <;> rfl
    · rfl

theorem takeStage_shape (s : State) (row uid : Nat) (q : KReq) : (∀ x, (takeStage s row uid q).core x = s.core x) ∧ (takeStage s row uid q).nextUid = s.nextUid ∧
   ((takeStage s row uid q).row row).kops = (s.row row).kops := by
  have m : ∀ (g : Nat) (f : Ring → Ring), (∀ x, (modRing s row g f).core x = s.core x) ∧ (modRing s row g f).nextUid = s.nextUid ∧
   ((modRing s row g f).row row).kops = (s.row row).kops := by
    intro g f
    refine ⟨fun _ => rfl, rfl, ?_⟩
    unfold modRing; rw [modRow_eq, row_setRow]
  unfold takeStage
  simp only
  split
  · exact ⟨fun _ => rfl, rfl, rfl⟩
  · split
    · split
      · exact ⟨fun _ => rfl, rfl, rfl⟩
      · exact m _ _
    · rw [if_neg (by decide)]; exact m _ _

theorem kilnPick_row {s : State} {row : Nat} {c : CoreId} (h : kilnPick s row = some c) : rowOf c = row := by
  unfold kilnPick at h
  simp only at h
  split at h
  · cases h
  · have := List.mem_of_find?_eq_some h
    obtain ⟨i, -, rfl⟩ := List.mem_map.1 this
    simp only [rowOf, coreAt]
    omega

theorem requestKiln_taken {i : Instr} {s : State} {k : Core} {req : KReq} (c0 : CoreId) (q0 : KReq)
   (hx : requestKiln (s.setCore s.cur k) s.cur req = requestKiln (s.setCore s.cur k) s.cur req → ∀ t, requestKiln (s.setCore s.cur k) s.cur req = .ok t → exec i s = .next t) :
      let s1 := s.setCore s.cur { k with kreq := some req }
      kilnPick s1 (rowOf s.cur) = some c0 → (s1.core c0).kreq = some q0 → s.cur ∈ reqCores s1 c0 q0 → rowOf c0 = rowOf s.cur →
      ∃ t, exec i s = .next t ∧ t.nextUid = s.nextUid + 1 ∧
        (∃ op, (t.row (rowOf s.cur)).kops = (s.row (rowOf s.cur)).kops ++ [op] ∧ op.uid = s.nextUid ∧ op.kind = q0.kind ∧ op.ring = q0.ring ∧
          op.ctx = (s1.core c0).kctx ∧ op.parts = (reqCores s1 c0 q0).map (fun x => match (s1.core x).kreq with
            | some p => p.part
            | none => q0.part)) ∧
        ∀ x ∈ reqCores s1 c0 q0, ∀ p, (s1.core x).kreq = some p →
          (t.core x).kreq = none ∧ (t.core x).kout = (s1.core x).kout + 1 ∧
          (t.core x).kgc = (s1.core x).kgc + (if p.gang then 1 else 0) ∧
          (t.core x).kheld = (match p.kind with
            | .mm _ _ _ _ _ => (s1.core x).kheld ++ [p.part.tile]
            | _ => (s1.core x).kheld) := by
  intro s1 hp hq hmem hrow
  have e1 : (s.setCore s.cur k).modCore s.cur (fun k => { k with kreq := some req }) = s1 := by
    rw [modCore_eq, core_setCore, setCore_setCore]
  have e2 : acceptRow s1 (rowOf s.cur) (some s.cur) = acceptReq s1 c0 q0 (some s.cur) := by
    simp only [acceptRow, hp, hq]
  obtain ⟨⟨cr, cu⟩, cc⟩ := chargeReq_shape s1 c0 q0
  obtain ⟨tc, tu, tk⟩ := takeStage_shape (chargeReq s1 c0 q0) (rowOf c0) s1.nextUid q0
  have nd := reqCores_nodup s1 c0 q0
  obtain ⟨f1, f2, f3, f4⟩ := fold_core (fun x k => retireReq (k.kreq.getD q0) (some s.cur == some x) k) _ (takeStage (chargeReq s1 c0 q0) (rowOf c0) s1.nextUid q0) nd
  have main : ∀ x ∈ reqCores s1 c0 q0, ∀ p, (s1.core x).kreq = some p →
          ((acceptReq s1 c0 q0 (some s.cur)).core x).kreq = none ∧ ((acceptReq s1 c0 q0 (some s.cur)).core x).kout = (s1.core x).kout + 1 ∧
          ((acceptReq s1 c0 q0 (some s.cur)).core x).kgc = (s1.core x).kgc + (if p.gang then 1 else 0) ∧
          ((acceptReq s1 c0 q0 (some s.cur)).core x).kheld = (match p.kind with
            | .mm _ _ _ _ _ => (s1.core x).kheld ++ [p.part.tile]
            | _ => (s1.core x).kheld) := by
    intro x hx p hpx
    have g : (acceptReq s1 c0 q0 (some s.cur)).core x = ((reqCores s1 c0 q0).foldl (fun s x => s.modCore x (fun k => retireReq (k.kreq.getD q0) (some s1.cur == some x) k)) (takeStage (chargeReq s1 c0 q0) (rowOf c0) s1.nextUid q0)).core x := rfl
    have g2 := f1 x hx
    obtain ⟨gr, hgr⟩ := cc x hx
    rw [tc, hgr] at g2
    have g3 : (acceptReq s1 c0 q0 (some s.cur)).core x = retireReq p (some s.cur == some x) { s1.core x with grants := gr } := by
      refine g.trans (Eq.trans g2 ?_)
      simp only [hpx, Option.getD_some]
    rw [g3]
    exact retireReq_shape p (some s.cur == some x) { s1.core x with grants := gr }
  have hself : ((acceptReq s1 c0 q0 (some s.cur)).core s.cur).kreq = none := (main _ hmem req (by simp only [s1, core_setCore])).1
  refine ⟨acceptReq s1 c0 q0 (some s.cur), ?_, ?_, ?_, main⟩
  · refine hx rfl _ ?_
    simp only [requestKiln, e1, e2, hself]; rfl
  · rfl
  · refine ⟨{ uid := s1.nextUid, kind := q0.kind, ctx := (s1.core c0).kctx, ring := q0.ring, stage := (match q0.ring with | some g => (ringOf s1 (rowOf c0) g).bind | none => 0), parts := (reqCores s1 c0 q0).map (fun x => match (s1.core x).kreq with | some p => p.part | none => q0.part), launch := (s1.core c0).lkey }, ?_, rfl, rfl, rfl, rfl, rfl⟩
    rw [← hrow]
    unfold acceptReq; simp only [modRow_eq]
    refine (congrArg Row.kops (row_setRow _ _ _)).trans ?_
    simp only
    congr 1
    refine (congrArg Row.kops (f3 _)).trans (tk.trans ?_)
    have : ∀ r, (chargeReq s1 c0 q0).row r = s1.row r := by intro r; simp only [State.row, cr]
    rw [this]; rfl

end Sys2Proof.Machine
end

