-- ==== Sys2Proof/Laws/Events.lean ====
section
/-!
SUPPORT. Laws of the events of the device: folds over cores, links, placements and the release ring.
-/
namespace Sys2Proof.Machine

open Sys2Proof.Safety

/-! ### Lists indexed by number -/

theorem nth_setAt {α : Type} : ∀ (l : List α) (i : Nat) (v d : α), i < l.length → nth (setAt l i v) i d = v := by
  intro l; induction l with
  | nil => intro i v d h; simp at h
  | cons a l ih => intro i v d h; cases i with
    | zero => rfl
    | succ i => exact ih i v d (by simpa using h)

theorem setAt_setAt {α : Type} : ∀ (l : List α) (i : Nat) (v w : α), setAt (setAt l i v) i w = setAt l i w := by
  intro l; induction l with
  | nil => intro i v w; rfl
  | cons a l ih => intro i v w; cases i with
    | zero => rfl
    | succ i => exact congrArg (List.cons a) (ih i v w)

theorem modLink_twice (s : State) (i : Nat) (f g : Link → Link) (h : i < s.links.length) :
    modLink (modLink s i f) i g = modLink s i (fun l => g (f l)) := by
  simp only [modLink, nth_setAt _ _ _ _ h, setAt_setAt]

/-! ### Release ring -/

/-- The entry of a launch that a control core issued goes to that core's ring. -/
theorem ringEntry_issuer {s : State} {l : Launch} {c : CoreId} {i j : Nat} (h1 : findLaunch s i j = some l)
    (h2 : l.issuer = some c) (h3 : l.ringDue = true) (h4 : ringReach s c i = true) :
    ringEntry s i j = ringDone s c i j (ringPut (s.core c) 1 (launchPins l)) := by
  simp only [ringEntry, h1, h2, h3, h4, if_true]

/-- A launch whose entry is not due puts nothing into a ring. -/
theorem ringEntry_idle {s : State} {l : Launch} {i j : Nat} (h1 : findLaunch s i j = some l) (h2 : l.ringDue = false) :
    ringEntry s i j = s := by
  simp only [ringEntry, h1, h2]

theorem ringDone_some {s : State} {c : CoreId} {k : Core} {i j : Nat} {x : Option Core} (h : x = some k) :
    ringDone s c i j x = modLaunch (s.setCore c k) i j (fun l => { l with ringDue := false }) := by
  rw [h]; rfl

/-! ### Placement -/

theorem giveCore_core (s : State) (l : Launch) (i n : Nat) (lf : Life) (ex : Bool) (c y : CoreId) :
    (giveCore s l i n lf ex c).core y = (s.modCore c (fun k => {
      cls := k.cls, ls := k.ls, tlb := k.tlb, lines := k.lines, ic := k.ic
      life := lf, ctx := l.ctx, launch := l.id, logical := n, gang := i, sup := ctxSup s l.ctx
      tcfg := ctxWord s l.ctx 0x28, tent := ctxWord s l.ctx 0x30, sliceExp := ex })).core y := rfl

/-- Cores given to a launch one after the other: each takes its placement, and no other core changes. -/
theorem give_fold (l : Launch) (i : Nat) (lf : Life) (ex : Bool) : ∀ (ms : List (Nat × CoreId)) (s : State),
    (ms.map (fun m => pid m.2)).Nodup →
    let t := ms.foldl (fun s m => giveCore s l i m.1 lf ex m.2) s
    (∀ m ∈ ms, t.core m.2 = {
      cls := (s.core m.2).cls, ls := (s.core m.2).ls, tlb := (s.core m.2).tlb, lines := (s.core m.2).lines
      ic := (s.core m.2).ic, life := lf, ctx := l.ctx, launch := l.id, logical := m.1, gang := i, sup := ctxSup s l.ctx
      tcfg := ctxWord s l.ctx 0x28, tent := ctxWord s l.ctx 0x30, sliceExp := ex }) ∧
    (∀ y, (∀ m ∈ ms, pid m.2 ≠ pid y) → t.core y = s.core y) := by
  intro ms; induction ms with
  | nil => intro s _; exact ⟨fun m hm => (List.not_mem_nil hm).elim, fun y _ => rfl⟩
  | cons m ms ih =>
    intro s hn t
    rw [List.map_cons, List.nodup_cons] at hn
    obtain ⟨h1, h2⟩ := ih (giveCore s l i m.1 lf ex m.2) hn.2
    have hne : ∀ x ∈ ms, pid x.2 ≠ pid m.2 := by
      intro x hx e; exact hn.1 (e ▸ List.mem_map.2 ⟨x, hx, rfl⟩)
    refine ⟨fun x hx => ?_, fun y hy => ?_⟩
    · rcases List.mem_cons.1 hx with e | hx
      · subst e
        refine (h2 x.2 hne).trans ?_
        rw [giveCore_core, modCore_eq, core_setCore]
      · refine (h1 x hx).trans ?_
        rw [giveCore_core, modCore_eq, core_setCore_ne _ _ (hne x hx)]
        rfl
    · refine (h2 y (fun m hm => hy m (List.mem_cons_of_mem _ hm))).trans ?_
      rw [giveCore_core, modCore_eq, core_setCore_ne _ _ (fun e => hy m (List.mem_cons_self) e.symm)]

theorem grantReserve_cores (s : State) : (grantReserve s).cores = s.cores := by
  unfold grantReserve; split <;> rfl

theorem afterPlacing_cores (s : State) (l : Launch) : (afterPlacing s l).cores = s.cores := by
  unfold afterPlacing
  simp only []
  repeat' split
  all_goals rfl

theorem reloadShadows_local (k : Core) :
    ∃ ls sh fl m, reloadShadows k = { k with ls := ls, sh := sh, flags := fl, mask := m } := by
  obtain ⟨ls, sh, h⟩ := normAll_shape specialOffsets
    { k with sh := memShiftDown (memSlice k.ls (k.wp + 0x100) (k.wp + 0x380)) k.wp }
  unfold reloadShadows
  simp only []
  rw [h]
  exact ⟨_, _, _, _, rfl⟩

/-- What the start of the prologue changes on a core. -/
theorem startPrologue_shape (k : Core) (en b w t : Nat) :
    ∃ ls sh fl m pc bu run h3 fi bc sb, startPrologue k en b w t =
      { k with wp := 1024 * w, ls := ls, sh := sh, flags := fl, mask := m, pc := pc, budget := bu, run := run, h3fifo := h3,
               firings := fi, bcMode := bc, sbuf := sb } := by
  obtain ⟨ls, sh, fl, m, h⟩ := changeWp_shape k (1024 * w)
  unfold startPrologue startWords writeWindow
  rw [h]
  exact ⟨_, _, _, _, _, _, _, _, _, _, _, rfl⟩

theorem releaseReady_of {k : Core} (h1 : k.ctf = 0) (h2 : k.ctb = 0) (h3 : k.ldo = 0) (h4 : k.atm = 0) :
    releaseReady k = true := by
  unfold releaseReady; rw [h1, h2, h3, h4]; rfl

end Sys2Proof.Machine
end

