-- ==== Sys2Proof/Laws/Vector.lean ====
section
/-!
SUPPORT. Laws that the vector results share: reads of 64-byte operands, stores of lanes, and the flags and draws of lanes,
each as one local effect.
-/
namespace Sys2Proof.Machine

open Sys2Proof.Safety

theorem effect_vectorLoc {c c1 : Core} {a : Spec} {l : Loc} (h : vectorLoc c a = .ok (l, c1)) :
    LocalEffect c c1 (bumped c [a]) := by
  cases a with
  | w n =>
    simp only [vectorLoc] at h
    first
      | (injection h with h; injection h with _ h; exact h ▸ LocalEffect.refl _ _)
      | (split at h
         · injection h with h; injection h with _ h; exact h ▸ LocalEffect.refl _ _
         · simp [trapS] at h)
  | ptr n post =>
    obtain ⟨_, e⟩ := ptrLoc_ok h
    cases post
    · exact e ▸ LocalEffect.refl _ _
    · rw [e]
      exact (effect_bumpPtr c n.val 64).mono (fun x hx => ⟨n, by simp, hx.1, hx.2⟩)
  | hnd n p => exact handleLoc_ok h ▸ LocalEffect.refl _ _
  | cst k => simp [vectorLoc, trapS] at h
  | imm k => simp [vectorLoc, trapS] at h

theorem effect_readVec {c c1 : Core} {f : Fmt} {a : Spec} {v : Nat} (h : readVec c f a = .ok (v, c1)) :
    LocalEffect c c1 (bumped c [a]) := by
  cases a with
  | cst k =>
    simp only [readVec] at h
    split at h
    · simp [trapS] at h
    · injection h with h; injection h with _ h; exact h ▸ LocalEffect.refl _ _
  | imm k => simp only [readVec] at h; injection h with h; injection h with _ h; exact h ▸ LocalEffect.refl _ _
  | w n =>
    obtain ⟨⟨l, c2⟩, h1, h⟩ := bind_ok h
    obtain ⟨_, _, h⟩ := bind_ok h
    injection h with h; injection h with _ h
    exact h ▸ effect_vectorLoc h1
  | ptr n p =>
    obtain ⟨⟨l, c2⟩, h1, h⟩ := bind_ok h
    obtain ⟨_, _, h⟩ := bind_ok h
    injection h with h; injection h with _ h
    exact h ▸ effect_vectorLoc h1
  | hnd n p =>
    obtain ⟨⟨l, c2⟩, h1, h⟩ := bind_ok h
    obtain ⟨_, _, h⟩ := bind_ok h
    injection h with h; injection h with _ h
    exact h ▸ effect_vectorLoc h1

/-- One more 64-byte source read. -/
theorem effect_vec {c k k1 : Core} {f : Fmt} {a : Spec} {v : Nat} {l : List Spec}
    (h1 : LocalEffect c k (bumped c l)) (hr : readVec k f a = .ok (v, k1)) : LocalEffect c k1 (bumped c (l ++ [a])) := by
  have h2 := effect_readVec hr
  rw [bumped_wp h1.wp] at h2
  exact (h1.mono (bumped_mono (by simp_all))).trans (h2.mono (bumped_mono (by simp)))

/-- One more 64-byte place. -/
theorem effect_place {c k k1 : Core} {a : Spec} {q : Loc} {l : List Spec}
    (h1 : LocalEffect c k (bumped c l)) (hr : vectorLoc k a = .ok (q, k1)) : LocalEffect c k1 (bumped c (l ++ [a])) := by
  have h2 := effect_vectorLoc hr
  rw [bumped_wp h1.wp] at h2
  exact (h1.mono (bumped_mono (by simp_all))).trans (h2.mono (bumped_mono (by simp)))

/-- Lanes stored from index i. -/
theorem effect_storeLanes (size : Nat) (hs : 0 < size) (l : Loc) (on : Nat → Bool) (vs : List Nat) :
    ∀ {c k : Core} {i : Nat}, storeLanes c size l on i vs = .ok k →
      LocalEffect c k (fun x => ∃ j, j < i + vs.length ∧ on j = true ∧ storeTouched c (l.byteAt (size * j)) size x) := by
  induction vs with
  | nil => intro c k i h; injection h with h; exact h ▸ LocalEffect.refl _ _
  | cons v vs ih =>
    intro c k i h
    rw [storeLanes] at h
    cases hon : on i with
    | false =>
      simp only [hon, Bool.false_eq_true, if_false] at h
      refine (ih h).mono ?_
      rintro x ⟨j, hj, r⟩
      exact ⟨j, by simp only [List.length_cons]; omega, r⟩
    | true =>
      simp only [hon, if_true] at h
      obtain ⟨c1, h1, h2⟩ := bind_ok h
      have e2 := ih h2
      have e1 := effect_storeAt h1 (by rw [toBytes_length]; exact hs)
      rw [toBytes_length] at e1
      refine (e1.mono ?_).trans (e2.mono ?_)
      · intro x hx
        exact ⟨i, by simp only [List.length_cons]; omega, hon, hx⟩
      · rintro x ⟨j, hj, r1, r2⟩
        rw [storeTouched_wp e1.wp] at r2
        exact ⟨j, by simp only [List.length_cons]; omega, r1, r2⟩

/-- All lanes of a place stored after some effect. -/
theorem effect_lanes {c k k1 : Core} {size count : Nat} {l : Loc} {on : Nat → Bool} {vs : List Nat} {p : Nat → Prop}
    (h1 : LocalEffect c k p) (hs : 0 < size) (hn : vs.length ≤ count) (h2 : storeLanes k size l on 0 vs = .ok k1) :
    LocalEffect c k1 (fun x => p x ∨ lanesAt c l size count on x) := by
  refine (h1.mono (fun x hx => Or.inl hx)).trans ((effect_storeLanes size hs l on vs h2).mono ?_)
  rintro x ⟨j, hj, r1, r2⟩
  rw [storeTouched_wp h1.wp] at r2
  exact Or.inr ⟨j, by omega, r1, r2⟩

theorem effect_setDrawIndex (c : Core) (d : Nat) : LocalEffect c (setDrawIndex c d) (wordBytes c 0x3A8) := by
  unfold setDrawIndex
  split
  · exact LocalEffect.refl _ _
  · exact effect_setWsWord c 0x3A8 _ (by decide)

theorem effect_sticky (c : Core) (fl : Nat) : LocalEffect c (orSticky c fl) (wordBytes c 0x390) := by
  unfold orSticky
  split
  · exact LocalEffect.refl _ _
  · exact effect_setWsWord c 0x390 _ (by decide)

/-- The flags and draws of lanes. -/
theorem effect_flagged (k : Core) (r : List Nat × Nat × Nat) : LocalEffect k (flagged k r) (flagBytes k) := by
  have e1 := effect_sticky k r.2.1
  refine (e1.mono (fun x hx => Or.inl hx)).trans ((effect_setDrawIndex _ _).mono ?_)
  intro x hx
  unfold wordBytes at hx
  rw [e1.wp] at hx
  exact Or.inr hx

/-- Flags, draws and lanes after some effect. -/
theorem effect_finish {c k k1 : Core} {size count : Nat} {l : Loc} {on : Nat → Bool} {vs : List Nat}
    {r : List Nat × Nat × Nat} {p : Nat → Prop}
    (h1 : LocalEffect c k p) (hs : 0 < size) (hn : vs.length ≤ count)
    (h2 : storeLanes (flagged k r) size l on 0 vs = .ok k1) :
    LocalEffect c k1 (fun x => p x ∨ flagBytes c x ∨ lanesAt c l size count on x) := by
  have e := effect_flagged k r
  have e1 : LocalEffect c (flagged k r) (fun x => p x ∨ flagBytes c x) := by
    refine (h1.mono (fun x hx => Or.inl hx)).trans (e.mono ?_)
    intro x hx
    unfold flagBytes wordBytes at hx
    rw [h1.wp] at hx
    exact Or.inr hx
  exact (effect_lanes e1 hs hn h2).mono (fun x hx => by
    rcases hx with (hx | hx) | hx
    · exact Or.inl hx
    · exact Or.inr (Or.inl hx)
    · exact Or.inr (Or.inr hx))

theorem effect_scatterLanes (n : Nat) (hn : 0 < n / 8) (base : Int) (y x : Nat) (l : List Nat) :
    ∀ {c k : Core}, scatterLanes n base y x l c = .ok k →
      LocalEffect c k (fun q => ∃ j ∈ l, storeTouched c (laneAddr n base y j).toNat (n / 8) q) := by
  induction l with
  | nil => intro c k h; injection h with h; exact h ▸ LocalEffect.refl _ _
  | cons i l ih =>
    intro c k h
    obtain ⟨c1, h1, h2⟩ := bind_ok h
    have e1 := effect_storeAt h1 (by rw [toBytes_length]; exact hn)
    rw [toBytes_length] at e1
    refine (e1.mono (fun q hq => ⟨i, by simp, hq⟩)).trans ((ih h2).mono ?_)
    rintro q ⟨j, hj, r⟩
    rw [storeTouched_wp e1.wp] at r
    exact ⟨j, by simp [hj], r⟩

theorem effect_histLanes (base n x p : Nat) (l : List Nat) :
    ∀ {c k : Core}, histLanes base n x p l c = .ok k →
      LocalEffect c k (fun q => ∃ j ∈ l, storeTouched c (base + 4 * (lane n x j / 2 ^ p % 256)) 4 q) := by
  induction l with
  | nil => intro c k h; injection h with h; exact h ▸ LocalEffect.refl _ _
  | cons i l ih =>
    intro c k h
    obtain ⟨v, _, h⟩ := bind_ok h
    obtain ⟨c1, h1, h2⟩ := bind_ok h
    have e1 := effect_storeAt h1 (by rw [toBytes_length]; omega)
    rw [toBytes_length] at e1
    refine (e1.mono (fun q hq => ⟨i, by simp, hq⟩)).trans ((ih h2).mono ?_)
    rintro q ⟨j, hj, r⟩
    rw [storeTouched_wp e1.wp] at r
    exact ⟨j, by simp [hj], r⟩

/-- As many results as lanes. -/
theorem runLanes_length (c : Core) (g : Nat → Nat → Rnd) (l : List Nat) : ∀ d, (runLanes c g l d).1.length = l.length := by
  induction l with
  | nil => intro d; rfl
  | cons i l ih =>
    intro d
    unfold runLanes
    split
    · simp [ih]
    · simp [ih]

theorem vfmt_bits (t : VType) : fmtBits (vfmt t) = 32 ∨ fmtBits (vfmt t) = 16 ∨ fmtBits (vfmt t) = 8 := by
  cases t <;> decide

/-! ### The checks of a gather or scatter (R146) -/

/-- A lane's address lies in local store. -/
def lanePresent (c : Core) (n : Nat) (base : Int) (y q : Nat) : Prop :=
  0 ≤ laneAddr n base y q ∧ laneAddr n base y q ≤ 0x1FFFF ∧ laneAddr n base y q + (n / 8 : Nat) ≤ (c.top : Int)

theorem checkLanes_pass {c : Core} {n : Nat} {base : Int} {y : Nat} (rest : List Nat) : ∀ {l : List Nat},
    (∀ q ∈ l, lanePresent c n base y q ∧ (laneAddr n base y q).toNat % (n / 8) = 0) →
      checkLanes c n base y (l ++ rest) = checkLanes c n base y rest
  | [], _ => rfl
  | q :: l, h => by
    obtain ⟨⟨h1, h2, h3⟩, h4⟩ := h q (by simp)
    have e : (laneAddr n base y q).toNat + n / 8 ≤ c.top := by omega
    simp only [List.cons_append, checkLanes, needS, guardS, checkLocal, bind, Except.bind]
    simp only [h1, h2, h4, e, decide_true, Bool.and_self, if_true, beq_self_eq_true]
    exact checkLanes_pass rest (fun r hr => h r (by simp [hr]))

/-- The first lane whose check fails gives the trap. -/
theorem checkLanes_fails {c : Core} {n : Nat} {base : Int} {y : Nat} {l rest : List Nat} {j : Nat}
    (h : ∀ q ∈ l, lanePresent c n base y q ∧ (laneAddr n base y q).toNat % (n / 8) = 0) :
    (¬ lanePresent c n base y j → checkLanes c n base y (l ++ j :: rest) =
      .error (.trap { cause := .fabric, addr := toPattern 64 (laneAddr n base y j) })) ∧
    (lanePresent c n base y j → (laneAddr n base y j).toNat % (n / 8) ≠ 0 → checkLanes c n base y (l ++ j :: rest) =
      .error (.trap { cause := .align, addr := (laneAddr n base y j).toNat })) := by
  rw [checkLanes_pass _ h]
  refine ⟨fun hp => ?_, fun ⟨h1, h2, h3⟩ h4 => ?_⟩
  · by_cases hr : 0 ≤ laneAddr n base y j ∧ laneAddr n base y j ≤ 0x1FFFF
    · have e : ¬ (laneAddr n base y j).toNat + n / 8 ≤ c.top := fun he => hp ⟨hr.1, hr.2, by omega⟩
      simp [checkLanes, needS, guardS, checkLocal, trapS, bind, Except.bind, hr, e, toPattern_local hr.1 hr.2]
    · simp [checkLanes, needS, guardS, trapS, bind, Except.bind, hr]
  · have e : (laneAddr n base y j).toNat + n / 8 ≤ c.top := by omega
    simp [checkLanes, needS, guardS, checkLocal, trapS, bind, Except.bind, h1, h2, h4, e]

/-- The lanes that a mask selects, cut at one of them. -/
theorem filter_range_cut (p : Nat → Bool) {j count : Nat} (hj : j < count) (hp : p j = true) :
    ∃ rest, (List.range count).filter p = (List.range j).filter p ++ j :: rest := by
  obtain ⟨m, rfl⟩ : ∃ m, count = j + 1 + m := ⟨count - (j + 1), by omega⟩
  refine ⟨((List.range m).map (j + 1 + ·)).filter p, ?_⟩
  rw [List.range_add, List.range_succ]
  simp [List.filter_append, hp]

end Sys2Proof.Machine
end

