-- ==== Sys2Proof/Laws/Words.lean ====
section
/-!
SUPPORT. The workspace words w0 to w31 as memory: they stand in local store alone, and a store to them reads back.
-/
namespace Sys2Proof.Machine

open Sys2Proof.Safety

/-- Below the flags word of its workspace, and above the workspace, a byte keeps all its bits. -/
theorem keepByte_out {wp a : Nat} (b : Byte) (h : a < wp + 0x380 ∨ wp + 0x400 ≤ a) : keepByte wp a b = b := by
  unfold keepByte
  rw [if_neg (by omega)]

/-- Bytes written among w0 to w31 go to local store. -/
theorem setLocalBytes_low (bs : List Byte) : ∀ (c : Core) (a : Nat), c.wp ≤ a → a + bs.length ≤ c.wp + 0x100 →
    setLocalBytes c a bs = { c with ls := memPut c.ls a bs } := by
  induction bs with
  | nil => intro c a _ _; rfl
  | cons b bs ih =>
    intro c a h1 h2
    simp only [List.length_cons] at h2
    have e : setLocalByte c a b = { c with ls := memSet c.ls a b } := by
      have h3 : ¬ a < c.wp := by omega
      have h4 : shadowed (a - c.wp) = false := by simp [shadowed]; omega
      have h5 : countByte (a - c.wp) = false := by simp [countByte]; omega
      simp [setLocalByte, h3, h4, h5, keepByte_out b (wp := c.wp) (a := a) (by omega)]
    rw [setLocalBytes, e, ih _ _ (by simp; omega) (by simp; omega)]
    rfl

/-- A store among w0 to w31 meets no special word. -/
theorem putLocal_low (c : Core) (o : Nat) (bs : List Byte) (h : o + bs.length ≤ 0x100) :
    putLocal c (c.wp + o) bs = { c with ls := memPut c.ls (c.wp + o) bs } := by
  have hm : ∀ p, 0x300 ≤ p → meets (c.wp + o) bs.length (c.wp + p) 8 = false := by
    intro p hp; simp [meets]; omega
  unfold putLocal
  rw [setLocalBytes_low bs c _ (by omega) (by omega)]
  unfold afterStore
  have hf : (specialOffsets.filter (fun p => meets (c.wp + o) bs.length (c.wp + p) 8)) = [] := by
    apply List.filter_eq_nil_iff.2
    intro p hp
    have : ∀ q ∈ specialOffsets, 0x300 ≤ q := by decide
    simp [hm p (this p hp)]
  simp only [hf, List.foldl_nil, hm 0x380 (by decide), hm 0x388 (by decide)]
  rfl

theorem localByte_low (c : Core) (x : Nat) (h1 : c.wp ≤ x) (h2 : x < c.wp + 0x100) : localByte c x = memGet c.ls x := by
  have h3 : ¬ x < c.wp := by omega
  have h4 : shadowed (x - c.wp) = false := by simp [shadowed]; omega
  have h5 : countByte (x - c.wp) = false := by simp [countByte]; omega
  simp [localByte, h3, h4, h5, keepByte_out _ (wp := c.wp) (a := x) (by omega)]

theorem localBytes_low (c : Core) (n : Nat) : ∀ a, c.wp ≤ a → a + n ≤ c.wp + 0x100 → localBytes c a n = memBytes c.ls a n := by
  induction n with
  | zero => intro a _ _; rfl
  | succ n ih =>
    intro a h1 h2
    simp only [localBytes, memBytes, localByte_low c a h1 (by omega), ih (a + 1) (by omega) (by omega)]

theorem readLocal_low (c : Core) (a n : Nat) (h1 : c.wp ≤ a) (h2 : a + n ≤ c.wp + 0x100) : readLocal c a n = memRead c.ls a n := by
  unfold readLocal memRead
  rw [localBytes_low c n a h1 h2]

/-- Part of the bytes just written. -/
theorem memBytes_memPut_part (m : Mem) (a : Nat) (bs : List Byte) (i n : Nat) (h : Memory.wf m = true)
    (hn : i + n ≤ bs.length) : memBytes (memPut m a bs) (a + i) n = (bs.drop i).take n := by
  apply List.ext_getElem (by simp [memBytes_length]; omega)
  intro j h1 h2
  rw [memBytes_length] at h1
  rw [memBytes_getElem, show a + i + j = a + (i + j) by omega, memGet_memPut_in _ _ _ _ h (by omega)]
  simp

/-- The words of a list stand one after another in its bytes. -/
theorem flatten_word (l : List Nat) : ∀ n, n < l.length →
    ((l.map (toBytes 8)).flatten.drop (8 * n)).take 8 = toBytes 8 (nth l n 0) := by
  induction l with
  | nil => intro n h; simp at h
  | cons x l ih =>
    intro n h
    have hl : (toBytes 8 x).length = 8 := toBytes_length 8 x
    cases n with
    | zero => simp [nth, List.take_append, hl]
    | succ n =>
      have := ih n (by simpa using h)
      simp only [List.map_cons, List.flatten_cons]
      rw [List.drop_append, hl, List.drop_eq_nil_of_le (by rw [hl]; omega), List.nil_append,
        show 8 * (n + 1) - 8 = 8 * n by omega, this]
      simp [nth]

theorem flatten_words_length (l : List Nat) : ((l.map (toBytes 8)).flatten).length = 8 * l.length := by
  induction l with
  | nil => rfl
  | cons x l ih => simp [ih, toBytes_length]; omega

/-! ### Words of shadows and of the words above them -/

/-- The mask word and the words 0x3A0 and 0x3A8 have no reserved bits. -/
theorem keepByte_all {wp a : Nat} (b : Byte) (h : (wp + 0x388 ≤ a ∧ a < wp + 0x390) ∨ (wp + 0x3A0 ≤ a ∧ a < wp + 0x3B0)) :
    keepByte wp a b = b := by
  obtain ⟨i, rfl⟩ : ∃ i, a = wp + i := ⟨a - wp, by omega⟩
  have e : keptBits ((wp + i - wp) / 8 * 8) = 2 ^ 64 - 1 := by
    rw [Nat.add_sub_cancel_left]
    rcases (by omega : i / 8 * 8 = 0x388 ∨ i / 8 * 8 = 0x3A0 ∨ i / 8 * 8 = 0x3A8) with h | h | h <;> rw [h] <;> decide
  have e2 : BitVec.ofNat 8 ((2 ^ 64 - 1) / 2 ^ (8 * ((wp + i - wp) % 8))) = BitVec.allOnes 8 := by
    rw [Nat.add_sub_cancel_left]
    have : ∀ j < 8, BitVec.ofNat 8 ((2 ^ 64 - 1) / 2 ^ (8 * j)) = BitVec.allOnes 8 := by decide
    exact this _ (Nat.mod_lt _ (by decide))
  unfold keepByte
  rw [if_pos (by omega), e, e2, BitVec.and_allOnes]

/-- Bytes with no reserved bits that stand in local store are read there. -/
theorem localBytes_ls (c : Core) (n : Nat) : ∀ a, (∀ x, a ≤ x → x < a + n →
    x < c.wp ∨ c.wp + 0x400 ≤ x ∨ (c.wp + 0x388 ≤ x ∧ x < c.wp + 0x390) ∨ (c.wp + 0x3A0 ≤ x ∧ x < c.wp + 0x3B0)) →
    localBytes c a n = memBytes c.ls a n := by
  induction n with
  | zero => intro a _; rfl
  | succ n ih =>
    intro a h
    have e : localByte c a = memGet c.ls a := by
      unfold localByte
      rcases h a (Nat.le_refl _) (by omega) with h1 | h1 | h1
      · simp [h1]
      · rw [if_neg (by omega), if_neg (by simp [shadowed]; omega), if_neg (by simp [countByte]; omega),
          keepByte_out _ (by omega)]
      · rw [if_neg (by omega), if_neg (by simp [shadowed]; omega), if_neg (by simp [countByte]; omega),
          keepByte_all _ h1]
    simp only [localBytes, memBytes, e]
    rw [ih (a + 1) (fun x h1 h2 => h x (by omega) (by omega))]

/-- The mask word and the words 0x3A0 and 0x3A8 have no reserved bits and stand in local store. -/
theorem wsWord_ls (c : Core) (o : Nat) (h : o = 0x388 ∨ o = 0x3A0 ∨ o = 0x3A8) :
    wsWord c o = memRead c.ls (c.wp + o) 8 := by
  unfold wsWord readLocal memRead
  rw [localBytes_ls]
  intro x h3 h4
  omega

theorem ofBytes_zero : ∀ {l : List Byte}, ofBytes l = 0 → ∀ b ∈ l, b = 0
  | [], _, _, h => (List.not_mem_nil h).elim
  | a :: l, h, b, hb => by
    simp only [ofBytes] at h
    rcases List.mem_cons.1 hb with e | hb
    · subst e; exact BitVec.eq_of_toNat_eq (by simp; omega)
    · exact ofBytes_zero (l := l) (by omega) b hb

theorem ofBytes_of_zero : ∀ {l : List Byte}, (∀ b ∈ l, b = 0) → ofBytes l = 0
  | [], _ => rfl
  | a :: l, h => by
    simp only [ofBytes]
    rw [h a List.mem_cons_self, ofBytes_of_zero (fun b hb => h b (List.mem_cons_of_mem _ hb))]
    rfl

/-- Where the sticky flags word is zero in local store, no flag is set. -/
theorem stickyWord_zero (c : Core) (h : memRead c.ls (c.wp + 0x390) 8 = 0) : stickyWord c = 0 := by
  have e : ∀ x, c.wp + 0x390 ≤ x → x < c.wp + 0x398 → memGet c.ls x = 0 → localByte c x = 0 := by
    intro x h1 h2 h3
    unfold localByte
    rw [if_neg (by omega), if_neg (by simp [shadowed]; omega), if_neg (by simp [countByte]; omega), h3]
    unfold keepByte
    split <;> simp
  have z := ofBytes_zero h
  simp only [memBytes, List.mem_cons, List.not_mem_nil, or_false, forall_eq_or_imp, forall_eq] at z
  obtain ⟨z0, z1, z2, z3, z4, z5, z6, z7⟩ := z
  refine ofBytes_of_zero (fun b hb => ?_)
  simp only [localBytes, List.mem_cons, List.not_mem_nil, or_false] at hb
  rcases hb with r | r | r | r | r | r | r | r <;> subst r <;> exact e _ (by omega) (by omega) (by assumption)

/-- A word held in a shadow. -/
theorem wsWord_sh (c : Core) (o : Nat) (h1 : 0x100 ≤ o) (h2 : o + 8 ≤ 0x380) : wsWord c o = memRead c.sh o 8 := by
  unfold wsWord readLocal memRead
  have : ∀ n p, 0x100 ≤ p → p + n ≤ 0x380 → localBytes c (c.wp + p) n = memBytes c.sh p n := by
    intro n
    induction n with
    | zero => intro p _ _; rfl
    | succ n ih =>
      intro p h3 h4
      have e : localByte c (c.wp + p) = memGet c.sh p := by
        unfold localByte
        have h5 : ¬ c.wp + p < c.wp := by omega
        have h6 : c.wp + p - c.wp = p := by omega
        have h7 : shadowed p = true := by simp [shadowed]; omega
        rw [if_neg h5, h6, if_pos h7]
      simp only [localBytes, memBytes, e]
      rw [show c.wp + p + 1 = c.wp + (p + 1) by omega, ih (p + 1) (by omega) (by omega)]
  rw [this 8 o h1 h2]

theorem writeBack_wf {c : Core} (h : localWf c) : localWf (writeBack c) :=
  ⟨memWrite_wf _ _ _ _ (memCopy_wf _ _ _ _ _ h.1), h.2⟩

theorem reloadShadows_wf {c : Core} (h : localWf c) : localWf (reloadShadows c) := by
  have h1 : localWf { c with sh := memShiftDown (memSlice c.ls (c.wp + 0x100) (c.wp + 0x380)) c.wp } :=
    ⟨h.1, memShiftDown_wf _ _ (memSlice_wf _ _ _ h.1)⟩
  have h2 := normAll_wf specialOffsets h1
  unfold reloadShadows
  simp only
  generalize List.foldl normAt _ _ = k at h2 ⊢
  exact ⟨h2.1, h2.2⟩

theorem changeWp_wf {c : Core} {wp : Nat} (h : localWf c) : localWf (changeWp c wp) := by
  unfold changeWp
  split
  · exact h
  · have := writeBack_wf h
    exact reloadShadows_wf (c := { writeBack c with wp := wp }) ⟨this.1, this.2⟩

end Sys2Proof.Machine
end

