-- ==== Sys2Proof/Laws/Fabric.lean ====
section
/-!
SUPPORT. Laws of fabric accesses, messages and memory read back.
-/
namespace Sys2Proof.Machine

open Sys2Proof.Safety

theorem issued_wait (i : Instr) (n : Nat) (s : State) (w : FWait) : waitClear (issued i n s) w = waitClear (s.core s.cur) w := by
  cases w <;> simp [waitClear, issued]

theorem issued_fence (i : Instr) (n : Nat) (s : State) : fenceClear (issued i n s) = fenceClear (s.core s.cur) := by
  simp [fenceClear, issued]

theorem issued_rel (i : Instr) (n : Nat) (s : State) : releaseReady (issued i n s) = releaseReady (s.core s.cur) := by
  simp [releaseReady, issued]

theorem issueStore_ok {i : Instr} {n : Nat} {s : State} {w : FWait} {o : Order} 
   (h : waitClear (s.core s.cur) w = true ∧ (isRel o = true → (s.core s.cur).ctf = 0 ∧ (s.core s.cur).ctb = 0 ∧ (s.core s.cur).ldo = 0 ∧ (s.core s.cur).atm = 0) ∧ fenceClear (s.core s.cur) = true) :
   issueStore (issuedState i n s) s.cur w o = .ok () := by
  obtain ⟨h1, h2, h3⟩ := h
  have hr : (!isRel o || releaseReady (s.core s.cur)) = true := by
    cases ho : isRel o
    · rfl
    · obtain ⟨a, b, c, d⟩ := h2 ho; simp [releaseReady, a, b, c, d]
  simp only [issueStore, issuedState_core, issued_wait, issued_fence, issued_rel, h1, h3, hr, untilD, bind, Except.bind, if_true]

/-- Where the wait field, the order or an earlier fence holds it, it waits. -/
theorem issueStore_wait {i : Instr} {n : Nat} {s : State} {w : FWait} {o : Order}
   (h : ¬ (waitClear (s.core s.cur) w = true ∧ (isRel o = true → (s.core s.cur).ctf = 0 ∧ (s.core s.cur).ctb = 0 ∧
     (s.core s.cur).ldo = 0 ∧ (s.core s.cur).atm = 0) ∧ fenceClear (s.core s.cur) = true)) :
   issueStore (issuedState i n s) s.cur w o = .error (.wait (issuedState i n s)) := by
  simp only [issueStore, issuedState_core, issued_wait, issued_fence, issued_rel, untilD, bind, Except.bind]
  cases h1 : waitClear (s.core s.cur) w
  · rfl
  · simp only [if_true]
    cases h2 : (!isRel o || releaseReady (s.core s.cur))
    · rfl
    · simp only [if_true]
      cases h3 : fenceClear (s.core s.cur)
      · rfl
      · refine absurd ⟨h1, fun ho => ?_, h3⟩ h
        simp only [ho, Bool.not_true, Bool.false_or, releaseReady, Bool.and_eq_true, beq_iff_eq] at h2
        exact ⟨h2.1.1.1, h2.1.1.2, h2.1.2, h2.2⟩

theorem fold_words (l : List Msg) : ∀ n, (l.map (fun m => m.words.length)).foldl (· + ·) n = l.foldl (fun n m => n + m.words.length) n := by
  induction l with
  | nil => intro n; rfl
  | cons m l ih => intro n; simp [ih]

theorem buf_ok {s : State} {c : CoreId} {dest : Nat} {ws : List Nat} {k : Core} (hk : s.core c = k) (h1 : k.sout = []) (h2 : k.sbuf.foldl (fun n m => n + m.words.length) 0 + ws.length ≤ 32) (h3 : k.sbuf.length < 16) :
   bufferMessage s c dest ws = .ok (s.setCore c { dropFence k with sbuf := k.sbuf ++ [newMessage s c dest ws .ordinary], midc := (k.midc + 1) % 2 ^ 16 }) := by
  subst hk
  simp [bufferMessage, fold_words, h1, h2, h3, untilD, needD, bind, Except.bind]

theorem buf_wait {s : State} {c : CoreId} {dest : Nat} {ws : List Nat} (h : (s.core c).sout ≠ []) :
   bufferMessage s c dest ws = .error (.wait s) := by
  simp [bufferMessage, untilD, h, bind, Except.bind]

theorem buf_trap {s : State} {c : CoreId} {dest : Nat} {ws : List Nat} {k : Core} (hk : s.core c = k) (h1 : k.sout = []) (h2 : 32 < k.sbuf.foldl (fun n m => n + m.words.length) 0 + ws.length ∨ 16 ≤ k.sbuf.length) :
   bufferMessage s c dest ws = .error (.trap { cause := .delivery, sub := 3, addr := dest }) := by
  subst hk
  simp only [bufferMessage, fold_words, h1, untilD, needD, bind, Except.bind, List.isEmpty_nil, if_true]
  rw [if_neg]
  · rfl
  · simp; intro h; omega

theorem sl_congr {s s' : State} {m : Msg} {x : CoreId} (hm : m.src = some x) (h : s'.core x = s.core x) : senderLives s' m = senderLives s m := by
  simp [senderLives, hm, h]

theorem lower_ok {s s' : State} {m : Msg} {x : CoreId} (hm : m.src = some x) (h : s'.core x = s.core x) (hs : senderLives s m = some x) : lowerCtm s' m = s'.setCore x { s.core x with ctm := (s.core x).ctm - 1 } := by
  simp [lowerCtm, sl_congr hm h, hs, modCore_eq, h]

theorem delivers (bs : List Byte) : ∀ (k : Core) (a : Nat), ∃ ls, deliver k a bs = { k with ls := ls } ∧ (k.hasWorkspace = false → ls = memPut k.ls a bs) := by
  induction bs with
  | nil => intro k a; exact ⟨k.ls, rfl, fun _ => rfl⟩
  | cons b bs ih =>
    intro k a
    have : ∃ l1, deliverByte k a b = { k with ls := l1 } ∧ (k.hasWorkspace = false → l1 = memSet k.ls a b) := by
      unfold deliverByte
      cases h : k.hasWorkspace
      · exact ⟨_, rfl, fun _ => rfl⟩
      · simp only [if_true]
        split
        · exact ⟨k.ls, rfl, fun h2 => nomatch h2⟩
        · exact ⟨_, rfl, fun h2 => nomatch h2⟩
    obtain ⟨l1, e1, w1⟩ := this
    obtain ⟨l2, e2, w2⟩ := ih { k with ls := l1 } (a + 1)
    refine ⟨l2, ?_, ?_⟩
    · rw [deliver, e1, e2]
    · intro h; rw [w2 h, w1 h]; rfl

theorem raise_shape (k : Core) (ch n : Nat) : ∃ ls sh, raiseH3 k ch n = { k with ls := ls, sh := sh } ∧ (k.h3fifo = false → ls = k.ls) := by
  unfold raiseH3
  split
  · rename_i h
    have hh : k.h3fifo = true := by simp at h; exact h.1
    split
    · exact ⟨k.ls, _, rfl, fun _ => rfl⟩
    · exact ⟨_, k.sh, rfl, fun q => by rw [hh] at q; cases q⟩
  · exact ⟨k.ls, k.sh, rfl, fun _ => rfl⟩

theorem toBytes_get (n : Nat) : ∀ (v i : Nat) (h : i < (toBytes n v).length), (toBytes n v)[i] = BitVec.ofNat 8 (v / 2 ^ (8 * i)) := by
  induction n with
  | zero => intro v i h; simp [toBytes] at h
  | succ n ih =>
    intro v i h
    cases i with
    | zero => simp [toBytes]
    | succ j =>
      simp only [toBytes, List.getElem_cons_succ]
      rw [ih, Nat.div_div_eq_div_mul]
      congr 2
      rw [Nat.mul_succ, Nat.pow_add, Nat.mul_comm]

theorem ext_from : ∀ (m m2 : Mem) (lo : Nat), memFrom lo m = true → memFrom lo m2 = true → (∀ x, memGet m x = memGet m2 x) → m = m2
  | [], [], _, _, _, _ => rfl
  | [], (k, v) :: m2, lo, _, h2, h => by
    have := h k; rw [memFrom_cons] at h2; simp [memGet] at this; exact absurd this.symm h2.1.2
  | (k, v) :: m, [], lo, h1, _, h => by
    have := h k; rw [memFrom_cons] at h1; simp [memGet] at this; exact absurd this h1.1.2
  | (k, v) :: m, (k2, v2) :: m2, lo, h1, h2, h => by
    rw [memFrom_cons] at h1 h2
    have hk : k = k2 := by
      rcases Nat.lt_trichotomy k k2 with q | q | q
      · have := h k; simp [memGet, q, Nat.ne_of_gt q] at this; exact absurd this h1.1.2
      · exact q
      · have := h k2; simp [memGet, q, Nat.ne_of_gt q] at this; exact absurd this.symm h2.1.2
    subst hk
    have hv : v = v2 := by have := h k; simpa [memGet] using this
    subst hv
    rw [ext_from m m2 (k + 1) h1.2 h2.2 ?_]
    intro x
    by_cases hx : x < k + 1
    · rw [memGet_below h1.2 hx, memGet_below h2.2 hx]
    · have := h x
      have a1 : ¬ k = x := by omega
      have a2 : ¬ x < k := by omega
      simpa [memGet, a1, a2] using this

/-- Words that land change the core's bytes, its channels and its headers alone. -/
theorem landWords_shape {k k' : Core} {ch hdr : Nat} {ws : List Nat} (h : landWords k ch hdr ws = some k') :
    ∃ ls sh chans hdrs, k' = { k with ls := ls, sh := sh, chans := chans, hdrs := hdrs } := by
  unfold landWords at h
  simp only at h
  split at h
  · cases h
  · split at h
    · cases h
    · rename_i q skip _
      injection h with h
      have e1 : ∃ l1, (if skip = 0 then k else deliver k (8 * ((nth k.chans ch {}).base + ((nth k.chans ch {}).head +
          (nth k.chans ch {}).fill) % (nth k.chans ch {}).size)) (toBytes 8 (0xFFFFFFFF00000000 + skip))) = { k with ls := l1 } := by
        split
        · exact ⟨k.ls, rfl⟩
        · exact (delivers _ _ _).imp (fun _ h => h.1)
      obtain ⟨l1, e1⟩ := e1
      rw [e1] at h
      obtain ⟨l2, e2, _⟩ := delivers ((ws.map (toBytes 8)).flatten) { k with ls := l1 } (8 * ((nth k.chans ch {}).base + q))
      rw [e2] at h
      rw [← h]
      obtain ⟨l3, sh3, e3, _⟩ := raise_shape { k with ls := l2, chans := _, hdrs := _ } ch ws.length
      exact ⟨_, _, _, _, e3⟩

/-- The sender of an item is there while its core has the same life, context and launch. -/
theorem sl_keeps {s s' : State} {m : Msg} {x : CoreId} (hm : m.src = some x) (h : (s'.core x).life = (s.core x).life ∧
    (s'.core x).ctx = (s.core x).ctx ∧ (s'.core x).launch = (s.core x).launch) : senderLives s' m = senderLives s m := by
  simp [senderLives, hm, h]

theorem lower_keeps {s s' : State} {m : Msg} {x : CoreId} (hm : m.src = some x) (h : (s'.core x).life = (s.core x).life ∧
    (s'.core x).ctx = (s.core x).ctx ∧ (s'.core x).launch = (s.core x).launch) (hs : senderLives s m = some x) :
    lowerCtm s' m = s'.setCore x { s'.core x with ctm := (s'.core x).ctm - 1 } := by
  simp [lowerCtm, sl_keeps hm h, hs, modCore_eq]

/-- One core put in place keeps every core's life, context and launch where it keeps its own. -/
theorem setCore_keeps (s : State) (c x : CoreId) (k : Core) (h : k.life = (s.core c).life ∧ k.ctx = (s.core c).ctx ∧
    k.launch = (s.core c).launch) : ((s.setCore c k).core x).life = (s.core x).life ∧ ((s.setCore c k).core x).ctx = (s.core x).ctx ∧
    ((s.setCore c k).core x).launch = (s.core x).launch := by
  by_cases hx : pid x = pid c
  · have e1 : (s.setCore c k).core x = k := by
      have h1 := core_setCore s c k
      unfold State.core at h1 ⊢
      rw [hx]
      simp [State.setCore]
    have e2 : (s.core x).life = (s.core c).life ∧ (s.core x).ctx = (s.core c).ctx ∧ (s.core x).launch = (s.core c).launch := by
      unfold State.core
      rw [hx]
      cases alookup (pid c) s.cores <;> exact ⟨rfl, rfl, rfl⟩
    rw [e1, e2.1, e2.2.1, e2.2.2]; exact h
  · rw [core_setCore_ne _ _ hx]; exact ⟨rfl, rfl, rfl⟩

end Sys2Proof.Machine
end

