-- ==== Sys2Proof/Laws/Instructions.lean ====
section
/-!
SUPPORT. Laws of scalar and vector instructions: what an instruction of each shape answers, and where a raised flag traps.
-/
namespace Sys2Proof.Machine

open Sys2Proof.Safety

theorem two_core {o : Op2} {i : Instr} {t : IType} {d a b : Spec} {s : State} {x y : Nat} {k1 k2 k3 : Core} {v : Nat}
    (hexec : exec i s = scalarOp i (scalar2 o t d a b) s)
    (hr : ready i s) (h1 : readSrc (issued i 1 s) (ifmt t) a = .ok (x, k1)) (h2 : readSrc k1 (ifmt t) b = .ok (y, k2))
    (hv : v = op2 o (fmtSigned (ifmt t)) (fmtBits (ifmt t)) x y)
    (h3 : writeDst k2 (ifmt t) d v = .ok k3) : completes i 1 s k3 (operandBytes (s.core s.cur) k2 (ifmt t) d [a, b]) := by
  subst hv
  constructor
  · rw [hexec]
    exact scalarOp_ok hr (by simp [scalar2, h1, h2, h3, bind, Except.bind])
  · exact (effect_two h1 h2 h3).mono (operandBytes_wp (issued_wp i 1 s) _ _ _)

theorem src1 {c : Core} {f : Fmt} {a : Spec} {x : Nat} {k : Core} (h : readSrc c f a = .ok (x, k)) :
  LocalEffect c k (bumped c [a]) := effect_readSrc h

theorem src2 {c : Core} {f g : Fmt} {a b : Spec} {x y : Nat} {k k2 : Core} (h : readSrc c f a = .ok (x, k))
  (h2 : readSrc k g b = .ok (y, k2)) : LocalEffect c k2 (bumped c [a, b]) := effect_src (src1 h) h2

theorem one_core {o : Op1} {i : Instr} {t : IType} {d a : Spec} {s : State} {x : Nat} {k1 k2 : Core} {v : Nat}
    (hexec : exec i s = scalarOp i (scalar1 o t d a) s)
    (hr : ready i s) (h1 : readSrc (issued i 1 s) (ifmt t) a = .ok (x, k1)) 
    (hv : op1 o (fmtSigned (ifmt t)) (fmtBits (ifmt t)) x = (v, 0))
    (h3 : writeDst k1 (ifmt t) d v = .ok k2) : completes i 1 s k2 (operandBytes (s.core s.cur) k1 (ifmt t) d [a]) := by
  constructor
  · rw [hexec]
    exact scalarOp_ok hr (scalar1_ok h1 hv (by simp [raiseFlags, natAnd, orSticky]) h3)
  · exact (effect_dst (src1 h1) (fun x h => h) h3).mono (operandBytes_wp (issued_wp i 1 s) _ _ _)

theorem issued_flags (i : Instr) (n : Nat) (s : State) : (issued i n s).flags = (s.core s.cur).flags := by simp [issued]

theorem bits_size (f : Fmt) (h : fmtBits f = 32 ∨ fmtBits f = 16 ∨ fmtBits f = 8) : 0 < fmtBits f / 8 := by omega

theorem finish_ok {k c k1 : Core} {bits : Nat} {l : Loc} {r : List Nat × Nat × Nat} (hq : Safety.quiet k r.2.1)
   (h : storeLanes (flagged k r) (bits / 8) l (active c) 0 r.1 = .ok k1) : finishLanes k c bits l r = .ok k1 := by
  simp only [finishLanes, raiseFlags_ok hq, bind, Except.bind]; exact h

theorem vec1_ok {t : VType} {d a : Spec} {g : Fmt → Nat → Nat → Rnd} {k k1 k2 k3 : Core} {x : Nat} {l : Loc}
   (h1 : readVec k (vfmt (chooseV k t)) a = .ok (x, k1)) (h2 : vectorLoc k1 d = .ok (l, k2))
   (hq : Safety.quiet k2 (runLanes k (fun u i => g (vfmt (chooseV k t)) u (lane (fmtBits (vfmt (chooseV k t))) x i)) (List.range (512 / fmtBits (vfmt (chooseV k t)))) (drawIndex k)).2.1)
   (h4 : storeLanes (flagged k2 (runLanes k (fun u i => g (vfmt (chooseV k t)) u (lane (fmtBits (vfmt (chooseV k t))) x i)) (List.range (512 / fmtBits (vfmt (chooseV k t)))) (drawIndex k))) (fmtBits (vfmt (chooseV k t)) / 8) l (active k) 0 (runLanes k (fun u i => g (vfmt (chooseV k t)) u (lane (fmtBits (vfmt (chooseV k t))) x i)) (List.range (512 / fmtBits (vfmt (chooseV k t)))) (drawIndex k)).1 = .ok k3) :
   vec1 t d a g k = .ok k3 := by
  simp only [vec1, bind, Except.bind, h1, h2]
  exact finish_ok hq h4

theorem flag_dst {c k k1 : Core} {r : List Nat × Nat × Nat} {f : Fmt} {d : Spec} {v : Nat} {l : List Spec} (h1 : LocalEffect c k (bumped c l))
   (h : writeDst (flagged k r) f d v = .ok k1) : LocalEffect c k1 (fun z => flagBytes c z ∨ operandBytes c (flagged k r) f d l z) := by
  refine effect_dst_or (q := flagBytes c) ?_ h
  refine (h1.mono (fun x hx => Or.inr hx)).trans ((effect_flagged k r).mono ?_)
  intro x hx; unfold flagBytes wordBytes at hx; rw [h1.wp] at hx; exact Or.inl hx

theorem lanesOf_length (n x : Nat) : (lanesOf n x).length = 512 / n := by simp [lanesOf]

theorem put_ok {i : Instr} {s : State} {d : Spec} {l : Loc} {kf k3 k4 : Core} {n cnt : Nat} {on : Nat → Bool} {vs : List Nat} {used : List Spec}
   {g : Core → Except Stop Core} (hx : exec i s = vectorOp i one g s) (hr : ready i s) (hn : 0 < n / 8)
   (e : LocalEffect (issued i 1 s) kf (bumped (issued i 1 s) used))
   (hl : vs.length ≤ cnt) (h3 : vectorLoc kf d = .ok (l, k3)) (h4 : storeLanes k3 (n / 8) l on 0 vs = .ok k4)
   (hg : g (issued i 1 s) = .ok k4) :
   completesV i 1 s k4 (fun z => bumped (issued i 1 s) (used ++ [d]) z ∨ lanesAt (issued i 1 s) l (n / 8) cnt on z) := by
  refine ⟨?_, effect_lanes (effect_place e h3) hn hl h4⟩
  rw [hx]; exact vectorOp_ok hr hg

theorem fmtBits_pos8 (f : Fmt) (h : fmtBits f ≠ 4) : 0 < fmtBits f / 8 := by
  have : ∀ f : Fmt, fmtBits f ≠ 4 → 0 < fmtBits f / 8 := by intro f; cases f <;> decide
  exact this f h

theorem scalarOp_trap {i : Instr} {g : Core → Except Stop Core} {s : State} {t : Trap} (h : ready i s)
    (hg : g (issued i 1 s) = .error (.trap t)) : scalarOp i g s = .next (takeTrap s s.cur t (nth (encode i) 0 0) (nth (encode i) 1 0) (4 * (encode i).length) false) := by
  refine nativeOp_trap (cost := fun _ => 1) h ?_
  unfold coreOp
  rw [issuedState_core]
  simp only [bind, Except.bind]
  rw [hg]
  rfl

theorem vectorOp_trap {i : Instr} {cost : Core → Nat} {g : Core → Except Stop Core} {s : State} {t : Trap} (h : ready i s)
    (hg : g (issued i (cost (s.core s.cur)) s) = .error (.trap t)) : vectorOp i cost g s = .next (takeTrap s s.cur t (nth (encode i) 0 0) (nth (encode i) 1 0) (4 * (encode i).length) false) := by
  refine nativeOp_trap (cost := cost) h ?_
  unfold coreOp
  rw [issuedState_core]
  simp only [bind, Except.bind]
  rw [hg]
  rfl

theorem raiseFlags_flagTrap {k : Core} {fl : Nat} (h : ¬ Safety.quiet k fl) : raiseFlags k fl = .error (.trap (flagTrap k fl)) := raiseFlags_trap h

theorem finish_trap {k c : Core} {bits : Nat} {l : Loc} {r : List Nat × Nat × Nat} (hq : ¬ Safety.quiet k r.2.1) : finishLanes k c bits l r = .error (.trap (flagTrap k r.2.1)) := by
  unfold finishLanes
  rw [raiseFlags_flagTrap hq]
  rfl

theorem vec1_trap {t : VType} {d a : Spec} {g : Fmt → Nat → Nat → Rnd} {k k1 k2 : Core} {x : Nat} {l : Loc}
   (h1 : readVec k (vfmt (chooseV k t)) a = .ok (x, k1)) (h2 : vectorLoc k1 d = .ok (l, k2))
   (hq : ¬ Safety.quiet k2 (runLanes k (fun u i => g (vfmt (chooseV k t)) u (lane (fmtBits (vfmt (chooseV k t))) x i)) (List.range (512 / fmtBits (vfmt (chooseV k t)))) (drawIndex k)).2.1) :
   vec1 t d a g k = .error (.trap (flagTrap k2 (runLanes k (fun u i => g (vfmt (chooseV k t)) u (lane (fmtBits (vfmt (chooseV k t))) x i)) (List.range (512 / fmtBits (vfmt (chooseV k t)))) (drawIndex k)).2.1)) := by
  simp only [vec1, bind, Except.bind, h1, h2]
  exact finish_trap hq

end Sys2Proof.Machine
end

