-- ==== Sys2Proof/Laws/PerInstr.lean ====
section
/-!
SUPPORT. The round trip per instruction: the words of a well-formed native instruction, and the bytes of a bytecode, decode to
it. One lemma per constructor of Instr; an event has no encoding.
-/
namespace Sys2Proof.Laws

set_option linter.unusedSimpArgs false

/-- What a native instruction's own words decode to. -/
def Rt (i : Instr) : Prop := ∀ cls, i.wf cls = true →
    (∀ x ∈ encode i, x < 2 ^ 32) ∧ (encode i).length = 1 + extCount (field (nth (encode i) 0 0) 31 24) ∧
      decode cls (nth (encode i) 0 0) (nth (encode i) 1 0) (nth (encode i) 2 0) (nth (encode i) 3 0) (nth (encode i) 4 0) = .ok i

/-- Decoding reads an instruction's own encoding back (Table 4-1, Table 19-1). -/
def RoundTrip.Statement (i : Instr) : Prop :=
  (i.isNative = true → Rt i) ∧
  (i.isBytecode = true → ∀ rest : List Nat,
    bcLength (nth (encodeBytecode i ++ rest) 0 0) = some (encodeBytecode i).length ∧
      decodeBytecode (nth (encodeBytecode i ++ rest) 0 0) (nth (encodeBytecode i ++ rest) 1 0)
        (nth (encodeBytecode i ++ rest) 2 0) (nth (encodeBytecode i ++ rest) 3 0) (nth (encodeBytecode i ++ rest) 4 0) = some i)

theorem of_native {i : Instr} (h : Rt i) (hb : i.isBytecode = false) : RoundTrip.Statement i :=
  ⟨fun _ => h, fun hb' => absurd hb' (by rw [hb]; decide)⟩

theorem of_bytecode {i : Instr} (h : ∀ rest : List Nat, bcLength (nth (encodeBytecode i ++ rest) 0 0) = some (encodeBytecode i).length ∧
    decodeBytecode (nth (encodeBytecode i ++ rest) 0 0) (nth (encodeBytecode i ++ rest) 1 0)
      (nth (encodeBytecode i ++ rest) 2 0) (nth (encodeBytecode i ++ rest) 3 0) (nth (encodeBytecode i ++ rest) 4 0) = some i)
    (hn : i.isNative = false) : RoundTrip.Statement i :=
  ⟨fun hn' => absurd hn' (by rw [hn]; decide), fun _ => h⟩

theorem of_event {i : Instr} (hn : i.isNative = false) (hb : i.isBytecode = false) : RoundTrip.Statement i :=
  ⟨fun h => absurd h (by rw [hn]; decide), fun h => absurd h (by rw [hb]; decide)⟩

theorem rt_add (t : IType) (d a b : Spec) : Rt (.add t d a b) := rt_M3 (c := .add) rfl ⟨by decide, fun _ => rfl, fun _ _ => rfl⟩ rfl ok3 (fun _ _ _ _ _ _ => rfl) (fun h => h)

theorem rt_sub (t : IType) (d a b : Spec) : Rt (.sub t d a b) := rt_M3 (c := .sub) rfl ⟨by decide, fun _ => rfl, fun _ _ => rfl⟩ rfl ok3 (fun _ _ _ _ _ _ => rfl) (fun h => h)

theorem rt_mul (t : IType) (d a b : Spec) : Rt (.mul t d a b) := rt_M3 (c := .mul) rfl ⟨by decide, fun _ => rfl, fun _ _ => rfl⟩ rfl ok3 (fun _ _ _ _ _ _ => rfl) (fun h => h)

theorem rt_mulh (t : IType) (d a b : Spec) : Rt (.mulh t d a b) := rt_M3 (c := .mulh) rfl ⟨by decide, fun _ => rfl, fun _ _ => rfl⟩ rfl ok3 (fun _ _ _ _ _ _ => rfl) (fun h => h)

theorem rt_div (t : IType) (d a b : Spec) : Rt (.div t d a b) := rt_M3 (c := .div) rfl ⟨by decide, fun _ => rfl, fun _ _ => rfl⟩ rfl ok3 (fun _ _ _ _ _ _ => rfl) (fun h => h)

theorem rt_rem (t : IType) (d a b : Spec) : Rt (.rem t d a b) := rt_M3 (c := .rem) rfl ⟨by decide, fun _ => rfl, fun _ _ => rfl⟩ rfl ok3 (fun _ _ _ _ _ _ => rfl) (fun h => h)

theorem rt_and (t : IType) (d a b : Spec) : Rt (.and t d a b) := rt_M3 (c := .and) rfl ⟨by decide, fun _ => rfl, fun _ _ => rfl⟩ rfl ok3 (fun _ _ _ _ _ _ => rfl) (fun h => h)

theorem rt_or (t : IType) (d a b : Spec) : Rt (.or t d a b) := rt_M3 (c := .or) rfl ⟨by decide, fun _ => rfl, fun _ _ => rfl⟩ rfl ok3 (fun _ _ _ _ _ _ => rfl) (fun h => h)

theorem rt_xor (t : IType) (d a b : Spec) : Rt (.xor t d a b) := rt_M3 (c := .xor) rfl ⟨by decide, fun _ => rfl, fun _ _ => rfl⟩ rfl ok3 (fun _ _ _ _ _ _ => rfl) (fun h => h)

theorem rt_andn (t : IType) (d a b : Spec) : Rt (.andn t d a b) := rt_M3 (c := .andn) rfl ⟨by decide, fun _ => rfl, fun _ _ => rfl⟩ rfl ok3 (fun _ _ _ _ _ _ => rfl) (fun h => h)

theorem rt_shl (t : IType) (d a b : Spec) : Rt (.shl t d a b) := rt_M3 (c := .shl) rfl ⟨by decide, fun _ => rfl, fun _ _ => rfl⟩ rfl ok3 (fun _ _ _ _ _ _ => rfl) (fun h => h)

theorem rt_shr (t : IType) (d a b : Spec) : Rt (.shr t d a b) := rt_M3 (c := .shr) rfl ⟨by decide, fun _ => rfl, fun _ _ => rfl⟩ rfl ok3 (fun _ _ _ _ _ _ => rfl) (fun h => h)

theorem rt_sar (t : IType) (d a b : Spec) : Rt (.sar t d a b) := rt_M3 (c := .sar) rfl ⟨by decide, fun _ => rfl, fun _ _ => rfl⟩ rfl ok3 (fun _ _ _ _ _ _ => rfl) (fun h => h)

theorem rt_rot (t : IType) (d a b : Spec) : Rt (.rot t d a b) := rt_M3 (c := .rot) rfl ⟨by decide, fun _ => rfl, fun _ _ => rfl⟩ rfl ok3 (fun _ _ _ _ _ _ => rfl) (fun h => h)

theorem rt_min (t : IType) (d a b : Spec) : Rt (.min t d a b) := rt_M3 (c := .min) rfl ⟨by decide, fun _ => rfl, fun _ _ => rfl⟩ rfl ok3 (fun _ _ _ _ _ _ => rfl) (fun h => h)

theorem rt_max (t : IType) (d a b : Spec) : Rt (.max t d a b) := rt_M3 (c := .max) rfl ⟨by decide, fun _ => rfl, fun _ _ => rfl⟩ rfl ok3 (fun _ _ _ _ _ _ => rfl) (fun h => h)

theorem rt_sel (t : IType) (d a b : Spec) : Rt (.sel t d a b) := rt_M3 (c := .sel) rfl ⟨by decide, fun _ => rfl, fun _ _ => rfl⟩ rfl ok3 (fun _ _ _ _ _ _ => rfl) (fun h => h)

theorem rt_bext (t : IType) (d a b : Spec) : Rt (.bext t d a b) := rt_M3 (c := .bext) rfl ⟨by decide, fun _ => rfl, fun _ _ => rfl⟩ rfl ok3 (fun _ _ _ _ _ _ => rfl) (fun h => h)

theorem rt_ld (t : IType) (d a b : Spec) : Rt (.ld t d a b) := rt_M3 (c := .ld) rfl ⟨by decide, fun _ => rfl, fun _ _ => rfl⟩ rfl ok3 (fun _ _ _ _ _ _ => rfl) (fun h => h)

theorem rt_bins (t : IType) (d a b : Spec) : Rt (.bins t d a b) := rt_M3 (c := .bins) rfl ⟨by decide, fun _ => rfl, fun _ _ => rfl⟩ rfl (fun d a b => okRw d && okSrc false a && okSrc false b) (fun _ _ _ _ _ _ => rfl) (fun h => by rw [Bool.and_assoc]; exact h)

theorem rt_st (t : IType) (d a b : Spec) : Rt (.st t d a b) := rt_M3 (c := .st) rfl ⟨by decide, fun _ => rfl, fun _ _ => rfl⟩ rfl (fun d a b => okSrc false d && okSrc false a && okSrc false b) (fun _ _ _ _ _ _ => rfl) (fun h => by rw [Bool.and_assoc]; exact h)

theorem rt_abs (t : IType) (d a : Spec) : Rt (.abs t d a) := rt_M2 (c := .abs) rfl ⟨by decide, fun _ => rfl, fun _ _ => rfl⟩ rfl (fun _ _ _ _ _ _ => rfl) (fun h => h)

theorem rt_neg (t : IType) (d a : Spec) : Rt (.neg t d a) := rt_M2 (c := .neg) rfl ⟨by decide, fun _ => rfl, fun _ _ => rfl⟩ rfl (fun _ _ _ _ _ _ => rfl) (fun h => h)

theorem rt_clz (t : IType) (d a : Spec) : Rt (.clz t d a) := rt_M2 (c := .clz) rfl ⟨by decide, fun _ => rfl, fun _ _ => rfl⟩ rfl (fun _ _ _ _ _ _ => rfl) (fun h => h)

theorem rt_ctz (t : IType) (d a : Spec) : Rt (.ctz t d a) := rt_M2 (c := .ctz) rfl ⟨by decide, fun _ => rfl, fun _ _ => rfl⟩ rfl (fun _ _ _ _ _ _ => rfl) (fun h => h)

theorem rt_popc (t : IType) (d a : Spec) : Rt (.popc t d a) := rt_M2 (c := .popc) rfl ⟨by decide, fun _ => rfl, fun _ _ => rfl⟩ rfl (fun _ _ _ _ _ _ => rfl) (fun h => h)

theorem rt_mov (t : IType) (d a : Spec) : Rt (.mov t d a) := rt_M2 (c := .mov) rfl ⟨by decide, fun _ => rfl, fun _ _ => rfl⟩ rfl (fun _ _ _ _ _ _ => rfl) (fun h => h)

theorem rt_cmp (c : Cond) (t : IType) (d a b : Spec) (hc : condCode c < 10) : Rt (.cmp c t d a b) := by
  cases c <;> first | exact rt_M3 (c := .cmp _) rfl ⟨by decide, fun _ => rfl, fun _ _ => rfl⟩ rfl ok3 (fun _ _ _ _ _ _ => rfl) (fun h => h) | exact absurd hc (by decide)

theorem rt_vadd (t : VType) (d a b : Spec) : Rt (.vadd t d a b) := rt_V (c := .vadd) (acc := accAll) (pd := .vDst) (pa := .vSrc) (pb := .vSrc) (bc := specCode b) rfl (specCode_lt b) ⟨by decide, fun _ => rfl, fun _ _ => rfl⟩ rfl (fun _ _ _ _ _ _ => rfl) (by rw [specOf_code]) ⟨nofun, nofun, nofun⟩ (fun _ => rfl) (fun h => by
    rw [specOf_code]; first | exact h | (rw [Bool.and_assoc]; exact h))

theorem rt_vsub (t : VType) (d a b : Spec) : Rt (.vsub t d a b) := rt_V (c := .vsub) (acc := accAll) (pd := .vDst) (pa := .vSrc) (pb := .vSrc) (bc := specCode b) rfl (specCode_lt b) ⟨by decide, fun _ => rfl, fun _ _ => rfl⟩ rfl (fun _ _ _ _ _ _ => rfl) (by rw [specOf_code]) ⟨nofun, nofun, nofun⟩ (fun _ => rfl) (fun h => by
    rw [specOf_code]; first | exact h | (rw [Bool.and_assoc]; exact h))

theorem rt_vmul (t : VType) (d a b : Spec) : Rt (.vmul t d a b) := rt_V (c := .vmul) (acc := accAll) (pd := .vDst) (pa := .vSrc) (pb := .vSrc) (bc := specCode b) rfl (specCode_lt b) ⟨by decide, fun _ => rfl, fun _ _ => rfl⟩ rfl (fun _ _ _ _ _ _ => rfl) (by rw [specOf_code]) ⟨nofun, nofun, nofun⟩ (fun _ => rfl) (fun h => by
    rw [specOf_code]; first | exact h | (rw [Bool.and_assoc]; exact h))

theorem rt_vfma (t : VType) (d a b : Spec) : Rt (.vfma t d a b) := rt_V (c := .vfma) (acc := accAll) (pd := .vRw) (pa := .vSrc) (pb := .vSrc) (bc := specCode b) rfl (specCode_lt b) ⟨by decide, fun _ => rfl, fun _ _ => rfl⟩ rfl (fun _ _ _ _ _ _ => rfl) (by rw [specOf_code]) ⟨nofun, nofun, nofun⟩ (fun _ => rfl) (fun h => by
    rw [specOf_code]; first | exact h | (rw [Bool.and_assoc]; exact h))

theorem rt_vfms (t : VType) (d a b : Spec) : Rt (.vfms t d a b) := rt_V (c := .vfms) (acc := accAll) (pd := .vRw) (pa := .vSrc) (pb := .vSrc) (bc := specCode b) rfl (specCode_lt b) ⟨by decide, fun _ => rfl, fun _ _ => rfl⟩ rfl (fun _ _ _ _ _ _ => rfl) (by rw [specOf_code]) ⟨nofun, nofun, nofun⟩ (fun _ => rfl) (fun h => by
    rw [specOf_code]; first | exact h | (rw [Bool.and_assoc]; exact h))

theorem rt_vmin (t : VType) (d a b : Spec) : Rt (.vmin t d a b) := rt_V (c := .vmin) (acc := accAll) (pd := .vDst) (pa := .vSrc) (pb := .vSrc) (bc := specCode b) rfl (specCode_lt b) ⟨by decide, fun _ => rfl, fun _ _ => rfl⟩ rfl (fun _ _ _ _ _ _ => rfl) (by rw [specOf_code]) ⟨nofun, nofun, nofun⟩ (fun _ => rfl) (fun h => by
    rw [specOf_code]; first | exact h | (rw [Bool.and_assoc]; exact h))

theorem rt_vmax (t : VType) (d a b : Spec) : Rt (.vmax t d a b) := rt_V (c := .vmax) (acc := accAll) (pd := .vDst) (pa := .vSrc) (pb := .vSrc) (bc := specCode b) rfl (specCode_lt b) ⟨by decide, fun _ => rfl, fun _ _ => rfl⟩ rfl (fun _ _ _ _ _ _ => rfl) (by rw [specOf_code]) ⟨nofun, nofun, nofun⟩ (fun _ => rfl) (fun h => by
    rw [specOf_code]; first | exact h | (rw [Bool.and_assoc]; exact h))

theorem rt_vsel (t : VType) (d a b : Spec) : Rt (.vsel t d a b) := rt_V (c := .vsel) (acc := accNoT) (pd := .vDst) (pa := .vSrc) (pb := .vSrc) (bc := specCode b) rfl (specCode_lt b) ⟨by decide, fun _ => rfl, fun _ _ => rfl⟩ rfl (fun _ _ _ _ _ _ => rfl) (by rw [specOf_code]) ⟨nofun, nofun, nofun⟩ (fun h => h) (fun h => by
    rw [specOf_code]; first | exact h | (rw [Bool.and_assoc]; exact h))

theorem rt_vand (t : VType) (d a b : Spec) : Rt (.vand t d a b) := rt_V (c := .vand) (acc := accNoT) (pd := .vDst) (pa := .vSrc) (pb := .vSrc) (bc := specCode b) rfl (specCode_lt b) ⟨by decide, fun _ => rfl, fun _ _ => rfl⟩ rfl (fun _ _ _ _ _ _ => rfl) (by rw [specOf_code]) ⟨nofun, nofun, nofun⟩ (fun h => h) (fun h => by
    rw [specOf_code]; first | exact h | (rw [Bool.and_assoc]; exact h))

theorem rt_vor (t : VType) (d a b : Spec) : Rt (.vor t d a b) := rt_V (c := .vor) (acc := accNoT) (pd := .vDst) (pa := .vSrc) (pb := .vSrc) (bc := specCode b) rfl (specCode_lt b) ⟨by decide, fun _ => rfl, fun _ _ => rfl⟩ rfl (fun _ _ _ _ _ _ => rfl) (by rw [specOf_code]) ⟨nofun, nofun, nofun⟩ (fun h => h) (fun h => by
    rw [specOf_code]; first | exact h | (rw [Bool.and_assoc]; exact h))

theorem rt_vxor (t : VType) (d a b : Spec) : Rt (.vxor t d a b) := rt_V (c := .vxor) (acc := accNoT) (pd := .vDst) (pa := .vSrc) (pb := .vSrc) (bc := specCode b) rfl (specCode_lt b) ⟨by decide, fun _ => rfl, fun _ _ => rfl⟩ rfl (fun _ _ _ _ _ _ => rfl) (by rw [specOf_code]) ⟨nofun, nofun, nofun⟩ (fun h => h) (fun h => by
    rw [specOf_code]; first | exact h | (rw [Bool.and_assoc]; exact h))

theorem rt_vshl (t : VType) (d a b : Spec) : Rt (.vshl t d a b) := rt_V (c := .vshl) (acc := accInt) (pd := .vDst) (pa := .vSrc) (pb := .vSrc) (bc := specCode b) rfl (specCode_lt b) ⟨by decide, fun _ => rfl, fun _ _ => rfl⟩ rfl (fun _ _ _ _ _ _ => rfl) (by rw [specOf_code]) ⟨nofun, nofun, nofun⟩ (fun h => h) (fun h => by
    rw [specOf_code]; first | exact h | (rw [Bool.and_assoc]; exact h))

theorem rt_vshr (t : VType) (d a b : Spec) : Rt (.vshr t d a b) := rt_V (c := .vshr) (acc := accInt) (pd := .vDst) (pa := .vSrc) (pb := .vSrc) (bc := specCode b) rfl (specCode_lt b) ⟨by decide, fun _ => rfl, fun _ _ => rfl⟩ rfl (fun _ _ _ _ _ _ => rfl) (by rw [specOf_code]) ⟨nofun, nofun, nofun⟩ (fun h => h) (fun h => by
    rw [specOf_code]; first | exact h | (rw [Bool.and_assoc]; exact h))

theorem rt_vsar (t : VType) (d a b : Spec) : Rt (.vsar t d a b) := rt_V (c := .vsar) (acc := accInt) (pd := .vDst) (pa := .vSrc) (pb := .vSrc) (bc := specCode b) rfl (specCode_lt b) ⟨by decide, fun _ => rfl, fun _ _ => rfl⟩ rfl (fun _ _ _ _ _ _ => rfl) (by rw [specOf_code]) ⟨nofun, nofun, nofun⟩ (fun h => h) (fun h => by
    rw [specOf_code]; first | exact h | (rw [Bool.and_assoc]; exact h))

theorem rt_vperm (t : VType) (d a b : Spec) : Rt (.vperm t d a b) := rt_V (c := .vperm) (acc := accNoT) (pd := .vDst) (pa := .vSrc) (pb := .vIdx) (bc := specCode b) rfl (specCode_lt b) ⟨by decide, fun _ => rfl, fun _ _ => rfl⟩ rfl (fun _ _ _ _ _ _ => rfl) (by rw [specOf_code]) ⟨nofun, nofun, nofun⟩ (fun h => h) (fun h => by
    rw [specOf_code]; first | exact h | (rw [Bool.and_assoc]; exact h))

theorem rt_vins (t : VType) (d a b : Spec) : Rt (.vins t d a b) := rt_V (c := .vins) (acc := accNoT) (pd := .vRw) (pa := .sSrc) (pb := .sIdx) (bc := specCode b) rfl (specCode_lt b) ⟨by decide, fun _ => rfl, fun _ _ => rfl⟩ rfl (fun _ _ _ _ _ _ => rfl) (by rw [specOf_code]) ⟨nofun, nofun, nofun⟩ (fun h => h) (fun h => by
    rw [specOf_code]; first | exact h | (rw [Bool.and_assoc]; exact h))

theorem rt_vext (t : VType) (d a b : Spec) : Rt (.vext t d a b) := rt_V (c := .vext) (acc := accNoT) (pd := .sDst) (pa := .vSrc) (pb := .sIdx) (bc := specCode b) rfl (specCode_lt b) ⟨by decide, fun _ => rfl, fun _ _ => rfl⟩ rfl (fun _ _ _ _ _ _ => rfl) (by rw [specOf_code]) ⟨nofun, nofun, nofun⟩ (fun h => h) (fun h => by
    rw [specOf_code]; first | exact h | (rw [Bool.and_assoc]; exact h))

theorem rt_vkey (t : VType) (d a b : Spec) : Rt (.vkey t d a b) := rt_V (c := .vkey) (acc := accNoT) (pd := .vDst) (pa := .vSrc) (pb := .sIdx) (bc := specCode b) rfl (specCode_lt b) ⟨by decide, fun _ => rfl, fun _ _ => rfl⟩ rfl (fun _ _ _ _ _ _ => rfl) (by rw [specOf_code]) ⟨nofun, nofun, nofun⟩ (fun h => h) (fun h => by
    rw [specOf_code]; first | exact h | (rw [Bool.and_assoc]; exact h))

theorem rt_vhist (t : VType) (d a b : Spec) : Rt (.vhist t d a b) := rt_V (c := .vhist) (acc := accNoT) (pd := .ptrOnly) (pa := .vSrc) (pb := .sIdx) (bc := specCode b) rfl (specCode_lt b) ⟨by decide, fun _ => rfl, fun _ _ => rfl⟩ rfl (fun _ _ _ _ _ _ => rfl) (by rw [specOf_code]) ⟨nofun, nofun, nofun⟩ (fun h => h) (fun h => by
    rw [specOf_code]; first | exact h | (rw [Bool.and_assoc]; exact h))

theorem rt_vcount (t : VType) (d a b : Spec) : Rt (.vcount t d a b) := rt_V (c := .vcount) (acc := accNoT) (pd := .sDst) (pa := .vSrc) (pb := .sSrc) (bc := specCode b) rfl (specCode_lt b) ⟨by decide, fun _ => rfl, fun _ _ => rfl⟩ rfl (fun _ _ _ _ _ _ => rfl) (by rw [specOf_code]) ⟨nofun, nofun, nofun⟩ (fun h => h) (fun h => by
    rw [specOf_code]; first | exact h | (rw [Bool.and_assoc]; exact h))

theorem rt_vld (t : VType) (d a b : Spec) : Rt (.vld t d a b) := rt_V (c := .vld) (acc := accNoT) (pd := .vDst) (pa := .sIdx) (pb := .sIdx) (bc := specCode b) rfl (specCode_lt b) ⟨by decide, fun _ => rfl, fun _ _ => rfl⟩ rfl (fun _ _ _ _ _ _ => rfl) (by rw [specOf_code]) ⟨nofun, nofun, nofun⟩ (fun h => h) (fun h => by
    rw [specOf_code]; first | exact h | (rw [Bool.and_assoc]; exact h))

theorem rt_vst (t : VType) (d a b : Spec) : Rt (.vst t d a b) := rt_V (c := .vst) (acc := accNoT) (pd := .vSrc) (pa := .sIdx) (pb := .sIdx) (bc := specCode b) rfl (specCode_lt b) ⟨by decide, fun _ => rfl, fun _ _ => rfl⟩ rfl (fun _ _ _ _ _ _ => rfl) (by rw [specOf_code]) ⟨nofun, nofun, nofun⟩ (fun h => h) (fun h => by
    rw [specOf_code]; first | exact h | (rw [Bool.and_assoc]; exact h))

theorem rt_vldx (t : VType) (d a b : Spec) : Rt (.vldx t d a b) := rt_V (c := .vldx) (acc := accNoT) (pd := .vDst) (pa := .sIdx) (pb := .vIdx) (bc := specCode b) rfl (specCode_lt b) ⟨by decide, fun _ => rfl, fun _ _ => rfl⟩ rfl (fun _ _ _ _ _ _ => rfl) (by rw [specOf_code]) ⟨nofun, nofun, nofun⟩ (fun h => h) (fun h => by
    rw [specOf_code]; first | exact h | (rw [Bool.and_assoc]; exact h))

theorem rt_vstx (t : VType) (d a b : Spec) : Rt (.vstx t d a b) := rt_V (c := .vstx) (acc := accNoT) (pd := .vSrc) (pa := .sIdx) (pb := .vIdx) (bc := specCode b) rfl (specCode_lt b) ⟨by decide, fun _ => rfl, fun _ _ => rfl⟩ rfl (fun _ _ _ _ _ _ => rfl) (by rw [specOf_code]) ⟨nofun, nofun, nofun⟩ (fun h => h) (fun h => by
    rw [specOf_code]; first | exact h | (rw [Bool.and_assoc]; exact h))

theorem rt_vabs (t : VType) (d a : Spec) : Rt (.vabs t d a) := rt_V (c := fun t d a _ => .vabs t d a) (acc := accNoT) (pd := .vDst) (pa := .vSrc) (pb := .none) (bc := 0) rfl (by decide) ⟨by decide, fun _ => rfl, fun _ _ => rfl⟩ rfl (fun _ _ _ _ _ _ => rfl) rfl (by decide) (fun h => h) (fun h => by
    simp only [Pos.ok, Bool.and_true]; exact h)

theorem rt_vneg (t : VType) (d a : Spec) : Rt (.vneg t d a) := rt_V (c := fun t d a _ => .vneg t d a) (acc := accNoT) (pd := .vDst) (pa := .vSrc) (pb := .none) (bc := 0) rfl (by decide) ⟨by decide, fun _ => rfl, fun _ _ => rfl⟩ rfl (fun _ _ _ _ _ _ => rfl) rfl (by decide) (fun h => h) (fun h => by
    simp only [Pos.ok, Bool.and_true]; exact h)

theorem rt_vnot (t : VType) (d a : Spec) : Rt (.vnot t d a) := rt_V (c := fun t d a _ => .vnot t d a) (acc := accNoT) (pd := .vDst) (pa := .vSrc) (pb := .none) (bc := 0) rfl (by decide) ⟨by decide, fun _ => rfl, fun _ _ => rfl⟩ rfl (fun _ _ _ _ _ _ => rfl) rfl (by decide) (fun h => h) (fun h => by
    simp only [Pos.ok, Bool.and_true]; exact h)

theorem rt_vrcp (t : VType) (d a : Spec) : Rt (.vrcp t d a) := rt_V (c := fun t d a _ => .vrcp t d a) (acc := accFloat) (pd := .vDst) (pa := .vSrc) (pb := .none) (bc := 0) rfl (by decide) ⟨by decide, fun _ => rfl, fun _ _ => rfl⟩ rfl (fun _ _ _ _ _ _ => rfl) rfl (by decide) (fun h => h) (fun h => by
    simp only [Pos.ok, Bool.and_true]; exact h)

theorem rt_vrsq (t : VType) (d a : Spec) : Rt (.vrsq t d a) := rt_V (c := fun t d a _ => .vrsq t d a) (acc := accFloat) (pd := .vDst) (pa := .vSrc) (pb := .none) (bc := 0) rfl (by decide) ⟨by decide, fun _ => rfl, fun _ _ => rfl⟩ rfl (fun _ _ _ _ _ _ => rfl) rfl (by decide) (fun h => h) (fun h => by
    simp only [Pos.ok, Bool.and_true]; exact h)

theorem rt_vexp2 (t : VType) (d a : Spec) : Rt (.vexp2 t d a) := rt_V (c := fun t d a _ => .vexp2 t d a) (acc := accFloat) (pd := .vDst) (pa := .vSrc) (pb := .none) (bc := 0) rfl (by decide) ⟨by decide, fun _ => rfl, fun _ _ => rfl⟩ rfl (fun _ _ _ _ _ _ => rfl) rfl (by decide) (fun h => h) (fun h => by
    simp only [Pos.ok, Bool.and_true]; exact h)

theorem rt_vlog2 (t : VType) (d a : Spec) : Rt (.vlog2 t d a) := rt_V (c := fun t d a _ => .vlog2 t d a) (acc := accFloat) (pd := .vDst) (pa := .vSrc) (pb := .none) (bc := 0) rfl (by decide) ⟨by decide, fun _ => rfl, fun _ _ => rfl⟩ rfl (fun _ _ _ _ _ _ => rfl) rfl (by decide) (fun h => h) (fun h => by
    simp only [Pos.ok, Bool.and_true]; exact h)

theorem rt_vrsum (t : VType) (d a : Spec) : Rt (.vrsum t d a) := rt_V (c := fun t d a _ => .vrsum t d a) (acc := accAll) (pd := .sDst) (pa := .vSrc) (pb := .none) (bc := 0) rfl (by decide) ⟨by decide, fun _ => rfl, fun _ _ => rfl⟩ rfl (fun _ _ _ _ _ _ => rfl) rfl (by decide) (fun _ => rfl) (fun h => by
    simp only [Pos.ok, Bool.and_true]; exact h)

theorem rt_vrmax (t : VType) (d a : Spec) : Rt (.vrmax t d a) := rt_V (c := fun t d a _ => .vrmax t d a) (acc := accAll) (pd := .sDst) (pa := .vSrc) (pb := .none) (bc := 0) rfl (by decide) ⟨by decide, fun _ => rfl, fun _ _ => rfl⟩ rfl (fun _ _ _ _ _ _ => rfl) rfl (by decide) (fun _ => rfl) (fun h => by
    simp only [Pos.ok, Bool.and_true]; exact h)

theorem rt_vrmin (t : VType) (d a : Spec) : Rt (.vrmin t d a) := rt_V (c := fun t d a _ => .vrmin t d a) (acc := accAll) (pd := .sDst) (pa := .vSrc) (pb := .none) (bc := 0) rfl (by decide) ⟨by decide, fun _ => rfl, fun _ _ => rfl⟩ rfl (fun _ _ _ _ _ _ => rfl) rfl (by decide) (fun _ => rfl) (fun h => by
    simp only [Pos.ok, Bool.and_true]; exact h)

theorem rt_vbcast (t : VType) (d a : Spec) : Rt (.vbcast t d a) := rt_V (c := fun t d a _ => .vbcast t d a) (acc := accNoT) (pd := .vDst) (pa := .sSrc) (pb := .none) (bc := 0) rfl (by decide) ⟨by decide, fun _ => rfl, fun _ _ => rfl⟩ rfl (fun _ _ _ _ _ _ => rfl) rfl (by decide) (fun h => h) (fun h => by
    simp only [Pos.ok, Bool.and_true]; exact h)

theorem rt_vcompress (t : VType) (d a : Spec) : Rt (.vcompress t d a) := rt_V (c := fun t d a _ => .vcompress t d a) (acc := accNoT) (pd := .vDst) (pa := .vSrc) (pb := .none) (bc := 0) rfl (by decide) ⟨by decide, fun _ => rfl, fun _ _ => rfl⟩ rfl (fun _ _ _ _ _ _ => rfl) rfl (by decide) (fun h => h) (fun h => by
    simp only [Pos.ok, Bool.and_true]; exact h)

theorem rt_vaddRnd (t : VType) (r : RMode) (d a b : Spec) : Rt (.vaddRnd t r d a b) := rt_VR (c := .vaddRnd) (pd := .vDst) (pa := .vSrc) (pb := .vSrc) (bc := specCode b) rfl (specCode_lt b) ⟨by decide, fun _ => rfl, fun _ _ => rfl⟩ rfl (fun _ _ _ _ _ _ => rfl) (by rw [specOf_code]) ⟨nofun, nofun, nofun⟩ (fun h => h) (fun h => by
    rw [specOf_code]; exact h)

theorem rt_vsubRnd (t : VType) (r : RMode) (d a b : Spec) : Rt (.vsubRnd t r d a b) := rt_VR (c := .vsubRnd) (pd := .vDst) (pa := .vSrc) (pb := .vSrc) (bc := specCode b) rfl (specCode_lt b) ⟨by decide, fun _ => rfl, fun _ _ => rfl⟩ rfl (fun _ _ _ _ _ _ => rfl) (by rw [specOf_code]) ⟨nofun, nofun, nofun⟩ (fun h => h) (fun h => by
    rw [specOf_code]; exact h)

theorem rt_vmulRnd (t : VType) (r : RMode) (d a b : Spec) : Rt (.vmulRnd t r d a b) := rt_VR (c := .vmulRnd) (pd := .vDst) (pa := .vSrc) (pb := .vSrc) (bc := specCode b) rfl (specCode_lt b) ⟨by decide, fun _ => rfl, fun _ _ => rfl⟩ rfl (fun _ _ _ _ _ _ => rfl) (by rw [specOf_code]) ⟨nofun, nofun, nofun⟩ (fun h => h) (fun h => by
    rw [specOf_code]; exact h)

theorem rt_vfmaRnd (t : VType) (r : RMode) (d a b : Spec) : Rt (.vfmaRnd t r d a b) := rt_VR (c := .vfmaRnd) (pd := .vRw) (pa := .vSrc) (pb := .vSrc) (bc := specCode b) rfl (specCode_lt b) ⟨by decide, fun _ => rfl, fun _ _ => rfl⟩ rfl (fun _ _ _ _ _ _ => rfl) (by rw [specOf_code]) ⟨nofun, nofun, nofun⟩ (fun h => h) (fun h => by
    rw [specOf_code]; exact h)

theorem rt_vfmsRnd (t : VType) (r : RMode) (d a b : Spec) : Rt (.vfmsRnd t r d a b) := rt_VR (c := .vfmsRnd) (pd := .vRw) (pa := .vSrc) (pb := .vSrc) (bc := specCode b) rfl (specCode_lt b) ⟨by decide, fun _ => rfl, fun _ _ => rfl⟩ rfl (fun _ _ _ _ _ _ => rfl) (by rw [specOf_code]) ⟨nofun, nofun, nofun⟩ (fun h => h) (fun h => by
    rw [specOf_code]; exact h)

theorem rt_vrcpRnd (t : VType) (r : RMode) (d a : Spec) : Rt (.vrcpRnd t r d a) := rt_VR (c := fun t r d a _ => .vrcpRnd t r d a) (pd := .vDst) (pa := .vSrc) (pb := .none) (bc := 0) rfl (by decide) ⟨by decide, fun _ => rfl, fun _ _ => rfl⟩ rfl (fun _ _ _ _ _ _ => rfl) rfl (by decide) (fun h => h) (fun h => by
    simp only [Pos.ok, Bool.and_true]; exact h)

theorem rt_vrsqRnd (t : VType) (r : RMode) (d a : Spec) : Rt (.vrsqRnd t r d a) := rt_VR (c := fun t r d a _ => .vrsqRnd t r d a) (pd := .vDst) (pa := .vSrc) (pb := .none) (bc := 0) rfl (by decide) ⟨by decide, fun _ => rfl, fun _ _ => rfl⟩ rfl (fun _ _ _ _ _ _ => rfl) rfl (by decide) (fun h => h) (fun h => by
    simp only [Pos.ok, Bool.and_true]; exact h)

theorem rt_vexp2Rnd (t : VType) (r : RMode) (d a : Spec) : Rt (.vexp2Rnd t r d a) := rt_VR (c := fun t r d a _ => .vexp2Rnd t r d a) (pd := .vDst) (pa := .vSrc) (pb := .none) (bc := 0) rfl (by decide) ⟨by decide, fun _ => rfl, fun _ _ => rfl⟩ rfl (fun _ _ _ _ _ _ => rfl) rfl (by decide) (fun h => h) (fun h => by
    simp only [Pos.ok, Bool.and_true]; exact h)

theorem rt_vlog2Rnd (t : VType) (r : RMode) (d a : Spec) : Rt (.vlog2Rnd t r d a) := rt_VR (c := fun t r d a _ => .vlog2Rnd t r d a) (pd := .vDst) (pa := .vSrc) (pb := .none) (bc := 0) rfl (by decide) ⟨by decide, fun _ => rfl, fun _ _ => rfl⟩ rfl (fun _ _ _ _ _ _ => rfl) rfl (by decide) (fun h => h) (fun h => by
    simp only [Pos.ok, Bool.and_true]; exact h)

theorem rt_vrsumRnd (t : VType) (r : RMode) (d a : Spec) : Rt (.vrsumRnd t r d a) := rt_VR (c := fun t r d a _ => .vrsumRnd t r d a) (pd := .sDst) (pa := .vSrc) (pb := .none) (bc := 0) rfl (by decide) ⟨by decide, fun _ => rfl, fun _ _ => rfl⟩ rfl (fun _ _ _ _ _ _ => rfl) rfl (by decide) (fun h => h) (fun h => by
    simp only [Pos.ok, Bool.and_true]; exact h)

theorem rt_vcmp (c : Cond) (t : VType) (d a b : Spec) (hc : condCode c < 6) : Rt (.vcmp c t d a b) := by
  cases c <;> first | exact rt_V (c := .vcmp _) (acc := accNoT) (pd := .sDst) (pa := .vSrc) (pb := .vSrc) (bc := specCode b) rfl (specCode_lt b) ⟨by decide, fun _ => rfl, fun _ _ => rfl⟩ rfl (fun _ _ _ _ _ _ => rfl) (by rw [specOf_code]; rfl) ⟨nofun, nofun, nofun⟩ (fun h => by simp only [instrValues, Bool.and_eq_true] at h; exact h.1) (fun h => by rw [specOf_code]; exact h) | exact absurd hc (by decide)

theorem rt_nop  : Rt (.nop ) := by
  refine rt_S (op := 240) (fn := 0) (x := 0) (y := 0) rfl (by decide) (by omega) (by omega) (by decide) (fun cls h => by first | rfl | exact h) (pre0 · .nop) (fun _ _ _ _ _ => rfl) ?_ (fun _ => ?_) (fun _ => rfl) (fun h => ?_)
  · first | rfl | simp (disch := omega) only [preDA, preAB, preD, preA, pre0, preTA, fA, fB, S_hi, S_x, S_y, S_x0, S_00, S_x10, S_h11, specOf_code]
  · first | rfl | (simp (disch := omega) only [preDA, preAB, preD, preA, pre0, preTA, fA, fB, S_hi, S_x, S_y, S_x0, S_00, S_x10, S_h11, specOf_code]; done) | (simp (disch := omega) only [preDA, preAB, preD, preA, pre0, preTA, fA, fB, S_hi, S_x, S_y, S_x0, S_00, S_x10, S_h11, specOf_code]; rfl)
  · first | rfl | (simp (disch := omega) only [preDA, preAB, preD, preA, pre0, preTA, fA, fB, S_hi, S_x, S_y, S_x0, S_00, S_x10, S_h11, specOf_code]; exact h)

theorem rt_endFiring  : Rt (.endFiring ) := by
  refine rt_S (op := 240) (fn := 1) (x := 0) (y := 0) rfl (by decide) (by omega) (by omega) (by decide) (fun cls h => by first | rfl | exact h) (pre0 · .endFiring) (fun _ _ _ _ _ => rfl) ?_ (fun _ => ?_) (fun _ => rfl) (fun h => ?_)
  · first | rfl | simp (disch := omega) only [preDA, preAB, preD, preA, pre0, preTA, fA, fB, S_hi, S_x, S_y, S_x0, S_00, S_x10, S_h11, specOf_code]
  · first | rfl | (simp (disch := omega) only [preDA, preAB, preD, preA, pre0, preTA, fA, fB, S_hi, S_x, S_y, S_x0, S_00, S_x10, S_h11, specOf_code]; done) | (simp (disch := omega) only [preDA, preAB, preD, preA, pre0, preTA, fA, fB, S_hi, S_x, S_y, S_x0, S_00, S_x10, S_h11, specOf_code]; rfl)
  · first | rfl | (simp (disch := omega) only [preDA, preAB, preD, preA, pre0, preTA, fA, fB, S_hi, S_x, S_y, S_x0, S_00, S_x10, S_h11, specOf_code]; exact h)

theorem rt_ret  : Rt (.ret ) := by
  refine rt_S (op := 240) (fn := 2) (x := 0) (y := 0) rfl (by decide) (by omega) (by omega) (by decide) (fun cls h => by first | rfl | exact h) (pre0 · .ret) (fun _ _ _ _ _ => rfl) ?_ (fun _ => ?_) (fun _ => rfl) (fun h => ?_)
  · first | rfl | simp (disch := omega) only [preDA, preAB, preD, preA, pre0, preTA, fA, fB, S_hi, S_x, S_y, S_x0, S_00, S_x10, S_h11, specOf_code]
  · first | rfl | (simp (disch := omega) only [preDA, preAB, preD, preA, pre0, preTA, fA, fB, S_hi, S_x, S_y, S_x0, S_00, S_x10, S_h11, specOf_code]; done) | (simp (disch := omega) only [preDA, preAB, preD, preA, pre0, preTA, fA, fB, S_hi, S_x, S_y, S_x0, S_00, S_x10, S_h11, specOf_code]; rfl)
  · first | rfl | (simp (disch := omega) only [preDA, preAB, preD, preA, pre0, preTA, fA, fB, S_hi, S_x, S_y, S_x0, S_00, S_x10, S_h11, specOf_code]; exact h)

theorem rt_jx (a : Spec) : Rt (.jx a) := by
  have ha := specCode_lt a
  refine rt_S (op := 240) (fn := 3) (x := 0) (y := specCode a) rfl (by decide) (by omega) (by omega) (by decide) (fun cls h => by first | rfl | exact h) (preA · (.jx)) (fun _ _ _ _ _ => rfl) ?_ (fun _ => ?_) (fun _ => rfl) (fun h => ?_)
  · first | rfl | simp (disch := omega) only [preDA, preAB, preD, preA, pre0, preTA, fA, fB, S_hi, S_x, S_y, S_x0, S_00, S_x10, S_h11, specOf_code]
  · first | rfl | (simp (disch := omega) only [preDA, preAB, preD, preA, pre0, preTA, fA, fB, S_hi, S_x, S_y, S_x0, S_00, S_x10, S_h11, specOf_code]; done) | (simp (disch := omega) only [preDA, preAB, preD, preA, pre0, preTA, fA, fB, S_hi, S_x, S_y, S_x0, S_00, S_x10, S_h11, specOf_code]; rfl)
  · first | rfl | (simp (disch := omega) only [preDA, preAB, preD, preA, pre0, preTA, fA, fB, S_hi, S_x, S_y, S_x0, S_00, S_x10, S_h11, specOf_code]; exact h)

theorem rt_sflag (d a : Spec) : Rt (.sflag d a) := by
  have hd := specCode_lt d
  have ha := specCode_lt a
  refine rt_S (op := 240) (fn := 7) (x := specCode d) (y := specCode a) rfl (by decide) (by omega) (by omega) (by decide) (fun cls h => by first | rfl | exact h) (preDA · (.sflag)) (fun _ _ _ _ _ => rfl) ?_ (fun _ => ?_) (fun _ => rfl) (fun h => ?_)
  · first | rfl | simp (disch := omega) only [preDA, preAB, preD, preA, pre0, preTA, fA, fB, S_hi, S_x, S_y, S_x0, S_00, S_x10, S_h11, specOf_code]
  · first | rfl | (simp (disch := omega) only [preDA, preAB, preD, preA, pre0, preTA, fA, fB, S_hi, S_x, S_y, S_x0, S_00, S_x10, S_h11, specOf_code]; done) | (simp (disch := omega) only [preDA, preAB, preD, preA, pre0, preTA, fA, fB, S_hi, S_x, S_y, S_x0, S_00, S_x10, S_h11, specOf_code]; rfl)
  · first | rfl | (simp (disch := omega) only [preDA, preAB, preD, preA, pre0, preTA, fA, fB, S_hi, S_x, S_y, S_x0, S_00, S_x10, S_h11, specOf_code]; exact h)

theorem rt_wpset (a : Spec) : Rt (.wpset a) := by
  have ha := specCode_lt a
  refine rt_S (op := 240) (fn := 8) (x := 0) (y := specCode a) rfl (by decide) (by omega) (by omega) (by decide) (fun cls h => by first | rfl | exact h) (preA · (.wpset)) (fun _ _ _ _ _ => rfl) ?_ (fun _ => ?_) (fun _ => rfl) (fun h => ?_)
  · first | rfl | simp (disch := omega) only [preDA, preAB, preD, preA, pre0, preTA, fA, fB, S_hi, S_x, S_y, S_x0, S_00, S_x10, S_h11, specOf_code]
  · first | rfl | (simp (disch := omega) only [preDA, preAB, preD, preA, pre0, preTA, fA, fB, S_hi, S_x, S_y, S_x0, S_00, S_x10, S_h11, specOf_code]; done) | (simp (disch := omega) only [preDA, preAB, preD, preA, pre0, preTA, fA, fB, S_hi, S_x, S_y, S_x0, S_00, S_x10, S_h11, specOf_code]; rfl)
  · first | rfl | (simp (disch := omega) only [preDA, preAB, preD, preA, pre0, preTA, fA, fB, S_hi, S_x, S_y, S_x0, S_00, S_x10, S_h11, specOf_code]; exact h)

theorem rt_wdog (d a : Spec) : Rt (.wdog d a) := by
  have hd := specCode_lt d
  have ha := specCode_lt a
  refine rt_S (op := 240) (fn := 9) (x := specCode d) (y := specCode a) rfl (by decide) (by omega) (by omega) (by decide) (fun cls h => by first | rfl | exact h) (preDA · (.wdog)) (fun _ _ _ _ _ => rfl) ?_ (fun _ => ?_) (fun _ => rfl) (fun h => ?_)
  · first | rfl | simp (disch := omega) only [preDA, preAB, preD, preA, pre0, preTA, fA, fB, S_hi, S_x, S_y, S_x0, S_00, S_x10, S_h11, specOf_code]
  · first | rfl | (simp (disch := omega) only [preDA, preAB, preD, preA, pre0, preTA, fA, fB, S_hi, S_x, S_y, S_x0, S_00, S_x10, S_h11, specOf_code]; done) | (simp (disch := omega) only [preDA, preAB, preD, preA, pre0, preTA, fA, fB, S_hi, S_x, S_y, S_x0, S_00, S_x10, S_h11, specOf_code]; rfl)
  · first | rfl | (simp (disch := omega) only [preDA, preAB, preD, preA, pre0, preTA, fA, fB, S_hi, S_x, S_y, S_x0, S_00, S_x10, S_h11, specOf_code]; exact h)

theorem rt_srr (d a : Spec) : Rt (.srr d a) := by
  have hd := specCode_lt d
  have ha := specCode_lt a
  refine rt_S (op := 240) (fn := 10) (x := specCode d) (y := specCode a) rfl (by decide) (by omega) (by omega) (by decide) (fun cls h => by first | rfl | exact h) (preDA · (.srr)) (fun _ _ _ _ _ => rfl) ?_ (fun _ => ?_) (fun _ => rfl) (fun h => ?_)
  · first | rfl | simp (disch := omega) only [preDA, preAB, preD, preA, pre0, preTA, fA, fB, S_hi, S_x, S_y, S_x0, S_00, S_x10, S_h11, specOf_code]
  · first | rfl | (simp (disch := omega) only [preDA, preAB, preD, preA, pre0, preTA, fA, fB, S_hi, S_x, S_y, S_x0, S_00, S_x10, S_h11, specOf_code]; done) | (simp (disch := omega) only [preDA, preAB, preD, preA, pre0, preTA, fA, fB, S_hi, S_x, S_y, S_x0, S_00, S_x10, S_h11, specOf_code]; rfl)
  · first | rfl | (simp (disch := omega) only [preDA, preAB, preD, preA, pre0, preTA, fA, fB, S_hi, S_x, S_y, S_x0, S_00, S_x10, S_h11, specOf_code]; exact h)

theorem rt_rdcyc (d : Spec) : Rt (.rdcyc d) := by
  have hd := specCode_lt d
  refine rt_S (op := 240) (fn := 12) (x := specCode d) (y := 0) rfl (by decide) (by omega) (by omega) (by decide) (fun cls h => by first | rfl | exact h) (preD · (.rdcyc)) (fun _ _ _ _ _ => rfl) ?_ (fun _ => ?_) (fun _ => rfl) (fun h => ?_)
  · first | rfl | simp (disch := omega) only [preDA, preAB, preD, preA, pre0, preTA, fA, fB, S_hi, S_x, S_y, S_x0, S_00, S_x10, S_h11, specOf_code]
  · first | rfl | (simp (disch := omega) only [preDA, preAB, preD, preA, pre0, preTA, fA, fB, S_hi, S_x, S_y, S_x0, S_00, S_x10, S_h11, specOf_code]; done) | (simp (disch := omega) only [preDA, preAB, preD, preA, pre0, preTA, fA, fB, S_hi, S_x, S_y, S_x0, S_00, S_x10, S_h11, specOf_code]; rfl)
  · first | rfl | (simp (disch := omega) only [preDA, preAB, preD, preA, pre0, preTA, fA, fB, S_hi, S_x, S_y, S_x0, S_00, S_x10, S_h11, specOf_code]; exact h)

theorem rt_pair (d a : Spec) : Rt (.pair d a) := by
  have hd := specCode_lt d
  have ha := specCode_lt a
  refine rt_S (op := 240) (fn := 13) (x := specCode d) (y := specCode a) rfl (by decide) (by omega) (by omega) (by decide) (fun cls h => by first | rfl | exact h) (preDA · (.pair)) (fun _ _ _ _ _ => rfl) ?_ (fun _ => ?_) (fun _ => rfl) (fun h => ?_)
  · first | rfl | simp (disch := omega) only [preDA, preAB, preD, preA, pre0, preTA, fA, fB, S_hi, S_x, S_y, S_x0, S_00, S_x10, S_h11, specOf_code]
  · first | rfl | (simp (disch := omega) only [preDA, preAB, preD, preA, pre0, preTA, fA, fB, S_hi, S_x, S_y, S_x0, S_00, S_x10, S_h11, specOf_code]; done) | (simp (disch := omega) only [preDA, preAB, preD, preA, pre0, preTA, fA, fB, S_hi, S_x, S_y, S_x0, S_00, S_x10, S_h11, specOf_code]; rfl)
  · first | rfl | (simp (disch := omega) only [preDA, preAB, preD, preA, pre0, preTA, fA, fB, S_hi, S_x, S_y, S_x0, S_00, S_x10, S_h11, specOf_code]; exact h)

theorem rt_chbind (d a : Spec) : Rt (.chbind d a) := by
  have hd := specCode_lt d
  have ha := specCode_lt a
  refine rt_S (op := 241) (fn := 0) (x := specCode d) (y := specCode a) rfl (by decide) (by omega) (by omega) (by decide) (fun cls h => by first | rfl | exact h) (preAB · (.chbind)) (fun _ _ _ _ _ => rfl) ?_ (fun _ => ?_) (fun _ => rfl) (fun h => ?_)
  · first | rfl | simp (disch := omega) only [preDA, preAB, preD, preA, pre0, preTA, fA, fB, S_hi, S_x, S_y, S_x0, S_00, S_x10, S_h11, specOf_code]
  · first | rfl | (simp (disch := omega) only [preDA, preAB, preD, preA, pre0, preTA, fA, fB, S_hi, S_x, S_y, S_x0, S_00, S_x10, S_h11, specOf_code]; done) | (simp (disch := omega) only [preDA, preAB, preD, preA, pre0, preTA, fA, fB, S_hi, S_x, S_y, S_x0, S_00, S_x10, S_h11, specOf_code]; rfl)
  · first | rfl | (simp (disch := omega) only [preDA, preAB, preD, preA, pre0, preTA, fA, fB, S_hi, S_x, S_y, S_x0, S_00, S_x10, S_h11, specOf_code]; exact h)

theorem rt_chhold (d a : Spec) : Rt (.chhold d a) := by
  have hd := specCode_lt d
  have ha := specCode_lt a
  refine rt_S (op := 241) (fn := 1) (x := specCode d) (y := specCode a) rfl (by decide) (by omega) (by omega) (by decide) (fun cls h => by first | rfl | exact h) (preAB · (.chhold)) (fun _ _ _ _ _ => rfl) ?_ (fun _ => ?_) (fun _ => rfl) (fun h => ?_)
  · first | rfl | simp (disch := omega) only [preDA, preAB, preD, preA, pre0, preTA, fA, fB, S_hi, S_x, S_y, S_x0, S_00, S_x10, S_h11, specOf_code]
  · first | rfl | (simp (disch := omega) only [preDA, preAB, preD, preA, pre0, preTA, fA, fB, S_hi, S_x, S_y, S_x0, S_00, S_x10, S_h11, specOf_code]; done) | (simp (disch := omega) only [preDA, preAB, preD, preA, pre0, preTA, fA, fB, S_hi, S_x, S_y, S_x0, S_00, S_x10, S_h11, specOf_code]; rfl)
  · first | rfl | (simp (disch := omega) only [preDA, preAB, preD, preA, pre0, preTA, fA, fB, S_hi, S_x, S_y, S_x0, S_00, S_x10, S_h11, specOf_code]; exact h)

theorem rt_chrdy (d a : Spec) : Rt (.chrdy d a) := by
  have hd := specCode_lt d
  have ha := specCode_lt a
  refine rt_S (op := 241) (fn := 2) (x := specCode d) (y := specCode a) rfl (by decide) (by omega) (by omega) (by decide) (fun cls h => by first | rfl | exact h) (preAB · (.chrdy)) (fun _ _ _ _ _ => rfl) ?_ (fun _ => ?_) (fun _ => rfl) (fun h => ?_)
  · first | rfl | simp (disch := omega) only [preDA, preAB, preD, preA, pre0, preTA, fA, fB, S_hi, S_x, S_y, S_x0, S_00, S_x10, S_h11, specOf_code]
  · first | rfl | (simp (disch := omega) only [preDA, preAB, preD, preA, pre0, preTA, fA, fB, S_hi, S_x, S_y, S_x0, S_00, S_x10, S_h11, specOf_code]; done) | (simp (disch := omega) only [preDA, preAB, preD, preA, pre0, preTA, fA, fB, S_hi, S_x, S_y, S_x0, S_00, S_x10, S_h11, specOf_code]; rfl)
  · first | rfl | (simp (disch := omega) only [preDA, preAB, preD, preA, pre0, preTA, fA, fB, S_hi, S_x, S_y, S_x0, S_00, S_x10, S_h11, specOf_code]; exact h)

theorem rt_chmask (d a : Spec) : Rt (.chmask d a) := by
  have hd := specCode_lt d
  have ha := specCode_lt a
  refine rt_S (op := 241) (fn := 3) (x := specCode d) (y := specCode a) rfl (by decide) (by omega) (by omega) (by decide) (fun cls h => by first | rfl | exact h) (preAB · (.chmask)) (fun _ _ _ _ _ => rfl) ?_ (fun _ => ?_) (fun _ => rfl) (fun h => ?_)
  · first | rfl | simp (disch := omega) only [preDA, preAB, preD, preA, pre0, preTA, fA, fB, S_hi, S_x, S_y, S_x0, S_00, S_x10, S_h11, specOf_code]
  · first | rfl | (simp (disch := omega) only [preDA, preAB, preD, preA, pre0, preTA, fA, fB, S_hi, S_x, S_y, S_x0, S_00, S_x10, S_h11, specOf_code]; done) | (simp (disch := omega) only [preDA, preAB, preD, preA, pre0, preTA, fA, fB, S_hi, S_x, S_y, S_x0, S_00, S_x10, S_h11, specOf_code]; rfl)
  · first | rfl | (simp (disch := omega) only [preDA, preAB, preD, preA, pre0, preTA, fA, fB, S_hi, S_x, S_y, S_x0, S_00, S_x10, S_h11, specOf_code]; exact h)

theorem rt_chstat (d a : Spec) : Rt (.chstat d a) := by
  have hd := specCode_lt d
  have ha := specCode_lt a
  refine rt_S (op := 241) (fn := 4) (x := specCode d) (y := specCode a) rfl (by decide) (by omega) (by omega) (by decide) (fun cls h => by first | rfl | exact h) (preDA · (.chstat)) (fun _ _ _ _ _ => rfl) ?_ (fun _ => ?_) (fun _ => rfl) (fun h => ?_)
  · first | rfl | simp (disch := omega) only [preDA, preAB, preD, preA, pre0, preTA, fA, fB, S_hi, S_x, S_y, S_x0, S_00, S_x10, S_h11, specOf_code]
  · first | rfl | (simp (disch := omega) only [preDA, preAB, preD, preA, pre0, preTA, fA, fB, S_hi, S_x, S_y, S_x0, S_00, S_x10, S_h11, specOf_code]; done) | (simp (disch := omega) only [preDA, preAB, preD, preA, pre0, preTA, fA, fB, S_hi, S_x, S_y, S_x0, S_00, S_x10, S_h11, specOf_code]; rfl)
  · first | rfl | (simp (disch := omega) only [preDA, preAB, preD, preA, pre0, preTA, fA, fB, S_hi, S_x, S_y, S_x0, S_00, S_x10, S_h11, specOf_code]; exact h)

theorem rt_mnext (d : Spec) : Rt (.mnext d) := by
  have hd := specCode_lt d
  refine rt_S (op := 241) (fn := 5) (x := specCode d) (y := 0) rfl (by decide) (by omega) (by omega) (by decide) (fun cls h => by first | rfl | exact h) (preD · (.mnext)) (fun _ _ _ _ _ => rfl) ?_ (fun _ => ?_) (fun _ => rfl) (fun h => ?_)
  · first | rfl | simp (disch := omega) only [preDA, preAB, preD, preA, pre0, preTA, fA, fB, S_hi, S_x, S_y, S_x0, S_00, S_x10, S_h11, specOf_code]
  · first | rfl | (simp (disch := omega) only [preDA, preAB, preD, preA, pre0, preTA, fA, fB, S_hi, S_x, S_y, S_x0, S_00, S_x10, S_h11, specOf_code]; done) | (simp (disch := omega) only [preDA, preAB, preD, preA, pre0, preTA, fA, fB, S_hi, S_x, S_y, S_x0, S_00, S_x10, S_h11, specOf_code]; rfl)
  · first | rfl | (simp (disch := omega) only [preDA, preAB, preD, preA, pre0, preTA, fA, fB, S_hi, S_x, S_y, S_x0, S_00, S_x10, S_h11, specOf_code]; exact h)

theorem rt_tdef (tl : Fin 16) (a : Spec) : Rt (.tdef tl a) := by
  have ha := specCode_lt a
  have htl := tl.isLt
  have htf : Fin.ofNat 16 tl.val = tl := by apply Fin.ext; simp [Fin.ofNat]
  refine rt_S (op := 242) (fn := 0) (x := tl.val) (y := specCode a) rfl (by decide) (by omega) (by omega) (by decide) (fun cls h => by first | rfl | exact h) (preTA · (.tdef)) (fun _ _ _ _ _ => rfl) ?_ (fun _ => ?_) (fun _ => rfl) (fun h => ?_)
  · first | rfl | simp (disch := omega) only [preDA, preAB, preD, preA, pre0, preTA, fA, fB, S_hi, S_x, S_y, S_x0, S_00, S_x10, S_h11, specOf_code, htf]
  · first | rfl | (simp (disch := omega) only [preDA, preAB, preD, preA, pre0, preTA, fA, fB, S_hi, S_x, S_y, S_x0, S_00, S_x10, S_h11, specOf_code, htf]; done) | (simp (disch := omega) only [preDA, preAB, preD, preA, pre0, preTA, fA, fB, S_hi, S_x, S_y, S_x0, S_00, S_x10, S_h11, specOf_code, htf]; rfl)
  · first | rfl | (simp (disch := omega) only [preDA, preAB, preD, preA, pre0, preTA, fA, fB, S_hi, S_x, S_y, S_x0, S_00, S_x10, S_h11, specOf_code, htf]; exact h)

theorem rt_tarm (tl : Fin 16) (a : Spec) : Rt (.tarm tl a) := by
  have ha := specCode_lt a
  have htl := tl.isLt
  have htf : Fin.ofNat 16 tl.val = tl := by apply Fin.ext; simp [Fin.ofNat]
  refine rt_S (op := 242) (fn := 1) (x := tl.val) (y := specCode a) rfl (by decide) (by omega) (by omega) (by decide) (fun cls h => by first | rfl | exact h) (preTA · (.tarm)) (fun _ _ _ _ _ => rfl) ?_ (fun _ => ?_) (fun _ => rfl) (fun h => ?_)
  · first | rfl | simp (disch := omega) only [preDA, preAB, preD, preA, pre0, preTA, fA, fB, S_hi, S_x, S_y, S_x0, S_00, S_x10, S_h11, specOf_code, htf]
  · first | rfl | (simp (disch := omega) only [preDA, preAB, preD, preA, pre0, preTA, fA, fB, S_hi, S_x, S_y, S_x0, S_00, S_x10, S_h11, specOf_code, htf]; done) | (simp (disch := omega) only [preDA, preAB, preD, preA, pre0, preTA, fA, fB, S_hi, S_x, S_y, S_x0, S_00, S_x10, S_h11, specOf_code, htf]; rfl)
  · first | rfl | (simp (disch := omega) only [preDA, preAB, preD, preA, pre0, preTA, fA, fB, S_hi, S_x, S_y, S_x0, S_00, S_x10, S_h11, specOf_code, htf]; exact h)

theorem rt_twait (tl : Fin 16) (a : Spec) : Rt (.twait tl a) := by
  have ha := specCode_lt a
  have htl := tl.isLt
  have htf : Fin.ofNat 16 tl.val = tl := by apply Fin.ext; simp [Fin.ofNat]
  refine rt_S (op := 242) (fn := 2) (x := tl.val) (y := specCode a) rfl (by decide) (by omega) (by omega) (by decide) (fun cls h => by first | rfl | exact h) (preTA · (.twait)) (fun _ _ _ _ _ => rfl) ?_ (fun _ => ?_) (fun _ => rfl) (fun h => ?_)
  · first | rfl | simp (disch := omega) only [preDA, preAB, preD, preA, pre0, preTA, fA, fB, S_hi, S_x, S_y, S_x0, S_00, S_x10, S_h11, specOf_code, htf]
  · first | rfl | (simp (disch := omega) only [preDA, preAB, preD, preA, pre0, preTA, fA, fB, S_hi, S_x, S_y, S_x0, S_00, S_x10, S_h11, specOf_code, htf]; done) | (simp (disch := omega) only [preDA, preAB, preD, preA, pre0, preTA, fA, fB, S_hi, S_x, S_y, S_x0, S_00, S_x10, S_h11, specOf_code, htf]; rfl)
  · first | rfl | (simp (disch := omega) only [preDA, preAB, preD, preA, pre0, preTA, fA, fB, S_hi, S_x, S_y, S_x0, S_00, S_x10, S_h11, specOf_code, htf]; exact h)

theorem rt_jwait (a : Spec) : Rt (.jwait a) := by
  have ha := specCode_lt a
  refine rt_S (op := 242) (fn := 5) (x := 0) (y := specCode a) rfl (by decide) (by omega) (by omega) (by decide) (fun cls h => by first | rfl | exact h) (preA · (.jwait)) (fun _ _ _ _ _ => rfl) ?_ (fun _ => ?_) (fun _ => rfl) (fun h => ?_)
  · first | rfl | simp (disch := omega) only [preDA, preAB, preD, preA, pre0, preTA, fA, fB, S_hi, S_x, S_y, S_x0, S_00, S_x10, S_h11, specOf_code]
  · first | rfl | (simp (disch := omega) only [preDA, preAB, preD, preA, pre0, preTA, fA, fB, S_hi, S_x, S_y, S_x0, S_00, S_x10, S_h11, specOf_code]; done) | (simp (disch := omega) only [preDA, preAB, preD, preA, pre0, preTA, fA, fB, S_hi, S_x, S_y, S_x0, S_00, S_x10, S_h11, specOf_code]; rfl)
  · first | rfl | (simp (disch := omega) only [preDA, preAB, preD, preA, pre0, preTA, fA, fB, S_hi, S_x, S_y, S_x0, S_00, S_x10, S_h11, specOf_code]; exact h)

theorem rt_jpoll (d a : Spec) : Rt (.jpoll d a) := by
  have hd := specCode_lt d
  have ha := specCode_lt a
  refine rt_S (op := 242) (fn := 6) (x := specCode d) (y := specCode a) rfl (by decide) (by omega) (by omega) (by decide) (fun cls h => by first | rfl | exact h) (preDA · (.jpoll)) (fun _ _ _ _ _ => rfl) ?_ (fun _ => ?_) (fun _ => rfl) (fun h => ?_)
  · first | rfl | simp (disch := omega) only [preDA, preAB, preD, preA, pre0, preTA, fA, fB, S_hi, S_x, S_y, S_x0, S_00, S_x10, S_h11, specOf_code]
  · first | rfl | (simp (disch := omega) only [preDA, preAB, preD, preA, pre0, preTA, fA, fB, S_hi, S_x, S_y, S_x0, S_00, S_x10, S_h11, specOf_code]; done) | (simp (disch := omega) only [preDA, preAB, preD, preA, pre0, preTA, fA, fB, S_hi, S_x, S_y, S_x0, S_00, S_x10, S_h11, specOf_code]; rfl)
  · first | rfl | (simp (disch := omega) only [preDA, preAB, preD, preA, pre0, preTA, fA, fB, S_hi, S_x, S_y, S_x0, S_00, S_x10, S_h11, specOf_code]; exact h)

theorem rt_kwait  : Rt (.kwait ) := by
  refine rt_S (op := 243) (fn := 1) (x := 0) (y := 0) rfl (by decide) (by omega) (by omega) (by decide) (fun cls h => by first | rfl | exact h) (pre0 · .kwait) (fun _ _ _ _ _ => rfl) ?_ (fun _ => ?_) (fun _ => rfl) (fun h => ?_)
  · first | rfl | simp (disch := omega) only [preDA, preAB, preD, preA, pre0, preTA, fA, fB, S_hi, S_x, S_y, S_x0, S_00, S_x10, S_h11, specOf_code]
  · first | rfl | (simp (disch := omega) only [preDA, preAB, preD, preA, pre0, preTA, fA, fB, S_hi, S_x, S_y, S_x0, S_00, S_x10, S_h11, specOf_code]; done) | (simp (disch := omega) only [preDA, preAB, preD, preA, pre0, preTA, fA, fB, S_hi, S_x, S_y, S_x0, S_00, S_x10, S_h11, specOf_code]; rfl)
  · first | rfl | (simp (disch := omega) only [preDA, preAB, preD, preA, pre0, preTA, fA, fB, S_hi, S_x, S_y, S_x0, S_00, S_x10, S_h11, specOf_code]; exact h)

theorem rt_kleave (d a : Spec) : Rt (.kleave d a) := by
  have hd := specCode_lt d
  have ha := specCode_lt a
  refine rt_S (op := 243) (fn := 2) (x := specCode d) (y := specCode a) rfl (by decide) (by omega) (by omega) (by decide) (fun cls h => by first | rfl | exact h) (preDA · (.kleave)) (fun _ _ _ _ _ => rfl) ?_ (fun _ => ?_) (fun _ => rfl) (fun h => ?_)
  · first | rfl | simp (disch := omega) only [preDA, preAB, preD, preA, pre0, preTA, fA, fB, S_hi, S_x, S_y, S_x0, S_00, S_x10, S_h11, specOf_code]
  · first | rfl | (simp (disch := omega) only [preDA, preAB, preD, preA, pre0, preTA, fA, fB, S_hi, S_x, S_y, S_x0, S_00, S_x10, S_h11, specOf_code]; done) | (simp (disch := omega) only [preDA, preAB, preD, preA, pre0, preTA, fA, fB, S_hi, S_x, S_y, S_x0, S_00, S_x10, S_h11, specOf_code]; rfl)
  · first | rfl | (simp (disch := omega) only [preDA, preAB, preD, preA, pre0, preTA, fA, fB, S_hi, S_x, S_y, S_x0, S_00, S_x10, S_h11, specOf_code]; exact h)

theorem rt_kstat (d a : Spec) : Rt (.kstat d a) := by
  have hd := specCode_lt d
  have ha := specCode_lt a
  refine rt_S (op := 243) (fn := 3) (x := specCode d) (y := specCode a) rfl (by decide) (by omega) (by omega) (by decide) (fun cls h => by first | rfl | exact h) (preDA · (.kstat)) (fun _ _ _ _ _ => rfl) ?_ (fun _ => ?_) (fun _ => rfl) (fun h => ?_)
  · first | rfl | simp (disch := omega) only [preDA, preAB, preD, preA, pre0, preTA, fA, fB, S_hi, S_x, S_y, S_x0, S_00, S_x10, S_h11, specOf_code]
  · first | rfl | (simp (disch := omega) only [preDA, preAB, preD, preA, pre0, preTA, fA, fB, S_hi, S_x, S_y, S_x0, S_00, S_x10, S_h11, specOf_code]; done) | (simp (disch := omega) only [preDA, preAB, preD, preA, pre0, preTA, fA, fB, S_hi, S_x, S_y, S_x0, S_00, S_x10, S_h11, specOf_code]; rfl)
  · first | rfl | (simp (disch := omega) only [preDA, preAB, preD, preA, pre0, preTA, fA, fB, S_hi, S_x, S_y, S_x0, S_00, S_x10, S_h11, specOf_code]; exact h)

theorem rt_gbar (d : Spec) : Rt (.gbar d) := by
  have hd := specCode_lt d
  refine rt_S (op := 244) (fn := 0) (x := specCode d) (y := 0) rfl (by decide) (by omega) (by omega) (by decide) (fun cls h => by first | rfl | exact h) (preD · (.gbar)) (fun _ _ _ _ _ => rfl) ?_ (fun _ => ?_) (fun _ => rfl) (fun h => ?_)
  · first | rfl | simp (disch := omega) only [preDA, preAB, preD, preA, pre0, preTA, fA, fB, S_hi, S_x, S_y, S_x0, S_00, S_x10, S_h11, specOf_code]
  · first | rfl | (simp (disch := omega) only [preDA, preAB, preD, preA, pre0, preTA, fA, fB, S_hi, S_x, S_y, S_x0, S_00, S_x10, S_h11, specOf_code]; done) | (simp (disch := omega) only [preDA, preAB, preD, preA, pre0, preTA, fA, fB, S_hi, S_x, S_y, S_x0, S_00, S_x10, S_h11, specOf_code]; rfl)
  · first | rfl | (simp (disch := omega) only [preDA, preAB, preD, preA, pre0, preTA, fA, fB, S_hi, S_x, S_y, S_x0, S_00, S_x10, S_h11, specOf_code]; exact h)

theorem rt_gqGet (d : Spec) : Rt (.gqGet d) := by
  have hd := specCode_lt d
  refine rt_S (op := 244) (fn := 1) (x := specCode d) (y := 0) rfl (by decide) (by omega) (by omega) (by decide) (fun cls h => by first | rfl | exact h) (preD · (.gqGet)) (fun _ _ _ _ _ => rfl) ?_ (fun _ => ?_) (fun _ => rfl) (fun h => ?_)
  · first | rfl | simp (disch := omega) only [preDA, preAB, preD, preA, pre0, preTA, fA, fB, S_hi, S_x, S_y, S_x0, S_00, S_x10, S_h11, specOf_code]
  · first | rfl | (simp (disch := omega) only [preDA, preAB, preD, preA, pre0, preTA, fA, fB, S_hi, S_x, S_y, S_x0, S_00, S_x10, S_h11, specOf_code]; done) | (simp (disch := omega) only [preDA, preAB, preD, preA, pre0, preTA, fA, fB, S_hi, S_x, S_y, S_x0, S_00, S_x10, S_h11, specOf_code]; rfl)
  · first | rfl | (simp (disch := omega) only [preDA, preAB, preD, preA, pre0, preTA, fA, fB, S_hi, S_x, S_y, S_x0, S_00, S_x10, S_h11, specOf_code]; exact h)

theorem rt_baddRq (d a : Spec) : Rt (.baddRq d a) := by
  have hd := specCode_lt d
  have ha := specCode_lt a
  refine rt_S (op := 244) (fn := 2) (x := specCode d) (y := specCode a) rfl (by decide) (by omega) (by omega) (by decide) (fun cls h => by first | rfl | exact h) (preAB · (.baddRq)) (fun _ _ _ _ _ => rfl) ?_ (fun _ => ?_) (fun _ => rfl) (fun h => ?_)
  · first | rfl | simp (disch := omega) only [preDA, preAB, preD, preA, pre0, preTA, fA, fB, S_hi, S_x, S_y, S_x0, S_00, S_x10, S_h11, specOf_code]
  · first | rfl | (simp (disch := omega) only [preDA, preAB, preD, preA, pre0, preTA, fA, fB, S_hi, S_x, S_y, S_x0, S_00, S_x10, S_h11, specOf_code]; done) | (simp (disch := omega) only [preDA, preAB, preD, preA, pre0, preTA, fA, fB, S_hi, S_x, S_y, S_x0, S_00, S_x10, S_h11, specOf_code]; rfl)
  · first | rfl | (simp (disch := omega) only [preDA, preAB, preD, preA, pre0, preTA, fA, fB, S_hi, S_x, S_y, S_x0, S_00, S_x10, S_h11, specOf_code]; exact h)

theorem rt_launch (d a : Spec) : Rt (.launch d a) := by
  have hd := specCode_lt d
  have ha := specCode_lt a
  refine rt_S (op := 245) (fn := 0) (x := specCode d) (y := specCode a) rfl (by decide) (by omega) (by omega) (by decide) (fun cls h => by first | rfl | exact h) (preDA · (.launch)) (fun _ _ _ _ _ => rfl) ?_ (fun _ => ?_) (fun _ => rfl) (fun h => ?_)
  · first | rfl | simp (disch := omega) only [preDA, preAB, preD, preA, pre0, preTA, fA, fB, S_hi, S_x, S_y, S_x0, S_00, S_x10, S_h11, specOf_code]
  · first | rfl | (simp (disch := omega) only [preDA, preAB, preD, preA, pre0, preTA, fA, fB, S_hi, S_x, S_y, S_x0, S_00, S_x10, S_h11, specOf_code]; done) | (simp (disch := omega) only [preDA, preAB, preD, preA, pre0, preTA, fA, fB, S_hi, S_x, S_y, S_x0, S_00, S_x10, S_h11, specOf_code]; rfl)
  · first | rfl | (simp (disch := omega) only [preDA, preAB, preD, preA, pre0, preTA, fA, fB, S_hi, S_x, S_y, S_x0, S_00, S_x10, S_h11, specOf_code]; exact h)

theorem rt_trig  : Rt (.trig ) := by
  refine rt_S (op := 245) (fn := 1) (x := 0) (y := 0) rfl (by decide) (by omega) (by omega) (by decide) (fun cls h => by first | rfl | exact h) (pre0 · .trig) (fun _ _ _ _ _ => rfl) ?_ (fun _ => ?_) (fun _ => rfl) (fun h => ?_)
  · first | rfl | simp (disch := omega) only [preDA, preAB, preD, preA, pre0, preTA, fA, fB, S_hi, S_x, S_y, S_x0, S_00, S_x10, S_h11, specOf_code]
  · first | rfl | (simp (disch := omega) only [preDA, preAB, preD, preA, pre0, preTA, fA, fB, S_hi, S_x, S_y, S_x0, S_00, S_x10, S_h11, specOf_code]; done) | (simp (disch := omega) only [preDA, preAB, preD, preA, pre0, preTA, fA, fB, S_hi, S_x, S_y, S_x0, S_00, S_x10, S_h11, specOf_code]; rfl)
  · first | rfl | (simp (disch := omega) only [preDA, preAB, preD, preA, pre0, preTA, fA, fB, S_hi, S_x, S_y, S_x0, S_00, S_x10, S_h11, specOf_code]; exact h)

theorem rt_dwait (d : Spec) : Rt (.dwait d) := by
  have hd := specCode_lt d
  refine rt_S (op := 245) (fn := 2) (x := specCode d) (y := 0) rfl (by decide) (by omega) (by omega) (by decide) (fun cls h => by first | rfl | exact h) (preD · (.dwait)) (fun _ _ _ _ _ => rfl) ?_ (fun _ => ?_) (fun _ => rfl) (fun h => ?_)
  · first | rfl | simp (disch := omega) only [preDA, preAB, preD, preA, pre0, preTA, fA, fB, S_hi, S_x, S_y, S_x0, S_00, S_x10, S_h11, specOf_code]
  · first | rfl | (simp (disch := omega) only [preDA, preAB, preD, preA, pre0, preTA, fA, fB, S_hi, S_x, S_y, S_x0, S_00, S_x10, S_h11, specOf_code]; done) | (simp (disch := omega) only [preDA, preAB, preD, preA, pre0, preTA, fA, fB, S_hi, S_x, S_y, S_x0, S_00, S_x10, S_h11, specOf_code]; rfl)
  · first | rfl | (simp (disch := omega) only [preDA, preAB, preD, preA, pre0, preTA, fA, fB, S_hi, S_x, S_y, S_x0, S_00, S_x10, S_h11, specOf_code]; exact h)

theorem rt_lwait (d a : Spec) : Rt (.lwait d a) := by
  have hd := specCode_lt d
  have ha := specCode_lt a
  refine rt_S (op := 245) (fn := 3) (x := specCode d) (y := specCode a) rfl (by decide) (by omega) (by omega) (by decide) (fun cls h => by first | rfl | exact h) (preDA · (.lwait)) (fun _ _ _ _ _ => rfl) ?_ (fun _ => ?_) (fun _ => rfl) (fun h => ?_)
  · first | rfl | simp (disch := omega) only [preDA, preAB, preD, preA, pre0, preTA, fA, fB, S_hi, S_x, S_y, S_x0, S_00, S_x10, S_h11, specOf_code]
  · first | rfl | (simp (disch := omega) only [preDA, preAB, preD, preA, pre0, preTA, fA, fB, S_hi, S_x, S_y, S_x0, S_00, S_x10, S_h11, specOf_code]; done) | (simp (disch := omega) only [preDA, preAB, preD, preA, pre0, preTA, fA, fB, S_hi, S_x, S_y, S_x0, S_00, S_x10, S_h11, specOf_code]; rfl)
  · first | rfl | (simp (disch := omega) only [preDA, preAB, preD, preA, pre0, preTA, fA, fB, S_hi, S_x, S_y, S_x0, S_00, S_x10, S_h11, specOf_code]; exact h)

theorem rt_lstat (d a : Spec) : Rt (.lstat d a) := by
  have hd := specCode_lt d
  have ha := specCode_lt a
  refine rt_S (op := 245) (fn := 4) (x := specCode d) (y := specCode a) rfl (by decide) (by omega) (by omega) (by decide) (fun cls h => by first | rfl | exact h) (preDA · (.lstat)) (fun _ _ _ _ _ => rfl) ?_ (fun _ => ?_) (fun _ => rfl) (fun h => ?_)
  · first | rfl | simp (disch := omega) only [preDA, preAB, preD, preA, pre0, preTA, fA, fB, S_hi, S_x, S_y, S_x0, S_00, S_x10, S_h11, specOf_code]
  · first | rfl | (simp (disch := omega) only [preDA, preAB, preD, preA, pre0, preTA, fA, fB, S_hi, S_x, S_y, S_x0, S_00, S_x10, S_h11, specOf_code]; done) | (simp (disch := omega) only [preDA, preAB, preD, preA, pre0, preTA, fA, fB, S_hi, S_x, S_y, S_x0, S_00, S_x10, S_h11, specOf_code]; rfl)
  · first | rfl | (simp (disch := omega) only [preDA, preAB, preD, preA, pre0, preTA, fA, fB, S_hi, S_x, S_y, S_x0, S_00, S_x10, S_h11, specOf_code]; exact h)

theorem rt_sgnew (d a : Spec) : Rt (.sgnew d a) := by
  have hd := specCode_lt d
  have ha := specCode_lt a
  refine rt_S (op := 246) (fn := 0) (x := specCode d) (y := specCode a) rfl (by decide) (by omega) (by omega) (by decide) (fun cls h => by first | rfl | exact h) (preDA · (.sgnew)) (fun _ _ _ _ _ => rfl) ?_ (fun _ => ?_) (fun _ => rfl) (fun h => ?_)
  · first | rfl | simp (disch := omega) only [preDA, preAB, preD, preA, pre0, preTA, fA, fB, S_hi, S_x, S_y, S_x0, S_00, S_x10, S_h11, specOf_code]
  · first | rfl | (simp (disch := omega) only [preDA, preAB, preD, preA, pre0, preTA, fA, fB, S_hi, S_x, S_y, S_x0, S_00, S_x10, S_h11, specOf_code]; done) | (simp (disch := omega) only [preDA, preAB, preD, preA, pre0, preTA, fA, fB, S_hi, S_x, S_y, S_x0, S_00, S_x10, S_h11, specOf_code]; rfl)
  · first | rfl | (simp (disch := omega) only [preDA, preAB, preD, preA, pre0, preTA, fA, fB, S_hi, S_x, S_y, S_x0, S_00, S_x10, S_h11, specOf_code]; exact h)

theorem rt_sgatt (d a : Spec) : Rt (.sgatt d a) := by
  have hd := specCode_lt d
  have ha := specCode_lt a
  refine rt_S (op := 246) (fn := 1) (x := specCode d) (y := specCode a) rfl (by decide) (by omega) (by omega) (by decide) (fun cls h => by first | rfl | exact h) (preDA · (.sgatt)) (fun _ _ _ _ _ => rfl) ?_ (fun _ => ?_) (fun _ => rfl) (fun h => ?_)
  · first | rfl | simp (disch := omega) only [preDA, preAB, preD, preA, pre0, preTA, fA, fB, S_hi, S_x, S_y, S_x0, S_00, S_x10, S_h11, specOf_code]
  · first | rfl | (simp (disch := omega) only [preDA, preAB, preD, preA, pre0, preTA, fA, fB, S_hi, S_x, S_y, S_x0, S_00, S_x10, S_h11, specOf_code]; done) | (simp (disch := omega) only [preDA, preAB, preD, preA, pre0, preTA, fA, fB, S_hi, S_x, S_y, S_x0, S_00, S_x10, S_h11, specOf_code]; rfl)
  · first | rfl | (simp (disch := omega) only [preDA, preAB, preD, preA, pre0, preTA, fA, fB, S_hi, S_x, S_y, S_x0, S_00, S_x10, S_h11, specOf_code]; exact h)

theorem rt_sgdet (a : Spec) : Rt (.sgdet a) := by
  have ha := specCode_lt a
  refine rt_S (op := 246) (fn := 2) (x := 0) (y := specCode a) rfl (by decide) (by omega) (by omega) (by decide) (fun cls h => by first | rfl | exact h) (preA · (.sgdet)) (fun _ _ _ _ _ => rfl) ?_ (fun _ => ?_) (fun _ => rfl) (fun h => ?_)
  · first | rfl | simp (disch := omega) only [preDA, preAB, preD, preA, pre0, preTA, fA, fB, S_hi, S_x, S_y, S_x0, S_00, S_x10, S_h11, specOf_code]
  · first | rfl | (simp (disch := omega) only [preDA, preAB, preD, preA, pre0, preTA, fA, fB, S_hi, S_x, S_y, S_x0, S_00, S_x10, S_h11, specOf_code]; done) | (simp (disch := omega) only [preDA, preAB, preD, preA, pre0, preTA, fA, fB, S_hi, S_x, S_y, S_x0, S_00, S_x10, S_h11, specOf_code]; rfl)
  · first | rfl | (simp (disch := omega) only [preDA, preAB, preD, preA, pre0, preTA, fA, fB, S_hi, S_x, S_y, S_x0, S_00, S_x10, S_h11, specOf_code]; exact h)

theorem rt_sgrel (d a : Spec) : Rt (.sgrel d a) := by
  have hd := specCode_lt d
  have ha := specCode_lt a
  refine rt_S (op := 246) (fn := 3) (x := specCode d) (y := specCode a) rfl (by decide) (by omega) (by omega) (by decide) (fun cls h => by first | rfl | exact h) (preAB · (.sgrel)) (fun _ _ _ _ _ => rfl) ?_ (fun _ => ?_) (fun _ => rfl) (fun h => ?_)
  · first | rfl | simp (disch := omega) only [preDA, preAB, preD, preA, pre0, preTA, fA, fB, S_hi, S_x, S_y, S_x0, S_00, S_x10, S_h11, specOf_code]
  · first | rfl | (simp (disch := omega) only [preDA, preAB, preD, preA, pre0, preTA, fA, fB, S_hi, S_x, S_y, S_x0, S_00, S_x10, S_h11, specOf_code]; done) | (simp (disch := omega) only [preDA, preAB, preD, preA, pre0, preTA, fA, fB, S_hi, S_x, S_y, S_x0, S_00, S_x10, S_h11, specOf_code]; rfl)
  · first | rfl | (simp (disch := omega) only [preDA, preAB, preD, preA, pre0, preTA, fA, fB, S_hi, S_x, S_y, S_x0, S_00, S_x10, S_h11, specOf_code]; exact h)

theorem rt_sgpin (d a : Spec) : Rt (.sgpin d a) := by
  have hd := specCode_lt d
  have ha := specCode_lt a
  refine rt_S (op := 246) (fn := 4) (x := specCode d) (y := specCode a) rfl (by decide) (by omega) (by omega) (by decide) (fun cls h => by first | rfl | exact h) (preAB · (.sgpin)) (fun _ _ _ _ _ => rfl) ?_ (fun _ => ?_) (fun _ => rfl) (fun h => ?_)
  · first | rfl | simp (disch := omega) only [preDA, preAB, preD, preA, pre0, preTA, fA, fB, S_hi, S_x, S_y, S_x0, S_00, S_x10, S_h11, specOf_code]
  · first | rfl | (simp (disch := omega) only [preDA, preAB, preD, preA, pre0, preTA, fA, fB, S_hi, S_x, S_y, S_x0, S_00, S_x10, S_h11, specOf_code]; done) | (simp (disch := omega) only [preDA, preAB, preD, preA, pre0, preTA, fA, fB, S_hi, S_x, S_y, S_x0, S_00, S_x10, S_h11, specOf_code]; rfl)
  · first | rfl | (simp (disch := omega) only [preDA, preAB, preD, preA, pre0, preTA, fA, fB, S_hi, S_x, S_y, S_x0, S_00, S_x10, S_h11, specOf_code]; exact h)

theorem rt_sgevict (d a : Spec) : Rt (.sgevict d a) := by
  have hd := specCode_lt d
  have ha := specCode_lt a
  refine rt_S (op := 246) (fn := 5) (x := specCode d) (y := specCode a) rfl (by decide) (by omega) (by omega) (by decide) (fun cls h => by first | rfl | exact h) (preDA · (.sgevict)) (fun _ _ _ _ _ => rfl) ?_ (fun _ => ?_) (fun _ => rfl) (fun h => ?_)
  · first | rfl | simp (disch := omega) only [preDA, preAB, preD, preA, pre0, preTA, fA, fB, S_hi, S_x, S_y, S_x0, S_00, S_x10, S_h11, specOf_code]
  · first | rfl | (simp (disch := omega) only [preDA, preAB, preD, preA, pre0, preTA, fA, fB, S_hi, S_x, S_y, S_x0, S_00, S_x10, S_h11, specOf_code]; done) | (simp (disch := omega) only [preDA, preAB, preD, preA, pre0, preTA, fA, fB, S_hi, S_x, S_y, S_x0, S_00, S_x10, S_h11, specOf_code]; rfl)
  · first | rfl | (simp (disch := omega) only [preDA, preAB, preD, preA, pre0, preTA, fA, fB, S_hi, S_x, S_y, S_x0, S_00, S_x10, S_h11, specOf_code]; exact h)

theorem rt_sgstat (d a : Spec) : Rt (.sgstat d a) := by
  have hd := specCode_lt d
  have ha := specCode_lt a
  refine rt_S (op := 246) (fn := 6) (x := specCode d) (y := specCode a) rfl (by decide) (by omega) (by omega) (by decide) (fun cls h => by first | rfl | exact h) (preDA · (.sgstat)) (fun _ _ _ _ _ => rfl) ?_ (fun _ => ?_) (fun _ => rfl) (fun h => ?_)
  · first | rfl | simp (disch := omega) only [preDA, preAB, preD, preA, pre0, preTA, fA, fB, S_hi, S_x, S_y, S_x0, S_00, S_x10, S_h11, specOf_code]
  · first | rfl | (simp (disch := omega) only [preDA, preAB, preD, preA, pre0, preTA, fA, fB, S_hi, S_x, S_y, S_x0, S_00, S_x10, S_h11, specOf_code]; done) | (simp (disch := omega) only [preDA, preAB, preD, preA, pre0, preTA, fA, fB, S_hi, S_x, S_y, S_x0, S_00, S_x10, S_h11, specOf_code]; rfl)
  · first | rfl | (simp (disch := omega) only [preDA, preAB, preD, preA, pre0, preTA, fA, fB, S_hi, S_x, S_y, S_x0, S_00, S_x10, S_h11, specOf_code]; exact h)

theorem rt_tmprGet (d a : Spec) : Rt (.tmprGet d a) := by
  have hd := specCode_lt d
  have ha := specCode_lt a
  refine rt_S (op := 247) (fn := 0) (x := specCode d) (y := specCode a) rfl (by decide) (by omega) (by omega) (by decide) (fun cls h => by first | rfl | exact h) (preDA · (.tmprGet)) (fun _ _ _ _ _ => rfl) ?_ (fun _ => ?_) (fun _ => rfl) (fun h => ?_)
  · first | rfl | simp (disch := omega) only [preDA, preAB, preD, preA, pre0, preTA, fA, fB, S_hi, S_x, S_y, S_x0, S_00, S_x10, S_h11, specOf_code]
  · first | rfl | (simp (disch := omega) only [preDA, preAB, preD, preA, pre0, preTA, fA, fB, S_hi, S_x, S_y, S_x0, S_00, S_x10, S_h11, specOf_code]; done) | (simp (disch := omega) only [preDA, preAB, preD, preA, pre0, preTA, fA, fB, S_hi, S_x, S_y, S_x0, S_00, S_x10, S_h11, specOf_code]; rfl)
  · first | rfl | (simp (disch := omega) only [preDA, preAB, preD, preA, pre0, preTA, fA, fB, S_hi, S_x, S_y, S_x0, S_00, S_x10, S_h11, specOf_code]; exact h)

theorem rt_tmprPick (d a : Spec) : Rt (.tmprPick d a) := by
  have hd := specCode_lt d
  have ha := specCode_lt a
  refine rt_S (op := 247) (fn := 1) (x := specCode d) (y := specCode a) rfl (by decide) (by omega) (by omega) (by decide) (fun cls h => by first | rfl | exact h) (preDA · (.tmprPick)) (fun _ _ _ _ _ => rfl) ?_ (fun _ => ?_) (fun _ => rfl) (fun h => ?_)
  · first | rfl | simp (disch := omega) only [preDA, preAB, preD, preA, pre0, preTA, fA, fB, S_hi, S_x, S_y, S_x0, S_00, S_x10, S_h11, specOf_code]
  · first | rfl | (simp (disch := omega) only [preDA, preAB, preD, preA, pre0, preTA, fA, fB, S_hi, S_x, S_y, S_x0, S_00, S_x10, S_h11, specOf_code]; done) | (simp (disch := omega) only [preDA, preAB, preD, preA, pre0, preTA, fA, fB, S_hi, S_x, S_y, S_x0, S_00, S_x10, S_h11, specOf_code]; rfl)
  · first | rfl | (simp (disch := omega) only [preDA, preAB, preD, preA, pre0, preTA, fA, fB, S_hi, S_x, S_y, S_x0, S_00, S_x10, S_h11, specOf_code]; exact h)

theorem rt_tmprDem (d a : Spec) : Rt (.tmprDem d a) := by
  have hd := specCode_lt d
  have ha := specCode_lt a
  refine rt_S (op := 247) (fn := 2) (x := specCode d) (y := specCode a) rfl (by decide) (by omega) (by omega) (by decide) (fun cls h => by first | rfl | exact h) (preDA · (.tmprDem)) (fun _ _ _ _ _ => rfl) ?_ (fun _ => ?_) (fun _ => rfl) (fun h => ?_)
  · first | rfl | simp (disch := omega) only [preDA, preAB, preD, preA, pre0, preTA, fA, fB, S_hi, S_x, S_y, S_x0, S_00, S_x10, S_h11, specOf_code]
  · first | rfl | (simp (disch := omega) only [preDA, preAB, preD, preA, pre0, preTA, fA, fB, S_hi, S_x, S_y, S_x0, S_00, S_x10, S_h11, specOf_code]; done) | (simp (disch := omega) only [preDA, preAB, preD, preA, pre0, preTA, fA, fB, S_hi, S_x, S_y, S_x0, S_00, S_x10, S_h11, specOf_code]; rfl)
  · first | rfl | (simp (disch := omega) only [preDA, preAB, preD, preA, pre0, preTA, fA, fB, S_hi, S_x, S_y, S_x0, S_00, S_x10, S_h11, specOf_code]; exact h)

theorem rt_tmprRe (d a : Spec) : Rt (.tmprRe d a) := by
  have hd := specCode_lt d
  have ha := specCode_lt a
  refine rt_S (op := 247) (fn := 3) (x := specCode d) (y := specCode a) rfl (by decide) (by omega) (by omega) (by decide) (fun cls h => by first | rfl | exact h) (preDA · (.tmprRe)) (fun _ _ _ _ _ => rfl) ?_ (fun _ => ?_) (fun _ => rfl) (fun h => ?_)
  · first | rfl | simp (disch := omega) only [preDA, preAB, preD, preA, pre0, preTA, fA, fB, S_hi, S_x, S_y, S_x0, S_00, S_x10, S_h11, specOf_code]
  · first | rfl | (simp (disch := omega) only [preDA, preAB, preD, preA, pre0, preTA, fA, fB, S_hi, S_x, S_y, S_x0, S_00, S_x10, S_h11, specOf_code]; done) | (simp (disch := omega) only [preDA, preAB, preD, preA, pre0, preTA, fA, fB, S_hi, S_x, S_y, S_x0, S_00, S_x10, S_h11, specOf_code]; rfl)
  · first | rfl | (simp (disch := omega) only [preDA, preAB, preD, preA, pre0, preTA, fA, fB, S_hi, S_x, S_y, S_x0, S_00, S_x10, S_h11, specOf_code]; exact h)

theorem rt_tmprAch (a : Spec) : Rt (.tmprAch a) := by
  have ha := specCode_lt a
  refine rt_S (op := 247) (fn := 4) (x := 0) (y := specCode a) rfl (by decide) (by omega) (by omega) (by decide) (fun cls h => by first | rfl | exact h) (preA · (.tmprAch)) (fun _ _ _ _ _ => rfl) ?_ (fun _ => ?_) (fun _ => rfl) (fun h => ?_)
  · first | rfl | simp (disch := omega) only [preDA, preAB, preD, preA, pre0, preTA, fA, fB, S_hi, S_x, S_y, S_x0, S_00, S_x10, S_h11, specOf_code]
  · first | rfl | (simp (disch := omega) only [preDA, preAB, preD, preA, pre0, preTA, fA, fB, S_hi, S_x, S_y, S_x0, S_00, S_x10, S_h11, specOf_code]; done) | (simp (disch := omega) only [preDA, preAB, preD, preA, pre0, preTA, fA, fB, S_hi, S_x, S_y, S_x0, S_00, S_x10, S_h11, specOf_code]; rfl)
  · first | rfl | (simp (disch := omega) only [preDA, preAB, preD, preA, pre0, preTA, fA, fB, S_hi, S_x, S_y, S_x0, S_00, S_x10, S_h11, specOf_code]; exact h)

theorem rt_ttbw (d a : Spec) : Rt (.ttbw d a) := by
  have hd := specCode_lt d
  have ha := specCode_lt a
  refine rt_S (op := 248) (fn := 0) (x := specCode d) (y := specCode a) rfl (by decide) (by omega) (by omega) (by decide) (fun cls h => by first | rfl | exact h) (preAB · (.ttbw)) (fun _ _ _ _ _ => rfl) ?_ (fun _ => ?_) (fun _ => rfl) (fun h => ?_)
  · first | rfl | simp (disch := omega) only [preDA, preAB, preD, preA, pre0, preTA, fA, fB, S_hi, S_x, S_y, S_x0, S_00, S_x10, S_h11, specOf_code]
  · first | rfl | (simp (disch := omega) only [preDA, preAB, preD, preA, pre0, preTA, fA, fB, S_hi, S_x, S_y, S_x0, S_00, S_x10, S_h11, specOf_code]; done) | (simp (disch := omega) only [preDA, preAB, preD, preA, pre0, preTA, fA, fB, S_hi, S_x, S_y, S_x0, S_00, S_x10, S_h11, specOf_code]; rfl)
  · first | rfl | (simp (disch := omega) only [preDA, preAB, preD, preA, pre0, preTA, fA, fB, S_hi, S_x, S_y, S_x0, S_00, S_x10, S_h11, specOf_code]; exact h)

theorem rt_ttbi (a : Spec) : Rt (.ttbi a) := by
  have ha := specCode_lt a
  refine rt_S (op := 248) (fn := 1) (x := 0) (y := specCode a) rfl (by decide) (by omega) (by omega) (by decide) (fun cls h => by first | rfl | exact h) (preA · (.ttbi)) (fun _ _ _ _ _ => rfl) ?_ (fun _ => ?_) (fun _ => rfl) (fun h => ?_)
  · first | rfl | simp (disch := omega) only [preDA, preAB, preD, preA, pre0, preTA, fA, fB, S_hi, S_x, S_y, S_x0, S_00, S_x10, S_h11, specOf_code]
  · first | rfl | (simp (disch := omega) only [preDA, preAB, preD, preA, pre0, preTA, fA, fB, S_hi, S_x, S_y, S_x0, S_00, S_x10, S_h11, specOf_code]; done) | (simp (disch := omega) only [preDA, preAB, preD, preA, pre0, preTA, fA, fB, S_hi, S_x, S_y, S_x0, S_00, S_x10, S_h11, specOf_code]; rfl)
  · first | rfl | (simp (disch := omega) only [preDA, preAB, preD, preA, pre0, preTA, fA, fB, S_hi, S_x, S_y, S_x0, S_00, S_x10, S_h11, specOf_code]; exact h)

theorem rt_ttbp (d a : Spec) : Rt (.ttbp d a) := by
  have hd := specCode_lt d
  have ha := specCode_lt a
  refine rt_S (op := 248) (fn := 2) (x := specCode d) (y := specCode a) rfl (by decide) (by omega) (by omega) (by decide) (fun cls h => by first | rfl | exact h) (preDA · (.ttbp)) (fun _ _ _ _ _ => rfl) ?_ (fun _ => ?_) (fun _ => rfl) (fun h => ?_)
  · first | rfl | simp (disch := omega) only [preDA, preAB, preD, preA, pre0, preTA, fA, fB, S_hi, S_x, S_y, S_x0, S_00, S_x10, S_h11, specOf_code]
  · first | rfl | (simp (disch := omega) only [preDA, preAB, preD, preA, pre0, preTA, fA, fB, S_hi, S_x, S_y, S_x0, S_00, S_x10, S_h11, specOf_code]; done) | (simp (disch := omega) only [preDA, preAB, preD, preA, pre0, preTA, fA, fB, S_hi, S_x, S_y, S_x0, S_00, S_x10, S_h11, specOf_code]; rfl)
  · first | rfl | (simp (disch := omega) only [preDA, preAB, preD, preA, pre0, preTA, fA, fB, S_hi, S_x, S_y, S_x0, S_00, S_x10, S_h11, specOf_code]; exact h)

theorem rt_tlbi (a : Spec) : Rt (.tlbi a) := by
  have ha := specCode_lt a
  refine rt_S (op := 248) (fn := 3) (x := 0) (y := specCode a) rfl (by decide) (by omega) (by omega) (by decide) (fun cls h => by first | rfl | exact h) (preA · (.tlbi)) (fun _ _ _ _ _ => rfl) ?_ (fun _ => ?_) (fun _ => rfl) (fun h => ?_)
  · first | rfl | simp (disch := omega) only [preDA, preAB, preD, preA, pre0, preTA, fA, fB, S_hi, S_x, S_y, S_x0, S_00, S_x10, S_h11, specOf_code]
  · first | rfl | (simp (disch := omega) only [preDA, preAB, preD, preA, pre0, preTA, fA, fB, S_hi, S_x, S_y, S_x0, S_00, S_x10, S_h11, specOf_code]; done) | (simp (disch := omega) only [preDA, preAB, preD, preA, pre0, preTA, fA, fB, S_hi, S_x, S_y, S_x0, S_00, S_x10, S_h11, specOf_code]; rfl)
  · first | rfl | (simp (disch := omega) only [preDA, preAB, preD, preA, pre0, preTA, fA, fB, S_hi, S_x, S_y, S_x0, S_00, S_x10, S_h11, specOf_code]; exact h)

theorem rt_fbpop (d a : Spec) : Rt (.fbpop d a) := by
  have hd := specCode_lt d
  have ha := specCode_lt a
  refine rt_S (op := 248) (fn := 4) (x := specCode d) (y := specCode a) rfl (by decide) (by omega) (by omega) (by decide) (fun cls h => by first | rfl | exact h) (preDA · (.fbpop)) (fun _ _ _ _ _ => rfl) ?_ (fun _ => ?_) (fun _ => rfl) (fun h => ?_)
  · first | rfl | simp (disch := omega) only [preDA, preAB, preD, preA, pre0, preTA, fA, fB, S_hi, S_x, S_y, S_x0, S_00, S_x10, S_h11, specOf_code]
  · first | rfl | (simp (disch := omega) only [preDA, preAB, preD, preA, pre0, preTA, fA, fB, S_hi, S_x, S_y, S_x0, S_00, S_x10, S_h11, specOf_code]; done) | (simp (disch := omega) only [preDA, preAB, preD, preA, pre0, preTA, fA, fB, S_hi, S_x, S_y, S_x0, S_00, S_x10, S_h11, specOf_code]; rfl)
  · first | rfl | (simp (disch := omega) only [preDA, preAB, preD, preA, pre0, preTA, fA, fB, S_hi, S_x, S_y, S_x0, S_00, S_x10, S_h11, specOf_code]; exact h)

theorem rt_replay (d a : Spec) : Rt (.replay d a) := by
  have hd := specCode_lt d
  have ha := specCode_lt a
  refine rt_S (op := 248) (fn := 5) (x := specCode d) (y := specCode a) rfl (by decide) (by omega) (by omega) (by decide) (fun cls h => by first | rfl | exact h) (preDA · (.replay)) (fun _ _ _ _ _ => rfl) ?_ (fun _ => ?_) (fun _ => rfl) (fun h => ?_)
  · first | rfl | simp (disch := omega) only [preDA, preAB, preD, preA, pre0, preTA, fA, fB, S_hi, S_x, S_y, S_x0, S_00, S_x10, S_h11, specOf_code]
  · first | rfl | (simp (disch := omega) only [preDA, preAB, preD, preA, pre0, preTA, fA, fB, S_hi, S_x, S_y, S_x0, S_00, S_x10, S_h11, specOf_code]; done) | (simp (disch := omega) only [preDA, preAB, preD, preA, pre0, preTA, fA, fB, S_hi, S_x, S_y, S_x0, S_00, S_x10, S_h11, specOf_code]; rfl)
  · first | rfl | (simp (disch := omega) only [preDA, preAB, preD, preA, pre0, preTA, fA, fB, S_hi, S_x, S_y, S_x0, S_00, S_x10, S_h11, specOf_code]; exact h)

theorem rt_icw (d a : Spec) : Rt (.icw d a) := by
  have hd := specCode_lt d
  have ha := specCode_lt a
  refine rt_S (op := 249) (fn := 2) (x := specCode d) (y := specCode a) rfl (by decide) (by omega) (by omega) (by decide) (fun cls h => by first | rfl | exact h) (preAB · (.icw)) (fun _ _ _ _ _ => rfl) ?_ (fun _ => ?_) (fun _ => rfl) (fun h => ?_)
  · first | rfl | simp (disch := omega) only [preDA, preAB, preD, preA, pre0, preTA, fA, fB, S_hi, S_x, S_y, S_x0, S_00, S_x10, S_h11, specOf_code]
  · first | rfl | (simp (disch := omega) only [preDA, preAB, preD, preA, pre0, preTA, fA, fB, S_hi, S_x, S_y, S_x0, S_00, S_x10, S_h11, specOf_code]; done) | (simp (disch := omega) only [preDA, preAB, preD, preA, pre0, preTA, fA, fB, S_hi, S_x, S_y, S_x0, S_00, S_x10, S_h11, specOf_code]; rfl)
  · first | rfl | (simp (disch := omega) only [preDA, preAB, preD, preA, pre0, preTA, fA, fB, S_hi, S_x, S_y, S_x0, S_00, S_x10, S_h11, specOf_code]; exact h)

theorem rt_ici (a : Spec) : Rt (.ici a) := by
  have ha := specCode_lt a
  refine rt_S (op := 249) (fn := 3) (x := 0) (y := specCode a) rfl (by decide) (by omega) (by omega) (by decide) (fun cls h => by first | rfl | exact h) (preA · (.ici)) (fun _ _ _ _ _ => rfl) ?_ (fun _ => ?_) (fun _ => rfl) (fun h => ?_)
  · first | rfl | simp (disch := omega) only [preDA, preAB, preD, preA, pre0, preTA, fA, fB, S_hi, S_x, S_y, S_x0, S_00, S_x10, S_h11, specOf_code]
  · first | rfl | (simp (disch := omega) only [preDA, preAB, preD, preA, pre0, preTA, fA, fB, S_hi, S_x, S_y, S_x0, S_00, S_x10, S_h11, specOf_code]; done) | (simp (disch := omega) only [preDA, preAB, preD, preA, pre0, preTA, fA, fB, S_hi, S_x, S_y, S_x0, S_00, S_x10, S_h11, specOf_code]; rfl)
  · first | rfl | (simp (disch := omega) only [preDA, preAB, preD, preA, pre0, preTA, fA, fB, S_hi, S_x, S_y, S_x0, S_00, S_x10, S_h11, specOf_code]; exact h)

theorem rt_icr (d a : Spec) : Rt (.icr d a) := by
  have hd := specCode_lt d
  have ha := specCode_lt a
  refine rt_S (op := 249) (fn := 4) (x := specCode d) (y := specCode a) rfl (by decide) (by omega) (by omega) (by decide) (fun cls h => by first | rfl | exact h) (preDA · (.icr)) (fun _ _ _ _ _ => rfl) ?_ (fun _ => ?_) (fun _ => rfl) (fun h => ?_)
  · first | rfl | simp (disch := omega) only [preDA, preAB, preD, preA, pre0, preTA, fA, fB, S_hi, S_x, S_y, S_x0, S_00, S_x10, S_h11, specOf_code]
  · first | rfl | (simp (disch := omega) only [preDA, preAB, preD, preA, pre0, preTA, fA, fB, S_hi, S_x, S_y, S_x0, S_00, S_x10, S_h11, specOf_code]; done) | (simp (disch := omega) only [preDA, preAB, preD, preA, pre0, preTA, fA, fB, S_hi, S_x, S_y, S_x0, S_00, S_x10, S_h11, specOf_code]; rfl)
  · first | rfl | (simp (disch := omega) only [preDA, preAB, preD, preA, pre0, preTA, fA, fB, S_hi, S_x, S_y, S_x0, S_00, S_x10, S_h11, specOf_code]; exact h)

theorem rt_sqRd (d a : Spec) : Rt (.sqRd d a) := by
  have hd := specCode_lt d
  have ha := specCode_lt a
  refine rt_S (op := 250) (fn := 0) (x := specCode d) (y := specCode a) rfl (by decide) (by omega) (by omega) (by decide) (fun cls h => by first | rfl | exact h) (preDA · (.sqRd)) (fun _ _ _ _ _ => rfl) ?_ (fun _ => ?_) (fun _ => rfl) (fun h => ?_)
  · first | rfl | simp (disch := omega) only [preDA, preAB, preD, preA, pre0, preTA, fA, fB, S_hi, S_x, S_y, S_x0, S_00, S_x10, S_h11, specOf_code]
  · first | rfl | (simp (disch := omega) only [preDA, preAB, preD, preA, pre0, preTA, fA, fB, S_hi, S_x, S_y, S_x0, S_00, S_x10, S_h11, specOf_code]; done) | (simp (disch := omega) only [preDA, preAB, preD, preA, pre0, preTA, fA, fB, S_hi, S_x, S_y, S_x0, S_00, S_x10, S_h11, specOf_code]; rfl)
  · first | rfl | (simp (disch := omega) only [preDA, preAB, preD, preA, pre0, preTA, fA, fB, S_hi, S_x, S_y, S_x0, S_00, S_x10, S_h11, specOf_code]; exact h)

theorem rt_sqWr (d a : Spec) : Rt (.sqWr d a) := by
  have hd := specCode_lt d
  have ha := specCode_lt a
  refine rt_S (op := 250) (fn := 1) (x := specCode d) (y := specCode a) rfl (by decide) (by omega) (by omega) (by decide) (fun cls h => by first | rfl | exact h) (preDA · (.sqWr)) (fun _ _ _ _ _ => rfl) ?_ (fun _ => ?_) (fun _ => rfl) (fun h => ?_)
  · first | rfl | simp (disch := omega) only [preDA, preAB, preD, preA, pre0, preTA, fA, fB, S_hi, S_x, S_y, S_x0, S_00, S_x10, S_h11, specOf_code]
  · first | rfl | (simp (disch := omega) only [preDA, preAB, preD, preA, pre0, preTA, fA, fB, S_hi, S_x, S_y, S_x0, S_00, S_x10, S_h11, specOf_code]; done) | (simp (disch := omega) only [preDA, preAB, preD, preA, pre0, preTA, fA, fB, S_hi, S_x, S_y, S_x0, S_00, S_x10, S_h11, specOf_code]; rfl)
  · first | rfl | (simp (disch := omega) only [preDA, preAB, preD, preA, pre0, preTA, fA, fB, S_hi, S_x, S_y, S_x0, S_00, S_x10, S_h11, specOf_code]; exact h)

theorem rt_sqBuild (d a : Spec) : Rt (.sqBuild d a) := by
  have hd := specCode_lt d
  have ha := specCode_lt a
  refine rt_S (op := 250) (fn := 2) (x := specCode d) (y := specCode a) rfl (by decide) (by omega) (by omega) (by decide) (fun cls h => by first | rfl | exact h) (preDA · (.sqBuild)) (fun _ _ _ _ _ => rfl) ?_ (fun _ => ?_) (fun _ => rfl) (fun h => ?_)
  · first | rfl | simp (disch := omega) only [preDA, preAB, preD, preA, pre0, preTA, fA, fB, S_hi, S_x, S_y, S_x0, S_00, S_x10, S_h11, specOf_code]
  · first | rfl | (simp (disch := omega) only [preDA, preAB, preD, preA, pre0, preTA, fA, fB, S_hi, S_x, S_y, S_x0, S_00, S_x10, S_h11, specOf_code]; done) | (simp (disch := omega) only [preDA, preAB, preD, preA, pre0, preTA, fA, fB, S_hi, S_x, S_y, S_x0, S_00, S_x10, S_h11, specOf_code]; rfl)
  · first | rfl | (simp (disch := omega) only [preDA, preAB, preD, preA, pre0, preTA, fA, fB, S_hi, S_x, S_y, S_x0, S_00, S_x10, S_h11, specOf_code]; exact h)

theorem rt_ltokWait (d : Spec) : Rt (.ltokWait d) := by
  have hd := specCode_lt d
  refine rt_S (op := 250) (fn := 3) (x := specCode d) (y := 0) rfl (by decide) (by omega) (by omega) (by decide) (fun cls h => by first | rfl | exact h) (preD · (.ltokWait)) (fun _ _ _ _ _ => rfl) ?_ (fun _ => ?_) (fun _ => rfl) (fun h => ?_)
  · first | rfl | simp (disch := omega) only [preDA, preAB, preD, preA, pre0, preTA, fA, fB, S_hi, S_x, S_y, S_x0, S_00, S_x10, S_h11, specOf_code]
  · first | rfl | (simp (disch := omega) only [preDA, preAB, preD, preA, pre0, preTA, fA, fB, S_hi, S_x, S_y, S_x0, S_00, S_x10, S_h11, specOf_code]; done) | (simp (disch := omega) only [preDA, preAB, preD, preA, pre0, preTA, fA, fB, S_hi, S_x, S_y, S_x0, S_00, S_x10, S_h11, specOf_code]; rfl)
  · first | rfl | (simp (disch := omega) only [preDA, preAB, preD, preA, pre0, preTA, fA, fB, S_hi, S_x, S_y, S_x0, S_00, S_x10, S_h11, specOf_code]; exact h)

theorem rt_ltokPass (a : Spec) : Rt (.ltokPass a) := by
  have ha := specCode_lt a
  refine rt_S (op := 250) (fn := 4) (x := 0) (y := specCode a) rfl (by decide) (by omega) (by omega) (by decide) (fun cls h => by first | rfl | exact h) (preA · (.ltokPass)) (fun _ _ _ _ _ => rfl) ?_ (fun _ => ?_) (fun _ => rfl) (fun h => ?_)
  · first | rfl | simp (disch := omega) only [preDA, preAB, preD, preA, pre0, preTA, fA, fB, S_hi, S_x, S_y, S_x0, S_00, S_x10, S_h11, specOf_code]
  · first | rfl | (simp (disch := omega) only [preDA, preAB, preD, preA, pre0, preTA, fA, fB, S_hi, S_x, S_y, S_x0, S_00, S_x10, S_h11, specOf_code]; done) | (simp (disch := omega) only [preDA, preAB, preD, preA, pre0, preTA, fA, fB, S_hi, S_x, S_y, S_x0, S_00, S_x10, S_h11, specOf_code]; rfl)
  · first | rfl | (simp (disch := omega) only [preDA, preAB, preD, preA, pre0, preTA, fA, fB, S_hi, S_x, S_y, S_x0, S_00, S_x10, S_h11, specOf_code]; exact h)

theorem rt_dkRun (d a : Spec) : Rt (.dkRun d a) := by
  have hd := specCode_lt d
  have ha := specCode_lt a
  refine rt_S (op := 250) (fn := 5) (x := specCode d) (y := specCode a) rfl (by decide) (by omega) (by omega) (by decide) (fun cls h => by first | rfl | exact h) (preDA · (.dkRun)) (fun _ _ _ _ _ => rfl) ?_ (fun _ => ?_) (fun _ => rfl) (fun h => ?_)
  · first | rfl | simp (disch := omega) only [preDA, preAB, preD, preA, pre0, preTA, fA, fB, S_hi, S_x, S_y, S_x0, S_00, S_x10, S_h11, specOf_code]
  · first | rfl | (simp (disch := omega) only [preDA, preAB, preD, preA, pre0, preTA, fA, fB, S_hi, S_x, S_y, S_x0, S_00, S_x10, S_h11, specOf_code]; done) | (simp (disch := omega) only [preDA, preAB, preD, preA, pre0, preTA, fA, fB, S_hi, S_x, S_y, S_x0, S_00, S_x10, S_h11, specOf_code]; rfl)
  · first | rfl | (simp (disch := omega) only [preDA, preAB, preD, preA, pre0, preTA, fA, fB, S_hi, S_x, S_y, S_x0, S_00, S_x10, S_h11, specOf_code]; exact h)

theorem rt_dkWait (d a : Spec) : Rt (.dkWait d a) := by
  have hd := specCode_lt d
  have ha := specCode_lt a
  refine rt_S (op := 250) (fn := 6) (x := specCode d) (y := specCode a) rfl (by decide) (by omega) (by omega) (by decide) (fun cls h => by first | rfl | exact h) (preDA · (.dkWait)) (fun _ _ _ _ _ => rfl) ?_ (fun _ => ?_) (fun _ => rfl) (fun h => ?_)
  · first | rfl | simp (disch := omega) only [preDA, preAB, preD, preA, pre0, preTA, fA, fB, S_hi, S_x, S_y, S_x0, S_00, S_x10, S_h11, specOf_code]
  · first | rfl | (simp (disch := omega) only [preDA, preAB, preD, preA, pre0, preTA, fA, fB, S_hi, S_x, S_y, S_x0, S_00, S_x10, S_h11, specOf_code]; done) | (simp (disch := omega) only [preDA, preAB, preD, preA, pre0, preTA, fA, fB, S_hi, S_x, S_y, S_x0, S_00, S_x10, S_h11, specOf_code]; rfl)
  · first | rfl | (simp (disch := omega) only [preDA, preAB, preD, preA, pre0, preTA, fA, fB, S_hi, S_x, S_y, S_x0, S_00, S_x10, S_h11, specOf_code]; exact h)

theorem rt_lea (d a b : Spec) : Rt (.lea d a b) := by
  have hd := specCode_lt d; have ha := specCode_lt a; have hb := specCode_lt b
  refine rt_W (op := 0x19) (es := []) rfl (by simp only [encM]; omega) (by simp only [encM]; omega) (by simp) rfl (fun _ => rfl) (fun _ _ _ => rfl) (fun w => { resv := fType w == 0, val := true, spc := okDst (fD w) && okLea (fA w) && okSrc false (fB w), ins := .lea (fD w) (fA w) (fB w) }) (fun _ _ => rfl) ?_ (fun _ => ?_) (fun _ => rfl) (fun h => ?_)
  · simp (disch := omega) only [fD, fA, fB, M_d, M_a, M_b, specOf_code]
  · simp (disch := omega) only [fType, M_t]; rfl
  · simp (disch := omega) only [fD, fA, fB, M_d, M_a, M_b, specOf_code]; exact h

theorem rt_pset (p : Fin 8) (a b : Spec) : Rt (.pset p a b) := by
  have ha := specCode_lt a; have hb := specCode_lt b; have hp := p.isLt
  refine rt_W (op := 0x1A) (es := []) rfl (by simp only [encM]; omega) (by simp only [encM]; omega) (by simp) rfl (fun _ => rfl) (fun _ _ _ => rfl) _ (fun _ _ => rfl) ?_ (fun _ => ?_) (fun _ => rfl) (fun h => ?_)
  · simp (disch := omega) only [fD, fA, fB, M_d, M_a, M_b, specOf_code]
    congr 1; exact fin_of _ (by simp only [field, encM]; omega)
  · simp (disch := omega) only [fType, M_t]; rfl
  · have h' : (okSrc false a && okSrc false b) = true := h
    have e1 : field (encM 26 0 (32 + 2 * p.val) (specCode a) (specCode b)) 20 18 = 2 := by simp only [field, encM]; omega
    have e2 : field (encM 26 0 (32 + 2 * p.val) (specCode a) (specCode b)) 14 14 = 0 := by simp only [field, encM]; omega
    simp (disch := omega) only [fD, fA, fB, M_d, M_a, M_b, specOf_code, e1, e2, Bool.and_assoc]; exact h

theorem rt_mset (p : Fin 4) (a b : Spec) : Rt (.mset p a b) := by
  have ha := specCode_lt a; have hb := specCode_lt b; have hp := p.isLt
  refine rt_W (op := 0x1B) (es := []) rfl (by simp only [encM]; omega) (by simp only [encM]; omega) (by simp) rfl (fun _ => rfl) (fun _ _ _ => rfl) _ (fun _ _ => rfl) ?_ (fun _ => ?_) (fun _ => rfl) (fun h => ?_)
  · simp (disch := omega) only [fD, fA, fB, M_d, M_a, M_b, specOf_code]
    congr 1; exact fin_of _ (by simp only [field, encM]; omega)
  · simp (disch := omega) only [fType, M_t]; rfl
  · have e1 : field (encM 27 0 p.val (specCode a) (specCode b)) 20 16 = 0 := by simp only [field, encM]; omega
    simp (disch := omega) only [fD, fA, fB, M_d, M_a, M_b, specOf_code, e1, Bool.and_assoc]; exact h

theorem rt_hbind (p : Fin 4) (a b : Spec) : Rt (.hbind p a b) := by
  have ha := specCode_lt a; have hb := specCode_lt b; have hp := p.isLt
  refine rt_W (op := 0x1C) (es := []) rfl (by simp only [encM]; omega) (by simp only [encM]; omega) (by simp) rfl (fun _ => rfl) (fun _ _ _ => rfl) _ (fun _ _ => rfl) ?_ (fun _ => ?_) (fun _ => rfl) (fun h => ?_)
  · simp (disch := omega) only [fD, fA, fB, M_d, M_a, M_b, specOf_code]
    congr 1; exact fin_of _ (by simp only [field, encM]; omega)
  · simp (disch := omega) only [fType, M_t]; rfl
  · have e1 : field (encM 28 0 (48 + 2 * p.val) (specCode a) (specCode b)) 20 17 = 6 := by simp only [field, encM]; omega
    have e2 : field (encM 28 0 (48 + 2 * p.val) (specCode a) (specCode b)) 14 14 = 0 := by simp only [field, encM]; omega
    simp (disch := omega) only [fD, fA, fB, M_d, M_a, M_b, specOf_code, e1, e2, Bool.and_assoc]; exact h

theorem rt_hadvC (p : Fin 4) (a : Spec) : Rt (.hadvC p a) := by
  have ha := specCode_lt a; have hp := p.isLt
  refine rt_W (op := 0x1D) (es := []) rfl (by simp only [encM]; omega) (by simp only [encM]; omega) (by simp) rfl (fun _ => rfl) (fun _ _ _ => rfl) _ (fun _ _ => rfl) ?_ (fun _ => ?_) (fun _ => rfl) (fun h => ?_)
  · simp (disch := omega) only [fD, fA, fB, M_d, M_a, M_b, specOf_code]
    congr 1; exact fin_of _ (by simp only [field, encM]; omega)
  · simp (disch := omega) only [fType, M_t, M_b]; rfl
  · have e1 : field (encM 29 0 (48 + 2 * p.val) (specCode a) 0) 20 17 = 6 := by simp only [field, encM]; omega
    have e2 : field (encM 29 0 (48 + 2 * p.val) (specCode a) 0) 14 14 = 0 := by simp only [field, encM]; omega
    simp (disch := omega) only [fD, fA, fB, M_d, M_a, M_b, specOf_code, e1, e2, Bool.and_assoc]; exact h

theorem rt_hadvP (p : Fin 4) (a : Spec) : Rt (.hadvP p a) := by
  have ha := specCode_lt a; have hp := p.isLt
  refine rt_W (op := 0x1E) (es := []) rfl (by simp only [encM]; omega) (by simp only [encM]; omega) (by simp) rfl (fun _ => rfl) (fun _ _ _ => rfl) _ (fun _ _ => rfl) ?_ (fun _ => ?_) (fun _ => rfl) (fun h => ?_)
  · simp (disch := omega) only [fD, fA, fB, M_d, M_a, M_b, specOf_code]
    congr 1; exact fin_of _ (by simp only [field, encM]; omega)
  · simp (disch := omega) only [fType, M_t, M_b]; rfl
  · have e1 : field (encM 30 0 (48 + 2 * p.val) (specCode a) 0) 20 17 = 6 := by simp only [field, encM]; omega
    have e2 : field (encM 30 0 (48 + 2 * p.val) (specCode a) 0) 14 14 = 0 := by simp only [field, encM]; omega
    simp (disch := omega) only [fD, fA, fB, M_d, M_a, M_b, specOf_code, e1, e2, Bool.and_assoc]; exact h

theorem rt_hstat (d : Spec) (p : Fin 4) : Rt (.hstat d p) := by
  have ha := specCode_lt d; have hp := p.isLt
  refine rt_W (op := 0x1F) (es := []) rfl (by simp only [encM]; omega) (by simp only [encM]; omega) (by simp) rfl (fun _ => rfl) (fun _ _ _ => rfl) _ (fun _ _ => rfl) ?_ (fun _ => ?_) (fun _ => rfl) (fun h => ?_)
  · simp (disch := omega) only [fD, fA, fB, M_d, M_a, M_b, specOf_code]
    congr 1; exact fin_of _ (by simp only [field, encM]; omega)
  · simp (disch := omega) only [fType, M_t, M_b]; rfl
  · have e1 : field (encM 31 0 (specCode d) (48 + 2 * p.val) 0) 13 10 = 6 := by simp only [field, encM]; omega
    have e2 : field (encM 31 0 (specCode d) (48 + 2 * p.val) 0) 7 7 = 0 := by simp only [field, encM]; omega
    have h' : okDst d = true := h
    simp (disch := omega) only [fD, fA, fB, M_d, M_a, M_b, specOf_code, e1, e2, h']; rfl

theorem rt_ldt (t : IType) (f : Fmt) (rm : RMode) (d a b : Spec) : Rt (.ldt t f rm d a b) := by
  have ht := itypeCode_lt t; have hd := specCode_lt d; have ha := specCode_lt a; have hb := specCode_lt b; have hr := rmodeCode_lt rm
  obtain ⟨⟨hf, e1⟩, e2, e3, e4⟩ := ext_f f rm
  refine rt_W (op := 0x32) (es := [fmtCode f + rmodeCode rm * 256]) rfl (by simp only [encM]; omega) (by simp only [encM]; omega) (by simp; omega) rfl (fun _ => rfl) (fun _ _ _ => rfl) _ (fun _ _ => rfl) ?_ (fun _ => ?_) (fun h => ?_) (fun h => ?_)
  · simp (disch := omega) only [fD, fA, fB, fType, M_t, M_d, M_a, M_b, specOf_code, itypeOf_code, nth, List.getD_cons_zero, e1, e2, fmtOf_code, rmodeOf_code]; rfl
  · simp only [nth, List.getD_cons_zero, e3, e4]; rfl
  · have h' : (baseOnly f && f != .e2m1) = true := h
    simp only [nth, List.getD_cons_zero, e1, e2, rmodeOf_code, Option.isSome_some, Bool.and_true]
    clear e1 e2 e3 e4 hf; revert h'; cases f <;> decide
  · simp (disch := omega) only [fD, fA, fB, M_d, M_a, M_b, specOf_code]; exact h

theorem rt_stt (t : IType) (f : Fmt) (rm : RMode) (d a b : Spec) : Rt (.stt t f rm d a b) := by
  have ht := itypeCode_lt t; have hd := specCode_lt d; have ha := specCode_lt a; have hb := specCode_lt b; have hr := rmodeCode_lt rm
  obtain ⟨⟨hf, e1⟩, e2, e3, e4⟩ := ext_f f rm
  refine rt_W (op := 0x33) (es := [fmtCode f + rmodeCode rm * 256]) rfl (by simp only [encM]; omega) (by simp only [encM]; omega) (by simp; omega) rfl (fun _ => rfl) (fun _ _ _ => rfl) _ (fun _ _ => rfl) ?_ (fun _ => ?_) (fun h => ?_) (fun h => ?_)
  · simp (disch := omega) only [fD, fA, fB, fType, M_t, M_d, M_a, M_b, specOf_code, itypeOf_code, nth, List.getD_cons_zero, e1, e2, fmtOf_code, rmodeOf_code]; rfl
  · simp only [nth, List.getD_cons_zero, e3, e4]; rfl
  · have h' : (baseOnly f && f != .e2m1) = true := h
    simp only [nth, List.getD_cons_zero, e1, e2, rmodeOf_code, Option.isSome_some, Bool.and_true]
    clear e1 e2 e3 e4 hf; revert h'; cases f <;> decide
  · simp (disch := omega) only [fD, fA, fB, M_d, M_a, M_b, specOf_code, Bool.and_assoc]; exact h

theorem rt_vcvt (f g : Fmt) (rm : RMode) (d a : Spec) : Rt (.vcvt f g rm d a) := by
  have hd := specCode_lt d; have ha := specCode_lt a; have hr := rmodeCode_lt rm
  have h1 : fmtCode f < 64 := by cases f <;> decide
  have h2 : fmtCode g < 64 := by cases g <;> decide
  obtain ⟨⟨e0, e1⟩, e2, e3, e4, e5⟩ := ext_g f g rm
  refine rt_W (op := 0x51) (es := [fmtCode f + fmtCode g * 256 + rmodeCode rm * 65536]) rfl (by simp only [encM]; omega) (by simp only [encM]; omega) (by simp; omega) rfl (fun _ => rfl) (fun _ _ _ => rfl) _ (fun _ _ => rfl) ?_ (fun _ => ?_) (fun h => ?_) (fun h => ?_)
  · simp (disch := omega) only [fD, fA, fB, fType, M_t, M_d, M_a, M_b, specOf_code, itypeOf_code, nth, List.getD_cons_zero, e0, e1, e2, fmtOf_code, rmodeOf_code]; rfl
  · simp (disch := omega) only [fType, M_t, M_b, nth, List.getD_cons_zero, e3, e4, e5]; rfl
  · have h' : (baseOnly f && baseOnly g) = true := h
    simp only [nth, List.getD_cons_zero, e0, e1, e2, rmodeOf_code, Option.isSome_some, Bool.and_true]; exact h'
  · simp (disch := omega) only [fD, fA, fB, M_d, M_a, M_b, specOf_code, nth, List.getD_cons_zero, e1, fmtOf_code]; exact h

theorem rt_movi (t : IType) (d : Spec) (n : BitVec 14) : Rt (.movi t d n) := by
  have ht := itypeCode_lt t; have hd := specCode_lt d; have hn := n.isLt
  have e1 : field (0x80 * 2 ^ 24 + itypeCode t * 2 ^ 21 + specCode d * 2 ^ 14 + n.toNat) 23 21 = itypeCode t := by simp only [field]; omega
  have e2 : field (0x80 * 2 ^ 24 + itypeCode t * 2 ^ 21 + specCode d * 2 ^ 14 + n.toNat) 20 14 = specCode d := by simp only [field]; omega
  refine rt_W (op := 0x80) (es := []) rfl (by omega) (by omega) (by simp) rfl (fun _ => rfl) (fun _ _ _ => rfl) _ (fun _ _ => rfl) ?_ (fun _ => rfl) (fun h => rfl) (fun h => ?_)
  · simp only [fD, fType, e1, e2, specOf_code, itypeOf_code]; congr 1; exact bv_of _ (by simp only [field]; omega)
  · simp only [fD, e2, specOf_code]; exact h

theorem rt_addi (t : IType) (d : Spec) (n : BitVec 14) : Rt (.addi t d n) := by
  have ht := itypeCode_lt t; have hd := specCode_lt d; have hn := n.isLt
  have e1 : field (0x81 * 2 ^ 24 + itypeCode t * 2 ^ 21 + specCode d * 2 ^ 14 + n.toNat) 23 21 = itypeCode t := by simp only [field]; omega
  have e2 : field (0x81 * 2 ^ 24 + itypeCode t * 2 ^ 21 + specCode d * 2 ^ 14 + n.toNat) 20 14 = specCode d := by simp only [field]; omega
  refine rt_W (op := 0x81) (es := []) rfl (by omega) (by omega) (by simp) rfl (fun _ => rfl) (fun _ _ _ => rfl) _ (fun _ _ => rfl) ?_ (fun _ => rfl) (fun h => rfl) (fun h => ?_)
  · simp only [fD, fType, e1, e2, specOf_code, itypeOf_code]; congr 1; exact bv_of _ (by simp only [field]; omega)
  · simp only [fD, e2, specOf_code]; exact h

theorem rt_li (t : IType) (d : Spec) (n : BitVec 32) : Rt (.li t d n) := by
  have ht := itypeCode_lt t; have hd := specCode_lt d; have hn := n.isLt
  have e1 : field (0x82 * 2 ^ 24 + itypeCode t * 2 ^ 21 + specCode d * 2 ^ 14) 23 21 = itypeCode t := by simp only [field]; omega
  have e2 : field (0x82 * 2 ^ 24 + itypeCode t * 2 ^ 21 + specCode d * 2 ^ 14) 20 14 = specCode d := by simp only [field]; omega
  have e3 : field (0x82 * 2 ^ 24 + itypeCode t * 2 ^ 21 + specCode d * 2 ^ 14) 13 0 = 0 := by simp only [field]; omega
  refine rt_W (op := 0x82) (es := [n.toNat]) rfl (by omega) (by omega) (by simp; omega) rfl (fun _ => rfl) (fun _ _ _ => rfl) _ (fun _ _ => rfl) ?_ (fun _ => ?_) (fun h => rfl) (fun h => ?_)
  · simp only [fD, fType, e1, e2, specOf_code, itypeOf_code]; congr 1; exact bv_of _ rfl
  · simp only [e3]; rfl
  · simp only [fD, e2, specOf_code]; exact h

-- F

theorem rt_fst (w : FWait) (f : IType) (o : Order) (d a : Spec) (v : Bool) (s : Scope) : Rt (.fst w f o d a v s) := by
  have hsc := scopeCode_lt s
  have hsub : 4 * bnat v + scopeCode s < 8 := by cases v <;> simp [bnat] <;> omega
  have hq : ((4 * bnat v + scopeCode s) / 4 == 1) = v := by cases v <;> simp [bnat] <;> omega
  have hq2 : (4 * bnat v + scopeCode s) % 4 = scopeCode s := by omega
  obtain ⟨h1, h2, h3, h4, h5, h6, h7, h8, h9, h10, -, -⟩ := F_f (op := 0xA0) (by decide) (fwaitCode_lt w) (ffmtCode_lt f) (orderCode_lt o) (specCode_lt d) (specCode_lt a) hsub
  refine rt_W (op := 0xA0) (es := []) rfl h1 h2 (by simp) rfl (fun _ => rfl) (fun _ _ _ => rfl) _ (fun _ _ => rfl) ?_ (fun _ => rfl) (fun h => ?_) (fun h => ?_)
  all_goals erw [h3, h4, h5, h6, h7]
  all_goals erw [h9]
  all_goals simp only [hq]
  · erw [h10]; simp only [hq2, fwaitOf_code, ffmtOf_code, orderOf_code, specOf_code, scopeOf_code]
  · simp only [ffmtOf_code, orderOf_code]; exact h
  · simp only [specOf_code]; exact h

theorem rt_fld (w : FWait) (f : IType) (o : Order) (d a : Spec) (v : Bool) (s : Scope) : Rt (.fld w f o d a v s) := by
  have hsc := scopeCode_lt s
  have hsub : 4 * bnat v + scopeCode s < 8 := by cases v <;> simp [bnat] <;> omega
  have hq : ((4 * bnat v + scopeCode s) / 4 == 1) = v := by cases v <;> simp [bnat] <;> omega
  have hq2 : (4 * bnat v + scopeCode s) % 4 = scopeCode s := by omega
  obtain ⟨h1, h2, h3, h4, h5, h6, h7, h8, h9, h10, -, -⟩ := F_f (op := 0xA1) (by decide) (fwaitCode_lt w) (ffmtCode_lt f) (orderCode_lt o) (specCode_lt d) (specCode_lt a) hsub
  refine rt_W (op := 0xA1) (es := []) rfl h1 h2 (by simp) rfl (fun _ => rfl) (fun _ _ _ => rfl) _ (fun _ _ => rfl) ?_ (fun _ => rfl) (fun h => ?_) (fun h => ?_)
  all_goals erw [h3, h4, h5, h6, h7]
  all_goals erw [h9]
  all_goals simp only [hq]
  · erw [h10]; simp only [hq2, fwaitOf_code, ffmtOf_code, orderOf_code, specOf_code, scopeOf_code]
  · simp only [ffmtOf_code, orderOf_code]; exact h
  · simp only [specOf_code]; exact h

theorem rt_amo (c : Scope) (w : FWait) (f : IType) (o : Order) (d a : Spec) (p : AmoOp) : Rt (.amo c w f o d a p) := by
  cases c
  · obtain ⟨h1, h2, h3, h4, h5, h6, h7, h8, h9, h10, -, -⟩ := F_f (op := 164) (by decide) (fwaitCode_lt w) (ffmtCode_lt f) (orderCode_lt o) (specCode_lt d) (specCode_lt a) (amoOpCode_lt p)
    refine rt_W (op := 164) (es := []) rfl h1 h2 (by simp) rfl (fun _ => rfl) (fun _ _ _ => rfl) _ (fun _ _ => rfl) ?_ (fun _ => rfl) (fun h => ?_) (fun h => ?_)
    · erw [h3, h4, h5, h6, h7, h8]; simp only [fwaitOf_code, ffmtOf_code, orderOf_code, specOf_code, amoOpOf_code]; rfl
    · erw [h4]; rw [ffmtOf_code]; exact h
    · erw [h6, h7, h8]; simp only [specOf_code, amoOpOf_code]; exact h
  · obtain ⟨h1, h2, h3, h4, h5, h6, h7, h8, h9, h10, -, -⟩ := F_f (op := 165) (by decide) (fwaitCode_lt w) (ffmtCode_lt f) (orderCode_lt o) (specCode_lt d) (specCode_lt a) (amoOpCode_lt p)
    refine rt_W (op := 165) (es := []) rfl h1 h2 (by simp) rfl (fun _ => rfl) (fun _ _ _ => rfl) _ (fun _ _ => rfl) ?_ (fun _ => rfl) (fun h => ?_) (fun h => ?_)
    · erw [h3, h4, h5, h6, h7, h8]; simp only [fwaitOf_code, ffmtOf_code, orderOf_code, specOf_code, amoOpOf_code]; rfl
    · erw [h4]; rw [ffmtOf_code]; exact h
    · erw [h6, h7, h8]; simp only [specOf_code, amoOpOf_code]; exact h
  · obtain ⟨h1, h2, h3, h4, h5, h6, h7, h8, h9, h10, -, -⟩ := F_f (op := 166) (by decide) (fwaitCode_lt w) (ffmtCode_lt f) (orderCode_lt o) (specCode_lt d) (specCode_lt a) (amoOpCode_lt p)
    refine rt_W (op := 166) (es := []) rfl h1 h2 (by simp) rfl (fun _ => rfl) (fun _ _ _ => rfl) _ (fun _ _ => rfl) ?_ (fun _ => rfl) (fun h => ?_) (fun h => ?_)
    · erw [h3, h4, h5, h6, h7, h8]; simp only [fwaitOf_code, ffmtOf_code, orderOf_code, specOf_code, amoOpOf_code]; rfl
    · erw [h4]; rw [ffmtOf_code]; exact h
    · erw [h6, h7, h8]; simp only [specOf_code, amoOpOf_code]; exact h
  · obtain ⟨h1, h2, h3, h4, h5, h6, h7, h8, h9, h10, -, -⟩ := F_f (op := 167) (by decide) (fwaitCode_lt w) (ffmtCode_lt f) (orderCode_lt o) (specCode_lt d) (specCode_lt a) (amoOpCode_lt p)
    refine rt_W (op := 167) (es := []) rfl h1 h2 (by simp) rfl (fun _ => rfl) (fun _ _ _ => rfl) _ (fun _ _ => rfl) ?_ (fun _ => rfl) (fun h => ?_) (fun h => ?_)
    · erw [h3, h4, h5, h6, h7, h8]; simp only [fwaitOf_code, ffmtOf_code, orderOf_code, specOf_code, amoOpOf_code]; rfl
    · erw [h4]; rw [ffmtOf_code]; exact h
    · erw [h6, h7, h8]; simp only [specOf_code, amoOpOf_code]; exact h

theorem rt_send (w : FWait) (o : Order) (d a : Spec) : Rt (.send w o d a) := by
  obtain ⟨h1, h2, h3, h4, h5, h6, h7, h8, h9, h10, -, -⟩ := F_f (op := 168) (f := 0) (sub := 0) (by decide) (fwaitCode_lt w) (by decide) (orderCode_lt o) (specCode_lt d) (specCode_lt a) (by decide)
  refine rt_W (op := 168) (es := []) rfl h1 h2 (by simp) rfl (fun _ => rfl) (fun _ _ _ => rfl) _ (fun _ _ => rfl) ?_ (fun _ => ?_) (fun h => ?_) (fun h => ?_)
  · erw [h3, h5, h6, h7]; simp only [fwaitOf_code, orderOf_code, specOf_code]
  · erw [h4, h8]; rfl
  · erw [h5]; rw [orderOf_code]; exact h
  · erw [h6, h7]; simp only [specOf_code]; exact h

theorem rt_sendm (w : FWait) (o : Order) (d a : Spec) : Rt (.sendm w o d a) := by
  obtain ⟨h1, h2, h3, h4, h5, h6, h7, h8, h9, h10, -, -⟩ := F_f (op := 169) (f := 0) (sub := 0) (by decide) (fwaitCode_lt w) (by decide) (orderCode_lt o) (specCode_lt d) (specCode_lt a) (by decide)
  refine rt_W (op := 169) (es := []) rfl h1 h2 (by simp) rfl (fun _ => rfl) (fun _ _ _ => rfl) _ (fun _ _ => rfl) ?_ (fun _ => ?_) (fun h => ?_) (fun h => ?_)
  · erw [h3, h5, h6, h7]; simp only [fwaitOf_code, orderOf_code, specOf_code]
  · erw [h4, h8]; rfl
  · erw [h5]; rw [orderOf_code]; exact h
  · erw [h6, h7]; simp only [specOf_code]; exact h

theorem rt_enq (w : FWait) (o : Order) (d a : Spec) (k : Bool) : Rt (.enq w o d a k) := by
  have hk : bnat k < 8 := by cases k <;> decide
  obtain ⟨h1, h2, h3, h4, h5, h6, h7, h8, h9, h10, h11, h12⟩ := F_f (op := 0xAA) (f := 0) (by decide) (fwaitCode_lt w) (by decide) (orderCode_lt o) (specCode_lt d) (specCode_lt a) hk
  refine rt_W (op := 0xAA) (es := []) rfl h1 h2 (by simp) rfl (fun _ => rfl) (fun _ _ _ => rfl) _ (fun _ _ => rfl) ?_ (fun _ => ?_) (fun h => ?_) (fun h => ?_)
  · erw [h3, h5, h6, h7, h12]; simp only [fwaitOf_code, orderOf_code, specOf_code]; cases k <;> rfl
  · erw [h4, h11]; cases k <;> rfl
  · erw [h5]; rw [orderOf_code]; exact h
  · erw [h6, h7]; simp only [specOf_code]; exact h

theorem rt_fence (w : FWait) (s : Scope) (o : Order) : Rt (.fence w s o) := by
  have a1 := fwaitCode_lt w; have a2 := scopeCode_lt s; have a3 := orderCode_lt o
  have e0 : field (0xA2 * 2 ^ 24 + fwaitCode w * 2 ^ 22 + scopeCode s * 2 ^ 19 + orderCode o * 2 ^ 17) 23 22 = fwaitCode w := by simp only [field]; omega
  have e1 : field (0xA2 * 2 ^ 24 + fwaitCode w * 2 ^ 22 + scopeCode s * 2 ^ 19 + orderCode o * 2 ^ 17) 20 19 = scopeCode s := by simp only [field]; omega
  have e2 : field (0xA2 * 2 ^ 24 + fwaitCode w * 2 ^ 22 + scopeCode s * 2 ^ 19 + orderCode o * 2 ^ 17) 18 17 = orderCode o := by simp only [field]; omega
  have e3 : field (0xA2 * 2 ^ 24 + fwaitCode w * 2 ^ 22 + scopeCode s * 2 ^ 19 + orderCode o * 2 ^ 17) 21 21 = 0 := by simp only [field]; omega
  have e4 : field (0xA2 * 2 ^ 24 + fwaitCode w * 2 ^ 22 + scopeCode s * 2 ^ 19 + orderCode o * 2 ^ 17) 16 0 = 0 := by simp only [field]; omega
  refine rt_W (op := 0xA2) (es := []) rfl (by omega) (by omega) (by simp) rfl (fun _ => rfl) (fun _ _ _ => rfl) _ (fun _ _ => rfl) ?_ (fun _ => ?_) (fun h => rfl) (fun h => rfl)
  · simp only [e0, e1, e2, fwaitOf_code, scopeOf_code, orderOf_code]
  · simp only [e3, e4]; rfl

-- X

theorem rt_kctx  (r : Shape) : Rt (.kctx  r) := by

  have e0 : field (0xC0 * 2 ^ 24) 23 0 = 0 := by decide
  obtain ⟨w0, w1, w2, w3, hs, hlt, hr⟩ := shape_rt r
  have he : encode (.kctx  r) = (0xC0 * 2 ^ 24) :: [w0, w1, w2, w3] := by rw [← hs]; rfl
  refine rt_W (op := 192) (es := [w0, w1, w2, w3]) he (by omega) (by omega) (by rw [← hs]; exact hlt) rfl (fun _ => rfl) (fun _ _ h => h) _ (fun _ _ => rfl) ?_ (fun h => ?_) (fun _ => rfl) (fun _ => rfl)
  · simp only [nth, List.getD_cons_zero, List.getD_cons_succ, fB, e0, hr, specOf_code]
  · have h' := h
    simp only [instrReserved, Bool.and_eq_true] at h'
    simp only [nth, List.getD_cons_zero, List.getD_cons_succ, e0, hr]
    simp [h']

theorem rt_kring (q : Fin 8) (r : Shape) : Rt (.kring q r) := by
  have hq := q.isLt
  have e0 : field (193 * 2 ^ 24 + q.val * 2 ^ 21) 23 21 = q.val := by simp only [field]; omega
  have e1 : field (193 * 2 ^ 24 + q.val * 2 ^ 21) 20 0 = 0 := by simp only [field]; omega
  obtain ⟨w0, w1, w2, w3, hs, hlt, hr⟩ := shape_rt r
  have he : encode (.kring q r) = (193 * 2 ^ 24 + q.val * 2 ^ 21) :: [w0, w1, w2, w3] := by rw [← hs]; rfl
  refine rt_W (op := 193) (es := [w0, w1, w2, w3]) he (by omega) (by omega) (by rw [← hs]; exact hlt) rfl (fun _ => rfl) (fun _ _ h => h) _ (fun _ _ => rfl) ?_ (fun h => ?_) (fun _ => rfl) (fun _ => rfl)
  · simp only [nth, List.getD_cons_zero, List.getD_cons_succ, fB, e0, e1, hr, specOf_code]
    congr 1; exact fin_of _ rfl
  · have h' := h
    simp only [instrReserved, Bool.and_eq_true] at h'
    simp only [nth, List.getD_cons_zero, List.getD_cons_succ, e0, e1, hr]
    simp [h']

theorem rt_kslip (q : Fin 8) (r : Shape) : Rt (.kslip q r) := by
  have hq := q.isLt
  have e0 : field (194 * 2 ^ 24 + q.val * 2 ^ 21) 23 21 = q.val := by simp only [field]; omega
  have e1 : field (194 * 2 ^ 24 + q.val * 2 ^ 21) 20 0 = 0 := by simp only [field]; omega
  obtain ⟨w0, w1, w2, w3, hs, hlt, hr⟩ := shape_rt r
  have he : encode (.kslip q r) = (194 * 2 ^ 24 + q.val * 2 ^ 21) :: [w0, w1, w2, w3] := by rw [← hs]; rfl
  refine rt_W (op := 194) (es := [w0, w1, w2, w3]) he (by omega) (by omega) (by rw [← hs]; exact hlt) rfl (fun _ => rfl) (fun _ _ h => h) _ (fun _ _ => rfl) ?_ (fun h => ?_) (fun _ => rfl) (fun _ => rfl)
  · simp only [nth, List.getD_cons_zero, List.getD_cons_succ, fB, e0, e1, hr, specOf_code]
    congr 1; exact fin_of _ rfl
  · have h' := h
    simp only [instrReserved, Bool.and_eq_true] at h'
    simp only [nth, List.getD_cons_zero, List.getD_cons_succ, e0, e1, hr]
    simp [h']

theorem rt_kmm (q : Fin 8) (tl : Fin 16) (m : BitVec 2) (s : Spec) (r : Shape) : Rt (.kmm q tl m s r) := by
  have hq := q.isLt
  have htl := tl.isLt
  have hm := m.isLt
  have hsp := specCode_lt s
  have e0 : field (195 * 2 ^ 24 + q.val * 2 ^ 21 + tl.val * 2 ^ 17 + m.toNat * 2 ^ 7 + specCode s) 23 21 = q.val := by simp only [field]; omega
  have e1 : field (195 * 2 ^ 24 + q.val * 2 ^ 21 + tl.val * 2 ^ 17 + m.toNat * 2 ^ 7 + specCode s) 20 17 = tl.val := by simp only [field]; omega
  have e2 : field (195 * 2 ^ 24 + q.val * 2 ^ 21 + tl.val * 2 ^ 17 + m.toNat * 2 ^ 7 + specCode s) 8 7 = m.toNat := by simp only [field]; omega
  have e3 : field (195 * 2 ^ 24 + q.val * 2 ^ 21 + tl.val * 2 ^ 17 + m.toNat * 2 ^ 7 + specCode s) 6 0 = specCode s := by simp only [field]; omega
  have e4 : field (195 * 2 ^ 24 + q.val * 2 ^ 21 + tl.val * 2 ^ 17 + m.toNat * 2 ^ 7 + specCode s) 16 9 = 0 := by simp only [field]; omega
  obtain ⟨w0, w1, w2, w3, hs, hlt, hr⟩ := shape_rt r
  have he : encode (.kmm q tl m s r) = (195 * 2 ^ 24 + q.val * 2 ^ 21 + tl.val * 2 ^ 17 + m.toNat * 2 ^ 7 + specCode s) :: [w0, w1, w2, w3] := by rw [← hs]; rfl
  refine rt_W (op := 195) (es := [w0, w1, w2, w3]) he (by omega) (by omega) (by rw [← hs]; exact hlt) rfl (fun _ => rfl) (fun _ _ h => h) _ (fun _ _ => rfl) ?_ (fun h => ?_) (fun _ => rfl) (fun _ => rfl)
  · simp only [nth, List.getD_cons_zero, List.getD_cons_succ, fB, e0, e1, e2, e3, e4, hr, specOf_code]
    rw [fin_of q rfl, fin_of tl rfl, bv_of m rfl]
  · have h' := h
    simp only [instrReserved, Bool.and_eq_true] at h'
    simp only [nth, List.getD_cons_zero, List.getD_cons_succ, e0, e1, e2, e3, e4, hr]
    simp [h']

theorem rt_kmmG (q : Fin 8) (tl : Fin 16) (m : BitVec 2) (s : Spec) (r : Shape) : Rt (.kmmG q tl m s r) := by
  have hq := q.isLt
  have htl := tl.isLt
  have hm := m.isLt
  have hsp := specCode_lt s
  have e0 : field (196 * 2 ^ 24 + q.val * 2 ^ 21 + tl.val * 2 ^ 17 + m.toNat * 2 ^ 7 + specCode s) 23 21 = q.val := by simp only [field]; omega
  have e1 : field (196 * 2 ^ 24 + q.val * 2 ^ 21 + tl.val * 2 ^ 17 + m.toNat * 2 ^ 7 + specCode s) 20 17 = tl.val := by simp only [field]; omega
  have e2 : field (196 * 2 ^ 24 + q.val * 2 ^ 21 + tl.val * 2 ^ 17 + m.toNat * 2 ^ 7 + specCode s) 8 7 = m.toNat := by simp only [field]; omega
  have e3 : field (196 * 2 ^ 24 + q.val * 2 ^ 21 + tl.val * 2 ^ 17 + m.toNat * 2 ^ 7 + specCode s) 6 0 = specCode s := by simp only [field]; omega
  have e4 : field (196 * 2 ^ 24 + q.val * 2 ^ 21 + tl.val * 2 ^ 17 + m.toNat * 2 ^ 7 + specCode s) 16 9 = 0 := by simp only [field]; omega
  obtain ⟨w0, w1, w2, w3, hs, hlt, hr⟩ := shape_rt r
  have he : encode (.kmmG q tl m s r) = (196 * 2 ^ 24 + q.val * 2 ^ 21 + tl.val * 2 ^ 17 + m.toNat * 2 ^ 7 + specCode s) :: [w0, w1, w2, w3] := by rw [← hs]; rfl
  refine rt_W (op := 196) (es := [w0, w1, w2, w3]) he (by omega) (by omega) (by rw [← hs]; exact hlt) rfl (fun _ => rfl) (fun _ _ h => h) _ (fun _ _ => rfl) ?_ (fun h => ?_) (fun _ => rfl) (fun _ => rfl)
  · simp only [nth, List.getD_cons_zero, List.getD_cons_succ, fB, e0, e1, e2, e3, e4, hr, specOf_code]
    rw [fin_of q rfl, fin_of tl rfl, bv_of m rfl]
  · have h' := h
    simp only [instrReserved, Bool.and_eq_true] at h'
    simp only [nth, List.getD_cons_zero, List.getD_cons_succ, e0, e1, e2, e3, e4, hr]
    simp [h']

theorem rt_kst (rm : BitVec 3) (s : Spec) (r : Shape) : Rt (.kst rm s r) := by
  have hm := rm.isLt
  have hsp := specCode_lt s
  have e0 : field (0xC5 * 2 ^ 24 + rm.toNat * 2 ^ 7 + specCode s) 9 7 = rm.toNat := by simp only [field]; omega
  have e1 : field (0xC5 * 2 ^ 24 + rm.toNat * 2 ^ 7 + specCode s) 6 0 = specCode s := by simp only [field]; omega
  have e2 : field (0xC5 * 2 ^ 24 + rm.toNat * 2 ^ 7 + specCode s) 23 10 = 0 := by simp only [field]; omega
  obtain ⟨w0, w1, w2, w3, hs, hlt, hr⟩ := shape_rt r
  have he : encode (.kst rm s r) = (0xC5 * 2 ^ 24 + rm.toNat * 2 ^ 7 + specCode s) :: [w0, w1, w2, w3] := by rw [← hs]; rfl
  refine rt_W (op := 197) (es := [w0, w1, w2, w3]) he (by omega) (by omega) (by rw [← hs]; exact hlt) rfl (fun _ => rfl) (fun _ _ h => h) _ (fun _ _ => rfl) ?_ (fun h => ?_) (fun _ => rfl) (fun _ => rfl)
  · simp only [nth, List.getD_cons_zero, List.getD_cons_succ, fB, e0, e1, e2, hr, specOf_code]
    rw [bv_of rm rfl]
  · have h' := h
    simp only [instrReserved, Bool.and_eq_true] at h'
    simp only [nth, List.getD_cons_zero, List.getD_cons_succ, e0, e1, e2, hr]
    simp [h']

theorem rt_kclr  (r : Shape) : Rt (.kclr  r) := by

  have e0 : field (0xC6 * 2 ^ 24) 23 0 = 0 := by decide
  obtain ⟨w0, w1, w2, w3, hs, hlt, hr⟩ := shape_rt r
  have he : encode (.kclr  r) = (0xC6 * 2 ^ 24) :: [w0, w1, w2, w3] := by rw [← hs]; rfl
  refine rt_W (op := 198) (es := [w0, w1, w2, w3]) he (by omega) (by omega) (by rw [← hs]; exact hlt) rfl (fun _ => rfl) (fun _ _ h => h) _ (fun _ _ => rfl) ?_ (fun h => ?_) (fun _ => rfl) (fun _ => rfl)
  · simp only [nth, List.getD_cons_zero, List.getD_cons_succ, fB, e0, hr, specOf_code]
  · have h' := h
    simp only [instrReserved, Bool.and_eq_true] at h'
    simp only [nth, List.getD_cons_zero, List.getD_cons_succ, e0, hr]
    simp [h']

theorem rt_cpy (q : Fin 8) (tl : Fin 16) (k : BitVec 3) (o : Bool) (d : Spec) (r : Shape) : Rt (.cpy q tl k o d r) := by
  have hq := q.isLt
  have htl := tl.isLt
  have hm := k.isLt
  have hsp := specCode_lt d
  have ho := (by cases o <;> decide : bnat o < 2)
  have hbo := (by cases o <;> decide : (bnat o == 1) = o)
  have e0 : field (0xC8 * 2 ^ 24 + q.val * 2 ^ 21 + tl.val * 2 ^ 17 + k.toNat * 2 ^ 14 + bnat o * 2 ^ 7 + specCode d) 23 21 = q.val := by simp only [field]; omega
  have e1 : field (0xC8 * 2 ^ 24 + q.val * 2 ^ 21 + tl.val * 2 ^ 17 + k.toNat * 2 ^ 14 + bnat o * 2 ^ 7 + specCode d) 20 17 = tl.val := by simp only [field]; omega
  have e2 : field (0xC8 * 2 ^ 24 + q.val * 2 ^ 21 + tl.val * 2 ^ 17 + k.toNat * 2 ^ 14 + bnat o * 2 ^ 7 + specCode d) 16 14 = k.toNat := by simp only [field]; omega
  have e3 : field (0xC8 * 2 ^ 24 + q.val * 2 ^ 21 + tl.val * 2 ^ 17 + k.toNat * 2 ^ 14 + bnat o * 2 ^ 7 + specCode d) 7 7 = bnat o := by simp only [field]; omega
  have e4 : field (0xC8 * 2 ^ 24 + q.val * 2 ^ 21 + tl.val * 2 ^ 17 + k.toNat * 2 ^ 14 + bnat o * 2 ^ 7 + specCode d) 6 0 = specCode d := by simp only [field]; omega
  have e5 : field (0xC8 * 2 ^ 24 + q.val * 2 ^ 21 + tl.val * 2 ^ 17 + k.toNat * 2 ^ 14 + bnat o * 2 ^ 7 + specCode d) 13 8 = 0 := by simp only [field]; omega
  obtain ⟨w0, w1, w2, w3, hs, hlt, hr⟩ := shape_rt r
  have he : encode (.cpy q tl k o d r) = (0xC8 * 2 ^ 24 + q.val * 2 ^ 21 + tl.val * 2 ^ 17 + k.toNat * 2 ^ 14 + bnat o * 2 ^ 7 + specCode d) :: [w0, w1, w2, w3] := by rw [← hs]; rfl
  refine rt_W (op := 200) (es := [w0, w1, w2, w3]) he (by omega) (by omega) (by rw [← hs]; exact hlt) rfl (fun _ => rfl) (fun _ _ h => h) _ (fun _ _ => rfl) ?_ (fun h => ?_) (fun _ => rfl) (fun _ => rfl)
  · simp only [nth, List.getD_cons_zero, List.getD_cons_succ, fB, e0, e1, e2, e3, e4, e5, hr, specOf_code]
    rw [fin_of q rfl, fin_of tl rfl, bv_of k rfl, hbo]
  · have h' := h
    simp only [instrReserved, Bool.and_eq_true] at h'
    simp only [nth, List.getD_cons_zero, List.getD_cons_succ, e0, e1, e2, e3, e4, e5, hr]
    rw [fin_of q rfl, fin_of tl rfl]; simp only [h'.1.1.1, h'.1.1.2, h'.1.2, h'.2]; rfl

theorem rt_cpys (tl : Fin 16) (k : BitVec 3) (o : Bool) (d : Spec) (r : Shape) : Rt (.cpys tl k o d r) := by
  have htl := tl.isLt
  have hm := k.isLt
  have hsp := specCode_lt d
  have ho := (by cases o <;> decide : bnat o < 2)
  have hbo := (by cases o <;> decide : (bnat o == 1) = o)
  have e0 : field (0xC9 * 2 ^ 24 + tl.val * 2 ^ 17 + k.toNat * 2 ^ 14 + bnat o * 2 ^ 7 + specCode d) 20 17 = tl.val := by simp only [field]; omega
  have e1 : field (0xC9 * 2 ^ 24 + tl.val * 2 ^ 17 + k.toNat * 2 ^ 14 + bnat o * 2 ^ 7 + specCode d) 16 14 = k.toNat := by simp only [field]; omega
  have e2 : field (0xC9 * 2 ^ 24 + tl.val * 2 ^ 17 + k.toNat * 2 ^ 14 + bnat o * 2 ^ 7 + specCode d) 7 7 = bnat o := by simp only [field]; omega
  have e3 : field (0xC9 * 2 ^ 24 + tl.val * 2 ^ 17 + k.toNat * 2 ^ 14 + bnat o * 2 ^ 7 + specCode d) 6 0 = specCode d := by simp only [field]; omega
  have e4 : field (0xC9 * 2 ^ 24 + tl.val * 2 ^ 17 + k.toNat * 2 ^ 14 + bnat o * 2 ^ 7 + specCode d) 13 8 = 0 := by simp only [field]; omega
  have e5 : field (0xC9 * 2 ^ 24 + tl.val * 2 ^ 17 + k.toNat * 2 ^ 14 + bnat o * 2 ^ 7 + specCode d) 23 21 = 0 := by simp only [field]; omega
  obtain ⟨w0, w1, w2, w3, hs, hlt, hr⟩ := shape_rt r
  have he : encode (.cpys tl k o d r) = (0xC9 * 2 ^ 24 + tl.val * 2 ^ 17 + k.toNat * 2 ^ 14 + bnat o * 2 ^ 7 + specCode d) :: [w0, w1, w2, w3] := by rw [← hs]; rfl
  refine rt_W (op := 201) (es := [w0, w1, w2, w3]) he (by omega) (by omega) (by rw [← hs]; exact hlt) rfl (fun _ => rfl) (fun _ _ h => h) _ (fun _ _ => rfl) ?_ (fun h => ?_) (fun _ => rfl) (fun _ => rfl)
  · simp only [nth, List.getD_cons_zero, List.getD_cons_succ, fB, e0, e1, e2, e3, e4, e5, hr, specOf_code]
    rw [fin_of tl rfl, bv_of k rfl, hbo]
  · have h' := h
    simp only [instrReserved, Bool.and_eq_true] at h'
    simp only [nth, List.getD_cons_zero, List.getD_cons_succ, e0, e1, e2, e3, e4, e5, hr]
    simp [h']

theorem rt_b (c : Cond) (off : BitVec 20) : Rt (.b c off) := by
  have hc := condCode_lt c; have ho := off.isLt
  have e0 : field (0xE0 * 2 ^ 24 + condCode c * 2 ^ 20 + off.toNat) 23 20 = condCode c := by simp only [field]; omega
  refine rt_W (op := 0xE0) (es := []) rfl (by omega) (by omega) (by simp) rfl (fun _ => rfl) (fun _ _ _ => rfl) _ (fun _ _ => rfl) ?_ (fun _ => rfl) (fun h => ?_) (fun h => rfl)
  · simp only [e0, condOf_code, Option.getD_some]; congr 1; exact bv_of _ (by simp only [field]; omega)
  · simp only [e0, condOf_code]; rfl

theorem rt_j (e : BitVec 32) : Rt (.j e) := by
  have he := e.isLt
  refine rt_W (op := 0xE1) (w := 0xE1 * 2 ^ 24) (es := [e.toNat]) rfl (by omega) (by omega) (by simp; omega) rfl (fun _ => rfl) (fun _ _ _ => rfl) _ (fun _ _ => rfl) ?_ (fun _ => rfl) (fun h => rfl) (fun h => rfl)
  exact congrArg Instr.j (bv_of e rfl)

theorem rt_call (off : BitVec 20) : Rt (.call off) := by
  have ho := off.isLt
  have e0 : field (0xE2 * 2 ^ 24 + off.toNat) 23 20 = 0 := by simp only [field]; omega
  refine rt_W (op := 0xE2) (es := []) rfl (by omega) (by omega) (by simp) rfl (fun _ => rfl) (fun _ _ _ => rfl) _ (fun _ _ => rfl) ?_ (fun _ => ?_) (fun h => rfl) (fun h => rfl)
  · exact congrArg Instr.call (bv_of _ (by simp only [field]; omega))
  · simp only [e0]; rfl

theorem rt_loop (n : Fin 16) (off : BitVec 20) : Rt (.loop n off) := by
  have hc := n.isLt; have ho := off.isLt
  have e0 : field (0xE3 * 2 ^ 24 + n.val * 2 ^ 20 + off.toNat) 23 20 = n.val := by simp only [field]; omega
  refine rt_W (op := 0xE3) (es := []) rfl (by omega) (by omega) (by simp) rfl (fun _ => rfl) (fun _ _ _ => rfl) _ (fun _ _ => rfl) ?_ (fun _ => rfl) (fun h => rfl) (fun h => rfl)
  · simp only [e0]; rw [fin_of n rfl]; congr 1; exact bv_of _ (by simp only [field]; omega)

theorem rt_trap (k : BitVec 16) : Rt (.trap k) := by
  have hk := k.isLt
  have e : encode (.trap k) = [0xF0 * 2 ^ 24 + 4 * 2 ^ 16 + 0 * 2 ^ 7 + k.toNat] := rfl
  refine rt_of (op := 0xF0) (fn := 4) (es := []) e (by omega) (by simp) (by simp only [field]; omega) (by simp only [field]; omega) rfl (by decide) (fun _ _ => rfl) _ rfl ?_ (fun _ => rfl) (fun h => rfl) (fun h => rfl)
  exact congrArg Instr.trap (bv_of _ (by simp only [field]; omega))

theorem rt_brk (k : BitVec 16) : Rt (.brk k) := by
  have hk := k.isLt
  have e : encode (.brk k) = [0xF0 * 2 ^ 24 + 5 * 2 ^ 16 + 0 * 2 ^ 7 + k.toNat] := rfl
  refine rt_of (op := 0xF0) (fn := 5) (es := []) e (by omega) (by simp) (by simp only [field]; omega) (by simp only [field]; omega) rfl (by decide) (fun _ _ => rfl) _ rfl ?_ (fun _ => rfl) (fun h => rfl) (fun h => rfl)
  exact congrArg Instr.brk (bv_of _ (by simp only [field]; omega))

theorem rt_rttResume : Rt .rttResume := 
  rt_of (op := 0xF0) (fn := 6) (es := []) rfl (by decide) (by simp) rfl rfl rfl (by decide) (fun _ _ => rfl) _ rfl rfl (fun _ => rfl) (fun h => rfl) (fun h => rfl)

theorem rt_rttSkip : Rt .rttSkip := 
  rt_of (op := 0xF0) (fn := 6) (es := []) rfl (by decide) (by simp) rfl rfl rfl (by decide) (fun _ _ => rfl) _ rfl rfl (fun _ => rfl) (fun h => rfl) (fun h => rfl)

theorem rt_rttAbort : Rt .rttAbort := 
  rt_of (op := 0xF0) (fn := 6) (es := []) rfl (by decide) (by simp) rfl rfl rfl (by decide) (fun _ _ => rfl) _ rfl rfl (fun _ => rfl) (fun h => rfl) (fun h => rfl)

theorem rt_rttDrop : Rt .rttDrop := 
  rt_of (op := 0xF0) (fn := 6) (es := []) rfl (by decide) (by simp) rfl rfl rfl (by decide) (fun _ _ => rfl) _ rfl rfl (fun _ => rfl) (fun h => rfl) (fun h => rfl)

theorem rt_rttKill : Rt .rttKill := 
  rt_of (op := 0xF0) (fn := 6) (es := []) rfl (by decide) (by simp) rfl rfl rfl (by decide) (fun _ _ => rfl) _ rfl rfl (fun _ => rfl) (fun h => rfl) (fun h => rfl)

theorem rt_srw (n : BitVec 7) (b : Spec) : Rt (.srw n b) := by
  have hn := n.isLt; have hb := specCode_lt b
  refine rt_S (op := 0xF0) (fn := 11) (x := n.toNat) (y := specCode b) rfl (by decide) (by omega) (by omega) (by decide) (fun cls h => rfl) _ (fun _ _ _ _ _ => rfl) ?_ (fun _ => ?_) (fun _ => rfl) (fun h => ?_)
  · simp (disch := omega) only [fB, S_x, S_y, specOf_code]; rw [bv_of n rfl]
  · simp (disch := omega) only [S_hi]; rfl
  · simp (disch := omega) only [fB, S_x, S_y, specOf_code]; exact h

theorem rt_ttest (d : Spec) (tl : Fin 16) : Rt (.ttest d tl) := by
  have hn := tl.isLt; have hb := specCode_lt d
  refine rt_S (op := 0xF2) (fn := 3) (x := specCode d) (y := tl.val) rfl (by decide) (by omega) (by omega) (by decide) (fun cls h => rfl) _ (fun _ _ _ _ _ => rfl) ?_ (fun _ => ?_) (fun _ => rfl) (fun h => ?_)
  · simp (disch := omega) only [fA, S_x, S_y3, specOf_code]; rw [fin_of tl rfl]
  · simp (disch := omega) only [S_hi, S_y64]; rfl
  · simp (disch := omega) only [fA, S_x, S_y, specOf_code]; exact h

theorem rt_tdrain (tl : Fin 16) : Rt (.tdrain tl) := by
  have hn := tl.isLt
  refine rt_S (op := 0xF2) (fn := 4) (x := tl.val) (y := 0) rfl (by decide) (by omega) (by omega) (by decide) (fun cls h => rfl) _ (fun _ _ _ _ _ => rfl) ?_ (fun _ => ?_) (fun _ => rfl) (fun h => rfl)
  · simp (disch := omega) only [S_x10]; rw [fin_of tl rfl]
  · simp (disch := omega) only [S_h11, S_y]; rfl

theorem rt_kadv (q : Fin 8) (a : Spec) : Rt (.kadv q a) := by
  have hn := q.isLt; have hb := specCode_lt a
  refine rt_S (op := 0xF3) (fn := 0) (x := q.val) (y := specCode a) rfl (by decide) (by omega) (by omega) (by decide) (fun cls h => h) _ (fun _ _ _ _ _ => rfl) ?_ (fun _ => ?_) (fun _ => rfl) (fun h => ?_)
  · simp (disch := omega) only [fB, S_x9, S_y, specOf_code]; rw [fin_of q rfl]
  · simp (disch := omega) only [S_h10]; rfl
  · simp (disch := omega) only [fB, S_y, specOf_code]; exact h

theorem rt_bld (z : BitVec 2) (d a : Spec) : Rt (.bld z d a) := by
  have hz := z.isLt; have hd := specCode_lt d; have ha := specCode_lt a
  have e0 : field (0xF9 * 2 ^ 24 + z.toNat * 2 ^ 14 + specCode d * 2 ^ 7 + specCode a) 15 14 = z.toNat := by simp only [field]; omega
  have e1 : field (0xF9 * 2 ^ 24 + z.toNat * 2 ^ 14 + specCode d * 2 ^ 7 + specCode a) 13 7 = specCode d := by simp only [field]; omega
  have e2 : field (0xF9 * 2 ^ 24 + z.toNat * 2 ^ 14 + specCode d * 2 ^ 7 + specCode a) 6 0 = specCode a := by simp only [field]; omega
  refine rt_of (op := 0xF9) (fn := 0) (es := []) (w := 0xF9 * 2 ^ 24 + z.toNat * 2 ^ 14 + specCode d * 2 ^ 7 + specCode a) rfl (by omega) (by simp) (by simp only [field]; omega) (by simp only [field]; omega) rfl (by decide) (fun _ h => h) ({ preDA _ (Instr.bld (BitVec.ofNat 2 (field _ 15 14))) with resv := true } : Pre) rfl ?_ (fun _ => rfl) (fun h => rfl) (fun h => ?_)
  · simp only [preDA, preAB, fA, fB, e0, e1, e2, specOf_code, bv_of z rfl]
  · simp only [preDA, preAB, fA, fB, e0, e1, e2, specOf_code]; exact h

theorem rt_bst (z : BitVec 2) (d a : Spec) : Rt (.bst z d a) := by
  have hz := z.isLt; have hd := specCode_lt d; have ha := specCode_lt a
  have e0 : field (0xF9 * 2 ^ 24 + 2 ^ 16 + z.toNat * 2 ^ 14 + specCode d * 2 ^ 7 + specCode a) 15 14 = z.toNat := by simp only [field]; omega
  have e1 : field (0xF9 * 2 ^ 24 + 2 ^ 16 + z.toNat * 2 ^ 14 + specCode d * 2 ^ 7 + specCode a) 13 7 = specCode d := by simp only [field]; omega
  have e2 : field (0xF9 * 2 ^ 24 + 2 ^ 16 + z.toNat * 2 ^ 14 + specCode d * 2 ^ 7 + specCode a) 6 0 = specCode a := by simp only [field]; omega
  refine rt_of (op := 0xF9) (fn := 1) (es := []) (w := 0xF9 * 2 ^ 24 + 2 ^ 16 + z.toNat * 2 ^ 14 + specCode d * 2 ^ 7 + specCode a) rfl (by omega) (by simp) (by simp only [field]; omega) (by simp only [field]; omega) rfl (by decide) (fun _ h => h) ({ preAB _ (Instr.bst (BitVec.ofNat 2 (field _ 15 14))) with resv := true } : Pre) rfl ?_ (fun _ => rfl) (fun h => rfl) (fun h => ?_)
  · simp only [preDA, preAB, fA, fB, e0, e1, e2, specOf_code, bv_of z rfl]
  · simp only [preDA, preAB, fA, fB, e0, e1, e2, specOf_code]; exact h
-- FINAL

/-! ### One lemma per constructor -/

theorem RoundTrip.add (t : IType) (d a b : Spec) : RoundTrip.Statement (.add t d a b) := of_native (rt_add t d a b) rfl
theorem RoundTrip.sub (t : IType) (d a b : Spec) : RoundTrip.Statement (.sub t d a b) := of_native (rt_sub t d a b) rfl
theorem RoundTrip.mul (t : IType) (d a b : Spec) : RoundTrip.Statement (.mul t d a b) := of_native (rt_mul t d a b) rfl
theorem RoundTrip.mulh (t : IType) (d a b : Spec) : RoundTrip.Statement (.mulh t d a b) := of_native (rt_mulh t d a b) rfl
theorem RoundTrip.div (t : IType) (d a b : Spec) : RoundTrip.Statement (.div t d a b) := of_native (rt_div t d a b) rfl
theorem RoundTrip.rem (t : IType) (d a b : Spec) : RoundTrip.Statement (.rem t d a b) := of_native (rt_rem t d a b) rfl
theorem RoundTrip.and (t : IType) (d a b : Spec) : RoundTrip.Statement (.and t d a b) := of_native (rt_and t d a b) rfl
theorem RoundTrip.or (t : IType) (d a b : Spec) : RoundTrip.Statement (.or t d a b) := of_native (rt_or t d a b) rfl
theorem RoundTrip.xor (t : IType) (d a b : Spec) : RoundTrip.Statement (.xor t d a b) := of_native (rt_xor t d a b) rfl
theorem RoundTrip.andn (t : IType) (d a b : Spec) : RoundTrip.Statement (.andn t d a b) := of_native (rt_andn t d a b) rfl
theorem RoundTrip.shl (t : IType) (d a b : Spec) : RoundTrip.Statement (.shl t d a b) := of_native (rt_shl t d a b) rfl
theorem RoundTrip.shr (t : IType) (d a b : Spec) : RoundTrip.Statement (.shr t d a b) := of_native (rt_shr t d a b) rfl
theorem RoundTrip.sar (t : IType) (d a b : Spec) : RoundTrip.Statement (.sar t d a b) := of_native (rt_sar t d a b) rfl
theorem RoundTrip.rot (t : IType) (d a b : Spec) : RoundTrip.Statement (.rot t d a b) := of_native (rt_rot t d a b) rfl
theorem RoundTrip.min (t : IType) (d a b : Spec) : RoundTrip.Statement (.min t d a b) := of_native (rt_min t d a b) rfl
theorem RoundTrip.max (t : IType) (d a b : Spec) : RoundTrip.Statement (.max t d a b) := of_native (rt_max t d a b) rfl
theorem RoundTrip.abs (t : IType) (d a : Spec) : RoundTrip.Statement (.abs t d a) := of_native (rt_abs t d a) rfl
theorem RoundTrip.neg (t : IType) (d a : Spec) : RoundTrip.Statement (.neg t d a) := of_native (rt_neg t d a) rfl
theorem RoundTrip.sel (t : IType) (d a b : Spec) : RoundTrip.Statement (.sel t d a b) := of_native (rt_sel t d a b) rfl
theorem RoundTrip.clz (t : IType) (d a : Spec) : RoundTrip.Statement (.clz t d a) := of_native (rt_clz t d a) rfl
theorem RoundTrip.ctz (t : IType) (d a : Spec) : RoundTrip.Statement (.ctz t d a) := of_native (rt_ctz t d a) rfl
theorem RoundTrip.popc (t : IType) (d a : Spec) : RoundTrip.Statement (.popc t d a) := of_native (rt_popc t d a) rfl
theorem RoundTrip.bext (t : IType) (d a b : Spec) : RoundTrip.Statement (.bext t d a b) := of_native (rt_bext t d a b) rfl
theorem RoundTrip.bins (t : IType) (d a b : Spec) : RoundTrip.Statement (.bins t d a b) := of_native (rt_bins t d a b) rfl
theorem RoundTrip.mov (t : IType) (d a : Spec) : RoundTrip.Statement (.mov t d a) := of_native (rt_mov t d a) rfl
theorem RoundTrip.lea (d a b : Spec) : RoundTrip.Statement (.lea d a b) := of_native (rt_lea d a b) rfl
theorem RoundTrip.pset (p : Fin 8) (a b : Spec) : RoundTrip.Statement (.pset p a b) := of_native (rt_pset p a b) rfl
theorem RoundTrip.mset (m : Fin 4) (a b : Spec) : RoundTrip.Statement (.mset m a b) := of_native (rt_mset m a b) rfl
theorem RoundTrip.hbind (h : Fin 4) (a b : Spec) : RoundTrip.Statement (.hbind h a b) := of_native (rt_hbind h a b) rfl
theorem RoundTrip.hadvC (h : Fin 4) (a : Spec) : RoundTrip.Statement (.hadvC h a) := of_native (rt_hadvC h a) rfl
theorem RoundTrip.hadvP (h : Fin 4) (a : Spec) : RoundTrip.Statement (.hadvP h a) := of_native (rt_hadvP h a) rfl
theorem RoundTrip.hstat (d : Spec) (h : Fin 4) : RoundTrip.Statement (.hstat d h) := of_native (rt_hstat d h) rfl
theorem RoundTrip.cmp (c : Cond) (t : IType) (d a b : Spec) : RoundTrip.Statement (.cmp c t d a b) := of_native (fun cls hw => rt_cmp c t d a b (of_decide_eq_true (wf_parts hw).2.2.1) cls hw) rfl
theorem RoundTrip.ld (t : IType) (d a b : Spec) : RoundTrip.Statement (.ld t d a b) := of_native (rt_ld t d a b) rfl
theorem RoundTrip.st (t : IType) (d a b : Spec) : RoundTrip.Statement (.st t d a b) := of_native (rt_st t d a b) rfl
theorem RoundTrip.ldt (t : IType) (f : Fmt) (rm : RMode) (d a b : Spec) : RoundTrip.Statement (.ldt t f rm d a b) := of_native (rt_ldt t f rm d a b) rfl
theorem RoundTrip.stt (t : IType) (f : Fmt) (rm : RMode) (d a b : Spec) : RoundTrip.Statement (.stt t f rm d a b) := of_native (rt_stt t f rm d a b) rfl
theorem RoundTrip.vadd (t : VType) (d a b : Spec) : RoundTrip.Statement (.vadd t d a b) := of_native (rt_vadd t d a b) rfl
theorem RoundTrip.vsub (t : VType) (d a b : Spec) : RoundTrip.Statement (.vsub t d a b) := of_native (rt_vsub t d a b) rfl
theorem RoundTrip.vmul (t : VType) (d a b : Spec) : RoundTrip.Statement (.vmul t d a b) := of_native (rt_vmul t d a b) rfl
theorem RoundTrip.vfma (t : VType) (d a b : Spec) : RoundTrip.Statement (.vfma t d a b) := of_native (rt_vfma t d a b) rfl
theorem RoundTrip.vfms (t : VType) (d a b : Spec) : RoundTrip.Statement (.vfms t d a b) := of_native (rt_vfms t d a b) rfl
theorem RoundTrip.vmin (t : VType) (d a b : Spec) : RoundTrip.Statement (.vmin t d a b) := of_native (rt_vmin t d a b) rfl
theorem RoundTrip.vmax (t : VType) (d a b : Spec) : RoundTrip.Statement (.vmax t d a b) := of_native (rt_vmax t d a b) rfl
theorem RoundTrip.vabs (t : VType) (d a : Spec) : RoundTrip.Statement (.vabs t d a) := of_native (rt_vabs t d a) rfl
theorem RoundTrip.vneg (t : VType) (d a : Spec) : RoundTrip.Statement (.vneg t d a) := of_native (rt_vneg t d a) rfl
theorem RoundTrip.vsel (t : VType) (d a b : Spec) : RoundTrip.Statement (.vsel t d a b) := of_native (rt_vsel t d a b) rfl
theorem RoundTrip.vand (t : VType) (d a b : Spec) : RoundTrip.Statement (.vand t d a b) := of_native (rt_vand t d a b) rfl
theorem RoundTrip.vor (t : VType) (d a b : Spec) : RoundTrip.Statement (.vor t d a b) := of_native (rt_vor t d a b) rfl
theorem RoundTrip.vxor (t : VType) (d a b : Spec) : RoundTrip.Statement (.vxor t d a b) := of_native (rt_vxor t d a b) rfl
theorem RoundTrip.vnot (t : VType) (d a : Spec) : RoundTrip.Statement (.vnot t d a) := of_native (rt_vnot t d a) rfl
theorem RoundTrip.vshl (t : VType) (d a b : Spec) : RoundTrip.Statement (.vshl t d a b) := of_native (rt_vshl t d a b) rfl
theorem RoundTrip.vshr (t : VType) (d a b : Spec) : RoundTrip.Statement (.vshr t d a b) := of_native (rt_vshr t d a b) rfl
theorem RoundTrip.vsar (t : VType) (d a b : Spec) : RoundTrip.Statement (.vsar t d a b) := of_native (rt_vsar t d a b) rfl
theorem RoundTrip.vcvt (f g : Fmt) (rm : RMode) (d a : Spec) : RoundTrip.Statement (.vcvt f g rm d a) := of_native (rt_vcvt f g rm d a) rfl
theorem RoundTrip.vrcp (t : VType) (d a : Spec) : RoundTrip.Statement (.vrcp t d a) := of_native (rt_vrcp t d a) rfl
theorem RoundTrip.vrsq (t : VType) (d a : Spec) : RoundTrip.Statement (.vrsq t d a) := of_native (rt_vrsq t d a) rfl
theorem RoundTrip.vexp2 (t : VType) (d a : Spec) : RoundTrip.Statement (.vexp2 t d a) := of_native (rt_vexp2 t d a) rfl
theorem RoundTrip.vlog2 (t : VType) (d a : Spec) : RoundTrip.Statement (.vlog2 t d a) := of_native (rt_vlog2 t d a) rfl
theorem RoundTrip.vrsum (t : VType) (d a : Spec) : RoundTrip.Statement (.vrsum t d a) := of_native (rt_vrsum t d a) rfl
theorem RoundTrip.vrmax (t : VType) (d a : Spec) : RoundTrip.Statement (.vrmax t d a) := of_native (rt_vrmax t d a) rfl
theorem RoundTrip.vrmin (t : VType) (d a : Spec) : RoundTrip.Statement (.vrmin t d a) := of_native (rt_vrmin t d a) rfl
theorem RoundTrip.vperm (t : VType) (d a b : Spec) : RoundTrip.Statement (.vperm t d a b) := of_native (rt_vperm t d a b) rfl
theorem RoundTrip.vbcast (t : VType) (d a : Spec) : RoundTrip.Statement (.vbcast t d a) := of_native (rt_vbcast t d a) rfl
theorem RoundTrip.vins (t : VType) (d a b : Spec) : RoundTrip.Statement (.vins t d a b) := of_native (rt_vins t d a b) rfl
theorem RoundTrip.vext (t : VType) (d a b : Spec) : RoundTrip.Statement (.vext t d a b) := of_native (rt_vext t d a b) rfl
theorem RoundTrip.vkey (t : VType) (d a b : Spec) : RoundTrip.Statement (.vkey t d a b) := of_native (rt_vkey t d a b) rfl
theorem RoundTrip.vhist (t : VType) (d a b : Spec) : RoundTrip.Statement (.vhist t d a b) := of_native (rt_vhist t d a b) rfl
theorem RoundTrip.vcompress (t : VType) (d a : Spec) : RoundTrip.Statement (.vcompress t d a) := of_native (rt_vcompress t d a) rfl
theorem RoundTrip.vcount (t : VType) (d a b : Spec) : RoundTrip.Statement (.vcount t d a b) := of_native (rt_vcount t d a b) rfl
theorem RoundTrip.vld (t : VType) (d a b : Spec) : RoundTrip.Statement (.vld t d a b) := of_native (rt_vld t d a b) rfl
theorem RoundTrip.vst (t : VType) (d a b : Spec) : RoundTrip.Statement (.vst t d a b) := of_native (rt_vst t d a b) rfl
theorem RoundTrip.vldx (t : VType) (d a b : Spec) : RoundTrip.Statement (.vldx t d a b) := of_native (rt_vldx t d a b) rfl
theorem RoundTrip.vstx (t : VType) (d a b : Spec) : RoundTrip.Statement (.vstx t d a b) := of_native (rt_vstx t d a b) rfl
theorem RoundTrip.vcmp (c : Cond) (t : VType) (d a b : Spec) : RoundTrip.Statement (.vcmp c t d a b) := of_native (fun cls hw => rt_vcmp c t d a b (by
    have h' : (t != .tmpr && decide (condCode c < 6)) = true := (wf_parts hw).2.2.1
    simp only [Bool.and_eq_true] at h'; exact of_decide_eq_true h'.2) cls hw) rfl
theorem RoundTrip.vaddRnd (t : VType) (rm : RMode) (d a b : Spec) : RoundTrip.Statement (.vaddRnd t rm d a b) := of_native (rt_vaddRnd t rm d a b) rfl
theorem RoundTrip.vsubRnd (t : VType) (rm : RMode) (d a b : Spec) : RoundTrip.Statement (.vsubRnd t rm d a b) := of_native (rt_vsubRnd t rm d a b) rfl
theorem RoundTrip.vmulRnd (t : VType) (rm : RMode) (d a b : Spec) : RoundTrip.Statement (.vmulRnd t rm d a b) := of_native (rt_vmulRnd t rm d a b) rfl
theorem RoundTrip.vfmaRnd (t : VType) (rm : RMode) (d a b : Spec) : RoundTrip.Statement (.vfmaRnd t rm d a b) := of_native (rt_vfmaRnd t rm d a b) rfl
theorem RoundTrip.vfmsRnd (t : VType) (rm : RMode) (d a b : Spec) : RoundTrip.Statement (.vfmsRnd t rm d a b) := of_native (rt_vfmsRnd t rm d a b) rfl
theorem RoundTrip.vrcpRnd (t : VType) (rm : RMode) (d a : Spec) : RoundTrip.Statement (.vrcpRnd t rm d a) := of_native (rt_vrcpRnd t rm d a) rfl
theorem RoundTrip.vrsqRnd (t : VType) (rm : RMode) (d a : Spec) : RoundTrip.Statement (.vrsqRnd t rm d a) := of_native (rt_vrsqRnd t rm d a) rfl
theorem RoundTrip.vexp2Rnd (t : VType) (rm : RMode) (d a : Spec) : RoundTrip.Statement (.vexp2Rnd t rm d a) := of_native (rt_vexp2Rnd t rm d a) rfl
theorem RoundTrip.vlog2Rnd (t : VType) (rm : RMode) (d a : Spec) : RoundTrip.Statement (.vlog2Rnd t rm d a) := of_native (rt_vlog2Rnd t rm d a) rfl
theorem RoundTrip.vrsumRnd (t : VType) (rm : RMode) (d a : Spec) : RoundTrip.Statement (.vrsumRnd t rm d a) := of_native (rt_vrsumRnd t rm d a) rfl
theorem RoundTrip.movi (t : IType) (d : Spec) (i : BitVec 14) : RoundTrip.Statement (.movi t d i) := of_native (rt_movi t d i) rfl
theorem RoundTrip.addi (t : IType) (d : Spec) (i : BitVec 14) : RoundTrip.Statement (.addi t d i) := of_native (rt_addi t d i) rfl
theorem RoundTrip.li (t : IType) (d : Spec) (e : BitVec 32) : RoundTrip.Statement (.li t d e) := of_native (rt_li t d e) rfl
theorem RoundTrip.fst (w : FWait) (f : IType) (o : Order) (d a : Spec) (vec : Bool) (s : Scope) : RoundTrip.Statement (.fst w f o d a vec s) := of_native (rt_fst w f o d a vec s) rfl
theorem RoundTrip.fld (w : FWait) (f : IType) (o : Order) (d a : Spec) (vec : Bool) (s : Scope) : RoundTrip.Statement (.fld w f o d a vec s) := of_native (rt_fld w f o d a vec s) rfl
theorem RoundTrip.fence (w : FWait) (s : Scope) (o : Order) : RoundTrip.Statement (.fence w s o) := of_native (rt_fence w s o) rfl
theorem RoundTrip.amo (c : Scope) (w : FWait) (f : IType) (o : Order) (d a : Spec) (p : AmoOp) : RoundTrip.Statement (.amo c w f o d a p) := of_native (rt_amo c w f o d a p) rfl
theorem RoundTrip.send (w : FWait) (o : Order) (d a : Spec) : RoundTrip.Statement (.send w o d a) := of_native (rt_send w o d a) rfl
theorem RoundTrip.sendm (w : FWait) (o : Order) (d a : Spec) : RoundTrip.Statement (.sendm w o d a) := of_native (rt_sendm w o d a) rfl
theorem RoundTrip.enq (w : FWait) (o : Order) (d a : Spec) (k : Bool) : RoundTrip.Statement (.enq w o d a k) := of_native (rt_enq w o d a k) rfl
theorem RoundTrip.kctx (r : Shape) : RoundTrip.Statement (.kctx r) := of_native (rt_kctx r) rfl
theorem RoundTrip.kring (q : Fin 8) (r : Shape) : RoundTrip.Statement (.kring q r) := of_native (rt_kring q r) rfl
theorem RoundTrip.kslip (q : Fin 8) (r : Shape) : RoundTrip.Statement (.kslip q r) := of_native (rt_kslip q r) rfl
theorem RoundTrip.kmm (q : Fin 8) (tile : Fin 16) (mode : BitVec 2) (off : Spec) (r : Shape) : RoundTrip.Statement (.kmm q tile mode off r) := of_native (rt_kmm q tile mode off r) rfl
theorem RoundTrip.kmmG (q : Fin 8) (tile : Fin 16) (mode : BitVec 2) (off : Spec) (r : Shape) : RoundTrip.Statement (.kmmG q tile mode off r) := of_native (rt_kmmG q tile mode off r) rfl
theorem RoundTrip.kst (rm : BitVec 3) (x : Spec) (r : Shape) : RoundTrip.Statement (.kst rm x r) := of_native (rt_kst rm x r) rfl
theorem RoundTrip.kclr (r : Shape) : RoundTrip.Statement (.kclr r) := of_native (rt_kclr r) rfl
theorem RoundTrip.cpy (q : Fin 8) (tile : Fin 16) (kind : BitVec 3) (o : Bool) (d : Spec) (r : Shape) : RoundTrip.Statement (.cpy q tile kind o d r) := of_native (rt_cpy q tile kind o d r) rfl
theorem RoundTrip.cpys (tile : Fin 16) (kind : BitVec 3) (o : Bool) (d : Spec) (r : Shape) : RoundTrip.Statement (.cpys tile kind o d r) := of_native (rt_cpys tile kind o d r) rfl
theorem RoundTrip.b (c : Cond) (off : BitVec 20) : RoundTrip.Statement (.b c off) := of_native (rt_b c off) rfl
theorem RoundTrip.j (e : BitVec 32) : RoundTrip.Statement (.j e) := of_native (rt_j e) rfl
theorem RoundTrip.call (off : BitVec 20) : RoundTrip.Statement (.call off) := of_native (rt_call off) rfl
theorem RoundTrip.loop (n : Fin 16) (off : BitVec 20) : RoundTrip.Statement (.loop n off) := of_native (rt_loop n off) rfl
theorem RoundTrip.nop : RoundTrip.Statement .nop := of_native (rt_nop) rfl
theorem RoundTrip.endFiring : RoundTrip.Statement .endFiring := of_native (rt_endFiring) rfl
theorem RoundTrip.ret : RoundTrip.Statement .ret := of_native (rt_ret) rfl
theorem RoundTrip.jx (a : Spec) : RoundTrip.Statement (.jx a) := of_native (rt_jx a) rfl
theorem RoundTrip.trap (k : BitVec 16) : RoundTrip.Statement (.trap k) := of_native (rt_trap k) rfl
theorem RoundTrip.brk (k : BitVec 16) : RoundTrip.Statement (.brk k) := of_native (rt_brk k) rfl
theorem RoundTrip.rttResume : RoundTrip.Statement .rttResume := of_native (rt_rttResume) rfl
theorem RoundTrip.rttSkip : RoundTrip.Statement .rttSkip := of_native (rt_rttSkip) rfl
theorem RoundTrip.rttAbort : RoundTrip.Statement .rttAbort := of_native (rt_rttAbort) rfl
theorem RoundTrip.rttDrop : RoundTrip.Statement .rttDrop := of_native (rt_rttDrop) rfl
theorem RoundTrip.rttKill : RoundTrip.Statement .rttKill := of_native (rt_rttKill) rfl
theorem RoundTrip.sflag (d a : Spec) : RoundTrip.Statement (.sflag d a) := of_native (rt_sflag d a) rfl
theorem RoundTrip.wpset (a : Spec) : RoundTrip.Statement (.wpset a) := of_native (rt_wpset a) rfl
theorem RoundTrip.wdog (d a : Spec) : RoundTrip.Statement (.wdog d a) := of_native (rt_wdog d a) rfl
theorem RoundTrip.srr (d a : Spec) : RoundTrip.Statement (.srr d a) := of_native (rt_srr d a) rfl
theorem RoundTrip.srw (n : BitVec 7) (b : Spec) : RoundTrip.Statement (.srw n b) := of_native (rt_srw n b) rfl
theorem RoundTrip.rdcyc (d : Spec) : RoundTrip.Statement (.rdcyc d) := of_native (rt_rdcyc d) rfl
theorem RoundTrip.pair (d a : Spec) : RoundTrip.Statement (.pair d a) := of_native (rt_pair d a) rfl
theorem RoundTrip.chbind (a b : Spec) : RoundTrip.Statement (.chbind a b) := of_native (rt_chbind a b) rfl
theorem RoundTrip.chhold (a b : Spec) : RoundTrip.Statement (.chhold a b) := of_native (rt_chhold a b) rfl
theorem RoundTrip.chrdy (a b : Spec) : RoundTrip.Statement (.chrdy a b) := of_native (rt_chrdy a b) rfl
theorem RoundTrip.chmask (a b : Spec) : RoundTrip.Statement (.chmask a b) := of_native (rt_chmask a b) rfl
theorem RoundTrip.chstat (d a : Spec) : RoundTrip.Statement (.chstat d a) := of_native (rt_chstat d a) rfl
theorem RoundTrip.mnext (d : Spec) : RoundTrip.Statement (.mnext d) := of_native (rt_mnext d) rfl
theorem RoundTrip.tdef (tile : Fin 16) (a : Spec) : RoundTrip.Statement (.tdef tile a) := of_native (rt_tdef tile a) rfl
theorem RoundTrip.tarm (tile : Fin 16) (a : Spec) : RoundTrip.Statement (.tarm tile a) := of_native (rt_tarm tile a) rfl
theorem RoundTrip.twait (tile : Fin 16) (a : Spec) : RoundTrip.Statement (.twait tile a) := of_native (rt_twait tile a) rfl
theorem RoundTrip.ttest (d : Spec) (tile : Fin 16) : RoundTrip.Statement (.ttest d tile) := of_native (rt_ttest d tile) rfl
theorem RoundTrip.tdrain (tile : Fin 16) : RoundTrip.Statement (.tdrain tile) := of_native (rt_tdrain tile) rfl
theorem RoundTrip.jwait (a : Spec) : RoundTrip.Statement (.jwait a) := of_native (rt_jwait a) rfl
theorem RoundTrip.jpoll (d a : Spec) : RoundTrip.Statement (.jpoll d a) := of_native (rt_jpoll d a) rfl
theorem RoundTrip.kadv (q : Fin 8) (a : Spec) : RoundTrip.Statement (.kadv q a) := of_native (rt_kadv q a) rfl
theorem RoundTrip.kwait : RoundTrip.Statement .kwait := of_native (rt_kwait) rfl
theorem RoundTrip.kleave (d a : Spec) : RoundTrip.Statement (.kleave d a) := of_native (rt_kleave d a) rfl
theorem RoundTrip.kstat (d a : Spec) : RoundTrip.Statement (.kstat d a) := of_native (rt_kstat d a) rfl
theorem RoundTrip.gbar (d : Spec) : RoundTrip.Statement (.gbar d) := of_native (rt_gbar d) rfl
theorem RoundTrip.gqGet (d : Spec) : RoundTrip.Statement (.gqGet d) := of_native (rt_gqGet d) rfl
theorem RoundTrip.baddRq (x c : Spec) : RoundTrip.Statement (.baddRq x c) := of_native (rt_baddRq x c) rfl
theorem RoundTrip.launch (d a : Spec) : RoundTrip.Statement (.launch d a) := of_native (rt_launch d a) rfl
theorem RoundTrip.trig : RoundTrip.Statement .trig := of_native (rt_trig) rfl
theorem RoundTrip.dwait (d : Spec) : RoundTrip.Statement (.dwait d) := of_native (rt_dwait d) rfl
theorem RoundTrip.lwait (d a : Spec) : RoundTrip.Statement (.lwait d a) := of_native (rt_lwait d a) rfl
theorem RoundTrip.lstat (d a : Spec) : RoundTrip.Statement (.lstat d a) := of_native (rt_lstat d a) rfl
theorem RoundTrip.sgnew (d a : Spec) : RoundTrip.Statement (.sgnew d a) := of_native (rt_sgnew d a) rfl
theorem RoundTrip.sgatt (d a : Spec) : RoundTrip.Statement (.sgatt d a) := of_native (rt_sgatt d a) rfl
theorem RoundTrip.sgdet (a : Spec) : RoundTrip.Statement (.sgdet a) := of_native (rt_sgdet a) rfl
theorem RoundTrip.sgrel (a b : Spec) : RoundTrip.Statement (.sgrel a b) := of_native (rt_sgrel a b) rfl
theorem RoundTrip.sgpin (a b : Spec) : RoundTrip.Statement (.sgpin a b) := of_native (rt_sgpin a b) rfl
theorem RoundTrip.sgevict (d a : Spec) : RoundTrip.Statement (.sgevict d a) := of_native (rt_sgevict d a) rfl
theorem RoundTrip.sgstat (d a : Spec) : RoundTrip.Statement (.sgstat d a) := of_native (rt_sgstat d a) rfl
theorem RoundTrip.tmprGet (d a : Spec) : RoundTrip.Statement (.tmprGet d a) := of_native (rt_tmprGet d a) rfl
theorem RoundTrip.tmprPick (d a : Spec) : RoundTrip.Statement (.tmprPick d a) := of_native (rt_tmprPick d a) rfl
theorem RoundTrip.tmprDem (d a : Spec) : RoundTrip.Statement (.tmprDem d a) := of_native (rt_tmprDem d a) rfl
theorem RoundTrip.tmprRe (d a : Spec) : RoundTrip.Statement (.tmprRe d a) := of_native (rt_tmprRe d a) rfl
theorem RoundTrip.tmprAch (a : Spec) : RoundTrip.Statement (.tmprAch a) := of_native (rt_tmprAch a) rfl
theorem RoundTrip.ttbw (a b : Spec) : RoundTrip.Statement (.ttbw a b) := of_native (rt_ttbw a b) rfl
theorem RoundTrip.ttbi (a : Spec) : RoundTrip.Statement (.ttbi a) := of_native (rt_ttbi a) rfl
theorem RoundTrip.ttbp (d a : Spec) : RoundTrip.Statement (.ttbp d a) := of_native (rt_ttbp d a) rfl
theorem RoundTrip.tlbi (a : Spec) : RoundTrip.Statement (.tlbi a) := of_native (rt_tlbi a) rfl
theorem RoundTrip.fbpop (d a : Spec) : RoundTrip.Statement (.fbpop d a) := of_native (rt_fbpop d a) rfl
theorem RoundTrip.replay (d a : Spec) : RoundTrip.Statement (.replay d a) := of_native (rt_replay d a) rfl
theorem RoundTrip.bld (z : BitVec 2) (d a : Spec) : RoundTrip.Statement (.bld z d a) := of_native (rt_bld z d a) rfl
theorem RoundTrip.bst (z : BitVec 2) (a b : Spec) : RoundTrip.Statement (.bst z a b) := of_native (rt_bst z a b) rfl
theorem RoundTrip.icw (a b : Spec) : RoundTrip.Statement (.icw a b) := of_native (rt_icw a b) rfl
theorem RoundTrip.ici (a : Spec) : RoundTrip.Statement (.ici a) := of_native (rt_ici a) rfl
theorem RoundTrip.icr (d a : Spec) : RoundTrip.Statement (.icr d a) := of_native (rt_icr d a) rfl
theorem RoundTrip.sqRd (d a : Spec) : RoundTrip.Statement (.sqRd d a) := of_native (rt_sqRd d a) rfl
theorem RoundTrip.sqWr (d a : Spec) : RoundTrip.Statement (.sqWr d a) := of_native (rt_sqWr d a) rfl
theorem RoundTrip.sqBuild (d a : Spec) : RoundTrip.Statement (.sqBuild d a) := of_native (rt_sqBuild d a) rfl
theorem RoundTrip.ltokWait (d : Spec) : RoundTrip.Statement (.ltokWait d) := of_native (rt_ltokWait d) rfl
theorem RoundTrip.ltokPass (a : Spec) : RoundTrip.Statement (.ltokPass a) := of_native (rt_ltokPass a) rfl
theorem RoundTrip.dkRun (d a : Spec) : RoundTrip.Statement (.dkRun d a) := of_native (rt_dkRun d a) rfl
theorem RoundTrip.dkWait (d a : Spec) : RoundTrip.Statement (.dkWait d a) := of_native (rt_dkWait d a) rfl
theorem RoundTrip.bcConst (k : BitVec 16) : RoundTrip.Statement (.bcConst k) := of_bytecode (fun _ => by exact ⟨rfl, (show some (Instr.bcConst (BitVec.ofNat 16 (k.toNat % 256 + 256 * (k.toNat / 256)))) = some (Instr.bcConst k) by simp only [u16_rt, u8_rt])⟩) rfl
theorem RoundTrip.bcLoadl (i : BitVec 8) : RoundTrip.Statement (.bcLoadl i) := of_bytecode (fun _ => by exact ⟨rfl, (show some (Instr.bcLoadl (BitVec.ofNat 8 i.toNat)) = some (Instr.bcLoadl i) by simp only [u16_rt, u8_rt])⟩) rfl
theorem RoundTrip.bcStorel (i : BitVec 8) : RoundTrip.Statement (.bcStorel i) := of_bytecode (fun _ => by exact ⟨rfl, (show some (Instr.bcStorel (BitVec.ofNat 8 i.toNat)) = some (Instr.bcStorel i) by simp only [u16_rt, u8_rt])⟩) rfl
theorem RoundTrip.bcLoadg (n : BitVec 16) : RoundTrip.Statement (.bcLoadg n) := of_bytecode (fun _ => by exact ⟨rfl, (show some (Instr.bcLoadg (BitVec.ofNat 16 (n.toNat % 256 + 256 * (n.toNat / 256)))) = some (Instr.bcLoadg n) by simp only [u16_rt, u8_rt])⟩) rfl
theorem RoundTrip.bcStoreg (n : BitVec 16) : RoundTrip.Statement (.bcStoreg n) := of_bytecode (fun _ => by exact ⟨rfl, (show some (Instr.bcStoreg (BitVec.ofNat 16 (n.toNat % 256 + 256 * (n.toNat / 256)))) = some (Instr.bcStoreg n) by simp only [u16_rt, u8_rt])⟩) rfl
theorem RoundTrip.bcLoadattr (n s : BitVec 16) : RoundTrip.Statement (.bcLoadattr n s) := of_bytecode (fun _ => by exact ⟨rfl, (show some (Instr.bcLoadattr (BitVec.ofNat 16 (n.toNat % 256 + 256 * (n.toNat / 256))) (BitVec.ofNat 16 (s.toNat % 256 + 256 * (s.toNat / 256)))) = some (Instr.bcLoadattr n s) by simp only [u16_rt, u8_rt])⟩) rfl
theorem RoundTrip.bcStoreattr (n s : BitVec 16) : RoundTrip.Statement (.bcStoreattr n s) := of_bytecode (fun _ => by exact ⟨rfl, (show some (Instr.bcStoreattr (BitVec.ofNat 16 (n.toNat % 256 + 256 * (n.toNat / 256))) (BitVec.ofNat 16 (s.toNat % 256 + 256 * (s.toNat / 256)))) = some (Instr.bcStoreattr n s) by simp only [u16_rt, u8_rt])⟩) rfl
theorem RoundTrip.bcLoadidx (s : BitVec 16) : RoundTrip.Statement (.bcLoadidx s) := of_bytecode (fun _ => by exact ⟨rfl, (show some (Instr.bcLoadidx (BitVec.ofNat 16 (s.toNat % 256 + 256 * (s.toNat / 256)))) = some (Instr.bcLoadidx s) by simp only [u16_rt, u8_rt])⟩) rfl
theorem RoundTrip.bcStoreidx (s : BitVec 16) : RoundTrip.Statement (.bcStoreidx s) := of_bytecode (fun _ => by exact ⟨rfl, (show some (Instr.bcStoreidx (BitVec.ofNat 16 (s.toNat % 256 + 256 * (s.toNat / 256)))) = some (Instr.bcStoreidx s) by simp only [u16_rt, u8_rt])⟩) rfl
theorem RoundTrip.bcBinary (o : BitVec 8) (s : BitVec 16) : RoundTrip.Statement (.bcBinary o s) := of_bytecode (fun _ => by exact ⟨rfl, (show some (Instr.bcBinary (BitVec.ofNat 8 o.toNat) (BitVec.ofNat 16 (s.toNat % 256 + 256 * (s.toNat / 256)))) = some (Instr.bcBinary o s) by simp only [u16_rt, u8_rt])⟩) rfl
theorem RoundTrip.bcUnary (o : BitVec 8) (s : BitVec 16) : RoundTrip.Statement (.bcUnary o s) := of_bytecode (fun _ => by exact ⟨rfl, (show some (Instr.bcUnary (BitVec.ofNat 8 o.toNat) (BitVec.ofNat 16 (s.toNat % 256 + 256 * (s.toNat / 256)))) = some (Instr.bcUnary o s) by simp only [u16_rt, u8_rt])⟩) rfl
theorem RoundTrip.bcCompare (c : BitVec 8) (s : BitVec 16) : RoundTrip.Statement (.bcCompare c s) := of_bytecode (fun _ => by exact ⟨rfl, (show some (Instr.bcCompare (BitVec.ofNat 8 c.toNat) (BitVec.ofNat 16 (s.toNat % 256 + 256 * (s.toNat / 256)))) = some (Instr.bcCompare c s) by simp only [u16_rt, u8_rt])⟩) rfl
theorem RoundTrip.bcCall (n : BitVec 8) (s : BitVec 16) : RoundTrip.Statement (.bcCall n s) := of_bytecode (fun _ => by exact ⟨rfl, (show some (Instr.bcCall (BitVec.ofNat 8 n.toNat) (BitVec.ofNat 16 (s.toNat % 256 + 256 * (s.toNat / 256)))) = some (Instr.bcCall n s) by simp only [u16_rt, u8_rt])⟩) rfl
theorem RoundTrip.bcCallmeth (n : BitVec 8) (s : BitVec 16) : RoundTrip.Statement (.bcCallmeth n s) := of_bytecode (fun _ => by exact ⟨rfl, (show some (Instr.bcCallmeth (BitVec.ofNat 8 n.toNat) (BitVec.ofNat 16 (s.toNat % 256 + 256 * (s.toNat / 256)))) = some (Instr.bcCallmeth n s) by simp only [u16_rt, u8_rt])⟩) rfl
theorem RoundTrip.bcReturn : RoundTrip.Statement .bcReturn := of_bytecode (fun _ => by exact ⟨rfl, rfl⟩) rfl
theorem RoundTrip.bcJump (t : BitVec 16) : RoundTrip.Statement (.bcJump t) := of_bytecode (fun _ => by exact ⟨rfl, (show some (Instr.bcJump (BitVec.ofNat 16 (t.toNat % 256 + 256 * (t.toNat / 256)))) = some (Instr.bcJump t) by simp only [u16_rt, u8_rt])⟩) rfl
theorem RoundTrip.bcJumpt (t : BitVec 16) : RoundTrip.Statement (.bcJumpt t) := of_bytecode (fun _ => by exact ⟨rfl, (show some (Instr.bcJumpt (BitVec.ofNat 16 (t.toNat % 256 + 256 * (t.toNat / 256)))) = some (Instr.bcJumpt t) by simp only [u16_rt, u8_rt])⟩) rfl
theorem RoundTrip.bcJumpf (t : BitVec 16) : RoundTrip.Statement (.bcJumpf t) := of_bytecode (fun _ => by exact ⟨rfl, (show some (Instr.bcJumpf (BitVec.ofNat 16 (t.toNat % 256 + 256 * (t.toNat / 256)))) = some (Instr.bcJumpf t) by simp only [u16_rt, u8_rt])⟩) rfl
theorem RoundTrip.bcWalk : RoundTrip.Statement .bcWalk := of_bytecode (fun _ => by exact ⟨rfl, rfl⟩) rfl
theorem RoundTrip.bcAdvance (t : BitVec 16) : RoundTrip.Statement (.bcAdvance t) := of_bytecode (fun _ => by exact ⟨rfl, (show some (Instr.bcAdvance (BitVec.ofNat 16 (t.toNat % 256 + 256 * (t.toNat / 256)))) = some (Instr.bcAdvance t) by simp only [u16_rt, u8_rt])⟩) rfl
theorem RoundTrip.bcBuildtuple (n : BitVec 8) : RoundTrip.Statement (.bcBuildtuple n) := of_bytecode (fun _ => by exact ⟨rfl, (show some (Instr.bcBuildtuple (BitVec.ofNat 8 n.toNat)) = some (Instr.bcBuildtuple n) by simp only [u16_rt, u8_rt])⟩) rfl
theorem RoundTrip.bcBuildlist (n : BitVec 8) : RoundTrip.Statement (.bcBuildlist n) := of_bytecode (fun _ => by exact ⟨rfl, (show some (Instr.bcBuildlist (BitVec.ofNat 8 n.toNat)) = some (Instr.bcBuildlist n) by simp only [u16_rt, u8_rt])⟩) rfl
theorem RoundTrip.bcUnpack (n : BitVec 8) : RoundTrip.Statement (.bcUnpack n) := of_bytecode (fun _ => by exact ⟨rfl, (show some (Instr.bcUnpack (BitVec.ofNat 8 n.toNat)) = some (Instr.bcUnpack n) by simp only [u16_rt, u8_rt])⟩) rfl
theorem RoundTrip.bcPop : RoundTrip.Statement .bcPop := of_bytecode (fun _ => by exact ⟨rfl, rfl⟩) rfl
theorem RoundTrip.bcDup : RoundTrip.Statement .bcDup := of_bytecode (fun _ => by exact ⟨rfl, rfl⟩) rfl
theorem RoundTrip.bcSwap : RoundTrip.Statement .bcSwap := of_bytecode (fun _ => by exact ⟨rfl, rfl⟩) rfl
theorem RoundTrip.bcRaise : RoundTrip.Statement .bcRaise := of_bytecode (fun _ => by exact ⟨rfl, rfl⟩) rfl
theorem RoundTrip.bcSetuptry (t : BitVec 16) : RoundTrip.Statement (.bcSetuptry t) := of_bytecode (fun _ => by exact ⟨rfl, (show some (Instr.bcSetuptry (BitVec.ofNat 16 (t.toNat % 256 + 256 * (t.toNat / 256)))) = some (Instr.bcSetuptry t) by simp only [u16_rt, u8_rt])⟩) rfl
theorem RoundTrip.bcPoptry : RoundTrip.Statement .bcPoptry := of_bytecode (fun _ => by exact ⟨rfl, rfl⟩) rfl
theorem RoundTrip.bcAwait : RoundTrip.Statement .bcAwait := of_bytecode (fun _ => by exact ⟨rfl, rfl⟩) rfl
theorem RoundTrip.bcNewobj (n : BitVec 8) : RoundTrip.Statement (.bcNewobj n) := of_bytecode (fun _ => by exact ⟨rfl, (show some (Instr.bcNewobj (BitVec.ofNat 8 n.toNat)) = some (Instr.bcNewobj n) by simp only [u16_rt, u8_rt])⟩) rfl
theorem RoundTrip.bcIsinst (n s : BitVec 16) : RoundTrip.Statement (.bcIsinst n s) := of_bytecode (fun _ => by exact ⟨rfl, (show some (Instr.bcIsinst (BitVec.ofNat 16 (n.toNat % 256 + 256 * (n.toNat / 256))) (BitVec.ofNat 16 (s.toNat % 256 + 256 * (s.toNat / 256)))) = some (Instr.bcIsinst n s) by simp only [u16_rt, u8_rt])⟩) rfl
theorem RoundTrip.bcMakefunc (k : BitVec 16) : RoundTrip.Statement (.bcMakefunc k) := of_bytecode (fun _ => by exact ⟨rfl, (show some (Instr.bcMakefunc (BitVec.ofNat 16 (k.toNat % 256 + 256 * (k.toNat / 256)))) = some (Instr.bcMakefunc k) by simp only [u16_rt, u8_rt])⟩) rfl
theorem RoundTrip.bcLoadclosure (i : BitVec 8) : RoundTrip.Statement (.bcLoadclosure i) := of_bytecode (fun _ => by exact ⟨rfl, (show some (Instr.bcLoadclosure (BitVec.ofNat 8 i.toNat)) = some (Instr.bcLoadclosure i) by simp only [u16_rt, u8_rt])⟩) rfl
theorem RoundTrip.selection : RoundTrip.Statement .selection := of_event rfl rfl
theorem RoundTrip.messageInject : RoundTrip.Statement .messageInject := of_event rfl rfl
theorem RoundTrip.messageArrival : RoundTrip.Statement .messageArrival := of_event rfl rfl
theorem RoundTrip.messageRefusalReply : RoundTrip.Statement .messageRefusalReply := of_event rfl rfl
theorem RoundTrip.messageRetry : RoundTrip.Statement .messageRetry := of_event rfl rfl
theorem RoundTrip.enqueueArrival : RoundTrip.Statement .enqueueArrival := of_event rfl rfl
theorem RoundTrip.enqueueLanding : RoundTrip.Statement .enqueueLanding := of_event rfl rfl
theorem RoundTrip.channelPacketArrival : RoundTrip.Statement .channelPacketArrival := of_event rfl rfl
theorem RoundTrip.cancelPacketArrival : RoundTrip.Statement .cancelPacketArrival := of_event rfl rfl
theorem RoundTrip.budgetExpiry : RoundTrip.Statement .budgetExpiry := of_event rfl rfl
theorem RoundTrip.boundaryTrap : RoundTrip.Statement .boundaryTrap := of_event rfl rfl
theorem RoundTrip.faultRecordWrite : RoundTrip.Statement .faultRecordWrite := of_event rfl rfl
theorem RoundTrip.codeStreamLanding : RoundTrip.Statement .codeStreamLanding := of_event rfl rfl
theorem RoundTrip.vectorCompletion : RoundTrip.Statement .vectorCompletion := of_event rfl rfl
theorem RoundTrip.fabricStorePerform : RoundTrip.Statement .fabricStorePerform := of_event rfl rfl
theorem RoundTrip.fabricLoadPerform : RoundTrip.Statement .fabricLoadPerform := of_event rfl rfl
theorem RoundTrip.storeAck : RoundTrip.Statement .storeAck := of_event rfl rfl
theorem RoundTrip.fldReturn : RoundTrip.Statement .fldReturn := of_event rfl rfl
theorem RoundTrip.fabricRetryReply : RoundTrip.Statement .fabricRetryReply := of_event rfl rfl
theorem RoundTrip.fabricRetry : RoundTrip.Statement .fabricRetry := of_event rfl rfl
theorem RoundTrip.atomicPerform : RoundTrip.Statement .atomicPerform := of_event rfl rfl
theorem RoundTrip.atomicReply : RoundTrip.Statement .atomicReply := of_event rfl rfl
theorem RoundTrip.kilnAccept : RoundTrip.Statement .kilnAccept := of_event rfl rfl
theorem RoundTrip.slipPhaseStart : RoundTrip.Statement .slipPhaseStart := of_event rfl rfl
theorem RoundTrip.kilnPhaseStart : RoundTrip.Statement .kilnPhaseStart := of_event rfl rfl
theorem RoundTrip.kilnRetire : RoundTrip.Statement .kilnRetire := of_event rfl rfl
theorem RoundTrip.issueWindow : RoundTrip.Statement .issueWindow := of_event rfl rfl
theorem RoundTrip.copyJobStart : RoundTrip.Statement .copyJobStart := of_event rfl rfl
theorem RoundTrip.chunkRequest : RoundTrip.Statement .chunkRequest := of_event rfl rfl
theorem RoundTrip.streamerRequest : RoundTrip.Statement .streamerRequest := of_event rfl rfl
theorem RoundTrip.beatLanding : RoundTrip.Statement .beatLanding := of_event rfl rfl
theorem RoundTrip.walkSlotStart : RoundTrip.Statement .walkSlotStart := of_event rfl rfl
theorem RoundTrip.walkEnd : RoundTrip.Statement .walkEnd := of_event rfl rfl
theorem RoundTrip.fbdestWrite : RoundTrip.Statement .fbdestWrite := of_event rfl rfl
theorem RoundTrip.gbarRelease : RoundTrip.Statement .gbarRelease := of_event rfl rfl
theorem RoundTrip.blockLanded : RoundTrip.Statement .blockLanded := of_event rfl rfl
theorem RoundTrip.peerFlitArrival : RoundTrip.Statement .peerFlitArrival := of_event rfl rfl
theorem RoundTrip.peerFlitRetry : RoundTrip.Statement .peerFlitRetry := of_event rfl rfl
theorem RoundTrip.linkRetrainEnd : RoundTrip.Statement .linkRetrainEnd := of_event rfl rfl
theorem RoundTrip.meshFlitRetry : RoundTrip.Statement .meshFlitRetry := of_event rfl rfl
theorem RoundTrip.placementRound : RoundTrip.Statement .placementRound := of_event rfl rfl
theorem RoundTrip.prologueStart : RoundTrip.Statement .prologueStart := of_event rfl rfl
theorem RoundTrip.kernelComplete : RoundTrip.Statement .kernelComplete := of_event rfl rfl
theorem RoundTrip.rringRetry : RoundTrip.Statement .rringRetry := of_event rfl rfl
theorem RoundTrip.saggarEvictionEnd : RoundTrip.Statement .saggarEvictionEnd := of_event rfl rfl
theorem RoundTrip.saggarRestoreStart : RoundTrip.Statement .saggarRestoreStart := of_event rfl rfl
theorem RoundTrip.saggarRestoreEnd : RoundTrip.Statement .saggarRestoreEnd := of_event rfl rfl
theorem RoundTrip.preemptRequestArrival : RoundTrip.Statement .preemptRequestArrival := of_event rfl rfl
theorem RoundTrip.evictionSave : RoundTrip.Statement .evictionSave := of_event rfl rfl
theorem RoundTrip.coreRestore : RoundTrip.Statement .coreRestore := of_event rfl rfl
theorem RoundTrip.plimExpiry : RoundTrip.Statement .plimExpiry := of_event rfl rfl
theorem RoundTrip.sliceExpiry : RoundTrip.Statement .sliceExpiry := of_event rfl rfl
theorem RoundTrip.contextDescWrite : RoundTrip.Statement .contextDescWrite := of_event rfl rfl
theorem RoundTrip.governorTick : RoundTrip.Statement .governorTick := of_event rfl rfl
theorem RoundTrip.pointChangeEnd : RoundTrip.Statement .pointChangeEnd := of_event rfl rfl
theorem RoundTrip.scrub : RoundTrip.Statement .scrub := of_event rfl rfl
theorem RoundTrip.pairLag : RoundTrip.Statement .pairLag := of_event rfl rfl
theorem RoundTrip.couplingCopy : RoundTrip.Statement .couplingCopy := of_event rfl rfl
theorem RoundTrip.couplingAbandon : RoundTrip.Statement .couplingAbandon := of_event rfl rfl
theorem RoundTrip.powerUp : RoundTrip.Statement .powerUp := of_event rfl rfl
theorem RoundTrip.fwgo : RoundTrip.Statement .fwgo := of_event rfl rfl
theorem RoundTrip.selfTestDone : RoundTrip.Statement .selfTestDone := of_event rfl rfl
theorem RoundTrip.attestRequest : RoundTrip.Statement .attestRequest := of_event rfl rfl
theorem RoundTrip.attestServe : RoundTrip.Statement .attestServe := of_event rfl rfl
theorem RoundTrip.msiVectorStore : RoundTrip.Statement .msiVectorStore := of_event rfl rfl
theorem RoundTrip.hostSnoop : RoundTrip.Statement .hostSnoop := of_event rfl rfl
theorem RoundTrip.noticeRead : RoundTrip.Statement .noticeRead := of_event rfl rfl
theorem RoundTrip.healthCountRead : RoundTrip.Statement .healthCountRead := of_event rfl rfl
theorem RoundTrip.swinRead : RoundTrip.Statement .swinRead := of_event rfl rfl
theorem RoundTrip.streamStart : RoundTrip.Statement .streamStart := of_event rfl rfl
theorem RoundTrip.tail : RoundTrip.Statement .tail := of_event rfl rfl
theorem RoundTrip.txBlockSent : RoundTrip.Statement .txBlockSent := of_event rfl rfl
theorem RoundTrip.expanderLinkDown : RoundTrip.Statement .expanderLinkDown := of_event rfl rfl
theorem RoundTrip.deckleRequest : RoundTrip.Statement .deckleRequest := of_event rfl rfl
theorem RoundTrip.deckleComplete : RoundTrip.Statement .deckleComplete := of_event rfl rfl
theorem RoundTrip.registerWrite : RoundTrip.Statement .registerWrite := of_event rfl rfl
theorem RoundTrip.unassignedOpcode : RoundTrip.Statement .unassignedOpcode := of_event rfl rfl
theorem RoundTrip.unassignedBytecode : RoundTrip.Statement .unassignedBytecode := of_event rfl rfl
theorem RoundTrip.lineCacheFill : RoundTrip.Statement .lineCacheFill := of_event rfl rfl
theorem RoundTrip.hostBarWrite : RoundTrip.Statement .hostBarWrite := of_event rfl rfl

end Sys2Proof.Laws
end

