-- ==== Sys2Proof/Laws/Registers.lean ====
section
/-!
SUPPORT. Laws of kiln results, translation registers, saggars, islands and words of the system window.
-/
namespace Sys2Proof.Machine

open Sys2Proof.Safety

theorem retire_pc (q : KReq) (k : Core) : (retireReq q false k).pc = k.pc + 20 := by
  unfold retireReq
  simp only [Bool.false_eq_true, if_false]
  split
  · rename_i h2; obtain ⟨_, _, _, _, e⟩ := readZ_keeps h2; subst e; rfl
  · rfl

theorem cells_row (g : Nat → Nat × Nat) (i : Nat) : ∀ (n : Nat) (r0 : Mem × Nat), n ≤ 64 → Memory.wf r0.1 = true →
   let r := (List.range n).foldl (fun (r : Mem × Nat) j => (memWrite r.1 (256 * i + 4 * j) 4 (g j).1, natOr r.2 (g j).2)) r0
   Memory.wf r.1 = true ∧ (∀ j, j < n → memRead r.1 (256 * i + 4 * j) 4 = (g j).1 % 2 ^ 32) ∧
   (∀ a, a + 4 ≤ 256 * i ∨ 256 * i + 4 * n ≤ a → memRead r.1 a 4 = memRead r0.1 a 4) := by
  intro n
  induction n with
  | zero => intro r0 _ h; exact ⟨h, nofun, fun _ _ => rfl⟩
  | succ n ih =>
    intro r0 hn h
    obtain ⟨w, e, f⟩ := ih r0 (by omega) h
    simp only [List.range_succ, List.foldl_append, List.foldl_cons, List.foldl_nil]
    refine ⟨memWrite_wf _ _ _ _ w, ?_, ?_⟩
    · intro j hj
      by_cases q : j = n
      · subst q; exact memRead_memWrite _ _ _ _ w
      · rw [memRead_memWrite_out _ _ _ _ _ _ w (by omega)]; exact e j (by omega)
    · intro a ha
      rw [memRead_memWrite_out _ _ _ _ _ _ w (by omega)]; exact f a (by omega)

theorem cells_all (g : Nat → Nat → Nat × Nat) (n : Nat) (hn : n ≤ 64) : ∀ (m : Nat) (r0 : Mem × Nat), Memory.wf r0.1 = true →
   let r := (List.range m).foldl (fun r i => (List.range n).foldl (fun (r : Mem × Nat) j => (memWrite r.1 (256 * i + 4 * j) 4 (g i j).1, natOr r.2 (g i j).2)) r) r0
   Memory.wf r.1 = true ∧ (∀ i j, i < m → j < n → memRead r.1 (256 * i + 4 * j) 4 = (g i j).1 % 2 ^ 32) := by
  intro m
  induction m with
  | zero => intro r0 h; exact ⟨h, nofun⟩
  | succ m ih =>
    intro r0 h
    obtain ⟨w, e⟩ := ih r0 h
    simp only [List.range_succ (n := m), List.foldl_append, List.foldl_cons, List.foldl_nil]
    obtain ⟨w2, e2, f2⟩ := cells_row (g m) m n _ hn w
    refine ⟨w2, ?_⟩
    intro i j hi hj
    by_cases q : i = m
    · subst q; exact e2 j hj
    · rw [f2 _ (by omega)]; exact e i j (by omega) hj

theorem zip_range (n : Nat) (f g : Nat → Val) : ((List.range n).map f).zip ((List.range n).map g) = (List.range n).map (fun t => (f t, g t)) := by
  rw [List.zip_map', ]

theorem fold_parts {α : Type} (key : α → CoreId) (f : α → Core → Core) : ∀ (l : List α) (s : State), (l.map (fun p => pid (key p))).Nodup →
   (∀ x ∈ l, (l.foldl (fun s x => s.modCore (key x) (f x)) s).core (key x) = f x (s.core (key x))) ∧
   (∀ y, (∀ x ∈ l, pid (key x) ≠ pid y) → (l.foldl (fun s x => s.modCore (key x) (f x)) s).core y = s.core y) ∧
   (∀ r, (l.foldl (fun s x => s.modCore (key x) (f x)) s).row r = s.row r) := by
  intro l
  induction l with
  | nil => intro s _; exact ⟨by simp, fun _ _ => rfl, fun _ => rfl⟩
  | cons a l ih =>
    intro s h
    simp only [List.map_cons, List.nodup_cons, List.mem_map, not_exists, not_and] at h
    obtain ⟨i1, i2, i3⟩ := ih (s.modCore (key a) (f a)) h.2
    simp only [List.foldl_cons]
    refine ⟨?_, ?_, ?_⟩
    · intro x hx
      rcases List.mem_cons.1 hx with rfl | hx
      · rw [i2 _ (fun y hy => h.1 y hy), modCore_eq, core_setCore]
      · rw [i1 x hx, modCore_eq, core_setCore_ne _ _ (fun e => h.1 x hx e)]
    · intro y hy
      rw [i2 y (fun x hx => hy x (List.mem_cons_of_mem _ hx)), modCore_eq, core_setCore_ne _ _ (fun e => hy a (by simp) e.symm)]
    · intro r; rw [i3]; rfl

theorem dom_setDom (s : State) (n : Nat) (x : Domain) : ∀ c k, ((s.setCore c k).dom n) = s.dom n := fun _ _ => rfl

theorem tb (v : Nat) : (toBytes 8 v).length = 8 := by simp [toBytes]

theorem handle_ok {s : State} {c : CoreId} {v slot : Nat} (h : v = slot * 2 ^ 32 + (sagOf s slot).inc) (h1 : slot < 2 ^ 13) (h2 : (sagOf s slot).inc < 2 ^ 32)
   (ha : (s.core c).att.any (fun u => u.slot == slot && u.inc == (sagOf s slot).inc) = true) : handleCheck s c v = .ok slot := by
  have e1 : v / 2 ^ 45 = 0 := Nat.div_eq_of_lt (by rw [h]; omega)
  have e2 : v / 2 ^ 32 = slot := by rw [h]; omega
  have e3 : v % 2 ^ 32 = (sagOf s slot).inc := by rw [h]; omega
  have k1 : (v / 2 ^ 45 == 0) = true := by rw [e1]; rfl
  have k2 : ((sagOf s slot).inc == v % 2 ^ 32) = true := by rw [e3]; simp
  simp only [handleCheck, needD_true k1, e2, needD_true k2, needD_true ha, bind, Except.bind]

theorem handle_stale {s : State} {c : CoreId} {v slot : Nat} (e1 : v / 2 ^ 45 = 0) (e2 : v / 2 ^ 32 = slot) (e3 : v % 2 ^ 32 ≠ (sagOf s slot).inc) :
   handleCheck s c v = .error (.trap { cause := .attach, sub := 4, addr := (sagOf s slot).name }) := by
  have k1 : (v / 2 ^ 45 == 0) = true := by rw [e1]; rfl
  have k2 : ((sagOf s slot).inc == v % 2 ^ 32) = false := by simpa using fun h => e3 h.symm
  simp only [handleCheck, needD_true k1, e2, needD_false k2, bind, Except.bind]

theorem handle_other {s : State} {c : CoreId} {v slot : Nat} (h : v = slot * 2 ^ 32 + (sagOf s slot).inc) (h1 : slot < 2 ^ 13) (h2 : (sagOf s slot).inc < 2 ^ 32)
   (ha : ¬ (s.core c).att.any (fun u => u.slot == slot && u.inc == (sagOf s slot).inc) = true) :
   handleCheck s c v = .error (.trap { cause := .attach, sub := 5, addr := (sagOf s slot).name }) := by
  have e1 : v / 2 ^ 45 = 0 := Nat.div_eq_of_lt (by rw [h]; omega)
  have e2 : v / 2 ^ 32 = slot := by rw [h]; omega
  have e3 : v % 2 ^ 32 = (sagOf s slot).inc := by rw [h]; omega
  have k1 : (v / 2 ^ 45 == 0) = true := by rw [e1]; rfl
  have k2 : ((sagOf s slot).inc == v % 2 ^ 32) = true := by rw [e3]; simp
  simp only [handleCheck, needD_true k1, e2, needD_true k2, needD_false (Bool.eq_false_iff.2 ha), bind, Except.bind]

theorem sags_loseSag (s : State) (i : Nat) : (loseSag s i) = { s with saggars := ainsert i (if (sagOf s i).att = 0 then { inc := (sagOf s i).inc } else { sagOf s i with st := 4, rest := false, copying := false }) s.saggars } := rfl

theorem freeCores_core (s : State) (c : CoreId) : 
   ((freeCores s [c] (fun _ => true)).core c).life = .free ∧ ((freeCores s [c] (fun _ => true)).core c).ls = [] ∧ ((freeCores s [c] (fun _ => true)).core c).acc = [] ∧ (freeCores s [c] (fun _ => true)).saves = s.saves := by
  have hrow : ∀ (l : List Nat) (x : State), (l.foldl releaseRow x).cores = x.cores ∧ (l.foldl releaseRow x).saves = x.saves := by
    intro l; induction l with
    | nil => intro x; exact ⟨rfl, rfl⟩
    | cons a l ih => intro x; exact ⟨(ih _).1, (ih _).2⟩
  have hs : ∀ (l : List Msg) (x : State), (l.foldl ackEnqueue x).saves = x.saves := by
    intro l; induction l with
    | nil => intro x; rfl
    | cons m l ih =>
      intro x; rw [List.foldl_cons, ih]
      unfold ackEnqueue lowerCtm
      repeat' split
      all_goals rfl
  have hm : (mirrorChecker s c).saves = s.saves := by unfold mirrorChecker; simp only []; split <;> rfl
  have e : (freeCore (mirrorChecker s c) c true).core c =
      { cls := ((mirrorChecker s c).core c).cls, tlb := ((mirrorChecker s c).core c).tlb, lines := ((mirrorChecker s c).core c).lines } := by
    show (State.setCore _ c _).core c = _
    rw [core_setCore]; rfl
  have e2 : (freeCore (mirrorChecker s c) c true).saves = s.saves := (hs _ _).trans hm
  have e3 : ∀ x : State, (freeCores s [c] (fun _ => true)).cores = x.cores →
      (freeCores s [c] (fun _ => true)).core c = x.core c := by intro x h; unfold State.core; rw [h]
  have e4 := e3 (freeCore (mirrorChecker s c) c true) (hrow _ _).1
  rw [e4, e]
  exact ⟨rfl, rfl, rfl, (hrow _ _).2.trans e2⟩

theorem serveLeave_none {n : Nat} : ∀ (fuel : Nat) {s : State}, (nth s.islands n {}).waits = [] → serveLeave n fuel s = s
  | 0, _, _ => rfl
  | fuel + 1, s, h => by unfold serveLeave; simp only []; rw [h]

theorem sysWrite_word {s : State} {ctx off v : Nat} (h1 : sysCore off = none) (h2 : off % 8 = 0) (h3 : v < 2 ^ 64) :
   sysWrite s ctx off (toBytes 8 v) = sysPutWord s ctx off v := by
  have e : ofBytes (toBytes 8 v) = v := by
    have := ofBytes_toBytes 8 v
    rw [this, Nat.mod_eq_of_lt (by simpa using h3)]
  have l8 : (toBytes 8 v).length = 8 := toBytes_length 8 v
  have ne : (toBytes 8 v).isEmpty = false := by cases hh : toBytes 8 v with
    | nil => rw [hh] at l8; simp at l8
    | cons a l => rfl
  have tk : (toBytes 8 v).take 8 = toBytes 8 v := List.take_of_length_le (by omega)
  have dr : ∀ x, (toBytes 8 x).drop 8 = [] := fun x => List.drop_eq_nil_of_le (by rw [toBytes_length] <;> omega)
  unfold sysWrite
  rw [h1]
  simp only [l8]
  show sysWriteWords s ctx 3 off (toBytes 8 v) = _
  unfold sysWriteWords
  rw [ne, h2, l8]
  simp only [Bool.false_eq_true, if_false, Nat.sub_zero, Nat.min_self]
  rw [tk, dr]
  unfold sysWriteWords
  simp only [List.isEmpty_nil, if_true]
  unfold patchWord
  rw [List.take_zero, List.nil_append, l8, dr, List.append_nil, e]

theorem swin_index (j : Nat) : (0xAB00110 + 0x20 * j - 0xAB00100) / 0x20 = j := by omega

theorem power_index (j : Nat) : (0xAB00110 + 0x20 * j - 0xAB00000 - 0x100) / 0x20 = j := by omega

theorem power_word (j : Nat) : (0xAB00110 + 0x20 * j - 0xAB00000 - 0x100) % 0x20 = 0x10 := by omega

end Sys2Proof.Machine
end

