-- ==== Sys2Proof/Laws/Transfers.lean ====
section
/-!
SUPPORT. Laws of control transfers, traps, firings and system registers.
-/
namespace Sys2Proof.Machine

open Sys2Proof.Safety

theorem issued_pc (i : Instr) (n : Nat) (s : State) : (issued i n s).pc = (s.core s.cur).pc + 4 * (encode i).length := by simp [issued]

theorem btarget (i : Instr) (n : Nat) (s : State) (off : BitVec 20) (h : (encode i).length = 1) :
  branchTarget (issued i n s) off = ((((s.core s.cur).pc : Int) + 4 * off.toInt) % 2 ^ 32).toNat := by
  unfold branchTarget toPattern
  rw [issued_pc, h]
  congr 2
  push_cast
  omega

theorem goTo_ok {c : CoreId} {s : State} {t : Nat} (h : checkTarget s c t = .ok ()) : goTo c s t = .ok (s.setCore c { s.core c with pc := t }) := by
  simp [goTo, h, modCore_eq]

theorem local_issued_core {i n s} : ∀ o x, localByte { issued i n s with pc := x } o = localByte (s.core s.cur) o := by
  intro o x
  simp [issued, localByte, countsWord]

theorem localBytes_congr {c k : Core} (h : ∀ o, localByte c o = localByte k o) (n : Nat) : ∀ a, localBytes c a n = localBytes k a n := by
  induction n with
  | zero => intro a; rfl
  | succ n ih => intro a; simp [localBytes, h, ih]

theorem ofBytes_lt : ∀ l : List Byte, ofBytes l < 256 ^ l.length
  | [] => Nat.one_pos
  | b :: bs => by
    have h := ofBytes_lt bs
    have hb := b.isLt
    simp only [ofBytes, List.length_cons, Nat.pow_succ]
    omega

theorem localBytes_length (c : Core) (a : Nat) : ∀ n, (localBytes c a n).length = n := by
  intro n
  induction n generalizing a with
  | zero => rfl
  | succ n ih => simp [localBytes, ih]

/-- A word of local store is below 2^64. -/
theorem readLocal_lt (c : Core) (a : Nat) : readLocal c a 8 < 2 ^ 64 := by
  have h := ofBytes_lt (localBytes c a 8)
  rw [localBytes_length] at h
  exact h

theorem readLocal_at (i : Instr) (n x : Nat) (s : State) (a m : Nat) : readLocal { issued i n s with pc := x } a m = readLocal (s.core s.cur) a m := by
  unfold readLocal; rw [localBytes_congr (fun o => local_issued_core o x)]

theorem issued_eta (i : Instr) (n : Nat) (s : State) : issued i n s = { issued i n s with pc := (s.core s.cur).pc + 4 * (encode i).length } := by
  rw [← issued_pc]

theorem pend_at (i : Instr) (n x : Nat) (s : State) (a m : Nat) : pendingAt { issued i n s with pc := x } a m = pendingAt (s.core s.cur) a m := by
  simp [pendingAt, issued]

theorem held_at (i : Instr) (n x : Nat) (s : State) (a m : Nat) : heldAt { issued i n s with pc := x } a m = heldAt (s.core s.cur) a m := by
  simp [heldAt, issued]

theorem store_eff (k : Core) (wp o v : Nat) (h : k.wp = wp) (ho : o % 8 = 0) : LocalEffect k (writeLocal k (wp + o) 8 v) (wordBytes k o) := by
  subst h; exact effect_setWsWord k o v ho

theorem callTo_ok {c : CoreId} {s s1 : State} {off : BitVec 20} {k1 : Core} (h1 : goTo c s (branchTarget (s.core c) off) = .ok s1)
  (h2 : storeAt (s1.core c) ((s.core c).wp + 248) (toBytes 8 (s.core c).pc) = .ok k1) : callTo off c s = .ok (s1.setCore c k1) := by
  simp [callTo, bind, Except.bind, h1, h2, ofCore]

theorem loopTo_done {c : CoreId} {s : State} {n : Fin 16} {off : BitVec 20} {k1 : Core} {x : Nat} (h0 : loadAt (s.core c) ((s.core c).wp + 8 * n.val) 8 = .ok x)
  (hx : x = 1)
  (h2 : storeAt (s.core c) ((s.core c).wp + 8 * n.val) (toBytes 8 0) = .ok k1) : loopTo n off c s = .ok (s.setCore c k1) := by
  subst hx
  simp [loopTo, bind, Except.bind, h0, h2, ofCore]

theorem loopTo_go {c : CoreId} {s s1 : State} {n : Fin 16} {off : BitVec 20} {k1 : Core} {x v : Nat} (h0 : loadAt (s.core c) ((s.core c).wp + 8 * n.val) 8 = .ok x)
  (hx : (x + 2 ^ 64 - 1) % 2 ^ 64 = v) (hv : v ≠ 0) (h1 : goTo c s (branchTarget (s.core c) off) = .ok s1)
  (h2 : storeAt (s1.core c) ((s.core c).wp + 8 * n.val) (toBytes 8 v) = .ok k1) : loopTo n off c s = .ok (s1.setCore c k1) := by
  simp only [loopTo, bind, Except.bind, h0, ofCore, hx]
  rw [if_neg hv, h1]; simp [h2]

theorem srw_ok {n : BitVec 7} {b : Spec} {s : State} {v : Nat} {k : Core} (h : readsA (.srw n b) 1 s b v k) {t : State}
  (hf : (if n.toNat = 0x03 ∨ n.toNat = 0x04 then (do
      needD ((s.setCore s.cur k).core s.cur).sup .priv 2
      .ok ((s.setCore s.cur k).modCore s.cur (fun k => if n.toNat = 0x03 then { k with tcfg := v } else { k with tent := v })) : Dev State)
    else match bcRegAlign n.toNat with
    | some al => do
      needD (s.cur.cls == .control) .priv 2
      let w := v % 2 ^ 17
      needD (w % al == 0) .align 0 w
      .ok ((s.setCore s.cur k).modCore s.cur (fun k =>
        if n.toNat = 0x20 then { k with bhtab := w } else if n.toNat = 0x21 then { k with ltab := w }
        else if n.toNat = 0x22 then { k with bscr := w } else { k with rring := w }))
    | none => trapD .priv 2) = .ok t) : exec (.srw n b) s = .next t := by
  refine nativeOp_ok (cost := fun _ => 1) h.1 ?_
  simp only [srwOp, srcZ_issued h.2, bind, Except.bind]
  exact hf

theorem srw_trap {n : BitVec 7} {b : Spec} {s : State} {v : Nat} {k : Core} (h : readsA (.srw n b) 1 s b v k) {t : Trap}
  (hf : (if n.toNat = 0x03 ∨ n.toNat = 0x04 then (do
      needD ((s.setCore s.cur k).core s.cur).sup .priv 2
      .ok ((s.setCore s.cur k).modCore s.cur (fun k => if n.toNat = 0x03 then { k with tcfg := v } else { k with tent := v })) : Dev State)
    else match bcRegAlign n.toNat with
    | some al => do
      needD (s.cur.cls == .control) .priv 2
      let w := v % 2 ^ 17
      needD (w % al == 0) .align 0 w
      .ok ((s.setCore s.cur k).modCore s.cur (fun k =>
        if n.toNat = 0x20 then { k with bhtab := w } else if n.toNat = 0x21 then { k with ltab := w }
        else if n.toNat = 0x22 then { k with bscr := w } else { k with rring := w }))
    | none => trapD .priv 2) = .error (.trap t)) : traps (.srw n b) s t := by
  refine nativeOp_trap (cost := fun _ => 1) h.1 ?_
  simp only [srwOp, srcZ_issued h.2, bind, Except.bind]
  exact hf

theorem fr_len (s : State) (c : CoreId) (t : Trap) (fl : RecFlags) (i e q : Nat) : (faultRecord s c t fl i e q).length = 8 := by
  unfold faultRecord; simp only; split <;> rfl

theorem trapHandler_of {s0 : State} {c : CoreId} {t : Trap} {isLocal : Bool} {k : Core} (hk : s0.core c = k) (h1 : k.tframe = none)
    (h2 : isLocal = true ∧ ((t.cause = .attach ∨ t.cause = .ttb) ∧ bitAt k.tcfg 15 = true ∧ k.lframe = none ∧
        handlerUsable s0 c k (field k.tent 63 32) = true) ∨
      isLocal = false ∧ ¬ ((t.cause = .attach ∨ t.cause = .ttb) ∧ bitAt k.tcfg 15 = true ∧ k.lframe = none ∧
        handlerUsable s0 c k (field k.tent 63 32) = true) ∧ handlerUsable s0 c k (field k.tent 31 0) = true) :
    trapHandler s0 c t = some isLocal := by
  subst hk
  rcases h2 with ⟨rfl, h3, h4, h5, h6⟩ | ⟨rfl, h3, h4⟩
  · unfold trapHandler
    have e : ((t.cause == Cause.attach || t.cause == Cause.ttb) && bitAt (s0.core c).tcfg 15 && (s0.core c).lframe.isNone
        && handlerUsable s0 c (s0.core c) (field (s0.core c).tent 63 32)) = true := by simp [h3, h4, h5, h6]
    simp only [h1, Option.isSome_none, Bool.false_eq_true, if_false, e, if_true]
  · unfold trapHandler
    have e : ((t.cause == Cause.attach || t.cause == Cause.ttb) && bitAt (s0.core c).tcfg 15 && (s0.core c).lframe.isNone
        && handlerUsable s0 c (s0.core c) (field (s0.core c).tent 63 32)) = false := by
      rw [Bool.eq_false_iff]; intro h; apply h3
      simp only [Bool.and_eq_true, Bool.or_eq_true, beq_iff_eq, Option.isNone_iff_eq_none] at h
      exact ⟨h.1.1.1, h.1.1.2, h.1.2, h.2⟩
    simp only [h1, Option.isSome_none, Bool.false_eq_true, if_false, e, h4, if_true]

/-- A trap that a handler takes enters it (R267). -/
theorem takeTrap_enter {s : State} {c : CoreId} {t : Trap} {insn ext len : Nat} {b isLocal : Bool} {s0 : State}
    (h0 : surfaceJob (clearWaits (gangTrap s c t insn b) c) c t = s0) {k : Core} (hk : s0.core c = k) {words : List Nat}
    (hw : faultRecord s0 c t { idle := k.run == .idle, isLocal := k.lframe.isSome }
      (if k.run == .idle && !k.inHandler then 0 else insn) ext (recordSeq s0 k.ctx) = words)
    (h0' : trapHeld s c t = false) (h1 : k.tframe = none) (ht : trapHandler s0 c t = some isLocal) :
    takeTrap s c t insn ext len b = enterHandler (if isLocal then s0 else queueRecord s0 k.ctx words) c isLocal
      { wp := k.wp, pc := k.pc, budget := k.budget, len := len, bc := k.bcMode, trap := t, boundary := b, idle := k.run == .idle,
        insn := (if k.run == .idle && !k.inHandler then 0 else insn), ext := ext, obj := (pcPlace s0 c k).1,
        off := (pcPlace s0 c k).2, stamp := s0.cycle } words := by
  subst hk
  unfold takeTrap enterTrap
  simp only [h0', Bool.false_eq_true, if_false]
  cases isLocal <;> simp only [h0, ht, h1, Option.isNone_none, Bool.and_true, hw, Bool.false_eq_true, if_false, if_true]

theorem low_rd (k : Core) (wp : Nat) (bs : List Byte) (hk : k.wp = wp) (hw : localWf k) (n i : Nat) (hb : bs.length = 72) (hi : 8 * i + 184 = 8 * n) (hi2 : i < 9) :
   wReg (putLocal k (k.wp + 8 * 23) bs) n = ofBytes ((bs.drop (8 * i)).take 8) := by
  unfold wReg
  rw [putLocal_wp, readLocal_low _ _ _ (by simp) (by simp; omega), putLocal_low _ _ _ (by omega)]
  simp only [memRead]
  rw [show k.wp + 8 * n = (k.wp + 8 * 23) + 8 * i by omega, memBytes_memPut_part _ _ _ _ _ hw.1 (by omega)]

theorem lb_frame (q : Core) (p hb : Nat) (lf tf : Option Frame) (x : Nat) :
  localByte { q with pc := p, bcMode := false, vpend := false, lframe := lf, tframe := tf, hbudget := hb } x = localByte q x := rfl

theorem wr_frame (q : Core) (p hb : Nat) (lf tf : Option Frame) (n : Nat) :
  wReg { q with pc := p, bcMode := false, vpend := false, lframe := lf, tframe := tf, hbudget := hb } n = wReg q n := by
  unfold wReg readLocal
  have : ∀ n a, localBytes { q with pc := p, bcMode := false, vpend := false, lframe := lf, tframe := tf, hbudget := hb } a n = localBytes q a n := by
    intro n; induction n with
    | zero => intro a; rfl
    | succ n ih => intro a; simp only [localBytes, ih]; rfl
  rw [this]

/-- What each step of a fold keeps, the fold keeps. -/
theorem foldl_keeps {α β : Type} {f : State → α → State} (g : State → β) (h : ∀ s a, g (f s a) = g s) :
    ∀ (l : List α) (s : State), g (l.foldl f s) = g s
  | [], _ => rfl
  | a :: l, s => (foldl_keeps g h l (f s a)).trans (h s a)

theorem discardLanding_frecs (s : State) (c : CoreId) (p : Msg → Bool) : (discardLanding s c p).frecs = s.frecs := by
  refine foldl_keeps State.frecs (fun t m => ?_) _ _
  unfold ackEnqueue lowerCtm
  repeat' split
  all_goals rfl

/-- With no waiting enqueue to discard, nothing changes. -/
theorem discardLanding_none {s : State} {c : CoreId} {p : Msg → Bool} (h : ∀ m ∈ (s.core c).landing, p m = false) :
    discardLanding s c p = s.setCore c (s.core c) := by
  have e : (s.core c).landing.filter p = [] := List.filter_eq_nil_iff.2 (fun m hm => by simp [h m hm])
  have e2 : (s.core c).landing.filter (fun m => !p m) = (s.core c).landing := List.filter_eq_self.2 (fun m hm => by simp [h m hm])
  simp only [discardLanding, e, List.foldl_nil, modCore_eq, e2]

theorem uncouple_frecs (s : State) (c : CoreId) : (uncouple s c).frecs = s.frecs := by
  show (discardLanding s _ _).frecs = _
  exact discardLanding_frecs _ _ _

theorem writeTier_frecs (s : State) (t a : Nat) (bs : List Byte) : (writeTier s t a bs).frecs = s.frecs := by
  unfold writeTier State.setTier
  simp only []
  split <;> rfl

theorem svcWrite_frecs (ctx : Nat) (bs : List Byte) : ∀ (s s' : State) (va : Nat), svcWrite s ctx va bs = some s' →
    s'.frecs = s.frecs := by
  induction bs with
  | nil => intro s s' va h; injection h with h; rw [h]
  | cons b bs ih =>
    intro s s' va h
    unfold svcWrite at h
    split at h
    · obtain ⟨p, _, rfl⟩ := Option.map_eq_some_iff.1 h
      exact writeTier_frecs _ _ _ _
    · obtain ⟨p, _, h⟩ := Option.bind_eq_some_iff.1 h
      obtain ⟨s1, h1, h⟩ := Option.bind_eq_some_iff.1 h
      injection h with h
      rw [← h, writeTier_frecs, ih _ _ _ h1]

theorem svcPut_frecs (s : State) (ctx va v : Nat) : ((svcPutWord s ctx va v).getD s).frecs = s.frecs := by
  cases h : svcPutWord s ctx va v with
  | none => rfl
  | some t => exact svcWrite_frecs _ _ _ _ _ h

theorem setPageWord_frecs (s : State) (q i v : Nat) : (setPageWord s q i v).frecs = s.frecs := by
  unfold setPageWord
  split
  · rfl
  · exact svcPut_frecs _ _ _ _

theorem rollbackLaunch_frecs (s : State) (x n : Nat) : (rollbackLaunch s x n).frecs = s.frecs := by
  have hp : ∀ (t : State) (q i : Nat), (returnPage t q i).frecs = t.frecs := by
    intro t q i
    have h : ∀ w, (poolPush t (seqCtx t q) w).frecs = t.frecs := fun w =>
      (svcPut_frecs _ _ _ _).trans (svcPut_frecs _ _ _ _)
    exact (setPageWord_frecs _ _ _ _).trans (h _)
  have hr : ∀ (t : State) (q : Nat), (rollback t q).frecs = t.frecs := by
    intro t q
    unfold rollback
    simp only []
    refine (foldl_keeps (f := fun s i => setPageWord s q i (setField (pageWord s q i) 62 62 0)) State.frecs (fun _ _ => setPageWord_frecs _ _ _ _) _ _).trans ?_
    exact foldl_keeps (f := fun s i => returnPage s q i) State.frecs (fun t i => hp t q i) _ _
  unfold rollbackLaunch
  split
  · rfl
  · exact foldl_keeps State.frecs hr _ _

theorem beginEviction_frecs (s : State) (c : CoreId) : (beginEviction s c).frecs = s.frecs := by
  have h : (bumpSgen s (s.core c).ctx).frecs = s.frecs := by unfold bumpSgen; split <;> rfl
  exact (rollbackLaunch_frecs _ _ _).trans h

theorem takeIfIdle_frecs (s : State) (c : CoreId) : (takeIfIdle s c).frecs = s.frecs := by
  unfold takeIfIdle
  simp only []
  split
  · exact beginEviction_frecs _ _
  · rfl

theorem closeFiring_frecs (s : State) (c : CoreId) (m : CloseMode) : (closeFiring s c m).frecs = s.frecs := by
  unfold closeFiring
  simp only []
  have h0 : ∀ k p, (withdrawLeave (discardLanding (s.setCore c k) c p) c).frecs = s.frecs := fun k p =>
    discardLanding_frecs (s.setCore c k) c p
  repeat' split
  all_goals simp only [takeIfIdle_frecs, beginEviction_frecs, uncouple_frecs, h0]

theorem withdrawParked_frecs (s : State) (c : CoreId) : (withdrawParked s c).frecs = s.frecs := by
  unfold withdrawParked
  simp only
  generalize (s.jobs.filter _) = l
  induction l generalizing s with
  | nil => rfl
  | cons j l ih => rw [List.foldl_cons, ih]; rfl

theorem killLaunch_frecs (s : State) (x n : Nat) : (killLaunch s x n).frecs = s.frecs := rfl

theorem killLaunch_core (s : State) (x n : Nat) (c : CoreId) : (killLaunch s x n).core c = s.core c := rfl

theorem endContext_frecs (s : State) (c : CoreId) : (endContext s c).frecs = s.frecs := by
  unfold endContext
  simp only
  have h : ∀ t : State, (clearWaits t c).frecs = t.frecs := fun _ => rfl
  refine (killLaunch_frecs _ _ _).trans ((withdrawParked_frecs _ _).trans ((h _).trans ?_))
  exact closeFiring_frecs (s.modCore c _) c .abort

theorem endContext_core (s : State) (c : CoreId) : ((endContext s c).core c).life = .ending ∧ ((endContext s c).core c).bpend = [] := by
  have h : ∀ (t : State) (x n : Nat), let k := (killLaunch (t.modCore c (fun k => { k with life := .ending, bpend := [] })) x n).core c
      k.life = .ending ∧ k.bpend = [] := by
    intro t x n
    simp only [killLaunch_core, modCore_eq, core_setCore, and_self]
  unfold endContext
  simp only []
  generalize withdrawParked _ c = t
  exact h t _ _

theorem nth_bind (l : List Chan) (h : ∀ x ∈ l, x.bind ≠ 2) (n : Nat) : (nth l n {}).bind ≠ 2 := by
  unfold nth
  by_cases hn : n < l.length
  · simp only [List.getD, List.getElem?_eq_getElem hn, Option.getD_some]; exact h _ (List.getElem_mem hn)
  · simp only [List.getD, List.getElem?_eq_none (Nat.le_of_not_lt hn), Option.getD_none]; decide

theorem applyBindings_none (k : Core) (h : ∀ x ∈ k.chans, x.bind ≠ 2) : applyBindings k = k := by
  unfold applyBindings
  have hg : (List.range 32).filter (fun n => let e := nth k.chans n {}; e.bind == 2 && e.pend.rate == 0) = [] := by
    apply List.filter_eq_nil_iff.2
    intro n _
    have := nth_bind _ h n
    simp [this]
  have hm : k.chans.map (fun e => if e.bind = 2 then
        (if e.pend.rate = 0 then { ready := e.ready, hold := e.hold, mask := e.mask }
         else { e with ctl := e.pend, pend := {}, bind := 1 })
      else e) = k.chans := by
    rw [List.map_congr_left (g := id)]
    · simp
    · intro x hx; simp [h x hx]
  have hu : unboundNow k = [] := hg
  have hf : List.filter (fun h : Nat × Hdr => !([] : List Nat).contains h.1) k.hdrs = k.hdrs := List.filter_eq_self.2 (by simp)
  simp only [hu, hm, hf]

theorem advance_bind (e : Chan) (n : Nat) : (e.advance n).bind = e.bind := by unfold Chan.advance; split <;> rfl

theorem setAt_mem {α : Type} (l : List α) (n : Nat) (v x : α) (h : x ∈ setAt l n v) : x ∈ l ∨ x = v := by
  unfold setAt at h
  exact List.mem_or_eq_of_mem_set h

theorem findSome_prio (k : Core) (order : List Nat) (ch : Nat) (h : [3, 2, 1, 0].findSome? (fun p => order.find? (fun n => let e := nth k.chans n {}; e.runnable && e.ctl.prio == p)) = some ch) :
  ∃ p, p ≤ 3 ∧ order.find? (fun n => let e := nth k.chans n {}; e.runnable && e.ctl.prio == p) = some ch ∧ ∀ q, q ≤ 3 → p < q → order.find? (fun n => let e := nth k.chans n {}; e.runnable && e.ctl.prio == q) = none := by
  simp only [List.findSome?] at h
  split at h
  · rename_i x hx; exact ⟨3, by omega, by rw [hx]; exact h, by omega⟩
  · rename_i h3
    split at h
    · rename_i x hx; exact ⟨2, by omega, by rw [hx]; exact h, fun q hq hq2 => by rw [show q = 3 by omega]; exact h3⟩
    · rename_i h2
      split at h
      · rename_i x hx; exact ⟨1, by omega, by rw [hx]; exact h, fun q hq hq2 => (show q = 2 ∨ q = 3 by omega).elim (fun e => e ▸ h2) (fun e => e ▸ h3)⟩
      · rename_i h1
        split at h
        · rename_i x hx; exact ⟨0, by omega, by rw [hx]; exact h, fun q hq hq2 => (show q = 1 ∨ q = 2 ∨ q = 3 by omega).elim (fun e => e ▸ h1) (fun e => e.elim (fun e => e ▸ h2) (fun e => e ▸ h3))⟩
        · simp at h

theorem find_split {α : Type} (p : α → Bool) : ∀ (l : List α) (x : α), l.find? p = some x → ∃ i : Nat, l[i]? = some x ∧ ∀ j : Nat, j < i → ∀ y, l[j]? = some y → p y = false := by
  intro l; induction l with
  | nil => intro x h; simp at h
  | cons a l ih =>
    intro x h
    by_cases ha : p a = true
    · simp [ha] at h; exact ⟨0, by simp [h], by omega⟩
    · simp only [Bool.not_eq_true] at ha
      simp [ha] at h
      obtain ⟨i, h1, h2⟩ := ih x h
      refine ⟨i + 1, by simpa using h1, ?_⟩
      intro j hj y hy
      cases j with
      | zero => simp at hy; rw [← hy]; exact ha
      | succ j => exact h2 j (by omega) y (by simpa using hy)

theorem wf4 (m : Mem) (h : Memory.wf m = true) (a1 a2 a3 a4 v1 v2 v3 v4 : Nat) : Memory.wf (memWrite (memWrite (memWrite (memWrite m a1 8 v1) a2 8 v2) a3 8 v3) a4 8 v4) = true := 
  memWrite_wf _ a4 8 v4 (memWrite_wf _ a3 8 v3 (memWrite_wf _ a2 8 v2 (memWrite_wf _ a1 8 v1 h)))

theorem window_shape (k : Core) (h p d : Nat) : ∃ ls, writeWindow k h p d = { k with ls := ls } ∧ (localWf k → Memory.wf ls = true) := by
  refine ⟨_, rfl, fun hk => ?_⟩
  exact wf4 k.ls hk.1 _ _ _ _ _ _ _ _

theorem five (m : Mem) (w a b c t : Nat) (h : Memory.wf m = true) :
  memRead (memWrite (memWrite (memWrite (memWrite (memWrite m (w + 0x390) 8 0) (w + 0x388) 8 a) (w + 0x3A0) 8 b) (w + 0x3A8) 8 c) (w + 0x3B0) 8 t) (w + 0x390) 8 = 0 ∧
  memRead (memWrite (memWrite (memWrite (memWrite (memWrite m (w + 0x390) 8 0) (w + 0x388) 8 a) (w + 0x3A0) 8 b) (w + 0x3A8) 8 c) (w + 0x3B0) 8 t) (w + 0x3A8) 8 = c % 2 ^ 64 := by
  have w1 := memWrite_wf m (w + 0x390) 8 0 h
  have w2 := memWrite_wf _ (w + 0x388) 8 a w1
  have w3 := memWrite_wf _ (w + 0x3A0) 8 b w2
  have w4 := memWrite_wf _ (w + 0x3A8) 8 c w3
  constructor
  · rw [memRead_memWrite_out _ _ _ _ _ _ w4 (by omega), memRead_memWrite_out _ _ _ _ _ _ w3 (by omega), memRead_memWrite_out _ _ _ _ _ _ w2 (by omega), memRead_memWrite_out _ _ _ _ _ _ w1 (by omega), memRead_memWrite _ _ _ _ h]
    all_goals rfl
  · rw [memRead_memWrite_out _ _ _ _ _ _ w4 (by omega), memRead_memWrite _ _ _ _ w3]

theorem startWords_facts (k : Core) (t : Nat) (hw : localWf k) : stickyWord (startWords k t) = 0 ∧ drawIndex (startWords k t) = 0 ∧ (startWords k t).sh = k.sh ∧ (startWords k t).wp = k.wp := by
  refine ⟨?_, ?_, by simp only [startWords], by simp only [startWords]⟩
  · apply stickyWord_zero
    simp only [startWords]
    exact (five k.ls k.wp _ _ _ _ hw.1).1
  · unfold drawIndex; rw [wsWord_ls _ _ (by decide)]
    simp only [startWords]
    exact (five k.ls k.wp _ _ _ _ hw.1).2

theorem sticky_frame (q : Core) (b p : Nat) : stickyWord { q with budget := b, pc := p } = stickyWord q := by
  unfold stickyWord wsWord readLocal
  rw [localBytes_congr (c := { q with budget := b, pc := p }) (k := q) (fun _ => rfl)]

theorem draw_frame (q : Core) (b p : Nat) : drawIndex { q with budget := b, pc := p } = drawIndex q := by
  unfold drawIndex; rw [wsWord_ls _ _ (by decide), wsWord_ls _ _ (by decide)]

theorem hword_frame (q : Core) (b p : Nat) : hWord { q with budget := b, pc := p } 3 = memRead q.sh 0x378 8 := by
  unfold hWord; rw [wsWord_sh _ _ (by decide) (by decide)]

theorem start_ok (k : Core) (ch temper : Nat) (hw : localWf k) :
   let e := nth k.chans ch {}
   let k' := startFiring k ch temper
   k'.run = .firing ch ∧ k'.last = ch ∧ k'.pc = e.ctl.entry ∧ k'.budget = 256 * e.ctl.budget ∧ k'.wp = 1024 * e.ctl.wpi ∧
      k'.h3fifo = true ∧ k'.fifoWp = k'.wp ∧ k'.bcMode = false ∧ k'.sbuf = [] ∧ k'.firings = k.firings + 1 ∧
      k'.mask = 2 ^ 64 - 1 ∧ stickyWord k' = 0 ∧ drawIndex k' = 0 ∧
      hWord k' 3 = (e.base + e.size * 2 ^ 14 + e.head * 2 ^ 28 + e.words * 2 ^ 42) % 2 ^ 64 ∧
      k'.chans = k.chans ∧ k'.hdrs = k.hdrs ∧ k'.acc = k.acc ∧ k'.tiles = k.tiles ∧ k'.ttb = k.ttb := by
  intro e k'
  obtain ⟨l1, h1, f1, m1, e1⟩ := changeWp_shape k (1024 * e.ctl.wpi)
  have hw1 : localWf (changeWp k (1024 * e.ctl.wpi)) := changeWp_wf hw
  rw [e1] at hw1
  -- the window
  have hk : ∃ k3 : Core, k' = { startWords k3 temper with budget := 256 * e.ctl.budget, pc := e.ctl.entry } ∧
      ∃ ls, k3 = { k with wp := 1024 * e.ctl.wpi, sh := memWrite h1 0x378 8 (e.base + e.size * 2 ^ 14 + e.head * 2 ^ 28 + e.words * 2 ^ 42), flags := f1, mask := m1, run := .firing ch, last := ch, h3fifo := true, fifoWp := 1024 * e.ctl.wpi, ls := ls } ∧ Memory.wf ls = true := by
    have e1' : changeWp k (1024 * (nth k.chans ch {}).ctl.wpi) = _ := e1
    have hw2 : localWf { k with wp := 1024 * e.ctl.wpi, ls := l1, sh := memWrite h1 0x378 8 (e.base + e.size * 2 ^ 14 + e.head * 2 ^ 28 + e.words * 2 ^ 42), flags := f1, mask := m1, run := .firing ch, last := ch, h3fifo := true, fifoWp := 1024 * e.ctl.wpi } := ⟨hw1.1, memWrite_wf _ _ _ _ hw1.2⟩
    refine ⟨_, rfl, ?_⟩
    simp only [e1']
    split
    · obtain ⟨ls, q, qw⟩ := window_shape _ _ _ _
      refine ⟨ls, q, qw hw2⟩
    · obtain ⟨ls, q, qw⟩ := window_shape _ _ _ _
      refine ⟨ls, q, qw hw2⟩
  obtain ⟨k3, hk', ls, hk3, hls⟩ := hk
  have hwf3 : localWf k3 := by rw [hk3]; exact ⟨hls, memWrite_wf _ _ _ _ hw1.2⟩
  obtain ⟨s1, s2, s3, s4⟩ := startWords_facts k3 temper hwf3
  have g1 : stickyWord k' = 0 := by
    rw [← s1, hk']; exact sticky_frame _ _ _
  have g2 : drawIndex k' = 0 := by
    rw [← s2, hk']; exact draw_frame _ _ _
  have g3 : hWord k' 3 = (e.base + e.size * 2 ^ 14 + e.head * 2 ^ 28 + e.words * 2 ^ 42) % 2 ^ 64 := by
    rw [hk', hword_frame, s3, hk3]
    exact memRead_memWrite _ _ _ _ hw1.2
  refine ⟨?_, ?_, ?_, ?_, ?_, ?_, ?_, ?_, ?_, ?_, ?_, g1, g2, g3, ?_, ?_, ?_, ?_, ?_⟩
  all_goals (rw [hk', hk3]; try simp only [startWords])

end Sys2Proof.Machine
end

