-- ==== Sys2Proof/Tests/Slice0.lean ====
section
/-!
SUPPORT. Tests of the model on small states, with expected values from the spec's encodings, tables and worked examples; and,
for each statement with hypotheses, witnesses: states and operands that meet them together.
-/
namespace Sys2Proof.Tests

set_option Elab.async false

open Sys2Proof.Machine Sys2Proof.Safety

/-! ### States and operands for tests -/

/-- A core in a firing, with room in its budget. -/
def running (k : Core) : Core := { k with life := .active, run := .firing 0, budget := 100000, launch := 1, pc := 0x100 }

/-- The device after reset with core 0 of a class running, changed by f. -/
def on (cls : CoreClass) (f : Core → Core) : State :=
  let c : CoreId := ⟨cls, 0⟩
  State.setCore { State.reset with cur := c } c (f (running { cls := cls }))

/-- 8-byte words in the local store; the workspace lies at address 0 (R73). -/
def words (l : List (Nat × Nat)) (k : Core) : Core :=
  reloadShadows (l.foldl (fun k e => { k with ls := memWrite k.ls e.1 8 e.2 }) k)

def w (n : Nat) : Spec := .w (Fin.ofNat 32 n)
def c (n : Nat) : Spec := .imm (BitVec.ofNat 6 n)
def p (n : Nat) : Spec := .ptr (Fin.ofNat 8 n) false
def pp (n : Nat) : Spec := .ptr (Fin.ofNat 8 n) true

/-! ### Witnesses

A witness runs the hypotheses of one clause of a statement in order, on a concrete state and operands: it is there exactly when
every read and write in them goes through and every condition holds. -/

/-- A result of a read or a write, where it goes through. -/
def got {ε α : Type} : Except ε α → Option α
  | .ok v => some v
  | .error _ => none

/-- A condition. -/
def need (q : Prop) [Decidable q] : Option Unit := if q then some () else none

/-- The current core is ready for an instruction. -/
def go (i : Instr) (s : State) : Option Unit :=
  need (executes s s.cur = true ∧ (s.core s.cur).bcMode = false ∧ i.check s.cur.cls = none ∧
    (s.core s.cur).vpend = false ∧ (s.core s.cur).acqWait = false)

theorem got_some {ε α : Type} {e : Except ε α} {v : α} (h : got e = some v) : e = .ok v := by
  cases e with
  | ok x => exact congrArg Except.ok (Option.some.inj h)
  | error x => cases h

theorem need_some {q : Prop} [Decidable q] (h : (need q).isSome = true) : q := by
  unfold need at h
  by_cases hq : q
  · exact hq
  · rw [if_neg hq] at h; exact Bool.noConfusion (show false = true from h)

theorem go_ready {i : Instr} {s : State} (h : (go i s).isSome = true) : ready i s := by
  unfold go at h
  have r := need_some h
  exact r

/-- A witness: the hypotheses go through. -/
def met {α : Type} (o : Option α) : Bool := o.isSome

/-- Core 0 of a class in the placement of log 20, at code offset 0x100 of a code object of 8 KiB, changed by f. -/
def coded (cls : CoreClass) (f : Core → Core) : State :=
  let c : CoreId := ⟨cls, 0⟩
  let s := { placedBase c State.reset with cur := c }
  (s.setCore c (f { placedCore { cls := cls } with run := .firing 0, tlb := [placedEnt] })).modRow 0
    (fun r => { r with tlb := [placedEnt] })

/-! ### Well-formedness: an instruction that each check of Table 4-15 refuses -/

/-- Table 4-14: a kiln instruction on a control core, a cache instruction on a compute core, a bus instruction on a control core,
each with the subcode of the class that turns it away. -/
theorem test_check_class :
    (Instr.kwait).check .control = some 0x11 ∧ (Instr.kwait).check .gateway = some 0x12 ∧
    (Instr.ici (w 3)).check .compute = some 0x10 ∧ (Instr.gqGet (w 2)).check .control = some 0x11 ∧
    (Instr.kwait).check .compute = none := by decide +kernel

/-- R35 and R223: a marker with bits [7:5] set, and a tile in a kind of copy that has none. -/
theorem test_check_reserved :
    (Instr.kclr ⟨0xFF20, 0, 0, 0, 0, 0, 0, 0⟩).check .compute = some 1 ∧
    (Instr.kclr ⟨0xFF1F, 0, 0, 0, 0, 0, 0, 0⟩).check .compute = none ∧
    (Instr.cpy 0 3 1 false (w 1) ⟨0, 0, 0, 0, 0, 0, 0, 0⟩).check .compute = some 1 ∧
    (Instr.cpy 3 0 1 false (w 1) ⟨0, 0, 0, 0, 0, 0, 0, 0⟩).check .compute = none := by decide +kernel

/-- A float type in a vector shift, an acquire in a store, a vector form that is not z64, an atomic on bytes, a blocked format in
a converting load, and `cmp` under the condition `al`. -/
theorem test_check_values :
    (Instr.vshl .fp32 (w 1) (w 2) (w 3)).check .compute = some 3 ∧
    (Instr.fst .nw .z64 .acq (w 5) (w 6) false .dev).check .compute = some 3 ∧
    (Instr.fst .nw .z32 .rel (w 5) (w 6) true .dev).check .compute = some 3 ∧
    (Instr.amo .dev .nw .z8 .rlx (w 3) (w 4) .add).check .compute = some 3 ∧
    (Instr.ldt .s32 .e4m3b32 .rne (w 1) (w 2) (w 3)).check .compute = some 3 ∧
    (Instr.cmp .al .s32 (w 1) (w 2) (w 3)).check .compute = some 3 := by decide +kernel

/-- R81: a constant as destination, a producer handle as source, a register beyond v7 in a vector position, a `cas` whose pair
would pass w31, the constant 0.5 in an integer position, and `vhist` without a pointer. -/
theorem test_check_specs :
    (Instr.add .s32 (.cst 0) (w 1) (w 2)).check .compute = some 2 ∧
    (Instr.add .s32 (w 0) (.hnd 1 true) (w 2)).check .compute = some 2 ∧
    (Instr.vadd .fp32 (w 8) (w 1) (w 2)).check .compute = some 2 ∧
    (Instr.amo .dev .nw .z64 .rlx (w 31) (w 4) .cas).check .compute = some 2 ∧
    (Instr.add .s32 (w 0) (.cst 4) (w 2)).check .compute = some 2 ∧
    (Instr.vhist .fp16 (w 0) (w 1) (w 2)).check .compute = some 2 := by decide +kernel

/-! ### Decoding: words of the encoding tables

The fields of each word below stand at the places that R87 to R95 and the instruction's own table give them. -/

/-- The words decode to the instruction on a core of the class. -/
def decodes (e : List Nat × CoreClass × Instr) : Bool :=
  match decode e.2.1 (e.1.getD 0 0) (e.1.getD 1 0) (e.1.getD 2 0) (e.1.getD 3 0) (e.1.getD 4 0) with
  | .ok i => decide (i = e.2.2)
  | .error _ => false

/-- Formats M and I: scalar (R87, R89). -/
def scalarWords1 : List (List Nat × CoreClass × Instr) := [
  ([0x0020C341], .compute, .add .s16 (w 3) (w 6) (c 1)),
  ([0x014185C2], .compute, .sub .s32 (w 6) (w 11) (c 2)),
  ([0x026251C3], .compute, .mul .s64 (w 9) (pp 1) (c 3)),
  ([0x03830AC4], .compute, .mulh .z8 (w 12) (w 21) (c 4)),
  ([0x04A3CD45], .compute, .div .z16 (w 15) (w 26) (c 5)),
  ([0x05C49346], .compute, .rem .z32 (w 18) (p 3) (c 6)),
  ([0x06E54247], .compute, .and .z64 (w 21) (w 4) (c 7)),
  ([0x070604C8], .compute, .or .s8 (w 24) (w 9) (c 8)),
  ([0x0826D4C9], .compute, .xor .s16 (w 27) (pp 4) (c 9)),
  ([0x094789CA], .compute, .andn .s32 (w 30) (w 19) (c 10)),
  ([0x0A604C4B], .compute, .shl .s64 (w 1) (w 24) (c 11)),
  ([0x0B81164C], .compute, .shr .z8 (w 4) (p 6) (c 12)),
  ([0x0CA1C14D], .compute, .sar .z16 (w 7) (w 2) (c 13)),
  ([0x0DC283CE], .compute, .rot .z32 (w 10) (w 7) (c 14)),
  ([0x0EE357CF], .compute, .min .z64 (w 13) (pp 7) (c 15)),
  ([0x0F0408D0], .compute, .max .s8 (w 16) (w 17) (c 16)),
  ([0x1024CB00], .compute, .abs .s16 (w 19) (w 22)),
  ([0x11459100], .compute, .neg .s32 (w 22) (p 1)),
  ([0x12664053], .compute, .sel .s64 (w 25) (w 0) (c 19)),
  ([0x13870280], .compute, .clz .z8 (w 28) (w 5)),
  ([0x14A7D280], .compute, .ctz .z16 (w 31) (pp 2)),
  ([0x15C08780], .compute, .popc .z32 (w 2) (w 15)),
  ([0x16E14A57], .compute, .bext .z64 (w 5) (w 20) (c 23)),
  ([0x17021458], .compute, .bins .s8 (w 8) (p 4) (c 24)),
  ([0x1822CF00], .compute, .mov .s16 (w 11) (w 30)),
  ([0x1903935A], .compute, .lea (w 14) (p 3) (c 26)),
  ([0x1A0B15DB], .compute, .pset 6 (pp 5) (c 27)),
  ([0x1B00C6DC], .compute, .mset 3 (w 13) (c 28)),
  ([0x1C0D095D], .compute, .hbind 2 (w 18) (c 29)),
  ([0x1D0D9700], .compute, .hadvC 3 (p 7))]

/-- Formats M and I: scalar (R87, R89). -/
def scalarWords2 : List (List Nat × CoreClass × Instr) := [
  ([0x1E0D0E00], .compute, .hadvP 2 (w 28)),
  ([0x1F001B00], .compute, .hstat (w 0) 3),
  ([0x2720D0E1], .compute, .cmp .leu .s16 (w 3) (pp 0) (c 33)),
  ([0x304185E2], .compute, .ld .s32 (w 6) (w 11) (c 34)),
  ([0x31624863], .compute, .st .s64 (w 9) (w 16) (c 35))]

theorem test_decode_scalarWords : (scalarWords1 ++ scalarWords2).all decodes = true := by decide +kernel

/-- Format M: vector (R87). -/
def vectorWords1 : List (List Nat × CoreClass × Instr) := [
  ([0x40010286], .compute, .vadd .fp32 (w 4) (w 5) (w 6)),
  ([0x4121C105], .compute, .vsub .fp16 (w 7) (w 2) (w 5)),
  ([0x42408384], .compute, .vmul .bf16 (w 2) (w 7) (w 4)),
  ([0x43014203], .compute, .vfma .fp32 (w 5) (w 4) (w 3)),
  ([0x44200082], .compute, .vfms .fp16 (w 0) (w 1) (w 2)),
  ([0x4540C301], .compute, .vmin .bf16 (w 3) (w 6) (w 1)),
  ([0x46018180], .compute, .vmax .fp32 (w 6) (w 3) (w 0)),
  ([0x47204000], .compute, .vabs .fp16 (w 1) (w 0)),
  ([0x48410280], .compute, .vneg .bf16 (w 4) (w 5)),
  ([0x4901C105], .compute, .vsel .fp32 (w 7) (w 2) (w 5)),
  ([0x4A208384], .compute, .vand .fp16 (w 2) (w 7) (w 4)),
  ([0x4B414203], .compute, .vor .bf16 (w 5) (w 4) (w 3)),
  ([0x4C000082], .compute, .vxor .fp32 (w 0) (w 1) (w 2)),
  ([0x4D20C300], .compute, .vnot .fp16 (w 3) (w 6)),
  ([0x4EC18180], .compute, .vshl .s16 (w 6) (w 3) (w 0)),
  ([0x4FE04007], .compute, .vshr .s8 (w 1) (w 0) (w 7)),
  ([0x50810286], .compute, .vsar .s32 (w 4) (w 5) (w 6)),
  ([0x5241C100], .compute, .vrcp .bf16 (w 7) (w 2)),
  ([0x53008380], .compute, .vrsq .fp32 (w 2) (w 7)),
  ([0x54214200], .compute, .vexp2 .fp16 (w 5) (w 4)),
  ([0x55400080], .compute, .vlog2 .bf16 (w 0) (w 1)),
  ([0x5600C300], .compute, .vrsum .fp32 (w 3) (w 6)),
  ([0x57218180], .compute, .vrmax .fp16 (w 6) (w 3)),
  ([0x58404000], .compute, .vrmin .bf16 (w 1) (w 0)),
  ([0x59010286], .compute, .vperm .fp32 (w 4) (w 5) (w 6)),
  ([0x5A21C100], .compute, .vbcast .fp16 (w 7) (w 2)),
  ([0x5B408384], .compute, .vins .bf16 (w 2) (w 7) (w 4)),
  ([0x5C014203], .compute, .vext .fp32 (w 5) (w 4) (w 3)),
  ([0x5D200082], .compute, .vkey .fp16 (w 0) (w 1) (w 2)),
  ([0x5E490301], .compute, .vhist .bf16 (p 2) (w 6) (w 1))]

/-- Format M: vector (R87). -/
def vectorWords2 : List (List Nat × CoreClass × Instr) := [
  ([0x5F018180], .compute, .vcompress .fp32 (w 6) (w 3)),
  ([0x60204007], .compute, .vcount .fp16 (w 1) (w 0) (w 7)),
  ([0x61410286], .compute, .vld .bf16 (w 4) (w 5) (w 6)),
  ([0x6201C105], .compute, .vst .fp32 (w 7) (w 2) (w 5)),
  ([0x63208384], .compute, .vldx .fp16 (w 2) (w 7) (w 4)),
  ([0x64414203], .compute, .vstx .bf16 (w 5) (w 4) (w 3)),
  ([0x6B000082], .compute, .vcmp .le .fp32 (w 0) (w 1) (w 2))]

theorem test_decode_vectorWords : (vectorWords1 ++ vectorWords2).all decodes = true := by decide +kernel

/-- Formats I and F (R89, R90). -/
def fabricWords : List (List Nat × CoreClass × Instr) := [
  ([0x8026C5F3], .compute, .movi .s16 (w 27) 0x5f3),
  ([0x8147A9BA], .compute, .addi .s32 (w 30) 0x29ba),
  ([0xA05C055E], .compute, .fst .wf .z64 .rel (w 1) (pp 5) true .dev),
  ([0xA19A10EE], .compute, .fld .wb .z64 .acq (w 4) (w 29) true .dev),
  ([0xA2D60000], .compute, .fence .wm .dev .acqrel),
  ([0xA55E2976], .compute, .amo .row .wf .z64 .acqrel (w 10) (p 7) .swp),
  ([0xA8843460], .compute, .send .wb .rel (w 13) (w 12)),
  ([0xA9C44088], .compute, .sendm .wm .rel (w 16) (w 17)),
  ([0xAA444D09], .compute, .enq .wf .rel (w 19) (pp 0) true)]

theorem test_decode_fabricWords : (fabricWords).all decodes = true := by decide +kernel

/-- Formats B and S (R93, R94). -/
def systemWords1 : List (List Nat × CoreClass × Instr) := [
  ([0xE0AE87F2], .compute, .b .al 0xe87f2),
  ([0xE2042BB9], .compute, .call 0x42bb9),
  ([0xE3F9CF80], .compute, .loop 15 0x9cf80),
  ([0xF0000000], .compute, .nop),
  ([0xF0010000], .compute, .endFiring),
  ([0xF0020000], .compute, .ret),
  ([0xF0030019], .compute, .jx (w 25)),
  ([0xF0040263], .compute, .trap 0x263),
  ([0xF005A62A], .compute, .brk 0xa62a),
  ([0xF0060000], .compute, .rttResume),
  ([0xF0060001], .compute, .rttSkip),
  ([0xF0060002], .compute, .rttAbort),
  ([0xF0060003], .compute, .rttDrop),
  ([0xF0060004], .compute, .rttKill),
  ([0xF0070020], .compute, .sflag (w 0) (p 0)),
  ([0xF0080006], .compute, .wpset (w 6)),
  ([0xF009030B], .compute, .wdog (w 6) (w 11)),
  ([0xF00A04A3], .compute, .srr (w 9) (pp 1)),
  ([0xF00B3864], .compute, .srw 0x70 (c 36)),
  ([0xF00C0780], .compute, .rdcyc (w 15)),
  ([0xF00D0926], .compute, .pair (w 18) (p 3)),
  ([0xF1000267], .compute, .chbind (w 4) (c 39)),
  ([0xF10104E8], .compute, .chhold (w 9) (c 40)),
  ([0xF10214E9], .compute, .chrdy (pp 4) (c 41)),
  ([0xF10309EA], .compute, .chmask (w 19) (c 42)),
  ([0xF1040098], .compute, .chstat (w 1) (w 24)),
  ([0xF1050200], .compute, .mnext (w 4)),
  ([0xF2000702], .compute, .tdef 14 (w 2)),
  ([0xF2010787], .compute, .tarm 15 (w 7)),
  ([0xF202072F], .compute, .twait 14 (pp 7))]

/-- Formats B and S (R93, R94). -/
def systemWords2 : List (List Nat × CoreClass × Instr) := [
  ([0xF203080F], .compute, .ttest (w 16) 15),
  ([0xF2040700], .compute, .tdrain 14),
  ([0xF2050022], .compute, .jwait (p 1)),
  ([0xF2060C80], .compute, .jpoll (w 25) (w 0)),
  ([0xF3000385], .compute, .kadv 7 (w 5)),
  ([0xF3010000], .compute, .kwait),
  ([0xF302010F], .compute, .kleave (w 2) (w 15)),
  ([0xF3030294], .compute, .kstat (w 5) (w 20)),
  ([0xF4000400], .compute, .gbar (w 8)),
  ([0xF4010580], .gateway, .gqGet (w 11)),
  ([0xF40202FA], .gateway, .baddRq (w 5) (c 58)),
  ([0xF50008AB], .compute, .launch (w 17) (pp 5)),
  ([0xF5010000], .compute, .trig),
  ([0xF5020B80], .compute, .dwait (w 23)),
  ([0xF5030D2E], .compute, .lwait (w 26) (p 7)),
  ([0xF5040E9C], .compute, .lstat (w 29) (w 28)),
  ([0xF6000001], .compute, .sgnew (w 0) (w 1)),
  ([0xF60101A1], .compute, .sgatt (w 3) (pp 0)),
  ([0xF602000B], .compute, .sgdet (w 11)),
  ([0xF6030843], .compute, .sgrel (w 16) (c 3)),
  ([0xF6041244], .compute, .sgpin (p 2) (c 4)),
  ([0xF605079A], .compute, .sgevict (w 15) (w 26)),
  ([0xF606091F], .compute, .sgstat (w 18) (w 31)),
  ([0xF7000AA7], .compute, .tmprGet (w 21) (pp 3)),
  ([0xF7010C09], .compute, .tmprPick (w 24) (w 9)),
  ([0xF7020D8E], .compute, .tmprDem (w 27) (w 14)),
  ([0xF7030F2A], .compute, .tmprRe (w 30) (p 5)),
  ([0xF7040018], .compute, .tmprAch (w 24)),
  ([0xF8000ECC], .compute, .ttbw (w 29) (c 12)),
  ([0xF801002D], .compute, .ttbi (pp 6))]

/-- Formats B and S (R93, R94). -/
def systemWords3 : List (List Nat × CoreClass × Instr) := [
  ([0xF8020507], .compute, .ttbp (w 10) (w 7)),
  ([0xF803000C], .control, .tlbi (w 12)),
  ([0xF8040820], .control, .fbpop (w 16) (p 0)),
  ([0xF8050996], .control, .replay (w 19) (w 22)),
  ([0xF9008B1B], .control, .bld 0x2 (w 22) (w 27)),
  ([0xF90151D3], .control, .bst 0x1 (pp 1) (c 19)),
  ([0xF90202D4], .control, .icw (w 5) (c 20)),
  ([0xF903000A], .control, .ici (w 10)),
  ([0xF9040126], .control, .icr (w 2) (p 3)),
  ([0xFA000294], .control, .sqRd (w 5) (w 20)),
  ([0xFA010419], .control, .sqWr (w 8) (w 25)),
  ([0xFA0205A9], .control, .sqBuild (w 11) (pp 4)),
  ([0xFA030700], .control, .ltokWait (w 14)),
  ([0xFA040008], .control, .ltokPass (w 8)),
  ([0xFA050A2C], .control, .dkRun (w 20) (p 6)),
  ([0xFA060B92], .control, .dkWait (w 23) (w 18))]

theorem test_decode_systemWords : (systemWords1 ++ systemWords2 ++ systemWords3).all decodes = true := by decide +kernel

/-- A shape record, and its four extension words (R35); its first fields are those of line S06 in Table 13-3. -/
def recWords : List Nat := [0xFF0F0450, 0x00200020, 0x44443333, 0x66665555]
def rec0 : Shape := ⟨0x0450, 0xFF0F, 0x0020, 0x0020, 0x3333, 0x4444, 0x5555, 0x6666⟩

/-- Instructions with extension words (R89, R92, R93, R95). -/
def extendedWords : List (List Nat × CoreClass × Instr) := [
  ([0x32410284, 0x00000309], .compute, .ldt .s32 .fp16 .rd (w 4) (w 5) (w 4)),
  ([0x33E10284, 0x00000400], .compute, .stt .z64 .s8 .sr (w 4) (w 5) (w 4)),
  ([0x82414000, 0xDEADBEEF], .compute, .li .s32 (w 5) 0xDEADBEEF),
  ([0xE1000000, 0x00001234], .gateway, .j 0x1234),
  ([0x51004000, 0x0003080A], .compute, .vcvt .bf16 .fp32 .rd (w 1) (w 0)),
  ([0x70000105, 0x00000000], .compute, .vaddRnd .fp32 .rne (w 0) (w 2) (w 5)),
  ([0x71204186, 0x00000001], .compute, .vsubRnd .fp16 .rz (w 1) (w 3) (w 6)),
  ([0x72408207, 0x00000002], .compute, .vmulRnd .bf16 .ru (w 2) (w 4) (w 7)),
  ([0x7300C280, 0x00000003], .compute, .vfmaRnd .fp32 .rd (w 3) (w 5) (w 0)),
  ([0x74210301, 0x00000004], .compute, .vfmsRnd .fp16 .sr (w 4) (w 6) (w 1)),
  ([0x75414380, 0x00000000], .compute, .vrcpRnd .bf16 .rne (w 5) (w 7)),
  ([0x76018000, 0x00000001], .compute, .vrsqRnd .fp32 .rz (w 6) (w 0)),
  ([0x7721C080, 0x00000002], .compute, .vexp2Rnd .fp16 .ru (w 7) (w 1)),
  ([0x78400100, 0x00000003], .compute, .vlog2Rnd .bf16 .rd (w 0) (w 2)),
  ([0x79004180, 0x00000004], .compute, .vrsumRnd .fp32 .sr (w 1) (w 3)),
  (0xC0000000 :: recWords, .compute, .kctx rec0),
  (0xC1A00000 :: recWords, .compute, .kring 5 rec0),
  (0xC2E00000 :: recWords, .compute, .kslip 7 rec0),
  (0xC3B60089 :: recWords, .compute, .kmm 5 11 1 (w 9) rec0),
  (0xC45C0145 :: recWords, .compute, .kmmG 2 14 2 (c 5) rec0),
  (0xC50001A6 :: recWords, .compute, .kst 3 (p 3) rec0),
  (0xC6000000 :: recWords, .compute, .kclr rec0),
  (0xC8060010 :: recWords, .compute, .cpy 0 3 0 false (w 16) rec0),
  (0xC8C04087 :: recWords, .compute, .cpy 6 0 1 true (w 7) rec0),
  (0xC8008010 :: recWords, .compute, .cpy 0 0 2 false (w 16) rec0),
  (0xC91B0087 :: recWords, .compute, .cpys 13 4 true (w 7) rec0)]

theorem test_decode_extendedWords : (extendedWords).all decodes = true := by decide +kernel

/-- Words that the spec works out: the listing of 04_encoding, Tables 10-2, 13-3, 15-7, 16-4, 17-8, 19-7 and 20-3, and the examples of R90 and of chapters 6, 8, 12, 14, 18 and 25. -/
def workedWords1 : List (List Nat × CoreClass × Instr) := [
  ([0x80404000], .compute, .movi .s32 (w 1) 0),
  ([0x004040C1], .compute, .add .s32 (w 1) (w 1) (c 1)),
  ([0x214080C3], .compute, .cmp .ne .s32 (w 2) (w 1) (c 3)),
  ([0xE01FFFFE], .compute, .b .ne 0xFFFFE),
  ([0xF0010000], .compute, .endFiring),
  ([0xA05C1432], .compute, .fst .wf .z64 .rel (w 5) (w 6) false .dev),
  ([0xA6180C20], .compute, .amo .dev .nw .z64 .rlx (w 3) (w 4) .add),
  ([0xA6361847], .compute, .amo .dev .nw .s32 .acqrel (w 6) (w 8) .cas),
  ([0xA2100000], .compute, .fence .nw .dev .rlx),
  ([0xA21C0000], .compute, .fence .nw .sys .rel),
  ([0xA8441430], .compute, .send .wf .rel (w 5) (w 6)),
  ([0xF4000280], .compute, .gbar (w 5)),
  ([0xF004002A], .compute, .trap 0x2A),
  ([0xF0060003], .compute, .rttDrop),
  ([0xF0070138], .compute, .sflag (w 2) (.cst 0)),
  ([0xF5000103], .compute, .launch (w 2) (w 3)),
  ([0xF5030286], .compute, .lwait (w 5) (w 6)),
  ([0xF6000103], .compute, .sgnew (w 2) (w 3)),
  ([0xF6030238], .compute, .sgrel (w 4) (.cst 0)),
  ([0xF6050385], .compute, .sgevict (w 7) (w 5)),
  ([0xF703060B], .compute, .tmprRe (w 12) (w 11)),
  ([0xF8000082], .compute, .ttbw (w 1) (w 2)),
  ([0xF0080003], .compute, .wpset (w 3)),
  ([0xF00A0242], .compute, .srr (w 4) (c 2)),
  ([0xF00C0300], .compute, .rdcyc (w 6)),
  ([0xF00D0139], .compute, .pair (w 2) (.cst 1)),
  ([0xF3020082], .compute, .kleave (w 1) (w 2)),
  ([0x18E05380], .compute, .mov .z64 (w 1) (pp 3)),
  ([0x5D2080B9], .compute, .vkey .fp16 (w 2) (w 1) (.cst 1)),
  ([0x68C28185], .compute, .vcmp .eq .s16 (w 10) (w 3) (w 5))]

/-- Words that the spec works out: the listing of 04_encoding, Tables 10-2, 13-3, 15-7, 16-4, 17-8, 19-7 and 20-3, and the examples of R90 and of chapters 6, 8, 12, 14, 18 and 25. -/
def workedWords2 : List (List Nat × CoreClass × Instr) := [
  ([0x5EC80108], .compute, .vhist .s16 (p 0) (w 2) (w 8)),
  ([0xA018188E], .compute, .fst .nw .z64 .rlx (w 6) (w 17) true .dev),
  ([0xA9003478], .compute, .sendm .nw .rlx (w 13) (w 15)),
  ([0x4BA95B38], .compute, .vor .z32 (pp 2) (.hnd 3 false) (.cst 0)),
  ([0x51004000, 0x0000080A], .compute, .vcvt .bf16 .fp32 .rne (w 1) (w 0)),
  ([0xC8008010, 0xFF0F0450, 0x00200020, 0, 0], .compute,
    .cpy 0 0 2 false (w 16) ⟨0x450, 0xFF0F, 32, 32, 0, 0, 0, 0⟩),
  ([0xF4010100], .gateway, .gqGet (w 2)),
  ([0xF8040103], .control, .fbpop (w 2) (w 3)),
  ([0xF900C184], .control, .bld 3 (w 3) (w 4)),
  ([0xF9018286], .control, .bst 2 (w 5) (w 6)),
  ([0xF9040205], .control, .icr (w 4) (w 5)),
  ([0xFA020307], .control, .sqBuild (w 6) (w 7)),
  ([0xFA030080], .control, .ltokWait (w 1)),
  ([0xFA040038], .control, .ltokPass (.cst 0)),
  ([0xFA06050B], .control, .dkWait (w 10) (w 11))]

theorem test_decode_workedWords : (workedWords1 ++ workedWords2).all decodes = true := by decide +kernel

/-- The bytes decode to the bytecode, of that length (R387). -/
def decodesBytes (e : List Nat × Instr) : Bool :=
  bcLength (e.1.getD 0 0) == some e.1.length &&
  decodeBytecode (e.1.getD 0 0) (e.1.getD 1 0) (e.1.getD 2 0) (e.1.getD 3 0) (e.1.getD 4 0) == some e.2

/-- The bytecodes of Table 19-4; a u16 stands with its low byte first. -/
def bytecodeWords : List (List Nat × Instr) := [
  ([0x01, 0x06, 0x27], .bcConst 0x2706),
  ([0x02, 0xCD], .bcLoadl 0xcd),
  ([0x03, 0x94], .bcStorel 0x94),
  ([0x04, 0x5B, 0x12], .bcLoadg 0x125b),
  ([0x05, 0x22, 0xB6], .bcStoreg 0xb622),
  ([0x08, 0xE9, 0x59], .bcLoadidx 0x59e9),
  ([0x09, 0xB0, 0xFD], .bcStoreidx 0xfdb0),
  ([0x0A, 0x77, 0x77, 0xA1], .bcBinary 0x77 0xa177),
  ([0x0B, 0x3E, 0x3E, 0x45], .bcUnary 0x3e 0x453e),
  ([0x0C, 0x05, 0x05, 0xE9], .bcCompare 0x5 0xe905),
  ([0x0D, 0xCC, 0xCC, 0x8C], .bcCall 0xcc 0x8ccc),
  ([0x0E, 0x93, 0x93, 0x30], .bcCallmeth 0x93 0x3093),
  ([0x0F], .bcReturn),
  ([0x10, 0x21, 0x78], .bcJump 0x7821),
  ([0x11, 0xE8, 0x1B], .bcJumpt 0x1be8),
  ([0x12, 0xAF, 0xBF], .bcJumpf 0xbfaf),
  ([0x13], .bcWalk),
  ([0x14, 0x3D, 0x07], .bcAdvance 0x73d),
  ([0x15, 0x04], .bcBuildtuple 0x4),
  ([0x16, 0xCB], .bcBuildlist 0xcb),
  ([0x17, 0x92], .bcUnpack 0x92),
  ([0x18], .bcPop),
  ([0x19], .bcDup),
  ([0x1A], .bcSwap),
  ([0x1B], .bcRaise),
  ([0x1C, 0x75, 0x25], .bcSetuptry 0x2575),
  ([0x1D], .bcPoptry),
  ([0x1E], .bcAwait),
  ([0x1F, 0xCA], .bcNewobj 0xca),
  ([0x21, 0x91, 0xB4], .bcMakefunc 0xb491),
  ([0x22, 0x58], .bcLoadclosure 0x58),
  ([0x06, 0x34, 0x12, 0x78, 0x56], .bcLoadattr 0x1234 0x5678),
  ([0x07, 0x34, 0x12, 0x78, 0x56], .bcStoreattr 0x1234 0x5678),
  ([0x20, 0x34, 0x12, 0x78, 0x56], .bcIsinst 0x1234 0x5678)]

theorem test_decode_bytecodeWords : bytecodeWords.all decodesBytes = true := by decide +kernel

/-- The word fails, on a compute core, under the subcode. -/
def refuses (e : Nat × Nat) : Bool :=
  match decode .compute e.1 0 0 0 0 with
  | .ok _ => false
  | .error n => n == e.2

/-- R100: an acquire in `fst`, an unassigned opcode, an unassigned function, a reserved bit of `nop`, an immediate as the
destination of `add`, and a control-core instruction. -/
theorem test_decode_refuses :
    [(0xA05A1432, 0x03), (0x2A000000, 0x00), (0xF00E0000, 0x00), (0xF0000001, 0x01), (0x005C4000, 0x02),
      (0xF9000000, 0x10)].all refuses = true ∧
    decodeBytecode 0x23 0 0 0 0 = none ∧ decodeBytecode 0x00 0 0 0 0 = none := by decide +kernel

/-! ### Numbers: the spec's worked values -/

/-- Table 3-6: codes in FP16, BF16, E5M2, E4M3 and E2M1, each with its flags, of an FP32 source under RNE. -/
def converts (x : Nat) (l : List (Fmt × Nat × Nat)) : Bool :=
  l.all (fun e => let r := cvtFrom .fp32 e.1 false .rne 0 x; r.code == e.2.1 && r.flags == e.2.2)

theorem test_table_3_6 :
    converts 0x3F800000 [(.fp16, 0x3C00, 0), (.bf16, 0x3F80, 0), (.e5m2, 0x3C, 0), (.e4m3, 0x38, 0), (.e2m1, 2, 0)] = true ∧
    converts 0xC0533333 [(.fp16, 0xC29A, 16), (.bf16, 0xC053, 16), (.e5m2, 0xC3, 16), (.e4m3, 0xC5, 16), (.e2m1, 0xD, 16)] = true ∧
    converts 0x43FA0000 [(.fp16, 0x5FD0, 0), (.bf16, 0x43FA, 0), (.e5m2, 0x60, 16), (.e4m3, 0x7E, 20), (.e2m1, 7, 20)] = true ∧
    converts 0x35800000 [(.fp16, 0x10, 0), (.bf16, 0x3580, 0), (.e5m2, 0, 24), (.e4m3, 0, 24), (.e2m1, 0, 24)] = true ∧
    converts 0xFF800000 [(.fp16, 0xFC00, 0), (.bf16, 0xFF80, 0), (.e5m2, 0xFC, 0), (.e4m3, 0xFE, 20), (.e2m1, 0xF, 20)] = true ∧
    converts 0x7FC00001 [(.fp16, 0x7E00, 0), (.bf16, 0x7FC0, 0), (.e5m2, 0x7E, 0), (.e4m3, 0x7F, 0), (.e2m1, 7, 1)] = true := by
  decide +kernel

/-- R56's example: -3.3 to E4M3 under SR with two draws. -/
theorem test_stochastic_rounding :
    (cvtFrom .fp32 .e4m3 false .sr 0x12345678 0xC0533333).code = 0xC6 ∧
    (cvtFrom .fp32 .e4m3 false .sr 0x80000000 0xC0533333).code = 0xC5 := by decide +kernel

/-- R51's examples, in units of 2^-6: 0x00 is 2, 0x70 is 1, 0x3A is -0.125, 0x0A is 0.75, 0x08 is 0 and canonical. -/
theorem test_ds8 : [0x00, 0x70, 0x3A, 0x0A, 0x08].map ds8Val = [128, 64, -8, 48, 0] ∧ ds8Code 48 = 0x0A ∧ ds8Code 0 = 0x08 := by
  decide +kernel

/-- R54's example: a block of 10.0, 0.1, -0.0 and zeros in E4M3b32. -/
theorem test_block :
    let v := (Val.fin false 10 0) :: decodeFmt .fp32 0x3DCCCCCD :: (Val.fin true 0 0) :: List.replicate 29 (Val.fin false 0 0)
    blockEncode .e4m3b32 false .rne (fun _ => 0) 0 v = (0x7A :: 0x45 :: 0x80 :: List.replicate 29 0, 0x7A, 16, 0) := by
  decide +kernel

/-- R142's examples: `vrcp` of 3.0 in FP16 (one iteration) and in BF16 (the seed alone), inexact both. -/
theorem test_vrcp :
    iterLane .rcp 1 .fp16 .rne 0 (.fin false 3 0) = ⟨0x3555, 16, false⟩ ∧
    iterLane .rcp 0 .bf16 .rne 0 (.fin false 3 0) = ⟨0x3EAB, 16, false⟩ := by decide +kernel

/-- R71's example: the FP16 sum of 2,048 and fifteen lanes of 1 (and, in the second half, +0) is 2,062. -/
theorem test_vrsum_tree :
    let l := 0x6800 :: (List.replicate 15 0x3C00 ++ List.replicate 16 0)
    (treeReduce (arithLane .add .rne .fp16) (fun _ => 0) 5 l 0 0).1 = 0x6807 := by decide +kernel

/-! ### Scalar instructions on worked operands (R104, R105, R106, R108, R111) -/

/-- Word wN of the current core after one instruction on a compute core whose words are given. -/
def after (i : Instr) (l : List (Nat × Nat)) (n : Nat) : Option Nat :=
  match exec i (on .compute (words l)) with
  | .next t => some (readLocal (t.core t.cur) (8 * n) 8)
  | _ => none

theorem test_mulh :
    after (.mulh .s8 (w 1) (w 2) (w 3)) [(16, 0x80), (24, 3)] 1 = some 0xFFFFFFFFFFFFFFFE ∧
    after (.mulh .z8 (w 1) (w 2) (w 3)) [(16, 0x80), (24, 3)] 1 = some 1 := by decide +kernel

theorem test_div_by_zero :
    after (.div .s32 (w 1) (w 2) (w 3)) [(16, 7)] 1 = some 0xFFFFFFFFFFFFFFFF ∧
    after (.rem .s32 (w 1) (w 2) (w 3)) [(16, 7)] 1 = some 7 ∧
    after (.div .s8 (w 1) (w 2) (w 3)) [(16, 0x80), (24, 0xFF)] 1 = some 0xFFFFFFFFFFFFFF80 := by decide +kernel

theorem test_shr_and_bext :
    after (.shr .s8 (w 1) (w 2) (c 1)) [(16, 0x80)] 1 = some 0x40 ∧
    after (.bext .s32 (w 1) (w 2) (w 3)) [(16, 0x1F0), (24, 324)] 1 = some 0xFFFFFFFFFFFFFFFF ∧
    after (.bext .z32 (w 1) (w 2) (w 3)) [(16, 0x1F0), (24, 324)] 1 = some 31 := by decide +kernel

/-- The example of R116: a1 becomes 0x109000, in the word of a1 (R76). -/
theorem test_pset : after (.pset 1 (w 2) (w 3)) [(16, 0x9000), (24, 4)] (0x308 / 8) = some 0x109000 := by decide +kernel

/-! ### Firings, traps and translation: worked cases -/

/-- Table 8-5 on the FIFO that wraps: C lands in slots 0-2 with two slots skipped, and D, of one word, finds no room; after the
firing on B, D lands in slot 3. -/
theorem test_fifo_wrap :
    let e : Chan := { size := 8, head := 3, fill := 3 }
    let f : Chan := { size := 8, head := 3, fill := 8, skip := 2 }
    landSlot e 3 = some (0, 2) ∧ landSlot f 1 = none ∧
    f.advance 3 = { size := 8, head := 0, fill := 3, skip := 0 } ∧ landSlot (f.advance 3) 1 = some (3, 0) := by decide +kernel

/-- The record of the fault in chapter 12: words 0, 2, 3 and 6. -/
theorem test_fault_record :
    let s := on .compute (fun k => { k with
      logical := 1234, ctx := 5, life := .active, run := .firing 4, launch := 0x302, pc := 0x1C0
      hdrs := [(4, { word := 0x31 * 2 ^ 32 })] })
    let r := faultRecord s s.cur { cause := .fabric, sub := 0, addr := 0x12000 } {} 0xA1181432 0 17
    [nth r 0 0, nth r 1 0 % 2 ^ 32, nth r 2 0, nth r 3 0, nth r 6 0] =
      [0x0014134880000031, 0x1C0, 0x12000, 0xA118143200050000, 0x0000001100000302] := by decide +kernel

/-- The walk of chapter 17: four levels to the far page 0x45_0000, and three when level 2 holds a leaf. -/
theorem test_walk :
    let m := memWrite (memWrite (memWrite [] 0x100000 8 0x101001) 0x101048 8 0x102001) 0x102018 8 0x103001
    let s (m : Mem) : State := { State.reset with
      near := m, ctxs := memWrite State.reset.ctxs 0x18 8 0x100001, rdy := { State.reset.rdy with near := 2 ^ 32 - 1, far := 2 ^ 32 - 1 } }
    let phys (r : WalkRes) : Nat × Nat := match r with | .mapped t => (t.tier, t.phys 0x000240631A40) | _ => (9, 0)
    phys (walk (s (memWrite m 0x103018 8 0x0100000000450099)) 0 0x000240631A40) = (1, 0x451A40) ∧
    phys (walk (s (memWrite m 0x102018 8 0x0100000000800099)) 0 0x000240631A40) = (1, 0x831A40) := by decide +kernel

/-! ### Temper: the worked split of chapter 16 -/

theorem test_shares :
    let t : Sens := { own := 4, ws := [2, 1], sig := [-8, 16] }
    [0, 1, 2, 3].map (share 40 (some t)) = [47, 47, 79, 0] := by decide +kernel

theorem test_tmpr_pick :
    [0x0, 0x1, 0x100002, 0x400002, 0x400004, 0x3].map
        (fun v => pickWord (words [(0x3B0, temperWord 40 47 0 100)] { cls := .compute }) v) =
      [0x2F0A, 0x2F0A, 0x4F09, 0x8000000000005F09, 0x5F0F, 0x2F00] := by decide +kernel

/-! ### Power: the worked window of chapter 26 -/

theorem test_issue_window :
    let g := State.reset.gov
    let i1 := nextWindow g { nth State.reset.islands 0 {} with used := 0, debt := 0 }
    let i2 := nextWindow g { i1 with used := 138240 }
    i1.allow = 131072 ∧ i2.allow = 269312 ∧ i2.debt = 7168 := by decide +kernel

/-! ### A step runs what the bytes say -/

/-- The first word of the listing in 04_encoding, `movi.s32 w1, #0` changed to -3, placed where the next step fetches. -/
theorem test_step :
    (match step (State.reset.withFetchWord 32 0x80407FFD) with
      | .next t => decide (readLocal (t.core t.cur) 8 8 = 0xFFFFFFFFFFFFFFFD ∧ (t.core t.cur).pc = 0x104)
      | _ => false) = true := by decide +kernel

/-- The bytecode BUILDTUPLE 2, placed where the next step fetches: it dispatches with w24 its byte and w25 its operand (R394). -/
theorem test_step_bytecode :
    (match step (State.reset.withFetchWord 16 0x1502) with
      | .next t => decide (readLocal (t.core t.cur) 192 8 = 0x15 ∧ readLocal (t.core t.cur) 200 8 = 2)
      | _ => false) = true := by decide +kernel

/-! #### Scalar instructions -/

theorem witness_TwoSourceScalars : met (do
    let s := on .compute (words [(16, 5), (24, 7)])
    let i := Instr.sub .s32 (w 1) (w 2) (w 3)
    go i s
    let (x, k1) ← got (readSrc (issued i 1 s) .s32 (w 2))
    let (y, k2) ← got (readSrc k1 .s32 (w 3))
    got (writeDst k2 .s32 (w 1) (toPattern 32 ((x : Int) - (y : Int))))) = true := by decide +kernel

theorem witness_DivideAndRemainder : met (do
    let s := on .compute (words [(16, 5)])
    let i := Instr.div .s32 (w 1) (w 2) (w 3)
    go i s
    let (_, k1) ← got (readSrc (issued i 20 s) .s32 (w 2))
    let (y, k2) ← got (readSrc k1 .s32 (w 3))
    need (valOf true 32 y = 0 ∧ natAnd flDZ (field (numCtl k2) 13 8) = 0)
    got (writeDst (orSticky k2 flDZ) .s32 (w 1) (2 ^ 32 - 1))) = true := by decide +kernel

/-- The trap of DZ is on: the number control word enables every flag (Table 3-8). -/
theorem witness_DivideAndRemainder_traps : met (do
    let s := on .compute (words [(16, 5), (0x398, 0x3F00)])
    let i := Instr.rem .s32 (w 1) (w 2) (w 3)
    go i s
    let (_, k1) ← got (readSrc (issued i 20 s) .s32 (w 2))
    let (y, k2) ← got (readSrc k1 .s32 (w 3))
    need (valOf true 32 y = 0 ∧ natAnd flDZ (field (numCtl k2) 13 8) ≠ 0)) = true := by decide +kernel

theorem witness_OneSourceScalars : met (do
    let s := on .compute (words [(16, 5)])
    let i := Instr.popc .z32 (w 1) (w 2)
    go i s
    let (x, k1) ← got (readSrc (issued i 1 s) .z32 (w 2))
    got (writeDst k1 .z32 (w 1) (popCount 32 x))) = true := by decide +kernel

/-- `abs` of the most negative value, with the trap of SAT off and on. -/
theorem witness_OneSourceScalars_abs : met (do
    let s := on .compute (words [(16, 0x80)])
    let i := Instr.abs .s8 (w 1) (w 2)
    go i s
    let (x, k1) ← got (readSrc (issued i 1 s) .s8 (w 2))
    need (x = 2 ^ 7 ∧ natAnd flSAT (field (numCtl k1) 13 8) = 0)
    got (writeDst (orSticky k1 flSAT) .s8 (w 1) (2 ^ 7 - 1))) = true := by decide +kernel

theorem witness_OneSourceScalars_abs_traps : met (do
    let s := on .compute (words [(16, 0x80), (0x398, 0x3F00)])
    let i := Instr.abs .s8 (w 1) (w 2)
    go i s
    let (x, k1) ← got (readSrc (issued i 1 s) .s8 (w 2))
    need (x = 2 ^ 7 ∧ natAnd flSAT (field (numCtl k1) 13 8) ≠ 0)) = true := by decide +kernel

theorem witness_CompareAndSelect : met (do
    let s := on .compute (words [(16, 5), (24, 7)])
    let i := Instr.cmp .lt .s32 (w 1) (w 2) (w 3)
    go i s
    let (x, k1) ← got (readSrc (issued i 1 s) .s32 (w 2))
    let (y, k2) ← got (readSrc k1 .s32 (w 3))
    need (x = 5 ∧ y = 7)
    let _ ← got (writeDst (writeFlags k2 14) .s32 (w 1) 1)
    let j := Instr.sel .s32 (w 1) (w 2) (w 3)
    go j s
    let (_, k1) ← got (readSrc (issued j 1 s) .s32 (w 2))
    let (y, k2) ← got (readSrc k1 .s32 (w 3))
    need (bitAt (s.core s.cur).flags 3 = false)
    got (writeDst k2 .s32 (w 1) y)) = true := by decide +kernel

/-- P = 31 and L = 127, clipped to 1 bit. -/
theorem witness_BitFields : met (do
    let s := on .compute (words [(16, 0x80000000), (24, 31 + 127 * 64)])
    let i := Instr.bext .s32 (w 1) (w 2) (w 3)
    go i s
    let (_, k1) ← got (readSrc (issued i 1 s) .s32 (w 2))
    let (_, k2) ← got (readSrc k1 .z64 (w 3))
    let _ ← got (writeDst k2 .s32 (w 1) (2 ^ 32 - 1))
    let j := Instr.bins .s32 (w 1) (w 2) (w 3)
    go j s
    let (_, k1) ← got (readSrc (issued j 1 s) .s32 (w 2))
    let (_, k2) ← got (readSrc k1 .z64 (w 3))
    let (q, k3) ← got (scalarLoc k2 (w 1) 4)
    let old ← got (loadLoc k3 .s32 q)
    got (storeLoc k3 .s32 old q)) = true := by decide +kernel

theorem witness_ImmediatesAndPointers : met (do
    let s := on .compute (words [(16, 64), (24, 7)])
    let i := Instr.movi .s32 (w 1) (-1)
    go i s
    let _ ← got (writeDst (issued i 1 s) .s32 (w 1) (2 ^ 32 - 1))
    let i := Instr.li .z64 (w 1) (-1)
    go i s
    let _ ← got (writeDst (issued i 1 s) .z64 (w 1) (2 ^ 32 - 1))
    let i := Instr.addi .s32 (w 1) 1
    go i s
    let (l, k1) ← got (scalarLoc (issued i 1 s) (w 1) 4)
    let v ← got (loadLoc k1 .s32 l)
    let _ ← got (storeLoc k1 .s32 (toPattern 32 (v + 1)) l)
    let i := Instr.lea (w 1) (p 2) (w 3)
    go i s
    let _ ← got (leaAddr (issued i 1 s) (p 2))
    let (_, k1) ← got (readSrc (issued i 1 s) .z64 (w 3))
    let _ ← got (writeDst k1 .z64 (w 1) 7)
    let i := Instr.pset 7 (w 2) (w 3)
    go i s
    let (_, k1) ← got (readSrc (issued i 1 s) .z64 (w 2))
    let _ ← got (readSrc k1 .z64 (w 3))
    let i := Instr.mset 3 (w 2) (w 3)
    go i s
    let (_, k1) ← got (readSrc (issued i 1 s) .z64 (w 2))
    got (readSrc k1 .z64 (w 3))) = true := by decide +kernel

/-- The handle h1 of 4 slots at 0x1000, with one slot filled: word 0x368 (R79). -/
theorem witness_HandleOperations : met (do
    let s := on .compute (words [(16, 0x1000), (24, 4), (32, 1), (0x368, 0x200 + 4 * 2 ^ 14 + 2 ^ 42)])
    let i := Instr.hbind 1 (w 2) (w 3)
    go i s
    let (x, k1) ← got (readS (issued i 1 s) (w 2))
    let (n, _) ← got (readSrc k1 .z64 (w 3))
    need (x % 8 = 0 ∧ 0 ≤ x ∧ x + 8 * n ≤ (s.core s.cur).top ∧ n ≤ 16383)
    let i := Instr.hadvC 1 (w 4)
    go i s
    let (n, k1) ← got (readSrc (issued i 1 s) .z64 (w 4))
    need (field (wsWord k1 0x368) 27 14 ≠ 0 ∧ 0 < n ∧ n ≤ field (wsWord k1 0x368) 55 42 ∧ n ≤ field (wsWord k1 0x368) 27 14)
    let i := Instr.hadvP 1 (w 4)
    go i s
    let (n, k1) ← got (readSrc (issued i 1 s) .z64 (w 4))
    need (field (wsWord k1 0x368) 27 14 ≠ 0 ∧ 0 < n ∧ n ≤ field (wsWord k1 0x368) 27 14 - field (wsWord k1 0x368) 55 42)
    let i := Instr.hstat (w 1) 1
    go i s
    got (writeDst (issued i 1 s) .z64 (w 1) 0)) = true := by decide +kernel

/-- The last word below the top of a compute core's store (R12). -/
theorem witness_LocalLoadStore : met (do
    let s := on .compute (words [(16, 0x11FF0), (24, 8)])
    let i := Instr.ld .z64 (w 1) (w 2) (w 3)
    go i s
    let (x, k1) ← got (readS (issued i 1 s) (w 2))
    let (y, k2) ← got (readS k1 (w 3))
    need (x + y = 0x11FF8 ∧ 0x11FF8 + 8 ≤ (s.core s.cur).top ∧ pendingAt k2 0x11FF8 8 = false)
    let _ ← got (writeDst k2 .z64 (w 1) (readLocal k2 0x11FF8 8))
    let i := Instr.st .z64 (w 1) (w 2) (w 3)
    go i s
    let (_, k1) ← got (readS (issued i 1 s) (w 2))
    let (_, k2) ← got (readS k1 (w 3))
    let (_, k3) ← got (readSrc k2 .z64 (w 1))
    need (pendingAt k3 0x11FF8 8 = false ∧ heldAt k3 0x11FF8 8 = false)) = true := by decide +kernel

/-- An FP16 element widens exactly; 3 as FP8 E4M3 from an integer raises no flag. -/
theorem witness_ConvertingLoadStore : met (do
    let s := on .compute (words [(8, 3), (16, 0x1000), (24, 8), (0x1008, 0x4200)])
    let i := Instr.ldt .s32 .fp16 .rne (w 1) (w 2) (w 3)
    go i s
    let (_, k1) ← got (readS (issued i 1 s) (w 2))
    let (_, k2) ← got (readS k1 (w 3))
    let r := cvtFrom .fp16 .s32 false .rne (coreDraw k2 (drawIndex k2)) (readLocal k2 0x1008 2)
    need (pendingAt k2 0x1008 2 = false ∧ natAnd r.flags (field (numCtl k2) 13 8) = 0 ∧ r.code = 3)
    let _ ← got (writeDst (orSticky k2 r.flags) .s32 (w 1) r.code)
    let i := Instr.stt .s32 .fp16 .rne (w 1) (w 2) (w 3)
    go i s
    let (_, k1) ← got (readS (issued i 1 s) (w 2))
    let (_, k2) ← got (readS k1 (w 3))
    let (v, k3) ← got (readSrc k2 .s32 (w 1))
    let r := cvtFrom .s32 .fp16 (e5o k3) .rne (coreDraw k3 (drawIndex k3)) v
    need (natAnd r.flags (field (numCtl k3) 13 8) = 0 ∧ r.code = 0x4200 ∧ pendingAt k3 0x1008 2 = false ∧
      heldAt k3 0x1008 2 = false)) = true := by decide +kernel

/-- An inexact conversion with every flag's trap on. -/
theorem witness_ConvertingLoadStore_traps : met (do
    let s := on .compute (words [(8, 2049), (16, 0x1000), (0x398, 0x3F00), (0x1000, 0x4201)])
    let i := Instr.ldt .s32 .fp16 .rne (w 1) (w 2) (w 3)
    go i s
    let (_, k1) ← got (readS (issued i 1 s) (w 2))
    let (_, k2) ← got (readS k1 (w 3))
    let r := cvtFrom .fp16 .s32 false .rne (coreDraw k2 (drawIndex k2)) (readLocal k2 0x1000 2)
    need (pendingAt k2 0x1000 2 = false ∧ natAnd r.flags (field (numCtl k2) 13 8) ≠ 0)
    let i := Instr.stt .s32 .fp16 .rne (w 1) (w 2) (w 3)
    go i s
    let (_, k1) ← got (readS (issued i 1 s) (w 2))
    let (_, k2) ← got (readS k1 (w 3))
    let (v, k3) ← got (readSrc k2 .s32 (w 1))
    let r := cvtFrom .s32 .fp16 (e5o k3) .rne (coreDraw k3 (drawIndex k3)) v
    need (natAnd r.flags (field (numCtl k3) 13 8) ≠ 0)) = true := by decide +kernel

/-! #### Vector instructions -/

/-- Lanes 0 and 1 of v0 and v1 hold 1.0 in FP32. -/
def vecs : List (Nat × Nat) := [(0x100, 0x3F8000003F800000), (0x140, 0x3F8000003F800000)]

theorem witness_VectorTwoSource : met (do
    let s := on .compute (fun k => { words vecs k with mask := 3 })
    let i := Instr.vaddRnd .fp32 .rne (w 2) (w 0) (w 1)
    go i s
    let k := issued i 1 s
    let (x, k1) ← got (readVec k .fp32 (w 0))
    let (y, k2) ← got (readVec k1 .fp32 (w 1))
    let (l, k3) ← got (vectorLoc k2 (w 2))
    let r := runLanes k (fun u j => arithLane .add .rne .fp32 u (lane 32 x j) (lane 32 y j)) (List.range 16) (drawIndex k)
    need (natAnd r.2.1 (field (numCtl k3) 13 8) = 0)
    got (storeLanes (flagged k3 r) 4 l (active k) 0 r.1)) = true := by decide +kernel

/-- Lanes of 1.0 and 2^-30 add inexactly, with every trap on. -/
theorem witness_VectorTwoSource_traps : met (do
    let s := on .compute (fun k => { words [(0x398, 0x3F00), (0x100, 0x3F800000), (0x140, 0x30800000)] k with mask := 1 })
    let i := Instr.vadd .fp32 (w 2) (w 0) (w 1)
    go i s
    let k := issued i 1 s
    let (x, k1) ← got (readVec k .fp32 (w 0))
    let (y, k2) ← got (readVec k1 .fp32 (w 1))
    let (_, k3) ← got (vectorLoc k2 (w 2))
    let r := runLanes k (fun u j => arithLane .add .rne .fp32 u (lane 32 x j) (lane 32 y j)) (List.range 16) (drawIndex k)
    need (natAnd r.2.1 (field (numCtl k3) 13 8) ≠ 0)) = true := by decide +kernel

/-- `vfma` with its flags off, then with an inexact sum and every trap on. -/
theorem witness_VectorFused : met (do
    let s := on .compute (fun k => { words vecs k with mask := 3 })
    let i := Instr.vfma .fp32 (w 2) (w 0) (w 1)
    go i s
    let k := issued i 1 s
    let (x, k1) ← got (readVec k .fp32 (w 0))
    let (y, k2) ← got (readVec k1 .fp32 (w 1))
    let (l, k3) ← got (vectorLoc k2 (w 2))
    let z ← got (loadVec k3 l)
    let r := runLanes k (fun u j => fmaLane false .rne .fp32 u (lane 32 x j) (lane 32 y j) (lane 32 z j)) (List.range 16) (drawIndex k)
    need (natAnd r.2.1 (field (numCtl k3) 13 8) = 0)
    got (storeLanes (flagged k3 r) 4 l (active k) 0 r.1)) = true := by decide +kernel

theorem witness_VectorFused_traps : met (do
    let s := on .compute (fun k => { words [(0x398, 0x3F00), (0x100, 0x3F800000), (0x140, 0x30800000), (0x180, 0x3F800000)] k with mask := 1 })
    let i := Instr.vfmsRnd .fp32 .rne (w 2) (w 0) (w 1)
    go i s
    let k := issued i 1 s
    let (x, k1) ← got (readVec k .fp32 (w 0))
    let (y, k2) ← got (readVec k1 .fp32 (w 1))
    let (l, k3) ← got (vectorLoc k2 (w 2))
    let z ← got (loadVec k3 l)
    let r := runLanes k (fun u j => fmaLane true .rne .fp32 u (lane 32 x j) (lane 32 y j) (lane 32 z j)) (List.range 16) (drawIndex k)
    need (natAnd r.2.1 (field (numCtl k3) 13 8) ≠ 0)) = true := by decide +kernel

theorem witness_VectorOneSource : met (do
    let s := on .compute (fun k => { words vecs k with mask := 3 })
    let i := Instr.vneg .fp32 (w 2) (w 0)
    go i s
    let k := issued i 1 s
    let (x, k1) ← got (readVec k .fp32 (w 0))
    let (l, k2) ← got (vectorLoc k1 (w 2))
    let r := runLanes k (fun u j => negLane .fp32 u (lane 32 x j)) (List.range 16) (drawIndex k)
    need (natAnd r.2.1 (field (numCtl k2) 13 8) = 0)
    got (storeLanes (flagged k2 r) 4 l (active k) 0 r.1)) = true := by decide +kernel

/-- The reciprocal of 3 in BF16 is inexact; every trap is on. -/
theorem witness_VectorOneSource_traps : met (do
    let s := on .compute (fun k => { words [(0x398, 0x3F00), (0x100, 0x4040)] k with mask := 1 })
    let i := Instr.vrcp .bf16 (w 2) (w 0)
    go i s
    let k := issued i (iterCost .rcp (s.core s.cur) .bf16) s
    let (x, k1) ← got (readVec k .bf16 (w 0))
    let (_, k2) ← got (vectorLoc k1 (w 2))
    let r := runLanes k (fun u j => iterLane .rcp (iterCount k .bf16) .bf16 .rne u (decodeFmt .bf16 (lane 16 x j))) (List.range 32) (drawIndex k)
    need (natAnd r.2.1 (field (numCtl k2) 13 8) ≠ 0)) = true := by decide +kernel

theorem witness_VectorToScalar : met (do
    let s := on .compute (fun k => { words vecs k with mask := 3 })
    let i := Instr.vcmp .eq .fp32 (w 4) (w 0) (w 1)
    go i s
    let (_, k1) ← got (readVec (issued i 1 s) .fp32 (w 0))
    let (_, k2) ← got (readVec k1 .fp32 (w 1))
    let _ ← got (writeDst (orSticky k2 0) .z64 (w 4) 3)
    let i := Instr.vrmax .s8 (w 4) (w 0)
    go i s
    let (x, k1) ← got (readVec (issued i 1 s) .s8 (w 0))
    let vs := (List.range 64).map (fun j => if active (issued i 1 s) j then lane 8 x j else neutral 1 .s8)
    let r := treeReduce (minmaxLane true .s8) (coreDraw (issued i 1 s)) 6 vs 0 (drawIndex (issued i 1 s))
    need (natAnd r.2.1 (field (numCtl k1) 13 8) = 0)
    got (writeDst (setDrawIndex (orSticky k1 r.2.1) r.2.2) .s8 (w 4) r.1)) = true := by decide +kernel

/-- An ordered comparison with a NaN, and an inexact sum, with every trap on. -/
theorem witness_VectorToScalar_traps : met (do
    let s := on .compute (fun k => { words [(0x398, 0x3F00), (0x100, 0x308000007FC00000), (0x108, 0x3F800000)] k with mask := 7 })
    let i := Instr.vcmp .lt .fp32 (w 4) (w 0) (w 1)
    go i s
    let (x, k1) ← got (readVec (issued i 1 s) .fp32 (w 0))
    let (y, k2) ← got (readVec k1 .fp32 (w 1))
    need (natAnd (cmpLane .lt .fp32 (lane 32 x 0) (lane 32 y 0)).2 (field (numCtl k2) 13 8) ≠ 0)
    let i := Instr.vrsum .fp32 (w 4) (w 0)
    let s := s.modCore s.cur (fun k => { k with mask := 6 })
    go i s
    let (x, k1) ← got (readVec (issued i 1 s) .fp32 (w 0))
    let vs := (List.range 16).map (fun j => if active (issued i 1 s) j then lane 32 x j else 0)
    let r := treeReduce (arithLane .add .rne .fp32) (coreDraw (issued i 1 s)) 4 vs 0 (drawIndex (issued i 1 s))
    need (natAnd r.2.1 (field (numCtl k1) 13 8) ≠ 0)) = true := by decide +kernel

/-- Reads of the sources, the place of D and its store, for the instructions of VectorMoves. -/
theorem witness_VectorMoves : met (do
    let s := on .compute (fun k => { words vecs k with mask := 3 })
    let put (d : Spec) (k : Core) : Option Core := do
      let (l, k3) ← got (vectorLoc k d)
      got (storeLanes k3 1 l (fun j => j < 2) 0 (List.replicate 64 1))
    let two (i : Instr) (fb : Fmt) : Option Core := do
      go i s
      let (_, k1) ← got (readVec (issued i 1 s) .s8 (w 0))
      let (_, k2) ← got (readVec k1 fb (w 1))
      put (w 2) k2
    let vz (i : Instr) : Option Core := do
      go i s
      let (_, k1) ← got (readVec (issued i 1 s) .s8 (w 0))
      let (_, k2) ← got (readSrc k1 .z64 (c 1))
      put (w 2) k2
    let _ ← two (.vsel .s8 (w 2) (w 0) (w 1)) .s8
    let _ ← two (.vperm .s8 (w 2) (w 0) (w 1)) .s8
    let _ ← vz (.vkey .s8 (w 2) (w 0) (c 1))
    let i := Instr.vbcast .s8 (w 2) (w 0)
    go i s
    let (_, k1) ← got (readSrc (issued i 1 s) .s8 (w 0))
    let _ ← put (w 2) k1
    let i := Instr.vins .s8 (w 2) (w 0) (c 1)
    go i s
    let (_, k1) ← got (readSrc (issued i 1 s) .s8 (w 0))
    let (_, k2) ← got (readSrc k1 .z64 (c 1))
    let _ ← put (w 2) k2
    let i := Instr.vcompress .s8 (w 2) (w 0)
    go i s
    let (_, k1) ← got (readVec (issued i 1 s) .s8 (w 0))
    let _ ← put (w 2) k1
    let i := Instr.vext .s8 (w 2) (w 0) (c 1)
    go i s
    let (_, k1) ← got (readVec (issued i 1 s) .s8 (w 0))
    let (_, k2) ← got (readSrc k1 .z64 (c 1))
    let _ ← got (writeDst k2 .s8 (w 2) 1)
    let i := Instr.vcount .s8 (w 2) (w 0) (w 1)
    go i s
    let (_, k1) ← got (readVec (issued i 1 s) .s8 (w 0))
    let (_, k2) ← got (readSrc k1 .s8 (w 1))
    got (writeDst k2 .z64 (w 2) 1)) = true := by decide +kernel

/-- The last 64 bytes of a compute core's store; a gather and a scatter of lanes 0 and 1. -/
theorem witness_VectorMemory : met (do
    let s := on .compute (fun k => { words [(16, 0x11FC0), (24, 0), (0x100, 0x0000000800000004)] k with mask := 3 })
    let i := Instr.vld .s32 (w 2) (w 2) (w 3)
    go i s
    let (x, k1) ← got (readS (issued i 1 s) (w 2))
    let (y, k2) ← got (readS k1 (w 3))
    need (x + y = 0x11FC0 ∧ 0x11FC0 + 64 ≤ (issued i 1 s).top ∧ pendingAt k2 0x11FC0 64 = false)
    let (l, k3) ← got (vectorLoc k2 (w 2))
    let _ ← got (storeLanes k3 4 l (active (issued i 1 s)) 0 (lanesOf 32 (readLocal k2 0x11FC0 64)))
    let i := Instr.vst .s32 (w 2) (w 2) (w 3)
    go i s
    let (_, k1) ← got (readS (issued i 1 s) (w 2))
    let (_, k2) ← got (readS k1 (w 3))
    let (v, k3) ← got (readVec k2 .s32 (w 2))
    let _ ← got (storeLanes k3 4 (.at 0x11FC0) (active (issued i 1 s)) 0 (lanesOf 32 v))
    let i := Instr.vldx .s32 (w 2) (w 3) (w 0)
    go i s
    let k := issued i (gatherCost .s32 (w 3) (w 0) (s.core s.cur)) s
    let (x, k1) ← got (readS k (w 3))
    let (v, k2) ← got (readVec k1 (indexFmt .s32) (w 0))
    let _ ← got (checkLanes k2 32 x v ((List.range 16).filter (active k)))
    let vs ← got (loadLanes k2 32 x v (List.range 16))
    let (l, k3) ← got (vectorLoc k2 (w 2))
    let _ ← got (storeLanes k3 4 l (active k) 0 vs)
    let i := Instr.vstx .s32 (w 2) (w 3) (w 0)
    go i s
    let k := issued i (gatherCost .s32 (w 3) (w 0) (s.core s.cur)) s
    let (x, k1) ← got (readS k (w 3))
    let (v, k2) ← got (readVec k1 (indexFmt .s32) (w 0))
    let _ ← got (checkLanes k2 32 x v ((List.range 16).filter (active k)))
    let (u, k3) ← got (readVec k2 .s32 (w 2))
    got (scatterLanes 32 x v u ((List.range 16).filter (active k)) k3)) = true := by decide +kernel

/-- To BF16, and to E2M1, whose elements are half bytes. -/
theorem witness_VectorConvert : met (do
    let s := on .compute (fun k => { words vecs k with mask := 3 })
    let run (f : Fmt) : Option (Loc × Core × (List Nat × Nat × Nat)) := do
      let i := Instr.vcvt f .fp32 .rne (w 2) (w 0)
      go i s
      let k := issued i 1 s
      let (x, k1) ← got (readVec k .fp32 (w 0))
      let (l, k2) ← got (vectorLoc k1 (w 2))
      let r := runLanes k (fun u j => cvtFrom .fp32 f (e5o k) .rne u (lane 32 x j)) (List.range 16) (drawIndex k)
      need (natAnd r.2.1 (field (numCtl k2) 13 8) = 0)
      some (l, k2, r)
    let (l, k2, r) ← run .bf16
    let _ ← got (storeLanes (flagged k2 r) 2 l (active k2) 0 r.1)
    let (l, k2, r) ← run .e2m1
    need (fmtBits .e2m1 = 4)
    let old ← got (loadVec (flagged k2 r) l)
    got (storeLanes (flagged k2 r) 1 l (fun j => j == 0) 0 (nibbleBytes (lanesOf 4 old)))) = true := by decide +kernel

/-- 1 + 2^-23 in BF16 is inexact; every trap is on. -/
theorem witness_VectorConvert_traps : met (do
    let s := on .compute (fun k => { words [(0x398, 0x3F00), (0x100, 0x3F800001)] k with mask := 1 })
    let i := Instr.vcvt .bf16 .fp32 .rne (w 2) (w 0)
    go i s
    let k := issued i 1 s
    let (x, k1) ← got (readVec k .fp32 (w 0))
    let (_, k2) ← got (vectorLoc k1 (w 2))
    let r := runLanes k (fun u j => cvtFrom .fp32 .bf16 (e5o k) .rne u (lane 32 x j)) (List.range 16) (drawIndex k)
    need (natAnd r.2.1 (field (numCtl k2) 13 8) ≠ 0)) = true := by decide +kernel

/-- Counters at the address of a2, word 0x310. -/
theorem witness_VectorHistogram : met (do
    let s := on .compute (fun k => { words [(0x310, 0x1000), (0x100, 0x1234)] k with mask := 1 })
    let i := Instr.vhist .fp16 (p 2) (w 0) (c 8)
    go i s
    let k := issued i (histCost .fp16 (w 0) (c 8) (s.core s.cur)) s
    let (x, k1) ← got (readVec k .fp16 (w 0))
    let (y, k2) ← got (readSrc k1 .z64 (c 8))
    need (field (aWord k2 2) 16 0 = 0x1000 ∧ 0x1000 + 1024 ≤ (s.core s.cur).top)
    got (histLanes 0x1000 16 x (y % 64) ((List.range 32).filter (active k)) k2)) = true := by decide +kernel

/-! ### Witnesses: transfers, traps, handlers, firings -/

def frame (bc boundary : Bool) (t : Trap) : Frame :=
  { wp := 0x400, pc := 0x140, budget := 77, len := 4, bc := bc, trap := t, boundary := boundary, idle := false, insn := 0, ext := 0 }

/-- Every clause of the direct transfers: taken and untaken, a target in text, a loop at its last count and before. -/
theorem witness_DirectTransfers : met (do
    let s := coded .compute (fun k => { words [(0, 1), (8, 2)] k with flags := 0 })
    go (.b .ne 4 ) s
    let cases : List (Cond × Bool) := [(.eq, false), (.ne, true)]
    need (∀ x ∈ cases, condHolds x.1 (s.core s.cur).flags = x.2)
    got (checkTarget (issuedState (.b .ne 4) 2 s) s.cur 0x110)
    go (.j 0x200) s
    got (checkTarget (issuedState (.j 0x200) 2 s) s.cur 0x200)
    go (.call 4) s
    got (checkTarget (issuedState (.call 4) 2 s) s.cur 0x110)
    for o in [0, 8, 248] do
      need (pendingAt (s.core s.cur) ((s.core s.cur).wp + o) 8 = false ∧ heldAt (s.core s.cur) ((s.core s.cur).wp + o) 8 = false)
    go (.loop 0 (-4)) s
    go (.loop 1 (-4)) s
    need (readLocal (s.core s.cur) 0 8 = 1)
    got (checkTarget (issuedState (.loop 1 (-4)) 1 s) s.cur 0xF0)
    need ((readLocal (s.core s.cur) 8 8 + (2 ^ 64 - 1)) % 2 ^ 64 ≠ 0)) = true := by decide +kernel

/-- Returns to a text offset and, on a control core, to the resume marker; `jx`; targets that trap; `nop`, `trap` and `brk`
with BRKE clear and set. -/
theorem witness_TransfersTrapsAndBreaks : met (do
    let s := coded .compute (words [(0xF8, 0x200), (0x10, 0x204)])
    go .ret s
    need (pendingAt (s.core s.cur) ((s.core s.cur).wp + 248) 8 = false)
    need (readLocal (issued .ret 2 s) ((s.core s.cur).wp + 248) 8 = 0x200)
    got (checkTarget (s.setCore s.cur (issued .ret 2 s)) s.cur 0x200)
    go (.jx (w 2)) s
    let (v, k) ← got (readSrc (issued (.jx (w 2)) 2 s) .z64 (w 2))
    got (checkTarget (s.setCore s.cur k) s.cur v)
    let s := coded .control (words [(0xF8, 0xFFFFFFFFFFFFFFF0)])
    go .ret s
    need (readLocal (issued .ret 2 s) ((s.core s.cur).wp + 248) 8 = 0xFFFFFFFFFFFFFFF0)
    go (.jx (w 31)) s
    let (v, _) ← got (readSrc (issued (.jx (w 31)) 2 s) .z64 (w 31))
    need (v = 0xFFFFFFFFFFFFFFF0 ∧ s.cur.cls = .control)
    let s := coded .compute id
    go (.j 0x202) s
    go (.j 0x2000) s
    go (.call 0x7FFFF) s
    let l ← codeLaunch (issuedState (.j 0x2000) 2 s) s.cur (issued (.j 0x2000) 2 s)
    need (sectionEnd l 0x2000 = none)
    let l ← codeLaunch (issuedState (.call 0x7FFFF) 2 s) s.cur (issued (.call 0x7FFFF) 2 s)
    need (sectionEnd l (((((s.core s.cur).pc : Int) + 4 * (0x7FFFF : BitVec 20).toInt) % 2 ^ 32).toNat) = none)
    go .nop s
    go (.trap 7) s
    go (.brk 7) s
    need (bitAt (s.core s.cur).tcfg 7 = false)
    let s := coded .compute (fun k => { k with tcfg := 0x80 })
    go (.brk 7) s
    need (bitAt (s.core s.cur).tcfg 7 = true)) = true := by decide +kernel

/-- A usable trap handler: code offset 0x200, workspace 1, 16 × 256 cycles. -/
def handled (f : Core → Core) : State :=
  coded .compute (fun k => f { k with tcfg := 0x100001 , tent := 0x200 })

theorem witness_TrapEntersHandler : met (do
    let s := handled id
    let t : Trap := { cause := .trap, sub := 7 }
    let s0 := surfaceJob (clearWaits (gangTrap s s.cur t 0xF0030007 false) s.cur) s.cur t
    let k := s0.core s.cur
    need (k.tframe = none ∧ t.cause ≠ .attach ∧ t.cause ≠ .ttb)
    need (handlerUsable s0 s.cur k (field k.tent 31 0) = true)
    let b := changeWp k (1024 * field k.tcfg 6 0)
    need (Memory.wf b.ls = true ∧ Memory.wf b.sh = true)) = true := by decide +kernel

/-- A trap in the trap handler, and one with no usable handler. -/
theorem witness_ContextEndsOnCore : met (do
    let t : Trap := { cause := .trap, sub := 7 }
    let s := handled (fun k => { k with tframe := some (frame false false t) })
    let s0 := surfaceJob (clearWaits (gangTrap s s.cur t 0xF0030007 false) s.cur) s.cur t
    need ((s0.core s.cur).tframe.isSome = true)
    let s := coded .compute id
    let s0 := surfaceJob (clearWaits (gangTrap s s.cur t 0xF0030007 false) s.cur) s.cur t
    let k := s0.core s.cur
    need (handlerUsable s0 s.cur k (field k.tent 31 0) = false ∧ t.cause ≠ .attach ∧ t.cause ≠ .ttb)) = true := by decide +kernel

/-- The modes of `rtt` after the trap handler, after the local handler, and outside both. -/
theorem witness_ReturnFromHandler : met (do
    let fr := frame false false { cause := .trap, sub := 7 }
    let s := handled (fun k => { k with tframe := some fr })
    need ((s.core s.cur).run ≠ .idle ∧ fr.idle = false ∧ fr.trap.cause ≠ .budget ∧ (s.core s.cur).tframe = some fr)
    go .rttResume s
    go .rttSkip s
    go .rttAbort s
    go .rttDrop s
    go .rttKill s
    let s := handled (fun k => { k with lframe := some fr })
    need ((s.core s.cur).run ≠ .idle ∧ (s.core s.cur).tframe = none ∧ (s.core s.cur).lframe = some fr)
    go .rttResume s
    go .rttSkip s
    let s := handled id
    need ((s.core s.cur).tframe = none ∧ (s.core s.cur).lframe = none)
    go .rttResume s
    go .rttSkip s
    go .rttAbort s
    go .rttDrop s
    go .rttKill s) = true := by decide +kernel

theorem witness_FiringCloses : met (do
    let s := coded .compute id
    go .endFiring s
    let k := s.core s.cur
    need (k.kout = 0 ∧ k.ctm + k.sbuf.length ≤ 65535)
    need (k.run = .firing 0 ∧ k.preReq = none ∧ k.pairReq ≠ 2 ∧ ∀ x ∈ k.chans, x.bind ≠ 2)) = true := by decide +kernel

/-- Two runnable channels, of priorities 1 and 2. -/
theorem witness_Selection : met (do
    let ch (prio : Nat) : Chan :=
      { bind := 1, ready := true, size := 8, fill := 2, ctl := { entry := 0x200, budget := 4, wpi := 0, rate := 1, prio := prio } }
    let s := coded .compute (fun k => { k with run := .idle, chans := [{}, ch 1, {}, ch 2] ++ List.replicate 28 {} })
    let s := { s with ev := { s.ev with core := s.cur } }
    let k := s.core s.cur
    let n ← pickChannel k
    need (s.ev.core = s.cur ∧ k.run = .idle ∧ k.life = .active ∧ k.tframe = none ∧ k.lframe = none ∧ k.pairReq ≠ 3 ∧
      k.pst ≠ .checker ∧ k.bpend = [] ∧ launchKilled s k = false ∧ s.health.stopped = false)
    need (dropCancelled k n = none ∧ 1024 * (nth k.chans n {}).ctl.wpi = k.wp ∧ Memory.wf k.ls = true ∧ Memory.wf k.sh = true)
    need ((List.range 32).all (fun n => decide ((nth k.chans n {}).ctl.prio ≤ 3)) = true)) = true := by decide +kernel

/-- Each register of `srr`, `rdcyc`, and each clause of `srw`: with and without SUP, on a compute core and a control core. -/
theorem witness_SystemRegisters : met (do
    let s := coded .control (fun k => { words [(0x10, 0x03), (0x18, 0x20), (0x20, 0x24)] k with sup := true })
    for a in [w 2, w 3, w 4] do
      let i := Instr.srr (w 5) a
      go i s
      let (v, k) ← got (readSrc (issued i 1 s) .z64 a)
      need (v ∈ [0x03, 0x20, 0x24])
      let _ ← got (writeDst k .z64 (w 5) 0)
    go (.rdcyc (w 5)) s
    let _ ← got (writeDst (issued (.rdcyc (w 5)) 1 s) .z64 (w 5) 0)
    for n in [(0x03 : BitVec 7), 0x04, 0x20, 0x21, 0x22, 0x23, 0x10] do
      let i := Instr.srw n (c 0)
      go i s
      let (v, k) ← got (readSrc (issued i 1 s) .z64 (c 0))
      need (v % 2 ^ 17 % 256 = 0 ∧ k.sup = true ∧ s.cur.cls = .control)
    let s := coded .compute id
    for n in [(0x03 : BitVec 7), 0x20] do
      let i := Instr.srw n (c 0)
      go i s
      let (_, k) ← got (readSrc (issued i 1 s) .z64 (c 0))
      need (k.sup = false ∧ s.cur.cls ≠ .control)) = true := by decide +kernel

/-- `sflag`, `wpset` to the same place and to another, `wdog` with A 0 and not 0, and `pair` in each of its cases. -/
theorem witness_FlagsWorkspaceBudgetPair : met (do
    let s := coded .compute (words [(0x10, 0x3F), (0x18, 0x400), (0x20, 0), (0x28, 1), (0x30, 2), (0x38, 3)])
    let i := Instr.sflag (w 9) (w 2)
    go i s
    let (_, k) ← got (readSrc (issued i 1 s) .z64 (w 2))
    need (k.kout = 0)
    let _ ← got (writeDst k .z64 (w 9) (stickyWord k))
    for x in [(w 3, 16), (w 4, 1)] do
      let i := Instr.wpset x.1
      go i s
      let (v, k) ← got (readSrc (issued i x.2 s) .z64 x.1)
      let _ ← got (readSrc (s.core s.cur) .z64 x.1)
      need (x.2 = (if v = (s.core s.cur).wp then 1 else 16) ∧ v % 1024 = 0 ∧ v + 1024 ≤ topOf s.cur.cls ∧ k.pendDst = [])
    for a in [w 3, w 4] do
      let i := Instr.wdog (w 9) a
      go i s
      let (_, k) ← got (readSrc (issued i 0 s) .z64 a)
      let _ ← got (writeDst k .z64 (w 9) k.cyclesLeft)
    for x in [(w 4, 0), (w 5, 1), (w 6, 2), (w 7, 3)] do
      let i := Instr.pair (w 9) x.1
      go i s
      let (v, k) ← got (readSrc (issued i 1 s) .z64 x.1)
      let _ ← got (writeDst k .z64 (w 9) 0)
      need (v = x.2)
    let k := s.core s.cur
    let p := s.core (coreAt (rowOf s.cur) (placeOf s.cur + 1))
    need (placeOf s.cur % 2 = 0 ∧ k.pst = .single ∧ k.pairReq = 0 ∧ p.life = .free)
    let s2 := s.setCore ⟨.compute, 1⟩ k
    let p := s2.core (coreAt (rowOf s2.cur) (placeOf s2.cur + 1))
    need (p.life ≠ .free ∧ p.ctx = k.ctx ∧ p.launch = k.launch)
    let s3 := { s2 with cur := ⟨.compute, 1⟩ }
    go (.pair (w 9) (w 5)) s3
    need (placeOf s3.cur % 2 = 1)
    let s4 := s.modCore s.cur (fun k => { k with pst := .primary })
    go (.pair (w 9) (w 6)) s4
    need ((s4.core s4.cur).pst = .primary)) = true := by decide +kernel

/-! ### Witnesses: the fabric, messages, decoding -/

/-- The result and the state of an access to the device, where it goes through. -/
def had {α : Type} : Got α → Option (α × State)
  | .ok a s => some (a, s)
  | _ => none

/-- Cores 0 and 1 of one context, with logical numbers 0 and 1. -/
def two (f : Core → Core) : State :=
  let s := coded .compute f
  s.setCore ⟨.compute, 1⟩ { s.core ⟨.compute, 0⟩ with logical := 1 }

/-- A store to another core's window, a load from a row window, an atomic to bulk memory, to a core and to the system window,
and each trap. -/
theorem witness_FabricAccesses : met (do
    let s := two (words [(0x10, 0x20008), (0x18, 0x80000010), (0x20, 0x100000040), (0x28, 0xA0000000), (0x30, 0x20009),
      (0x38, 0x60000), (0x40, 5)])
    let k := s.core s.cur
    need (waitClear k .wf = true ∧ k.ctf = 0 ∧ k.ctb = 0 ∧ k.ldo = 0 ∧ k.atm = 0 ∧ fenceClear k = true)
    let i := Instr.fst .wf .z32 .rel (w 8) (w 2) false .dev
    go i s
    let (va, k1) ← got (readSrc (issued i 1 s) .z64 (w 2))
    let (_, k2) ← got (readSrc k1 (ifmt .z32) (w 8))
    need (va % 4 = 0 ∧ k2.ctf < 65535)
    let _ ← got (fabricHome (s.setCore s.cur k2) s.cur k2.ctx va 4 true)
    let i := Instr.fst .wf .z64 .rel (w 0) (w 2) true .dev
    go i s
    let (va, k1) ← got (readSrc (issued i 1 s) .z64 (w 2))
    let (_, k2) ← got (readVec k1 .z64 (w 0))
    let _ ← got (fabricHome (s.setCore s.cur k2) s.cur k2.ctx va 64 true)
    for a in [w 2, w 3] do
      let i := Instr.fld .wf .s16 .acq (w 9) a false .dev
      go i s
      let (va, k1) ← got (readSrc (issued i 1 s) .z64 a)
      need (va % 2 = 0)
      let _ ← got (fabricHome (s.setCore s.cur k1) s.cur k1.ctx va 2 false)
      need (pendingAt k1 (dataPlace k1 false (w 9)).1 (dataPlace k1 false (w 9)).2 = false)
    let i := Instr.amo .dev .nw .z32 .acqrel (w 10) (w 2) .add
    go i s
    let (va, k1) ← got (readSrc (issued i 1 s) .z64 (w 2))
    need (k.atm < 8 ∧ va % 4 = 0 ∧ pendingAt k1 (dataPlace k1 false (w 10)).1 8 = false ∧ va < 0xA0000000)
    let _ ← got (fabricHome (s.setCore s.cur k1) s.cur k1.ctx va 4 true)
    let i := Instr.amo .dev .nw .z64 .rlx (w 10) (w 4) .cas
    go i s
    let (va, k1) ← got (readSrc (issued i 1 s) .z64 (w 4))
    need (va % 8 = 0 ∧ isBulk va = true ∧ pendingAt k1 (dataPlace k1 false (w 10)).1 16 = false)
    let _ ← had (coreTranslate (s.setCore s.cur k1) s.cur va 2)
    let i := Instr.amo .dev .nw .z64 .rlx (w 10) (w 5) .add
    go i s
    let (va, _) ← got (readSrc (issued i 1 s) .z64 (w 5))
    need (0xA0000000 ≤ va ∧ va < 0xB0000000 ∧ va % 8 = 0)
    for a in [w 6, w 7] do
      go (.fst .nw .z32 .rlx (w 8) a false .dev) s
      go (.fld .nw .z32 .rlx (w 8) a false .dev) s
      go (.amo .dev .nw .z32 .rlx (w 8) a .add) s
    let (va, _) ← got (readSrc k .z64 (w 6))
    need (va % 4 ≠ 0)
    let (va, _) ← got (readSrc k .z64 (w 7))
    need (va % 4 = 0 ∧ (got (fabricHome s s.cur k.ctx va 4 true)).isNone = true)) = true := by decide +kernel

theorem witness_Fences : met (do
    let s := coded .compute id
    let k := s.core s.cur
    need (waitClear k .nw = true ∧ k.pendDst = [] ∧ k.ctf = 0 ∧ k.ctb = 0)
    for o in [Order.rlx, .acq, .rel, .acqrel] do
      go (.fence .nw .core o) s
      go (.fence .nw .dev o) s) = true := by decide +kernel

/-- An access of core 0, with its kind and phase. -/
def access (h : Home) (va : Nat) (k : AccKind) (p : AccPhase) : Acc :=
  { src := ⟨.compute, 0⟩, ctx := 0, home := h, va := va, kind := k, phase := p, posted := 1, launch := 1 }

/-- A store at each kind of home and at one that is away; a load; an atomic that adds, swaps, compares equal and unequal; the
acknowledgement and the replies; a refusal sent again. -/
theorem witness_FabricEvents : met (do
    let s := two id
    let st := AccKind.store [1, 2, 3, 4]
    let b := Home.core ⟨.compute, 1⟩ 8
    for x in [(b, 0x20008), (.row 0 16, 0x80000010), (.bulk 0 0x200040, 0x100000040), (.away 3, 0x60000)] do
      let a := access x.1 x.2 st .going
      let s := { s with fab := [a] }
      need (fabItem s s.ev.i = some a ∧ a.src.cls ≠ .control)
      need (x.1 = .away 3 ∧ homeNow s a.ctx a.va a.home = none ∨ homeNow s a.ctx a.va a.home = some x.1)
    need (pid ⟨.compute, 1⟩ ≠ pid s.cur)
    for x in [(b, 0x20008), (.away 3, 0x60000)] do
      let a := access x.1 x.2 (.load 4 0x40 true true) .going
      let s := { s with fab := [a] }
      need (fabItem s s.ev.i = some a ∧ (homeNow s a.ctx a.va a.home = none ∨ homeNow s a.ctx a.va a.home = some b))
    for op in [AmoOp.add, .swp, .cas] do
      for x in [0, 7] do
        let a := access b 0x20008 (.amo op .z32 x 9 0x40) .going
        let s := { s with fab := [a] }
        need (fabItem s s.ev.i = some a ∧ s.ev.ok = true ∧ homeNow s a.ctx a.va a.home = some b)
        need (ofBytes (readHome s a.ctx b 4).1 = 0)
    for y in [(st, AccPhase.done []), (.load 4 0x40 true true, .done [1, 0, 0, 0]), (.load 64 0x100 true false, .done []),
        (.amo .add .s32 1 0 0x40, .done [1, 0, 0, 0]), (st, .refused), (st, .waiting)] do
      let a := access b 0x20008 y.1 y.2
      let s := { s with fab := [a] }
      need (s.fab[s.ev.i]? = some a ∧ accLives s a = true)) = true := by decide +kernel

/-- A destination word: channel 2 of logical core n, and a tag and length. -/
def dest (n len : Nat) : Nat := 5 * 2 ^ 48 + len * 2 ^ 32 + 2 * 2 ^ 16 + n

/-- `send` within and past the limits, `sendm` of 4 words, `enq` with and without ACK. -/
theorem witness_SendingMessages : met (do
    let d := words [(0x10, dest 1 0), (0x18, dest 1 4), (0x20, 0x1000), (0x28, 9)]
    let full := List.replicate 16 { src := none, ctx := 0, dest := dest 1 0, hdr := 0, words := [1] }
    for x in [(d, 0), (fun k => { d k with sbuf := full }, 16)] do
      let s := two x.1
      need (waitClear (s.core s.cur) .wm = true ∧ fenceClear (s.core s.cur) = true)
      let i := Instr.send .wm .rlx (w 5) (w 2)
      go i s
      let (v, k1) ← got (readSrc (issued i 1 s) .z64 (w 2))
      let (_, k2) ← got (readSrc k1 .z64 (w 5))
      got (destCheck (s.setCore s.cur k2) k2.ctx v (· == 0))
      need (k2.sout = [] ∧ k2.sbuf.length = x.2)
    let s := two d
    let i := Instr.sendm .wm .rlx (w 4) (w 3)
    go i s
    let (v, k1) ← got (readSrc (issued i (sendmCost (w 3) (s.core s.cur)) s) .z64 (w 3))
    let (x, k2) ← got (readSrc k1 .z64 (w 4))
    got (destCheck (s.setCore s.cur k2) k2.ctx v (fun n => decide (1 ≤ n) && decide (n ≤ 32)))
    need (destLen v = 4 ∧ x + 8 * 4 ≤ topOf s.cur.cls ∧ x % 8 = 0 ∧ pendingAt k2 x 32 = false)
    for ack in [false, true] do
      let i := Instr.enq .wm .rlx (w 5) (w 2) ack
      go i s
      let (v, k1) ← got (readSrc (issued i 1 s) .z64 (w 2))
      let (_, k2) ← got (readSrc k1 .z64 (w 5))
      got (destCheck (s.setCore s.cur k2) k2.ctx v (· == 0))
      need (k2.ctm < 65535)) = true := by decide +kernel

/-- `chbind` on an unbound and a bound channel and with a bad record; the other channel instructions, on the own core and on
another; `mnext` with no message left and with one. -/
theorem witness_ChannelInstructions : met (do
    let rec0 := 0x200 * 2 ^ 32 + 4 * 2 ^ 16 + 1 * 2 ^ 3 + 2
    let s := two (words [(0x10, 3), (0x18, 0x1000), (0x20, dest 0 0 % 2 ^ 48), (0x28, dest 1 0 % 2 ^ 48), (0x30, 1), (0x38, 0x1010),
      (0x40, 0x1020), (0x48, 0x43), (0x50, 0x23), (0x58, 0xFF), (0x1000, rec0), (0x1008, 8 * 2 ^ 14 + 0x300), (0x1010, rec0), (0x1018, 0),
      (0x1020, 1)])
    let s := { s with launches := [{ placedLaunch with kent := [0x100 * 2 ^ 16] }] }

    for x in [({} : Chan), { bind := 1, ready := true, size := 8, ctl := { rate := 1 } }] do
      for a in [w 3, w 7, w 8] do
        let s := s.modCore s.cur (fun k => { k with chans := setAt k.chans 3 x })
        let i := Instr.chbind (w 2) a
        go i s
        let (v, k0) ← got (readSrc (issued i 1 s) .z64 (w 2))
        let (y, k) ← got (readSrc k0 .z64 a)
        need (v < 32 ∧ y + 16 ≤ topOf s.cur.cls ∧ y % 8 = 0 ∧ pendingAt k y 16 = false)
        need (bindingOk (s.setCore s.cur k) k (nth k.chans v {}) (readLocal k y 8) (readLocal k (y + 8) 8) =
          (a == w 3 && x.bind == 0 || a == w 7 && x.bind == 1) ∧ (nth k.chans v {}).bind = x.bind)
    need (field rec0 8 3 ≠ 0)
    for i in [Instr.chhold, .chrdy] do
      for a in [w 4, w 5] do
        go (i a (w 6)) s
        let (v, k0) ← got (readSrc (issued (i a (w 6)) 1 s) .z64 a)
        let (x, k) ← got (readSrc k0 .z64 (w 6))
        got (destCheck (s.setCore s.cur k) k.ctx v (· == 0))
        need (x < 2 ∧ destTag v = 0 ∧ k.ctm < 65535)
        need (destCore (s.setCore s.cur k) k.ctx v = some ⟨.compute, if a = w 4 then 0 else 1⟩)
    go (.chmask (w 2) (w 6)) s
    for x in [(w 2, 0), (w 10, 1), (w 9, 2), (w 11, 7)] do
      let i := Instr.chstat (w 12) x.1
      go i s
      let (v, k) ← got (readSrc (issued i 1 s) .z64 x.1)
      let _ ← got (writeDst k .z64 (w 12) 0)
      need (v < 256 ∧ v / 32 = x.2)
    for h in [[], [(0, { word := 0x01000000 })]] do
      let s := s.modCore s.cur (fun k => { k with hdrs := h, chans := setAt k.chans 0 { bind := 1, ctl := { rate := 2 } } })
      let s := s.modCore s.cur (fun k => { k with hdrs := h ++ h })
      go (.mnext (w 12)) s
      let k0 := issued (.mnext (w 12)) 1 s
      let _ ← got (writeDst k0 .z64 (w 12) 0)
      need ((nextMessage k0).isNone = h.isEmpty)) = true := by decide +kernel

/-- A message of core 0 to channel 2 of core 1. -/
def message (kind : MsgKind) (p : MsgPhase) : Msg :=
  { src := some ⟨.compute, 0⟩, ctx := 0, dest := dest 1 0, hdr := 0x01000000, words := [9], kind := kind, phase := p, launch := 1 }

/-- Core 1 with channel 2 bound. -/
def receiver (f : Core → Core) : State :=
  (two id).modCore ⟨.compute, 1⟩ (fun k => f { k with chans := setAt k.chans 2 { bind := 1, base := 0x200, size := 8, ctl := { rate := 1 } } })

theorem witness_MessageEvents : met (do
    let d : CoreId := ⟨.compute, 1⟩
    let src : CoreId := ⟨.compute, 0⟩
    let s := receiver id
    let m := message .ordinary .going
    let s1 := s.modCore src (fun k => { k with sout := [m] })
    need (s1.ev.core = src ∧ (s1.core src).sout = [m] ∧ s1.net = [])
    let s2 := { s with net := [m] }
    need (netItem s2 s2.ev.i = some m ∧ destCore s2 m.ctx m.dest = some d ∧ takesMessages (s2.core d) = true)
    let _ ← landWords (s2.core d) 2 m.hdr m.words
    need (senderLives s2 m = some src ∧ pid src ≠ pid d)
    let s3 := s2.modCore d (fun k => { k with chans := List.replicate 32 {} })
    need ((landWords (s3.core d) 2 m.hdr m.words).isNone = true ∧ takesMessages (s3.core d) = true)
    let away := { m with dest := dest 9 0 }
    need (destCore { s with net := [away] } 0 (dest 9 0) = none)
    for n in [4094, 4095] do
      let m := { message .ordinary (.refused true) with refusals := n }
      need (({ s with net := [m] }).net[s.ev.i]? = some m ∧ senderLives s m = some src)
    need (({ s with net := [message .ordinary .waiting] }).net[s.ev.i]? = some (message .ordinary .waiting))
    let e := message (.enq false) .going
    let s4 := { s with net := [e] }
    need (netItem s4 s4.ev.i = some e ∧ destCore s4 e.ctx e.dest = some d ∧ coreAway (s4.core d) = false ∧ (s4.core d).landing = [])
    let _ ← landWords (s4.core d) 2 e.hdr e.words
    need ((nth (s4.core d).chans 2 {}).bind ≠ 0 ∧ (nth (s3.core d).chans 2 {}).bind = 0)
    let s5 := receiver (fun k => { k with chans := setAt k.chans 2 { bind := 1, size := 8, fill := 8 } })
    need ((landWords (s5.core d) 2 e.hdr e.words).isNone = true ∧ (nth (s5.core d).chans 2 {}).bind ≠ 0)
    let s6 : State := { receiver (fun k => { k with landing := [e] }) with ev := { core := d } }
    need ((s6.core d).landing[s6.ev.i]? = some e ∧ coreAway (s6.core d) = false ∧ s6.ev.i = 0)
    let _ ← landWords { s6.core d with landing := dropAt (s6.core d).landing s6.ev.i } 2 e.hdr e.words
    for x in [MsgKind.hold true, .ready true] do
      let m := message x .going
      let s := { s with net := [m] }
      need (netItem s s.ev.i = some m ∧ destCore s m.ctx m.dest = some d ∧ senderLives s m = some src)
    for x in [MsgKind.cancel 3 5, .clear 3] do
      let m := { message x .going with src := none, toC := some d }
      let s := { s with net := [m] }
      need (netItem s s.ev.i = some m)) = true := by decide +kernel

theorem witness_MessagesLand : met (do
    let k := (receiver (fun k => { k with run := .idle, life := .free })).core ⟨.compute, 1⟩
    let e := nth k.chans 2 {}
    need (2 < k.chans.length ∧ e.fill ≤ e.size)
    let _ ← landWords k 2 0x01000000 [9]
    need (Memory.wf k.ls = true ∧ Memory.wf k.sh = true ∧ k.h3fifo = false ∧ k.hasWorkspace = false)) = true := by decide +kernel

theorem witness_TrapAndCodeEvents : met (do
    let t : Trap := { cause := .tile, async := true }
    let s := coded .compute (fun k => { k with budget := 0, bpend := [t] })
    need (s.ev.core = s.cur ∧ executes s s.cur = true ∧ (s.core s.cur).cyclesLeft = 0)
    let k := s.core s.cur
    need (k.bpend = [t] ∧ k.inHandler = false ∧ k.life = .active ∧ k.pst ≠ .checker ∧ k.vpend = false ∧ s.health.stopped = false)
    let r : FRec := { ctx := 0, words := List.replicate 8 1 }
    let m := memWrite (memWrite (memWrite s.near 0x201000 8 0x100002000) 0x201008 8 0) 0x201010 8 (4 * 2 ^ 32)
    let s := { s with near := m, frecs := [r], ctxs := memWrite s.ctxs 0x20 8 0x100001000 }
    let desc := field (ctxWord s 0 0x20) 47 0
    need (desc ≠ 0 ∧ descReachable { s with frecs := [] } 0 desc = true)
    let w0 ← svcWord s 0 desc 8
    let w1 ← svcWord s 0 (desc + 8) 8
    let w2 ← svcWord s 0 (desc + 16) 8
    need ((field w1 31 0 + 2 ^ 32 - field w1 63 32) % 2 ^ 32 ≠ 2 ^ field w2 36 32)
    let s1 ← svcWrite { s with frecs := [] } 0 (field w0 47 12 * 4096) ((r.words.map (toBytes 8)).flatten)
    let _ ← svcWrite s1 0 (desc + 8) (toBytes 4 1)
    let n ← svcWord s 0 (0x100000000 + 8) 4
    let s1 ← svcWrite s 0 (0x100000000 + n) [1, 2]
    let _ ← svcWrite s1 0 (0x100000000 + 8) (toBytes 4 (n + 2))) = true := by decide +kernel

theorem witness_EncodeDecode : met (do
    let i := Instr.vcvt .bf16 .fp32 .rne (w 1) (w 0)
    need (i.isNative = true ∧ i.wf .compute = true)
    need ((Instr.bcLoadattr 0x1234 0x5678).isBytecode = true)) = true := by decide +kernel

/-- A native step with an accepted word, with one that no class accepts and off the sections; a step in bytecode mode. -/
theorem witness_StepRunsDecoded : met (do
    let at' (s : State) (c : CoreId) : State := { beginTurn (nextTurn s) s with cur := c }
    for x in [(0xF0000000, true), (0x2A000000, false)] do
      let s := placeNative State.reset x.1
      let d ← match (nextTurn s).actor with | .core d => some d | _ => none
      let s0 := at' s d
      let k := s0.core d
      need (k.vpend = false ∧ k.bpend = [] ∧ k.idleReady = false ∧ executes s0 d = true ∧ k.cyclesLeft ≠ 0 ∧ k.bcMode = false)
      let (ws, s1) ← had (fetchInstr s0 d)
      need (nth ws 0 0 = x.1 ∧ (got (decode d.cls (nth ws 0 0) 0 0 0 0)).isSome = x.2)
      need (executes s1 d = true ∧ (s1.core d).bcMode = false ∧ (s1.core d).vpend = false ∧ (s1.core d).acqWait = false)
      let l ← codeLaunch s0 d k
      let _ ← sectionEnd l k.pc
      let ((t, pa), _) ← had (coreTranslate s0 d (codeAddr l k.pc) 3)
      let w := memRead (s0.tier t) pa 4
      need (landedCode s0 l k.pc = true ∧ w ≠ 0 ∧ extCount (w / 2 ^ 24) = 0)
    let s := (placeNative State.reset 0xF0000000).modCore ⟨.compute, 0⟩ (fun k => { k with pc := 0x4000 })
    let s0 := at' s ⟨.compute, 0⟩
    need ((match fetchInstr s0 ⟨.compute, 0⟩ with | .trap _ => true | _ => false) = true)
    let d : CoreId := ⟨.control, 0⟩
    let s := placeBytecode State.reset [0x01]
    let s0 := at' s d
    let k := s0.core d
    need ((nextTurn s).actor = .core d ∧ k.vpend = false ∧ k.bpend = [] ∧ k.idleReady = false ∧ executes s0 d = true ∧
      k.cyclesLeft ≠ 0 ∧ k.bcMode = true)
    match fetchBytecode s0 d with | .ok _ _ => some () | _ => none) = true := by decide +kernel

/-! ### Witnesses: tiles, copies, the kiln -/

def shape (l : List Nat) : Shape :=
  let f (i : Nat) : BitVec 16 := BitVec.ofNat 16 (nth l i 0)
  ⟨f 0, f 1, f 2, f 3, f 4, f 5, f 6, f 7⟩

theorem witness_MemoryReadBack : Memory.wf (memWrite [] 8 8 5) = true ∧ Memory.wf ([] : Mem) = true := by decide +kernel

/-- Tile definitions that are accepted and refused, arming, waits and polls, draining, and jobs in each status. -/
theorem witness_TilesAndJobs : met (do
    let t : Trap := { cause := .fabric, addr := 64 }
    let tile : Tile := { base := 0x1000, nch := 4, st := .ready, exp := 3, arr := 3 }
    let s := coded .compute (fun k => { words [(0x10, 4 * 2 ^ 32 + 0x1000), (0x18, 4 * 2 ^ 32 + 0x21000), (0x20, 3), (0x28, 16), (0x30, 1), (0x38, 2)] k with
      tiles := setAt k.tiles 2 tile, jobs := [(3, .complete), (1, .pending), (2, .failed t false none 0)] })
    let i := Instr.tdef 1 (w 2)
    go i s
    let (v, k) ← got (readSrc (issued i 1 s) .z64 (w 2))
    need (field v 31 17 = 0 ∧ field v 63 39 = 0 ∧ field v 38 32 = 4 ∧ field v 16 0 % 512 = 0 ∧ field v 16 0 + 2048 ≤ topOf s.cur.cls)
    need (k.kheld.contains 1 = false ∧ tileBusy (s.setCore s.cur k) s.cur 1 = false ∧ (nth k.tiles 1 {}).st ≠ .draining)
    go (.tdef 1 (w 3)) s
    let (v, _) ← got (readSrc (issued (.tdef 1 (w 3)) 1 s) .z64 (w 3))
    need (field v 31 17 ≠ 0)
    for x in [((2 : Fin 16), w 4, true), (2, w 5, false), (1, w 4, false)] do
      let i := Instr.tarm x.1 x.2.1
      go i s
      let (v, k) ← got (readSrc (issued i 1 s) .z64 x.2.1)
      let e := nth k.tiles x.1.val {}
      need (decide (e.nch ≠ 0 ∧ v < 2 ^ e.nch ∧ e.err = false ∧ e.st = .ready) = x.2.2)
    for a in [w 4, c 0] do
      let i := Instr.twait 2 a
      go i s
      let (v, k) ← got (readSrc (issued i 1 s) .z64 a)
      let e := nth k.tiles 2 {}
      need (natAnd (if v = 0 then e.exp else v) e.arr = (if v = 0 then e.exp else v))
    for n in [(2 : Fin 16), 1] do
      go (.ttest (w 9) n) s
      let _ ← got (writeDst (issued (.ttest (w 9) n) 1 s) .z64 (w 9) 0)
    go (.tdrain 2) s
    let k := issued (.tdrain 2) 1 s
    need (2 < k.tiles.length ∧ k.kheld.contains 2 = false ∧
      tileBusy (s.setCore s.cur { k with tiles := setAt k.tiles 2 { tile with st := .draining } }) s.cur 2 = false)
    for x in [(w 4, JobStatus.complete), (w 6, .pending), (w 7, .failed t false none 0)] do
      go (.jwait x.1) s
      go (.jpoll (w 9) x.1) s
      let (v, k) ← got (readSrc (issued (.jpoll (w 9) x.1) 1 s) .z64 x.1)
      need (v < 2 ^ 16 ∧ jobStatus k v = x.2)
      let _ ← got (writeDst k .z64 (w 9) 0)) = true := by decide +kernel

/-- The hypotheses of `CopyIssue` for a form of `cpy` or `cpys`, its record, and its block. -/
def copyMet (slab : Bool) (kind : BitVec 3) (rec : List Nat) (blk : List (Nat × Nat)) : Option Unit := do
  let ring : Ring := { base := 0, size := 8192, count := 2, stages := [.empty, .empty], claim := some 1 }
  let s := (coded .compute (fun k => { words blk k with tiles := setAt k.tiles 2 { base := 0x2000, nch := 4, st := .filling } })).modRow 0
    (fun r => { r with rings := setAt r.rings 1 ring })
  let r := shape rec
  let i : Instr := if slab then .cpys 2 kind false (w 9) r else .cpy (if kind = 1 then 1 else 0) (if kind = 0 then 2 else 0) kind false (w 9) r
  let k := issued i 4 s
  go i s
  let v ← got (shapeVals k r)
  let _ ← got (writeDst k .z64 (w 9) 0)
  need (okDst (w 9) = true ∧ (nth v 5 0 = 0 ∧ nth v 6 0 = 0 ∧ nth v 7 0 = 0 ∧ kind.toNat < 3 ∨ slab = true))
  need (slab = false ∨ nth v 6 0 < 2 ^ 13 ∧ kind = 0)
  let b := 64 * nth v 0 0
  need (recordOk slab v = true ∧ b + 64 ≤ topOf s.cur.cls ∧ pendingAt k b 64 = false)
  let w (n : Nat) : Nat := readLocal k (b + 8 * n) 8
  need (w 6 = 0 ∧ w 7 = 0 ∧ (if slab then w 1 < 2 ^ 14 else kind = 2 ∨ w 1 = 0) ∧ w 0 % 8 = 0 ∧ w 2 % 8 = 0 ∧ w 3 % 8 = 0)
  need (slab = true ∨ kind ≠ 2 ∨ w 1 % 8 = 0)
  need (slab = false ∨ w 1 / 8 % 64 + field (nth v 6 0) 6 0 ≤ 64 ∧ w 1 / 8 / 64 + field (nth v 6 0) 12 7 ≤ 32 ∧ w 1 % 8 + nth v 7 0 ≤ 8)
  let e := nth k.tiles 2 {}
  need (e.nch ≠ 0 ∧ e.err = false ∧ e.st = .filling ∧ (kind ≠ 0 ∨ slab = true ∨ rowsFit v (512 * e.nch) = true))
  need (ring.claim = some k.lkey ∧ ring.count ≠ 0 ∧ (kind ≠ 1 ∨ rowsFit v ring.size = true))
  need (fenceClear k = true ∧ k.ctf < 65535 ∧ k.ctb < 65535 ∧ mayQueue (issuedState i 4 s) s.cur = true)

/-- A copy to a tile, to a ring, to bulk, to a window, with no extent, and to a slab of 8 cores. -/
theorem witness_CopyIssue :
    copyMet false 0 [0x40, 2, 64, 64, 0] [(0x1000, 0x100000000), (0x1010, 64)] = some () ∧
    copyMet false 1 [0x40, 2, 64, 64, 0] [(0x1000, 0x100000000), (0x1010, 64)] = some () ∧
    copyMet false 2 [0x40, 2, 64, 64, 0] [(0x1000, 0x100000000), (0x1008, 0x100010000), (0x1010, 64)] = some () ∧
    copyMet false 2 [0x40, 0, 64, 64, 0] [(0x1000, 0x100000000), (0x1008, 0x20000), (0x1010, 64)] = some () ∧
    copyMet true 0 [0x40, 1, 64, 64, 0, 1, 0x81, 8] [(0x1000, 0x100000000), (0x1010, 64)] = some () := by decide +kernel

/-- A job of core 0. -/
def job (kind : JobKind) (rows : Nat) (p : JobPhase) : Job :=
  { uid := 0, couch := 0, core := ⟨.compute, 0⟩, id := 3, kind := kind, o := false, rows := rows, rlen := 64, dstr := 64, doff := 0
    src := 0x100000040, dst := if kind = .addr then 0x100010000 else 0, sstr := 64, mbx := 0, msg := 0, mdata := 0, mid := 0
    off := 0x100, obj := 0x100000000, ctx := 0, ch := 0, cmid := 0, firing := 0, phase := p, left := [(0, 2)] }

/-- Jobs that start, a chunk requested, a beat read, a poisoned line, beats that land in bulk, in a tile, and last in a tile. -/
theorem witness_CopyEvents : met (do
    let s := (two (fun k => { k with tiles := setAt k.tiles 2 { base := 0x2000, nch := 4, st := .filling, exp := 1 } })).modRow 0
      (fun r => { r with rings := setAt r.rings 1 { base := 0, size := 8192, count := 2, stages := [.empty, .empty], claim := some 1 } })
    for x in [(JobKind.tile 2, 1), (.addr, 1), (.ring 1, 1), (.addr, 0)] do
      let j := job x.1 x.2 .queued
      let s := { s with jobs := [j] }
      need (nextQueued s s.ev.i = some j ∧ j.prev = none ∧ (j.extent = 0) = (x.2 = 0) ∧ j.mbx = 0 ∧ j.msg = 0 ∧ j.counted = 0)
    let r := nth (s.row 0).rings 1 {}
    need (r.count ≠ 0 ∧ nth r.stages r.tail .error = .empty)
    let j := job .addr 1 (.running 0)
    let s1 := { s with jobs := [j] }
    need (findJob s1 s1.ev.i = some j ∧ j.uid = s1.ev.i ∧ 0 < chunkEnd)
    let (_, bs) ← got (chunkBeats j 0 s1 (j.pieces 0) [])
    let b ← bs[0]?
    let s2 := { s1 with beats := [b] }
    need (s2.beats[s2.ev.i]? = some b ∧ b.data = none ∧ homeNow s2 b.ctx b.sva b.src = some b.src ∧ s2.ev.ok = true)
    need ((match b.src with | .bulk t pa => streamerReady s2 t pa | _ => false) = true)
    let b3 := { b with src := .bulk 2 64 }
    need (homeNow s b.ctx b.sva (.bulk 2 64) = some (.bulk 2 64) ∧ b3.data = none)
    let b4 := { b with data := some (List.replicate 64 1) }
    let s4 := { s1 with beats := [b4] }
    need (s4.beats[s4.ev.i]? = some b4 ∧ findJob s4 b4.uid = some j ∧ j.phase ≠ .failing ∧ alookup b4.chunk j.left = some 2)
    need (b4.tile = none ∧ homeNow s4 b4.ctx b4.dva b4.dst = some b4.dst ∧ j.uid = b4.uid)
    need ((match b4.dst with | .bulk t pa => streamerReady s4 t pa | _ => false) = true)
    need ((writeHome s4 b4.ctx b4.dst (List.replicate 64 1)).jobs = s4.jobs)
    let d : CoreId := ⟨.compute, 0⟩
    let b5 := { b4 with tile := some (d, 2), dst := .core d 0, dva := 0 }
    let j5 := job (.tile 2) 1 (.running 0)
    for n in [1, 2] do
      let j6 := { j5 with left := [(0, n)] }
      let s5 := { s with jobs := [j6], beats := [b5] }
      need (s5.beats[s5.ev.i]? = some b5 ∧ findJob s5 b5.uid = some j6 ∧ alookup b5.chunk j6.left = some n ∧ 0 ≠ chunkEnd)
      need (beatCore s5 b5 d = some d ∧ 0 + b5.len ≤ 512 * (nth (s5.core d).tiles 2 {}).nch ∧ (nth (s5.core d).tiles 2 {}).st = .filling)) = true := by decide +kernel

/-- Ring 1 of row 0 with a ready stage, claimed by a launch. -/
def ringed (claim : Option Nat) (f : Core → Core) : State :=
  let ring : Ring := { base := 0, size := 8192, count := 2, stages := [.ready, .empty], claim := claim }
  (coded .compute f).modRow 0 (fun r => { r with rings := setAt r.rings 1 ring })

theorem witness_KilnSetup : met (do
    let s := ringed none (words [(0x10, 0x2000), (0x18, 1), (0x20, 8), (0x28, 9), (0x30, 10)])
    let r := shape [0x0F, 0x0F, 8, 1]
    go (.kctx r) s
    let v ← got (shapeVals (issued (.kctx r) 1 s) r)
    need ((v.drop 4).all (· == 0) = true ∧ nth v 0 0 ∈ ctxFormats ∧ nth v 1 0 ∈ ctxFormats ∧ nth v 2 0 = 8 ∧ nth v 3 0 < 2)
    let r := shape [0, 128, 2]
    go (.kring 1 r) s
    let v ← got (shapeVals (issued (.kring 1 r) 1 s) r)
    let ring := nth (s.row 0).rings 1 {}
    need ((v.drop 3).all (· == 0) = true ∧ 2 ≤ nth v 2 0 ∧ nth v 2 0 ≤ 16 ∧ nth v 1 0 ≠ 0 ∧ ring.claim = none ∧
      nth v 0 0 + nth v 2 0 * nth v 1 0 ≤ 2560 ∧ ring.stages.all (· != .filling) = true ∧ (s.row 0).kops = [])
    let s2 := ringed (some 7) id
    go (.kring 1 r) s2
    go (.kadv 1 (c 1)) s2
    need (some 7 ≠ some (issued (.kring 1 r) 1 s2).lkey)
    let r := shape [0x20, 16, 2, 4]
    let s := s.modCore s.cur (fun k => { k with kctx := { af := 0x0F, bf := 0x0F, acc := 8 } })
    let cost := kstCost r (s.core s.cur)
    let i := Instr.kst 0 (w 2) r
    go i s
    let k0 := issued i cost s
    let (n, k) ← got (readSrc k0 .z64 (w 2))
    let v ← got (shapeVals k0 r)
    let code := kstFormat k0 (nth v 0 0)
    let bits := fmtBits ((fmtOf code).getD .fp32)
    let size := max 1 (bits / 8)
    need (okSrc false (w 2) = true ∧ nth v 6 0 < 2 ∧ nth v 7 0 = 0 ∧ nth v 0 0 = 0x20 ∧ 1 ≤ nth v 2 0 ∧ 1 ≤ nth v 3 0)
    need (nth v 4 0 + nth v 2 0 ≤ 32 ∧ nth v 5 0 + nth v 3 0 ≤ 64 ∧ rmodeOf 0 = some .rne ∧ code ≠ 0x0D)
    need (n + (nth v 2 0 - 1) * nth v 1 0 + nth v 3 0 * bits / 8 ≤ 0x12000 ∧ n % size = 0 ∧ nth v 1 0 % size = 0 ∧ k.kout = 0)
    let _ ← got (kstStore k code .rne n (nth v 1 0) (nth v 2 0) (nth v 3 0) (nth v 4 0) (nth v 5 0) (nth v 6 0 == 1))
    let s := ringed (some 1) (words [(0x10, 0x2000), (0x18, 1), (0x20, 8), (0x28, 9), (0x30, 10)])
    for a in [c 0, c 1] do
      let i := Instr.kadv 1 a
      go i s
      let (n, _) ← got (readSrc (issued i 1 s) .z64 a)
      let ring := nth (s.row 0).rings 1 {}
      need (n ≤ ring.count ∧ ring.claim = some (issued i 1 s).lkey ∧ (s.row 0).kops = [] ∧ ring.head < ring.count ∧ ring.stages.length = ring.count)
      need ((List.range n).all (fun i => ring.stage ((ring.head + i) % ring.count) == .ready) = true)
    go .kwait s
    need ((s.core s.cur).kout = 0)
    for a in [c 0, c 1] do
      let i := Instr.kleave (w 9) a
      go i s
      let (n, k) ← got (readSrc (issued i 1 s) .z64 a)
      let island := nth s.islands (islandOf 0) {}
      need ((s.core s.cur).lreq = 0 ∧ k.lreq = 0 ∧ (s.core s.cur).grants < 64 ∧ island.waits = [] ∧ admitted island (n * island.lgrant) = true)
      let _ ← got (writeDst { k with grants := n } .z64 (w 9) n)
    for x in [(w 3, 1), (w 4, 8), (w 5, 9), (w 6, 10)] do
      let i := Instr.kstat (w 9) x.1
      go i s
      let (n, k) ← got (readSrc (issued i 1 s) .z64 x.1)
      let _ ← got (writeDst k .z64 (w 9) 0)
      need (n = x.2)) = true := by decide +kernel

/-- `kclr`, `kslip`, `kmm` and `kmm.g` that the kiln takes at once; a combination that is none of Table 7-2. -/
theorem witness_KilnOperations : met (do
    let s := ringed (some 1) (fun k => { words [(0x10, 0)] k with
      kctx := { af := 0, bf := 0, acc := 2 }, tiles := setAt k.tiles 2 { base := 0x2000, nch := 8, st := .ready } })
    let picked (k : Core) (req : KReq) : Option Unit := do
      let s1 := s.setCore s.cur { k with kreq := some req }
      let c0 ← kilnPick s1 0
      let q0 ← (s1.core c0).kreq
      need (s.cur ∈ reqCores s1 c0 q0)
    let zeros := shape []
    let i := Instr.kclr zeros
    go i s
    let v ← got (shapeVals (issued i 1 s) zeros)
    need (v.all (· == 0) = true)
    picked (issued i 1 s) { kind := .clr, ring := none, part := noPart s.cur, off := .cst 0 }
    let i := Instr.kslip 1 zeros
    go i s
    let k := issued i 1 s
    let ring := nth (s.row 0).rings 1 {}
    need (claimOk ring.claim k = true ∧ claimOk (s.row 0).slipClaim k = true ∧ ring.count ≠ 0 ∧ 8192 ≤ ring.size ∧ ring.stage ring.bind = .ready)
    picked k { kind := .slip, ring := some 1, part := noPart s.cur, off := .cst 0 }
    for gang in [false, true] do
      for mode in [(1 : BitVec 2), 2] do
        let r := shape [2, 64, 2, 3, 0]
        let i : Instr := if gang then .kmmG 1 2 mode (w 2) r else .kmm 1 2 mode (w 2) r
        go i s
        let k := issued i 1 s
        let v ← got (shapeVals k r)
        let e := nth k.tiles 2 {}
        let (o, _) ← got (readSrc k .z64 (w 2))
        need ((v.drop 5).all (· == 0) = true ∧ nth v 0 0 = 2 ∧ nth v 1 0 % 8 = 0 ∧ nth v 2 0 = 2 ∧ nth v 3 0 = 3 ∧ okSrc false (w 2) = true)
        let n ← got (kcombo k.kctx)
        need (n = 4 ∧ (heldVerdict k).isNone = true ∧ k.kctx.slip = false ∧ stageBytes k.kctx.bf ≤ ring.size ∧ o % 8 = 0 ∧ e.nch ≠ 0)
        need (o + (2 - 1) * 64 + rowABytes k.kctx.af ≤ 512 * e.nch ∧ e.err = false ∧ e.st = .ready)
        let req : KReq :=
          { kind := .mm (mode == 1) 2 3 false false, ring := some 1
            part := { k := placeOf s.cur, tile := 2, base := e.base, off := o, stride := 64, m := 2 }, gang := gang, off := w 2 }
        need ((gangDiffers (issuedState i 1 s) s.cur req).isNone = true)
        picked k req
    need ((got (kcombo { af := 0, bf := 0, acc := 8 })).isNone = true)
    go (.kmm 1 2 1 (w 2) (shape [2, 64, 2, 3, 0])) (s.modCore s.cur (fun k => { k with kctx := { af := 0, bf := 0, acc := 8 } }))) = true := by decide +kernel

/-- An operation of core 0 on ring 1. -/
def kop (kind : KOpKind) (slip : Bool) (p : KPhase) : KOp :=
  { uid := 5, kind := kind, ctx := { af := 0, bf := 0, acc := 2, slip := slip }, ring := some 1, stage := 0, phase := p
    parts := [{ k := 0, tile := 2, base := 0x2000, off := 0, stride := 64, m := 2 }] }

theorem witness_KilnEvents : met (do
    let s := ringed (some 1) (fun k => { k with kreq := some { kind := .clr, ring := none, part := noPart ⟨.compute, 0⟩, off := .cst 0 } })
    let c0 ← kilnPick s s.ev.i
    let _ ← (s.core c0).kreq
    let queued (o : KOp) : State := { s.modRow 0 (fun r => { r with kops := [o] }) with ev := { j := 5 } }
    let kinds : List (KOpKind × Bool) := [(.slip, false), (.mm true 2 3 false false, true), (.mm false 2 3 false false, true)]
    for x in kinds do
      let o := kop x.1 x.2 .accepted
      let s := queued o
      need ((s.row s.ev.i).kops.find? (fun o => o.needsSlip && o.phase == .accepted) = some o)
      let o := kop x.1 x.2 .slipDone
      let s := queued o
      need (findOp s s.ev.i s.ev.j = some o ∧ s.ev.ok = true ∧ o.needsSlip = true ∧ before s s.ev.i o = [])
    let kinds : List KOpKind := [.clr, .mm false 2 3 false false]
    for x in kinds do
      let o := kop x false .accepted
      let s := queued o
      need (findOp s s.ev.i s.ev.j = some o ∧ s.ev.ok = true ∧ o.needsSlip = false ∧ before s s.ev.i o = [])
      let o := kop x false .kiln
      let s := queued o
      need (findOp s s.ev.i s.ev.j = some o ∧ o.phase = .kiln ∧ before s s.ev.i o = [] ∧ (o.parts.map (·.k)).Nodup)) = true := by decide +kernel

/-! ### Witnesses: translation, gateway cores and links, launches -/

/-- A context with the rights of every region. -/
def rights (s : State) : State := { s with ctxs := memWrite s.ctxs 0x40 8 (2 ^ 64 - 1) }

theorem witness_Translation : met (do
    let w0 := 2 ^ 63 + 7
    let s := rights (coded .compute (words [(0x10, 3), (0x18, 0x1000), (0x20, 0x1020), (0x28, 0x1040), (0x30, 7), (0x38, 8), (0x40, 9),
      (0x48, 2 ^ 63), (0x50, 0x2000), (0x58, 1), (0x1000, w0), (0x1008, 0x40), (0x1010, 2 ^ 62), (0x1040, w0), (0x1048, 1), (0x1050, 2 ^ 62)]))
    for x in [(w 3, true, false), (w 4, false, false), (w 5, true, true)] do
      let i := Instr.ttbw (w 2) x.1
      go i s
      let (n, k0) ← got (readSrc (issued i 2 s) .z64 (w 2))
      let (a, k) ← got (readSrc k0 .z64 x.1)
      need (n < 16 ∧ a + 24 ≤ topOf s.cur.cls ∧ a % 8 = 0 ∧ pendingAt k a 24 = false)
      let w0 := readLocal k a 8
      need (bitAt w0 63 = x.2.1 ∧ (x.2.1 = false ∨ ttbImageBad w0 (readLocal k (a + 8) 8) (readLocal k (a + 16) 8) = x.2.2))
    go (.ttbi (c 0)) s
    need (ttbiOk 0 = true)
    let u : Ttb := { slot := 1, w0 := w0, target := 0x40, w2 := 2 ^ 62 }
    let s := s.modCore s.cur (fun k => { k with ttb := [u, { u with slot := 2, w0 := 2 ^ 63 + 8, w2 := 2 ^ 62 + 2 ^ 56 }] })
    for x in [(w 6, some 0), (w 7, some 1), (w 8, none)] do
      let i := Instr.ttbp (w 20) x.1
      go i s
      let (v, k) ← got (readSrc (issued i 1 s) .z64 x.1)
      need (v < 2 ^ 45 ∧ (k.ttb.find? (fun u => ttbKey u.w0 == v)).map (fun u => field u.w2 57 56) = x.2)
      need (pendingAt k (k.wp + 160) 16 = false ∧ heldAt k (k.wp + 160) 16 = false)
    some ()) = true := by decide +kernel

theorem witness_Translation_domains : met (do
    let s := rights (coded .control (words [(0x48, 2 ^ 63), (0x50, 0x2000), (0x58, 1)]))
    need (ctxRight s (s.core s.cur).ctx 5 true = true)
    go (.tlbi (w 9)) s
    let (v, k) ← got (readSrc (issued (.tlbi (w 9)) 1 s) .z64 (w 9))
    need (tlbiOk v = true ∧ k.ctf = 0 ∧ k.ctb = 0 ∧ k.tlbw = none ∧ tlbiBusy (tlbiDrop (s.setCore s.cur k) s.cur v).1 v s.tlbn = false)
    let f : FEnt := { ctx := 0, page := 5, kind := 0, job := 0, cls := 0, core := 0, count := 1, stamp := 0, seq := 0 }
    for l in [[], [f]] do
      let s := s.setDom 0 { fb := l }
      let i := Instr.fbpop (w 20) (w 10)
      go i s
      let (v, k) ← got (readSrc (issued i 1 s) .z64 (w 10))
      let _ ← got (writeDst k .z64 (w 20) 0)
      need (field v 34 32 = 0 ∧ field v 63 35 = 0 ∧ field v 31 17 = 0 ∧ field v 16 0 + 32 ≤ topOf s.cur.cls ∧ field v 16 0 % 32 = 0)
      need (pendingAt k 0x2000 32 = false ∧ heldAt k 0x2000 32 = false ∧ (takeEntry (s.dom 0).fb).isNone = l.isEmpty)
    go (.replay (w 20) (w 11)) s
    let (v, k) ← got (readSrc (issued (.replay (w 20) (w 11)) 1 s) .z64 (w 11))
    let _ ← got (writeDst k .z64 (w 20) 0)
    need (replayOk v = true ∧ k.ctf = 0 ∧ k.ctb = 0)) = true := by decide +kernel

theorem witness_Translation_traps : met (do
    let s2 := coded .control id
    need (ctxRight s2 (s2.core s2.cur).ctx 5 true = false)
    go (.tlbi (w 9)) s2
    go (.fbpop (w 20) (w 9)) s2
    go (.replay (w 20) (w 9)) s2) = true := by decide +kernel

def waiting : TReq := { ctx := 0, va := 0x100000000, kind := 0, who := .core ⟨.compute, 0⟩ }

def walked : WalkRes → Nat
  | .mapped _ => 0
  | .absent => 1
  | .fail _ => 2

/-- A waiting request; a walk that finds a leaf, one that finds no page, one of a context with no root. -/
theorem witness_Translation_walks : met (do
    let s := rights (coded .compute id)
    let x := (s.setDom 0 { wait := [waiting] }).dom s.ev.i
    need ((x.wait.find? (fun q => !x.walks.any (fun w => w.ctx == q.ctx && w.page == q.page))).isSome = true ∧ x.walks.length < 8)
    for x in [((0, 0x10000, 0) : Nat × Nat × Nat), (0, 0x10020, 1), (1, 0x10000, 2)] do
      let u : Walk := { ctx := x.1, page := x.2.1 }
      let s4 := s.setDom 0 { wait := [waiting], walks := [u] }
      need ((s4.dom s4.ev.i).walks[s4.ev.j]? == some u)
      need (walked (walk s4 u.ctx (u.page * 2 ^ 16)) = x.2.2)
    need (s.ev.j < 5 ∧ ctxRight s s.ev.i 5 true = true)) = true := by decide +kernel

/-- The placed launch with the members of its gang. -/
def gang (l : List (Nat × CoreId)) (s : State) : State :=
  { s with launches := [{ placedLaunch with gangs := [{ idx := 0, org := 0, members := l }] }] }

/-- `gbar` alone, with others, and released; the release. -/
theorem witness_GatewayAndLinks : met (do
    let s := two (words [(0x10, 5)])
    go (.gbar (w 9)) s
    let k0 := issued (.gbar (w 9)) 1 s
    let _ ← got (writeDst k0 .z64 (w 9) 0)
    need (k0.gbarOut = none ∧ k0.gbarIn = none ∧ k0.ctf = 0 ∧ k0.ctb = 0 ∧ k0.ldo = 0 ∧ k0.atm = 0)
    let a : CoreId := ⟨.compute, 0⟩
    let b : CoreId := ⟨.compute, 1⟩
    need ((barrierCores (issuedState (.gbar (w 9)) 1 (gang [(0, a)] s)) a).all (· == a) = true)
    need ((barrierCores (issuedState (.gbar (w 9)) 1 (gang [(0, a), (1, b)] s)) a).contains b = true)
    let s1 := s.modCore a (fun k => { k with gbarOut := some 3 })
    go (.gbar (w 9)) s1
    need ((issued (.gbar (w 9)) 1 s1).gbarOut = some 3)
    let s2 := gang [(0, a), (1, b)] ((s.modCore a (fun k => { k with gbarIn := some 1 })).modCore b (fun k => { k with gbarIn := some 2 }))
    need ((s2.core s2.ev.core).gbarIn ≠ none ∧ barrierMet s2 s2.ev.core = true)) = true := by decide +kernel

/-- A link that is up, with 8 blocks of one group. -/
def upLink : Link := { up := true, nblk := 8, g := 1, fmt := 0x1F, slots := 2, lbase := 0x4000, lstr := 256, dir := 4 }

def linked (l : Link) (s : State) : State := { s with links := setAt s.links 0 l }

/-- `gq.get` with a block, at the end of the stream, and on a link that is down; `badd.rq`. -/
theorem witness_GatewayAndLinks_cores : met (do
    let g := on .gateway (words [(0x10, 0x1000), (0x18, 0x1F * 2 ^ 24 + 2 * 2 ^ 17 + 0x2000)])
    for x in [{ upLink with landed := [(4, 0x4100)] }, { upLink with handed := 8 }, { upLink with down := true }] do
      let s := linked x g
      go (.gqGet (w 9)) s
      let _ ← got (writeDst (issued (.gqGet (w 9)) 1 s) .z64 (w 9) 0)
      need (linkOf s.cur < s.links.length ∧ x.landed.all (fun b => b.1 % 4 == s.cur.idx % 4) = true)
      need (x.landed.length = 1 ∨ x.nblk ≤ x.handed ∨ x.handed < x.nblk ∧ x.down = true)
    let i := Instr.baddRq (w 2) (w 3)
    go i g
    let (v, k0) ← got (readSrc (issued i (baddCost (w 3) (g.core g.cur)) g) .z64 (w 2))
    let (x, k) ← got (readSrc k0 .z64 (w 3))
    let f ← fmtOf (field x 30 24)
    let n := blockBytes f 2
    need (field x 22 17 = 2 ∧ rmodeOf (field x 34 32) = some .rne ∧ x < 2 ^ 35 ∧ bitAt x 31 = false ∧ v < 2 ^ 17 ∧ v + n ≤ k.top)
    need (0x2000 + n ≤ k.top ∧ v % 8 = 0 ∧ field x 16 0 = 0x2000 ∧ meets v n 0x2000 n = false ∧ pendingAt k v n = false ∧ pendingAt k 0x2000 n = false)
    need (natAnd (sumGroups k f .rne v 0x2000 2).2.1 (field (numCtl k) 13 8) = 0)) = true := by decide +kernel

/-- A flit for this module and one for another, a block whose last byte has landed, retries, retraining, hops. -/
theorem witness_GatewayAndLinks_flits : met (do
    let s := linked upLink State.reset
    let l := nth s.links s.ev.i {}
    need (s.ev.i < 16 ∧ l.up = true ∧ l.down = false ∧ l.retrain = false ∧ s.ev.j = s.hport.self ∧ s.ev.k < l.nblk ∧ slotFree l s.ev.k = true)
    let s3 : State := { s with hport := { s.hport with sz := 1 }, rdy := { s.rdy with link := 1 }, ev := { j := 1 } }
    need (s3.ev.j ≠ s3.hport.self ∧ (routeLink s3 s3.ev.j).isSome = true)
    let s4 := linked { upLink with landing := [(0, 1000)] } s
    let blk ← (nth s4.links 0 {}).landing.find? (fun b => b.1 == s4.ev.j)
    need (blockBytes ((fmtOf upLink.fmt).getD .e4m3b32) upLink.g ≤ blk.2)
    for n in [14, 15] do
      for ok in [true, false] do
        let l := { upLink with retries := n, retrain := true }
        need ((nth (linked l s).links 0 {}) = l ∧ ({ ok := ok } : Ev).ok = ok ∧ l.retries = n)
    for x in [6, 7] do
      let h : Health := { s.health with hops := [(0, x)] }
      need (((h.hops.find? (fun h => h.1 == 0)).map (·.2)).getD 0 + 1 = x + 1 ∧ h.stopped = false)
    need (bitAt ({ xpres := 1 } : HostPort).xpres s.ev.i = true)) = true := by decide +kernel

/-- A block that is sent, and one whose descriptor is refused. -/
theorem witness_GatewayAndLinks_sent : met (do
    let s := linked { upLink with tail := [1, 0, 0, 0], tbase := [0x100, 0, 0, 0] } State.reset
    let s : State := { s with hport := { s.hport with sz := 1 }, rdy := { s.rdy with link := 1 }, ev := { j := 0 } }
    let l := nth s.links s.ev.i {}
    need (nth l.head s.ev.j 0 % 2 ^ 31 ≠ nth l.tail s.ev.j 0 % 2 ^ 31)
    need (descriptorOk s (0x1000 + 300 * 2 ^ 32) 1 = true ∧ descriptorOk s 0x1001 1 = false)
    let o ← routeLink s (field 1 18 0)
    need ((nth s.links o {}).retrain = false)) = true := by decide +kernel

/-- A launch record of queue 1 for the object 7. -/
def record : List (Nat × Nat) :=
  [(0x1000, 7 * 2 ^ 32 + 0x100), (0x1008, 0x100000000), (0x1010, 1), (0x1018, 0), (0x1060, 0x100002000 + 2 ^ 48), (0x1068, 0x1000 * 2 ^ 32 + 0x3000)]

theorem witness_LaunchInstructions : met (do
    let done : Launch := { placedLaunch with id := 2 ^ 48 + 1, st := .done }
    let s := coded .control (words (record ++ [(0x10, 0x1000), (0x18, 0x1008), (0x20, 0x1004), (0x28, 0x12000), (0x30, 2 ^ 48 + 1), (0x38, 2 ^ 48 + 2), (0x40, 1)]))
    let s := { s with rdy := { s.rdy with svc := 3 }, launches := [placedLaunch, done], lcount := [(0, 2)] }
    for x in [(w 2, true), (w 3, false)] do
      let i := Instr.launch (w 9) x.1
      go i s
      let (v, k) ← got (readSrc (issued i 1 s) .z64 x.1)
      let _ ← got (writeDst k .z64 (w 9) 0)
      let r := (List.range 16).map (fun i => readLocal k (v + 8 * i) 8)
      need (v % 8 = 0 ∧ v + 128 ≤ 0x12000 ∧ pendingAt k v 128 = false ∧ recordValid r = x.2)
      need (k.ctf = 0 ∧ k.ctb = 0 ∧ k.ldo = 0 ∧ k.atm = 0 ∧ mayLaunch (s.setCore s.cur k) k.ctx (field (nth r 0 0) 11 8) = true)
    for x in [(w 4, 0x1004), (w 5, 0x12000)] do
      go (.launch (w 9) x.1) s
      let (v, k) ← got (readSrc (issued (.launch (w 9) x.1) 1 s) .z64 x.1)
      let _ ← got (writeDst k .z64 (w 9) 0)
      need (v = x.2)
    go .trig s
    need ((s.core s.cur).ctf = 0 ∧ (s.core s.cur).ctb = 0 ∧ (s.core s.cur).ldo = 0 ∧ (s.core s.cur).atm = 0)
    go (.dwait (w 9)) s
    let k0 := issued (.dwait (w 9)) 1 s
    let _ ← got (writeDst k0 .z64 (w 9) 0)
    let l ← coreLaunch (issuedState (.dwait (w 9)) 1 s) k0
    need (l.prod.all (producerDone (issuedState (.dwait (w 9)) 1 s) k0.ctx) = true)
    for x in [(w 6, true), (w 7, false), (c 0, false)] do
      go (.lwait (w 9) x.1) s
      go (.lstat (w 9) x.1) s
      let (v, k) ← got (readSrc (issued (.lwait (w 9) x.1) 1 s) .z64 x.1)
      let (v2, _) ← got (readSrc (issued (.lstat (w 9) x.1) 1 s) .z64 x.1)
      let _ ← got (writeDst k .z64 (w 9) 0)
      need (v = v2 ∧ inWindow s k.ctx v = x.2)
    need (findLaunch s 0 (2 ^ 48 + 1) = some done ∧ done.over = true)) = true := by decide +kernel

/-- A code object at bulk address 0x1_0000_0000 with one kernel of one core and one channel, and the tables of context 0 with
logical core 0 on row 0 (Tables 14-1 and 14-2, R361). -/
def objectWords : List (Nat × Nat) :=
  [(0x200000, 7 * 2 ^ 32 + 0x5A960001), (0x200008, 0x2000), (0x200010, 0x800 * 2 ^ 32), (0x200018, 0x1000), (0x200020, 0x80 * 2 ^ 32 + 0x200),
   (0x200028, 2 ^ 32), (0x200080, 0x100 * 2 ^ 32 + 0x100 * 2 ^ 16 + 1), (0x200088, 0xC0 * 2 ^ 32 + 2 ^ 16 + 2 ^ 7 + 1),
   (0x2000C0, 0x200 * 2 ^ 32 + 4 * 2 ^ 16 + 2 ^ 3), (0x2000C8, 8 * 2 ^ 14 + 0x400), (0x2000D0, 2 ^ 40 + 2 * 2 ^ 32 + 0x400),
   (0x202000, 5), (0x210000, 0x80000000), (0x220000, 0x80000000)]

def launched (f : Launch → Launch) : State :=
  let s := coded .compute id
  let near := objectWords.foldl (fun m e => memWrite m e.1 8 e.2) s.near
  let ctxs := memWrite (memWrite (memWrite s.ctxs 0 8 (2 ^ 63)) 0x08 8 0x100010000) 0x10 8 0x100020000
  let l : Launch :=
    { ctx := 0, id := 2 ^ 48 + 1, words := (List.range 16).map (fun i => ((record.find? (fun e => e.1 == 0x1000 + 8 * i)).map (·.2)).getD 0), prod := [0, 0, 0, 0] }
  { s with near := near, ctxs := ctxs, launches := [f l], cycle := 5, cores := [], rdy := { s.rdy with svc := 3, row := 1 } }

theorem witness_LaunchEvents : met (do
    let s := launched id
    need (bitAt s.rdy.svc 0 = true ∧ s.health.stopped = false)
    let l ← (heads s)[0]?
    need ((heads s).length = 1 ∧ l.gangs = [] ∧ l.placedGangs = 0 ∧ launchNgang l = 1 ∧ refusalReason s l = 0)
    let x ← findLaunch (storeObject s l) l.ctx l.id
    need (x.st = .queued ∧ kernelCosched x = false)
    let ms ← (findGang (storeObject s l) x).2
    need (ms = [(0, ⟨.compute, 0⟩)] ∧ (ms.map (fun m => pid m.2)).Nodup)
    let s1 := (storeObject s l).setCore ⟨.compute, 0⟩ { life := .preparing, launch := 2 ^ 48 + 1 }
    let l ← findLaunch s1 (s1.core s1.ev.core).ctx (s1.core s1.ev.core).launch
    need ((s1.core s1.ev.core).life = .preparing)
    let loaded (r : Loaded) : Option State := match r with | .ok _ s => some s | _ => none
    let s2 ← loaded (loadImages s1.ev.core l (imageList l) s1)
    let s3 ← loaded (loadParams s1.ev.core l s2)
    let k1 := readyCore l (startTemper s3 l) (s3.core s1.ev.core)
    need (k1.run = .prologue ∧ field (nth l.kent 0 0) 63 32 ≠ 0xFFFFFFFF)
    let s4 := { launched (fun l => { l with st := .placed }) with ev := { j := 2 ^ 48 + 1 } }
    let s4 := s4.setCore ⟨.compute, 0⟩ { life := .active, launch := 2 ^ 48 + 1, retired := true }
    let l ← findLaunch s4 s4.ev.i s4.ev.j
    need (s4.ev.ok = true ∧ l.st = .placed ∧ l.killed = false ∧ l.gangs = [] ∧ launchCores s4 s4.ev.i s4.ev.j ≠ [])
    need ((launchCores s4 s4.ev.i s4.ev.j).all (Machine.quiet s4) = true)
    let d : CoreId := ⟨.control, 0⟩
    let s5 := { launched (fun l => { l with st := .done, ringDue := true, issuer := some d }) with ev := { j := 2 ^ 48 + 1 } }
    let s5 := s5.setCore d (words [(0x800, 0x400900)] { cls := .control, life := .active, rring := 0x800 })
    let l ← findLaunch s5 s5.ev.i s5.ev.j
    need (l.ringDue = true ∧ l.issuer = some d ∧ (s5.core d).life ≠ .free ∧ (s5.core d).ctx = s5.ev.i ∧ coreAway (s5.core d) = false)
    let _ ← ringPut (s5.core d) 1 (launchPins l)) = true := by decide +kernel

/-! ### Witnesses: saggars, evictions, temper, control cores, serving -/

def sag (st : Nat) : Saggar :=
  { inc := 5, st := st, name := 9, gen := 1, att := 1, life := 1, c := 1, h := 1, w := 1, psize := 64, blk := 64, base := 0x4000, lease := 1 }

/-- Slot 0 holds a saggar, attached on the core where `held` says so. -/
def withSag (g : Saggar) (held : Bool) (s : State) : State :=
  let s := { s with saggars := [(0, g)], ctxs := memWrite s.ctxs 0x48 8 (4 * 2 ^ 32 + 8) }
  s.modCore s.cur (fun k => { k with att := if held then [{ slot := 0, inc := g.inc, launch := 1 }] else [] })

/-- A descriptor of one part of 64 bytes named n at a local address, as an unpinned saggar with a lease. -/
def sagDesc (n base : Nat) (lease : Nat) : List (Nat × Nat) :=
  [(0x1000, n), (0x1008, base + lease * 2 ^ 32 + 2 ^ 56), (0x1010, 64 * 2 ^ 32 + 64), (0x1018, 2 ^ 32 + 2 ^ 24 + 2 ^ 16)]

/-- `sgnew`: the table of attachments full, a bad descriptor, a name that exists, no room among the limits, bytes that another
saggar holds, and one that is made. -/
theorem witness_SaggarInstructions_sgnew : met (do
    for x in [(0, sagDesc 7 0x4000 1, 0), (5, sagDesc 7 0x4001 1, 0), (1, sagDesc 9 0x4000 1, 0), (3, sagDesc 7 0x5000 1, 1), (4, sagDesc 7 0x4000 1, 0), (9, sagDesc 7 0x5000 1, 0)] do
      let s := withSag (sag 1) false (coded .compute (words ((0x10, 0x1000) :: x.2.1)))
      let s := if x.2.2 = 1 then { s with ctxs := memWrite s.ctxs 0x48 8 (1 * 2 ^ 32 + 8) } else s
      let s := if x.1 = 0 then s.modCore s.cur (fun k => { k with att := List.replicate 8 {} }) else s
      let i := Instr.sgnew (w 9) (w 2)
      go i s
      let (v, k) ← got (readSrc (issued i 1 s) .z64 (w 2))
      let _ ← got (writeDst k .z64 (w 9) 0)
      need (v + 64 ≤ topOf s.cur.cls ∧ v % 8 = 0 ∧ pendingAt k v 64 = false)
      let ws := (List.range 8).map (fun i => readLocal k (v + 8 * i) 8)
      let n := descSag k.ctx ws
      let s1 := s.setCore s.cur k
      let held := pressure s1 (meetingSlots s1 n Saggar.reserves)
      need ((x.1 = 0 ∧ 8 ≤ k.att.length) ∨ k.att.length < 8)
      need ((x.1 = 5 ∨ x.1 = 0 ∧ n.name = 7) ∨ descOk s1 ws n = true)
      need (x.1 ≠ 5 ∨ descOk s1 ws n = false)
      need (x.1 ≠ 1 ∨ (findSag s1 n.ctx n.name).isSome = true)
      need (x.1 < 3 ∨ x.1 = 5 ∨ (findSag s1 n.ctx n.name).isNone = true ∧ freeSlot s1 = some 1)
      need (x.1 ≠ 3 ∨ sagLimits s1 n = false)
      need (x.1 ≠ 4 ∨ sagLimits s1 n = true ∧ held.isNone = true)
      need (x.1 ≠ 9 ∨ sagLimits s1 n = true ∧ (held.map (·.2)) = some true ∧ (held.map (fun r => decide (n.parts ≤ (partPlaces r.1 n).length))) = some true)) = true := by decide +kernel

/-- The other saggar instructions, with the saggar resident, evicted, restoring and lost, held by the core and not, and with a
stale handle. -/
theorem witness_SaggarInstructions : met (do
    let h := 5
    let ws := [(0x10, 9), (0x18, h), (0x20, h + 1), (0x28, 2 ^ 16 + 1), (0x30, 2), (0x38, 2 ^ 32 * 2 ^ 16 + h), (0x40, 7)]
    for x in [(1, false), (3, true), (3, false), (4, false)] do
      let s := withSag { sag x.1 with rest := x.2 } false (coded .compute (words ws))
      let i := Instr.sgatt (w 9) (w 2)
      go i s
      let (v, k) ← got (readSrc (issued i 1 s) .z64 (w 2))
      let _ ← got (writeDst k .z64 (w 9) 0)
      need (k.att.length < 8 ∧ findSag s k.ctx v = some 0 ∧ findSag s k.ctx 7 = none ∧ (sagOf s 0).st = x.1 ∧ (sagOf s 0).rest = x.2)
    go (.sgatt (w 9) (w 8)) (withSag (sag 1) false (coded .compute (words ws)))
    for held in [true, false] do
      let s := withSag (sag 1) held (coded .compute (words ws))
      for i in [Instr.sgdet (w 3), .sgdet (w 4), .sgrel (w 3) (c 3), .sgpin (w 3) (c 0), .sgpin (w 3) (w 5), .sgpin (w 3) (w 6)] do
        go i s
      let (v, k) ← got (readSrc (issued (.sgdet (w 3)) 1 s) .z64 (w 3))
      need (v = 0 * 2 ^ 32 + (sagOf s 0).inc ∧ k.att.any (fun u => u.slot == 0 && u.inc == (sagOf s 0).inc) = held)
      need (k.ctf = 0 ∧ k.ctb = 0 ∧ k.ldo = 0 ∧ k.atm = 0)
      need ((v + 1) / 2 ^ 32 = 0 ∧ (v + 1) % 2 ^ 32 ≠ (sagOf s 0).inc)
    let s := withSag (sag 1) true (coded .compute (words ws))
    need (pinnedBytes s 0 + (sag 1).parts * (sag 1).psize ≤ pinLimit s 0)
    let s2 := { s with ctxs := memWrite s.ctxs 0x48 8 (4 * 2 ^ 32) }
    need ((sagOf s2 0).life ≠ 0 ∧ pinLimit s2 0 < pinnedBytes s2 0 + (sag 1).parts * (sag 1).psize)
    for g in [sag 1, { sag 1 with att := 0 }, { sag 1 with att := 0, wb := true }, sag 2, sag 3, sag 4] do
      let s := withSag g false (coded .compute (words ws))
      go (.sgevict (w 9) (w 2)) s
      let (v, k) ← got (readSrc (issued (.sgevict (w 9) (w 2)) 1 s) .z64 (w 2))
      need (findSag s k.ctx v = some 0 ∧ (sagOf s 0).st = g.st ∧ (sagOf s 0).att = g.att ∧ (sagOf s 0).wb = g.wb)
    for a in [w 3, w 4] do
      go (.sgstat (w 9) a) s
      let (v, k) ← got (readSrc (issued (.sgstat (w 9) a) 1 s) .z64 a)
      let _ ← got (writeDst k .z64 (w 9) 0)
      need (v < 2 ^ 51 ∧ field v 47 45 = 0 ∧ field v 44 32 = 0 ∧ (v % 2 ^ 32 = (sagOf s 0).inc) = (a = w 3))) = true := by decide +kernel

/-- The saggar events, requests of pre-emption, limits and slices. -/
theorem witness_EvictionAndRestore : met (do
    let base := coded .compute id
    let s := withSag { sag 2 with back := 0x100001000, wb := true } false base
    need ((sagOf s s.ev.i).st = 2 ∧ s.ev.ok = true)
    let _ ← copyOut s (sagOf s 0) (sagOf s 0).parts
    let s := withSag { sag 3 with back := 0x100001000, rest := true } false base
    let g := sagOf s s.ev.i
    need (g.rest = true ∧ g.st = 3 ∧ g.copying = false ∧ kernelsMeet s g = false ∧ g.parts ≤ (partPlaces s g).length)
    need ((pressure s (meetingSlots s g Saggar.occupies)).map (·.2) = some true)
    let s := withSag { sag 3 with back := 0x100001000, rest := true, copying := true } false base
    need ((sagOf s s.ev.i).copying = true)
    let _ ← copyIn s (sagOf s 0) (sagOf s 0).parts
    for run in [Run.idle, .prologue] do
      let s := { base with preReqs := [(base.cur, 0)] }.modCore base.cur (fun k => { k with run := run })
      let k := s.core s.ev.core
      need (s.preReqs.any (fun r => r.1 == s.ev.core) = true ∧ k.life = .active ∧ k.pst = .single ∧ k.pairReq ≠ 3 ∧ k.run = run ∧ k.inHandler = false)
    let s := { base with ctxs := memWrite base.ctxs 0x50 8 (2 ^ 32 + 1), cycle := 65536 }
    let s := s.modCore s.cur (fun k => { k with preReq := some 0 })
    let lim := field (ctxWord s (s.core s.ev.core).ctx 0x50) 47 32
    need ((s.core s.ev.core).preReq = some 0 ∧ lim ≠ 0 ∧ 0 + 65536 * lim ≤ s.cycle ∧ (s.core s.ev.core).life = .active)
    let s := { s with launches := [{ placedLaunch with placedGangs := 1 }], ev := { j := 1 } }
    let n := field (ctxWord s s.ev.i 0x50) 31 0
    let l ← findLaunch s s.ev.i s.ev.j
    need (l.over = false ∧ n ≠ 0 ∧ l.placedGangs ≠ 0 ∧ l.start + 65536 * n ≤ s.cycle)
    need (s.ev.i < 64 ∧ (0 : Nat) % 8 = 0 ∧ bitAt (memRead s.ctxs 8 8) 63 = false)) = true := by decide +kernel

/-- A control core that saves, which has no slot bytes, and the same core restored. -/
theorem witness_EvictionAndRestore_cores : met (do
    let s := coded .control (fun k => { k with life := .saving })
    let s := { s with ev := { core := s.cur } }
    let k := s.core s.cur
    need (k.life = .saving ∧ drained s s.cur = true ∧ saggarsOn s s.cur = [] ∧ (s.cur.cls == .compute && k.pst != .checker) = false)
    let s0 := withdrawParked s s.cur
    let k1 := writeBack (s0.core s.cur)
    need (k1.pst = k.pst)
    let v : Save := { ctx := k1.ctx, logical := coreNumber s.cur k1, core := k1, sgen := ctxWord s0 k1.ctx 0x58, page := s0.fresh,
                      volatile := (findLaunch s0 k1.ctx k1.launch).elim [] volatileRanges }
    let t ← leaveCore { s0 with fresh := s0.fresh + 2 } s.cur v (s0.fresh + 1)
    let s := t.modCore s.cur (fun k => { k with life := .restoring, ctx := v.ctx, launch := v.core.launch, logical := v.core.logical })
    let s := { s with ev := { core := ⟨.control, 0⟩ } }
    let k := s.core s.ev.core
    need (k.life = .restoring ∧ s.ev.ok = true)
    let v' ← s.saves.find? (fun v => v.ctx == k.ctx && v.core.launch == k.launch && v.core.cls == s.ev.core.cls && v.logical == coreNumber s.ev.core k)
    need ((s.ev.core.cls == .compute && v'.core.pst != .checker) = false)
    let _ ← restoreRow s s.ev.core) = true := by decide +kernel

/-- Each answer of `tmpr.get`, `tmpr.pick`, `tmpr.dem`, `tmpr.re` and `tmpr.ach`. -/
theorem witness_TemperInstructions : met (do
    let id := 2 ^ 48 + 1
    let s := coded .compute (words [(0x10, 0), (0x18, 2 ^ 60 + id), (0x20, 2 ^ 61 + id), (0x28, 7), (0x30, 3), (0x38, 5), (0x40, 9), (0x48, 2 ^ 23 + 9),
      (0x50, 255), (0x58, 256), (0x60, 2 ^ 60), (0x68, id), (0x70, id + 1), (0x78, id + 2)])
    let l : Launch := { placedLaunch with id := id, words := [0, 0x100000000, 0, 0], orig := id, latest := id }
    let others : List Launch := [{ l with id := id + 1, st := .refused, orig := id + 1 }, { l with id := id - 1, ctx := 0 }]
    let s := { s with launches := l :: others, lcount := [(0, 2)] }
    let s := s.modCore s.cur (fun k => { k with launch := id })
    for x in [(w 2, 0, true), (w 3, 1, true), (w 4, 2, true), (w 5, 0, false)] do
      let i := Instr.tmprGet (w 20) x.1
      go i s
      let (v, k) ← got (readSrc (issued i 1 s) .z64 x.1)
      let _ ← got (writeDst k .z64 (w 20) 0)
      let s1 := s.setCore s.cur k
      let e := if field v 51 0 = 0 then ownLaunchId s1 s.cur else field v 51 0
      need (field v 59 52 = 0 ∧ field v 63 60 = x.2.1 ∧ (knownLaunch s1 k.ctx e).isSome = x.2.2)
    for x in [(w 2, true, 0), (w 6, true, 3), (w 7, false, 5)] do
      let i := Instr.tmprPick (w 20) x.1
      go i s
      let (v, k) ← got (readSrc (issued i 1 s) .z64 x.1)
      let _ ← got (writeDst k .z64 (w 20) 0)
      need (pickOk v = x.2.1 ∧ field v 2 0 = x.2.2)
    for a in [w 8, w 9] do
      let i := Instr.tmprDem (w 20) a
      go i s
      let (v, k) ← got (readSrc (issued i 2 s) .z64 a)
      need (field v 22 19 = 0 ∧ v < 2 ^ 24 ∧ bitAt v 23 = (a == w 9))
      let _ ← got (writeDst k .z64 (w 20) (share (field v 7 0) ((coreLaunch (s.setCore s.cur k) k).bind (fun l => sensTable (s.setCore s.cur k) l (field v 15 8))) (field v 18 16)))
    for a in [w 13, w 14, w 15] do
      let i := Instr.tmprRe (w 20) a
      go i s
      let (v, k) ← got (readSrc (issued i 1 s) .z64 a)
      let _ ← got (writeDst k .z64 (w 20) 0)
      need (field v 55 52 = 0 ∧ k.ctf = 0 ∧ k.ctb = 0 ∧ k.ldo = 0 ∧ k.atm = 0)
      let s1 := s.setCore s.cur k
      let e := knownLaunch s1 k.ctx (field v 51 0)
      need (a ≠ w 13 ∨ (e.map (retained s1)) = some true ∧ ((reDemand s1 k.ctx (field v 51 0) 0).map (fun r => decide (r.1 < 2 ^ 63))) = some true)
      need (a ≠ w 14 ∨ (e.map (fun l => retained s1 l && l.st == .refused)) = some true)
      need (a ≠ w 15 ∨ e.isNone = true)
    for a in [w 10, w 11] do
      go (.tmprAch a) s) = true := by decide +kernel

/-! ### Witnesses: control cores, serving, bytecodes -/

theorem witness_ControlCore : met (do
    let s := coded .control (fun k => { words [(0x10, 0x100000100), (0x18, 0x100000101), (0x20, 0x200), (0x28, 5), (0x30, 0x1000), (0x38, 0x1018), (0x40, 0x1030),
      (0x48, 2 ^ 62 + 5), (0x50, 2 ^ 63 + 7), (0x1000, 7 * 2 ^ 32 + 2 ^ 3), (0x1018, 1), (0x1030, 5 * 2 ^ 5)] k with lines := [(0, 0x200100 / 64)] })
    let i := Instr.bld 2 (w 20) (w 2)
    go i s
    let (v, k) ← got (readSrc (issued i 0 s) .z64 (w 2))
    let _ ← got (writeDst k .z64 (w 20) 0)
    let ((t, pa), s2) ← had (coreTranslate (s.setCore s.cur k) s.cur v 0)
    need (v % 4 = 0 ∧ isBulk v = true ∧ t ≠ 3 ∧ (s2.core s.cur).lines.contains (t, pa / 64) = true ∧ homeBusy s2 s.cur t pa false = false)
    let s3 := { s with rdy := { s.rdy with host := true } }.modCore s.cur (fun k => { k with tlb := [{ placedEnt with tier := 3 }] })
    let ((t, pa), s4) ← had (coreTranslate s3 s.cur v 0)
    need (t = 3 ∧ homeBusy s4 s.cur t pa true = false)
    for x in [(w 3, false, true), (w 4, true, false)] do
      go (.bld 2 (w 20) x.1) s
      let (v, _) ← got (readSrc (issued (.bld 2 (w 20) x.1) 0 s) .z64 x.1)
      need (decide (v % 4 = 0) = x.2.1 ∧ isBulk v = x.2.2)
    let i := Instr.bst 2 (w 5) (w 2)
    go i s
    let (_, k0) ← got (readSrc (issued i 1 s) .z64 (w 5))
    let (v, k) ← got (readSrc k0 .z64 (w 2))
    let _ ← had (coreTranslate (s.setCore s.cur k) s.cur v 1)
    need (v % 4 = 0 ∧ isBulk v = true ∧ fenceClear k = true ∧ k.ctb < 65535)
    for x in [(w 6, false, false), (w 7, true, false), (w 8, false, true)] do
      let i := Instr.icw (w 5) x.1
      go i s
      let (n, k0) ← got (readSrc (issued i 0 s) .z64 (w 5))
      let (a, k) ← got (readSrc k0 .z64 x.1)
      need (n < 2048 ∧ a + 24 ≤ topOf s.cur.cls ∧ a % 8 = 0 ∧ unreadyAt k a 24 = false ∧ bitAt (readLocal k a 8) 0 = x.2.1)
      need (readLocal k (a + 16) 8 < 2 ^ 48 ∧ icForbidden (readLocal k a 8) (readLocal k (a + 8) 8) (readLocal k (a + 16) 8) = x.2.2)
    for x in [(c 0, 0), (w 9, 1), (w 10, 2)] do
      let i := Instr.ici x.1
      go i s
      let (v, _) ← got (readSrc (issued i 0 s) .z64 x.1)
      need (iciOk v = true ∧ field v 63 62 = x.2)
    go (.icr (w 20) (w 5)) s
    let y : Core := { cls := .control, fillWait := some (2, 64, 0x100000000) }
    need (y.fillWait = some (2, 64, 0x100000000) ∧ homeBusy (s.setCore s.ev.core y) s.ev.core 2 (64 * 64) true = false)) = true := by decide +kernel

/-- A sequence in state 3 of context 0, the token held by control core 0, and rights to everything. -/
def served (f : Core → Core) : State :=
  let s := rights (coded .control f)
  let seqs := memWrite (memWrite (memWrite s.seqs 0 8 (3 * 2 ^ 61 + 4)) 8 8 (4 * 2 ^ 32 + 2)) 0x38 8 (2 ^ 32 + 16)
  { s with seqs := seqs, serv := memWrite (memWrite s.serv 8 8 1) 0x10 8 (5 * 2 ^ 32 + 2 ^ 8), rdy := { s.rdy with deckle := 1 } }

theorem witness_ServingAndDeckle : met (do
    let d (op : Nat) : List (Nat × Nat) := [(0x10, 0), (0x18, 0x1000), (0x20, 0x40), (0x1000, op * 2 ^ 16), (0x1008, 7), (0x1010, 0)]
    let s := served (words (d 0))
    go (.sqRd (w 20) (w 2)) s
    need (ctxRight s 0 2 false = true ∧ seqCtx s 0 = (s.core s.cur).ctx ∧ seqState s 0 ≠ 0)
    let s2 := coded .control (words (d 0))
    go (.sqRd (w 20) (w 2)) s2
    go (.ltokWait (w 20)) s2
    need (ctxRight s2 0 2 false = false ∧ ctxRight s2 0 4 false = false)
    for op in [0, 7] do
      let s := served (words (d op))
      let i := Instr.sqWr (w 20) (w 3)
      go i s
      let (v, k) ← got (readSrc (issued i 1 s) .z64 (w 3))
      let _ ← got (writeDst k .z64 (w 20) 0)
      need (v + 16 ≤ topOf s.cur.cls ∧ v % 8 = 0 ∧ pendingAt k v 16 = false ∧ ctxRight s k.ctx 2 true = true ∧ seqCtx s 0 = k.ctx)
      need (k.ctf = 0 ∧ k.ctb = 0 ∧ k.ldo = 0 ∧ k.atm = 0)
      let r := seqOperation (s.setCore s.cur k) (field (readLocal k v 8) 12 0) (field (readLocal k v 8) 18 16) (field (readLocal k v 8) 29 24) (readLocal k (v + 8) 8)
      need ((got r).isSome = (op == 0))) = true := by decide +kernel

theorem witness_ServingAndDeckle_token : met (do
    for part in [1, 2] do
      let s := served (words [(0x18, 0x1000), (0x20, 0x40), (0x1000, 16 * 2 ^ 48 + 4 * 2 ^ 32 + 8 * 2 ^ 16), (0x1008, 0x2000)])
      let s := { s with serv := memWrite (memWrite s.serv 8 8 part) 0x10 8 (5 * 2 ^ 32 + 2 ^ 8 + (part - 1)), seqs := [] }
      let i := Instr.sqBuild (w 20) (w 3)
      go i s
      let (v, k) ← got (readSrc (issued i 1 s) .z64 (w 3))
      let _ ← got (writeDst k .z64 (w 20) 0)
      let s1 := s.setCore s.cur k
      need (v + 32 ≤ topOf s.cur.cls ∧ v % 8 = 0 ∧ pendingAt k v 32 = false ∧ ctxRight s k.ctx 2 true = true ∧ ctxRight s k.ctx 4 true = true)
      need ((tokenHeld s1 k.ctx && tokenHolder s1 k.ctx == s.cur.idx) = (part == 1) ∧ buildOk (readLocal k v 8) (readLocal k (v + 8) 8) = true)
      let b := buildStep s1 k.ctx 16 4 8
      let bs := planBytes (tokenStep s1 k.ctx) b
      need (0x2000 + bs.length ≤ 0x12000)
      let _ ← got (storeAt (b.s.core s.cur) 0x2000 bs)
      go (.ltokWait (w 20)) s
      let k0 := issued (.ltokWait (w 20)) 1 s
      let _ ← got (writeDst k0 .z64 (w 20) 0)
      need (ctxRight s k0.ctx 4 false = true ∧ bitAt (servPart s k0.ctx) s.cur.idx = (part == 1) ∧ tokenHeld s k0.ctx = true)
      go (.ltokPass (w 4)) s) = true := by decide +kernel

theorem witness_ServingAndDeckle_deckle : met (do
    for x in [(0x100001000, true), (0, false)] do
      let s := served (words [(0x18, 0x1000), (0x1008, 4), (0x1020, x.1)])
      let i := Instr.dkRun (w 20) (w 3)
      go i s
      let (v, k) ← got (readSrc (issued i 1 s) .z64 (w 3))
      let _ ← got (writeDst k .z64 (w 20) 0)
      need (v + 64 ≤ topOf s.cur.cls ∧ v % 8 = 0 ∧ pendingAt k v 64 = false ∧ k.ctf = 0 ∧ k.ctb = 0 ∧ k.ldo = 0 ∧ k.atm = 0)
      need (decide (field (readLocal k (v + 8) 8) 63 34 = 0 ∧ readLocal k (v + 32) 8 ≠ 0) = x.2 ∧ bitAt s.rdy.deckle 0 = true)
    let s := served (words [(0x18, 0x1000), (0x1000, 2 ^ 63)])
    go (.dkWait (w 20) (w 3)) s
    need (bitAt (readLocal (s.core s.cur) 0x1000 8) 63 = true ∧ pendingAt (s.core s.cur) 0x1000 8 = false)
    let r : DkReq := { ctx := 0, core := s.cur, words := [0x100001000, 4, 0, 0, 0x100001040, 0x100001080, 0, 0] }
    let s1 := { s with deckles := [[r], [], [], []] }
    let w ← dkResult s1 r
    need (nth s1.deckles s1.ev.i [] = [r] ∧ r.result = none)
    let r2 := { r with result := some w }
    let _ ← writeMailbox { s with deckles := [[], [], [], []] } r2.ctx (nth r2.words 5 0) w) = true := by decide +kernel

/-! A function record of version 7 at bulk address 0x1_0000_1000, with 4 constants and 4 locals; an object of shape 0xABC at
0x1_0000_10C0; the stack at 0x1000; text that ends in an `end` at code offset 0x800. -/

/-- Control core 0 about to run a bytecode. -/
def bc (bytes : List Nat) (stack : List (Nat × Nat)) (f : Core → Core) : State :=
  let s := placeBytecode State.reset bytes
  let near := [(0x200840, 0xF0010000), (0x201000, 7 * 2 ^ 32 + 4 * 2 ^ 16 + 4), (0x201018, 0x100001080), (0x201080, 9),
    (0x2010C0, 0xABC * 2 ^ 40 + 5), (0x2010D0, 9)].foldl (fun m e => memWrite m e.1 8 e.2) s.near
  let s := { s with near := near, cur := ⟨.control, 0⟩, ev := { core := ⟨.control, 0⟩ } }
  s.modCore s.cur (fun k => f { words ([0x1810, 0x1820, 0x1BF0, 0x1BF8].map (fun a => (a, 0x4000000040)) ++ stack) k with
    bhtab := 0x1800, lines := [(0, 0x201000 / 64), (0, 0x201040 / 64), (0, 0x201080 / 64), (0, 0x2010C0 / 64)] })

/-- The front end can run, with room for some more words. -/
def front (grow : Nat) (s : State) : Option Unit := do
  let k := s.core s.cur
  need (inBytecode s s.cur = true ∧ k.vpend = false ∧ k.acqWait = false ∧ pendingAt k (k.wp + 128) 64 = false ∧ 4 ≤ ringFree k)
  need (grow = 0 ∨ wReg k 18 + 8 * grow ≤ wReg k 20)

/-- A dispatch of an entry can be made. -/
def routine (s : State) (c : CoreId) (n : Nat) : Option Unit := do
  let t ← got (handlerEntry s c n)
  got (checkTarget s c t)
  let _ ← got (storeWords s c (dispatchWords (s.core c) 1 n 0 0xFFFF 0 0))

theorem witness_BytecodeRoutines : met (do
    let s := bc [0x05] [] id
    front 1 s
    for n in [0x05, 0xFD, 0xFE, 0xFF] do
      routine s s.cur n
    let s1 : State := { s with ev := { core := s.cur, w := 0x23 } }
    need (inBytecode s1 s1.ev.core = true ∧ 4 ≤ ringFree (s1.core s.cur) ∧ s1.ev.w < 256 ∧ bcLength s1.ev.w = none)
    let s2 := bc [0x02] [(0xA0, 0x1000)] id
    front 0 s2
    need (wReg (s2.core s2.cur) 20 < wReg (s2.core s2.cur) 18 + 8)
    let s3 := bc [0x01] [(0x808, 14)] id
    need (inBytecode s3 s3.cur = true ∧ ringFree (s3.core s3.cur) < 4)) = true := by decide +kernel

/-- The front end before its reads. -/
def fe (s : State) : Fe := { s := s, sp := wReg (s.core s.cur) 18 }

/-- A lookup that hits, with the way and the machine after it. -/
def lookup (kind n : Nat) (callee : Option Nat) (slot : Nat) (s : State) : Option (List Nat × Nat × Fe) := do
  front 0 s
  let xs ← got ((fe s).operands s.cur n)
  match callee with
  | some v => do
    let x ← got ((fe s).peek s.cur n)
    need (x = v)
  | none => some ()
  let (r0, f1) ← got ((fe s).rd s.cur ((fe s).w s.cur 17) 8)
  let e := icEntry (f1.s.core s.cur) ((f1.w s.cur 21 + slot) % 2048)
  need (field e.1 63 32 = field r0 63 32 ∧ field e.1 31 8 = wReg (s.core s.cur) 16 ∧ field e.1 7 5 = kind ∧ field e.1 4 3 = 1)
  let (r, f) ← got (tryWays kind s.cur e xs (callee.getD 0) 1 0 f1)
  match r with
  | some (way, _) => some (xs, way, f)
  | none => none

/-- The plan of a bytecode can be written. -/
def written (s : State) (f : Fe) : Option Unit := do
  let _ ← got (f.finish s.cur 1 1)

theorem witness_BytecodeResults : met (do
    let s := bc [0x03, 0x00, 0x00] [(0xFF8, 7), (0xFF0, 5), (0x1000, 11)] id
    let d := s.cur
    front 1 s
    need (isRef 7 = false ∧ isRef 0x1000010C0 = true ∧ 0x1000010C0 % 16 = 0)
    let (h, _) ← got ((fe s).rd d 0x1000010C0 8)
    need (bitAt h 39 = false ∧ field h 31 0 = 5)
    for v in [0x1000010C0, 7] do
      for up in [true, false] do
        let _ ← got ((fe s).count d v up)
    let (h, f) ← got ((fe s).rd d ((fe s).w d 17) 8)
    need (0 < field h 15 0 ∧ f.w d 19 = wReg (s.core d) 19 ∧ 0 < field h 31 16)
    let (x, f2) ← got (f.rd d (f.w d 17 + 0x18) 8)
    let (v, f3) ← got (f2.rd d (x + 8 * 0) 8)
    let f4 ← got ((f3.push v).count d v true)
    written s f4
    let x ← got (f.word d (wReg (s.core d) 19))
    let f4 ← got ((f.push x).count d x true)
    written s f4
    let (v, f2) ← got (f.pop d)
    let f3 ← got (f2.count d x false)
    written s (f3.setLoc (wReg (s.core d) 19) v)
    let a ← got ((fe s).peek d 0)
    let b ← got ((fe s).peek d 1)
    need (a = 7 ∧ b = 5 ∧ isRef a = false)
    let f ← got (({ fe s with sp := add64 (fe s).sp (-8) } : Fe).count d a false)
    written s f
    written s (fe s)
    let s2 := bc [0x03] [(0xFF8, 2)] id
    let a ← got ((fe s2).peek d 0)
    need (a = 2 ∧ isRef a = false)) = true := by decide +kernel

/-- Hits of each kind; `loadattr` and `storeattr` go on to the slot. -/
theorem witness_BytecodeResults_hits : met (do
    let entry (kind way : Nat) (k : Core) : Core := { k with ic := [(0, 7 * 2 ^ 32 + kind * 2 ^ 5 + 2 ^ 3, way, 0)] }
    let obj := 0x1000010C0
    let small := 0xFFFFFF * 2 ^ 40 + 0x10
    let s := bc [0x06, 0, 0, 0, 0] [(0xFF8, obj), (0xFF0, 5)] (entry 0 (0xABC * 2 ^ 40))
    let (_, way, f) ← lookup 0 1 none 0 s
    let (x, f2) ← got (f.pop s.cur)
    let (v, f3) ← got (f2.rd s.cur (x + 16 + 8 * field way 11 0) 8)
    let f4 ← got ((f3.push v).count s.cur v true)
    let f5 ← got (f4.count s.cur x false)
    written s f5
    let (v, f3) ← got (f2.pop s.cur)
    let (h, f4) ← got (f3.rd s.cur (x + 16 + 8 * field way 11 0) 8)
    let f5 ← got (f4.count s.cur h false)
    let f6 ← got (f5.count s.cur x false)
    written s { f6 with blk := f6.blk ++ [(x + 16 + 8 * field way 11 0, 8, v)] }
    let s := bc [0x0F, 0, 0, 0, 0] [(0xFF8, 7), (0xFF0, 5)] (entry 4 (small + 1))
    let (_, _, f) ← lookup 4 1 none 0 s
    let (x, f2) ← got (f.pop s.cur)
    let f3 ← got (f2.count s.cur x false)
    written s (f3.push 4)
    let calls : List (Nat × Nat × Option Nat × Nat × Nat) :=
      [(3, 2, none, small, 7), (2, 2, none, small, 7), (2, 1, none, small, 7), (1, 0, some obj, 0xABC * 2 ^ 40 + 0x7F * 2 ^ 33 + 0x10, obj)]
    for x in calls do
      let s := bc [0x08, 0, 0, 0] [(0xFF8, x.2.2.2.2), (0xFF0, 5)] (entry x.1 x.2.2.2.1)
      let (_, way, f) ← lookup x.1 x.2.1 x.2.2.1 0 s
      need (bitAt way 25 = false ∧ (f.s.core s.cur).wp = (s.core s.cur).wp)
      got (checkTarget f.s s.cur (4 * field way 24 0))
      let _ ← got (storeWords f.s s.cur (dispatchWords (s.core s.cur) 4 8 0 0 0 8))) = true := by decide +kernel

/-- A hit on the fast path, whose template does not fit the operands; an entry of another version. -/
theorem witness_BytecodeResults_binary : met (do
    let entry (version way : Nat) (k : Core) : Core := { k with ic := [(0, version * 2 ^ 32 + 2 * 2 ^ 5 + 2 ^ 3, way, 0)] }
    let s := bc [0x08, 0, 0, 0] [(0xFF8, 7), (0xFF0, 5)] (entry 7 (0xFFFFFF * 2 ^ 40 + 2 ^ 25))
    let (xs, way, f) ← lookup 2 2 none 0 s
    need (bitAt way 25 = true)
    let b : Bc := { op := 8, opnd := 0, slot := 0, bpc := wReg (s.core s.cur) 16, next := 4 }
    let _ ← got (fastPath b way xs 2 f s.cur)
    let s := bc [0x08, 0, 0, 0] [(0xFF8, 7), (0xFF0, 5)] (entry 6 0)
    front 0 s
    let _ ← got ((fe s).operands s.cur 2)
    let (h, f) ← got ((fe s).rd s.cur ((fe s).w s.cur 17) 8)
    let e := (icEntry (f.s.core s.cur) ((f.w s.cur 21 + 0) % 2048)).1
    need (field e 63 32 ≠ field h 63 32 ∧ (f.s.core s.cur).wp = (s.core s.cur).wp)
    routine f.s s.cur 8) = true := by decide +kernel

/-! ### Witnesses: power, health, bring-up, registers -/

theorem witness_PowerAndHealth : met (do
    let s := State.reset
    let i := nth s.islands 0 {}
    need (s.ev.i = 0 ∧ s.islands.length = 16 ∧ s.islands[0]? = some i ∧ i.changing = false ∧ i.waits = [])
    let d : CoreId := ⟨.compute, 0⟩
    let bound (i : Island) : Nat × Nat := (min (min i.budget s.gov * 1024) (i.used + i.step * 1024), i.debt + i.used - i.allow)
    let w1 := { i with waits := [(d, 1)] }
    need (1 * w1.lgrant + (bound w1).2 ≤ (bound w1).1)
    let w2 := { i with waits := [(d, 64)], used := 131073, budget := 64 }
    need ((bound w2).1 < 64 * w2.lgrant + (bound w2).2 ∧ (bound w2).2 ≠ 0)
    let w3 := { i with changing := true, changeTo := some 3 }
    need (w3.changing = true ∧ w3.changeTo = some 3)
    need ((s.health.words.contains (3, 8)) = false ∧ ([(3, 8)] : List (Nat × Nat)).contains (3, 8) = true ∧ s.health.residue = [])
    need (∃ e ∈ [((5 : Nat), (0 : Nat))], e.1 = 5 ∧ s.cycle < e.2 + 600000000)
    need (bitAt s.health.retired 5 = false ∧ s.ev.i = 0 ∧ s.ev.core.cls = .compute ∧ s.health.recur = [])
    need (localOwner s s.ev.core 0 = none)
    let t := coded .compute (fun k => { k with vpend := true })
    need (rowOwner t 0 0 = some 0 ∧ (t.core t.ev.core).vpend = true ∧ t.ev.core.cls = .compute)
    for n in [2, 3] do
      let t := coded .compute (fun k => { k with pst := .primary, pairRuns := n })
      need ((t.core t.ev.core).pst = .primary ∧ (t.core t.ev.core).pairRuns = n)
    for p in [PairState.single, .coupling] do
      let t := two (fun k => { k with pst := p, pairReq := 3, run := .idle, partner := 1 })
      let k := t.core t.ev.core
      let d := coreAt (rowOf t.ev.core) k.partner
      need (pid d ≠ pid t.ev.core ∧ k.pairReq = 3 ∧ k.run = .idle ∧ k.life = .active ∧ k.pst = p ∧ partnerIdle t d = true)) = true := by decide +kernel

/-- A record with nothing held out: a good one, where the signature and the device's own functions, which are open here (log 11),
let it be; with no record at all, STAGE stops. -/
def flashed : State := { State.reset with sec := { flash := memWrite [] 0 4 0x5A96C0F1 } }

theorem witness_BringUp : met (do
    need (memRead State.reset.sec.flash 0 4 ≠ 0x5A96C0F1)
    let s := flashed
    need (memRead s.sec.flash 0 4 = 0x5A96C0F1 ∧ recordClean s.sec.flash = true ∧ bitAt (memRead s.sec.flash 0x18 8) 0 = false)
    let s := { s with rdy := { s.rdy with stage := 3 } }
    need (s.rdy.error = 0 ∧ s.hport.fwgo = false ∧ s.hport.fwlen = 0)
    let img := memBytes s.hport.bar2 0 200
    need (200 ≠ 0 ∧ 196 ≤ img.length ∧ memRead s.sec.flash 0x10 4 ≤ ofBytes (img.take 4))
    let f := memWrite s.sec.flash 0x10 4 1
    need (ofBytes (img.take 4) < memRead f 0x10 4)
    let s := { s with rdy := { s.rdy with stage := 4 }, hport := { s.hport with expCaps := [4, 0, 2, 0] }, sec := { s.sec with retire := 2 } }
    need (4 ≤ s.rdy.stage ∧ s.rdy.error = 0 ∧ s.ev.ok = true ∧ (bitAt s.sec.retire 0 || bitAt s.health.retired 0) = false ∧ (bitAt s.sec.retire 1 || bitAt s.health.retired 1) = true)
    need (bitAt s.sec.nearDis 0 = false ∧ bitAt s.sec.farDis 0 = false ∧ (bitAt s.sec.linkDis 0 || (nth s.links 0 {}).down) = false)
    let s := rights (coded .control id)
    need (actRight s s.ev.i 6 true = true ∧ s.sec.queue.length < 4)
    let s := { s with near := memWrite s.near 0x201050 8 0x100002000, ev := { w := 0x100001000 } }
    let m ← svcWord s s.ev.i (s.ev.w + 80) 8
    let _ ← writeMailbox s s.ev.i m (2 ^ 62 + 3)
    for kind in [0, 1] do
      let s := { s with near := memWrite (memWrite s.near 0x201000 8 kind) 0x201048 8 0x100003000 }
      let bs ← svcRead s 0 0x100001000 128
      need (ofBytes (bs.take 8) = kind)
      let _ ← writeMailbox s 0 (ofBytes ((bs.drop 80).take 8)) (2 ^ 63)) = true := by decide +kernel

theorem witness_HostAndRegisters : met (do
    let s := State.reset
    let s : State := { s with ev := { i := 64, w := 5, j := 0xAB00000 } }
    need (actRight s s.ev.i 4 true = true ∧ actRight s s.ev.i 6 false = true ∧ 1 ≤ s.ev.w ∧ s.ev.w ≤ 31 ∧ s.hport.notices = [])
    for x in [0xAB00000, 0xAB00100, 0xAB002E0, 0xA000000, 0xA7FFFF8, 0xAC00000, 0xAC00110] do
      let s : State := { s with ev := { i := 64, w := 5, j := x } }
      let r ← sysRegion s.ev.j
      need (s.ev.j % 8 = 0 ∧ actRight s s.ev.i r true = true ∧ s.ev.w < 2 ^ 64)
    need ((s.islands[15]?).isSome = true ∧ (s.islands[0]?).isSome = true)
    for x in [(3, false), (4, true)] do
      let s : State := { s with ev := { i := 2, j := 0, bytes := [1] }, rdy := { s.rdy with stage := x.1 }, hport := { s.hport with fwgo := x.2 } }
      need (s.ev.i = 2 ∧ s.ev.bytes ≠ [] ∧ s.ev.j + s.ev.bytes.length ≤ 2 ^ 24 ∧ (s.rdy.stage = 3 ∧ s.hport.fwgo = false ∨ s.rdy.stage ≠ 3))
    let s : State := { s with ev := { i := 0, j := 0xA000000, bytes := toBytes 8 5 } }
    need (s.ev.i = 0 ∧ s.ev.bytes = toBytes 8 5 ∧ s.ev.j % 8 = 0)) = true := by decide +kernel

/-! ### Further clauses: waits, traps and boundary values -/

/-- A read or a check that waits. -/
def waits {α : Type} : Except Stop α → Bool
  | .error .wait => true
  | _ => false

/-- The result of a multiply, which can be read 3 cycles later, and a source that waits for it (R103). -/
theorem witness_TwoSourceScalars_late : met (do
    let s := on .compute (words [(16, 5), (24, 7)])
    let i := Instr.mul .s32 (w 1) (w 2) (w 3)
    go i s
    let (_, k1) ← got (readSrc (issued i 1 s) .s32 (w 2))
    let (_, k2) ← got (readSrc k1 .s32 (w 3))
    let (l, k3) ← got (scalarLoc k2 (w 1) 4)
    let _ ← got (storeLoc k3 .s32 35 l)
    let s := on .compute (fun k => { k with late := [(8, 8, 2)] })
    let i := Instr.add .s32 (w 1) (w 1) (w 3)
    go i s
    need (waits (readSrc (issued i 1 s) .s32 (w 1)) = true)) = true := by decide +kernel

/-- The word of a handle: base slot 0x200, size, CONS and FILL (R79). -/
def handle (size cons fill : Nat) : Nat := 0x200 + size * 2 ^ 14 + cons * 2 ^ 28 + fill * 2 ^ 42

/-- The FIFO's h3 over a skip; no slots; more than SIZE; more than is filled and than is free. -/
theorem witness_HandleOperations_waits : met (do
    let base (h3 : Nat) (k : Core) : Core := words [(16, 0x1000), (24, 0), (32, 2), (40, 9), (0x368, handle 4 0 1), (0x370, 0), (0x378, h3)] k
    let s := on .compute (fun k => { base (handle 8 6 3) k with h3fifo := true, fifoWp := 0, chans := setAt k.chans 0 { skip := 7 } })
    let i := Instr.hadvC 3 (w 4)
    go i s
    let (n, k1) ← got (readSrc (issued i 1 s) .z64 (w 4))
    need (k1.h3fifo = true ∧ k1.wp = k1.fifoWp ∧ 0 < n ∧ n ≤ field (wsWord k1 0x378) 55 42 ∧ n ≤ field (wsWord k1 0x378) 27 14)
    for i in [Instr.hadvC 1 (w 3), .hadvP 1 (w 3), .hbind 1 (w 2) (w 3)] do
      go i s
    let (n, k1) ← got (readSrc (issued i 1 s) .z64 (w 3))
    need (n = 0 ∧ field (wsWord k1 0x368) 27 14 ≠ 0)
    for x in [(1, w 4, true), (1, w 5, true), (2, w 4, true), (1, w 5, false), (2, w 4, false)] do
      let h : Fin 4 := x.1
      let i := if x.2.2 then Instr.hadvC h x.2.1 else .hadvP h x.2.1
      go i s
      let (n, k1) ← got (readSrc (issued i 1 s) .z64 x.2.1)
      let v := wsWord k1 (0x360 + 8 * h.val)
      need ((h = 2 ∧ field v 27 14 = 0) ∨ (n = 9 ∧ field v 27 14 < n) ∨ (n = 2 ∧ field v 27 14 = 4 ∧ field v 55 42 < n))
    let full := on .compute (base 0)
    let full := full.modCore full.cur (words [(0x368, handle 4 0 3)])
    let i := Instr.hadvP 1 (w 4)
    go i full
    let (n, k1) ← got (readSrc (issued i 1 full) .z64 (w 4))
    need (n = 2 ∧ field (wsWord k1 0x368) 27 14 - field (wsWord k1 0x368) 55 42 < n)) = true := by decide +kernel

/-- A base that is not aligned, one below the store, slots that end above it, and more slots than a handle has (R118). -/
theorem witness_HandleOperations_traps : met (do
    let s := on .compute (words [(16, 0x1004), (24, 1), (32, 2 ^ 64 - 8), (40, 0x11FF8), (48, 2), (56, 16384), (64, 0)])
    for x in [(w 2, w 3), (w 4, w 3), (w 5, w 6), (w 8, w 7)] do
      let i := Instr.hbind 1 x.1 x.2
      go i s
      let (z, k1) ← got (readS (issued i 1 s) x.1)
      let (n, _) ← got (readSrc k1 .z64 x.2)
      need (z % 8 ≠ 0 ∨ z % 8 = 0 ∧ n ≠ 0 ∧ (z < 0 ∨ ((s.core s.cur).top : Int) < z + 8 * n ∨ 16383 < n))) = true := by decide +kernel

/-- Addresses below and above the store, at its last bytes, and not aligned, for an access of n bytes. -/
def badAddrs (n : Nat) (z : Int) (k : Core) : Bool :=
  z < 0 || 0x1FFFF < z || (k.top : Int) < z + n || (0 ≤ z && z.toNat + n ≤ k.top && z.toNat % min n 8 != 0)

theorem witness_LocalLoadStore_traps : met (do
    let s := on .compute (words [(16, 2 ^ 64 - 4), (24, 0x12000), (32, 0x11FFC), (40, 0x1002), (48, 0), (56, 0x20000)])
    for a in [w 2, w 3, w 4, w 5, w 7] do
      for i in [Instr.ld .z64 (w 1) a (w 6), .st .z64 (w 1) a (w 6), .ldt .z64 .fp32 .rne (w 1) a (w 6), .stt .z64 .fp32 .rne (w 1) a (w 6),
          .vld .s32 (w 1) a (w 6), .vst .s32 (w 1) a (w 6)] do
        go i s
        let (x, k1) ← got (readS (issued i 1 s) a)
        let (y, _) ← got (readS k1 (w 6))
        need (badAddrs 8 (x + y) (s.core s.cur) = true ∧ badAddrs 64 (x + y) (s.core s.cur) = true)
        need (a = w 4 ∨ badAddrs 4 (x + y) (s.core s.cur) = true)) = true := by decide +kernel

/-- The first lane's address is not aligned; the second lies above the store. -/
theorem witness_VectorMemory_traps : met (do
    for x in [((0 : Nat), 2), (1, 0)] do
      let s := on .compute (fun k => { words [(24, x.2), (0x100, 0x0000480000000004)] k with mask := 3 })
      for i in [Instr.vldx .s32 (w 2) (w 3) (w 0), .vstx .s32 (w 2) (w 3) (w 0)] do
        go i s
        let k := issued i (gatherCost .s32 (w 3) (w 0) (s.core s.cur)) s
        let (a, k1) ← got (readS k (w 3))
        let (v, _) ← got (readVec k1 (indexFmt .s32) (w 0))
        need (active k x.1 = true ∧ badAddrs 4 (laneAddr 32 a v x.1) (s.core s.cur) = true)
        need (x.1 = 0 ∨ badAddrs 4 (laneAddr 32 a v 0) (s.core s.cur) = false)) = true := by decide +kernel

/-- f = g, with elements that are no NaN. -/
theorem witness_VectorConvert_same : met (do
    let s := on .compute (fun k => { words [(0x100, 0x12)] k with mask := 1 })
    let i := Instr.vcvt .ds8 .ds8 .rne (w 2) (w 0)
    go i s
    let k := issued i 1 s
    let (x, k1) ← got (readVec k .ds8 (w 0))
    let (l, k2) ← got (vectorLoc k1 (w 2))
    need ((decodeFmt .ds8 (lane 8 x 0)).isNan = false)
    let _ ← got (storeLanes k2 1 l (active k) 0 (List.replicate 64 0x12))) = true := by decide +kernel

/-- Counters that end above the store, on a base that is not aligned, and across the end of a modulo region. -/
theorem witness_VectorHistogram_traps : met (do
    for x in [(0x11C04, 0), (0x1002, 0), (0x1000 + 2 ^ 20, 0x1000 + 512 * 2 ^ 32)] do
      let s := on .compute (fun k => { words [(0x310, x.1), (0x340, x.2)] k with mask := 1 })
      let i := Instr.vhist .fp16 (p 2) (w 0) (c 8)
      go i s
      let k := issued i (histCost .fp16 (w 0) (c 8) (s.core s.cur)) s
      let (_, k1) ← got (readVec k .fp16 (w 0))
      let (_, k2) ← got (readSrc k1 .z64 (c 8))
      let base := field (aWord k2 2) 16 0
      let region := mWord k2 (field (aWord k2 2) 19 18)
      let stop := field region 16 0 + field region 48 32
      need ((s.core s.cur).top < base + 1024 ∨ base % 4 ≠ 0 ∨
        bitAt (aWord k2 2) 20 = true ∧ field region 48 32 ≠ 0 ∧ base < stop ∧ stop < base + 1024)) = true := by decide +kernel

/-- A core of the placed launch near the end of its text (0x1000). -/
def tailed (f : Core → Core) : State := coded .compute (fun k => f { k with pc := 0xF80 })

/-- Every transfer to a target that is misaligned, outside the sections, near the section's end, where whether a zero word is
padding is a free value (log 10), and near an end that is still to come; a conditional branch is taken. -/
theorem witness_TransfersTrapsAndBreaks_targets : met (do
    for x in [((0xFC2 : Nat), (0 : Nat)), (0x2000, 1), (0xFF0, 2), (0xFF0, 3)] do
      let t := x.1
      let s := tailed (words [(0xF8, t), (0x10, t), (0, 5)])
      let s := if x.2 = 3 then { s with near := memWrite s.near 0x200008 4 0x1000 } else s
      let off := BitVec.ofNat 20 ((t - 0xF80) / 4)
      let direct : List Instr := if x.2 = 0 then [] else [.b .al off, .call off, .loop 0 off]
      for i in direct ++ [Instr.j (BitVec.ofNat 32 t), .ret, .jx (w 2)] do
        go i s
        let cost := if i = .loop 0 off then 1 else 2
        let k0 := issued i cost s
        let k ← if i = .jx (w 2) then (got (readSrc k0 .z64 (w 2))).map (·.2) else some k0
        need (condHolds .al (s.core s.cur).flags = true ∧ (((((s.core s.cur).pc : Int) + 4 * off.toInt) % 2 ^ 32).toNat = t) = (x.2 ≠ 0))
        need (unreadyAt k ((s.core s.cur).wp + 248) 8 = false ∧ readLocal (s.core s.cur) ((s.core s.cur).wp + 248) 8 = t)
        need (unreadyAt k ((s.core s.cur).wp + 0) 8 = false ∧ readLocal (s.core s.cur) ((s.core s.cur).wp + 0) 8 ≠ 1)
        let l ← codeLaunch (s.setCore s.cur k) s.cur k
        let s1 := s.setCore s.cur k
        need (decide (t % 4 ≠ 0) = (x.2 == 0))
        need (x.2 ≠ 1 ∨ sectionEnd l t = none)
        need (x.2 < 2 ∨ sectionEnd l t = some 0x1000)
        need (x.2 ≠ 2 ∨ tailLate s1 l t 0x1000 = false ∧ zeroTail s1 l 0x1000 15 = 15)
        need (x.2 ≠ 3 ∨ tailLate s1 l t 0x1000 = true)) = true := by decide +kernel

/-- Entry to the local handler, and waits while a destination is pending. -/
theorem witness_TrapEntersHandler_local : met (do
    let t : Trap := { cause := .ttb, sub := 0, addr := 7 }
    let both (k : Core) : Core := { k with tcfg := 2 ^ 15 + 2 * 2 ^ 8 + 0x100001, tent := 0x240 * 2 ^ 32 + 0x200 }
    let s := coded .compute both
    let s0 := surfaceJob (clearWaits (gangTrap s s.cur t 0xF0030007 false) s.cur) s.cur t
    let k := s0.core s.cur
    need (trapHeld s s.cur t = false ∧ k.tframe = none ∧ bitAt k.tcfg 15 = true ∧ k.lframe = none)
    need (handlerUsable s0 s.cur k (field k.tent 63 32) = true)
    let b := changeWp k (1024 * field k.tcfg 14 8)
    need (Memory.wf b.ls = true ∧ Memory.wf b.sh = true)
    let s := coded .compute (fun k => { both k with pendDst := [(8, 8)] })
    need ((s.core s.cur).pendDst ≠ [] ∧ trapHandler s s.cur t = some true ∧ 1024 * field (s.core s.cur).tcfg 14 8 ≠ (s.core s.cur).wp)
    let t : Trap := { cause := .trap, sub := 7 }
    need (trapHandler s s.cur t = some false ∧ 1024 * field (s.core s.cur).tcfg 6 0 ≠ (s.core s.cur).wp)) = true := by decide +kernel

/-- An ATTACH trap whose local handler is off, runs, or is not usable, with no usable trap handler. -/
theorem witness_ContextEndsOnCore_local : met (do
    let t : Trap := { cause := .attach, sub := 3 }
    let fr := frame false false t
    for x in [((fun k => k : Core → Core), 0), (fun k => { k with tcfg := 2 ^ 15 + 0x100001, lframe := some fr }, 1), (fun k => { k with tcfg := 2 ^ 15 + 0x100001, tent := 0x2 * 2 ^ 32 + 2 }, 2)] do
      let s := coded .compute (fun k => x.1 { k with tent := 2 })
      let s0 := surfaceJob (clearWaits (gangTrap s s.cur t 0 false) s.cur) s.cur t
      let k := s0.core s.cur
      need (trapHeld s s.cur t = false ∧ k.tframe = none ∧ handlerUsable s0 s.cur k (field k.tent 31 0) = false)
      need (bitAt k.tcfg 15 = false ∨ k.lframe.isSome = true ∨ handlerUsable s0 s.cur k (field k.tent 63 32) = false)) = true := by decide +kernel

/-- A return that would change WP with a destination pending; after BUDGET with a request pending; on an idle core, with and
without a request. -/
theorem witness_ReturnFromHandler_cases : met (do
    let t : Trap := { cause := .trap, sub := 7 }
    let fr := frame false false t
    let isRet (s : State) : Option Unit := do
      for i in [Instr.rttResume, .rttSkip, .rttAbort, .rttDrop, .rttKill] do
        go i s
    for loc in [true, false] do
      let held (fr : Frame) (k : Core) : Core := if loc then { k with lframe := some fr } else { k with tframe := some fr }
      let s := handled (fun k => { held fr k with pendDst := [(8, 8)] })
      need ((s.core s.cur).run ≠ .idle ∧ fr.trap.cause ≠ .budget ∧ (s.core s.cur).pendDst ≠ [] ∧ fr.wp ≠ (s.core s.cur).wp)
      isRet s
      let fb := { fr with trap := { cause := .budget }, wp := 0 }
      let s := handled (fun k => { held fb k with preReq := some 0 })
      need ((s.core s.cur).run ≠ .idle ∧ fb.trap.cause = .budget ∧ (s.core s.cur).preReq.isSome = true ∧ (s.core s.cur).pendDst = [])
      isRet s
      for req in [none, some 0] do
        let s := handled (fun k => { held { fr with idle := true } k with run := .idle, preReq := req })
        need ((s.core s.cur).run = .idle ∧ (s.core s.cur).preReq = req ∧ (s.core s.cur).pendDst = [] ∧ (loc = true ∨ (s.core s.cur).lframe = none))
        isRet s) = true := by decide +kernel

theorem witness_FiringCloses_waits : met (do
    let s := coded .compute (fun k => { k with kout := 1 })
    go .endFiring s
    need ((s.core s.cur).kout ≠ 0)) = true := by decide +kernel

/-- The registers of `srr` on a compute and a control core, and of `srw` with an address that is not aligned. -/
theorem witness_SystemRegisters_more : met (do
    let regs := [0x00, 0x01, 0x02, 0x04, 0x05, 0x10, 0x11, 0x12, 0x13, 0x1F, 0x21, 0x22, 0x23]
    for cls in [CoreClass.compute, .control, .gateway] do
      for n in regs do
        let s := coded cls (words [(0x10, n)])
        let i := Instr.srr (w 5) (w 2)
        go i s
        let (v, k) ← got (readSrc (issued i 1 s) .z64 (w 2))
        need (v = n)
        let _ ← got (writeDst k .z64 (w 5) 0)
    let s := coded .control (words [(0x10, 4), (0x18, 0x80)])
    for x in [((0x20 : BitVec 7), w 2), (0x21, w 3), (0x22, w 2), (0x23, w 2)] do
      let i := Instr.srw x.1 x.2
      go i s
      let (v, _) ← got (readSrc (issued i 1 s) .z64 x.2)
      need (v % 2 ^ 17 % 8 ≠ 0 ∨ x.1 = 0x21 ∧ v % 2 ^ 17 % 256 ≠ 0)) = true := by decide +kernel

/-- `sflag` with a kiln operation in flight; `wpset` to addresses that are no workspace, and with a destination pending; `pair`
where a coupling is asked for, copied and made. -/
theorem witness_FlagsWorkspaceBudgetPair_more : met (do
    let s := coded .compute (fun k => { words [(0x18, 0x400), (0x20, 0x401), (0x28, 0x11C01), (0x30, 0x12000), (0x38, 1)] k with kout := 1, pendDst := [(8, 8)] })
    go (.sflag (w 9) (w 3)) s
    let (_, k) ← got (readSrc (issued (.sflag (w 9) (w 3)) 1 s) .z64 (w 3))
    need (k.kout ≠ 0)
    for a in [w 3, w 4, w 5, w 6] do
      go (.wpset a) s
      let (v, k) ← got (readSrc (issued (.wpset a) 16 s) .z64 a)
      let _ ← got (readSrc (s.core s.cur).seen .z64 a)
      need (16 = (if v = (s.core s.cur).wp then 1 else 16))
      need (v % 1024 ≠ 0 ∨ v % 1024 = 0 ∧ topOf s.cur.cls < v + 1024 ∨ v + 1024 ≤ topOf s.cur.cls ∧ v ≠ k.wp ∧ k.pendDst ≠ [])
    for x in [(PairState.primary, 0), (.coupling, 3), (.single, 1), (.single, 3), (.single, 4)] do
      let s := coded .compute (fun k => { words [(0x38, 1)] k with pst := x.1, pairReq := x.2 })
      let s := s.setCore ⟨.compute, 1⟩ (s.core s.cur)
      let i := Instr.pair (w 9) (w 7)
      go i s
      let (v, k) ← got (readSrc (issued i 1 s) .z64 (w 7))
      let _ ← got (writeDst k .z64 (w 9) 0)
      let p := (s.setCore s.cur k).core (coreAt (rowOf s.cur) (placeOf s.cur + 1))
      need (v = 1 ∧ placeOf s.cur % 2 = 0 ∧ p.life ≠ .free ∧ p.ctx = k.ctx ∧ p.launch = k.launch)
      need (k.pst = .primary ∨ k.pst = .coupling ∨ k.pst = .single ∧ (k.pairReq = 1 ∨ k.pairReq = 3 ∨ k.pairReq = 4))
    some ()) = true := by decide +kernel

/-- 64-byte accesses; accesses that wait for the counts, for an earlier fence and for a place among the loads and the atomics;
an atomic to a home that it does not reach, and one to a line of the CXL tier, clean and poisoned. -/
theorem witness_FabricAccesses_more : met (do
    let s := two (words [(0x10, 0x20008), (0x18, 0x80000010), (0x20, 0x60000), (0x28, 0x100000000), (0x30, 0x2000C), (0x38, 2 ^ 48)])
    for a in [w 2, w 6] do
      for i in [Instr.fld .nw .z64 .rlx (w 4) a true .dev, .fst .nw .z64 .rlx (w 4) a true .dev] do
        go i s
      let (va, k1) ← got (readSrc (issued (.fld .nw .z64 .rlx (w 4) a true .dev) 1 s) .z64 a)
      need ((va % 8 ≠ 0) = (a = w 6))
      need (a ≠ w 2 ∨ (got (fabricHome (s.setCore s.cur k1) s.cur k1.ctx va 64 false)).isSome = true)
      need (pendingAt k1 (dataPlace k1 true (w 4)).1 64 = false)
    let full (k : Core) : Core := { k with ctf := 1, ldo := 4, atm := 8, fenceSt := true }
    let t := two (fun k => full (words [(0x10, 0x20008)] k))
    need (waitClear (t.core t.cur) .wf = false ∧ fenceClear (t.core t.cur) = false)
    go (.fst .wf .z32 .rel (w 8) (w 2) false .dev) t
    go (.amo .dev .wf .z32 .rel (w 8) (w 2) .add) t
    go (.fld .nw .z32 .rlx (w 8) (w 2) false .dev) t
    need (¬ ((isAcq .rlx = true) ∨ (t.core t.cur).ldo < 4) ∧ ¬ (t.core t.cur).atm < 8)
    for a in [w 4, w 7] do
      let i := Instr.amo .dev .nw .z64 .rlx (w 8) a .add
      go i s
      let (va, k1) ← got (readSrc (issued i 1 s) .z64 a)
      need (va % 8 = 0 ∧ isBulk va = false ∧ (va < 0xA0000000 ∨ 0xB0000000 ≤ va) ∧ unreadyAt k1 (dataPlace k1 false (w 8)).1 8 = false)
      need ((got (fabricHome (s.setCore s.cur k1) s.cur k1.ctx va 8 true)).isNone = true)
    let cxl := { s with rdy := { s.rdy with cxl := 3 }, hport := { s.hport with expCaps := [4, 0, 2, 0], xpres := 5 } }.modRow 0 (fun r => { r with tlb := [{ placedEnt with tier := 2 }] })
    let i := Instr.amo .dev .nw .z64 .rlx (w 8) (w 5) .add
    go i cxl
    let (va, k1) ← got (readSrc (issued i 1 cxl) .z64 (w 5))
    let ((t, pa), s2) ← had (coreTranslate (cxl.setCore cxl.cur k1) cxl.cur va 2)
    need (t = 2 ∧ pa / 64 ∉ s2.poison)
    let bad := { cxl with poison := [pa / 64] }
    go i bad
    let ((t, pa), s2) ← had (coreTranslate (bad.setCore bad.cur k1) bad.cur va 2)
    need (t = 2 ∧ pa / 64 ∈ s2.poison)) = true := by decide +kernel

theorem witness_Fences_waits : met (do
    let s := coded .compute (fun k => { k with pendDst := [(8, 8)], ctf := 1, ctb := 1 })
    need (waitClear (s.core s.cur) .wf = false ∧ waitClear (s.core s.cur) .nw = true)
    need ((issued (.fence .nw .dev .acq) 1 s).pendDst ≠ [] ∧ (issued (.fence .nw .dev .rlx) 1 s).ctf ≠ 0)
    for o in [Order.rlx, .acq, .rel, .acqrel] do
      go (.fence .wf .dev o) s
      go (.fence .nw .dev o) s) = true := by decide +kernel

/-- A 64-byte store of which some words perform; a home whose streamer is down; a line that the atomic unit has served in this
cycle, and a fault of the unit; accesses to the own core's window and to the system window. -/
theorem witness_FabricEvents_more : met (do
    let base := two id
    let own := Home.core ⟨.compute, 0⟩ 8
    let bulk := Home.bulk 0 0x200040
    let st := AccKind.store (List.replicate 64 1)
    let dark := { base with rdy := { base.rdy with near := 0 } }
    need (streamerReady base 0 0x200040 = true ∧ streamerReady dark 0 0x200040 = false)
    for x in [(own, 8), (bulk, 0x100000040)] do
      let a := { access x.1 x.2 st .going with todo := List.range 8 }
      for ns in [[], [0, 7]] do
        let s := { dark with fab := [a], ev := { nats := ns } }
        need (fabItem s s.ev.i = some a ∧ homeNow s a.ctx a.va a.home = some x.1 ∧ accLives s a = true)
    let r := rights base
    let a := access (.sys 0) 0xA0000000 st .going
    let s := { r with fab := [a] }
    need (fabItem s s.ev.i = some a ∧ homeNow s a.ctx a.va a.home = some (.sys 0))
    let a := { access bulk 0x100000040 (.load 64 0x100 true false) .going with todo := [3], got := List.replicate 64 0 }
    let s := { base with fab := [a] }
    need (fabItem s s.ev.i = some a ∧ homeNow s a.ctx a.va a.home = some bulk)
    let other := Home.core ⟨.compute, 1⟩ 8
    let a := access other 0x20008 (.amo .add .z32 1 9 0x40) .going
    for x in [(base, true), ({ base with hot := [{ unit := 0, line := .core ⟨.compute, 1⟩ 0, last := base.cycle + 1 }] }, false)] do
      let s := { x.1 with fab := [a] }
      need (fabItem s s.ev.i = some a ∧ homeNow s a.ctx a.va a.home = some other ∧ mayServe s a other = x.2 ∧ accLives s a = true)
    let s : State := { base with fab := [a], ev := { ok := false } }
    need (fabItem s s.ev.i = some a ∧ s.ev.ok = false ∧ mayServe s a other = true)
    let a := access bulk 0x100000040 (.amo .swp .z64 1 9 0x40) .going
    for b in [base, dark] do
      let s := { b with fab := [a] }
      need (fabItem s s.ev.i = some a ∧ homeNow s a.ctx a.va a.home = some bulk ∧ mayServe s a bulk = true)) = true := by decide +kernel

/-- A destination word with reserved bits, one that names no core, and bodies of `sendm` out of the store, misaligned, past the
limits, and behind messages of the last firing; `enq` with ct.m at its greatest. -/
theorem witness_SendingMessages_more : met (do
    let bad := dest 1 0 + 2 ^ 40
    let ws := [(0x10, dest 1 0), (0x18, dest 1 32), (0x20, 0x1000), (0x28, 0x1004), (0x30, 0x11F08), (0x38, bad), (0x40, dest 9 0), (0x48, dest 9 1)]
    let m : Msg := { src := none, ctx := 0, dest := dest 1 0, hdr := 0, words := [1] }
    let plain := two (words ws)
    let busy := two (fun k => { words ws k with ctf := 1 })
    need (waitClear (busy.core busy.cur) .wf = false)
    for i in [Instr.send .wf .rlx (w 5) (w 2), .sendm .wf .rlx (w 4) (w 3), .enq .wf .rlx (w 5) (w 2) true] do
      go i busy
    for x in [(w 7, w 4, 0), (w 9, w 4, 0), (w 3, w 6, 1), (w 3, w 5, 2), (w 3, w 4, 3), (w 3, w 4, 4)] do
      let s := two (fun k => { words ws k with sbuf := if x.2.2 = 3 then [m] else [], sout := if x.2.2 = 4 then [m] else [] })
      let i := Instr.sendm .wm .rlx x.2.1 x.1
      go i s
      let (v, k1) ← got (readSrc (issued i (sendmCost x.1 (s.core s.cur)) s) .z64 x.1)
      let (z, k2) ← got (readSrc k1 .z64 x.2.1)
      let n := destLen v
      need ((got (destCheck (s.setCore s.cur k2) k2.ctx v (fun n => decide (1 ≤ n) && decide (n ≤ 32)))).isNone = (x.2.2 == 0))
      need (x.2.2 = 0 ∨ n = 32)
      need (x.2.2 ≠ 1 ∨ topOf s.cur.cls < z + 8 * n)
      need (x.2.2 ≠ 2 ∨ z + 8 * n ≤ topOf s.cur.cls ∧ z % 8 ≠ 0)
      need (x.2.2 < 3 ∨ z + 8 * n ≤ topOf s.cur.cls ∧ z % 8 = 0 ∧ unreadyAt k2 z (8 * n) = false ∧ (k2.sout ≠ []) = (x.2.2 = 4))
      need (x.2.2 ≠ 3 ∨ 32 < k2.sbuf.foldl (fun n m => n + m.words.length) 0 + n)
    for a in [w 7, w 8] do
      for i in [Instr.send .wm .rlx (w 5) a, .enq .nw .rlx (w 5) a true] do
        go i plain
        let (v, k1) ← got (readSrc (issued i 1 plain) .z64 a)
        let (_, k2) ← got (readSrc k1 .z64 (w 5))
        need ((got (destCheck (plain.setCore plain.cur k2) k2.ctx v (· == 0))).isNone = true)
    let late := two (fun k => { words ws k with sout := [m], ctm := 65535 })
    for i in [Instr.send .nw .rlx (w 5) (w 2), .enq .nw .rlx (w 5) (w 2) true] do
      go i late
      let (v, k1) ← got (readSrc (issued i 1 late) .z64 (w 2))
      let (_, k2) ← got (readSrc k1 .z64 (w 5))
      got (destCheck (late.setCore late.cur k2) k2.ctx v (· == 0))
      need (k2.sout ≠ [] ∧ 65535 ≤ k2.ctm)) = true := by decide +kernel

/-- Channels, bits and selectors at and past their ranges; records that are not in the store and not aligned; destination words
with a tag and with none that is mapped; an unbinding record; the other selectors of `chstat`. -/
theorem witness_ChannelInstructions_more : met (do
    let s := two (words [(0x10, 31), (0x18, 32), (0x20, 0x11FF8), (0x28, 0x1004), (0x30, 2), (0x38, dest 1 0), (0x40, dest 9 0 % 2 ^ 48), (0x48, 256),
      (0x50, 0x1010), (0x58, 0x7F), (0x60, 0x9F), (0x68, 0xFF)])
    for x in [(w 3, w 10, 32), (w 2, w 4, 31), (w 2, w 5, 31)] do
      let i := Instr.chbind x.1 x.2.1
      go i s
      let (v, k0) ← got (readSrc (issued i 1 s) .z64 x.1)
      let (z, _) ← got (readSrc k0 .z64 x.2.1)
      need (v = x.2.2 ∧ (32 ≤ v ∨ topOf s.cur.cls < z + 16 ∨ z + 16 ≤ topOf s.cur.cls ∧ z % 8 ≠ 0))
    let i := Instr.chbind (w 2) (w 10)
    go i s
    let (v, k0) ← got (readSrc (issued i 1 s) .z64 (w 2))
    let (z, k) ← got (readSrc k0 .z64 (w 10))
    need (v < 32 ∧ z + 16 ≤ topOf s.cur.cls ∧ z % 8 = 0 ∧ unreadyAt k z 16 = false ∧ (nth k.chans v {}).bind = 0 ∧ field (readLocal k z 8) 8 3 = 0)
    need (bindingOk (s.setCore s.cur k) k (nth k.chans v {}) (readLocal k z 8) (readLocal k (z + 8) 8) = true)
    for x in [(w 2, w 6), (w 7, c 1), (w 8, c 1)] do
      for i in [Instr.chrdy x.1 x.2, .chhold x.1 x.2, .chmask x.1 x.2] do
        go i s
        let (v, k0) ← got (readSrc (issued i 1 s) .z64 x.1)
        let (y, k) ← got (readSrc k0 .z64 x.2)
        need (2 ≤ y ∨ destTag v ≠ 0 ∨ destTag v = 0 ∧ (got (destCheck (s.setCore s.cur k) k.ctx v (· == 0))).isNone = true)
        need (¬ (v < 32 ∧ y < 2))
    for x in [(w 9, 8), (w 11, 3), (w 12, 4), (w 13, 7)] do
      go (.chstat (w 14) x.1) s
      let (v, k) ← got (readSrc (issued (.chstat (w 14) x.1) 1 s) .z64 x.1)
      let _ ← got (writeDst k .z64 (w 14) 0)
      need (v / 32 = x.2)) = true := by decide +kernel

/-- An enqueue behind others in the landing slots, one that lands from its slot, and a core that sends to itself. -/
theorem witness_MessageEvents_more : met (do
    let d : CoreId := ⟨.compute, 1⟩
    let e := message (.enq false) .going
    for l in [[e], [{ e with dest := dest 1 0 + 2 ^ 16 }], [{ e with src := some d }]] do
      let s := { receiver (fun k => { k with landing := l }) with net := [e] }
      need (netItem s s.ev.i = some e ∧ destCore s e.ctx e.dest = some d ∧ coreAway (s.core d) = false ∧ (s.core d).landing.length < 16)
      need ((s.core d).landing.any (fun x => destCh x.dest == destCh e.dest || sameSender x e) = true)
    let m := { message .ordinary .going with src := some d }
    let s := { receiver id with net := [m] }
    need (netItem s s.ev.i = some m ∧ destCore s m.ctx m.dest = some d ∧ senderLives s m = some d)
    let _ ← landWords (s.core d) 2 m.hdr m.words) = true := by decide +kernel

/-- Words that land over the end of the FIFO, and refusals for want of room and of headers. -/
theorem witness_MessagesLand_more : met (do
    for x in [(6, 0, true), (8, 0, false), (0, 64, false)] do
      let k := (receiver (fun k => { k with hdrs := List.replicate x.2.1 (2, { word := 0 }), chans := setAt k.chans 2 { bind := 1, base := 0x200, size := 8, head := 5, fill := if x.1 = 6 then 1 else x.1 } })).core ⟨.compute, 1⟩
      let e := nth k.chans 2 {}
      need (2 < k.chans.length ∧ e.fill ≤ e.size)
      need ((landWords k 2 0 [1, 2, 3]).isSome = x.2.2)) = true := by decide +kernel

/-- A boundary trap that waits for a destination; a ring with no room, a slot that does not translate, and no descriptor. -/
theorem witness_TrapAndCodeEvents_more : met (do
    let t : Trap := { cause := .tile, async := true }
    for p in [[], [(8, 8)]] do
      let s := handled (fun k => { k with bpend := [t], pendDst := p })
      let k := s.core s.cur
      need (s.ev.core = s.cur ∧ k.bpend = [t] ∧ k.inHandler = false ∧ k.life = .active ∧ k.pst ≠ .checker ∧ k.vpend = false)
      need (s.health.stopped = false ∧ k.gbarOut = none ∧ k.lgot = none ∧ trapHeld s s.cur t = !p.isEmpty)
    let r : FRec := { ctx := 0, words := List.replicate 8 1 }
    let s := coded .compute id
    for x in [(0x100002000, 16, true), (0x300000000, 0, false)] do
      let m := memWrite (memWrite (memWrite s.near 0x201000 8 x.1) 0x201008 8 x.2.1) 0x201010 8 (4 * 2 ^ 32)
      let s0 := { s with near := m, frecs := [], ctxs := memWrite s.ctxs 0x20 8 0x100001000 }
      let desc := field (heldWord s0 0 0x20) 47 0
      need (desc ≠ 0 ∧ descReachable s0 0 desc = true)
      let w0 ← svcWord s0 0 desc 8
      let w1 ← svcWord s0 0 (desc + 8) 8
      let w2 ← svcWord s0 0 (desc + 16) 8
      need (((field w1 31 0 + 2 ^ 32 - field w1 63 32) % 2 ^ 32 = 2 ^ field w2 36 32) = (x.2.2 = true))
      need (x.2.2 = true ∨ (svcWrite s0 0 (field w0 47 12 * 4096 + 64 * (field w1 31 0 % 16)) ((r.words.map (toBytes 8)).flatten)).isNone = true)
      let _ ← svcPutWord s0 0 (desc + 16) (w2 + 1)
    need (descReachable s 0 0x300000000 = false ∧ field (heldWord s 0 0x20) 47 0 = 0)) = true := by decide +kernel

/-- Core 0 with tile 1 undefined, tile 2 in a state of its own, and tile 3 with an error. -/
def tiled (e : Tile) (f : Core → Core) : State :=
  coded .compute (fun k => f { k with tiles := setAt (setAt k.tiles 2 e) 3 { base := 0x4000, nch := 4, st := .ready, err := true } })

/-- Definitions whose base is not aligned, that end above the store, and of no chunks and too many; masks with chunks past the
tile's; tiles held, with a target, draining, undefined and in error; ids past the range. -/
theorem witness_TilesAndJobs_more : met (do
    let ws := [(0x10, 4 * 2 ^ 32 + 0x1001), (0x18, 64 * 2 ^ 32 + 0x11E00), (0x20, 0), (0x28, 65 * 2 ^ 32), (0x30, 16), (0x38, 8), (0x40, 2 ^ 16), (0x48, 64 * 2 ^ 32 + 0xA000)]
    let e : Tile := { base := 0x2000, nch := 4, st := .filling, exp := 3, arr := 1 }
    let s := tiled e (words ws)
    for a in [w 2, w 3, w 4, w 5] do
      let i := Instr.tdef 1 a
      go i s
      let (v, _) ← got (readSrc (issued i 1 s) .z64 a)
      let nch := field v 38 32
      need (nch = 0 ∨ 64 < nch ∨ field v 16 0 % 512 ≠ 0 ∨ topOf s.cur.cls < field v 16 0 + 512 * nch)
    let held := tiled e (fun k => { words ws k with kheld := [2] })
    let drains := tiled { e with st := .draining } (words ws)
    for s in [held, drains] do
      let i := Instr.tdef 2 (w 9)
      go i s
      let (v, k) ← got (readSrc (issued i 1 s) .z64 (w 9))
      need (field v 16 0 % 512 = 0 ∧ field v 16 0 + 512 * field v 38 32 = topOf s.cur.cls ∧ field v 38 32 = 64)
      need (k.kheld.contains 2 = true ∨ (nth k.tiles 2 {}).st = .draining)
    for x in [((1 : Fin 16), w 7), (3, w 7), (2, w 6), (2, w 7)] do
      for i in [Instr.tarm x.1 x.2, .twait x.1 x.2] do
        go i held
        let (v, k) ← got (readSrc (issued i 1 held) .z64 x.2)
        let e := nth k.tiles x.1.val {}
        need (e.nch = 0 ∨ 2 ^ e.nch ≤ v ∨ v < 2 ^ e.nch ∧ e.err = true ∨ k.kheld.contains 2 = true ∧ natAnd v e.arr ≠ v)
    for n in [(1 : Fin 16), 3] do
      go (.ttest (w 9) n) s
      go (.tdrain n) s
      need ((issued (.tdrain n) 1 s).drainp = none ∧ ((nth (issued (.tdrain n) 1 s).tiles n.val {}).nch = 0 ∨ (nth (issued (.tdrain n) 1 s).tiles n.val {}).err = true))
    for d in [none, some ((2 : Nat), TileState.ready)] do
      for h in [[], [2]] do
        let s := tiled { e with st := if d = none then .ready else .draining } (fun k => { k with drainp := d, kheld := h })
        go (.tdrain 2) s
        let k := issued (.tdrain 2) 1 s
        need (k.drainp = d ∧ k.kheld.contains 2 = !h.isEmpty ∧ tileBusy (s.setCore s.cur k) s.cur 2 = false)
    for i in [Instr.jwait (w 8), .jpoll (w 9) (w 8)] do
      go i s
      let (v, _) ← got (readSrc (issued i 1 s) .z64 (w 8))
      need (2 ^ 16 ≤ v)) = true := by decide +kernel

/-- A definition up to the store's top, an arming of every chunk, a wait for what has arrived, a test, a drain, a wait for a
complete job and polls. -/
theorem witness_TileAndJobCompletion : met (do
    let ws := [(0x10, 64 * 2 ^ 32 + 0xA000), (0x18, 15), (0x20, 1), (0x28, 0), (0x30, 5), (0x38, 6)]
    let s := tiled { base := 0x2000, nch := 4, st := .ready, exp := 1, arr := 1 } (fun k => { words ws k with jobs := [(5, .complete), (6, .pending)] })
    let i := Instr.tdef 2 (w 2)
    go i s
    let (v, k) ← got (readSrc (issued i 1 s) .z64 (w 2))
    need (v % 512 = 0 ∧ v < 2 ^ 39 ∧ field v 31 17 = 0 ∧ field v 38 32 = 64 ∧ field v 16 0 + 512 * 64 = topOf s.cur.cls)
    let unused (k : Core) : Bool := !k.kheld.contains 2 && !tileBusy (s.setCore s.cur k) s.cur 2
    need (unused k = true ∧ (nth k.tiles 2 {}).st ≠ .draining ∧ (nth k.tiles 2 {}).nch ≠ 0 ∧ (nth k.tiles 2 {}).err = false)
    for a in [w 3, w 5] do
      let i := Instr.tarm 2 a
      go i s
      let (v, k) ← got (readSrc (issued i 1 s) .z64 a)
      need (v < 2 ^ (nth k.tiles 2 {}).nch ∧ unused k = true)
    for a in [w 4, w 5] do
      let i := Instr.twait 2 a
      go i s
      let (v, k) ← got (readSrc (issued i 1 s) .z64 a)
      let e := nth k.tiles 2 {}
      need (v < 2 ^ e.nch ∧ natAnd (if v = 0 then e.exp else v) e.arr = (if v = 0 then e.exp else v))
    go (.ttest (w 9) 2) s
    let _ ← got (writeDst (issued (.ttest (w 9) 2) 1 s) .z64 (w 9) 1)
    go (.tdrain 2) s
    let k := issued (.tdrain 2) 1 s
    need (k.drainp = none ∧ 2 < k.tiles.length ∧ unused k = true)
    for x in [(w 6, JobStatus.complete), (w 7, .pending)] do
      go (.jpoll (w 9) x.1) s
      let (v, k) ← got (readSrc (issued (.jpoll (w 9) x.1) 1 s) .z64 x.1)
      need (v < 2 ^ 16 ∧ jobStatus k v = x.2)
      let _ ← got (writeDst k .z64 (w 9) 1)
    go (.jwait (w 6)) s) = true := by decide +kernel

/-- A read behind one of its couch to the same agent, a write behind one of its agent to the same streamer. -/
theorem witness_CopyEvents_order : met (do
    let s := two (fun k => { k with tiles := setAt k.tiles 2 { base := 0x2000, nch := 4, st := .filling, exp := 1 } })
    let j := { job .addr 2 (.running 0) with left := [(0, 2), (1, 2)] }
    let s1 := { s with jobs := [j] }
    let (_, bs) ← got (chunkBeats j 0 s1 (j.pieces 0) [])
    let b ← bs[0]?
    let first := { b with chunk := 1 }
    let s2 := { s1 with beats := [first, b], ev := { i := 1 } }
    need (s2.beats[s2.ev.i]? = some b)
    need (s2.ev.j = 0 ∧ b.data = none ∧ readBehind s2 1 b = true)
    need (homeNow s2 b.ctx b.sva b.src = some b.src)
    let full (b : Beat) : Beat := { b with data := some (List.replicate 64 1) }
    let s3 := { s1 with beats := [full first, full b], ev := { i := 1 } }
    need (s3.beats[s3.ev.i]? = some (full b))
    need (findJob s3 b.uid = some j)
    need (j.phase ≠ .failing ∧ alookup b.chunk j.left = some 2)
    need (b.tile = none ∧ writeBehind s3 1 (full b) = true)) = true := by decide +kernel

/-- `kadv` that waits for an operation and for a stage, `kwait` and `kleave` that wait or take what they were given. -/
theorem witness_KilnSetup_more : met (do
    let s := ringed (some 1) id
    let o := kop .clr false .kiln
    for x in [(c 1, [o]), (c 2, [])] do
      let s := s.modRow 0 (fun r => { r with kops := x.2 })
      let i := Instr.kadv 1 x.1
      go i s
      let (n, _) ← got (readSrc (issued i 1 s) .z64 x.1)
      let ring := nth (s.row 0).rings 1 {}
      need (n ≠ 0 ∧ n ≤ ring.count ∧ ring.claim = some (issued i 1 s).lkey)
      need ((s.row 0).kops.any (fun o => o.ring == some 1 && !o.popped) = true ∨ ring.stage ((ring.head + 1) % ring.count) = .empty ∧ n = 2)
    let s := s.modCore s.cur (fun k => { k with kout := 1, lgot := some 3 })
    go .kwait s
    go (.kleave (w 9) (c 1)) s
    need ((s.core s.cur).kout ≠ 0 ∧ (s.core s.cur).lgot = some 3)
    let _ ← got (writeDst (issued (.kleave (w 9) (c 1)) 1 s) .z64 (w 9) 3)) = true := by decide +kernel

/-- `tlbi` that waits for accesses under way, and that has waited; requests and walks in the order of the statement. -/
theorem witness_Translation_more : met (do
    let s := rights (coded .control (words [(0x48, 2 ^ 63)]))
    let a := access (.bulk 0 0x200040) 0x100000040 (.store [1]) .going
    for x in [([a], none, true), ([], some 3, false)] do
      let s := { s with fab := x.1, tlbn := 4 }.modCore s.cur (fun k => { k with tlbw := x.2.1 })
      go (.tlbi (w 9)) s
      let (v, k) ← got (readSrc (issued (.tlbi (w 9)) 1 s) .z64 (w 9))
      need (tlbiOk v = true ∧ k.ctf = 0 ∧ k.ctb = 0 ∧ k.tlbw = x.2.1 ∧ tlbiBusy (tlbiDrop (s.setCore s.cur k) s.cur v).1 v 4 = x.2.2)
    let s : State := { rights (coded .compute id) with cycle := 5 }
    let s : State := s.setDom 0 { wait := [waiting], walks := [{ ctx := 0, page := 0x10000, n := 1 }], wend := (6, 1) }
    let x : Domain := s.dom s.ev.i
    need (x.wend.1 = s.cycle + 1 ∧ x.wend.2 ≤ 1 ∧ waiting.since < s.cycle)) = true := by decide +kernel

/-- A block whose turn has not come. -/
theorem witness_GatewayAndLinks_order : met (do
    let s := linked { upLink with landing := [(4, 1000)] } { State.reset with ev := { j := 4 } }
    let l := nth s.links s.ev.i {}
    let blk ← l.landing.find? (fun b => b.1 == s.ev.j)
    need (blockBytes ((fmtOf l.fmt).getD .e4m3b32) l.g ≤ blk.2 ∧ s.ev.j ≠ nextBlock l)
    need ((nth (linked { upLink with landing := [(0, 1000)] } s).links 0 {}).landing.any (fun b => b.1 == nextBlock upLink) = true)
    need (s.ev.i < 16 ∧ s.ev.j = 4 ∧ l.up = true)) = true := by decide +kernel

/-- A killed launch whose core has a store under way, and one that is closed out. -/
theorem witness_LaunchEvents_killed : met (do
    for n in [0, 1] do
      let s := { launched (fun l => { l with st := .placed, killed := true }) with ev := { j := 2 ^ 48 + 1 } }
      let s := s.setCore ⟨.compute, 0⟩ { life := .active, launch := 2 ^ 48 + 1, retired := true, ctf := n }
      let l ← findLaunch s s.ev.i s.ev.j
      need (s.ev.ok = true ∧ l.over = false ∧ l.killed = true ∧ launchCores s s.ev.i s.ev.j ≠ [])
      need ((launchCores s s.ev.i s.ev.j).all (closedOut s) = (n == 0) ∧ (s.core ⟨.compute, 0⟩).ctf = n)) = true := by decide +kernel

/-- A saggar whose copying fails; a core in preparation at its limit, and one that restores under a request; a core under a
coupling, which takes no request. -/
theorem witness_EvictionAndRestore_more : met (do
    let base := coded .compute id
    for g in [sag 2, { sag 2 with att := 0 }] do
      let s : State := { withSag g false base with ev := { ok := false } }
      need ((sagOf s s.ev.i).st = 2 ∧ s.ev.ok = false ∧ (sagOf s s.ev.i).att = g.att)
    for l in [Life.preparing, .restoring] do
      let s : State := { base with ctxs := memWrite base.ctxs 0x50 8 (2 ^ 32 + 1), cycle := 65536, preReqs := [(base.cur, 0)] }
      let s := s.modCore s.cur (fun k => { k with life := l, preReq := some 0 })
      let k := s.core s.ev.core
      need (s.preReqs.any (fun r => r.1 == s.ev.core) = true ∧ k.life = l ∧ (couplesWith s s.ev.core).all (fun x => (s.core x).pairReq != 3) = true)
      need (l = .restoring ∨ k.preReq = some 0 ∧ field (heldWord s k.ctx 0x50) 47 32 = 1 ∧ 0 + 65536 * 1 ≤ s.cycle)) = true := by decide +kernel

/-- Registers of the health block, the error words and counts of `scrub`, and pairs, as the statement takes them. -/
theorem witness_PowerAndHealth_more : met (do
    let key := (0, faultKey (some ⟨.compute, 0⟩) 8)
    for x in [([], 0), ([(key, 2)], 2)] do
      let s := coded .compute id
      let s : State := { s with health := { s.health with recur := x.1 }, ev := { w := 9, k := 1 } }
      need (s.ev.i = 0 ∧ s.ev.k = 1 ∧ s.ev.core.cls = .compute ∧ (s.core s.ev.core).life ≠ .free)
      need ((rowOf s.ev.core, faultKey (some s.ev.core) (s.ev.w / 8 * 8)) = key ∧ ((s.health.recur.find? (fun y => y.1 == key)).map (·.2)).getD 0 = x.2)
    need (({} : Core).life = .free)
    let g := on .control id
    let g : State := { g with ev := { core := ⟨.control, 0⟩, k := 1 } }
    need (g.ev.core.cls ≠ .compute ∧ (g.core g.ev.core).life ≠ .free)
    let n : State := { State.reset with ev := { k := 2, w := 0x8000 } }
    need (2 ≤ n.ev.k ∧ (localOwner n n.ev.core 0x8000).isNone = true)
    for i in [4, 5, 6, 7] do
      let s : State := { coded .compute id with hot := [{ unit := 0, line := .core ⟨.compute, 0⟩ 0 }], ev := { i := i, k := 1 } }
      need (s.ev.i = i ∧ s.ev.k ≠ 0 ∧ (s.core s.ev.core).life ≠ .free ∧ (s.hot[s.ev.w]?).isSome = true)
    let a := access (.core ⟨.compute, 1⟩ 8) 0x20008 (.store [1]) .going
    let s : State := { two (fun k => { k with pst := .primary }) with fab := [a] }
    need ((s.core s.ev.core).pst = .primary ∧ s.fab[0]? = some a ∧ a.src = s.ev.core ∧ a.atPort = true)
    for i in [0, 1] do
      let s : State := { s with ev := { i := i } }
      need (s.ev.i = i ∧ (s.core s.ev.core).pairRuns < 3)
    for p in [PairState.checker, .single] do
      let s := two (fun k => { k with pairReq := 3, partner := 1 })
      let s := s.modCore ⟨.compute, 1⟩ (fun k => { k with pst := p })
      let k := s.core s.ev.core
      let q := s.core (coreAt (rowOf s.ev.core) k.partner)
      need (k.pairReq = 3 ∧ k.pst ≠ .coupling ∧ q.pst = p ∧ q.lkey = k.lkey)) = true := by decide +kernel

end Sys2Proof.Tests
end

section
/-!
PROOFS of 00_scope: byte memory, and what the host and the contexts read and write of the system window.
-/
namespace Sys2Proof.Proofs.Scope

open Sys2Proof.Machine

/-! ### Byte memory (R3) -/

/-- Inside the written range, a byte is that byte of the value, least significant first. -/
theorem memGet_memWrite_in {m : Mem} (a : Nat) {n i : Nat} (v : Nat) (h : Memory.wf m = true) (hi : i < n) :
    memGet (memWrite m a n v) (a + i) = BitVec.ofNat 8 (v / 2 ^ (8 * i)) := by
  have hlen : i < (toBytes n v).length := by rwa [toBytes_length]
  rw [memWrite, memGet_memPut_in _ _ _ _ h hlen, toBytes_get]

/-- The canonical form is unique: a memory is determined by its bytes. -/
theorem eq_of_memGet_eq {m m' : Mem} (h : Memory.wf m = true) (h' : Memory.wf m' = true)
    (hget : ∀ x, memGet m x = memGet m' x) : m = m' := ext_from m m' 0 h h' hget

/-- Settles O39: each clause is a law of byte memory. -/
theorem memoryReadBack : Obligations.MemoryReadBack := by
  intro m m' a n v hm hm'
  exact ⟨memWrite_wf m a n v hm, memRead_memWrite m a n v hm, fun _ hi => memGet_memWrite_in a v hm hi,
    fun x hx => memGet_memWrite_out m a n v x hm hx, eq_of_memGet_eq hm hm'⟩

/-! ### Regions of the system window (R21, R360) -/

theorem sysCore_eq_none {off : Nat} (h : 0x4800000 ≤ off) : sysCore off = none := by
  rw [sysCore, if_neg (by omega), if_neg (by omega)]

/-- The mailbox words are region 4. -/
theorem sysRegion_mailbox {off : Nat} (h : 0xA000000 ≤ off) (h' : off < 0xA800000) : sysRegion off = some 4 := by
  rw [sysRegion]
  iterate 9 rw [if_neg (by omega)]
  rw [if_pos h']

/-- Only context descriptors have an owner to ask. -/
theorem ownerOk_below (s : State) (actor : Nat) {off : Nat} (write : Bool) (h : off < 0xAE00000) :
    ownerOk s actor off write = true := by
  simp [ownerOk, h]

/-! ### Words written to a block -/

theorem sysPutBlock_mailbox (s : State) (ctx v : Nat) {off : Nat} (h : 0xA000000 ≤ off) (h' : off < 0xA800000) :
    sysPutBlock s ctx off v = { s with mbx := memWrite s.mbx (off - 0xA000000) 8 v } := by
  rw [sysPutBlock]
  iterate 3 rw [if_neg (by omega)]
  rw [if_pos h']

theorem sysPutBlock_power (s : State) (ctx v : Nat) {off : Nat} (h : 0xAB00000 ≤ off) (h' : off < 0xAC00000) :
    sysPutBlock s ctx off v = writePower s (off - 0xAB00000) v := by
  rw [sysPutBlock]
  iterate 7 rw [if_neg (by omega)]
  rw [if_pos h']

/-- The health block is read-only. -/
theorem sysPutBlock_health (s : State) (ctx v : Nat) {off : Nat} (h : 0xAC00000 ≤ off) (h' : off < 0xAD00000) :
    sysPutBlock s ctx off v = s := by
  rw [sysPutBlock]
  iterate 8 rw [if_neg (by omega)]
  rw [if_pos h']

theorem nth_of_getElem? {α : Type} {l : List α} {n : Nat} {x : α} (d : α) (h : l[n]? = some x) : nth l n d = x := by
  rw [nth, List.getD_eq_getElem?_getD, h, Option.getD_some]

theorem modIsland_of_getElem? {s : State} {n : Nat} {i : Island} (f : Island → Island) (h : s.islands[n]? = some i) :
    modIsland s n f = { s with islands := setAt s.islands n (f i) } := by
  rw [modIsland, nth_of_getElem? _ h]

/-- R449: an island's OPT, BUDGET, STEP and LGRANT clamped to their ranges; OPT below CUR asks for a change of point (log 16). -/
def islandWritten (i : Island) (v : Nat) : Island :=
  { i with
    opt := field v 2 0, budget := min (field v 18 8) 1024, step := max 1 (min (field v 42 32) 1024)
    lgrant := max 1 (field v 59 48), changeTo := if field v 2 0 < i.cur then some (field v 2 0) else i.changeTo }

theorem writePower_island {s : State} {n : Nat} {i : Island} (v : Nat) (hn : n < 16) (h : s.islands[n]? = some i) :
    writePower s (0x100 + 0x20 * n) v = { s with islands := setAt s.islands n (islandWritten i v) } := by
  have hidx : (0x100 + 0x20 * n - 0x100) / 0x20 = n := by omega
  rw [writePower, if_neg (by omega), if_pos (by omega), hidx, modIsland_of_getElem? _ h]
  rfl

/-! ### Events of the host port and of registers -/

/-- A write that REGISTER_WRITE may do puts its word, outside the core stores and the attestation request. -/
theorem exec_registerWrite {s : State} {r : Nat} (hr : sysRegion s.ev.j = some r) (hal : s.ev.j % 8 = 0)
    (hright : actRight s s.ev.i r true = true) (hown : ownerOk s s.ev.i s.ev.j true = true) (hw : s.ev.w < 2 ^ 64)
    (hcore : 0x4800000 ≤ s.ev.j) (hatt : s.ev.j ≠ 0xAA01000) :
    exec .registerWrite s = .next (sysPutBlock s s.ev.i s.ev.j s.ev.w) := by
  show execRegisterWrite s = _
  simp only [execRegisterWrite, eventOp, hr, hal, hright, hown, and_self, if_true]
  rw [sysWrite_word (sysCore_eq_none hcore) hal hw, sysPutWord, if_neg hatt]

theorem exec_noticeRead {s : State} (h : actRight s s.ev.i 6 false = true) :
    exec .noticeRead s = .next { s with
      hostRead := hostWord s.hport 0x18, hport := { s.hport with notices := s.hport.notices.drop 1 } } := by
  show execNoticeRead s = _
  simp only [execNoticeRead, eventOp, h, if_true]
  rfl

/-- Without a notice the read gives 0 and removes nothing. -/
theorem exec_noticeRead_nil {s : State} (h : actRight s s.ev.i 6 false = true) (hnil : s.hport.notices = []) :
    exec .noticeRead s = .next { s with hostRead := 0 } := by
  have hword : hostWord s.hport 0x18 = 0 := by simp only [hostWord, hnil]
  have hsame : s.hport.notices.drop 1 = s.hport.notices := by rw [hnil, List.drop_nil]
  rw [exec_noticeRead h, hword, hsame]

theorem exec_noticeRead_cons {s : State} {kind data : Nat} {rest : List (Nat × Nat)} (h : actRight s s.ev.i 6 false = true)
    (hcons : s.hport.notices = (kind, data) :: rest) :
    exec .noticeRead s = .next { s with
      hostRead := 2 ^ 63 + kind * 2 ^ 48 + data, hport := { s.hport with notices := rest } } := by
  have hword : hostWord s.hport 0x18 = 2 ^ 63 + kind * 2 ^ 48 + data := by simp only [hostWord, hcons]
  rw [exec_noticeRead h, hword, hcons, List.drop_one, List.tail_cons]

theorem exec_healthCountRead {s : State} (h : actRight s s.ev.i 6 false = true) :
    exec .healthCountRead s = .next { s with
      hostRead := s.health.ue + s.health.ce * 2 ^ 32, health := { s.health with ce := 0, ue := 0 } } := by
  show execHealthCountRead s = _
  simp only [execHealthCountRead, eventOp, h, if_true]
  rfl

theorem sysWord_power (s : State) (ctx : Nat) {off : Nat} (h : 0xAB00000 ≤ off) (h' : off < 0xAC00000) :
    sysWord s ctx off = powerWord s (off - 0xAB00000) := by
  rw [sysWord]
  iterate 8 rw [if_neg (by omega)]
  rw [if_pos h']

/-- The word of an island's SWIN, and what its read clears. -/
theorem readRegister_swin {s : State} {n : Nat} {i : Island} (ctx : Nat) (hn : n < 16) (h : s.islands[n]? = some i) :
    readRegister s ctx (0xAB00110 + 0x20 * n) = { s with
      hostRead := i.swin, islands := setAt s.islands n { i with swin := 0 } } := by
  have hword : sysWord s ctx (0xAB00110 + 0x20 * n) = i.swin := by
    rw [sysWord_power _ _ (by omega) (by omega), powerWord, if_neg (by omega), if_pos (by omega), power_index, power_word,
      nth_of_getElem? _ h]
    rfl
  have hclear : sysReadClear s (0xAB00110 + 0x20 * n) = { s with islands := setAt s.islands n { i with swin := 0 } } := by
    rw [sysReadClear, if_neg (by omega), if_neg (by omega), if_pos (by omega), swin_index, readSwin, modIsland_of_getElem? _ h]
  rw [readRegister, hword, hclear]

theorem exec_swinRead {s : State} {i : Island} (h : actRight s s.ev.i 6 false = true) (hj : s.ev.j < 16)
    (hi : s.islands[s.ev.j]? = some i) :
    exec .swinRead s = .next { s with hostRead := i.swin, islands := setAt s.islands s.ev.j { i with swin := 0 } } := by
  show execSwinRead s = _
  simp only [execSwinRead, eventOp, h, hj, and_self, if_true, readRegister_swin _ hj hi]

theorem exec_msiVectorStore {s : State} (h : actRight s s.ev.i 4 true = true) :
    exec .msiVectorStore s = .next (if 1 ≤ s.ev.w ∧ s.ev.w ≤ 31 then
      { s with hport := { s.hport with msi := s.hport.msi ++ [s.ev.w] } } else s) := by
  show execMsiVectorStore s = _
  simp only [execMsiVectorStore, eventOp, h, if_true]
  rfl

theorem hostWrite_bar2 (s : State) {off : Nat} {bs : List Byte} (hne : bs ≠ []) (hfit : off + bs.length ≤ 2 ^ 24) :
    hostWrite s 2 off bs = if s.rdy.stage = 3 ∧ s.hport.fwgo = false then
      { s with hport := { s.hport with bar2 := memPut s.hport.bar2 off bs } } else s := by
  simp only [hostWrite, List.isEmpty_eq_false_iff.2 hne, hfit, and_true, Bool.not_eq_true', Bool.false_eq_true, if_false]

/-- A mailbox word that the host writes through BAR0. -/
theorem hostWrite_mailbox (s : State) {off v : Nat} (hv : v < 2 ^ 64) (hal : off % 8 = 0) (h : 0xA000000 ≤ off)
    (h' : off < 0xA800000) :
    hostWrite s 0 off (toBytes 8 v) = { s with mbx := memWrite s.mbx (off - 0xA000000) 8 v } := by
  have hne : (toBytes 8 v).isEmpty = false := by rw [List.isEmpty_eq_false_iff_exists_mem]; exact ⟨_, List.mem_cons_self⟩
  have hlast : off + (toBytes 8 v).length - 1 = off + 7 := by rw [toBytes_length]; rfl
  simp only [hostWrite, hne, hlast, sysRegion_mailbox h h', sysRegion_mailbox (off := off + 7) (by omega) (by omega),
    ownerOk_below s 64 (off := off) true (by omega), ownerOk_below s 64 (off := off + 7) true (by omega),
    Bool.and_self, if_true, Bool.false_eq_true, if_false]
  rw [sysWrite_word (sysCore_eq_none (by omega)) hal hv, sysPutWord, if_neg (by omega), sysPutBlock_mailbox _ _ _ h h']

/-! ### Host and registers (R6, R447, R449, R464-R466) -/

/-- Settles O59: the reads through `readRegister`, the writes block by block. -/
theorem hostAndRegisters : Obligations.HostAndRegisters := by
  unfold Obligations.HostAndRegisters
  intro s n i bs
  dsimp only
  refine ⟨fun hr => ⟨fun h1 h31 => ?vectorReachesHost, fun hbad => ?vectorIgnored⟩, rfl, fun ho hnil => ?noNotice, fun ho kind data rest hcons => ?oldestNotice,
    exec_healthCountRead, exec_swinRead, fun r hwr => ?register, fun hbar hbs hne hfit => ?staging, fun hbar hbs hv hal hlo hhi => ?hostMailbox⟩
  case vectorReachesHost => rw [exec_msiVectorStore hr, if_pos ⟨h1, h31⟩]
  case vectorIgnored => rw [exec_msiVectorStore hr, if_neg (by omega)]
  case noNotice => exact exec_noticeRead_nil ho hnil
  case oldestNotice => exact exec_noticeRead_cons ho hcons
  case register =>
    obtain ⟨hr, hal, hright, hown, hw⟩ := hwr
    have put := exec_registerWrite hr hal hright hown hw
    refine ⟨fun hj => ?_, fun hn hj hi => ?_, fun hlo hhi => ?_, fun hlo hhi => ?_⟩
    · rw [put (by omega) (by omega), sysPutBlock_power _ _ _ (by omega) (by omega), writePower, if_pos (by omega)]
    · have hoff : s.ev.j - 0xAB00000 = 0x100 + 0x20 * n := by omega
      rw [put (by omega) (by omega), sysPutBlock_power _ _ _ (by omega) (by omega), hoff, writePower_island _ hn hi]
      rfl
    · rw [put (by omega) (by omega), sysPutBlock_mailbox _ _ _ hlo hhi]
    · rw [put (by omega) (by omega), sysPutBlock_health _ _ _ hlo hhi]
  case staging =>
    have hexec : exec .hostBarWrite s = .next (hostWrite s 2 s.ev.j bs) := by rw [← hbar, ← hbs]; rfl
    rw [hexec, hostWrite_bar2 s hne hfit]
    exact ⟨fun h3 hgo => by rw [if_pos ⟨h3, hgo⟩], fun hno => by rw [if_neg fun ⟨h3, hgo⟩ => hno.elim (· h3) (by simp [hgo])]⟩
  case hostMailbox =>
    have hexec : exec .hostBarWrite s = .next (hostWrite s 0 s.ev.j (toBytes 8 n)) := by rw [← hbar, ← hbs]; rfl
    rw [hexec, hostWrite_mailbox s hv hal hlo hhi]

end Sys2Proof.Proofs.Scope
end

section
/-!
PROOFS of 01_device: what power-up leaves.
-/
namespace Sys2Proof.Proofs.Device

open Sys2Proof.Machine Sys2Proof.Safety

/-! ### Memory that lists nothing (R3, log 3) -/

theorem memBytes_nil (n : Nat) : ∀ a, ∀ b ∈ memBytes [] a n, b = 0 := by
  induction n with
  | zero => exact fun _ _ hb => (List.not_mem_nil hb).elim
  | succ n ih =>
    intro a b hb
    rcases List.mem_cons.1 hb with rfl | hb
    · rfl
    · exact ih (a + 1) b hb

@[simp] theorem memRead_nil (a n : Nat) : memRead [] a n = 0 := ofBytes_of_zero (memBytes_nil n a)

@[simp] theorem memory_wf_nil : Memory.wf [] = true := rfl

/-! ### Cores that the state does not list -/

theorem core_of_cores_nil {s : State} (h : s.cores = []) (c : CoreId) : s.core c = { cls := c.cls } := by
  rw [State.core, h]
  rfl

/-! ### The turn of a placement round (R289, log 1) -/

theorem nextTurn_placementRound {s : State} (hagenda : s.agenda = []) (hcycle : s.cycle % 256 = 0) :
    nextTurn s = { actor := .event .placementRound {} } := by
  rw [nextTurn, hagenda]
  exact if_pos hcycle

theorem act_placementRound (e : Ev) {s : State} (h : s.health.stopped = false) :
    act (.event .placementRound e) s = .next (placementRound { s with ev := e }) := by
  rw [act, h]
  rfl

/-- An empty agenda at a multiple of 256 cycles starts a placement round, and the step goes on. -/
theorem goesOn_placementRound {s : State} (hagenda : s.agenda = []) (hcycle : s.cycle % 256 = 0)
    (hrun : s.health.stopped = false) : goesOn s := by
  rw [goesOn, step, nextTurn_placementRound hagenda hcycle]
  exact ⟨_, act_placementRound {} hrun⟩

/-! ### Power-up (R14, R360, R373, R447, R449, R460) -/

theorem islands_reset {i : Island} (h : i ∈ State.reset.islands) : i = {} := List.eq_of_mem_replicate h

/-- Settles O38: each stated value is the field's default, unlisted cores and bytes are at their reset values, and the first
step is a placement round. -/
theorem resetState : Obligations.ResetState := by
  unfold Obligations.ResetState
  refine ⟨rfl, rfl, rfl, rfl, rfl, rfl, rfl, rfl, fun i hi => ?islandsAtFour, core_of_cores_nil rfl, rfl, rfl, rfl,
    fun a n => ⟨memRead_nil a n, memRead_nil a n, memRead_nil a n⟩, fun m hm => ?canonical,
    goesOn_placementRound rfl rfl rfl⟩
  case islandsAtFour =>
    rw [islands_reset hi]
    exact ⟨rfl, rfl⟩
  case canonical =>
    have hnil : m = [] := by rcases hm with h | h | h | h | h | h <;> exact h
    rw [hnil]
    exact memory_wf_nil

end Sys2Proof.Proofs.Device
end

section
/-!
PROOFS of 04_encoding: instructions and bytecodes decode from their encodings, and a step runs what the core decodes.
-/
namespace Sys2Proof.Proofs.Encoding

open Sys2Proof.Machine Sys2Proof.Laws

/-! ### The round trip (R86-R99, R387) -/

/-- Every instruction, bytecode and event: the law of its constructor, in the order of the opcode table. -/
theorem roundTrip (i : Instr) : RoundTrip.Statement i :=
  Instr.rec (motive := RoundTrip.Statement)
    -- scalar, format M (05_scalar)
    RoundTrip.add RoundTrip.sub RoundTrip.mul RoundTrip.mulh RoundTrip.div RoundTrip.rem RoundTrip.and RoundTrip.or
    RoundTrip.xor RoundTrip.andn RoundTrip.shl RoundTrip.shr RoundTrip.sar RoundTrip.rot RoundTrip.min RoundTrip.max
    RoundTrip.abs RoundTrip.neg RoundTrip.sel RoundTrip.clz RoundTrip.ctz RoundTrip.popc RoundTrip.bext RoundTrip.bins
    RoundTrip.mov RoundTrip.lea RoundTrip.pset RoundTrip.mset RoundTrip.hbind RoundTrip.hadvC RoundTrip.hadvP
    RoundTrip.hstat RoundTrip.cmp RoundTrip.ld RoundTrip.st RoundTrip.ldt RoundTrip.stt
    -- vector, format M (06_vector)
    RoundTrip.vadd RoundTrip.vsub RoundTrip.vmul RoundTrip.vfma RoundTrip.vfms RoundTrip.vmin RoundTrip.vmax
    RoundTrip.vabs RoundTrip.vneg RoundTrip.vsel RoundTrip.vand RoundTrip.vor RoundTrip.vxor RoundTrip.vnot
    RoundTrip.vshl RoundTrip.vshr RoundTrip.vsar RoundTrip.vcvt RoundTrip.vrcp RoundTrip.vrsq RoundTrip.vexp2
    RoundTrip.vlog2 RoundTrip.vrsum RoundTrip.vrmax RoundTrip.vrmin RoundTrip.vperm RoundTrip.vbcast RoundTrip.vins
    RoundTrip.vext RoundTrip.vkey RoundTrip.vhist RoundTrip.vcompress RoundTrip.vcount RoundTrip.vld RoundTrip.vst
    RoundTrip.vldx RoundTrip.vstx RoundTrip.vcmp RoundTrip.vaddRnd RoundTrip.vsubRnd RoundTrip.vmulRnd
    RoundTrip.vfmaRnd RoundTrip.vfmsRnd RoundTrip.vrcpRnd RoundTrip.vrsqRnd RoundTrip.vexp2Rnd RoundTrip.vlog2Rnd
    RoundTrip.vrsumRnd
    -- format I
    RoundTrip.movi RoundTrip.addi RoundTrip.li
    -- format F
    RoundTrip.fst RoundTrip.fld RoundTrip.fence RoundTrip.amo RoundTrip.send RoundTrip.sendm RoundTrip.enq
    -- format X; the fields that a check after the shape record decides stay as numbers (R92, R169, R223)
    RoundTrip.kctx RoundTrip.kring RoundTrip.kslip RoundTrip.kmm RoundTrip.kmmG RoundTrip.kst RoundTrip.kclr
    RoundTrip.cpy RoundTrip.cpys
    -- format B
    RoundTrip.b RoundTrip.j RoundTrip.call RoundTrip.loop
    -- format S, 0xF0 system
    RoundTrip.nop RoundTrip.endFiring RoundTrip.ret RoundTrip.jx RoundTrip.trap RoundTrip.brk RoundTrip.rttResume
    RoundTrip.rttSkip RoundTrip.rttAbort RoundTrip.rttDrop RoundTrip.rttKill RoundTrip.sflag RoundTrip.wpset
    RoundTrip.wdog RoundTrip.srr RoundTrip.srw RoundTrip.rdcyc RoundTrip.pair
    -- 0xF1 channels
    RoundTrip.chbind RoundTrip.chhold RoundTrip.chrdy RoundTrip.chmask RoundTrip.chstat RoundTrip.mnext
    -- 0xF2 tiles
    RoundTrip.tdef RoundTrip.tarm RoundTrip.twait RoundTrip.ttest RoundTrip.tdrain RoundTrip.jwait RoundTrip.jpoll
    -- 0xF3 kiln queue
    RoundTrip.kadv RoundTrip.kwait RoundTrip.kleave RoundTrip.kstat
    -- 0xF4 barriers and gateways
    RoundTrip.gbar RoundTrip.gqGet RoundTrip.baddRq
    -- 0xF5 launch
    RoundTrip.launch RoundTrip.trig RoundTrip.dwait RoundTrip.lwait RoundTrip.lstat
    -- 0xF6 saggars
    RoundTrip.sgnew RoundTrip.sgatt RoundTrip.sgdet RoundTrip.sgrel RoundTrip.sgpin RoundTrip.sgevict RoundTrip.sgstat
    -- 0xF7 temper
    RoundTrip.tmprGet RoundTrip.tmprPick RoundTrip.tmprDem RoundTrip.tmprRe RoundTrip.tmprAch
    -- 0xF8 translation
    RoundTrip.ttbw RoundTrip.ttbi RoundTrip.ttbp RoundTrip.tlbi RoundTrip.fbpop RoundTrip.replay
    -- 0xF9 control
    RoundTrip.bld RoundTrip.bst RoundTrip.icw RoundTrip.ici RoundTrip.icr
    -- 0xFA serving
    RoundTrip.sqRd RoundTrip.sqWr RoundTrip.sqBuild RoundTrip.ltokWait RoundTrip.ltokPass RoundTrip.dkRun
    RoundTrip.dkWait
    -- Sprinix bytecodes (Table 19-4)
    RoundTrip.bcConst RoundTrip.bcLoadl RoundTrip.bcStorel RoundTrip.bcLoadg RoundTrip.bcStoreg RoundTrip.bcLoadattr
    RoundTrip.bcStoreattr RoundTrip.bcLoadidx RoundTrip.bcStoreidx RoundTrip.bcBinary RoundTrip.bcUnary
    RoundTrip.bcCompare RoundTrip.bcCall RoundTrip.bcCallmeth RoundTrip.bcReturn RoundTrip.bcJump RoundTrip.bcJumpt
    RoundTrip.bcJumpf RoundTrip.bcWalk RoundTrip.bcAdvance RoundTrip.bcBuildtuple RoundTrip.bcBuildlist
    RoundTrip.bcUnpack RoundTrip.bcPop RoundTrip.bcDup RoundTrip.bcSwap RoundTrip.bcRaise RoundTrip.bcSetuptry
    RoundTrip.bcPoptry RoundTrip.bcAwait RoundTrip.bcNewobj RoundTrip.bcIsinst RoundTrip.bcMakefunc
    RoundTrip.bcLoadclosure
    -- events: firings and messages (08_firings, 12_traps, 14_launch)
    RoundTrip.selection RoundTrip.messageInject RoundTrip.messageArrival RoundTrip.messageRefusalReply
    RoundTrip.messageRetry RoundTrip.enqueueArrival RoundTrip.enqueueLanding RoundTrip.channelPacketArrival
    RoundTrip.cancelPacketArrival RoundTrip.budgetExpiry RoundTrip.boundaryTrap RoundTrip.faultRecordWrite
    RoundTrip.codeStreamLanding RoundTrip.vectorCompletion
    -- events: fabric and atomics (10_counts_atomics)
    RoundTrip.fabricStorePerform RoundTrip.fabricLoadPerform RoundTrip.storeAck RoundTrip.fldReturn
    RoundTrip.fabricRetryReply RoundTrip.fabricRetry RoundTrip.atomicPerform RoundTrip.atomicReply
    -- events: kiln (07_kiln, 26_power)
    RoundTrip.kilnAccept RoundTrip.slipPhaseStart RoundTrip.kilnPhaseStart RoundTrip.kilnRetire RoundTrip.issueWindow
    -- events: copies and translation (09_tiles_copies, 17_tiers)
    RoundTrip.copyJobStart RoundTrip.chunkRequest RoundTrip.streamerRequest RoundTrip.beatLanding
    RoundTrip.walkSlotStart RoundTrip.walkEnd RoundTrip.fbdestWrite
    -- events: barriers, gateways, links (10, 25, 28)
    RoundTrip.gbarRelease RoundTrip.blockLanded RoundTrip.peerFlitArrival RoundTrip.peerFlitRetry
    RoundTrip.linkRetrainEnd RoundTrip.meshFlitRetry
    -- events: launch, saggars, contexts (14, 15, 18)
    RoundTrip.placementRound RoundTrip.prologueStart RoundTrip.kernelComplete RoundTrip.rringRetry
    RoundTrip.saggarEvictionEnd RoundTrip.saggarRestoreStart RoundTrip.saggarRestoreEnd
    RoundTrip.preemptRequestArrival RoundTrip.evictionSave RoundTrip.coreRestore RoundTrip.plimExpiry
    RoundTrip.sliceExpiry RoundTrip.contextDescWrite
    -- events: power and health (25, 26)
    RoundTrip.governorTick RoundTrip.pointChangeEnd RoundTrip.scrub RoundTrip.pairLag RoundTrip.couplingCopy
    RoundTrip.couplingAbandon
    -- events: bring-up and host (27, 28)
    RoundTrip.powerUp RoundTrip.fwgo RoundTrip.selfTestDone RoundTrip.attestRequest RoundTrip.attestServe
    RoundTrip.msiVectorStore RoundTrip.hostSnoop RoundTrip.noticeRead RoundTrip.healthCountRead RoundTrip.swinRead
    RoundTrip.streamStart RoundTrip.tail RoundTrip.txBlockSent RoundTrip.expanderLinkDown
    -- events: serving (20)
    RoundTrip.deckleRequest RoundTrip.deckleComplete
    -- events: registers and encodings without a row of their own (0, 4, 19, 28)
    RoundTrip.registerWrite RoundTrip.unassignedOpcode RoundTrip.unassignedBytecode RoundTrip.lineCacheFill
    RoundTrip.hostBarWrite
    i

/-- Settles O36: the round trip of every constructor. -/
theorem encodeDecode : Obligations.EncodeDecode := by
  unfold Obligations.EncodeDecode
  exact ⟨fun cls i hnative hwf => (roundTrip i).1 hnative cls hwf, fun i rest hbytecode => (roundTrip i).2 hbytecode rest⟩

/-! ### The words of a fetch (R125, R278, R281) -/

/-- A word has landed when the object's bytes reach its end. -/
theorem landedCode_iff (s : State) (l : Launch) (o : Nat) :
    landedCode s l o = true ↔ codeAddr l o + 4 ≤ launchCbase l + streamed s l := by
  rw [landedCode, codeAddr, decide_eq_true_iff]
  omega

theorem readCode_of_codeHit {s : State} {c : CoreId} {l : Launch} {va n w : Nat} (hhit : codeHit s c l.ctx va n = some w) :
    readCode s c l va n = .ok w s := by
  rw [readCode, hhit]

theorem readCode_of_not_landedCode {s : State} {c : CoreId} {l : Launch} {o : Nat}
    (hmiss : codeHit s c l.ctx (codeAddr l o) 4 = none) (hlate : landedCode s l o = false) :
    readCode s c l (codeAddr l o) 4 = .wait s := by
  have hend : ¬ codeAddr l o + 4 ≤ launchCbase l + streamed s l := by rw [← landedCode_iff, hlate]; exact Bool.false_ne_true
  simp only [readCode, hmiss, if_pos (Nat.not_le.1 hend)]

theorem readCode_of_landedCode {s s' : State} {c : CoreId} {l : Launch} {o t pa : Nat}
    (hmiss : codeHit s c l.ctx (codeAddr l o) 4 = none) (hlanded : landedCode s l o = true)
    (htr : coreTranslate s c (codeAddr l o) 3 = .ok (t, pa) s') :
    readCode s c l (codeAddr l o) 4 = .ok (memRead (s.tier t) pa 4) (fillLine s' c l (codeAddr l o) t pa) := by
  have hend := (landedCode_iff s l o).1 hlanded
  simp only [readCode, hmiss, if_neg (Nat.not_lt.2 hend), htr]

section
variable {s : State} {c : CoreId} {l : Launch} {stop : Nat} (hl : codeLaunch s c (s.core c) = some l)
  (hstop : sectionEnd l (s.core c).pc = some stop)
include hl hstop

/-- A nonzero word without extension words is the whole instruction. -/
theorem fetchInstr_of_readCode_ok {s' : State} {w : Nat} (hread : readCode s c l (codeAddr l (s.core c).pc) 4 = .ok w s')
    (hw : w ≠ 0) (hext : extCount (w / 2 ^ 24) = 0) : fetchInstr s c = .ok [w] s' := by
  simp only [fetchInstr, hl, hstop, fetchWords, hread, nth, List.getD_cons_zero, hw, false_and, if_false, hext]

theorem fetchInstr_of_readCode_wait {s' : State} (hread : readCode s c l (codeAddr l (s.core c).pc) 4 = .wait s') :
    fetchInstr s c = .wait s' := by
  simp only [fetchInstr, hl, hstop, fetchWords, hread]

end

/-! ### A core's turn (R103, R381) -/

theorem step_core {s : State} {c : CoreId} (h : (nextTurn s).actor = .core c) :
    step s = coreStep c (beginTurn (nextTurn s) s) := by
  rw [step, h]
  rfl

/-- A core that runs, with nothing that comes before its instruction, fetches in its mode. -/
theorem coreStep_running {c : CoreId} {s : State} (hvec : (s.core c).vpend = false)
    (hpend : (s.core c).bpend = [] ∨ (s.core c).inHandler = true ∨ (s.core c).served = true)
    (hidle : (s.core c).idleReady = false) (hrun : executes { s with cur := c } c = true)
    (hleft : (s.core c).cyclesLeft ≠ 0 ∨ (s.core c).served = true) :
    coreStep c s = if (s.core c).bcMode then stepBytecode c { s with cur := c } else stepNative c { s with cur := c } := by
  have hcore : ({ s with cur := c } : State).core c = s.core c := rfl
  have hboundary : (!(s.core c).bpend.isEmpty && !(s.core c).inHandler && (s.core c).life == .active
      && !(s.core c).served) = false := by
    rcases hpend with h | h | h <;> simp [h]
  have hbudget : ((s.core c).cyclesLeft == 0 && !(s.core c).served) = false := by
    rcases hleft with h | h <;> simp [h]
  simp only [coreStep, hcore, hvec, hboundary, hidle, hrun, hbudget, Bool.not_true, Bool.false_eq_true, if_false]

/-! ### What runs (R86, R92-R100) -/

theorem stepBytecode_of_fetch {s s' : State} {c : CoreId} {i : Instr} (hfetch : fetchBytecode s c = .ok i s') :
    stepBytecode c s = exec i s' := by
  rw [stepBytecode, hfetch]

theorem stepNative_of_fetch {s s' : State} {c : CoreId} {ws : List Nat} (hfetch : fetchInstr s c = .ok ws s') :
    stepNative c s = execWords c ws s' := by
  rw [stepNative, hfetch]

theorem stepNative_of_trap {s : State} {c : CoreId} {t : Trap} (hfetch : fetchInstr s c = .trap t) :
    stepNative c s = .next (takeTrap s c t 0 0 4 false) := by
  rw [stepNative, hfetch]

theorem execWords_of_decode {c : CoreId} {ws : List Nat} {i : Instr} (s : State)
    (hdec : decode c.cls (nth ws 0 0) (nth ws 1 0) (nth ws 2 0) (nth ws 3 0) (nth ws 4 0) = .ok i) :
    execWords c ws s = exec i s := by
  rw [execWords, hdec]

theorem execWords_of_decode_error {c : CoreId} {ws : List Nat} {n : Nat} (s : State)
    (hdec : decode c.cls (nth ws 0 0) (nth ws 1 0) (nth ws 2 0) (nth ws 3 0) (nth ws 4 0) = .error n) :
    execWords c ws s = exec .unassignedOpcode { s with ev := { core := c, w := nth ws 0 0, nats := ws.drop 1 } } := by
  rw [execWords, hdec]
  rfl

/-- UNASSIGNED_OPCODE traps with the subcode of the first check that its word fails. -/
theorem exec_unassignedOpcode {s : State} {n : Nat} (hrun : executes s s.ev.core = true)
    (hmode : (s.core s.ev.core).bcMode = false) (hvec : (s.core s.ev.core).vpend = false)
    (hacq : (s.core s.ev.core).acqWait = false)
    (hdec : decode s.ev.core.cls s.ev.w (nth s.ev.nats 0 0) (nth s.ev.nats 1 0) (nth s.ev.nats 2 0) (nth s.ev.nats 3 0) =
      .error n) :
    exec .unassignedOpcode s = .next (takeTrap s s.ev.core { cause := .undef, sub := n } s.ev.w (nth s.ev.nats 0 0)
      (4 + 4 * s.ev.nats.length) false) := by
  show execUnassignedOpcode s = _
  simp only [execUnassignedOpcode, eventOp, hrun, hmode, hvec, hacq, hdec, Bool.not_true, Bool.or_self,
    Bool.false_eq_true, if_false]

theorem nth_drop_one (ws : List Nat) (n d : Nat) : nth (ws.drop 1) n d = nth ws (n + 1) d := by
  cases ws <;> rfl

/-- Settles O37: the turn reaches the fetch, and what the fetch answers runs. -/
theorem stepRunsDecoded : Obligations.StepRunsDecoded := by
  unfold Obligations.StepRunsDecoded
  intro s c s0 k hactor hvec hpend hidle hrun hleft
  have hstep : step s = if k.bcMode then stepBytecode c s0 else stepNative c s0 :=
    (step_core hactor).trans (coreStep_running hvec hpend hidle hrun hleft)
  refine ⟨fun hnative => ?native, fun hbc i s1 hfetch => ?bytecode⟩
  case bytecode => rw [hstep, if_pos hbc, stepBytecode_of_fetch hfetch]
  case native =>
    rw [hnative, if_neg Bool.false_ne_true] at hstep
    refine ⟨fun ws s1 hfetch => ?word, fun t hfetch => hstep.trans (stepNative_of_trap hfetch), fun l stop hl hstop => ?fetch⟩
    case word =>
      rw [stepNative_of_fetch hfetch] at hstep
      refine ⟨fun i hdec => hstep.trans (execWords_of_decode s1 hdec), fun n hdec hrun1 hmode1 hvec1 hacq1 => ?_⟩
      refine ⟨hstep.trans (execWords_of_decode_error s1 hdec), exec_unassignedOpcode hrun1 hmode1 hvec1 hacq1 ?_⟩
      simpa only [nth_drop_one] using hdec
    case fetch =>
      exact ⟨fun w hhit => fetchInstr_of_readCode_ok hl hstop (readCode_of_codeHit hhit),
        fun hmiss hlate => fetchInstr_of_readCode_wait hl hstop (readCode_of_not_landedCode hmiss hlate),
        fun t pa s1 hmiss hlanded htr => fetchInstr_of_readCode_ok hl hstop (readCode_of_landedCode hmiss hlanded htr)⟩

end Sys2Proof.Proofs.Encoding
end

section
/-!
PROOFS of 05_scalar: the scalar, immediate, handle and local-memory instructions.
-/
namespace Sys2Proof.Proofs.Scalar

open Sys2Proof.Machine Sys2Proof.Safety

/-! ### An instruction whose meaning acts on the core alone -/

section
variable {i : Instr} {cost : Core → Nat} {g : Core → Except Stop Core} {s : State} {k : Core} {p : Nat → Prop} {t : Trap}

theorem completes_of_core (hexec : exec i s = nativeOp i cost (coreOp g) s) (hready : ready i s)
    (hmeans : g (issued i (cost (s.core s.cur)) s) = .ok k)
    (heffect : LocalEffect (issued i (cost (s.core s.cur)) s) k p) : completes i (cost (s.core s.cur)) s k p :=
  ⟨hexec.trans (nativeOp_core hready hmeans), heffect⟩

theorem traps_of_core (hexec : exec i s = nativeOp i cost (coreOp g) s) (hready : ready i s)
    (hmeans : g (issued i (cost (s.core s.cur)) s) = .error (.trap t)) : traps i s t := by
  refine hexec.trans (nativeOp_trap hready ?_)
  rw [coreOp, issuedState_core, hmeans]
  rfl

theorem completes_of_scalar (hexec : exec i s = scalarOp i g s) (hready : ready i s) (hmeans : g (issued i 1 s) = .ok k)
    (heffect : LocalEffect (issued i 1 s) k p) : completes i 1 s k p :=
  ⟨hexec.trans (scalarOp_ok hready hmeans), heffect⟩

/-- An instruction that may change the bytes of its operands, counted on the issued core or on the core that issued it. -/
theorem completes_operands {k2 : Core} {f : Fmt} {d : Spec} {l : List Spec} (hexec : exec i s = scalarOp i g s)
    (hready : ready i s) (hmeans : g (issued i 1 s) = .ok k)
    (heffect : LocalEffect (issued i 1 s) k (operandBytes (issued i 1 s) k2 f d l)) :
    completes i 1 s k (operandBytes (s.core s.cur) k2 f d l) :=
  completes_of_scalar hexec hready hmeans (heffect.mono (operandBytes_wp (issued_wp ..) _ _ _))

/-- One that may change a workspace word and the pointer words of its sources. -/
theorem completes_word {o : Nat} {l : List Spec} (hexec : exec i s = scalarOp i g s) (hready : ready i s)
    (hmeans : g (issued i 1 s) = .ok k)
    (heffect : LocalEffect (issued i 1 s) k (fun x => wordBytes (issued i 1 s) o x ∨ bumped (issued i 1 s) l x)) :
    completes i 1 s k (fun x => wordBytes (s.core s.cur) o x ∨ bumped (s.core s.cur) l x) :=
  completes_of_scalar hexec hready hmeans (heffect.mono (orBumped_wp (issued_wp ..) _ _))

theorem traps_of_scalar (hexec : exec i s = scalarOp i g s) (hready : ready i s)
    (hmeans : g (issued i 1 s) = .error (.trap t)) : traps i s t := hexec.trans (scalarOp_trap hready hmeans)

theorem waits_of_scalar (hexec : exec i s = scalarOp i g s) (hready : ready i s)
    (hmeans : g (issued i 1 s) = .error .wait) : exec i s = .next (s.setCore s.cur (waited s s.cur)) :=
  hexec.trans (nativeOp_coreWait (cost := fun _ => 1) hready hmeans)

end

/-- For the clauses that the statements give of a list of two instructions; the package's files import core Lean alone. -/
theorem eq_or_eq_of_mem_pair {α : Type} {a x y : α} (h : a ∈ [x, y]) : a = x ∨ a = y := by
  simpa only [List.mem_cons, List.not_mem_nil, or_false] using h

/-! ### Two sources (R104, R106) -/

theorem shl_eq_op2 (sg : Bool) (n x y : Nat) : x * 2 ^ y % 2 ^ n = op2 .shl sg n x y := by
  rw [op2]
  split
  · next hle => exact Nat.mod_eq_zero_of_dvd (Nat.dvd_mul_left_of_dvd (Nat.pow_dvd_pow 2 hle) x)
  · rfl

theorem shr_eq_op2 (sg : Bool) (n x y : Nat) : (if y < n then x / 2 ^ y else 0) = op2 .shr sg n x y := by
  rw [op2, ← ite_not]
  simp only [Nat.not_lt]

/-- Each entry but the multiplies runs as an operation of the model that gives the entry's result. -/
theorem twoSource_means {p} (hp : p ∈ twoSource) :
    ∃ o : Op2, (∀ t d a b s, exec (p.1 t d a b) s = scalarOp (p.1 t d a b) (scalar2 o t d a b) s) ∧
      ∀ sg n x y, p.2 sg n x y = op2 o sg n x y := by
  simp only [twoSource, List.mem_cons, List.not_mem_nil, or_false] at hp
  rcases hp with rfl | rfl | rfl | rfl | rfl | rfl | rfl | rfl | rfl | rfl | rfl | rfl
  · exact ⟨.add, fun _ _ _ _ _ => rfl, fun _ _ _ _ => rfl⟩
  · exact ⟨.sub, fun _ _ _ _ _ => rfl, fun _ n x y => toPattern_sub n x y⟩
  · exact ⟨.and, fun _ _ _ _ _ => rfl, fun _ _ _ _ => rfl⟩
  · exact ⟨.or, fun _ _ _ _ _ => rfl, fun _ _ _ _ => rfl⟩
  · exact ⟨.xor, fun _ _ _ _ _ => rfl, fun _ _ _ _ => rfl⟩
  · exact ⟨.andn, fun _ _ _ _ _ => rfl, fun _ _ _ _ => rfl⟩
  · exact ⟨.min, fun _ _ _ _ _ => rfl, fun _ _ _ _ => rfl⟩
  · exact ⟨.max, fun _ _ _ _ _ => rfl, fun _ _ _ _ => rfl⟩
  · exact ⟨.shl, fun _ _ _ _ _ => rfl, shl_eq_op2⟩
  · exact ⟨.shr, fun _ _ _ _ _ => rfl, shr_eq_op2⟩
  · exact ⟨.sar, fun _ _ _ _ _ => rfl, fun _ _ _ _ => rfl⟩
  · exact ⟨.rot, fun _ _ _ _ _ => rfl, fun _ n x y => (Nat.mod_add_mod (x * 2 ^ (y % n)) (2 ^ n) _).symm⟩

theorem twoSourceLate_means {p} (hp : p ∈ twoSourceLate) :
    ∃ o : Op2, (∀ t d a b s, exec (p.1 t d a b) s = scalarOp (p.1 t d a b) (scalarMul o t d a b) s) ∧
      ∀ sg n x y, p.2 sg n x y = op2 o sg n x y := by
  simp only [twoSourceLate, List.mem_cons, List.not_mem_nil, or_false] at hp
  rcases hp with rfl | rfl
  · exact ⟨.mul, fun _ _ _ _ _ => rfl, fun _ _ _ _ => rfl⟩
  · exact ⟨.mulh, fun _ _ _ _ _ => rfl, fun _ _ _ _ => rfl⟩

theorem scalarMul_ok {o : Op2} {t : IType} {d a b : Spec} {c k1 k2 k3 k4 : Core} {x y : Nat} {l : Loc}
    (h1 : readSrc c (ifmt t) a = .ok (x, k1)) (h2 : readSrc k1 (ifmt t) b = .ok (y, k2))
    (h3 : scalarLoc k2 d (fmtBytes (ifmt t)) = .ok (l, k3))
    (h4 : storeLoc k3 (ifmt t) (op2 o (fmtSigned (ifmt t)) (fmtBits (ifmt t)) x y) l = .ok k4) :
    scalarMul o t d a b c = .ok { k4 with late := lateResult (ifmt t) l :: k4.late } := by
  simp [scalarMul, h1, h2, h3, h4, bind, Except.bind]

/-- Both kinds read A first, so that they stop where it stops. -/
theorem scalar2_source_error {o : Op2} {t : IType} {d a : Spec} (b : Spec) {c : Core} {e : Stop}
    (h : readSrc c (ifmt t) a = .error e) : scalar2 o t d a b c = .error e := by
  simp [scalar2, h, bind, Except.bind]

theorem scalarMul_source_error {o : Op2} {t : IType} {d a : Spec} (b : Spec) {c : Core} {e : Stop}
    (h : readSrc c (ifmt t) a = .error e) : scalarMul o t d a b c = .error e := by
  simp [scalarMul, h, bind, Except.bind]

/-- Settles O1: the operation of each entry, then the laws of two sources and a destination. -/
theorem twoSourceScalars : Obligations.TwoSourceScalars := by
  unfold Obligations.TwoSourceScalars
  refine ⟨fun p hp t d a b s x y k1 k2 k3 hr h1 h2 h3 => ?result, fun p hp t d a b s x y l k1 k2 k3 k4 => ?late,
    fun p hp t d a b s hr hwait => ?wait⟩
  case result =>
    obtain ⟨o, hexec, hval⟩ := twoSource_means hp
    exact two_core (hexec ..) hr h1 h2 (hval ..) h3
  case late =>
    intro place hr h1 h2 h3 h4
    obtain ⟨o, hexec, hval⟩ := twoSourceLate_means hp
    have hplace : lateResult (ifmt t) l = (place.1, place.2, 3) := by cases l <;> rfl
    rw [hval] at h4
    refine ⟨(hexec ..).trans (scalarOp_ok hr ?_),
      (effect_rmw (src2 h1 h2) h3 h4).mono (operandBytes_wp (issued_wp ..) _ _ _)⟩
    rw [scalarMul_ok h1 h2 h3 h4, hplace]
  case wait =>
    rcases List.mem_append.1 hp with hp | hp
    · obtain ⟨o, hexec, -⟩ := twoSource_means hp
      exact waits_of_scalar (hexec ..) hr (scalar2_source_error b hwait)
    · obtain ⟨o, hexec, -⟩ := twoSourceLate_means hp
      exact waits_of_scalar (hexec ..) hr (scalarMul_source_error b hwait)

/-! ### Flags that are raised under a condition (R64-R66) -/

section
variable {k : Core} {fl : Nat} {p : Prop} [Decidable p]

theorem raiseFlags_ite (hquiet : p → natAnd fl (field (numCtl k) 13 8) = 0) :
    raiseFlags k (if p then fl else 0) = .ok (if p then orSticky k fl else k) := by
  by_cases hp : p
  · rw [if_pos hp, if_pos hp]
    exact raiseFlags_ok (hquiet hp)
  · rw [if_neg hp, if_neg hp]
    exact raiseFlags_ok (Nat.zero_and _)

theorem effect_orSticky_ite {c : Core} {l : List Spec} (h : LocalEffect c k (bumped c l)) :
    LocalEffect c (if p then orSticky k fl else k) (fun x => wordBytes c 0x390 x ∨ bumped c l x) := by
  split
  · exact effect_orSticky fl h
  · exact h.mono (fun _ => Or.inr)

end

/-! ### Division (R105) -/

theorem divRem_eq (sg : Bool) (n x y : Nat) :
    let u := valOf sg n x
    let v := valOf sg n y
    divRem sg n x y = (if v = 0 then 2 ^ n - 1 else toPattern n (Int.tdiv u v),
      if v = 0 then x else toPattern n (Int.tmod u v), decide (v = 0)) := by
  intro u v
  by_cases hv : v = 0
  · rw [divRem, if_pos hv, if_pos hv, if_pos hv, decide_eq_true hv]
  · rw [divRem, if_neg hv, if_neg hv, if_neg hv, decide_eq_false hv]

theorem exec_div_or_rem (isRem : Bool) (t : IType) (d a b : Spec) (s : State) :
    exec (if isRem then .rem t d a b else .div t d a b) s =
      nativeOp (if isRem then .rem t d a b else .div t d a b) (divCost t) (coreOp (scalarDiv isRem t d a b)) s := by
  cases isRem <;> rfl

/-- Settles O2: DZ is raised exactly where the divisor is 0; then its trap decides. -/
theorem divideAndRemainder : Obligations.DivideAndRemainder := by
  unfold Obligations.DivideAndRemainder
  refine ⟨fun t d a b s x y k1 k2 k3 isRem => ?result, fun t d a b s x y k1 k2 isRem => ?trap⟩
  case result =>
    intro i f n u v k hr h1 h2 hquiet h3
    have hflags : raiseFlags k2 (if decide (v = 0) then flDZ else 0) = .ok k := by
      simpa only [decide_eq_true_eq] using raiseFlags_ite hquiet
    exact completes_of_core (cost := divCost t) (exec_div_or_rem isRem t d a b s) hr
      (scalarDiv_ok h1 h2 (divRem_eq _ _ x y) hflags h3)
      ((effect_dst_or (effect_orSticky_ite (src2 h1 h2)) h3).mono (orOperandBytes_wp (issued_wp ..) _ _ _ _))
  case trap =>
    intro i f hr h1 h2 hzero htrap
    have hdiv : divRem (fmtSigned f) (fmtBits f) x y = (2 ^ fmtBits f - 1, x, true) := by rw [divRem, if_pos hzero]
    exact traps_of_core (cost := divCost t) (exec_div_or_rem isRem t d a b s) hr
      (scalarDiv_flag h1 h2 hdiv (raiseFlags_trap htrap))

/-! ### One source (R107) -/

theorem oneSource_means {p} (hp : p ∈ oneSource) :
    ∃ o : Op1, (∀ t d a s, exec (p.1 t d a) s = scalarOp (p.1 t d a) (scalar1 o t d a) s) ∧
      ∀ sg n x, op1 o sg n x = (p.2 n x, 0) := by
  simp only [oneSource, List.mem_cons, List.not_mem_nil, or_false] at hp
  rcases hp with rfl | rfl | rfl | rfl | rfl
  · exact ⟨.neg, fun _ _ _ _ => rfl, fun _ n x => Prod.ext (toPattern_neg n x).symm rfl⟩
  · exact ⟨.clz, fun _ _ _ _ => rfl, fun _ _ _ => rfl⟩
  · exact ⟨.ctz, fun _ _ _ _ => rfl, fun _ _ _ => rfl⟩
  · exact ⟨.popc, fun _ _ _ _ => rfl, fun _ _ _ => rfl⟩
  · exact ⟨.mov, fun _ _ _ _ => rfl, fun _ _ _ => rfl⟩

theorem op1_abs (sg : Bool) (n x : Nat) :
    let sat := sg && x == 2 ^ (n - 1)
    op1 .abs sg n x = (if sat then 2 ^ (n - 1) - 1 else toPattern n (valOf sg n x).natAbs, if sat then flSAT else 0) := by
  dsimp only [op1]
  generalize (sg && x == 2 ^ (n - 1)) = sat
  cases sat <;> rfl

theorem scalar1_flag {o : Op1} {t : IType} {d a : Spec} {c k1 : Core} {x v fl : Nat} {e : Stop}
    (h1 : readSrc c (ifmt t) a = .ok (x, k1)) (hv : op1 o (fmtSigned (ifmt t)) (fmtBits (ifmt t)) x = (v, fl))
    (hf : raiseFlags k1 fl = .error e) : scalar1 o t d a c = .error e := by
  simp [scalar1, h1, hv, hf, bind, Except.bind]

/-- Settles O3: `abs` raises SAT exactly at the most negative value. -/
theorem oneSourceScalars : Obligations.OneSourceScalars := by
  unfold Obligations.OneSourceScalars
  refine ⟨fun p hp t d a s x k1 k2 hr h1 h2 => ?quiet, fun t d a s x k1 k2 => ?abs⟩
  case quiet =>
    obtain ⟨o, hexec, hval⟩ := oneSource_means hp
    exact one_core (hexec ..) hr h1 (hval ..) h2
  case abs =>
    intro f n sat k hr h1
    refine ⟨fun hquiet h2 => ?_, fun hsat htrap => ?_⟩
    · exact completes_of_scalar rfl hr (scalar1_ok h1 (op1_abs _ _ x) (raiseFlags_ite hquiet) h2)
        ((effect_dst_or (effect_orSticky_ite (src1 h1)) h2).mono (orOperandBytes_wp (issued_wp ..) _ _ _ _))
    · refine traps_of_scalar rfl hr (scalar1_flag h1 (op1_abs _ _ x) ?_)
      rw [show (fmtSigned (ifmt t) && x == 2 ^ (fmtBits (ifmt t) - 1)) = true from hsat]
      exact raiseFlags_flagTrap htrap

/-! ### Compare and select (R109-R113) -/

/-- Bits 0 to 3 of a word written from four bits. -/
theorem bitAt_of_bits (e l u h : Bool) :
    let w := bnat e + 2 * bnat l + 4 * bnat u + 8 * bnat h
    bitAt w 0 = e ∧ bitAt w 1 = l ∧ bitAt w 2 = u ∧ bitAt w 3 = h := by
  cases e <;> cases l <;> cases u <;> cases h <;> decide

/-- Settles O4: the conditions read the bits of the flags word that `cmp` writes. -/
theorem compareAndSelect : Obligations.CompareAndSelect := by
  unfold Obligations.CompareAndSelect
  intro c t d a b s x y k1 k2 k3 f n eq lt ltu holds w
  refine ⟨fun hr h1 h2 h3 => ?cmp, fun hr h1 h2 h3 => ?sel⟩
  case cmp =>
    have hcond : condHolds c (compareFlags n x y) = holds := by
      obtain ⟨h0, h1, h2, -⟩ := bitAt_of_bits eq lt ltu false
      have hflags : compareFlags n x y = bnat eq + 2 * bnat lt + 4 * bnat ltu + 8 * bnat false := rfl
      simp only [condHolds, hflags, h0, h1, h2]
      rfl
    have hword : cmpWord c n x y = w := by rw [cmpWord, hcond]; rfl
    obtain ⟨-, -, -, hsel⟩ := bitAt_of_bits eq lt ltu holds
    refine completes_of_scalar rfl hr (scalarCmp_ok h1 h2 ?_)
      ((effect_dst_or (effect_writeFlags w (src2 h1 h2)) h3).mono (orOperandBytes_wp (issued_wp ..) _ _ _ _))
    rw [hword, selBit, hsel]
    exact h3
  case sel =>
    refine completes_operands rfl hr (scalarSel_ok h1 h2 ?_) (effect_two h1 h2 h3)
    rw [issued_flags]
    exact h3

/-! ### Bit fields (R108) -/

theorem fieldDesc_eq (n y : Nat) :
    fieldDesc n y = (y % 64, if y % 64 < n then min (y / 64 % 128) (n - y % 64) else 0) := by
  simp only [fieldDesc, field, Nat.pow_zero, Nat.div_one, Nat.reduceAdd, Nat.reduceSub, Nat.reducePow]

/-- Settles O5, from the fields of the descriptor. -/
theorem bitFields : Obligations.BitFields := by
  unfold Obligations.BitFields
  intro t d a b s x y k1 k2 f n p l
  refine ⟨fun k3 hr h1 h2 h3 => ?extract, fun k3 k4 q old hr h1 h2 h3 h4 h5 => ?insert⟩
  case extract =>
    exact completes_operands rfl hr (scalarBext_ok h1 h2 (fieldDesc_eq n y) h3) (effect_two h1 h2 h3)
  case insert =>
    exact completes_operands rfl hr (scalarBins_ok h1 h2 (fieldDesc_eq n y) h3 h4 h5) (effect_rmw (src2 h1 h2) h3 h5)

/-! ### Immediates and pointers (R114-R117) -/

/-- Settles O6: `addi` reads and writes D at one place; `pset` and `mset` write one workspace word. -/
theorem immediatesAndPointers : Obligations.ImmediatesAndPointers := by
  unfold Obligations.ImmediatesAndPointers
  refine ⟨fun t d n e s => ⟨fun k hr h => ?movi, fun k hr h => ?li, fun l k1 v k2 hr h1 h2 h3 => ?addi⟩,
    fun d a b p m s x y k1 k2 => ⟨fun hr h1 h2 h3 => ?lea, fun hr h1 h2 => ?pset, fun hr h1 h2 => ?mset⟩⟩
  case movi =>
    exact completes_operands rfl hr h (effect_dst (LocalEffect.refl _ _) (fun _ hx => hx) h)
  case li =>
    exact completes_operands rfl hr h (effect_dst (LocalEffect.refl _ _) (fun _ hx => hx) h)
  case addi =>
    exact completes_operands rfl hr (scalarAddi_ok h1 h2 h3) (effect_rmw (LocalEffect.refl _ _) h1 h3)
  case lea =>
    exact completes_operands rfl hr (scalarLea_ok h1 h2 h3) (effect_dst (src1 h2) (fun _ hx => hx) h3)
  case pset =>
    exact completes_word rfl hr (scalarPset_ok h1 h2) (effect_word (src2 h1 h2) (by omega))
  case mset =>
    exact completes_word rfl hr (scalarMset_ok h1 h2) (effect_word (src2 h1 h2) (by omega))

/-! ### Handles (R118-R120, R191) -/

/-- The fields of a handle word (R79): SIZE, CONS and FILL. -/
abbrev handleSize (k : Core) (h : Fin 4) : Nat := field (hWord k h.val) 27 14
abbrev handleCons (k : Core) (h : Fin 4) : Nat := field (hWord k h.val) 41 28
abbrev handleFill (k : Core) (h : Fin 4) : Nat := field (hWord k h.val) 55 42

/-- CONS after n slots are consumed (R119): on the h3 bound to the channel FIFO, over the slots of messages alone (R191). -/
def advancedCons (k : Core) (h : Fin 4) (n : Nat) : Nat :=
  if h.val = 3 ∧ k.h3fifo = true ∧ k.wp = k.fifoWp then
    (fslotFrom (handleSize k h) (nth k.chans k.channel {}).skip (n - 1) (handleCons k h) + 1) % handleSize k h
  else (handleCons k h + n) % handleSize k h

theorem issued_top (i : Instr) (n : Nat) (s : State) : (issued i n s).top = (s.core s.cur).top := by
  simp [issued, Core.top]

theorem fifoHandle_iff {k : Core} {h : Nat} :
    fifoHandle k h = true ↔ h = 3 ∧ k.h3fifo = true ∧ k.wp = k.fifoWp := by
  simp only [fifoHandle, Bool.and_eq_true, beq_iff_eq, and_assoc]

/-- The end of the binding of h3 to the channel FIFO, as a value of its flag. -/
theorem unbind_fifo (k : Core) (h : Nat) : (if fifoHandle k h then { k with h3fifo := false } else k) =
    { k with h3fifo := k.h3fifo && (h != 3 || k.wp != k.fifoWp) } := by
  have hflag : (k.h3fifo && (h != 3 || k.wp != k.fifoWp)) = (k.h3fifo && !fifoHandle k h) := by
    unfold fifoHandle
    cases k.h3fifo <;> cases h3 : h == 3 <;> simp [bne, h3]
  rw [hflag]
  cases fifoHandle k h <;> simp

section
variable {h : Fin 4} {a b : Spec} {c k1 k2 : Core} {x : Int} {n : Nat}

section
variable (h1 : readS c a = .ok (x, k1)) (h2 : readSrc k1 .z64 b = .ok (n, k2))
include h1 h2

theorem scalarHbind_ok (hal : x % 8 = 0) (hroom : n = 0 ∨ (0 ≤ x ∧ x + 8 * n ≤ c.top ∧ n ≤ 16383)) :
    let k := setHWord k2 h.val (if n = 0 then 0 else x.toNat / 8 + n * 2 ^ 14)
    scalarHbind h a b c = .ok { k with h3fifo := k.h3fifo && (h.val != 3 || k.wp != k.fifoWp) } := by
  intro k
  rw [← unbind_fifo]
  by_cases hn : n = 0
  · simp [scalarHbind, readZ, h1, h2, hal, hn, needS, guardS, bind, Except.bind, k]
  · have hfit := hroom.resolve_left hn
    simp [scalarHbind, readZ, h1, h2, hal, hn, hfit, needS, guardS, bind, Except.bind, k]

theorem scalarHbind_align (hal : x % 8 ≠ 0) :
    scalarHbind h a b c = .error (.trap { cause := .align, addr := toPattern 64 x }) := by
  simp [scalarHbind, readZ, h1, h2, hal, needS, guardS, bind, Except.bind]

theorem scalarHbind_fabric (hal : x % 8 = 0) (hn : n ≠ 0) (hout : x < 0 ∨ (c.top : Int) < x + 8 * n ∨ 16383 < n) :
    scalarHbind h a b c = .error (.trap { cause := .fabric, addr := toPattern 64 x }) := by
  have hfit : ¬ ((0 ≤ x ∧ x + 8 * n ≤ c.top) ∧ n ≤ 16383) := by omega
  simp [scalarHbind, readZ, h1, h2, hal, hn, hfit, needS, guardS, bind, Except.bind]

end

section
variable {prod : Bool} (h1 : readSrc c .z64 a = .ok (n, k1))
include h1

theorem scalarHadv_empty (hsize : handleSize k1 h = 0) :
    scalarHadv prod h a c = .error (.trap { cause := .undef, sub := 0x04 }) := by
  simp [scalarHadv, readZ, h1, hsize, needS, guardS, bind, Except.bind]

theorem scalarHadv_align (hsize : handleSize k1 h ≠ 0) (hn : handleSize k1 h < n) :
    scalarHadv prod h a c = .error (.trap { cause := .align, addr := n }) := by
  have hle : ¬ n ≤ handleSize k1 h := by omega
  simp [scalarHadv, readZ, h1, hsize, hle, needS, guardS, bind, Except.bind]

theorem scalarHadv_zero (hsize : handleSize k1 h ≠ 0) (hn : n = 0) : scalarHadv prod h a c = .ok k1 := by
  simp [scalarHadv, readZ, h1, hsize, hn, needS, guardS, bind, Except.bind]

/-- `hadv.p` waits for free slots and `hadv.c` for filled ones. -/
theorem scalarHadv_wait (hn : 0 < n) (hle : n ≤ handleSize k1 h)
    (hroom : (if prod then handleSize k1 h - handleFill k1 h else handleFill k1 h) < n) :
    scalarHadv prod h a c = .error .wait := by
  have hsize : handleSize k1 h ≠ 0 := by omega
  have hn0 : n ≠ 0 := by omega
  cases prod
  · have hno : ¬ n ≤ handleFill k1 h := by simpa using hroom
    simp [scalarHadv, readZ, h1, hsize, hle, hn0, hno, needS, untilS, guardS, bind, Except.bind]
  · have hno : ¬ n ≤ handleSize k1 h - handleFill k1 h := by simpa using hroom
    simp [scalarHadv, readZ, h1, hsize, hle, hn0, hno, needS, untilS, guardS, bind, Except.bind]

theorem scalarHadv_produce (hn : 0 < n) (hroom : n ≤ handleSize k1 h - handleFill k1 h) :
    scalarHadv true h a c = .ok (setHWord k1 h.val (hWord k1 h.val + n * 2 ^ 42)) := by
  have hsize : handleSize k1 h ≠ 0 := by omega
  have hle : n ≤ handleSize k1 h := by omega
  have hn0 : n ≠ 0 := by omega
  simp [scalarHadv, readZ, h1, hsize, hle, hn0, hroom, needS, untilS, guardS, bind, Except.bind]

theorem scalarHadv_consume (hn : 0 < n) (hfill : n ≤ handleFill k1 h) (hle : n ≤ handleSize k1 h) :
    scalarHadv false h a c = .ok (setHWord k1 h.val (field (hWord k1 h.val) 27 0 + advancedCons k1 h n * 2 ^ 28 +
      (handleFill k1 h - n) * 2 ^ 42)) := by
  have hsize : handleSize k1 h ≠ 0 := by omega
  have hn0 : n ≠ 0 := by omega
  simp [scalarHadv, readZ, h1, hsize, hle, hn0, hfill, needS, untilS, guardS, bind, Except.bind, advancedCons, fifoHandle_iff]

end

end

/-- Settles O7, from what each instruction answers in each of its cases. -/
theorem handleOperations : Obligations.HandleOperations := by
  unfold Obligations.HandleOperations
  intro d a b h s k1 k2 w size cons fill next free
  refine ⟨fun x n hr h1 h2 hal hroom => ?bind, fun n hr h1 hsize hn hfill hle => ?consume,
    fun n hr h1 hsize hn hroom => ?produce, fun i hi hr h1 hsize => ?zero, fun prod n => ?advanceStops,
    fun x n hr h1 h2 => ?bindTraps, fun hr h1 => ?stat⟩
  case bind =>
    rw [← issued_top (.hbind h a b) 1] at hroom
    exact scalarOp_ok hr (scalarHbind_ok h1 h2 hal hroom)
  case consume =>
    exact completes_word rfl hr (scalarHadv_consume h1 hn hfill hle) (effect_word (src1 h1) (by omega))
  case produce =>
    exact completes_word rfl hr (scalarHadv_produce h1 hn hroom) (effect_word (src1 h1) (by omega))
  case zero =>
    have heffect := (src1 h1).mono (fun x => (bumped_congr (issued_wp i 1 s) [a] x).1)
    rcases eq_or_eq_of_mem_pair hi with rfl | rfl
    · exact completes_of_scalar rfl hr (scalarHadv_zero h1 hsize rfl) heffect
    · exact completes_of_scalar rfl hr (scalarHadv_zero h1 hsize rfl) heffect
  case advanceStops =>
    intro i hr h1
    have hexec : exec i s = scalarOp i (scalarHadv prod h a) s := by cases prod <;> rfl
    exact ⟨fun hsize => traps_of_scalar hexec hr (scalarHadv_empty h1 hsize),
      fun hsize hn => traps_of_scalar hexec hr (scalarHadv_align h1 hsize hn),
      fun hsize hn hle hroom => waits_of_scalar hexec hr (scalarHadv_wait h1 hn hle hroom)⟩
  case bindTraps =>
    refine ⟨fun hal => traps_of_scalar rfl hr (scalarHbind_align h1 h2 hal), fun hal hn hout => ?_⟩
    refine traps_of_scalar rfl hr (scalarHbind_fabric h1 h2 hal hn ?_)
    rwa [issued_top]
  case stat =>
    exact completes_operands rfl hr h1 (effect_dst (LocalEffect.refl _ _) (fun _ hx => hx) h1)

/-! ### Local memory (R122, R123) -/

/-- Each local access stops where its computed address does. -/
theorem scalarLd_address {t : IType} {d a b : Spec} {c : Core} {e : Stop}
    (h : computedAddr c a b (fmtBytes (ifmt t)) = .error e) : scalarLd t d a b c = .error e := by
  simp [scalarLd, h, bind, Except.bind]

theorem scalarSt_address {t : IType} {d a b : Spec} {c : Core} {e : Stop}
    (h : computedAddr c a b (fmtBytes (ifmt t)) = .error e) : scalarSt t d a b c = .error e := by
  simp [scalarSt, h, bind, Except.bind]

theorem scalarLdt_address {t : IType} {g : Fmt} {rm : RMode} {d a b : Spec} {c : Core} {e : Stop}
    (h : computedAddr c a b (fmtBytes g) = .error e) : scalarLdt t g rm d a b c = .error e := by
  simp [scalarLdt, h, bind, Except.bind]

theorem scalarStt_address {t : IType} {g : Fmt} {rm : RMode} {d a b : Spec} {c : Core} {e : Stop}
    (h : computedAddr c a b (fmtBytes g) = .error e) : scalarStt t g rm d a b c = .error e := by
  simp [scalarStt, h, bind, Except.bind]

/-- The traps of the computed address of an access of n bytes (R83, R122), for an instruction that stops where it does. -/
theorem address_traps {i : Instr} {s : State} {g : Core → Except Stop Core} {a b : Spec} {n : Nat} {x y : Int}
    {k1 k2 : Core} (hexec : exec i s = scalarOp i g s)
    (hstop : ∀ e, computedAddr (issued i 1 s) a b n = .error e → g (issued i 1 s) = .error e)
    (hr : ready i s) (h1 : readS (issued i 1 s) a = .ok (x, k1)) (h2 : readS k1 b = .ok (y, k2)) :
    let z := (x + y).toNat
    ((x + y < 0 ∨ 0x1FFFF < x + y ∨ ((s.core s.cur).top : Int) < x + y + n) →
      traps i s { cause := .fabric, addr := toPattern 64 (x + y) }) ∧
    (0 ≤ x + y → z ≤ 0x1FFFF → z + n ≤ (s.core s.cur).top → z % (min n 8) ≠ 0 →
      traps i s { cause := .align, addr := z }) := by
  rw [← issued_top i 1]
  exact ⟨fun hout => traps_of_scalar hexec hr (hstop _ (computedAddr_fabric h1 h2 hout)),
    fun hpos hmax htop hal => traps_of_scalar hexec hr (hstop _ (computedAddr_align h1 h2 hpos htop hmax hal))⟩

/-- Two sources read as signed words change at most their pointer words. -/
theorem effect_readS_two {c k1 k2 : Core} {a b : Spec} {x y : Int} (h1 : readS c a = .ok (x, k1))
    (h2 : readS k1 b = .ok (y, k2)) : LocalEffect c k2 (bumped c [a, b]) := effect_srcS (effect_readS h1) h2

/-- Bytes stored after reads of sources. -/
theorem effect_stored {c k : Core} {l : List Spec} (z v : Nat) {n : Nat} (hn : 0 < n) (h : LocalEffect c k (bumped c l)) :
    LocalEffect c (writeLocal k z n v) (fun x => storeTouched c z n x ∨ bumped c l x) := by
  have hstore := effect_putLocal k z (toBytes n v) (by rwa [toBytes_length])
  rw [toBytes_length, storeTouched_wp h.wp] at hstore
  exact (h.mono (fun _ => Or.inr)).trans (hstore.mono (fun _ => Or.inl))

/-- Settles O8: the computed address decides between the access and its two traps. -/
theorem localLoadStore : Obligations.LocalLoadStore := by
  unfold Obligations.LocalLoadStore
  intro t d a b s x y k1 k2 f z
  refine ⟨fun hpos htop hmax hal => ⟨fun k3 hr h1 h2 hready h3 => ?load, fun v k3 hr h1 h2 h3 hpend hown hheld => ?store⟩,
    fun i hi hr h1 h2 => ?trap⟩
  case load =>
    rw [← issued_top (.ld t d a b) 1] at htop
    exact completes_operands rfl hr (scalarLd_ok (computedAddr_ok h1 h2 (fmtBytes_pos f) hpos htop hmax hal) hready h3)
      (effect_dst (effect_readS_two h1 h2) (fun _ hx => hx) h3)
  case store =>
    rw [← issued_top (.st t d a b) 1] at htop
    refine completes_of_scalar rfl hr
      (scalarSt_ok (computedAddr_ok h1 h2 (fmtBytes_pos f) hpos htop hmax hal) h3 hpend hown hheld) ?_
    have heffect := effect_stored z v (fmtBytes_pos f) (effect_src (effect_readS_two h1 h2) h3)
    rwa [storeTouched_wp (issued_wp ..), bumped_wp (issued_wp ..)] at heffect
  case trap =>
    rcases eq_or_eq_of_mem_pair hi with rfl | rfl
    · exact address_traps rfl (fun _ => scalarLd_address) hr h1 h2
    · exact address_traps rfl (fun _ => scalarSt_address) hr h1 h2

/-- The core after the draw of a rounding that takes one (R57). -/
def drawn (k : Core) (r : Rnd) : Core := if r.drew then setDrawIndex k (drawIndex k + 1) else k

section
variable {t : IType} {g : Fmt} {rm : RMode} {d a b : Spec} {c k2 k3 : Core} {z v : Nat} {r : Rnd}

section
variable (h1 : computedAddr c a b (fmtBytes g) = .ok (z, k2)) (h2 : unreadyAt k2 z (fmtBytes g) = false)
  (hr : cvtFrom g (ifmt t) false rm (coreDraw k2 (drawIndex k2)) (readLocal k2 z (fmtBytes g)) = r)
include h1 h2 hr

theorem scalarLdt_ok (hq : Safety.quiet k2 r.flags)
    (h3 : writeDst (drawn (orSticky k2 r.flags) r) (ifmt t) d r.code = .ok k3) : scalarLdt t g rm d a b c = .ok k3 := by
  simp only [scalarLdt, h1, loadAt_ok h2, hr, raiseFlags_ok hq, bind, Except.bind]
  exact h3

theorem scalarLdt_flag (hq : ¬ Safety.quiet k2 r.flags) :
    scalarLdt t g rm d a b c = .error (.trap (flagTrap k2 r.flags)) := by
  simp only [scalarLdt, h1, loadAt_ok h2, hr, raiseFlags_flagTrap hq, bind, Except.bind]

end

section
variable (h1 : computedAddr c a b (fmtBytes g) = .ok (z, k2)) (h2 : readSrc k2 (ifmt t) d = .ok (v, k3))
  (hr : cvtFrom (ifmt t) g (e5o k3) rm (coreDraw k3 (drawIndex k3)) v = r)
include h1 h2 hr

theorem scalarStt_ok (hq : Safety.quiet k3 r.flags) (hpend : pendingAt (drawn (orSticky k3 r.flags) r) z (fmtBytes g) = false)
    (hown : ownAt (drawn (orSticky k3 r.flags) r) z (fmtBytes g) = false)
    (hheld : heldAt (drawn (orSticky k3 r.flags) r) z (fmtBytes g) = false) :
    scalarStt t g rm d a b c = .ok (writeLocal (drawn (orSticky k3 r.flags) r) z (fmtBytes g) r.code) := by
  simp only [scalarStt, h1, h2, hr, raiseFlags_ok hq, bind, Except.bind]
  rw [← toBytes_length (fmtBytes g) r.code] at hpend hown hheld
  exact storeAt_of hpend hown hheld

theorem scalarStt_flag (hq : ¬ Safety.quiet k3 r.flags) :
    scalarStt t g rm d a b c = .error (.trap (flagTrap k3 r.flags)) := by
  simp only [scalarStt, h1, h2, hr, raiseFlags_flagTrap hq, bind, Except.bind]

end

end

/-- Settles O9: the address as for O8, then the flags of the conversion. -/
theorem convertingLoadStore : Obligations.ConvertingLoadStore := by
  unfold Obligations.ConvertingLoadStore
  intro t g rm d a b s x y k1 k2 f z n drawn
  refine ⟨fun hpos htop hmax hal => ⟨fun k3 hr h1 h2 hready => ?load, fun v k3 hr h1 h2 h3 => ?store⟩,
    fun i hi hr h1 h2 => ?trap⟩
  case load =>
    rw [← issued_top (.ldt t g rm d a b) 1] at htop
    have haddr := computedAddr_ok h1 h2 (fmtBytes_pos g) hpos htop hmax hal
    exact ⟨fun hq h3 => scalarOp_ok hr (scalarLdt_ok haddr hready rfl hq h3),
      fun hq => traps_of_scalar rfl hr (scalarLdt_flag haddr hready rfl hq)⟩
  case store =>
    rw [← issued_top (.stt t g rm d a b) 1] at htop
    have haddr := computedAddr_ok h1 h2 (fmtBytes_pos g) hpos htop hmax hal
    exact ⟨fun hq hpend hown hheld => scalarOp_ok hr (scalarStt_ok haddr h3 rfl hq hpend hown hheld),
      fun hq => traps_of_scalar rfl hr (scalarStt_flag haddr h3 rfl hq)⟩
  case trap =>
    rcases eq_or_eq_of_mem_pair hi with rfl | rfl
    · exact address_traps rfl (fun _ => scalarLdt_address) hr h1 h2
    · exact address_traps rfl (fun _ => scalarStt_address) hr h1 h2

end Sys2Proof.Proofs.Scalar
end

section
/-!
PROOFS of 05_scalar: control transfers, `nop`, `trap` and `brk`.
-/
namespace Sys2Proof.Proofs.Transfers

open Sys2Proof.Machine Sys2Proof.Safety

/-! ### The issued core at a new program counter -/

section
variable {i : Instr} {n : Nat} {s : State}

theorem readLocal_issued (i : Instr) (n : Nat) (s : State) (a m : Nat) :
    readLocal (issued i n s) a m = readLocal (s.core s.cur) a m := by
  rw [issued_eta, readLocal_at]

theorem pendingAt_issued (i : Instr) (n : Nat) (s : State) (a m : Nat) :
    pendingAt (issued i n s) a m = pendingAt (s.core s.cur) a m := by
  rw [issued_eta, pend_at]

/-- A checked transfer of the issued core (R125). -/
theorem goTo_issued {t : Nat} (h : checkTarget (issuedState i n s) s.cur t = .ok ()) :
    goTo s.cur (issuedState i n s) t = .ok (s.setCore s.cur { issued i n s with pc := t }) := by
  rw [goTo_ok h, issuedState_core, issuedState, setCore_setCore]

/-- The same for an offset from the instruction's own address (R93). -/
theorem goTo_offset {off : BitVec 20} {t : Nat} (hlen : (encode i).length = 1)
    (hoff : ((((s.core s.cur).pc : Int) + 4 * off.toInt) % 2 ^ 32).toNat = t)
    (h : checkTarget (issuedState i n s) s.cur t = .ok ()) :
    goTo s.cur (issuedState i n s) (branchTarget ((issuedState i n s).core s.cur) off) =
      .ok (s.setCore s.cur { issued i n s with pc := t }) := by
  rw [issuedState_core, btarget _ _ _ _ hlen, hoff, goTo_issued h]

theorem storeAt_issued {a : Nat} (pc v : Nat) (hpend : pendingAt (s.core s.cur) a 8 = false)
    (hown : ownAt (issued i n s) a 8 = false) (hheld : heldAt (s.core s.cur) a 8 = false) :
    storeAt { issued i n s with pc := pc } a (toBytes 8 v) = .ok (writeLocal { issued i n s with pc := pc } a 8 v) := by
  rw [← pend_at i n pc] at hpend
  rw [← held_at i n pc] at hheld
  rw [← toBytes_length 8 v] at hpend hown hheld
  exact storeAt_of hpend hown hheld

/-- The word that a transfer writes changes its own bytes alone. -/
theorem effect_issued_word (pc v : Nat) {o : Nat} (ho : o % 8 = 0) :
    LocalEffect { issued i n s with pc := pc } (writeLocal { issued i n s with pc := pc } ((s.core s.cur).wp + o) 8 v)
      (wordBytes (s.core s.cur) o) := by
  have hwp : ({ issued i n s with pc := pc } : Core).wp = (s.core s.cur).wp := issued_wp i n s
  refine (store_eff _ _ o v hwp ho).mono fun x hx => ?_
  rwa [wordBytes, hwp] at hx

end

/-! ### Direct transfers (R126-R128) -/

section
variable {cc : Cond} {off : BitVec 20} {c : CoreId} {s : State}

theorem branch_untaken (h : condHolds cc (s.core c).flags = false) : branch cc off c s = .ok s := by
  simp only [branch, h, Bool.false_eq_true, if_false]

theorem branch_taken (h : condHolds cc (s.core c).flags = true) :
    branch cc off c s = goTo c s (branchTarget (s.core c) off) := by
  simp only [branch, h, if_true]

theorem branchCost_untaken {k : Core} (h : condHolds cc k.flags = false) : branchCost cc k = 1 := by
  rw [branchCost, h, if_neg Bool.false_ne_true]

theorem branchCost_taken {k : Core} (h : condHolds cc k.flags = true) : branchCost cc k = 2 := by
  rw [branchCost, if_pos h]

end

section
variable {i : Instr} {cost : Nat} {s : State} {off : BitVec 20}

/-- `call` on the issued core: the checked target, then w31. -/
theorem callTo_issued {t : Nat} (hlen : (encode i).length = 1)
    (hoff : ((((s.core s.cur).pc : Int) + 4 * off.toInt) % 2 ^ 32).toNat = t)
    (ht : checkTarget (issuedState i cost s) s.cur t = .ok ())
    (hpend : pendingAt (s.core s.cur) ((s.core s.cur).wp + 248) 8 = false)
    (hown : ownAt (issued i cost s) ((s.core s.cur).wp + 248) 8 = false)
    (hheld : heldAt (s.core s.cur) ((s.core s.cur).wp + 248) 8 = false) :
    callTo off s.cur (issuedState i cost s) = .ok (s.setCore s.cur
      (writeLocal { issued i cost s with pc := t } ((s.core s.cur).wp + 248) 8 ((s.core s.cur).pc + 4))) := by
  have hgo := goTo_offset hlen hoff ht
  rw [callTo_ok hgo (k1 := writeLocal { issued i cost s with pc := t } ((s.core s.cur).wp + 248) 8 ((s.core s.cur).pc + 4)),
    setCore_setCore]
  rw [core_setCore, issuedState_core, issued_wp, issued_pc, hlen]
  exact storeAt_issued t _ hpend hown hheld

section
variable {n : Fin 16}

/-- The counter that `loop` reads on the issued core. -/
theorem loadAt_issued {a : Nat} (h : unreadyAt (issued i cost s) a 8 = false) :
    loadAt (issued i cost s) a 8 = .ok (readLocal (s.core s.cur) a 8) := by
  rw [loadAt_ok h, readLocal_issued]

variable (hload : unreadyAt (issued i cost s) ((s.core s.cur).wp + 8 * n.val) 8 = false)
  (hpend : pendingAt (s.core s.cur) ((s.core s.cur).wp + 8 * n.val) 8 = false)
  (hown : ownAt (issued i cost s) ((s.core s.cur).wp + 8 * n.val) 8 = false)
  (hheld : heldAt (s.core s.cur) ((s.core s.cur).wp + 8 * n.val) 8 = false)
include hload hpend hown hheld

/-- `loop` on the issued core, counting down to 0 and not. -/
theorem loopTo_issued_done (hone : readLocal (s.core s.cur) ((s.core s.cur).wp + 8 * n.val) 8 = 1) :
    loopTo n off s.cur (issuedState i cost s) = .ok (s.setCore s.cur
      (writeLocal (issued i cost s) ((s.core s.cur).wp + 8 * n.val) 8 0)) := by
  have hstore := storeAt_issued (s := s) ((s.core s.cur).pc + 4 * (encode i).length) 0 hpend hown hheld
  rw [← issued_eta] at hstore
  rw [loopTo_done (k1 := writeLocal (issued i cost s) ((s.core s.cur).wp + 8 * n.val) 8 0) ?_ hone ?_, issuedState,
    setCore_setCore]
  · rw [issuedState_core, issued_wp]
    exact loadAt_issued hload
  · rw [issuedState_core, issued_wp]
    exact hstore

theorem loopTo_issued_go {t v : Nat} (hlen : (encode i).length = 1)
    (hoff : ((((s.core s.cur).pc : Int) + 4 * off.toInt) % 2 ^ 32).toNat = t)
    (ht : checkTarget (issuedState i cost s) s.cur t = .ok ())
    (hv : (readLocal (s.core s.cur) ((s.core s.cur).wp + 8 * n.val) 8 + 2 ^ 64 - 1) % 2 ^ 64 = v) (hv0 : v ≠ 0) :
    loopTo n off s.cur (issuedState i cost s) = .ok (s.setCore s.cur
      (writeLocal { issued i cost s with pc := t } ((s.core s.cur).wp + 8 * n.val) 8 v)) := by
  have hgo := goTo_offset hlen hoff ht
  rw [loopTo_go (k1 := writeLocal { issued i cost s with pc := t } ((s.core s.cur).wp + 8 * n.val) 8 v) ?_ hv hv0 hgo ?_,
    setCore_setCore]
  · rw [issuedState_core, issued_wp]
    exact loadAt_issued hload
  · rw [core_setCore, issuedState_core, issued_wp]
    exact storeAt_issued t v hpend hown hheld

end

end

theorem unreadyAt_of {k : Core} {a n : Nat} (hpend : pendingAt k a n = false) (hlate : lateAt k a n = false)
    (hown : ownAt k a n = false) : unreadyAt k a n = false := by
  rw [unreadyAt, hpend, hlate, hown]
  rfl

/-- Settles O18: each transfer checks its target, then writes its word. -/
theorem directTransfers : Obligations.DirectTransfers := by
  unfold Obligations.DirectTransfers
  intro cc off e n s k target at' good free storing
  refine ⟨fun hr hc => ?untaken, fun ⟨hr, ht⟩ hc => ?taken, fun ⟨hr, ht⟩ => ?jump,
    fun ⟨hr, ht⟩ ⟨hpend, hown, hheld⟩ => ?call, fun hr ⟨hpend, hown, hheld⟩ hlate hone => ?loopEnds,
    fun ⟨hr, ht⟩ ⟨hpend, hown, hheld⟩ hlate v hv hv0 => ?loopGoes⟩
  case untaken =>
    refine nativeOp_ok (cost := branchCost cc) hr ?_
    rw [branchCost_untaken hc]
    exact branch_untaken (by rwa [issuedState_core, issued_flags])
  case taken =>
    refine nativeOp_ok (cost := branchCost cc) hr ?_
    rw [branchCost_taken hc, branch_taken (by rwa [issuedState_core, issued_flags])]
    exact goTo_offset rfl rfl ht
  case jump => exact end0 rfl hr (goTo_issued ht)
  case call => exact ⟨end0 rfl hr (callTo_issued rfl rfl ht hpend hown hheld), effect_issued_word target _ (by decide)⟩
  case loopEnds =>
    have hload := unreadyAt_of ((pendingAt_issued ..).trans hpend) hlate hown
    have hpc : issued (.loop n off) 1 s = at' (.loop n off) 1 (k.pc + 4) := issued_eta _ _ _
    refine ⟨?_, effect_issued_word _ _ (by omega)⟩
    rw [← hpc]
    exact end0 rfl hr (loopTo_issued_done hload hpend hown hheld hone)
  case loopGoes =>
    have hload := unreadyAt_of ((pendingAt_issued ..).trans hpend) hlate hown
    have hcount : (readLocal k (k.wp + 8 * n.val) 8 + 2 ^ 64 - 1) % 2 ^ 64 = v := by
      rw [hv, Nat.add_sub_assoc Nat.one_le_two_pow]
    exact ⟨end0 rfl hr (loopTo_issued_go hload hpend hown hheld rfl rfl ht hcount hv0),
      effect_issued_word target v (by omega)⟩

/-! ### Indirect transfers (R127, R383) -/

section
variable {c : CoreId} {s : State} {v : Nat}

theorem jumpTo_marker (hv : v = resumeMarker) (hc : c.cls = .control) :
    jumpTo c s v = .ok (s.modCore c (fun k => { k.chargeControl 2 with bcMode := true })) := by
  simp only [jumpTo, hv, hc, beq_self_eq_true, Bool.and_self, if_true]

theorem not_marker (h : v ≠ resumeMarker ∨ c.cls ≠ .control) : (c.cls == .control && v == resumeMarker) = false := by
  rcases h with h | h
  · rw [beq_false_of_ne h, Bool.and_false]
  · rw [beq_false_of_ne h, Bool.false_and]

theorem jumpTo_offset (h : v ≠ resumeMarker ∨ c.cls ≠ .control) : jumpTo c s v = goTo c s v := by
  rw [jumpTo, not_marker h, if_neg Bool.false_ne_true]

theorem jumpCost_marker (hv : v = resumeMarker) (hc : c.cls = .control) : jumpCost c.cls v = 0 := by
  simp only [jumpCost, hv, hc, beq_self_eq_true, Bool.and_self, if_true]

theorem jumpCost_offset (h : v ≠ resumeMarker ∨ c.cls ≠ .control) : jumpCost c.cls v = 2 := by
  rw [jumpCost, not_marker h, if_neg Bool.false_ne_true]

end

/-- Instruction i comes to the transfer to v of R383 with the current core at k, in the cycles of that transfer. -/
def jumpsTo (i : Instr) (s : State) (k : Core) (v : Nat) : Prop :=
  ∃ cost f, exec i s = nativeOp i cost f s ∧ cost (s.core s.cur) = jumpCost s.cur.cls v ∧
    localOnly (issued i (cost (s.core s.cur)) s) k ∧
    f s.cur (issuedState i (cost (s.core s.cur)) s) = jumpTo s.cur (s.setCore s.cur k) v

/-- The word that `ret` reads on the issued core. -/
theorem returnTo_issued {i : Instr} {n : Nat} {s : State}
    (hload : unreadyAt (issued i n s) ((s.core s.cur).wp + 248) 8 = false) :
    returnTo s.cur (issuedState i n s) =
      jumpTo s.cur (issuedState i n s) (readLocal (s.core s.cur) ((s.core s.cur).wp + 248) 8) := by
  have hread : loadAt ((issuedState i n s).core s.cur) (((issuedState i n s).core s.cur).wp + 8 * 31) 8 =
      .ok (readLocal (s.core s.cur) ((s.core s.cur).wp + 248) 8) := by
    rw [issuedState_core, issued_wp]
    exact loadAt_issued hload
  simp only [returnTo, hread, ofCore, bind, Except.bind]

def retCost (cls : CoreClass) (k : Core) : Nat := jumpCost cls (readLocal k (k.wp + 248) 8)

theorem exec_ret (s : State) : exec .ret s = nativeOp .ret (retCost s.cur.cls) returnTo s := rfl

theorem exec_jx (a : Spec) (s : State) : ∃ cost, exec (.jx a) s = nativeOp (.jx a) cost (jumpIndirect a) s ∧
    ∀ v k, readSrc (s.core s.cur).seen .z64 a = .ok (v, k) → cost (s.core s.cur) = jumpCost s.cur.cls v :=
  ⟨_, rfl, fun v k h => by simp only [readZ, h]⟩

theorem ret_jumps {s : State} {n v : Nat} (hload : unreadyAt (issued .ret n s) ((s.core s.cur).wp + 248) 8 = false)
    (hv : v = readLocal (s.core s.cur) ((s.core s.cur).wp + 248) 8) (hn : n = jumpCost s.cur.cls v) :
    jumpsTo .ret s (issued .ret n s) v := by
  rw [hv] at hn ⊢
  subst hn
  exact ⟨retCost s.cur.cls, returnTo, exec_ret s, rfl, localOnly_refl _, returnTo_issued hload⟩

theorem jx_jumps {s : State} {a : Spec} {n v : Nat} {k k2 : Core} (hread : readSrc (issued (.jx a) n s) .z64 a = .ok (v, k))
    (hseen : readSrc (s.core s.cur).seen .z64 a = .ok (v, k2)) (hn : n = jumpCost s.cur.cls v) : jumpsTo (.jx a) s k v := by
  obtain ⟨cost, hexec, hcost⟩ := exec_jx a s
  have hc := hcost v k2 hseen
  subst hn
  rw [← hc] at hread
  exact ⟨cost, jumpIndirect a, hexec, hc, (effect_readSrc hread).only, opA_eq hread⟩

section
variable {i : Instr} {s : State} {k : Core} {v : Nat} (h : jumpsTo i s k v) (hr : ready i s)
include h hr

theorem exec_jump_marker (hv : v = resumeMarker) (hc : s.cur.cls = .control) :
    exec i s = .next (s.setCore s.cur { k.chargeControl 2 with bcMode := true }) := by
  obtain ⟨cost, f, hexec, -, -, hf⟩ := h
  rw [hexec]
  refine nativeOp_ok hr ?_
  rw [hf, jumpTo_marker hv hc, modCore_eq, core_setCore, setCore_setCore]

theorem exec_jump_offset (hv : v ≠ resumeMarker ∨ s.cur.cls ≠ .control)
    (ht : checkTarget (s.setCore s.cur k) s.cur v = .ok ()) : exec i s = .next (s.setCore s.cur { k with pc := v }) := by
  obtain ⟨cost, f, hexec, -, -, hf⟩ := h
  rw [hexec]
  refine nativeOp_ok hr ?_
  rw [hf, jumpTo_offset hv, goTo_ok ht, core_setCore, setCore_setCore]

end

/-! ### The check of a target (R125) -/

section
variable {s : State} {c : CoreId} {t : Nat}

theorem goTo_trap {tr : Trap} (h : checkTarget s c t = .error (some tr)) : goTo c s t = .error (.trap tr) := by
  rw [goTo, h]

theorem goTo_wait (h : checkTarget s c t = .error none) : goTo c s t = .error (.wait s) := by
  rw [goTo, h]

theorem checkTarget_misaligned (h : t % 4 ≠ 0) : checkTarget s c t = .error (some { cause := .align, addr := t }) := by
  rw [checkTarget, if_pos h]

section
variable {l : Launch} (hal : t % 4 = 0) (hl : codeLaunch s c (s.core c) = some l)
include hal hl

theorem checkTarget_outside (h : sectionEnd l t = none) :
    checkTarget s c t = .error (some { cause := .fabric, addr := t }) := by
  simp only [checkTarget, hal, hl, h, ne_eq, not_true, if_false]

variable {stop : Nat} (hstop : sectionEnd l t = some stop)
include hstop

theorem checkTarget_padding (hlate : tailLate s l t stop = false) (hpad : isPadding s l t stop = true) :
    checkTarget s c t = .error (some { cause := .fabric, addr := t }) := by
  simp only [checkTarget, hal, hl, hstop, hlate, hpad, ne_eq, not_true, Bool.false_eq_true, if_false, if_true]

theorem checkTarget_late (hlate : tailLate s l t stop = true) : checkTarget s c t = .error none := by
  simp only [checkTarget, hal, hl, hstop, hlate, ne_eq, not_true, if_false, if_true]

end

end

/-- Instruction i checks target t with the current core at k, before any other effect: it stops where that transfer does. -/
def checksTarget (i : Instr) (s : State) (k : Core) (t : Nat) : Prop :=
  ∃ cost f, exec i s = nativeOp i cost f s ∧ localOnly (issued i (cost (s.core s.cur)) s) k ∧
    ∀ e, goTo s.cur (s.setCore s.cur k) t = .error e → f s.cur (issuedState i (cost (s.core s.cur)) s) = .error e

theorem traps_of_checksTarget {i : Instr} {s : State} {k : Core} {t : Nat} {tr : Trap} (h : checksTarget i s k t)
    (hr : ready i s) (ht : checkTarget (s.setCore s.cur k) s.cur t = .error (some tr)) : traps i s tr := by
  obtain ⟨cost, f, hexec, -, hstop⟩ := h
  exact hexec.trans (nativeOp_trap hr (hstop _ (goTo_trap ht)))

theorem waits_of_checksTarget {i : Instr} {s : State} {k : Core} {t : Nat} (h : checksTarget i s k t) (hr : ready i s)
    (ht : checkTarget (s.setCore s.cur k) s.cur t = .error none) : exec i s = .next (s.setCore s.cur (waited s s.cur)) := by
  obtain ⟨cost, f, hexec, hlocal, hstop⟩ := h
  exact hexec.trans (nativeOp_stop hr hlocal rfl (hstop _ (goTo_wait ht)))

theorem checksTarget_of_jumpsTo {i : Instr} {s : State} {k : Core} {v : Nat} (h : jumpsTo i s k v)
    (hv : v ≠ resumeMarker ∨ s.cur.cls ≠ .control) : checksTarget i s k v := by
  obtain ⟨cost, f, hexec, -, hlocal, hf⟩ := h
  exact ⟨cost, f, hexec, hlocal, fun e he => by rw [hf, jumpTo_offset hv, he]⟩

theorem j_checksTarget (e : BitVec 32) (s : State) : checksTarget (.j e) s (issued (.j e) 2 s) e.toNat :=
  ⟨_, _, rfl, localOnly_refl _, fun _ he => he⟩

section
variable {s : State} {off : BitVec 20} {t : Nat} (hoff : t = ((((s.core s.cur).pc : Int) + 4 * off.toInt) % 2 ^ 32).toNat)
include hoff

theorem call_checksTarget : checksTarget (.call off) s (issued (.call off) 2 s) t := by
  refine ⟨fun _ => 2, callTo off, rfl, localOnly_refl _, fun e he => ?_⟩
  have hgo : goTo s.cur (issuedState (.call off) 2 s) (branchTarget (issued (.call off) 2 s) off) = .error e := by
    rw [btarget _ _ _ _ rfl, ← hoff]
    exact he
  simp only [callTo, issuedState_core, hgo, bind, Except.bind]

theorem b_checksTarget {cc : Cond} (hc : condHolds cc (s.core s.cur).flags = true) :
    checksTarget (.b cc off) s (issued (.b cc off) 2 s) t := by
  have hcost := branchCost_taken hc
  refine ⟨branchCost cc, branch cc off, rfl, ?_, fun e he => ?_⟩
  · rw [hcost]
    exact localOnly_refl _
  · rw [hcost, branch_taken (by rwa [issuedState_core, issued_flags]), issuedState_core, btarget _ _ _ _ rfl, ← hoff]
    exact he

theorem loop_checksTarget {n : Fin 16} (hload : unreadyAt (issued (.loop n off) 1 s) ((s.core s.cur).wp + 8 * n.val) 8 = false)
    (hgoes : readLocal (s.core s.cur) ((s.core s.cur).wp + 8 * n.val) 8 ≠ 1) :
    checksTarget (.loop n off) s (issued (.loop n off) 1 s) t := by
  refine ⟨fun _ => 1, loopTo n off, rfl, localOnly_refl _, fun e he => ?_⟩
  have hgo : goTo s.cur (issuedState (.loop n off) 1 s) (branchTarget (issued (.loop n off) 1 s) off) = .error e := by
    rw [btarget _ _ _ _ rfl, ← hoff]
    exact he
  have hcount : (readLocal (s.core s.cur) ((s.core s.cur).wp + 8 * n.val) 8 + 2 ^ 64 - 1) % 2 ^ 64 ≠ 0 := by
    have hlt := readLocal_lt (s.core s.cur) ((s.core s.cur).wp + 8 * n.val)
    omega
  simp only [loopTo, issuedState_core, issued_wp, loadAt_issued hload, ofCore, bind, Except.bind, hcount, if_false, hgo]

end

/-- Settles O19: each transfer checks its target on the core that its reads leave; the check decides. -/
theorem transfersTrapsAndBreaks : Obligations.TransfersTrapsAndBreaks := by
  unfold Obligations.TransfersTrapsAndBreaks
  refine ⟨fun a s v cost k k2 => ?indirect, fun i t stop s l k => ?targets, fun n s => ?others⟩
  case indirect =>
    intro goes
    have hgoes : ∀ {i : Instr} {k : Core}, ready i s → (cost = jumpCost s.cur.cls v → jumpsTo i s k v) → goes i k := by
      intro i k hr hjump
      exact ⟨fun hv hc hcost => exec_jump_marker (hjump (hcost.trans (jumpCost_marker hv hc).symm)) hr hv hc,
        fun hv hcost ht => exec_jump_offset (hjump (hcost.trans (jumpCost_offset hv).symm)) hr hv ht⟩
    exact ⟨fun hr hload hv => hgoes hr (ret_jumps hload hv),
      fun ⟨hr, hread⟩ hseen => hgoes hr (jx_jumps hread hseen)⟩
  case targets =>
    intro c rel indirect hr hcases
    have hchecks : checksTarget i s k t := by
      rcases hcases with
        ⟨rfl, ⟨e, rfl, rfl⟩ | ⟨off, rfl, ht⟩ | ⟨cc, off, rfl, ht, hc⟩ | ⟨rfl, hind, hload, ht⟩⟩ |
        ⟨rfl, n, off, rfl, ht, hload, hgoes⟩ | ⟨a, k2, rfl, hind, hread, hseen⟩
      · exact j_checksTarget e s
      · exact call_checksTarget ht
      · exact b_checksTarget ht hc
      · exact checksTarget_of_jumpsTo (ret_jumps hload ht (jumpCost_offset hind).symm) hind
      · exact loop_checksTarget ht hload hgoes
      · exact checksTarget_of_jumpsTo (jx_jumps hread hseen (jumpCost_offset hind).symm) hind
    refine ⟨fun hal => traps_of_checksTarget hchecks hr (checkTarget_misaligned hal), fun hal hl => ?_⟩
    have hl' : codeLaunch (s.setCore c k) c ((s.setCore c k).core c) = some l := by rwa [core_setCore]
    exact ⟨fun hout => traps_of_checksTarget hchecks hr (checkTarget_outside hal hl' hout),
      fun hstop => ⟨fun hlate hpad => traps_of_checksTarget hchecks hr (checkTarget_padding hal hl' hstop hlate hpad),
        fun hlate => waits_of_checksTarget hchecks hr (checkTarget_late hal hl' hstop hlate)⟩⟩
  case others =>
    refine ⟨fun hr => end0 rfl hr rfl, fun hr => end0_trap rfl hr rfl, fun hr hb => end0_trap rfl hr ?_,
      fun hr hb => end0 rfl hr ?_⟩
    · rw [breakOp, issuedState_core, issued, issue_tcfg, if_pos hb]
      rfl
    · rw [breakOp, issuedState_core, issued, issue_tcfg, hb, if_neg Bool.false_ne_true]

end Sys2Proof.Proofs.Transfers
end

section
/-!
PROOFS of 05_scalar: `end` and the close of a firing.
-/
namespace Sys2Proof.Proofs.Closing

open Sys2Proof.Machine Sys2Proof.Safety

/-! ### The close of a firing (R189, R272) -/

/-- The core after its span is consumed (R189, step 1). -/
def consumed (k : Core) (m : CloseMode) : Core :=
  match k.run, m with
  | .firing ch, .normal => consumeWords k ch (nth k.chans ch {}).ctl.rate
  | .firing ch, .drop => consumeWords k ch (nth k.chans ch {}).ctl.rate
  | _, _ => k

/-- The core after its buffered messages are released too (R189, step 2). -/
def passed (k : Core) (m : CloseMode) : Core :=
  match m with
  | .normal =>
    { consumed k m with
      sout := (consumed k m).sout ++ (consumed k m).sbuf, ctm := (consumed k m).ctm + (consumed k m).sbuf.length }
  | _ => consumed k m

/-- The idle core that step 5 makes of core k3, which closes the firing of core k (R178, R189, R444). -/
def idled (k k3 : Core) (m : CloseMode) : Core :=
  { k3 with
    run := .idle, sbuf := [], h3fifo := false, tframe := none, lframe := none, budget := 0, hbudget := 0,
    bcMode := false, grants := 0, lreq := 0, lgot := none, kreq := none, sleeping := false, gbarIn := none, gbarOut := none,
    cwait := false, vpend := false, drainp := none, tlbw := none,
    retired := k3.retired || (match k.run with | .firing _ => true | _ => false)
    pairRuns := match m with | .normal => 0 | _ => k3.pairRuns
    pairReq := if k3.pairReq = 1 then (if k.preReq.isSome then 4 else 3) else k3.pairReq }

/-- The close of a firing by its named steps. -/
theorem closeFiring_steps (s : State) (c : CoreId) (m : CloseMode) : closeFiring s c m =
    let k := s.core c
    let k2 := passed k m
    let s0 := withdrawLeave (discardLanding (s.setCore c (idled k (surfaceClosed (applyBindings k2)) m)) c
      (fun x => (unboundNow k2).contains (destCh x.dest))) c
    let s1 := if k.pairReq = 2 then uncouple s0 c else s0
    let s2 := if k.preReq.isSome then beginEviction s1 c else s1
    if k.pst == .primary then takeIfIdle s2 (coreAt (rowOf c) k.partner) else s2 := by
  rfl

theorem consumed_bind {k : Core} (m : CloseMode) (h : ∀ x ∈ k.chans, x.bind ≠ 2) :
    ∀ x ∈ (consumed k m).chans, x.bind ≠ 2 := by
  have hspan : ∀ ch n, ∀ x ∈ (consumeWords k ch n).chans, x.bind ≠ 2 := by
    intro ch n x hx
    rcases setAt_mem _ _ _ _ hx with hx | rfl
    · exact h x hx
    · rw [advance_bind]
      exact nth_bind _ h ch
  unfold consumed
  split
  · exact hspan _ _
  · exact hspan _ _
  · exact h

theorem passed_bind {k : Core} (m : CloseMode) (h : ∀ x ∈ k.chans, x.bind ≠ 2) :
    ∀ x ∈ (passed k m).chans, x.bind ≠ 2 := by
  cases m
  case normal => exact consumed_bind .normal h
  case abort => exact consumed_bind .abort h
  case drop => exact consumed_bind .drop h

theorem passed_preReq (k : Core) (m : CloseMode) : (passed k m).preReq = k.preReq := by
  unfold passed consumed
  cases m <;> cases k.run <;> rfl

section
variable {k : Core} {ch : Nat} (h : k.run = .firing ch)
include h

theorem passed_normal : passed k .normal =
    { consumeWords k ch (nth k.chans ch {}).ctl.rate with sout := k.sout ++ k.sbuf, ctm := k.ctm + k.sbuf.length } := by
  simp only [passed, consumed, h]
  rfl

theorem passed_drop : passed k .drop = consumeWords k ch (nth k.chans ch {}).ctl.rate := by
  simp only [passed, consumed, h]

theorem passed_abort : passed k .abort = k := by
  simp only [passed, consumed, h]

end

theorem unboundNow_none {k : Core} (h : ∀ x ∈ k.chans, x.bind ≠ 2) : unboundNow k = [] := by
  refine List.filter_eq_nil_iff.2 fun n _ => ?_
  simp [nth_bind _ h n]

/-- Without a request nothing is taken. -/
theorem takeIfIdle_none {s : State} {c : CoreId} (h : (s.core c).preReq = none) : takeIfIdle s c = s := by
  rw [takeIfIdle, h]
  rfl

theorem core_withdrawLeave (s : State) (c x : CoreId) : (withdrawLeave s c).core x = s.core x := rfl

theorem core_preReq_setCore {s : State} {c x : CoreId} {k : Core} (hk : k.preReq = none) (hx : (s.core x).preReq = none) :
    ((s.setCore c k).core x).preReq = none := by
  by_cases h : pid c = pid x
  · rwa [State.core, State.setCore, ← h, alookup_ainsert, Option.getD_some]
  · rwa [core_setCore_ne _ _ (Ne.symm h)]

/-- A close with no binding, request or uncoupling pending puts the idle core in place and withdraws its leave requests. -/
theorem closeFiring_eq {s : State} {c : CoreId} (m : CloseMode) (hreq : (s.core c).preReq = none)
    (hpair : (s.core c).pairReq ≠ 2) (hbind : ∀ x ∈ (s.core c).chans, x.bind ≠ 2)
    (hprimary : (s.core c).pst = .primary → (s.core (coreAt (rowOf c) (s.core c).partner)).preReq = none) :
    closeFiring s c m =
      withdrawLeave (s.setCore c (idled (s.core c) (surfaceClosed (passed (s.core c) m)) m)) c := by
  have hpassed := passed_bind m hbind
  have hkeep : ∀ k, discardLanding (s.setCore c k) c (fun x => ([] : List Nat).contains (destCh x.dest)) = s.setCore c k := by
    intro k
    rw [discardLanding_none (p := fun x => ([] : List Nat).contains (destCh x.dest)) (fun _ _ => rfl), core_setCore,
      setCore_setCore]
  rw [closeFiring_steps]
  dsimp only
  rw [applyBindings_none _ hpassed, unboundNow_none hpassed, hkeep, if_neg hpair, hreq,
    if_neg (by decide : ¬ (none : Option Nat).isSome = true)]
  split
  · next hp =>
    refine takeIfIdle_none ?_
    rw [core_withdrawLeave]
    exact core_preReq_setCore ((passed_preReq _ m).trans hreq) (hprimary (eq_of_beq hp))
  · rfl

/-- `end` waits for the kiln operations of the core (R163). -/
theorem endOp_kiln {s : State} {c : CoreId} (h : (s.core c).kout ≠ 0) : endOp c s = .error (.wait s) := by
  rw [endOp, beq_false_of_ne h, Bool.false_and, untilD_false rfl]
  rfl

theorem endOp_closes {s : State} {c : CoreId} (h : (s.core c).kout = 0)
    (hroom : (s.core c).ctm + (s.core c).sbuf.length ≤ 65535) : endOp c s = .ok (closeFiring s c .normal) := by
  simp only [endOp, h, decide_eq_true hroom, beq_self_eq_true, Bool.and_self]
  rfl

/-- Settles O23: with nothing pending, the close leaves the idle core, whose fields follow by the mode. -/
theorem firingCloses : Obligations.FiringCloses := by
  unfold Obligations.FiringCloses
  refine ⟨fun s hr hout => ?waits, fun s hr hout hroom => ?closes, fun s c m ch => ?effect⟩
  case waits =>
    refine nativeOp_stop (cost := fun _ => 1) hr (localOnly_refl _) rfl (endOp_kiln ?_)
    rwa [issuedState_core, issued, issue_kout]
  case closes =>
    refine end0 rfl hr (endOp_closes ?_ ?_)
    · rwa [issuedState_core, issued, issue_kout]
    · rwa [issuedState_core, issued, issue_ctm, issue_sbuf]
  case effect =>
    intro k k' e hrun hreq hpair hbind hprimary
    have hk' : k' = idled k (surfaceClosed (passed k m)) m := by
      rw [show k' = (closeFiring s c m).core c from rfl, closeFiring_eq m hreq hpair hbind hprimary, core_withdrawLeave,
        core_setCore]
    rw [hk']
    clear_value k
    cases m with
    | normal => rw [passed_normal hrun]; exact ⟨rfl, rfl, rfl, rfl, rfl, rfl, rfl, rfl, rfl, rfl, rfl, rfl, rfl, rfl, rfl, rfl, rfl⟩
    | abort => rw [passed_abort hrun]; exact ⟨rfl, rfl, rfl, rfl, rfl, rfl, rfl, rfl, rfl, rfl, rfl, rfl, rfl, rfl, rfl, rfl, rfl⟩
    | drop => rw [passed_drop hrun]; exact ⟨rfl, rfl, rfl, rfl, rfl, rfl, rfl, rfl, rfl, rfl, rfl, rfl, rfl, rfl, rfl, rfl, rfl⟩

end Sys2Proof.Proofs.Closing
end

section
/-!
PROOFS of 05_scalar: budgets that run out, boundary traps, the fault writer and the code stream.
-/
namespace Sys2Proof.Proofs.TrapEvents

open Sys2Proof.Machine Sys2Proof.Safety

/-! ### Budgets and boundary traps (R103, R264, R268) -/

section
variable {s : State} {c : CoreId}

theorem not_served {k : Core} (hbar : k.gbarOut = none) (hgot : k.lgot = none) : k.served = false := by
  rw [Core.served, hbar, hgot]
  rfl

theorem budgetExpiry_taken (hrun : executes s c = true) (hleft : (s.core c).cyclesLeft = 0)
    (hserved : (s.core c).served = false) : budgetExpiry s c = trapBefore s c { cause := .budget } false := by
  rw [budgetExpiry, hrun, hleft, hserved, if_pos (by rfl)]

section
variable {t : Trap} {ts : List Trap} (hpend : (s.core c).bpend = t :: ts)
  (hidle : ((s.core c).inHandler || (s.core c).life != .active || (s.core c).pst == .checker || (s.core c).vpend ||
    (s.core c).served || s.health.stopped) = false)
include hpend hidle

/-- At a boundary the oldest pending trap is taken, or it waits with the change of WP (R235). -/
theorem boundaryTrap_due : boundaryTrap s c =
    if trapHeld s c t then waitCore s c (s.core c) (1 + s.stall)
    else trapBefore (s.setCore c { s.core c with bpend := ts }) c t true := by
  simp only [boundaryTrap, hpend, hidle, Bool.false_eq_true, if_false]

end

end

/-! ### The fault writer (R271) -/

/-- The words of a fault ring's descriptor name its next slot, and say whether the ring is full. -/
def ringSlot (w0 w1 w2 : Nat) : Nat := field w0 47 12 * 4096 + 64 * (field w1 31 0 % 2 ^ field w2 36 32)
def ringFull (w1 w2 : Nat) : Prop := (field w1 31 0 + 2 ^ 32 - field w1 63 32) % 2 ^ 32 = 2 ^ field w2 36 32

section
variable {s s1 s2 : State} {r : FRec} {desc w0 w1 w2 : Nat}

theorem raiseDrop_some
    (h : svcPutWord s r.ctx (desc + 16) (w2 - field w2 31 0 + min (field w2 31 0 + 1) 0xFFFFFFFF) = some s1) :
    raiseDrop s r.ctx desc w2 = s1 := by
  rw [raiseDrop, h, Option.getD_some]

variable (hdesc : field (heldWord s r.ctx 0x20) 47 0 = desc)
include hdesc

theorem writeRecord_lost (h : desc = 0 ∨ descReachable s r.ctx desc = false) : writeRecord s r = s := by
  rw [writeRecord]
  exact if_pos (by simpa [hdesc] using h)

variable (hne : desc ≠ 0) (hreach : descReachable s r.ctx desc = true) (h0 : svcWord s r.ctx desc 8 = some w0)
  (h1 : svcWord s r.ctx (desc + 8) 8 = some w1) (h2 : svcWord s r.ctx (desc + 16) 8 = some w2)
include hne hreach h0 h1 h2

theorem writeRecord_full (hfull : ringFull w1 w2) : writeRecord s r = raiseDrop s r.ctx desc w2 := by
  rw [ringFull] at hfull
  simp only [writeRecord, hdesc, hne, hreach, h0, h1, h2, Option.getD_some, hfull, Bool.not_true, Bool.false_eq_true, or_self,
    if_false, if_true]

theorem writeRecord_unmapped (hfull : ¬ ringFull w1 w2)
    (hslot : svcWrite s r.ctx (ringSlot w0 w1 w2) ((r.words.map (toBytes 8)).flatten) = none) :
    writeRecord s r = raiseDrop s r.ctx desc w2 := by
  rw [ringFull] at hfull
  rw [ringSlot] at hslot
  simp only [writeRecord, hdesc, hne, hreach, h0, h1, h2, Option.getD_some, hfull, hslot, Bool.not_true, Bool.false_eq_true,
    or_self, if_false]

theorem writeRecord_written (hfull : ¬ ringFull w1 w2)
    (hslot : svcWrite s r.ctx (ringSlot w0 w1 w2) ((r.words.map (toBytes 8)).flatten) = some s1)
    (hindex : svcWrite s1 r.ctx (desc + 8) (toBytes 4 ((field w1 31 0 + 1) % 2 ^ 32)) = some s2) : writeRecord s r = s2 := by
  rw [ringFull] at hfull
  rw [ringSlot] at hslot
  simp only [writeRecord, hdesc, hne, hreach, h0, h1, h2, Option.getD_some, hfull, hslot, hindex, Bool.not_true,
    Bool.false_eq_true, or_self, if_false]

end

theorem exec_faultRecordWrite {s : State} {r : FRec} {rs : List FRec} (h : s.frecs = r :: rs) :
    exec .faultRecordWrite s = .next (writeRecord { s with frecs := rs } r) := by
  show execFaultRecordWrite s = _
  simp only [execFaultRecordWrite, eventOp, h]

/-! ### The code stream (R278) -/

theorem streamCode_lands {s s1 s2 : State} {ctx cbase n : Nat} {bs : List Byte} (hn : svcWord s ctx (cbase + 8) 4 = some n)
    (h1 : svcWrite s ctx (cbase + n) bs = some s1)
    (h2 : svcWrite s1 ctx (cbase + 8) (toBytes 4 ((n + bs.length) % 2 ^ 32)) = some s2) : streamCode s ctx cbase bs = s2 := by
  simp only [streamCode, hn, h1, h2, Option.getD_some]

/-- Settles O34, event by event. -/
theorem trapAndCodeEvents : Obligations.TrapAndCodeEvents := by
  unfold Obligations.TrapAndCodeEvents
  intro s c t ts r rs p
  refine ⟨fun hc hrun hleft hbar hgot => ?budget, fun hc hpend hfree hlife hpst hvec hstop hbar hgot => ?boundary,
    fun w0 w1 w2 s1 s2 hrec => ?record, fun n s1 s2 hn h1 h2 => congrArg _ (streamCode_lands hn h1 h2)⟩
  case budget =>
    subst hc
    exact congrArg _ (budgetExpiry_taken hrun hleft (not_served hbar hgot))
  case boundary =>
    subst hc
    have hdue := boundaryTrap_due hpend (by
      rw [hfree, hlife, beq_false_of_ne hpst, hvec, hstop, not_served hbar hgot]
      rfl)
    intro s1' p1
    exact ⟨fun hheld => congrArg _ (hdue.trans (if_neg (by rw [hheld]; exact Bool.false_ne_true))),
      fun hheld => congrArg _ (hdue.trans (if_pos hheld))⟩
  case record =>
    intro s0 desc pi size slot full drops
    rw [exec_faultRecordWrite hrec]
    refine ⟨fun hlost => congrArg _ (writeRecord_lost rfl hlost),
      fun hne hreach h0 h1 h2 => ⟨fun hfull hslot hindex => ?_, fun hdrop hput => ?_⟩⟩
    · exact congrArg _ (writeRecord_written rfl hne hreach h0 h1 h2 hfull hslot hindex)
    · refine congrArg _ (Eq.trans ?_ (raiseDrop_some hput))
      by_cases hfull : full
      · exact writeRecord_full rfl hne hreach h0 h1 h2 hfull
      · exact writeRecord_unmapped rfl hne hreach h0 h1 h2 hfull (hdrop.resolve_left hfull)

end Sys2Proof.Proofs.TrapEvents
end

section
/-!
PROOFS of 06_vector: lanes under the mask, lane-wise and fused arithmetic, comparisons and reductions, moves of lanes, local
memory, conversions and histograms.
-/
namespace Sys2Proof.Proofs.Vector

open Sys2Proof.Machine Sys2Proof.Safety Sys2Proof.Proofs.Scalar

/-! ### A vector instruction whose meaning has answered -/

section
variable {k : Core} {fl : Nat} {after : Core → Except Stop Core}

theorem raised_quiet (hq : Safety.quiet k fl) : raiseFlags k fl >>= after = after (orSticky k fl) := by
  rw [raiseFlags_ok hq]
  rfl

theorem raised_trap (hq : ¬ Safety.quiet k fl) : raiseFlags k fl >>= after = .error (.trap (flagTrap k fl)) := by
  rw [raiseFlags_flagTrap hq]
  rfl

end

section
variable {i : Instr} {cost : Core → Nat} {m : Core → Except Stop Core} {s : State} {k : Core} {p : Nat → Prop} {t : Trap}

theorem completesV_of_vector (hexec : exec i s = vectorOp i cost m s) (hready : ready i s)
    (hmeans : m (issued i (cost (s.core s.cur)) s) = .ok k)
    (heffect : LocalEffect (issued i (cost (s.core s.cur)) s) k p) : completesV i (cost (s.core s.cur)) s k p :=
  ⟨hexec.trans (vectorOp_ok hready hmeans), heffect⟩

theorem traps_of_vector (hexec : exec i s = vectorOp i cost m s) (hready : ready i s)
    (hmeans : m (issued i (cost (s.core s.cur)) s) = .error (.trap t)) : traps i s t :=
  hexec.trans (vectorOp_trap hready hmeans)

/-- A meaning that raises flags before its results: an enabled trap of theirs decides (R66). -/
theorem flags_decide {kp k' : Core} {fl : Nat} {after : Core → Except Stop Core} (hexec : exec i s = vectorOp i cost m s)
    (hready : ready i s) :
    let k := issued i (cost (s.core s.cur)) s
    m k = raiseFlags kp fl >>= after → (∀ k', after (orSticky kp fl) = .ok k' → LocalEffect k k' p) →
    (Safety.quiet kp fl → after (orSticky kp fl) = .ok k' → completesV i (cost (s.core s.cur)) s k' p) ∧
    (¬ Safety.quiet kp fl → traps i s (flagTrap kp fl)) :=
  fun hmeans heffect =>
    ⟨fun hq hafter => completesV_of_vector hexec hready (hmeans.trans ((raised_quiet hq).trans hafter)) (heffect _ hafter),
      fun hq => traps_of_vector hexec hready (hmeans.trans (raised_trap hq))⟩

/-- A meaning that comes to `finishLanes` (R133). -/
theorem lanewise {kp k4 : Core} {n count : Nat} {l : Loc} {r : List Nat × Nat × Nat} {used : List Spec}
    (hexec : exec i s = vectorOp i cost m s) (hready : ready i s) (hn : 0 < n / 8) (hlen : r.1.length = count) :
    let k := issued i (cost (s.core s.cur)) s
    m k = finishLanes kp k n l r → LocalEffect k kp (bumped k used) →
    (Safety.quiet kp r.2.1 → storeLanes (flagged kp r) (n / 8) l (active k) 0 r.1 = .ok k4 →
      completesV i (cost (s.core s.cur)) s k4
        (fun z => bumped k used z ∨ flagBytes k z ∨ lanesAt k l (n / 8) count (active k) z)) ∧
    (¬ Safety.quiet kp r.2.1 → traps i s (flagTrap kp r.2.1)) :=
  fun hmeans heffect => flags_decide hexec hready hmeans
    (fun _ hstore => effect_finish heffect hn (Nat.le_of_eq hlen) hstore)

end

/-- The elements of a vector type are whole bytes. -/
theorem vfmt_size (t : VType) : 0 < fmtBits (vfmt t) / 8 := bits_size _ (vfmt_bits t)

/-- The active lanes of a vector type, in ascending order. -/
abbrev activeLanes (t : VType) (c : Core) : List Nat := (List.range (512 / fmtBits (vfmt t))).filter (active c)

theorem runLanes_range_length (c : Core) (g : Nat → Nat → Rnd) (count d : Nat) :
    (runLanes c g (List.range count) d).1.length = count := by
  rw [runLanes_length, List.length_range]

/-! ### Lanes under the mask (R57, R132, R133) -/

section
variable {c : Core} {g : Nat → Nat → Rnd} {i : Nat} {l : List Nat} {d : Nat}

theorem runLanes_cons_active (h : active c i = true) : runLanes c g (i :: l) d =
    let r := g (coreDraw c d) i
    let rest := runLanes c g l (if r.drew then d + 1 else d)
    (r.code :: rest.1, natOr r.flags rest.2.1, rest.2.2) := by
  rw [runLanes, if_pos h]

theorem runLanes_cons_inactive (h : active c i = false) : runLanes c g (i :: l) d =
    (0 :: (runLanes c g l d).1, (runLanes c g l d).2) := by
  rw [runLanes, if_neg (by rw [h]; exact Bool.false_ne_true)]

theorem runLanes_result_inactive {j : Nat} (hj : j < l.length) (h : active c (nth l j 0) = false) :
    nth (runLanes c g l d).1 j 0 = 0 := by
  induction l generalizing d j with
  | nil => exact absurd hj (Nat.not_lt_zero j)
  | cons i l ih =>
    cases j with
    | zero => rw [runLanes_cons_inactive (i := i) h]; rfl
    | succ j =>
      have hj' := Nat.lt_of_succ_lt_succ hj
      cases hi : active c i with
      | false => rw [runLanes_cons_inactive hi]; exact ih hj' h
      | true => rw [runLanes_cons_active hi]; exact ih hj' h

theorem runLanes_none_active (h : ∀ i ∈ l, active c i = false) : (runLanes c g l d).2 = (0, d) := by
  induction l with
  | nil => rfl
  | cons i l ih =>
    rw [List.forall_mem_cons] at h
    rw [runLanes_cons_inactive h.1]
    exact ih h.2

section
variable (hdraw : ∀ i u, (g u i).drew = false)
include hdraw

/-- A lane that takes no draw leaves the index to the next lane. -/
theorem runLanes_cons_undrawn (h : active c i = true) : runLanes c g (i :: l) d =
    ((g (coreDraw c d) i).code :: (runLanes c g l d).1, natOr (g (coreDraw c d) i).flags (runLanes c g l d).2.1,
      (runLanes c g l d).2.2) := by
  simp only [runLanes_cons_active h, hdraw, Bool.false_eq_true, if_false]

theorem runLanes_undrawn_index : (runLanes c g l d).2.2 = d := by
  induction l with
  | nil => rfl
  | cons i l ih =>
    cases hi : active c i with
    | false => rw [runLanes_cons_inactive hi]; exact ih
    | true => rw [runLanes_cons_undrawn hdraw hi]; exact ih

theorem runLanes_undrawn_result {j : Nat} (hj : j < l.length) (h : active c (nth l j 0) = true) :
    ∃ e, nth (runLanes c g l d).1 j 0 = (g e (nth l j 0)).code := by
  induction l generalizing j with
  | nil => exact absurd hj (Nat.not_lt_zero j)
  | cons i l ih =>
    cases j with
    | zero => rw [runLanes_cons_undrawn (i := i) hdraw h]; exact ⟨_, rfl⟩
    | succ j =>
      have hj' := Nat.lt_of_succ_lt_succ hj
      cases hi : active c i with
      | false => rw [runLanes_cons_inactive hi]; exact ih hj' h
      | true => rw [runLanes_cons_undrawn hdraw hi]; exact ih hj' h

end

end

/-! ### Two sources (R134-R136, R139) -/

section
variable {t : VType} {d a b : Spec} {g : Fmt → Nat → Nat → Nat → Rnd} {c k1 k2 k3 : Core} {x y : Nat} {l : Loc}

theorem vec2_eq (h1 : readVec c (vfmt (chooseV c t)) a = .ok (x, k1)) (h2 : readVec k1 (vfmt (chooseV c t)) b = .ok (y, k2))
    (h3 : vectorLoc k2 d = .ok (l, k3)) :
    let f := vfmt (chooseV c t)
    let n := fmtBits f
    vec2 t d a b g c = finishLanes k3 c n l
      (runLanes c (fun u j => g f u (lane n x j) (lane n y j)) (List.range (512 / n)) (drawIndex c)) := by
  simp only [vec2, h1, h2, h3, bind, Except.bind]
  rfl

/-- Two sources read and a place found change at most pointer words. -/
theorem effect_sources_place {f h : Fmt} (h1 : readVec c f a = .ok (x, k1)) (h2 : readVec k1 h b = .ok (y, k2))
    (h3 : vectorLoc k2 d = .ok (l, k3)) : LocalEffect c k3 (bumped c [a, b, d]) :=
  effect_place (effect_vec (effect_readVec h1) h2) h3

end

theorem vecTwo_means {p} (hp : p ∈ vecTwo) (t : VType) (d a b : Spec) (s : State) :
    exec (p.1 t d a b) s = vectorOp (p.1 t d a b) one (vec2 t d a b p.2) s := by
  simp only [vecTwo, List.mem_cons, List.not_mem_nil, or_false] at hp
  rcases hp with rfl | rfl | rfl | rfl | rfl | rfl | rfl | rfl | rfl | rfl | rfl <;> rfl

theorem vecTwoRnd_means {p} (hp : p ∈ vecTwoRnd) (t : VType) (rm : RMode) (d a b : Spec) (s : State) :
    exec (p.1 t rm d a b) s = vectorOp (p.1 t rm d a b) one (vec2 t d a b (p.2 rm)) s := by
  simp only [vecTwoRnd, List.mem_cons, List.not_mem_nil, or_false] at hp
  rcases hp with rfl | rfl | rfl <;> rfl

/-- Settles O10: the lanes by induction over them, then each instruction as a run of its lanes. -/
theorem vectorTwoSource : Obligations.VectorTwoSource := by
  unfold Obligations.VectorTwoSource
  refine ⟨fun c g l d => ?lanes, fun i t d a b g s x y l k1 k2 k3 k4 hi => ?instruction⟩
  case lanes =>
    exact ⟨runLanes_length c g l d, fun j => runLanes_result_inactive, runLanes_none_active,
      fun hdraw => ⟨runLanes_undrawn_index hdraw, fun j => runLanes_undrawn_result hdraw⟩⟩
  case instruction =>
    intro k f n r hr h1 h2 h3
    have hexec : exec i s = vectorOp i one (vec2 t d a b g) s := by
      rcases hi with ⟨p, hp, rfl, rfl⟩ | ⟨p, hp, rm, rfl, rfl⟩
      · exact vecTwo_means hp ..
      · exact vecTwoRnd_means hp ..
    exact lanewise hexec hr (vfmt_size _) (runLanes_range_length ..) (vec2_eq h1 h2 h3) (effect_sources_place h1 h2 h3)

/-! ### Fused multiply and add (R135) -/

theorem vec3_eq {t : VType} {d a b : Spec} {g : Fmt → Nat → Nat → Nat → Nat → Rnd} {c k1 k2 k3 : Core} {x y z : Nat}
    {l : Loc}
    (h1 : readVec c (vfmt (chooseV c t)) a = .ok (x, k1)) (h2 : readVec k1 (vfmt (chooseV c t)) b = .ok (y, k2))
    (h3 : vectorLoc k2 d = .ok (l, k3)) (h4 : loadVec k3 l = .ok z) :
    let f := vfmt (chooseV c t)
    let n := fmtBits f
    vec3 t d a b g c = finishLanes k3 c n l
      (runLanes c (fun u j => g f u (lane n x j) (lane n y j) (lane n z j)) (List.range (512 / n)) (drawIndex c)) := by
  simp only [vec3, h1, h2, h3, h4, bind, Except.bind]
  rfl

/-- Settles O11: the place of D is read before the lanes run and written after them. -/
theorem vectorFused : Obligations.VectorFused := by
  unfold Obligations.VectorFused
  intro i t d a b sub rm s x y z l k1 k2 k3 k4 hi k f n r hr h1 h2 h3 h4
  have hexec : exec i s = vectorOp i one (vec3 t d a b (fmaLane sub rm)) s := by
    rcases hi with ⟨rfl, rfl⟩ | rfl
    · cases sub <;> rfl
    · cases sub <;> rfl
  exact lanewise hexec hr (vfmt_size _) (runLanes_range_length ..) (vec3_eq h1 h2 h3 h4) (effect_sources_place h1 h2 h3)

/-! ### One source (R134, R136, R142) -/

theorem vec1_eq {t : VType} {d a : Spec} {g : Fmt → Nat → Nat → Rnd} {c k1 k2 : Core} {x : Nat} {l : Loc}
    (h1 : readVec c (vfmt (chooseV c t)) a = .ok (x, k1)) (h2 : vectorLoc k1 d = .ok (l, k2)) :
    let f := vfmt (chooseV c t)
    let n := fmtBits f
    vec1 t d a g c = finishLanes k2 c n l
      (runLanes c (fun u j => g f u (lane n x j)) (List.range (512 / n)) (drawIndex c)) := by
  simp only [vec1, h1, h2, bind, Except.bind]
  rfl

theorem vecOne_means {p} (hp : p ∈ vecOne) (t : VType) (d a : Spec) (s : State) :
    exec (p.1 t d a) s = vectorOp (p.1 t d a) one (vec1 t d a p.2) s := by
  simp only [vecOne, List.mem_cons, List.not_mem_nil, or_false] at hp
  rcases hp with rfl | rfl | rfl <;> rfl

theorem vecIterShort_means {p} (hp : p ∈ vecIterShort) (t : VType) (d a : Spec) (s : State) :
    exec (p.1 t d a) s = vectorOp (p.1 t d a) (fun k => iterCost p.2 k t) (vecIter p.2 t .rne d a) s := by
  simp only [vecIterShort, List.mem_cons, List.not_mem_nil, or_false] at hp
  rcases hp with rfl | rfl | rfl | rfl <;> rfl

theorem vecIterRnd_means {p} (hp : p ∈ vecIterRnd) (t : VType) (rm : RMode) (d a : Spec) (s : State) :
    exec (p.1 t rm d a) s = vectorOp (p.1 t rm d a) (fun k => iterCost p.2 k t) (vecIter p.2 t rm d a) s := by
  simp only [vecIterRnd, List.mem_cons, List.not_mem_nil, or_false] at hp
  rcases hp with rfl | rfl | rfl | rfl <;> rfl

/-- Settles O12: an iterative function is a lane-wise instruction whose lane counts its iterations on the issued core. -/
theorem vectorOneSource : Obligations.VectorOneSource := by
  unfold Obligations.VectorOneSource
  intro i t d a g s cost x l k1 k2 k3 hi k f n r hr h1 h2
  obtain ⟨costs, hcost, hexec⟩ : ∃ costs : Core → Nat, costs (s.core s.cur) = cost ∧
      exec i s = vectorOp i costs (fun c => vec1 t d a (g c) c) s := by
    rcases hi with ⟨rfl, p, hp, rfl, rfl⟩ | ⟨p, hp, rfl, rfl, rfl⟩ | ⟨p, hp, rm, rfl, rfl, rfl⟩
    · exact ⟨one, rfl, vecOne_means hp ..⟩
    · exact ⟨fun k => iterCost p.2 k t, rfl, vecIterShort_means hp ..⟩
    · exact ⟨fun k => iterCost p.2 k t, rfl, vecIterRnd_means hp ..⟩
  subst hcost
  exact lanewise hexec hr (vfmt_size _) (runLanes_range_length ..) (vec1_eq h1 h2) (effect_place (effect_readVec h1) h2)

/-! ### Comparisons and reductions (R71, R137, R143) -/

section
variable {cc : Cond} {t : VType} {d a b : Spec} {c k1 k2 : Core} {x y : Nat}

theorem vecCmp_eq (h1 : readVec c (vfmt t) a = .ok (x, k1)) (h2 : readVec k1 (vfmt t) b = .ok (y, k2)) :
    let f := vfmt t
    let n := fmtBits f
    let on := activeLanes t c
    vecCmp cc t d a b c =
      raiseFlags k2 (on.foldl (fun w j => natOr w (cmpLane cc f (lane n x j) (lane n y j)).2) 0) >>= fun k =>
        writeDst k .z64 d (on.foldl (fun w j => if (cmpLane cc f (lane n x j) (lane n y j)).1 then w + 2 ^ j else w) 0) := by
  simp only [vecCmp, h1, h2, bind, Except.bind]
  rfl

theorem vecReduce_eq {o : IterFn} {node : Fmt → Nat → Nat → Nat → Rnd}
    (h1 : readVec c (vfmt (chooseV c t)) a = .ok (x, k1)) :
    let f := vfmt (chooseV c t)
    let n := fmtBits f
    let r := treeReduce (node f) (coreDraw c) (Nat.log2 (512 / n))
      ((List.range (512 / n)).map fun j => if active c j then lane n x j else reduceIdentity o f) 0 (drawIndex c)
    vecReduce o node t d a c = raiseFlags k1 r.2.1 >>= fun k => writeDst (setDrawIndex k r.2.2) f d r.1 := by
  simp only [vecReduce, h1, bind, Except.bind]
  rfl

end

/-- Table 6-3: the values of inactive lanes, by the number that the statements give each reduction. -/
theorem reduceIdentity_sum (f : Fmt) : reduceIdentity .rcp f = neutral 0 f := rfl

theorem reduceIdentity_max (f : Fmt) : reduceIdentity .rsq f = neutral 1 f := by
  cases hf : f.isInt <;> simp [reduceIdentity, neutral, fmtFloat, hf]

theorem reduceIdentity_min (f : Fmt) : reduceIdentity .exp2 f = neutral 2 f := by
  cases hf : f.isInt <;> simp [reduceIdentity, neutral, fmtFloat, hf]

/-- Settles O13: flags of the lanes first, then the write of the scalar. -/
theorem vectorToScalar : Obligations.VectorToScalar := by
  unfold Obligations.VectorToScalar
  refine fun t d a b s x k1 => ⟨fun cc y k2 k3 => ?compare, fun i want node rm k2 hi => ?reduce⟩
  case compare =>
    intro i k f n on fl w hr h1 h2
    exact flags_decide (cost := one) rfl hr (vecCmp_eq h1 h2)
      (fun _ hw => effect_dst_or (effect_orSticky fl (effect_vec (effect_readVec h1) h2)) hw)
  case reduce =>
    intro k f n vs r hr h1
    obtain ⟨o, hexec, hid⟩ : ∃ o, exec i s = vectorOp i one (vecReduce o node t d a) s ∧
        ∀ f, reduceIdentity o f = neutral want f := by
      rcases hi with ⟨rfl, rfl, rfl⟩ | ⟨rfl, rfl, rfl⟩ | ⟨rfl, rfl, rfl⟩ | ⟨rfl, rfl, rfl⟩
      · exact ⟨.rcp, rfl, reduceIdentity_sum⟩
      · exact ⟨.rcp, rfl, reduceIdentity_sum⟩
      · exact ⟨.rsq, rfl, reduceIdentity_max⟩
      · exact ⟨.exp2, rfl, reduceIdentity_min⟩
    have hmeans := vecReduce_eq (o := o) (node := node) (d := d) h1
    simp only [hid] at hmeans
    exact flags_decide hexec hr hmeans (fun _ hw => flag_dst (r := ([], r.2)) (effect_readVec h1) hw)

/-! ### Moves of lanes (R138, R144, R147, R149) -/

section
variable {t : VType} {d a b : Spec} {c k1 k2 k3 : Core} {x y : Nat} {l : Loc}

theorem vecSel_eq (h1 : readVec c (vfmt t) a = .ok (x, k1)) (h2 : readVec k1 (vfmt t) b = .ok (y, k2))
    (h3 : vectorLoc k2 d = .ok (l, k3)) :
    let n := fmtBits (vfmt t)
    vecSel t d a b c = storeLanes k3 (n / 8) l (fun _ => true) 0
      ((List.range (512 / n)).map fun j => if active c j then lane n x j else lane n y j) := by
  simp only [vecSel, h1, h2, h3, bind, Except.bind]
  rfl

theorem vecPerm_eq (h1 : readVec c (vfmt t) a = .ok (x, k1))
    (h2 : readVec k1 (if (vfmt t).isInt then vfmt t else if fmtBits (vfmt t) = 32 then .z32 else .z16) b = .ok (y, k2))
    (h3 : vectorLoc k2 d = .ok (l, k3)) :
    let n := fmtBits (vfmt t)
    vecPerm t d a b c = storeLanes k3 (n / 8) l (active c) 0
      ((List.range (512 / n)).map fun j => lane n x (lane n y j % (512 / n))) := by
  simp only [vecPerm, h1, h2, h3, bind, Except.bind]
  rfl

theorem vecBcast_eq (h1 : readSrc c (vfmt t) a = .ok (x, k1)) (h3 : vectorLoc k1 d = .ok (l, k3)) :
    let n := fmtBits (vfmt t)
    vecBcast t d a c = storeLanes k3 (n / 8) l (active c) 0 (List.replicate (512 / n) x) := by
  simp only [vecBcast, h1, h3, bind, Except.bind]
  rfl

theorem vecIns_eq (h1 : readSrc c (vfmt t) a = .ok (x, k1)) (h2 : readSrc k1 .z64 b = .ok (y, k2))
    (h3 : vectorLoc k2 d = .ok (l, k3)) :
    let n := fmtBits (vfmt t)
    vecIns t d a b c = storeLanes k3 (n / 8) l (fun j => j == y % (512 / n)) 0 (List.replicate (512 / n) x) := by
  simp only [vecIns, readZ, h1, h2, h3, bind, Except.bind]
  rfl

/-- The key of a pattern under the word y (R147): bit 0 of y asks for the descending order. -/
def sortKey (f : Fmt) (y v : Nat) : Nat :=
  let n := fmtBits f
  let u := if f.isInt then (if fmtSigned f then natXor v (2 ^ (n - 1)) else v)
    else if bitAt v (n - 1) then natNot n v else natXor v (2 ^ (n - 1))
  if bitAt y 0 then natNot n u else u

theorem vecKey_eq (h1 : readVec c (vfmt t) a = .ok (x, k1)) (h2 : readSrc k1 .z64 b = .ok (y, k2))
    (h3 : vectorLoc k2 d = .ok (l, k3)) :
    let n := fmtBits (vfmt t)
    vecKey t d a b c = storeLanes k3 (n / 8) l (active c) 0
      ((List.range (512 / n)).map fun j => sortKey (vfmt t) y (lane n x j)) := by
  simp only [vecKey, readZ, h1, h2, h3, bind, Except.bind, lanesOf, List.map_map]
  cases hf : (vfmt t).isInt <;> simp [hf, fmtFloat, sortKey, Function.comp_def]

theorem vecCompress_eq (h1 : readVec c (vfmt t) a = .ok (x, k1)) (h3 : vectorLoc k1 d = .ok (l, k3)) :
    let n := fmtBits (vfmt t)
    let on := ((List.range (512 / n)).filter (active c)).map (lane n x)
    vecCompress t d a c = storeLanes k3 (n / 8) l (fun _ => true) 0 (on ++ List.replicate (512 / n - on.length) 0) := by
  simp only [vecCompress, h1, h3, bind, Except.bind]
  rfl

theorem vecExt_eq (h1 : readVec c (vfmt t) a = .ok (x, k1)) (h2 : readSrc k1 .z64 b = .ok (y, k2)) :
    let n := fmtBits (vfmt t)
    vecExt t d a b c = writeDst k2 (vfmt t) d (lane n x (y % (512 / n))) := by
  simp only [vecExt, readZ, h1, h2, bind, Except.bind]
  rfl

theorem vecCount_eq (h1 : readVec c (vfmt t) a = .ok (x, k1)) (h2 : readSrc k1 (vfmt t) b = .ok (y, k2)) :
    let n := fmtBits (vfmt t)
    vecCount t d a b c =
      writeDst k2 .z64 d ((List.range (512 / n)).filter fun j => active c j && lane n x j == y).length := by
  simp only [vecCount, h1, h2, bind, Except.bind]
  rfl

end

/-- As many lanes as the selected ones and the zeros after them. -/
theorem compressed_length (p : Nat → Bool) (g : Nat → Nat) (count : Nat) :
    let on := ((List.range count).filter p).map g
    (on ++ List.replicate (count - on.length) 0).length = count := by
  intro on
  have hle : on.length ≤ count := by
    simpa [on] using List.length_filter_le p (List.range count)
  rw [List.length_append, List.length_replicate, Nat.add_sub_cancel' hle]

/-- Settles O14: a move of lanes is one store of lanes after its sources and its place. -/
theorem vectorMoves : Obligations.VectorMoves := by
  unfold Obligations.VectorMoves
  intro t d a b s x y l k1 k2 k3 k4 f n count lanes put idx key
  have hlanes (g : Nat → Nat) : (lanes g).length ≤ count := by simp [lanes]
  have hcopies : (List.replicate count x).length ≤ count := by simp
  have hn : 0 < n / 8 := vfmt_size t
  refine ⟨?sel, ?perm, ?bcast, ?ins, ?key, ?compress, ?ext, ?count⟩
  case sel =>
    intro i k hr h1 h2 h3 h4
    exact put_ok rfl hr hn (effect_vec (effect_readVec h1) h2) (hlanes _) h3 h4 ((vecSel_eq h1 h2 h3).trans h4)
  case perm =>
    intro i k hr h1 h2 h3 h4
    exact put_ok rfl hr hn (effect_vec (effect_readVec h1) h2) (hlanes _) h3 h4 ((vecPerm_eq h1 h2 h3).trans h4)
  case bcast =>
    intro i k hr h1 h3 h4
    exact put_ok rfl hr hn (src1 h1) hcopies h3 h4 ((vecBcast_eq h1 h3).trans h4)
  case ins =>
    intro i k hr h1 h2 h3 h4
    exact put_ok rfl hr hn (src2 h1 h2) hcopies h3 h4 ((vecIns_eq h1 h2 h3).trans h4)
  case key =>
    intro i k hr h1 h2 h3 h4
    exact put_ok rfl hr hn (effect_src (effect_readVec h1) h2) (hlanes _) h3 h4 ((vecKey_eq h1 h2 h3).trans h4)
  case compress =>
    intro i k on hr h1 h3 h4
    exact put_ok rfl hr hn (effect_readVec h1) (Nat.le_of_eq (compressed_length ..)) h3 h4 ((vecCompress_eq h1 h3).trans h4)
  case ext =>
    intro i k hr h1 h2 h3
    exact completesV_of_vector (cost := one) rfl hr ((vecExt_eq h1 h2).trans h3)
      (effect_dst (effect_src (effect_readVec h1) h2) (fun _ hx => hx) h3)
  case count =>
    intro i k hr h1 h2 h3
    exact completesV_of_vector (cost := one) rfl hr ((vecCount_eq h1 h2).trans h3)
      (effect_dst (effect_src (effect_readVec h1) h2) (fun _ hx => hx) h3)

/-! ### Local memory (R83, R145, R146) -/

theorem localEffect_top {c k : Core} {p : Nat → Prop} (h : LocalEffect c k p) : k.top = c.top := by
  rw [Core.top, Core.top, localEffect_cls h]

theorem effect_or {c k k' : Core} {p q : Nat → Prop} (h1 : LocalEffect c k p) (h2 : LocalEffect k k' q) :
    LocalEffect c k' (fun x => p x ∨ q x) := (h1.mono (fun _ => Or.inl)).trans (h2.mono (fun _ => Or.inr))

theorem loadLanes_length {c : Core} {n y : Nat} {base : Int} {l vs : List Nat} (h : loadLanes c n base y l = .ok vs) :
    vs.length = l.length := by
  induction l generalizing vs with
  | nil => injection h with h; rw [← h]
  | cons i l ih =>
    obtain ⟨v, hrest⟩ : ∃ v, (loadLanes c n base y l >>= fun ws => .ok (v :: ws)) = .ok vs := by
      rw [loadLanes] at h
      split at h
      · obtain ⟨v, -, h⟩ := bind_ok h
        exact ⟨v, h⟩
      · exact ⟨0, h⟩
    obtain ⟨ws, hws, hcons⟩ := bind_ok hrest
    injection hcons with hcons
    rw [← hcons, List.length_cons, List.length_cons, ih hws]

section
variable {t : VType} {d a b : Spec} {c k1 k2 k3 : Core} {l : Loc}

/-- `vld` and `vst` stop where their computed address does. -/
theorem vecLd_address {e : Stop} (h : computedAddr c a b 64 = .error e) : vecLd t d a b c = .error e := by
  simp [vecLd, h, bind, Except.bind]

theorem vecSt_address {e : Stop} (h : computedAddr c a b 64 = .error e) : vecSt t d a b c = .error e := by
  simp [vecSt, h, bind, Except.bind]

theorem vecLd_eq {z : Nat} (h1 : computedAddr c a b 64 = .ok (z, k2)) (hready : unreadyAt k2 z 64 = false)
    (h3 : vectorLoc k2 d = .ok (l, k3)) :
    let n := fmtBits (vfmt t)
    vecLd t d a b c = storeLanes k3 (n / 8) l (active c) 0 (lanesOf n (readLocal k2 z 64)) := by
  simp only [vecLd, h1, loadAt_ok hready, h3, bind, Except.bind]

theorem vecSt_eq {z v : Nat} (h1 : computedAddr c a b 64 = .ok (z, k2)) (h3 : readVec k2 (vfmt t) d = .ok (v, k3)) :
    let n := fmtBits (vfmt t)
    vecSt t d a b c = storeLanes k3 (n / 8) (.at z) (active c) 0 (lanesOf n v) := by
  simp only [vecSt, h1, h3, bind, Except.bind]

section
variable {x : Int} {v : Nat} (h1 : readS c a = .ok (x, k1)) (h2 : readVec k1 (indexFmt (vfmt t)) b = .ok (v, k2))
include h1 h2

/-- `vldx` and `vstx` stop where the check of a lane's address does. -/
theorem vecLdx_check {e : Stop} (hcheck : checkLanes k2 (fmtBits (vfmt t)) x v (activeLanes t c) = .error e) :
    vecLdx t d a b c = .error e := by
  rw [activeLanes, ← laneCount] at hcheck
  simp [vecLdx, h1, h2, hcheck, bind, Except.bind]

theorem vecStx_check {e : Stop} (hcheck : checkLanes k2 (fmtBits (vfmt t)) x v (activeLanes t c) = .error e) :
    vecStx t d a b c = .error e := by
  rw [activeLanes, ← laneCount] at hcheck
  simp [vecStx, h1, h2, hcheck, bind, Except.bind]

theorem vecLdx_eq {vs : List Nat} (hcheck : checkLanes k2 (fmtBits (vfmt t)) x v (activeLanes t c) = .ok ())
    (hload : loadLanes k2 (fmtBits (vfmt t)) x v (List.range (512 / fmtBits (vfmt t))) = .ok vs)
    (h3 : vectorLoc k2 d = .ok (l, k3)) :
    vecLdx t d a b c = storeLanes k3 (fmtBits (vfmt t) / 8) l (active c) 0 vs := by
  rw [activeLanes, ← laneCount] at hcheck
  rw [← laneCount] at hload
  simp only [vecLdx, h1, h2, hcheck, hload, h3, bind, Except.bind]

theorem vecStx_eq {u : Nat} (hcheck : checkLanes k2 (fmtBits (vfmt t)) x v (activeLanes t c) = .ok ())
    (h3 : readVec k2 (vfmt t) d = .ok (u, k3)) :
    vecStx t d a b c = scatterLanes (fmtBits (vfmt t)) x v u (activeLanes t c) k3 := by
  rw [activeLanes, ← laneCount] at hcheck
  simp only [vecStx, h1, h2, hcheck, h3, bind, Except.bind]
  rfl

end

end

/-- The first active lane whose address fails its check gives the trap, for an instruction that stops where the checks do. -/
theorem lane_traps {i : Instr} {cost : Core → Nat} {m : Core → Except Stop Core} {s : State} {k2 : Core} {n v j count : Nat}
    {x : Int} (hexec : exec i s = vectorOp i cost m s) (hready : ready i s) (hj : j < count) :
    let k := issued i (cost (s.core s.cur)) s
    (∀ e, checkLanes k2 n x v ((List.range count).filter (active k)) = .error e → m k = .error e) → active k j = true →
    (∀ q, q < j → active k q = true → lanePresent k2 n x v q ∧ (laneAddr n x v q).toNat % (n / 8) = 0) →
    (¬ lanePresent k2 n x v j → traps i s { cause := .fabric, addr := toPattern 64 (laneAddr n x v j) }) ∧
    (lanePresent k2 n x v j → (laneAddr n x v j).toNat % (n / 8) ≠ 0 →
      traps i s { cause := .align, addr := (laneAddr n x v j).toNat }) := by
  intro k hstop hact hbefore
  obtain ⟨rest, hcut⟩ := filter_range_cut (active k) hj hact
  rw [hcut] at hstop
  have hpass : ∀ q ∈ (List.range j).filter (active k),
      lanePresent k2 n x v q ∧ (laneAddr n x v q).toNat % (n / 8) = 0 := by
    intro q hq
    obtain ⟨hrange, hon⟩ := List.mem_filter.1 hq
    exact hbefore q (List.mem_range.1 hrange) hon
  obtain ⟨hfabric, halign⟩ := checkLanes_fails (rest := rest) hpass
  exact ⟨fun hout => traps_of_vector hexec hready (hstop _ (hfabric hout)),
    fun hin hal => traps_of_vector hexec hready (hstop _ (halign hin hal))⟩

/-- Settles O15: one computed address for `vld` and `vst`, one check for each active lane of `vldx` and `vstx`. -/
theorem vectorMemory : Obligations.VectorMemory := by
  unfold Obligations.VectorMemory
  intro t d a b s x y l k1 k2 k3 k4 f n count z inRange
  have hn : 0 < n / 8 := vfmt_size t
  refine ⟨?load, fun v => ?store, fun v vs => ?gather, fun v u => ?scatter, fun i hi hr h1 h2 => ?addressTraps,
    fun i hi v j => ?laneTraps⟩
  case load =>
    intro i k hr h1 h2 ⟨hpos, htop, hmax, hal⟩ hready h3 h4
    have haddr := computedAddr_ok h1 h2 (n := 64) (by decide) hpos htop hmax hal
    exact completesV_of_vector (cost := one) rfl hr ((vecLd_eq haddr hready h3).trans h4)
      (effect_lanes (effect_place (effect_readS_two h1 h2) h3) hn (Nat.le_of_eq (lanesOf_length ..)) h4)
  case store =>
    intro i k hr h1 h2 ⟨hpos, htop, hmax, hal⟩ h3 h4
    have haddr := computedAddr_ok h1 h2 (n := 64) (by decide) hpos htop hmax hal
    exact completesV_of_vector (cost := one) rfl hr ((vecSt_eq haddr h3).trans h4)
      (effect_lanes (effect_vec (effect_readS_two h1 h2) h3) hn (Nat.le_of_eq (lanesOf_length ..)) h4)
  case gather =>
    intro i k hr h1 h2 hcheck hload h3 h4
    have hlen : vs.length = count := (loadLanes_length hload).trans List.length_range
    exact completesV_of_vector (cost := gatherCost t a b) rfl hr ((vecLdx_eq h1 h2 hcheck hload h3).trans h4)
      (effect_lanes (effect_place (effect_vec (effect_readS h1) h2) h3) hn (Nat.le_of_eq hlen) h4)
  case scatter =>
    intro i k on hr h1 h2 hcheck h3 h4
    have hsources : LocalEffect k k3 (bumped k [a, b, d]) := effect_vec (effect_vec (effect_readS h1) h2) h3
    have hstores := effect_scatterLanes n hn x v u on h4
    simp only [storeTouched_wp hsources.wp] at hstores
    exact completesV_of_vector (cost := gatherCost t a b) rfl hr ((vecStx_eq h1 h2 hcheck h3).trans h4)
      (effect_or hsources hstores)
  case addressTraps =>
    rcases eq_or_eq_of_mem_pair hi with rfl | rfl
    · exact address_traps rfl (fun e he => by rw [vecLd_address he]; rfl) hr h1 h2
    · exact address_traps rfl (fun e he => by rw [vecSt_address he]; rfl) hr h1 h2
  case laneTraps =>
    intro k e present hr h1 h2 hj hact hbefore
    have htop : k2.top = (s.core s.cur).top :=
      (localEffect_top (effect_vec (effect_readS h1) h2)).trans (issued_top ..)
    have hpresent (q : Nat) : present q = lanePresent k2 n x v q := by
      rw [lanePresent, htop]
    simp only [hpresent] at hbefore ⊢
    rcases eq_or_eq_of_mem_pair hi with rfl | rfl
    · exact lane_traps (cost := gatherCost t a b) rfl hr hj (fun _ => vecLdx_check h1 h2) hact hbefore
    · exact lane_traps (cost := gatherCost t a b) rfl hr hj (fun _ => vecStx_check h1 h2) hact hbefore

/-! ### Conversions (R49, R140) -/

/-- The lanes of a conversion: as many as both formats allow. -/
def convertLanes (f g : Fmt) (rm : RMode) (c : Core) (x : Nat) : List Nat × Nat × Nat :=
  runLanes c (fun u j => cvtElem f g (e5o c) rm u (lane (fmtBits g) x j))
    (List.range (min 64 (512 / max (fmtBits f) (fmtBits g)))) (drawIndex c)

theorem cvtElem_eq (f g : Fmt) (e5 : Bool) (rm : RMode) (u x : Nat) : cvtElem f g e5 rm u x =
    if f = g ∧ (decodeFmt g x).isNan = false then { code := x } else cvtFrom g f e5 rm u x := by
  simp only [cvtElem, Bool.not_eq_true']

section
variable {f g : Fmt} {rm : RMode} {d a : Spec} {c k1 k2 : Core} {x : Nat} {l : Loc} {r : List Nat × Nat × Nat}
  (h1 : readVec c g a = .ok (x, k1)) (h2 : vectorLoc k1 d = .ok (l, k2)) (hr : convertLanes f g rm c x = r)
include h1 h2 hr

theorem vecCvt_bytes (hf : fmtBits f ≠ 4) : vecCvt f g rm d a c = finishLanes k2 c (fmtBits f) l r := by
  subst hr
  simp only [vecCvt, h1, h2, bind, Except.bind]
  exact if_neg hf

/-- Half-byte elements: a byte is written with the old half of an element that is not active. -/
theorem vecCvt_halves (hf : fmtBits f = 4) :
    let count := min 64 (512 / max (fmtBits f) (fmtBits g))
    vecCvt f g rm d a c = raiseFlags k2 r.2.1 >>= fun k =>
      loadVec (setDrawIndex k r.2.2) l >>= fun old =>
        storeLanes (setDrawIndex k r.2.2) 1 l (fun j => active c (2 * j) || active c (2 * j + 1)) 0
          (nibbleBytes ((List.range count).map fun j => if active c j then nth r.1 j 0 else lane 4 old j)) := by
  subst hr
  simp only [vecCvt, h1, h2, bind, Except.bind]
  exact if_pos hf

end

/-- Settles O16: whole bytes are lane-wise; half bytes are mixed with the bytes that D holds. -/
theorem vectorConvert : Obligations.VectorConvert := by
  unfold Obligations.VectorConvert
  intro f g rm d a s x l k1 k2 k3 i k count element r hr h1 h2
  have hlanes : convertLanes f g rm k x = r := by
    simp only [convertLanes, cvtElem_eq]
    rfl
  have hbytes (hf : fmtBits f ≠ 4) := lanewise (cost := one) (k4 := k3) rfl hr (fmtBits_pos8 f hf)
    (runLanes_range_length ..) (vecCvt_bytes h1 h2 hlanes hf) (effect_place (effect_readVec h1) h2)
  refine ⟨fun hq => ?trap, fun hq hf => (hbytes hf).1 hq, fun old hq hf hold hstore => ?halves⟩
  case trap =>
    by_cases hf : fmtBits f = 4
    · exact traps_of_vector (cost := one) rfl hr ((vecCvt_halves h1 h2 hlanes hf).trans (raised_trap hq))
    · exact (hbytes hf).2 hq
  case halves =>
    refine vectorOp_ok hr ((vecCvt_halves h1 h2 hlanes hf).trans ((raised_quiet hq).trans ?_))
    rw [flagged] at hold hstore
    rw [hold]
    exact hstore

/-! ### Histograms (R148) -/

theorem crossesModulo_iff {c : Core} {p a size : Nat} :
    let region := mWord c (field p 19 18)
    let stop := field region 16 0 + field region 48 32
    crossesModulo c p a size = true ↔
      bitAt p 20 = true ∧ field region 48 32 ≠ 0 ∧ a < stop ∧ stop < a + size := by
  simp only [crossesModulo, Bool.and_eq_true, bne_iff_ne, decide_eq_true_eq, and_assoc, ne_eq]

section
variable {t : VType} {p : Fin 8} {a b : Spec} {c k1 k2 : Core} {x y : Nat}
  (h1 : readVec c (vfmt t) a = .ok (x, k1)) (h2 : readSrc k1 .z64 b = .ok (y, k2))
include h1 h2

theorem vecHist_fabric :
    let base := field (aWord k2 p.val) 16 0
    ¬ base + 1024 ≤ k2.top → vecHist t (.ptr p false) a b c = .error (.trap { cause := .fabric, addr := base }) := by
  intro base htop
  simp [vecHist, readZ, h1, h2, needS, guardS, htop, base, bind, Except.bind]

theorem vecHist_align :
    let base := field (aWord k2 p.val) 16 0
    base + 1024 ≤ k2.top → (base % 4 ≠ 0 ∨ crossesModulo k2 (aWord k2 p.val) base 1024 = true) →
    vecHist t (.ptr p false) a b c = .error (.trap { cause := .align, addr := base }) := by
  intro base htop hbad
  by_cases hal : base % 4 = 0
  · simp [vecHist, readZ, h1, h2, needS, guardS, htop, hal, hbad.resolve_left (not_not_intro hal), base, bind, Except.bind]
  · simp [vecHist, readZ, h1, h2, needS, guardS, htop, hal, base, bind, Except.bind]

theorem vecHist_eq :
    let base := field (aWord k2 p.val) 16 0
    let n := fmtBits (vfmt t)
    base + 1024 ≤ k2.top → base % 4 = 0 → ¬ crossesModulo k2 (aWord k2 p.val) base 1024 = true →
    vecHist t (.ptr p false) a b c =
      histLanes base n x (y % 64) (activeLanes t c) k2 := by
  intro base n htop hal hcross
  simp [vecHist, readZ, h1, h2, needS, guardS, htop, hal, hcross, base, n, activeLanes, laneCount, bind, Except.bind]

end

/-- Settles O17: three checks of the table of counters, then one count for each active lane. -/
theorem vectorHistogram : Obligations.VectorHistogram := by
  unfold Obligations.VectorHistogram
  intro t p a b s x y k1 k2 k3 i cost k n base on region stop crosses inStore hr h1 h2
  have hsources : LocalEffect k k2 (bumped k [a, b]) := effect_src (effect_readVec h1) h2
  have htop : k2.top = (s.core s.cur).top := (localEffect_top hsources).trans (issued_top ..)
  have hcrosses : crossesModulo k2 (aWord k2 p.val) base 1024 = true ↔ crosses := crossesModulo_iff
  have hinStore : base + 1024 ≤ k2.top ↔ inStore := by rw [htop]
  rw [← hcrosses, ← hinStore]
  refine ⟨fun hin hal hcross hcount => ?counts, fun hin => ?fabric, fun hin hbad => ?align⟩
  case counts =>
    have hstores := effect_histLanes base n x (y % 64) on hcount
    simp only [storeTouched_wp hsources.wp] at hstores
    exact completesV_of_vector (cost := histCost t a b) rfl hr ((vecHist_eq h1 h2 hin hal hcross).trans hcount)
      (effect_or hsources hstores)
  case fabric => exact traps_of_vector (cost := histCost t a b) rfl hr (vecHist_fabric h1 h2 hin)
  case align => exact traps_of_vector (cost := histCost t a b) rfl hr (vecHist_align h1 h2 hin hbad)

end Sys2Proof.Proofs.Vector
end

section
/-!
PROOFS of 09_tiles_copies: the tile and job instructions.
-/
namespace Sys2Proof.Proofs.Tiles

open Sys2Proof.Machine Sys2Proof.Safety

/-! ### Tile definitions (R205, R225) -/

/-- The record of a `tdef` is well formed (R225). -/
def definesTile (v : Nat) : Prop :=
  field v 31 17 = 0 ∧ field v 63 39 = 0 ∧ 1 ≤ field v 38 32 ∧ field v 38 32 ≤ 64

theorem definesTile_iff {v : Nat} : definesTile v ↔
    (field v 31 17 == 0 && field v 63 39 == 0 && decide (1 ≤ field v 38 32) && decide (field v 38 32 ≤ 64)) = true := by
  simp only [definesTile, Bool.and_eq_true, beq_iff_eq, decide_eq_true_eq, and_assoc]

section
variable {t : Fin 16} {a : Spec} {s : State} {v : Nat} {k : Core} (h : readsA (.tdef t a) 1 s a v k)
include h

theorem tdef_badRecord (hrec : ¬ definesTile v) :
    traps (.tdef t a) s { cause := .tile, sub := 3, addr := (nth k.tiles t.val {}).base } := by
  refine endA_trap rfl h ?_
  rw [definesTile_iff, Bool.not_eq_true] at hrec
  simp only [needD_false hrec, core_setCore, bind, Except.bind]

section
variable (hrec : definesTile v)
include hrec

theorem tdef_misaligned (hal : field v 16 0 % 512 ≠ 0) : traps (.tdef t a) s { cause := .align, addr := field v 16 0 } := by
  refine endA_trap rfl h ?_
  simp only [needD_true (definesTile_iff.1 hrec), needD_false (beq_false_of_ne hal), bind, Except.bind]

variable (hal : field v 16 0 % 512 = 0)
include hal

theorem tdef_outside (htop : topOf s.cur.cls < field v 16 0 + 512 * field v 38 32) :
    traps (.tdef t a) s { cause := .fabric, addr := field v 16 0 } := by
  refine endA_trap rfl h ?_
  simp only [needD_true (definesTile_iff.1 hrec), needD_true (beq_iff_eq.2 hal),
    needD_false (decide_eq_false (Nat.not_le_of_lt htop)), bind, Except.bind]

section
variable (htop : field v 16 0 + 512 * field v 38 32 ≤ topOf s.cur.cls)
include htop

theorem tdef_defines (hheld : k.kheld.contains t.val = false) (hbusy : tileBusy (s.setCore s.cur k) s.cur t.val = false)
    (hst : (nth k.tiles t.val {}).st ≠ .draining) :
    exec (.tdef t a) s = .next (s.setCore s.cur
      { k with tiles := setAt k.tiles t.val { base := field v 16 0, nch := field v 38 32 } }) := by
  refine endA rfl h ?_
  have hfree : (!k.kheld.contains t.val && !tileBusy (s.setCore s.cur k) s.cur t.val &&
      (nth k.tiles t.val {}).st != .draining) = true := by
    rw [hheld, hbusy, bne_iff_ne.2 hst]
    rfl
  simp only [needD_true (definesTile_iff.1 hrec), needD_true (beq_iff_eq.2 hal), needD_true (decide_eq_true htop),
    core_setCore, untilD_true hfree, ev_tile s s.cur rfl, bind, Except.bind]

theorem tdef_waits (huse : k.kheld.contains t.val = true ∨ tileBusy (s.setCore s.cur k) s.cur t.val = true ∨
    (nth k.tiles t.val {}).st = .draining) : exec (.tdef t a) s = .next (s.setCore s.cur (waited s s.cur)) := by
  refine endA_wait rfl h ?_
  have hused : (!k.kheld.contains t.val && !tileBusy (s.setCore s.cur k) s.cur t.val &&
      (nth k.tiles t.val {}).st != .draining) = false := by
    rcases huse with hheld | hbusy | hst
    · simp only [hheld, Bool.not_true, Bool.false_and]
    · simp only [hbusy, Bool.not_true, Bool.and_false, Bool.false_and]
    · simp only [hst, bne_self_eq_false, Bool.and_false]
  simp only [needD_true (definesTile_iff.1 hrec), needD_true (beq_iff_eq.2 hal), needD_true (decide_eq_true htop),
    core_setCore, untilD_false hused, bind, Except.bind]

end

end

end

/-! ### The checks of a tile and a mask of its chunks (R205, R220, R225, R226) -/

/-- The checks of `tarm` and `twait`: the tile is defined, the mask names its chunks alone, and the tile is not in error. -/
def maskCheck (s : State) (c : CoreId) (t m : Nat) : Dev Unit := do
  tileDefined s c t
  needD (m / 2 ^ (nth (s.core c).tiles t {}).nch == 0) .tile 4 (nth (s.core c).tiles t {}).base
  tileNoErr s c t

theorem tileNoErr_trap {s : State} {c : CoreId} {t : Nat} (h : (nth (s.core c).tiles t {}).err = true) :
    tileNoErr s c t = .error (.trap (tileError (s.core c) t)) := by
  rw [tileNoErr, if_pos h]

section
variable {s : State} {c : CoreId} {t m : Nat}

theorem maskCheck_undefined (hdef : (nth (s.core c).tiles t {}).nch = 0) :
    maskCheck s c t m = .error (.trap { cause := .tile, sub := 2 }) := by
  simp only [maskCheck, tdef_no hdef, bind, Except.bind]

variable (hdef : (nth (s.core c).tiles t {}).nch ≠ 0)
include hdef

theorem maskCheck_chunks (hm : 2 ^ (nth (s.core c).tiles t {}).nch ≤ m) :
    maskCheck s c t m = .error (.trap { cause := .tile, sub := 4, addr := (nth (s.core c).tiles t {}).base }) := by
  simp only [maskCheck, tdef_ok hdef, needD_false (mask_no hm), bind, Except.bind]

variable (hm : m < 2 ^ (nth (s.core c).tiles t {}).nch)
include hm

theorem maskCheck_error (herr : (nth (s.core c).tiles t {}).err = true) :
    maskCheck s c t m = .error (.trap (tileError (s.core c) t)) := by
  simp only [maskCheck, tdef_ok hdef, needD_true (mask_ok hm), tileNoErr_trap herr, bind, Except.bind]

theorem maskCheck_ok (herr : (nth (s.core c).tiles t {}).err = false) : maskCheck s c t m = .ok () := by
  simp only [maskCheck, tdef_ok hdef, needD_true (mask_ok hm), terr_ok herr, bind, Except.bind]

end

/-- `tarm` after its checks: what uses the tile makes it wait (R162, R206). -/
def armTile (t m : Nat) (c : CoreId) (s : State) : Dev State := do
  untilD (!(s.core c).kheld.contains t && ((nth (s.core c).tiles t {}).st == .empty ||
    (nth (s.core c).tiles t {}).st == .ready || !targetsTile s c t)) s
  .ok (s.modCore c (fun k => modTile k t (fun e => { e with st := if m = 0 then .empty else .filling, exp := m, arr := 0 })))

/-- `twait` after its checks: the wait for the chunks of the mask, of all that are expected where it is 0. -/
def awaitChunks (t m : Nat) (c : CoreId) (s : State) : Dev State := do
  let w := if m = 0 then (nth (s.core c).tiles t {}).exp else m
  untilD (natAnd w (nth (s.core c).tiles t {}).arr == w) s
  .ok s

/-- Instruction i reads A as a mask of chunks of tile t, makes those checks, and then acts as `act` says. -/
def actsOnMask (i : Instr) (s : State) (a : Spec) (t : Nat) (act : Nat → Nat → CoreId → State → Dev State) : Prop :=
  exec i s = nativeOp i (fun _ => 1) (opA a (fun m c s => maskCheck s c t m >>= fun _ => act t m c s)) s

theorem actsOnMask_tarm (t : Fin 16) (a : Spec) (s : State) : actsOnMask (.tarm t a) s a t.val armTile := by
  simp only [actsOnMask, maskCheck, bind_assoc]
  rfl

theorem actsOnMask_twait (t : Fin 16) (a : Spec) (s : State) : actsOnMask (.twait t a) s a t.val awaitChunks := by
  simp only [actsOnMask, maskCheck, bind_assoc]
  rfl

section
variable {i : Instr} {s : State} {a : Spec} {t v : Nat} {act : Nat → Nat → CoreId → State → Dev State} {k : Core}
  (hact : actsOnMask i s a t act) (h : readsA i 1 s a v k)
include hact h

theorem mask_traps :
    let e := nth k.tiles t {}
    (e.nch = 0 → traps i s { cause := .tile, sub := 2 }) ∧
    (e.nch ≠ 0 → 2 ^ e.nch ≤ v → traps i s { cause := .tile, sub := 4, addr := e.base }) ∧
    (e.nch ≠ 0 → v < 2 ^ e.nch → e.err = true → traps i s (tileError k t)) := by
  have stops {tr : Trap} (hchk : maskCheck (s.setCore s.cur k) s.cur t v = .error (.trap tr)) : traps i s tr :=
    endA_trap hact h (by rw [hchk]; rfl)
  have hk : (s.setCore s.cur k).core s.cur = k := core_setCore ..
  rw [← hk]
  exact ⟨fun hdef => stops (maskCheck_undefined hdef), fun hdef hm => stops (maskCheck_chunks hdef hm),
    fun hdef hm herr => stops (maskCheck_error hdef hm herr)⟩

section
variable (hdef : (nth k.tiles t {}).nch ≠ 0) (hm : v < 2 ^ (nth k.tiles t {}).nch) (herr : (nth k.tiles t {}).err = false)
include hdef hm herr

omit hact h in
theorem maskCheck_read : maskCheck (s.setCore s.cur k) s.cur t v = .ok () := by
  rw [← core_setCore s s.cur k] at hdef hm herr
  exact maskCheck_ok hdef hm herr

theorem mask_completes {s2 : State} (hok : act t v s.cur (s.setCore s.cur k) = .ok s2) : exec i s = .next s2 :=
  endA hact h (by rw [maskCheck_read hdef hm herr]; exact hok)

theorem mask_waits (hwait : act t v s.cur (s.setCore s.cur k) = .error (.wait (s.setCore s.cur k))) :
    exec i s = .next (s.setCore s.cur (waited s s.cur)) :=
  endA_wait hact h (by rw [maskCheck_read hdef hm herr]; exact hwait)

end

end

section
variable {s : State} {k : Core} {t m : Nat}

theorem armTile_free (hheld : k.kheld.contains t = false)
    (hfree : (nth k.tiles t {}).st = .empty ∨ (nth k.tiles t {}).st = .ready ∨
      targetsTile (s.setCore s.cur k) s.cur t = false) :
    armTile t m s.cur (s.setCore s.cur k) = .ok (s.setCore s.cur { k with
      tiles := setAt k.tiles t
        { nth k.tiles t {} with st := if m = 0 then .empty else .filling, exp := m, arr := 0 } }) := by
  have hgo : (!k.kheld.contains t && ((nth k.tiles t {}).st == .empty || (nth k.tiles t {}).st == .ready ||
      !targetsTile (s.setCore s.cur k) s.cur t)) = true := by
    simpa only [hheld, Bool.not_false, Bool.true_and, Bool.or_eq_true, beq_iff_eq, Bool.not_eq_true', or_assoc] using hfree
  simp only [armTile, core_setCore, untilD_true hgo, ev_tile s s.cur rfl, bind, Except.bind]

theorem armTile_used (huse : k.kheld.contains t = true ∨ ((nth k.tiles t {}).st ≠ .empty ∧ (nth k.tiles t {}).st ≠ .ready ∧
      targetsTile (s.setCore s.cur k) s.cur t = true)) :
    armTile t m s.cur (s.setCore s.cur k) = .error (.wait (s.setCore s.cur k)) := by
  have hstop : (!k.kheld.contains t && ((nth k.tiles t {}).st == .empty || (nth k.tiles t {}).st == .ready ||
      !targetsTile (s.setCore s.cur k) s.cur t)) = false := by
    rcases huse with hheld | ⟨hempty, hready, htarget⟩
    · simp only [hheld, Bool.not_true, Bool.false_and]
    · rw [beq_false_of_ne hempty, beq_false_of_ne hready, htarget, Bool.and_eq_false_imp]
      exact fun _ => rfl
  simp only [armTile, core_setCore, untilD_false hstop, bind, Except.bind]

theorem awaitChunks_eq :
    let w := if m = 0 then (nth k.tiles t {}).exp else m
    awaitChunks t m s.cur (s.setCore s.cur k) =
      if natAnd w (nth k.tiles t {}).arr = w then .ok (s.setCore s.cur k) else .error (.wait (s.setCore s.cur k)) := by
  intro w
  have hstart : awaitChunks t m s.cur (s.setCore s.cur k) = (do
      untilD (natAnd w (nth k.tiles t {}).arr == w) (s.setCore s.cur k)
      .ok (s.setCore s.cur k)) := by
    rw [awaitChunks, core_setCore]
  rw [hstart]
  clear_value w
  split
  · next hall => rw [untilD_true (beq_iff_eq.2 hall)]; rfl
  · next hmiss => rw [untilD_false (beq_false_of_ne hmiss)]; rfl

end

/-! ### Drains (R206) -/

/-- The core whose tile t, which was e, drains; it keeps the state that the tile had. -/
def draining (t : Nat) (e : Tile) (k : Core) : Core :=
  { k with tiles := setAt k.tiles t { e with st := .draining }, drainp := some (t, e.st) }

/-- The core whose tile t has drained. -/
def drained (t : Nat) (k : Core) : Core :=
  { k with tiles := setAt k.tiles t { nth k.tiles t {} with st := .empty, exp := 0, arr := 0 }, drainp := none }

/-- No accepted kiln operation and no job of the current core uses tile t. -/
def unused (s : State) (t : Nat) (k : Core) : Prop :=
  k.kheld.contains t = false ∧ tileBusy (s.setCore s.cur k) s.cur t = false

/-- The wait of a `tdrain`, on the state that it has come to. -/
def awaitDrain (t : Nat) (c : CoreId) (s : State) : Dev State := do
  untilD (!(s.core c).kheld.contains t && !tileBusy s c t) s
  .ok (s.modCore c (drained t))

theorem tdrainOp_eq (t : Fin 16) (c : CoreId) (s : State) : tdrainOp t c s =
    (if (s.core c).drainp.isSome then .ok s else drainStart t.val c s) >>= awaitDrain t.val c := by
  unfold tdrainOp
  split <;> rfl

theorem unused_iff {s : State} {t : Nat} {k : Core} :
    unused s t k ↔ (!k.kheld.contains t && !tileBusy (s.setCore s.cur k) s.cur t) = true := by
  simp only [unused, Bool.and_eq_true, Bool.not_eq_true']

theorem awaitDrain_unused {s : State} {t : Nat} {k : Core} (h : unused s t k) :
    awaitDrain t s.cur (s.setCore s.cur k) = .ok (s.setCore s.cur (drained t k)) := by
  rw [unused_iff] at h
  simp only [awaitDrain, core_setCore, untilD_true h, modCore_eq, setCore_setCore, bind, Except.bind]

theorem awaitDrain_used {s : State} {t : Nat} {k : Core} (h : ¬ unused s t k) :
    awaitDrain t s.cur (s.setCore s.cur k) = .error (.wait (s.setCore s.cur k)) := by
  rw [unused_iff, Bool.not_eq_true] at h
  simp only [awaitDrain, core_setCore, untilD_false h, bind, Except.bind]

/-- A drain that ends as it starts. -/
theorem drained_draining {t : Nat} {e : Tile} {k : Core} (h : k.drainp = none) : drained t (draining t e k) =
    { k with tiles := setAt k.tiles t { nth (draining t e k).tiles t {} with st := .empty, exp := 0, arr := 0 } } := by
  simp only [drained, draining, setAt, List.set_set, h]

/-- The charge of cycles changes nothing that a drain sets. -/
theorem draining_charge (t : Nat) (e : Tile) (k : Core) (n : Nat) : (draining t e k).charge n = draining t e (k.charge n) := by
  unfold Core.charge Core.setCycles
  rw [apply_ite (draining t e)]
  rfl

section
variable {t : Fin 16} {s : State}

/-- The first issue of a `tdrain` makes the tile draining, a later one finds it so. -/
theorem tdrainOp_later (hp : (issued (.tdrain t) 1 s).drainp ≠ none) : tdrainOp t s.cur (issuedState (.tdrain t) 1 s) =
    awaitDrain t.val s.cur (s.setCore s.cur (issued (.tdrain t) 1 s)) := by
  rw [tdrainOp_eq, issuedState_core, if_pos (Option.isSome_iff_ne_none.2 hp)]
  rfl

section
variable (hp : (issued (.tdrain t) 1 s).drainp = none)
include hp

theorem tdrainOp_first : tdrainOp t s.cur (issuedState (.tdrain t) 1 s) =
    drainStart t.val s.cur (issuedState (.tdrain t) 1 s) >>= awaitDrain t.val s.cur := by
  rw [tdrainOp_eq, issuedState_core, hp]
  rfl

theorem tdrainOp_starts (hdef : (nth (issued (.tdrain t) 1 s).tiles t.val {}).nch ≠ 0)
    (herr : (nth (issued (.tdrain t) 1 s).tiles t.val {}).err = false) :
    tdrainOp t s.cur (issuedState (.tdrain t) 1 s) = awaitDrain t.val s.cur
      (s.setCore s.cur (draining t.val (nth (issued (.tdrain t) 1 s).tiles t.val {}) (issued (.tdrain t) 1 s))) := by
  rw [← issuedState_core] at hdef herr
  rw [tdrainOp_first hp, drainStart, tdef_ok hdef, terr_ok herr, modCore_eq, issuedState_core, issuedState, setCore_setCore]
  rfl

theorem tdrainOp_undefined (hdef : (nth (issued (.tdrain t) 1 s).tiles t.val {}).nch = 0) :
    tdrainOp t s.cur (issuedState (.tdrain t) 1 s) = .error (.trap { cause := .tile, sub := 2 }) := by
  rw [← issuedState_core] at hdef
  rw [tdrainOp_first hp, drainStart, tdef_no hdef]
  rfl

theorem tdrainOp_error (hdef : (nth (issued (.tdrain t) 1 s).tiles t.val {}).nch ≠ 0)
    (herr : (nth (issued (.tdrain t) 1 s).tiles t.val {}).err = true) :
    tdrainOp t s.cur (issuedState (.tdrain t) 1 s) = .error (.trap (tileError (issued (.tdrain t) 1 s) t.val)) := by
  rw [← issuedState_core] at hdef herr
  rw [tdrainOp_first hp, drainStart, tdef_ok hdef, tileNoErr_trap herr, issuedState_core]
  rfl

end

/-- What the wait of a first `tdrain` leaves: a waiting core whose tile drains. -/
theorem waitCore_draining (t : Nat) (e : Tile) (i : Instr) (n : Nat) :
    waitCore (s.setCore s.cur (draining t e (issued i n s))) s.cur (s.core s.cur) (1 + s.stall) =
      s.setCore s.cur (draining t e (waited s s.cur)) := by
  rw [waited, ← draining_charge]
  simp [waitCore, draining, issued]

end

section
variable {t : Fin 16} {s : State} (hr : ready (.tdrain t) s) (hp : (issued (.tdrain t) 1 s).drainp = none)
  (hdef : (nth (issued (.tdrain t) 1 s).tiles t.val {}).nch ≠ 0)
  (herr : (nth (issued (.tdrain t) 1 s).tiles t.val {}).err = false)
include hr hp hdef herr

/-- A first `tdrain` of an unused tile ends at once. -/
theorem tdrain_ends :
    let k := issued (.tdrain t) 1 s
    let k1 := draining t.val (nth k.tiles t.val {}) k
    unused s t.val k1 → exec (.tdrain t) s = .next (s.setCore s.cur
      { k with tiles := setAt k.tiles t.val { nth k1.tiles t.val {} with st := .empty, exp := 0, arr := 0 } }) := by
  intro k k1 hfree
  rw [← drained_draining hp]
  exact end0 rfl hr ((tdrainOp_starts hp hdef herr).trans (awaitDrain_unused hfree))

/-- Of a used tile it waits, with the tile draining. -/
theorem tdrain_awaits :
    let e := nth (issued (.tdrain t) 1 s).tiles t.val {}
    ¬ unused s t.val (draining t.val e (issued (.tdrain t) 1 s)) →
    exec (.tdrain t) s = .next (s.setCore s.cur (draining t.val e (waited s s.cur))) := by
  intro e huse
  refine Eq.trans (nativeOp_ready (cost := fun _ => 1) (f := tdrainOp t) hr) ?_
  rw [tdrainOp_starts hp hdef herr, awaitDrain_used huse]
  exact congrArg _ (waitCore_draining t.val e _ 1)

end

/-! ### Jobs (R208, R220, R227) -/

/-- What `jwait` and `jpoll` answer for a word v: the status of a job id decides. -/
def onStatus {α : Type} (complete pending : State → Dev α) (v : Nat) (c : CoreId) (s : State) : Dev α := do
  needD (v < 2 ^ 16) .undef 2
  match jobStatus (s.core c) v with
  | .complete => complete s
  | .pending => pending s
  | .failed t sf _ _ => .error (.trap (jobTrap v t sf))

theorem exec_jwait (a : Spec) (s : State) : exec (.jwait a) s =
    nativeOp (.jwait a) (fun _ => 1) (opA a (onStatus .ok fun s => .error (.wait s))) s := rfl

theorem exec_jpoll (d a : Spec) (s : State) : exec (.jpoll d a) s =
    nativeOp (.jpoll d a) (fun _ => 1) (opDA d a (onStatus (fun s => .ok (1, s)) fun s => .ok (0, s))) s := rfl

section
variable {α : Type} {complete pending : State → Dev α} {s : State} {v : Nat} {k : Core}

theorem onStatus_noId (hv : 2 ^ 16 ≤ v) : onStatus complete pending v s.cur (s.setCore s.cur k) =
    .error (.trap { cause := .undef, sub := 2 }) := by
  rw [onStatus, needD_false (decide_eq_false (Nat.not_lt_of_le hv))]
  rfl

variable (hv : v < 2 ^ 16)
include hv

theorem onStatus_complete (h : jobStatus k v = .complete) :
    onStatus complete pending v s.cur (s.setCore s.cur k) = complete (s.setCore s.cur k) := by
  rw [onStatus, needD_true (decide_eq_true hv), core_setCore, h]
  rfl

theorem onStatus_pending (h : jobStatus k v = .pending) :
    onStatus complete pending v s.cur (s.setCore s.cur k) = pending (s.setCore s.cur k) := by
  rw [onStatus, needD_true (decide_eq_true hv), core_setCore, h]
  rfl

theorem onStatus_failed {tr : Trap} {sf : Bool} {p : Option JobPlace} {n : Nat} (h : jobStatus k v = .failed tr sf p n) :
    onStatus complete pending v s.cur (s.setCore s.cur k) = .error (.trap (jobTrap v tr sf)) := by
  rw [onStatus, needD_true (decide_eq_true hv), core_setCore, h]
  rfl

end

/-- Settles O40: each instruction's checks in their order, then its effect or its wait. -/
theorem tilesAndJobs : Obligations.TilesAndJobs := by
  unfold Obligations.TilesAndJobs
  intro t d a s v k c sk e withTile waits
  refine ⟨fun h => ?define, fun h => ?arm, fun h => ?wait, fun hr hd => ?test, fun hr => ?drain, fun h => ?jobWait,
    fun h hd => ?jobPoll⟩
  case define =>
    exact ⟨fun hrec hal htop => ⟨fun hheld hbusy hst => tdef_defines h hrec hal htop hheld hbusy hst,
        fun huse => tdef_waits h hrec hal htop huse⟩,
      fun hrec => tdef_badRecord h hrec, fun hrec hal => tdef_misaligned h hrec hal,
      fun hrec hal htop => tdef_outside h hrec hal htop⟩
  case arm =>
    have hact := actsOnMask_tarm t a s
    refine ⟨fun hdef hm herr => ⟨fun hfree => ?_, fun huse => ?_⟩, mask_traps hact h⟩
    · refine mask_completes hact h hdef hm herr (armTile_free ?_ ?_)
      · exact Bool.eq_false_iff.2 fun hheld => hfree (.inl hheld)
      · exact Decidable.of_not_not fun hno => hfree (.inr (by simpa only [not_or, Bool.not_eq_false] using hno))
    · exact mask_waits hact h hdef hm herr (armTile_used huse)
  case wait =>
    have hact := actsOnMask_twait t a s
    refine ⟨fun hdef hm herr => ⟨fun hall => ?_, fun hmiss => ?_⟩, mask_traps hact h⟩
    · exact mask_completes hact h hdef hm herr (awaitChunks_eq.trans (if_pos hall))
    · exact mask_waits hact h hdef hm herr (awaitChunks_eq.trans (if_neg hmiss))
  case test =>
    intro e
    have hk : (issuedState (.ttest d t) 1 s).core s.cur = issued (.ttest d t) 1 s := issuedState_core ..
    refine ⟨fun hdef herr => ansD rfl hr hd ?_, fun hdef => endD_trap rfl hr hd ?_,
      fun hdef herr => endD_trap rfl hr hd ?_⟩
    · rw [tdef_ok (by rwa [hk]), terr_ok (by rwa [hk]), hk]
      rfl
    · rw [tdef_no (by rwa [hk])]
      rfl
    · rw [tdef_ok (by rwa [hk]), tileNoErr_trap (by rwa [hk]), hk]
      rfl
  case drain =>
    exact ⟨fun hp hdef herr => ⟨tdrain_ends hr hp hdef herr, tdrain_awaits hr hp hdef herr⟩,
      fun hp => ⟨fun hfree => end0 rfl hr ((tdrainOp_later hp).trans (awaitDrain_unused hfree)),
        fun huse => nativeOp_stop (cost := fun _ => 1) hr (localOnly_refl _) rfl
          ((tdrainOp_later hp).trans (awaitDrain_used huse))⟩,
      fun hp hdef => end0_trap rfl hr (tdrainOp_undefined hp hdef),
      fun hp hdef herr => end0_trap rfl hr (tdrainOp_error hp hdef herr)⟩
  case jobWait =>
    have hexec := exec_jwait a s
    exact ⟨fun hv => ⟨fun hst => endA hexec h (onStatus_complete hv hst),
      fun hst => endA_wait hexec h (onStatus_pending hv hst),
        fun _ _ _ _ hst => endA_trap hexec h (onStatus_failed hv hst)⟩,
      fun hv => endA_trap hexec h (onStatus_noId hv)⟩
  case jobPoll =>
    have hexec := exec_jpoll d a s
    exact ⟨fun hv => ⟨fun hst => ansDA hexec h hd (onStatus_complete hv hst),
        fun hst => ansDA hexec h hd (onStatus_pending hv hst),
        fun _ _ _ _ hst => trapDA hexec h hd (onStatus_failed hv hst)⟩,
      fun hv => trapDA hexec h hd (onStatus_noId hv)⟩

end Sys2Proof.Proofs.Tiles
end

section
/-!
PROOFS of 07_kiln: contexts, rings, stores of the accumulators, waits, leave grants and `kstat`.
-/
namespace Sys2Proof.Proofs.KilnSetup

open Sys2Proof.Machine Sys2Proof.Safety

/-! ### kctx and kring (R159, R170, R171) -/

/-- The claim of a ring or of the slip matrix is free or the launch's (R159). -/
theorem claimOk_yes {cl : Option Nat} {k : Core} (h : cl = none ∨ cl = some k.lkey) : claimOk cl k = true := by
  rcases h with h | h
  · rw [h]; rfl
  · rw [h, claimOk, beq_self_eq_true, Bool.or_true]

/-- A ring of 2 to 16 stages that are not empty (R171). -/
theorem kringFields_ok {count size : Nat} (hmin : 2 ≤ count) (hmax : count ≤ 16) (hsize : size ≠ 0) :
    (decide (2 ≤ count) && decide (count ≤ 16) && size != 0) = true := by
  rw [decide_eq_true hmin, decide_eq_true hmax, bne_iff_ne.2 hsize]
  rfl

section
variable {s : State} {c : CoreId} {k : Core} (hk : s.core c = k) {r : Shape} {v : List Nat} (hv : shapeVals k r = .ok v)
include hk hv

theorem kctxOp_ok (hrest : ∀ x ∈ v.drop 4, x = 0) (haf : nth v 0 0 ∈ ctxFormats) (hbf : nth v 1 0 ∈ ctxFormats)
    (hacc : nth v 2 0 = 2 ∨ nth v 2 0 = 8) (hslip : nth v 3 0 < 2) :
    kctxOp r c s = .ok (s.setCore c
      { k with kctx := { af := nth v 0 0, bf := nth v 1 0, acc := nth v 2 0, slip := nth v 3 0 == 1 } }) := by
  subst hk
  have hfields : (ctxFormats.contains (nth v 0 0) && ctxFormats.contains (nth v 1 0) && (nth v 2 0 == 2 || nth v 2 0 == 8) &&
      decide (nth v 3 0 < 2)) = true := by
    simp only [Bool.and_eq_true, Bool.or_eq_true, List.contains_iff_mem, beq_iff_eq, decide_eq_true_eq]
    exact ⟨⟨⟨haf, hbf⟩, hacc⟩, hslip⟩
  simp only [kctxOp, hv, ofCore, restZero_ok hrest, needD_true hfields, bind, Except.bind]
  rfl

section
variable {q : Fin 8} (hrest : ∀ x ∈ v.drop 3, x = 0) (hmin : 2 ≤ nth v 2 0) (hmax : nth v 2 0 ≤ 16) (hsize : nth v 1 0 ≠ 0)
include hrest hmin hmax hsize

theorem kringOp_claimed (hclaim : claimOk (ringOf s (rowOf c) q.val).claim k = false) :
    kringOp q r c s = .error (.trap { cause := .priv, sub := 0x20 }) := by
  subst hk
  simp only [kringOp, hv, ofCore, restZero_ok hrest, needD_true (kringFields_ok hmin hmax hsize),
    needD_false hclaim, bind, Except.bind]

theorem kringOp_ok (hclaim : claimOk (ringOf s (rowOf c) q.val).claim k = true)
    (hfit : nth v 0 0 + nth v 2 0 * nth v 1 0 ≤ 2560) (hstages : ∀ x ∈ (ringOf s (rowOf c) q.val).stages, x ≠ .filling)
    (hops : ∀ o ∈ (s.row (rowOf c)).kops, o.ring ≠ some q.val) :
    kringOp q r c s = .ok (modRing s (rowOf c) q.val fun _ =>
      { base := 64 * nth v 0 0, size := 64 * nth v 1 0, count := nth v 2 0, stages := List.replicate (nth v 2 0) .empty,
        claim := some k.lkey }) := by
  subst hk
  have hidle : (!(ringOf s (rowOf c) q.val).stages.contains .filling &&
      !(s.row (rowOf c)).kops.any (fun o => o.ring == some q.val)) = true := by
    rw [Bool.and_eq_true, Bool.not_eq_true', Bool.not_eq_true', List.any_eq_false]
    refine ⟨Bool.eq_false_iff.2 fun hmem => ?_, fun o ho => ?_⟩
    · exact hstages _ (List.contains_iff_mem.1 hmem) rfl
    · rw [beq_iff_eq]
      exact hops o ho
  simp only [kringOp, hv, ofCore, restZero_ok hrest, needD_true (kringFields_ok hmin hmax hsize),
    needD_true hclaim, needD_true (decide_eq_true hfit), untilD_true hidle, bind, Except.bind]

end

end

/-! ### kst (R174) -/

theorem rmodeOf_lt {n : Nat} {md : RMode} (h : rmodeOf n = some md) : n < 5 := by
  refine Nat.lt_of_not_le fun hn => ?_
  obtain ⟨m, rfl⟩ := Nat.exists_eq_add_of_le' hn
  cases h

/-- The record, the rounding mode and the operand of a `kst` are such as R174 allows; `code` is its output format. -/
structure KstFieldsOk (rm : BitVec 3) (md : RMode) (x : Spec) (code : Nat) (v : List Nat) : Prop where
  clear : nth v 6 0 < 2
  rest : nth v 7 0 = 0
  format : nth v 0 0 ≤ 0x0D ∨ nth v 0 0 = 0x20
  mPos : 1 ≤ nth v 2 0
  nPos : 1 ≤ nth v 3 0
  rows : nth v 4 0 + nth v 2 0 ≤ 32
  cols : nth v 5 0 + nth v 3 0 ≤ 64
  mode : rmodeOf rm.toNat = some md
  pairs : code = 0x0D → nth v 3 0 % 2 = 0
  source : okSrc false x = true

theorem kstOp_ok {s : State} {rm : BitVec 3} {md : RMode} {a : Spec} {r : Shape} {v : List Nat} {n cost code bits : Nat}
    {k k' : Core} (h : readsA (.kst rm a r) cost s a n k) (hv : shapeVals (issued (.kst rm a r) cost s) r = .ok v)
    (hcode : kstFormat (issued (.kst rm a r) cost s) (nth v 0 0) = code) (hbits : fmtBits ((fmtOf code).getD .fp32) = bits)
    (hf : KstFieldsOk rm md a code v) (hfit : n + (nth v 2 0 - 1) * nth v 1 0 + nth v 3 0 * bits / 8 ≤ 0x12000)
    (hal : n % max 1 (bits / 8) = 0) (hstride : nth v 1 0 % max 1 (bits / 8) = 0) (hout : k.kout = 0)
    (hstore : kstStore k code md n (nth v 1 0) (nth v 2 0) (nth v 3 0) (nth v 4 0) (nth v 5 0) (nth v 6 0 == 1) = .ok k') :
    kstOp rm a r s.cur (issuedState (.kst rm a r) cost s) = .ok (s.setCore s.cur k') := by
  have hclear : (decide (nth v 6 0 < 2) && nth v 7 0 == 0) = true := by
    rw [decide_eq_true hf.clear, hf.rest]
    rfl
  have hranges : ((decide (nth v 0 0 ≤ 0x0D) || nth v 0 0 == 0x20) && decide (1 ≤ nth v 2 0) && decide (1 ≤ nth v 3 0) &&
      decide (nth v 4 0 + nth v 2 0 ≤ 32) && decide (nth v 5 0 + nth v 3 0 ≤ 64) && decide (rm.toNat < 5) &&
      !(code == 0x0D && nth v 3 0 % 2 == 1)) = true := by
    simp only [Bool.and_eq_true, Bool.or_eq_true, Bool.not_eq_true', Bool.and_eq_false_imp, beq_iff_eq, decide_eq_true_eq,
      beq_eq_false_iff_ne]
    refine ⟨⟨⟨⟨⟨⟨hf.format, hf.mPos⟩, hf.nPos⟩, hf.rows⟩, hf.cols⟩, rmodeOf_lt hf.mode⟩, fun hc => ?_⟩
    rw [hf.pairs hc]
    decide
  have haligned : (n % max 1 (bits / 8) == 0 && nth v 1 0 % max 1 (bits / 8) == 0) = true := by
    rw [hal, hstride]
    rfl
  simp only [kstOp, issuedState_core, hv, ofCore, hcode, hbits, needD_true hclear, needD_true hranges,
    needD_true hf.source, srcZ_issued h.2, needD_true (decide_eq_true hfit), needD_true haligned, core_setCore,
    untilD_true (beq_iff_eq.2 hout), hf.mode, Option.getD_some, hstore, setCore_setCore, bind, Except.bind]

/-! ### kadv (R176) -/

/-- How far stage j is behind stage h on a ring of c stages. -/
theorem ringOffset_eq {j h c : Nat} (hj : j < c) (hh : h < c) :
    (j + c - h) % c = if h ≤ j then j - h else j + c - h := by
  split
  · rw [Nat.add_comm, Nat.add_sub_assoc ‹_›, Nat.add_mod_left, Nat.mod_eq_of_lt (by omega)]
  · rw [Nat.mod_eq_of_lt (by omega)]

theorem ringNext_eq {h c : Nat} (hh : h < c) : (h + 1) % c = if h + 1 = c then 0 else h + 1 := by
  split
  · next heq => rw [heq, Nat.mod_self]
  · rw [Nat.mod_eq_of_lt (by omega)]

/-- Behind the next stage, every stage but h is one nearer. -/
theorem ringOffset_next {j h c n : Nat} (hj : j < c) (hh : h < c) :
    (j + c - h) % c < n + 1 ↔ j = h ∨ (j + c - (h + 1) % c) % c < n := by
  have hnext : (h + 1) % c < c := Nat.mod_lt _ (by omega)
  rw [ringOffset_eq hj hh, ringOffset_eq hj hnext, ringNext_eq hh]
  split <;> split <;> split <;> omega

theorem stage_setAt {l : List StageState} {h : Nat} (hh : h < l.length) (x d : StageState) (j : Nat) :
    nth (setAt l h x) j d = if j = h then x else nth l j d := by
  simp only [nth, setAt, List.getD_eq_getElem?_getD, List.getElem?_set]
  by_cases hj : j = h
  · rw [if_pos hj.symm, if_pos hj, if_pos (hj ▸ hh), Option.getD_some]
  · rw [if_neg (Ne.symm hj), if_neg hj]

theorem popHead_stage {g : Ring} (h : g.head < g.stages.length) (j : Nat) :
    (popHead g).stage j = if j = g.head then .empty else g.stage j := stage_setAt h _ _ j

theorem popHead_head {g : Ring} (h : g.head < g.count) : (popHead g).head = (g.head + 1) % g.count := by
  rw [← Nat.max_eq_right (show 1 ≤ g.count by omega)]
  rfl

theorem popHead_stages_length (g : Ring) : (popHead g).stages.length = g.stages.length := List.length_set

/-- n stages popped: the head moves on by n, and those n stages are empty. -/
theorem popStages_ring : ∀ (n : Nat) (g : Ring), g.head < g.count → g.stages.length = g.count →
    (popStages n g).head = (g.head + n) % g.count ∧
    ∀ j, j < g.count → (popStages n g).stage j = if (j + g.count - g.head) % g.count < n then .empty else g.stage j
  | 0, g, hhead, _ => ⟨(Nat.mod_eq_of_lt hhead).symm, fun j _ => (if_neg (Nat.not_lt_zero _)).symm⟩
  | n + 1, g, hhead, hlen => by
    have hnext := popHead_head hhead
    obtain ⟨ihHead, ihStage⟩ := popStages_ring n (popHead g) (by rw [hnext]; exact Nat.mod_lt _ (by omega))
      ((popHead_stages_length g).trans hlen)
    have hcount : (popHead g).count = g.count := rfl
    rw [hnext, hcount] at ihHead ihStage
    refine ⟨ihHead.trans ?_, fun j hj => (ihStage j hj).trans ?_⟩
    · rw [Nat.mod_add_mod, Nat.add_assoc, Nat.add_comm 1 n]
    · rw [popHead_stage (hlen.symm ▸ hhead)]
      simp only [ringOffset_next hj hhead]
      by_cases hfirst : j = g.head
      · simp only [hfirst, if_true, true_or, ite_self]
      · simp only [hfirst, if_false, false_or]

/-- What `kadv` waits for: no operation holds a stage of the ring, and the stages to pop are ready or in error. -/
theorem ringHeld_iff {r : Row} {q : Nat} : ringHeld r q = true ↔ ∃ o ∈ r.kops, o.ring = some q ∧ o.popped = false := by
  simp only [ringHeld, List.any_eq_true, Bool.and_eq_true, beq_iff_eq, Bool.not_eq_true']

theorem headReady_iff {g : Ring} {n : Nat} (hcount : 1 ≤ g.count) : headReady g n = true ↔
    ∀ i, i < n → g.stage ((g.head + i) % g.count) = .ready ∨ g.stage ((g.head + i) % g.count) = .error := by
  simp only [headReady, Nat.max_eq_right hcount, List.all_eq_true, List.mem_range, Bool.or_eq_true, beq_iff_eq]

section
variable {q : Fin 8} {a : Spec} {s s1 : State} {c : CoreId} {n : Nat} {k : Core} (hk : s.core c = k)
  (ha : srcZ s c a = .ok (n, s1))
include hk ha

theorem kadvOp_claimed (hclaim : claimOk (ringOf s (rowOf c) q.val).claim k = false) :
    kadvOp q a c s = .error (.trap { cause := .priv, sub := 0x20 }) := by
  simp only [kadvOp, ha, hk, needD_false hclaim, bind, Except.bind]

section
variable (hclaim : claimOk (ringOf s (rowOf c) q.val).claim k = true)
include hclaim

theorem kadvOp_zero (hn : n = 0) : kadvOp q a c s = .ok s1 := by
  simp only [kadvOp, ha, hk, needD_true hclaim, hn, if_true, bind, Except.bind]

variable (hn : n ≠ 0) (hmax : n ≤ (ringOf s (rowOf c) q.val).count)
include hn hmax

theorem kadvOp_pops (hheld : ∀ o ∈ (s.row (rowOf c)).kops, o.ring = some q.val → o.popped = true)
    (hready : ∀ i, i < n → let g := ringOf s (rowOf c) q.val
      g.stage ((g.head + i) % g.count) = .ready ∨ g.stage ((g.head + i) % g.count) = .error) :
    kadvOp q a c s = .ok (modRing s1 (rowOf c) q.val (popStages n)) := by
  have hgo : (!ringHeld (s.row (rowOf c)) q.val && headReady (ringOf s (rowOf c) q.val) n) = true := by
    rw [(headReady_iff (by omega)).2 hready, Bool.and_true, Bool.not_eq_true', ← Bool.not_eq_true, ringHeld_iff]
    rintro ⟨o, ho, hring, hpop⟩
    rw [hheld o ho hring] at hpop
    cases hpop
  simp only [kadvOp, ha, hk, needD_true hclaim, hn, if_false, needD_true (decide_eq_true hmax), untilD_true hgo, bind,
    Except.bind]

theorem kadvOp_waits (huse : (∃ o ∈ (s.row (rowOf c)).kops, o.ring = some q.val ∧ o.popped = false) ∨
    ∃ i, i < n ∧ let g := ringOf s (rowOf c) q.val
      g.stage ((g.head + i) % g.count) ≠ .ready ∧ g.stage ((g.head + i) % g.count) ≠ .error) :
    kadvOp q a c s = .error (.wait s) := by
  have hstop : (!ringHeld (s.row (rowOf c)) q.val && headReady (ringOf s (rowOf c) q.val) n) = false := by
    rcases huse with hheld | ⟨i, hi, hno⟩
    · rw [ringHeld_iff.2 hheld]
      rfl
    · rw [Bool.and_eq_false_iff, ← Bool.not_eq_true (headReady ..), headReady_iff (by omega)]
      exact .inr fun hall => (hall i hi).elim hno.1 hno.2
  simp only [kadvOp, ha, hk, needD_true hclaim, hn, if_false, needD_true (decide_eq_true hmax), untilD_false hstop, bind,
    Except.bind]

end

end

/-! ### kleave (R178, R453) -/

theorem issued_kout (i : Instr) (n : Nat) (s : State) : (issued i n s).kout = (s.core s.cur).kout := issue_kout ..

theorem issued_grants (i : Instr) (n : Nat) (s : State) : (issued i n s).grants = (s.core s.cur).grants := issue_grants ..

theorem issued_lgot (i : Instr) (n : Nat) (s : State) : (issued i n s).lgot = (s.core s.cur).lgot := issue_lgot ..

theorem issued_lreq (i : Instr) (n : Nat) (s : State) : (issued i n s).lreq = (s.core s.cur).lreq := issue_lreq ..

/-- The island of a core (R453). -/
def islandAt (s : State) (c : CoreId) : Island := nth s.islands (islandOf (rowOf c)) {}

/-- A request that the island admits, with none before it, is granted at once. -/
theorem askLeave_granted {s : State} {c : CoreId} {k : Core} {r : Nat} (hwaits : (islandAt s c).waits = [])
    (hadmit : admitted (islandAt s c) (r * (islandAt s c).lgrant) = true) :
    askLeave (s.setCore c k) c r = { s.setCore c { k with grants := k.grants + r } with
      islands := setAt s.islands (islandOf (rowOf c))
        { islandAt s c with used := (islandAt s c).used + r * (islandAt s c).lgrant } } := by
  unfold islandAt at hwaits hadmit ⊢
  simp only [askLeave, setCore_islands, hwaits, List.isEmpty_nil, hadmit, Bool.and_self, if_true, modCore_eq, core_setCore,
    setCore_setCore]

/-- A destination written on the core that has been put in place. -/
theorem dstZ_setCore {s : State} {c : CoreId} {k k' : Core} {d : Spec} {v : Nat} (h : writeDst k .z64 d v = .ok k') :
    dstZ (s.setCore c k) c d v = .ok (s.setCore c k') := by
  rw [dstZ_ok (k := k') (by rwa [core_setCore]), setCore_setCore]

section
variable {d a : Spec} {s : State} {n : Nat} {k k' : Core} (h : readsA (.kleave d a) 1 s a n k) (hd : takesWord k d)
include h hd

theorem kleaveOp_returns (hn : n = 0) (hw : writeDst k .z64 d (s.core s.cur).grants = .ok k') :
    kleaveOp d a s.cur (issuedState (.kleave d a) 1 s) = .ok (s.setCore s.cur { k' with grants := 0 }) := by
  obtain ⟨k0, hk0⟩ := hd
  simp only [kleaveOp, srcZ_issued h.2, dstZ_setCore hk0, issuedState_core,
    issued_grants, dstZ_setCore hw, hn, if_true, modCore_eq, core_setCore, setCore_setCore,
    bind, Except.bind]

variable (hn : n ≠ 0)
include hn

theorem kleaveOp_takes {r : Nat} (hgot : (s.core s.cur).lgot = some r)
    (hw : writeDst k .z64 d ((s.core s.cur).grants + r) = .ok k') :
    kleaveOp d a s.cur (issuedState (.kleave d a) 1 s) =
      .ok (s.setCore s.cur { k' with grants := k'.grants + r, lreq := 0, lgot := none }) := by
  obtain ⟨k0, hk0⟩ := hd
  simp only [kleaveOp, srcZ_issued h.2, dstZ_setCore hk0, issuedState_core,
    issued_grants, issued_lgot, hgot, dstZ_setCore hw, hn, if_false, modCore_eq,
    core_setCore, setCore_setCore, bind, Except.bind]

theorem kleaveOp_asks (hgot : (s.core s.cur).lgot = none) (hreq : (s.core s.cur).lreq = 0) (hroom : (s.core s.cur).grants < 64)
    (hwaits : (islandAt s s.cur).waits = []) (hlreq : k.lreq = 0) :
    let r := min n (64 - (s.core s.cur).grants)
    admitted (islandAt s s.cur) (r * (islandAt s s.cur).lgrant) = true →
    writeDst { k with grants := k.grants + r } .z64 d (k.grants + r) = .ok k' →
    kleaveOp d a s.cur (issuedState (.kleave d a) 1 s) = .ok ((askLeave (s.setCore s.cur k) s.cur r).setCore s.cur k') := by
  intro r hadmit hw
  obtain ⟨k0, hk0⟩ := hd
  have hcore : (askLeave (s.setCore s.cur k) s.cur r).core s.cur = { k with grants := k.grants + r } := by
    rw [askLeave_granted hwaits hadmit]
    exact core_setCore ..
  have hend := dstZ_ok (s := askLeave (s.setCore s.cur k) s.cur r) (c := s.cur) (by rw [hcore]; exact hw)
  have hr : r ≠ 0 := by omega
  simp only [kleaveOp, srcZ_issued h.2, dstZ_setCore hk0, issuedState_core,
    issued_grants, issued_lgot, issued_lreq, hgot, hreq, hn, if_false,
    ne_eq, not_true, bind, Except.bind]
  rw [if_neg hr, hcore, if_pos hlreq]
  exact hend

end

/-! ### kwait and kstat (R177, R179) -/

section
variable {s : State} {c : CoreId}

theorem kwaitOp_done (h : (s.core c).kout = 0) : (untilD ((s.core c).kout == 0) s >>= fun _ => .ok s) = .ok s := by
  rw [untilD_true (beq_iff_eq.2 h)]
  rfl

theorem kwaitOp_waits (h : (s.core c).kout ≠ 0) :
    (untilD ((s.core c).kout == 0) s >>= fun _ => (.ok s : Dev State)) = .error (.wait s) := by
  rw [untilD_false (beq_false_of_ne h)]
  rfl

variable {n : Nat}

theorem kstatValue_none (hn : 9 < n) : kstatValue s c n = 0 := by
  rw [kstatValue, if_neg (by omega), if_neg (by omega), if_neg (by omega)]

variable {k : Core} (hk : s.core c = k)
include hk

theorem kstatValue_ring (hn : n < 8) : kstatValue s c n = ringWord k (nth (s.row (rowOf c)).rings n {}) := by
  rw [kstatValue, if_pos hn, hk]
  rfl

theorem kstatValue_kiln (hn : n = 8) : kstatValue s c n = kilnWord k (s.row (rowOf c)) := by
  rw [kstatValue, if_neg (by omega), if_pos hn, hk]

theorem kstatValue_context (hn : n = 9) : kstatValue s c n =
    k.kctx.af + k.kctx.bf * 2 ^ 8 + k.kctx.acc * 2 ^ 16 + (if k.kctx.slip then 2 ^ 24 else 0) := by
  rw [kstatValue, if_neg (by omega), if_neg (by omega), if_pos hn, hk, kctxWord]
  cases k.kctx.slip <;> rfl

end

/-- Settles O43: each instruction's checks in their order, then its effect or its wait. -/
theorem kilnSetup : Obligations.KilnSetup := by
  unfold Obligations.KilnSetup
  intro q d a r s v n k c f row ring island withRing withIsland
  refine ⟨fun hr hv hrest haf hbf hacc hslip => ?context, fun hr hv hrest hmin hmax hsize => ?ring,
    fun rm md cost hcost h => ?store, fun h => ?advance, fun hr => ?wait, fun h hd => ?leave, fun h hd => ?stat⟩
  case context =>
    have hmeans := kctxOp_ok (issuedState_core (.kctx r) 1 s) hv hrest haf hbf hacc hslip
    rw [issuedState, setCore_setCore] at hmeans
    exact end0 rfl hr hmeans
  case ring =>
    have hk := issuedState_core (.kring q r) 1 s
    exact ⟨fun hclaim hfit hstages hops =>
        end0 rfl hr (kringOp_ok hk hv hrest hmin hmax hsize (claimOk_yes hclaim) hfit hstages hops),
      fun hsome hother => end0_trap rfl hr (kringOp_claimed hk hv hrest hmin hmax hsize (claimOk_no hsome hother))⟩
  case store =>
    intro k0 code size hv hsource hclear hrest hformat hm hn hrows hcols hmode hpairs hfit hal hstride hout k' hstore
    subst hcost
    exact nativeOp_ok (cost := kstCost r) h.1 (kstOp_ok h hv rfl rfl
      ⟨hclear, hrest, hformat, hm, hn, hrows, hcols, hmode, hpairs, hsource⟩ hfit hal hstride hout hstore)
  case advance =>
    have hk := issuedState_core (.kadv q a) 1 s
    have ha := srcZ_issued h.2
    refine ⟨fun hn hmax hclaim huse => ?_, fun hn hmax hclaim hheld hready => ⟨?_, ?_⟩, fun hn hclaim => ?_,
      fun hsome hother => ?_⟩
    · exact nativeOp_stop (cost := fun _ => 1) h.1 (localOnly_refl _) rfl
        (kadvOp_waits hk ha (claimOk_yes (.inr hclaim)) hn hmax huse)
    · exact end0 rfl h.1 (kadvOp_pops hk ha (claimOk_yes (.inr hclaim)) hn hmax hheld hready)
    · exact popStages_ring n ring
    · exact end0 rfl h.1 (kadvOp_zero hk ha (claimOk_yes (.inr hclaim)) hn)
    · exact end0_trap rfl h.1 (kadvOp_claimed hk ha (claimOk_no hsome hother))
  case wait =>
    have hk : ((issuedState .kwait 1 s).core c).kout = (s.core c).kout := by rw [issuedState_core, issued_kout]
    exact ⟨fun hout => end0 rfl hr (kwaitOp_done (hk.trans hout)),
      fun hout => nativeOp_stop (cost := fun _ => 1) hr (localOnly_refl _) rfl (kwaitOp_waits (hk ▸ hout))⟩
  case leave =>
    refine ⟨fun hn k' hw => end0 rfl h.1 (kleaveOp_returns h hd hn hw),
      fun hn r hgot k' hw => end0 rfl h.1 (kleaveOp_takes h hd hn hgot hw),
      fun hn hgot hreq hroom hwaits hadmit hlreq k2 hw => end0 rfl h.1 ?_⟩
    exact (kleaveOp_asks h hd hn hgot hreq hroom hwaits hlreq hadmit hw).trans
      (congrArg (fun x : State => Except.ok (x.setCore c k2)) (askLeave_granted (k := k) hwaits hadmit))
  case stat =>
    have answer {w : Nat} (hw : kstatValue (s.setCore c k) c n = w) : answers (.kstat d a) s (s.setCore c k) d w :=
      ansDA rfl h hd (congrArg (fun w => Except.ok (w, s.setCore c k)) hw)
    have hk : (s.setCore c k).core c = k := core_setCore ..
    exact ⟨fun hn => answer (kstatValue_ring hk hn), fun hn => answer (kstatValue_kiln hk hn),
      fun hn => answer (kstatValue_context hk hn), fun hn => answer (kstatValue_none hn)⟩

end Sys2Proof.Proofs.KilnSetup
end

section
/-!
PROOFS of 07_kiln: the requests that kiln instructions register, and their acceptance.
-/
namespace Sys2Proof.Proofs.KilnRequests

open Sys2Proof.Machine Sys2Proof.Safety

/-! ### The checks of R160 -/

section
variable {s : State} {c : CoreId} {k : Core} (hk : s.core c = k) {q : Nat}

include hk in
theorem ringCheck_ok {need : Nat} {slip : Option Bool} (hclaim : claimOk (ringOf s (rowOf c) q).claim k = true)
    (hslip : slipOk (s.row (rowOf c)) k slip = true) (hcount : (ringOf s (rowOf c) q).count ≠ 0)
    (hsize : need ≤ (ringOf s (rowOf c) q).size) : ringCheck s c q need slip = .ok () := by
  simp only [ringCheck, hk, needD_true hclaim, needD_true hslip, needD_true (bne_iff_ne.2 hcount),
    needD_true (decide_eq_true hsize), bind, Except.bind]

theorem stageCheck_ready (h : (ringOf s (rowOf c) q).stage (ringOf s (rowOf c) q).bind = .ready) :
    stageCheck s c q = .ok () := by
  simp only [stageCheck, h]
  rfl

theorem rowsUnready_false {k : Core} {a stride m w : Nat} (h : ∀ i, i < m → unreadyAt k (a + i * stride) w = false) :
    rowsUnready k a stride m w = false := by
  simpa only [rowsUnready, List.any_eq_false, List.mem_range, Bool.not_eq_true] using h

include hk in
theorem tileCheck_ok {t off stride m w : Nat} {e : Tile} (he : nth k.tiles t {} = e) (hal : off % 8 = 0)
    (hdef : e.nch ≠ 0) (hfit : off + (m - 1) * stride + w ≤ 512 * e.nch) (herr : e.err = false) (hst : e.st = .ready)
    (hrows : ∀ i, i < m → unreadyAt k (e.base + off + i * stride) w = false) :
    tileCheck s c t off stride m w = .ok () := by
  subst hk he
  simp only [tileCheck, needD_true (beq_iff_eq.2 hal), tdef_ok hdef, needD_true (decide_eq_true hfit), terr_ok herr,
    untilD_true (beq_iff_eq.2 hst), rowsUnready_false hrows, Bool.not_false, untilD_true, bind, Except.bind]

/-- An operation without slip needs nothing of the matrix, one with slip finds it loaded for its launch (R159, R164). -/
theorem slipOk_loaded {r : Row} {k : Core} {slip : Bool} (h : slip = true → r.slipClaim = some k.lkey ∧ slipReady r = true) :
    slipOk r k (if slip then some false else none) = true := by
  cases slip with
  | false => rfl
  | true =>
    obtain ⟨hclaim, hready⟩ := h rfl
    simp only [if_true, slipOk, hclaim, hready, beq_self_eq_true, Bool.and_self]

end

/-! ### kslip and kclr (R172, R175) -/

section
variable {s : State} {c : CoreId} {k : Core} (hk : s.core c = k) {r : Shape} {v : List Nat} (hv : shapeVals k r = .ok v)
  (hzero : ∀ x ∈ v, x = 0)
include hk hv hzero

theorem kclrOp_requests : kclrOp r c s = requestKiln s c { kind := .clr, ring := none, part := noPart c, off := .cst 0 } := by
  simp only [kclrOp, hk, hv, ofCore, restZero_ok (n := 0) hzero, bind, Except.bind]

theorem kslipOp_requests {q : Fin 8} (hring : ringCheck s c q.val 8192 (some true) = .ok ())
    (hstage : stageCheck s c q.val = .ok ()) : kslipOp q r c s =
      requestKiln s c { kind := .slip, ring := some q.val, part := noPart c, off := .cst 0 } := by
  simp only [kslipOp, hk, hv, ofCore, restZero_ok (n := 0) hzero, hring, hstage, bind, Except.bind]

end

/-! ### kmm and kmm.g (R160, R166, R173) -/

/-- The record, the mode and the operand of a `kmm` are such as R173 allows. -/
structure KmmFieldsOk (mode : BitVec 2) (off : Spec) (v : List Nat) : Prop where
  flags : nth v 4 0 < 4
  rest : ∀ y ∈ v.drop 5, y = 0
  mode : mode = 1 ∨ mode = 2
  kcountPos : 1 ≤ nth v 0 0
  kcountMax : nth v 0 0 ≤ 64
  stride : nth v 1 0 % 8 = 0
  mPos : 1 ≤ nth v 2 0
  mMax : nth v 2 0 ≤ 32
  nPos : 1 ≤ nth v 3 0
  nMax : nth v 3 0 ≤ 64
  source : okSrc false off = true

/-- The request that a `kmm` registers once its checks have passed (R173); o is the offset that its operand gives. -/
def kmmReq (k : Core) (c : CoreId) (gang : Bool) (q : Fin 8) (tile : Fin 16) (mode : BitVec 2) (off : Spec) (v : List Nat)
    (o : Nat) : KReq :=
  { kind := .mm (mode == 1) (nth v 0 0) (nth v 3 0) (nth v 4 0 % 2 == 1) (nth v 4 0 / 2 == 1), ring := some q.val
    part := { k := placeOf c, tile := tile.val, base := (nth k.tiles tile.val {}).base, off := o, stride := nth v 1 0,
              m := nth v 2 0 }
    gang := gang, off := off }

theorem kmmFields_ok {mode : BitVec 2} {off : Spec} {v : List Nat} (h : KmmFieldsOk mode off v) :
    kmmFields mode off v = .ok () := by
  have hflags : (nth v 4 0 / 4 == 0 && (v.drop 5).all (· == 0)) = true := by
    rw [Bool.and_eq_true, beq_iff_eq, List.all_eq_true]
    exact ⟨Nat.div_eq_of_lt h.flags, fun y hy => beq_iff_eq.2 (h.rest y hy)⟩
  have hranges : ((mode == 1 || mode == 2) && decide (1 ≤ nth v 0 0) && decide (nth v 0 0 ≤ 64) && nth v 1 0 % 8 == 0 &&
      decide (1 ≤ nth v 2 0) && decide (nth v 2 0 ≤ 32) && decide (1 ≤ nth v 3 0) && decide (nth v 3 0 ≤ 64)) = true := by
    simp only [Bool.and_eq_true, Bool.or_eq_true, beq_iff_eq, decide_eq_true_eq]
    exact ⟨⟨⟨⟨⟨⟨⟨h.mode, h.kcountPos⟩, h.kcountMax⟩, h.stride⟩, h.mPos⟩, h.mMax⟩, h.nPos⟩, h.nMax⟩
  simp only [kmmFields, needD_true hflags, needD_true hranges, needD_true h.source, bind, Except.bind]

section
variable {s : State} {c : CoreId} {k : Core} (hk : s.core c = k) {gang : Bool} {q : Fin 8} {tile : Fin 16} {mode : BitVec 2}
  {off : Spec} {r : Shape} {v : List Nat} {o n : Nat} {k' : Core} (hv : shapeVals k r = .ok v)
  (hf : KmmFieldsOk mode off v) (ho : readSrc k .z64 off = .ok (o, k'))
include hk hv hf ho

theorem kmmOp_combo (hcombo : kcombo k.kctx = .error n) :
    kmmOp gang q tile mode off r c s = .error (.trap { cause := .combo, sub := n }) := by
  subst hk
  simp only [kmmOp, hv, ofCore, kmmFields_ok hf, srcZ_ok ho, hcombo, trapD, bind, Except.bind]

theorem kmmOp_requests (hcombo : kcombo k.kctx = .ok n) (hheld : gang = true → heldVerdict k = none)
    (hring : ringCheck s c q.val (if k.kctx.slip && mode == 1 then 8192 else stageBytes k.kctx.bf)
      (if k.kctx.slip then some false else none) = .ok ())
    (htile : tileCheck s c tile.val o (nth v 1 0) (nth v 2 0) (rowABytes k.kctx.af) = .ok ())
    (hstage : stageCheck s c q.val = .ok ())
    (hdiff : gang = true → gangDiffers s c (kmmReq k c gang q tile mode off v o) = none) :
    kmmOp gang q tile mode off r c s = requestKiln s c (kmmReq k c gang q tile mode off v o) := by
  have hbarrier : barrierTrap gang k = .ok () := by
    cases gang with
    | false => rfl
    | true => simp only [barrierTrap, if_true, hheld rfl]
  have hmet : (if gang then gangDiffers s c (kmmReq k c gang q tile mode off v o) else none) = none := by
    cases gang with
    | false => rfl
    | true => exact hdiff rfl
  subst hk
  simp only [kmmOp, hv, ofCore, kmmFields_ok hf, srcZ_ok ho, hcombo, hbarrier, hring, htile, hstage, bind, Except.bind]
  unfold kmmReq at hmet ⊢
  rw [hmet]

end

theorem exec_kmm_or_gang (gang : Bool) (q : Fin 8) (tile : Fin 16) (mode : BitVec 2) (off : Spec) (r : Shape) (s : State) :
    let i : Instr := if gang then .kmmG q tile mode off r else .kmm q tile mode off r
    exec i s = nativeOp i (fun _ => 1) (kmmOp gang q tile mode off r) s := by
  cases gang <;> rfl

/-- Settles O44: each instruction comes to its request, which the row's kiln accepts. -/
theorem kilnOperations : Obligations.KilnOperations := by
  unfold Obligations.KilnOperations
  intro q tile mode gang off r s v o n k' c0 q0 c f row ring asked taken
  have accepted {i : Instr} {req : KReq} {g : CoreId → State → Dev State} (hexec : exec i s = nativeOp i (fun _ => 1) g s)
      (hr : ready i s) (hg : g c (issuedState i 1 s) = requestKiln (issuedState i 1 s) c req) : taken i (issued i 1 s) req :=
    fun hpick hreq hmem =>
      requestKiln_taken c0 q0 (fun _ t ht => end0 hexec hr (hg.trans ht)) hpick hreq hmem (kilnPick_row hpick)
  refine ⟨fun hr hv hzero => ?clear, fun hr hv hzero hclaim hslip hcount hsize hready => ?slip, ?multiply⟩
  case clear => exact accepted rfl hr (kclrOp_requests (issuedState_core ..) hv hzero)
  case slip =>
    have hk := issuedState_core (.kslip q r) 1 s
    exact accepted rfl hr (kslipOp_requests hk hv hzero (ringCheck_ok hk hclaim hslip hcount hsize) (stageCheck_ready hready))
  case multiply =>
    intro i k e x part req hr hv hflags hrest hmode hk1 hk64 hstride hm1 hm32 hn1 hn64 hsrc ho
    have hf : KmmFieldsOk mode off v := ⟨hflags, hrest, hmode, hk1, hk64, hstride, hm1, hm32, hn1, hn64, hsrc⟩
    have hk : (issuedState i 1 s).core s.cur = k := issuedState_core ..
    have hexec := exec_kmm_or_gang gang q tile mode off r s
    refine ⟨fun hcombo hheld hclaim hslip hcount hsize hal hdef hfit herr hst hrows hready hdiff => ?_,
      fun hcombo => end0_trap hexec hr (kmmOp_combo hk hv hf ho hcombo)⟩
    exact accepted hexec hr (kmmOp_requests hk hv hf ho hcombo hheld
      (ringCheck_ok hk hclaim (slipOk_loaded hslip) hcount hsize)
      (tileCheck_ok hk rfl hal hdef hfit herr hst hrows) (stageCheck_ready hready) hdiff)

end Sys2Proof.Proofs.KilnRequests
end

section
/-!
PROOFS of 07_kiln: acceptance, slip phase, kiln phase and retirement of kiln operations.
-/
namespace Sys2Proof.Proofs.KilnEvents

open Sys2Proof.Machine Sys2Proof.Safety

/-! ### Acceptance (R158, R160) -/

theorem retireReq_pc (q : KReq) (k : Core) : (retireReq q false k).pc = k.pc + 20 := by
  unfold retireReq
  split
  · next h =>
    obtain ⟨_, _, _, _, rfl⟩ := readZ_keeps h
    rfl
  · rfl

section
variable {s : State} {c : CoreId} {q : KReq} {self : Option CoreId}

/-- Each participant's instruction retires, but for the grant that the acceptance may use. -/
theorem acceptReq_core {x : CoreId} {p : KReq} (hx : x ∈ reqCores s c q) (hp : (s.core x).kreq = some p) :
    ∃ g, (acceptReq s c q self).core x = retireReq p (self == some x) { s.core x with grants := g } := by
  obtain ⟨-, hcharge⟩ := chargeReq_shape s c q
  obtain ⟨g, hg⟩ := hcharge x hx
  obtain ⟨htake, -, -⟩ := takeStage_shape (chargeReq s c q) (rowOf c) s.nextUid q
  obtain ⟨hfold, -, -, -⟩ := fold_core (fun x k => retireReq (k.kreq.getD q) (self == some x) k) _
    (takeStage (chargeReq s c q) (rowOf c) s.nextUid q) (reqCores_nodup s c q)
  have hcore := hfold x hx
  rw [htake, hg] at hcore
  exact ⟨g, hcore.trans (by simp only [hp, Option.getD_some])⟩

/-- The operation joins the row's list. -/
theorem acceptReq_kops : ∃ op, ((acceptReq s c q self).row (rowOf c)).kops = (s.row (rowOf c)).kops ++ [op] ∧
    op.uid = s.nextUid ∧ op.kind = q.kind ∧ op.ring = q.ring := by
  obtain ⟨⟨hrows, -⟩, -⟩ := chargeReq_shape s c q
  obtain ⟨-, -, htake⟩ := takeStage_shape (chargeReq s c q) (rowOf c) s.nextUid q
  obtain ⟨-, -, hfold, -⟩ := fold_core (fun x k => retireReq (k.kreq.getD q) (self == some x) k) _
    (takeStage (chargeReq s c q) (rowOf c) s.nextUid q) (reqCores_nodup s c q)
  have hold : ((chargeReq s c q).row (rowOf c)).kops = (s.row (rowOf c)).kops := by simp only [State.row, hrows]
  refine ⟨_, (congrArg Row.kops (row_setRow ..)).trans (congrArg (· ++ _) ?_), rfl, rfl, rfl⟩
  rw [hfold, htake, hold]

end

theorem acceptRow_picked {s : State} {r : Nat} {c : CoreId} {q : KReq} (hpick : kilnPick s r = some c)
    (hreq : (s.core c).kreq = some q) (self : Option CoreId) : acceptRow s r self = acceptReq s c q self := by
  simp only [acceptRow, hpick, hreq]

/-! ### The slip phase (R161, R164, R165) -/

section
variable {s : State} {r : Nat} {o : KOp}
  (hnext : (s.row r).kops.find? (fun o => o.needsSlip && o.phase == .accepted) = some o)
include hnext

theorem slipPhase_load (hkind : o.kind = .slip) :
    let a := stageAddr s r o
    slipPhase s r = modOp (s.setRow r { s.row r with
      slip := memShiftDown (memSlice (s.row r).rs a (a + 8192)) a, slipLoaded := true }) r o.uid
      (fun y => { y with phase := .slipDone }) := by
  simp only [slipPhase, hnext, hkind]
  rfl

variable {kcount n : Nat} {zero keep : Bool}

theorem slipPhase_expand (hkind : o.kind = .mm true kcount n zero keep) :
    let b := expandB s r o n
    slipPhase s r = modOp s r o.uid (fun y => { y with
      phase := .slipDone, slipB := b.map (·.code), flags := y.parts.map (fun p => (p.k, orFlags b)) }) := by
  simp only [slipPhase, hnext, hkind]

theorem slipPhase_absorb (hkind : o.kind = .mm false kcount n zero keep) :
    slipPhase s r = modOp s r o.uid (fun y => { y with
      phase := .slipDone, slipA := o.parts.map (fun p => (p.k, (absorbA s r o p).map (·.code)))
      flags := o.parts.map (fun p => (p.k, orFlags (absorbA s r o p))) }) := by
  simp only [slipPhase, hnext, hkind, List.map_map]
  rfl

end

/-! ### The kiln phase (R67-R70, R167) -/

theorem findOp_uid {s : State} {r uid : Nat} {o : KOp} (h : findOp s r uid = some o) : o.uid = uid :=
  eq_of_beq (List.find?_some (p := fun o : KOp => o.uid == uid) h)

section
variable {s : State} {r uid : Nat} {o : KOp} (hfind : findOp s r uid = some o)
  (hphase : o.phase = (if o.needsSlip then .slipDone else .accepted)) (hbefore : ∀ x ∈ before s r o, x.phase = .kiln)
  (bad i at' : Nat)
include hphase hbefore

theorem kilnPhase_ready : (o.phase == (if o.needsSlip then .slipDone else .accepted) &&
    (before s r o).all (fun x => x.phase == .kiln)) = true := by
  rw [Bool.and_eq_true, beq_iff_eq, List.all_eq_true]
  exact ⟨hphase, fun x hx => beq_iff_eq.2 (hbefore x hx)⟩

include hfind

theorem kilnPhase_multiply {x : Bool} {kcount n : Nat} {zero keep : Bool} (hkind : o.kind = .mm x kcount n zero keep) :
    let b := (List.range n).map (fun j => (List.range kcount).map (fun t => operandB s r o n t j))
    kilnPhase s r uid true bad i at' = modOp s r uid (fun y => { y with
      phase := .kiln, shadow := o.parts.map (fun p => (p.k, (sliceResult s r o kcount n zero b p).1))
      flags := o.parts.map (fun p => (p.k, (sliceResult s r o kcount n zero b p).2)) }) := by
  simp only [kilnPhase, hfind, kilnPhase_ready hphase hbefore, hkind, Bool.not_true, Bool.false_eq_true, if_false,
    List.map_map]
  rfl

theorem kilnPhase_other (hkind : o.kind = .slip ∨ o.kind = .clr) :
    kilnPhase s r uid true bad i at' = modOp s r uid (fun y => { y with phase := .kiln }) := by
  rcases hkind with hkind | hkind
  · simp only [kilnPhase, hfind, kilnPhase_ready hphase hbefore, hkind, Bool.not_true, Bool.false_eq_true, if_false]
  · simp only [kilnPhase, hfind, kilnPhase_ready hphase hbefore, hkind, Bool.not_true, Bool.false_eq_true, if_false]

end

/-! ### The cells of a slice's shadow (R67-R69) -/

/-- A shadow with a row's results written to its first n cells, and the flags of the row. -/
def writeRow (i : Nat) (cell : Nat → Nat × Nat) (n : Nat) (r : Mem × Nat) : Mem × Nat :=
  (List.range n).foldl (fun r j => (memWrite r.1 (256 * i + 4 * j) 4 (cell j).1, natOr r.2 (cell j).2)) r

/-- A shadow with the results of m rows of n cells. -/
def writeRows (cell : Nat → Nat → Nat × Nat) (n m : Nat) (r : Mem × Nat) : Mem × Nat :=
  (List.range m).foldl (fun r i => writeRow i (cell i) n r) r

theorem accCell_addr (i j : Nat) (m : Mem) : accCell m i j = memRead m (256 * i + 4 * j) 4 := by
  rw [accCell, Nat.mul_add, ← Nat.mul_assoc]

section
variable {i : Nat} {cell : Nat → Nat × Nat} {n : Nat}

theorem writeRow_succ (r : Mem × Nat) : (writeRow i cell (n + 1) r).1 =
    memWrite (writeRow i cell n r).1 (256 * i + 4 * n) 4 (cell n).1 := by
  rw [writeRow, List.range_succ, List.foldl_append]
  rfl

theorem writeRow_wf {r : Mem × Nat} (h : Memory.wf r.1 = true) : Memory.wf (writeRow i cell n r).1 = true := by
  induction n with
  | zero => exact h
  | succ n ih =>
    rw [writeRow_succ]
    exact memWrite_wf _ _ _ _ ih

/-- A row's results change no other row. -/
theorem accCell_writeRow_ne {r : Mem × Nat} (h : Memory.wf r.1 = true) (hn : n ≤ 64) {i' j : Nat} (hi : i' ≠ i)
    (hj : j < 64) :
    accCell (writeRow i cell n r).1 i' j = accCell r.1 i' j := by
  induction n with
  | zero => rfl
  | succ n ih =>
    rw [writeRow_succ, accCell_addr, memRead_memWrite_out _ _ _ _ _ _ (writeRow_wf h) (by omega), ← accCell_addr,
      ih (by omega)]

theorem accCell_writeRow {r : Mem × Nat} (h : Memory.wf r.1 = true) {j : Nat} (hj : j < n) :
    accCell (writeRow i cell n r).1 i j = (cell j).1 % 2 ^ 32 := by
  induction n with
  | zero => exact absurd hj (Nat.not_lt_zero j)
  | succ n ih =>
    rw [writeRow_succ, accCell_addr]
    by_cases hlast : j = n
    · rw [hlast, memRead_memWrite _ _ _ _ (writeRow_wf h)]
    · rw [memRead_memWrite_out _ _ _ _ _ _ (writeRow_wf h) (by omega), ← accCell_addr, ih (by omega)]

end

section
variable {cell : Nat → Nat → Nat × Nat} {n m : Nat} {r : Mem × Nat}

theorem writeRows_succ : writeRows cell n (m + 1) r = writeRow m (cell m) n (writeRows cell n m r) := by
  rw [writeRows, List.range_succ, List.foldl_append]
  rfl

variable (h : Memory.wf r.1 = true)
include h

theorem writeRows_wf : Memory.wf (writeRows cell n m r).1 = true := by
  induction m with
  | zero => exact h
  | succ m ih =>
    rw [writeRows_succ]
    exact writeRow_wf ih

theorem accCell_writeRows (hn : n ≤ 64) {i j : Nat} (hi : i < m) (hj : j < n) :
    accCell (writeRows cell n m r).1 i j = (cell i j).1 % 2 ^ 32 := by
  induction m with
  | zero => exact absurd hi (Nat.not_lt_zero i)
  | succ m ih =>
    rw [writeRows_succ]
    by_cases hlast : i = m
    · rw [hlast, accCell_writeRow (writeRows_wf h) hj]
    · rw [accCell_writeRow_ne (writeRows_wf h) hn hlast (by omega), ih (by omega)]

end

/-- The accumulators of a slice as the operation finds them: with the shadows of the earlier operations. -/
def accBefore (s : State) (r : Nat) (o : KOp) (p : KPart) : Mem :=
  (before s r o).foldl (fun a x => applyShadow x p.k a) (s.core (coreAt r p.k)).acc

/-- The result and the flags of cell (i, j) of a slice (R67). -/
def sliceCell (s : State) (r : Nat) (o : KOp) (kcount : Nat) (zero : Bool) (b : List (List Val)) (p : KPart) (i j : Nat) :
    Nat × Nat :=
  addStage o.ctx.acc (if zero then 0 else accCell (accBefore s r o p) i j)
    (stageSum (((List.range kcount).map (operandA s r o p i)).zip (nth b j [])))

theorem sliceResult_eq (s : State) (r : Nat) (o : KOp) (kcount n : Nat) (zero : Bool) (b : List (List Val)) (p : KPart) :
    sliceResult s r o kcount n zero b p =
      writeRows (sliceCell s r o kcount zero b p) n p.m ([], (alookup p.k o.flags).getD 0) := rfl

theorem nth_map_range {α : Type} (f : Nat → α) (d : α) {j n : Nat} (h : j < n) : nth ((List.range n).map f) j d = f j := by
  simp only [nth, List.getD_eq_getElem?_getD, List.getElem?_map, List.getElem?_range h, Option.map_some, Option.getD_some]

/-- The products of a cell pair a row of A with a column of B (R68). -/
theorem sliceCell_products (s : State) (r : Nat) (o : KOp) (kcount : Nat) {n : Nat} (zero : Bool) (p : KPart) (i : Nat)
    {j : Nat} (hj : j < n) :
    sliceCell s r o kcount zero
        ((List.range n).map (fun j => (List.range kcount).map (fun t => operandB s r o n t j))) p i j =
      addStage o.ctx.acc (if zero then 0 else accCell (accBefore s r o p) i j)
        (stageSum ((List.range kcount).map (fun t => (operandA s r o p i t, operandB s r o n t j)))) := by
  rw [sliceCell, nth_map_range _ _ hj, List.zip_map']

/-! ### Retirement (R158, R162, R167) -/

section
variable {α : Type} (place : α → CoreId) (f : α → Core → Core)

/-- Each entry of a list changes the core that it names. -/
def changeCores (l : List α) (s : State) : State := l.foldl (fun s a => s.modCore (place a) (f a)) s

theorem core_changeCores_ne {c : CoreId} : ∀ (l : List α) (s : State), (∀ a ∈ l, pid c ≠ pid (place a)) →
    (changeCores place f l s).core c = s.core c
  | [], _, _ => rfl
  | a :: l, _, h => (core_changeCores_ne l _ fun b hb => h b (List.mem_cons_of_mem _ hb)).trans
      (core_setCore_ne _ _ (h a List.mem_cons_self))

/-- Where no two entries name one core, each core is changed once. -/
theorem core_changeCores : ∀ (l : List α) (s : State), (l.map (fun a => pid (place a))).Nodup → ∀ a ∈ l,
    (changeCores place f l s).core (place a) = f a (s.core (place a))
  | b :: l, _, hnd, a, ha => by
    rw [List.map_cons, List.nodup_cons] at hnd
    obtain ⟨hb, hnd⟩ := hnd
    have hne : ∀ x ∈ l, pid (place b) ≠ pid (place x) := fun x hx he => hb (he ▸ List.mem_map_of_mem hx)
    rcases List.mem_cons.1 ha with rfl | ha
    · exact (core_changeCores_ne place f l _ hne).trans (core_setCore ..)
    · exact (core_changeCores l _ hnd a ha).trans (congrArg (f a) (core_setCore_ne _ _ (hne a ha).symm))

theorem row_changeCores (l : List α) (s : State) (r : Nat) : (changeCores place f l s).row r = s.row r :=
  foldl_keeps (f := fun s a => s.modCore (place a) (f a)) (fun s => s.row r) (fun _ _ => rfl) l s

end

/-- The slices of a row are different cores. -/
theorem slices_nodup {r : Nat} {l : List KPart} (h : (l.map (·.k)).Nodup) : (l.map (fun p => pid (coreAt r p.k))).Nodup := by
  have hmap : l.map (fun p => pid (coreAt r p.k)) = (l.map (·.k)).map (fun k => 8 * r + k) := by
    rw [List.map_map]
    rfl
  rw [hmap]
  exact List.Pairwise.map _ (fun a b hab he => hab (by omega)) h

theorem retireSlice_fields (o : KOp) (p : KPart) (k : Core) : (retireSlice o p k).acc = applyShadow o p.k k.acc ∧
    (retireSlice o p k).kout = k.kout - 1 ∧ (retireSlice o p k).kheld = k.kheld.erase p.tile := by
  obtain ⟨_, _, _, _, h⟩ :=
    (effect_sticky { k with acc := applyShadow o p.k k.acc } ((alookup p.k o.flags).getD 0)).only
  rw [retireSlice, h]
  exact ⟨rfl, rfl, rfl⟩

/-- The row without an operation that retires. -/
def withoutOp (uid : Nat) (row : Row) : Row := { row with kops := row.kops.filter (fun x => x.uid != uid) }

/-- A ring once an operation on it has retired: what is retired at its head is popped (R158). -/
def ringRetired (uid : Nat) (g : Ring) : Ring :=
  popRetired 16 { g with taken := g.taken.map (fun t => if t.1 = uid then (t.1, t.2.1, true) else t) }

/-- The stages that this pops. -/
def poppedStages (uid : Nat) (g : Ring) : List Nat :=
  (g.taken.take (g.taken.length - (ringRetired uid g).taken.length)).map (fun t => t.2.1)

/-- The row after the retirement of an operation on ring q. -/
def rowRetired (uid q : Nat) (row : Row) : Row :=
  let g := nth row.rings q {}
  { row with
    rings := setAt row.rings q (ringRetired uid g)
    kops := (row.kops.filter (fun x => x.uid != uid)).map
      (fun x => if x.ring == some q && (poppedStages uid g).contains x.stage then { x with popped := true } else x) }

theorem setRow_setRow (s : State) (r : Nat) (k k' : Row) : (s.setRow r k).setRow r k' = s.setRow r k' := by
  simp only [State.setRow, ainsert_ainsert]

section
variable {s : State} {r uid : Nat} {o : KOp} (hfind : findOp s r uid = some o) (hphase : o.phase = .kiln)
  (hbefore : before s r o = [])
include hfind hphase hbefore

theorem retireOp_noRing (hring : o.ring = none) :
    retireOp s r uid =
      (changeCores (fun p => coreAt r p.k) (retireSlice o) o.parts s).setRow r (withoutOp uid (s.row r)) := by
  rw [← row_changeCores (fun p => coreAt r p.k) (retireSlice o) o.parts s r]
  simp only [retireOp, hfind, hphase, hbefore, hring, bne_self_eq_false, List.isEmpty_nil, Bool.not_true, Bool.or_self,
    Bool.false_eq_true, if_false]
  rfl

theorem retireOp_ring {q : Nat} (hring : o.ring = some q) :
    retireOp s r uid =
      (changeCores (fun p => coreAt r p.k) (retireSlice o) o.parts s).setRow r (rowRetired uid q (s.row r)) := by
  rw [← row_changeCores (fun p => coreAt r p.k) (retireSlice o) o.parts s r]
  simp only [retireOp, hfind, hphase, hbefore, hring, bne_self_eq_false, List.isEmpty_nil, Bool.not_true, Bool.or_self,
    Bool.false_eq_true, if_false, modRing, modRow_eq, ringOf, row_setRow, setRow_setRow]
  rfl

end

/-- A slice of an operation that retires, whatever becomes of the row. -/
theorem retired_slice {s : State} {r : Nat} {o : KOp} (hparts : (o.parts.map (·.k)).Nodup) (row : Row) {p : KPart}
    (hp : p ∈ o.parts) :
    let k := s.core (coreAt r p.k)
    let k1 := ((changeCores (fun p => coreAt r p.k) (retireSlice o) o.parts s).setRow r row).core (coreAt r p.k)
    k1.acc = applyShadow o p.k k.acc ∧ k1.kout = k.kout - 1 ∧ k1.kheld = k.kheld.erase p.tile := by
  rw [core_setRow, core_changeCores _ _ _ s (slices_nodup hparts) p hp]
  exact retireSlice_fields o p _

/-- Settles O45: acceptance through the shape of `acceptReq`, the two phases by their cases, the cells of a shadow by
induction on its rows and columns, retirement through the different cores of the operation's slices. -/
theorem kilnEvents : Obligations.KilnEvents := by
  unfold Obligations.KilnEvents
  intro s c0 q0 o r row replaced
  refine ⟨fun hpick hreq => ?accept, fun hnext => ?slip, fun hfind hok hphase hbefore => ?kiln,
    fun kn n z p i j hi hj hn => ?cells, fun hfind hphase hbefore hparts => ?retire⟩
  case accept =>
    have hrow : rowOf c0 = r := kilnPick_row hpick
    refine ⟨acceptReq s c0 q0 none, congrArg Host.Outcome.next (acceptRow_picked hpick hreq none), rfl, ?_,
      fun x hx p hp => ?_⟩
    · have hkops := acceptReq_kops (s := s) (c := c0) (q := q0) (self := none)
      rwa [hrow] at hkops
    · obtain ⟨g, hcore⟩ := acceptReq_core (self := none) hx hp
      rw [hcore]
      obtain ⟨hkreq, hkout, -, -⟩ := retireReq_shape p false { s.core x with grants := g }
      exact ⟨hkreq, hkout, retireReq_pc p _⟩
  case slip =>
    exact ⟨fun hkind => congrArg Host.Outcome.next (slipPhase_load hnext hkind),
      fun kn n z kp hkind => congrArg Host.Outcome.next (slipPhase_expand hnext hkind),
      fun kn n z kp hkind => congrArg Host.Outcome.next (slipPhase_absorb hnext hkind)⟩
  case kiln =>
    have hexec : exec .kilnPhaseStart s =
        .next (kilnPhase s r o.uid true s.ev.k (s.ev.nats.headD 0) s.ev.w) := by
      rw [findOp_uid hfind, ← hok]
      rfl
    rw [← findOp_uid hfind] at hfind
    exact ⟨fun hkind => hexec.trans (congrArg Host.Outcome.next (kilnPhase_other hfind hphase hbefore _ _ _ hkind)),
      fun x kn n z kp hkind =>
        hexec.trans (congrArg Host.Outcome.next (kilnPhase_multiply hfind hphase hbefore _ _ _ hkind))⟩
  case cells =>
    intro b acc old products
    rw [sliceResult_eq, accCell_writeRows rfl hn hi hj, sliceCell_products _ _ _ _ _ _ _ hj]
    rfl
  case retire =>
    cases hring : o.ring with
    | none =>
      refine ⟨_, congrArg Host.Outcome.next (retireOp_noRing hfind hphase hbefore hring), fun _ => ?_,
        fun q hq => absurd hq nofun, fun p hp => retired_slice hparts _ hp⟩
      rw [row_setRow]
      exact ⟨rfl, rfl⟩
    | some q =>
      refine ⟨_, congrArg Host.Outcome.next (retireOp_ring hfind hphase hbefore hring), fun h => absurd h nofun,
        fun q' hq => ?_, fun p hp => retired_slice hparts _ hp⟩
      cases hq
      rw [row_setRow]
      exact ⟨rfl, rfl⟩

end Sys2Proof.Proofs.KilnEvents
end

section
/-!
PROOFS of 08_firings: the selection of a channel and the start of its firing.
-/
namespace Sys2Proof.Proofs.Selecting

open Sys2Proof.Machine Sys2Proof.Safety

/-! ### Selection (R187) -/

/-- The channels in the order in which selection tries them: from the one after LAST, around. -/
def rotation (k : Core) : List Nat := (List.range 32).map (fun i => (k.last + 1 + i) % 32)

/-- The place of a channel in that order. -/
def turnOf (k : Core) (n : Nat) : Nat := (n + 32 - (k.last + 1) % 32) % 32

/-- Selection looks for a runnable channel of a priority. -/
def runnableAt (k : Core) (p n : Nat) : Bool := (nth k.chans n {}).runnable && (nth k.chans n {}).ctl.prio == p

theorem runnableAt_iff {k : Core} {p n : Nat} :
    runnableAt k p n = true ↔ (nth k.chans n {}).runnable = true ∧ (nth k.chans n {}).ctl.prio = p := by
  rw [runnableAt, Bool.and_eq_true, beq_iff_eq]

theorem turnOf_lt (k : Core) (n : Nat) : turnOf k n < (rotation k).length := by
  rw [rotation, List.length_map, List.length_range]
  exact Nat.mod_lt _ (by decide)

theorem rotation_getElem (k : Core) (i : Nat) (h : i < (rotation k).length) :
    (rotation k)[i] = (k.last + 1 + i) % 32 := by
  simp [rotation]

theorem rotation_turnOf {k : Core} {n : Nat} (h : n < 32) : (rotation k)[turnOf k n]'(turnOf_lt k n) = n := by
  rw [rotation_getElem, turnOf]
  omega

theorem turnOf_rotation {k : Core} {i : Nat} (h : i < (rotation k).length) : turnOf k (rotation k)[i] = i := by
  rw [rotation_getElem, turnOf]
  rw [rotation, List.length_map, List.length_range] at h
  omega

theorem mem_rotation {k : Core} {n : Nat} (h : n < 32) : n ∈ rotation k :=
  List.mem_iff_getElem.2 ⟨_, turnOf_lt k n, rotation_turnOf h⟩

/-- The channel that selection takes is the first of its priority in the rotation, and no higher priority has one. -/
theorem pickChannel_first {k : Core} {ch : Nat} (h : pickChannel k = some ch) :
    ∃ p ≤ 3, (rotation k).find? (runnableAt k p) = some ch ∧
      ∀ q, q ≤ 3 → p < q → ∀ n < 32, runnableAt k q n = false := by
  obtain ⟨p, hp, hfind, habove⟩ := findSome_prio k (rotation k) ch h
  refine ⟨p, hp, hfind, fun q hq hpq n hn => Bool.eq_false_iff.2 fun hrun => ?_⟩
  exact List.find?_eq_none.1 (habove q hq hpq) n (mem_rotation hn) hrun

/-- Before the first runnable channel of a priority in the rotation stands none. -/
theorem rotation_first {k : Core} {p ch : Nat} (h : (rotation k).find? (runnableAt k p) = some ch) :
    ch < 32 ∧ runnableAt k p ch = true ∧ ∀ n < 32, runnableAt k p n = true → turnOf k ch ≤ turnOf k n := by
  obtain ⟨hch, i, hi, rfl, hbefore⟩ := List.find?_eq_some_iff_getElem.1 h
  refine ⟨?_, hch, fun n hn hrun => ?_⟩
  · rw [rotation_getElem]
    exact Nat.mod_lt _ (by decide)
  · rw [turnOf_rotation hi]
    refine Nat.le_of_not_lt fun hlt => ?_
    have hnot := hbefore _ hlt
    rw [rotation_turnOf hn, hrun] at hnot
    cases hnot

/-- A core that may select, with no trap pending and its launch alive, starts the firing of the picked channel (R188). -/
theorem selectFiring_starts {s : State} {c : CoreId} {ch : Nat} (hidle : (s.core c).idleReady = true)
    (hpend : (s.core c).bpend = []) (halive : launchKilled s (s.core c) = false) (hstop : s.health.stopped = false)
    (hpick : pickChannel (s.core c) = some ch) (hkeep : dropCancelled (s.core c) ch = none)
    (hwp : 1024 * (nth (s.core c).chans ch {}).ctl.wpi = (s.core c).wp ∨ (s.core c).pendDst = []) :
    selectFiring s c = s.setCore c (startFiring (s.core c) ch (coreTemper s (s.core c))) := by
  have hmove : ¬ (1024 * (nth (s.core c).chans ch {}).ctl.wpi ≠ (s.core c).wp ∧ (!(s.core c).pendDst.isEmpty) = true) := by
    rintro ⟨hne, hdst⟩
    rw [hwp.resolve_left hne] at hdst
    cases hdst
  simp only [selectFiring, hidle, hpend, halive, hstop, hpick, hkeep]
  exact if_neg hmove

theorem idleReady_of {k : Core} (hrun : k.run = .idle) (hlife : k.life = .active) (ht : k.tframe = none)
    (hl : k.lframe = none) (hreq : k.pairReq ≠ 3) (hch : k.pst ≠ .checker) (hco : k.pst ≠ .coupling) :
    k.idleReady = true := by
  rw [Core.idleReady, hrun, hlife, ht, hl, bne_iff_ne.2 hreq, bne_iff_ne.2 hch, bne_iff_ne.2 hco]
  rfl

/-- Settles O24: the start of the firing, and the channel that selection picks. -/
theorem selection : Obligations.Selection := by
  unfold Obligations.Selection
  refine ⟨fun s c ch => ?starts, fun k ch hprio hpick => ?picks⟩
  case starts =>
    intro k e hc hrun hlife ht hl hreq hch hco hpend halive hstop hpick hkeep hwp hwf
    subst hc
    exact ⟨_, congrArg _ (selectFiring_starts (idleReady_of hrun hlife ht hl hreq hch hco) hpend halive hstop hpick
      hkeep hwp), start_ok k ch (coreTemper s k) hwf⟩
  case picks =>
    obtain ⟨p, hp, hfind, habove⟩ := pickChannel_first hpick
    obtain ⟨hlt, hch, hfirst⟩ := rotation_first hfind
    obtain ⟨hrun, rfl⟩ := runnableAt_iff.1 hch
    refine ⟨hlt, hrun, fun n hn hrunn => ⟨Nat.le_of_not_lt fun hlow => ?_, fun heq => ?_⟩⟩
    · have hnone := habove _ (hprio n hn) hlow n hn
      rw [runnableAt_iff.2 ⟨hrunn, rfl⟩] at hnone
      cases hnone
    · exact hfirst n hn (runnableAt_iff.2 ⟨hrunn, heq⟩)

end Sys2Proof.Proofs.Selecting
end

section
/-!
PROOFS of 08_firings: the words of a message land in a channel's FIFO.
-/
namespace Sys2Proof.Proofs.Landing

open Sys2Proof.Machine Sys2Proof.Safety

/-! ### The slots of arriving words (R191, Table 8-5) -/

/-- The slot after a FIFO's last word. -/
def tailSlot (e : Chan) : Nat := (e.head + e.fill) % e.size

/-- The slots skipped where n words do not fit before the FIFO's end. -/
def skipped (e : Chan) (n : Nat) : Nat := if tailSlot e + n ≤ e.size then 0 else e.size - tailSlot e

/-- The first slot of n arriving words. -/
def firstSlot (e : Chan) (n : Nat) : Nat := if tailSlot e + n ≤ e.size then tailSlot e else 0

/-- The channel entry after n words have landed. -/
def filled (e : Chan) (n : Nat) : Chan :=
  { e with fill := e.fill + skipped e n + n, skip := if skipped e n = 0 then e.skip else skipped e n }

/-- Table 8-5: the words take their slots where the skipped slots leave room for them. -/
theorem landSlot_eq {e : Chan} (n : Nat) (h : e.fill ≤ e.size) : landSlot e n =
    if e.size < e.fill + skipped e n + n then none else some (firstSlot e n, skipped e n) := by
  have htail : 0 < e.size → tailSlot e < e.size := Nat.mod_lt _
  have hslot : landSlot e n = if n ≤ e.size - e.fill ∧ tailSlot e + n ≤ e.size then some (tailSlot e, 0)
      else if e.size < tailSlot e + n ∧ (e.size - tailSlot e) + n ≤ e.size - e.fill then some (0, e.size - tailSlot e)
      else none := rfl
  rw [hslot]
  by_cases hfit : tailSlot e + n ≤ e.size
  · rw [skipped, if_pos hfit, firstSlot, if_pos hfit]
    by_cases hroom : e.size < e.fill + 0 + n
    · rw [if_pos hroom, if_neg (by omega), if_neg (by omega)]
    · rw [if_neg hroom, if_pos (by omega)]
  · rw [skipped, if_neg hfit, firstSlot, if_neg hfit, if_neg (fun h => hfit h.2)]
    by_cases hroom : e.size < e.fill + (e.size - tailSlot e) + n
    · rw [if_pos hroom, if_neg (by omega)]
    · rw [if_neg hroom, if_pos (by omega)]

/-! ### The words in the store (R184) -/

/-- The core once the marker of the skipped slots stands at the FIFO's tail. -/
def marked (k : Core) (e : Chan) (skip : Nat) : Core :=
  if skip = 0 then k else deliver k (8 * (e.base + tailSlot e)) (toBytes 8 (0xFFFFFFFF00000000 + skip))

/-- The core once words stand in the store from a slot, their channel entry and their header in place. -/
def placedWords (k : Core) (ch hdr : Nat) (e : Chan) (slot : Nat) (ws : List Nat) : Core :=
  let k2 := deliver k (8 * slot) ((ws.map (toBytes 8)).flatten)
  { k2 with chans := setAt k2.chans ch e, hdrs := k2.hdrs ++ [(ch, { word := hdr })] }

/-- A message is refused where its channel is unbound, 64 headers wait or Table 8-5 finds no room, and lands otherwise. -/
theorem landWords_eq {k : Core} {ch : Nat} (hdr : Nat) (ws : List Nat)
    (h : (nth k.chans ch {}).fill ≤ (nth k.chans ch {}).size) : landWords k ch hdr ws =
    let e := nth k.chans ch {}
    if e.bind = 0 ∨ 64 ≤ k.hdrs.length then none
    else if e.size < e.fill + skipped e ws.length + ws.length then none
    else some (raiseH3 (placedWords (marked k e (skipped e ws.length)) ch hdr (filled e ws.length)
      (e.base + firstSlot e ws.length) ws) ch ws.length) := by
  have hmatch : landWords k ch hdr ws =
      if (nth k.chans ch {}).bind = 0 ∨ 64 ≤ k.hdrs.length then none
      else match landSlot (nth k.chans ch {}) ws.length with
        | none => none
        | some (q, skip) => some (raiseH3 (placedWords (marked k (nth k.chans ch {}) skip) ch hdr
            { nth k.chans ch {} with
              fill := (nth k.chans ch {}).fill + skip + ws.length, skip := if skip = 0 then (nth k.chans ch {}).skip else skip }
            ((nth k.chans ch {}).base + q) ws) ch ws.length) := rfl
  by_cases hfull : (nth k.chans ch {}).size <
      (nth k.chans ch {}).fill + skipped (nth k.chans ch {}) ws.length + ws.length
  · simp only [hmatch, landSlot_eq _ h, if_pos hfull]
  · simp only [hmatch, landSlot_eq _ h, if_neg hfull]
    rfl

theorem landWords_none_iff {k : Core} {ch hdr : Nat} {ws : List Nat}
    (h : (nth k.chans ch {}).fill ≤ (nth k.chans ch {}).size) : landWords k ch hdr ws = none ↔
      (nth k.chans ch {}).bind = 0 ∨ 64 ≤ k.hdrs.length ∨
        (nth k.chans ch {}).size < (nth k.chans ch {}).fill + skipped (nth k.chans ch {}) ws.length + ws.length := by
  rw [landWords_eq hdr ws h, ← or_assoc]
  dsimp only
  split
  · next hno => exact iff_of_true rfl (Or.inl hno)
  · next hyes =>
    split
    · next hfull => exact iff_of_true rfl (Or.inr hfull)
    · next hroom => exact iff_of_false nofun (fun h => h.elim hyes hroom)

/-- Bytes delivered to a core without a workspace are written as they are. -/
theorem deliver_ls (k : Core) (a : Nat) (bs : List Byte) :
    ∃ ls, deliver k a bs = { k with ls := ls } ∧
      (k.hasWorkspace = false → ls = memPut k.ls a bs ∧ (Memory.wf k.ls = true → Memory.wf ls = true)) := by
  obtain ⟨ls, heq, hput⟩ := delivers bs k a
  exact ⟨ls, heq, fun hw => ⟨hput hw, fun hwf => hput hw ▸ memPut_wf bs _ a hwf⟩⟩

theorem marked_ls (k : Core) (e : Chan) (skip : Nat) :
    ∃ ls, marked k e skip = { k with ls := ls } ∧
      (k.hasWorkspace = false → Memory.wf k.ls = true → Memory.wf ls = true) := by
  unfold marked
  split
  · exact ⟨k.ls, rfl, fun _ => id⟩
  · obtain ⟨ls, heq, hput⟩ := deliver_ls k (8 * (e.base + tailSlot e)) (toBytes 8 (0xFFFFFFFF00000000 + skip))
    exact ⟨ls, heq, fun hw => (hput hw).2⟩

/-- What a message that lands changes: its words in the store, its channel's entry, its header, and the FILL of h3. -/
theorem landWords_lands {k k' : Core} {ch hdr : Nat} {ws : List Nat}
    (h : (nth k.chans ch {}).fill ≤ (nth k.chans ch {}).size) (hland : landWords k ch hdr ws = some k') :
    let e := nth k.chans ch {}
    ∃ ls sh, k' = { k with
        ls := ls, sh := sh, chans := setAt k.chans ch (filled e ws.length), hdrs := k.hdrs ++ [(ch, { word := hdr })] } ∧
      (k.h3fifo = false → k.hasWorkspace = false → Memory.wf k.ls = true →
        ∃ l1, Memory.wf l1 = true ∧
          ls = memPut l1 (8 * (e.base + firstSlot e ws.length)) ((ws.map (toBytes 8)).flatten)) := by
  intro e
  rw [landWords_eq hdr ws h] at hland
  dsimp only at hland
  split at hland
  · cases hland
  · split at hland
    · cases hland
    · cases hland
      obtain ⟨l1, hmark, hwf⟩ := marked_ls k e (skipped e ws.length)
      obtain ⟨l2, hput, hbytes⟩ := deliver_ls { k with ls := l1 } (8 * (e.base + firstSlot e ws.length))
        ((ws.map (toBytes 8)).flatten)
      rw [hmark, placedWords, hput]
      obtain ⟨l3, sh, hraise, hkeep⟩ := raise_shape { k with
        ls := l2, chans := setAt k.chans ch (filled e ws.length), hdrs := k.hdrs ++ [(ch, { word := hdr })] } ch ws.length
      exact ⟨l3, sh, hraise, fun h3 hw hls => ⟨l1, hwf hw hls, (hkeep h3).trans (hbytes hw).1⟩⟩

/-- Words written one after another are read back, each in its place. -/
theorem memRead_words {m : Mem} (ws : List Nat) {q j : Nat} (hm : Memory.wf m = true) (hj : j < ws.length) :
    memRead (memPut m (8 * q) ((ws.map (toBytes 8)).flatten)) (8 * (q + j)) 8 = nth ws j 0 % 2 ^ 64 := by
  rw [memRead, show 8 * (q + j) = 8 * q + 8 * j by omega,
    memBytes_memPut_part _ _ _ _ _ hm (by rw [flatten_words_length]; omega), flatten_word _ _ hj, ofBytes_toBytes]

/-- Settles O33, from what a landing changes. -/
theorem messagesLand : Obligations.MessagesLand := by
  unfold Obligations.MessagesLand
  intro k ch hdr words e n tail skip slot _ hfill
  refine ⟨landWords_none_iff hfill, fun k' hland => ?_⟩
  obtain ⟨ls, sh, rfl, hbytes⟩ := landWords_lands hfill hland
  refine ⟨rfl, rfl, rfl, rfl, rfl, rfl, fun hwf h3 hw j hj => ?_⟩
  obtain ⟨l1, hl1, rfl⟩ := hbytes h3 hw hwf.1
  exact memRead_words words hl1 hj

end Sys2Proof.Proofs.Landing
end

section
/-!
PROOFS of 08_firings: messages, enqueues and packets in the network and at their cores.
-/
namespace Sys2Proof.Proofs.Delivery

open Sys2Proof.Machine Sys2Proof.Safety

/-! ### The sender's count (R195) -/

/-- The state with a core's ct.m one lower. -/
def lowered (s : State) (x : CoreId) : State := s.setCore x { s.core x with ctm := (s.core x).ctm - 1 }

theorem senderLives_src {s : State} {m : Msg} {x : CoreId} (h : senderLives s m = some x) : m.src = some x := by
  unfold senderLives at h
  split at h
  · next y hsrc =>
    split at h
    · rw [hsrc, h]
    · cases h
  · cases h

/-- An item leaves the network at a core that keeps its placement, and its sender's count falls. -/
theorem lowerCtm_dropNet {s : State} {c x : CoreId} {k : Core} {m : Msg} (i : Nat) (hlive : senderLives s m = some x)
    (hkeep : k.life = (s.core c).life ∧ k.ctx = (s.core c).ctx ∧ k.launch = (s.core c).launch) :
    lowerCtm (dropNet (s.setCore c k) i) m = { lowered (s.setCore c k) x with net := dropAt s.net i } :=
  lower_keeps (senderLives_src hlive) (setCore_keeps s c x k hkeep) hlive

/-! ### Messages (R184, R185, R194-R196) -/

theorem injectMessage_enters {s : State} {c : CoreId} {m : Msg} {ms : List Msg} (hout : (s.core c).sout = m :: ms)
    (hroute : ∀ x ∈ s.net, sameRoute m x = false) :
    injectMessage s c = { s.setCore c { s.core c with sout := ms } with net := s.net ++ [m] } := by
  have hfree : s.net.any (sameRoute m) = false := List.any_eq_false.2 fun x hx => Bool.not_eq_true _ ▸ hroute x hx
  simp only [injectMessage, hout, hfree]
  rfl

section
variable {s : State} {i : Nat} {m : Msg} (hitem : netItem s i = some m) (hkind : m.kind = .ordinary)
  (hphase : m.phase = .going)
include hitem hkind hphase

theorem arriveMessage_nowhere (hdest : destCore s m.ctx m.dest = none) :
    arriveMessage s i = { s with net := setAt s.net i { m with phase := .refused false } } := by
  simp only [arriveMessage, hitem, hkind, hphase, hdest]
  rfl

variable {c : CoreId} (hdest : destCore s m.ctx m.dest = some c) (htakes : takesMessages (s.core c) = true)
include hdest htakes

theorem arriveMessage_lands {k : Core} (hland : landWords (s.core c) (destCh m.dest) m.hdr m.words = some k) :
    arriveMessage s i = lowerCtm (dropNet (s.setCore c k) i) m := by
  simp only [arriveMessage, hitem, hkind, hphase, hdest, htakes, hland]
  rfl

theorem arriveMessage_refused (hland : landWords (s.core c) (destCh m.dest) m.hdr m.words = none) :
    arriveMessage s i = { s with
      net := setAt s.net i { m with phase := .refused ((nth (s.core c).chans (destCh m.dest) {}).bind != 0) } } := by
  simp only [arriveMessage, hitem, hkind, hphase, hdest, htakes, hland]
  rfl

end

section
variable {s : State} {i : Nat} {m : Msg} {bound : Bool} (hitem : s.net[i]? = some m) (hphase : m.phase = .refused bound)
include hitem hphase

theorem refusalReply_again (h : m.refusals < 4095) : refusalReply s i =
    { s with net := setAt s.net i { m with phase := .waiting, refusals := m.refusals + 1 } } := by
  simp only [refusalReply, hitem, hphase]
  exact if_neg (by omega)

/-- The 4,096th refusal (R196): the message is lost, and its sender holds the trap. -/
theorem refusalReply_lost {c : CoreId} (h : 4095 ≤ m.refusals) (hlive : senderLives s m = some c) : refusalReply s i =
    { s.setCore c { s.core c with
        ctm := (s.core c).ctm - 1, bpend := (s.core c).bpend ++ [deliveryTrap m bound] } with net := dropAt s.net i } := by
  have hlow : lowerCtm (dropNet s i) m = lowered (dropNet s i) c :=
    lower_keeps (senderLives_src hlive) ⟨rfl, rfl, rfl⟩ hlive
  simp only [refusalReply, hitem, hphase, if_pos (show 4096 ≤ m.refusals + 1 by omega), hlow, hlive, pushTrap, modCore_eq,
    lowered, core_setCore, setCore_setCore]
  rfl

end

theorem retryMessage_again {s : State} {i : Nat} {m : Msg} (hitem : s.net[i]? = some m) (hphase : m.phase = .waiting) :
    retryMessage s i = { s with net := setAt s.net i { m with phase := .going } } := by
  simp only [retryMessage, hitem, hphase]
  rfl

/-! ### Enqueues (R197, R198) -/

theorem enqBehind_iff {l : List Msg} {m : Msg} :
    enqBehind l m = true ↔ ∃ x ∈ l, destCh x.dest = destCh m.dest ∨ sameSender x m = true := by
  simp only [enqBehind, List.any_eq_true, Bool.or_eq_true, beq_iff_eq]

theorem enqBehind_none {l : List Msg} {m : Msg} (h : ∀ x ∈ l, destCh x.dest ≠ destCh m.dest ∧ sameSender x m = false) :
    enqBehind l m = false := by
  refine Bool.eq_false_iff.2 fun hbehind => ?_
  obtain ⟨x, hx, hsame⟩ := enqBehind_iff.1 hbehind
  obtain ⟨hch, hsend⟩ := h x hx
  rcases hsame with hsame | hsame
  · exact hch hsame
  · rw [hsend] at hsame
    cases hsame

theorem ackEnqueue_plain {m : Msg} (s : State) (h : m.kind = .enq false) : ackEnqueue s m = s := by
  simp only [ackEnqueue, h]

theorem landEnqueue_unbound {k : Core} {m : Msg} (h : (nth k.chans (destCh m.dest) {}).bind = 0) :
    landEnqueue k m = some k := if_pos h

theorem landEnqueue_bound {k : Core} {m : Msg} (h : (nth k.chans (destCh m.dest) {}).bind ≠ 0) :
    landEnqueue k m = landWords k (destCh m.dest) m.hdr m.words := if_neg h

section
variable {s : State} {i : Nat} {m : Msg} {ack : Bool} {c : CoreId} (hitem : netItem s i = some m)
  (hkind : m.kind = .enq ack) (hdest : destCore s m.ctx m.dest = some c) (haway : coreAway (s.core c) = false)
include hitem hkind hdest haway

/-- An enqueue behind another, or without room, takes a landing slot. -/
theorem arriveEnqueue_waits (hwait : enqBehind (s.core c).landing m = true ∨ landEnqueue (s.core c) m = none)
    (hroom : (s.core c).landing.length < 16) : arriveEnqueue s i =
      { s.setCore c { s.core c with landing := (s.core c).landing ++ [m] } with net := dropAt s.net i } := by
  have hnot : (if enqBehind (s.core c).landing m then none else landEnqueue (s.core c) m) = none := by
    split
    · rfl
    · next hfirst => exact hwait.resolve_left hfirst
  simp only [arriveEnqueue, hitem, hkind, hdest, haway, hnot, if_pos hroom]
  rfl

theorem arriveEnqueue_lands {k : Core} (hfirst : enqBehind (s.core c).landing m = false)
    (hland : landEnqueue (s.core c) m = some k) : arriveEnqueue s i = ackEnqueue (dropNet (s.setCore c k) i) m := by
  simp only [arriveEnqueue, hitem, hkind, hdest, haway, hfirst, hland]
  rfl

end

theorem landWaiting_lands {s : State} {c : CoreId} {i : Nat} {m : Msg} {k : Core}
    (hitem : (s.core c).landing[i]? = some m) (haway : coreAway (s.core c) = false)
    (hfirst : enqBehind ((s.core c).landing.take i) m = false)
    (hland : landEnqueue { s.core c with landing := dropAt (s.core c).landing i } m = some k) :
    landWaiting s c i = ackEnqueue (s.setCore c k) m := by
  simp only [landWaiting, hitem, haway, hfirst, hland]
  rfl

/-! ### Packets (R203, R413) -/

theorem applyPacket_placement (k : Core) (ch : Nat) (kind : MsgKind) : (applyPacket k ch kind).life = k.life ∧
    (applyPacket k ch kind).ctx = k.ctx ∧ (applyPacket k ch kind).launch = k.launch := by
  cases kind <;> exact ⟨rfl, rfl, rfl⟩

/-- A `chhold` or `chrdy` packet at an active core sets its bit there, and its sender's count falls. -/
theorem arrivePacket_applied {s : State} {i : Nat} {m : Msg} {c x : CoreId} {v : Bool} (hitem : netItem s i = some m)
    (hkind : m.kind = .hold v ∨ m.kind = .ready v) (hdest : destCore s m.ctx m.dest = some c)
    (hlife : (s.core c).life = .active) (hlive : senderLives s m = some x) : arrivePacket s i =
      { lowered (s.setCore c (applyPacket (s.core c) (destCh m.dest) m.kind)) x with net := dropAt s.net i } := by
  have hhere : ((s.core c).life == .restoring || (s.core c).life == .free) = false := by rw [hlife]; rfl
  refine Eq.trans ?_ (lowerCtm_dropNet i hlive (applyPacket_placement _ _ m.kind))
  rcases hkind with hkind | hkind <;> simp only [arrivePacket, hitem, hkind, hdest, hhere] <;> rfl

section
variable {s : State} {i g : Nat} {m : Msg} {c : CoreId} (hitem : netItem s i = some m) (hcore : m.toC = some c)
include hitem hcore

theorem arriveCancel_added {mask : Nat} (hkind : m.kind = .cancel g mask) : arriveCancel s i =
    { s.setCore c { s.core c with cancels := cancelAdd (s.core c).cancels g mask } with net := dropAt s.net i } := by
  simp only [arriveCancel, hitem, hkind, hcore]
  rfl

theorem arriveCancel_cleared (hkind : m.kind = .clear g) : arriveCancel s i =
    { s.setCore c { s.core c with cancels := cancelClear (s.core c).cancels g } with net := dropAt s.net i } := by
  simp only [arriveCancel, hitem, hkind, hcore]
  rfl

end

/-- Settles O32, event by event. -/
theorem messageEvents : Obligations.MessageEvents := by
  unfold Obligations.MessageEvents
  intro s m ms c i put ch k lower
  refine ⟨fun hc hout hroute _ => ?inject, fun hitem hkind hphase => ⟨fun hdest => ?nowhere, fun hdest htakes => ⟨
      fun k' x hland _ hlive => ?lands, fun hland => ?refused⟩⟩,
    fun bound hitem hphase => ⟨fun hfew => ?again, fun hmany hlive => ?lost⟩, fun hitem hphase => ?retry,
    fun ack hitem hkind hdest haway => ⟨fun hbehind hroom => ?behind, fun hfirst => ⟨fun hack hunbound => ?discarded,
      fun k' hack hbound hland => ?enqueued, fun hbound hfull hroom => ?full⟩⟩,
    fun k' hc hitem haway hfirst hkind hbound hland => ?waiting,
    fun v x hitem hdest hlife _ hlive => ⟨fun hkind => ?hold, fun hkind => ?ready⟩,
    fun g mask hitem hcore => ⟨fun hkind => ?cancel, fun hkind => ?clear⟩⟩
  case inject =>
    subst hc
    exact congrArg _ (injectMessage_enters hout hroute)
  case nowhere => exact congrArg _ (arriveMessage_nowhere hitem hkind hphase hdest)
  case lands =>
    obtain ⟨ls, sh, chans, hdrs, rfl⟩ := landWords_shape hland
    exact congrArg _ ((arriveMessage_lands hitem hkind hphase hdest htakes hland).trans
      (lowerCtm_dropNet _ hlive ⟨rfl, rfl, rfl⟩))
  case refused => exact congrArg _ (arriveMessage_refused hitem hkind hphase hdest htakes hland)
  case again => exact congrArg _ (refusalReply_again hitem hphase hfew)
  case lost =>
    refine congrArg _ ((refusalReply_lost hitem hphase hmany hlive).trans ?_)
    cases bound <;> rfl
  case retry => exact congrArg _ (retryMessage_again hitem hphase)
  case behind =>
    exact congrArg _ (arriveEnqueue_waits hitem hkind hdest haway (Or.inl (enqBehind_iff.2 hbehind)) hroom)
  case discarded =>
    subst hack
    exact congrArg _ ((arriveEnqueue_lands hitem hkind hdest haway (enqBehind_none hfirst)
      (landEnqueue_unbound hunbound)).trans (ackEnqueue_plain _ hkind))
  case enqueued =>
    subst hack
    exact congrArg _ ((arriveEnqueue_lands hitem hkind hdest haway (enqBehind_none hfirst)
      ((landEnqueue_bound hbound).trans hland)).trans (ackEnqueue_plain _ hkind))
  case full =>
    exact congrArg _ (arriveEnqueue_waits hitem hkind hdest haway (Or.inr ((landEnqueue_bound hbound).trans hfull))
      hroom)
  case waiting =>
    subst hc
    have hlands := (landEnqueue_bound (k := { k with landing := dropAt k.landing i }) hbound).trans hland
    exact congrArg _ ((landWaiting_lands hitem haway (enqBehind_none hfirst) hlands).trans (ackEnqueue_plain _ hkind))
  case hold =>
    have happlied := arrivePacket_applied hitem (Or.inl hkind) hdest hlife hlive
    rw [hkind] at happlied
    exact congrArg _ happlied
  case ready =>
    have happlied := arrivePacket_applied hitem (Or.inr hkind) hdest hlife hlive
    rw [hkind] at happlied
    exact congrArg _ happlied
  case cancel => exact congrArg _ (arriveCancel_added hitem hcore hkind)
  case clear => exact congrArg _ (arriveCancel_cleared hitem hcore hkind)

end Sys2Proof.Proofs.Delivery
end

section
/-!
PROOFS of 08_firings: `send`, `sendm` and `enq`.
-/
namespace Sys2Proof.Proofs.Sending

open Sys2Proof.Machine Sys2Proof.Safety

/-! ### What the three instructions share (R199, R201, R238) -/

/-- What an instruction's wait field, order and an earlier fence ask of the core before it issues. -/
def sendGoes (k : Core) (w : FWait) (o : Order) : Prop :=
  waitClear k w = true ∧ (isRel o = true → k.ctf = 0 ∧ k.ctb = 0 ∧ k.ldo = 0 ∧ k.atm = 0) ∧ fenceClear k = true

/-- The waits, the two reads and the check of the destination word, before the rest of a send or an enqueue. -/
def sendFrame (w : FWait) (o : Order) (d a : Spec) (len : Nat → Bool)
    (rest : Nat → Nat → CoreId → State → State → Dev State) (c : CoreId) (s : State) : Dev State := do
  issueSend s c w o
  let (dest, s1) ← srcZ s c a
  let (v, s2) ← srcZ s1 c d
  checkD dest (destCheck s2 (s2.core c).ctx dest len)
  rest dest v c s s2

/-- The lengths that `sendm` takes (R202). -/
def bodyLen (n : Nat) : Bool := decide (1 ≤ n) && decide (n ≤ 32)

/-- The rest of `sendm`: its body is a record of the local store. -/
def sendmRest (dest v : Nat) (c : CoreId) (s2 : State) : Dev State := do
  let _ ← localRecord c s2 v (8 * destLen dest) 8
  bufferMessage s2 c dest (localWords (s2.core c) v (destLen dest))

/-- The rest of `enq`: an acknowledged one waits for a place in ct.m. -/
def enqRest (ack : Bool) (dest v : Nat) (c : CoreId) (s s2 : State) : Dev State := do
  untilD (!ack || (s2.core c).ctm < 65535) s
  .ok { s2.setCore c { dropFence (s2.core c) with
          midc := ((s2.core c).midc + 1) % 2 ^ 16, ctm := (s2.core c).ctm + bnat ack } with
        net := s2.net ++ [newMessage s2 c dest [v] (.enq ack)] }

theorem sendOp_frame (w : FWait) (o : Order) (d a : Spec) : sendOp w o d a =
    sendFrame w o d a (· == 0) (fun dest v c _ s2 => bufferMessage s2 c dest [v]) := rfl

theorem sendmOp_frame (w : FWait) (o : Order) (d a : Spec) : sendmOp w o d a =
    sendFrame w o d a bodyLen (fun dest v c _ s2 => sendmRest dest v c s2) := rfl

theorem enqOp_frame (w : FWait) (o : Order) (d a : Spec) (ack : Bool) : enqOp w o d a ack =
    sendFrame w o d a (· == 0) (enqRest ack) := rfl

theorem srcZ_next {s : State} {k1 k2 : Core} {d : Spec} {v : Nat} (h : readSrc k1 .z64 d = .ok (v, k2)) :
    srcZ (s.setCore s.cur k1) s.cur d = .ok (v, s.setCore s.cur k2) := by
  rw [srcZ_ok (k := k2) (by rwa [core_setCore]), setCore_setCore]

section
variable {i : Instr} {n : Nat} {s : State} {w : FWait} {o : Order} {d a : Spec} {len : Nat → Bool}
  {rest : Nat → Nat → CoreId → State → State → Dev State} {f : CoreId → State → Dev State}
  (hf : f = sendFrame w o d a len rest)
include hf

theorem sendFrame_waits (h : ¬ sendGoes (s.core s.cur) w o) :
    f s.cur (issuedState i n s) = .error (.wait (issuedState i n s)) := by
  simp only [hf, sendFrame, issueSend, issueStore_wait h, bind, Except.bind]

variable {dest v : Nat} {k1 k2 : Core} (hgo : sendGoes (s.core s.cur) w o)
  (ha : readSrc (issued i n s) .z64 a = .ok (dest, k1)) (hd : readSrc k1 .z64 d = .ok (v, k2))
include hgo ha hd

theorem sendFrame_refused {e : Cause × Nat} (h : destCheck (s.setCore s.cur k2) k2.ctx dest len = .error e) :
    f s.cur (issuedState i n s) = .error (.trap { cause := e.1, sub := e.2, addr := dest }) := by
  simp only [hf, sendFrame, issueSend, issueStore_ok hgo, srcZ_issued ha, srcZ_next hd, core_setCore, h, checkD, trapD, bind,
    Except.bind]

theorem sendFrame_issues (h : destCheck (s.setCore s.cur k2) k2.ctx dest len = .ok ()) :
    f s.cur (issuedState i n s) = rest dest v s.cur (issuedState i n s) (s.setCore s.cur k2) := by
  simp only [hf, sendFrame, issueSend, issueStore_ok hgo, srcZ_issued ha, srcZ_next hd, core_setCore, h, checkD, bind,
    Except.bind]

end

/-! ### The send buffer and the body of `sendm` (R194, R202) -/

section
variable {s : State} {k : Core} {dest v : Nat}

theorem bufferMessage_sent {ws : List Nat} (hout : k.sout = [])
    (hwords : k.sbuf.foldl (fun n m => n + m.words.length) 0 + ws.length ≤ 32) (hlen : k.sbuf.length < 16) :
    bufferMessage (s.setCore s.cur k) s.cur dest ws = .ok (s.setCore s.cur { dropFence k with
      sbuf := k.sbuf ++ [newMessage (s.setCore s.cur k) s.cur dest ws .ordinary], midc := (k.midc + 1) % 2 ^ 16 }) := by
  rw [buf_ok (core_setCore s s.cur k) hout hwords hlen, setCore_setCore]

theorem bufferMessage_unreleased {ws : List Nat} (hout : k.sout ≠ []) :
    bufferMessage (s.setCore s.cur k) s.cur dest ws = .error (.wait (s.setCore s.cur k)) :=
  buf_wait (by rwa [core_setCore])

theorem localWords_length (k : Core) (x n : Nat) : (localWords k x n).length = n := by
  rw [localWords, List.length_map, List.length_range]

theorem sendmRest_fabric (h : topOf s.cur.cls < v + 8 * destLen dest) :
    sendmRest dest v s.cur (s.setCore s.cur k) = .error (.trap { cause := .fabric, addr := v }) := by
  simp only [sendmRest, localRecord_fabric h, bind, Except.bind]

variable (hfit : v + 8 * destLen dest ≤ topOf s.cur.cls)
include hfit

theorem sendmRest_align (h : v % 8 ≠ 0) :
    sendmRest dest v s.cur (s.setCore s.cur k) = .error (.trap { cause := .align, addr := v }) := by
  simp only [sendmRest, localRecord_align hfit h, bind, Except.bind]

/-- A body that can be read goes to the send buffer. -/
theorem sendmRest_buffers (halign : v % 8 = 0) (hready : unreadyAt k v (8 * destLen dest) = false) :
    sendmRest dest v s.cur (s.setCore s.cur k) =
      bufferMessage (s.setCore s.cur k) s.cur dest (localWords k v (destLen dest)) := by
  simp only [sendmRest, localRecord_ok hfit halign (s := s.setCore s.cur k) (by rwa [core_setCore]), core_setCore, bind,
    Except.bind]

end

/-! ### Enqueues (R197, R202) -/

theorem enqRest_full {s u : State} {k : Core} {dest v : Nat} {ack : Bool} (hack : ack = true) (h : 65535 ≤ k.ctm) :
    enqRest ack dest v s.cur u (s.setCore s.cur k) = .error (.wait u) := by
  have hroom : (!ack || decide (k.ctm < 65535)) = false := by rw [hack, decide_eq_false (Nat.not_lt.2 h)]; rfl
  simp only [enqRest, core_setCore, untilD_false hroom, bind, Except.bind]

theorem enqRest_sent {s u : State} {k : Core} {dest v : Nat} {ack : Bool} (h : ack = true → k.ctm < 65535) :
    enqRest ack dest v s.cur u (s.setCore s.cur k) = .ok { s.setCore s.cur { dropFence k with
        midc := (k.midc + 1) % 2 ^ 16, ctm := k.ctm + (if ack then 1 else 0) } with
      net := s.net ++ [newMessage (s.setCore s.cur k) s.cur dest [v] (.enq ack)] } := by
  have hroom : (!ack || decide (k.ctm < 65535)) = true := by
    cases ack
    · rfl
    · exact decide_eq_true (h rfl)
  simp only [enqRest, core_setCore, untilD_true hroom, setCore_setCore, bind, Except.bind]
  rfl

/-- Settles O30, clause by clause. -/
theorem sendingMessages : Obligations.SendingMessages := by
  unfold Obligations.SendingMessages
  intro w o d a ack s dest v k1 k2 k goesNow s2 words next buffered n body
  have hsend := sendOp_frame w o d a
  have hsendm := sendmOp_frame w o d a
  have henq := enqOp_frame w o d a ack
  refine ⟨fun i hi hr hstop => ?holds, fun hgo => ⟨
    fun hA hd hdest hout => ⟨fun hwords hlen => ?send, fun hlimit => ?sendLimit⟩,
    fun cost hcost hA hd hdest hout hfit halign hready hwords hlen => ⟨?sendm, localWords_length _ _ _⟩,
    fun cost hcost hA hd => ⟨fun e he => ?sendmDest, fun hdest => ⟨fun hfar => ?sendmFabric, fun hfit halign => ?sendmAlign,
      fun hfit halign hready hout hlimit => ?sendmLimit, fun hfit halign hready hout => ?sendmHeld⟩⟩,
    fun i hi hA hd => ⟨fun e he => ?dest, fun hdest => ⟨fun hi hout => ?sendHeld, fun hi hack hctm => ?enqHeld⟩⟩,
    fun hA hd hdest hctm => ?enq⟩⟩
  case holds =>
    rcases List.mem_cons.1 hi with rfl | hi
    · exact nativeOp_stop (cost := fun _ => 1) hr (localOnly_refl _) rfl (sendFrame_waits hsend hstop)
    rcases List.mem_cons.1 hi with rfl | hi
    · exact nativeOp_stop (cost := sendmCost a) hr (localOnly_refl _) rfl (sendFrame_waits hsendm hstop)
    · cases List.mem_singleton.1 hi
      exact nativeOp_stop (cost := fun _ => 1) hr (localOnly_refl _) rfl (sendFrame_waits henq hstop)
  case send =>
    exact nativeOp_ok (cost := fun _ => 1) hA.1
      ((sendFrame_issues hsend hgo hA.2 hd hdest).trans (bufferMessage_sent hout (ws := [v]) hwords hlen))
  case sendLimit =>
    exact nativeOp_trap (cost := fun _ => 1) hA.1
      ((sendFrame_issues hsend hgo hA.2 hd hdest).trans
        (buf_trap (core_setCore _ _ _) hout (ws := [v]) (hlimit.imp Nat.lt_succ_of_le id)))
  case sendm =>
    subst hcost
    exact nativeOp_ok (cost := sendmCost a) hA.1 ((sendFrame_issues hsendm hgo hA.2 hd hdest).trans
      ((sendmRest_buffers hfit halign hready).trans (bufferMessage_sent hout (by rwa [localWords_length]) hlen)))
  case sendmDest =>
    subst hcost
    exact nativeOp_trap (cost := sendmCost a) hA.1 (sendFrame_refused hsendm hgo hA.2 hd he)
  case sendmFabric =>
    subst hcost
    exact nativeOp_trap (cost := sendmCost a) hA.1
      ((sendFrame_issues hsendm hgo hA.2 hd hdest).trans (sendmRest_fabric hfar))
  case sendmAlign =>
    subst hcost
    exact nativeOp_trap (cost := sendmCost a) hA.1
      ((sendFrame_issues hsendm hgo hA.2 hd hdest).trans (sendmRest_align hfit halign))
  case sendmLimit =>
    subst hcost
    exact nativeOp_trap (cost := sendmCost a) hA.1 ((sendFrame_issues hsendm hgo hA.2 hd hdest).trans
      ((sendmRest_buffers hfit halign hready).trans
        (buf_trap (core_setCore _ _ _) hout (by rwa [localWords_length]))))
  case sendmHeld =>
    subst hcost
    exact nativeOp_stop (cost := sendmCost a) hA.1 (src2 hA.2 hd).only rfl
      ((sendFrame_issues hsendm hgo hA.2 hd hdest).trans ((sendmRest_buffers hfit halign hready).trans
        (bufferMessage_unreleased hout)))
  case dest =>
    rcases List.mem_cons.1 hi with rfl | hi
    · exact nativeOp_trap (cost := fun _ => 1) hA.1 (sendFrame_refused hsend hgo hA.2 hd he)
    · cases List.mem_singleton.1 hi
      exact nativeOp_trap (cost := fun _ => 1) hA.1 (sendFrame_refused henq hgo hA.2 hd he)
  case sendHeld =>
    subst hi
    exact nativeOp_stop (cost := fun _ => 1) hA.1 (src2 hA.2 hd).only rfl
      ((sendFrame_issues hsend hgo hA.2 hd hdest).trans (bufferMessage_unreleased hout))
  case enqHeld =>
    subst hi
    exact nativeOp_stop (cost := fun _ => 1) hA.1 (localOnly_refl _) rfl
      ((sendFrame_issues henq hgo hA.2 hd hdest).trans (enqRest_full hack hctm))
  case enq =>
    exact nativeOp_ok (cost := fun _ => 1) hA.1
      ((sendFrame_issues henq hgo hA.2 hd hdest).trans (enqRest_sent hctm))

end Sys2Proof.Proofs.Sending
end

section
/-!
PROOFS of 08_firings: the instructions on channels and on the message window.
-/
namespace Sys2Proof.Proofs.ChannelOps

open Sys2Proof.Machine Sys2Proof.Safety

/-! ### chbind (R192, R193) -/

/-- An unbound channel takes the binding of a record with a rate (Table 8-6). -/
theorem bindChan_unbound {e : Chan} {w0 : Nat} (w1 : Nat) (hbind : e.bind = 0) (hrate : field w0 8 3 ≠ 0) :
    bindChan e w0 w1 = { e with
      ctl := ctlOf w0, bind := 1, base := field w1 13 0, size := field w1 26 14, head := 0, fill := 0, skip := 0 } := by
  rw [bindChan, if_pos hbind, if_neg hrate]

theorem bindChan_stays {e : Chan} {w0 : Nat} (w1 : Nat) (hbind : e.bind = 0) (hrate : field w0 8 3 = 0) :
    bindChan e w0 w1 = e := by
  rw [bindChan, if_pos hbind, if_pos hrate]

theorem bindChan_pending {e : Chan} (w0 w1 : Nat) (hbind : e.bind ≠ 0) :
    bindChan e w0 w1 = { e with bind := 2, pend := ctlOf w0 } := by
  rw [bindChan, if_neg hbind]

section
variable {a b : Spec} {s : State} {v x : Nat} {k : Core} (h : readsAB (.chbind a b) 1 s a b v x k)
include h

theorem chbind_undef (hch : 32 ≤ v) : traps (.chbind a b) s { cause := .undef, sub := 2 } :=
  endAB_trap rfl h (by simp only [needD_false (decide_eq_false (Nat.not_lt.2 hch)), bind, Except.bind])

variable (hch : v < 32)
include hch

theorem chbind_fabric (hfar : topOf s.cur.cls < x + 16) : traps (.chbind a b) s { cause := .fabric, addr := x } :=
  endAB_trap rfl h (by simp only [needD_true (decide_eq_true hch), localRecord_fabric hfar, bind, Except.bind])

variable (hfit : x + 16 ≤ topOf s.cur.cls)
include hfit

theorem chbind_align (halign : x % 8 ≠ 0) : traps (.chbind a b) s { cause := .align, addr := x } :=
  endAB_trap rfl h (by simp only [needD_true (decide_eq_true hch), localRecord_align hfit halign, bind, Except.bind])

variable (halign : x % 8 = 0) (hready : unreadyAt k x 16 = false)
include halign hready

theorem chbind_badRecord (hbad : bindingOk (s.setCore s.cur k) k (nth k.chans v {}) (readLocal k x 8)
    (readLocal k (x + 8) 8) = false) : traps (.chbind a b) s { cause := .delivery, sub := 5, addr := x } := by
  have hrecord := localRecord_ok hfit halign (s := s.setCore s.cur k) (by rw [core_setCore]; exact hready)
  exact endAB_trap rfl h (by
    simp only [needD_true (decide_eq_true hch), hrecord, core_setCore, needD_false hbad, bind, Except.bind])

/-- A record that passes its checks changes the channel's entry as Table 8-6 says. -/
theorem chbind_binds {e : Chan} (hok : bindingOk (s.setCore s.cur k) k (nth k.chans v {}) (readLocal k x 8)
    (readLocal k (x + 8) 8) = true)
    (he : bindChan (nth k.chans v {}) (readLocal k x 8) (readLocal k (x + 8) 8) = e) :
    exec (.chbind a b) s = .next (s.setCore s.cur { k with chans := setAt k.chans v e }) := by
  have hrecord := localRecord_ok hfit halign (s := s.setCore s.cur k) (by rw [core_setCore]; exact hready)
  exact endAB rfl h (by
    simp only [needD_true (decide_eq_true hch), hrecord, core_setCore, needD_true hok, modChan, he, setCore_setCore, bind,
      Except.bind])

end

/-! ### chhold and chrdy (R203) -/

/-- The packet of `chrdy` or of `chhold`. -/
def bitPacket (ready : Bool) (x : Nat) : MsgKind := if ready then .ready (x == 1) else .hold (x == 1)

section
variable {i : Instr} {flag : Bool} {a b : Spec} {s : State} {v x : Nat} {k : Core}
  (hexec : exec i s = nativeOp i (fun _ => 1) (channelBit flag a b) s) (h : readsAB i 1 s a b v x k)
include hexec h

theorem channelBit_undef (hbit : 2 ≤ x) : traps i s { cause := .undef, sub := 2 } :=
  endAB_trap hexec h (by simp only [needD_false (decide_eq_false (Nat.not_lt.2 hbit)), bind, Except.bind])

variable (hbit : x < 2)
include hbit

theorem channelBit_tagged (htag : destTag v ≠ 0) : traps i s { cause := .delivery, sub := 2, addr := v } :=
  endAB_trap hexec h (by
    simp only [needD_true (decide_eq_true hbit), needD_false (beq_false_of_ne htag), bind, Except.bind])

variable (htag : destTag v = 0)
include htag

theorem channelBit_refused {e : Cause × Nat} (he : destCheck (s.setCore s.cur k) k.ctx v (· == 0) = .error e) :
    traps i s { cause := e.1, sub := e.2, addr := v } :=
  endAB_trap hexec h (by
    simp only [needD_true (decide_eq_true hbit), needD_true (beq_iff_eq.2 htag), core_setCore, he, checkD, trapD, bind,
      Except.bind])

variable (hcheck : destCheck (s.setCore s.cur k) k.ctx v (· == 0) = .ok ())
include hcheck

theorem channelBit_own (hown : destCore (s.setCore s.cur k) k.ctx v = some s.cur) :
    exec i s = .next (s.setCore s.cur (applyPacket k (destCh v) (bitPacket flag x))) :=
  endAB hexec h (by
    simp only [needD_true (decide_eq_true hbit), needD_true (beq_iff_eq.2 htag), core_setCore, hcheck, checkD, hown,
      beq_self_eq_true, if_true, setCore_setCore, bind, Except.bind]
    rfl)

theorem channelBit_sent (hother : destCore (s.setCore s.cur k) k.ctx v ≠ some s.cur) (hroom : k.ctm < 65535) :
    exec i s = .next { s.setCore s.cur { k with ctm := k.ctm + 1 } with
      net := s.net ++ [newMessage (s.setCore s.cur k) s.cur v [] (bitPacket flag x)] } :=
  endAB hexec h (by
    simp only [needD_true (decide_eq_true hbit), needD_true (beq_iff_eq.2 htag), core_setCore, hcheck, checkD,
      beq_false_of_ne hother, Bool.false_eq_true, if_false, untilD_true (decide_eq_true hroom), setCore_setCore, bind,
      Except.bind]
    rfl)

end

/-! ### chmask (R203) -/

section
variable {a b : Spec} {s : State} {v x : Nat} {k : Core} (h : readsAB (.chmask a b) 1 s a b v x k)
include h

theorem chmask_undef (hrange : ¬ (v < 32 ∧ x < 2)) : traps (.chmask a b) s { cause := .undef, sub := 2 } := by
  have hno : (decide (v < 32) && decide (x < 2)) = false := by
    rw [← Bool.decide_and, decide_eq_false hrange]
  exact endAB_trap rfl h (by simp only [needD_false hno, bind, Except.bind])

theorem chmask_sets (hch : v < 32) (hbit : x < 2) : exec (.chmask a b) s =
    .next (s.setCore s.cur { k with chans := setAt k.chans v { nth k.chans v {} with mask := x == 1 } }) := by
  have hyes : (decide (v < 32) && decide (x < 2)) = true := by
    rw [← Bool.decide_and, decide_eq_true ⟨hch, hbit⟩]
  exact endAB rfl h (by
    simp only [needD_true hyes, modCore_eq, core_setCore, setCore_setCore, modChan, bind, Except.bind])

end

/-! ### chstat (R204, Tables 8-1 to 8-4) -/

section
variable {d a : Spec} {s : State} {v : Nat} {k : Core} (h : readsA (.chstat d a) 1 s a v k) (hd : takesWord k d)
include h hd

theorem chstat_undef (hsel : 256 ≤ v) : traps (.chstat d a) s { cause := .undef, sub := 2 } :=
  trapDA rfl h hd (by simp only [needD_false (decide_eq_false (Nat.not_lt.2 hsel)), bind, Except.bind])

theorem chstat_answers {r : Nat} (hsel : v < 256) (hr : chanWord k (v / 32) (v % 32) = r) :
    answers (.chstat d a) s (s.setCore s.cur k) d r :=
  ansDA rfl h hd (by simp only [needD_true (decide_eq_true hsel), core_setCore, hr, bind, Except.bind])

end

theorem bnat_mul (c : Bool) (n : Nat) : bnat c * n = if c = true then n else 0 := by
  cases c
  · exact Nat.zero_mul n
  · exact Nat.one_mul n

/-- Selector 4: the runnable channels as bits, LAST, whether a firing runs, and the headers that wait. -/
theorem chanWord_runnable (k : Core) (n : Nat) : chanWord k 4 n =
    ((List.range 32).map (fun i => if (nth k.chans i {}).runnable = true then 2 ^ i else 0)).sum + k.last * 2 ^ 32 +
      (if k.run = .idle then 0 else 2 ^ 37) + k.hdrs.length * 2 ^ 40 := by
  have hrun : bnat (k.run != .idle) * 2 ^ 37 = if k.run = .idle then 0 else 2 ^ 37 := by
    rw [bnat_mul]
    by_cases hidle : k.run = .idle
    · rw [if_pos hidle, hidle]
      rfl
    · rw [if_neg hidle, if_pos (bne_iff_ne.2 hidle)]
  simp only [chanWord, bnat_mul (nth k.chans _ {}).runnable, hrun, List.sum_eq_foldl]

theorem chanWord_rest (k : Core) {sel : Nat} (n : Nat) (h : 4 < sel) : chanWord k sel n = 0 := by
  obtain ⟨m, rfl⟩ := Nat.exists_eq_add_of_le' h
  rfl

/-! ### mnext (R204) -/

section
variable {d : Spec} {s : State} (hr : ready (.mnext d) s) (hd : takesWord (issued (.mnext d) 1 s) d)
include hr hd

theorem mnext_none (h : nextMessage (issued (.mnext d) 1 s) = none) :
    answers (.mnext d) s (s.setCore s.cur (issued (.mnext d) 1 s)) d 0 :=
  ansD rfl hr hd (by simp only [issuedState_core, h]; rfl)

theorem mnext_some {m : Hdr} {pos : Nat} (h : nextMessage (issued (.mnext d) 1 s) = some (m, pos)) :
    let k := issued (.mnext d) 1 s
    answers (.mnext d) s (s.setCore s.cur { k with
      ls := memWrite (memWrite k.ls (k.wp + 0x3C0) 8 m.word) (k.wp + 0x3C8) 8 (pos * 2 ^ 16) }) d (hdrLen m.word) :=
  ansD rfl hr hd (by simp only [issuedState, core_setCore, h, setCore_setCore])

end

/-- Settles O31, instruction by instruction. -/
theorem channelInstructions : Obligations.ChannelInstructions := by
  unfold Obligations.ChannelInstructions
  intro d a b s v x k flag e withChan w0 w1
  refine ⟨fun h hch hfit halign hready => ⟨fun hok hbind hrate => ?bound, fun hok hbind => ?pending,
      fun hbad => chbind_badRecord h hch hfit halign hready hbad, fun hok hbind hrate => ?stays⟩,
    fun h => ⟨chbind_undef h, chbind_fabric h, chbind_align h⟩, fun i hi h => ?bitTraps, chmask_undef, chstat_undef, ?bits,
    chmask_sets, ?chstat, fun hr hd => ⟨mnext_none hr hd, fun m pos => mnext_some hr hd⟩⟩
  case bound => exact chbind_binds h hch hfit halign hready hok (bindChan_unbound w1 hbind hrate)
  case pending => exact chbind_binds h hch hfit halign hready hok (bindChan_pending w0 w1 hbind)
  case stays => exact chbind_binds h hch hfit halign hready hok (bindChan_stays w1 hbind hrate)
  case bitTraps =>
    have hexec : ∃ flag, exec i s = nativeOp i (fun _ => 1) (channelBit flag a b) s := by
      rcases List.mem_cons.1 hi with rfl | hi
      · exact ⟨true, rfl⟩
      · cases List.mem_singleton.1 hi
        exact ⟨false, rfl⟩
    obtain ⟨flag, hexec⟩ := hexec
    exact ⟨channelBit_undef hexec h, channelBit_tagged hexec h, fun e hbit htag => channelBit_refused hexec h hbit htag⟩
  case bits =>
    intro i ch kind h hbit htag hcheck
    have hexec : exec i s = nativeOp i (fun _ => 1) (channelBit flag a b) s := by cases flag <;> rfl
    refine ⟨fun hown => (channelBit_own hexec h hbit htag hcheck hown).trans ?_,
      channelBit_sent hexec h hbit htag hcheck⟩
    cases flag <;> rfl
  case chstat =>
    intro h hd hsel n g
    refine ⟨fun h0 => chstat_answers h hd hsel (by rw [h0]; rfl), fun h1 => chstat_answers h hd hsel (by rw [h1]; rfl),
      fun h2 => chstat_answers h hd hsel (by rw [h2]; rfl), fun h3 => chstat_answers h hd hsel (by rw [h3]; rfl),
      fun h4 => chstat_answers h hd hsel (by rw [h4]; exact chanWord_runnable k _),
      fun h5 => chstat_answers h hd hsel (chanWord_rest k _ h5)⟩

end Sys2Proof.Proofs.ChannelOps
end

section
/-!
PROOFS of 09_tiles_copies: the tile and job instructions that complete.
-/
namespace Sys2Proof.Proofs.TileCompletion

open Sys2Proof.Machine Sys2Proof.Safety Sys2Proof.Proofs.Tiles

/-! ### What uses a tile (R206) -/

section
variable {s : State} {c : CoreId} {t : Nat} {k k' : Core} (hlog : k'.logical = k.logical)
include hlog

theorem ownTile_setCore_congr {j : Job} (hj : j.core = c) : ownTile (s.setCore c k') j = ownTile (s.setCore c k) j := by
  simp only [ownTile, hj, core_setCore, hlog]

theorem targetsTile_setCore_congr : targetsTile (s.setCore c k') c t = targetsTile (s.setCore c k) c t := by
  refine List.any_congr rfl fun j => ?_
  by_cases hj : j.core = c
  · rw [ownTile_setCore_congr hlog hj]
  · rw [beq_false_of_ne hj, Bool.false_and, Bool.false_and]

theorem readsLocal_setCore_congr (a n : Nat) : readsLocal (s.setCore c k') c a n = readsLocal (s.setCore c k) c a n := by
  have hwindow : ownWindow c k' = ownWindow c k := by simp only [ownWindow, hlog]
  simp only [readsLocal, core_setCore, hwindow]
  rfl

/-- What uses a tile is a matter of its place alone, not of its state. -/
theorem tileBusy_setCore_congr (hbase : (nth k'.tiles t {}).base = (nth k.tiles t {}).base)
    (hnch : (nth k'.tiles t {}).nch = (nth k.tiles t {}).nch) :
    tileBusy (s.setCore c k') c t = tileBusy (s.setCore c k) c t := by
  simp only [tileBusy, core_setCore, targetsTile_setCore_congr hlog, readsLocal_setCore_congr hlog, hbase, hnch]

end

/-- A tile that no job uses is no job's target. -/
theorem targetsTile_of_idle {s : State} {c : CoreId} {t : Nat} (h : tileBusy s c t = false) : targetsTile s c t = false :=
  (Bool.or_eq_false_iff.1 h).1

/-! ### Definitions and drains -/

/-- The upper bound of a `tdef` record clears its reserved bits (R225). -/
theorem definesTile_of_lt {v : Nat} (hv : v < 2 ^ 39) (hmid : field v 31 17 = 0) (hmin : 1 ≤ field v 38 32)
    (hmax : field v 38 32 ≤ 64) : definesTile v := by
  refine ⟨hmid, ?_, hmin, hmax⟩
  simp only [field]
  omega

theorem base_aligned {v : Nat} (h : v % 512 = 0) : field v 16 0 % 512 = 0 := by
  simp only [field]
  omega

/-- A draining tile as it was, but for its state. -/
theorem tile_draining {t : Nat} {e : Tile} {k : Core} (ht : t < k.tiles.length) :
    nth (draining t e k).tiles t {} = { e with st := .draining } := nth_setAt _ _ _ _ ht

theorem unused_draining {s : State} {t : Nat} {k : Core} (ht : t < k.tiles.length) (h : unused s t k) :
    unused s t (draining t (nth k.tiles t {}) k) := by
  obtain ⟨hheld, hbusy⟩ := h
  have htile := tile_draining (e := nth k.tiles t {}) ht
  have hsame : tileBusy (s.setCore s.cur (draining t (nth k.tiles t {}) k)) s.cur t = tileBusy (s.setCore s.cur k) s.cur t :=
    tileBusy_setCore_congr rfl (by rw [htile]) (by rw [htile])
  exact ⟨hheld, hsame.trans hbusy⟩

/-- Settles O60, instruction by instruction. -/
theorem tileAndJobCompletion : Obligations.TileAndJobCompletion := by
  unfold Obligations.TileAndJobCompletion
  intro t d a s v k k2 c e free usable setTile
  refine ⟨fun h hal hv hmid hmin hmax htop hfree hst => ?define, fun h hdef hm hfree => ?arm, fun h hdef hm hall => ?wait,
    fun hr hk hd hdef hw => ?test, fun hr hk hp ht hdef hfree => ?drain, fun h hv hst => ?jobWait,
    fun h hd hv => ⟨fun hst hw => ?pollComplete, fun hst hw => ?pollPending⟩⟩
  case define =>
    exact tdef_defines h (definesTile_of_lt hv hmid hmin hmax) (base_aligned hal) htop hfree.1 hfree.2 hst
  case arm =>
    exact mask_completes (actsOnMask_tarm t a s) h hdef.1 hm hdef.2
      (armTile_free hfree.1 (.inr (.inr (targetsTile_of_idle hfree.2))))
  case wait =>
    exact mask_completes (actsOnMask_twait t a s) h hdef.1 hm hdef.2 (awaitChunks_eq.trans (if_pos hall))
  case test =>
    subst hk
    have hcore : (issuedState (.ttest d t) 1 s).core s.cur = issued (.ttest d t) 1 s := issuedState_core ..
    have hans : answers (.ttest d t) s (issuedState (.ttest d t) 1 s) d e.arr := by
      refine ansD rfl hr hd ?_
      rw [tdef_ok (by rw [hcore]; exact hdef.1), terr_ok (by rw [hcore]; exact hdef.2), hcore]
      rfl
    rw [(hans k2 (by rwa [hcore])).1, issuedState, setCore_setCore]
  case drain =>
    subst hk
    rw [tdrain_ends hr hp hdef.1 hdef.2 (unused_draining ht hfree), tile_draining ht]
  case jobWait => exact endA (exec_jwait a s) h (onStatus_complete hv hst)
  case pollComplete =>
    have hans := ansDA (exec_jpoll d a s) h hd (onStatus_complete hv hst)
    rw [(hans k2 (by rwa [core_setCore])).1, setCore_setCore]
  case pollPending =>
    have hans := ansDA (exec_jpoll d a s) h hd (onStatus_pending hv hst)
    rw [(hans k2 (by rwa [core_setCore])).1, setCore_setCore]

end Sys2Proof.Proofs.TileCompletion
end

section
/-!
PROOFS of 09_tiles_copies: `cpy` and `cpys` queue a job.
-/
namespace Sys2Proof.Proofs.CopyIssue

open Sys2Proof.Machine Sys2Proof.Safety

/-! ### The two forms of a copy (R210) -/

/-- The ring that a copy names; `cpys` names none. -/
def ringNamed (slab : Bool) (q : Fin 8) : Nat := if slab then 0 else q.val

theorem exec_copy (slab : Bool) (q : Fin 8) (t : Fin 16) (kind : BitVec 3) (o : Bool) (d : Spec) (r : Shape) (s : State) :
    let i : Instr := if slab then .cpys t kind o d r else .cpy q t kind o d r
    exec i s = nativeOp i (fun _ => 4) (copyOp slab (ringNamed slab q) t.val kind.toNat o d r) s := by
  cases slab <;> rfl

theorem copyKind_eq (slab : Bool) (q : Fin 8) (t : Nat) (kind : BitVec 3) (v : List Nat) :
    copyKind slab (ringNamed slab q) t kind.toNat v =
      if slab then .slab t (nth v 5 0) (field (nth v 6 0) 6 0) (field (nth v 6 0) 12 7) (nth v 7 0)
      else if kind = 0 then .tile t else if kind = 1 then .ring q.val else .addr := by
  cases slab
  case true => rfl
  case false =>
    by_cases h0 : kind = 0
    · subst h0
      rfl
    by_cases h1 : kind = 1
    · subst h1
      rfl
    rw [if_neg h0, if_neg h1]
    simp only [copyKind, Bool.false_eq_true, if_false]
    split
    · next h => exact absurd (BitVec.eq_of_toNat_eq h) h0
    · next h => exact absurd (BitVec.eq_of_toNat_eq h) h1
    · rfl

/-! ### The checks of the record and the block (R224, steps 1 to 4) -/

section
variable {slab : Bool} {kind : BitVec 3} {c : CoreId} {v : List Nat}
  (h : if slab then nth v 6 0 < 2 ^ 13 ∧ kind = 0 else nth v 5 0 = 0 ∧ nth v 6 0 = 0 ∧ nth v 7 0 = 0 ∧ kind.toNat < 3 ∧
    (kind = 1 → c.cls = .compute))
include h

theorem unusedFields_ok : (if slab then nth v 6 0 / 2 ^ 13 == 0
    else nth v 5 0 == 0 && nth v 6 0 == 0 && nth v 7 0 == 0) = true := by
  cases slab
  case true => exact mask_ok h.1
  case false =>
    obtain ⟨h5, h6, h7, _, _⟩ := h
    simp only [h5, h6, h7, Bool.false_eq_true, if_false, beq_self_eq_true, Bool.and_self]

theorem kind_ok (hrec : recordOk slab v = true) : ((if slab then kind.toNat == 0 else decide (kind.toNat < 3)) &&
    !(kind.toNat == 1 && c.cls != .compute) && recordOk slab v) = true := by
  cases slab
  case true =>
    rw [hrec, h.2]
    rfl
  case false =>
    obtain ⟨-, -, -, hlt, hring⟩ := h
    have hclass : (kind.toNat == 1 && c.cls != .compute) = false := by
      rw [Bool.and_eq_false_imp, beq_iff_eq]
      exact fun h1 => by rw [hring (BitVec.eq_of_toNat_eq h1), bne_self_eq_false]
    rw [hrec, hclass, if_neg Bool.false_ne_true, decide_eq_true hlt]
    rfl

end

/-- The words of the block that a form leaves unused are 0; of `cpys`, the origin is a logical core. -/
theorem blockWords_ok {slab : Bool} {kind : BitVec 3} {w1 w6 w7 : Nat} (h6 : w6 = 0) (h7 : w7 = 0)
    (h1 : if slab then w1 < 2 ^ 14 else kind = 2 ∨ w1 = 0) :
    (w6 == 0 && w7 == 0 && (if slab then w1 / 2 ^ 14 == 0 else kind.toNat == 2 || w1 == 0)) = true := by
  subst h6 h7
  cases slab
  case true => exact mask_ok h1
  case false =>
    rcases h1 with rfl | rfl
    · rfl
    · exact Bool.or_true _

theorem destination_aligned {slab : Bool} {kind : BitVec 3} {w1 : Nat} (h : slab = false → kind = 2 → w1 % 8 = 0) :
    (slab || kind.toNat != 2 || w1 % 8 == 0) = true := by
  cases slab
  case true => rfl
  case false =>
    by_cases h2 : kind = 2
    · rw [beq_iff_eq.2 (h rfl h2), Bool.or_true]
    · have hne : (kind.toNat != 2) = true := bne_iff_ne.2 fun he => h2 (BitVec.eq_of_toNat_eq he)
      rw [hne]
      rfl

/-! ### The checks of the destination (R224, steps 5 to 7) -/

/-- The participants of a slab lie in the grid of cores (R212). -/
theorem slabPlace_ok {n w h c base : Nat} (hin : n / 8 % 64 + w ≤ 64 ∧ n / 8 / 64 + h ≤ 32 ∧ n % 8 + c ≤ 8) :
    needD (n / 8 % 64 + w ≤ 64 && n / 8 / 64 + h ≤ 32 && n % 8 + c ≤ 8) .tile 6 base = .ok () := by
  obtain ⟨hx, hy, hc⟩ := hin
  refine needD_true ?_
  rw [decide_eq_true hx, decide_eq_true hy, decide_eq_true hc]
  rfl

theorem copyTile_ok {s : State} {c : CoreId} {k : Core} {t : Nat} {v : List Nat} (hk : s.core c = k)
    (hdef : (nth k.tiles t {}).nch ≠ 0) (herr : (nth k.tiles t {}).err = false) (hst : (nth k.tiles t {}).st = .filling)
    (hfit : rowsFit v (512 * (nth k.tiles t {}).nch) = true) : copyTile s c t v = .ok () := by
  subst hk
  simp only [copyTile, tdef_ok hdef, terr_ok herr, needD_true (beq_iff_eq.2 hst), needD_true hfit, bind, Except.bind]

theorem copyRing_ok {s : State} {c : CoreId} {q : Nat} {v : List Nat}
    (hclaim : (nth (s.row (rowOf c)).rings q {}).claim = none ∨
      (nth (s.row (rowOf c)).rings q {}).claim = some (s.core c).lkey)
    (hcount : (nth (s.row (rowOf c)).rings q {}).count ≠ 0)
    (hfit : rowsFit v (nth (s.row (rowOf c)).rings q {}).size = true) : copyRing s c q v = .ok () := by
  have hmine : ((nth (s.row (rowOf c)).rings q {}).claim == none ||
      (nth (s.row (rowOf c)).rings q {}).claim == some (s.core c).lkey) = true := by
    rwa [Bool.or_eq_true, beq_iff_eq, beq_iff_eq]
  simp only [copyRing, needD_true hmine, needD_true (bne_iff_ne.2 hcount), needD_true hfit, bind, Except.bind]

/-- One of the three checks is made, as the form and the kind say. -/
theorem destinationCheck_ok {slab : Bool} {kind : BitVec 3} {place tile ring : Dev Unit} (hplace : slab = true → place = .ok ())
    (htile : slab = false → kind = 0 → tile = .ok ()) (hring : slab = false → kind = 1 → ring = .ok ()) :
    (if slab = true then place else if kind.toNat = 0 then tile else if kind.toNat = 1 then ring else .ok ()) = .ok () := by
  split
  · next h => exact hplace h
  · next h =>
    rw [Bool.not_eq_true] at h
    split
    · next h0 => exact htile h (BitVec.eq_of_toNat_eq h0)
    · split
      · next h1 => exact hring h (BitVec.eq_of_toNat_eq h1)
      · rfl

/-! ### The job in the queue (R208, R216, R217) -/

/-- The count depends on the destination and the extent alone. -/
theorem jobCount_congr {j j' : Job} (hkind : j'.kind = j.kind) (hrows : j'.rows = j.rows) (hlen : j'.rlen = j.rlen)
    (hdst : j'.dst = j.dst) : jobCount j' = jobCount j := by
  rw [jobCount_eq, jobCount_eq, hkind, hrows, hlen, hdst]

/-- Settles O41: every check holds, and the job is queued. -/
theorem copyIssue : Obligations.CopyIssue := by
  unfold Obligations.CopyIssue
  intro q t kind o slab d r s v i c k s0 e ring blk w j zero cnt prev s1 s2 hr hv hd hokd hform hrec hblk hready h6 h7 h1
    hal0 hal1 hal2 hal3 hslab htile hring hfence hctf hctb hq
  obtain ⟨k0, hk0⟩ := hd
  have hk : s0.core c = k := issuedState_core ..
  have hcnt : jobCount j = cnt := jobCount_eq j
  have hkind : copyKind slab (ringNamed slab q) t.val kind.toNat v = j.kind := copyKind_eq slab q t.val kind v
  have hcounted (j' : Job) (h : j'.kind = copyKind slab (ringNamed slab q) t.val kind.toNat v) (hrows : j'.rows = nth v 1 0)
      (hlen : j'.rlen = nth v 2 0) (hdst : j'.dst = w 1) : jobCount j' = cnt :=
    (jobCount_congr (j := j) (h.trans hkind) hrows hlen hdst).trans hcnt
  have htileOk (hs : slab = false) (h0 : kind = 0) : copyTile s0 c t.val v = .ok () := by
    obtain ⟨hdef, herr, hst, hfit⟩ := htile hs h0
    exact copyTile_ok hk hdef herr hst hfit
  have hringOk (hs : slab = false) (h1 : kind = 1) : copyRing s0 c (ringNamed slab q) v = .ok () := by
    obtain ⟨hclaim, hcount, hfit⟩ := hring hs h1
    rw [ringNamed, hs]
    exact copyRing_ok (by rwa [hk]) hcount hfit
  have hqueue : queueJob s0 c j = { s2 with
      jobs := enqueueJob s.jobs { j with counted := cnt, prev := if o then prev else none, mid := k.midc, since := s.cycle }
      nextUid := s.nextUid + 1 } := by
    have hset (x : Core) : s0.setCore c x = s.setCore c x := setCore_setCore s c k x
    rw [queue_eq s0 c k j hk cnt hcnt, hset]
    rfl
  have hcopy := copy_ok (o := o) (d := d) (s0 := s0) (c := c) hk hv hk0 hokd (unusedFields_ok hform) (kind_ok hform hrec)
    hblk hready (blockWords_ok h6 h7 h1) (beq_iff_eq.2 hal0) (destination_aligned hal1) (beq_iff_eq.2 hal2)
    (beq_iff_eq.2 hal3) (destinationCheck_ok (fun hs => slabPlace_ok (hslab hs)) htileOk hringOk) hfence
    (fun j' hj hrows hlen hdst hone => hctf ((hcounted j' hj hrows hlen hdst).symm.trans hone))
    (fun j' hj hrows hlen hdst htwo => hctb ((hcounted j' hj hrows hlen hdst).symm.trans htwo)) hq
  rw [hkind] at hcopy
  refine answers_of (cost := fun _ => 4) (exec_copy slab q t kind o d r s) hr ?_ (dst_eff _ _ _ _)
  rw [← hqueue]
  exact hcopy

end Sys2Proof.Proofs.CopyIssue
end

section
/-!
PROOFS of 09_tiles_copies: jobs start, chunks are requested, beats are read and land.
-/
namespace Sys2Proof.Proofs.CopyEvents

open Sys2Proof.Machine Sys2Proof.Safety

/-! ### The events -/

theorem exec_copyJobStart (s : State) : exec .copyJobStart s = .next (startJob s s.ev.i) := rfl

theorem exec_chunkRequest (s : State) : exec .chunkRequest s = .next (requestChunk s s.ev.i) := rfl

theorem exec_streamerRequest {s : State} (h : s.ev.j = 0) :
    exec .streamerRequest s = .next (readBeat s s.ev.i s.ev.ok) := by
  show execStreamerRequest s = _
  simp only [execStreamerRequest, eventOp, h, if_true]

theorem exec_beatLanding (s : State) : exec .beatLanding s = .next (landBeat s s.ev.i) := rfl

theorem findJob_congr {s s' : State} (h : s'.jobs = s.jobs) (u : Nat) : findJob s' u = findJob s u := by
  rw [findJob, findJob, h]

/-! ### Starting a job (R214, R215, R221) -/

/-- The job that a job waits for, if it waits for one, has left the queue or is failing. -/
def turnCame (s : State) (j : Job) : Prop :=
  j.prev = none ∨ ∃ u, j.prev = some u ∧ ∀ x ∈ s.jobs, x.uid = u → x.phase = .failing

/-- The stage at the tail of a ring can be claimed for a job. -/
def tailEmpty (s : State) (j : Job) (q : Nat) : Prop :=
  (nth (s.row (rowOf j.core)).rings q {}).count ≠ 0 ∧
    nth (nth (s.row (rowOf j.core)).rings q {}).stages (nth (s.row (rowOf j.core)).rings q {}).tail .error = .empty

theorem jobReady_iff {s : State} {j : Job} : jobReady s j = true ↔
    turnCame s j ∧ ∀ q, j.kind = .ring q → j.extent = 0 ∨ tailEmpty s j q := by
  unfold jobReady
  rw [Bool.and_eq_true]
  refine and_congr ?turn ?stage
  case turn =>
    unfold turnCame
    split
    · next u hu =>
      simp only [hu, Bool.not_eq_true', List.any_eq_false, Bool.and_eq_true, beq_iff_eq, bne_iff_ne, not_and, Decidable.not_not,
        reduceCtorEq, false_or, Option.some.injEq, exists_eq_left']
    · next hnone => exact iff_of_true rfl (.inl hnone)
  case stage =>
    split
    · next q hq =>
      simp only [hq, tailEmpty, Bool.or_eq_true, Bool.and_eq_true, beq_iff_eq, bne_iff_ne, JobKind.ring.injEq, forall_eq']
    · next hother => exact iff_of_true rfl fun q hq => absurd hq (hother q)

theorem jobReady_unless_ring {s : State} {j : Job} (hturn : turnCame s j) (hkind : ∀ q, j.kind ≠ .ring q) :
    jobReady s j = true :=
  jobReady_iff.2 ⟨hturn, fun q hq => absurd hq (hkind q)⟩

theorem jobReady_ring {s : State} {j : Job} {q : Nat} (hturn : turnCame s j) (hkind : j.kind = .ring q)
    (htail : tailEmpty s j q) : jobReady s j = true := by
  refine jobReady_iff.2 ⟨hturn, fun q' hq => ?_⟩
  cases hkind.symm.trans hq
  exact .inr htail

section
variable {s : State} {i : Nat} {j : Job} (h : nextQueued s i = some j) (hready : jobReady s j = true)
include h hready

theorem startJob_runs (hext : j.extent ≠ 0) : startJob s i = modJob (claimStage s j).1 j.uid (fun _ =>
    { (claimStage s j).2 with phase := .running ((j.nextChunk 0).getD chunkEnd) }) := by
  simp only [startJob, h, hready, hext, Bool.not_true, Bool.false_eq_true, if_false]

theorem startJob_empty (hext : j.extent = 0) : startJob s i = completeJob s j := by
  simp only [startJob, h, hready, hext, Bool.not_true, Bool.false_eq_true, if_false, if_true]

end

/-- The ring after its tail stage is claimed (R215). -/
def tailClaimed (r : Ring) : Ring :=
  { r with stages := setAt r.stages r.tail .filling, tail := (r.tail + 1) % max 1 r.count }

theorem claimStage_ring {s : State} {j : Job} {q : Nat} (h : j.kind = .ring q) : claimStage s j =
    (s.modRow (rowOf j.core) (fun x => { x with
        rings := setAt x.rings q (tailClaimed (nth (s.row (rowOf j.core)).rings q {})) }),
      { j with stage := some (nth (s.row (rowOf j.core)).rings q {}).tail }) := by
  simp only [claimStage, h]
  rfl

section
variable {j : Job} (h : ∀ q, j.kind ≠ .ring q)
include h

theorem claimStage_unless_ring (s : State) : claimStage s j = (s, j) := by
  unfold claimStage
  split
  · next q hq => exact absurd hq (h q)
  · rfl

theorem setJobStage_unless_ring (s : State) (st : StageState) : setJobStage s j st = s := by
  unfold setJobStage
  split
  · next q _ hq _ => exact absurd hq (h q)
  · rfl

end

/-! ### Completion (R216, R217) -/

/-- A job that no counter counts lowers none. -/
theorem lowerCount_uncounted {s : State} {j : Job} (h : j.counted = 0) : lowerCount s j = s.setCore j.core (s.core j.core) := by
  simp only [lowerCount, h, modCore_eq]
  rfl

/-- A job that names no mailbox and no message completes with its status alone. -/
theorem completeJob_quiet {s : State} {j : Job} (hkind : ∀ q, j.kind ≠ .ring q) (hmbx : j.mbx = 0) (hmsg : j.msg = 0)
    (hcounted : j.counted = 0) : completeJob s j =
      { s.setCore j.core { s.core j.core with
          jobs := (s.core j.core).jobs.map (fun e => if e.1 = j.id then (e.1, .complete) else e) } with
        jobs := s.jobs.filter (fun x => x.uid != j.uid) } := by
  simp only [completeJob, hmsg, hmbx, beq_self_eq_true, Bool.true_or, Bool.not_true, Bool.false_eq_true, if_false, if_true,
    setJobStage_unless_ring hkind, lowerCount_uncounted hcounted]
  simp only [setStatus, modCore_eq, core_setCore, setCore_setCore, dropJob]
  rfl

/-! ### Requesting a chunk (R218) -/

/-- A job whose chunk ch has been requested as n beats. -/
def chunkAsked (ch n : Nat) (j : Job) : Job :=
  { j with phase := .running ((j.nextChunk (ch + 1)).getD chunkEnd), left := j.left ++ [(ch, n)] }

theorem requestChunk_ok {s s1 : State} {j : Job} {i ch : Nat} {bs : List Beat} (h : findJob s i = some j)
    (hphase : j.phase = .running ch) (hch : ch < chunkEnd) (hbeats : chunkBeats j ch s (j.pieces ch) [] = .ok (s1, bs)) :
    requestChunk s i = modJob { s1 with beats := s1.beats ++ bs } i (chunkAsked ch bs.length) := by
  simp only [requestChunk, h, hphase, Nat.not_le_of_lt hch, if_false, hbeats]
  rfl

/-! ### Reading a beat (R213, R260, R468) -/

section
variable {s : State} {i : Nat} {b : Beat} (h : s.beats[i]? = some b)
include h

theorem readBeat_behind (ok : Bool) (hbehind : readBehind s i b = true) : readBeat s i ok = s := by
  simp only [readBeat, h, hbehind, Bool.or_true, if_true]

section
variable {ok : Bool} {hm : Home} (hdata : b.data = none) (hbehind : readBehind s i b = false)
  (hhome : homeNow s b.ctx b.sva b.src = some hm)
include hdata hbehind hhome

theorem readBeat_poisoned {pa : Nat} (hm2 : hm = .bulk 2 pa) (hbad : ok = false ∨ pa / 64 ∈ s.poison) :
    readBeat s i ok = failBeat s i b { cause := .bulk, sub := 6, addr := b.sva } := by
  subst hm2
  have hfails : (ok && !s.poison.contains (pa / 64)) = false := by
    rcases hbad with rfl | hmem
    · rfl
    · rw [List.contains_iff_mem.2 hmem, Bool.not_true, Bool.and_false]
  simp only [readBeat, h, hdata, hbehind, hhome, hfails, Option.isSome_none, Bool.or_self, Bool.false_eq_true, if_false]

theorem readBeat_pushes (hsound : ∀ pa, hm = .bulk 2 pa → ok = true ∧ pa / 64 ∉ s.poison)
    (hready : ∀ t pa, hm = .bulk t pa → streamerReady s t pa = true) :
    readBeat s i ok = { (readHome s b.ctx hm b.len).2 with
      beats := dropAt (readHome s b.ctx hm b.len).2.beats i ++ [{ b with data := some (readHome s b.ctx hm b.len).1 }] } := by
  simp only [readBeat, h, hdata, hbehind, hhome, Option.isSome_none, Bool.or_self, Bool.false_eq_true, if_false]
  split
  · next pa hfails =>
    obtain ⟨hok, hmem⟩ := hsound pa rfl
    have hclean : s.poison.contains (pa / 64) = false := Bool.eq_false_iff.2 fun hc => hmem (List.contains_iff_mem.1 hc)
    exact absurd hfails (by simp only [hok, hclean, Bool.not_false, Bool.and_self, Bool.true_eq_false, not_false_eq_true])
  · refine if_neg ?_
    split
    · next t pa _ => simp only [hready t pa rfl, Bool.not_true, Bool.false_eq_true, not_false_eq_true]
    · exact Bool.false_ne_true

end

end

/-! ### The end of a beat (R206) -/

/-- A job with n - 1 beats of a chunk still to land. -/
def beatLanded (ch n : Nat) (j : Job) : Job :=
  { j with left := j.left.map (fun e => if e.1 = ch then (e.1, n - 1) else e) }

/-- A job whose chunk has landed. -/
def chunkLanded (ch : Nat) (j : Job) : Job := { j with left := aerase ch j.left, landed := j.landed ++ [ch] }

section
variable {s : State} {b : Beat} {j : Job} (h : findJob s b.uid = some j)
include h

theorem finishBeat_more {n : Nat} (hphase : j.phase ≠ .failing) (hn : alookup b.chunk j.left = some n) (hmore : 1 < n)
    (tile : Option (CoreId × Nat)) : finishBeat s b tile = modJob s b.uid (beatLanded b.chunk n) := by
  simp only [finishBeat, h, beq_false_of_ne hphase, hn, Option.getD_some, hmore, Bool.false_eq_true, if_false, if_true]
  rfl

/-- The last beat of a chunk finishes it in its tile; a job with chunks to request goes on. -/
theorem finishBeat_last {ch t : Nat} {c : CoreId} (hphase : j.phase = .running ch) (hch : ch ≠ chunkEnd)
    (hlast : alookup b.chunk j.left = some 1) : finishBeat s b (some (c, t)) =
      (modJob s b.uid (chunkLanded b.chunk)).modCore c
        (fun k => modTile k t (fun e => finishTileChunk e (b.chunk % 2 ^ 40))) := by
  have hfail : (j.phase == .failing) = false := by rw [hphase]; rfl
  have hfound : findJob ((modJob s b.uid (chunkLanded b.chunk)).modCore c
      (fun k => modTile k t (fun e => finishTileChunk e (b.chunk % 2 ^ 40)))) b.uid = some (chunkLanded b.chunk j) :=
    find_mod h (fun _ => rfl) rfl
  have hgoes : ((chunkLanded b.chunk j).phase == .running chunkEnd) = false := by
    rw [chunkLanded, hphase]
    exact beq_false_of_ne fun he => hch (JobPhase.running.inj he)
  have hfinish : finishBeat s b (some (c, t)) = finishJob ((modJob s b.uid (chunkLanded b.chunk)).modCore c
      (fun k => modTile k t (fun e => finishTileChunk e (b.chunk % 2 ^ 40)))) b.uid := by
    simp only [finishBeat, h, hfail, hlast, Option.getD_some, Nat.lt_irrefl, Bool.false_eq_true, if_false]
    rfl
  rw [hfinish]
  simp only [finishJob, hfound, hgoes, Bool.false_and, Bool.false_eq_true, if_false]

end

/-- A chunk that finishes in a filling tile (Table 9-1). -/
theorem finishTileChunk_filling {e : Tile} (h : e.st = .filling) (c : Nat) : finishTileChunk e c =
    { e with arr := natOr e.arr (2 ^ c), st := if natAnd e.exp (natOr e.arr (2 ^ c)) = e.exp then .ready else .filling } :=
  if_pos h

/-! ### A beat lands (R206, R212, R260) -/

/-- Beat i has put its bytes at offset a of a core's tile t. -/
def bytesInTile (s : State) (i : Nat) (c : CoreId) (t a : Nat) (bs : List Byte) : State :=
  { s.setCore c (deliver (s.core c) ((nth (s.core c).tiles t {}).base + a) bs) with beats := dropAt s.beats i }

theorem findJob_bytesInTile (s : State) (i : Nat) (c : CoreId) (t a : Nat) (bs : List Byte) (u : Nat) :
    findJob (bytesInTile s i c t a bs) u = findJob s u := rfl

/-- Bytes that land change no tile's state. -/
theorem deliver_tiles (k : Core) (a : Nat) (bs : List Byte) : (deliver k a bs).tiles = k.tiles := by
  obtain ⟨ls, hls, _⟩ := delivers bs k a
  rw [hls]

/-- A job and a tile after its chunk has landed, the tile's bytes first. -/
theorem bytesInTile_finished (s : State) (i : Nat) (c : CoreId) (t a : Nat) (bs : List Byte) (u : Nat) (f : Job → Job)
    (g : Tile → Tile) :
    let k := deliver (s.core c) ((nth (s.core c).tiles t {}).base + a) bs
    (modJob (bytesInTile s i c t a bs) u f).modCore c (fun k => modTile k t g) =
      modJob { s.setCore c { k with tiles := setAt k.tiles t (g (nth (s.core c).tiles t {})) } with
        beats := dropAt s.beats i } u f := by
  intro k
  have hk : (modJob (bytesInTile s i c t a bs) u f).core c = k := core_setCore s c k
  have htile : modTile k t g = { k with tiles := setAt k.tiles t (g (nth (s.core c).tiles t {})) } := by
    rw [modTile, deliver_tiles]
  rw [modCore_eq, hk, htile]
  exact congrArg (fun x : State => modJob { x with beats := dropAt s.beats i } u f) (setCore_setCore s c k _)

theorem landInTile_filling {s : State} {i t : Nat} {b : Beat} {c : CoreId} (bs : List Byte) (slab : Bool)
    (hfit : beatOff b + b.len ≤ 512 * (nth (s.core c).tiles t {}).nch) (hst : (nth (s.core c).tiles t {}).st = .filling) :
    landInTile s i b bs slab c t = finishBeat (bytesInTile s i c t (beatOff b) bs) b (some (c, t)) := by
  simp only [landInTile, hst, decide_eq_true hfit, bne_self_eq_false, Bool.not_true, Bool.or_self, Bool.and_false,
    Bool.false_eq_true, if_false, if_true]
  rfl

section
variable {s : State} {i : Nat} {b : Beat} {bs : List Byte} (h : s.beats[i]? = some b) (hdata : b.data = some bs)
include h hdata

theorem landBeat_tile {c0 c : CoreId} {t a : Nat} (htile : b.tile = some (c0, t)) (hdst : b.dst = .core c0 a)
    (hcore : beatCore s b c0 = some c) (hfit : a + b.len ≤ 512 * (nth (s.core c).tiles t {}).nch)
    (hst : (nth (s.core c).tiles t {}).st = .filling) : 
    landBeat s i = finishBeat (bytesInTile s i c t a bs) b (some (c, t)) := by
  have hoff : beatOff b = a := by simp only [beatOff, hdst]
  subst hoff
  simp only [landBeat, h, hdata, htile, hcore, landInTile_filling bs _ hfit hst]

section
variable (htile : b.tile = none)
include htile

theorem landBeat_behind (hbehind : writeBehind s i b = true) : landBeat s i = s := by
  simp only [landBeat, h, hdata, htile, hbehind, if_true]

theorem landBeat_home {hm : Home} (hbehind : writeBehind s i b = false) (hhome : homeNow s b.ctx b.dva b.dst = some hm)
    (hready : ∀ t pa, hm = .bulk t pa → streamerReady s t pa = true) :
    landBeat s i = finishBeat (dropBeat (writeHome s b.ctx hm bs) i) b none := by
  simp only [landBeat, h, hdata, htile, hbehind, hhome, Bool.false_eq_true, if_false]
  refine if_neg ?_
  split
  · next t pa => simp only [hready t pa rfl, Bool.not_true, Bool.false_eq_true, not_false_eq_true]
  · exact Bool.false_ne_true

end

end

/-- Settles O42: each event's job or beat is found, and the lemma of its case gives the state. -/
theorem copyEvents : Obligations.CopyEvents := by
  unfold Obligations.CopyEvents
  intro s j b i others first
  refine ⟨fun hnext hturn => ⟨fun hext hkind => ?starts, ?claims, fun hext hkind hmbx hmsg hcounted => ?empty⟩, ?requests,
    fun h hbeat hj hdata hhome => ⟨fun hbehind => ?readWaits, ?reads, fun pa hbehind hbad hbulk => ?poisoned⟩,
    fun bs n hbeat hdata hfind hphase hleft hmore => ⟨fun htile hbehind => ?writeWaits, ?lands, ?landsInTile⟩, ?lastOfChunk⟩
  case starts =>
    rw [exec_copyJobStart, startJob_runs hnext (jobReady_unless_ring hturn hkind) hext, claimStage_unless_ring hkind]
    rfl
  case claims =>
    intro q hkind hext row r r1 hcount hstage
    rw [exec_copyJobStart, startJob_runs hnext (jobReady_ring hturn hkind ⟨hcount, hstage⟩) hext, claimStage_ring hkind]
    rfl
  case empty =>
    rw [exec_copyJobStart, startJob_empty hnext (jobReady_unless_ring hturn hkind) hext,
      completeJob_quiet hkind hmbx hmsg hcounted]
  case requests =>
    intro ch s1 bs hfind huid hphase hch hbeats asked
    rw [exec_chunkRequest, requestChunk_ok hfind hphase hch hbeats, ← huid]
    rfl
  case readWaits => rw [exec_streamerRequest hj, readBeat_behind hbeat _ hbehind]
  case reads =>
    intro hbehind hsound hready r
    rw [exec_streamerRequest hj, readBeat_pushes hbeat hdata hbehind hhome hsound hready]
  case poisoned => rw [exec_streamerRequest hj, readBeat_poisoned hbeat hdata hbehind hhome hbulk hbad]
  case writeWaits => rw [exec_beatLanding, landBeat_behind hbeat hdata htile hbehind]
  case lands =>
    intro h s1 htile hbehind hhome hready hs1 hjobs huid
    subst hs1
    have hfound : findJob (dropBeat (writeHome s b.ctx h bs) i) b.uid = some j := (findJob_congr hjobs _).trans hfind
    rw [exec_beatLanding, landBeat_home hbeat hdata htile hbehind hhome hready, finishBeat_more hfound hphase hleft hmore,
      ← huid]
    rfl
  case landsInTile =>
    intro c0 c t a htile hdst hcore huid e hfit hst
    have hfound := (findJob_bytesInTile s i c t a bs b.uid).trans hfind
    rw [exec_beatLanding, landBeat_tile hbeat hdata htile hdst hcore hfit hst, finishBeat_more hfound hphase hleft hmore,
      ← huid]
    rfl
  case lastOfChunk =>
    intro bs c0 c t a ch hbeat hdata hfind huid hphase hch hlast htile hdst hcore k e arr e1 hfit hst landed
    have hfound := (findJob_bytesInTile s i c t a bs b.uid).trans hfind
    rw [exec_beatLanding, landBeat_tile hbeat hdata htile hdst hcore hfit hst, finishBeat_last hfound hphase hch hlast,
      bytesInTile_finished, finishTileChunk_filling hst, ← huid]
    rfl

end Sys2Proof.Proofs.CopyEvents
end

section
/-!
PROOFS of 10_counts_atomics: `fst`, `fld`, `amo` and `fence` as a core issues them.
-/
namespace Sys2Proof.Proofs.FabricIssue

open Sys2Proof.Machine Sys2Proof.Safety Sys2Proof.Proofs.Sending

/-! ### Alignment and homes (R19, R233, R248) -/

theorem fabricAlign_ok {va n : Nat} (h : va % min n 8 = 0) : fabricAlign va n = .ok () := needD_true (beq_iff_eq.2 h)

theorem fabricAlign_trap {va n : Nat} (h : va % min n 8 ≠ 0) :
    fabricAlign va n = .error (.trap { cause := .align, addr := va }) := needD_false (beq_false_of_ne h)

section
variable {s : State} {k : Core} {va n : Nat} {write : Bool}

theorem homeD_ok {h : Home} (hhome : fabricHome (s.setCore s.cur k) s.cur k.ctx va n write = .ok h) :
    homeD (s.setCore s.cur k) s.cur va n write = .ok h := by
  simp only [homeD, core_setCore, hhome]

theorem homeD_trap {e : Cause × Nat} (hhome : fabricHome (s.setCore s.cur k) s.cur k.ctx va n write = .error e) :
    homeD (s.setCore s.cur k) s.cur va n write = .error (.trap { cause := e.1, sub := e.2, addr := va }) := by
  simp only [homeD, core_setCore, hhome, trapD]

end

/-- The bytes of a fabric store or load. -/
def accSize (f : IType) (vec : Bool) : Nat := if vec then 64 else fmtBytes (ifmt f)

/-! ### fst (R233, R234) -/

theorem storeData_ok {k1 k2 : Core} {f : IType} {vec : Bool} {d : Spec} {v : Nat}
    (h : if vec then readVec k1 .z64 d = .ok (v, k2) else readSrc k1 (ifmt f) d = .ok (v, k2)) :
    storeData k1 f vec d = .ok (toBytes (accSize f vec) v, k2) := by
  cases vec
  case false =>
    have hread : readSrc k1 (ifmt f) d = .ok (v, k2) := h
    simp only [storeData, hread, Bool.false_eq_true, if_false, bind, Except.bind]
    rfl
  case true =>
    have hread : readVec k1 .z64 d = .ok (v, k2) := h
    simp only [storeData, hread, if_true, bind, Except.bind]
    rfl

section
variable {w : FWait} {f : IType} {o : Order} {d a : Spec} {vec : Bool} {i : Instr} {n : Nat} {s : State}

theorem fabricStore_waits (h : ¬ sendGoes (s.core s.cur) w o) :
    fabricStore w f o d a vec s.cur (issuedState i n s) = .error (.wait (issuedState i n s)) := by
  simp only [fabricStore, issueStore_wait h, bind, Except.bind]

variable {va v : Nat} {k1 k2 : Core} (hgo : sendGoes (s.core s.cur) w o)
  (ha : readSrc (issued i n s) .z64 a = .ok (va, k1))
  (hdata : if vec then readVec k1 .z64 d = .ok (v, k2) else readSrc k1 (ifmt f) d = .ok (v, k2))
include hgo ha hdata

theorem fabricStore_align (halign : va % min (accSize f vec) 8 ≠ 0) :
    fabricStore w f o d a vec s.cur (issuedState i n s) = .error (.trap { cause := .align, addr := va }) := by
  simp only [fabricStore, issueStore_ok hgo, srcZ_issued ha, core_setCore, storeData_ok hdata, ofCore, toBytes_length,
    fabricAlign_trap halign, bind, Except.bind]

variable (halign : va % min (accSize f vec) 8 = 0)
include halign

theorem fabricStore_nowhere {e : Cause × Nat}
    (hhome : fabricHome (s.setCore s.cur k2) s.cur k2.ctx va (accSize f vec) true = .error e) :
    fabricStore w f o d a vec s.cur (issuedState i n s) = .error (.trap { cause := e.1, sub := e.2, addr := va }) := by
  simp only [fabricStore, issueStore_ok hgo, srcZ_issued ha, core_setCore, storeData_ok hdata, ofCore, toBytes_length,
    fabricAlign_ok halign, setCore_setCore, homeD_trap hhome, bind, Except.bind]

/-- A store that finds its home is on its way, and ct.f counts it. -/
theorem fabricStore_sent {h : Home} (hroom : k2.ctf < 65535)
    (hhome : fabricHome (s.setCore s.cur k2) s.cur k2.ctx va (accSize f vec) true = .ok h) :
    fabricStore w f o d a vec s.cur (issuedState i n s) = .ok { s.setCore s.cur { dropFence k2 with ctf := k2.ctf + 1 } with
      fab := s.fab ++ [{
        src := s.cur, ctx := k2.ctx, home := h, va := va, kind := .store (toBytes (accSize f vec) v), posted := 1
        launch := k2.launch, todo := accWords (accSize f vec), since := s.cycle }] } := by
  simp only [fabricStore, issueStore_ok hgo, srcZ_issued ha, core_setCore, storeData_ok hdata, ofCore, toBytes_length,
    fabricAlign_ok halign, setCore_setCore, homeD_ok hhome, untilD_true (decide_eq_true hroom), setCore_fab, setCore_cycle,
    bind, Except.bind]

end

/-! ### fld (R233, R235) -/

/-- What the wait field and the loads in flight ask of the core before a load issues. -/
def loadGoes (k : Core) (w : FWait) (o : Order) : Prop := waitClear k w = true ∧ (isAcq o = true ∨ k.ldo < 4)

theorem issued_ldo (i : Instr) (n : Nat) (s : State) : (issued i n s).ldo = (s.core s.cur).ldo := issue_ldo _ _ _

theorem issued_atm (i : Instr) (n : Nat) (s : State) : (issued i n s).atm = (s.core s.cur).atm := issue_atm _ _ _

/-- A load on its way (R235): relaxed and counted in LDO, or an acquire for which the core stalls. -/
def loadSent (f : IType) (o : Order) (d : Spec) (vec : Bool) (va : Nat) (h : Home) (k : Core) (s : State) : State :=
  { s.setCore s.cur { k with
      pendDst := k.pendDst ++ [dataPlace k vec d], ldo := if isAcq o then k.ldo else k.ldo + 1, acqWait := isAcq o } with
    fab := s.fab ++ [{
      src := s.cur, ctx := k.ctx, home := h, va := va
      kind := .load (accSize f vec) (dataPlace k vec d).1 (fmtSigned (ifmt f)) (!vec), acq := isAcq o, launch := k.launch
      todo := accWords (accSize f vec), got := List.replicate (accSize f vec) 0, since := s.cycle }] }

section
variable {w : FWait} {f : IType} {o : Order} {d a : Spec} {vec : Bool} {i : Instr} {n : Nat} {s : State}

theorem fabricLoad_waits (h : ¬ loadGoes (s.core s.cur) w o) :
    fabricLoad w f o d a vec s.cur (issuedState i n s) = .error (.wait (issuedState i n s)) := by
  simp only [fabricLoad, issuedState_core, issued_wait, issued_ldo]
  cases hwait : waitClear (s.core s.cur) w
  case false => rfl
  case true =>
    have hfull : (isAcq o || decide ((s.core s.cur).ldo < 4)) = false := by
      refine Bool.eq_false_iff.2 fun hroom => h ⟨hwait, ?_⟩
      simpa only [Bool.or_eq_true, decide_eq_true_eq] using hroom
    simp only [untilD_true rfl, untilD_false hfull, bind, Except.bind]

variable {va : Nat} {k1 : Core} (hgo : loadGoes (s.core s.cur) w o) (ha : readSrc (issued i n s) .z64 a = .ok (va, k1))
include hgo ha

/-- A load whose waits are over goes on to its checks. -/
theorem fabricLoad_issues : fabricLoad w f o d a vec s.cur (issuedState i n s) = (do
    fabricAlign va (accSize f vec)
    let h ← homeD (s.setCore s.cur k1) s.cur va (accSize f vec) false
    untilD (!pendingAt k1 (dataPlace k1 vec d).1 (dataPlace k1 vec d).2) (issuedState i n s)
    .ok (loadSent f o d vec va h k1 s)) := by
  obtain ⟨hwait, hroom⟩ := hgo
  have hroom' : (isAcq o || decide ((s.core s.cur).ldo < 4)) = true := by
    simpa only [Bool.or_eq_true, decide_eq_true_eq] using hroom
  simp only [fabricLoad, issuedState_core, issued_wait, issued_ldo, untilD_true hwait, untilD_true hroom', srcZ_issued ha,
    core_setCore, setCore_setCore, bind, Except.bind]
  rfl

theorem fabricLoad_align (halign : va % min (accSize f vec) 8 ≠ 0) :
    fabricLoad w f o d a vec s.cur (issuedState i n s) = .error (.trap { cause := .align, addr := va }) := by
  simp only [fabricLoad_issues hgo ha, fabricAlign_trap halign, bind, Except.bind]

variable (halign : va % min (accSize f vec) 8 = 0)
include halign

theorem fabricLoad_nowhere {e : Cause × Nat}
    (hhome : fabricHome (s.setCore s.cur k1) s.cur k1.ctx va (accSize f vec) false = .error e) :
    fabricLoad w f o d a vec s.cur (issuedState i n s) = .error (.trap { cause := e.1, sub := e.2, addr := va }) := by
  simp only [fabricLoad_issues hgo ha, fabricAlign_ok halign, homeD_trap hhome, bind, Except.bind]

theorem fabricLoad_sent {h : Home}
    (hhome : fabricHome (s.setCore s.cur k1) s.cur k1.ctx va (accSize f vec) false = .ok h)
    (hfree : pendingAt k1 (dataPlace k1 vec d).1 (dataPlace k1 vec d).2 = false) :
    fabricLoad w f o d a vec s.cur (issuedState i n s) = .ok (loadSent f o d vec va h k1 s) := by
  have hfree' := congrArg not hfree
  simp only [fabricLoad_issues hgo ha, fabricAlign_ok halign, homeD_ok hhome, untilD_true hfree', bind, Except.bind]

end

/-! ### amo (R239, R242, R243) -/

/-- What an atomic asks of the core before it issues: what a store asks, and a place in ATM. -/
def atomicGoes (k : Core) (w : FWait) (o : Order) : Prop := sendGoes k w o ∧ k.atm < 8

/-- An atomic on its way to its home (R242, R243), with the data words that stand at its place. -/
def atomicSent (f : IType) (o : Order) (p : AmoOp) (va : Nat) (place : Nat × Nat) (c : CoreId) (h : Home) (s : State) :
    State :=
  let k := s.core c
  let data (a : Nat) : Nat := readLocal k a 8 % 2 ^ (8 * fmtBytes (ifmt f))
  { s.setCore c { dropFence k with pendDst := k.pendDst ++ [place], atm := k.atm + 1, acqWait := isAcq o } with
    fab := s.fab ++ [{
      src := c, ctx := k.ctx, home := h, va := va, kind := .amo p f (data place.1) (data (place.1 + 8)) place.1
      acq := isAcq o, launch := k.launch, since := s.cycle, big := bigAt s (couchOf c) k.ctx va, born := s.tlbn }] }

section
variable {s : State} {c : CoreId} {va n : Nat}

section
variable {t pa : Nat} {s1 : State} (hbulk : isBulk va = true) (htrans : coreTranslate s c va 2 = .ok (t, pa) s1)
include hbulk htrans

theorem atomicHome_bulk (hsound : t ≠ 2 ∨ pa / 64 ∉ s1.poison) : atomicHome s c va n = .ok (.bulk t pa, s1) := by
  have hclean : (t == 2 && s1.poison.contains (pa / 64)) = false := by
    rwa [Bool.and_eq_false_iff, beq_eq_false_iff_ne, ← Bool.not_eq_true, List.contains_iff_mem]
  simp only [atomicHome, hbulk, if_true, htrans, Got.dev, hclean, Bool.not_false, needD_true rfl, bind, Except.bind]

theorem atomicHome_poisoned (ht : t = 2) (hbad : pa / 64 ∈ s1.poison) :
    atomicHome s c va n = .error (.trap { cause := .bulk, sub := 6, addr := va }) := by
  have hpoison : (!(t == 2 && s1.poison.contains (pa / 64))) = false := by
    rw [ht, List.contains_iff_mem.2 hbad]
    rfl
  simp only [atomicHome, hbulk, if_true, htrans, Got.dev, needD_false hpoison, bind, Except.bind]

end

theorem isBulk_of_lt (h : va < 0xB0000000) : isBulk va = false := by
  have hlow : ¬ 2 ^ 32 ≤ va := by omega
  rw [isBulk, decide_eq_false hlow, Bool.false_and]

theorem atomicHome_system (hlo : 0xA0000000 ≤ va) (hhi : va < 0xB0000000) :
    atomicHome s c va n = .error (.trap { cause := .fabric, sub := 2, addr := va }) := by
  simp only [atomicHome, isBulk_of_lt hhi, decide_eq_true hlo, decide_eq_true hhi, Bool.false_eq_true, Bool.and_self,
    if_false, if_true, trapD]

/-- Outside bulk memory and the system window the home is that of a store. -/
theorem atomicHome_window (hbulk : isBulk va = false) (hout : va < 0xA0000000 ∨ 0xB0000000 ≤ va) :
    atomicHome s c va n = (homeD s c va n true).map (fun h => (h, s)) := by
  have hsys : (decide (0xA0000000 ≤ va) && decide (va < 0xB0000000)) = false := by
    rw [← Bool.decide_and, decide_eq_false (by omega)]
  simp only [atomicHome, hbulk, hsys, Bool.false_eq_true, if_false]
  rfl

end

section
variable {w : FWait} {f : IType} {o : Order} {d a : Spec} {p : AmoOp} {i : Instr} {n : Nat} {s : State}

theorem fabricAtomic_waits (h : ¬ atomicGoes (s.core s.cur) w o) :
    fabricAtomic w f o d a p s.cur (issuedState i n s) = .error (.wait (issuedState i n s)) := by
  by_cases hgo : sendGoes (s.core s.cur) w o
  case neg => simp only [fabricAtomic, issueStore_wait hgo, bind, Except.bind]
  case pos =>
    have hfull : decide ((s.core s.cur).atm < 8) = false := decide_eq_false fun hroom => h ⟨hgo, hroom⟩
    simp only [fabricAtomic, issueStore_ok hgo, issuedState_core, issued_atm, untilD_false hfull, bind, Except.bind]

variable {va : Nat} {k1 : Core} (hgo : atomicGoes (s.core s.cur) w o) (ha : readSrc (issued i n s) .z64 a = .ok (va, k1))
include hgo ha

/-- An atomic whose waits are over goes on to its checks. -/
theorem fabricAtomic_issues : fabricAtomic w f o d a p s.cur (issuedState i n s) = (do
    fabricAlign va (fmtBytes (ifmt f))
    untilD (!unreadyAt k1 (dataPlace k1 false d).1 (if p == .cas then 16 else 8)) (issuedState i n s)
    (atomicHome (s.setCore s.cur k1) s.cur va (fmtBytes (ifmt f))).map
      (fun r => atomicSent f o p va (dataPlace k1 false d) s.cur r.1 r.2)) := by
  obtain ⟨hstore, hroom⟩ := hgo
  simp only [fabricAtomic, issueStore_ok hstore, issuedState_core, issued_atm, untilD_true (decide_eq_true hroom),
    srcZ_issued ha, core_setCore, bind, Except.bind]
  rfl

theorem fabricAtomic_align (halign : va % min (fmtBytes (ifmt f)) 8 ≠ 0) :
    fabricAtomic w f o d a p s.cur (issuedState i n s) = .error (.trap { cause := .align, addr := va }) := by
  simp only [fabricAtomic_issues hgo ha, fabricAlign_trap halign, bind, Except.bind]

variable (halign : va % min (fmtBytes (ifmt f)) 8 = 0)
  (hready : unreadyAt k1 (dataPlace k1 false d).1 (if p = .cas then 16 else 8) = false)
include halign hready

theorem fabricAtomic_aligned : fabricAtomic w f o d a p s.cur (issuedState i n s) =
    (atomicHome (s.setCore s.cur k1) s.cur va (fmtBytes (ifmt f))).map
      (fun r => atomicSent f o p va (dataPlace k1 false d) s.cur r.1 r.2) := by
  have hready' : (!unreadyAt k1 (dataPlace k1 false d).1 (if p == .cas then 16 else 8)) = true := by
    simp only [beq_iff_eq, hready, Bool.not_false]
  simp only [fabricAtomic_issues hgo ha, fabricAlign_ok halign, untilD_true hready', bind, Except.bind]

end

/-- Settles O27, instruction by instruction. -/
theorem fabricAccesses : Obligations.FabricAccesses := by
  unfold Obligations.FabricAccesses
  intro w f o d a vec sc p s va v k1 k2 h k goesNow acc size words
  refine ⟨fun hA hgo hdata halign hroom hhome => ?store, fun hA hwait hroom halign hhome hfree => ?load,
    fun n hn hA hgo hroom halign hready => ?atomic, fun n hn hA hgo hroom halign => ?atomicAlign,
    fun hA hwait hroom => ⟨fun halign => ?loadAlign, fun e halign hhome => ?loadNowhere⟩,
    fun hr hstop => ?storeWaits, fun hr hstop => ?atomicWaits, fun hr hstop => ?loadWaits,
    fun n e hn hA hgo hroom halign hready hbulk hout hhome => ?atomicNowhere,
    fun hA hgo hdata => ⟨fun halign => ?storeAlign, fun e halign hhome => ?storeNowhere⟩⟩
  case store => exact end0 rfl hA.1 (fabricStore_sent hgo hA.2 hdata halign hroom hhome)
  case storeWaits => exact nativeOp_stop (cost := fun _ => 1) hr (localOnly_refl _) rfl (fabricStore_waits hstop)
  case storeAlign => exact end0_trap rfl hA.1 (fabricStore_align hgo hA.2 hdata halign)
  case storeNowhere => exact end0_trap rfl hA.1 (fabricStore_nowhere hgo hA.2 hdata halign hhome)
  case load => exact end0 rfl hA.1 (fabricLoad_sent ⟨hwait, hroom⟩ hA.2 halign hhome hfree)
  case loadWaits => exact nativeOp_stop (cost := fun _ => 1) hr (localOnly_refl _) rfl (fabricLoad_waits hstop)
  case loadAlign => exact end0_trap rfl hA.1 (fabricLoad_align ⟨hwait, hroom⟩ hA.2 halign)
  case loadNowhere => exact end0_trap rfl hA.1 (fabricLoad_nowhere ⟨hwait, hroom⟩ hA.2 halign hhome)
  case atomic =>
    subst hn
    have hmeans := fabricAtomic_aligned (p := p) ⟨hgo, hroom⟩ hA.2 halign hready
    refine ⟨fun hlow hhome => end0 rfl hA.1 (hmeans.trans ?window), fun t pa s2 hbulk htrans => ⟨
      fun hsound => end0 rfl hA.1 (hmeans.trans ?bulk), fun ht hbad => end0_trap rfl hA.1 (hmeans.trans ?poisoned)⟩,
      fun hlo hhi => end0_trap rfl hA.1 (hmeans.trans ?system)⟩
    case window =>
      rw [atomicHome_window (isBulk_of_lt (by omega)) (.inl hlow), homeD_ok hhome]
      rfl
    case bulk =>
      rw [atomicHome_bulk hbulk htrans hsound]
      rfl
    case poisoned =>
      rw [atomicHome_poisoned hbulk htrans ht hbad]
      rfl
    case system =>
      rw [atomicHome_system hlo hhi]
      rfl
  case atomicNowhere =>
    subst hn
    refine end0_trap rfl hA.1 ((fabricAtomic_aligned ⟨hgo, hroom⟩ hA.2 halign hready).trans ?_)
    rw [atomicHome_window hbulk hout, homeD_trap hhome]
    rfl
  case atomicAlign =>
    subst hn
    exact end0_trap rfl hA.1 (fabricAtomic_align ⟨hgo, hroom⟩ hA.2 halign)
  case atomicWaits => exact nativeOp_stop (cost := fun _ => 1) hr (localOnly_refl _) rfl (fabricAtomic_waits hstop)

/-! ### fence (R238, Table 10-1) -/

section
variable {w : FWait} {sc : Scope} {o : Order} {i : Instr} {n : Nat} {s : State}

theorem fabricFence_held (h : waitClear (s.core s.cur) w = false) :
    fabricFence w sc o s.cur (issuedState i n s) = .error (.wait (issuedState i n s)) := by
  simp only [fabricFence, issuedState_core, issued_wait, untilD_false h, bind, Except.bind]

variable (hwait : waitClear (s.core s.cur) w = true)
include hwait

theorem fabricFence_core (hsc : sc = .core) : fabricFence w sc o s.cur (issuedState i n s) = .ok (issuedState i n s) := by
  simp only [fabricFence, issuedState_core, issued_wait, untilD_true hwait, hsc, beq_self_eq_true, if_true, bind,
    Except.bind]

variable (hsc : sc ≠ .core)
include hsc

/-- A release fence marks the loads in flight and holds later stores. -/
theorem fabricFence_rel (ho : o = .rel) : fabricFence w sc o s.cur (issuedState i n s) =
    .ok (s.setCore s.cur { issued i n s with fenceSt := true, fenceDst := (issued i n s).pendDst }) := by
  simp only [fabricFence, issuedState, core_setCore, setCore_setCore, issued_wait, untilD_true hwait, beq_false_of_ne hsc,
    Bool.false_eq_true, if_false, ho, bind, Except.bind]

theorem fabricFence_acq_waits (ho : o = .acq ∨ o = .acqrel) (hpend : (issued i n s).pendDst ≠ []) :
    fabricFence w sc o s.cur (issuedState i n s) = .error (.wait (issuedState i n s)) := by
  have hloads : (issued i n s).pendDst.isEmpty = false := List.isEmpty_eq_false_iff.2 hpend
  rcases ho with rfl | rfl <;>
    simp only [fabricFence, issuedState_core, issued_wait, untilD_true hwait, beq_false_of_ne hsc, Bool.false_eq_true,
      if_false, untilD_false hloads, bind, Except.bind]

theorem fabricFence_sc_waits (ho : o = .rlx)
    (hbusy : (issued i n s).pendDst ≠ [] ∨ (issued i n s).ctf ≠ 0 ∨ (issued i n s).ctb ≠ 0) :
    fabricFence w sc o s.cur (issuedState i n s) = .error (.wait (issuedState i n s)) := by
  have hstop : ((issued i n s).pendDst.isEmpty && (issued i n s).ctf == 0 && (issued i n s).ctb == 0) = false := by
    simpa only [Bool.and_eq_false_iff, List.isEmpty_eq_false_iff, beq_eq_false_iff_ne, or_assoc] using hbusy
  simp only [fabricFence, issuedState_core, issued_wait, untilD_true hwait, beq_false_of_ne hsc, Bool.false_eq_true,
    if_false, ho, untilD_false hstop, bind, Except.bind]

variable (hpend : (issued i n s).pendDst = [])
include hpend

theorem fabricFence_acq (ho : o = .acq) : fabricFence w sc o s.cur (issuedState i n s) = .ok (issuedState i n s) := by
  simp only [fabricFence, issuedState_core, issued_wait, untilD_true hwait, beq_false_of_ne hsc, Bool.false_eq_true,
    if_false, ho, hpend, List.isEmpty_nil, untilD_true rfl, bind, Except.bind]

theorem fabricFence_acqrel (ho : o = .acqrel) : fabricFence w sc o s.cur (issuedState i n s) =
    .ok (s.setCore s.cur { issued i n s with fenceSt := true, fenceDst := [] }) := by
  simp only [fabricFence, issuedState, core_setCore, setCore_setCore, issued_wait, untilD_true hwait, beq_false_of_ne hsc,
    Bool.false_eq_true, if_false, ho, hpend, List.isEmpty_nil, untilD_true rfl, bind, Except.bind]

theorem fabricFence_sc (ho : o = .rlx) (hctf : (issued i n s).ctf = 0) (hctb : (issued i n s).ctb = 0) :
    fabricFence w sc o s.cur (issuedState i n s) =
      .ok (s.setCore s.cur { issued i n s with fenceSt := false, fenceDst := [] }) := by
  have hidle : ((issued i n s).pendDst.isEmpty && (issued i n s).ctf == 0 && (issued i n s).ctb == 0) = true := by
    rw [hpend, hctf, hctb]
    rfl
  simp only [fabricFence, issuedState, core_setCore, setCore_setCore, issued_wait, untilD_true hwait, beq_false_of_ne hsc,
    Bool.false_eq_true, if_false, ho, untilD_true hidle, bind, Except.bind]

end

/-- Settles O28, order by order. -/
theorem fences : Obligations.Fences := by
  unfold Obligations.Fences
  intro w sc o s i k ends waits
  have hstops (hr : ready i s)
      (hf : fabricFence w sc o s.cur (issuedState i 1 s) = .error (.wait (issuedState i 1 s))) : waits :=
    nativeOp_stop (cost := fun _ => 1) hr (localOnly_refl _) rfl hf
  refine ⟨fun hr hheld => hstops hr (fabricFence_held hheld), fun hr hwait => ⟨
    fun hsc ho hpend => hstops hr (fabricFence_acq_waits hwait hsc ho hpend),
    fun hsc ho hbusy => hstops hr (fabricFence_sc_waits hwait hsc ho hbusy), fun hsc => ?core, fun hsc ho => ?rel,
    fun hsc ho hpend => ?acq, fun hsc ho hpend => ?acqrel, fun hsc ho hpend hctf hctb => ?sc⟩⟩
  case core => exact end0 rfl hr (fabricFence_core hwait hsc)
  case rel => exact end0 rfl hr (fabricFence_rel hwait hsc ho)
  case acq => exact end0 rfl hr (fabricFence_acq hwait hsc hpend ho)
  case acqrel => exact end0 rfl hr (fabricFence_acqrel hwait hsc hpend ho)
  case sc => exact end0 rfl hr (fabricFence_sc hwait hsc hpend ho hctf hctb)

end Sys2Proof.Proofs.FabricIssue
end

section
/-!
PROOFS of 10_counts_atomics: what an access does at its home, and what its core gets back.
-/
namespace Sys2Proof.Proofs.FabricEvents

open Sys2Proof.Machine Sys2Proof.Safety

/-! ### The words of an access (R232) -/

/-- The words that perform now: those that the event names, or all that remain. -/
def wordsNow (a : Acc) (ws : List Nat) : List Nat := if ws = [] then a.todo else a.todo.filter ws.contains

/-- The words that have still to perform after them. -/
def wordsLeft (a : Acc) (ws : List Nat) : List Nat := a.todo.filter (fun w => !(wordsNow a ws).contains w)

/-- An access at its home after some of its words: in phase p once none remains. -/
def afterWords (a : Acc) (ws : List Nat) (h : Home) (p : AccPhase) : Acc :=
  { a with phase := if wordsLeft a ws = [] then p else .going, home := h, todo := wordsLeft a ws }

theorem picked_eq (a : Acc) (ws : List Nat) : a.picked ws = wordsNow a ws := by
  cases ws <;> rfl

theorem left_phase {l : List Nat} {p : AccPhase} :
    (if l.isEmpty = true then p else .going) = if l = [] then p else .going := by
  cases l <;> rfl

/-! ### Stores (R232, R236, R251) -/

/-- The copies of lines that a control core holds itself stay as they were in s. -/
def keepLines (s u : State) (c : CoreId) : State :=
  u.setCore c (if c.cls = .control then { u.core c with lines := (s.core c).lines } else u.core c)

theorem keepLines_of_core_eq {s u : State} {c : CoreId} (h : u.core c = s.core c) :
    keepLines s u c = u.setCore c (s.core c) := by
  rw [keepLines, h, ite_self]

/-- The w-th word of a store written at its home, and some words one by one. -/
def writeWord (ctx : Nat) (h : Home) (bs : List Byte) (s : State) (w : Nat) : State :=
  writeHome s ctx (h.word w) (wordOf bs w)

def writeWords (s : State) (ctx : Nat) (h : Home) (bs : List Byte) (ws : List Nat) : State :=
  ws.foldl (writeWord ctx h bs) s

theorem writeWords_row_core (s : State) (ctx r x : Nat) (bs : List Byte) (ws : List Nat) (c : CoreId) :
    (writeWords s ctx (.row r x) bs ws).core c = s.core c :=
  foldl_keeps (f := writeWord ctx (.row r x) bs) (fun u => u.core c) (fun _ _ => rfl) ws s

theorem failAccess_lives {s : State} {i : Nat} {a : Acc} (h : accLives s a = true) : failAccess s i a =
    pushTrap ((dropFab s i).setCore a.src ((s.core a.src).settled a)) a.src
      { cause := .bulk, sub := 4, addr := a.va, async := true } := by
  simp only [failAccess, h, if_true]
  rfl

section
variable {s : State} {i : Nat} {a : Acc} {ws : List Nat} {bs : List Byte} (hitem : fabItem s i = some a)
  (hphase : a.phase = .going) (hkind : a.kind = .store bs)
include hitem hphase hkind

theorem storePerform_away (hhome : homeNow s a.ctx a.va a.home = none) :
    storePerform s i ws = setFab s i { a with phase := .refused } := by
  simp only [storePerform, hitem, hphase, hkind, hhome]

variable {h : Home} (hhome : homeNow s a.ctx a.va a.home = some h)
include hhome

theorem storePerform_down (hdown : homeDown s h = true) : storePerform s i ws = failAccess s i a := by
  simp only [storePerform, hitem, hphase, hkind, hhome, hdown, if_true]

theorem storePerform_writes (hup : homeDown s h = false) : storePerform s i ws =
    setFab (keepLines s (writeWords s a.ctx h bs (wordsNow a ws)) a.src) i (afterWords a ws h (.done [])) := by
  simp only [storePerform, hitem, hphase, hkind, hhome, hup, Bool.false_eq_true, if_false, picked_eq, left_phase, beq_iff_eq,
    afterWords]
  rfl

end

/-! ### Loads (R232) -/

/-- A load that has read some words: its bytes so far, and its value once none remains. -/
def afterRead (a : Acc) (ws : List Nat) (h : Home) (got : List Byte) : Acc :=
  { afterWords a ws h (.done got) with got := got }

section
variable {s : State} {i : Nat} {a : Acc} {ws : List Nat} {n x : Nat} {g w8 : Bool} (hitem : fabItem s i = some a)
  (hphase : a.phase = .going) (hkind : a.kind = .load n x g w8)
include hitem hphase hkind

theorem loadPerform_away (hhome : homeNow s a.ctx a.va a.home = none) :
    loadPerform s i ws = setFab s i { a with phase := .refused } := by
  simp only [loadPerform, hitem, hphase, hkind, hhome]

theorem loadPerform_reads {h : Home} (hhome : homeNow s a.ctx a.va a.home = some h) {r : State × List Byte}
    (hr : (wordsNow a ws).foldl (readWord a.ctx n h) (s, a.got) = r) :
    loadPerform s i ws = setFab r.1 i (afterRead a ws h r.2) := by
  simp only [loadPerform, hitem, hphase, hkind, hhome, picked_eq, hr, left_phase, afterRead, afterWords]
  rfl

end

/-! ### Atomics (R239-R243, R248) -/

section
variable {s : State} {i : Nat} {a : Acc} {op : AmoOp} {t : IType} {x y dst : Nat} {h : Home}
  (hitem : fabItem s i = some a) (hphase : a.phase = .going) (hkind : a.kind = .amo op t x y dst)
  (hhome : homeNow s a.ctx a.va a.home = some h)
include hitem hphase hkind hhome

theorem atomicPerform_held (hturn : mayServe s a h = false) (ok : Bool) : atomicPerform s i ok = s := by
  simp only [atomicPerform, hitem, hphase, hkind, hhome, hturn, Bool.not_false, if_true]

variable (hturn : mayServe s a h = true)
include hturn

theorem atomicPerform_faults : atomicPerform s i false = atomicFault s a := by
  simp only [atomicPerform, hitem, hphase, hkind, hhome, hturn, Bool.not_true, Bool.not_false, Bool.false_eq_true, if_false,
    if_true]

theorem atomicPerform_down (hdown : homeDown s h = true) : atomicPerform s i true = failAccess s i a := by
  simp only [atomicPerform, hitem, hphase, hkind, hhome, hturn, hdown, Bool.not_true, Bool.false_eq_true, if_false, if_true]

variable (hup : homeDown s h = false) {r : List Byte × State}
  (hr : readHome (touchHot s a h) a.ctx h (fmtBytes (ifmt t)) = r)
include hup hr

theorem atomicPerform_writes {v : Nat} (hnew : amoNew op t (ofBytes r.1) x y = some v) : atomicPerform s i true =
    setFab (writeHome r.2 a.ctx h (toBytes (fmtBytes (ifmt t)) v)) i { a with phase := .done r.1, home := h } := by
  simp only [atomicPerform, hitem, hphase, hkind, hhome, hturn, hup, hr, hnew, Bool.not_true, Bool.false_eq_true, if_false]

/-- A compare that fails writes nothing. -/
theorem atomicPerform_keeps (hnew : amoNew op t (ofBytes r.1) x y = none) : atomicPerform s i true =
    setFab r.2 i { a with phase := .done r.1, home := h } := by
  simp only [atomicPerform, hitem, hphase, hkind, hhome, hturn, hup, hr, hnew, Bool.not_true, Bool.false_eq_true, if_false]

end

theorem homeDown_of_ready {s : State} {h : Home} (hready : ∀ m p, h = .bulk m p → streamerReady s m p = true) :
    homeDown s h = false := by
  cases h
  case bulk m p => exact congrArg not (hready m p rfl)
  all_goals rfl

theorem atomicFault_lives {s : State} {a : Acc} (h : accLives s a = true) : atomicFault s a =
    haltContext s a.ctx (some a.src) { cause := .hwfault, addr := a.va } (fun _ => false) := by
  rw [atomicFault, h, if_pos rfl]

theorem exec_atomicPerform {s : State} {ok : Bool} (h : s.ev.ok = ok) :
    exec .atomicPerform s = .next (atomicPerform s s.ev.i ok) := by
  rw [← h]
  rfl

/-! ### Acknowledgements and replies (R229, R235, R242) -/

theorem bnat_beq (n m : Nat) : bnat (n == m) = if n = m then 1 else 0 := by
  simp only [bnat, beq_iff_eq]

section
variable {k : Core} {a : Acc}

theorem settled_store {bs : List Byte} (hkind : a.kind = .store bs) : k.settled a = { k with
    ctf := k.ctf - (if a.posted = 1 then 1 else 0), ctb := k.ctb - (if a.posted = 2 then 1 else 0) } := by
  simp only [Core.settled, hkind, bnat_beq]

theorem settled_load {n x : Nat} {g w8 : Bool} (hkind : a.kind = .load n x g w8) : k.settled a =
    { k.returned (x, if w8 then 8 else 64) with
      ldo := if a.acq then k.ldo else k.ldo - 1, acqWait := if a.acq then false else k.acqWait } := by
  simp only [Core.settled, hkind]

theorem settled_amo {op : AmoOp} {t : IType} {x y dst : Nat} (hkind : a.kind = .amo op t x y dst) : k.settled a =
    { k.returned (dst, 8) with atm := k.atm - 1, acqWait := if a.acq then false else k.acqWait } := by
  simp only [Core.settled, hkind]

end

section
variable {s : State} {i : Nat} {a : Acc} {bs : List Byte} (hitem : s.fab[i]? = some a)
include hitem

section
variable (hphase : a.phase = .done bs) (hlive : accLives s a = true)
include hphase hlive

theorem storeAck_settles {d : List Byte} (hkind : a.kind = .store d) :
    storeAck s i = (dropFab s i).setCore a.src ((s.core a.src).settled a) := by
  simp only [storeAck, hitem, hphase, hkind, hlive, if_true]
  rfl

theorem loadReturn_settles {n x : Nat} {g w8 : Bool} (hkind : a.kind = .load n x g w8) :
    loadReturn s i = (dropFab s i).setCore a.src ((putReturned (s.core a.src) x n g w8 bs).settled a) := by
  simp only [loadReturn, hitem, hphase, hkind, hlive, if_true]
  rfl

theorem atomicReply_settles {op : AmoOp} {t : IType} {x y dst : Nat} (hkind : a.kind = .amo op t x y dst) :
    atomicReply s i = (dropFab s i).setCore a.src
      ((putReturned (s.core a.src) dst (fmtBytes (ifmt t)) (fmtSigned (ifmt t)) true bs).settled a) := by
  simp only [atomicReply, hitem, hphase, hkind, hlive, if_true]
  rfl

end

theorem retryReply_kept (hphase : a.phase = .refused) : retryReply s i = setFab s i { a with phase := .waiting } := by
  simp only [retryReply, hitem, hphase]
  rfl

theorem retryAccess_again (hphase : a.phase = .waiting) : retryAccess s i = setFab s i { a with phase := .going } := by
  simp only [retryAccess, hitem, hphase]
  rfl

end

/-- Settles O29, event by event. -/
theorem fabricEvents : Obligations.FabricEvents := by
  unfold Obligations.FabricEvents
  intro s a i put gone lives now left after word keepLines failed
  refine ⟨fun bs hitem hphase hkind => ?store, fun n x g w8 hitem hphase hkind => ⟨fun hhome => ?loadAway,
      fun h hhome => ?load⟩,
    fun op t x y dst h hitem hphase hkind hhome hturn => ?held,
    fun op t x y dst h hitem hphase hkind hhome hturn hok hlive => ?fault,
    fun op t x y dst m p hitem hphase hkind hok hhome hturn hdown hlive => ?atomicDown,
    fun op t x y dst h hitem hphase hkind hok hhome hturn hready => ?atomic, fun hitem hlive => ⟨
      fun bs d hkind hphase => ?ack, fun n x g bs hkind hphase => ?word, fun n x g bs hkind hphase => ?vector,
      fun op t x y dst bs hkind hphase => ?reply⟩,
    fun hitem hphase => congrArg _ (retryReply_kept hitem hphase),
    fun hitem hphase => congrArg _ (retryAccess_again hitem hphase)⟩
  case store =>
    refine ⟨fun c x hhome => ?core, fun r x hhome => ?row, fun off hhome => ?sys, fun t x hhome hready => ?bulk,
      fun t x hhome hready hlive => ?down, fun hhome => congrArg _ (storePerform_away hitem hphase hkind hhome)⟩
    case core | sys => exact congrArg _ (storePerform_writes hitem hphase hkind hhome rfl)
    case row =>
      refine congrArg _ ((storePerform_writes hitem hphase hkind hhome rfl).trans ?_)
      rw [keepLines_of_core_eq (writeWords_row_core ..)]
      rfl
    case bulk => exact congrArg _ (storePerform_writes hitem hphase hkind hhome (congrArg not hready))
    case down =>
      exact congrArg _ ((storePerform_down hitem hphase hkind hhome (congrArg not hready)).trans (failAccess_lives hlive))
  case loadAway => exact congrArg _ (loadPerform_away hitem hphase hkind hhome)
  case load => exact congrArg _ (loadPerform_reads hitem hphase hkind hhome rfl)
  case held => exact congrArg _ (atomicPerform_held hitem hphase hkind hhome hturn _)
  case fault =>
    exact (exec_atomicPerform hok).trans (congrArg _
      ((atomicPerform_faults hitem hphase hkind hhome hturn).trans (atomicFault_lives hlive)))
  case atomicDown =>
    exact (exec_atomicPerform hok).trans (congrArg _
      ((atomicPerform_down hitem hphase hkind hhome hturn (congrArg not hdown)).trans (failAccess_lives hlive)))
  case atomic =>
    have hup := homeDown_of_ready hready
    intro n used r old
    rw [exec_atomicPerform hok]
    refine ⟨fun hop => ?add, fun hop => ?swp, fun hop heq => ?casEqual, fun hop hne => ?casUnequal⟩ <;> subst hop
    case add | swp => exact congrArg _ (atomicPerform_writes hitem hphase hkind hhome hturn hup rfl rfl)
    case casEqual => exact congrArg _ (atomicPerform_writes hitem hphase hkind hhome hturn hup rfl (if_pos heq))
    case casUnequal => exact congrArg _ (atomicPerform_keeps hitem hphase hkind hhome hturn hup rfl (if_neg hne))
  case ack =>
    refine congrArg _ ((storeAck_settles hitem hphase hlive hkind).trans ?_)
    rw [settled_store hkind]
    rfl
  case word | vector =>
    refine congrArg _ ((loadReturn_settles hitem hphase hlive hkind).trans ?_)
    rw [settled_load hkind]
    rfl
  case reply =>
    refine congrArg _ ((atomicReply_settles hitem hphase hlive hkind).trans ?_)
    rw [settled_amo hkind]
    rfl

end Sys2Proof.Proofs.FabricEvents
end

section
/-!
PROOFS of 10_counts_atomics: `gbar`, and the gateway cores' `gq.get` and `badd.rq`.
-/
namespace Sys2Proof.Proofs.Gateway

open Sys2Proof.Machine Sys2Proof.Safety Sys2Proof.Proofs.KilnSetup

/-! ### gbar (R244) -/

/-- The state in which a core leaves the barrier with the OR m of its gang's flags words. -/
def leftBarrier (s : State) (k : Core) (m : Nat) : State :=
  s.setCore s.cur { setWsWord k 0x390 (natOr m (stickyWord k)) with
    gbarIn := none, gbarOut := none, gbarc := (k.gbarc + 1) % 2 ^ 16 }

theorem leaveBarrier_issued (d : Spec) (m : Nat) (i : Instr) (n : Nat) (s : State) :
    leaveBarrier d m s.cur (issuedState i n s) = dstZ (leftBarrier s (issued i n s) m) s.cur d m := by
  simp only [leaveBarrier, modCore_eq, issuedState, core_setCore, setCore_setCore]
  rfl

section
variable {d : Spec} {i : Instr} {n : Nat} {s : State} (hd : takesWord (issued i n s) d)
include hd

theorem dstZ_takes : ∃ u, dstZ (issuedState i n s) s.cur d 0 = .ok u := by
  obtain ⟨k, hk⟩ := hd
  exact ⟨_, dstZ_ok (by rwa [issuedState_core])⟩

theorem gbarOp_released {m : Nat} (hout : (issued i n s).gbarOut = some m) :
    gbarOp d s.cur (issuedState i n s) = dstZ (leftBarrier s (issued i n s) m) s.cur d m := by
  obtain ⟨u, hu⟩ := dstZ_takes hd
  rw [← leaveBarrier_issued]
  simp only [gbarOp, hu, issuedState_core, hout, bind, Except.bind]

variable (hout : (issued i n s).gbarOut = none) (hin : (issued i n s).gbarIn = none)
  (hland : releaseReady (issued i n s) = true)
include hout hin hland

theorem gbarOp_alone (halone : ∀ x ∈ barrierCores (issuedState i n s) s.cur, x = s.cur) :
    gbarOp d s.cur (issuedState i n s) =
      dstZ (leftBarrier s (issued i n s) (stickyWord (issued i n s))) s.cur d (stickyWord (issued i n s)) := by
  obtain ⟨u, hu⟩ := dstZ_takes hd
  have hall : (barrierCores (issuedState i n s) s.cur).all (· == s.cur) = true :=
    List.all_eq_true.2 fun x hx => beq_iff_eq.2 (halone x hx)
  rw [← leaveBarrier_issued]
  simp only [gbarOp, hu, issuedState_core, hout, hin, Option.isNone_none, untilD_true rfl,
    untilD_true hland, hall, if_true, bind, Except.bind]

/-- A core of a larger gang waits, with its own flags word noted. -/
theorem gbarOp_waits {x : CoreId} (hx : x ∈ barrierCores (issuedState i n s) s.cur) (hne : x ≠ s.cur) :
    gbarOp d s.cur (issuedState i n s) =
      .error (.wait (s.setCore s.cur { issued i n s with gbarIn := some (stickyWord (issued i n s)) })) := by
  obtain ⟨u, hu⟩ := dstZ_takes hd
  have hmore : (barrierCores (issuedState i n s) s.cur).all (· == s.cur) = false :=
    List.all_eq_false.2 ⟨x, hx, fun heq => hne (beq_iff_eq.1 heq)⟩
  simp only [gbarOp, hu, issuedState_core, hout, hin, Option.isNone_none, untilD_true rfl,
    untilD_true hland, hmore, Bool.false_eq_true, if_false, modCore_eq, bind, Except.bind]
  rw [issuedState, setCore_setCore]

end

theorem waitCore_gbarIn (s : State) (c : CoreId) (k : Core) (n : Nat) :
    ((waitCore s c k n).core c).gbarIn = (s.core c).gbarIn := by
  rw [waitCore, core_setCore, charge_gbarIn]

theorem waitCore_pc (s : State) (c : CoreId) (k : Core) (n : Nat) : ((waitCore s c k n).core c).pc = k.pc := by
  rw [waitCore, core_setCore, charge_pc]

theorem gbarRelease_met {s : State} {c : CoreId} (hin : (s.core c).gbarIn ≠ none) (hmet : barrierMet s c = true) :
    gbarRelease s c = (barrierCores s c).foldl (fun u x =>
      u.setCore x { u.core x with gbarOut := some (arrivals s c) }) s := by
  have hwaits : (s.core c).gbarIn.isNone = false := Option.isNone_eq_false_iff.2 (Option.isSome_iff_ne_none.2 hin)
  simp only [gbarRelease, hwaits, hmet, Bool.not_true, Bool.or_self, Bool.false_eq_true, if_false]
  rfl

/-! ### gq.get (R245, R441, R470) -/

/-- A link put in its place. -/
def withLink (s : State) (i : Nat) (l : Link) : State := { s with links := setAt s.links i l }

theorem modLink_eq (s : State) (i : Nat) (f : Link → Link) : modLink s i f = withLink s i (f (nth s.links i {})) := rfl

theorem withLink_withLink (s : State) (i : Nat) (l m : Link) : withLink (withLink s i l) i m = withLink s i m := by
  simp only [withLink, setAt_setAt]

/-- A link whose core g gives its slots back. -/
def slotsFreed (l : Link) (g : Nat) : Link := { l with held := l.held.filter (fun h => h.1 != g) }

/-- The link after core g of it takes block b. -/
def handedOut (l : Link) (g : Nat) (b : Nat × Nat) : Link :=
  { l with landed := l.landed.erase b, handed := l.handed + 1, held := l.held ++ [(g, landingSlot l b.1)] }

section
variable {d : Spec} {s : State} {c : CoreId} {l : Link} (hd : ∃ u, dstZ s c d 0 = .ok u) (hlink : linkOf c < s.links.length)
  (hl : slotsFreed (nth s.links (linkOf c) {}) (c.idx % 4) = l)
include hd hlink hl

theorem gqOp_hands {b : Nat × Nat} (hfind : l.landed.find? (fun b => b.1 % 4 == c.idx % 4) = some b) :
    gqOp d c s = dstZ (withLink s (linkOf c) (handedOut l (c.idx % 4) b)) c d (b.1 + 2 ^ 32 * b.2) := by
  obtain ⟨u, hu⟩ := hd
  have hget : nth (withLink s (linkOf c) l).links (linkOf c) {} = l := nth_setAt _ _ _ _ hlink
  rw [slotsFreed] at hl
  simp only [gqOp, hu, modLink_eq, hl, hget, hfind, withLink_withLink, bind, Except.bind]
  rfl

variable (hnone : l.landed.find? (fun b => b.1 % 4 == c.idx % 4) = none)
include hnone

theorem gqOp_ended (hend : l.nblk ≤ l.handed) : gqOp d c s = dstZ (withLink s (linkOf c) l) c d (2 ^ 64 - 1) := by
  obtain ⟨u, hu⟩ := hd
  have hget : nth (withLink s (linkOf c) l).links (linkOf c) {} = l := nth_setAt _ _ _ _ hlink
  rw [slotsFreed] at hl
  simp only [gqOp, hu, modLink_eq, hl, hget, hnone, if_pos hend, bind, Except.bind]

theorem gqOp_down (hmore : l.handed < l.nblk) (hlost : (l.down && l.landed.isEmpty) = true) :
    gqOp d c s = dstZ (withLink s (linkOf c) l) c d (2 ^ 64 - 2) := by
  obtain ⟨u, hu⟩ := hd
  have hget : nth (withLink s (linkOf c) l).links (linkOf c) {} = l := nth_setAt _ _ _ _ hlink
  rw [slotsFreed] at hl
  simp only [gqOp, hu, modLink_eq, hl, hget, hnone, if_neg (Nat.not_le_of_lt hmore), if_pos hlost, bind, Except.bind]

end

/-! ### badd.rq (R246) -/

theorem needS_true {b : Bool} {cause : Cause} {sub addr : Nat} (h : b = true) : needS b cause sub addr = .ok () := by
  rw [h]
  rfl

theorem untilS_true {b : Bool} (h : b = true) : untilS b = .ok () := by
  rw [h]
  rfl

/-- The control word w of a `badd.rq` at x names blocks of format f and rounding rm (R246, Table 10-3). -/
structure BlockSum (x w : Nat) (f : Fmt) (rm : RMode) : Prop where
  format : fmtOf (field w 30 24) = some f
  coded : field w 30 24 ∈ [0x1B, 0x1C, 0x1D, 0x1F]
  mode : rmodeOf (field w 34 32) = some rm
  groups : field w 22 17 ≠ 0
  short : w < 2 ^ 35
  reserved : bitAt w 31 = false
  inside : x < 2 ^ 17

theorem BlockSum.fieldsOk {x w : Nat} {f : Fmt} {rm : RMode} (h : BlockSum x w f rm) :
    ([0x1B, 0x1C, 0x1D, 0x1F].contains (field w 30 24) && field w 34 32 < 5 && field w 22 17 != 0 && w / 2 ^ 35 == 0 &&
      !bitAt w 31 && x / 2 ^ 17 == 0) = true := by
  simp only [Bool.and_eq_true, List.contains_iff_mem, decide_eq_true_eq, bne_iff_ne, beq_iff_eq, Bool.not_eq_true']
  exact ⟨⟨⟨⟨⟨h.coded, rmodeOf_lt h.mode⟩, h.groups⟩, Nat.div_eq_of_lt h.short⟩, h.reserved⟩, Nat.div_eq_of_lt h.inside⟩

/-- A block of n bytes at a lies in the store, is aligned and can be read. -/
structure BlockAt (k : Core) (a n : Nat) : Prop where
  fits : a + n ≤ k.top
  aligned : a % 8 = 0
  readable : unreadyAt k a n = false

/-- The bytes of a block: the codes of its groups, then their scales. -/
def blockOf (f : Fmt) (gs : List (List Nat × Nat)) : List Byte :=
  (gs.map (fun e => elemBytes (fmtBits f) e.1)).flatten ++ gs.map (fun e => BitVec.ofNat 8 e.2)

theorem baddCore_sums {k : Core} {x w : Nat} {f : Fmt} {rm : RMode} (hw : BlockSum x w f rm)
    (hx : BlockAt k x (blockBytes f (field w 22 17))) (hc : BlockAt k (field w 16 0) (blockBytes f (field w 22 17)))
    (hapart : x = field w 16 0 ∨
      meets x (blockBytes f (field w 22 17)) (field w 16 0) (blockBytes f (field w 22 17)) = false)
    {gs : List (List Nat × Nat)} {fl dr : Nat} (hsum : sumGroups k f rm x (field w 16 0) (field w 22 17) = (gs, fl, dr))
    (hquiet : quiet k fl) :
    baddCore x w k = .ok (setDrawIndex (putLocal (orSticky k fl) x (blockOf f gs)) dr) := by
  have hmeets : (x == field w 16 0 ||
      !meets x (blockBytes f (field w 22 17)) (field w 16 0) (blockBytes f (field w 22 17))) = true := by
    rw [Bool.or_eq_true, beq_iff_eq, Bool.not_eq_true']
    exact hapart
  have hread : (!unreadyAt k x (blockBytes f (field w 22 17)) &&
      !unreadyAt k (field w 16 0) (blockBytes f (field w 22 17))) = true := by
    rw [hx.readable, hc.readable]
    rfl
  simp only [baddCore, needS_true hw.fieldsOk, hw.format, hw.mode, Option.getD_some, needS_true (decide_eq_true hx.fits),
    needS_true (decide_eq_true hc.fits), needS_true (beq_iff_eq.2 hx.aligned), needS_true (beq_iff_eq.2 hc.aligned),
    needS_true hmeets, untilS_true hread, hsum, raiseFlags_ok hquiet, bind, Except.bind]
  rfl

/-- The cost of an instruction is reckoned on the core as it stands before the instruction. -/
theorem exec_baddRq (a b : Spec) (s : State) : exec (.baddRq a b) s =
    nativeOp (.baddRq a b) (fun _ => baddCost b (s.core s.cur)) (baddOp a b) s := rfl

end Sys2Proof.Proofs.Gateway
end

section
/-!
PROOFS of 10_counts_atomics: flits, blocks, retries and sending on the peer links, and the hops of the mesh.
-/
namespace Sys2Proof.Proofs.Links

open Sys2Proof.Machine Sys2Proof.Safety Sys2Proof.Proofs.Gateway

/-! ### Landing (R245, R261, R469-R471) -/

/-- A link with some more bytes of a block under way. -/
def landingMore (l : Link) (blk n : Nat) : Link :=
  { l with landing := l.landing.filter (fun b => b.1 != blk) ++
      [(blk, ((l.landing.find? (fun b => b.1 == blk)).map (·.2)).getD 0 + n)] }

section
variable {i : Nat} {l : Link} (hi : i < 16) (hup : l.up = true) (hdown : l.down = false) (hretrain : l.retrain = false)
include hi hup hdown hretrain

theorem link_open : (decide (16 ≤ i) || !l.up || l.down || l.retrain) = false := by
  rw [decide_eq_false (Nat.not_le_of_lt hi), hup, hdown, hretrain]
  rfl

variable {s : State} {peer blk off : Nat} {bytes : List Byte} (hl : nth s.links i {} = l)
include hl

theorem flitArrival_forwarded {o : Nat} (hpeer : peer ≠ s.hport.self) (hroute : routeLink s peer = some o) :
    flitArrival s i peer blk off bytes = withLink s o { nth s.links o {} with
      out := (nth s.links o {}).out ++ [(peer, blk, off, bytes)] } := by
  simp only [flitArrival, hl, link_open hi hup hdown hretrain, Bool.false_eq_true, if_false, if_pos hpeer, hroute,
    modLink_eq]

theorem flitArrival_lands (hpeer : peer = s.hport.self) (hblk : blk < l.nblk) (hfree : slotFree l blk = true) :
    flitArrival s i peer blk off bytes =
      (withLink s i (landingMore l blk bytes.length)).setCore ⟨.gateway, 4 * i + blk % 4⟩
        (deliver (s.core ⟨.gateway, 4 * i + blk % 4⟩) (landingAddr l blk + off) bytes) := by
  have hcredit : (decide (l.nblk ≤ blk) || !slotFree l blk) = false := by
    rw [hfree, decide_eq_false (Nat.not_le_of_lt hblk)]
    rfl
  simp only [flitArrival, hl, link_open hi hup hdown hretrain, Bool.false_eq_true, if_false, if_neg (Decidable.not_not.2 hpeer),
    hcredit, modLink_eq]
  rfl

end

section
variable {s : State} {i blk : Nat} {l : Link} {b : Nat × Nat} (hl : nth s.links i {} = l)
include hl

theorem blockLanded_next (hfind : l.landing.find? (fun b => b.1 == blk) = some b)
    (hall : blockBytes ((fmtOf l.fmt).getD .e4m3b32) l.g ≤ b.2) (hnext : blk = nextBlock l) :
    blockLanded s i blk = withLink s i { l with
      landing := l.landing.filter (fun b => b.1 != blk), landed := l.landed ++ [(blk, landingAddr l blk)] } := by
  simp only [blockLanded, hl, if_pos hnext, hfind, if_neg (Nat.not_lt_of_le hall), modLink_eq]

theorem blockLanded_early (hnext : blk ≠ nextBlock l) : blockLanded s i blk = s := by
  simp only [blockLanded, hl, if_neg hnext]

end

/-! ### Retries and retraining (R441, R447, R466) -/

/-- The link after a retry of a flit. -/
def retried (l : Link) (ok : Bool) : Link :=
  if ok then { l with retries := 0 }
  else if 16 ≤ l.retries + 1 then { l with retries := 0, retrain := true }
  else { l with retries := l.retries + 1 }

theorem retried_again {l : Link} (h : l.retries < 15) : retried l false = { l with retries := l.retries + 1 } := by
  rw [retried, if_neg Bool.false_ne_true, if_neg (show ¬ 16 ≤ l.retries + 1 by omega)]

theorem retried_retrains {l : Link} (h : 15 ≤ l.retries) : retried l false = { l with retries := 0, retrain := true } := by
  rw [retried, if_neg Bool.false_ne_true, if_pos (show 16 ≤ l.retries + 1 by omega)]

theorem flitRetry_eq {s : State} {i : Nat} {l : Link} (hl : nth s.links i {} = l) (hi : i < 16) (hup : l.up = true)
    (ok : Bool) : flitRetry s i ok = withLink s i (retried l ok) := by
  have hopen : (decide (16 ≤ i) || !l.up) = false := by
    rw [hup, decide_eq_false (Nat.not_le_of_lt hi)]
    rfl
  simp only [flitRetry, hl, hopen, Bool.false_eq_true, if_false, modLink_eq]
  rfl

/-- A link that is down: its flits are lost (log 58). -/
def wentDown (l : Link) : Link := { l with retrain := false, up := false, down := true, out := [] }

/-- The device after link i goes down, but for the notice. -/
def lostLink (s : State) (i : Nat) (l : Link) : State :=
  { withLink s i (wentDown l) with
    rdy := { s.rdy with link := setField s.rdy.link i i 0 }
    health := { s.health with linkdn := natOr s.health.linkdn (2 ^ i), last := s.cycle } }

section
variable {i : Nat} {l : Link} (hi : i < 16) (hretrain : l.retrain = true)
include hi hretrain

theorem retrain_due : (decide (16 ≤ i) || !l.retrain) = false := by
  rw [hretrain, decide_eq_false (Nat.not_le_of_lt hi)]
  rfl

variable {s : State} (hl : nth s.links i {} = l)
include hl

theorem retrainEnd_goesOn : retrainEnd s i true = withLink s i { l with retrain := false } := by
  simp only [retrainEnd, hl, retrain_due hi hretrain, Bool.false_eq_true, if_false, if_true, modLink_eq]

theorem retrainEnd_down : retrainEnd s i false = raiseNotice (lostLink s i l) 2 i := by
  simp only [retrainEnd, hl, retrain_due hi hretrain, Bool.false_eq_true, if_false, modLink_eq]
  rfl

end

/-! ### Hops and expanders (R440, R468) -/

/-- The failures of a hop in a row, with a new one, and the counts of the other hops. -/
def hopFailures (s : State) (hop : Nat) : Nat := ((s.health.hops.find? (fun h => h.1 == hop)).map (·.2)).getD 0 + 1

def otherHops (s : State) (hop : Nat) : List (Nat × Nat) := s.health.hops.filter (fun h => h.1 != hop)

/-- The device with the counts of its hops. -/
def withHops (s : State) (hops : List (Nat × Nat)) : State := { s with health := { s.health with hops := hops } }

theorem meshRetry_passed (s : State) (hop : Nat) : meshRetry s hop true = withHops s (otherHops s hop) := rfl

theorem meshRetry_counted {s : State} {hop : Nat} (h : hopFailures s hop < 8) :
    meshRetry s hop false = withHops s (otherHops s hop ++ [(hop, hopFailures s hop)]) := if_pos (.inl h)

/-- The eighth failure in a row stops the device. -/
theorem meshRetry_stops {s : State} {hop : Nat} (h : 8 ≤ hopFailures s hop) (hrun : s.health.stopped = false) :
    meshRetry s hop false = raiseNotice { s with health := { s.health with
      hops := otherHops s hop ++ [(hop, hopFailures s hop)], stopped := true } } 1 (hopRows hop) := by
  have hgo : ¬ (hopFailures s hop < 8 ∨ s.health.stopped = true) := by
    rw [hrun]
    exact not_or.2 ⟨Nat.not_lt_of_le h, Bool.false_ne_true⟩
  exact if_neg hgo

theorem expanderDown_present {s : State} {i : Nat} (hi : i < 4) (hpresent : bitAt s.hport.xpres i = true) :
    expanderDown s i = raiseNotice { s with hport := { s.hport with xpres := setField s.hport.xpres i i 0 } } 3 i := by
  have hthere : (decide (4 ≤ i) || !bitAt s.hport.xpres i) = false := by
    rw [hpresent, decide_eq_false (Nat.not_le_of_lt hi)]
    rfl
  simp only [expanderDown, hthere, Bool.false_eq_true, if_false]

/-! ### Sending (R470, R471) -/

/-- The link with a value of HEAD. -/
def withHead (l : Link) (g v : Nat) : Link := { l with head := setAt l.head g v }

/-- The place of the next transmit descriptor of core g of a link. -/
def txPlace (l : Link) (g : Nat) : Nat :=
  nth l.tbase g 0 + 16 * (nth l.head g 0 % 2 ^ 31 % 2 ^ nth l.tlog g 0)

/-- The words of that descriptor, in the store of gateway core y. -/
def txWord0 (y : Core) (l : Link) (g : Nat) : Nat := memRead y.ls (txPlace l g) 8
def txWord1 (y : Core) (l : Link) (g : Nat) : Nat := memRead y.ls (txPlace l g + 8) 8

/-- The flits that a descriptor's words name. -/
def txFlits (y : Core) (w0 w1 : Nat) : List (Nat × Nat × Nat × List Byte) :=
  flits (field w1 18 0) (field w1 51 32) 17 0 (imageBytes y (field w0 16 0) (field w0 44 32))

section
variable {i g : Nat} {l : Link} (hi : i < 16) (hg : g < 4)
  (hqueued : nth l.head g 0 % 2 ^ 31 ≠ nth l.tail g 0 % 2 ^ 31)
include hi hg hqueued

theorem tx_due : (decide (16 ≤ i) || decide (4 ≤ g) || nth l.head g 0 % 2 ^ 31 == nth l.tail g 0 % 2 ^ 31) = false := by
  rw [decide_eq_false (Nat.not_le_of_lt hi), decide_eq_false (Nat.not_le_of_lt hg), beq_false_of_ne hqueued]
  rfl

variable {s : State} {y : Core} (hl : nth s.links i {} = l) (hy : s.core ⟨.gateway, 4 * i + g⟩ = y)
include hl hy

theorem txBlock_skipped (hbad : descriptorOk s (txWord0 y l g) (txWord1 y l g) = false) :
    txBlock s i g = withLink s i (withHead l g ((nth l.head g 0 % 2 ^ 31 + 1) % 2 ^ 31 + 2 ^ 31)) := by
  rw [txWord0, txWord1, txPlace] at hbad
  simp only [txBlock, hl, hy, tx_due hi hg hqueued, Bool.false_eq_true, if_false, hbad, Bool.not_false, if_true, modLink_eq]
  rfl

/-- A block with a ready way leaves in flits, and HEAD advances. -/
theorem txBlock_sent {o : Nat} (hok : descriptorOk s (txWord0 y l g) (txWord1 y l g) = true)
    (hroute : routeLink s (field (txWord1 y l g) 18 0) = some o) (hready : (nth s.links o {}).retrain = false) {s1 : State}
    (hs1 : withLink s o { nth s.links o {} with
      out := (nth s.links o {}).out ++ txFlits y (txWord0 y l g) (txWord1 y l g) } = s1) :
    txBlock s i g = withLink s1 i (withHead (nth s1.links i {}) g
      ((nth l.head g 0 % 2 ^ 31 + 1) % 2 ^ 31 + nth l.head g 0 / 2 ^ 31 * 2 ^ 31)) := by
  rw [txWord0, txWord1, txPlace] at hok hs1
  rw [txWord1, txPlace] at hroute
  rw [← hs1]
  simp only [txBlock, hl, hy, tx_due hi hg hqueued, Bool.false_eq_true, if_false, hok, Bool.not_true, hroute, hready,
    modLink_eq]
  rfl

end

/-! ### The events -/

theorem exec_expanderLinkDown (s : State) : exec .expanderLinkDown s = .next (expanderDown s s.ev.i) := rfl

section
variable {s : State} {ok : Bool} (h : s.ev.ok = ok)
include h

theorem exec_peerFlitRetry : exec .peerFlitRetry s = .next (flitRetry s s.ev.i ok) := by
  rw [← h]
  rfl

theorem exec_linkRetrainEnd : exec .linkRetrainEnd s = .next (retrainEnd s s.ev.i ok) := by
  rw [← h]
  rfl

theorem exec_meshFlitRetry : exec .meshFlitRetry s = .next (meshRetry s s.ev.i ok) := by
  rw [← h]
  rfl

end

/-- Settles O47: the three instructions, then the events of links, hops and expanders. -/
theorem gatewayAndLinks : Obligations.GatewayAndLinks := by
  unfold Obligations.GatewayAndLinks
  intro d a b s v w k blk f rm c e k0 left withLink gl freed l
  refine ⟨fun hr hd => ⟨fun m hout => ?released, fun hout hin h1 h2 h3 h4 halone => ?alone,
      fun x hout hin h1 h2 h3 h4 hx hne => ?waits⟩,
    fun hin hmet s1 hs1 => ?release,
    fun hr hd => ⟨fun hfind hlink => ?hands, fun hnone hend hlink => ?ended, fun hempty hmore hdown hlink => ?gqDown⟩,
    fun cost hcost hA => ?badd,
    fun hi hup hdown hretrain => ⟨fun o hpeer hroute => ?forwarded, fun hpeer hblk hfree => ?lands⟩,
    fun hfind hall => ⟨fun hnext => congrArg _ (blockLanded_next rfl hfind hall hnext),
      fun hnext => congrArg _ (blockLanded_early rfl hnext)⟩,
    fun hi hup => ⟨fun hok => ?retryOk, fun hok hfew => ?retryAgain, fun hok hmany => ?retrain⟩,
    fun hi hretrain => ⟨fun hok => ?retrained, fun hok => ?linkDown⟩,
    ⟨fun hok => ?hopOk, fun hok hfew => ?hopAgain, fun hok hmany hrun => ?hopStops⟩,
    fun hi hpresent => ?expander, fun hi => congrArg _ (if_pos hi), fun hi hj => congrArg _ (if_pos ⟨hi, hj⟩),
    fun hi hj hqueued => ⟨fun hbad => ?skipped, fun o hok hroute hready => ?sent⟩⟩
  case released => exact answers_of (cost := fun _ => 1) rfl hr (gbarOp_released hd hout) (dst_eff _ _ _ _)
  case alone =>
    exact answers_of (cost := fun _ => 1) rfl hr (gbarOp_alone hd hout hin (releaseReady_of h1 h2 h3 h4) halone)
      (dst_eff _ _ _ _)
  case waits =>
    have hmeans := gbarOp_waits hd hout hin (releaseReady_of h1 h2 h3 h4) hx hne
    refine ⟨_, (nativeOp_ready (cost := fun _ => 1) hr).trans (by rw [hmeans]), ?_, waitCore_pc _ _ _ _⟩
    rw [waitCore_gbarIn, core_setCore]
  case release =>
    subst hs1
    exact congrArg _ (gbarRelease_met hin hmet)
  case hands =>
    exact answers_of (cost := fun _ => 1) rfl hr (gqOp_hands (dstZ_takes hd) hlink rfl hfind) (dst_eff _ _ _ _)
  case ended =>
    have hfind : freed.landed.find? (fun b => b.1 % 4 == c.idx % 4) = none :=
      List.find?_eq_none.2 fun x hx => fun heq => hnone x hx (beq_iff_eq.1 heq)
    exact answers_of (cost := fun _ => 1) rfl hr (gqOp_ended (dstZ_takes hd) hlink rfl hfind hend) (dst_eff _ _ _ _)
  case gqDown =>
    have hfind : freed.landed.find? (fun b => b.1 % 4 == c.idx % 4) = none := by
      show gl.landed.find? _ = none
      rw [hempty]
      rfl
    have hlost : (freed.down && freed.landed.isEmpty) = true := by
      show (gl.down && gl.landed.isEmpty) = true
      rw [hdown, hempty]
      rfl
    exact answers_of (cost := fun _ => 1) rfl hr (gqOp_down (dstZ_takes hd) hlink rfl hfind hmore hlost) (dst_eff _ _ _ _)
  case badd =>
    intro g x2 n hfmt hcode hmode hg hw hbit hv hfit hfit2 hal hal2 hapart hread hread2 gs fl dr hsum hquiet
    subst hcost
    have hadd := baddCore_sums ⟨hfmt, hcode, hmode, hg, hw, hbit, hv⟩ ⟨hfit, hal, hread⟩ ⟨hfit2, hal2, hread2⟩ hapart hsum
      hquiet
    refine endAB (exec_baddRq a b s) hA ?_
    simp only [core_setCore, hadd, ofCore, setCore_setCore, bind, Except.bind]
    rfl
  case forwarded => exact congrArg _ (flitArrival_forwarded hi hup hdown hretrain rfl hpeer hroute)
  case lands => exact congrArg _ (flitArrival_lands hi hup hdown hretrain rfl hpeer hblk hfree)
  case retryOk => exact (exec_peerFlitRetry hok).trans (congrArg _ (flitRetry_eq rfl hi hup true))
  case retryAgain =>
    refine (exec_peerFlitRetry hok).trans (congrArg _ ((flitRetry_eq rfl hi hup false).trans ?_))
    rw [retried_again hfew]
    rfl
  case retrain =>
    refine (exec_peerFlitRetry hok).trans (congrArg _ ((flitRetry_eq rfl hi hup false).trans ?_))
    rw [retried_retrains hmany]
    rfl
  case retrained => exact (exec_linkRetrainEnd hok).trans (congrArg _ (retrainEnd_goesOn hi hretrain rfl))
  case linkDown =>
    exact ⟨_, (exec_linkRetrainEnd hok).trans (congrArg _ (retrainEnd_down hi hretrain rfl)), rfl, rfl, rfl, rfl, rfl⟩
  case hopOk => exact (exec_meshFlitRetry hok).trans (congrArg _ (meshRetry_passed s e.i))
  case hopAgain => exact (exec_meshFlitRetry hok).trans (congrArg _ (meshRetry_counted hfew))
  case hopStops => exact ⟨_, (exec_meshFlitRetry hok).trans (congrArg _ (meshRetry_stops hmany hrun)), rfl, rfl, rfl⟩
  case expander => exact ⟨_, (exec_expanderLinkDown s).trans (congrArg _ (expanderDown_present hi hpresent)), rfl, rfl, rfl⟩
  case skipped => exact congrArg _ (txBlock_skipped hi hj hqueued rfl rfl hbad)
  case sent => exact congrArg _ (txBlock_sent hi hj hqueued rfl rfl hok hroute hready rfl)

end Sys2Proof.Proofs.Links
end

section
/-!
PROOFS of 11_ordering and 19_bytecode: `bld`, `bst`, `icw`, `ici`, `icr` and the filling of the line cache.
-/
namespace Sys2Proof.Proofs.ControlCore

open Sys2Proof.Machine Sys2Proof.Safety

/-! ### Instructions counted in control-core cycles (R400-R405) -/

section
variable {m : Nat} {f : CoreId → State → Dev State} {c : CoreId} {s : State}

theorem controlCycles_ok {u : State} {k : Core} (h : f c s = .ok (u.setCore c k)) :
    controlCycles m f c s = .ok (u.setCore c (k.chargeControl m)) := by
  simp only [controlCycles, h, modCore_eq, core_setCore, setCore_setCore, bind, Except.bind]

theorem controlCycles_stop {e : Halt} (h : f c s = .error e) : controlCycles m f c s = .error e := by
  simp only [controlCycles, h, bind, Except.bind]

end

section
variable {i : Instr} {cost m : Nat} {s : State} {d a : Spec} {v : Nat} {k : Core}
  {f : Nat → CoreId → State → Dev (Nat × State)} (h : readsA i cost s a v k) (hd : takesWord k d)
include h hd

/-- Where the effect stops, so does the instruction: D has been tried before the effect, and nothing is written. -/
theorem opDA_stop {e : Halt} (hf : f v s.cur (s.setCore s.cur k) = .error e) :
    opDA d a f s.cur (issuedState i cost s) = .error e := by
  obtain ⟨k', hk'⟩ := hd
  have htry : dstZ (s.setCore s.cur k) s.cur d 0 = .ok ((s.setCore s.cur k).setCore s.cur k') :=
    dstZ_ok (by rwa [core_setCore])
  simp only [opDA, srcZ_issued h.2, htry, hf, bind, Except.bind]

variable (hexec : exec i s = nativeOp i (fun _ => cost) (controlCycles m (opDA d a f)) s)
include hexec

theorem answersControl_of_effect {r : Nat} {s2 : State} (hf : f v s.cur (s.setCore s.cur k) = .ok (r, s2)) :
    answersControl m i s s2 d r := fun k' hk' =>
  ⟨end0 hexec h.1 (controlCycles_ok ((opDA_eq h.2 hd hf).trans (dstZ_ok hk'))), dst_eff s2 s.cur d r k' hk'⟩

theorem traps_of_effect {t : Trap} (hf : f v s.cur (s.setCore s.cur k) = .error (.trap t)) : traps i s t :=
  end0_trap hexec h.1 (controlCycles_stop (opDA_stop h hd hf))

end

/-! ### Reads of lines (R375, R402, R403) -/

/-- The n bytes at a place of a tier as a control core reads them. -/
def lineValue (s : State) (c : CoreId) (t pa n : Nat) : Nat :=
  ofBytes ((List.range n).map (fun i => lineByte s c t (pa + i)))

/-- Stores of the core that have not performed hold all of n bytes. -/
def ownAll (s : State) (c : CoreId) (t pa n : Nat) : Bool := (List.range n).all (fun i => ownByte s c t (pa + i))

/-- A core that has used a line of its cache. -/
def usedLine (k : Core) (l : Nat × Nat) : Core := { k with lines := touchLine k.lines l }

section
variable {s s2 : State} {c : CoreId} {va n t pa : Nat}

theorem lineRead_misaligned (h : va % n ≠ 0) : lineRead s c va n = .error (.trap { cause := .align, addr := va }) := by
  simp only [lineRead, needD_false (beq_false_of_ne h), bind, Except.bind]

variable (halign : va % n = 0)
include halign

theorem lineRead_outside (h : isBulk va = false) :
    lineRead s c va n = .error (.trap { cause := .fabric, sub := 1, addr := va }) := by
  simp only [lineRead, needD_true (beq_iff_eq.2 halign), needD_false h, bind, Except.bind]

variable (hbulk : isBulk va = true) (htrans : coreTranslate s c va 0 = .ok (t, pa) s2)
include hbulk htrans

/-- Host memory is read past the cache, once no earlier access of the core to that home is under way. -/
theorem lineRead_host (ht : t = 3) (hidle : homeBusy s2 c t pa true = false) :
    lineRead s c va n = .ok (lineValue s2 c t pa n, s2) := by
  have hready : (!homeBusy s2 c t pa true) = true := congrArg not hidle
  simp only [lineRead, needD_true (beq_iff_eq.2 halign), needD_true hbulk, htrans, Got.dev, if_pos (beq_iff_eq.2 ht),
    untilD_true hready, bind, Except.bind]
  rfl

/-- A hit waits for the core's stores to that home only where they do not hold every byte. -/
theorem lineRead_hit (ht : t ≠ 3) (hline : (s2.core c).lines.contains (t, pa / 64) = true)
    (hidle : homeBusy s2 c t pa (!ownAll s2 c t pa n) = false) :
    lineRead s c va n = .ok (lineValue s2 c t pa n, s2.setCore c (usedLine (s2.core c) (t, pa / 64))) := by
  have hready := congrArg not hidle
  have htier : ¬ (t == 3) = true := fun h => ht (beq_iff_eq.1 h)
  unfold ownAll at hready
  simp only [lineRead, needD_true (beq_iff_eq.2 halign), needD_true hbulk, htrans, Got.dev, if_neg htier, if_pos hline,
    untilD_true hready, modCore_eq, bind, Except.bind]
  rfl

end

/-! ### bst (R403) -/

/-- A bulk store that finds its place is posted: it is on its way to its home, and ct.b counts it. -/
theorem bstOp_posts {z : BitVec 2} {a b : Spec} {s s2 : State} {v va t pa : Nat} {k : Core}
    (h : readsAB (.bst z a b) 1 s a b v va k) (halign : va % 2 ^ z.toNat = 0) (hbulk : isBulk va = true)
    (hfence : fenceClear k = true) (hroom : k.ctb < 65535)
    (htrans : coreTranslate (s.setCore s.cur k) s.cur va 1 = .ok (t, pa) s2) :
    bstOp z a b s.cur (issuedState (.bst z a b) 1 s) =
      .ok (postBulk (s2.setCore s.cur (dropFence (s2.core s.cur))) s.cur va t pa (toBytes (2 ^ z.toNat) v)) := by
  obtain ⟨-, k0, ha, hb⟩ := h
  have hgoes : (fenceClear k && decide (k.ctb < 65535)) = true := by
    rw [hfence, decide_eq_true hroom]
    rfl
  rw [← core_setCore s s.cur k] at hgoes
  simp only [bstOp, opAB_eq ha hb, needD_true (beq_iff_eq.2 halign), needD_true hbulk, untilD_true hgoes, htrans, Got.dev,
    modCore_eq, bind, Except.bind]

/-- Cores of one key hold the same translations, listed in the state or not. -/
theorem core_tlb_of_pid {c x : CoreId} (s : State) (h : pid x = pid c) : (s.core x).tlb = (s.core c).tlb := by
  simp only [State.core, h]
  cases alookup (pid c) s.cores <;> rfl

section
variable {s : State} {c : CoreId} {k : Core} (hk : k.tlb = (s.core c).tlb)
include hk

/-- A core put in place with the translations that it had changes no core's translations. -/
theorem core_setCore_tlb (x : CoreId) : ((s.setCore c k).core x).tlb = (s.core x).tlb := by
  by_cases hx : pid x = pid c
  · rw [core_tlb_of_pid (s.setCore c k) hx, core_setCore, hk, core_tlb_of_pid s hx]
  · rw [core_setCore_ne s k hx]

theorem bigAt_setCore (couch ctx va : Nat) : bigAt (s.setCore c k) couch ctx va = bigAt s couch ctx va := by
  simp only [bigAt, l1Of, row_setCore, core_setCore_tlb hk]

/-- What posting a store on such a core adds to the state. -/
theorem postBulk_setCore (va t pa : Nat) (bs : List Byte) :
    postBulk (s.setCore c k) c va t pa bs = { s.setCore c { k with ctb := k.ctb + 1 } with
      fab := s.fab ++ [{ src := c, ctx := k.ctx, home := .bulk t pa, va := va, kind := .store bs, posted := 2,
                         launch := k.launch, since := s.cycle, big := bigAt s (couchOf c) k.ctx va, born := s.tlbn }] } := by
  rw [postBulk, core_setCore, setCore_setCore, bigAt_setCore hk]
  rfl

end

theorem dropFence_tlb (k : Core) : (dropFence k).tlb = k.tlb := by
  rw [dropFence]
  split <;> rfl

/-! ### icw (R404) -/

section
variable {a b : Spec} {s : State} {v addr : Nat} {k : Core} (h : readsAB (.icw a b) 0 s a b v addr k) (hv : v < 2048)
  (hfit : addr + 24 ≤ topOf s.cur.cls) (halign : addr % 8 = 0) (hready : unreadyAt k addr 24 = false) {w0 w1 w2 : Nat}
  (hw0 : readLocal k addr 8 = w0) (hw1 : readLocal k (addr + 8) 8 = w1) (hw2 : readLocal k (addr + 16) 8 = w2)
include h hv hfit halign hready hw0 hw1 hw2

/-- With its operands read and its record there, `icw` has the record's words left to check. -/
theorem icwOp_record : icwOp a b s.cur (issuedState (.icw a b) 0 s) = (do
    needD (!bitAt w0 0 && w2 < 2 ^ 48) .undef 1
    needD (!icForbidden w0 w1 w2) .undef 3
    .ok (s.setCore s.cur (icSet k v (w0, w1, w2)))) := by
  obtain ⟨-, k0, ha, hb⟩ := h
  rw [← core_setCore s s.cur k] at hready
  have hrecord := localRecord_ok (c := s.cur) (s := s.setCore s.cur k) hfit halign hready
  simp only [icwOp, opAB_eq ha hb, needD_true (decide_eq_true hv), hrecord, core_setCore, setCore_setCore, hw0, hw1, hw2,
    bind, Except.bind]

theorem icwOp_reserved (hbad : bitAt w0 0 = true ∨ 2 ^ 48 ≤ w2) :
    icwOp a b s.cur (issuedState (.icw a b) 0 s) = .error (.trap { cause := .undef, sub := 1 }) := by
  have hlayout : (!bitAt w0 0 && decide (w2 < 2 ^ 48)) = false := by
    rw [Bool.and_eq_false_iff, Bool.not_eq_false', decide_eq_false_iff_not, Nat.not_lt]
    exact hbad
  simp only [icwOp_record h hv hfit halign hready hw0 hw1 hw2, needD_false hlayout, bind, Except.bind]

variable (hbit : bitAt w0 0 = false) (hlow : w2 < 2 ^ 48)
include hbit hlow

/-- The reserved bits are tested before the values (log 73). -/
theorem icwOp_layout : icwOp a b s.cur (issuedState (.icw a b) 0 s) = (do
    needD (!icForbidden w0 w1 w2) .undef 3
    .ok (s.setCore s.cur (icSet k v (w0, w1, w2)))) := by
  have hlayout : (!bitAt w0 0 && decide (w2 < 2 ^ 48)) = true := by
    rw [hbit, decide_eq_true hlow]
    rfl
  simp only [icwOp_record h hv hfit halign hready hw0 hw1 hw2, needD_true hlayout, bind, Except.bind]

theorem icwOp_forbidden (hbad : icForbidden w0 w1 w2 = true) :
    icwOp a b s.cur (issuedState (.icw a b) 0 s) = .error (.trap { cause := .undef, sub := 3 }) := by
  have hvalues : (!icForbidden w0 w1 w2) = false := congrArg not hbad
  simp only [icwOp_layout h hv hfit halign hready hw0 hw1 hw2 hbit hlow, needD_false hvalues, bind, Except.bind]

theorem icwOp_writes (hgood : icForbidden w0 w1 w2 = false) :
    icwOp a b s.cur (issuedState (.icw a b) 0 s) = .ok (s.setCore s.cur (icSet k v (w0, w1, w2))) := by
  have hvalues : (!icForbidden w0 w1 w2) = true := congrArg not hgood
  simp only [icwOp_layout h hv hfit halign hready hw0 hw1 hw2 hbit hlow, needD_true hvalues, bind, Except.bind]

end

/-! ### ici (R405) -/

/-- A core after `ici`, by its source: all entries go, one, or those of another version. -/
def icCleared (k : Core) (v : Nat) : Core :=
  match field v 63 62 with
  | 0 => ({ k with ic := [] } : Core).chargeControl 64
  | 1 => (icSet k (field v 10 0) (0, 0, 0)).chargeControl 1
  | _ => ({ k with ic := k.ic.filter (fun e => field e.2.1 63 32 != field v 31 0) } : Core).chargeControl 64

theorem icCleared_all {v : Nat} (k : Core) (h : field v 63 62 = 0) :
    icCleared k v = ({ k with ic := [] } : Core).chargeControl 64 := by
  rw [icCleared, h]
  rfl

theorem icCleared_one {v : Nat} (k : Core) (h : field v 63 62 = 1) :
    icCleared k v = ({ k with ic := aerase (field v 10 0) k.ic } : Core).chargeControl 1 := by
  rw [icCleared, h]
  rfl

theorem icCleared_version {v : Nat} (k : Core) (h : field v 63 62 = 2) : icCleared k v =
    ({ k with ic := k.ic.filter (fun e => field e.2.1 63 32 != field v 31 0) } : Core).chargeControl 64 := by
  rw [icCleared, h]
  rfl

theorem iciOp_clears {a : Spec} {s : State} {v : Nat} {k : Core} (h : readsA (.ici a) 0 s a v k) (hok : iciOk v = true) :
    iciOp a s.cur (issuedState (.ici a) 0 s) = .ok (s.setCore s.cur (icCleared k v)) := by
  simp only [iciOp, opA_eq h.2, needD_true hok, modCore_eq, core_setCore, setCore_setCore, bind, Except.bind]
  rfl

/-! ### icr (R405) -/

/-- The word of an entry that `icr` names; its fourth word reads 0. -/
def icWord (u : Nat × Nat × Nat) : Nat → Nat
  | 0 => u.1
  | 1 => u.2.1
  | 2 => u.2.2
  | _ => 0

theorem answers_icr {d a : Spec} {s : State} {v : Nat} {k : Core} (h : readsA (.icr d a) 1 s a v k) (hd : takesWord k d)
    (hv : v < 8192) :
    answers (.icr d a) s (s.setCore s.cur k) d (icWord (icEntry k (field v 10 0)) (field v 12 11)) := by
  refine ansDA rfl h hd ?_
  simp only [needD_true (decide_eq_true hv), core_setCore, bind, Except.bind]
  rfl

/-! ### The filling of a line (R253, R375, R468) -/

section
variable {s : State} {c : CoreId} {ok : Bool} {t l va : Nat} (hwait : (s.core c).fillWait = some (t, l, va))
  (hidle : homeBusy s c t (64 * l) true = false)
include hwait hidle

theorem lineFill_down (hdown : streamerReady s t (64 * l) = false) :
    lineFill s c ok = s.setCore c { s.core c with tres := some (va, 4), fillWait := none } := by
  have hhome : homeDown s (.bulk t (64 * l)) = true := congrArg not hdown
  simp only [lineFill, hwait, hidle, hhome, Bool.false_eq_true, if_false, if_true, modCore_eq]

variable (hup : streamerReady s t (64 * l) = true)
include hup

theorem lineFill_fills (hok : ok = true) (hclean : t = 2 → s.poison.contains l = false) :
    lineFill s c ok = s.setCore c { s.core c with lines := touchLine (s.core c).lines (t, l), fillWait := none } := by
  have hhome : homeDown s (.bulk t (64 * l)) = false := congrArg not hup
  have hsound : (ok && !(t == 2 && s.poison.contains l)) = true := by
    rw [Bool.and_eq_true, Bool.not_eq_true', Bool.and_eq_false_imp, beq_iff_eq]
    exact ⟨hok, hclean⟩
  simp only [lineFill, hwait, hidle, hhome, hsound, Bool.false_eq_true, if_false, if_true, modCore_eq]

theorem lineFill_poisoned (ht : t = 2) (hbad : ok = false ∨ s.poison.contains l = true) :
    lineFill s c ok = s.setCore c { s.core c with tres := some (va, 6), fillWait := none } := by
  have hhome : homeDown s (.bulk t (64 * l)) = false := congrArg not hup
  have hpoison : (ok && !(t == 2 && s.poison.contains l)) = false := by
    rw [Bool.and_eq_false_iff, Bool.not_eq_false', Bool.and_eq_true, beq_iff_eq]
    exact hbad.imp_right fun hp => ⟨ht, hp⟩
  simp only [lineFill, hwait, hidle, hhome, hpoison, if_pos ht, Bool.false_eq_true, if_false, modCore_eq]

end

theorem exec_lineCacheFill (s : State) : exec .lineCacheFill s = .next (lineFill s s.ev.core s.ev.ok) := rfl

/-- Settles O53: `bld` and the filling of a line by the cases of the cache, `bst`, `icw` and `ici` by their checks. -/
theorem controlCore : Obligations.ControlCore := by
  unfold Obligations.ControlCore
  intro z d a b s s2 v w t pa k c s1 n e y
  refine ⟨fun h hd => ⟨fun halign hbulk htrans => ⟨fun ht hidle => ?host, fun ht hline hidle => ?hit⟩,
      fun hmis => ?misaligned, fun halign hout => ?outside⟩,
    fun h halign hbulk hfence hroom htrans => ?post,
    fun h hv hfit halign hready => ⟨fun hbit hlow hgood => ?write, fun hbad => ?reserved,
      fun hbit hlow hbad => ?forbidden⟩,
    fun h hok => ?clear, fun h hd hv => ?word,
    fun hwait hidle => ⟨fun hdown => ?down, fun hup hok hclean => ?fill, fun hup ht hbad => ?poisoned⟩⟩
  case host => exact answersControl_of_effect h hd rfl (lineRead_host halign hbulk htrans ht hidle)
  case hit => exact answersControl_of_effect h hd rfl (lineRead_hit halign hbulk htrans ht hline hidle)
  case misaligned => exact traps_of_effect h hd rfl (lineRead_misaligned hmis)
  case outside => exact traps_of_effect h hd rfl (lineRead_outside halign hout)
  case post =>
    exact end0 rfl h.1 ((bstOp_posts h halign hbulk hfence hroom htrans).trans
      (congrArg _ (postBulk_setCore (dropFence_tlb _) ..)))
  case write => exact end0 rfl h.1 (controlCycles_ok (icwOp_writes h hv hfit halign hready rfl rfl rfl hbit hlow hgood))
  case reserved => exact end0_trap rfl h.1 (controlCycles_stop (icwOp_reserved h hv hfit halign hready rfl rfl rfl hbad))
  case forbidden =>
    exact end0_trap rfl h.1 (controlCycles_stop (icwOp_forbidden h hv hfit halign hready rfl rfl rfl hbit hlow hbad))
  case clear =>
    have hcleared := end0 rfl h.1 (iciOp_clears h hok)
    refine ⟨fun hall => hcleared.trans ?_, fun hone => hcleared.trans ?_, fun hversion => hcleared.trans ?_⟩
    · rw [icCleared_all k hall]
    · rw [icCleared_one k hone]
    · rw [icCleared_version k hversion]
  case word =>
    have hword {i : Nat} (hi : field v 12 11 = i) : answers (.icr d a) s s1 d (icWord (icEntry k (field v 10 0)) i) :=
      hi ▸ answers_icr h hd hv
    exact ⟨hword, hword, hword, hword⟩
  case down => exact (exec_lineCacheFill s).trans (congrArg _ (lineFill_down hwait hidle hdown))
  case fill => exact (exec_lineCacheFill s).trans (congrArg _ (lineFill_fills hwait hidle hup hok hclean))
  case poisoned => exact (exec_lineCacheFill s).trans (congrArg _ (lineFill_poisoned hwait hidle hup ht hbad))

end Sys2Proof.Proofs.ControlCore
end

section
/-!
PROOFS of 12_traps: a trap enters a handler, waits for the change of WP, or ends the context on the core.
-/
namespace Sys2Proof.Proofs.TrapEntry

open Sys2Proof.Machine Sys2Proof.Safety

/-! ### The wait for the change of WP (R235, R243) -/

/-- Where a handler's workspace begins (R267). -/
def handlerWp (k : Core) (isLocal : Bool) : Nat := 1024 * (if isLocal then field k.tcfg 14 8 else field k.tcfg 6 0)

section
variable {s : State} {c : CoreId} {t : Trap}

theorem trapHeld_of {isLocal : Bool} (hto : trapHandler s c t = some isLocal)
    (hmove : handlerWp (s.core c) isLocal ≠ (s.core c).wp) (hdst : (s.core c).pendDst ≠ []) : trapHeld s c t = true := by
  have hpend : (s.core c).pendDst.isEmpty = false := List.isEmpty_eq_false_iff.2 hdst
  rw [handlerWp, ← bne_iff_ne] at hmove
  simp only [trapHeld, hto, hpend, hmove, Bool.not_false, Bool.and_self]

/-- A wait with nothing registered leaves the core as it was, but for the cycles. -/
theorem waitCore_own (s : State) (c : CoreId) : waitCore s c (s.core c) (1 + s.stall) = s.setCore c (waited s c) := rfl

theorem takeTrap_held {insn ext len : Nat} {boundary : Bool} (h : trapHeld s c t = true) :
    takeTrap s c t insn ext len boundary = s.setCore c (waited s c) := by
  rw [takeTrap, if_pos h, waitCore_own]

end

/-! ### The core in a handler (R267, R268) -/

/-- The 72 bytes from w23 on: the interrupted WP and the fault record. -/
def entryBytes (fr : Frame) (words : List Nat) : List Byte := ((fr.wp :: words).map (toBytes 8)).flatten

/-- What a trap saves of the core that it interrupts. -/
def interrupted (s : State) (c : CoreId) (t : Trap) (insn ext len : Nat) (boundary : Bool) : Frame :=
  let k := s.core c
  { wp := k.wp, pc := k.pc, budget := k.budget, len := len, bc := k.bcMode, trap := t, boundary := boundary
    idle := k.run == .idle, insn := if k.run == .idle && !k.inHandler then 0 else insn, ext := ext
    obj := (pcPlace s c k).1, off := (pcPlace s c k).2, stamp := s.cycle }

/-- The core that has entered a handler. -/
def entered (k : Core) (isLocal : Bool) (fr : Frame) (words : List Nat) : Core :=
  let b := changeWp k (handlerWp k isLocal)
  { putLocal b (b.wp + 8 * 23) (entryBytes fr words) with
    pc := if isLocal then field k.tent 63 32 else field k.tent 31 0
    bcMode := false, vpend := false
    lframe := if isLocal then some fr else k.lframe
    tframe := if isLocal then k.tframe else some fr
    hbudget := if isLocal && k.run != .idle then k.hbudget else 256 * field k.tcfg 31 16 }

theorem enterHandler_eq (s : State) (c : CoreId) (isLocal : Bool) (fr : Frame) (words : List Nat) :
    enterHandler s c isLocal fr words = s.setCore c (entered (s.core c) isLocal fr words) := by
  simp only [enterHandler, entered, entryBytes, handlerWp, putLocal_lframe, putLocal_tframe, putLocal_hbudget,
    changeWp_lframe, changeWp_tframe, changeWp_hbudget, List.map_cons, List.flatten_cons]

section
variable (k : Core) (isLocal : Bool) (fr : Frame) (words : List Nat)

theorem entered_wp : (entered k isLocal fr words).wp = handlerWp k isLocal := by
  simp only [entered, putLocal_wp, changeWp_wp]

theorem entered_run : (entered k isLocal fr words).run = k.run := by
  simp only [entered, putLocal_run, changeWp_run]

theorem entered_budget : (entered k isLocal fr words).budget = k.budget := by
  simp only [entered, putLocal_budget, changeWp_budget]

theorem entered_hbudget : (entered k isLocal fr words).hbudget =
    if isLocal = true ∧ k.run ≠ .idle then k.hbudget else 256 * field k.tcfg 31 16 := by
  simp only [entered, Bool.and_eq_true, bne_iff_ne]

end

theorem entryBytes_length {fr : Frame} {words : List Nat} (h : words.length = 8) : (entryBytes fr words).length = 72 := by
  rw [entryBytes, flatten_words_length, List.length_cons, h]

theorem localByte_of_ls {k : Core} {m : Mem} {x : Nat} (h : memGet m x = memGet k.ls x) :
    localByte { k with ls := m } x = localByte k x := by
  unfold localByte
  rw [h]
  rfl

section
variable {k : Core} {isLocal : Bool} {fr : Frame} {words : List Nat} (hlen : words.length = 8)
  (hwf : localWf (changeWp k (handlerWp k isLocal)))
include hlen hwf

/-- Entering writes w23 to w31 of the handler's workspace, and no other local byte. -/
theorem localByte_entered {x : Nat} (hx : ¬ (handlerWp k isLocal + 184 ≤ x ∧ x < handlerWp k isLocal + 256)) :
    localByte (entered k isLocal fr words) x = localByte (changeWp k (handlerWp k isLocal)) x := by
  have hbytes := entryBytes_length (fr := fr) hlen
  refine Eq.trans (lb_frame ..) ?_
  rw [putLocal_low _ (8 * 23) _ (by omega)]
  refine localByte_of_ls (memGet_memPut_out _ _ _ _ hwf.1 ?_)
  rw [changeWp_wp]
  omega

/-- Word 23 + i is word i of the interrupted WP and the record. -/
theorem wReg_entered {i : Nat} (hi : i < 9) :
    wReg (entered k isLocal fr words) (23 + i) = nth (fr.wp :: words) i 0 % 2 ^ 64 := by
  refine (wr_frame ..).trans ?_
  rw [low_rd _ _ (entryBytes fr words) rfl hwf (23 + i) i (entryBytes_length hlen) (by omega) hi, entryBytes,
    flatten_word _ i (by rw [List.length_cons]; omega)]
  exact ofBytes_toBytes 8 _

end

/-- Settles O20: the trap waits with the change of WP, or it enters the handler that `trapHandler` finds. -/
theorem trapEntersHandler : Obligations.TrapEntersHandler := by
  unfold Obligations.TrapEntersHandler
  refine ⟨fun s c t insn ext len boundary hto hdst => ?waits, fun s c t insn ext len boundary isLocal => ?enters⟩
  case waits =>
    rcases hto with ⟨hto, hmove⟩ | ⟨hto, hmove⟩
    · exact takeTrap_held (trapHeld_of hto hmove hdst)
    · exact takeTrap_held (trapHeld_of hto hmove hdst)
  case enters =>
    intro s0 k forLocal entry wp words hheld htop hwhich s' k' b
    have hs' : s' = enterHandler (if isLocal then s0 else queueRecord s0 k.ctx words) c isLocal
        (interrupted s0 c t insn ext len boundary) words :=
      takeTrap_enter rfl rfl rfl hheld htop (trapHandler_of rfl htop hwhich)
    have hqueue : (if isLocal then s0 else queueRecord s0 k.ctx words).core c = k := by cases isLocal <;> rfl
    rw [enterHandler_eq, hqueue] at hs'
    have hk' : k' = entered k isLocal (interrupted s0 c t insn ext len boundary) words :=
      (congrArg (State.core · c) hs').trans (core_setCore ..)
    have hlen : words.length = 8 := fr_len ..
    have hwp : wp = handlerWp k isLocal := rfl
    have hb : b = changeWp k wp := rfl
    rw [hk', hb, hwp]
    refine ⟨rfl, entered_wp .., rfl, entered_hbudget ..,
      ⟨interrupted s0 c t insn ext len boundary, ?tframe, rfl, rfl, rfl, rfl, rfl, rfl, rfl, rfl⟩,
      entered_run .., entered_budget .., fun hwf x hx => localByte_entered hlen hwf ?place,
      fun hwf => ⟨wReg_entered hlen hwf (i := 0) (by decide), fun n hn => ?word⟩, ?records, ?seqs⟩
    case tframe => rw [← htop]; rfl
    case place => rwa [changeWp_wp] at hx
    case word =>
      rw [show 24 + n = 23 + (n + 1) by omega]
      exact wReg_entered hlen hwf (i := n + 1) (by omega)
    case records => rw [hs']; cases isLocal <;> rfl
    case seqs => rw [hs']; cases isLocal <;> rfl

/-! ### The end of the context on the core (R269) -/

section
variable {s : State} {c : CoreId} {t : Trap}

/-- No handler takes a trap raised in the trap handler, or one that finds neither handler usable. -/
theorem trapHandler_none (h : (s.core c).tframe.isSome = true ∨
    (handlerUsable s c (s.core c) (field (s.core c).tent 31 0) = false ∧
      ((t.cause ≠ .attach ∧ t.cause ≠ .ttb) ∨ bitAt (s.core c).tcfg 15 = false ∨ (s.core c).lframe.isSome = true ∨
        handlerUsable s c (s.core c) (field (s.core c).tent 63 32) = false))) : trapHandler s c t = none := by
  rw [trapHandler]
  rcases h with hnested | ⟨hno, hlocal⟩
  · exact if_pos hnested
  · have hoff : ((t.cause == .attach || t.cause == .ttb) && bitAt (s.core c).tcfg 15 && (s.core c).lframe.isNone
        && handlerUsable s c (s.core c) (field (s.core c).tent 63 32)) = false := by
      rcases hlocal with ⟨ha, ht⟩ | h | h | h
      · simp [beq_false_of_ne ha, beq_false_of_ne ht]
      · simp [h]
      · simp [← Option.not_isSome, h]
      · simp [h]
    simp only [hoff, hno, Bool.false_eq_true, if_false, ite_self]

/-- A trap that no handler takes queues its record, with NEST or NOH, and ends the context on the core. -/
theorem takeTrap_ends {insn ext len : Nat} {boundary : Bool} {s0 : State}
    (h0 : surfaceJob (clearWaits (gangTrap s c t insn boundary) c) c t = s0) (hheld : trapHeld s c t = false)
    (hnone : trapHandler s0 c t = none) :
    let k := s0.core c
    takeTrap s c t insn ext len boundary = endContext (queueRecord s0 k.ctx (faultRecord s0 c t
      { idle := k.run == .idle, isLocal := k.lframe.isSome && !k.tframe.isSome, nest := k.tframe.isSome,
        noh := !k.tframe.isSome }
      (if k.run == .idle && !k.inHandler then 0 else insn) ext (recordSeq s0 k.ctx))) c := by
  simp only [takeTrap, hheld, enterTrap, h0, hnone, Bool.false_eq_true, if_false, Option.not_isSome]

theorem executes_false_of_life (h : (s.core c).life ≠ .active) : executes s c = false := by
  simp only [executes, beq_false_of_ne h, Bool.and_false, Bool.false_and]

end

/-- Settles O21: no handler takes the trap, and the record is queued before the context ends. -/
theorem contextEndsOnCore : Obligations.ContextEndsOnCore := by
  unfold Obligations.ContextEndsOnCore
  intro s c t insn ext len boundary s0 k nested words hheld hwhich s'
  have hs' : s' = endContext (queueRecord s0 k.ctx words) c := takeTrap_ends rfl hheld (trapHandler_none hwhich)
  obtain ⟨hlife, hpend⟩ := endContext_core (queueRecord s0 k.ctx words) c
  rw [← hs'] at hlife hpend
  refine ⟨?_, hlife, hpend, executes_false_of_life ?_⟩
  · rw [hs', endContext_frecs]
    rfl
  · rw [hlife]
    decide

end Sys2Proof.Proofs.TrapEntry
end

section
/-!
PROOFS of 12_traps: `rtt` leaves a handler.
-/
namespace Sys2Proof.Proofs.HandlerReturn

open Sys2Proof.Machine Sys2Proof.Safety Sys2Proof.Proofs.Scalar

/-! ### The frame of the running handler (R267) -/

/-- The handler that runs on a core, the local one or the trap handler, returns to this frame. -/
def inFrame (k : Core) (isLocal : Bool) (fr : Frame) : Prop :=
  if isLocal then k.tframe = none ∧ k.lframe = some fr else k.tframe = some fr

section
variable {k : Core} {isLocal : Bool} {fr : Frame} (h : inFrame k isLocal fr)
include h

theorem isLocal_of_inFrame : k.tframe.isNone = isLocal := by
  cases isLocal
  · rw [show k.tframe = some fr from h, Option.isNone_some]
  · rw [h.1, Option.isNone_none]

theorem frame_of_inFrame : (if isLocal then k.lframe else k.tframe) = some fr := by
  cases isLocal
  · exact h
  · exact h.2

end

theorem inFrame_issued {i : Instr} {s : State} {isLocal : Bool} {fr : Frame} (h : inFrame (s.core s.cur) isLocal fr) :
    inFrame ((issuedState i 1 s).core s.cur) isLocal fr := by
  rwa [inFrame, issuedState_core, issued, issue_tframe, issue_lframe]

/-! ### What each mode does (Table 12-2) -/

/-- On an idle core the interrupted place comes back, and the core selects, or is evicted where a request waits (R365). -/
def idleReturn (s : State) (c : CoreId) (fr : Frame) (isLocal : Bool) : State :=
  let s1 := resumeFrame s c fr false isLocal
  if (s1.core c).preReq.isSome && !(s1.core c).inHandler then beginEviction s1 c else s1

/-- The frames that `rtt` leaves are given up by the return itself. -/
theorem resumeFrame_frames (s : State) (c : CoreId) (fr : Frame) (skip isLocal : Bool) :
    (resumeFrame s c fr skip isLocal).modCore c (fun k => { k with
      tframe := none, lframe := if isLocal then none else k.lframe }) = resumeFrame s c fr skip isLocal := by
  rw [modCore_eq, resumeFrame, core_setCore, setCore_setCore]
  cases isLocal <;> rfl

section
variable {s : State} {c : CoreId} {isLocal : Bool} {fr : Frame} (hin : inFrame (s.core c) isLocal fr)
include hin

theorem leaveHandler_kill : leaveHandler s c .kill =
    some (killLaunch (endByHandler s c fr isLocal .abort) (s.core c).ctx (s.core c).launch) := by
  simp only [leaveHandler, isLocal_of_inFrame hin, frame_of_inFrame hin, ite_self]

theorem leaveHandler_idle {m : RttMode} (hrun : (s.core c).run = .idle) (hm : m ≠ .kill) :
    leaveHandler s c m = some (idleReturn s c fr isLocal) := by
  simp only [leaveHandler, isLocal_of_inFrame hin, frame_of_inFrame hin, hrun, resumeFrame_frames, beq_self_eq_true, if_true]
  cases m
  case kill => exact absurd rfl hm
  all_goals rfl

section
variable (hrun : (s.core c).run ≠ .idle)
include hrun

theorem leaveHandler_abort : leaveHandler s c .abort = some (endByHandler s c fr isLocal .abort) := by
  simp only [leaveHandler, isLocal_of_inFrame hin, frame_of_inFrame hin, beq_false_of_ne hrun, Bool.false_eq_true, if_false]

theorem leaveHandler_drop : leaveHandler s c .drop = some (endByHandler s c fr isLocal .drop) := by
  simp only [leaveHandler, isLocal_of_inFrame hin, frame_of_inFrame hin, beq_false_of_ne hrun, Bool.false_eq_true, if_false]

section
variable {m : RttMode} (hm : m = .resume ∨ m = .skip)
include hm

/-- After BUDGET with a pre-emption request pending the firing closes (R365). -/
theorem leaveHandler_closes (hcause : fr.trap.cause = .budget) (hreq : (s.core c).preReq.isSome = true) :
    leaveHandler s c m = some (endByHandler s c fr isLocal .abort) := by
  rcases hm with rfl | rfl <;>
    simp only [leaveHandler, isLocal_of_inFrame hin, frame_of_inFrame hin, beq_false_of_ne hrun, hcause, hreq,
      beq_self_eq_true, Bool.and_self, Bool.false_eq_true, if_false, if_true]

theorem leaveHandler_returns (hgo : ¬ (fr.trap.cause = .budget ∧ (s.core c).preReq.isSome = true)) :
    leaveHandler s c m = some (resumeFrame s c fr (m == .skip) isLocal) := by
  rcases hm with rfl | rfl <;>
    simp only [leaveHandler, isLocal_of_inFrame hin, frame_of_inFrame hin, beq_false_of_ne hrun, Bool.and_eq_true, beq_iff_eq,
      hgo, Bool.false_eq_true, if_false]

end
end
end

theorem leaveHandler_outside {s : State} {c : CoreId} (ht : (s.core c).tframe = none) (hl : (s.core c).lframe = none)
    (m : RttMode) : leaveHandler s c m = none := by
  simp only [leaveHandler, ht, hl, ite_self]

/-! ### The instruction in a mode (R235, R243) -/

/-- Instruction i is `rtt` in mode m. -/
def isReturn (i : Instr) (m : RttMode) : Prop := ∀ s, exec i s = nativeOp i (fun _ => 1) (returnFromTrap m) s

theorem isReturn_resume : isReturn .rttResume .resume := fun _ => rfl
theorem isReturn_skip : isReturn .rttSkip .skip := fun _ => rfl
theorem isReturn_abort : isReturn .rttAbort .abort := fun _ => rfl
theorem isReturn_drop : isReturn .rttDrop .drop := fun _ => rfl
theorem isReturn_kill : isReturn .rttKill .kill := fun _ => rfl

theorem isReturn_of_mem_pair {i : Instr} (h : i ∈ [Instr.rttResume, .rttSkip]) :
    ∃ m, isReturn i m ∧ (m = .resume ∨ m = .skip) := by
  rcases eq_or_eq_of_mem_pair h with rfl | rfl
  · exact ⟨_, isReturn_resume, .inl rfl⟩
  · exact ⟨_, isReturn_skip, .inr rfl⟩

/-- The modes that bring an idle core back (Table 12-2): all but `.kill`. -/
theorem isReturn_of_mem {i : Instr} (h : i ∈ [Instr.rttResume, .rttSkip, .rttAbort, .rttDrop]) :
    ∃ m, isReturn i m ∧ m ≠ .kill := by
  simp only [List.mem_cons, List.not_mem_nil, or_false] at h
  rcases h with rfl | rfl | rfl | rfl
  · exact ⟨_, isReturn_resume, nofun⟩
  · exact ⟨_, isReturn_skip, nofun⟩
  · exact ⟨_, isReturn_abort, nofun⟩
  · exact ⟨_, isReturn_drop, nofun⟩

section
variable {i : Instr} {m : RttMode} {s t : State} (hi : isReturn i m) (hr : ready i s)
include hi hr

section
variable (hleave : leaveHandler (issuedState i 1 s) s.cur m = some t)
include hleave

theorem exec_return (hwp : (s.core s.cur).pendDst = [] ∨ (t.core s.cur).wp = (s.core s.cur).wp) : exec i s = .next t := by
  refine end0 (hi s) hr ?_
  have hfree : (((issuedState i 1 s).core s.cur).pendDst.isEmpty ||
      (t.core s.cur).wp == ((issuedState i 1 s).core s.cur).wp) = true := by
    rw [issuedState_core, issued_wp, issued, issue_pendDst, Bool.or_eq_true, List.isEmpty_iff, beq_iff_eq]
    exact hwp
  simp only [returnFromTrap, hleave, untilD_true hfree]
  rfl

theorem exec_return_held (hdst : (s.core s.cur).pendDst ≠ []) (hmove : (t.core s.cur).wp ≠ (s.core s.cur).wp) :
    exec i s = .next (s.setCore s.cur (waited s s.cur)) := by
  rw [hi s]
  refine nativeOp_stop (cost := fun _ => 1) hr (localOnly_refl _) rfl ?_
  have hheld : (((issuedState i 1 s).core s.cur).pendDst.isEmpty ||
      (t.core s.cur).wp == ((issuedState i 1 s).core s.cur).wp) = false := by
    rw [issuedState_core, issued_wp, issued, issue_pendDst, beq_false_of_ne hmove, List.isEmpty_eq_false_iff.2 hdst]
    rfl
  simp only [returnFromTrap, hleave, untilD_false hheld]
  rfl

end

theorem traps_return_outside (ht : (s.core s.cur).tframe = none) (hl : (s.core s.cur).lframe = none) :
    traps i s { cause := .priv, sub := 1 } := by
  refine end0_trap (hi s) hr ?_
  rw [returnFromTrap, leaveHandler_outside]
  · rfl
  · rwa [issuedState_core, issued, issue_tframe]
  · rwa [issuedState_core, issued, issue_lframe]

end

/-! ### The states after a return and after a close (R268, R272) -/

/-- A core back at a place of its frame, with the budget of R268 and R272. -/
def resumed (s : State) (k : Core) (fr : Frame) (pc : Nat) (isLocal : Bool) : Core :=
  let b := changeWp k fr.wp
  { b with
    pc := pc, bcMode := fr.bc, tframe := none, lframe := if isLocal then none else k.lframe
    budget := if fr.idle then k.budget else if fr.trap.cause = .budget then fullBudget s k
      else if isLocal then k.budget else fr.budget }

section
variable (i : Instr) (s : State) (fr : Frame) (isLocal : Bool)

/-- The state in which the firing closes: from the local handler with a record of its trap, LOCAL = 1 (R272). -/
def told : State :=
  if isLocal then
    queueRecord (issuedState i 1 s) (s.core s.cur).ctx (faultRecord (issuedState i 1 s) s.cur { fr.trap with
      off := some (fr.trap.off.getD fr.off), obj := some (fr.trap.obj.getD fr.obj), stamp := some fr.stamp }
      { isLocal := true, idle := fr.idle } fr.insn fr.ext (recordSeq s (s.core s.cur).ctx))
  else issuedState i 1 s

theorem endByHandler_issued (m : CloseMode) :
    endByHandler (issuedState i 1 s) s.cur fr isLocal m = closeFiring (told i s fr isLocal) s.cur m := by
  have hctx : ((issuedState i 1 s).core s.cur).ctx = (s.core s.cur).ctx := by rw [issuedState_core, issued, issue_ctx]
  rw [endByHandler, hctx]
  rfl

theorem resumeFrame_issued (skip : Bool) : resumeFrame (issuedState i 1 s) s.cur fr skip isLocal =
    s.setCore s.cur (resumed (issuedState i 1 s) (issued i 1 s) fr
      (if skip && !fr.boundary && !fr.bc then fr.pc + fr.len else fr.pc) isLocal) := by
  simp only [resumeFrame, resumed, issuedState_core, changeWp_budget, changeWp_lframe, beq_iff_eq]
  rw [issuedState, setCore_setCore]

end

theorem resumed_wp (s : State) (k : Core) (fr : Frame) (pc : Nat) (isLocal : Bool) : (resumed s k fr pc isLocal).wp = fr.wp :=
  changeWp_wp ..

theorem issued_run (i : Instr) (n : Nat) (s : State) : (issued i n s).run = (s.core s.cur).run := issue_run ..

theorem issued_lframe (i : Instr) (n : Nat) (s : State) : (issued i n s).lframe = (s.core s.cur).lframe := issue_lframe ..

theorem issued_preReq (i : Instr) (n : Nat) (s : State) : (issued i n s).preReq = (s.core s.cur).preReq := issue_preReq ..

/-- A return to a place of the frame changes WP where the frame's is another. -/
theorem exec_return_resumed {i : Instr} {m : RttMode} {s u : State} {k : Core} {fr : Frame} {pc : Nat} {isLocal : Bool}
    (hi : isReturn i m) (hr : ready i s)
    (hleave : leaveHandler (issuedState i 1 s) s.cur m = some (s.setCore s.cur (resumed u k fr pc isLocal)))
    (hwp : (s.core s.cur).pendDst = [] ∨ fr.wp = (s.core s.cur).wp) :
    exec i s = .next (s.setCore s.cur (resumed u k fr pc isLocal)) :=
  exec_return hi hr hleave (by rwa [core_setCore, resumed_wp])

/-- A core that was idle leaves after its return where a request waits and no handler runs: the trap handler may have
interrupted the local one. -/
theorem resumed_leaves (u : State) (k : Core) (fr : Frame) (pc : Nat) (isLocal : Bool) :
    ((resumed u k fr pc isLocal).preReq.isSome && !(resumed u k fr pc isLocal).inHandler) = true ↔
      k.preReq.isSome = true ∧ (isLocal = true ∨ k.lframe = none) := by
  cases isLocal <;> simp [resumed, Core.inHandler]

section
variable {i : Instr} {s : State} {fr : Frame} {isLocal : Bool}

theorem idleReturn_selects (h : ¬ ((s.core s.cur).preReq.isSome = true ∧ (isLocal = true ∨ (s.core s.cur).lframe = none))) :
    idleReturn (issuedState i 1 s) s.cur fr isLocal =
      s.setCore s.cur (resumed (issuedState i 1 s) (issued i 1 s) fr fr.pc isLocal) := by
  rw [← issued_preReq i 1, ← issued_lframe i 1] at h
  rw [idleReturn, resumeFrame_issued]
  refine if_neg ?_
  rw [core_setCore]
  exact mt (resumed_leaves ..).1 h

theorem idleReturn_leaves (h : (s.core s.cur).preReq.isSome = true ∧ (isLocal = true ∨ (s.core s.cur).lframe = none)) :
    idleReturn (issuedState i 1 s) s.cur fr isLocal =
      beginEviction (s.setCore s.cur (resumed (issuedState i 1 s) (issued i 1 s) fr fr.pc isLocal)) s.cur := by
  rw [← issued_preReq i 1, ← issued_lframe i 1] at h
  rw [idleReturn, resumeFrame_issued]
  refine if_pos ?_
  rw [core_setCore]
  exact (resumed_leaves ..).2 h

end

/-- Settles O22, mode by mode: `leaveHandler` on the issued core, then the wait for a change of WP. -/
theorem returnFromHandler : Obligations.ReturnFromHandler := by
  unfold Obligations.ReturnFromHandler
  intro s fr k start back after
  have hrunning (i : Instr) (h : k.run ≠ .idle) : ((issuedState i 1 s).core s.cur).run ≠ .idle := by
    rwa [issuedState_core, issued_run]
  have hrequest (i : Instr) : ((issuedState i 1 s).core s.cur).preReq = k.preReq := by
    rw [issuedState_core, issued_preReq]
  refine ⟨fun isLocal hrun hgo hin => ?runs, fun isLocal hin => ?closes, fun isLocal hidle hin i hi hr => ?idle,
    fun i hi ht hl hr => ?outside⟩
  case runs =>
    have hleave (i : Instr) {m : RttMode} (hm : m = .resume ∨ m = .skip) :=
      (leaveHandler_returns (inFrame_issued (i := i) hin) (hrunning i hrun) hm (by rwa [hrequest])).trans
        (congrArg some (resumeFrame_issued ..))
    refine ⟨fun hdst hmove i hi hr => ?held, fun hwp => ⟨fun hr => ?resume, fun hr => ?skip⟩⟩
    case held =>
      obtain ⟨m, hret, hm⟩ := isReturn_of_mem_pair hi
      exact exec_return_held hret hr (hleave i hm) hdst (by rwa [core_setCore, resumed_wp])
    case resume =>
      exact exec_return_resumed isReturn_resume hr (hleave _ (.inl rfl)) hwp
    case skip =>
      have hafter : (if (RttMode.skip == .skip) && !fr.boundary && !fr.bc then fr.pc + fr.len else fr.pc) = after := by
        cases hb : fr.boundary <;> cases hc : fr.bc <;> simp [after, hb, hc]
      have hskip := hleave .rttSkip (.inr rfl)
      rw [hafter] at hskip
      exact exec_return_resumed isReturn_skip hr hskip hwp
  case closes =>
    intro told' keeps
    have hin' (i : Instr) := inFrame_issued (i := i) hin
    have hclose {i : Instr} {m : RttMode} {cm : CloseMode} (hret : isReturn i m) (hr : ready i s) (hkeeps : keeps i cm)
        (hleave : leaveHandler (issuedState i 1 s) s.cur m = some (endByHandler (issuedState i 1 s) s.cur fr isLocal cm)) :
        exec i s = .next (closeFiring (told' i) s.cur cm) :=
      exec_return hret hr (hleave.trans (congrArg some (endByHandler_issued ..))) hkeeps
    refine ⟨fun hrun hr hkeeps => ?abort, fun hrun hcause hreq i hi hr hkeeps => ?preempted,
      fun hrun hr hkeeps => ?drop, fun hr hkeeps => ?kill⟩
    case abort => exact hclose isReturn_abort hr hkeeps (leaveHandler_abort (hin' _) (hrunning _ hrun))
    case drop => exact hclose isReturn_drop hr hkeeps (leaveHandler_drop (hin' _) (hrunning _ hrun))
    case preempted =>
      obtain ⟨m, hret, hm⟩ := isReturn_of_mem_pair hi
      exact hclose hret hr hkeeps (leaveHandler_closes (hin' _) (hrunning _ hrun) hm hcause (by rwa [hrequest]))
    case kill =>
      have hkill := leaveHandler_kill (hin' .rttKill)
      rw [endByHandler_issued, issuedState_core, issued, issue_ctx, issue_launch] at hkill
      exact exec_return isReturn_kill hr hkill (by rwa [killLaunch_core])
  case idle =>
    obtain ⟨m, hret, hm⟩ := isReturn_of_mem hi
    have hleave := leaveHandler_idle (inFrame_issued (i := i) hin) (by rwa [issuedState_core, issued_run]) hm
    intro s' leaves
    refine ⟨fun hwp hstays => ?selects, fun hwp hleaves => ?leaves⟩
    case selects =>
      rw [idleReturn_selects hstays] at hleave
      exact exec_return_resumed hret hr hleave hwp
    case leaves =>
      rw [idleReturn_leaves hleaves] at hleave
      exact exec_return hret hr hleave hwp
  case outside =>
    simp only [List.mem_cons, List.not_mem_nil, or_false] at hi
    rcases hi with rfl | rfl | rfl | rfl | rfl
    · exact traps_return_outside isReturn_resume hr ht hl
    · exact traps_return_outside isReturn_skip hr ht hl
    · exact traps_return_outside isReturn_abort hr ht hl
    · exact traps_return_outside isReturn_drop hr ht hl
    · exact traps_return_outside isReturn_kill hr ht hl

end Sys2Proof.Proofs.HandlerReturn
end

section
/-!
PROOFS of 12_traps: `sflag`, `wpset`, `wdog` and `pair`.
-/
namespace Sys2Proof.Proofs.SystemGroup

open Sys2Proof.Machine Sys2Proof.Safety

/-! ### Sticky flags (R275, R64) -/

section
variable {d a : Spec} {s : State} {v : Nat} {k : Core} (h : readsA (.sflag d a) 1 s a v k)
include h

theorem sflag_clears {k2 : Core} (hout : k.kout = 0) (hd : writeDst k .z64 d (stickyWord k) = .ok k2) :
    exec (.sflag d a) s =
      .next (s.setCore s.cur (setWsWord k2 0x390 (natAnd (natAnd (stickyWord k) (natNot 64 v)) 0x3F))) := by
  refine end0 rfl h.1 ?_
  have hdst : dstZ (s.setCore s.cur k) s.cur d (stickyWord k) = .ok (s.setCore s.cur k2) := by
    rw [dstZ_ok (by rwa [core_setCore]), setCore_setCore]
  simp only [sflagOp, srcZ_issued h.2, core_setCore, hout, beq_self_eq_true, untilD_true, hdst, bind, Except.bind, modCore_eq,
    setCore_setCore]

/-- It waits for the kiln operations of the core. -/
theorem sflag_waits (hout : k.kout ≠ 0) : exec (.sflag d a) s = .next (s.setCore s.cur (waited s s.cur)) := by
  refine nativeOp_stop (cost := fun _ => 1) h.1 (localOnly_refl _) rfl ?_
  simp only [sflagOp, srcZ_issued h.2, core_setCore, beq_false_of_ne hout, untilD_false, bind, Except.bind]
  rfl

end

/-! ### The workspace (R372, R76) -/

theorem wpsetCost_of_read {a : Spec} {k k2 : Core} {v : Nat} (h : readSrc k.seen .z64 a = .ok (v, k2)) :
    wpsetCost a k = if v = k.wp then 1 else 16 := by
  simp only [wpsetCost, readZ, h, wpCost]

section
variable {a : Spec} {s : State} {v n : Nat} {k k2 : Core} (hn : n = if v = (s.core s.cur).wp then 1 else 16)
  (h : readsA (.wpset a) n s a v k) (hseen : readSrc (s.core s.cur).seen .z64 a = .ok (v, k2))
include hn hseen

theorem wpset_cost : wpsetCost a (s.core s.cur) = n := (wpsetCost_of_read hseen).trans hn.symm

include h

/-- The checks of the address on the core after the read of A. -/
theorem wpset_checks : wpsetOp a s.cur (issuedState (.wpset a) (wpsetCost a (s.core s.cur)) s) = (do
    needD (v % 1024 == 0) .align 0 v
    needD (v + 0x400 ≤ topOf s.cur.cls) .fabric 0 v
    untilD (v == k.wp || k.pendDst.isEmpty) (issuedState (.wpset a) n s)
    .ok (s.setCore s.cur (changeWp k v))) := by
  simp only [wpset_cost hn hseen, wpsetOp, srcZ_issued h.2, core_setCore, setCore_setCore, bind, Except.bind]

theorem wpset_align (hal : v % 1024 ≠ 0) : traps (.wpset a) s { cause := .align, addr := v } := by
  refine nativeOp_trap (cost := wpsetCost a) h.1 ?_
  rw [wpset_checks hn h hseen, needD_false (beq_false_of_ne hal)]
  rfl

variable (hal : v % 1024 = 0)
include hal

theorem wpset_outside (htop : topOf s.cur.cls < v + 1024) : traps (.wpset a) s { cause := .fabric, addr := v } := by
  refine nativeOp_trap (cost := wpsetCost a) h.1 ?_
  rw [wpset_checks hn h hseen, needD_true (by rw [hal]; rfl), needD_false (decide_eq_false (by omega))]
  rfl

variable (htop : v + 1024 ≤ topOf s.cur.cls)
include htop

theorem wpset_moves (hfree : v = k.wp ∨ k.pendDst = []) :
    exec (.wpset a) s = .next (s.setCore s.cur (changeWp k v)) := by
  refine nativeOp_ok (cost := wpsetCost a) h.1 ?_
  have hgo : (v == k.wp || k.pendDst.isEmpty) = true := by rwa [Bool.or_eq_true, beq_iff_eq, List.isEmpty_iff]
  rw [wpset_checks hn h hseen, needD_true (by rw [hal]; rfl), needD_true (decide_eq_true htop), untilD_true hgo]
  rfl

theorem wpset_waits (hmove : v ≠ k.wp) (hdst : k.pendDst ≠ []) :
    exec (.wpset a) s = .next (s.setCore s.cur (waited s s.cur)) := by
  refine nativeOp_stop (cost := wpsetCost a) h.1 (localOnly_refl _) rfl ?_
  have hheld : (v == k.wp || k.pendDst.isEmpty) = false := by
    rw [beq_false_of_ne hmove, List.isEmpty_eq_false_iff.2 hdst]
    rfl
  rw [wpset_checks hn h hseen, needD_true (by rw [hal]; rfl), needD_true (decide_eq_true htop), untilD_false hheld,
    wpset_cost hn hseen]
  rfl

end

/-! ### The budget (R372, R103, log 14) -/

theorem onHandlerBudget_setCycles (k : Core) (n : Nat) : (k.setCycles n).onHandlerBudget = k.onHandlerBudget := by
  unfold Core.setCycles
  split <;> rfl

theorem cyclesLeft_setCycles (k : Core) (n : Nat) : (k.setCycles n).cyclesLeft = n := by
  rw [Core.cyclesLeft, onHandlerBudget_setCycles, Core.setCycles]
  cases k.onHandlerBudget <;> rfl

theorem setCycles_setCycles (k : Core) (m n : Nat) : (k.setCycles m).setCycles n = k.setCycles n := by
  rw [Core.setCycles, onHandlerBudget_setCycles, Core.setCycles, Core.setCycles]
  cases k.onHandlerBudget <;> rfl

/-- The budget that `wdog` leaves, with the cycle of its own charged to it. -/
theorem charge_lowered (k : Core) (left v : Nat) : (if v = 0 then k else k.setCycles (min left v)).charge 1 =
    k.setCycles ((if v = 0 then k.cyclesLeft else min left v) - 1) := by
  by_cases hv : v = 0
  · rw [if_pos hv, if_pos hv, Core.charge]
  · rw [if_neg hv, if_neg hv, Core.charge, cyclesLeft_setCycles, setCycles_setCycles]

theorem wdog_lowers {d a : Spec} {s : State} {v : Nat} {k k2 : Core} (h : readsA (.wdog d a) 0 s a v k)
    (hd : writeDst k .z64 d k.cyclesLeft = .ok k2) : exec (.wdog d a) s =
      .next (s.setCore s.cur (k2.setCycles ((if v = 0 then k2.cyclesLeft else min k.cyclesLeft v) - 1))) := by
  refine end0 rfl h.1 ?_
  have hdst : dstZ (s.setCore s.cur k) s.cur d k.cyclesLeft = .ok (s.setCore s.cur k2) := by
    rw [dstZ_ok (by rwa [core_setCore]), setCore_setCore]
  simp only [wdogOp, srcZ_issued h.2, core_setCore, hdst, bind, Except.bind, modCore_eq, setCore_setCore, charge_lowered]

/-! ### Pairs (R444, Tables 25-3 and 25-4) -/

/-- A core that asks for coupling with the core at the next place. -/
def asksCoupling (c : CoreId) (k : Core) : Core := { k with pairReq := 1, partner := placeOf c + 1, mism := 0 }

section
variable {c : CoreId} {s : State} {k : Core}

/-- With core c at k, the core at the next place runs for its launch. -/
def partnerHere (s : State) (c : CoreId) (k : Core) : Prop :=
  let p := (s.setCore c k).core (coreAt (rowOf c) (placeOf c + 1))
  p.life ≠ .free ∧ p.ctx = k.ctx ∧ p.launch = k.launch

/-- What `pair` tests of the core at the next place. -/
theorem partnerTest_iff :
    (((s.setCore c k).core (coreAt (rowOf c) (placeOf c + 1))).life != .free &&
      ((s.setCore c k).core (coreAt (rowOf c) (placeOf c + 1))).ctx == k.ctx &&
      ((s.setCore c k).core (coreAt (rowOf c) (placeOf c + 1))).launch == k.launch) = true ↔ partnerHere s c k := by
  rw [partnerHere, Bool.and_eq_true, Bool.and_eq_true, bne_iff_ne, beq_iff_eq, beq_iff_eq, and_assoc]

theorem pairOp_status : pairOp 0 c (s.setCore c k) = .ok (pairStatus k, s.setCore c k) := by
  rw [pairOp, core_setCore, if_pos rfl]

theorem pairOp_bad {v : Nat} (hv : 2 < v) : pairOp v c s = .error (.trap { cause := .undef, sub := 2 }) := by
  simp only [pairOp, show v ≠ 0 by omega, show v ≠ 1 by omega, show v ≠ 2 by omega, if_false]
  rfl

/-- Operation 2 acts on the primary of a pair alone. -/
theorem pairOp_uncouple : pairOp 2 c (s.setCore c k) =
    .ok (pairStatus k, s.setCore c (if k.pst = .primary then { k with pairReq := 2 } else k)) := by
  have hzero : ¬ (2 : Nat) = 0 := by decide
  have hone : ¬ (2 : Nat) = 1 := by decide
  rw [pairOp, if_neg hzero, if_neg hone, if_pos rfl, core_setCore]
  by_cases hp : k.pst = .primary
  · rw [if_pos hp, if_pos hp, setCore_setCore]
  · rw [if_neg hp, if_neg hp]

theorem pairOp_noPrimary (h : placeOf c % 2 = 1 ∨ k.pst = .checker) :
    pairOp 1 c (s.setCore c k) = .ok (2 ^ 63 + 1, s.setCore c k) := by
  rw [pairOp, core_setCore]
  exact if_pos h

section
variable (heven : placeOf c % 2 = 0) (hpst : k.pst ≠ .checker)
include heven hpst

/-- A core that may be a primary looks for its partner. -/
theorem pairOp_primary : pairOp 1 c (s.setCore c k) =
    let p := (s.setCore c k).core (coreAt (rowOf c) (placeOf c + 1))
    if !(p.life != .free && p.ctx == k.ctx && p.launch == k.launch) then .ok (2 ^ 63 + 2, s.setCore c k)
    else if pairStateCode k = 1 ∨ pairStateCode k = 2 then .ok (pairStatus k, s.setCore c k)
    else .ok (pairStatus (asksCoupling c k), s.setCore c (asksCoupling c k)) := by
  have hmay : ¬ (placeOf c % 2 = 1 ∨ k.pst = .checker) := by
    rintro (h | h)
    · omega
    · exact hpst h
  simp only [pairOp, core_setCore, setCore_setCore, Nat.one_ne_zero, hmay, if_false, if_true]
  rfl

theorem pairOp_noPartner (h : ¬ partnerHere s c k) : pairOp 1 c (s.setCore c k) = .ok (2 ^ 63 + 2, s.setCore c k) := by
  rw [pairOp_primary heven hpst]
  refine if_pos ?_
  rw [Bool.not_eq_true', ← Bool.not_eq_true, partnerTest_iff]
  exact h

section
variable (hhere : partnerHere s c k)
include hhere

theorem pairOp_partner : pairOp 1 c (s.setCore c k) =
    if pairStateCode k = 1 ∨ pairStateCode k = 2 then .ok (pairStatus k, s.setCore c k)
    else .ok (pairStatus (asksCoupling c k), s.setCore c (asksCoupling c k)) := by
  rw [pairOp_primary heven hpst]
  refine if_neg ?_
  rw [Bool.not_eq_true', partnerTest_iff.mpr hhere]
  decide

theorem pairOp_stays (hcode : pairStateCode k = 1 ∨ pairStateCode k = 2) :
    pairOp 1 c (s.setCore c k) = .ok (pairStatus k, s.setCore c k) := by
  rw [pairOp_partner heven hpst hhere, if_pos hcode]

theorem pairOp_couples (hcode : ¬ (pairStateCode k = 1 ∨ pairStateCode k = 2)) :
    pairOp 1 c (s.setCore c k) = .ok (pairStatus (asksCoupling c k), s.setCore c (asksCoupling c k)) := by
  rw [pairOp_partner heven hpst hhere, if_neg hcode]

end
end
end

section
variable {k : Core}

theorem pairStateCode_pending
    (h : k.pst = .primary ∨ k.pst = .coupling ∨ k.pst = .single ∧ (k.pairReq = 1 ∨ k.pairReq = 3)) :
    pairStateCode k = 1 ∨ pairStateCode k = 2 := by
  unfold pairStateCode
  rcases h with h | h | ⟨h, hreq⟩
  · rw [h]
    exact .inr rfl
  · rw [h]
    exact .inl rfl
  · rw [h]
    exact .inl (if_pos hreq)

theorem pairStateCode_single (h : k.pst = .single) (hreq : k.pairReq = 0 ∨ k.pairReq = 4) :
    ¬ (pairStateCode k = 1 ∨ pairStateCode k = 2) := by
  unfold pairStateCode
  rcases hreq with hreq | hreq <;> simp [h, hreq]

end

/-- Settles O26: each instruction reads A, then checks, waits or takes effect. -/
theorem flagsWorkspaceBudgetPair : Obligations.FlagsWorkspaceBudgetPair := by
  unfold Obligations.FlagsWorkspaceBudgetPair
  refine ⟨fun d a s v k k2 => ⟨fun h => sflag_clears h, sflag_waits, fun n hn h hseen hal htop hfree => ?moves,
    fun n hn h hseen => ?stops, wdog_lowers⟩, fun d a s v k => ?pair⟩
  case moves => exact ⟨wpset_moves hn h hseen hal htop hfree, changeWp_wp k v⟩
  case stops =>
    exact ⟨wpset_align hn h hseen, wpset_outside hn h hseen, wpset_waits hn h hseen⟩
  case pair =>
    intro i c p coupled h hd
    have hanswer {n r : Nat} {s2 : State} (hv : v = n) (hop : pairOp n c (s.setCore c k) = .ok (r, s2)) : answers i s s2 d r :=
      ansDA rfl h hd (hv ▸ hop)
    refine ⟨fun hv => hanswer hv pairOp_status, fun hv hno => hanswer hv (pairOp_noPrimary hno),
      fun hv heven hpst hno => hanswer hv (pairOp_noPartner heven hpst ?noPartner),
      fun hv heven hpst hreq hlife hctx hlaunch => ?couples, fun hv heven hlife hctx hlaunch hpst => ?stays,
      fun hv hpst => ?uncouples, fun hv hpst => ?uncoupled, fun hv => trapDA rfl h hd (pairOp_bad hv)⟩
    case noPartner =>
      rintro ⟨hlife, hctx, hlaunch⟩
      exact hno.elim hlife fun hno => hno.elim (· hctx) (· hlaunch)
    case couples =>
      have hcode := pairStateCode_single hpst hreq
      exact hanswer hv (pairOp_couples heven (by rw [hpst]; decide) ⟨hlife, hctx, hlaunch⟩ hcode)
    case stays =>
      have hnot : k.pst ≠ .checker := by rcases hpst with h | h | ⟨h, -⟩ <;> rw [h] <;> decide
      exact hanswer hv (pairOp_stays heven hnot ⟨hlife, hctx, hlaunch⟩ (pairStateCode_pending hpst))
    case uncouples => exact hanswer hv (pairOp_uncouple.trans (by rw [if_pos hpst]))
    case uncoupled => exact hanswer hv (pairOp_uncouple.trans (by rw [if_neg hpst]))

end Sys2Proof.Proofs.SystemGroup
end

section
/-!
PROOFS of 12_traps and 14_launch: placement rounds, the loader, the completion of kernels and the release ring.
-/
namespace Sys2Proof.Proofs.LaunchEvents

open Sys2Proof.Machine Sys2Proof.Safety

/-! ### Completion (R292, R272, R269) -/

section
variable {s : State} {i j : Nat} {l : Launch} (hl : findLaunch s i j = some l)
include hl

theorem kernelComplete_killed (hover : l.over = false) (hkill : l.killed = true) : kernelComplete s i j none =
    if (launchCores s i j).all (closedOut s) then completeLaunch ((launchCores s i j).foldl withdrawParked s) i j true
    else s := by
  simp only [kernelComplete, hl, hover, hkill, Bool.false_eq_true, if_false, if_true]

theorem kernelComplete_quiet (hst : l.st = .placed) (hkill : l.killed = false) (hhere : ∀ g ∈ l.gangs, g.evicted = false)
    (hcores : launchCores s i j ≠ []) (hquiet : ∀ c ∈ launchCores s i j, Machine.quiet s c = true) :
    kernelComplete s i j none = completeLaunch s i j false := by
  have hover : l.over = false := by rw [Launch.over, hst]; rfl
  have hall : (l.st == .placed && !l.gangs.any (·.evicted) && (launchCores s i j).all (Machine.quiet s) &&
      !(launchCores s i j).isEmpty) = true := by
    simp only [hst, beq_self_eq_true, Bool.true_and, Bool.and_eq_true, Bool.not_eq_true', List.any_eq_false, List.all_eq_true,
      List.isEmpty_eq_false_iff, Bool.not_eq_true]
    exact ⟨⟨hhere, hquiet⟩, hcores⟩
  simp only [kernelComplete, hl, hover, hkill, hall, Bool.false_eq_true, if_false, if_true]

end

/-- A core with a count that is not zero holds back the completion of a killed kernel. -/
theorem closedOut_false {s : State} {c : CoreId}
    (h : (s.core c).ctf ≠ 0 ∨ (s.core c).ctb ≠ 0 ∨ (s.core c).ldo ≠ 0 ∨ (s.core c).atm ≠ 0) : closedOut s c = false := by
  have hcounts : releaseReady (s.core c) = false := by
    rw [releaseReady]
    rcases h with h | h | h | h <;> simp [beq_false_of_ne h]
  rw [closedOut, hcounts, Bool.and_false, Bool.false_and]

theorem exec_kernelComplete {s : State} (h : s.ev.ok = true) :
    exec .kernelComplete s = .next (kernelComplete s s.ev.i s.ev.j none) := by
  show execKernelComplete s = _
  simp only [execKernelComplete, eventOp, h, if_true]

/-! ### The release ring (R397) -/

theorem exec_rringRetry {s : State} {l : Launch} (hl : findLaunch s s.ev.i s.ev.j = some l) (hdue : l.ringDue = true) :
    exec .rringRetry s = .next (ringEntry s s.ev.i s.ev.j) := by
  show execRringRetry s = _
  simp only [execRringRetry, eventOp, hl, hdue, if_true]

theorem ringReach_of {s : State} {c : CoreId} {ctx : Nat} (hlife : (s.core c).life ≠ .free) (hctx : (s.core c).ctx = ctx)
    (haway : coreAway (s.core c) = false) : ringReach s c ctx = true := by
  rw [ringReach, bne_iff_ne.2 hlife, hctx, beq_self_eq_true, haway]
  rfl

/-! ### The loader (R286, R291) -/

/-- A loaded core is made ready, and a request is taken by one that is then idle. -/
theorem prologueStart_loaded {s s1 s2 : State} {c : CoreId} {l : Launch} {bs bs' : List Byte}
    (hlife : (s.core c).life = .preparing) (hl : findLaunch s (s.core c).ctx (s.core c).launch = some l)
    (himages : loadImages c l (imageList l) s = .ok bs s1) (hparams : loadParams c l s1 = .ok bs' s2)
    (hstay : (readyCore l (startTemper s2 l) (s2.core c)).run = .prologue ∨
      (readyCore l (startTemper s2 l) (s2.core c)).preReq = none) :
    prologueStart s c = s2.setCore c (readyCore l (startTemper s2 l) (s2.core c)) := by
  have hno : ((readyCore l (startTemper s2 l) (s2.core c)).run == .idle &&
      (readyCore l (startTemper s2 l) (s2.core c)).preReq.isSome) = false := by
    rcases hstay with h | h
    · rw [h]
      rfl
    · rw [h, Option.isSome_none, Bool.and_false]
  simp only [prologueStart, hlife, hl, himages, hparams, modCore_eq, core_setCore, hno, bne_self_eq_false, Bool.false_eq_true,
    if_false]

/-- The core with its channels written, its counts and slice cleared and its workspace current, its shadows not yet loaded. -/
def cleared (l : Launch) (k : Core) : Core :=
  { k with
    chans := kernelChans l, tiles := List.replicate 16 {}, ctf := 0, ctb := 0, ctm := 0, ldo := 0, atm := 0, gbarc := 0,
    acc := [], wp := 1024 * lowestWpi l, life := .active }

section
variable (l : Launch) (temper : Nat) (k : Core)

theorem readyCore_selects (h : field (nth l.kent 0 0) 63 32 = 0xFFFFFFFF) : readyCore l temper k = reloadShadows (cleared l k) :=
  if_pos h

theorem readyCore_runs (h : field (nth l.kent 0 0) 63 32 ≠ 0xFFFFFFFF) : readyCore l temper k =
    startPrologue (reloadShadows (cleared l k)) (kernelEntry l) (field (nth l.kent 0 0) 31 16) (lowestWpi l) temper := if_neg h

/-- What the loader leaves, whether or not a prologue runs. -/
theorem readyCore_clears :
    let k1 := readyCore l temper k
    k1.chans = kernelChans l ∧ k1.acc = [] ∧ k1.ctf = 0 ∧ k1.ctb = 0 ∧ k1.ctm = 0 ∧ k1.ldo = 0 ∧ k1.atm = 0 ∧
      k1.wp = 1024 * lowestWpi l ∧ k1.life = .active := by
  obtain ⟨ls, sh, fl, m, hloaded⟩ := reloadShadows_local (cleared l k)
  by_cases h : field (nth l.kent 0 0) 63 32 = 0xFFFFFFFF
  · rw [readyCore_selects l temper k h, hloaded]
    exact ⟨rfl, rfl, rfl, rfl, rfl, rfl, rfl, rfl, rfl⟩
  · obtain ⟨ls', sh', fl', m', pc, bu, run, h3, fi, bc, sb, hstart⟩ :=
      startPrologue_shape (reloadShadows (cleared l k)) (kernelEntry l) (field (nth l.kent 0 0) 31 16) (lowestWpi l) temper
    rw [readyCore_runs l temper k h, hstart, hloaded]
    exact ⟨rfl, rfl, rfl, rfl, rfl, rfl, rfl, rfl, rfl⟩

/-- The prologue runs at its entry with its budget. -/
theorem readyCore_prologue (h : field (nth l.kent 0 0) 63 32 ≠ 0xFFFFFFFF) :
    let k1 := readyCore l temper k
    k1.run = .prologue ∧ k1.pc = kernelEntry l ∧ k1.budget = 256 * field (nth l.kent 0 0) 31 16 := by
  rw [readyCore_runs l temper k h]
  exact ⟨rfl, rfl, rfl⟩

end

/-! ### Placement (R287, R289) -/

theorem placeGang_core (s : State) (l : Launch) (ms : List (Nat × CoreId)) : ∃ expired, ∀ c,
    (placeGang s l ms).core c =
      (ms.foldl (fun s m => giveCore s l l.placedGangs m.1 .preparing expired m.2) s).core c :=
  ⟨_, fun _ => rfl⟩

/-- A launch of one gang that fits is placed whole. -/
theorem placeGangs_one {s s2 : State} {x : Launch} {ctx id : Nat} {ms : List (Nat × CoreId)}
    (hx : findLaunch s ctx id = some x) (hst : x.st = .queued) (hfit : findGang s x = (s2, some ms)) :
    placeGangs 1 s ctx id = (placeGang s2 x ms, 1) := by
  simp only [placeGangs, hx, hst, hfit, ne_eq, not_true, if_false]

theorem headTurn_places {s s2 : State} {l x : Launch} {ms : List (Nat × CoreId)} (hhere : ∀ g ∈ l.gangs, g.evicted = false)
    (hfirst : l.placedGangs = 0) (hone : launchNgang l = 1) (hok : refusalReason s l = 0)
    (hx : findLaunch (storeObject s l) l.ctx l.id = some x) (hst : x.st = .queued) (hcos : kernelCosched x = false)
    (hfit : findGang (storeObject s l) x = (s2, some ms)) : headTurn s l = (placeGang s2 x ms, some 1) := by
  have hevicted : l.gangs.any (·.evicted) = false := by
    rw [List.any_eq_false]
    exact fun g hg => by rw [hhere g hg]; exact Bool.false_ne_true
  simp only [headTurn, hevicted, hfirst, hone, hok, hx, hcos, Nat.sub_zero, placeGangs_one hx hst hfit, Bool.false_and,
    Bool.false_eq_true, ne_eq, not_true, if_false, if_true]

section
variable {s t : State} {l : Launch} {n : Nat}

theorem headTurns_one (hturn : headTurn s l = (t, some (n + 1))) :
    headTurns s [l] = (afterPlacing t l, [(l, some (n + 1))]) := by
  simp only [headTurns, hturn]

/-- A head that placed does not age. -/
theorem ageHeads_placed (u : State) : ageHeads u [(l, some (n + 1))] = u := by
  simp only [ageHeads, Option.some.injEq, Nat.add_one_ne_zero, false_and, if_false]

/-- A round with one head that places gangs leaves the cores as its turn left them. -/
theorem placementRound_core (hup : bitAt s.rdy.svc 0 = true) (hrun : s.health.stopped = false) (hheads : heads s = [l])
    (hturn : headTurn s l = (t, some (n + 1))) (c : CoreId) : (placementRound s).core c = t.core c := by
  have hsort : sortBy (headKey s) [l] = [l] := rfl
  have hblocked : [(l, some (n + 1))].filter (fun p => p.2 == some 0) = [] := rfl
  have hkeep : (grantReserve (afterPlacing t l)).core c = t.core c := by
    rw [State.core, grantReserve_cores, afterPlacing_cores, State.core]
  simp only [placementRound, hup, hrun, hheads, hsort, headTurns_one hturn, ageHeads_placed, hblocked, List.foldl_nil,
    Bool.not_true, Bool.or_self, Bool.false_eq_true, if_false]
  exact hkeep

end

theorem exec_placementRound (s : State) : exec .placementRound s = .next (placementRound s) := rfl

theorem exec_prologueStart (s : State) : exec .prologueStart s = .next (prologueStart s s.ev.core) := rfl

/-- Settles O49, event by event. -/
theorem launchEvents : Obligations.LaunchEvents := by
  unfold Obligations.LaunchEvents
  intro s s1 s2 l x ms k bs bs' e
  refine ⟨fun hup hrun hheads hhere hfirst hone hok hx hst hcos hfit hnodup => ?placed,
    fun hlife hl himages hparams => ?loaded, fun hok hl hst hkill hhere hcores hquiet => ?completes,
    fun hok hl hover hkill => ⟨fun hclosed => ?closes, fun hcount => ?held⟩,
    fun c hl hdue hissuer hlife hctx haway hput => ?ring⟩
  case placed =>
    refine ⟨_, exec_placementRound s, fun m hm => ?_⟩
    have hturn := headTurn_places hhere hfirst hone hok hx hst hcos hfit
    obtain ⟨expired, hgiven⟩ := placeGang_core s2 x ms
    rw [placementRound_core hup hrun hheads hturn, hgiven, (give_fold x x.placedGangs .preparing expired ms s2 hnodup).1 m hm]
    exact ⟨rfl, rfl, rfl, rfl, rfl, rfl, rfl⟩
  case loaded =>
    intro k1
    exact ⟨fun hstay => (exec_prologueStart s).trans (congrArg _ (prologueStart_loaded hlife hl himages hparams hstay)),
      readyCore_prologue l _ _, readyCore_clears l _ _⟩
  case completes => rw [exec_kernelComplete hok, kernelComplete_quiet hl hst hkill hhere hcores hquiet]
  case closes => rw [exec_kernelComplete hok, kernelComplete_killed hl hover hkill, if_pos (List.all_eq_true.2 hclosed)]
  case held =>
    obtain ⟨c, hc, hcount⟩ := hcount
    have hopen : ¬ (launchCores s e.i e.j).all (closedOut s) = true := fun hall => by
      have hclosed := List.all_eq_true.1 hall c hc
      rw [closedOut_false hcount] at hclosed
      cases hclosed
    rw [exec_kernelComplete hok, kernelComplete_killed hl hover hkill, if_neg hopen]
  case ring =>
    rw [exec_rringRetry hl hdue, ringEntry_issuer hl hissuer hdue (ringReach_of hlife hctx haway), ringDone_some hput]

end Sys2Proof.Proofs.LaunchEvents
end

section
/-!
PROOFS, shared: instructions that read A and try D before their own checks (R83), and the wait of a release (R234).
-/
namespace Sys2Proof.Proofs.DeviceOperands

open Sys2Proof.Machine Sys2Proof.Safety

/-- D is tried with 0 before the effect; what the trial writes is discarded. -/
theorem dstZ_trial {s : State} {c : CoreId} {d : Spec} {k : Core} (hd : takesWord k d) :
    ∃ k', dstZ (s.setCore c k) c d 0 = .ok (s.setCore c k') := by
  obtain ⟨k', hk'⟩ := hd
  refine ⟨k', ?_⟩
  rw [dstZ_ok (by rwa [core_setCore]), setCore_setCore]

section
variable {i : Instr} {n : Nat} {s : State} {d a : Spec} {v : Nat} {k : Core} {f : CoreId → State → Dev State}
  (hx : exec i s = nativeOp i (fun _ => n) f s) (h : readsA i n s a v k)
include hx h

/-- An instruction of one source whose meaning ends with the write of D. -/
theorem answers_src {s2 : State} {r : Nat} (hf : f s.cur (issuedState i n s) = dstZ s2 s.cur d r) : answers i s s2 d r :=
  answers_of (cost := fun _ => n) hx h.1 hf (dst_eff s2 s.cur d r)

theorem traps_src {t : Trap} (hf : f s.cur (issuedState i n s) = .error (.trap t)) : traps i s t := end0_trap hx h.1 hf

end

end Sys2Proof.Proofs.DeviceOperands
end

section
/-!
PROOFS of 18_contexts: `srr`, `srw` and `rdcyc`.
-/
namespace Sys2Proof.Proofs.SystemRegisters

open Sys2Proof.Machine Sys2Proof.Safety

/-! ### Reads (R372, R373, Tables 18-4 and 26-2) -/

section
variable {s : State} {c : CoreId} {v : Nat}

/-- Only a control core has the bytecode registers. -/
theorem sysReg_bytecode_absent (hc : c.cls ≠ .control) (hlow : 0x20 ≤ v) (hhigh : v ≤ 0x23) : sysReg s c v = 0 := by
  have hclass : (c.cls == .control) = false := beq_false_of_ne hc
  obtain rfl | rfl | rfl | rfl : v = 0x20 ∨ v = 0x21 ∨ v = 0x22 ∨ v = 0x23 := by omega
  all_goals simp [sysReg, hclass]

/-- A number without a register reads 0. -/
theorem sysReg_unassigned (h : 0x24 ≤ v ∨ (0x13 ≤ v ∧ v < 0x20) ∨ (0x05 ≤ v ∧ v < 0x10)) : sysReg s c v = 0 := by
  have hnone (n : Nat) (hn : n ∈ [0x00, 0x01, 0x02, 0x03, 0x04, 0x10, 0x11, 0x12, 0x20, 0x21, 0x22, 0x23]) : v ≠ n := by
    simp only [List.mem_cons, List.not_mem_nil, or_false] at hn
    omega
  simp [sysReg, hnone]

/-- The bytecode registers of a control core. -/
theorem sysReg_bytecode {k : Core} (hc : c.cls = .control) :
    let s1 := s.setCore c k
    sysReg s1 c 0x20 = k.bhtab ∧ sysReg s1 c 0x21 = k.ltab ∧ sysReg s1 c 0x22 = k.bscr ∧ sysReg s1 c 0x23 = k.rring := by
  have hclass : (c.cls == .control) = true := beq_iff_eq.2 hc
  simp [sysReg, hclass]

theorem islandWord_compute (hc : c.cls = .compute) : islandWord s c =
    min (islandRoom (nth s.islands (islandOf (rowOf c)) {})) (2 ^ 32 - 1) +
      (nth s.islands (islandOf (rowOf c)) {}).cur * 2 ^ 40 + islandOf (rowOf c) * 2 ^ 48 := by
  rw [islandWord, hc]
  rfl

theorem islandWord_other (hc : c.cls ≠ .compute) : islandWord s c = 2 ^ 63 := by
  rw [islandWord]
  cases h : c.cls
  case compute => exact absurd h hc
  all_goals rfl

theorem idWord_eq (k : Core) : idWord c k =
    k.ctx * 2 ^ 50 + classCode c.cls * 2 ^ 48 + coreNumber c k * 2 ^ 34 +
      (if c.cls = .compute then rowOf c % 64 * 2 ^ 16 + rowOf c / 64 * 2 ^ 8 + placeOf c else 0) := by
  rw [idWord]
  cases c.cls <;> rfl

theorem preemptionBits_eq (x : Option Nat) (b : Bool) :
    bnat x.isSome + 2 * bnat b = (if x = none then 0 else 1) + (if b then 2 else 0) := by
  cases x <;> cases b <;> rfl

end

theorem answers_srr {d a : Spec} {s : State} {v r : Nat} {k : Core} (h : readsA (.srr d a) 1 s a v k) (hd : takesWord k d)
    (hr : r = if v < 256 then sysReg (s.setCore s.cur k) s.cur v else 0) :
    answers (.srr d a) s (s.setCore s.cur k) d r := ansDA rfl h hd (by rw [hr])

/-! ### Writes (R372, R373) -/

section
variable {n : BitVec 7} {b : Spec} {s : State} {v : Nat} {k : Core} (h : readsA (.srw n b) 1 s b v k)
include h

/-- `sr.tcfg` and `sr.tent`. -/
theorem srw_trapRegister (hn : n.toNat = 0x03 ∨ n.toNat = 0x04) (hsup : k.sup = true) : exec (.srw n b) s =
    .next (s.setCore s.cur (if n.toNat = 0x03 then { k with tcfg := v } else { k with tent := v })) := by
  refine srw_ok h ?_
  rw [if_pos hn, core_setCore, needD_true hsup, modCore_eq, core_setCore, setCore_setCore]
  rfl

theorem srw_trapRegister_priv (hn : n.toNat = 0x03 ∨ n.toNat = 0x04) (hsup : k.sup = false) :
    traps (.srw n b) s { cause := .priv, sub := 2 } := by
  refine srw_trap h ?_
  rw [if_pos hn, core_setCore, needD_false hsup]
  rfl

/-- A core with a bytecode register written. -/
def withBytecodeRegister (k : Core) (n w : Nat) : Core :=
  if n = 0x20 then { k with bhtab := w } else if n = 0x21 then { k with ltab := w }
  else if n = 0x22 then { k with bscr := w } else { k with rring := w }

variable (hn : ¬ (n.toNat = 0x03 ∨ n.toNat = 0x04))
include hn

section
variable {al : Nat} (hal : bcRegAlign n.toNat = some al)
include hal

theorem srw_bytecodeRegister_priv (hc : s.cur.cls ≠ .control) : traps (.srw n b) s { cause := .priv, sub := 2 } := by
  refine srw_trap h ?_
  simp only [if_neg hn, hal, needD_false (beq_false_of_ne hc), bind, Except.bind]

variable (hc : s.cur.cls = .control)
include hc

theorem srw_bytecodeRegister (hw : v % 2 ^ 17 % al = 0) :
    exec (.srw n b) s = .next (s.setCore s.cur (withBytecodeRegister k n.toNat (v % 2 ^ 17))) := by
  refine srw_ok h ?_
  simp only [if_neg hn, hal, needD_true (beq_iff_eq.2 hc), needD_true (beq_iff_eq.2 hw), modCore_eq, core_setCore,
    setCore_setCore, bind, Except.bind]
  rfl

theorem srw_bytecodeRegister_align (hw : v % 2 ^ 17 % al ≠ 0) :
    traps (.srw n b) s { cause := .align, addr := v % 2 ^ 17 } := by
  refine srw_trap h ?_
  simp only [if_neg hn, hal, needD_true (beq_iff_eq.2 hc), needD_false (beq_false_of_ne hw), bind, Except.bind]

end

theorem srw_other_priv (hnone : bcRegAlign n.toNat = none) : traps (.srw n b) s { cause := .priv, sub := 2 } := by
  refine srw_trap h ?_
  rw [if_neg hn, hnone]
  rfl

end

/-- A register number that is none of the six that can be written. -/
theorem not_written {n : BitVec 7} (h : n ∉ [0x03, 0x04, 0x20, 0x21, 0x22, 0x23]) :
    ¬ (n.toNat = 0x03 ∨ n.toNat = 0x04) ∧ bcRegAlign n.toNat = none := by
  have hne (m : BitVec 7) (hm : m ∈ [0x03, 0x04, 0x20, 0x21, 0x22, 0x23]) : n.toNat ≠ m.toNat := fun e =>
    h (BitVec.eq_of_toNat_eq e ▸ hm)
  have h3 := hne 0x03 (by decide)
  have h4 := hne 0x04 (by decide)
  have h20 := hne 0x20 (by decide)
  have h21 := hne 0x21 (by decide)
  have h22 := hne 0x22 (by decide)
  have h23 := hne 0x23 (by decide)
  simp only [BitVec.reduceToNat] at h3 h4 h20 h21 h22 h23
  refine ⟨by omega, ?_⟩
  rw [bcRegAlign, if_neg h21, if_neg (by omega)]

/-- Settles O25: a read register by register, a write by the class of its register. -/
theorem systemRegisters : Obligations.SystemRegisters := by
  unfold Obligations.SystemRegisters
  refine ⟨fun d a s v r k => ⟨fun h hd => ?read, fun h hd => ansD rfl h hd rfl⟩, fun n b s v k => ?write⟩
  case read =>
    intro ctl row isl hreg
    have hcore := core_setCore s s.cur k
    obtain ⟨rfl, rfl⟩ | ⟨rfl, hc, rfl⟩ | ⟨rfl, hc, rfl⟩ | ⟨rfl, rfl⟩ | ⟨rfl, rfl⟩ | ⟨rfl, rfl⟩ | ⟨rfl, rfl⟩ | ⟨rfl, rfl⟩ |
      ⟨rfl, rfl⟩ | ⟨rfl, hc, rfl⟩ | ⟨rfl, hc, rfl⟩ | ⟨rfl, hc, rfl⟩ | ⟨rfl, hc, rfl⟩ | ⟨hlow, hhigh, hc, rfl⟩ |
      ⟨hno, rfl⟩ := hreg
    all_goals refine answers_srr h hd ?_
    · exact (idWord_eq k).symm.trans (congrArg _ hcore.symm)
    · exact (islandWord_compute hc).symm
    · exact (islandWord_other hc).symm
    · exact congrArg Core.tcfg hcore.symm
    · exact congrArg Core.tent hcore.symm
    · exact congrArg Core.kstall hcore.symm
    · rfl
    · exact (preemptionBits_eq _ _).symm.trans (congrArg (fun k : Core => bnat k.preReq.isSome + 2 * bnat k.sliceExp) hcore.symm)
    · exact congrArg (fun k : Core => k.eccL * 2 ^ 16 + k.eccR) hcore.symm
    · exact (sysReg_bytecode hc).1.symm
    · exact (sysReg_bytecode hc).2.1.symm
    · exact (sysReg_bytecode hc).2.2.1.symm
    · exact (sysReg_bytecode hc).2.2.2.symm
    · rw [sysReg_bytecode_absent hc hlow hhigh, ite_self]
    · rw [sysReg_unassigned hno, ite_self]
  case write =>
    intro i ends w h
    refine ⟨fun hn hsup => ?tcfg, fun hn hsup => ?tent, fun hn hc hw => ?bhtab, fun hn hc hw => ?ltab, fun hn hc hw => ?bscr,
      fun hn hc hw => ?rring, fun hn hc => ?align, fun hn hsup => srw_trapRegister_priv h ?_ hsup, fun hn hc => ?otherClass,
      fun hn => srw_other_priv h (not_written hn).1 (not_written hn).2⟩
    case tcfg => subst hn; exact srw_trapRegister h (.inl rfl) hsup
    case tent => subst hn; exact srw_trapRegister h (.inr rfl) hsup
    case bhtab => subst hn; exact srw_bytecodeRegister h (by decide) rfl hc hw
    case ltab => subst hn; exact srw_bytecodeRegister h (by decide) rfl hc hw
    case bscr => subst hn; exact srw_bytecodeRegister h (by decide) rfl hc hw
    case rring => subst hn; exact srw_bytecodeRegister h (by decide) rfl hc hw
    case align =>
      obtain ⟨rfl | rfl | rfl, hw⟩ | ⟨rfl, hw⟩ := hn <;> exact srw_bytecodeRegister_align h (by decide) rfl hc hw
    case otherClass =>
      obtain rfl | rfl | rfl | rfl := hn <;> exact srw_bytecodeRegister_priv h (by decide) rfl hc
    obtain rfl | rfl := hn
    · exact .inl rfl
    · exact .inr rfl

end Sys2Proof.Proofs.SystemRegisters
end

section
/-!
PROOFS of 19_bytecode: dispatches to routines and to the front end's own entries, and the known words of the encoding.
-/
namespace Sys2Proof.Proofs.BytecodeRoutines

open Sys2Proof.Machine Sys2Proof.Safety

/-- Settles O35: the decoder evaluates each word. -/
theorem decodeKnownWords : Obligations.DecodeKnownWords := by
  unfold Obligations.DecodeKnownWords
  exact ⟨rfl, rfl, rfl, rfl, rfl, rfl, rfl, rfl, rfl, rfl, rfl⟩

/-- A byte that is no bytecode, or a BPC beyond the code, goes to entry 0xFF, BPC past the byte (R385, log 61). -/
theorem unassigned_goes {s s1 : State} {k : Core} {t : Nat} (hk : k = s.core s.ev.core) (hin : inBytecode s s.ev.core = true)
    (hv : k.vpend = false) (ha : k.acqWait = false) (hready : unreadyAt k (k.wp + 128) 64 = false) (hring : 4 ≤ ringFree k)
    (hw : s.ev.w = 0x100 ∨ (s.ev.w < 256 ∧ bcLength s.ev.w = none)) (ht : handlerEntry s s.ev.core 0xFF = .ok t)
    (hc : checkTarget s s.ev.core t = .ok ())
    (hs : storeWords s s.ev.core (dispatchWords k (if s.ev.w = 0x100 then wReg k 16 else wReg k 16 + 1) s.ev.w 0 0xFFFF
      (wReg k 16) 0) = .ok s1) :
    exec .unassignedBytecode s = .next ((atRoutine s1 s.ev.core t).modCore s.ev.core (fun k => k.front 6 s.stall)) := by
  subst hk
  show execUnassignedBytecode s = _
  simp only [execUnassignedBytecode, eventOp, if_pos hw]
  exact congrArg _ (front_of (r := (atRoutine s1 s.ev.core t, 6)) hin hv ha hready hring (own_ok ht hc hs))

/-- Settles O55: routine by routine, then the front end's own entries. -/
theorem bytecodeRoutines : Obligations.BytecodeRoutines := by
  unfold Obligations.BytecodeRoutines
  intro n o s k t s1 c e
  refine ⟨fun _ => ⟨fun h => ?one, fun h => ?none, fun h => ⟨routine_of h rfl, routine_of h rfl⟩, fun h => routine_of h rfl⟩,
    unassigned_goes, fun hk h hroom ht hc hs => ?full, fun hk hin hv ha hready hring ht hc hs => ?ring⟩
  case one => exact ⟨routine_of h rfl, routine_of h rfl, routine_of h rfl, routine_of h rfl, routine_of h rfl⟩
  case none =>
    exact ⟨routine_of h rfl, routine_of h rfl, routine_of h rfl, routine_of h rfl, routine_of h rfl, routine_of h rfl⟩
  case full =>
    subst hk
    exact full_of h rfl Nat.one_pos hroom ht hc hs
  case ring =>
    subst hk
    exact ring_of rfl hin hv ha hready hring ht hc hs

end Sys2Proof.Proofs.BytecodeRoutines
end

section
/-!
PROOFS of 19_bytecode: what the bytecodes that the front end executes come to.
-/
namespace Sys2Proof.Proofs.BytecodeResults

open Sys2Proof.Machine Sys2Proof.Safety

/-! ### Counts (R380, R388) -/

section
variable {f f2 : Fe} {c : CoreId} {v h : Nat}

theorem count_plain (up : Bool) (hv : isRef v = false) : f.count c v up = .ok f := by
  simp only [Fe.count, hv, Bool.not_false, if_true]

section
variable (hv : isRef v = true) (halign : v % 16 = 0) (hread : f.rd c v 8 = .ok (h, f2)) (hmortal : bitAt h 39 = false)
  (hmax : field h 31 0 ≠ 0xFFFFFFFF)
include hv halign hread hmortal hmax

/-- The count of a mortal object with a count to change. -/
theorem count_ref (up : Bool) : f.count c v up =
    let n := if up then field h 31 0 + 1 else (field h 31 0 + 2 ^ 32 - 1) % 2 ^ 32
    .ok { f2.wr v 4 n with chg := f2.chg + 1, ring := if !up && n == 0 then f2.ring ++ [v] else f2.ring } := by
  have hcounts : (bitAt h 39 || field h 31 0 == 0xFFFFFFFF) = false := by rw [hmortal, beq_false_of_ne hmax]; rfl
  simp only [Fe.count, hv, Bool.not_true, Bool.false_eq_true, if_false, needD_true (beq_iff_eq.2 halign), hread, hcounts, bind,
    Except.bind]

theorem count_up : f.count c v true = .ok { f2 with blk := f2.blk ++ [(v, 4, field h 31 0 + 1)], chg := f2.chg + 1 } :=
  count_ref hv halign hread hmortal hmax true

theorem count_down (hmany : 1 < field h 31 0) :
    f.count c v false = .ok { f2 with blk := f2.blk ++ [(v, 4, field h 31 0 - 1)], chg := f2.chg + 1 } := by
  have hlt : field h 31 0 < 2 ^ 32 := Nat.mod_lt _ (by decide)
  have hn : (field h 31 0 + 2 ^ 32 - 1) % 2 ^ 32 = field h 31 0 - 1 := by omega
  have hleft : (field h 31 0 - 1 == 0) = false := beq_false_of_ne (by omega)
  simp only [count_ref hv halign hread hmortal hmax, Bool.false_eq_true, if_false, hn, hleft, Bool.and_false]
  rfl

/-- The object whose count falls to 0 goes to the release ring. -/
theorem count_last (hlast : field h 31 0 = 1) : f.count c v false =
    .ok { f2 with blk := f2.blk ++ [(v, 4, 0)], chg := f2.chg + 1, ring := f2.ring ++ [v] } := by
  simp only [count_ref hv halign hread hmortal hmax, hlast]
  rfl

end

/-- Without writes in bulk memory, the local words alone are stored, and the ring takes its entries. -/
theorem finish_local {s1 : State} {next cost : Nat} (hblk : f.blk = [])
    (hs : storeWords f.s c ([((f.s.core c).wp + 128, next), ((f.s.core c).wp + 144, f.sp)] ++ f.loc) = .ok s1) :
    f.finish c next cost = .ok (ringAll s1 c f.ring, cost + 2 * f.chg) := by
  have hlocals : storeWords f.s c (f.locals c next) = .ok s1 := hs
  simp only [Fe.finish, hblk, places, hlocals, postAll, List.isEmpty_nil, Bool.true_or, untilD_true, if_true, List.foldl_nil, bind,
    Except.bind]

end

/-! ### The simple bytecodes (R387, R388) -/

section
variable {b : Bc} {f f1 f2 f3 f4 : Fe} {c : CoreId} {h v x : Nat}

theorem bcConstOp_plan (hcode : f.rd c (f.w c 17) 8 = .ok (h, f1)) (hn : b.opnd < field h 15 0)
    (htab : f1.rd c (f.w c 17 + 0x18) 8 = .ok (x, f2)) (hval : f2.rd c (x + 8 * b.opnd) 8 = .ok (v, f3))
    (hcount : (f3.push v).count c v true = .ok f4) : bcConstOp b f c = f4.finish c b.next 2 := by
  simp only [bcConstOp, hcode, if_neg (Nat.not_le.2 hn), htab, hval, hcount, bind, Except.bind]

section
variable (hcode : f.rd c (f.w c 17) 8 = .ok (h, f1)) (hn : b.opnd < field h 31 16)
include hcode hn

theorem beyondLocals_inside : beyondLocals b f c = .ok (false, f1) := by
  simp only [beyondLocals, hcode, decide_eq_false (Nat.not_le.2 hn), bind, Except.bind]

theorem bcLoadlOp_plan (hval : f1.word c (add64 (f1.w c 19) (8 * b.opnd)) = .ok v)
    (hcount : (f1.push v).count c v true = .ok f2) : bcLoadlOp b f c = f2.finish c b.next 1 := by
  simp only [bcLoadlOp, beyondLocals_inside hcode hn, Bool.false_eq_true, if_false, hval, hcount, bind, Except.bind]

theorem bcStorelOp_plan (hpop : f1.pop c = .ok (v, f2)) (hold : f2.word c (add64 (f1.w c 19) (8 * b.opnd)) = .ok x)
    (hcount : f2.count c x false = .ok f3) :
    bcStorelOp b f c = (f3.setLoc (add64 (f1.w c 19) (8 * b.opnd)) v).finish c b.next 1 := by
  simp only [bcStorelOp, beyondLocals_inside hcode hn, Bool.false_eq_true, if_false, hpop, hold, hcount, bind, Except.bind]

end

section
variable (hpeek : f.peek c 0 = .ok v)
include hpeek

theorem pop_peek : f.pop c = .ok (v, { f with sp := add64 f.sp (-8) }) := by
  simp only [Fe.pop, hpeek, bind, Except.bind]

theorem bcPopOp_plan (hcount : ({ f with sp := add64 f.sp (-8) } : Fe).count c v false = .ok f1) :
    bcPopOp b f c = f1.finish c b.next 1 := by
  simp only [bcPopOp, pop_peek hpeek, hcount, bind, Except.bind]

theorem bcDupOp_plan (hcount : (f.push v).count c v true = .ok f1) : bcDupOp b f c = f1.finish c b.next 1 := by
  simp only [bcDupOp, hpeek, hcount, bind, Except.bind]

theorem bcSwapOp_plan (hbelow : f.peek c 1 = .ok x) :
    bcSwapOp b f c = ((f.setLoc (add64 f.sp (-16)) v).setLoc (add64 f.sp (-8)) x).finish c b.next 1 := by
  simp only [bcSwapOp, hpeek, hbelow, bind, Except.bind]

variable (hplain : isRef v = false)
include hplain

theorem bcAwaitOp_plan : bcAwaitOp b f c = f.finish c b.next 1 := by
  simp only [bcAwaitOp, hpeek, hplain, Bool.not_false, if_true, bind, Except.bind]

theorem bcJumpIf_plan (sense : Bool) : bcJumpIf sense b f c = ({ f with sp := add64 f.sp (-8) } : Fe).finish c
    (if (v != 0 && v != 2 && v != 1) == sense then b.opnd else b.next) 1 := by
  simp only [bcJumpIf, hpeek, hplain, Bool.false_eq_true, if_false, pop_peek hpeek, bind, Except.bind]

/-- None, False and the small integer 0 are false. -/
theorem bcJumpIf_false (sense : Bool) (hv : v = 0 ∨ v = 1 ∨ v = 2) : bcJumpIf sense b f c =
    ({ f with sp := add64 f.sp (-8) } : Fe).finish c (if sense then b.next else b.opnd) 1 := by
  rw [bcJumpIf_plan hpeek hplain]
  obtain rfl | rfl | rfl := hv <;> cases sense <;> rfl

theorem bcJumpIf_true (sense : Bool) (h0 : v ≠ 0) (h1 : v ≠ 1) (h2 : v ≠ 2) : bcJumpIf sense b f c =
    ({ f with sp := add64 f.sp (-8) } : Fe).finish c (if sense then b.opnd else b.next) 1 := by
  have htrue : (v != 0 && v != 2 && v != 1) = true := by simp [h0, h1, h2]
  rw [bcJumpIf_plan hpeek hplain, htrue]
  cases sense <;> rfl

end
end

/-! ### Hits of the inline cache (R390, R391) -/

section
variable {b : Bc} {f f1 f2 f3 f4 f5 : Fe} {c : CoreId} {o v old way cost : Nat} (hpop : f.pop c = .ok (o, f1))
include hpop

theorem loadAttrHit_plan (hslot : f1.rd c (o + 16 + 8 * field way 11 0) 8 = .ok (v, f2))
    (hup : (f2.push v).count c v true = .ok f3) (hdown : f3.count c o false = .ok f4) :
    loadAttrHit b c way cost f = f4.finish c b.next cost := by
  simp only [loadAttrHit, hpop, hslot, hup, hdown, bind, Except.bind]

theorem storeAttrHit_plan (hval : f1.pop c = .ok (v, f2)) (hslot : f2.rd c (o + 16 + 8 * field way 11 0) 8 = .ok (old, f3))
    (hold : f3.count c old false = .ok f4) (hobj : f4.count c o false = .ok f5) :
    storeAttrHit b c way cost f = (f5.wr (o + 16 + 8 * field way 11 0) 8 v).finish c b.next cost := by
  simp only [storeAttrHit, hpop, hval, hslot, hold, hobj, bind, Except.bind]

theorem isinstHit_plan (hcount : f1.count c o false = .ok f2) :
    isinstHit b c way cost f = (f2.push (if bitAt way 0 then 4 else 2)).finish c b.next cost := by
  simp only [isinstHit, hpop, hcount, bind, Except.bind]

end

/-! ### Dispatches of cached bytecodes (R384, R391, Table 19-5) -/

/-- A lookup whose entry is of another version, bytecode or kind, or empty, goes to the routine with reason 1. -/
theorem cachedOp_miss {b : Bc} {f0 f : Fe} {c : CoreId} {k : Core} {s1 : State} {kind n h t : Nat} {xs : List Nat}
    {hit : Bc → CoreId → List Nat → Nat → Nat → Fe → FeOut} (hxs : f0.operands c n = .ok xs)
    (hcode : f0.rd c (f0.w c 17) 8 = .ok (h, f))
    (hmiss : let e := (icEntry (f.s.core c) ((f.w c 21 + b.slot) % 2048)).1
      field e 63 32 ≠ field h 63 32 ∨ field e 31 8 ≠ b.bpc ∨ field e 7 5 ≠ kind ∨ field e 4 3 = 0)
    (hwp : (f.s.core c).wp = k.wp) (ht : handlerEntry f.s c b.op = .ok t) (hc : checkTarget f.s c t = .ok ())
    (hs : storeWords f.s c (dispatchWords k b.next b.op b.opnd b.slot b.bpc 1) = .ok s1) :
    cachedOp kind n hit b f0 c = .ok (atRoutine s1 c t, 6) := by
  have htest : (field (icEntry (f.s.core c) ((f.w c 21 + b.slot) % 2048)).1 63 32 != field h 63 32 ||
      field (icEntry (f.s.core c) ((f.w c 21 + b.slot) % 2048)).1 31 8 != b.bpc ||
      field (icEntry (f.s.core c) ((f.w c 21 + b.slot) % 2048)).1 7 5 != kind ||
      field (icEntry (f.s.core c) ((f.w c 21 + b.slot) % 2048)).1 4 3 == 0) = true := by
    simpa only [Bool.or_eq_true, bne_iff_ne, beq_iff_eq, or_assoc] using hmiss
  simp only [cachedOp, hxs, cached, hcode, htest, if_true, Bc.dispatch, Bc.dispatchW, ht, bind, Except.bind]
  exact dispatchTo_at hc hwp hs

theorem operandHit_fast {b : Bc} {c : CoreId} {xs : List Nat} {npop way cost : Nat} {f : Fe} (hfast : bitAt way 25 = true) :
    operandHit b c xs npop true way cost f = fastPath b way xs npop f c := by
  rw [operandHit, if_pos hfast, if_pos rfl]

section
variable {i : Instr} {opnd kind n way j : Nat} {sl : BitVec 16} {s s1 : State} {f : Fe} {xs : List Nat}
  (hnative : bitAt way 25 = false) (htarget : checkTarget f.s s.cur (4 * field way 24 0) = .ok ())
  (hwp : (f.s.core s.cur).wp = (s.core s.cur).wp)
  (hstore : storeWords f.s s.cur (dispatchWords (s.core s.cur) (nextBpc i s) ((encodeBytecode i).headD 0) opnd sl.toNat
    (wReg (s.core s.cur) 16) 8) = .ok s1)
include hnative htarget hwp hstore

/-- A hit that goes to its way's native target, of a bytecode over n operands. -/
theorem operands_native {npop : Nat} {fast : Bool} (hl : lookupHits kind n none sl.toNat s xs way j f)
    (hx : exec i s = bytecodeOp i opnd sl.toNat 0 (cachedOp kind n (fun b c xs => operandHit b c xs npop fast)) s) :
    exec i s = .next (charged s (atRoutine s1 s.cur (4 * field way 24 0), hitCost j + 6)) :=
  hit_of hl hx (target_hit hnative hwp htarget hstore)

/-- The same of a call. -/
theorem call_native {x : Nat} (hl : lookupHits 1 n (some x) sl.toNat s xs way j f)
    (hx : exec i s = bytecodeOp i opnd sl.toNat 0 (fun b f c => callOp n b f c) s) :
    exec i s = .next (charged s (atRoutine s1 s.cur (4 * field way 24 0), hitCost j + 6)) :=
  callHit_of hl hx (target_hit hnative hwp htarget hstore)

end

/-- Settles O56: counts and writes, then bytecode by bytecode. -/
theorem bytecodeResults : Obligations.BytecodeResults := by
  unfold Obligations.BytecodeResults
  intro n sl o s s1 v x h f f2 f3 way j xs c k f0 at' slotOf
  refine ⟨fun hv => ⟨count_plain true hv, count_plain false hv⟩,
    fun hv ha hr hm hx => ⟨count_up hv ha hr hm hx, count_down hv ha hr hm hx, count_last hv ha hr hm hx⟩,
    fun next cost => finish_local,
    fun hf hcode hn htab hval f4 hcount => plan_of hf rfl (bcConstOp_plan hcode hn htab hval hcount),
    fun hf hcode hbase hn hval hcount => plan_of hf rfl (bcLoadlOp_plan hcode hn (by rw [hbase]; exact hval) hcount),
    fun hf hcode hbase hn hpop hold hcount => ?storel,
    fun hf hpeek hcount => plan_of hf rfl (bcPopOp_plan hpeek hcount),
    fun hf hpeek hcount => plan_of hf rfl (bcDupOp_plan hpeek hcount),
    fun hf hpeek hbelow => plan_of hf rfl (bcSwapOp_plan hpeek hbelow),
    fun hf => plan_of hf rfl rfl,
    fun hf hpeek hv => ⟨fun hfalse => ?jumpFalse, fun h0 h1 h2 => ?jumpTrue⟩,
    fun hf hpeek hv => plan_of hf rfl (bcAwaitOp_plan hpeek hv),
    fun hl hpop hslot f4 f5 hup hdown => hitPlan_of hl rfl (loadAttrHit_plan hpop hslot hup hdown),
    fun hl hpop hval f4 f5 f6 hslot hold hobj => hitPlan_of hl rfl (storeAttrHit_plan hpop hval hslot hold hobj),
    fun hl hpop hcount => hitPlan_of hl rfl (isinstHit_plan hpop hcount),
    fun i opnd kind m callee hi hl hnative htarget hwp hstore => ?native,
    fun r hl hfast hr => hit_of hl rfl ((operandHit_fast hfast).trans hr),
    fun t hf hxs hcode => ?miss⟩
  case storel =>
    refine plan_of hf rfl ((bcStorelOp_plan hcode hn hpop (by rw [hbase]; exact hold) hcount).trans ?_)
    rw [hbase]
  case jumpFalse =>
    exact ⟨plan_of hf rfl (bcJumpIf_false hpeek hv true hfalse), plan_of hf rfl (bcJumpIf_false hpeek hv false hfalse)⟩
  case jumpTrue =>
    exact ⟨plan_of hf rfl (bcJumpIf_true hpeek hv true h0 h1 h2), plan_of hf rfl (bcJumpIf_true hpeek hv false h0 h1 h2)⟩
  case native =>
    simp only [List.mem_cons, Prod.mk.injEq, List.not_mem_nil, or_false] at hi
    obtain ⟨rfl, rfl, rfl, rfl, rfl⟩ | ⟨rfl, rfl, rfl, rfl, rfl⟩ | ⟨rfl, rfl, rfl, rfl, rfl⟩ | ⟨rfl, rfl, rfl, rfl, rfl⟩ |
      ⟨rfl, rfl, rfl, rfl, rfl⟩ | ⟨rfl, rfl, rfl, rfl, rfl⟩ | ⟨rfl, rfl, rfl, rfl, rfl⟩ := hi
    · exact operands_native hnative htarget hwp hstore hl rfl
    · exact operands_native hnative htarget hwp hstore hl rfl
    · exact operands_native hnative htarget hwp hstore hl rfl
    · exact operands_native hnative htarget hwp hstore hl rfl
    · exact operands_native hnative htarget hwp hstore hl rfl
    · exact call_native hnative htarget hwp hstore hl rfl
    · exact call_native hnative htarget hwp hstore hl rfl
  case miss =>
    intro e hmiss hwp op ht hc hs
    exact bc_of (slot := sl.toNat) hf rfl (cachedOp_miss hxs hcode hmiss hwp ht hc hs)

end Sys2Proof.Proofs.BytecodeResults
end

section
/-!
PROOFS of 14_launch: `launch`, `trig`, `dwait`, `lwait` and `lstat`.
-/
namespace Sys2Proof.Proofs.LaunchInstructions

open Sys2Proof.Machine Sys2Proof.Safety Sys2Proof.Proofs.DeviceOperands

/-! ### launch (R283, R296) -/

section
variable {d a : Spec} {s : State} {v : Nat} {k : Core} (h : readsA (.launch d a) 1 s a v k) (hd : takesWord k d)
include h hd

/-- The checks and the launch of the record, on the core after the read of A. -/
theorem launchOp_body : launchOp d a s.cur (issuedState (.launch d a) 1 s) = (do
    needD (v % 8 == 0) .align 0 v
    needD (v + 128 ≤ k.top) .fabric 0 v
    untilD (!unreadyAt k v 128) (issuedState (.launch d a) 1 s)
    let (id, s2) ← launchRecord s.cur ((List.range 16).map (fun i => readLocal k (v + 8 * i) 8)) (s.setCore s.cur k)
      (issuedState (.launch d a) 1 s)
    dstZ s2 s.cur d id) := by
  obtain ⟨k', htrial⟩ := dstZ_trial (s := s) (c := s.cur) hd
  simp only [launchOp, srcZ_issued h.2, htrial, core_setCore, bind, Except.bind]

theorem launch_misaligned (hal : v % 8 ≠ 0) : traps (.launch d a) s { cause := .align, addr := v } := by
  refine traps_src (f := launchOp d a) rfl h ?_
  rw [launchOp_body h hd, needD_false (beq_false_of_ne hal)]
  rfl

variable (hal : v % 8 = 0)
include hal

theorem launch_outside (hfit : k.top < v + 128) : traps (.launch d a) s { cause := .fabric, addr := v } := by
  refine traps_src (f := launchOp d a) rfl h ?_
  rw [launchOp_body h hd, needD_true (beq_iff_eq.2 hal), needD_false (decide_eq_false (Nat.not_le.2 hfit))]
  rfl

variable (hfit : v + 128 ≤ k.top) (hready : unreadyAt k v 128 = false)
include hfit hready

/-- A record in reach answers what its launch answers. -/
theorem answers_launch {id : Nat} {s2 : State}
    (hrec : launchRecord s.cur ((List.range 16).map (fun i => readLocal k (v + 8 * i) 8)) (s.setCore s.cur k)
      (issuedState (.launch d a) 1 s) = .ok (id, s2)) : answers (.launch d a) s s2 d id := by
  refine answers_src (f := launchOp d a) rfl h ?_
  have hheld : (!unreadyAt k v 128) = true := congrArg not hready
  simp only [launchOp_body h hd, needD_true (beq_iff_eq.2 hal), needD_true (decide_eq_true hfit), untilD_true hheld, hrec, bind,
    Except.bind]

end

/-- An id: the queue at bit 48, and the context's count (R283). -/
theorem acceptLaunch_id (s : State) (ctx : Nat) (w : List Nat) (issuer : Option CoreId) (obj : Option Nat) :
    (acceptLaunch s ctx w issuer obj).2 = field (nth w 0 0) 11 8 * 2 ^ 48 + acceptedCount s ctx + 1 :=
  (Nat.add_assoc _ _ _).symm

section
variable {c : CoreId} {w : List Nat} {s sw : State}

theorem launchRecord_bad (hbad : recordValid w = false) : launchRecord c w s sw = .ok (2 ^ 63 + 8, s) := by
  simp only [launchRecord, hbad, Bool.not_false, if_true]

theorem launchRecord_accepts (hgood : recordValid w = true) (hrel : releaseReady (s.core c) = true)
    (hmay : mayLaunch s (s.core c).ctx (field (nth w 0 0) 11 8) = true) :
    launchRecord c w s sw = .ok (field (nth w 0 0) 11 8 * 2 ^ 48 + acceptedCount s (s.core c).ctx + 1,
      (acceptLaunch s (s.core c).ctx w (some c) (ownObject s c)).1) := by
  have hgo : (releaseReady (s.core c) && mayLaunch s (s.core c).ctx (field (nth w 0 0) 11 8)) = true := by rw [hrel, hmay]; rfl
  simp only [launchRecord, hgood, Bool.not_true, Bool.false_eq_true, if_false, untilD_true hgo, acceptLaunch_id, bind,
    Except.bind]

end

/-! ### trig (R293, R297) -/

theorem coreNumber_issued (i : Instr) (n : Nat) (s : State) :
    coreNumber s.cur (issued i n s) = coreNumber s.cur (s.core s.cur) := by
  simp only [coreNumber, issued, issue_logical]

theorem trig_counts {s : State} (h : ready .trig s) (hrel : releaseReady (s.core s.cur) = true) :
    exec .trig s = .next (markTrig (issuedState .trig 1 s) (s.core s.cur) s.cur) := by
  refine end0 rfl h ?_
  have hrel' : releaseReady (issued .trig 1 s) = true := (issued_rel ..).trans hrel
  simp only [issuedState_core, untilD_true hrel', markTrig, coreNumber_issued, bind, Except.bind]
  simp only [issued, issue_gang, issue_ctx, issue_launch]

/-! ### dwait (R298) -/

/-- The bits of four producers, as a sum. -/
theorem producerBits_sum (g : Nat → Nat) : ((List.range 4).map g).foldl (· + ·) 0 = g 0 + g 1 + g 2 + g 3 := by
  show 0 + g 0 + g 1 + g 2 + g 3 = _
  rw [Nat.zero_add]

theorem answers_dwait {d : Spec} {s : State} {l : Launch} (h : ready (.dwait d) s) (hd : takesWord (issued (.dwait d) 1 s) d)
    (hl : coreLaunch (issuedState (.dwait d) 1 s) (issued (.dwait d) 1 s) = some l)
    (hdone : ∀ p ∈ l.prod, producerDone (issuedState (.dwait d) 1 s) (issued (.dwait d) 1 s).ctx p = true) :
    let bit (i : Nat) : Nat :=
      bnat (producerBit (issuedState (.dwait d) 1 s) (issued (.dwait d) 1 s).ctx (nth l.prod i 0)) * 2 ^ i
    answers (.dwait d) s (issuedState (.dwait d) 1 s) d (bit 0 + bit 1 + bit 2 + bit 3) := by
  refine ansD rfl h hd ?_
  simp only [issuedState_core, hl, untilD_true (List.all_eq_true.2 hdone), producerBits_sum, bind, Except.bind]

/-! ### lwait, lstat (R299, R300) -/

section
variable {s : State} {ctx id : Nat}

theorem knownLaunch_outside (h : inWindow s ctx id = false) : knownLaunch s ctx id = none := by
  rw [knownLaunch, h]
  rfl

theorem knownLaunch_inside (h : inWindow s ctx id = true) : knownLaunch s ctx id = findLaunch s ctx id := if_pos h

theorem lwaitWord_over {l : Launch} (h : knownLaunch s ctx id = some l) (hover : l.over = true) :
    lwaitWord s ctx id = some (2 ^ 63 + (if l.st = .done then 0 else 2 ^ 62) + l.id % 2 ^ 52) := by
  simp only [lwaitWord, h, hover, if_true, mailWord]
  cases l.st <;> rfl

end

theorem answers_lwait {d a : Spec} {s : State} {v w : Nat} {k : Core} (h : readsA (.lwait d a) 1 s a v k) (hd : takesWord k d)
    (hw : lwaitWord s k.ctx v = some w) : answers (.lwait d a) s (s.setCore s.cur k) d w := by
  refine answers_src (f := lwaitOp d a) rfl h ?_
  obtain ⟨k', htrial⟩ := dstZ_trial (s := s) (c := s.cur) hd
  have hw' : lwaitWord (s.setCore s.cur k) k.ctx v = some w := hw
  simp only [lwaitOp, srcZ_issued h.2, htrial, core_setCore, hw', bind, Except.bind]

theorem answers_lstat {d a : Spec} {s : State} {v r : Nat} {k : Core} (h : readsA (.lstat d a) 1 s a v k) (hd : takesWord k d)
    (hr : lstatValue (s.setCore s.cur k) s.cur v = r) : answers (.lstat d a) s (s.setCore s.cur k) d r :=
  ansDA rfl h hd (by rw [hr])

section
variable {s : State} {c : CoreId} {k : Core} {v : Nat} (hv : v ≠ 0)
include hv

theorem lstatValue_launch {l : Launch} (hk : knownLaunch s k.ctx v = some l) :
    lstatValue (s.setCore c k) c v = l.stat := by
  have hk' : knownLaunch (s.setCore c k) k.ctx v = some l := hk
  simp only [lstatValue, if_neg hv, core_setCore, hk']

theorem lstatValue_outside (hk : knownLaunch s k.ctx v = none) : lstatValue (s.setCore c k) c v = 3 * 2 ^ 61 := by
  have hk' : knownLaunch (s.setCore c k) k.ctx v = none := hk
  simp only [lstatValue, if_neg hv, core_setCore, hk']

end

/-- Settles O48, instruction by instruction. -/
theorem launchInstructions : Obligations.LaunchInstructions := by
  unfold Obligations.LaunchInstructions
  intro d a s v k l c s1 w q
  refine ⟨fun h hd => ⟨fun hal hfit hready => ⟨fun hbad => ?bad, fun hgood hctf hctb hldo hatm hmay => ?accepted⟩,
      launch_misaligned h hd, launch_outside h hd⟩,
    fun h hctf hctb hldo hatm => trig_counts h (releaseReady_of hctf hctb hldo hatm), answers_dwait,
    fun h hd => ⟨fun hout => ?waitOutside, fun hin hl hover => ?waitOver⟩,
    fun h hd => ⟨fun hv => ?own, fun hv hin hl => ?status, fun hv hout => ?outside⟩⟩
  case bad => exact answers_launch h hd hal hfit hready (launchRecord_bad hbad)
  case accepted =>
    have hcore : s1.core c = k := core_setCore s c k
    have hrel : releaseReady (s1.core c) = true := hcore.symm ▸ releaseReady_of hctf hctb hldo hatm
    have hmay' : mayLaunch s1 (s1.core c).ctx q = true := by rwa [hcore]
    have hrec := answers_launch h hd hal hfit hready (launchRecord_accepts hgood hrel hmay')
    rwa [hcore] at hrec
  case waitOutside => exact answers_lwait h hd (by rw [lwaitWord, knownLaunch_outside hout])
  case waitOver => exact answers_lwait h hd (lwaitWord_over ((knownLaunch_inside hin).trans hl) hover)
  case own => exact answers_lstat h hd (if_pos hv)
  case status => exact answers_lstat h hd (lstatValue_launch hv ((knownLaunch_inside hin).trans hl))
  case outside => exact answers_lstat h hd (lstatValue_outside hv (knownLaunch_outside hout))

end Sys2Proof.Proofs.LaunchInstructions
end

section
/-!
PROOFS of 16_temper: `tmpr.get`, `tmpr.pick`, `tmpr.dem`, `tmpr.re` and `tmpr.ach`.
-/
namespace Sys2Proof.Proofs.TemperInstructions

open Sys2Proof.Machine Sys2Proof.Safety Sys2Proof.Proofs.DeviceOperands

/-! ### tmpr.get (R334, Table 16-5) -/

/-- The launch that the source of `tmpr.get` names; 0 names the core's own. -/
def namedLaunch (s : State) (c : CoreId) (v : Nat) : Nat := if field v 51 0 = 0 then ownLaunchId s c else field v 51 0

section
variable {s : State} {c : CoreId} {v : Nat}

theorem temperGet_unknown (h : knownLaunch s (s.core c).ctx (namedLaunch s c v) = none) : temperGet s c v = 0 := by
  rw [namedLaunch] at h
  simp only [temperGet, h]

section
variable {l : Launch} (h : knownLaunch s (s.core c).ctx (namedLaunch s c v) = some l)
include h

theorem temperGet_word (hsel : field v 63 60 = 0) : temperGet s c v = launchTemperWord s l := by
  rw [namedLaunch] at h
  simp only [temperGet, h, hsel]

theorem temperGet_latest (hsel : field v 63 60 = 1) : temperGet s c v = (latestOf s l.ctx l.id).elim 0 (·.id) := by
  rw [namedLaunch] at h
  simp only [temperGet, h, hsel]

theorem temperGet_other (hsel : 1 < field v 63 60) : temperGet s c v = 0 := by
  rw [namedLaunch] at h
  obtain ⟨n, hn⟩ : ∃ n, field v 63 60 = n + 2 := ⟨field v 63 60 - 2, by omega⟩
  simp only [temperGet, h, hn]

end
end

theorem answers_tmprGet {d a : Spec} {s : State} {v r : Nat} {k : Core} (h : readsA (.tmprGet d a) 1 s a v k)
    (hd : takesWord k d) (hz : field v 59 52 = 0) (hr : temperGet (s.setCore s.cur k) s.cur v = r) :
    answers (.tmprGet d a) s (s.setCore s.cur k) d r := by
  refine ansDA rfl h hd ?_
  simp only [needD_true (beq_iff_eq.2 hz), hr, bind, Except.bind]

/-! ### tmpr.pick (R328, R335) -/

section
variable {d a : Spec} {s : State} {v : Nat} {k : Core} (h : readsA (.tmprPick d a) 1 s a v k) (hd : takesWord k d)
include h hd

theorem answers_tmprPick (hok : pickOk v = true) :
    answers (.tmprPick d a) s (s.setCore s.cur k) d (pickWord k v) := by
  refine ansDA rfl h hd ?_
  simp only [needD_true hok, core_setCore, bind, Except.bind]

theorem traps_tmprPick (hbad : pickOk v = false) : traps (.tmprPick d a) s { cause := .undef, sub := 2 } := by
  refine trapDA rfl h hd ?_
  simp only [needD_false hbad, bind, Except.bind]

end

section
variable {k : Core} {v : Nat}

/-- The temper at which `tmpr.pick` chooses: the firing's own, or the one given. -/
def pickTemper (k : Core) (v : Nat) : Nat := if field v 4 3 = 0 then field (wsWord k 0x3B0) 7 0 else field v 15 8

theorem pickWord_iterations (h : field v 2 0 = 3) : pickWord k v =
    (chooseIters (pickTemper k v) (field v 31 16)).1 + (chooseIters (pickTemper k v) (field v 31 16)).2 * 2 ^ 8 := if_pos h

theorem pickWord_format (h : field v 2 0 ≠ 3) : pickWord k v =
    let r := choose (field v 2 0) (pickTemper k v) (field v 31 16) (field (wsWord k 0x3B0) 39 32)
    r.1 + r.2.1 * 2 ^ 8 + bnat r.2.2 * 2 ^ 63 := if_neg h

end

/-! ### tmpr.dem (R325, R336) -/

section
variable {s : State} {c : CoreId} {k : Core} {n : Nat}

theorem readSens_unplaced (h : coreLaunch (s.setCore c k) k = none) :
    readSens (s.setCore c k) c n = .ok (none, s.setCore c k) := by
  simp only [readSens, core_setCore, h]

section
variable {l : Launch} (h : coreLaunch (s.setCore c k) k = some l)
include h

theorem readSens_absent (ha : sensAddr (s.setCore c k) l n = none) :
    readSens (s.setCore c k) c n = .ok (none, s.setCore c k) := by
  simp only [readSens, core_setCore, h, ha]

theorem readSens_table {x w0 w1 : Nat} {s2 s3 : State} (ha : sensAddr (s.setCore c k) l n = some x)
    (h0 : readCode (s.setCore c k) c l x 8 = .ok w0 s2) (h1 : readCode s2 c l (x + 8) 8 = .ok w1 s3) :
    readSens (s.setCore c k) c n = .ok (some (sensOf w0 w1), s3) := by
  simp only [readSens, core_setCore, h, ha, h0, h1, Got.dev, bind, Except.bind]

end
end

/-- D takes the share; where bit 23 is set, so does the OWN field of the temper word. -/
theorem tmprDem_shares {d a : Spec} {s s2 : State} {v : Nat} {k k2 : Core} {t : Option Sens}
    (h : readsA (.tmprDem d a) 2 s a v k) (hd : takesWord k d) (hz : field v 22 19 = 0) (hv : v < 2 ^ 24)
    (ht : readSens (s.setCore s.cur k) s.cur (field v 15 8) = .ok (t, s2))
    (hk2 : writeDst (s2.core s.cur) .z64 d (share (field v 7 0) t (field v 18 16)) = .ok k2) :
    exec (.tmprDem d a) s = .next (s2.setCore s.cur (if bitAt v 23 then
      setWsWord k2 0x3B0 (setField (wsWord k2 0x3B0) 7 0 (share (field v 7 0) t (field v 18 16))) else k2)) := by
  refine end0 (f := tmprDemOp d a) rfl h.1 ?_
  obtain ⟨k', htrial⟩ := dstZ_trial (s := s) (c := s.cur) hd
  have hlayout : (field v 22 19 == 0 && decide (v < 2 ^ 24)) = true :=
    (Bool.and_eq_true _ _).mpr ⟨beq_iff_eq.2 hz, decide_eq_true hv⟩
  simp only [tmprDemOp, srcZ_issued h.2, htrial, needD_true hlayout, ht, dstZ_ok hk2, modCore_eq, core_setCore, setCore_setCore,
    apply_ite (s2.setCore s.cur), bind, Except.bind]

/-! ### tmpr.re (R331, R332, R337, Table 16-3) -/

section
variable {s : State} {ctx e t : Nat}

theorem reDemand_unknown (h : knownLaunch s ctx e = none) : reDemand s ctx e t = some (2 ^ 63 + 1, s) := by
  simp only [reDemand, h]

theorem reDemand_forgotten {l : Launch} (h : knownLaunch s ctx e = some l) (hold : retained s l = false) :
    reDemand s ctx e t = some (2 ^ 63 + 1, s) := by
  simp only [reDemand, h, hold, Bool.not_false, if_true]

theorem reDemand_refused {l : Launch} (h : knownLaunch s ctx e = some l) (hold : retained s l = true) (hst : l.st = .refused) :
    reDemand s ctx e t = some (2 ^ 63 + 2, s) := by
  have hrefused : (l.st == .refused) = true := beq_iff_eq.2 hst
  simp only [reDemand, h, hold, Bool.not_true, Bool.false_eq_true, if_false, hrefused, if_true]

end

section
variable {d a : Spec} {s s2 : State} {v r : Nat} {k : Core} (h : readsA (.tmprRe d a) 1 s a v k) (hd : takesWord k d)
  (hz : field v 55 52 = 0) (hrel : releaseReady k = true)
  (hre : reDemand (s.setCore s.cur k) k.ctx (field v 51 0) (field v 63 56) = some (r, s2))
include h hd hz hrel hre

/-- What the re-demand gives is answered; a launch that it names becomes a producer of the core's own. -/
theorem answers_tmprRe : answers (.tmprRe d a) s
    (if r < 2 ^ 63 then replaceProducers s2 (s2.core s.cur).ctx (s2.core s.cur).launch (field v 51 0) r else s2) d r := by
  refine answers_src (f := tmprReOp d a) rfl h ?_
  obtain ⟨k', htrial⟩ := dstZ_trial (s := s) (c := s.cur) hd
  simp only [tmprReOp, srcZ_issued h.2, htrial, needD_true (beq_iff_eq.2 hz), core_setCore, untilD_true hrel, hre, bind,
    Except.bind]

theorem answers_tmprRe_reason (hr : 2 ^ 63 ≤ r) : answers (.tmprRe d a) s s2 d r := by
  have hans := answers_tmprRe h hd hz hrel hre
  rwa [if_neg (Nat.not_lt.2 hr)] at hans

theorem answers_tmprRe_launch (hr : r < 2 ^ 63) : answers (.tmprRe d a) s
    (replaceProducers s2 (s2.core s.cur).ctx (s2.core s.cur).launch (field v 51 0) r) d r := by
  have hans := answers_tmprRe h hd hz hrel hre
  rwa [if_pos hr] at hans

end

/-! ### tmpr.ach (R329, R338) -/

section
variable {a : Spec} {s : State} {v : Nat} {k : Core} (h : readsA (.tmprAch a) 1 s a v k)
include h

theorem tmprAch_reports (hv : v < 256) : exec (.tmprAch a) s =
    .next (reportTemper (s.setCore s.cur k) k.ctx (ownLaunchId (s.setCore s.cur k) s.cur) v) := by
  refine endA rfl h ?_
  simp only [needD_true (decide_eq_true hv), core_setCore, bind, Except.bind]

theorem tmprAch_large (hv : 256 ≤ v) : traps (.tmprAch a) s { cause := .undef, sub := 2 } := by
  refine endA_trap rfl h ?_
  simp only [needD_false (decide_eq_false (Nat.not_lt.2 hv)), bind, Except.bind]

end

/-- Settles O52, instruction by instruction. -/
theorem temperInstructions : Obligations.TemperInstructions := by
  unfold Obligations.TemperInstructions
  intro d a s v k l c s1
  have hcore : s1.core c = k := core_setCore s c k
  refine ⟨fun h hd hz => ?get, fun h hd => ?pick, fun h hd hz hv => ?dem, fun h hd hz hctf hctb hldo hatm => ?re,
    fun h => ⟨tmprAch_reports h, tmprAch_large h⟩⟩
  case get =>
    intro id
    have hknown {x : Option Launch} (hx : knownLaunch s1 k.ctx id = x) :
        knownLaunch s1 (s1.core c).ctx (namedLaunch s1 c v) = x := by rwa [hcore]
    refine ⟨fun hno => answers_tmprGet h hd hz (temperGet_unknown (hknown hno)), fun hl => ⟨fun hsel => ?word,
      fun hsel => answers_tmprGet h hd hz (temperGet_latest (hknown hl) hsel),
      fun hsel => answers_tmprGet h hd hz (temperGet_other (hknown hl) hsel)⟩⟩
    case word => exact answers_tmprGet h hd hz (temperGet_word (hknown hl) hsel)
  case pick =>
    intro w t r n
    refine ⟨fun hok hcls => ?_, fun hok hcls => ?_, traps_tmprPick h hd⟩
    · have hans := answers_tmprPick h hd hok
      rwa [pickWord_format hcls] at hans
    · have hans := answers_tmprPick h hd hok
      rwa [pickWord_iterations hcls] at hans
  case dem =>
    intro shared
    have hshared {s2 : State} {t : Option Sens} (ht : readSens s1 c (field v 15 8) = .ok (t, s2)) : shared s2 t := by
      intro k2 hk2
      have hexec := tmprDem_shares h hd hz hv ht hk2
      exact ⟨fun hbit => by rw [hexec, hbit, if_neg Bool.false_ne_true], fun hbit => by rw [hexec, hbit, if_pos rfl]⟩
    exact ⟨fun hno => hshared (readSens_unplaced hno), fun hl ha => hshared (readSens_absent hl ha),
      fun x w0 s2 w1 s3 hl ha h0 h1 => hshared (readSens_table hl ha h0 h1)⟩
  case re =>
    intro e
    have hrel := releaseReady_of hctf hctb hldo hatm
    have hreason {r : Nat} (hr : 2 ^ 63 ≤ r) (hre : reDemand s1 k.ctx e (field v 63 56) = some (r, s1)) :
        answers (.tmprRe d a) s s1 d r := answers_tmprRe_reason h hd hz hrel hre hr
    exact ⟨fun hno => hreason (by omega) (reDemand_unknown hno),
      fun hl hold => hreason (by omega) (reDemand_forgotten hl hold),
      fun hl hold hst => hreason (by omega) (reDemand_refused hl hold hst),
      fun r s2 hre hr => answers_tmprRe_launch h hd hz hrel hre hr⟩

end Sys2Proof.Proofs.TemperInstructions
end

section
/-!
PROOFS of 15_saggars: `sgnew`, `sgatt`, `sgdet`, `sgrel`, `sgpin`, `sgevict` and `sgstat`.
-/
namespace Sys2Proof.Proofs.SaggarInstructions

open Sys2Proof.Machine Sys2Proof.Safety Sys2Proof.Proofs.DeviceOperands

/-- A state with an entry of the saggar table in place. -/
def withSag (x : State) (slot : Nat) (g : Saggar) : State := { x with saggars := ainsert slot g x.saggars }

section
variable (x : State) (slot : Nat) (c : CoreId) (k : Core)

theorem modSag_eq (f : Saggar → Saggar) : modSag x slot f = withSag x slot (f (sagOf x slot)) := rfl
theorem sagOf_setCore : sagOf (x.setCore c k) slot = sagOf x slot := rfl
theorem withSag_core (g : Saggar) : (withSag x slot g).core c = x.core c := rfl
theorem withSag_setCore (g : Saggar) : (withSag x slot g).setCore c k = withSag (x.setCore c k) slot g := rfl

end

/-! ### sgnew (R305, R307, R316) -/

section
variable {d a : Spec} {s : State} {v : Nat} {k : Core} (h : readsA (.sgnew d a) 1 s a v k) (hd : takesWord k d)
  (hfit : v + 64 ≤ topOf s.cur.cls) (hal : v % 8 = 0) (hready : unreadyAt k v 64 = false)

/-- The words of a descriptor in local store. -/
def descWords (k : Core) (v : Nat) : List Nat := (List.range 8).map (fun i => readLocal k (v + 8 * i) 8)

/-- The answers of `sgnew` for a descriptor, on a core with room in its table. -/
def sgnewAnswer (d : Spec) (c : CoreId) (s1 : State) (w : List Nat) (g : Saggar) : Dev State :=
  if !descOk s1 w g then dstZ s1 c d (2 ^ 63 + 5)
  else if (findSag s1 g.ctx g.name).isSome then dstZ s1 c d (2 ^ 63 + 1)
  else match freeSlot s1 with
    | none => dstZ s1 c d (2 ^ 63 + 2)
    | some slot =>
      if !sagLimits s1 g then dstZ s1 c d (2 ^ 63 + 3)
      else match pressure s1 (meetingSlots s1 g Saggar.reserves) with
        | none => dstZ s1 c d (2 ^ 63 + 4)
        | some (s2, true) =>
          if (partPlaces s2 g).length < g.parts then .error (.wait s2)
          else let r := createSag s2 c slot g; dstZ r.1 c d r.2
        | some (s2, false) => .error (.wait s2)

include h hd hfit hal hready

theorem sgnewOp_body : sgnewOp d a s.cur (issuedState (.sgnew d a) 1 s) = (do
    needD (k.att.length < 8) .attach 6 (nth (descWords k v) 0 0)
    sgnewAnswer d s.cur (s.setCore s.cur k) (descWords k v) (descSag k.ctx (descWords k v))) := by
  obtain ⟨k', htrial⟩ := dstZ_trial (s := s) (c := s.cur) hd
  rw [← core_setCore s s.cur k] at hready
  simp only [sgnewOp, srcZ_issued h.2, htrial, localRecord_ok hfit hal hready, core_setCore, bind, Except.bind]
  rfl

theorem sgnew_full (hfull : 8 ≤ k.att.length) :
    traps (.sgnew d a) s { cause := .attach, sub := 6, addr := nth (descWords k v) 0 0 } := by
  refine traps_src (f := sgnewOp d a) rfl h ?_
  rw [sgnewOp_body h hd hfit hal hready, needD_false (decide_eq_false (Nat.not_lt.2 hfull))]
  rfl

theorem answers_sgnew {s2 : State} {r : Nat} (hroom : k.att.length < 8)
    (hans : sgnewAnswer d s.cur (s.setCore s.cur k) (descWords k v) (descSag k.ctx (descWords k v)) = dstZ s2 s.cur d r) :
    answers (.sgnew d a) s s2 d r := by
  refine answers_src (f := sgnewOp d a) rfl h ?_
  rw [sgnewOp_body h hd hfit hal hready, needD_true (decide_eq_true hroom)]
  exact hans

end

section
variable {d : Spec} {c : CoreId} {s1 : State} {w : List Nat} {g : Saggar}

theorem sgnewAnswer_badDescriptor (h : descOk s1 w g = false) : sgnewAnswer d c s1 w g = dstZ s1 c d (2 ^ 63 + 5) := by
  rw [sgnewAnswer, h]
  rfl

variable (hok : descOk s1 w g = true)
include hok

theorem sgnewAnswer_named (h : (findSag s1 g.ctx g.name).isSome = true) :
    sgnewAnswer d c s1 w g = dstZ s1 c d (2 ^ 63 + 1) := by
  simp only [sgnewAnswer, hok, h, Bool.not_true, Bool.false_eq_true, if_false, if_true]

variable (hnew : findSag s1 g.ctx g.name = none)
include hnew

theorem sgnewAnswer_tableFull (h : freeSlot s1 = none) : sgnewAnswer d c s1 w g = dstZ s1 c d (2 ^ 63 + 2) := by
  simp only [sgnewAnswer, hok, hnew, h, Bool.not_true, Option.isSome_none, Bool.false_eq_true, if_false]

variable {slot : Nat} (hslot : freeSlot s1 = some slot)
include hslot

theorem sgnewAnswer_limits (h : sagLimits s1 g = false) : sgnewAnswer d c s1 w g = dstZ s1 c d (2 ^ 63 + 3) := by
  simp only [sgnewAnswer, hok, hnew, hslot, h, Bool.not_true, Bool.not_false, Option.isSome_none, Bool.false_eq_true, if_false,
    if_true]

variable (hlimits : sagLimits s1 g = true)
include hlimits

theorem sgnewAnswer_noBytes (h : pressure s1 (meetingSlots s1 g Saggar.reserves) = none) :
    sgnewAnswer d c s1 w g = dstZ s1 c d (2 ^ 63 + 4) := by
  simp only [sgnewAnswer, hok, hnew, hslot, hlimits, h, Bool.not_true, Option.isSome_none, Bool.false_eq_true, if_false]

theorem sgnewAnswer_creates {s2 : State} (h : pressure s1 (meetingSlots s1 g Saggar.reserves) = some (s2, true))
    (hplaces : g.parts ≤ (partPlaces s2 g).length) :
    sgnewAnswer d c s1 w g = dstZ (createSag s2 c slot g).1 c d (slot * 2 ^ 32 + ((sagOf s2 slot).inc + 1) % 2 ^ 32) := by
  simp only [sgnewAnswer, hok, hnew, hslot, hlimits, h, Nat.not_lt.2 hplaces, Bool.not_true, Option.isSome_none,
    Bool.false_eq_true, if_false]
  rfl

end

/-! ### sgatt (R307, R317) -/

theorem attachSag_eq (s : State) (c : CoreId) (k : Core) (slot : Nat) : attachSag (s.setCore c k) c slot =
    (withSag (s.setCore c { k with att := k.att ++ [{ slot := slot, inc := (sagOf s slot).inc, launch := k.lkey }] }) slot
      { sagOf s slot with att := (sagOf s slot).att + 1, lastAtt := s.cycle, expiry := s.cycle + 600000 * (sagOf s slot).lease },
    handleOf slot (sagOf s slot).inc) := by
  simp only [attachSag, modSag_eq, modCore_eq, withSag_core, withSag_setCore, core_setCore, setCore_setCore, sagOf_setCore,
    renewLease, setCore_cycle]

section
variable {d a : Spec} {s : State} {v : Nat} {k : Core} (h : readsA (.sgatt d a) 1 s a v k) (hd : takesWord k d)

/-- What `sgatt` does with a name, on a core with room in its table. -/
def sgattAnswer (d : Spec) (c : CoreId) (s s1 : State) (ctx name : Nat) : Dev State :=
  match findSag s1 ctx name with
  | none => trapD .attach 3 name
  | some slot =>
    let g := sagOf s1 slot
    match g.st with
    | 1 => let r := attachSag s1 c slot; dstZ r.1 c d r.2
    | 2 => .error (.wait s)
    | 3 =>
      if g.rest then trapD .attach 1 name
      else .error (.trapAt { cause := .attach, sub := 0, addr := name } (modSag s slot (fun g => { g with rest := true })))
    | _ => trapD .attach 2 name

include h hd

theorem sgattOp_body : sgattOp d a s.cur (issuedState (.sgatt d a) 1 s) = (do
    needD (k.att.length < 8) .attach 6 v
    sgattAnswer d s.cur (issuedState (.sgatt d a) 1 s) (s.setCore s.cur k) k.ctx v) := by
  obtain ⟨k', htrial⟩ := dstZ_trial (s := s) (c := s.cur) hd
  simp only [sgattOp, srcZ_issued h.2, htrial, core_setCore, bind, Except.bind]
  rfl

theorem sgatt_full (hfull : 8 ≤ k.att.length) : traps (.sgatt d a) s { cause := .attach, sub := 6, addr := v } := by
  refine traps_src (f := sgattOp d a) rfl h ?_
  rw [sgattOp_body h hd, needD_false (decide_eq_false (Nat.not_lt.2 hfull))]
  rfl

variable (hroom : k.att.length < 8)
include hroom

theorem sgattOp_answer : sgattOp d a s.cur (issuedState (.sgatt d a) 1 s) =
    sgattAnswer d s.cur (issuedState (.sgatt d a) 1 s) (s.setCore s.cur k) k.ctx v := by
  rw [sgattOp_body h hd, needD_true (decide_eq_true hroom)]
  rfl

theorem sgatt_unknown (hfind : findSag s k.ctx v = none) :
    traps (.sgatt d a) s { cause := .attach, sub := 3, addr := v } := by
  refine traps_src (f := sgattOp d a) rfl h ((sgattOp_answer h hd hroom).trans ?_)
  have hfind' : findSag (s.setCore s.cur k) k.ctx v = none := hfind
  simp only [sgattAnswer, hfind']
  rfl

variable {slot : Nat} (hfind : findSag s k.ctx v = some slot)
include hfind

/-- A resident saggar is attached, and its lease renewed. -/
theorem answers_sgatt (hst : (sagOf s slot).st = 1) : answers (.sgatt d a) s
    (withSag (s.setCore s.cur { k with att := k.att ++ [{ slot := slot, inc := (sagOf s slot).inc, launch := k.lkey }] }) slot
      { sagOf s slot with att := (sagOf s slot).att + 1, lastAtt := s.cycle, expiry := s.cycle + 600000 * (sagOf s slot).lease })
    d (slot * 2 ^ 32 + (sagOf s slot).inc) := by
  refine answers_src (f := sgattOp d a) rfl h ((sgattOp_answer h hd hroom).trans ?_)
  have hfind' : findSag (s.setCore s.cur k) k.ctx v = some slot := hfind
  have hst' : (sagOf (s.setCore s.cur k) slot).st = 1 := hst
  simp only [sgattAnswer, hfind', hst', attachSag_eq, handleOf]

theorem sgatt_restoring (hst : (sagOf s slot).st = 3) (hrest : (sagOf s slot).rest = true) :
    traps (.sgatt d a) s { cause := .attach, sub := 1, addr := v } := by
  refine traps_src (f := sgattOp d a) rfl h ((sgattOp_answer h hd hroom).trans ?_)
  have hfind' : findSag (s.setCore s.cur k) k.ctx v = some slot := hfind
  have hst' : (sagOf (s.setCore s.cur k) slot).st = 3 := hst
  have hrest' : (sagOf (s.setCore s.cur k) slot).rest = true := hrest
  simp only [sgattAnswer, hfind', hst', hrest', if_true]
  rfl

/-- An evicted saggar: the trap asks for its restore. -/
theorem sgatt_evicted (hst : (sagOf s slot).st = 3) (hrest : (sagOf s slot).rest = false) :
    ∃ t, t.saggars = ainsert slot { sagOf s slot with rest := true } s.saggars ∧ t.core s.cur = s.core s.cur ∧
      exec (.sgatt d a) s = .next (takeTrap t s.cur { cause := .attach, sub := 0, addr := v }
        (nth (encode (.sgatt d a)) 0 0) (nth (encode (.sgatt d a)) 1 0) (4 * (encode (.sgatt d a)).length) false) := by
  let asked := modSag (issuedState (.sgatt d a) 1 s) slot (fun g => { g with rest := true })
  have hfind' : findSag (s.setCore s.cur k) k.ctx v = some slot := hfind
  have hst' : (sagOf (s.setCore s.cur k) slot).st = 3 := hst
  have hrest' : (sagOf (s.setCore s.cur k) slot).rest = false := hrest
  have hstop : sgattOp d a s.cur (issuedState (.sgatt d a) 1 s) =
      .error (.trapAt { cause := .attach, sub := 0, addr := v } asked) := by
    rw [sgattOp_answer h hd hroom]
    simp only [sgattAnswer, hfind', hst', hrest', Bool.false_eq_true, if_false]
    rfl
  refine ⟨asked.setCore s.cur (s.core s.cur), rfl, core_setCore .., ?_⟩
  exact (nativeOp_ready (cost := fun _ => 1) (f := sgattOp d a) h.1).trans (by rw [hstop])

theorem sgatt_lost (hst : (sagOf s slot).st = 4) : traps (.sgatt d a) s { cause := .attach, sub := 2, addr := v } := by
  refine traps_src (f := sgattOp d a) rfl h ((sgattOp_answer h hd hroom).trans ?_)
  have hfind' : findSag (s.setCore s.cur k) k.ctx v = some slot := hfind
  have hst' : (sagOf (s.setCore s.cur k) slot).st = 4 := hst
  simp only [sgattAnswer, hfind', hst']
  rfl

end

/-! ### sgdet, sgrel, sgpin (R307, R313, R318, R319) -/

/-- A handle names the saggar that its slot holds. -/
def names (s : State) (h slot : Nat) : Prop :=
  h = slot * 2 ^ 32 + (sagOf s slot).inc ∧ slot < 2 ^ 13 ∧ (sagOf s slot).inc < 2 ^ 32

/-- The table of a core holds a saggar. -/
def attached (s : State) (k : Core) (slot : Nat) : Prop :=
  k.att.any (fun u => u.slot == slot && u.inc == (sagOf s slot).inc) = true

section
variable {s : State} {c : CoreId} {v slot : Nat} {k : Core}

theorem handleCheck_passes (hname : names s v slot) (hatt : attached s k slot) :
    handleCheck (s.setCore c k) c v = .ok slot := by
  obtain ⟨hv, hslot, hinc⟩ := hname
  exact handle_ok (s := s.setCore c k) hv hslot hinc (by rw [core_setCore]; exact hatt)

theorem handleCheck_detached (hname : names s v slot) (hatt : ¬ attached s k slot) :
    handleCheck (s.setCore c k) c v = .error (.trap { cause := .attach, sub := 5, addr := (sagOf s slot).name }) := by
  obtain ⟨hv, hslot, hinc⟩ := hname
  exact handle_other (s := s.setCore c k) hv hslot hinc (by rw [core_setCore]; exact hatt)

theorem releaseWait_passes (h : releaseReady k = true) : releaseWait (s.setCore c k) c = .ok () := by
  rw [releaseWait, core_setCore, untilD_true h]

end

section
variable {a : Spec} {s : State} {v slot : Nat} {k : Core} (h : readsA (.sgdet a) 1 s a v k)
include h

theorem sgdet_detaches (hname : names s v slot) (hatt : attached s k slot) (hrel : releaseReady k = true) :
    exec (.sgdet a) s = .next (withSag (s.setCore s.cur (dropAttach k slot)) slot
      (if (sagOf s slot).st = 4 ∧ (sagOf s slot).att - 1 = 0 then { inc := (sagOf s slot).inc }
       else { sagOf s slot with att := (sagOf s slot).att - 1 })) := by
  refine endA rfl h ?_
  simp only [handleCheck_passes hname hatt, releaseWait_passes hrel, bind, Except.bind]
  simp only [detachSag, modSag_eq, modCore_eq, withSag_core, withSag_setCore, core_setCore, setCore_setCore, sagOf_setCore]
  rfl

theorem sgdet_stale (hlayout : v / 2 ^ 45 = 0) (hslot : v / 2 ^ 32 = slot) (hinc : v % 2 ^ 32 ≠ (sagOf s slot).inc) :
    traps (.sgdet a) s { cause := .attach, sub := 4, addr := (sagOf s slot).name } := by
  refine endA_trap rfl h ?_
  simp only [handle_stale (s := s.setCore s.cur k) hlayout hslot hinc, bind, Except.bind]
  rfl

theorem sgdet_detached (hname : names s v slot) (hatt : ¬ attached s k slot) :
    traps (.sgdet a) s { cause := .attach, sub := 5, addr := (sagOf s slot).name } := by
  refine endA_trap rfl h ?_
  simp only [handleCheck_detached hname hatt, bind, Except.bind]

end

section
variable {a b : Spec} {s : State} {v w slot : Nat} {k : Core} (hname : names s v slot) (hatt : attached s k slot)
include hname hatt

theorem sgrel_releases (h : readsAB (.sgrel a b) 1 s a b v w k) (hrel : releaseReady k = true) (hw : w < 2 ^ 9) :
    exec (.sgrel a b) s = .next (withSag (s.setCore s.cur k) slot { sagOf s slot with
      gen := ((sagOf s slot).gen + 1) % 2 ^ 32, ttag := if bitAt w 8 then w % 256 else (sagOf s slot).ttag,
      expiry := s.cycle + 600000 * (sagOf s slot).lease }) := by
  refine endAB rfl h ?_
  simp only [needD_true (mask_ok hw), handleCheck_passes hname hatt, releaseWait_passes hrel, bind, Except.bind]
  rfl

section
variable (h : readsAB (.sgpin a b) 1 s a b v w k) (hlayout : (w % 4 != 3 && field w 15 2 == 0 && w / 2 ^ 32 == 0 &&
  (if w % 4 = 1 then field w 31 16 != 0 else field w 31 16 == 0)) = true)
include h hlayout

/-- Pinning takes bytes of the context's limit; no other lifetime does. -/
theorem sgpinOp_body : sgpinOp a b s.cur (issuedState (.sgpin a b) 1 s) = (do
    needD (!(w % 4 == 0 && (sagOf s slot).life != 0 && decide (pinLimit s (sagOf s slot).ctx <
      pinnedBytes s (sagOf s slot).ctx + (sagOf s slot).parts * (sagOf s slot).psize))) .priv 0x30
    .ok (withSag (s.setCore s.cur k) slot (if w % 4 = 1 then renewLease s { sagOf s slot with life := 1, lease := field w 31 16 }
      else { sagOf s slot with life := w % 4 }))) := by
  obtain ⟨-, k0, ha, hb⟩ := h
  simp only [sgpinOp, opAB_eq ha hb, needD_true hlayout, handleCheck_passes hname hatt, bind, Except.bind]
  rfl

theorem sgpin_sets (hlimit : ¬ (w % 4 = 0 ∧ (sagOf s slot).life ≠ 0 ∧ pinLimit s (sagOf s slot).ctx <
      pinnedBytes s (sagOf s slot).ctx + (sagOf s slot).parts * (sagOf s slot).psize)) :
    exec (.sgpin a b) s = .next (withSag (s.setCore s.cur k) slot
      (if w % 4 = 1 then renewLease s { sagOf s slot with life := 1, lease := field w 31 16 }
       else { sagOf s slot with life := w % 4 })) := by
  have hfits : (!(w % 4 == 0 && (sagOf s slot).life != 0 && decide (pinLimit s (sagOf s slot).ctx <
      pinnedBytes s (sagOf s slot).ctx + (sagOf s slot).parts * (sagOf s slot).psize))) = true := by
    rw [Bool.not_eq_true', ← Bool.not_eq_true, Bool.and_eq_true, Bool.and_eq_true, beq_iff_eq, bne_iff_ne, decide_eq_true_iff,
      and_assoc]
    exact hlimit
  refine end0 (f := sgpinOp a b) rfl h.1 ((sgpinOp_body hname hatt h hlayout).trans ?_)
  rw [needD_true hfits]
  rfl

theorem sgpin_overLimit (hzero : w % 4 = 0) (hlife : (sagOf s slot).life ≠ 0) (hover : pinLimit s (sagOf s slot).ctx <
      pinnedBytes s (sagOf s slot).ctx + (sagOf s slot).parts * (sagOf s slot).psize) :
    traps (.sgpin a b) s { cause := .priv, sub := 0x30 } := by
  refine end0_trap (f := sgpinOp a b) rfl h.1 ((sgpinOp_body hname hatt h hlayout).trans ?_)
  rw [hzero, bne_iff_ne.2 hlife, decide_eq_true hover]
  rfl

end
end

/-- The layouts of the word of `sgpin`: a lease with lifetime 1 alone. -/
theorem pinLayout {w : Nat} (hw : w < 2 ^ 32) (hzero : field w 15 2 = 0)
    (h : w % 4 = 1 ∧ field w 31 16 ≠ 0 ∨ (w % 4 = 0 ∨ w % 4 = 2) ∧ field w 31 16 = 0) :
    (w % 4 != 3 && field w 15 2 == 0 && w / 2 ^ 32 == 0 &&
      (if w % 4 = 1 then field w 31 16 != 0 else field w 31 16 == 0)) = true := by
  rw [Nat.div_eq_of_lt hw, hzero]
  obtain ⟨hlife, hlease⟩ | ⟨hlife | hlife, hlease⟩ := h
  · rw [hlife, if_pos rfl, bne_iff_ne.2 hlease]
    rfl
  · rw [hlife, hlease]
    rfl
  · rw [hlife, hlease]
    rfl

/-! ### sgevict, sgstat (R309, R310, R320, R321) -/

section
variable {s : State} {slot : Nat}

theorem evictSag_backed (hwb : (sagOf s slot).wb = true) : evictSag s slot = withSag s slot { sagOf s slot with st := 2 } :=
  if_pos hwb

theorem evictSag_dropped (hwb : (sagOf s slot).wb = false) (hatt : (sagOf s slot).att = 0) :
    evictSag s slot = withSag s slot { inc := (sagOf s slot).inc } := by
  rw [evictSag, hwb, if_neg Bool.false_ne_true, sags_loseSag, if_pos hatt]
  rfl

end

section
variable {d a : Spec} {s : State} {v : Nat} {k : Core} (h : readsA (.sgevict d a) 1 s a v k) (hd : takesWord k d)
include h hd

theorem answers_sgevict_unknown (hfind : findSag s k.ctx v = none) :
    answers (.sgevict d a) s (s.setCore s.cur k) d 3 := by
  refine ansDA rfl h hd ?_
  have hfind' : findSag (s.setCore s.cur k) k.ctx v = none := hfind
  simp only [core_setCore, hfind']

variable {slot : Nat} (hfind : findSag s k.ctx v = some slot)
include hfind

theorem answers_sgevict {r : Nat} {s2 : State} (hans : (if (sagOf s slot).st = 4 then (2, s.setCore s.cur k)
    else if (sagOf s slot).st = 2 ∨ (sagOf s slot).st = 3 then (0, s.setCore s.cur k)
    else if 0 < (sagOf s slot).att then (1, s.setCore s.cur k)
    else (0, evictSag (s.setCore s.cur k) slot)) = (r, s2)) : answers (.sgevict d a) s s2 d r := by
  refine ansDA rfl h hd ?_
  have hfind' : findSag (s.setCore s.cur k) k.ctx v = some slot := hfind
  simp only [core_setCore, hfind', sagOf_setCore, ← hans, apply_ite Except.ok]
  rfl

theorem answers_sgevict_under (hst : (sagOf s slot).st = 2 ∨ (sagOf s slot).st = 3) :
    answers (.sgevict d a) s (s.setCore s.cur k) d 0 := by
  refine answers_sgevict h hd hfind ?_
  rw [if_neg (by omega), if_pos hst]

variable (hst : (sagOf s slot).st = 1)
include hst

theorem answers_sgevict_attached (hatt : 0 < (sagOf s slot).att) : answers (.sgevict d a) s (s.setCore s.cur k) d 1 := by
  refine answers_sgevict h hd hfind ?_
  rw [if_neg (by omega), if_neg (by omega), if_pos hatt]

variable (hatt : (sagOf s slot).att = 0)
include hatt

theorem answers_sgevict_evicts : answers (.sgevict d a) s (evictSag (s.setCore s.cur k) slot) d 0 := by
  refine answers_sgevict h hd hfind ?_
  rw [if_neg (by omega), if_neg (by omega), if_neg (by omega)]

theorem answers_sgevict_backed (hwb : (sagOf s slot).wb = true) :
    answers (.sgevict d a) s (withSag (s.setCore s.cur k) slot { sagOf s slot with st := 2 }) d 0 := by
  have hans := answers_sgevict_evicts h hd hfind hst hatt
  rwa [evictSag_backed (s := s.setCore s.cur k) hwb] at hans

theorem answers_sgevict_dropped (hwb : (sagOf s slot).wb = false) :
    answers (.sgevict d a) s (withSag (s.setCore s.cur k) slot { inc := (sagOf s slot).inc }) d 0 := by
  have hans := answers_sgevict_evicts h hd hfind hst hatt
  rwa [evictSag_dropped (s := s.setCore s.cur k) hwb hatt] at hans

end

/-- The layout of the source of `sgstat`. -/
theorem statLayout {v : Nat} (hv : v < 2 ^ 51) (hzero : field v 47 45 = 0) :
    (v / 2 ^ 51 == 0 && field v 47 45 == 0) = true :=
  (Bool.and_eq_true _ _).mpr ⟨mask_ok hv, beq_iff_eq.2 hzero⟩

section
variable {d a : Spec} {s : State} {v slot : Nat} {k : Core} (h : readsA (.sgstat d a) 1 s a v k) (hd : takesWord k d)
  (hv : v < 2 ^ 51) (hzero : field v 47 45 = 0) (hslot : field v 44 32 = slot)
include h hd hv hzero hslot

theorem answers_sgstat (hinc : v % 2 ^ 32 = (sagOf s slot).inc) :
    answers (.sgstat d a) s (s.setCore s.cur k) d (saggarWord (sagOf s slot) (field v 50 48)) := by
  refine ansDA rfl h hd ?_
  have hsame : ((sagOf s slot).inc == v % 2 ^ 32) = true := beq_iff_eq.2 hinc.symm
  simp only [needD_true (statLayout hv hzero), hslot, sagOf_setCore, needD_true hsame, bind, Except.bind]

theorem sgstat_stale (hinc : v % 2 ^ 32 ≠ (sagOf s slot).inc) :
    traps (.sgstat d a) s { cause := .attach, sub := 4, addr := (sagOf s slot).name } := by
  refine trapDA rfl h hd ?_
  have hdiff : ((sagOf s slot).inc == v % 2 ^ 32) = false := beq_false_of_ne (Ne.symm hinc)
  simp only [needD_true (statLayout hv hzero), hslot, sagOf_setCore, needD_false hdiff, bind, Except.bind]

end

/-- Settles O50, instruction by instruction. -/
theorem saggarInstructions : Obligations.SaggarInstructions := by
  unfold Obligations.SaggarInstructions
  intro d a b s v w k slot c s1 g withSag' handle holds released
  have hrelease (h : released) : releaseReady k = true := releaseReady_of h.1 h.2.1 h.2.2.1 h.2.2.2
  refine ⟨fun h hd hfit hal hready => ?new,
    fun h hd => ⟨sgatt_full h hd, fun hroom => ⟨sgatt_unknown h hd hroom, fun hfind => ⟨answers_sgatt h hd hroom hfind,
      sgatt_restoring h hd hroom hfind, sgatt_evicted h hd hroom hfind, sgatt_lost h hd hroom hfind⟩⟩⟩,
    fun h => ⟨fun hname hatt hrel => sgdet_detaches h hname hatt (hrelease hrel), sgdet_stale h, sgdet_detached h⟩,
    fun h hname hatt hrel hw => sgrel_releases hname hatt h (hrelease hrel) hw,
    fun h hname hatt hw hzero => ?pin,
    fun h hd => ⟨answers_sgevict_unknown h hd, fun hfind => ?evict⟩,
    fun h hd hv hzero hslot => ⟨answers_sgstat h hd hv hzero hslot, sgstat_stale h hd hv hzero hslot⟩⟩
  case new =>
    intro ws n
    refine ⟨sgnew_full h hd hfit hal hready, fun hroom => ?_⟩
    have hans {r : Nat} {s2 : State} (hr : sgnewAnswer d c s1 ws n = dstZ s2 c d r) : answers (.sgnew d a) s s2 d r :=
      answers_sgnew h hd hfit hal hready hroom hr
    exact ⟨fun hbad => hans (sgnewAnswer_badDescriptor hbad), fun hok => ⟨fun hnamed => hans (sgnewAnswer_named hok hnamed),
      fun hnew => ⟨fun hfull => hans (sgnewAnswer_tableFull hok hnew hfull), fun hslot =>
        ⟨fun hlim => hans (sgnewAnswer_limits hok hnew hslot hlim), fun hlim =>
          ⟨fun hbytes => hans (sgnewAnswer_noBytes hok hnew hslot hlim hbytes),
            fun s2 hbytes hplaces => hans (sgnewAnswer_creates hok hnew hslot hlim hbytes hplaces)⟩⟩⟩⟩⟩
  case pin =>
    intro lease
    refine ⟨fun hlife hlease => ?_, fun hlife hlease => ?_, fun hlife hlease hfits => ?_,
      fun hlife hlease hpinned hover => ?_⟩
    · have hset := sgpin_sets hname hatt h (pinLayout hw hzero (.inl ⟨hlife, hlease⟩)) (fun hno => by omega)
      rwa [if_pos hlife] at hset
    · have hset := sgpin_sets hname hatt h (pinLayout hw hzero (.inr ⟨.inr hlife, hlease⟩)) (fun hno => by omega)
      rwa [hlife] at hset
    · have hset := sgpin_sets hname hatt h (pinLayout hw hzero (.inr ⟨.inl hlife, hlease⟩))
        (fun hno => hfits.elim hno.2.1 (Nat.not_le.2 hno.2.2))
      rwa [hlife] at hset
    · exact sgpin_overLimit hname hatt h (pinLayout hw hzero (.inr ⟨.inl hlife, hlease⟩)) hlife hpinned hover
  case evict =>
    exact ⟨fun hst => answers_sgevict h hd hfind (if_pos hst), answers_sgevict_under h hd hfind,
      answers_sgevict_attached h hd hfind, answers_sgevict_backed h hd hfind, answers_sgevict_dropped h hd hfind⟩

end Sys2Proof.Proofs.SaggarInstructions
end

section
/-!
PROOFS of 20_serving: sequences, the launch token and the deckle units.
-/
namespace Sys2Proof.Proofs.ServingAndDeckle

open Sys2Proof.Machine Sys2Proof.Safety Sys2Proof.Proofs.DeviceOperands

/-! ### The block that A names -/

/-- The block on a core that stands at k. -/
theorem servBlock_ok {c : CoreId} {s : State} {k : Core} {v n : Nat} (hfit : v + n ≤ topOf c.cls) (hal : v % 8 = 0)
    (hready : unreadyAt k v n = false) : servBlock c (s.setCore c k) v n = .ok (localWords k v (n / 8)) := by
  rw [servBlock, localRecord_ok hfit hal (by rwa [core_setCore]), core_setCore]
  rfl

/-- A word of a block, by its number. -/
theorem nth_localWords {n i : Nat} (k : Core) (v : Nat) (h : i < n) :
    nth (localWords k v n) i 0 = readLocal k (v + 8 * i) 8 := Sys2Proof.Proofs.KilnEvents.nth_map_range _ _ h

/-! ### Rights (R421) -/

section
variable {s : State} {c : CoreId} {k : Core} {q : Nat} {write : Bool}

theorem seqRight_ok (hright : ctxRight s k.ctx 2 write = true) (hown : seqState s q = 0 ∨ seqCtx s q = k.ctx) :
    seqRight (s.setCore c k) c q write = .ok () := by
  refine needD_true ?_
  rw [core_setCore]
  refine (Bool.and_eq_true _ _).mpr ⟨hright, ?_⟩
  rw [Bool.or_eq_true, beq_iff_eq, beq_iff_eq]
  exact hown

theorem seqRight_trap (hno : ctxRight s k.ctx 2 write = false ∨ (seqState s q ≠ 0 ∧ seqCtx s q ≠ k.ctx)) :
    seqRight (s.setCore c k) c q write = .error (.trap { cause := .priv, sub := 0x50 }) := by
  refine needD_false ?_
  rw [core_setCore]
  show (ctxRight s k.ctx 2 write && (seqState s q == 0 || seqCtx s q == k.ctx)) = false
  obtain hright | ⟨hst, hctx⟩ := hno
  · rw [hright, Bool.false_and]
  · rw [beq_false_of_ne hst, beq_false_of_ne hctx, Bool.or_self, Bool.and_false]

theorem servRight_setCore (write : Bool) :
    servRight (s.setCore c k) c write = needD (ctxRight s k.ctx 4 write) .priv 0x50 := by
  rw [servRight, core_setCore]
  rfl

/-- The token stands with the core where the issuing context's word says so. -/
theorem holds_iff {i : Nat} : (tokenHeld s k.ctx && tokenHolder s k.ctx == i) = true ↔
    tokenHeld s k.ctx = true ∧ tokenHolder s k.ctx = i := by
  rw [Bool.and_eq_true, beq_iff_eq]

end

/-! ### Sequences (R409-R411) -/

section
variable {d a : Spec} {s : State} {v : Nat} {k : Core}

section
variable (h : readsA (.sqRd d a) 1 s a v k) (hd : takesWord k d) (hres : field v 15 13 = 0) (hlim : v < 2 ^ 22)
include h hd hres hlim

theorem answers_sqRd (hright : ctxRight s k.ctx 2 false = true)
    (hown : seqState s (field v 12 0) = 0 ∨ seqCtx s (field v 12 0) = k.ctx) :
    answers (.sqRd d a) s (s.setCore s.cur k) d (seqWord s (field v 12 0) (8 * field v 21 16)) := by
  refine ansDA rfl h hd ?_
  have hgood : (field v 15 13 == 0 && decide (v < 2 ^ 22)) = true := by rw [hres, decide_eq_true hlim]; rfl
  simp only [needD_true hgood, seqRight_ok hright hown, bind, Except.bind]
  rfl

theorem sqRd_traps (hno : ctxRight s k.ctx 2 false = false ∨ (seqState s (field v 12 0) ≠ 0 ∧ seqCtx s (field v 12 0) ≠ k.ctx)) :
    traps (.sqRd d a) s { cause := .priv, sub := 0x50 } := by
  refine trapDA rfl h hd ?_
  have hgood : (field v 15 13 == 0 && decide (v < 2 ^ 22)) = true := by rw [hres, decide_eq_true hlim]; rfl
  simp only [needD_true hgood, seqRight_trap hno, bind, Except.bind]

end

/-- `sq.wr` past its checks: the operation that the block asks for. -/
theorem sqWr_operates (h : readsA (.sqWr d a) 1 s a v k) (hd : takesWord k d) (hfit : v + 16 ≤ topOf s.cur.cls) (hal : v % 8 = 0)
    (hready : unreadyAt k v 16 = false) (hright : ctxRight s k.ctx 2 true = true)
    (hown : seqState s (field (readLocal k (v + 8 * 0) 8) 12 0) = 0 ∨
      seqCtx s (field (readLocal k (v + 8 * 0) 8) 12 0) = k.ctx) (hrel : releaseReady k = true) :
    sqWrOp d a s.cur (issuedState (.sqWr d a) 1 s) =
      match seqOperation (s.setCore s.cur k) (field (readLocal k (v + 8 * 0) 8) 12 0) (field (readLocal k (v + 8 * 0) 8) 18 16)
        (field (readLocal k (v + 8 * 0) 8) 29 24) (readLocal k (v + 8 * 1) 8) with
      | .ok s2 => dstZ s2 s.cur d (seqWord s2 (field (readLocal k (v + 8 * 0) 8) 12 0) 0)
      | .error e => dstZ (s.setCore s.cur k) s.cur d (2 ^ 63 + e) := by
  obtain ⟨k', htrial⟩ := dstZ_trial (s := s) (c := s.cur) hd
  simp only [sqWrOp, srcZ_issued h.2, htrial, servBlock_ok hfit hal hready, nth_localWords k v (show 0 < 16 / 8 by decide),
    nth_localWords k v (show 1 < 16 / 8 by decide), seqRight_ok hright hown, core_setCore, untilD_true hrel, bind,
    Except.bind] <;> rfl

/-- `sq.build` past its checks: the plan, where the core holds the token. -/
theorem sqBuild_plans (h : readsA (.sqBuild d a) 1 s a v k) (hd : takesWord k d) (hfit : v + 32 ≤ topOf s.cur.cls)
    (hal : v % 8 = 0) (hready : unreadyAt k v 32 = false) (hright : ctxRight s k.ctx 2 true = true)
    (hmine : ctxRight s k.ctx 4 true = true) (hrel : releaseReady k = true) :
    let w0 := readLocal k (v + 8 * 0) 8
    let w1 := readLocal k (v + 8 * 1) 8
    let s1 := s.setCore s.cur k
    sqBuildOp d a s.cur (issuedState (.sqBuild d a) 1 s) =
      if !(tokenHeld s1 k.ctx && tokenHolder s1 k.ctx == s.cur.idx) || !buildOk w0 w1 then dstZ s1 s.cur d (2 ^ 63 + 1)
      else
        let b := buildStep s1 k.ctx (field w0 63 48) (field w0 47 32) (field w0 31 16)
        let bs := planBytes (tokenStep s1 k.ctx) b
        if 0x12000 < field w1 16 0 + bs.length then dstZ s1 s.cur d (2 ^ 63 + 1)
        else (do
          let k2 ← ofCore s1 (storeAt (b.s.core s.cur) (field w1 16 0) bs)
          dstZ (b.s.setCore s.cur k2) s.cur d (ofBytes (bs.take 8))) := by
  intro w0 w1 s1
  obtain ⟨k', htrial⟩ := dstZ_trial (s := s) (c := s.cur) hd
  have hwrite : ctxRight (s.setCore s.cur k) k.ctx 2 true = true := hright
  simp only [sqBuildOp, srcZ_issued h.2, htrial, servBlock_ok hfit hal hready, servRight_setCore,
    nth_localWords k v (show 0 < 32 / 8 by decide), nth_localWords k v (show 1 < 32 / 8 by decide), core_setCore,
    needD_true hwrite, needD_true hmine, untilD_true hrel, bind, Except.bind]
  rfl

end

/-! ### The token (R413) -/

section
variable {d : Spec} {s : State}

theorem ltokWait_traps (h : ready (.ltokWait d) s) (hd : takesWord (issued (.ltokWait d) 1 s) d)
    (hno : ctxRight s (issued (.ltokWait d) 1 s).ctx 4 false = false) :
    traps (.ltokWait d) s { cause := .priv, sub := 0x50 } := by
  refine endD_trap rfl h hd ?_
  simp only [issuedState, servRight_setCore, needD_false hno, bind, Except.bind]

section
variable (h : ready (.ltokWait d) s) (hd : takesWord (issued (.ltokWait d) 1 s) d)
  (hright : ctxRight s (issued (.ltokWait d) 1 s).ctx 4 false = true)
include h hd hright

theorem answers_ltokWait_absent (hpart : bitAt (servPart s (issued (.ltokWait d) 1 s).ctx) s.cur.idx = false) :
    answers (.ltokWait d) s (issuedState (.ltokWait d) 1 s) d (2 ^ 63) := by
  refine ansD rfl h hd ?_
  have hpart' : (!bitAt (servPart (s.setCore s.cur (issued (.ltokWait d) 1 s)) (issued (.ltokWait d) 1 s).ctx)
      s.cur.idx) = true :=
    congrArg not hpart
  simp only [issuedState, servRight_setCore, needD_true hright, core_setCore, hpart', if_true, bind, Except.bind]

theorem answers_ltokWait_holder (hpart : bitAt (servPart s (issued (.ltokWait d) 1 s).ctx) s.cur.idx = true)
    (hheld : tokenHeld s (issued (.ltokWait d) 1 s).ctx = true)
    (hholder : tokenHolder s (issued (.ltokWait d) 1 s).ctx = s.cur.idx) :
    answers (.ltokWait d) s (issuedState (.ltokWait d) 1 s) d (tokenStep s (issued (.ltokWait d) 1 s).ctx) := by
  refine ansD rfl h hd ?_
  have hpart' : (!bitAt (servPart (s.setCore s.cur (issued (.ltokWait d) 1 s)) (issued (.ltokWait d) 1 s).ctx)
      s.cur.idx) = false :=
    congrArg not hpart
  have hholds : (tokenHeld (s.setCore s.cur (issued (.ltokWait d) 1 s)) (issued (.ltokWait d) 1 s).ctx &&
      tokenHolder (s.setCore s.cur (issued (.ltokWait d) 1 s)) (issued (.ltokWait d) 1 s).ctx == s.cur.idx) = true :=
    holds_iff.2 ⟨hheld, hholder⟩
  simp only [issuedState, servRight_setCore, needD_true hright, core_setCore, hpart', Bool.false_eq_true, if_false,
    untilD_true hholds, bind, Except.bind]
  rfl

end
end

section
variable {a : Spec} {s : State} {v : Nat} {k : Core} (h : readsA (.ltokPass a) 1 s a v k) (hv : v < 128)
  (hmine : ctxRight s k.ctx 4 true = true)
include h hv hmine

theorem ltokPass_traps (hno : ¬ (tokenHeld (s.setCore s.cur k) k.ctx = true ∧
    tokenHolder (s.setCore s.cur k) k.ctx = s.cur.idx)) :
    traps (.ltokPass a) s { cause := .priv, sub := 0x51 } := by
  refine traps_src (f := ltokPassOp a) rfl h ?_
  have hnot := Bool.eq_false_iff.2 (mt holds_iff.1 hno)
  simp only [ltokPassOp, srcZ_issued h.2, needD_true (decide_eq_true hv), servRight_setCore, needD_true hmine, core_setCore,
    needD_false hnot, bind, Except.bind]

theorem ltokPass_passes (hrel : releaseReady k = true)
    (hholds : tokenHeld (s.setCore s.cur k) k.ctx = true ∧ tokenHolder (s.setCore s.cur k) k.ctx = s.cur.idx) :
    exec (.ltokPass a) s =
      .next (passToken (s.setCore s.cur k) k.ctx (if bitAt v 6 then some (field v 5 0) else none)) := by
  refine end0 (f := ltokPassOp a) rfl h.1 ?_
  simp only [ltokPassOp, srcZ_issued h.2, needD_true (decide_eq_true hv), servRight_setCore, needD_true hmine, core_setCore,
    needD_true (holds_iff.2 hholds), untilD_true hrel, bind, Except.bind]

end

/-! ### Deckle units (R418-R420, R422) -/

section
variable {d a : Spec} {s : State} {v : Nat} {k : Core}

/-- `dk.run` past its checks: a request, or the error of one that names no unit or no chain. -/
theorem dkRun_requests (h : readsA (.dkRun d a) 1 s a v k) (hd : takesWord k d) (hfit : v + 64 ≤ topOf s.cur.cls)
    (hal : v % 8 = 0) (hready : unreadyAt k v 64 = false) (hrel : releaseReady k = true) :
    let w1 := readLocal k (v + 8 * 1) 8
    let q := nth s.deckles (field w1 33 32) []
    dkRunOp d a s.cur (issuedState (.dkRun d a) 1 s) =
      if field w1 63 34 ≠ 0 ∨ readLocal k (v + 8 * 4) 8 = 0 ∨ !bitAt s.rdy.deckle (field w1 33 32) then
        dstZ (s.setCore s.cur k) s.cur d (2 ^ 63 + 1)
      else (do
        untilD (q.length < 16) (issuedState (.dkRun d a) 1 s)
        dstZ { s.setCore s.cur k with
          deckles := setAt s.deckles (field w1 33 32) (q ++ [{ ctx := k.ctx, core := s.cur, words := localWords k v 8 }]) }
          s.cur d 0) := by
  intro w1 q
  obtain ⟨k', htrial⟩ := dstZ_trial (s := s) (c := s.cur) hd
  simp only [dkRunOp, srcZ_issued h.2, htrial, servBlock_ok hfit hal hready, nth_localWords k v (show 1 < 64 / 8 by decide),
    nth_localWords k v (show 4 < 64 / 8 by decide), core_setCore, untilD_true hrel, bind, Except.bind]
  rfl

theorem answers_dkWait (h : readsA (.dkWait d a) 1 s a v k) (hd : takesWord k d) (hfit : v + 8 ≤ topOf s.cur.cls)
    (hal : v % 8 = 0) (hready : unreadyAt k v 8 = false) (hover : bitAt (readLocal k (v + 8 * 0) 8) 63 = true) :
    answers (.dkWait d a) s (s.setCore s.cur k) d (readLocal k (v + 8 * 0) 8) := by
  refine answers_src (f := dkWaitOp d a) rfl h ?_
  obtain ⟨k', htrial⟩ := dstZ_trial (s := s) (c := s.cur) hd
  simp only [dkWaitOp, srcZ_issued h.2, htrial, servBlock_ok hfit hal hready, nth_localWords k v (show 0 < 8 / 8 by decide),
    untilD_true hover, bind, Except.bind]

end

section
variable {s s2 : State} {r : DkReq} {rs : List DkReq} {w : Nat} (hq : nth s.deckles s.ev.i [] = r :: rs)
include hq

theorem deckleRequest_runs (hnew : r.result = none) (hres : dkResult s r = some w) :
    exec .deckleRequest s =
      .next { s with deckles := setAt s.deckles s.ev.i ({ r with result := some w } :: rs) } := by
  show execDeckleRequest s = _
  simp only [execDeckleRequest, eventOp, hq, hnew, Option.isSome_none, Bool.false_eq_true, if_false, hres]

theorem deckleComplete_writes (hres : r.result = some w)
    (hmail : writeMailbox { s with deckles := setAt s.deckles s.ev.i rs } r.ctx (nth r.words 5 0) w = some s2) :
    exec .deckleComplete s = .next s2 := by
  show execDeckleComplete s = _
  simp only [execDeckleComplete, eventOp, hq, hres, hmail, Option.getD_some]

end

/-- Settles O54, instruction by instruction, then the two events of a unit. -/
theorem servingAndDeckle : Obligations.ServingAndDeckle := by
  unfold Obligations.ServingAndDeckle
  intro d a s s2 v k r rs w c s1 released block word mine holds e
  have hrelease : released → releaseReady k = true := fun ⟨hctf, hctb, hldo, hatm⟩ => releaseReady_of hctf hctb hldo hatm
  refine ⟨fun h hd hres hlim => ⟨answers_sqRd h hd hres hlim, sqRd_traps h hd hres hlim⟩,
    fun h hd ⟨hfit, hal, hready⟩ hright hown hrel => ⟨fun hop => ?operates, fun x hop => ?opError⟩,
    fun h hd ⟨hfit, hal, hready⟩ hright hmine hrel => ⟨fun hno => ?noToken, fun hholds hgood hfits k2 hk2 => ?plan⟩,
    fun s0 k0 hs0 hk0 h hd => ?token,
    fun h hv hmine => ⟨ltokPass_traps h hv hmine, fun hholds hrel => ltokPass_passes h hv hmine (hrelease hrel) hholds⟩,
    fun h hd ⟨hfit, hal, hready⟩ hrel => ⟨fun hbad => ?badRequest, fun hunit hchain hrdy hroom => ?request⟩,
    fun h hd ⟨hfit, hal, hready⟩ hover => answers_dkWait h hd hfit hal hready hover,
    deckleRequest_runs, deckleComplete_writes⟩
  case operates =>
    refine answers_src (f := sqWrOp d a) rfl h ?_
    rw [sqWr_operates h hd hfit hal hready hright hown (hrelease hrel), hop]
  case opError =>
    refine answers_src (f := sqWrOp d a) rfl h ?_
    rw [sqWr_operates h hd hfit hal hready hright hown (hrelease hrel), hop]
  case noToken =>
    refine answers_src (f := sqBuildOp d a) rfl h ?_
    rw [sqBuild_plans h hd hfit hal hready hright hmine (hrelease hrel), Bool.eq_false_iff.2 (mt holds_iff.1 hno)]
    rfl
  case plan =>
    refine answers_src (f := sqBuildOp d a) rfl h ?_
    rw [sqBuild_plans h hd hfit hal hready hright hmine (hrelease hrel), holds_iff.2 hholds, hgood]
    refine (if_neg Bool.false_ne_true).trans ((if_neg (Nat.not_lt.2 hfits)).trans ?_)
    rw [hk2]
    rfl
  case token =>
    subst hs0 hk0
    exact ⟨ltokWait_traps h hd, fun hright =>
      ⟨answers_ltokWait_absent h hd hright, answers_ltokWait_holder h hd hright⟩⟩
  case badRequest =>
    refine answers_src (f := dkRunOp d a) rfl h ?_
    rw [dkRun_requests h hd hfit hal hready (hrelease hrel)]
    refine if_pos ?_
    rwa [Bool.not_eq_true']
  case request =>
    refine answers_src (f := dkRunOp d a) rfl h ?_
    rw [dkRun_requests h hd hfit hal hready (hrelease hrel)]
    refine (if_neg ?_).trans ?_
    · rw [Bool.not_eq_true']
      rintro (hbad | hbad | hbad)
      · exact hbad hunit
      · exact hchain hbad
      · exact Bool.false_ne_true (hbad.symm.trans hrdy)
    · rw [untilD_true (decide_eq_true hroom)]
      rfl

end Sys2Proof.Proofs.ServingAndDeckle
end

section
/-!
PROOFS of 17_tiers: the token translation buffer, `tlbi`, the fault buffers, replay and the walks of a domain.
-/
namespace Sys2Proof.Proofs.Translation

open Sys2Proof.Machine Sys2Proof.Safety Sys2Proof.Proofs.DeviceOperands

/-! ### The token translation buffer (R353-R356) -/

section
variable {a b : Spec} {s : State} {n addr : Nat} {k : Core}

theorem ttbPut_valid {w0 : Nat} (target w2 : Nat) (h : bitAt w0 63 = true) : ttbPut k n w0 target w2 = { k with
    ttb := { slot := n, w0 := w0, target := target, w2 := w2 } ::
      k.ttb.filter (fun u => u.slot != n && ttbKey u.w0 != ttbKey w0) } := if_pos h

theorem ttbPut_invalid {w0 : Nat} (target w2 : Nat) (h : bitAt w0 63 = false) :
    ttbPut k n w0 target w2 = { k with ttb := k.ttb.filter (fun u => u.slot != n) } := by
  rw [ttbPut, h]
  rfl

section
variable (h : readsAB (.ttbw a b) 2 s a b n addr k) (hn : n < 16) (hfit : addr + 24 ≤ topOf s.cur.cls) (hal : addr % 8 = 0)
  (hready : unreadyAt k addr 24 = false)
include h hn hfit hal hready

/-- The image that the record holds goes into slot n. -/
theorem ttbw_writes (hgood : (bitAt (readLocal k addr 8) 63 &&
      ttbImageBad (readLocal k addr 8) (readLocal k (addr + 8) 8) (readLocal k (addr + 16) 8)) = false) :
    exec (.ttbw a b) s = .next (s.setCore s.cur
      (ttbPut k n (readLocal k addr 8) (readLocal k (addr + 8) 8) (readLocal k (addr + 16) 8))) := by
  refine endAB rfl h ?_
  have hslot : (decide (n < 16) || n == 31) = true := by rw [decide_eq_true hn, Bool.true_or]
  have hrec := localRecord_ok (c := s.cur) (s := s.setCore s.cur k) hfit hal (by rwa [core_setCore])
  simp only [needD_true hslot, hrec, core_setCore, needD_true (congrArg not hgood),
    if_neg (Nat.ne_of_lt (Nat.lt_trans hn (by decide : 16 < 31))), setCore_setCore, bind, Except.bind]

theorem ttbw_traps (hbad : (bitAt (readLocal k addr 8) 63 &&
      ttbImageBad (readLocal k addr 8) (readLocal k (addr + 8) 8) (readLocal k (addr + 16) 8)) = true) :
    traps (.ttbw a b) s { cause := .undef, sub := 2 } := by
  refine endAB_trap rfl h ?_
  have hslot : (decide (n < 16) || n == 31) = true := by rw [decide_eq_true hn, Bool.true_or]
  have hrec := localRecord_ok (c := s.cur) (s := s.setCore s.cur k) hfit hal (by rwa [core_setCore])
  simp only [needD_true hslot, hrec, core_setCore, needD_false (congrArg not hbad), bind, Except.bind]

end

theorem ttbi_invalidates {v : Nat} (h : readsA (.ttbi a) 1 s a v k) (hok : ttbiOk v = true) :
    exec (.ttbi a) s = .next (s.setCore s.cur { k with ttb := k.ttb.filter (fun u => !ttbiSel v u) }) := by
  refine endA rfl h ?_
  simp only [needD_true hok, modCore_eq, core_setCore, setCore_setCore, bind, Except.bind]

/-! ### ttbp (Table 17-7) -/

theorem ttbp_layout {w : Fin 32} {v : Nat} (hw : w.val ≤ 30) (hv : v < 2 ^ 45) :
    (decide (w.val ≤ 30) && decide (v < 2 ^ 45)) = true := by
  rw [decide_eq_true hw, decide_eq_true hv]
  rfl

section
variable {w : Fin 32} {v : Nat} (h : readsA (.ttbp (.w w) a) 1 s a v k) (hw : w.val ≤ 30) (hv : v < 2 ^ 45)
include h hw hv

theorem ttbp_missing (hnone : ∀ u ∈ k.ttb, ttbKey u.w0 ≠ v) :
    traps (.ttbp (.w w) a) s { cause := .ttb, sub := 0, addr := v } := by
  refine endA_trap rfl h ?_
  have hfind : k.ttb.find? (fun u => ttbKey u.w0 == v) = none :=
    List.find?_eq_none.2 fun u hu => Bool.not_eq_true _ ▸ beq_false_of_ne (hnone u hu)
  simp only [needD_true (ttbp_layout hw hv), core_setCore, hfind, bind, Except.bind]
  rfl

variable {u : Ttb} (hfind : k.ttb.find? (fun u => ttbKey u.w0 == v) = some u)
include hfind

theorem ttbp_unusable (hkind : field u.w2 63 62 = 1) (hstate : field u.w2 57 56 ≠ 0) :
    traps (.ttbp (.w w) a) s { cause := .ttb, sub := 1, addr := v } := by
  refine endA_trap rfl h ?_
  have hbad : (!(field u.w2 63 62 == 1 && field u.w2 57 56 != 0)) = false := by
    rw [hkind, bne_iff_ne.2 hstate]
    rfl
  simp only [needD_true (ttbp_layout hw hv), core_setCore, hfind, needD_false hbad, bind, Except.bind]

theorem ttbp_gives (husable : field u.w2 63 62 = 1 → field u.w2 57 56 = 0)
    (hpend : pendingAt k (k.wp + 8 * w.val) 16 = false) (hown : ownAt k (k.wp + 8 * w.val) 16 = false)
    (hheld : heldAt k (k.wp + 8 * w.val) 16 = false) :
    exec (.ttbp (.w w) a) s = .next (s.setCore s.cur
      { putLocal k (k.wp + 8 * w.val) (toBytes 8 u.target ++ toBytes 8 u.w2) with
        ttb := u :: k.ttb.filter (fun y => y.slot != u.slot) }) := by
  refine endA rfl h ?_
  have hgood : (!(field u.w2 63 62 == 1 && field u.w2 57 56 != 0)) = true := by
    rw [Bool.not_eq_true', Bool.and_eq_false_iff, beq_eq_false_iff_ne, bne_eq_false_iff_eq]
    exact (Decidable.em (field u.w2 63 62 = 1)).elim (fun hkind => .inr (husable hkind)) .inl
  have hlen : (toBytes 8 u.target ++ toBytes 8 u.w2).length = 16 := by rw [List.length_append, toBytes_length, toBytes_length]
  have hstore := storeAt_of (hlen ▸ hpend) (hlen ▸ hown) (hlen ▸ hheld)
  simp only [needD_true (ttbp_layout hw hv), core_setCore, hfind, needD_true hgood, hstore, ofCore, setCore_setCore,
    putLocal_ttb, bind, Except.bind]

end
end

/-! ### The right to the fault-domain region (R352) -/

section
variable {i : Instr} {n : Nat} {s : State}

theorem domainRight_issued (i : Instr) (n : Nat) (s : State) :
    domainRight (issuedState i n s) s.cur = needD (ctxRight s (s.core s.cur).ctx 5 true) .priv 0x40 := by
  rw [domainRight, issuedState_core, issued, issue_ctx]
  rfl

/-- An instruction that begins with the check of the right, and a context that does not have it. -/
theorem domainRight_traps {f : CoreId → State → Dev State} {rest : Dev State}
    (hx : exec i s = nativeOp i (fun _ => n) f s) (h : ready i s)
    (hf : f s.cur (issuedState i n s) = (domainRight (issuedState i n s) s.cur >>= fun _ => rest))
    (hno : ctxRight s (s.core s.cur).ctx 5 true = false) : traps i s { cause := .priv, sub := 0x40 } := by
  refine end0_trap hx h ?_
  rw [hf, domainRight_issued, needD_false hno]
  rfl

end

/-! ### tlbi (R357) -/

section
variable {a : Spec} {s : State} {v : Nat} {k : Core}

theorem tlbiDrop_first {c : CoreId} (h : (s.core c).tlbw = none) : tlbiDrop s c v =
    ({ (dropEnts s (tlbiSel v)).modCore c (fun k => { k with tlbw := some s.tlbn }) with tlbn := s.tlbn + 1 }, s.tlbn) := by
  rw [tlbiDrop, h]

theorem tlbiDrop_again {c : CoreId} {n : Nat} (h : (s.core c).tlbw = some n) : tlbiDrop s c v = (s, n) := by
  rw [tlbiDrop, h]

/-- Past its checks the instruction removes its entries, and waits for what was translated through them. -/
theorem tlbi_removes (h : readsA (.tlbi a) 1 s a v k) (hright : ctxRight s (s.core s.cur).ctx 5 true = true)
    (hok : tlbiOk v = true) (hctf : k.ctf = 0) (hctb : k.ctb = 0) : tlbiOp a s.cur (issuedState (.tlbi a) 1 s) = (do
      untilD (!tlbiBusy (tlbiDrop (s.setCore s.cur k) s.cur v).1 v (tlbiDrop (s.setCore s.cur k) s.cur v).2)
        (tlbiDrop (s.setCore s.cur k) s.cur v).1
      .ok ((tlbiDrop (s.setCore s.cur k) s.cur v).1.modCore s.cur (fun k => { k with tlbw := none }))) := by
  have hidle : (k.ctf == 0 && k.ctb == 0) = true := by rw [hctf, hctb]; rfl
  simp only [tlbiOp, domainRight_issued, needD_true hright, srcZ_issued h.2, needD_true hok, core_setCore, untilD_true hidle,
    bind, Except.bind]

section
variable (h : readsA (.tlbi a) 1 s a v k) (hright : ctxRight s (s.core s.cur).ctx 5 true = true)
    (hok : tlbiOk v = true) (hctf : k.ctf = 0) (hctb : k.ctb = 0)
include h hright hok hctf hctb

theorem tlbi_done (hclear : tlbiBusy (tlbiDrop (s.setCore s.cur k) s.cur v).1 v (tlbiDrop (s.setCore s.cur k) s.cur v).2 = false) :
    exec (.tlbi a) s =
      .next ((tlbiDrop (s.setCore s.cur k) s.cur v).1.modCore s.cur (fun k => { k with tlbw := none })) := by
  refine end0 (f := tlbiOp a) rfl h.1 ?_
  rw [tlbi_removes h hright hok hctf hctb, untilD_true (congrArg not hclear)]
  rfl

theorem tlbi_waits (hbusy : tlbiBusy (tlbiDrop (s.setCore s.cur k) s.cur v).1 v (tlbiDrop (s.setCore s.cur k) s.cur v).2 = true) :
    exec (.tlbi a) s =
      .next (waitCore (tlbiDrop (s.setCore s.cur k) s.cur v).1 s.cur (s.core s.cur) (1 + s.stall)) := by
  refine (nativeOp_ready (cost := fun _ => 1) (f := tlbiOp a) h.1).trans ?_
  rw [tlbi_removes h hright hok hctf hctb, untilD_false (congrArg not hbusy)]
  rfl

end

theorem waitCore_tlbw (s : State) (c : CoreId) (k : Core) (n : Nat) :
    ((waitCore s c k n).core c).tlbw = (s.core c).tlbw := by
  rw [waitCore, core_setCore]
  obtain ⟨_, _, hcharge⟩ := charge_shape _ n
  rw [hcharge]

/-- A core set in a state whose removals are counted, and then changed. -/
theorem modCore_counted (t : State) (c : CoreId) (k : Core) (m : Nat) (f : Core → Core) :
    ({ t.setCore c k with tlbn := m }).modCore c f = { t.setCore c (f k) with tlbn := m } := by
  show { (t.setCore c k).setCore c (f ((t.setCore c k).core c)) with tlbn := m } = _
  rw [core_setCore, setCore_setCore]

end

/-! ### fbpop (R350, R358) -/

section
variable {d a : Spec} {s : State} {v : Nat} {k : Core}

theorem words_bytes (u : FEnt) : ((u.words.map (toBytes 8)).flatten).length = 32 := by
  simp only [FEnt.words, List.map_cons, List.map_nil, List.flatten_cons, List.flatten_nil, List.length_append, toBytes_length,
    List.length_nil]

/-- The status that `fbpop` answers: got an entry, the domain's drop bit, and the counts of its entries after it. -/
def popWord (got drop : Bool) (y : Domain) : Nat :=
  bnat got + bnat drop * 2 + (y.fb.filter (fun u => !u.taken)).length * 2 ^ 8 + (y.fb.filter (fun u => u.taken)).length * 2 ^ 16

theorem fbpop_layout (hdom : field v 34 32 ≤ 4) (hhigh : field v 63 35 = 0) (hmid : field v 31 17 = 0) :
    (decide (field v 34 32 ≤ 4) && field v 63 35 == 0 && field v 31 17 == 0) = true := by
  rw [decide_eq_true hdom, hhigh, hmid]
  rfl

section
variable (h : readsA (.fbpop d a) 1 s a v k) (hd : takesWord k d) (hright : ctxRight s (s.core s.cur).ctx 5 true = true)
  (hdom : field v 34 32 ≤ 4) (hhigh : field v 63 35 = 0) (hmid : field v 31 17 = 0)
  (hfit : field v 16 0 + 32 ≤ topOf s.cur.cls) (hal : field v 16 0 % 32 = 0) (hready : unreadyAt k (field v 16 0) 32 = false)
include h hd hright hdom hhigh hmid hfit hal hready

theorem answers_fbpop_empty (hnone : takeEntry ((s.setCore s.cur k).dom (field v 34 32)).fb = none) :
    let y := (s.setCore s.cur k).dom (field v 34 32)
    let s2 := (s.setCore s.cur k).setDom (field v 34 32) { y with drop := false }
    answers (.fbpop d a) s s2 d (popWord false y.drop (s2.dom (field v 34 32))) := by
  intro y s2
  refine answers_src (f := fbpopOp d a) rfl h ?_
  obtain ⟨k', htrial⟩ := dstZ_trial (s := s) (c := s.cur) hd
  have hrec := localRecord_ok (c := s.cur) (s := s.setCore s.cur k) hfit hal (by rwa [core_setCore])
  simp only [fbpopOp, domainRight_issued, needD_true hright, srcZ_issued h.2, htrial,
    needD_true (fbpop_layout hdom hhigh hmid), hrec, hnone, bind, Except.bind]
  rfl

theorem answers_fbpop_entry (hheld : heldAt k (field v 16 0) 32 = false) {u : FEnt} {l : List FEnt}
    (hsome : takeEntry ((s.setCore s.cur k).dom (field v 34 32)).fb = some (u, l)) :
    let y := (s.setCore s.cur k).dom (field v 34 32)
    let s2 := (s.setCore s.cur (putLocal k (field v 16 0) ((u.words.map (toBytes 8)).flatten))).setDom (field v 34 32)
      { y with fb := l, drop := false }
    answers (.fbpop d a) s s2 d (popWord true y.drop (s2.dom (field v 34 32))) := by
  intro y s2
  refine answers_src (f := fbpopOp d a) rfl h ?_
  obtain ⟨k', htrial⟩ := dstZ_trial (s := s) (c := s.cur) hd
  have hrec := localRecord_ok (c := s.cur) (s := s.setCore s.cur k) hfit hal (by rwa [core_setCore])
  have hbusy := hready
  rw [unreadyAt, Bool.or_eq_false_iff, Bool.or_eq_false_iff] at hbusy
  obtain ⟨⟨hpend, -⟩, hown⟩ := hbusy
  have hlen := words_bytes u
  have hstore := storeAt_of (hlen.symm ▸ hpend) (hlen.symm ▸ hown) (hlen.symm ▸ hheld)
  simp only [fbpopOp, domainRight_issued, needD_true hright, srcZ_issued h.2, htrial,
    needD_true (fbpop_layout hdom hhigh hmid), hrec, hsome, core_setCore, hstore, ofCore, setCore_setCore, bind, Except.bind]
  rfl

end

/-! ### replay (R359) -/

theorem answers_replay (h : readsA (.replay d a) 1 s a v k) (hd : takesWord k d)
    (hright : ctxRight s (s.core s.cur).ctx 5 true = true) (hok : replayOk v = true) (hctf : k.ctf = 0) (hctb : k.ctb = 0) :
    let r := ((List.range 5).filter (fun i => bitAt v i)).foldl (replayOne v) (s.setCore s.cur k, 0)
    answers (.replay d a) s r.1 d (min r.2 (2 ^ 32 - 1)) := by
  intro r
  refine answers_src (f := replayOp d a) rfl h ?_
  obtain ⟨k', htrial⟩ := dstZ_trial (s := s) (c := s.cur) hd
  have hidle : (k.ctf == 0 && k.ctb == 0) = true := by rw [hctf, hctb]; rfl
  simp only [replayOp, domainRight_issued, needD_true hright, srcZ_issued h.2, htrial, needD_true hok, core_setCore,
    untilD_true hidle, bind, Except.bind]
  rfl

end

/-! ### Walks and FBDEST (R343, R347, R349) -/

section
variable {s : State}

theorem walkSlotStart_starts {q : TReq}
    (hfind : (s.dom s.ev.i).wait.find? (fun q => !(s.dom s.ev.i).walks.any (fun w => w.ctx == q.ctx && w.page == q.page)) = some q)
    (hfree : (s.dom s.ev.i).walks.length < 8) (hold : q.since < s.cycle) :
    exec .walkSlotStart s = .next (s.setDom s.ev.i { s.dom s.ev.i with
      walks := (s.dom s.ev.i).walks ++ [{ ctx := q.ctx, page := q.page, n := (s.dom s.ev.i).wseq }]
      wseq := (s.dom s.ev.i).wseq + 1 }) := by
  show execWalkSlotStart s = _
  simp only [execWalkSlotStart, eventOp, startWalk, hfind, if_pos (And.intro hfree hold)]

/-- What a walk that ends leaves of its domain: no walk, none of the requests that waited for it, and its place in the order
of the cycle's ends. -/
def afterWalk (s : State) (d i : Nat) (u : Walk) : Domain :=
  { s.dom d with
    walks := dropAt (s.dom d).walks i, wend := (s.cycle + 1, u.n)
    wait := (s.dom d).wait.filter (fun q => !(q.ctx == u.ctx && q.page == u.page)) }

theorem walk_inTurn {x : Domain} {u : Walk} {n : Nat} (horder : x.wend.1 = n → x.wend.2 ≤ u.n) :
    ¬ (x.wend.1 = n ∧ u.n < x.wend.2) := fun ⟨hcycle, hlate⟩ => Nat.not_lt.2 (horder hcycle) hlate

section
variable {d i : Nat} {u : Walk} (hwalk : (s.dom d).walks[i]? = some u)
  (horder : (s.dom d).wend.1 = s.cycle + 1 → (s.dom d).wend.2 ≤ u.n)
include hwalk horder

theorem endWalk_mapped {t : TlbEnt} (ht : walk s u.ctx (u.page * 2 ^ 16) = .mapped t) : endWalk s d i =
    ((waitersOf (s.dom d) u).foldl (fun s q => setL1 s q.couch (l1Fill (l1Of s q.couch) t))
      (s.setDom d { afterWalk s d i u with l2 := l2Fill (s.dom d).l2 t }), []) := by
  simp only [endWalk, hwalk, if_neg (walk_inTurn horder), ht]
  rfl

theorem endWalk_absent (ht : walk s u.ctx (u.page * 2 ^ 16) = .absent) (hnew : u.replayed = false) : endWalk s d i =
    ((waitersOf (s.dom d) u).foldl (fun s q => parkReq s d q) (s.setDom d (afterWalk s d i u)), []) := by
  simp only [endWalk, hwalk, if_neg (walk_inTurn horder), ht, hnew, Bool.false_eq_true, if_false]
  rfl

theorem endWalk_fail {sub : Nat} (ht : walk s u.ctx (u.page * 2 ^ 16) = .fail sub) : endWalk s d i =
    (s.setDom d (afterWalk s d i u), (waitersOf (s.dom d) u).map (fun q => (q, sub))) := by
  simp only [endWalk, hwalk, if_neg (walk_inTurn horder), ht]
  rfl

end

/-- The event: the walk's end, then the requests that it fails, one after another. -/
theorem walkEnd_exec {s1 : State} {failed : List (TReq × Nat)} (h : endWalk s s.ev.i s.ev.j = (s1, failed)) :
    exec .walkEnd s = .next (failed.foldl (fun s q => failRequest s q.1 q.2) s1) := by
  show execWalkEnd s = _
  simp only [execWalkEnd, eventOp, h]

theorem fbdestWrite_writes (hdom : s.ev.j < 5) (hright : s.ev.i = 64 ∨ ctxRight s s.ev.i 5 true = true) :
    exec .fbdestWrite s =
      .next (s.setDom s.ev.j { s.dom s.ev.j with fbdest := s.ev.w, fbctx := s.ev.i }) := by
  show execFbdestWrite s = _
  rw [execFbdestWrite, eventOp, if_pos ⟨hdom, hright⟩]
  rfl

end

/-- Settles O46, instruction by instruction, then the events of a domain. -/
theorem translation : Obligations.Translation := by
  unfold Obligations.Translation
  intro d a b w s v n addr k c e x s1
  refine ⟨fun h hn hfit hal hready => ⟨fun hv hgood => ?valid, fun hv => ?invalid, fun hv hbad => ?badImage⟩,
    ttbi_invalidates,
    fun h hw hv => ⟨fun u => ttbp_gives h hw hv, ttbp_missing h hw hv, fun u => ttbp_unusable h hw hv⟩,
    fun hright => ⟨fun h hok hctf hctb =>
        ⟨fun hw hclear => ?removed, fun hw hbusy => ?removing, fun n hw hclear => ?waited⟩,
      fun h hd hdom hhigh hmid hfit hal hready hheld => ⟨fun hnone s2 hs2 => ?empty, fun u l hsome s2 hs2 => ?entry⟩,
      fun h hd hok hctf hctb r hr => hr ▸ answers_replay h hd hright hok hctf hctb⟩,
    fun hno => ⟨fun h => domainRight_traps (f := tlbiOp a) rfl h rfl hno,
      fun h => domainRight_traps (f := fbpopOp d a) rfl h rfl hno,
      fun h => domainRight_traps (f := replayOp d a) rfl h rfl hno⟩,
    fun q => walkSlotStart_starts,
    fun u hwalk horder => ⟨fun t ht => walkEnd_exec (endWalk_mapped hwalk horder ht),
      fun ht hnew => walkEnd_exec (endWalk_absent hwalk horder ht hnew), fun sub ht => ?failed⟩,
    fbdestWrite_writes⟩
  case valid =>
    rw [ttbw_writes h hn hfit hal hready (by rw [hgood, Bool.and_false]), ttbPut_valid _ _ hv]
  case invalid =>
    rw [ttbw_writes h hn hfit hal hready (by rw [hv, Bool.false_and]), ttbPut_invalid _ _ hv]
  case badImage => exact ttbw_traps h hn hfit hal hready ((Bool.and_eq_true _ _).mpr ⟨hv, hbad⟩)
  case removed =>
    have hfirst := tlbiDrop_first (s := s1) (c := c) (v := v) (by rwa [core_setCore])
    rw [hfirst] at hclear
    rw [tlbi_done h hright hok hctf hctb (by rw [hfirst]; exact hclear), hfirst]
    exact congrArg _ (modCore_counted _ _ _ _ _)
  case removing =>
    have hfirst := tlbiDrop_first (s := s1) (c := c) (v := v) (by rwa [core_setCore])
    rw [hfirst] at hbusy
    refine ⟨_, tlbi_waits h hright hok hctf hctb (by rw [hfirst]; exact hbusy), ?_, Proofs.Gateway.waitCore_pc _ _ _ _, ?_, ?_⟩
    · rw [waitCore_tlbw, hfirst]
      exact congrArg Core.tlbw (core_setCore (dropEnts s1 (tlbiSel v)) c _)
    · rw [hfirst]
      rfl
    · rw [hfirst]
      rfl
  case waited =>
    have hagain := tlbiDrop_again (s := s1) (c := c) (v := v) (n := n) (by rwa [core_setCore])
    rw [tlbi_done h hright hok hctf hctb (by rw [hagain]; exact hclear), hagain, modCore_eq, core_setCore, setCore_setCore]
  case empty => exact hs2 ▸ answers_fbpop_empty h hd hright hdom hhigh hmid hfit hal hready hnone
  case entry => exact hs2 ▸ answers_fbpop_entry h hd hright hdom hhigh hmid hfit hal hready hheld hsome
  case failed =>
    have hend := walkEnd_exec (endWalk_fail hwalk horder ht)
    rwa [List.foldl_map] at hend

end Sys2Proof.Proofs.Translation
end

section
/-!
PROOFS of 15_saggars and 18_contexts: the events by which saggars and cores leave and come back, and context descriptors.
-/
namespace Sys2Proof.Proofs.EvictionAndRestore

open Sys2Proof.Machine Sys2Proof.Safety Sys2Proof.Proofs.SaggarInstructions

/-! ### Saggars (R309-R311) -/

section
variable {s s1 : State}

theorem saggarEvictionEnd_copied (hst : (sagOf s s.ev.i).st = 2) (hok : s.ev.ok = true)
    (hcopy : copyOut s (sagOf s s.ev.i) (sagOf s s.ev.i).parts = some s1) :
    exec .saggarEvictionEnd s = .next (withSag s1 s.ev.i { sagOf s1 s.ev.i with st := 3 }) := by
  show execSaggarEvictionEnd s = _
  simp only [execSaggarEvictionEnd, eventOp, endEviction, hst, hok, hcopy, ne_eq, not_true_eq_false, if_false, if_true, modSag_eq]

theorem saggarEvictionEnd_lost (hst : (sagOf s s.ev.i).st = 2) (hok : s.ev.ok = false) :
    exec .saggarEvictionEnd s = .next (withSag s s.ev.i (if (sagOf s s.ev.i).att = 0 then { inc := (sagOf s s.ev.i).inc }
      else { sagOf s s.ev.i with st := 4, rest := false, copying := false })) := by
  show execSaggarEvictionEnd s = _
  simp only [execSaggarEvictionEnd, eventOp, endEviction, hst, hok, ne_eq, not_true_eq_false, if_false, Bool.false_eq_true,
    loseSag, modSag_eq]

theorem saggarRestoreStart_starts (hrest : (sagOf s s.ev.i).rest = true) (hst : (sagOf s s.ev.i).st = 3)
    (hcopying : (sagOf s s.ev.i).copying = false) (hmeet : kernelsMeet s (sagOf s s.ev.i) = false)
    (hplaces : (sagOf s s.ev.i).parts ≤ (partPlaces s (sagOf s s.ev.i)).length)
    (hclear : pressure s (meetingSlots s (sagOf s s.ev.i) Saggar.occupies) = some (s1, true)) :
    exec .saggarRestoreStart s = .next (withSag s1 s.ev.i { sagOf s1 s.ev.i with copying := true }) := by
  show execSaggarRestoreStart s = _
  have hfits := decide_eq_false (Nat.not_lt.2 hplaces)
  simp only [execSaggarRestoreStart, eventOp, startRestore, hrest, hst, hcopying, hmeet, hfits, hclear, beq_self_eq_true,
    Bool.and_self, Bool.not_true, Bool.or_self, Bool.false_eq_true, if_false, modSag_eq]

theorem saggarRestoreEnd_resident (hcopying : (sagOf s s.ev.i).copying = true) (hok : s.ev.ok = true)
    (hcopy : copyIn s (sagOf s s.ev.i) (sagOf s s.ev.i).parts = some s1) :
    exec .saggarRestoreEnd s =
      .next (withSag s1 s.ev.i { sagOf s1 s.ev.i with st := 1, rest := false, copying := false }) := by
  show execSaggarRestoreEnd s = _
  simp only [execSaggarRestoreEnd, eventOp, endRestore, hcopying, hok, hcopy, Bool.not_true, Bool.false_eq_true, if_false, if_true,
    modSag_eq]

end

/-! ### Requests (R364-R366) -/

/-- A core set with the same value of a field leaves that field of every core: keys name the stored cores, and a core that is
not stored has the field of the empty core. -/
theorem core_setCore_field {β : Type} {s : State} {c : CoreId} {k : Core} (g : Core → β)
    (hempty : ∀ a b : CoreClass, g { cls := a } = g { cls := b }) (hk : g k = g (s.core c)) (x : CoreId) :
    g ((s.setCore c k).core x) = g (s.core x) := by
  by_cases hx : pid x = pid c
  · have hcx : g (s.core c) = g (s.core x) := by
      rw [State.core, State.core, hx]
      cases alookup (pid c) s.cores with
      | none => exact hempty _ _
      | some k0 => rfl
    have hset : (s.setCore c k).core x = k := by
      rw [State.setCore, State.core, hx, alookup_ainsert]
      rfl
    rw [hset, hk, hcx]
  · rw [core_setCore_ne s k hx]

theorem abandonCoupling_other {s : State} {c : CoreId} (h : (s.core c).pairReq ≠ 3) : abandonCoupling s c = s :=
  if_neg fun hc => h hc.1

/-- Cores of which none waits for a partner leave nothing to abandon. -/
theorem abandonCouplings_none {s : State} : ∀ {l : List CoreId}, (∀ x ∈ l, (s.core x).pairReq ≠ 3) →
    l.foldl abandonCoupling s = s
  | [], _ => rfl
  | c :: l, h => by
    rw [List.foldl_cons, abandonCoupling_other (h c List.mem_cons_self)]
    exact abandonCouplings_none fun x hx => h x (List.mem_cons_of_mem _ hx)

/-- The request of a core noted, and no longer under way. -/
def requestTaken (s : State) (c : CoreId) : State :=
  { s with preReqs := s.preReqs.filter (fun r => r.1 != c) }.setCore c { s.core c with preReq := some s.cycle }

section
variable {s : State} {c : CoreId}

theorem requestTaken_core (s : State) (c : CoreId) : (requestTaken s c).core c = { s.core c with preReq := some s.cycle } :=
  core_setCore _ _ _

/-- A request changes no other field of any core. -/
theorem requestTaken_field {β : Type} (g : Core → β) (hempty : ∀ a b : CoreClass, g { cls := a } = g { cls := b })
    (hreq : g { s.core c with preReq := some s.cycle } = g (s.core c)) (x : CoreId) :
    g ((requestTaken s c).core x) = g (s.core x) :=
  core_setCore_field (s := { s with preReqs := s.preReqs.filter (fun r => r.1 != c) }) g hempty hreq x

theorem requestArrives_taken (hreq : s.preReqs.any (fun r => r.1 == c) = true)
    (hlife : (s.core c).life = .active ∨ (s.core c).life = .preparing ∨ (s.core c).life = .restoring)
    (hpairs : ∀ x ∈ couplesWith s c, (s.core x).pairReq ≠ 3) : requestArrives s c = takeIfIdle (requestTaken s c) c := by
  have hnone : (couplesWith s c).foldl abandonCoupling (requestTaken s c) = requestTaken s c :=
    abandonCouplings_none fun x hx hreq3 =>
      hpairs x hx ((requestTaken_field Core.pairReq (fun _ _ => rfl) rfl x).symm.trans hreq3)
  rw [requestArrives, hreq, Bool.not_true, if_neg Bool.false_ne_true]
  refine Eq.trans ?_ (congrArg (takeIfIdle · c) hnone)
  have hcore : ({ s with preReqs := s.preReqs.filter (fun r => r.1 != c) }).core c = s.core c := rfl
  simp only [hcore]
  obtain hl | hl | hl := hlife <;> rw [hl] <;> rfl

theorem takesNow_iff (k : Core) : takesNow k = true ↔
    k.life = .active ∧ k.run = .idle ∧ k.inHandler = false ∧ k.pst ≠ .coupling := by
  rw [takesNow, Bool.and_eq_true, Bool.and_eq_true, Bool.and_eq_true, beq_iff_eq, beq_iff_eq, Bool.not_eq_true', bne_iff_ne,
    and_assoc, and_assoc]

/-- Nothing runs on a core, nor, for a checker, on its primary (R365, R442). -/
def atEnd (k p : Core) : Prop :=
  k.life = .active ∧ k.run = .idle ∧ k.inHandler = false ∧ k.pst ≠ .coupling ∧
    (k.pst = .checker → p.run = .idle ∧ p.inHandler = false)

theorem takes_iff {k p : Core} :
    (takesNow k && (k.pst != .checker || (p.run == .idle && !p.inHandler))) = true ↔ atEnd k p := by
  rw [Bool.and_eq_true, takesNow_iff, Bool.or_eq_true, bne_iff_ne, Bool.and_eq_true, beq_iff_eq, Bool.not_eq_true', atEnd,
    Decidable.imp_iff_not_or, and_assoc, and_assoc, and_assoc]

/-- The core that takes the request, and its primary, are in what counts as they were before it. -/
theorem takeIfIdle_requestTaken (s : State) (c : CoreId) : takeIfIdle (requestTaken s c) c =
    if (takesNow (s.core c) && ((s.core c).pst != .checker || ((s.core (coreAt (rowOf c) (s.core c).partner)).run == .idle &&
        !(s.core (coreAt (rowOf c) (s.core c).partner)).inHandler))) = true
    then beginEviction (requestTaken s c) c else requestTaken s c := by
  rw [takeIfIdle, requestTaken_core]
  simp only [requestTaken_field Core.run (fun _ _ => rfl) rfl, requestTaken_field Core.inHandler (fun _ _ => rfl) rfl]
  rfl

theorem takeIfIdle_atEnd (h : atEnd (s.core c) (s.core (coreAt (rowOf c) (s.core c).partner))) :
    takeIfIdle (requestTaken s c) c = beginEviction (requestTaken s c) c :=
  (takeIfIdle_requestTaken s c).trans (if_pos (takes_iff.2 h))

theorem takeIfIdle_running (h : ¬ atEnd (s.core c) (s.core (coreAt (rowOf c) (s.core c).partner))) :
    takeIfIdle (requestTaken s c) c = requestTaken s c :=
  (takeIfIdle_requestTaken s c).trans (if_neg (mt takes_iff.1 h))

theorem takeIfIdle_unasked (h : (s.core c).preReq = none) : takeIfIdle s c = s := by
  rw [takeIfIdle, h]
  rfl

end

section
variable {s : State}

theorem plimExpiry_ends {t0 : Nat} (hreq : (s.core s.ev.core).preReq = some t0)
    (hlim : field (heldWord s (s.core s.ev.core).ctx 0x50) 47 32 ≠ 0)
    (hover : t0 + 65536 * field (heldWord s (s.core s.ev.core).ctx 0x50) 47 32 ≤ s.cycle)
    (hlife : (s.core s.ev.core).life = .active ∨ (s.core s.ev.core).life = .preparing) :
    let k := s.core s.ev.core
    let p := pendingInstr s s.ev.core
    exec .plimExpiry s = .next (endContext (queueRecord s k.ctx (faultRecord s s.ev.core { cause := .budget, sub := 0x10 }
      { idle := k.run == .idle } p.1 p.2.1 (recordSeq s k.ctx))) s.ev.core) := by
  intro k p
  show execPlimExpiry s = _
  have hgo : ¬ (field (heldWord s k.ctx 0x50) 47 32 = 0 ∨ s.cycle < t0 + 65536 * field (heldWord s k.ctx 0x50) 47 32 ∨
      (k.life ≠ .active ∧ k.life ≠ .preparing)) := by
    rintro (h | h | ⟨hactive, hprep⟩)
    · exact hlim h
    · exact Nat.not_lt.2 hover h
    · exact hlife.elim hactive hprep
  simp only [execPlimExpiry, eventOp, plimExpiry, hreq]
  rw [if_neg hgo]

theorem sliceExpiry_marks {l : Launch} (hl : findLaunch s s.ev.i s.ev.j = some l) (hover : l.over = false)
    (hslice : field (heldWord s s.ev.i 0x50) 31 0 ≠ 0) (hplaced : l.placedGangs ≠ 0)
    (hend : l.start + 65536 * field (heldWord s s.ev.i 0x50) 31 0 ≤ s.cycle) :
    exec .sliceExpiry s =
      .next ((launchCores s s.ev.i s.ev.j).foldl (fun s c => s.setCore c { s.core c with sliceExp := true })
        (modLaunch s s.ev.i s.ev.j (fun l => { l with sliceExp := true }))) := by
  show execSliceExpiry s = _
  simp only [execSliceExpiry, eventOp, sliceExpiry, hl, hover, decide_eq_false hslice, decide_eq_false hplaced,
    decide_eq_false (Nat.not_lt.2 hend), Bool.or_self, Bool.false_eq_true, if_false]
  rfl

end

/-! ### What a save leaves of the list of saves (R367, R368) -/

theorem setTier_saves (s : State) (t : Nat) (m : Mem) : (s.setTier t m).saves = s.saves := by
  unfold State.setTier
  split <;> rfl

section
variable {ctx va : Nat} {m : Mem}

theorem svcPutRange_saves : ∀ {fuel : Nat} {s s1 : State} {lo hi : Nat},
    svcPutRange ctx va m fuel s lo hi = some s1 → s1.saves = s.saves
  | 0, _, _, _, _, h => by
    cases h
    rfl
  | fuel + 1, s, s1, lo, hi, h => by
    rw [svcPutRange] at h
    split at h
    · cases h
      rfl
    · simp only [] at h
      split at h
      · cases h
      · exact (svcPutRange_saves h).trans (setTier_saves _ _ _)

theorem svcPutRanges_saves : ∀ {rs : List (Nat × Nat)} {s s1 : State},
    svcPutRanges ctx va m s rs = some s1 → s1.saves = s.saves
  | [], _, _, h => by
    cases h
    rfl
  | _ :: _, _, _, h => by
    obtain ⟨s2, hfirst, hrest⟩ := Option.bind_eq_some_iff.1 h
    exact (svcPutRanges_saves hrest).trans (svcPutRange_saves hfirst)

end

theorem writeRowRecord_saves {s s1 : State} {ctx m key sgen row page : Nat}
    (h : writeRowRecord s ctx m key sgen row page = some s1) : s1.saves = s.saves := by
  obtain ⟨s2, hrs, h⟩ := Option.bind_eq_some_iff.1 h
  obtain ⟨s3, hslip, h⟩ := Option.bind_eq_some_iff.1 h
  obtain ⟨s4, hpage, h⟩ := Option.bind_eq_some_iff.1 h
  obtain ⟨now, -, htags⟩ := Option.bind_eq_some_iff.1 h
  rw [svcPutRanges_saves htags, svcPutRanges_saves hpage, svcPutRanges_saves hslip, svcPutRanges_saves hrs]

/-- A core that leaves is free, and its store and slice are zeroed; its save is kept. -/
theorem leaveCore_frees {s t : State} {c : CoreId} {v : Save} {page : Nat} (h : leaveCore s c v page = some t) :
    (t.core c).life = .free ∧ (t.core c).ls = [] ∧ (t.core c).acc = [] ∧ t.saves = s.saves ++ [v] := by
  rw [leaveCore] at h
  simp only [] at h
  split at h
  · obtain ⟨s1, hrow, rfl⟩ := Option.map_eq_some_iff.1 h
    have hkept := writeRowRecord_saves hrow
    rw [← hkept]
    exact freeCores_core _ c
  · cases h
    exact freeCores_core _ c

/-! ### Saves of cores (R367, R368) -/

/-- The core as it is saved: its parked requests are withdrawn, and its live words are in its store. -/
def savingCore (s : State) (c : CoreId) : Core := writeBack ((withdrawParked s c).core c)

/-- Whether a slot is saved of a core: of a compute core that checks no other. -/
def savesSlot (s : State) (c : CoreId) : Bool := c.cls == .compute && (savingCore s c).pst != .checker

/-- The state whose two pages of a save are taken. -/
def pagesTaken (s : State) (c : CoreId) : State := { withdrawParked s c with fresh := (withdrawParked s c).fresh + 2 }

/-- The save of a core. -/
def saveOf (s : State) (c : CoreId) : Save :=
  let k := savingCore s c
  { ctx := k.ctx, logical := coreNumber c k, core := if savesSlot s c then { k with ls := [], acc := [] } else k
    sgen := ctxWord (withdrawParked s c) k.ctx 0x58, jobs := s.jobs.filter (fun j => j.core == c)
    volatile := (findLaunch (withdrawParked s c) k.ctx k.launch).elim [] volatileRanges, page := (withdrawParked s c).fresh }

theorem evictionSave_leaves {s s3 t : State} {c : CoreId} (hlife : (s.core c).life = .saving) (hdrained : drained s c = true)
    (hon : saggarsOn s c = [])
    (hslot : (if savesSlot s c then writeSlot (pagesTaken s c) (savingCore s c).ctx (savingCore s c).logical (saveOf s c).sgen
      (savingCore s c) (saveOf s c).volatile (saveOf s c).page (saveOf s c).jobs else some (pagesTaken s c)) = some s3)
    (hleave : leaveCore s3 c (saveOf s c) ((saveOf s c).page + 1) = some t) : evictionSave s c = t := by
  have hgo : ((s.core c).life != .saving || !drained s c) = false := by rw [hlife, hdrained]; rfl
  have hpages : { withdrawParked s c with fresh := (withdrawParked s c).fresh + 2 } = pagesTaken s c := rfl
  have hcore : writeBack ((withdrawParked s c).core c) = savingCore s c := rfl
  simp only [evictionSave, hgo, hon, hpages, hcore, Bool.false_eq_true, if_false, List.filter_nil, List.foldl_nil,
    List.isEmpty_nil, Bool.not_true]
  simp only [saveOf] at hslot hleave
  cases hl : findLaunch (withdrawParked s c) (savingCore s c).ctx (savingCore s c).launch
  all_goals
    simp only [hl, Option.elim_none, Option.elim_some, savesSlot] at hslot hleave ⊢
    simp only [hslot]
    exact congrArg (fun o => Option.getD o _) hleave

/-! ### Restores of cores (R369-R371) -/

theorem restoredCore_preReq (c : CoreId) (k : Core) (v : Save) (m : Option Mem) : (restoredCore c k v m).preReq = k.preReq := by
  unfold restoredCore
  simp only []
  split <;> rfl

/-- Restored with its jobs queued again, a core that no request has asked for stays. -/
theorem coreRestore_restores {s s1 : State} {c : CoreId} {v : Save} {mem : Option Mem} (hlife : (s.core c).life = .restoring)
    (hsave : s.saves.find? (fun v => v.ctx == (s.core c).ctx && v.core.launch == (s.core c).launch && v.core.cls == c.cls
      && v.logical == coreNumber c (s.core c)) = some v)
    (hmem : (if c.cls == .compute && v.core.pst != .checker then readSlot s v else none) = mem)
    (hread : (c.cls == .compute && v.core.pst != .checker) = true → mem.isNone = false)
    (hfit : jobsFit s c v.jobs = true) (hrow : restoreRow s c = some s1) (hrun : s.health.stopped = false)
    (hreq : (s.core c).preReq = none) :
    coreRestore s c true = requeueJobs ({ s1 with saves := s1.saves.filter (fun x => !(x.ctx == v.ctx && x.logical == v.logical
      && x.core.launch == v.core.launch && x.core.cls == v.core.cls)) }.setCore c (restoredCore c (s.core c) v mem)) c v.jobs := by
  have hgood : ((c.cls == .compute && v.core.pst != .checker) && mem.isNone) = false := Bool.and_eq_false_imp.2 hread
  have hlife' : ((s.core c).life != .restoring) = false := by rw [hlife]; rfl
  simp only [coreRestore, hlife', hrun, hsave, hmem, hgood, hfit, hrow, Bool.not_true, Bool.or_self,
    Bool.false_eq_true, if_false]
  refine takeIfIdle_unasked ?_
  refine (congrArg Core.preReq (core_setCore _ _ _)).trans ((restoredCore_preReq _ _ _ _).trans hreq)

/-! ### Context descriptors (R360) -/

theorem contextDescWrite_writes {s : State} (hctx : s.ev.i < 64) (hoff : s.ev.j < 128) (hal : s.ev.j % 8 = 0)
    (hstays : s.ev.j ≠ 0 ∨ bitAt (memRead s.ctxs (128 * s.ev.i + s.ev.j) 8) 63 = false ∨ bitAt (s.ev.w % 2 ^ 64) 63 = true) :
    exec .contextDescWrite s = .next { s with
      ctxs := memWrite s.ctxs (128 * s.ev.i + s.ev.j) 8
        (natAnd (memRead s.ctxs (128 * s.ev.i + s.ev.j) 8) (natNot 64 (ctxMask s.ev.j)) +
          natAnd (s.ev.w % 2 ^ 64) (ctxMask s.ev.j)) } := by
  show execContextDescWrite s = _
  rw [execContextDescWrite, eventOp, if_pos ⟨hctx, hoff, hal⟩]
  refine congrArg _ (if_neg ?_)
  rintro ⟨hzero, hold, hnew⟩
  obtain h | h | h := hstays
  · exact h hzero
  · exact Bool.false_ne_true (h.symm.trans hold)
  · rw [h] at hnew
    exact Bool.false_ne_true hnew

/-- Settles O51, event by event. -/
theorem evictionAndRestore : Obligations.EvictionAndRestore := by
  unfold Obligations.EvictionAndRestore
  intro s s1 v l e g k withSag
  refine ⟨fun hst => ⟨saggarEvictionEnd_copied hst, saggarEvictionEnd_lost hst⟩, saggarRestoreStart_starts,
    saggarRestoreEnd_resident, fun hreq hlife hpairs => ?request, fun t0 => ?limit,
    fun n hn hl hover hslice => ?slice, fun s3 t => ?save, fun m => ?restore,
    contextDescWrite_writes⟩
  case request =>
    have htaken := requestArrives_taken hreq hlife hpairs
    exact ⟨fun hrunning => congrArg _ (htaken.trans (takeIfIdle_running hrunning)),
      fun hend => congrArg _ (htaken.trans (takeIfIdle_atEnd hend))⟩
  case slice =>
    subst hn
    exact sliceExpiry_marks hl hover hslice
  case limit => exact plimExpiry_ends
  case save =>
    intro slot s0 k1 vol sgen s2 hlife hdrained hon hpst hv hwritten hnoSlot hleave
    have hslot : savesSlot s e.core = slot := congrArg (fun x : PairState => e.core.cls == .compute && x != .checker) hpst
    have hsave : v = saveOf s e.core := by
      rw [hv, saveOf, hslot]
      rfl
    obtain ⟨hfree, hls, hacc, hsaves⟩ := leaveCore_frees hleave
    subst hsave
    refine ⟨congrArg _ (evictionSave_leaves hlife hdrained hon ?_ hleave), hfree, hls, hacc, hsaves⟩
    rw [hslot]
    split
    case isTrue h => exact hwritten h
    case isFalse h => exact congrArg some (hnoSlot (Bool.eq_false_iff.2 h)).symm
  case restore =>
    intro slot hlife hok hsave hread hfit hrow hrun hreq
    have hmem : (if slot then readSlot s v else none) = if slot then some m else none := ite_congr rfl hread fun _ => rfl
    have hhere : slot = true → (if slot then some m else none : Option Mem).isNone = false := fun h => by
      rw [if_pos h]
      rfl
    have hstep := coreRestore_restores hlife hsave hmem hhere hfit hrow hrun hreq
    refine ⟨_, congrArg Host.Outcome.next ((congrArg (coreRestore s e.core) hok).trans hstep), ?_, ?_⟩
    · exact core_setCore _ _ _
    · rfl

end Sys2Proof.Proofs.EvictionAndRestore
end

section
/-!
PROOFS of 25_faults_repairs and 26_power: issue windows, the governor, words and entries found in error, residue failures and
pairs.
-/
namespace Sys2Proof.Proofs.PowerAndHealth

open Sys2Proof.Machine Sys2Proof.Safety Sys2Proof.Proofs.Scope Sys2Proof.Proofs.EvictionAndRestore

/-! ### Issue windows (R448, R449, R451, R453) -/

/-- At a window in which nothing is charged yet, a request is admitted where it fits or there is no debt. -/
theorem admitted_iff {i : Island} {cost : Nat} (hused : i.used = 0) :
    admitted i cost = true ↔ cost + i.debt ≤ i.allow ∨ i.debt = 0 := by
  rw [admitted, hused, Nat.zero_add, Bool.or_eq_true, decide_eq_true_iff, beq_self_eq_true, Bool.true_and, beq_iff_eq]

/-- A write of an island of the list, and what its reader then sees. -/
theorem islandAt_of {s : State} {n : Nat} {i : Island} (h : s.islands[n]? = some i) (j : Island) :
    ({ s with islands := setAt s.islands n j }).islands[n]? = some j := by
  obtain ⟨hn, -⟩ := List.getElem?_eq_some_iff.1 h
  exact List.getElem?_set_self hn

section
variable {s : State} {n fuel : Nat} {i : Island} {d : CoreId} {r : Nat} (h : s.islands[n]? = some i)
include h

/-- The oldest request is served whole, and its core gets its cycles. -/
theorem serveLeave_grants {rest : List (CoreId × Nat)} (hw : i.waits = (d, r) :: rest)
    (hgrant : admitted i (r * i.lgrant) = true) :
    serveLeave n (fuel + 1) s = serveLeave n fuel ({ s with
      islands := setAt s.islands n { i with used := i.used + r * i.lgrant, waits := rest } }.setCore d
        { s.core d with lgot := some r }) := by
  simp only [serveLeave, nth_of_getElem? _ h, hw, hgrant, if_true, modIsland_of_getElem? _ h]
  rfl

/-- One that is not admitted waits, and the window counts it. -/
theorem serveLeave_holds {rest : List (CoreId × Nat)} (hw : i.waits = (d, r) :: rest)
    (hgrant : admitted i (r * i.lgrant) = false) :
    serveLeave n (fuel + 1) s = { s with islands := setAt s.islands n { i with waited := true } } := by
  simp only [serveLeave, nth_of_getElem? _ h, hw, hgrant, Bool.false_eq_true, if_false, modIsland_of_getElem? _ h]

/-- The one request that waits at a window in which nothing is charged yet. -/
theorem serveLeave_single (hw : i.waits = [(d, r)]) (hused : i.used = 0) (hgrant : admitted i (r * i.lgrant) = true) :
    serveLeave n 2 s = { s.setCore d { s.core d with lgot := some r } with
      islands := setAt s.islands n { i with used := r * i.lgrant, waits := [] } } := by
  rw [serveLeave_grants h hw hgrant, hused, Nat.zero_add]
  refine serveLeave_none 1 ?_
  have hserved := islandAt_of h { i with used := r * i.lgrant, waits := [] }
  exact congrArg Island.waits (nth_of_getElem? {} hserved)

theorem issueWindow_serves (hn : n < 16) (hch : i.changing = false) : issueWindow s n =
    serveLeave n (i.waits.length + 1) { s with islands := setAt s.islands n (nextWindow s.gov i) } := by
  have hgo : ¬ (16 ≤ n ∨ i.changing = true) := by
    rintro (hout | hpause)
    · exact Nat.not_lt.2 hout hn
    · exact Bool.false_ne_true (hch.symm.trans hpause)
  rw [issueWindow]
  simp only [nth_of_getElem? _ h, if_neg hgo, modIsland_of_getElem? _ h]

section
variable (hn : n < 16) (hch : i.changing = false)
include hn hch

theorem issueWindow_idle (hw : i.waits = []) :
    issueWindow s n = { s with islands := setAt s.islands n (nextWindow s.gov i) } := by
  rw [issueWindow_serves h hn hch]
  exact serveLeave_none _ ((congrArg Island.waits (nth_of_getElem? {} (islandAt_of h (nextWindow s.gov i)))).trans hw)

theorem issueWindow_grants (hw : i.waits = [(d, r)])
    (hfits : r * i.lgrant + (nextWindow s.gov i).debt ≤ (nextWindow s.gov i).allow ∨ (nextWindow s.gov i).debt = 0) :
    issueWindow s n = { s.setCore d { s.core d with lgot := some r } with
      islands := setAt s.islands n { nextWindow s.gov i with used := r * i.lgrant, waits := [] } } := by
  rw [issueWindow_serves h hn hch, hw]
  refine (serveLeave_single (islandAt_of h (nextWindow s.gov i)) hw rfl ((admitted_iff rfl).2 hfits)).trans ?_
  exact congrArg (fun l => { s.setCore d { s.core d with lgot := some r } with islands := l }) (setAt_setAt _ _ _ _)

theorem issueWindow_refuses (hw : i.waits = [(d, r)])
    (hexceeds : (nextWindow s.gov i).allow < r * i.lgrant + (nextWindow s.gov i).debt) (hdebt : (nextWindow s.gov i).debt ≠ 0) :
    issueWindow s n = { s with islands := setAt s.islands n { nextWindow s.gov i with waited := true } } := by
  have hrefused : admitted (nextWindow s.gov i) (r * i.lgrant) = false :=
    Bool.eq_false_iff.2 (mt (admitted_iff rfl).1 (not_or.2 ⟨Nat.not_le.2 hexceeds, hdebt⟩))
  rw [issueWindow_serves h hn hch, hw]
  refine (serveLeave_holds (islandAt_of h (nextWindow s.gov i)) hw hrefused).trans ?_
  exact congrArg (fun l => { s with islands := l }) (setAt_setAt _ _ _ _)

end

theorem pointChangeEnd_ends (hn : n < 16) (hch : i.changing = true) :
    pointChangeEnd s n = { s with islands := setAt s.islands n { i with changing := false } } := by
  have hgo : ¬ (16 ≤ n ∨ (!i.changing) = true) := by
    rintro (hout | hidle)
    · exact Nat.not_lt.2 hout hn
    · rw [hch] at hidle
      exact Bool.false_ne_true hidle
  rw [pointChangeEnd]
  simp only [nth_of_getElem? _ h, if_neg hgo, modIsland_of_getElem? _ h]

end

/-- The governor's tick, on a measure in its range. -/
theorem governorTick_measured {s : State} {p n : Nat} (hp : p < 2048)
    (hgov : n = if s.plimit < p then max 64 (s.gov - 64) else if p + 60 ≤ s.plimit then min 1024 (s.gov + 32) else s.gov) :
    governorTick s p = { s with
      pmeas := p, gov := n
      islands := s.islands.map (fun i =>
        if (n = 64 ∧ s.plimit < p) ∧ 0 < i.cur then { i with changeTo := some (i.cur - 1) }
        else if n = 1024 ∧ i.cur < i.opt then { i with changeTo := some (i.cur + 1) } else i) } := by
  rw [governorTick]
  simp only [Nat.mod_eq_of_lt hp, ← hgov]

/-! ### Retirement, residue failures and words in error (R437-R439, R445-R447) -/

section
variable {s : State} {row key : Nat}

theorem noteUncorrectable_first (h : s.health.words.contains (row, key) = false) : noteUncorrectable s row key =
    { s with health := { s.health with ue := min (s.health.ue + 1) 0xFFFFFFFF, words := s.health.words ++ [(row, key)] } } := by
  rw [noteUncorrectable, h]
  rfl

theorem noteUncorrectable_again (h : s.health.words.contains (row, key) = true) : noteUncorrectable s row key =
    retireRow { s with health := { s.health with ue := min (s.health.ue + 1) 0xFFFFFFFF } } row := by
  rw [noteUncorrectable, h]
  rfl

theorem recentResidue_iff : (s.health.residue.any (fun e => e.1 == row && decide (s.cycle < e.2 + 600000000))) = true ↔
    ∃ t, (row, t) ∈ s.health.residue ∧ s.cycle < t + 600000000 := by
  rw [List.any_eq_true]
  constructor
  · rintro ⟨⟨r, t⟩, hmem, hrecent⟩
    rw [Bool.and_eq_true, beq_iff_eq, decide_eq_true_iff] at hrecent
    obtain ⟨rfl, ht⟩ := hrecent
    exact ⟨t, hmem, ht⟩
  · rintro ⟨t, hmem, ht⟩
    exact ⟨(row, t), hmem, (Bool.and_eq_true _ _).mpr ⟨beq_self_eq_true row, decide_eq_true ht⟩⟩

theorem noteResidue_first (h : ¬ ∃ t, (row, t) ∈ s.health.residue ∧ s.cycle < t + 600000000) : noteResidue s row = { s with
    health := { s.health with residue := s.health.residue.filter (fun x => x.1 != row) ++ [(row, s.cycle)] } } := by
  rw [noteResidue, Bool.eq_false_iff.2 (mt recentResidue_iff.1 h)]
  rfl

theorem noteResidue_again (h : ∃ t, (row, t) ∈ s.health.residue ∧ s.cycle < t + 600000000) :
    noteResidue s row = retireRow { s with
    health := { s.health with residue := s.health.residue.filter (fun x => x.1 != row) ++ [(row, s.cycle)] } } row := by
  rw [noteResidue, recentResidue_iff.2 h]
  rfl

theorem retireRow_new (h : bitAt s.health.retired row = false) : (retireRow s row).rdy.row = setField s.rdy.row row row 0 ∧
    (retireRow s row).health = { s.health with retired := s.health.retired + 2 ^ row, last := s.cycle } := by
  rw [retireRow, h]
  exact ⟨rfl, rfl⟩

/-- The consecutive passes in which a word was corrected. -/
def passes (h : Health) (key : Nat × Nat) : Nat := ((h.recur.find? (fun x => x.1 == key)).map (·.2)).getD 0

/-- The counts after one more pass that corrects a word. -/
def corrected (h : Health) (key : Nat × Nat) : Health :=
  { h with ce := min (h.ce + 1) 0xFFFFFFFF, recur := h.recur.filter (fun x => x.1 != key) ++ [(key, passes h key + 1)] }

/-- The state that counts a corrected word of a core's store. -/
def correctedOn (s : State) (c : CoreId) (key : Nat × Nat) : State :=
  { s.setCore c { s.core c with eccL := min ((s.core c).eccL + 1) 65535 } with health := corrected s.health key }

section
variable {c : CoreId}

theorem noteCorrected_placed (h : (s.core c).life ≠ .free) : noteCorrected s (some c) row key =
    if 3 ≤ passes s.health (row, key) + 1 then retireRow (correctedOn s c (row, key)) row else correctedOn s c (row, key) := by
  have hplaced : ((s.core c).life == .free) = false := beq_false_of_ne h
  unfold noteCorrected
  simp only [hplaced, Bool.false_eq_true, if_false]
  rfl

theorem noteCorrected_free (h : (s.core c).life = .free) (hpasses : passes s.health (row, key) < 2) :
    noteCorrected s (some c) row key = { s with health := corrected s.health (row, key) } := by
  have hfree : ((s.core c).life == .free) = true := beq_iff_eq.2 h
  have hfew : ¬ 3 ≤ passes s.health (row, key) + 1 := by omega
  unfold noteCorrected
  simp only [hfree, if_true]
  exact if_neg hfew

theorem noteSystemStore_placed (h : (s.core c).life ≠ .free) : noteSystemStore s c =
    { s.setCore c { s.core c with eccL := min ((s.core c).eccL + 1) 65535 } with
      health := { s.health with ce := min (s.health.ce + 1) 0xFFFFFFFF } } := by
  rw [noteSystemStore, beq_false_of_ne h]
  rfl

end
end

/-- The number of a word's first byte is the word's. -/
theorem wordStart (a : Nat) : a / 8 * 8 / 8 * 8 = a / 8 * 8 := by rw [Nat.mul_div_cancel _ (by decide : 0 < 8)]

theorem uncorrectableLocal_clears {s : State} {c : CoreId} {a : Nat} (hc : c.cls = .compute)
    (h : localOwner s c (a / 8 * 8) = none) :
    uncorrectableLocal s c (a / 8 * 8) = noteUncorrectable (s.setCore c
      { s.core c with ls := memClear (s.core c).ls (a / 8 * 8) (a / 8 * 8 + 8) }) (rowOf c) (faultKey (some c) (a / 8 * 8)) := by
  rw [uncorrectableLocal, wordStart, hc]
  simp only [h]
  rfl

theorem uncorrectableRow_halts {s : State} {row a n : Nat} (h : rowOwner s row (a / 8 * 8) = some n) :
    uncorrectableRow s row (a / 8 * 8) = noteUncorrectable (haltContext s n none { cause := .hwfault, addr := a / 8 * 8 }
      (fun g => g.row && (partPlaces s g).contains row)) row (a / 8 * 8) := by
  rw [uncorrectableRow, wordStart]
  simp only [h]
  rfl

/-! ### The scrubber (R436-R438) -/

section
variable {s : State} {w : Nat}

theorem scrub_exec (s : State) : exec .scrub s = .next (scrub s s.ev) := rfl

/-- Two bits in error and more of a word. -/
theorem scrub_localBad (hi : s.ev.i = 0) (hk : 2 ≤ s.ev.k) : scrub s s.ev = uncorrectableLocal s s.ev.core (s.ev.w / 8 * 8) := by
  obtain ⟨m, hm⟩ := Nat.exists_eq_add_of_le' hk
  rw [scrub, hi, hm]
  rfl

theorem scrub_rowBad (hi : s.ev.i = 1) (hk : 2 ≤ s.ev.k) : scrub s s.ev = uncorrectableRow s s.ev.j (s.ev.w / 8 * 8) := by
  obtain ⟨m, hm⟩ := Nat.exists_eq_add_of_le' hk
  rw [scrub, hi, hm]
  rfl

section
variable (hk : s.ev.k ≠ 0)
include hk

theorem scrub_tlb (hi : s.ev.i = 4) :
    scrub s s.ev = dropTlb s s.ev.core (if s.ev.ok then none else some s.ev.j) s.ev.w := by
  obtain ⟨m, hm⟩ := Nat.exists_eq_succ_of_ne_zero hk
  rw [scrub, hi, hm]
  rfl

theorem scrub_inlineCache (hi : s.ev.i = 5) : scrub s s.ev =
    s.setCore s.ev.core { s.core s.ev.core with ic := aerase s.ev.w (s.core s.ev.core).ic } := by
  obtain ⟨m, hm⟩ := Nat.exists_eq_succ_of_ne_zero hk
  rw [scrub, hi, hm]
  rfl

theorem scrub_entry (hi : s.ev.i = 6) : scrub s s.ev = uncorrectableEntry s s.ev.core s.ev.w := by
  obtain ⟨m, hm⟩ := Nat.exists_eq_succ_of_ne_zero hk
  rw [scrub, hi, hm]
  rfl

theorem scrub_hotLine (hi : s.ev.i = 7) : scrub s s.ev = uncorrectableHot s s.ev.w := by
  obtain ⟨m, hm⟩ := Nat.exists_eq_succ_of_ne_zero hk
  rw [scrub, hi, hm]
  rfl

end
end

section
variable {s : State} {c : CoreId}

theorem uncorrectableEntry_halts (n : Nat) (h : (s.core c).life ≠ .free) : uncorrectableEntry s c n =
    haltContext { s with health := { s.health with ue := min (s.health.ue + 1) 0xFFFFFFFF } } (s.core c).ctx (some c)
      { cause := .hwfault, addr := ownWindow c (s.core c) } (fun _ => false) := by
  rw [uncorrectableEntry, beq_false_of_ne h]
  rfl

theorem uncorrectableHot_halts {n : Nat} {x : HotLine} (h : s.hot[n]? = some x) : uncorrectableHot s n =
    haltContext { s with health := { s.health with ue := min (s.health.ue + 1) 0xFFFFFFFF }, hot := dropAt s.hot n } x.ctx none
      { cause := .hwfault, addr := x.va } (fun _ => false) := by
  rw [uncorrectableHot, h]
  rfl

/-! ### Vector units (R439, R446) -/

theorem noteVector_compute (h : c.cls = .compute) : noteVector s c = noteResidue s (rowOf c) := by
  rw [noteVector, h]
  rfl

theorem noteVector_other (h : c.cls ≠ .compute) : noteVector s c = s := by
  rw [noteVector, beq_false_of_ne h]
  rfl

theorem vectorCompletion_passed (masked : Bool) (h : (s.core c).vpend = true) : vectorCompletion s c true masked =
    if masked then noteVector (s.setCore c { s.core c with vpend := false }) c
    else s.setCore c { s.core c with vpend := false } := by
  rw [vectorCompletion, h]
  rfl

theorem vectorCompletion_failed (masked : Bool) (h : (s.core c).vpend = true) : vectorCompletion s c false masked =
    noteVector (noteVector (haltContext s (s.core c).ctx (some c) { cause := .hwfault } (fun _ => false)) c) c := by
  rw [vectorCompletion, h]
  rfl

/-! ### Pairs (R442-R444) -/

theorem pairFault_store (ps : List Nat) (addr : Nat) (h : (s.core c).pst = .primary) : pairFault s c true ps addr =
    haltContext s (s.core c).ctx (some c) { cause := .pair, sub := 1, addr := addr } (sagInCore s c) := by
  rw [pairFault, h]
  rfl

theorem pairFault_repeated (ps : List Nat) (addr : Nat) (h : (s.core c).pst = .primary) (hruns : 3 ≤ (s.core c).pairRuns) :
    pairFault s c false ps addr =
      haltContext (retireRow s (rowOf c)) (s.core c).ctx (some c) { cause := .pair, sub := 3, addr := addr } (sagInCore s c) := by
  rw [pairFault, h]
  exact if_pos hruns

theorem pairFault_aborts (ps : List Nat) (addr : Nat) (h : (s.core c).pst = .primary) (hruns : (s.core c).pairRuns < 3) :
    pairFault s c false ps addr = closeFiring (stopPackets
      ((queueRecord s (s.core c).ctx (pairRecord s c 0 (pairAddr s ps addr))).setCore c
        { s.core c with mism := min 255 ((s.core c).mism + 1), pairRuns := (s.core c).pairRuns + 1 }) c ps) c .abort := by
  have hprimary : ((s.core c).pst != .primary) = false := by rw [h]; rfl
  rw [pairFault]
  simp only [hprimary, Bool.false_eq_true, if_false, if_neg (Nat.not_le.2 hruns)]

theorem evenHalf (n : Nat) : 2 * n % 2 = 0 ∧ 2 * n / 2 = n := by omega

section
variable {n : Nat} {a : Acc} (h : s.fab[n]? = some a)
include h

theorem pairAddr_access (addr : Nat) : pairAddr s [2 * n] addr = a.va := by
  obtain ⟨heven, hhalf⟩ := evenHalf n
  rw [pairAddr, if_pos heven, hhalf, h]
  rfl

theorem stopPackets_access (hsrc : a.src = c) (hport : a.atPort = true) :
    stopPackets s c [2 * n] = State.setCore { s with fab := dropAt s.fab n } c ((s.core c).settled a) := by
  obtain ⟨heven, hhalf⟩ := evenHalf n
  have hstop : (a.src == c && a.atPort) = true := by rw [hsrc, hport, beq_self_eq_true]; rfl
  show (if 2 * n % 2 = 0 then stopAcc s c (2 * n / 2) else stopMsg s c (2 * n / 2)) = _
  rw [if_pos heven, hhalf, stopAcc, h]
  exact if_pos hstop

end

/-- A core that waits for its partner to couple, and runs nothing. -/
theorem couples_iff {k : Core} (hreq : k.pairReq = 3) (hrun : k.run = .idle) (hlife : k.life = .active) :
    ¬ (k.pairReq ≠ 3 ∨ k.run ≠ .idle ∨ k.life ≠ .active) := by
  rintro (h | h | h)
  · exact h hreq
  · exact h hrun
  · exact h hlife

section
variable (hother : pid (partnerOf s c) ≠ pid c) (hreq : (s.core c).pairReq = 3) (hrun : (s.core c).run = .idle)
  (hlife : (s.core c).life = .active)
include hother hreq hrun hlife

theorem couplingCopy_begins (hpst : (s.core c).pst ≠ .coupling) (hidle : partnerIdle s (partnerOf s c) = true)
    (hkey : (s.core (partnerOf s c)).lkey = (s.core c).lkey) : couplingCopy s c =
      (s.setCore c { s.core c with pst := .coupling, sleeping := true }).setCore (partnerOf s c)
        { s.core (partnerOf s c) with pst := .coupling, sleeping := true } := by
  have hstart : ((s.core c).pst != .coupling) = true := bne_iff_ne.2 hpst
  have hmeet : (partnerIdle s (partnerOf s c) && (s.core (partnerOf s c)).lkey == (s.core c).lkey) = true := by
    rw [hidle, hkey, beq_self_eq_true]
    rfl
  rw [couplingCopy]
  simp only [if_neg (couples_iff hreq hrun hlife), hstart, hmeet, if_true, modCore_eq, core_setCore_ne s _ hother]

/-- The checker of a pair: its primary's registers, store and tables, with a slice of its own. -/
def checkerOf (k q : Core) (place : Nat) : Core :=
  { q with
    ls := k.ls, sh := k.sh, tiles := k.tiles, chans := k.chans, hdrs := k.hdrs, ttb := k.ttb, att := k.att, wp := k.wp
    flags := k.flags, mask := k.mask, gbarc := k.gbarc, kgc := k.kgc, midc := k.midc, jobc := k.jobc, acc := []
    pst := .checker, partner := place, sleeping := false, mism := 0, life := .active }

theorem couplingCopy_ends (hpst : (s.core c).pst = .coupling) (hunasked : (s.core c).preReq = none)
    (hpartner : (s.core (partnerOf s c)).preReq = none) : couplingCopy s c =
      (s.setCore (partnerOf s c) (checkerOf (s.core c) (s.core (partnerOf s c)) (placeOf c))).setCore c
        { s.core c with pst := .primary, pairReq := 0, sleeping := false, mism := 0, pairRuns := 0 } := by
  have hend : ((s.core c).pst != .coupling) = false := by rw [hpst]; rfl
  rw [couplingCopy]
  simp only [if_neg (couples_iff hreq hrun hlife), hend, Bool.false_eq_true, if_false]
  rw [takeIfIdle_unasked (c := c)]
  · refine takeIfIdle_unasked ?_
    rw [core_setCore_ne _ _ hother, core_setCore]
    exact hpartner
  · rw [core_setCore]
    exact hunasked

end

theorem couplingAbandon_alone (hreq : (s.core c).pairReq = 3) (hpst : (s.core c).pst ≠ .coupling)
    (hsingle : (s.core (partnerOf s c)).pst ≠ .checker ∨ (s.core (partnerOf s c)).lkey ≠ (s.core c).lkey) :
    abandonCoupling s c = s.setCore c { s.core c with pairReq := 4 } := by
  have hkept : ¬ ((s.core (partnerOf s c)).pst = .checker ∧ (s.core (partnerOf s c)).lkey = (s.core c).lkey) :=
    Classical.not_and_iff_not_or_not.2 hsingle
  rw [abandonCoupling]
  refine (if_pos ⟨hreq, hpst⟩).trans ?_
  exact congrArg (fun t : State => t.modCore c (fun k => { k with pairReq := 4 })) (if_neg hkept)

theorem couplingAbandon_uncouples (hreq : (s.core c).pairReq = 3) (hpst : (s.core c).pst ≠ .coupling)
    (hchecker : (s.core (partnerOf s c)).pst = .checker) (hkey : (s.core (partnerOf s c)).lkey = (s.core c).lkey) :
    abandonCoupling s c = (uncouple s c).setCore c { (uncouple s c).core c with pairReq := 4 } := by
  rw [abandonCoupling]
  refine (if_pos ⟨hreq, hpst⟩).trans ?_
  exact congrArg (fun t : State => t.modCore c (fun k => { k with pairReq := 4 })) (if_pos ⟨hchecker, hkey⟩)

end

/-- Settles O57: the power management's events, then what is found in error, then the pairs. -/
theorem powerAndHealth : Obligations.PowerAndHealth := by
  unfold Obligations.PowerAndHealth
  intro s s1 i n p r d k q a e c w h boundary cost seen counted
  refine ⟨fun hei hn hlen hi hch => ?window, fun hei hn hi hch => ?pause, fun hew hp hgov => ?governor,
    fun found hfound => ⟨fun hnew => hfound ▸ noteUncorrectable_first hnew, fun hagain => hfound ▸ noteUncorrectable_again hagain⟩,
    fun failed hfailed => ⟨fun hnew => hfailed ▸ noteResidue_first hnew, fun hagain => hfailed ▸ noteResidue_again hagain⟩,
    retireRow_new, fun hei hek hc hk => ?corrected, fun hei hek hc hk hlife => ?systemStore, fun hei hek => ?clean,
    fun hei hek hc howner => ?cleared, fun hei hek howner => ?rowHalts, fun hek hei => ⟨fun hc hok => ?rowTlb,
      fun hc hok => ?coreTlb, fun hok => ?domainTlb⟩, fun hek hei => congrArg Host.Outcome.next (scrub_inlineCache hek hei),
    fun found hfound hek => ⟨fun hei hk hlife => ?entry, fun x hei hx => ?hotLine⟩,
    fun hk hv hok => ⟨fun hunmasked => ?passed, fun hmasked hc => ?masked⟩, fun hk hv hok hc => ?vectorFault,
    fun hk hpst => ⟨fun hei hruns hs1 => ?lag, fun hei hruns => ?repeated, fun hei => ?storeDiffers⟩,
    ⟨rfl, rfl⟩, fun ha hsrc hport => ⟨pairAddr_access ha p, stopPackets_access ha hsrc hport⟩,
    fun hk hd hq hother hreq hrun hlife => ?coupling, fun hk hd hq hreq hpst => ?abandon⟩
  case window =>
    subst hei
    have hboundary : nextWindow s.gov i = boundary := by rw [nextWindow, hch, Bool.false_or]
    refine ⟨fun hw => ?_, fun hw hfits => ?_, fun hw hexceeds hdebt => ?_⟩
    · have hwindow := issueWindow_idle hi hn hch hw
      rw [hboundary] at hwindow
      exact congrArg Host.Outcome.next hwindow
    · have hwindow := issueWindow_grants hi hn hch hw hfits
      rw [hboundary] at hwindow
      exact congrArg Host.Outcome.next hwindow
    · have hwindow := issueWindow_refuses hi hn hch hw hexceeds hdebt
      rw [hboundary] at hwindow
      exact congrArg Host.Outcome.next hwindow
  case pause =>
    subst hei
    exact congrArg Host.Outcome.next (pointChangeEnd_ends hi hn hch)
  case governor => exact congrArg Host.Outcome.next ((congrArg (governorTick s) hew).trans (governorTick_measured hp hgov))
  case corrected =>
    subst hk
    have hscrub : scrub s e = noteCorrected s (some c) (rowOf c) (faultKey (some c) w) := by
      rw [scrub, hei, hek]
      exact if_pos (beq_iff_eq.2 hc)
    refine ⟨fun hlife hseen => congrArg Host.Outcome.next ?_, fun hlife hseen => congrArg Host.Outcome.next ?_,
      fun hlife hseen => congrArg Host.Outcome.next ?_⟩
    · exact (hscrub.trans (noteCorrected_placed hlife)).trans (if_neg (Nat.not_le.2 (Nat.succ_lt_succ hseen)))
    · exact (hscrub.trans (noteCorrected_placed hlife)).trans (if_pos (Nat.succ_le_succ hseen))
    · exact hscrub.trans (noteCorrected_free hlife hseen)
  case systemStore =>
    subst hk
    have hscrub : scrub s e = noteSystemStore s c := by
      rw [scrub, hei, hek]
      exact if_neg (by rwa [beq_iff_eq])
    exact congrArg Host.Outcome.next (hscrub.trans (noteSystemStore_placed hlife))
  case clean =>
    have hscrub : scrub s e = noteClean s e.j w := by
      rw [scrub, hei, hek]
      rfl
    exact congrArg Host.Outcome.next hscrub
  case cleared => exact congrArg Host.Outcome.next ((scrub_localBad hei hek).trans (uncorrectableLocal_clears hc howner))
  case rowHalts => exact congrArg Host.Outcome.next ((scrub_rowBad hei hek).trans (uncorrectableRow_halts howner))
  case rowTlb =>
    have hdrop := (scrub_tlb hek hei).trans (congrArg (dropTlb s c · e.w) (if_pos hok))
    exact congrArg Host.Outcome.next (hdrop.trans (if_pos (beq_iff_eq.2 hc)))
  case coreTlb =>
    have hdrop := (scrub_tlb hek hei).trans (congrArg (dropTlb s c · e.w) (if_pos hok))
    exact congrArg Host.Outcome.next (hdrop.trans (if_neg (by rwa [beq_iff_eq])))
  case domainTlb =>
    have hdrop := (scrub_tlb hek hei).trans (congrArg (dropTlb s c · e.w) (if_neg (Bool.eq_false_iff.1 hok)))
    exact congrArg Host.Outcome.next hdrop
  case entry =>
    subst hk hfound
    exact congrArg Host.Outcome.next ((scrub_entry hek hei).trans (uncorrectableEntry_halts _ hlife))
  case hotLine =>
    subst hfound
    exact congrArg Host.Outcome.next ((scrub_hotLine hek hei).trans (uncorrectableHot_halts hx))
  case passed =>
    subst hk
    have hdone := (congrArg (vectorCompletion s c · (e.k == 1)) hok).trans (vectorCompletion_passed _ hv)
    refine congrArg Host.Outcome.next (hdone.trans ?_)
    obtain hk1 | hc := hunmasked
    · exact if_neg (by rwa [beq_iff_eq])
    · rw [noteVector_other hc, ite_self]
  case masked =>
    subst hk
    have hdone := (congrArg (vectorCompletion s c · (e.k == 1)) hok).trans (vectorCompletion_passed _ hv)
    exact congrArg Host.Outcome.next (hdone.trans ((if_pos (beq_iff_eq.2 hmasked)).trans (noteVector_compute hc)))
  case vectorFault =>
    subst hk
    have hdone := (congrArg (vectorCompletion s c · (e.k == 1)) hok).trans (vectorCompletion_failed _ hv)
    rw [noteVector_compute hc, noteVector_compute hc] at hdone
    exact congrArg Host.Outcome.next hdone
  case lag =>
    subst hk hs1
    exact congrArg Host.Outcome.next ((congrArg (pairFault s c · e.nats e.w) (beq_false_of_ne hei)).trans
      (pairFault_aborts _ _ hpst hruns))
  case repeated =>
    subst hk
    exact congrArg Host.Outcome.next ((congrArg (pairFault s c · e.nats e.w) (beq_false_of_ne hei)).trans
      (pairFault_repeated _ _ hpst hruns))
  case storeDiffers =>
    subst hk
    exact congrArg Host.Outcome.next ((congrArg (pairFault s c · e.nats e.w) (beq_iff_eq.2 hei)).trans
      (pairFault_store _ _ hpst))
  case coupling =>
    subst hk
    subst hd
    subst hq
    exact ⟨fun hpst hidle hkey => congrArg Host.Outcome.next (couplingCopy_begins hother hreq hrun hlife hpst hidle hkey),
      fun hpst hunasked hpartner =>
        congrArg Host.Outcome.next (couplingCopy_ends hother hreq hrun hlife hpst hunasked hpartner)⟩
  case abandon =>
    subst hk
    subst hd
    subst hq
    exact ⟨fun hsingle => congrArg Host.Outcome.next (couplingAbandon_alone hreq hpst hsingle),
      fun hchecker hkey => congrArg Host.Outcome.next (couplingAbandon_uncouples hreq hpst hchecker hkey)⟩

end Sys2Proof.Proofs.PowerAndHealth
end

section
/-!
PROOFS of 27_bringup: power-up, FWGO, self-tests and attestation.
-/
namespace Sys2Proof.Proofs.BringUp

open Sys2Proof.Machine Sys2Proof.Safety

/-! ### Power-up (R455-R458) -/

/-- A record that bring-up takes: its mark, its reserved bits and its signature. -/
def recordGood (f : Mem) : Prop :=
  memRead f 0 4 = 0x5A96C0F1 ∧ recordClean f = true ∧ Config.rootVerify (memBytes f 0 0x180) (memBytes f 0x180 132) = true

/-- The helper data that the record names. -/
def helperOf (f : Mem) : List Byte := memBytes f (memRead f 0x170 4) 512

/-- Bring-up stopped in a stage by a check that fails. -/
def stopped (s : State) (stage err : Nat) : State := { s with rdy := { s.rdy with stage := stage, error := err, host := true } }

section
variable {s : State} {len : Nat}

theorem bringUp_badRecord (h : ¬ recordGood s.sec.flash) : bringUp s len = stopped s 2 2 := by
  have hbad : memRead s.sec.flash 0 4 ≠ 0x5A96C0F1 ∨ (!recordClean s.sec.flash) = true ∨
      (!Config.rootVerify (memBytes s.sec.flash 0 0x180) (memBytes s.sec.flash 0x180 132)) = true := by
    rwa [Bool.not_eq_true', Bool.not_eq_true', ← Bool.not_eq_true, ← Bool.not_eq_true,
      ← Classical.not_and_iff_not_or_not, ne_eq, ← Classical.not_and_iff_not_or_not]
  rw [bringUp]
  exact if_pos hbad

section
variable (h : recordGood s.sec.flash)
include h

/-- Past the record's own checks, the helper data decides. -/
theorem bringUp_helper : bringUp s len =
    if (!Config.pufOk (helperOf s.sec.flash)) = true then stopped s 1 1
    else if memRead s.sec.flash 8 8 ≠ (Config.pufSerial (helperOf s.sec.flash)).toNat then stopped s 2 2
    else applyRecord { s with rdy := { s.rdy with stage := 2 } } len := by
  obtain ⟨hmark, hclean, hsigned⟩ := h
  have hgood : ¬ (memRead s.sec.flash 0 4 ≠ 0x5A96C0F1 ∨ (!recordClean s.sec.flash) = true ∨
      (!Config.rootVerify (memBytes s.sec.flash 0 0x180) (memBytes s.sec.flash 0x180 132)) = true) := by
    rw [hclean, hsigned]
    rintro (hbad | hbad | hbad)
    · exact hbad hmark
    · exact Bool.false_ne_true hbad
    · exact Bool.false_ne_true hbad
  rw [bringUp]
  exact if_neg hgood

theorem bringUp_noHelper (hpuf : Config.pufOk (helperOf s.sec.flash) = false) : bringUp s len = stopped s 1 1 := by
  rw [bringUp_helper h, hpuf]
  rfl

variable (hpuf : Config.pufOk (helperOf s.sec.flash) = true)
include hpuf

theorem bringUp_otherDevice (hserial : memRead s.sec.flash 8 8 ≠ (Config.pufSerial (helperOf s.sec.flash)).toNat) :
    bringUp s len = stopped s 2 2 := by
  rw [bringUp_helper h, hpuf, if_pos hserial]
  rfl

theorem bringUp_applies (hserial : memRead s.sec.flash 8 8 = (Config.pufSerial (helperOf s.sec.flash)).toNat) :
    bringUp s len = applyRecord { s with rdy := { s.rdy with stage := 2 } } len := by
  rw [bringUp_helper h, hpuf]
  exact (if_neg Bool.false_ne_true).trans (if_neg fun hother => hother hserial)

end

theorem applyRecord_hostBoot (h : bitAt (memRead s.sec.flash 0x18 8) 0 = false) : applyRecord s len = { s with
    sec := { s.sec with
      retire := natOr (memRead s.sec.flash 0x20 256) (cutRows (recordHops s.sec.flash)), nearDis := memRead s.sec.flash 0x120 4
      farDis := memRead s.sec.flash 0x124 1, linkDis := memRead s.sec.flash 0x126 2, hops := recordHops s.sec.flash }
    rdy := { s.rdy with stage := 3 } } := by
  rw [applyRecord]
  exact if_neg (Bool.eq_false_iff.1 h)

end

theorem powerUp_exec {s t : State} (h : bringUp (powerCycle s) s.ev.w = t) : exec .powerUp s = .next t :=
  congrArg Host.Outcome.next h

/-! ### FWGO (R458, R467) -/

section
variable {s : State}

section
variable (hstage : s.rdy.stage = 3) (herror : s.rdy.error = 0) (hboot : bitAt (memRead s.sec.flash 0x18 8) 0 = false)
  (hgo : s.hport.fwgo = false)
include hstage herror hboot hgo

theorem goFirmware_goes : goFirmware s =
    if s.hport.fwlen = 0 then stopped { s with hport := { s.hport with fwgo := true } } 3 3
    else bootImage { s with hport := { s.hport with fwgo := true } } (memBytes s.hport.bar2 0 s.hport.fwlen) := by
  have hwaits : s.rdy.stage = 3 ∧ s.rdy.error = 0 ∧ (!bitAt (memRead s.sec.flash 0x18 8) 0) = true ∧
      (!s.hport.fwgo) = true := ⟨hstage, herror, congrArg not hboot, congrArg not hgo⟩
  rw [goFirmware]
  refine (if_pos hwaits).trans (ite_congr rfl (fun _ => ?_) (fun _ => rfl))
  rw [bringUpError, stopped]
  simp only [hstage]

end

/-- An image is verified: it has its least length, and its signature is one of the root keys'. -/
def imageVerified (img : List Byte) : Prop :=
  196 ≤ img.length ∧ Config.rootVerify (img.take (img.length - 132)) (img.drop (img.length - 132)) = true

theorem verifyImage_iff {img : List Byte} : verifyImage img = true ↔ imageVerified img := by
  rw [verifyImage, Bool.and_eq_true, decide_eq_true_iff, imageVerified]

section
variable {img : List Byte}

theorem bootImage_unverified (hstage : s.rdy.stage = 3) (h : ¬ imageVerified img) : bootImage s img = stopped s 3 3 := by
  rw [bootImage, Bool.eq_false_iff.2 (mt verifyImage_iff.1 h), stopped, ← hstage]
  rfl

section
variable (h : imageVerified img)
include h

theorem bootImage_old (hstage : s.rdy.stage = 3) (hold : ofBytes (img.take 4) < memRead s.sec.flash 0x10 4) :
    bootImage s img = stopped s 3 4 := by
  rw [bootImage, verifyImage_iff.2 h, stopped, ← hstage]
  exact if_pos hold

theorem bootImage_measures (hnew : memRead s.sec.flash 0x10 4 ≤ ofBytes (img.take 4)) :
    let mr0 := extendMr (List.replicate 64 0) (Config.sha512 (img.take (img.length - 132))).toList
    bootImage s img = { s with
      sec := { s.sec with
        mr0 := mr0, mr1 := extendMr mr0 (Config.sha512 (memBytes s.sec.flash 0 0x204)).toList, fwver := ofBytes (img.take 4) }
      rdy := { s.rdy with stage := 4 } } := by
  rw [bootImage, verifyImage_iff.2 h]
  exact if_neg (Nat.not_lt.2 hnew)

end
end

/-! ### Self-tests (R455, R459, R461) -/

section
variable (hstage : 4 ≤ s.rdy.stage) (herror : s.rdy.error = 0) (hok : s.ev.ok = true)
include hstage herror hok

theorem selfTest_counts : ¬ (s.rdy.stage < 4 ∨ s.rdy.error ≠ 0 ∨ (!s.ev.ok) = true) := by
  rw [hok]
  rintro (h | h | h)
  · exact Nat.not_lt.2 hstage h
  · exact h herror
  · exact Bool.false_ne_true h

theorem selfTest_ends (hi : s.ev.i = 12) : exec .selfTestDone s = .next { s with rdy := { s.rdy with stage := 5 } } := by
  show execSelfTestDone s = _
  rw [execSelfTestDone, eventOp, if_neg (selfTest_counts hstage herror hok), if_pos hi]

theorem selfTest_readies {kind : Nat} (hi : s.ev.i = kind) (hkind : kind ≠ 12) :
    exec .selfTestDone s = .next (setReady s kind s.ev.j) := by
  show execSelfTestDone s = _
  rw [execSelfTestDone, eventOp, if_neg (selfTest_counts hstage herror hok), hi, if_neg hkind]

end

section
variable {j : Nat}

theorem setReady_row (hj : j < 2048) (h : (bitAt s.sec.retire j || bitAt s.health.retired j) = false) : setReady s 0 j = { s with
    rdy := { s.rdy with row := natOr s.rdy.row (2 ^ j) }, freed := s.freed ++ (rowCores j).map (fun c => (c, s.cycle)) } :=
  if_pos ⟨hj, congrArg not h⟩

theorem setReady_rowOut (h : (bitAt s.sec.retire j || bitAt s.health.retired j) = true) : setReady s 0 j = s :=
  if_neg fun hin => Bool.false_ne_true ((congrArg not h).symm.trans hin.2)

theorem setReady_near (hj : j < 32) (h : bitAt s.sec.nearDis j = false) :
    setReady s 2 j = { s with rdy := { s.rdy with near := natOr s.rdy.near (2 ^ j) } } := if_pos ⟨hj, congrArg not h⟩

theorem setReady_far (hj : j < 8) (h : bitAt s.sec.farDis j = false) :
    setReady s 3 j = { s with rdy := { s.rdy with far := natOr s.rdy.far (2 ^ j) } } := if_pos ⟨hj, congrArg not h⟩

/-- Two expanders of four, of 4 and 2 units. -/
theorem setReady_cxl (hj : j < 2) (h : s.hport.expCaps = [4, 0, 2, 0]) : setReady s 4 j = { s with
    rdy := { s.rdy with cxl := natOr s.rdy.cxl (2 ^ j) }, hport := { s.hport with cxlcap := 6, xpres := 5 } } := by
  have hexp : programExpanders s = { s with hport := { s.hport with cxlcap := 6, xpres := 5 } } := by
    rw [programExpanders, h]
    rfl
  refine (if_pos hj).trans ?_
  rw [hexp]
  rfl

theorem setReady_link (hj : j < 16) (h : (bitAt s.sec.linkDis j || (nth s.links j {}).down) = false) : setReady s 6 j = { s with
    rdy := { s.rdy with link := natOr s.rdy.link (2 ^ j) }
    links := setAt s.links j { nth s.links j {} with up := true } } := if_pos ⟨hj, congrArg not h⟩

end

/-! ### Attestation (R462, R463) -/

theorem sysPutBlock_request (ctx v : Nat) (h : s.sec.queue.length < 4) : sysPutBlock s ctx 0xAA01000 v =
    { s with sec := { s.sec with queue := s.sec.queue ++ [(ctx, v)] } } := by
  rw [sysPutBlock, if_neg (by decide), if_neg (by decide), if_neg (by decide), if_neg (by decide), if_neg (by decide),
    if_neg (by decide), if_pos (by decide), if_pos ⟨rfl, h⟩]

section
variable (hright : actRight s s.ev.i 6 true = true)
include hright

theorem attestRequest_exec : exec .attestRequest s = .next (attestRequest s s.ev.i s.ev.w) := by
  show execAttestRequest s = _
  rw [execAttestRequest, eventOp, if_pos hright]

theorem attestRequest_queues (hroom : s.sec.queue.length < 4) : exec .attestRequest s =
    .next { s with sec := { s.sec with queue := s.sec.queue ++ [(s.ev.i, s.ev.w)] } } := by
  rw [attestRequest_exec hright, attestRequest, if_pos hroom, sysPutBlock_request _ _ hroom]

theorem attestRequest_full {m : Nat} {s1 : State} (hfull : 4 ≤ s.sec.queue.length)
    (hbox : svcWord s s.ev.i (s.ev.w + 80) 8 = some m)
    (hmail : writeMailboxBy sysPutBlock s s.ev.i m (2 ^ 62 + 3) = some s1) : exec .attestRequest s = .next s1 := by
  rw [attestRequest_exec hright, attestRequest, if_neg (Nat.not_lt.2 hfull), hbox]
  simp only [hmail, Option.getD_some]

end

/-- A word of an attestation block, and the 64 bytes that it gives. -/
def blockWord (bs : List Byte) (i : Nat) : Nat := ofBytes ((bs.drop (8 * i)).take 8)
def blockValue (bs : List Byte) : List Byte := (bs.drop 8).take 64

/-- The state once the oldest request has been taken. -/
def requestTakenFrom (s : State) (q : List (Nat × Nat)) : State := { s with sec := { s.sec with queue := q } }

theorem attestServe_exec {r addr : Nat} {q : List (Nat × Nat)} (h : s.sec.queue = (r, addr) :: q) :
    exec .attestServe s = .next (serveRequest (requestTakenFrom s q) r addr) := by
  show execAttestServe s = _
  simp only [execAttestServe, eventOp, h]
  rfl

section
variable {r addr : Nat} {bs : List Byte} (hread : svcRead s r addr 128 = some bs)
include hread

theorem serveRequest_extends {s1 : State} (hop : blockWord bs 0 = 1)
    (hmail : writeMailbox { s with sec := { s.sec with mr2 := extendMr s.sec.mr2 (blockValue bs) } } r (blockWord bs 10)
      (2 ^ 63) = some s1) : serveRequest s r addr = s1 := by
  simp only [blockWord, blockValue] at hop hmail
  simp only [serveRequest, hread, hop, hmail, Option.getD_some]

theorem serveRequest_reports {s1 s2 : State} (hop : blockWord bs 0 = 0)
    (hreport : svcWrite s r (blockWord bs 9) (reportBytes s (blockValue bs)) = some s1)
    (hmail : writeMailbox s1 r (blockWord bs 10) (2 ^ 63) = some s2) : serveRequest s r addr = s2 := by
  simp only [blockWord, blockValue] at hop hreport hmail
  simp only [serveRequest, hread, hop, hreport, hmail, Option.getD_some]

end
end

/-- Settles O58: power-up, then FWGO, the self-tests, and attestation. -/
theorem bringUp : Obligations.BringUp := by
  unfold Obligations.BringUp
  intro s s1 s2 r m addr bs q e f dark helper signed good stop waiting going img body verified sha mr0 tested rd set' word val
  refine ⟨fun hbad => powerUp_exec (bringUp_badRecord (s := powerCycle s) hbad),
    fun hgood hpuf => powerUp_exec (bringUp_noHelper (s := powerCycle s) hgood hpuf),
    fun hgood hpuf hserial => powerUp_exec (bringUp_otherDevice (s := powerCycle s) hgood hpuf hserial),
    fun hgood hpuf hserial hboot =>
      powerUp_exec ((bringUp_applies (s := powerCycle s) hgood hpuf hserial).trans (applyRecord_hostBoot hboot)),
    fun ⟨hstage, herror, hboot, hgo⟩ => ?fwgo, fun ⟨hstage, herror, hok⟩ => ?selfTest,
    fun hright => ⟨attestRequest_queues hright, attestRequest_full hright⟩,
    fun hq hread => ⟨fun hop hmail => ?extended, fun hop hreport hmail => ?reports⟩⟩
  case fwgo =>
    have hgoes := goFirmware_goes hstage herror hboot hgo
    refine ⟨fun hbad => congrArg Host.Outcome.next (hgoes.trans ?_),
      fun hlen hver hold => congrArg Host.Outcome.next (hgoes.trans ((if_neg hlen).trans (bootImage_old hver hstage hold))),
      fun hlen hver hnew => congrArg Host.Outcome.next (hgoes.trans ((if_neg hlen).trans (bootImage_measures hver hnew)))⟩
    by_cases hlen : s.hport.fwlen = 0
    · exact if_pos hlen
    · exact (if_neg hlen).trans (bootImage_unverified hstage (hbad.resolve_left hlen))
  case selfTest =>
    have hset : ∀ {kind : Nat} {t : State}, e.i = kind → kind ≠ 12 → setReady s kind e.j = t → exec .selfTestDone s = .next t :=
      fun hi hkind ht => (selfTest_readies hstage herror hok hi hkind).trans (congrArg Host.Outcome.next ht)
    exact ⟨selfTest_ends hstage herror hok,
      fun hi hj => ⟨fun hin => hset hi (by decide) (setReady_row hj hin), fun hout => hset hi (by decide) (setReady_rowOut hout)⟩,
      fun hi hj => hset hi (by decide) (if_pos hj), fun hi hj hin => hset hi (by decide) (setReady_near hj hin),
      fun hi hj hin => hset hi (by decide) (setReady_far hj hin), fun hi hj hcaps => hset hi (by decide) (setReady_cxl hj hcaps),
      fun hi => hset hi (by decide) rfl, fun hi hj hin => hset hi (by decide) (setReady_link hj hin),
      fun hi hj => hset hi (by decide) (if_pos hj), fun hi hj => hset hi (by decide) (if_pos hj),
      fun hi hj => hset hi (by decide) (if_pos hj), fun hi hj => hset hi (by decide) (if_pos hj),
      fun hi hj => hset hi (by decide) (if_pos hj)⟩
  case extended =>
    exact (attestServe_exec hq).trans (congrArg Host.Outcome.next (serveRequest_extends hread hop hmail))
  case reports =>
    exact (attestServe_exec hq).trans (congrArg Host.Outcome.next (serveRequest_reports hread hop hreport hmail))

end Sys2Proof.Proofs.BringUp
end
